-- ==== Sys2Proof/Word.lean ====
section
/-! DEFINITION. The word types of the ZH-16 (R2, R3) and their plainest arithmetic. -/

namespace Sys2Proof

/-- A byte of memory. -/
abbrev Byte := BitVec 8
/-- A scalar register, a C-word, a control and status register: 64 bits. -/
abbrev Word := BitVec 64
/-- A V-word: 128 bits (R62). -/
abbrev VWordBits := BitVec 128
/-- A vector register: 128 bytes (R20). -/
abbrev VReg := BitVec 1024

/-- The signed reading of a word (s64, R19). -/
def Word.s64 (w : Word) : Int := w.toInt

/-- The exact integer `x` narrowed to 64 bits (`wrap64`, R115). -/
def Word.wrap (x : Int) : Word := BitVec.ofInt 64 x

end Sys2Proof
end

