-- ==== Sys2Proof/Syntax.lean ====
section
/-! DEFINITION. The syntax of the ZH-16: every row of the opcode table is one constructor of `Instr`. Three kinds of
row share the type: C-words and V-words (R50, R62), which the decoder reads from code memory; the packets and messages
that reach the module from outside (R324, R333, R336); and the events by which an engine, a queue, the dispatcher or the
Lehr finishes what an instruction began. An event's arguments name the core, pane, slot or entry it happens at. -/

namespace Sys2Proof

/-- The conditions of R55, by name. -/
inductive Cond where
  | al | eq | ne | ltS | geS | ltN | geN
  | cpybusy | cpydone | mxbusy | mxdone | umbusy | umdone | cpyfault | mxfault
  deriving DecidableEq, Repr

/-- A CR word's fields (R50): D, A, B, C and the FE bits of A, B and C (R48). -/
structure AluR where
  d : Nat
  a : Nat
  b : Nat
  c : Nat
  fea : Bool
  feb : Bool
  fec : Bool
  deriving DecidableEq, Repr

/-- A CI word's fields (R50). -/
structure AluI where
  d : Nat
  a : Nat
  fea : Bool
  imm : BitVec 37
  deriving DecidableEq, Repr

/-- The memory operand of a CK word, `[kK + sX + off]` (R50, R129). -/
structure MemRef where
  k : Nat
  x : Nat
  fex : Bool
  off : BitVec 32
  deriving DecidableEq, Repr

/-- ORD and SCOPE (R49). -/
structure Ordr where
  acq : Bool
  rel : Bool
  scope : Nat
  deriving DecidableEq, Repr

/-- The fields of `cset` and `br` (R55, R118). -/
structure CmpF where
  cond : Cond
  a : Nat
  b : Nat
  fea : Bool
  feb : Bool
  deriving DecidableEq, Repr

/-- The CL fields of `loop` (R50, R122). -/
structure LoopF where
  lvl : Nat
  t : Nat
  ti : Bool
  body : Nat
  trip : Nat
  deriving DecidableEq, Repr

/-- `swpl` and its P64 (R57, R127). -/
structure SwplF where
  a : Nat
  fea : Bool
  pro : Nat
  ker : Nat
  epi : Nat
  fin : Nat
  deriving DecidableEq, Repr

/-- `ld` and `st` (R58): TY 2:0, the data register, the operand and the order. -/
structure LdF where
  ty : Nat
  d : Nat
  m : MemRef
  ord : Ordr
  deriving DecidableEq, Repr

/-- `amo` and its P64 (R58): `w64` is MIN bit 7. -/
structure AmoF where
  w64 : Bool
  d : Nat
  a : Nat
  b : Nat
  c : Nat
  fea : Bool
  feb : Bool
  fec : Bool
  k : Nat
  ord : Ordr
  off : BitVec 32
  deriving DecidableEq, Repr

/-- A future or signal operation (R288). -/
structure SyncF where
  d : Nat
  m : MemRef
  ord : Ordr
  deriving DecidableEq, Repr

/-- `cpy.go` and its engine word (R242). `df` is DF: 0 token, 1 staging word, 2 column word. -/
structure CpyF where
  h : Nat
  a : Nat
  b : Nat
  c : Nat
  fea : Bool
  feb : Bool
  fec : Bool
  ord : Ordr
  sk : Nat
  dk : Nat
  sf : Bool
  df : Nat
  nlvl : Nat
  ntf : Bool
  mir : Bool
  haddr : Nat
  deriving DecidableEq, Repr

/-- A Marver command with a memory word (R184). -/
structure MxMemF where
  d : Nat
  a : Nat
  b : Nat
  c : Nat
  fea : Bool
  feb : Bool
  fec : Bool
  ord : Ordr
  k : Nat
  off : BitVec 32
  deriving DecidableEq, Repr

/-- `mx.mm` and its mm word (R188). -/
structure MmF where
  d : Nat
  t : Nat
  z : Nat
  h : Nat
  slot : Nat
  c0 : Nat
  nc : Nat
  klen : Nat
  cb : Nat
  hw : Bool
  tr : Bool
  mir : Bool
  deriving DecidableEq, Repr

/-- `mx.out` and its out word (R192); `nr` holds rows minus one, as the field does. -/
structure OutF where
  d : Nat
  z : Nat
  b : Nat
  c : Nat
  feb : Bool
  fec : Bool
  ord : Ordr
  dst : Bool
  ty : Nat
  rm : Nat
  sat : Bool
  clr : Bool
  r0 : Nat
  nr : Nat
  c0 : Nat
  nc : Nat
  k : Nat
  vn : Nat
  deriving DecidableEq, Repr

/-- `um.cfg` in modes 0 and 2 (R357, R359); `bsz` is the 2-bit code. -/
structure UmCfgF where
  d : Nat
  a : Nat
  b : Nat
  fea : Bool
  feb : Bool
  seqlen : Nat
  bsz : Nat
  nlayer : Nat
  rnd : Nat
  deriving DecidableEq, Repr

/-- `um.rank` and `um.commit` (R357). -/
structure UmMemF where
  d : Nat
  a : Nat
  b : Nat
  fea : Bool
  feb : Bool
  ord : Ordr
  k : Nat
  deriving DecidableEq, Repr

/-- Every field of a V-word but OP (R62); `fe` is bits 58:55, `sm` is bits 42:38. -/
structure VFields where
  ty : Nat
  d : Nat
  a : Nat
  b : Nat
  c : Nat
  e : Nat
  fe : Nat
  gc : Nat
  gm : Nat
  hint : Nat
  fo : Bool
  lo : Bool
  yld : Bool
  eox : Bool
  sm : Nat
  md : Nat
  imm : BitVec 32
  deriving DecidableEq, Repr

/-- The head word of a base-die request (R336). -/
structure BdHead where
  tag : Nat
  port : Nat
  line : Nat
  deriving DecidableEq, Repr

/-- One constructor for each row of the opcode table. -/
inductive Instr where
  /-- nop (R53): Does nothing. -/
  | nop
  /-- end (R100): Ends the task: the main context enters ENDING and issues no further C-word; in a handler context it returns the context to DORMANT. -/
  | endTask
  /-- yield (R106): A point at which a pending stop is honoured; no effect otherwise. -/
  | yield
  /-- trap (R112): Raises trap TRAP with the code in TINFO.DATA and TPC at the next C-word. -/
  | trap (code : BitVec 16)
  /-- csrr (R131): Reads the numbered control and status register into sD. -/
  | csrr (d : Nat) (csr : Nat)
  /-- csrw (R131): Writes sA to the numbered control and status register, subject to access codes, privilege and range checks. -/
  | csrw (a : Nat) (fea : Bool) (csr : Nat)
  /-- rdts (R132): Writes the global time stamp of the issue clock to sD. -/
  | rdts (d : Nat)
  /-- chk (R133): Waits for every earlier token check of the core and traps TOKEN if any sticky KSTAT bit is set. -/
  | chk
  /-- cro (R341): Opens a containment region by pushing a region-stack entry naming the handler. -/
  | cro (disp : BitVec 37)
  /-- crc (R341): Waits for every item issued since its cro to complete and closes the innermost containment region. -/
  | crc
  /-- ctxsave (R111): Privileged: waits for the core to quiesce and writes the context image to the save area through a token. -/
  | ctxsave (m : MemRef)
  /-- ctxrest (R111): Privileged: reads, checks and restores a context image, applying the token restore check and requeueing its commands. -/
  | ctxrest (m : MemRef)
  /-- stop (R105): Privileged: sends a stop request to the main context of the core numbered sA. -/
  | stop (a : Nat) (fea : Bool)
  /-- wcsld (R164): Loads a writable-control-store slot from a microprogram image in memory. -/
  | wcsld (slot : Nat) (m : MemRef)
  /-- add (R115): Register form: sD := wrap64(sA + sB). -/
  | add (o : AluR)
  /-- add (R115): Immediate form: sD := wrap64(sA + imm). -/
  | addImmediate (o : AluI)
  /-- sub (R115): Register form: sD := wrap64(sA − sB). -/
  | sub (o : AluR)
  /-- sub (R115): Immediate form: sD := wrap64(sA − imm). -/
  | subImmediate (o : AluI)
  /-- mul (R115): Register form: low 64 bits of the product. -/
  | mul (o : AluR)
  /-- mul (R115): Immediate form: low 64 bits of the product. -/
  | mulImmediate (o : AluI)
  /-- mulh.s (R115): Register form: high 64 bits of the signed product. -/
  | mulhS (o : AluR)
  /-- mulh.s (R115): Immediate form: high 64 bits of the signed product. -/
  | mulhSImmediate (o : AluI)
  /-- mulh.n (R115): Register form: high 64 bits of the unsigned product. -/
  | mulhN (o : AluR)
  /-- mulh.n (R115): Immediate form: high 64 bits of the unsigned product. -/
  | mulhNImmediate (o : AluI)
  /-- div.s (R115): Register form: signed quotient toward zero, with fixed results for division by zero and overflow. -/
  | divS (o : AluR)
  /-- div.s (R115): Immediate form of signed division. -/
  | divSImmediate (o : AluI)
  /-- div.n (R115): Register form: unsigned quotient, all ones for division by zero. -/
  | divN (o : AluR)
  /-- div.n (R115): Immediate form of unsigned division. -/
  | divNImmediate (o : AluI)
  /-- rem.s (R115): Register form: signed remainder with the sign of a. -/
  | remS (o : AluR)
  /-- rem.s (R115): Immediate form of signed remainder. -/
  | remSImmediate (o : AluI)
  /-- rem.n (R115): Register form: unsigned remainder. -/
  | remN (o : AluR)
  /-- rem.n (R115): Immediate form of unsigned remainder. -/
  | remNImmediate (o : AluI)
  /-- and (R115): Register form: bitwise AND. -/
  | and (o : AluR)
  /-- and (R115): Immediate form: bitwise AND. -/
  | andImmediate (o : AluI)
  /-- or (R115): Register form: bitwise OR. -/
  | or (o : AluR)
  /-- or (R115): Immediate form: bitwise OR. -/
  | orImmediate (o : AluI)
  /-- xor (R115): Register form: bitwise XOR. -/
  | xor (o : AluR)
  /-- xor (R115): Immediate form: bitwise XOR. -/
  | xorImmediate (o : AluI)
  /-- andn (R115): Register form: a AND NOT b. -/
  | andn (o : AluR)
  /-- andn (R115): Immediate form: a AND NOT imm. -/
  | andnImmediate (o : AluI)
  /-- shl (R115): Register form: shift left, 0 for counts of 64 or more. -/
  | shl (o : AluR)
  /-- shl (R115): Immediate form: shift left. -/
  | shlImmediate (o : AluI)
  /-- shr.s (R115): Register form: arithmetic shift right. -/
  | shrS (o : AluR)
  /-- shr.s (R115): Immediate form: arithmetic shift right. -/
  | shrSImmediate (o : AluI)
  /-- shr.n (R115): Register form: logical shift right. -/
  | shrN (o : AluR)
  /-- shr.n (R115): Immediate form: logical shift right. -/
  | shrNImmediate (o : AluI)
  /-- rot (R115): Register form: rotate left by b mod 64. -/
  | rot (o : AluR)
  /-- rot (R115): Immediate form: rotate left. -/
  | rotImmediate (o : AluI)
  /-- clz (R115): Counts leading zero bits of sA. -/
  | clz (o : AluR)
  /-- popc (R115): Counts one bits of sA. -/
  | popc (o : AluR)
  /-- min.s (R115): Register form: signed minimum. -/
  | minS (o : AluR)
  /-- min.s (R115): Immediate form: signed minimum. -/
  | minSImmediate (o : AluI)
  /-- min.n (R115): Register form: unsigned minimum. -/
  | minN (o : AluR)
  /-- min.n (R115): Immediate form: unsigned minimum. -/
  | minNImmediate (o : AluI)
  /-- max.s (R115): Register form: signed maximum. -/
  | maxS (o : AluR)
  /-- max.s (R115): Immediate form: signed maximum. -/
  | maxSImmediate (o : AluI)
  /-- max.n (R115): Register form: unsigned maximum. -/
  | maxN (o : AluR)
  /-- max.n (R115): Immediate form: unsigned maximum. -/
  | maxNImmediate (o : AluI)
  /-- sel (R115): sD := sA if sC is non-zero, else sB. -/
  | sel (o : AluR)
  /-- mov (R115): Copies sA to sD. -/
  | mov (o : AluR)
  /-- sext (R115): Register form: sign-extends the low w bits of sA. -/
  | sext (o : AluR)
  /-- sext (R115): Immediate form: sign-extends the low imm bits. -/
  | sextImmediate (o : AluI)
  /-- zext (R115): Register form: zero-extends the low w bits of sA. -/
  | zext (o : AluR)
  /-- zext (R115): Immediate form: zero-extends the low imm bits. -/
  | zextImmediate (o : AluI)
  /-- bfx (R115): Register form: extracts a bit field with position sB and width sC. -/
  | bfx (o : AluR)
  /-- bfx (R115): Immediate form: extracts a bit field with position and width in IMM37. -/
  | bfxImmediate (o : AluI)
  /-- bfi (R115): Register form: inserts the low bits of sA into sD at position sB, width sC. -/
  | bfi (o : AluR)
  /-- bfi (R115): Immediate form: inserts a bit field with position and width in IMM37. -/
  | bfiImmediate (o : AluI)
  /-- pset (R134): Sets count predicate pD to min(sA + addend, 768) with an element-width code. -/
  | pset (d : Nat) (a : Nat) (fea : Bool) (wc : Nat) (add : Nat)
  /-- shape (R135): Sets VSHAPE rows for later V-words. -/
  | shape (rows : Nat)
  /-- lim (R117): Writes the 64-bit P64 value to sD. -/
  | lim (d : Nat) (v : Word)
  /-- cset.cond (R118): Writes 1 or 0 to sD according to a compare or sampled engine-status condition. -/
  | cset (d : Nat) (f : CmpF)
  /-- br.cond (R118): Branches by a signed displacement when a compare or engine-status condition holds. -/
  | br (f : CmpF) (disp : BitVec 39)
  /-- jmp (R121): Transfers control to P + displacement. -/
  | jmp (disp : BitVec 37)
  /-- call (R121): Transfers control to P + displacement and writes P + 1 to s62. -/
  | call (disp : BitVec 37)
  /-- ret (R121): Transfers to sA[14:0]; with TACT = 1 it is the trap return. -/
  | ret (a : Nat) (fea : Bool)
  /-- brx (R121): Transfers to the absolute C-word sA + immediate. -/
  | brx (a : Nat) (fea : Bool) (imm : BitVec 37)
  /-- loop.lN (R122): Opens a hardware loop level with an immediate or register trip count. -/
  | loop (f : LoopF)
  /-- lbrk.lN (R124): Closes loop level N and every level below it. -/
  | lbrk (lvl : Nat)
  /-- viss (R126): Captures and issues a range of V-words into the L, A and S queues, waiting on slip limits. -/
  | viss (start : Nat) (count : Nat)
  /-- swpl (R127): Issues a software-pipelined loop of V-words: prologue, n tagged kernel iterations and epilogue. -/
  | swpl (f : SwplF)
  /-- vsync.q (R128): Blocks the context until every earlier V-word of the selected queues has completed. -/
  | vsync (l : Bool) (a : Bool) (q : Bool)
  /-- ld.ty.ord.scope (R129): Checks the access against the token and loads a w-byte value into sD, marked empty until it fills. -/
  | ld (f : LdF)
  /-- st.ty.ord.scope (R129): Checks the access against the token and stores the low bytes of sD. -/
  | st (f : LdF)
  /-- amo.add.wN.ord.scope (R315): Atomic add at the home slice, returning the old value. -/
  | amoAdd (f : AmoF)
  /-- amo.and.wN.ord.scope (R315): Atomic AND at the home slice. -/
  | amoAnd (f : AmoF)
  /-- amo.or.wN.ord.scope (R315): Atomic OR at the home slice. -/
  | amoOr (f : AmoF)
  /-- amo.xor.wN.ord.scope (R315): Atomic XOR at the home slice. -/
  | amoXor (f : AmoF)
  /-- amo.min.s.wN.ord.scope (R315): Atomic signed minimum. -/
  | amoMinS (f : AmoF)
  /-- amo.max.s.wN.ord.scope (R315): Atomic signed maximum. -/
  | amoMaxS (f : AmoF)
  /-- amo.min.n.wN.ord.scope (R315): Atomic unsigned minimum. -/
  | amoMinN (f : AmoF)
  /-- amo.max.n.wN.ord.scope (R315): Atomic unsigned maximum. -/
  | amoMaxN (f : AmoF)
  /-- amo.swap.wN.ord.scope (R315): Atomic swap. -/
  | amoSwap (f : AmoF)
  /-- amo.cas.wN.ord.scope (R315): Atomic compare-and-swap writing sB when the old value equals sA. -/
  | amoCas (f : AmoF)
  /-- amo.fmax.f32.ord.scope (R42): Atomic binary32 fmax at an L2 slice with canonical-NaN stickiness. -/
  | amoFmaxF32 (f : AmoF)
  /-- amo.amax.rr.ord.scope (R43): Atomic read-and-reset: returns the stored binary32 value and writes +0. -/
  | amoAmaxRr (f : AmoF)
  /-- fence.acq.scope (R312): Waits for earlier loads and atomics and L words, ordering earlier reads before later accesses. -/
  | fenceAcq (u : Bool) (scope : Nat)
  /-- fence.rel.scope (R312): Waits for earlier accesses and the release work of R306, ordering them before later stores and atomics. -/
  | fenceRel (u : Bool) (scope : Nat)
  /-- fence.ar.scope (R312): Performs the waits and edges of both acq and rel fences. -/
  | fenceAr (u : Bool) (scope : Nat)
  /-- fence.sc.scope (R312): As ar, then a round trip to the scope's order point, placing the fence in the sc order. -/
  | fenceSc (u : Bool) (scope : Nat)
  /-- xlat.rights (R207): Walks the pages of an extent, pins them and returns a pontil token, trapping XLAT on failure. -/
  | xlat (rights : BitVec 4) (o : AluR)
  /-- xlat.try.rights (R207): As xlat, but writes a status word instead of trapping. -/
  | xlatTry (rights : BitVec 4) (o : AluR)
  /-- tkchk (R216): Writes the validity status of a token to sD. -/
  | tkchk (o : AluR)
  /-- tkdrop (R216): Sets a token register to null. -/
  | tkdrop (o : AluR)
  /-- tkmov (R216): Copies a 128-bit token register. -/
  | tkmov (o : AluR)
  /-- tksub (R216): Makes a sub-window token, or null with BOUNDS on bad operands. -/
  | tksub (o : AluR)
  /-- tkinfo (R216): Writes the token word with its status to sD. -/
  | tkinfo (o : AluR)
  /-- tkrev.kill (R214): Privileged: revokes a pontil entry in KILL mode. -/
  | tkrevKill (o : AluR)
  /-- tkrev.move (R214): Privileged: revokes a pontil entry in MOVE mode, forwarding to another token. -/
  | tkrevMove (o : AluR)
  /-- stash.map (R217): Maps a stash window over part of a token's extent. -/
  | stashMap (w : Nat) (m : MemRef)
  /-- stash.unmap (R217): Writes back, drops the lines and frees a stash window. -/
  | stashUnmap (w : Nat)
  /-- stash.wb (R217): Writes back every dirty sector of a window and waits for module-scope visibility. -/
  | stashWb (w : Nat)
  /-- stash.inv (R217): Drops the lines of a window, losing dirty sectors. -/
  | stashInv (w : Nat)
  /-- bar.lN.scope (R283): Arrives at the group barrier of level N as a release and waits for every member. -/
  | bar (lvl : Nat) (scope : Nat)
  /-- fut.wait.ord.scope (R291): Drains, releases, and either continues with the future's value or parks the task's continuation. -/
  | futWait (f : SyncF)
  /-- fut.put.ord.scope (R290): Fills an empty future with a value and captures its parked waiters for release. -/
  | futPut (f : SyncF)
  /-- fut.clr.ord.scope (R293): Empties a future and, with no parked ring records, sets its ring configuration. -/
  | futClr (f : SyncF)
  /-- sig.add.ord.scope (R295): Adds sD to the signal counter at its home slice. -/
  | sigAdd (f : SyncF)
  /-- sig.set.ord.scope (R295): Sets the signal counter to sD. -/
  | sigSet (f : SyncF)
  /-- sig.wait.ord.scope (R295): Registers at the slice and waits until the counter is at least sD. -/
  | sigWait (f : SyncF)
  /-- sig.read.ord.scope (R295): Reads the signal counter into sD, filled on the reply. -/
  | sigRead (f : SyncF)
  /-- hset (R238): Starts a fill of a free handle with the expected number of arrivals. -/
  | hset (h : Nat) (a : Nat) (fea : Bool)
  /-- harr (R238): Announces bytes to a filling handle and counts one arrival. -/
  | harr (h : Nat) (a : Nat) (fea : Bool)
  /-- hwait (R239): Captures a fill number and waits until that fill is FULL. -/
  | hwait (h : Nat)
  /-- hdrain (R238): Moves a FULL handle to DRAINING. -/
  | hdrain (h : Nat)
  /-- hfree (R240): Frees a FULL handle once its commands and readers are done. -/
  | hfree (h : Nat)
  /-- hinfo (R240): Writes the handle's state, error, arrivals and count to sD. -/
  | hinfo (d : Nat) (h : Nat)
  /-- qpush (R232): Builds, stamps and pushes a task record with a frame token to a queue. -/
  | qpush (o : AluR)
  /-- qpop (R233): Marks eight destinations and a token empty and requests the next record of a queue. -/
  | qpop (o : AluR)
  /-- qtry (R234): Takes the next record only if present on chip, writing a status word. -/
  | qtry (o : AluR)
  /-- qinfo (R235): Writes a queue's state, occupancy and counts to sD. -/
  | qinfo (o : AluR)
  /-- qbind (R236): Reconfigures an empty open queue's priority, mode, depth and ring. -/
  | qbind (o : AluR)
  /-- cpy.lvl (R241): Writes the count and strides of one copy nest level. -/
  | cpyLvl (lvl : Nat) (o : AluR)
  /-- cpy.go[.lN][.ssl][.dsl|.dcol][.ntf][.mir][.ord.scope] (R242): Captures and enqueues a copy command with its tokens. -/
  | cpyGo (f : CpyF)
  /-- cpy.cancel (R248): Cancels every queued or running copy command naming the handle and waits for them to stop. -/
  | cpyCancel (h : Nat)
  /-- cpy.stat (R248): Writes the handle's command count and fault record to sD and clears the record. -/
  | cpyStat (d : Nat) (h : Nat)
  /-- mx.lease (R176): Waits until the core holds its Marver's lease. -/
  | mxLease
  /-- mx.free (R176): Releases the Marver lease. -/
  | mxFree
  /-- mx.cbtab (R185): Loads a codebook slot from 32 bytes of memory after checking its entries. -/
  | mxCbtab (f : MxMemF)
  /-- mx.bld (R186): Writes a B-deck slot of a run of columns and clears their mirror tags. -/
  | mxBld (f : MxMemF)
  /-- mx.bld.mirror (R186): Writes each slice to a column and its partner and sets both mirror tags. -/
  | mxBldMirror (f : MxMemF)
  /-- mx.tld (R187): Loads a tile register row by row from memory. -/
  | mxTld (f : MxMemF)
  /-- mx.mm (R188): Computes z += A × B over a B-deck slot, optionally waiting on a handle, transposed or mirror-checked. -/
  | mxMm (f : MmF)
  /-- mx.kat (R189): Runs a known-answer pattern on a column group and compares the checksum. -/
  | mxKat (d : Nat) (n : Nat) (g : Nat) (sum : Word)
  /-- mx.zalloc (R190): Grants a free accumulator to the task and clears it, or returns HELD. -/
  | mxZalloc (d : Nat) (z : Nat)
  /-- mx.zfree (R190): Releases an accumulator once earlier commands complete. -/
  | mxZfree (z : Nat)
  /-- mx.zld (R191): Loads all elements of an accumulator from memory. -/
  | mxZld (f : MxMemF)
  /-- mx.zst (R191): Stores all elements of an accumulator to memory. -/
  | mxZst (f : MxMemF)
  /-- mx.zcpy (R191): Copies one accumulator to another as raw bits. -/
  | mxZcpy (d : Nat) (za : Nat) (zb : Nat)
  /-- mx.out (R192): Drains a rectangle of an accumulator, converted, to memory or vector registers. -/
  | mxOut (f : OutF)
  /-- um.cfg (R359): Mode 0: configures the unmasking engine for the owner launch and clears its state. -/
  | umCfg (f : UmCfgF)
  /-- um.cfg.rad (R359): Mode 1: sets the dependency radius of a run of layers. -/
  | umCfgRad (d : Nat) (l0 : Nat) (nl : Nat) (radius : Nat)
  /-- um.cfg.share (R359): Mode 2: sets the commit share and rounding. -/
  | umCfgShare (f : UmCfgF)
  /-- um.rank (R360): Reads the mask bitmap and confidences and forms the rank list. -/
  | umRank (f : UmMemF)
  /-- um.commit (R361): Commits the head of the rank list, writing the commit list, clearing bitmap bits and dirtying pairs. -/
  | umCommit (f : UmMemF)
  /-- um.dnext (R362): Claims and returns the first dirty unclaimed (layer, block) pair, or −1. -/
  | umDnext (d : Nat)
  /-- um.dclr (R362): Clears or re-dirties a claimed pair. -/
  | umDclr (a : Nat) (fea : Bool)
  /-- vld.ty (R149): Loads selected elements from memory into a register group, optionally waiting on a handle. -/
  | vld (w : VFields)
  /-- vst.ty (R149): Stores selected elements of a group to memory. -/
  | vst (w : VFields)
  /-- vgat.ty (R149): Gathers elements from memory by an n32 index run. -/
  | vgat (w : VFields)
  /-- vsca.ty (R149): Scatters elements to memory by an n32 index run in ascending order. -/
  | vsca (w : VFields)
  /-- vldb.ty (R149): Loads rows of a group from memory at a pitch. -/
  | vldb (w : VFields)
  /-- vstb.ty (R149): Stores rows of a group to memory at a pitch. -/
  | vstb (w : VFields)
  /-- vadd.ty (R151): Integer elementwise add. -/
  | vadd (w : VFields)
  /-- vsub.ty (R151): Integer elementwise subtract. -/
  | vsub (w : VFields)
  /-- vmul.ty (R151): Integer elementwise multiply. -/
  | vmul (w : VFields)
  /-- vmulh.ty (R151): High half of the integer product. -/
  | vmulh (w : VFields)
  /-- vmin.ty (R151): Integer elementwise minimum. -/
  | vmin (w : VFields)
  /-- vmax.ty (R151): Integer elementwise maximum. -/
  | vmax (w : VFields)
  /-- vabs.ty (R151): Integer absolute value. -/
  | vabs (w : VFields)
  /-- vneg.ty (R151): Integer negation. -/
  | vneg (w : VFields)
  /-- vand.ty (R151): Bitwise AND. -/
  | vand (w : VFields)
  /-- vor.ty (R151): Bitwise OR. -/
  | vor (w : VFields)
  /-- vxor.ty (R151): Bitwise XOR. -/
  | vxor (w : VFields)
  /-- vnot.ty (R151): Bitwise NOT. -/
  | vnot (w : VFields)
  /-- vshl.ty (R151): Elementwise shift left. -/
  | vshl (w : VFields)
  /-- vshr.ty (R151): Elementwise shift right by type signedness. -/
  | vshr (w : VFields)
  /-- vclz.ty (R151): Leading zero count per element. -/
  | vclz (w : VFields)
  /-- vpopc.ty (R151): One-bit count per element. -/
  | vpopc (w : VFields)
  /-- vsel.ty (R151): Selects a or b per element by the top mask. -/
  | vsel (w : VFields)
  /-- vfadd.ty (R153): Floating add, rounded once. -/
  | vfadd (w : VFields)
  /-- vfsub.ty (R153): Floating subtract. -/
  | vfsub (w : VFields)
  /-- vfmul.ty (R153): Floating multiply. -/
  | vfmul (w : VFields)
  /-- vfma.ty (R153): Fused multiply-add, rounded once. -/
  | vfma (w : VFields)
  /-- vfms.ty (R153): Fused multiply-subtract, rounded once. -/
  | vfms (w : VFields)
  /-- vfdiv.ty (R153): Floating divide. -/
  | vfdiv (w : VFields)
  /-- vfsqrt.ty (R153): Floating square root. -/
  | vfsqrt (w : VFields)
  /-- vfrcp.ty (R153): Correctly rounded reciprocal. -/
  | vfrcp (w : VFields)
  /-- vfrsq.ty (R153): Correctly rounded reciprocal square root. -/
  | vfrsq (w : VFields)
  /-- vfexp2.ty (R153): Correctly rounded 2^a. -/
  | vfexp2 (w : VFields)
  /-- vflog2.ty (R153): Correctly rounded log2 a. -/
  | vflog2 (w : VFields)
  /-- vfmin.ty (R153): Floating minimum with its NaN rule. -/
  | vfmin (w : VFields)
  /-- vfmax.ty (R153): Floating maximum with its NaN rule. -/
  | vfmax (w : VFields)
  /-- vfabs.ty (R153): Clears the sign; NaN gives the canonical NaN. -/
  | vfabs (w : VFields)
  /-- vfneg.ty (R153): Flips the sign; NaN gives the canonical NaN. -/
  | vfneg (w : VFields)
  /-- vcvt.T.S (R154): Converts elements from type S to type T by R30. -/
  | vcvt (w : VFields)
  /-- vcb.k4 (R155): Decodes K4 codes through a codebook table to f32 or b16. -/
  | vcb (w : VFields)
  /-- vpack.F (R156): Encodes f32 inputs into one self-describing block, optionally choosing the scale. -/
  | vpack (w : VFields)
  /-- vunpack.F (R157): Decodes a block into f32 values, consuming it. -/
  | vunpack (w : VFields)
  /-- vamax.T (R158): Writes the largest magnitude of a group or block, rounded upward to f32. -/
  | vamax (w : VFields)
  /-- vred.T.op (R159): Reduces the selected elements of a group into element 0. -/
  | vred (w : VFields)
  /-- vperm.T (R160): Permutes elements by an n16 index run. -/
  | vperm (w : VFields)
  /-- vtrns.T (R160): Transposes a group in square tiles. -/
  | vtrns (w : VFields)
  /-- vbcast.T (R160): Broadcasts one element or a scalar to every element. -/
  | vbcast (w : VFields)
  /-- vslide.T (R160): Slides elements across two groups by k. -/
  | vslide (w : VFields)
  /-- vcompress.T (R160): Packs the selected elements from element 0. -/
  | vcompress (w : VFields)
  /-- mpush.T.cond (R161): Pushes the top mask AND a compare mask; traps MASKOVF on a full stack. -/
  | mpush (w : VFields)
  /-- minv (R162): Replaces the top mask with the mask below AND NOT the top. -/
  | minv (w : VFields)
  /-- mpop (R162): Removes the top mask; traps MASKUNF on an empty stack. -/
  | mpop (w : VFields)
  /-- vskip (R147): Skips the next n A-queue words when the top mask is all zero. -/
  | vskip (w : VFields)
  /-- veos (R145): Ends a swpl stream at its iteration, discarding later-tagged non-epilogue words. -/
  | veos (w : VFields)
  /-- mcall.mN (R163): Expands a control-store microprogram at issue, substituting its parameters. -/
  | mcall (w : VFields)
  /-- vnop (R166): Enters the chosen queue and has no effect. -/
  | vnop (w : VFields)
  /-- NOP_PACKET (R324): A NOP packet is accepted at once. -/
  | nopPacket (r : Nat)
  /-- LAUNCH_PACKET (R324): A LAUNCH packet carries a launch record to the dispatcher. -/
  | launchPacket (r : Nat) (rec : List Word)
  /-- GRAPH_PACKET (R264): A GRAPH packet pins and checks a graph table and seals its root nodes. -/
  | graphPacket (r : Nat) (va : BitVec 48)
  /-- WAIT_PACKET (R325): A WAIT packet acts as sig.wait.acq.sys, parking the ring until met. -/
  | waitPacket (r : Nat) (va : BitVec 48) (target : Word)
  /-- SIGNAL_PACKET (R325): A SIGNAL packet adds or sets a signal, optionally after earlier launches are DONE. -/
  | signalPacket (r : Nat) (set : Bool) (fence : Bool) (va : BitVec 48) (value : Word)
  /-- REVOKE_PACKET (R326): A REVOKE packet invalidates translation caches and kills or moves overlapping entries. -/
  | revokePacket (r : Nat) (mv : Bool) (va : BitVec 48) (len : Nat) (newva : BitVec 48)
  /-- RD (R336): Base-die read request of a line by a port. -/
  | rd (pane : Nat) (h : BdHead)
  /-- WR (R336): Base-die write request of 64 bytes. -/
  | wr (pane : Nat) (h : BdHead) (data : List Byte)
  /-- WRM (R337): Base-die masked write, a read-modify-write for partly covered granules. -/
  | wrm (pane : Nat) (h : BdHead) (mask : Word) (data : List Byte)
  /-- RESERVED_OP (R336): A base-die request with OP 11 is dropped and reported to the Lehr. -/
  | reservedOp (pane : Nat) (h : BdHead)
  /-- BAROM_FLIT (R333): A Barom flit arrives; a CRC failure drops it and the sender replays. -/
  | baromFlit (link : Nat) (flit : List Byte)
  /-- MODULE_RESET (R16): A module reset fixes the configuration, reconfigures worn and quarantined units, clears generations and sets every register to its reset state. -/
  | moduleReset
  /-- THERMAL_TRIP (R14): A pane's junction sensor passes its trip point; issue stops on every pane, a THERMAL entry is journalled and the module halts until reset. -/
  | thermalTrip (pane : Nat)
  /-- LINK_TRAIN (R317): A host link finishes training; if the two links settle in different modes both are held in reset and LINKMODE is journalled. -/
  | linkTrain (link : Nat) (cxl : Bool)
  /-- LOAD_COMPLETE (R129): A scalar load completes and fills its destination with the data, or zero on a failed check. -/
  | loadComplete (c : Nat) (id : Nat)
  /-- AMO_REPLY (R316): The reply of an atomic arrives and fills sD with the old value. -/
  | amoReply (c : Nat) (id : Nat)
  /-- XLAT_COMPLETE (R207): An xlat's last page walk ends; it decides between reuse and allocation and fills its token. -/
  | xlatComplete (c : Nat) (x : Nat)
  /-- BARRIER_RELEASE (R284): When all members have arrived or ended, the barrier releases the waiting members as an acquire. -/
  | barrierRelease (linst : Nat) (grp : Nat) (lvl : Nat)
  /-- FUT_RELEASE_PUSH (R292): One captured continuation is pushed to its stage queue with w5 := VALUE, one per clock. -/
  | futReleasePush (pane : Nat)
  /-- FUT_PARK_RETRY (R291): A fut.wait waiting for room retries its slice step when a table entry or ring record frees. -/
  | futParkRetry (c : Nat)
  /-- SIG_WAIT_RELEASE (R295): The first write after which a registered wait's condition holds releases the waiter. -/
  | sigWaitRelease (c : Nat)
  /-- HANDLE_DRAIN_FREE (R238): A DRAINING handle becomes FREE once its readers have performed and no command names it. -/
  | handleDrainFree (c : Nat) (h : Nat)
  /-- QUEUE_RESOLVE (R226): A queue resolves the clock's pops, refill reservations, stalled pushers and new pushes in order. -/
  | queueResolve (pane : Nat) (slot : Nat)
  /-- REFILL_LAND (R225): A refilled record lands in its reserved slot; a failed read faults the queue. -/
  | refillLand (pane : Nat) (slot : Nat)
  /-- RECORD_DELIVERY (R233): A delivered record is written into the pop's destinations and its frame token is checked. -/
  | recordDelivery (c : Nat)
  /-- QUEUE_FAULT_TRAP (R223): A QUEUE trap from a ring failure or waiting pop is taken at the context's next C-word boundary. -/
  | queueFaultTrap (c : Nat) (x : Nat)
  /-- COPY_COMMAND_START (R244): The sequencer starts the next command when idle, performing its acquire. -/
  | copyCommandStart (c : Nat)
  /-- COPY_EMIT (R245): The sequencer emits the next copy of the nest at its interval. -/
  | copyEmit (c : Nat)
  /-- COPY_COMPLETE (R245): A copy completes, its bytes visible, and subtracts its length from the handle. -/
  | copyComplete (c : Nat)
  /-- COPY_COMMAND_COMPLETE (R246): A command completes after its release and may deliver a notification. -/
  | copyCommandComplete (c : Nat)
  /-- LEASE_GRANT (R175): A free or lapsed lease is granted to the waiting core of highest priority. -/
  | leaseGrant (m : Nat)
  /-- MX_ACCEPT (R179): The Marver accepts a command from a core queue into its order, counting it against the lease. -/
  | mxAccept (c : Nat)
  /-- MX_STEP (R193): The Marver executes one step of the command at its head. -/
  | mxStep (m : Nat)
  /-- MX_STATUS_FILL (R180): A Marver command completes, performs its release and fills its status scalar. -/
  | mxStatusFill (m : Nat)
  /-- UM_STATUS_FILL (R357): An unmasking command completes and fills its status scalar after its release. -/
  | umStatusFill (pane : Nat)
  /-- VWORD_FILL (R141): A V-word completes in its pipe, fills its destinations and ORs its flags into FPSR. -/
  | vwordFill (c : Nat) (q : Nat)
  /-- VWORD_ILLEGAL_TRAP (R67): An illegal V-word's ILLEGAL trap is taken when it would have reached its queue head. -/
  | vwordIllegalTrap (c : Nat)
  /-- DEADLOCK (R143): All non-empty queue heads wait on registers that nothing will fill; DEADLOCK is raised. -/
  | deadlock (c : Nat)
  /-- ITERBOUND_BREACH (R113): A kernel exceeds its ITERBOUND promise and a header violation is logged. -/
  | iterboundBreach (c : Nat)
  /-- TASK_DISPATCH (R273): The dispatcher chooses an idle core's next record or resume entry by priority and ageing. -/
  | taskDispatch (c : Nat)
  /-- TASK_START (R261): A core checks a taken record, loads code if needed and starts the main context with task-start registers. -/
  | taskStart (c : Nat)
  /-- GROUP_DELIVER (R272): A co-resident group's records are delivered on one clock to its reserved cores. -/
  | groupDeliver (pane : Nat)
  /-- TASK_END_COMPLETE (R100): An ENDING context whose queues and engines have drained becomes IDLE and performs its join. -/
  | taskEndComplete (c : Nat)
  /-- TASK_RETIRE (R100): The dispatcher retires a FAULTED task, failing its launch. -/
  | taskRetire (c : Nat)
  /-- STOP_HONOUR (R106): A pending stop is honoured at a point of R97; the context enters STOPPING and a stop token enters L. -/
  | stopHonour (c : Nat)
  /-- STOP_TOKEN_PASS (R106): A pipe consumes the stop token and passes it to the next pipe. -/
  | stopTokenPass (c : Nat) (q : Nat)
  /-- CONTEXT_SAVE_COMPLETE (R107): After the token leaves S and the core quiesces, the save area is written and the context becomes IDLE. -/
  | contextSaveComplete (c : Nat)
  /-- URGENT_STOP (R275): A PRI 3 head waits GINT.INTERVAL with no idle candidate core; the dispatcher stops one candidate core. -/
  | urgentStop (pane : Nat) (slot : Nat)
  /-- LAUNCH_SEAL (R258): A store of 0x5A to byte 127 of a launch slot makes the dispatcher read the record and begin loading. -/
  | launchSeal (slot : Nat)
  /-- LAUNCH_RUNNING (R263): Image, tokens, channels and cores are in place; LINST is assigned and acceptance written. -/
  | launchRunning (lid : Nat)
  /-- INITIAL_RECORD_PUSH (R255): One initial record of the launch is pushed to stage 0's input per clock. -/
  | initialRecordPush (linst : Nat)
  /-- LAUNCH_DONE (R263): LIVE reaches 0; stores are made visible, DONEVA is signalled, the journal written and the launch retired. -/
  | launchDone (linst : Nat)
  /-- BOOT_DOOR (R260): A DOOR write to a boot mailbox starts a single-core launch. -/
  | bootDoor (c : Nat)
  /-- GAFFER_SAMPLE (R268): At an interval's last clock the Gaffer compares stage pressures and may make a move pending. -/
  | gafferSample (linst : Nat)
  /-- GAFFER_MOVE (R269): The first donor core at a task boundary moves from stage lo to stage hi. -/
  | gafferMove (c : Nat)
  /-- FORCED_PUBLISH (R308): A core named in a publish record does the release work at the acquire's scope and reports done. -/
  | forcedPublish (c : Nat) (line : Nat) (scope : Nat)
  /-- SWEEP (R212): A core sweeps every copy of a revoked entry's token between two issue clocks. -/
  | sweep (c : Nat) (e : Nat)
  /-- REVOKE_DRAIN_END (R206): With USE 0 and write-backs done, a DRAINING entry copies (MOVE), bumps GEN and sends sweep requests. -/
  | revokeDrainEnd (e : Nat)
  /-- SWEEP_DONE (R206): Every holder has swept; the entry becomes DEAD or FORWARDED. -/
  | sweepDone (e : Nat)
  /-- DEAD_UNPIN (R206): A DEAD entry whose USE reaches 0 unpins its pages. -/
  | deadUnpin (e : Nat)
  /-- DEAD_HOLD_EXPIRE (R206): 2^20 clocks after DEAD the entry becomes FREE or RETIRED. -/
  | deadHoldExpire (e : Nat)
  /-- FORWARD_RELEASE (R206): A FORWARDED entry with no list bits and USE 0 becomes FREE or RETIRED. -/
  | forwardRelease (e : Nat)
  /-- SAVED_CONTEXT_WALK (R213): Under MOVE the Wilgor complex rewrites saved token columns and clears the list bit. -/
  | savedContextWalk (e : Nat) (list : Nat)
  /-- HOST_HDM_WRITE (R318): A host store to HDM is performed at the line's home slice. -/
  | hostHdmWrite (off : Nat) (bytes : List Byte)
  /-- HOST_HDM_READ (R318): A host read of a device line acts as a system-scope acquire and forces publish. -/
  | hostHdmRead (off : Nat) (n : Nat)
  /-- RING_ENABLE (R322): ENABLE written 1 builds the ring token and makes the ring ACTIVE, or FAULTED. -/
  | ringEnable (r : Nat)
  /-- RING_DISABLE (R322): ENABLE written 0 disables the ring after its current packet. -/
  | ringDisable (r : Nat)
  /-- RING_POLL (R321): An ACTIVE empty ring is polled once every 1,024 clocks. -/
  | ringPoll (r : Nat)
  /-- PACKET_FETCH (R323): A free dispatcher slot fetches the next present packet of a ring. -/
  | packetFetch (r : Nat)
  /-- RING_UNPARK (R322): A PARKED ring's condition is met or its entry leaves DRAINING; it queues again for a slot. -/
  | ringUnpark (r : Nat)
  /-- JOURNAL_APPEND (R331): An entry is appended to the journal 64 ticks after its GTS and JTAIL updated. -/
  | journalAppend
  /-- DATA_REPLY (R336): A base-die data reply arrives with status; its tag frees on the next clock. -/
  | dataReply (pane : Nat) (port : Nat) (tag : Nat)
  /-- ACKNOWLEDGEMENT (R336): A base-die write acknowledgement arrives; its tag frees on the next clock. -/
  | acknowledgement (pane : Nat) (port : Nat) (tag : Nat)
  /-- REDUNDANT_COMPARE (R348): The home slice compares a redundant pair's writes and performs once or raises REDMIS. -/
  | redundantCompare (c : Nat) (id : Nat)
  /-- REDMIS_TIMEOUT (R348): A partner write is absent after ITERBOUND clocks; REDMIS on the writing core. -/
  | redmisTimeout (c : Nat) (id : Nat)
  /-- SCRUB_VISIT (R349): The scrubber visits a granule, correcting by compare-and-write or poisoning it. -/
  | scrubVisit (granule : Nat)
  /-- LEHR_ADJUST (R350): Every 2^26 ticks the Lehr reads monitors and adjusts each pane's voltage offset, marking worn units. -/
  | lehrAdjust (readings : List (Nat × Nat))
  /-- WEAR_RECORD_REQUEST (R353): A management-mailbox request returns the signed wear record. -/
  | wearRecordRequest (nonce : List Byte)
  /-- WRITE_REACHES_HOME (R299): A store or write-back arrives at its line's home slice, is placed in the coherence order, becomes visible to every agent and invalidates other stash copies. -/
  | writeReachesHome (c : Nat) (id : Nat)
  /-- STORE_ACKNOWLEDGED (R319): A host-window or fabric-window store is reported complete by its link or module and counts as acknowledged. -/
  | storeAcknowledged (c : Nat) (id : Nat)
  /-- HOST_LINK_DOWN (R319): One host link is lost, and host-window accesses move to the surviving link. -/
  | hostLinkDown (link : Nat)
  /-- MANAGEMENT_MAILBOX_REQUEST (R352): A request in the Wilgor management mailbox reads the wear-and-error log or the range-list pool usage, and a management reply is raised. -/
  | managementMailboxRequest (kind : Nat)
  deriving DecidableEq, Repr

end Sys2Proof
end

