-- ==== Sys2Proof/WellFormed.lean ====
section
/-! DEFINITION. Which instructions are legal: every check a decoder makes on an instruction's own fields (R46 to R49,
R52 to R67 and the field rules of each family's table). Checks that read a register, a count or the configuration are made
by the meanings. -/

namespace Sys2Proof

/-- Why a word is no instruction, by name. -/
inductive Reject where
  /-- an unassigned MAJ (R52) -/
  | major
  /-- an unassigned MIN (R46) -/
  | minor
  /-- an unassigned COND (R55) -/
  | cond
  /-- a non-zero bit in a zero field (R4) -/
  | zeroField
  /-- a register field outside its role (R47) -/
  | register
  /-- a field the instruction does not read is not zero, its FE bit among them (R48, R54) -/
  | unread
  /-- a literal outside its range -/
  | literal
  /-- SCOPE 6 or 7, or SCOPE without ORD (R49) -/
  | scope
  /-- an ORD value the family forbids (R302) -/
  | order
  /-- an immediate outside its form -/
  | immediate
  /-- an unassigned CSR number, or a write of a read-only one (R56) -/
  | csr
  /-- a reserved OP (R64) -/
  | vOp
  /-- a TY reserved for the operation (R63) -/
  | vType
  /-- GM 11, or a guard on a word that reads none (R67) -/
  | vGuard
  /-- a MOD bit the operation does not read -/
  | vMod
  /-- a TYPE or byte a packet does not name (R324) -/
  | packet
  /-- a reserved base-die OP carries no request (R336) -/
  | baseDie
  deriving DecidableEq, Repr

/-- The first failing check of a list, in order. -/
def firstFail : List (Bool × Reject) → Option Reject
  | [] => none
  | (true, _) :: l => firstFail l
  | (false, r) :: _ => some r

/-- A scalar field (R47). -/
def isS (n : Nat) : Bool := decide (n < 64)
/-- A token field (R47). -/
def isK (n : Nat) : Bool := decide (n < 32)
/-- A field an operation does not read. -/
def isZ (n : Nat) : Bool := n == 0

/-- ORD and SCOPE (R49). -/
def Ordr.checks (o : Ordr) : List (Bool × Reject) :=
  [(decide (o.scope ≤ 5) && (o.acq || o.rel || o.scope == 0), .scope)]

/-- A CK word's operand. -/
def MemRef.checks (m : MemRef) : List (Bool × Reject) := [(isK m.k && isS m.x, .register)]

/-- A CK word whose K, X and OFF32 carry nothing. -/
def MemRef.zero : MemRef := { k := 0, x := 0, fex := false, off := 0#32 }

/-- A CR word's fields against their roles: `s` scalar, `k` token, `e` first of eight, `w` a destination scalar, `t` a
destination token, `z` unread. A destination has no FE bit. -/
def AluR.roles (o : AluR) (d a b c : Char) : List (Bool × Reject) :=
  let ok (r : Char) (n : Nat) : Bool :=
    if r = 'k' ∨ r = 't' then isK n else if r = 'e' then isS n && n % 8 == 0 else if r = 'z' then isZ n else isS n
  let fe (r : Char) (f : Bool) : Bool := if r = 's' ∨ r = 'k' ∨ r = 'e' then true else !f
  [(ok d o.d && ok a o.a && ok b o.b && ok c o.c, .register), (fe a o.fea && fe b o.feb && fe c o.fec, .unread)]

/-- The numbers `csrr` may read (R56, R125). -/
def csrKnown (n : Nat) : Bool :=
  decide (n ≤ 0x008) || (decide (0x010 ≤ n) && decide (n ≤ 0x015)) || (decide (0x018 ≤ n) && decide (n ≤ 0x01D)) ||
  (decide (0x020 ≤ n) && decide (n ≤ 0x024)) || (decide (0x030 ≤ n) && decide (n ≤ 0x033)) ||
  (decide (0x038 ≤ n) && decide (n ≤ 0x03D))

/-- The numbers `csrw` may write: those whose access is RW or P. -/
def csrWritable (n : Nat) : Bool :=
  csrKnown n && !(decide (n ≤ 1) || (decide (0x021 ≤ n) && decide (n ≤ 0x024)) || decide (0x038 ≤ n))

/-- Whether a condition compares registers (R55). -/
def Cond.compares : Cond → Bool
  | .eq | .ne | .ltS | .geS | .ltN | .geN => true
  | _ => false

/-- The fields of `cset` and `br` (R55). -/
def CmpF.checks (f : CmpF) : List (Bool × Reject) :=
  [(if f.cond.compares then isS f.a && isS f.b else isZ f.a && isZ f.b && !f.fea && !f.feb, .register)]

/-- A Marver memory command (R184): `ar` is A's role, `lim` the bound of a literal A, `cr` whether C is read. -/
def MxMemF.checks (f : MxMemF) (lim : Nat) (lit cr : Bool) : List (Bool × Reject) :=
  [(isS f.d && isS f.b && isK f.k && (if cr then isS f.c else isZ f.c), .register), (decide (f.a < lim), .literal),
   (!(lit && f.fea) && (cr || !f.fec), .unread)] ++ f.ord.checks

/-- What a V-word of one OP reads: the element types, the fields that are register groups, and the MOD values. `sb` says
that MOD bit 1 turns B into a scalar (R150). -/
structure VUse where
  ty : Nat → Bool
  d : Bool
  a : Bool
  b : Bool
  c : Bool
  sb : Bool
  md : Nat → Bool
  imm : Bool
  gc : Bool
  gm : Bool

/-- TY 0x0 to 0xA. -/
def tyAny (t : Nat) : Bool := decide (t ≤ 10)
/-- The integer types. -/
def tyInt (t : Nat) : Bool := decide (t ≤ 7)
/-- The floating types. -/
def tyFlt (t : Nat) : Bool := decide (8 ≤ t) && decide (t ≤ 10)
/-- The block types (R63). -/
def tyBlk (t : Nat) : Bool := decide (11 ≤ t) && decide (t ≤ 14)

/-- The field widths of R62, as bounds. -/
def VFields.bounds (w : VFields) : Bool :=
  decide (w.ty < 16) && decide (w.d < 2048) && decide (w.a < 2048) && decide (w.b < 2048) && decide (w.c < 2048) &&
  decide (w.e < 2048) && decide (w.fe < 16) && decide (w.gc < 16) && decide (w.gm < 4) && decide (w.hint < 4) &&
  decide (w.sm < 32) && decide (w.md < 64)

/-- The static legality of an A-queue word (R63, R67, R150 to R162). -/
def VFields.checks (w : VFields) (u : VUse) : Option Reject :=
  let sb := u.sb && w.md / 2 % 2 == 1
  let rb := u.b && !sb
  firstFail
    [(w.bounds, .register), (u.ty w.ty, .vType), (u.md w.md, .vMod),
     (decide (w.gm < 3) && (u.gm || w.gm == 0) && (u.gc || w.gc == 0), .vGuard),
     ((u.d || w.d == 0) && (u.a || w.a == 0) && (u.c || w.c == 0) && w.e == 0, .unread),
     (if sb then isS w.b else rb || w.b == 0, .register),
     (!((w.fe / 8 % 2 == 1 && !u.a) || (w.fe / 4 % 2 == 1 && !(rb || sb)) || (w.fe / 2 % 2 == 1 && !u.c) ||
        w.fe % 2 == 1), .unread),
     (!((w.sm / 16 % 2 == 1 && !u.d) || (w.sm / 8 % 2 == 1 && !u.a) || (w.sm / 4 % 2 == 1 && !rb) ||
        (w.sm / 2 % 2 == 1 && !u.c) || w.sm % 2 == 1), .unread),
     (u.imm || w.imm == 0#32, .immediate)]

/-- The static legality of a memory word (R65, R148, R149): `ld` for a load, `run` when C is an index run, `pitch` when C is
a literal pitch. -/
def VFields.memChecks (w : VFields) (ld run pitch : Bool) : Option Reject :=
  let sx := w.md / 32 % 2 == 1
  let hw := w.md / 16 % 2 == 1
  firstFail
    [(w.bounds, .register), (tyAny w.ty, .vType), (w.md % 16 == 0 && (ld || !hw), .vMod), (w.gm == 0, .vGuard),
     (isK w.a && (if sx then isS w.b else w.b == 0 && w.fe / 4 % 2 == 0), .register),
     (if hw then decide (w.e < 64) else w.e == 0, .literal), (run || pitch || w.c == 0, .unread),
     ((run || w.fe / 2 % 2 == 0) && w.fe % 2 == 0, .unread),
     (w.sm / 4 % 4 == 0 && w.sm % 2 == 0 && (run || w.sm / 2 % 2 == 0), .unread)]

/-- The use table of the integer words (R150, R151). -/
def VUse.int (b sat : Bool) : VUse :=
  { ty := tyInt, d := true, a := true, b := b, c := false, sb := b,
    md := fun m => decide (m < 4) && (sat || m % 2 == 0) && (b || m / 2 % 2 == 0), imm := false, gc := true, gm := true }

/-- The use table of the floating words (R152, R153). -/
def VUse.flt (b c : Bool) : VUse :=
  { ty := tyFlt, d := true, a := true, b := b, c := c, sb := b, md := fun m => m == 0 || (b && m == 2), imm := false,
    gc := true, gm := true }

/-- The use table of a permutation (R160). -/
def VUse.perm (b imm : Bool) : VUse :=
  { ty := tyAny, d := true, a := true, b := b, c := false, sb := false, md := fun m => m == 0, imm := imm, gc := true,
    gm := true }

/-- A word with no operand field (R145, R147, R162, R166). -/
def VUse.bare (imm gc : Bool) (md : Nat → Bool) : VUse :=
  { ty := fun t => t == 0, d := false, a := false, b := false, c := false, sb := false, md := md, imm := imm, gc := gc,
    gm := gc }

/-- The first check an instruction fails, by name; none for a legal one. A block-form `vamax` may set GC and GM (DESIGN CHOICE,
notes/assumptions/64.md). -/
def Instr.check : Instr → Option Reject
  | .add o => firstFail (o.roles 'w' 's' 's' 'z')
  | .addImmediate o => firstFail [(isS o.d && isS o.a, .register)]
  | .sub o => firstFail (o.roles 'w' 's' 's' 'z')
  | .subImmediate o => firstFail [(isS o.d && isS o.a, .register)]
  | .mul o => firstFail (o.roles 'w' 's' 's' 'z')
  | .mulImmediate o => firstFail [(isS o.d && isS o.a, .register)]
  | .mulhS o => firstFail (o.roles 'w' 's' 's' 'z')
  | .mulhSImmediate o => firstFail [(isS o.d && isS o.a, .register)]
  | .mulhN o => firstFail (o.roles 'w' 's' 's' 'z')
  | .mulhNImmediate o => firstFail [(isS o.d && isS o.a, .register)]
  | .divS o => firstFail (o.roles 'w' 's' 's' 'z')
  | .divSImmediate o => firstFail [(isS o.d && isS o.a, .register)]
  | .divN o => firstFail (o.roles 'w' 's' 's' 'z')
  | .divNImmediate o => firstFail [(isS o.d && isS o.a, .register)]
  | .remS o => firstFail (o.roles 'w' 's' 's' 'z')
  | .remSImmediate o => firstFail [(isS o.d && isS o.a, .register)]
  | .remN o => firstFail (o.roles 'w' 's' 's' 'z')
  | .remNImmediate o => firstFail [(isS o.d && isS o.a, .register)]
  | .and o => firstFail (o.roles 'w' 's' 's' 'z')
  | .andImmediate o => firstFail [(isS o.d && isS o.a, .register)]
  | .or o => firstFail (o.roles 'w' 's' 's' 'z')
  | .orImmediate o => firstFail [(isS o.d && isS o.a, .register)]
  | .xor o => firstFail (o.roles 'w' 's' 's' 'z')
  | .xorImmediate o => firstFail [(isS o.d && isS o.a, .register)]
  | .andn o => firstFail (o.roles 'w' 's' 's' 'z')
  | .andnImmediate o => firstFail [(isS o.d && isS o.a, .register)]
  | .shl o => firstFail (o.roles 'w' 's' 's' 'z')
  | .shlImmediate o => firstFail [(isS o.d && isS o.a, .register)]
  | .shrS o => firstFail (o.roles 'w' 's' 's' 'z')
  | .shrSImmediate o => firstFail [(isS o.d && isS o.a, .register)]
  | .shrN o => firstFail (o.roles 'w' 's' 's' 'z')
  | .shrNImmediate o => firstFail [(isS o.d && isS o.a, .register)]
  | .rot o => firstFail (o.roles 'w' 's' 's' 'z')
  | .rotImmediate o => firstFail [(isS o.d && isS o.a, .register)]
  | .clz o => firstFail (o.roles 'w' 's' 'z' 'z')
  | .popc o => firstFail (o.roles 'w' 's' 'z' 'z')
  | .minS o => firstFail (o.roles 'w' 's' 's' 'z')
  | .minSImmediate o => firstFail [(isS o.d && isS o.a, .register)]
  | .minN o => firstFail (o.roles 'w' 's' 's' 'z')
  | .minNImmediate o => firstFail [(isS o.d && isS o.a, .register)]
  | .maxS o => firstFail (o.roles 'w' 's' 's' 'z')
  | .maxSImmediate o => firstFail [(isS o.d && isS o.a, .register)]
  | .maxN o => firstFail (o.roles 'w' 's' 's' 'z')
  | .maxNImmediate o => firstFail [(isS o.d && isS o.a, .register)]
  | .sel o => firstFail (o.roles 'w' 's' 's' 's')
  | .mov o => firstFail (o.roles 'w' 's' 'z' 'z')
  | .sext o => firstFail (o.roles 'w' 's' 's' 'z')
  | .sextImmediate o => firstFail [(isS o.d && isS o.a, .register)]
  | .zext o => firstFail (o.roles 'w' 's' 's' 'z')
  | .zextImmediate o => firstFail [(isS o.d && isS o.a, .register)]
  | .bfx o => firstFail (o.roles 'w' 's' 's' 's')
  | .bfxImmediate o => firstFail [(isS o.d && isS o.a, .register), (decide (o.imm.toNat < 8192) && decide (1 ≤ o.imm.toNat / 64) && decide (o.imm.toNat / 64 ≤ 64), .immediate)]
  | .bfi o => firstFail (o.roles 'w' 's' 's' 's')
  | .bfiImmediate o => firstFail [(isS o.d && isS o.a, .register), (decide (o.imm.toNat < 8192) && decide (1 ≤ o.imm.toNat / 64) && decide (o.imm.toNat / 64 ≤ 64), .immediate)]
  | .csrr d csr => firstFail [(isS d, .register), (csrKnown csr, .csr)]
  | .csrw a _ csr => firstFail [(isS a, .register), (csrWritable csr, .csr)]
  | .rdts d => firstFail [(isS d, .register)]
  | .ctxsave m => firstFail m.checks
  | .ctxrest m => firstFail m.checks
  | .stop a _ => firstFail [(isS a, .register)]
  | .ret a _ => firstFail [(isS a, .register)]
  | .wcsld slot m => firstFail ((decide (slot < 64), .literal) :: m.checks)
  | .pset d a _ wc av => firstFail [(decide (d < 16) && isS a, .register), (decide (wc < 4) && decide (av < 1024), .immediate)]
  | .shape rows => firstFail [(decide (1 ≤ rows) && decide (rows ≤ 6), .immediate)]
  | .lim d _ => firstFail [(isS d, .register)]
  | .cset d f => firstFail ((isS d, .register) :: f.checks)
  | .br f _ => firstFail f.checks
  | .brx a _ _ => firstFail [(isS a, .register)]
  | .loop f => firstFail [(decide (f.lvl ≤ 5), .literal), (isS f.t, .register), (if f.ti then isZ f.t && decide (f.trip < 16777216) else isZ f.trip, .unread), (decide (1 ≤ f.body) && decide (f.body < 65536), .immediate)]
  | .lbrk lvl => firstFail [(decide (lvl ≤ 5), .literal)]
  | .viss start count => firstFail [(decide (1 ≤ count) && decide (count < 65536) && decide (start < 65536) && decide (start + count ≤ 65536), .immediate)]
  | .swpl f => firstFail [(isS f.a, .register), (decide (f.pro ≤ f.ker) && decide (f.ker < f.epi) && decide (f.epi ≤ f.fin) && decide (f.fin < 65536), .immediate)]
  | .vsync l a q => firstFail [(l || a || q, .literal)]
  | .ld f => firstFail ([(decide (f.ty < 8), .literal), (isS f.d, .register), (!f.ord.rel, .order)] ++ f.ord.checks ++ f.m.checks)
  | .st f => firstFail ([(decide (f.ty < 8), .literal), (isS f.d, .register), (!f.ord.acq, .order)] ++ f.ord.checks ++ f.m.checks)
  | .amoAdd f => firstFail ([(isS f.d && isS f.a && isS f.c && isK f.k, .register), (isZ f.b && !f.feb, .unread)] ++ f.ord.checks)
  | .amoAnd f => firstFail ([(isS f.d && isS f.a && isS f.c && isK f.k, .register), (isZ f.b && !f.feb, .unread)] ++ f.ord.checks)
  | .amoOr f => firstFail ([(isS f.d && isS f.a && isS f.c && isK f.k, .register), (isZ f.b && !f.feb, .unread)] ++ f.ord.checks)
  | .amoXor f => firstFail ([(isS f.d && isS f.a && isS f.c && isK f.k, .register), (isZ f.b && !f.feb, .unread)] ++ f.ord.checks)
  | .amoMinS f => firstFail ([(isS f.d && isS f.a && isS f.c && isK f.k, .register), (isZ f.b && !f.feb, .unread)] ++ f.ord.checks)
  | .amoMaxS f => firstFail ([(isS f.d && isS f.a && isS f.c && isK f.k, .register), (isZ f.b && !f.feb, .unread)] ++ f.ord.checks)
  | .amoMinN f => firstFail ([(isS f.d && isS f.a && isS f.c && isK f.k, .register), (isZ f.b && !f.feb, .unread)] ++ f.ord.checks)
  | .amoMaxN f => firstFail ([(isS f.d && isS f.a && isS f.c && isK f.k, .register), (isZ f.b && !f.feb, .unread)] ++ f.ord.checks)
  | .amoSwap f => firstFail ([(isS f.d && isS f.a && isS f.c && isK f.k, .register), (isZ f.b && !f.feb, .unread)] ++ f.ord.checks)
  | .amoCas f => firstFail ([(isS f.d && isS f.a && isS f.c && isK f.k, .register), (isS f.b, .unread)] ++ f.ord.checks)
  | .amoFmaxF32 f => firstFail ([(isS f.d && isS f.a && isS f.c && isK f.k, .register), (isZ f.b && !f.feb && !f.w64, .unread)] ++ f.ord.checks)
  | .amoAmaxRr f => firstFail ([(isS f.d && isS f.a && isS f.c && isK f.k, .register), (isZ f.b && !f.feb && !f.w64 && isZ f.a && !f.fea, .unread)] ++ f.ord.checks)
  | .fenceAcq _ scope => firstFail [(decide (scope ≤ 5), .scope)]
  | .fenceRel _ scope => firstFail [(decide (scope ≤ 5), .scope)]
  | .fenceAr _ scope => firstFail [(decide (scope ≤ 5), .scope)]
  | .fenceSc _ scope => firstFail [(decide (1 ≤ scope) && decide (scope ≤ 5), .scope)]
  | .xlat rights o => firstFail ((rights != 0#4, .literal) :: o.roles 't' 's' 's' 'z')
  | .xlatTry rights o => firstFail ((rights != 0#4, .literal) :: o.roles 't' 's' 's' 'w')
  | .tkchk o => firstFail (o.roles 'w' 'k' 'z' 'z')
  | .tkdrop o => firstFail (o.roles 'z' 'k' 'z' 'z')
  | .tkmov o => firstFail (o.roles 't' 'k' 'z' 'z')
  | .tksub o => firstFail (o.roles 't' 'k' 's' 's')
  | .tkinfo o => firstFail (o.roles 'w' 'k' 'z' 'z')
  | .tkrevKill o => firstFail (o.roles 'z' 's' 'z' 'z')
  | .tkrevMove o => firstFail (o.roles 'z' 's' 'k' 'z')
  | .qinfo o => firstFail (o.roles 'w' 's' 'z' 'z')
  | .qpush o => firstFail (o.roles 'z' 's' 'e' 't')
  | .qpop o => firstFail ((o.d != 0 && o.d % 8 == 0, .register) :: o.roles 'w' 's' 'z' 't')
  | .qtry o => firstFail ((o.d != 0 && o.d % 8 == 0, .register) :: o.roles 'w' 's' 'w' 't')
  | .qbind o => firstFail (o.roles 'z' 's' 's' 't')
  | .stashMap w m => firstFail ((decide (w < 64), .literal) :: m.checks)
  | .stashUnmap w => firstFail [(decide (w < 64), .literal)]
  | .stashWb w => firstFail [(decide (w < 64), .literal)]
  | .stashInv w => firstFail [(decide (w < 64), .literal)]
  | .bar lvl scope => firstFail [(decide (lvl ≤ 5), .literal), (decide (scope ≤ 5), .scope)]
  | .futWait f => firstFail ([(isS f.d, .register), (!f.ord.rel, .order)] ++ f.ord.checks ++ f.m.checks)
  | .sigWait f => firstFail ([(isS f.d, .register), (!f.ord.rel, .order)] ++ f.ord.checks ++ f.m.checks)
  | .sigRead f => firstFail ([(isS f.d, .register), (!f.ord.rel, .order)] ++ f.ord.checks ++ f.m.checks)
  | .futPut f => firstFail ([(isS f.d, .register), (f.ord.rel || !f.ord.acq, .order)] ++ f.ord.checks ++ f.m.checks)
  | .futClr f => firstFail ([(isS f.d, .register), (f.ord.rel || !f.ord.acq, .order)] ++ f.ord.checks ++ f.m.checks)
  | .sigAdd f => firstFail ([(isS f.d, .register), (f.ord.rel || !f.ord.acq, .order)] ++ f.ord.checks ++ f.m.checks)
  | .sigSet f => firstFail ([(isS f.d, .register), (f.ord.rel || !f.ord.acq, .order)] ++ f.ord.checks ++ f.m.checks)
  | .hset h a _ => firstFail [(decide (h < 64), .literal), (isS a, .register)]
  | .harr h a _ => firstFail [(decide (h < 64), .literal), (isS a, .register)]
  | .hwait h => firstFail [(decide (h < 64), .literal)]
  | .hdrain h => firstFail [(decide (h < 64), .literal)]
  | .hfree h => firstFail [(decide (h < 64), .literal)]
  | .cpyCancel h => firstFail [(decide (h < 64), .literal)]
  | .hinfo d h => firstFail [(decide (h < 64), .literal), (isS d, .register)]
  | .cpyStat d h => firstFail [(decide (h < 64), .literal), (isS d, .register)]
  | .cpyLvl lvl o => firstFail ((decide (lvl ≤ 5), .literal) :: o.roles 'z' 's' 's' 's')
  | .cpyGo f => firstFail ([(decide (f.h < 64), .literal), (isS f.a && isS f.b && isS f.c && isK f.sk && isK f.dk, .register), (decide (f.df ≤ 2) && decide (f.nlvl ≤ 6) && decide (f.haddr < 32768), .literal), (f.ntf || isZ f.haddr, .unread), (!f.mir || f.df == 2, .unread)] ++ f.ord.checks)
  | .mxCbtab f => firstFail (f.checks 8 true false)
  | .mxBld f => firstFail (f.checks 64 false false)
  | .mxBldMirror f => firstFail (f.checks 64 false false)
  | .mxTld f => firstFail (f.checks 8 true true)
  | .mxZld f => firstFail (f.checks 64 true false)
  | .mxZst f => firstFail (f.checks 64 true false)
  | .mxMm f => firstFail [(isS f.d, .register), (decide (f.t < 8) && decide (f.z < 64) && decide (f.h < 64) && decide (f.slot < 1024) && decide (f.c0 < 512) && decide (f.nc < 1024) && decide (f.klen < 2048) && decide (f.cb < 8), .literal), (f.hw || isZ f.h, .unread)]
  | .mxKat d n g _ => firstFail [(isS d, .register), (decide (n < 64) && decide (g < 64), .literal)]
  | .mxZalloc d z => firstFail [(isS d, .register), (decide (z < 64), .literal)]
  | .mxZfree z => firstFail [(decide (z < 64), .literal)]
  | .mxZcpy d za zb => firstFail [(isS d, .register), (decide (za < 64) && decide (zb < 64), .literal)]
  | .mxOut f => firstFail ([(isS f.d && isS f.b && isS f.c && isK f.k, .register), (decide (f.z < 64) && decide (f.ty < 16) && decide (f.rm < 4) && decide (f.r0 < 128) && decide (f.nr < 128) && decide (f.c0 < 512) && decide (f.nc < 1024) && decide (f.vn < 2048), .literal), (if f.dst then isZ f.vn else isZ f.k && isZ f.b && isZ f.c && !f.feb && !f.fec, .unread), (f.dst || !(f.ord.acq || f.ord.rel), .order)] ++ f.ord.checks)
  | .umCfg f => firstFail [(isS f.d && isS f.a && isS f.b, .register), (decide (1 ≤ f.seqlen) && decide (f.seqlen ≤ 65536) && decide (f.bsz < 4) && decide (1 ≤ f.nlayer) && decide (f.nlayer ≤ 256) && decide (f.rnd < 3), .literal), (decide (f.nlayer * ((f.seqlen + 2 ^ (f.bsz + 2) - 1) / 2 ^ (f.bsz + 2)) ≤ 1048576), .literal)]
  | .umCfgRad d l0 nl radius => firstFail [(isS d, .register), (decide (l0 < 256) && decide (1 ≤ nl) && decide (nl ≤ 256) && decide (l0 + nl ≤ 256) && decide (radius < 16384), .literal)]
  | .umCfgShare f => firstFail [(isS f.d && isS f.a && isS f.b, .register), (isZ f.seqlen && isZ f.bsz && isZ f.nlayer, .unread), (decide (f.rnd < 3), .literal)]
  | .umRank f => firstFail ((isS f.d && isS f.a && isS f.b && isK f.k, .register) :: f.ord.checks)
  | .umCommit f => firstFail ((isS f.d && isS f.a && isS f.b && isK f.k, .register) :: f.ord.checks)
  | .umDnext d => firstFail [(isS d, .register)]
  | .umDclr a _ => firstFail [(isS a, .register)]
  | .vld w => w.memChecks true false false
  | .vst w => w.memChecks false false false
  | .vgat w => w.memChecks true true false
  | .vsca w => w.memChecks false true false
  | .vldb w => w.memChecks true false true
  | .vstb w => w.memChecks false false true
  | .vadd w => w.checks (.int true true)
  | .vsub w => w.checks (.int true true)
  | .vmul w => w.checks (.int true true)
  | .vmulh w => w.checks (.int true false)
  | .vmin w => w.checks (.int true false)
  | .vmax w => w.checks (.int true false)
  | .vabs w => w.checks (.int false true)
  | .vneg w => w.checks (.int false true)
  | .vand w => w.checks (.int true false)
  | .vor w => w.checks (.int true false)
  | .vxor w => w.checks (.int true false)
  | .vnot w => w.checks (.int false false)
  | .vshl w => w.checks (.int true true)
  | .vshr w => w.checks (.int true false)
  | .vclz w => w.checks (.int false false)
  | .vpopc w => w.checks (.int false false)
  | .vsel w => w.checks { VUse.int true false with ty := tyAny, md := fun m => decide (m < 8) && m % 2 == 0, gm := false }
  | .vfadd w => w.checks (.flt true false)
  | .vfsub w => w.checks (.flt true false)
  | .vfmul w => w.checks (.flt true false)
  | .vfdiv w => w.checks (.flt true false)
  | .vfmin w => w.checks (.flt true false)
  | .vfmax w => w.checks (.flt true false)
  | .vfma w => w.checks (.flt true true)
  | .vfms w => w.checks (.flt true true)
  | .vfsqrt w => w.checks (.flt false false)
  | .vfrcp w => w.checks (.flt false false)
  | .vfrsq w => w.checks (.flt false false)
  | .vfexp2 w => w.checks (.flt false false)
  | .vflog2 w => w.checks (.flt false false)
  | .vfabs w => w.checks (.flt false false)
  | .vfneg w => w.checks (.flt false false)
  | .vcvt w => w.checks { VUse.flt false false with ty := tyAny, md := fun m => decide (m % 16 ≤ 10) && decide (m < 32) }
  | .vcb w => w.checks { VUse.perm false false with ty := fun t => t == 11, c := true, md := fun m => decide (m < 2) }
  | .vpack w => if w.md / 2 % 2 == 1 && w.imm != 0#32 || decide (256 ≤ w.imm.toNat) then some .immediate else w.checks { VUse.perm false true with ty := tyBlk, c := w.ty == 11, md := fun m => decide (m < 4) }
  | .vunpack w => w.checks { VUse.perm false false with ty := tyBlk, c := w.ty == 11, md := fun m => decide (m < 2) }
  | .vamax w => w.checks { VUse.perm false false with ty := fun t => tyFlt t || tyBlk t, c := w.ty == 11, md := fun m => m == 0 || (tyBlk w.ty && m == 1) }
  | .vred w => w.checks { VUse.perm false false with md := fun m => if tyInt w.ty then decide (m < 8) || m == 8 else decide (m < 3) }
  | .vperm w => w.checks (.perm true false)
  | .vtrns w => w.checks (.perm false false)
  | .vbcast w => if w.md == 2 then w.checks { VUse.perm true false with a := false, sb := true, md := fun m => m == 2 } else w.checks (.perm false true)
  | .vslide w => w.checks (.perm true true)
  | .vcompress w => w.checks (.perm false false)
  | .mpush w => w.checks { VUse.perm (decide (w.md < 4)) false with d := false, md := fun m => decide (m < 6) && (m != 5 || tyFlt w.ty), gm := false }
  | .minv w => w.checks (.bare false false fun m => m == 0)
  | .mpop w => w.checks (.bare false false fun m => m == 0)
  | .vskip w => if decide (256 ≤ w.imm.toNat) then some .immediate else w.checks (.bare true false fun m => m == 0)
  | .veos w => w.checks (.bare false true fun m => m == 0)
  | .mcall w => firstFail [(w.bounds, .register), (w.ty == 0, .vType), (w.gc == 0 && w.gm == 0, .vGuard), (w.fe == 0 && w.hint == 0 && w.sm == 0 && !w.yld, .unread)]
  | .vnop w => w.checks (.bare false false fun m => decide (m < 3))
  | .rd _ h => firstFail [(decide (h.tag < 8) && decide (h.port < 32) && decide (h.line < 2 ^ 30), .literal)]
  | .wr _ h data => firstFail [(decide (h.tag < 8) && decide (h.port < 32) && decide (h.line < 2 ^ 30) && data.length == 64, .literal)]
  | .wrm _ h _ data => firstFail [(decide (h.tag < 8) && decide (h.port < 32) && decide (h.line < 2 ^ 30) && data.length == 64, .literal)]
  | .reservedOp _ h => firstFail [(decide (h.tag < 8) && decide (h.port < 32) && decide (h.line < 2 ^ 30), .literal)]
  | .launchPacket _ rec => firstFail [(rec.length == 16, .packet)]
  | .revokePacket _ mv va len nv => firstFail [(va.toNat % 4096 == 0 && decide (0 < len) && len % 4096 == 0 && (mv || nv == 0#48), .packet)]
  | .graphPacket _ va => firstFail [(va.toNat % 64 == 0, .packet)]
  | .waitPacket _ va _ => firstFail [(va.toNat % 8 == 0, .packet)]
  | .signalPacket _ _ _ va _ => firstFail [(va.toNat % 8 == 0, .packet)]
  | .baromFlit _ flit => firstFail [(flit.length == 256, .packet)]
  | .moduleReset => none
  | .thermalTrip _ => none
  | .linkTrain _ _ => none
  | .nop => none
  | .endTask => none
  | .yield => none
  | .trap _ => none
  | .chk => none
  | .cro _ => none
  | .crc => none
  | .jmp _ => none
  | .call _ => none
  | .loadComplete _ _ => none
  | .amoReply _ _ => none
  | .xlatComplete _ _ => none
  | .barrierRelease _ _ _ => none
  | .futReleasePush _ => none
  | .futParkRetry _ => none
  | .sigWaitRelease _ => none
  | .handleDrainFree _ _ => none
  | .queueResolve _ _ => none
  | .refillLand _ _ => none
  | .recordDelivery _ => none
  | .queueFaultTrap _ _ => none
  | .copyCommandStart _ => none
  | .copyEmit _ => none
  | .copyComplete _ => none
  | .copyCommandComplete _ => none
  | .mxLease => none
  | .mxFree => none
  | .leaseGrant _ => none
  | .mxAccept _ => none
  | .mxStep _ => none
  | .mxStatusFill _ => none
  | .umStatusFill _ => none
  | .vwordFill _ _ => none
  | .vwordIllegalTrap _ => none
  | .deadlock _ => none
  | .iterboundBreach _ => none
  | .taskDispatch _ => none
  | .taskStart _ => none
  | .groupDeliver _ => none
  | .taskEndComplete _ => none
  | .taskRetire _ => none
  | .stopHonour _ => none
  | .stopTokenPass _ _ => none
  | .contextSaveComplete _ => none
  | .urgentStop _ _ => none
  | .launchSeal _ => none
  | .launchRunning _ => none
  | .initialRecordPush _ => none
  | .launchDone _ => none
  | .bootDoor _ => none
  | .gafferSample _ => none
  | .gafferMove _ => none
  | .forcedPublish _ _ _ => none
  | .sweep _ _ => none
  | .revokeDrainEnd _ => none
  | .sweepDone _ => none
  | .deadUnpin _ => none
  | .deadHoldExpire _ => none
  | .forwardRelease _ => none
  | .savedContextWalk _ _ => none
  | .hostHdmWrite _ _ => none
  | .hostHdmRead _ _ => none
  | .ringEnable _ => none
  | .ringDisable _ => none
  | .ringPoll _ => none
  | .packetFetch _ => none
  | .nopPacket _ => none
  | .ringUnpark _ => none
  | .journalAppend => none
  | .dataReply _ _ _ => none
  | .acknowledgement _ _ _ => none
  | .redundantCompare _ _ => none
  | .redmisTimeout _ _ => none
  | .scrubVisit _ => none
  | .lehrAdjust _ => none
  | .wearRecordRequest _ => none
  | .writeReachesHome _ _ => none
  | .storeAcknowledged _ _ => none
  | .hostLinkDown _ => none
  | .managementMailboxRequest _ => none

/-- An instruction whose fields pass every check. -/
def Instr.wf (i : Instr) : Bool := i.check == none

end Sys2Proof
end

