-- ==== Sys2Proof/Decode.lean ====
section
/-! DEFINITION. Decoding and encoding. A C-word, a V-word, a ring packet and a base-die request are read field by field
(R50 to R65, R324, R336), each by a total function that answers an instruction or the name of what is wrong; the encoder
after them is written from the same tables. -/

namespace Sys2Proof

/-- Bits `lo + n - 1 : lo` of a number. -/
def fld (w lo n : Nat) : Nat := w / 2 ^ lo % 2 ^ n
/-- Bit `i` of a number. -/
def bit (w i : Nat) : Bool := w / 2 ^ i % 2 == 1

/-- A CR word (R50), field by field; `z` is bits 22:0. -/
structure CR where
  maj : Nat
  mn : Nat
  d : Nat
  a : Nat
  b : Nat
  c : Nat
  fea : Bool
  feb : Bool
  fec : Bool
  z : Nat
  deriving DecidableEq, Repr

/-- A CI word (R50). -/
structure CI where
  maj : Nat
  mn : Nat
  d : Nat
  a : Nat
  fea : Bool
  imm : Nat
  deriving DecidableEq, Repr

/-- A CK word (R50). -/
structure CK where
  maj : Nat
  mn : Nat
  d : Nat
  k : Nat
  x : Nat
  fex : Bool
  off : Nat
  deriving DecidableEq, Repr

/-- A CB word (R50). -/
structure CB where
  maj : Nat
  cond : Nat
  a : Nat
  b : Nat
  fea : Bool
  feb : Bool
  disp : Nat
  deriving DecidableEq, Repr

/-- A CL word (R50). -/
structure CL where
  maj : Nat
  mn : Nat
  lvl : Nat
  t : Nat
  ti : Bool
  body : Nat
  trip : Nat
  deriving DecidableEq, Repr

/-- A CV word (R50). -/
structure CV where
  maj : Nat
  mn : Nat
  start : Nat
  count : Nat
  z : Nat
  deriving DecidableEq, Repr

/-- Read a word in CR layout. -/
def crOf (w : Nat) : CR :=
  { maj := fld w 58 6, mn := fld w 50 8, d := fld w 44 6, a := fld w 38 6, b := fld w 32 6, c := fld w 26 6,
    fea := bit w 25, feb := bit w 24, fec := bit w 23, z := fld w 0 23 }

/-- Write a word in CR layout. -/
def crWord (f : CR) : Nat :=
  f.maj * 2 ^ 58 + f.mn * 2 ^ 50 + f.d * 2 ^ 44 + f.a * 2 ^ 38 + f.b * 2 ^ 32 + f.c * 2 ^ 26 + f.fea.toNat * 2 ^ 25 +
  f.feb.toNat * 2 ^ 24 + f.fec.toNat * 2 ^ 23 + f.z

/-- Read a word in CI layout. -/
def ciOf (w : Nat) : CI :=
  { maj := fld w 58 6, mn := fld w 50 8, d := fld w 44 6, a := fld w 38 6, fea := bit w 37, imm := fld w 0 37 }

/-- Write a word in CI layout. -/
def ciWord (f : CI) : Nat :=
  f.maj * 2 ^ 58 + f.mn * 2 ^ 50 + f.d * 2 ^ 44 + f.a * 2 ^ 38 + f.fea.toNat * 2 ^ 37 + f.imm

/-- Read a word in CK layout. -/
def ckOf (w : Nat) : CK :=
  { maj := fld w 58 6, mn := fld w 50 8, d := fld w 44 6, k := fld w 39 5, x := fld w 33 6, fex := bit w 32,
    off := fld w 0 32 }

/-- Write a word in CK layout. -/
def ckWord (f : CK) : Nat :=
  f.maj * 2 ^ 58 + f.mn * 2 ^ 50 + f.d * 2 ^ 44 + f.k * 2 ^ 39 + f.x * 2 ^ 33 + f.fex.toNat * 2 ^ 32 + f.off

/-- Read a word in CB layout. -/
def cbOf (w : Nat) : CB :=
  { maj := fld w 58 6, cond := fld w 53 5, a := fld w 47 6, b := fld w 41 6, fea := bit w 40, feb := bit w 39,
    disp := fld w 0 39 }

/-- Write a word in CB layout. -/
def cbWord (f : CB) : Nat :=
  f.maj * 2 ^ 58 + f.cond * 2 ^ 53 + f.a * 2 ^ 47 + f.b * 2 ^ 41 + f.fea.toNat * 2 ^ 40 + f.feb.toNat * 2 ^ 39 + f.disp

/-- Read a word in CL layout. -/
def clOf (w : Nat) : CL :=
  { maj := fld w 58 6, mn := fld w 50 8, lvl := fld w 47 3, t := fld w 41 6, ti := bit w 40, body := fld w 24 16,
    trip := fld w 0 24 }

/-- Write a word in CL layout. -/
def clWord (f : CL) : Nat :=
  f.maj * 2 ^ 58 + f.mn * 2 ^ 50 + f.lvl * 2 ^ 47 + f.t * 2 ^ 41 + f.ti.toNat * 2 ^ 40 + f.body * 2 ^ 24 + f.trip

/-- Read a word in CV layout. -/
def cvOf (w : Nat) : CV :=
  { maj := fld w 58 6, mn := fld w 50 8, start := fld w 34 16, count := fld w 18 16, z := fld w 0 18 }

/-- Write a word in CV layout. -/
def cvWord (f : CV) : Nat := f.maj * 2 ^ 58 + f.mn * 2 ^ 50 + f.start * 2 ^ 34 + f.count * 2 ^ 18 + f.z

/-- ORD and SCOPE from their codes (R49). -/
def ordOf (o s : Nat) : Ordr := { acq := o % 2 == 1, rel := o / 2 % 2 == 1, scope := s }
/-- The ORD code (R49). -/
def Ordr.code (o : Ordr) : Nat := o.acq.toNat + 2 * o.rel.toNat

/-- COND codes (R55). -/
def condOf : Nat → Option Cond
  | 0x00 => some .al | 0x01 => some .eq | 0x02 => some .ne | 0x03 => some .ltS | 0x04 => some .geS
  | 0x05 => some .ltN | 0x06 => some .geN | 0x10 => some .cpybusy | 0x11 => some .cpydone | 0x12 => some .mxbusy
  | 0x13 => some .mxdone | 0x14 => some .umbusy | 0x15 => some .umdone | 0x16 => some .cpyfault
  | 0x17 => some .mxfault | _ => none

/-- The code of a condition (R55). -/
def Cond.code : Cond → Nat
  | .al => 0x00 | .eq => 0x01 | .ne => 0x02 | .ltS => 0x03 | .geS => 0x04 | .ltN => 0x05 | .geN => 0x06
  | .cpybusy => 0x10 | .cpydone => 0x11 | .mxbusy => 0x12 | .mxdone => 0x13 | .umbusy => 0x14 | .umdone => 0x15
  | .cpyfault => 0x16 | .mxfault => 0x17

/-- A decoded word and how many C-words it takes. -/
abbrev Dec := Except Reject (Instr × Nat)

/-- Answer `i`, of `n` C-words, when the fields it has no place for are zero. -/
def give (i : Instr) (n : Nat) (zero : Bool) : Dec := if zero then .ok (i, n) else .error .zeroField

/-- The register form's operands. -/
def CR.alu (f : CR) : AluR := { d := f.d, a := f.a, b := f.b, c := f.c, fea := f.fea, feb := f.feb, fec := f.fec }
/-- The immediate form's operands. -/
def CI.alu (f : CI) : AluI := { d := f.d, a := f.a, fea := f.fea, imm := BitVec.ofNat 37 f.imm }
/-- A CK word's operand. -/
def CK.mem (f : CK) : MemRef := { k := f.k, x := f.x, fex := f.fex, off := BitVec.ofNat 32 f.off }
/-- Whether D, A, B, C and the FE bits are all zero. -/
def CR.bare (f : CR) : Bool :=
  f.d == 0 && f.a == 0 && f.b == 0 && f.c == 0 && !f.fea && !f.feb && !f.fec && f.z == 0
/-- Whether K, X, FEX and OFF32 are all zero. -/
def CK.noMem (f : CK) : Bool := f.k == 0 && f.x == 0 && !f.fex && f.off == 0

/-- MAJ 0x00 (R53). -/
def decSys (w : Nat) : Dec :=
  let r := crOf w
  let i := ciOf w
  let k := ckOf w
  match r.mn with
  | 0x00 => give .nop 1 r.bare
  | 0x01 => give .endTask 1 r.bare
  | 0x02 => give .yield 1 r.bare
  | 0x03 => give (.trap (BitVec.ofNat 16 i.imm)) 1 (i.d == 0 && i.a == 0 && !i.fea && i.imm / 2 ^ 16 == 0)
  | 0x04 => give (.csrr i.d (i.imm % 4096)) 1 (i.a == 0 && !i.fea && i.imm / 4096 == 0)
  | 0x05 => give (.csrw i.a i.fea (i.imm % 4096)) 1 (i.d == 0 && i.imm / 4096 == 0)
  | 0x06 => give (.rdts r.d) 1 (r.a == 0 && r.b == 0 && r.c == 0 && !r.fea && !r.feb && !r.fec && r.z == 0)
  | 0x07 => give .chk 1 r.bare
  | 0x08 => give (.cro (BitVec.ofNat 37 i.imm)) 1 (i.d == 0 && i.a == 0 && !i.fea)
  | 0x09 => give .crc 1 r.bare
  | 0x0A => give (.ctxsave k.mem) 1 (k.d == 0)
  | 0x0B => give (.ctxrest k.mem) 1 (k.d == 0)
  | 0x0C => give (.stop r.a r.fea) 1 (r.d == 0 && r.b == 0 && r.c == 0 && !r.feb && !r.fec && r.z == 0)
  | 0x0D => give (.wcsld k.d k.mem) 1 true
  | _ => .error .minor

/-- MAJ 0x01, the register form (R54). -/
def decAluR (w : Nat) : Dec :=
  let r := crOf w
  let z := r.z == 0
  match r.mn with
  | 0x00 => give (.add r.alu) 1 z
  | 0x01 => give (.sub r.alu) 1 z
  | 0x02 => give (.mul r.alu) 1 z
  | 0x03 => give (.mulhS r.alu) 1 z
  | 0x04 => give (.mulhN r.alu) 1 z
  | 0x05 => give (.divS r.alu) 1 z
  | 0x06 => give (.divN r.alu) 1 z
  | 0x07 => give (.remS r.alu) 1 z
  | 0x08 => give (.remN r.alu) 1 z
  | 0x09 => give (.and r.alu) 1 z
  | 0x0A => give (.or r.alu) 1 z
  | 0x0B => give (.xor r.alu) 1 z
  | 0x0C => give (.andn r.alu) 1 z
  | 0x0D => give (.shl r.alu) 1 z
  | 0x0E => give (.shrS r.alu) 1 z
  | 0x0F => give (.shrN r.alu) 1 z
  | 0x10 => give (.rot r.alu) 1 z
  | 0x11 => give (.clz r.alu) 1 z
  | 0x12 => give (.popc r.alu) 1 z
  | 0x13 => give (.minS r.alu) 1 z
  | 0x14 => give (.minN r.alu) 1 z
  | 0x15 => give (.maxS r.alu) 1 z
  | 0x16 => give (.maxN r.alu) 1 z
  | 0x17 => give (.sel r.alu) 1 z
  | 0x18 => give (.mov r.alu) 1 z
  | 0x19 => give (.sext r.alu) 1 z
  | 0x1A => give (.zext r.alu) 1 z
  | 0x1B => give (.bfx r.alu) 1 z
  | 0x1C => give (.bfi r.alu) 1 z
  | _ => .error .minor

/-- MAJ 0x02, the immediate form, `pset` and `shape` (R54). An operation that reads no b takes IMM37 = 0 (R114) and is the
same instruction as in the register form. -/
def decAluI (w : Nat) : Dec :=
  let i := ciOf w
  let one : AluR := { d := i.d, a := i.a, b := 0, c := 0, fea := i.fea, feb := false, fec := false }
  match i.mn with
  | 0x00 => give (.addImmediate i.alu) 1 true
  | 0x01 => give (.subImmediate i.alu) 1 true
  | 0x02 => give (.mulImmediate i.alu) 1 true
  | 0x03 => give (.mulhSImmediate i.alu) 1 true
  | 0x04 => give (.mulhNImmediate i.alu) 1 true
  | 0x05 => give (.divSImmediate i.alu) 1 true
  | 0x06 => give (.divNImmediate i.alu) 1 true
  | 0x07 => give (.remSImmediate i.alu) 1 true
  | 0x08 => give (.remNImmediate i.alu) 1 true
  | 0x09 => give (.andImmediate i.alu) 1 true
  | 0x0A => give (.orImmediate i.alu) 1 true
  | 0x0B => give (.xorImmediate i.alu) 1 true
  | 0x0C => give (.andnImmediate i.alu) 1 true
  | 0x0D => give (.shlImmediate i.alu) 1 true
  | 0x0E => give (.shrSImmediate i.alu) 1 true
  | 0x0F => give (.shrNImmediate i.alu) 1 true
  | 0x10 => give (.rotImmediate i.alu) 1 true
  | 0x11 => give (.clz one) 1 (i.imm == 0)
  | 0x12 => give (.popc one) 1 (i.imm == 0)
  | 0x13 => give (.minSImmediate i.alu) 1 true
  | 0x14 => give (.minNImmediate i.alu) 1 true
  | 0x15 => give (.maxSImmediate i.alu) 1 true
  | 0x16 => give (.maxNImmediate i.alu) 1 true
  | 0x18 => give (.mov one) 1 (i.imm == 0)
  | 0x19 => give (.sextImmediate i.alu) 1 true
  | 0x1A => give (.zextImmediate i.alu) 1 true
  | 0x1B => give (.bfxImmediate i.alu) 1 true
  | 0x1C => give (.bfiImmediate i.alu) 1 true
  | 0x20 => give (.pset i.d i.a i.fea (fld i.imm 10 2) (fld i.imm 0 10)) 1 (i.imm / 2 ^ 12 == 0)
  | 0x21 => give (.shape (i.imm % 8)) 1 (i.d == 0 && i.a == 0 && !i.fea && i.imm / 8 == 0)
  | _ => .error .minor

/-- MAJ 0x06 (R57). -/
def decJump (w : Nat) : Dec :=
  let i := ciOf w
  match i.mn with
  | 0 => give (.jmp (BitVec.ofNat 37 i.imm)) 1 (i.d == 0 && i.a == 0 && !i.fea)
  | 1 => give (.call (BitVec.ofNat 37 i.imm)) 1 (i.d == 0 && i.a == 0 && !i.fea)
  | 2 => give (.ret i.a i.fea) 1 (i.d == 0 && i.imm == 0)
  | 3 => give (.brx i.a i.fea (BitVec.ofNat 37 i.imm)) 1 (i.d == 0)
  | _ => .error .minor

/-- MAJ 0x07 (R57). Bits 40:0 and T hold nothing for `lbrk`. -/
def decLoop (w : Nat) : Dec :=
  let l := clOf w
  match l.mn with
  | 0 => give (.loop { lvl := l.lvl, t := l.t, ti := l.ti, body := l.body, trip := l.trip }) 1 true
  | 1 => give (.lbrk l.lvl) 1 (l.t == 0 && !l.ti && l.body == 0 && l.trip == 0)
  | _ => .error .minor

/-- MAJ 0x09 (R57): `swpl` and its P64. -/
def decSwpl (w p : Nat) : Dec :=
  let r := crOf w
  if r.mn = 0 then
    give (.swpl { a := r.a, fea := r.fea, pro := fld p 48 16, ker := fld p 32 16, epi := fld p 16 16, fin := fld p 0 16 })
      2 (r.d == 0 && r.b == 0 && r.c == 0 && !r.feb && !r.fec && r.z == 0)
  else .error .minor

/-- The `ld` and `st` operands (R58). -/
def ldfOf (k : CK) : LdF := { ty := k.mn % 8, d := k.d, m := k.mem, ord := ordOf (fld k.mn 3 2) (fld k.mn 5 3) }

/-- MAJ 0x0D (R58): `amo` and its P64. -/
def decAmo (w p : Nat) : Dec :=
  let r := crOf w
  let f : AmoF :=
    { w64 := bit r.mn 7, d := r.d, a := r.a, b := r.b, c := r.c, fea := r.fea, feb := r.feb, fec := r.fec,
      k := fld p 59 5, ord := ordOf (fld p 54 2) (fld p 56 3), off := BitVec.ofNat 32 (fld p 0 32) }
  let z := r.z == 0 && fld p 32 22 == 0
  match r.mn % 128 with
  | 0x00 => give (.amoAdd f) 2 z
  | 0x01 => give (.amoAnd f) 2 z
  | 0x02 => give (.amoOr f) 2 z
  | 0x03 => give (.amoXor f) 2 z
  | 0x04 => give (.amoMinS f) 2 z
  | 0x05 => give (.amoMaxS f) 2 z
  | 0x06 => give (.amoMinN f) 2 z
  | 0x07 => give (.amoMaxN f) 2 z
  | 0x08 => give (.amoSwap f) 2 z
  | 0x09 => give (.amoCas f) 2 z
  | 0x10 => give (.amoFmaxF32 f) 2 z
  | 0x11 => give (.amoAmaxRr f) 2 z
  | _ => .error .minor

/-- MAJ 0x0E (R58). -/
def decFence (w : Nat) : Dec :=
  let r := crOf w
  let z := r.bare && r.mn % 4 == 0
  let u := bit r.mn 2
  let s := fld r.mn 5 3
  match fld r.mn 3 2 with
  | 0 => give (.fenceAcq u s) 1 z
  | 1 => give (.fenceRel u s) 1 z
  | 2 => give (.fenceAr u s) 1 z
  | _ => give (.fenceSc u s) 1 z

/-- MAJ 0x0F (R59). -/
def decToken (w : Nat) : Dec :=
  let r := crOf w
  let z := r.z == 0
  let hi := r.mn / 16
  match r.mn % 16 with
  | 0 => give (.xlat (BitVec.ofNat 4 (tokRights hi)) r.alu) 1 z
  | 1 => give (.xlatTry (BitVec.ofNat 4 (tokRights hi)) r.alu) 1 z
  | 2 => give (.tkchk r.alu) 1 (z && hi == 0)
  | 3 => give (.tkdrop r.alu) 1 (z && hi == 0)
  | 4 => give (.tkmov r.alu) 1 (z && hi == 0)
  | 5 => give (.tksub r.alu) 1 (z && hi == 0)
  | 6 => give (.tkinfo r.alu) 1 (z && hi == 0)
  | 7 => if hi = 0 then give (.tkrevKill r.alu) 1 z else if hi = 1 then give (.tkrevMove r.alu) 1 z else .error .minor
  | _ => .error .minor
where
  /-- MIN 7:4 are R, W, X, A from bit 7 (R59), the order of RIGHTS in a token (R203). -/
  tokRights (hi : Nat) : Nat := hi

/-- MAJ 0x10 (R60). -/
def decStash (w : Nat) : Dec :=
  let k := ckOf w
  match k.mn with
  | 0 => give (.stashMap k.d k.mem) 1 true
  | 1 => give (.stashUnmap k.d) 1 k.noMem
  | 2 => give (.stashWb k.d) 1 k.noMem
  | 3 => give (.stashInv k.d) 1 k.noMem
  | _ => .error .minor

/-- MAJ 0x12 (R60, R288). -/
def decSync (w : Nat) : Dec :=
  let k := ckOf w
  let f : SyncF := { d := k.d, m := k.mem, ord := ordOf (fld k.mn 3 2) (fld k.mn 5 3) }
  match k.mn % 8 with
  | 0 => give (.futWait f) 1 true
  | 1 => give (.futPut f) 1 true
  | 2 => give (.futClr f) 1 true
  | 3 => give (.sigAdd f) 1 true
  | 4 => give (.sigSet f) 1 true
  | 5 => give (.sigWait f) 1 true
  | 6 => give (.sigRead f) 1 true
  | _ => .error .minor

/-- MAJ 0x13 (R60, R240). -/
def decHandle (w : Nat) : Dec :=
  let i := ciOf w
  let h := i.imm % 64
  let z := i.imm / 64 == 0
  let na := i.a == 0 && !i.fea
  match i.mn with
  | 0 => give (.hset h i.a i.fea) 1 (z && i.d == 0)
  | 1 => give (.harr h i.a i.fea) 1 (z && i.d == 0)
  | 2 => give (.hwait h) 1 (z && na && i.d == 0)
  | 3 => give (.hdrain h) 1 (z && na && i.d == 0)
  | 4 => give (.hfree h) 1 (z && na && i.d == 0)
  | 5 => give (.hinfo i.d h) 1 (z && na)
  | _ => .error .minor

/-- MAJ 0x14 (R60, R231). -/
def decQueue (w : Nat) : Dec :=
  let r := crOf w
  let z := r.z == 0
  match r.mn with
  | 0 => give (.qpush r.alu) 1 z
  | 1 => give (.qpop r.alu) 1 z
  | 2 => give (.qtry r.alu) 1 z
  | 3 => give (.qinfo r.alu) 1 z
  | 4 => give (.qbind r.alu) 1 z
  | _ => .error .minor

/-- The ordering field of an engine word (R61). -/
def eordOf (p : Nat) : Ordr := ordOf (fld p 62 2) (fld p 59 3)

/-- MAJ 0x15 (R60, R241, R242, R248). -/
def decCpy (w p : Nat) : Dec :=
  let r := crOf w
  let i := ciOf w
  match r.mn with
  | 0 => give (.cpyLvl r.d { r.alu with d := 0 }) 1 (r.z == 0)
  | 1 =>
    give (.cpyGo
      { h := r.d, a := r.a, b := r.b, c := r.c, fea := r.fea, feb := r.feb, fec := r.fec, ord := eordOf p,
        sk := fld p 54 5, dk := fld p 49 5, sf := bit p 48, df := fld p 46 2, nlvl := fld p 43 3, ntf := bit p 42,
        mir := bit p 41, haddr := fld p 26 15 }) 2 (r.z == 0 && fld p 0 26 == 0)
  | 2 => give (.cpyCancel (i.imm % 64)) 1 (i.imm / 64 == 0 && i.d == 0 && i.a == 0 && !i.fea)
  | 3 => give (.cpyStat i.d (i.imm % 64)) 1 (i.imm / 64 == 0 && i.a == 0 && !i.fea)
  | _ => .error .minor

/-- A Marver command with a memory word (R184). -/
def mxMemOf (r : CR) (p : Nat) : MxMemF :=
  { d := r.d, a := r.a, b := r.b, c := r.c, fea := r.fea, feb := r.feb, fec := r.fec, ord := eordOf p, k := fld p 54 5,
    off := BitVec.ofNat 32 (fld p 0 32) }

/-- MAJ 0x16 (R60, R184). -/
def decMx (w p : Nat) : Dec :=
  let r := crOf w
  let z := r.z == 0
  let zm := z && fld p 32 22 == 0
  let noFe := !r.fea && !r.feb && !r.fec
  match r.mn with
  | 0x00 => give .mxLease 1 r.bare
  | 0x01 => give .mxFree 1 r.bare
  | 0x02 => give (.mxCbtab (mxMemOf r p)) 2 zm
  | 0x03 => give (.mxBld (mxMemOf r p)) 2 zm
  | 0x13 => give (.mxBldMirror (mxMemOf r p)) 2 zm
  | 0x04 => give (.mxTld (mxMemOf r p)) 2 zm
  | 0x05 =>
    give (.mxMm
      { d := r.d, t := r.a, z := r.b, h := r.c, slot := fld p 49 10, c0 := fld p 40 9, nc := fld p 30 10,
        klen := fld p 19 11, cb := fld p 16 3, hw := bit p 15, tr := bit p 14, mir := bit p 13 }) 2
      (z && noFe && fld p 59 5 == 0 && fld p 0 13 == 0)
  | 0x06 => give (.mxKat r.d r.a r.b (BitVec.ofNat 64 p)) 2 (z && noFe && r.c == 0)
  | 0x07 => give (.mxZalloc r.d r.a) 1 (z && noFe && r.b == 0 && r.c == 0)
  | 0x08 => give (.mxZfree r.a) 1 (z && noFe && r.d == 0 && r.b == 0 && r.c == 0)
  | 0x09 => give (.mxZld (mxMemOf r p)) 2 zm
  | 0x0A => give (.mxZst (mxMemOf r p)) 2 zm
  | 0x0B => give (.mxZcpy r.d r.a r.b) 1 (z && noFe && r.c == 0)
  | 0x0C =>
    give (.mxOut
      { d := r.d, z := r.a, b := r.b, c := r.c, feb := r.feb, fec := r.fec, ord := eordOf p, dst := bit p 58,
        ty := fld p 54 4, rm := fld p 52 2, sat := bit p 51, clr := bit p 50, r0 := fld p 43 7, nr := fld p 36 7,
        c0 := fld p 27 9, nc := fld p 17 10, k := fld p 11 5, vn := fld p 0 11 }) 2
      (z && !r.fea && fld p 16 1 == 0)
  | _ => .error .minor

/-- MAJ 0x17 (R60, R357, R359). -/
def decUm (w p : Nat) : Dec :=
  let r := crOf w
  let z := r.z == 0
  let noFe := !r.fea && !r.feb && !r.fec
  let mem : UmMemF := { d := r.d, a := r.a, b := r.b, fea := r.fea, feb := r.feb, ord := eordOf p, k := fld p 54 5 }
  let zm := z && r.c == 0 && !r.fec && fld p 0 54 == 0
  match r.mn with
  | 0x00 =>
    let cfg : UmCfgF :=
      { d := r.d, a := r.a, b := r.b, fea := r.fea, feb := r.feb, seqlen := fld p 40 17, bsz := fld p 38 2,
        nlayer := fld p 29 9, rnd := fld p 27 2 }
    let zc := z && r.c == 0 && !r.fec && fld p 59 5 == 0
    match fld p 57 2 with
    | 0 => give (.umCfg cfg) 2 (zc && fld p 0 27 == 0)
    | 1 => give (.umCfgRad r.d (fld p 49 8) (fld p 40 9) (fld p 26 14)) 2
             (zc && noFe && r.a == 0 && r.b == 0 && fld p 0 26 == 0)
    | 2 => give (.umCfgShare cfg) 2 (zc && fld p 0 27 == 0)
    | _ => .error .literal
  | 0x01 => give (.umRank mem) 2 zm
  | 0x02 => give (.umCommit mem) 2 zm
  | 0x03 => give (.umDnext r.d) 1 (z && noFe && r.a == 0 && r.b == 0 && r.c == 0)
  | 0x04 => give (.umDclr r.a r.fea) 1 (z && r.d == 0 && r.b == 0 && r.c == 0 && !r.feb && !r.fec)
  | _ => .error .minor

/-- A C-word's fields (R52): MAJ picks the family. -/
def parseC (w p : Nat) : Dec :=
  let r := crOf w
  match fld w 58 6 with
  | 0x00 => decSys w
  | 0x01 => decAluR w
  | 0x02 => decAluI w
  | 0x03 => if r.mn = 0 then give (.lim r.d (BitVec.ofNat 64 p)) 2
              (r.a == 0 && r.b == 0 && r.c == 0 && !r.fea && !r.feb && !r.fec && r.z == 0) else .error .minor
  | 0x04 =>
    match condOf (r.mn % 32) with
    | some c => give (.cset r.d { cond := c, a := r.a, b := r.b, fea := r.fea, feb := r.feb }) 1
                  (r.mn / 32 == 0 && r.c == 0 && !r.fec && r.z == 0)
    | none => .error .cond
  | 0x05 =>
    let b := cbOf w
    match condOf b.cond with
    | some c => give (.br { cond := c, a := b.a, b := b.b, fea := b.fea, feb := b.feb } (BitVec.ofNat 39 b.disp)) 1 true
    | none => .error .cond
  | 0x06 => decJump w
  | 0x07 => decLoop w
  | 0x08 => let v := cvOf w
            if v.mn = 0 then give (.viss v.start v.count) 1 (v.z == 0) else .error .minor
  | 0x09 => decSwpl w p
  | 0x0A => if r.mn / 8 = 0 then give (.vsync (bit r.mn 2) (bit r.mn 1) (bit r.mn 0)) 1 r.bare else .error .minor
  | 0x0B => give (.ld (ldfOf (ckOf w))) 1 true
  | 0x0C => give (.st (ldfOf (ckOf w))) 1 true
  | 0x0D => decAmo w p
  | 0x0E => decFence w
  | 0x0F => decToken w
  | 0x10 => decStash w
  | 0x11 => give (.bar (r.mn % 8) (fld r.mn 5 3)) 1 (r.bare && fld r.mn 3 2 == 0)
  | 0x12 => decSync w
  | 0x13 => decHandle w
  | 0x14 => decQueue w
  | 0x15 => decCpy w p
  | 0x16 => decMx w p
  | 0x17 => decUm w p
  | _ => .error .major

/-- Whether a first word is that of a CW instruction (R50 to R52, R58, R60): its family, and where the family has several formats
its MIN, says so. -/
def twoWords (w0 : Word) : Bool :=
  let mn := fld w0.toNat 50 8
  match fld w0.toNat 58 6 with
  | 0x03 | 0x09 | 0x0D => true
  | 0x15 => mn == 1
  | 0x16 => [0x02, 0x03, 0x13, 0x04, 0x05, 0x06, 0x09, 0x0A, 0x0C].contains mn
  | 0x17 => decide (mn < 3)
  | _ => false

/-- Decode the C-word `w0`; `w1` is the word after it, read only by a CW instruction (R51). -/
def decodeC (w0 w1 : Word) : Dec :=
  match parseC w0.toNat w1.toNat with
  | .error r => .error r
  | .ok (i, n) => match i.check with
    | none => .ok (i, n)
    | some r => .error r

/-- What ILLEGAL reports of a C-word (R103): MIN, or COND for a CB word. -/
def illegalData (w0 : Word) : Nat := if fld w0.toNat 58 6 = 5 then fld w0.toNat 53 5 else fld w0.toNat 50 8

/-- A V-word's fields (R62). -/
def vfOf (w : Nat) : VFields :=
  { ty := fld w 114 4, d := fld w 103 11, a := fld w 92 11, b := fld w 81 11, c := fld w 70 11, e := fld w 59 11,
    fe := fld w 55 4, gc := fld w 51 4, gm := fld w 49 2, hint := fld w 47 2, fo := bit w 46, lo := bit w 45,
    yld := bit w 44, eox := bit w 43, sm := fld w 38 5, md := fld w 32 6, imm := BitVec.ofNat 32 (fld w 0 32) }

/-- Write a V-word's fields under an OP. -/
def vWord (op : Nat) (f : VFields) : Nat :=
  op * 2 ^ 118 + f.ty * 2 ^ 114 + f.d * 2 ^ 103 + f.a * 2 ^ 92 + f.b * 2 ^ 81 + f.c * 2 ^ 70 + f.e * 2 ^ 59 +
  f.fe * 2 ^ 55 + f.gc * 2 ^ 51 + f.gm * 2 ^ 49 + f.hint * 2 ^ 47 + f.fo.toNat * 2 ^ 46 + f.lo.toNat * 2 ^ 45 +
  f.yld.toNat * 2 ^ 44 + f.eox.toNat * 2 ^ 43 + f.sm * 2 ^ 38 + f.md * 2 ^ 32 + f.imm.toNat

/-- The OP of each V-word (R64). -/
def vMake (f : VFields) : Nat → Option Instr
  | 0x000 => some (.vld f)
  | 0x001 => some (.vst f)
  | 0x002 => some (.vgat f)
  | 0x003 => some (.vsca f)
  | 0x004 => some (.vldb f)
  | 0x005 => some (.vstb f)
  | 0x040 => some (.vadd f)
  | 0x041 => some (.vsub f)
  | 0x042 => some (.vmul f)
  | 0x043 => some (.vmulh f)
  | 0x044 => some (.vmin f)
  | 0x045 => some (.vmax f)
  | 0x046 => some (.vabs f)
  | 0x047 => some (.vneg f)
  | 0x048 => some (.vand f)
  | 0x049 => some (.vor f)
  | 0x04A => some (.vxor f)
  | 0x04B => some (.vnot f)
  | 0x04C => some (.vshl f)
  | 0x04D => some (.vshr f)
  | 0x04E => some (.vclz f)
  | 0x04F => some (.vpopc f)
  | 0x050 => some (.vsel f)
  | 0x100 => some (.vfadd f)
  | 0x101 => some (.vfsub f)
  | 0x102 => some (.vfmul f)
  | 0x103 => some (.vfma f)
  | 0x104 => some (.vfms f)
  | 0x105 => some (.vfdiv f)
  | 0x106 => some (.vfsqrt f)
  | 0x107 => some (.vfrcp f)
  | 0x108 => some (.vfrsq f)
  | 0x109 => some (.vfexp2 f)
  | 0x10A => some (.vflog2 f)
  | 0x10B => some (.vfmin f)
  | 0x10C => some (.vfmax f)
  | 0x10D => some (.vfabs f)
  | 0x10E => some (.vfneg f)
  | 0x10F => some (.vcvt f)
  | 0x1C0 => some (.vcb f)
  | 0x1C1 => some (.vpack f)
  | 0x1C2 => some (.vunpack f)
  | 0x1C3 => some (.vamax f)
  | 0x200 => some (.vred f)
  | 0x201 => some (.vperm f)
  | 0x202 => some (.vtrns f)
  | 0x203 => some (.vbcast f)
  | 0x204 => some (.vslide f)
  | 0x205 => some (.vcompress f)
  | 0x240 => some (.mpush f)
  | 0x241 => some (.minv f)
  | 0x242 => some (.mpop f)
  | 0x243 => some (.vskip f)
  | 0x244 => some (.veos f)
  | 0x280 => some (.mcall f)
  | 0x3FF => some (.vnop f)
  | _ => none

/-- Read a V-word, legal or not: none when its OP is reserved (R67). -/
def parseV (w : VWordBits) : Option Instr := vMake (vfOf w.toNat) (fld w.toNat 118 10)

/-- Decode a V-word: its OP and its static legality (R67). -/
def decodeV (w : VWordBits) : Except Reject Instr :=
  match parseV w with
  | none => .error .vOp
  | some i => match i.check with
    | none => .ok i
    | some r => .error r

/-- A number from little-endian bytes. -/
def leNat : List Byte → Nat
  | [] => 0
  | b :: l => b.toNat + 256 * leNat l

/-- The `n` little-endian bytes of a number. -/
def leBytes : Nat → Nat → List Byte
  | 0, _ => []
  | n + 1, v => BitVec.ofNat 8 v :: leBytes n (v / 256)

/-- The words of a byte list, eight bytes each. -/
def leWords : Nat → List Byte → List Word
  | 0, _ => []
  | n + 1, l => BitVec.ofNat 64 (leNat (l.take 8)) :: leWords n (l.drop 8)

/-- Decode a ring packet of 128 bytes taken from ring `r` (R324): every byte the table does not name must be zero. -/
def decodePacket (r : Nat) (bytes : List Byte) : Except Reject Instr :=
  let b (lo n : Nat) : Nat := leNat ((bytes.drop lo).take n)
  let z (lo n : Nat) : Bool := ((bytes.drop lo).take n).all (fun x => x == 0#8)
  let go (i : Instr) (zero : Bool) : Except Reject Instr :=
    if zero then (match i.check with | none => .ok i | some e => .error e) else .error .packet
  if bytes.length ≠ 128 then .error .packet
  else match b 0 1 % 128 with
    | 0 => go (.nopPacket r) (z 1 127)
    | 1 => go (.launchPacket r (leWords 16 bytes)) true
    | 2 => go (.graphPacket r (BitVec.ofNat 48 (b 8 6))) (z 1 7 && z 14 114)
    | 3 => go (.waitPacket r (BitVec.ofNat 48 (b 8 6)) (BitVec.ofNat 64 (b 16 8))) (z 1 7 && z 14 2 && z 24 104)
    | 4 => go (.signalPacket r (b 1 1 % 2 == 1) (b 1 1 / 2 % 2 == 1) (BitVec.ofNat 48 (b 8 6))
             (BitVec.ofNat 64 (b 16 8))) (b 1 1 / 4 == 0 && z 2 6 && z 14 2 && z 24 104)
    | 5 => go (.revokePacket r (b 1 1 % 2 == 1) (BitVec.ofNat 48 (b 8 6)) (b 16 8) (BitVec.ofNat 48 (b 24 6)))
             (b 1 1 / 2 == 0 && z 2 6 && z 14 2 && z 30 98)
    | _ => .error .packet

/-- Decode a base-die request (R336): the head word and the words after it. -/
def decodeBaseDie (pane : Nat) (words : List Word) : Except Reject Instr :=
  match words with
  | [] => .error .baseDie
  | hw :: rest =>
    let w := hw.toNat
    let h : BdHead := { tag := fld w 59 3, port := fld w 54 5, line := fld w 0 30 }
    let data (l : List Word) : List Byte := l.flatMap (fun x => leBytes 8 x.toNat)
    if fld w 52 2 ≠ 0 ∨ fld w 30 22 ≠ 0 then .error .zeroField
    else match fld w 62 2 with
      | 0 => if rest.length = 0 then .ok (.rd pane h) else .error .baseDie
      | 1 => if rest.length = 8 then .ok (.wr pane h (data rest)) else .error .baseDie
      | 2 => match rest with
        | m :: d => if d.length = 8 then .ok (.wrm pane h m (data d)) else .error .baseDie
        | [] => .error .baseDie
      | _ => .ok (.reservedOp pane h)

/-- An instruction's OP and fields, for a V-word. -/
def vParts : Instr → Option (Nat × VFields)
  | .vld f => some (0x000, f)
  | .vst f => some (0x001, f)
  | .vgat f => some (0x002, f)
  | .vsca f => some (0x003, f)
  | .vldb f => some (0x004, f)
  | .vstb f => some (0x005, f)
  | .vadd f => some (0x040, f)
  | .vsub f => some (0x041, f)
  | .vmul f => some (0x042, f)
  | .vmulh f => some (0x043, f)
  | .vmin f => some (0x044, f)
  | .vmax f => some (0x045, f)
  | .vabs f => some (0x046, f)
  | .vneg f => some (0x047, f)
  | .vand f => some (0x048, f)
  | .vor f => some (0x049, f)
  | .vxor f => some (0x04A, f)
  | .vnot f => some (0x04B, f)
  | .vshl f => some (0x04C, f)
  | .vshr f => some (0x04D, f)
  | .vclz f => some (0x04E, f)
  | .vpopc f => some (0x04F, f)
  | .vsel f => some (0x050, f)
  | .vfadd f => some (0x100, f)
  | .vfsub f => some (0x101, f)
  | .vfmul f => some (0x102, f)
  | .vfma f => some (0x103, f)
  | .vfms f => some (0x104, f)
  | .vfdiv f => some (0x105, f)
  | .vfsqrt f => some (0x106, f)
  | .vfrcp f => some (0x107, f)
  | .vfrsq f => some (0x108, f)
  | .vfexp2 f => some (0x109, f)
  | .vflog2 f => some (0x10A, f)
  | .vfmin f => some (0x10B, f)
  | .vfmax f => some (0x10C, f)
  | .vfabs f => some (0x10D, f)
  | .vfneg f => some (0x10E, f)
  | .vcvt f => some (0x10F, f)
  | .vcb f => some (0x1C0, f)
  | .vpack f => some (0x1C1, f)
  | .vunpack f => some (0x1C2, f)
  | .vamax f => some (0x1C3, f)
  | .vred f => some (0x200, f)
  | .vperm f => some (0x201, f)
  | .vtrns f => some (0x202, f)
  | .vbcast f => some (0x203, f)
  | .vslide f => some (0x204, f)
  | .vcompress f => some (0x205, f)
  | .mpush f => some (0x240, f)
  | .minv f => some (0x241, f)
  | .mpop f => some (0x242, f)
  | .vskip f => some (0x243, f)
  | .veos f => some (0x244, f)
  | .mcall f => some (0x280, f)
  | .vnop f => some (0x3FF, f)
  | _ => none

/-- The operands of a CR word. -/
def AluR.cr (o : AluR) (maj mn : Nat) : CR :=
  { maj := maj, mn := mn, d := o.d, a := o.a, b := o.b, c := o.c, fea := o.fea, feb := o.feb, fec := o.fec, z := 0 }
/-- A CR word with no FE bit. -/
def crBare (maj mn d a b c : Nat) : CR :=
  { maj := maj, mn := mn, d := d, a := a, b := b, c := c, fea := false, feb := false, fec := false, z := 0 }
/-- A CK word. -/
def MemRef.ck (m : MemRef) (maj mn d : Nat) : CK :=
  { maj := maj, mn := mn, d := d, k := m.k, x := m.x, fex := m.fex, off := m.off.toNat }
/-- The MIN of an ordered access: scope, ORD, low bits. -/
def Ordr.min (o : Ordr) (low : Nat) : Nat := o.scope * 32 + o.code * 8 + low
/-- The ordering field of an engine word. -/
def Ordr.eord (o : Ordr) : Nat := o.code * 2 ^ 62 + o.scope * 2 ^ 59
/-- The first word of an `amo`. -/
def AmoF.cr (f : AmoF) (op : Nat) : CR :=
  { maj := 0x0D, mn := f.w64.toNat * 128 + op, d := f.d, a := f.a, b := f.b, c := f.c, fea := f.fea, feb := f.feb,
    fec := f.fec, z := 0 }
/-- The P64 of an `amo`. -/
def AmoF.p64 (f : AmoF) : Nat := f.k * 2 ^ 59 + f.ord.scope * 2 ^ 56 + f.ord.code * 2 ^ 54 + f.off.toNat
/-- The first word of a Marver memory command. -/
def MxMemF.cr (f : MxMemF) (mn : Nat) : CR :=
  { maj := 0x16, mn := mn, d := f.d, a := f.a, b := f.b, c := f.c, fea := f.fea, feb := f.feb, fec := f.fec, z := 0 }
/-- The memory word (R184). -/
def MxMemF.p64 (f : MxMemF) : Nat := f.ord.eord + f.k * 2 ^ 54 + f.off.toNat
/-- The P64 of `um.cfg` in mode `m`. -/
def UmCfgF.p64 (f : UmCfgF) (m : Nat) : Nat :=
  m * 2 ^ 57 + f.seqlen * 2 ^ 40 + f.bsz * 2 ^ 38 + f.nlayer * 2 ^ 29 + f.rnd * 2 ^ 27
/-- The first word of `um.cfg`. -/
def UmCfgF.cr (f : UmCfgF) : CR :=
  { maj := 0x17, mn := 0, d := f.d, a := f.a, b := f.b, c := 0, fea := f.fea, feb := f.feb, fec := false, z := 0 }
/-- The first word of `um.rank` and `um.commit`. -/
def UmMemF.cr (f : UmMemF) (mn : Nat) : CR :=
  { maj := 0x17, mn := mn, d := f.d, a := f.a, b := f.b, c := 0, fea := f.fea, feb := f.feb, fec := false, z := 0 }

/-- The words of a C-word instruction, as numbers: the first word, and P64 where it has one. Nothing for the rows that are
no C-word. -/
def encodeC : Instr → List Nat
  | .nop => [crWord (crBare 0 0 0 0 0 0)]
  | .endTask => [crWord (crBare 0 1 0 0 0 0)]
  | .yield => [crWord (crBare 0 2 0 0 0 0)]
  | .trap c => [ciWord { maj := 0, mn := 3, d := 0, a := 0, fea := false, imm := c.toNat }]
  | .csrr d n => [ciWord { maj := 0, mn := 4, d := d, a := 0, fea := false, imm := n }]
  | .csrw a fe n => [ciWord { maj := 0, mn := 5, d := 0, a := a, fea := fe, imm := n }]
  | .rdts d => [crWord (crBare 0 6 d 0 0 0)]
  | .chk => [crWord (crBare 0 7 0 0 0 0)]
  | .cro x => [ciWord { maj := 0, mn := 8, d := 0, a := 0, fea := false, imm := x.toNat }]
  | .crc => [crWord (crBare 0 9 0 0 0 0)]
  | .ctxsave m => [ckWord (m.ck 0 0x0A 0)]
  | .ctxrest m => [ckWord (m.ck 0 0x0B 0)]
  | .stop a fe => [crWord { crBare 0 0x0C 0 a 0 0 with fea := fe }]
  | .wcsld n m => [ckWord (m.ck 0 0x0D n)]
  | .add o => [crWord (o.cr 1 0x00)]
  | .addImmediate o => [ciWord { maj := 2, mn := 0x00, d := o.d, a := o.a, fea := o.fea, imm := o.imm.toNat }]
  | .sub o => [crWord (o.cr 1 0x01)]
  | .subImmediate o => [ciWord { maj := 2, mn := 0x01, d := o.d, a := o.a, fea := o.fea, imm := o.imm.toNat }]
  | .mul o => [crWord (o.cr 1 0x02)]
  | .mulImmediate o => [ciWord { maj := 2, mn := 0x02, d := o.d, a := o.a, fea := o.fea, imm := o.imm.toNat }]
  | .mulhS o => [crWord (o.cr 1 0x03)]
  | .mulhSImmediate o => [ciWord { maj := 2, mn := 0x03, d := o.d, a := o.a, fea := o.fea, imm := o.imm.toNat }]
  | .mulhN o => [crWord (o.cr 1 0x04)]
  | .mulhNImmediate o => [ciWord { maj := 2, mn := 0x04, d := o.d, a := o.a, fea := o.fea, imm := o.imm.toNat }]
  | .divS o => [crWord (o.cr 1 0x05)]
  | .divSImmediate o => [ciWord { maj := 2, mn := 0x05, d := o.d, a := o.a, fea := o.fea, imm := o.imm.toNat }]
  | .divN o => [crWord (o.cr 1 0x06)]
  | .divNImmediate o => [ciWord { maj := 2, mn := 0x06, d := o.d, a := o.a, fea := o.fea, imm := o.imm.toNat }]
  | .remS o => [crWord (o.cr 1 0x07)]
  | .remSImmediate o => [ciWord { maj := 2, mn := 0x07, d := o.d, a := o.a, fea := o.fea, imm := o.imm.toNat }]
  | .remN o => [crWord (o.cr 1 0x08)]
  | .remNImmediate o => [ciWord { maj := 2, mn := 0x08, d := o.d, a := o.a, fea := o.fea, imm := o.imm.toNat }]
  | .and o => [crWord (o.cr 1 0x09)]
  | .andImmediate o => [ciWord { maj := 2, mn := 0x09, d := o.d, a := o.a, fea := o.fea, imm := o.imm.toNat }]
  | .or o => [crWord (o.cr 1 0x0A)]
  | .orImmediate o => [ciWord { maj := 2, mn := 0x0A, d := o.d, a := o.a, fea := o.fea, imm := o.imm.toNat }]
  | .xor o => [crWord (o.cr 1 0x0B)]
  | .xorImmediate o => [ciWord { maj := 2, mn := 0x0B, d := o.d, a := o.a, fea := o.fea, imm := o.imm.toNat }]
  | .andn o => [crWord (o.cr 1 0x0C)]
  | .andnImmediate o => [ciWord { maj := 2, mn := 0x0C, d := o.d, a := o.a, fea := o.fea, imm := o.imm.toNat }]
  | .shl o => [crWord (o.cr 1 0x0D)]
  | .shlImmediate o => [ciWord { maj := 2, mn := 0x0D, d := o.d, a := o.a, fea := o.fea, imm := o.imm.toNat }]
  | .shrS o => [crWord (o.cr 1 0x0E)]
  | .shrSImmediate o => [ciWord { maj := 2, mn := 0x0E, d := o.d, a := o.a, fea := o.fea, imm := o.imm.toNat }]
  | .shrN o => [crWord (o.cr 1 0x0F)]
  | .shrNImmediate o => [ciWord { maj := 2, mn := 0x0F, d := o.d, a := o.a, fea := o.fea, imm := o.imm.toNat }]
  | .rot o => [crWord (o.cr 1 0x10)]
  | .rotImmediate o => [ciWord { maj := 2, mn := 0x10, d := o.d, a := o.a, fea := o.fea, imm := o.imm.toNat }]
  | .clz o => [crWord (o.cr 1 0x11)]
  | .popc o => [crWord (o.cr 1 0x12)]
  | .minS o => [crWord (o.cr 1 0x13)]
  | .minSImmediate o => [ciWord { maj := 2, mn := 0x13, d := o.d, a := o.a, fea := o.fea, imm := o.imm.toNat }]
  | .minN o => [crWord (o.cr 1 0x14)]
  | .minNImmediate o => [ciWord { maj := 2, mn := 0x14, d := o.d, a := o.a, fea := o.fea, imm := o.imm.toNat }]
  | .maxS o => [crWord (o.cr 1 0x15)]
  | .maxSImmediate o => [ciWord { maj := 2, mn := 0x15, d := o.d, a := o.a, fea := o.fea, imm := o.imm.toNat }]
  | .maxN o => [crWord (o.cr 1 0x16)]
  | .maxNImmediate o => [ciWord { maj := 2, mn := 0x16, d := o.d, a := o.a, fea := o.fea, imm := o.imm.toNat }]
  | .sel o => [crWord (o.cr 1 0x17)]
  | .mov o => [crWord (o.cr 1 0x18)]
  | .sext o => [crWord (o.cr 1 0x19)]
  | .sextImmediate o => [ciWord { maj := 2, mn := 0x19, d := o.d, a := o.a, fea := o.fea, imm := o.imm.toNat }]
  | .zext o => [crWord (o.cr 1 0x1A)]
  | .zextImmediate o => [ciWord { maj := 2, mn := 0x1A, d := o.d, a := o.a, fea := o.fea, imm := o.imm.toNat }]
  | .bfx o => [crWord (o.cr 1 0x1B)]
  | .bfxImmediate o => [ciWord { maj := 2, mn := 0x1B, d := o.d, a := o.a, fea := o.fea, imm := o.imm.toNat }]
  | .bfi o => [crWord (o.cr 1 0x1C)]
  | .bfiImmediate o => [ciWord { maj := 2, mn := 0x1C, d := o.d, a := o.a, fea := o.fea, imm := o.imm.toNat }]
  | .pset d a fe wc av => [ciWord { maj := 2, mn := 0x20, d := d, a := a, fea := fe, imm := wc * 1024 + av }]
  | .shape n => [ciWord { maj := 2, mn := 0x21, d := 0, a := 0, fea := false, imm := n }]
  | .lim d v => [crWord (crBare 3 0 d 0 0 0), v.toNat]
  | .cset d f => [crWord { crBare 4 f.cond.code d f.a f.b 0 with fea := f.fea, feb := f.feb }]
  | .br f x => [cbWord { maj := 5, cond := f.cond.code, a := f.a, b := f.b, fea := f.fea, feb := f.feb, disp := x.toNat }]
  | .jmp x => [ciWord { maj := 6, mn := 0, d := 0, a := 0, fea := false, imm := x.toNat }]
  | .call x => [ciWord { maj := 6, mn := 1, d := 0, a := 0, fea := false, imm := x.toNat }]
  | .ret a fe => [ciWord { maj := 6, mn := 2, d := 0, a := a, fea := fe, imm := 0 }]
  | .brx a fe x => [ciWord { maj := 6, mn := 3, d := 0, a := a, fea := fe, imm := x.toNat }]
  | .loop f => [clWord { maj := 7, mn := 0, lvl := f.lvl, t := f.t, ti := f.ti, body := f.body, trip := f.trip }]
  | .lbrk l => [clWord { maj := 7, mn := 1, lvl := l, t := 0, ti := false, body := 0, trip := 0 }]
  | .viss a n => [cvWord { maj := 8, mn := 0, start := a, count := n, z := 0 }]
  | .swpl f => [crWord { crBare 9 0 0 f.a 0 0 with fea := f.fea }, f.pro * 2 ^ 48 + f.ker * 2 ^ 32 + f.epi * 2 ^ 16 + f.fin]
  | .vsync l a q => [crWord (crBare 0x0A (l.toNat * 4 + a.toNat * 2 + q.toNat) 0 0 0 0)]
  | .ld f => [ckWord (f.m.ck 0x0B (f.ord.min f.ty) f.d)]
  | .st f => [ckWord (f.m.ck 0x0C (f.ord.min f.ty) f.d)]
  | .amoAdd f => [crWord (f.cr 0x00), f.p64]
  | .amoAnd f => [crWord (f.cr 0x01), f.p64]
  | .amoOr f => [crWord (f.cr 0x02), f.p64]
  | .amoXor f => [crWord (f.cr 0x03), f.p64]
  | .amoMinS f => [crWord (f.cr 0x04), f.p64]
  | .amoMaxS f => [crWord (f.cr 0x05), f.p64]
  | .amoMinN f => [crWord (f.cr 0x06), f.p64]
  | .amoMaxN f => [crWord (f.cr 0x07), f.p64]
  | .amoSwap f => [crWord (f.cr 0x08), f.p64]
  | .amoCas f => [crWord (f.cr 0x09), f.p64]
  | .amoFmaxF32 f => [crWord (f.cr 0x10), f.p64]
  | .amoAmaxRr f => [crWord (f.cr 0x11), f.p64]
  | .fenceAcq u s => [crWord (crBare 0x0E (s * 32 + 0 * 8 + u.toNat * 4) 0 0 0 0)]
  | .fenceRel u s => [crWord (crBare 0x0E (s * 32 + 1 * 8 + u.toNat * 4) 0 0 0 0)]
  | .fenceAr u s => [crWord (crBare 0x0E (s * 32 + 2 * 8 + u.toNat * 4) 0 0 0 0)]
  | .fenceSc u s => [crWord (crBare 0x0E (s * 32 + 3 * 8 + u.toNat * 4) 0 0 0 0)]
  | .xlat r o => [crWord (o.cr 0x0F (r.toNat * 16 + 0))]
  | .xlatTry r o => [crWord (o.cr 0x0F (r.toNat * 16 + 1))]
  | .tkchk o => [crWord (o.cr 0x0F 0x02)]
  | .tkdrop o => [crWord (o.cr 0x0F 0x03)]
  | .tkmov o => [crWord (o.cr 0x0F 0x04)]
  | .tksub o => [crWord (o.cr 0x0F 0x05)]
  | .tkinfo o => [crWord (o.cr 0x0F 0x06)]
  | .tkrevKill o => [crWord (o.cr 0x0F 0x07)]
  | .tkrevMove o => [crWord (o.cr 0x0F 0x17)]
  | .stashMap n m => [ckWord (m.ck 0x10 0 n)]
  | .stashUnmap n => [ckWord (MemRef.zero.ck 0x10 1 n)]
  | .stashWb n => [ckWord (MemRef.zero.ck 0x10 2 n)]
  | .stashInv n => [ckWord (MemRef.zero.ck 0x10 3 n)]
  | .bar l s => [crWord (crBare 0x11 (s * 32 + l) 0 0 0 0)]
  | .futWait f => [ckWord (f.m.ck 0x12 (f.ord.min 0) f.d)]
  | .futPut f => [ckWord (f.m.ck 0x12 (f.ord.min 1) f.d)]
  | .futClr f => [ckWord (f.m.ck 0x12 (f.ord.min 2) f.d)]
  | .sigAdd f => [ckWord (f.m.ck 0x12 (f.ord.min 3) f.d)]
  | .sigSet f => [ckWord (f.m.ck 0x12 (f.ord.min 4) f.d)]
  | .sigWait f => [ckWord (f.m.ck 0x12 (f.ord.min 5) f.d)]
  | .sigRead f => [ckWord (f.m.ck 0x12 (f.ord.min 6) f.d)]
  | .hset h a fe => [ciWord { maj := 0x13, mn := 0, d := 0, a := a, fea := fe, imm := h }]
  | .harr h a fe => [ciWord { maj := 0x13, mn := 1, d := 0, a := a, fea := fe, imm := h }]
  | .hwait h => [ciWord { maj := 0x13, mn := 2, d := 0, a := 0, fea := false, imm := h }]
  | .hdrain h => [ciWord { maj := 0x13, mn := 3, d := 0, a := 0, fea := false, imm := h }]
  | .hfree h => [ciWord { maj := 0x13, mn := 4, d := 0, a := 0, fea := false, imm := h }]
  | .hinfo d h => [ciWord { maj := 0x13, mn := 5, d := d, a := 0, fea := false, imm := h }]
  | .qpush o => [crWord (o.cr 0x14 0)]
  | .qpop o => [crWord (o.cr 0x14 1)]
  | .qtry o => [crWord (o.cr 0x14 2)]
  | .qinfo o => [crWord (o.cr 0x14 3)]
  | .qbind o => [crWord (o.cr 0x14 4)]
  | .cpyLvl l o => [crWord { o.cr 0x15 0 with d := l }]
  | .cpyGo f => [crWord { maj := 0x15, mn := 1, d := f.h, a := f.a, b := f.b, c := f.c, fea := f.fea, feb := f.feb, fec := f.fec, z := 0 },
      f.ord.eord + f.sk * 2 ^ 54 + f.dk * 2 ^ 49 + f.sf.toNat * 2 ^ 48 + f.df * 2 ^ 46 + f.nlvl * 2 ^ 43 + f.ntf.toNat * 2 ^ 42 +
      f.mir.toNat * 2 ^ 41 + f.haddr * 2 ^ 26]
  | .cpyCancel h => [ciWord { maj := 0x15, mn := 2, d := 0, a := 0, fea := false, imm := h }]
  | .cpyStat d h => [ciWord { maj := 0x15, mn := 3, d := d, a := 0, fea := false, imm := h }]
  | .mxLease => [crWord (crBare 0x16 0 0 0 0 0)]
  | .mxFree => [crWord (crBare 0x16 1 0 0 0 0)]
  | .mxCbtab f => [crWord (f.cr 0x02), f.p64]
  | .mxBld f => [crWord (f.cr 0x03), f.p64]
  | .mxBldMirror f => [crWord (f.cr 0x13), f.p64]
  | .mxTld f => [crWord (f.cr 0x04), f.p64]
  | .mxZld f => [crWord (f.cr 0x09), f.p64]
  | .mxZst f => [crWord (f.cr 0x0A), f.p64]
  | .mxMm f => [crWord (crBare 0x16 5 f.d f.t f.z f.h),
      f.slot * 2 ^ 49 + f.c0 * 2 ^ 40 + f.nc * 2 ^ 30 + f.klen * 2 ^ 19 + f.cb * 2 ^ 16 + f.hw.toNat * 2 ^ 15 + f.tr.toNat * 2 ^ 14 + f.mir.toNat * 2 ^ 13]
  | .mxKat d n g v => [crWord (crBare 0x16 6 d n g 0), v.toNat]
  | .mxZalloc d z => [crWord (crBare 0x16 7 d z 0 0)]
  | .mxZfree z => [crWord (crBare 0x16 8 0 z 0 0)]
  | .mxZcpy d a b => [crWord (crBare 0x16 0x0B d a b 0)]
  | .mxOut f => [crWord { crBare 0x16 0x0C f.d f.z f.b f.c with feb := f.feb, fec := f.fec },
      f.ord.eord + f.dst.toNat * 2 ^ 58 + f.ty * 2 ^ 54 + f.rm * 2 ^ 52 + f.sat.toNat * 2 ^ 51 + f.clr.toNat * 2 ^ 50 +
      f.r0 * 2 ^ 43 + f.nr * 2 ^ 36 + f.c0 * 2 ^ 27 + f.nc * 2 ^ 17 + f.k * 2 ^ 11 + f.vn]
  | .umCfg f => [crWord f.cr, f.p64 0]
  | .umCfgRad d a n r => [crWord (crBare 0x17 0 d 0 0 0), 1 * 2 ^ 57 + a * 2 ^ 49 + n * 2 ^ 40 + r * 2 ^ 26]
  | .umCfgShare f => [crWord f.cr, f.p64 2]
  | .umRank f => [crWord (f.cr 1), f.ord.eord + f.k * 2 ^ 54]
  | .umCommit f => [crWord (f.cr 2), f.ord.eord + f.k * 2 ^ 54]
  | .umDnext d => [crWord (crBare 0x17 3 d 0 0 0)]
  | .umDclr a fe => [crWord { crBare 0x17 4 0 a 0 0 with fea := fe }]
  | _ => []

/-- The head word of a base-die request (R336). -/
def BdHead.word (h : BdHead) (op : Nat) : Nat := op * 2 ^ 62 + h.tag * 2 ^ 59 + h.port * 2 ^ 54 + h.line

/-- The bytes of a ring packet (R324), PHASE 0. -/
def encodePacket : Instr → List Byte
  | .nopPacket _ => leBytes 128 0
  | .launchPacket _ rec => rec.flatMap (fun x => leBytes 8 x.toNat)
  | .graphPacket _ va => leBytes 8 2 ++ leBytes 8 va.toNat ++ leBytes 112 0
  | .waitPacket _ va t => leBytes 8 3 ++ leBytes 8 va.toNat ++ leBytes 8 t.toNat ++ leBytes 104 0
  | .signalPacket _ set fence va v =>
    leBytes 8 (4 + 256 * (set.toNat + 2 * fence.toNat)) ++ leBytes 8 va.toNat ++ leBytes 8 v.toNat ++ leBytes 104 0
  | .revokePacket _ mv va len nv =>
    leBytes 8 (5 + 256 * mv.toNat) ++ leBytes 8 va.toNat ++ leBytes 8 len ++ leBytes 8 nv.toNat ++ leBytes 96 0
  | _ => []

/-- The words of an instruction, in the order they lie in memory: C-words, the halves of a V-word, a packet's sixteen
words, a base-die request's head, mask and data. Nothing for an event, which has no encoding. -/
def encode (i : Instr) : List Word :=
  match vParts i with
  | some (op, f) => [BitVec.ofNat 64 (vWord op f), BitVec.ofNat 64 (vWord op f / 2 ^ 64)]
  | none =>
    match i with
    | .rd _ h => [BitVec.ofNat 64 (h.word 0)]
    | .wr _ h data => BitVec.ofNat 64 (h.word 1) :: leWords 8 data
    | .wrm _ h mask data => BitVec.ofNat 64 (h.word 2) :: mask :: leWords 8 data
    | .reservedOp _ h => [BitVec.ofNat 64 (h.word 3)]
    | _ => if encodePacket i = [] then (encodeC i).map (BitVec.ofNat 64) else leWords 16 (encodePacket i)

/-- The V-word of an instruction. -/
def encodeV (i : Instr) : VWordBits :=
  match vParts i with
  | some (op, f) => BitVec.ofNat 128 (vWord op f)
  | none => 0#128

/-- The instruction the decoder reads from `nbits` bits numbered from the first word (bits 63:0) up: a C-word, or a CW
instruction whose second word the bits above 63 hold; where the first word is no C-word of two words, up to 128 bits are read
as a V-word; nine or ten words are a base-die write, and more a ring packet. Bits at `nbits` and above are zero. -/
def decodeTableWord (nbits w : Nat) : Option Instr :=
  let v := w % 2 ^ nbits
  let some_ (r : Except Reject Instr) : Option Instr :=
    match r with
    | .ok i => some i
    | .error _ => none
  let words (n : Nat) : List Word := leWords n (leBytes (8 * n) v)
  if nbits ≤ 64 then
    match decodeC (BitVec.ofNat 64 v) 0#64 with
    | .ok (i, _) => some i
    | .error _ => none
  else if nbits ≤ 128 then
    match decodeC (BitVec.ofNat 64 v) (BitVec.ofNat 64 (v / 2 ^ 64)) with
    | .ok (i, 2) => some i
    | _ => some_ (decodeV (BitVec.ofNat 128 v))
  else if nbits ≤ 576 then some_ (decodeBaseDie 0 (words 9))
  else if nbits ≤ 640 then some_ (decodeBaseDie 0 (words 10))
  else some_ (decodePacket 0 (leBytes 128 v))

end Sys2Proof
end

