-- ==== Sys2Proof/Config.lean ====
section
/-! DEFINITION. What one ZH-16 fixes and the FREE VALUES: constants with no body, so that no proof can use a
number for a value the manual leaves open. -/

namespace Sys2Proof

/-- Storage beside memory that a bit error can strike, by granule (R338). -/
inductive Store where
  /-- a scalar or token register of a context, and a granule of a vector register -/
  | scalar (c ctx r : Nat)
  | token (c ctx r : Nat)
  | vector (c r g : Nat)
  /-- a count predicate, and a granule of an entry of the mask stack, counted from the bottom -/
  | predicate (c r : Nat)
  | mask (c d g : Nat)
  /-- a V-word in a queue -/
  | vword (c q i : Nat)
  /-- a C-word or a half of a V-word of a core's code memory -/
  | control (c n : Nat)
  | vhalf (c n : Nat)
  /-- an entry of a core's pontil-table cache -/
  | tokenCache (c e : Nat)
  /-- a granule of a stash line, of the tile file, of a Marver's accumulators -/
  | stash (c line g : Nat)
  | tile (c g : Nat)
  | accum (mv k : Nat)
  /-- a granule of a record on chip in a queue -/
  | record (q i g : Nat)
  deriving DecidableEq, Repr, Inhabited

/-- What happens in one turn of the machine: a core's control unit has its clock, a pipe executes its head word, an
engine, queue, dispatcher or link event happens, or the outside world does something. -/
inductive Act where
  /-- core `c` has an issue clock (R102) -/
  | core (c : Nat)
  /-- pipe `q` (0 L, 1 A, 2 S) of core `c` executes the word at its queue's head -/
  | pipe (c q : Nat)
  /-- some elements of V-word `id` of core `c` are performed: of the L word at its queue's head, or of an S word (R384) -/
  | part (c id : Nat) (sel : List Nat)
  /-- the event, packet or message `i` -/
  | event (i : Instr)
  /-- the unmasking engine of a pane executes its head command -/
  | unmask (pane : Nat)
  /-- the host or another module writes one byte at its own memory (R197 host and fabric windows) -/
  | outside (pa : Nat) (b : Byte)
  /-- the host writes one byte of BAR0 (R318) -/
  | bar (off : Nat) (b : Byte)
  /-- a bit error strikes the granule of a physical address: correctable or not (R338) -/
  | upset (pa : Nat) (hard : Bool)
  /-- an uncorrectable error strikes a granule of the L2 copy of a line, a clean or a dirty one (R338) -/
  | badCopy (pa : Nat) (dirty : Bool)
  /-- a slice writes a dirty copy back to its tier -/
  | evict (pa : Nat)
  /-- a bit error strikes other storage (R338) -/
  | strike (at_ : Store) (hard : Bool)
  /-- the Wilgor complex writes a slot of the launch window and seals it (R99, R258) -/
  | wilgor (slot : Nat) (words : List (BitVec 64))
  /-- a Barom link sends a flit of message slots, or sends its replay buffer again (R333) -/
  | send (link : Nat) (slots : List Byte)
  | replay (link : Nat)
  /-- the Wilgor complex sets an address space's page-table root (R199) -/
  | root (asid pa : Nat)
  /-- a module of the fabric becomes reachable or not (R334) -/
  | reach (module : Nat) (up : Bool)
  deriving DecidableEq, Repr, Inhabited

/-- A turn: the clocks that pass before it, and what happens. -/
structure Turn where
  dt : Nat
  act : Act
  deriving DecidableEq, Repr, Inhabited

namespace Config

/-- Who acts next once `State.agenda` has run out (a free value, notes/assumptions/1.md): every order of issue,
execution, completion and outside input that the manual leaves open is some value of it. -/
opaque freeTurn : Nat → Turn

/-- How far a core's reading of the global time stamp stands from the module's, in GTS ticks (R1, R132); the model uses it
modulo 3, so any two readings differ by at most 2. (notes/assumptions/3.md). -/
opaque gtsSkew : Nat → Nat

/-- Which of the values a byte of an unordered page has held a read returns (R301): a free index, by tick and address.
(notes/assumptions/8.md). -/
opaque freePick : Nat → Nat → Nat

/-- Whether the boot ROM accepts the firmware image at the reset of that tick (R329). (notes/assumptions/13.md). -/
opaque firmwareSigned : Nat → Bool

/-- The RSA-3072 signature bytes of a wear record (R353): the manual does not give the key. (notes/assumptions/13.md). -/
opaque signature : List Byte → Nat → Byte

/-- The module serial number (R353). (notes/assumptions/13.md). -/
opaque serial : BitVec 64

/-- Bytes in the pool the Wilgor complex sets aside for range lists (R205); the model uses it plus 64 MiB, since the manual
gives 64 MiB as the least. (notes/assumptions/13.md). -/
opaque rangePool : Nat

/-- Where in HBM4E the Wilgor complex has set regions aside at reset (R108, R205): 0 the pontil table, 1 the range-list pool, 2
the saved-context lists, 3 and up the save areas of each pane; the model uses it modulo the space of one stack.
(notes/assumptions/56.md). -/
opaque place : Nat → Nat

/-- Which 64 bytes of the pool an entry's range list begins at (R205): the manual does not say which the pontil hardware takes,
by entry and generation. (notes/assumptions/56.md). -/
opaque rangePlace : Nat → Nat → Nat

/-- A value the manual states no number for, by the tick at which it arises × 1,024 and its place within that turn.
(notes/assumptions/13.md). -/
opaque freeWord : Nat → BitVec 64

end Config
end Sys2Proof
end

