-- ==== Sys2Proof/Machine/Sparse.lean ====
section
/-! DEFINITION. Sparse data by key, in ONE canonical form: a list of (key, value) pairs whose keys strictly
rise and none of whose values equals what an unlisted key reads as. Memory, register files and every table of
the module are held this way, so that equal contents are equal lists. -/

namespace Sys2Proof.Machine

/-- Values by key; a key that is not listed reads as the default its reader names. -/
abbrev Sparse (α : Type) := List (Nat × α)

/-- The value at key `k`, `d` where `k` is not listed. -/
def Sparse.get {α : Type} (d : α) : Sparse α → Nat → α
  | [], _ => d
  | (j, v) :: m, k => if j = k then v else Sparse.get d m k

/-- Remove key `k`. -/
def Sparse.del {α : Type} : Sparse α → Nat → Sparse α
  | [], _ => []
  | (j, v) :: m, k => if j = k then Sparse.del m k else (j, v) :: Sparse.del m k

/-- Insert or replace key `k`, keeping the keys in rising order. -/
def Sparse.ins {α : Type} : Sparse α → Nat → α → Sparse α
  | [], k, v => [(k, v)]
  | (j, u) :: m, k, v =>
    if k < j then (k, v) :: (j, u) :: m
    else if k = j then (k, v) :: m
    else (j, u) :: Sparse.ins m k v

/-- Write `v` at key `k`: a value equal to the default is not listed. -/
def Sparse.set {α : Type} [DecidableEq α] (d : α) (m : Sparse α) (k : Nat) (v : α) : Sparse α :=
  if v = d then Sparse.del m k else Sparse.ins m k v

/-- The keys strictly rise, the first above `lo`. -/
def Sparse.rising {α : Type} : Option Nat → Sparse α → Bool
  | _, [] => true
  | none, (j, _) :: m => Sparse.rising (some j) m
  | some lo, (j, _) :: m => decide (lo < j) && Sparse.rising (some j) m

/-- The canonical form: rising keys and no listed default. -/
def Sparse.wf {α : Type} [DecidableEq α] (d : α) (m : Sparse α) : Bool :=
  Sparse.rising none m && m.all (fun p => decide (p.2 ≠ d))

/-- The listed keys that satisfy `p`, in rising order. -/
def Sparse.keys {α : Type} (p : Nat → α → Bool) (m : Sparse α) : List Nat :=
  (m.filter (fun q => p q.1 q.2)).map Prod.fst

/-- Keep only the keys that satisfy `p`. -/
def Sparse.keep {α : Type} (p : Nat → α → Bool) (m : Sparse α) : Sparse α :=
  m.filter (fun q => p q.1 q.2)

end Sys2Proof.Machine
end

