-- ==== Sys2Proof/Machine/Data.lean ====
section
/-! DEFINITION. The records the state of the ZH-16 is made of, one structure for each object of the manual. Numbers
the manual counts with are `Nat`; what software sees as a word is a bit vector. -/

namespace Sys2Proof.Machine

/-- A token register (R203): the token word's fields, the window base and the window length in 64-byte units. -/
structure Token where
  entry : Nat := 0
  gen : Nat := 0
  rights : BitVec 4 := 0#4
  kind : Nat := 0
  base : Nat := 0
  len : Nat := 0
  deriving DecidableEq, Repr

/-- A task record, w0 to w7 (R219). -/
structure Rec where
  w0 : Word := 0#64
  w1 : Word := 0#64
  w2 : Word := 0#64
  w3 : Word := 0#64
  w4 : Word := 0#64
  w5 : Word := 0#64
  w6 : Word := 0#64
  w7 : Word := 0#64
  deriving DecidableEq, Repr

/-- A count predicate (R134): the count and the width code. -/
structure Pred where
  count : Nat := 0
  width : Nat := 0
  deriving DecidableEq, Repr

/-- One loop level (R97). -/
structure Loop where
  act : Bool := false
  idx : Nat := 0
  trip : Nat := 0
  first : Nat := 0
  last : Nat := 0
  deriving DecidableEq, Repr

/-- One open containment region (R341); `since` is the issue number its `crc` waits from (R342). -/
structure Region where
  opc : Nat
  hpc : Nat
  ldepth : Nat
  mdepth : Nat
  swpl : Bool
  since : Nat
  deriving DecidableEq, Repr

/-- The states of a main context (R100); TRAPPED is `running` with `tact`. -/
inductive MState where
  | idle | running | faulted | ending | stopping
  deriving DecidableEq, Repr

/-- The states of a handler context (R101). -/
inductive HState where
  | dormant | running | held
  deriving DecidableEq, Repr

/-- A handler context's own sequencer (R95). -/
structure HCtx where
  st : HState := .dormant
  pc : Nat := 0
  /-- a HELD context was RUNNING when the stop held it -/
  ran : Bool := false
  /-- one more than the copy command whose completion last started it (R297) -/
  seen : Nat := 0
  deriving DecidableEq, Repr

/-- A notification that waits for a handler context (R101). -/
structure Note where
  h : Nat
  bytes : Word
  pc : Nat
  /-- the copy command that completed -/
  id : Nat
  deriving DecidableEq, Repr

/-- What an issued word that holds its context waits for. -/
inductive HoldK where
  /-- nothing: the context issues its next word -/
  | free
  /-- everything issued before `since` (`vsync`, `fence`, `chk`, `crc`, write-backs, cancels) -/
  | drain
  /-- a reader of a handle that captured fill number `fill` (R239) -/
  | reader (h fill : Nat)
  /-- a queue's answer to request `id` (R224, R235) -/
  | queue (id : Nat)
  /-- the end of the walk of an `xlat` -/
  | walk (i : Instr)
  /-- a signal registered at its slice, through pontil entry `entry` (R295) -/
  | sig (pa : Nat) (target : Word) (acq : Bool) (scope : Nat) (met : Bool) (entry : Nat)
  /-- a barrier object (R284); `gone` once its generation releases -/
  | bar (lvl scope : Nat)
  /-- the slice step of a `fut.put` or `fut.clr` (R288) -/
  | slice
  /-- a `fut.wait` that drains, with its number in a redundant pair; `room` once it has found no room for its continuation and
  waits for some (R291) -/
  | fut (f : SyncF) (seq : Nat) (room : Bool)
  /-- a revocation (R214) -/
  | rev (entry : Nat)
  /-- the lease (R176) -/
  | lease
  /-- a `stash.unmap`, `stash.wb` or `stash.inv` of window `w` (R218) -/
  | stash (w : Nat)
  /-- an acquire fence at a scope: what was issued before, and the forced publishes of what it read (R308, R312) -/
  | fence (scope : Nat)
  deriving DecidableEq, Repr

/-- A hold and the issue number at which it began. -/
structure Hold where
  k : HoldK := .free
  since : Nat := 0
  deriving DecidableEq, Repr

/-- A trap that reaches the main context later than the word that raised it (R103, R223); `clk` is that word's place on
the issue timeline, `cont` marks a containment event (R343). -/
structure Late where
  clk : Nat
  cause : Nat
  info : Word
  cont : Bool
  /-- whether a V-word raised it: the words issued after it are then discarded -/
  vec : Bool
  /-- the clock on which it arose: of two on one clock the later issued is lost -/
  arr : Nat
  deriving DecidableEq, Repr

/-- A `viss` or `swpl` part-way through issue (R126, R127). `ph` is 0 prologue, 1 kernel, 2 epilogue; `mpos` is the next
word of an `mcall` expansion. -/
structure Issue where
  act : Bool := false
  swpl : Bool := false
  pc : Nat := 0
  cur : Nat := 0
  fin : Nat := 0
  ph : Nat := 0
  iter : Nat := 0
  trip : Nat := 0
  ker : Nat := 0
  epi : Nat := 0
  last : Nat := 0
  inst : Nat := 0
  ended : Bool := false
  mpos : Nat := 0
  deriving DecidableEq, Repr

/-- What a V-word captured at issue beside its fields (R68). -/
structure VCap where
  id : Nat := 0
  pc : Nat := 0
  idx : Nat := 0
  tag : Nat := 0
  /-- the `swpl` it belongs to, 0 for none -/
  inst : Nat := 0
  epi : Bool := false
  tok : Token := {}
  /-- the captured scalar of a scalar operand -/
  sb : Word := 0#64
  /-- the byte offset of a memory word (R66), exact -/
  off : Int := 0
  rows : Nat := 1
  pred : Pred := {}
  rm : Nat := 0
  fiz : Bool := false
  foz : Bool := false
  depth : Nat := 0
  fill : Nat := 0
  marks : List Nat := []
  loops : List Nat := []
  /-- the clock on which it issued (R113) -/
  clk : Nat := 0
  /-- the number of its write in a redundant pair (R348) -/
  wseq : Nat := 0
  /-- the mark of a scalar or token it captured (R338) -/
  bad : Nat := 0
  /-- the elements of a memory word performed so far, those that have values with them, and whether bad data among them has raised its event
  (R339, R384) -/
  done : List Nat := []
  got : List (Nat × Nat) := []
  found : Bool := false
  /-- one more than the tick of the latest write its context had read when it issued (R299, R304) -/
  floor : Nat := 0
  deriving DecidableEq, Repr

/-- A queued V-word: the instruction with its registers advanced (R66), and its capture. -/
structure VEntry where
  i : Instr
  cap : VCap
  deriving DecidableEq, Repr

/-- A V-word that has executed and not yet filled its destinations: per register the bits it writes and their values. -/
structure Flight where
  id : Nat
  q : Nat
  marks : List Nat
  wr : List (Nat × VReg × VReg)
  flags : BitVec 6
  /-- the clock on which it issued (R113) -/
  clk : Nat := 0
  deriving DecidableEq, Repr

/-- What a pending access does when it performs. -/
inductive AOp where
  | load (signed : Bool)
  | store
  | amo (op : Nat)
  | sigAdd | sigSet | sigRead
  /-- a V-word's store, whose bytes are known -/
  | vstore
  /-- the slice step of a future operation, or a task's join -/
  | futPut | futClr | futWait | join
  deriving DecidableEq, Repr

/-- One access that has issued and not performed (R129, R297). `chk` is 0 while its check waits on a DRAINING entry,
1 passed, 2 failed, 3 held at its home slice for its partner's (R348); `pas` are the physical bytes of a passed check; `bad` the
marks a store carries (R338). -/
structure Acc where
  id : Nat
  ctx : Nat
  op : AOp
  d : Nat
  w : Nat
  tok : Token
  off : Int
  a : Word
  b : Word
  acq : Bool
  rel : Bool
  scope : Nat
  chk : Nat
  pas : List Nat
  data : List Byte
  pc : Nat
  depth : Nat
  seq : Nat
  /-- the marks a store carries, by byte position: one more than the unit (R338) -/
  bad : List (Nat × Nat) := []
  /-- a core-scope release of its core has been performed before it (R306) -/
  overtaken : Bool := false
  /-- one more than the tick of the latest write its context had read when it issued: a load returns none older that is so
  ordered (R299, R304) -/
  floor : Nat := 0
  /-- the clock on which it issued (R113) -/
  clk : Nat := 0
  deriving DecidableEq, Repr

/-- A stash window (R217): the captured token, the extent offset and the size; size 0 is a free window. -/
structure Win where
  tok : Token := {}
  off : Nat := 0
  size : Nat := 0
  deriving DecidableEq, Repr

/-- What an agent has come to follow in happens-before (R304): per agent, one more than the last issue number that it follows. -/
abbrev Clock := Sparse Nat

/-- What comes before an access in happens-before (R304): the writes that unordered accesses and that rc accesses follow, by agent,
and the place in the one visibility order of writes at homes (R299): one more than the tick of the latest write observed. -/
structure Cov where
  u : Clock := []
  r : Clock := []
  vis : Nat := 0
  deriving DecidableEq, Repr

/-- What a release carries (R303): the releasing core, the scope of the fence that made the release (5 for a marked one), and what it
follows. -/
structure Msg where
  core : Nat
  scope : Nat
  clk : Cov
  deriving DecidableEq, Repr

/-- A value a byte has lost (R301): when, what it was, the releases that were among it, and whose write replaced it, with that write's
issue number. -/
structure Lost where
  tick : Nat
  old : Byte
  agent : Nat
  id : Nat
  msg : List Msg := []
  deriving DecidableEq, Repr

/-- What a context's accesses stand after in happens-before (R301, R303, R304, R312). -/
structure Hb where
  /-- what its later unordered reads follow -/
  know : Clock := []
  /-- one more than the tick of the latest write its loads have read -/
  seen : Nat := 0
  /-- what it has acquired, and the releases its plain loads have read that no fence has made an acquire yet -/
  got : Cov := {}
  heard : List Msg := []
  /-- the same of its unordered loads: a fence with U makes an acquire of those too -/
  uheard : List Msg := []
  /-- what fences with U have put before its later releases -/
  sent : Clock := []
  /-- what its release fences put before its later stores, by scope, and those with U before its unordered stores too -/
  fenced : Sparse Cov := []
  ufenced : Sparse Cov := []
  /-- lines with publish records that its plain loads have read: what a fence's acquire must force (R303, R308) -/
  lines : List Nat := []
  deriving DecidableEq, Repr

/-- A stash line (R218): 64 bytes, per 16-byte sector whether it is valid and whether it is dirty; which bytes its core has written
since the sector was last clean, whose store each of them is, agent and issue number, and what a store after a release fence carries,
by byte; per 8-byte granule its marks and the errors not yet found or corrected (R338), each one more than a unit. -/
structure Line where
  data : BitVec 512 := 0#512
  valid : BitVec 4 := 0#4
  dirty : BitVec 4 := 0#4
  wrote : BitVec 64 := 0#64
  by_ : Sparse (Nat × Nat) := []
  msg : Sparse (List Msg) := []
  bad : Sparse Nat := []
  hard : Sparse Nat := []
  soft : Sparse Nat := []
  deriving DecidableEq, Repr

/-- A buffer handle (R237): STATE is 0 FREE, 1 FILLING, 2 FULL, 3 DRAINING. -/
structure Handle where
  st : Nat := 0
  cnt : BitVec 40 := 0#40
  arr : Nat := 0
  err : Bool := false
  fillno : Nat := 0
  code : Nat := 0
  entry : Nat := 0
  deriving DecidableEq, Repr

/-- A copy level register (R241). -/
structure Level where
  count : Nat := 0
  ss : Word := 0#64
  ds : Word := 0#64
  deriving DecidableEq, Repr

/-- A source block a copy has read: its number, the bytes it gave (none where a module could not be reached), and the marks among them
by position. -/
structure Read where
  n : Nat
  data : List (Option Byte)
  bad : List (Nat × Nat)
  deriving DecidableEq, Repr

/-- A copy in flight (R245): its ends, the source blocks read, the numbers of the destination blocks written, and one more than the
number of its last unit in a redundant pair (R348). -/
structure CopyFl where
  src : Int
  dst : Int
  got : List Read := []
  wrote : List Nat := []
  unit : Nat := 0
  deriving DecidableEq, Repr

/-- A copy command (R242): captured words, scalars and tokens, and its place in the nest. `code` is 0 while it runs
unharmed, else the CODE of R247. -/
structure CopyCmd where
  id : Nat
  ctx : Nat
  f : CpyF
  a : Word
  b : Word
  c : Word
  st : Token
  dt : Token
  pc : Nat
  depth : Nat
  started : Bool := false
  next : List Nat := []
  emitted : Bool := false
  fl : List CopyFl := []
  code : Nat := 0
  ent : Nat := 0
  /-- it was cancelled and starts no further copy (R247) -/
  cancelled : Bool := false
  /-- what its context followed when it issued, and whether its acquire is done (R297, R310) -/
  hb : Hb := {}
  acqd : Bool := false
  /-- the number of its writes in a redundant pair, and of its next unit (R348) -/
  wseq : Nat := 0
  wunit : Nat := 0
  deriving DecidableEq, Repr

/-- A Marver command (R179): the instruction with what it captured, the steps completed and its status so far. -/
structure MxCmd where
  id : Nat
  core : Nat
  ctx : Nat
  i : Instr
  a : Word
  b : Word
  c : Word
  tok : Token
  pc : Nat
  depth : Nat
  fill : Nat := 0
  step : Nat := 0
  begun : Bool := false
  done : Bool := false
  code : Nat := 0
  info : Nat := 0
  mirrored : Bool := false
  /-- the command ended in a containment event: its status fills unchanged (R343) -/
  silent : Bool := false
  /-- the blocks of the step under way that are done, the bytes they gave, and the marks among them by position (R385) -/
  nblk : Nat := 0
  got : List (Option Byte) := []
  gotBad : List (Nat × Nat) := []
  /-- a KILL, or an event, ends it at its next step boundary (R182, R343) -/
  cut : Bool := false
  /-- what its context followed when it issued, and whether its acquire is done (R297, R310) -/
  hb : Hb := {}
  acqd : Bool := false
  /-- the number of its writes in a redundant pair, and of its next unit (R348) -/
  wseq : Nat := 0
  wunit : Nat := 0
  deriving DecidableEq, Repr

/-- An unmasking command (R356). -/
structure UmCmd where
  id : Nat
  core : Nat
  ctx : Nat
  i : Instr
  a : Word
  b : Word
  tok : Token
  pc : Nat
  depth : Nat
  linst : Nat
  done : Bool := false
  /-- it has begun -/
  begun : Bool := false
  /-- positions of a commit already done -/
  pos : Nat := 0
  /-- blocks already read or written (R363, R385), and the bytes a ranking has read -/
  blk : Nat := 0
  got : List Byte := []
  /-- what its context followed when it issued, and whether its acquire is done (R297, R310) -/
  hb : Hb := {}
  acqd : Bool := false
  /-- the clock on which it issued (R366) -/
  clk : Nat := 0
  code : Nat := 0
  info : Nat := 0
  silent : Bool := false
  /-- the number of its writes in a redundant pair, and of its next unit (R348) -/
  wseq : Nat := 0
  wunit : Nat := 0
  deriving DecidableEq, Repr

/-- The task a core runs: the record it started from, its launch, whether the record was an initial one (R270), and its
redundant partner with the number of its next paired write (R346, R348). -/
structure Task where
  uid : Nat
  r : Rec
  linst : Nat
  initial : Bool
  partner : Option Nat := none
  /-- its join has been made (R280) -/
  joined : Bool := false
  deriving DecidableEq, Repr

/-- A record a core has taken, or a resume entry, on its way to task start (R261, R273). -/
inductive Taken where
  | fresh (r : Rec) (initial : Bool) (partner : Option Nat) (bad : List (Nat × Nat))
  | resume (list idx : Nat)
  deriving DecidableEq, Repr

/-- A record a queue has handed to a pop and that has not reached its registers (R227, R233). -/
structure Deliv where
  id : Nat
  ctx : Nat
  q : Nat
  d : Nat
  k : Nat
  /-- the status destination of a `qtry` -/
  st : Option Nat
  /-- 0 none, 1 a record, 2 faulted -/
  code : Nat
  r : Rec
  /-- the marks the record carries, by byte position: one more than the unit, and 2¹⁶ more until found (R338) -/
  bad : List (Nat × Nat) := []
  /-- not a pop but a push whose queue faulted (R223) -/
  push : Bool := false
  /-- the C-word of the instruction -/
  pc : Nat := 0
  deriving DecidableEq, Repr

/-- A translation-cache entry (R200): address space, first 4 KiB page, pages covered, and the leaf. -/
structure TlbE where
  asid : Nat
  vpn : Nat
  n : Nat
  pte : Word
  deriving DecidableEq, Repr

/-- The states of a pontil-table entry (R205, R206). -/
inductive PState where
  | free | live | draining | sweeping | dead | forwarded | retired
  deriving DecidableEq, Repr

/-- A pontil-table entry (R205). `ranges` are (4 KiB pages, physical address); `fgen` is the generation of the forward token of its
MOVE (R214), `swept` marks the holders that have reported, `deadAt` the clock it became DEAD, `pinned` whether its pages are pinned. -/
structure PEntry where
  st : PState := .free
  gen : Nat := 0
  kind : Nat := 0
  rights : BitVec 4 := 0#4
  move : Bool := false
  vbase : Nat := 0
  asid : Nat := 0
  len : Nat := 0
  fwd : Nat := 0
  fgen : Nat := 0
  holders : BitVec 1024 := 0#1024
  swept : BitVec 1024 := 0#1024
  lists : BitVec 64 := 0#64
  ranges : List (Nat × Nat) := []
  deadAt : Nat := 0
  pinned : Bool := false
  deriving DecidableEq, Repr

/-- A publish record (R307): the releasing core, its release's scope, the dirty bytes and whether remote stores were
left unacknowledged. -/
structure Pub where
  core : Nat
  /-- the issue number of the release: what its core issued before it is what a forced publish completes -/
  id : Nat
  scope : Nat
  dirty : Nat
  remote : Bool
  deriving DecidableEq, Repr

/-- A Marver (R173 to R180): lease, waiting cores, LEASELEN, last holder, accepted commands in order, and the cells' copy
of a slot. -/
structure Marver where
  holder : Option Nat := none
  left : Nat := 0
  waiters : List Nat := []
  len : Nat := 64
  last : Nat := 0
  order : List MxCmd := []
  cslot : Option Nat := none
  stale : Bool := false
  cells : Sparse Byte := []
  cellBad : Sparse Nat := []
  deriving DecidableEq, Repr

/-- The states of an unmasking engine (R355). -/
inductive UState where
  | free | configured | ranked
  deriving DecidableEq, Repr

/-- An unmasking engine (R354). The pair maps are keyed by layer × NBLK + block. -/
structure Um where
  st : UState := .free
  owner : Nat := 0
  seqlen : Nat := 0
  bsz : Nat := 0
  nlayer : Nat := 0
  num : Nat := 0
  den : Nat := 0
  rnd : Nat := 0
  rad : Sparse Nat := []
  rl : List Nat := []
  mcnt : Nat := 0
  dirty : Sparse Bool := []
  claim : Sparse Bool := []
  redirty : Sparse Bool := []
  order : List UmCmd := []
  deriving DecidableEq, Repr

/-- A record's place in an on-chip queue (R225): present, or reserved for the refill of a ring position. `since` is one more
than the clock on which it became the head, 0 until then (R273); `bad` is one more than the unit of a mark it carries (R338). -/
inductive QItem where
  | here (r : Rec) (initial : Bool) (since : Nat) (bad : List (Nat × Nat))
  | refill (pos : Nat) (initial : Bool)
  deriving DecidableEq, Repr

/-- What reaches a queue (R226). -/
inductive QOp where
  | push (r : Rec) (initial : Bool)
  | pop (d k : Nat)
  | tryPop (d k st : Nat)
  /-- the pop that feeds an idle core -/
  | dispatch
  deriving DecidableEq, Repr

/-- A request at a queue: who made it and when. A core number of 1,024 or more is the dispatcher's. -/
structure QReq where
  core : Nat
  ctx : Nat
  id : Nat
  op : QOp
  /-- the clock on which it reaches the queue (R227) -/
  clk : Nat := 0
  /-- the marks a pushed record carries, by byte position (R338) -/
  bad : List (Nat × Nat) := []
  /-- the C-word of the instruction -/
  pc : Nat := 0
  deriving DecidableEq, Repr

/-- A queue slot (R222): STATE is 0 UNBOUND, 1 OPEN, 2 FAULTED. -/
structure Queue where
  st : Nat := 0
  owner : Nat := 0
  spill : Bool := false
  depth : Nat := 0
  pri : Nat := 0
  /-- the stage whose input it is, plus one; 0 for none -/
  stage : Nat := 0
  ring : Token := {}
  rhead : Nat := 0
  /-- the records in the ring, oldest first: whether each was an initial record -/
  rmeta : List Bool := []
  items : List QItem := []
  pops : List QReq := []
  stalled : List QReq := []
  arrive : List QReq := []
  /-- the core stopped for the urgent head, plus one (R275) -/
  urgent : Nat := 0
  /-- one more than the clock on which it last resolved (R226) -/
  doneAt : Nat := 0
  deriving DecidableEq, Repr

/-- A channel record of an image (R88). -/
structure Chan where
  spill : Bool
  depth : Nat
  deriving DecidableEq, Repr

/-- A stage record of an image (R88). -/
structure Stage where
  num : Nat
  chan : Nat
  entry : Nat
  deriving DecidableEq, Repr

/-- A token slot of an image (R89). -/
structure TSlot where
  kreg : Nat
  rights : BitVec 4
  dsec : Nat
  deriving DecidableEq, Repr

/-- A data section of an image (R85): tier, alignment, file offset and size. -/
structure DSec where
  tier : Nat
  /-- log₂ of its alignment -/
  al : Nat
  foff : Nat
  size : Nat
  deriving DecidableEq, Repr

/-- A kernel, read from an image's header and sections (R84 to R89). -/
structure Kernel where
  widths : List Nat := []
  colevel : Nat := 0xFF
  static : Bool := false
  slipL : Nat := 64
  slipA : Nat := 64
  slipS : Nat := 32
  iterbound : Nat := 0
  frame : Nat := 0
  ctlLen : Nat := 0
  vecLen : Nat := 0
  stages : List Stage := []
  chans : List Chan := []
  slots : List TSlot := []
  datas : List DSec := []
  /-- file offsets of the control, vector and wcs sections, and the wcs size -/
  ctlOff : Nat := 0
  vecOff : Nat := 0
  wcsOff : Nat := 0
  wcsLen : Nat := 0
  /-- the slots that the wcs section names -/
  wcs : List Nat := []
  deriving DecidableEq, Repr

/-- An image-table entry (R251). -/
structure Image where
  asid : Nat
  va : Nat
  len : Nat
  tok : Token
  kern : Kernel
  deriving DecidableEq, Repr

/-- Where a launch came from (R258, R260, R264, R324). -/
inductive LSrc where
  | window (slot : Nat)
  | ring (r idx : Nat)
  | mailbox (core : Nat)
  | node (graph n : Nat)
  deriving DecidableEq, Repr

/-- The states of a launch (R263). -/
inductive LState where
  | loading | running | failing | done
  deriving DecidableEq, Repr

/-- A launch (R253 to R263). -/
structure Launch where
  st : LState := .loading
  src : LSrc := .window 0
  words : List Word := []
  /-- set when the Wilgor complex made the launch (R99) -/
  wilgor : Bool := false
  linst : Nat := 0
  image : Nat := 0
  kern : Kernel := {}
  pane : Nat := 0
  cfirst : Nat := 0
  cnum : Nat := 0
  asid : Nat := 0
  pri : Nat := 0
  priv : Bool := false
  tvec : Nat := 0
  chans : List Nat := []
  frame : Token := {}
  slots : List (Nat × Token) := []
  /-- the stage of each core of the range, by logical core number -/
  assign : Sparse Nat := []
  pushed : Nat := 0
  /-- one more than the clock of the last initial push (R255) -/
  pushAt : Nat := 0
  total : Nat := 0
  result : Nat := 0
  gbegin : Nat := 0
  glen : Nat := 4096
  move : Option (Nat × Nat) := none
  /-- its continuations parked in the rings of futures (R291) -/
  ringParked : Nat := 0
  /-- the cores reserved for the group or pair at the head of stage 0 (R272, R346) -/
  reserved : List Nat := []
  deriving DecidableEq, Repr

/-- A barrier object of one launch, group number and level (R284). -/
structure Bar where
  linst : Nat
  grp : Nat
  lvl : Nat
  arr : List Nat
  dep : Nat
  /-- RELEASING: a clock ended with every member here or ended -/
  rel : Bool := false
  deriving DecidableEq, Repr

/-- A continuation parked in a pane's wait table (R289). -/
structure Parked where
  r : Rec
  pa : Nat
  deriving DecidableEq, Repr

/-- A release captured by a `fut.put` (R292): from the wait table, or the oldest ring record behind a token. -/
inductive Release where
  | table (r : Rec) (pa : Nat) (value : Word)
  | ring (tok : Token) (off : Int) (value : Word) (linst : Nat)
  deriving DecidableEq, Repr

/-- A captured release, the clock on which it is to be pushed, and the turn of its put (R292). -/
structure DueRel where
  at' : Nat
  put : Nat
  rel : Release
  deriving DecidableEq, Repr

/-- An entry of a saved-context list (R108). `area` numbers the save area in its pane's pool. -/
structure SaveE where
  valid : Bool := false
  linst : Nat := 0
  mcore : Nat := 0
  area : Nat := 0
  uid : Nat := 0
  savedAt : Nat := 0
  initial : Bool := false
  partner : Option Nat := none
  wseq : Nat := 0
  deriving DecidableEq, Repr

/-- A graph under way (R264, R265). -/
structure Graph where
  asid : Nat
  tok : Token
  nnode : Nat
  ring : Nat
  idx : Nat
  failed : Bool
  live : Nat
  deriving DecidableEq, Repr

/-- A node completion that its graph has still to be told of (R265): when it ended, its journal entry's source, its graph and node, its
result, and the pane of its launch. -/
structure NodeEnd where
  gts : Nat
  source : Nat
  graph : Nat
  node : Nat
  result : Nat
  pane : Nat
  deriving DecidableEq, Repr

/-- A command ring (R320, R322): STATE is 0 DISABLED, 1 ACTIVE, 2 PARKED, 3 FAULTED. -/
structure Ring where
  st : Nat := 0
  code : Nat := 0
  head : Nat := 0
  /-- HEAD as the descriptor shows it: it follows the packet's journal entry (R321) -/
  shown : Nat := 0
  asid : Nat := 0
  log2n : Nat := 0
  tok : Token := {}
  /-- the packet that holds a dispatcher slot -/
  cur : Option Instr := none
  /-- the signal a PARKED ring waits on; `none` when it waits on a DRAINING entry -/
  wait : Option (Nat × Word) := none
  /-- the pontil entry through which it waits on that signal -/
  entry : Nat := 0
  met : Bool := false
  /-- launches and graphs of this ring that are not DONE -/
  opened : List Nat := []
  /-- when the fetcher last looked and found none, and whether it looks at once or has seen the next packet (R321) -/
  polled : Nat := 0
  look : Bool := true
  /-- ENABLE has been written 0 and the ring is not yet DISABLED (R322) -/
  off : Bool := false
  /-- the turn on which its packet was fetched: the order in which the Wilgor complex started (R207) -/
  started : Nat := 0
  /-- packets taken from the ring and not yet accepted: a LAUNCH or GRAPH in LOADING -/
  loading : Bool := false
  deriving DecidableEq, Repr

/-- A journal entry (R330). -/
structure JEntry where
  gts : Nat
  seq : Nat
  index : Nat
  pstat : Nat
  result : Nat
  source : Nat
  linst : Nat
  type : Nat
  detail : Nat
  /-- it ends a packet of its source's ring: HEAD follows it (R321) -/
  packet : Bool := false
  deriving DecidableEq, Repr

/-- A Barom link (R333): the next SEQ to receive and to send, one more than the last acknowledged, the replay buffer, the message slots
received and the flits sent, oldest first. -/
structure BLink where
  rx : Nat := 0
  tx : Nat := 0
  acked : Nat := 0
  replay : List (List Byte) := []
  got : List (List Byte) := []
  out : List (List Byte) := []
  deriving DecidableEq, Repr

/-- A request at a base-die port (R335): op 0 RD, 1 WR, 2 WRM; `st` is the status its reply will carry. -/
structure BdReq where
  op : Nat
  tag : Nat
  line : Nat
  mask : BitVec 64
  data : List Byte
  deriving DecidableEq, Repr

/-- A base-die port (R335): outstanding requests in issue order, tags whose reply has arrived on this clock, and the last
reply's status and data. -/
structure Port where
  reqs : List BdReq := []
  freed : List (Nat × Nat) := []
  reply : Option (Nat × Nat × List Byte) := none
  /-- one more than the clock of the last request issued -/
  last : Nat := 0
  deriving DecidableEq, Repr

/-- What a redundant core's write does once its partner's agrees (R348). -/
inductive HeldOp where
  /-- a store, atomic or signal operation -/
  | acc (a : Acc)
  /-- a queue push -/
  | push (slot : Nat) (r : QReq)
  /-- an engine's bytes, the marks they carry, the engine's SOURCE number (R339), and the release among them (R310);
  where `clr` holds masks, the bytes lose those bits instead, in one step (R361) -/
  | bytes (l : List (Nat × Byte)) (bad : List (Nat × Nat)) (src : Nat) (msg : List Msg) (clr : List Byte)
  deriving DecidableEq, Repr

/-- A write of a redundant pair that waits for its partner's (R348). -/
structure Held where
  core : Nat
  seq : Nat
  op : HeldOp
  since : Nat
  deriving DecidableEq, Repr

/-- An entry of the wear-and-error log (R352). -/
structure LogE where
  gts : Nat
  kind : Nat
  detail : Nat
  deriving DecidableEq, Repr

/-- The configuration in service (R15 to R17), fixed between resets: the sites removed, the removed quads as
site × 16 + quad, and the removed column group of each Marver by site × 4 + Marver, plus one. -/
structure CfgSt where
  sitesOut : List Nat := []
  quadsOut : List Nat := []
  groupOut : Sparse Nat := []
  ncol : Nat := 512
  deriving DecidableEq, Repr

end Sys2Proof.Machine
end

