-- ==== Sys2Proof/Machine/State.lean ====
section
/-! DEFINITION. The state of a ZH-16 module as plain data: every register, queue, table and engine the manual names,
the faults and refusals a step can end in, and the state right after a module reset. -/

namespace Sys2Proof.Machine

/-- The registers of a core (R95). Scalars are keyed 64 × context + number, tokens 32 × context + number, so that a
handler's private registers stand beside the main context's. A mark list holds the producers that have marked the register
empty (R141): the register is full exactly when its list is empty (R96). -/
structure Regs where
  s : Sparse Word := []
  k : Sparse Token := []
  v : Sparse VReg := []
  p : Sparse Pred := []
  sm : Sparse (List Nat) := []
  km : Sparse (List Nat) := []
  vm : Sparse (List Nat) := []
  /-- the mask stack (R140), top first -/
  masks : List (BitVec 768) := []
  /-- errors and marks of registers (R338), by granule: scalars by key, tokens from 256 on, vector registers from 512 on with 16
  granules each; a value is one more than a unit, and 2¹⁶ more until the error has been found -/
  bad : Sparse Nat := []
  deriving DecidableEq, Repr

/-- The control and status registers of a core (R56). TVEC, VSHAPE, PRIO hold their one field. -/
structure Csrs where
  fpcr : BitVec 4 := 0#4
  fpsr : BitVec 6 := 0#6
  kstat : Word := 0#64
  tcause : Word := 0#64
  tpc : Word := 0#64
  tinfo : Word := 0#64
  tvec : Nat := 0
  rows : Nat := 1
  stage : Word := 0#64
  prio : Nat := 0
  lsd : Sparse (BitVec 12) := []
  lso : Sparse (BitVec 32) := []
  deriving DecidableEq, Repr

/-- A core's sequencers (R97, R100, R101). -/
structure Seq where
  st : MState := .idle
  tact : Bool := false
  priv : Bool := false
  pc : Nat := 0
  loops : Sparse Loop := []
  issue : Issue := {}
  h : Sparse HCtx := []
  /-- what each context's issued word waits for, by context -/
  hold : Sparse Hold := []
  regions : List Region := []
  notes : List Note := []
  /-- a stop request is pending (R105) -/
  stop : Bool := false
  /-- the REASON of the save under way (R109) and where the stop token is: 0 L, 1 A, 2 S, 3 gone -/
  reason : Nat := 0
  token : Nat := 0
  /-- the lease was held when the context entered STOPPING (R196) -/
  leased : Bool := false
  /-- traps on their way to the main context -/
  late : List Late := []
  /-- one more than the clock on which a word's trap was last taken as it arose: a later issued one of that clock is lost (R103) -/
  tookAt : Nat := 0
  /-- an illegal or FE_EMPTY V-word that stopped issue (R67, R141) -/
  armed : Option Late := none
  /-- the last handler context to issue, and how many clocks in a row were a handler's (R102) -/
  lastH : Nat := 3
  hrun : Nat := 0
  /-- one more than the clock on which the core last issued a word -/
  clockAt : Nat := 0
  /-- the next issue number: the core's issue timeline (R103) -/
  nid : Nat := 1
  /-- the number the next redundant write gets (R348) -/
  wseq : Nat := 0
  /-- the main context stands at a point of R97: 0 no, 1 iteration boundary, 2 `yield` -/
  point : Nat := 0
  /-- the clock on which the context last passed a point of R97 (R113) -/
  pointAt : Nat := 0
  /-- the last issue number whose breach of ITERBOUND is on record -/
  breach : Nat := 0
  deriving DecidableEq, Repr

/-- A core's vector unit: queues, words in flight, and the state of R145 and R147. -/
structure Vu where
  ql : List VEntry := []
  qa : List VEntry := []
  qs : List VEntry := []
  fl : List Flight := []
  skip : Nat := 0
  /-- ended `swpl`s and their ending iterations -/
  ends : List (Nat × Nat) := []
  deriving DecidableEq, Repr

/-- A core's copy sequencer, handles, tiles and its part in Marver and unmasking commands. -/
structure Eng where
  hnd : Sparse Handle := []
  lvl : Sparse Level := []
  copies : List CopyCmd := []
  mxq : List MxCmd := []
  /-- `mx.zfree`s whose earlier commands have not all completed: (issue number, accumulator) -/
  zfree : List (Nat × Nat) := []
  /-- status scalars that hold an unread Marver fault (R180), by scalar key -/
  mxfault : List Nat := []
  twr : BitVec 8 := 0#8
  tile : Sparse Byte := []
  tileBad : Sparse Nat := []
  deriving DecidableEq, Repr

/-- A core's code memory and control store (R44, R165). -/
structure Code where
  image : Option Nat := none
  ctl : Sparse Word := []
  ctlLen : Nat := 0
  vec : Sparse VWordBits := []
  vecLen : Nat := 0
  wcs : Sparse (List (BitVec 8 × VWordBits)) := []
  /-- slots `wcsld` has written since the loader last did -/
  wmark : List Nat := []
  /-- errors and marks of its granules (R338): C-words by number, halves of V-words from 2¹⁵ on -/
  bad : Sparse Nat := []
  deriving DecidableEq, Repr

/-- One core. -/
structure Core where
  r : Regs := {}
  c : Csrs := {}
  q : Seq := {}
  v : Vu := {}
  e : Eng := {}
  code : Code := {}
  /-- accesses that have issued and not performed, in issue order -/
  acc : List Acc := []
  wins : Sparse Win := []
  stash : Sparse Line := []
  /-- remote-window stores performed and not acknowledged (R306, R319): issue number, physical address, and host link, 2 for none -/
  unacked : List (Nat × Nat × Nat) := []
  tlb : List TlbE := []
  /-- entries in the token cache, newest first -/
  tcache : List Nat := []
  task : Option Task := none
  /-- the address space of the core's last task (R261) -/
  lastAsid : Option Nat := none
  taken : Option Taken := none
  /-- records on their way from a queue -/
  deliv : List Deliv := []
  /-- the queue the core's dispatch pop waits at, plus one -/
  popAt : Nat := 0
  /-- AGECNT, and one more than the clock of the last decision for it (R273) -/
  agecnt : Nat := 0
  decided : Nat := 0
  /-- one more than the clock on which it last became IDLE (R269), and the clock on which it last ceased to be (R275) -/
  idleAt : Nat := 0
  busyAt : Nat := 0
  deriving DecidableEq, Repr

/-- The dispatchers and the Wilgor complex (R251 to R275, R108, R289). Keys: images by number, launches by instance,
loading launches by a running number, saved-context lists by list × 1,024 + entry, save areas by pane × 256 + area, wait
tables and releases by pane. -/
structure Disp where
  images : Sparse (Option Image) := []
  launches : Sparse Launch := []
  loading : Sparse Launch := []
  nextLinst : Nat := 1
  nextLid : Nat := 0
  nextTask : Nat := 1
  lists : Sparse SaveE := []
  areaUsed : List Nat := []
  bars : List Bar := []
  parked : Sparse (List Parked) := []
  rels : Sparse (List DueRel) := []
  graphs : Sparse (Option Graph) := []
  /-- node completions still to be handled, in the order of R265 -/
  nodes : List NodeEnd := []
  /-- the extents that static placement has given (R257): address space, virtual address and length -/
  placed : List (Nat × Nat × Nat) := []
  nextGraph : Nat := 0
  /-- GINT, GTHR and AGE of each pane (R267, R274) -/
  gint : Sparse Nat := []
  gthr : Sparse Nat := []
  age : Sparse Nat := []
  deriving DecidableEq, Repr

/-- What the host and the links see (R317 to R334). -/
structure Links where
  /-- bytes the host has written to BAR0, and the launch window -/
  bar : Sparse Byte := []
  window : Sparse Byte := []
  /-- launch-window slots sealed and not yet answered (R258) -/
  sealed : List Nat := []
  /-- seals the line monitor has seen and not yet acted on: slot, whether the Wilgor complex made it, and the slot's words -/
  sealing : List (Nat × Bool × List Word) := []
  /-- boot-mailbox doors rung and not yet acted on -/
  doors : List Nat := []
  rings : Sparse Ring := []
  lastRing : Nat := 4095
  /-- per host link: 0 not trained, 1 PCIe, 2 CXL -/
  link : Sparse Nat := []
  /-- both links held in reset (R317, R329) -/
  linkReset : Bool := false
  jpend : List JEntry := []
  journal : List JEntry := []
  jtail : Nat := 0
  /-- MSI-X vectors raised, newest first -/
  msix : List Nat := []
  barom : Sparse BLink := []
  reach : List Nat := []
  /-- replies of the management mailbox, newest first: (kind, value) -/
  replies : List (Nat × List Nat) := []
  /-- a host read waiting for the forced publishes it started: offset and length (R318) -/
  read : Option (Nat × Nat) := none
  /-- the data last returned to a host read, with its offset -/
  hostData : Option (Nat × List Byte) := none
  /-- the boot ROM has refused the firmware image (R329) -/
  badFirmware : Bool := false
  deriving DecidableEq, Repr

/-- Protection, checking and wear (R338 to R353). Granules are keyed by their first physical byte; the value is the unit
number plus one. -/
structure Rel where
  /-- uncorrectable errors not yet found -/
  hard : Sparse Nat := []
  /-- correctable errors not yet corrected -/
  soft : Sparse Nat := []
  /-- poison marks -/
  poison : Sparse Nat := []
  /-- L2 copies with an uncorrectable error, by 8-byte granule -/
  badCopy : Sparse Nat := []
  /-- the same of dirty copies, where an error not yet found has 2¹⁶ more -/
  dirtyCopy : Sparse Nat := []
  held : List Held := []
  lastEvent : Sparse Nat := []
  suspect : List Nat := []
  quar : List Nat := []
  worn : List Nat := []
  /-- worn and quarantined units that a module reset has acted on (R351) -/
  gone : List Nat := []
  /-- the GTS tick before which the Lehr does not read its monitors again (R350) -/
  lehrAt : Nat := 0
  /-- per site: voltage offset in 2.5 mV steps, worst margin, trend, counts; GTS ticks spent by site × 16 + bin -/
  volt : Sparse Nat := []
  margin : Sparse Nat := []
  trend : Sparse (BitVec 32) := []
  hours : Sparse Nat := []
  corr : Sparse (BitVec 32) := []
  uncorr : Sparse (BitVec 32) := []
  log : List LogE := []
  /-- the wear record last returned -/
  record : List Byte := []
  deriving DecidableEq, Repr

/-- The whole module. -/
structure State where
  /-- the turns still to come, first first; when it is empty the next turn is a free value -/
  agenda : List Turn := []
  /-- how many turns have run: the counter every free value is drawn with -/
  tick : Nat := 0
  /-- clocks since power-on (R1) -/
  now : Nat := 0
  /-- how far this clock's fixed order (R207, R305, R316) has come -/
  rank : Nat × Nat := (0, 0)
  /-- stopped by a thermal trip (R14), or a configuration that is not legal (R351) -/
  halted : Bool := false
  /-- the core and context whose word runs: 0 main, 1 to 3 handlers -/
  cur : Nat := 0
  ctx : Nat := 0
  /-- the capture of the V-word at its queue's head, when a pipe runs it -/
  pipe : Option VCap := none
  /-- the elements of a V-word that the turn performs, where it does not perform all of them (R384) -/
  part : Option (List Nat) := none
  /-- the word just run did not issue: its context is not ready (R102) -/
  waited : Bool := false
  /-- the word just run was withheld by FO or LO: it took no clock (R126) -/
  noClock : Bool := false
  cfg : CfgSt := {}
  cores : Sparse Core := []
  /-- every byte of the physical address space (R197); the B-deck's are bytes too (R169) -/
  mem : Sparse Byte := []
  /-- values overwritten, newest first: what an unordered read may return (R301) -/
  hist : Sparse (List Lost) := []
  /-- per context, by 4 × core + context, what it follows in happens-before (R301, R304, R312) -/
  hb : Sparse Hb := []
  /-- per context and byte, by agent × 2^48 + address, one more than the tick of the latest write it has read there (R299) -/
  seen : Sparse Nat := []
  /-- what the acquires of an engine's commands took, by engine agent: command number and what it then followed (R297, R310) -/
  took : Sparse (List (Nat × Cov)) := []
  /-- what the releases among a byte carry, by byte; above 2^48 those of queues, barriers and `fence.sc` (R229, R285, R303, R305) -/
  msgs : Sparse (List Msg) := []
  pub : Sparse (List Pub) := []
  /-- Marvers by pane × 4 + number; accumulators' elements, owners and marks; codebook entries; mirror tags -/
  mx : Sparse Marver := []
  accum : Sparse (BitVec 32) := []
  accOwner : Sparse Nat := []
  accBad : Sparse Nat := []
  cbook : Sparse (BitVec 16) := []
  mirror : Sparse Bool := []
  um : Sparse Um := []
  pontil : Sparse PEntry := []
  /-- page-table roots by address space, plus one (R199) -/
  roots : Sparse Nat := []
  queues : Sparse Queue := []
  d : Disp := {}
  io : Links := {}
  bd : Sparse Port := []
  w : Rel := {}
  deriving DecidableEq, Repr

/-- Why a step stops. -/
inductive Fault where
  /-- raised by a base-die request or a scrub visit that names a physical address R197 calls absent: safe -/
  | absentAddress (pa : Nat)
  deriving DecidableEq, Repr

/-- Why a word has no meaning. -/
inductive Refusal where
  /-- raised by the arm of an instruction whose meaning is not written yet: safe -/
  | notModelled (mnemonic : String)
  deriving DecidableEq, Repr

/-- The module right after a reset of a full configuration: every core IDLE, every bit full, every table empty. Where the manual
gives a register no value, notes/assumptions/4.md names the one that stands here. -/
def State.reset : State := {}

end Sys2Proof.Machine
end

