-- ==== Sys2Proof/Machine/Topology.lean ====
section
/-! DEFINITION. What a configuration is (R15 to R18, R197, R198): sites, panes, quads, cores, Marvers, columns, the tiers of
the physical address space and the home slice of a line. -/

namespace Sys2Proof.Machine

/-- The sites in service, ascending (R16). -/
def CfgSt.sites (g : CfgSt) : List Nat := (List.range 16).filter (fun n => !g.sitesOut.contains n)

/-- PANES (R17). -/
def CfgSt.panes (g : CfgSt) : Nat := g.sites.length

/-- The physical site of a logical pane (R16); 16 for none. -/
def CfgSt.siteOf (g : CfgSt) (pane : Nat) : Nat := g.sites.getD pane 16

/-- The physical quads in service at a site, ascending (R16). -/
def CfgSt.quads (g : CfgSt) (site : Nat) : List Nat :=
  (List.range 16).filter (fun q => !g.quadsOut.contains (16 * site + q))

/-- PCORES of a logical pane (R17). -/
def CfgSt.pcores (g : CfgSt) (pane : Nat) : Nat := 4 * (g.quads (g.siteOf pane)).length

/-- The logical pane and the core within it of module core `c`, by walking the panes' core counts (R16). -/
def CfgSt.place (g : CfgSt) : List Nat → Nat → Nat → Option (Nat × Nat)
  | [], _, _ => none
  | site :: rest, pane, c =>
    let n := 4 * (g.quads site).length
    if c < n then some (pane, c) else CfgSt.place g rest (pane + 1) (c - n)

/-- The logical pane and PCORE of module core `c`; none where no core has that number. -/
def CfgSt.where_ (g : CfgSt) (c : Nat) : Option (Nat × Nat) := g.place g.sites 0 c

/-- The logical pane of a core, 0 where there is none. -/
def CfgSt.paneOf (g : CfgSt) (c : Nat) : Nat := ((g.where_ c).getD (0, 0)).1

/-- PCORE of a core. -/
def CfgSt.pcoreOf (g : CfgSt) (c : Nat) : Nat := ((g.where_ c).getD (0, 0)).2

/-- The first module core number of a pane (R16). -/
def CfgSt.firstCore (g : CfgSt) (pane : Nat) : Nat := ((List.range pane).map g.pcores).sum

/-- Cores in the module (R12). -/
def CfgSt.total (g : CfgSt) : Nat := g.firstCore g.panes

/-- The physical quad of a core. -/
def CfgSt.physQuad (g : CfgSt) (c : Nat) : Nat :=
  (g.quads (g.siteOf (g.paneOf c))).getD (g.pcoreOf c / 4) 0

/-- MXID: the Marver wired to a core's quad (R8, R17). -/
def CfgSt.mxid (g : CfgSt) (c : Nat) : Nat := g.physQuad c / 4

/-- The module-wide number of a core's Marver: pane × 4 + MXID. -/
def CfgSt.marver (g : CfgSt) (c : Nat) : Nat := g.paneOf c * 4 + g.mxid c

/-- MSHARE (R17): the cores wired to Marver `m` of a pane. -/
def CfgSt.mshare (g : CfgSt) (pane m : Nat) : Nat :=
  4 * ((g.quads (g.siteOf pane)).filter (fun q => q / 4 == m)).length

/-- The module cores wired to Marver `pane × 4 + m`. -/
def CfgSt.wired (g : CfgSt) (mv : Nat) : List Nat :=
  ((List.range (g.pcores (mv / 4))).map (g.firstCore (mv / 4) + ·)).filter (fun c => g.marver c == mv)

/-- SLICES of a pane (R17). -/
def CfgSt.slices (g : CfgSt) (pane : Nat) : Nat := 2 * (g.quads (g.siteOf pane)).length

/-- The distance of two panes: the Manhattan distance of their sites (R202). -/
def CfgSt.distance (g : CfgSt) (p q : Nat) : Nat :=
  let a := g.siteOf p
  let b := g.siteOf q
  (a / 4 - b / 4) + (b / 4 - a / 4) + (a % 4 - b % 4) + (b % 4 - a % 4)

/-- The clocks a request from a pane takes to a queue of another or the same pane (R227). -/
def CfgSt.queueTrip (g : CfgSt) (p q : Nat) : Nat := if p = q then 2 else 40 + 8 * g.distance p q

/-- The physical core number of R340: 64 × site + physical core. -/
def CfgSt.coreUnit (g : CfgSt) (c : Nat) : Nat :=
  64 * g.siteOf (g.paneOf c) + 4 * g.physQuad c + g.pcoreOf c % 4

/-- The physical column group that holds logical column `col` of a Marver (R16). -/
def CfgSt.groupOfCol (g : CfgSt) (mv col : Nat) : Nat :=
  let out := Sparse.get 0 g.groupOut (4 * g.siteOf (mv / 4) + mv % 4)
  let n := col / 32
  if out = 0 ∨ n + 1 < out then n else n + 1

/-- The unit number of a Marver column group (R340). -/
def CfgSt.groupUnit (g : CfgSt) (mv col : Nat) : Nat :=
  0x0400 + 64 * g.siteOf (mv / 4) + 16 * (mv % 4) + g.groupOfCol mv col

/-- The CFG register as core `c` reads it (R17). -/
def CfgSt.cfgWord (g : CfgSt) (c : Nat) : Word :=
  let p := g.paneOf c
  BitVec.ofNat 64
    (0x01 * 2 ^ 56 + g.panes * 2 ^ 51 + g.pcores p * 2 ^ 44 + (g.pcores p / 4) * 2 ^ 39 + 4 * 2 ^ 36 + g.mxid c * 2 ^ 34 +
     g.mshare p (g.mxid c) * 2 ^ 29 + g.ncol * 2 ^ 19 + g.slices p * 2 ^ 13 + 64 * 2 ^ 6 + 32)

/-- The ID register as core `c` reads it (R18). -/
def CfgSt.idWord (g : CfgSt) (c : Nat) : Word :=
  let p := g.paneOf c
  let q := g.pcoreOf c
  BitVec.ofNat 64 (g.siteOf p * 2 ^ 26 + p * 2 ^ 22 + (q / 4) * 2 ^ 18 + (q % 4) * 2 ^ 16 + q * 2 ^ 10 + c)

/-- The tiers of R197. -/
inductive Tier where
  | hbm | lpddr | l2 | bdeck | host | fabric | absent
  deriving DecidableEq, Repr

/-- The tier of a physical address (R197). -/
def CfgSt.tier (g : CfgSt) (pa : Nat) : Tier :=
  if pa < 0x10000000000 then (if pa / 2 ^ 36 < g.panes then .hbm else .absent)
  else if 0x40000000000 ≤ pa ∧ pa < 0x80000000000 then
    (if pa - 0x40000000000 < 32 * 2 ^ 37 then .lpddr else .absent)
  else if 0x80000000000 ≤ pa ∧ pa < 0x80100000000 then
    (if fld pa 28 4 < g.panes ∧ fld pa 23 5 < g.slices (fld pa 28 4) then .l2 else .absent)
  else if 0x90000000000 ≤ pa ∧ pa < 0x90800000000 then
    (if fld pa 31 4 < g.panes ∧ fld pa 20 9 < g.ncol ∧ fld pa 10 10 < 768 then .bdeck else .absent)
  else if 0x100000000000 ≤ pa ∧ pa < 0x200000000000 then .host
  else if 0x200000000000 ≤ pa ∧ pa < 0x400000000000 then .fabric
  else .absent

/-- A B-deck byte's physical address (R197). -/
def bdeckPA (mv col slot byte : Nat) : Nat :=
  0x90000000000 + (mv / 4) * 2 ^ 31 + (mv % 4) * 2 ^ 29 + col * 2 ^ 20 + slot * 2 ^ 10 + byte

/-- The home pane of a line (R198). -/
def CfgSt.homePane (g : CfgSt) (pa : Nat) : Nat :=
  match g.tier pa with
  | .hbm => pa / 2 ^ 36
  | .l2 => fld pa 28 4
  | .bdeck => fld pa 31 4
  | _ => if g.panes = 0 then 0 else fld pa 13 4 % g.panes

/-- The home slice of a line within its home pane (R198): an L2 staging line is its own home, and a B-deck line's home is slice 2q of
the lowest logical quad wired to its Marver (R8). -/
def CfgSt.homeSlice (g : CfgSt) (pa : Nat) : Nat :=
  let p := g.homePane pa
  match g.tier pa with
  | .l2 => fld pa 23 5
  | .bdeck => 2 * ((g.quads (g.siteOf p)).findIdx? (fun q => q / 4 == fld pa 29 2)).getD 0
  | _ => if g.slices p = 0 then 0 else Nat.xor (fld pa 6 5) (fld pa 11 5) % g.slices p

/-- The unit number of an L2 slice, by logical pane and slice (R340). -/
def CfgSt.sliceUnit (g : CfgSt) (pane slice : Nat) : Nat :=
  0x0800 + 32 * g.siteOf pane + 2 * (g.quads (g.siteOf pane)).getD (slice / 2) 0 + slice % 2

/-- The unit of the slice that holds a line's L2 copy. -/
def CfgSt.homeUnit (g : CfgSt) (pa : Nat) : Nat := g.sliceUnit (g.homePane pa) (g.homeSlice pa)

/-- The protection granule that holds a byte (R338): its first byte. -/
def CfgSt.granule (g : CfgSt) (pa : Nat) : Nat :=
  match g.tier pa with
  | .hbm | .lpddr => pa / 32 * 32
  | _ => pa / 8 * 8

/-- The bytes in a granule (R338). -/
def CfgSt.granLen (g : CfgSt) (pa : Nat) : Nat :=
  match g.tier pa with
  | .hbm | .lpddr => 32
  | _ => 8

/-- The unit a byte of memory lies in (R340); 0xFFFF for the host and the fabric. -/
def CfgSt.memUnit (g : CfgSt) (pa : Nat) : Nat :=
  match g.tier pa with
  | .hbm => 0x0C00 + g.siteOf (pa / 2 ^ 36)
  | .lpddr => 0x0D00 + (pa - 0x40000000000) / 4096 % 32
  | .l2 => g.homeUnit pa
  | .bdeck => 0x0A00 + 4 * g.siteOf (fld pa 31 4) + fld pa 29 2
  | _ => 0xFFFF

/-- Byte within a stack of what the Wilgor complex has set aside, on a 4 KiB boundary (R108, R205). Where is a free value
(DESIGN CHOICE, notes/assumptions/56.md). -/
def setAside (n : Nat) : Nat := Config.place n % 2 ^ 23 * 4096

/-- The bytes of a save area (R108, R109). -/
def imageLen : Nat := 1327104

/-- Save area `a` of a pane, in the pane's own stack (R108). -/
def areaPA (pane a : Nat) : Nat := pane * 2 ^ 36 + setAside (3 + pane) + imageLen * a

/-- Entry `key` of the saved-context lists, list × 1,024 + entry (R108). -/
def listPA (key : Nat) : Nat := setAside 2 + 16 * key

/-- Whether two cores lie in one instance of a scope (R7, R296). -/
def CfgSt.within (g : CfgSt) (scope c d : Nat) : Bool :=
  if scope = 0 then c == d
  else if scope = 1 then g.paneOf c == g.paneOf d && g.pcoreOf c / 4 == g.pcoreOf d / 4
  else if scope = 2 then g.paneOf c == g.paneOf d
  else true

end Sys2Proof.Machine
end

