-- ==== Sys2Proof/Machine/Ops.lean ====
section
/-! DEFINITION. The named operations every meaning is made of: reading and writing a core's registers, moving the program
counter, taking an exception and returning from one. -/

namespace Sys2Proof.Machine

/-- How a step ends. -/
abbrev Out := Host.Outcome State Fault Refusal

/-- Core `c` of the module. -/
def State.core (s : State) (c : Nat) : Core := Sparse.get {} s.cores c

/-- Replace core `c`. -/
def State.setCore (s : State) (c : Nat) (x : Core) : State := { s with cores := Sparse.set {} s.cores c x }

/-- Change core `c`. -/
def State.mod (s : State) (c : Nat) (f : Core → Core) : State := s.setCore c (f (s.core c))

/-- The core whose word runs. -/
def State.me (s : State) : Core := s.core s.cur

/-- Change the core whose word runs. -/
def State.upd (s : State) (f : Core → Core) : State := s.mod s.cur f

/-- The cores that differ from an untouched core, by number. -/
def State.coreList (s : State) : List Nat := s.cores.map Prod.fst

/-- Change every listed core. -/
def State.modAll (s : State) (f : Nat → Core → Core) : State :=
  s.coreList.foldl (fun t c => t.mod c (f c)) s

/-- The word just run did not issue (R102). -/
def stall (s : State) : Out := .next { s with waited := true }

/-- A core's reading of the global time stamp (R1, R132): two ticks in three clocks, and a skew of at most 2. -/
def State.gts (s : State) (c : Nat) : Nat := s.now * 2 / 3 + Config.gtsSkew c % 3

/-- The `i`th value of this turn that the manual leaves open: nothing is known of it. -/
def State.free (s : State) (i : Nat) : Word := Config.freeWord (s.tick * 1024 + i)

/-- The module's own time stamp, for the journal and the logs. Its start is (notes/assumptions/3.md). -/
def State.gts0 (s : State) : Nat := s.now * 2 / 3

/-! ### Registers -/

/-- The key of scalar `r` of a context. -/
def sKey (ctx r : Nat) : Nat := 64 * ctx + r
/-- The key of token `r` of a context. -/
def kKey (ctx r : Nat) : Nat := 32 * ctx + r

/-- The granules of the registers (R338): a token register, and granule `g` of a vector register; a scalar's is its key. -/
def kGran (ctx r : Nat) : Nat := 256 + kKey ctx r
def vGran (r g : Nat) : Nat := 512 + 16 * r + g

/-- The granule of a predicate, and granule `g` of an entry of the mask stack, counted from the bottom (R338). -/
def pGran (r : Nat) : Nat := 2 ^ 16 + r
def mGran (d g : Nat) : Nat := 2 ^ 16 + 256 + 16 * d + g

/-- A mark is one more than a unit, and 2¹⁶ more until the error has been found; this is the mark once found (R338). -/
def markFound (m : Nat) : Nat := if 2 ^ 16 < m then m - 2 ^ 16 else m

/-- Read a scalar: s0 reads zero (R6). -/
def Core.rdS (x : Core) (ctx r : Nat) : Word := if r = 0 then 0#64 else Sparse.get 0#64 x.r.s (sKey ctx r)

/-- The producers a scalar waits for; s0 is always full (R96). -/
def Core.sMarks (x : Core) (ctx r : Nat) : List Nat := if r = 0 then [] else Sparse.get [] x.r.sm (sKey ctx r)

/-- Write a scalar, leaving it full (R96); a write to s0 is discarded. A write clears the register's pending Marver fault
(R180). -/
def Core.wrS (x : Core) (ctx r : Nat) (v : Word) : Core :=
  if r = 0 then x
  else
    { x with
      r := { x.r with s := Sparse.set 0#64 x.r.s (sKey ctx r) v, sm := Sparse.set [] x.r.sm (sKey ctx r) []
                      bad := Sparse.set 0 x.r.bad (sKey ctx r) 0 }
      e := { x.e with mxfault := x.e.mxfault.filter (· != sKey ctx r) } }

/-- Mark a scalar empty for producer `id` (R96). -/
def Core.markS (x : Core) (ctx r id : Nat) : Core :=
  if r = 0 then x
  else { x with r := { x.r with sm := Sparse.set [] x.r.sm (sKey ctx r) (Sparse.get [] x.r.sm (sKey ctx r) ++ [id]) } }

/-- Producer `id` no longer holds a scalar empty; the value stays (R141). -/
def Core.dropS (x : Core) (ctx r id : Nat) : Core :=
  if r = 0 then x
  else { x with r := { x.r with sm := Sparse.set [] x.r.sm (sKey ctx r)
                                        ((Sparse.get [] x.r.sm (sKey ctx r)).filter (· != id)) } }

/-- Producer `id` completes with a value: the register is full once no other producer holds it (R141). -/
def Core.fillS (x : Core) (ctx r id : Nat) (v : Word) : Core :=
  if r = 0 then x
  else
    let y := { x with r := { x.r with s := Sparse.set 0#64 x.r.s (sKey ctx r) v, bad := Sparse.set 0 x.r.bad (sKey ctx r) 0 }
                      e := { x.e with mxfault := x.e.mxfault.filter (· != sKey ctx r) } }
    y.dropS ctx r id

/-- Read a token: k0 is the null token (R6). -/
def Core.rdK (x : Core) (ctx r : Nat) : Token := if r = 0 then {} else Sparse.get {} x.r.k (kKey ctx r)

/-- The producers a token waits for. -/
def Core.kMarks (x : Core) (ctx r : Nat) : List Nat := if r = 0 then [] else Sparse.get [] x.r.km (kKey ctx r)

/-- Write a token, leaving it full. -/
def Core.wrK (x : Core) (ctx r : Nat) (t : Token) : Core :=
  if r = 0 then x
  else { x with r := { x.r with k := Sparse.set {} x.r.k (kKey ctx r) t, km := Sparse.set [] x.r.km (kKey ctx r) []
                                bad := Sparse.set 0 x.r.bad (kGran ctx r) 0 } }

/-- Mark a token empty. -/
def Core.markK (x : Core) (ctx r id : Nat) : Core :=
  if r = 0 then x
  else { x with r := { x.r with km := Sparse.set [] x.r.km (kKey ctx r) (Sparse.get [] x.r.km (kKey ctx r) ++ [id]) } }

/-- A producer no longer holds a token empty. -/
def Core.dropK (x : Core) (ctx r id : Nat) : Core :=
  if r = 0 then x
  else { x with r := { x.r with km := Sparse.set [] x.r.km (kKey ctx r)
                                        ((Sparse.get [] x.r.km (kKey ctx r)).filter (· != id)) } }

/-- A producer fills a token. -/
def Core.fillK (x : Core) (ctx r id : Nat) (t : Token) : Core :=
  if r = 0 then x
  else ({ x with r := { x.r with k := Sparse.set {} x.r.k (kKey ctx r) t, bad := Sparse.set 0 x.r.bad (kGran ctx r) 0 } }).dropK ctx r id

/-- Read a vector register. -/
def Core.rdV (x : Core) (r : Nat) : VReg := Sparse.get 0#1024 x.r.v r

/-- Write a vector register's value; its marks stay. -/
def Core.putV (x : Core) (r : Nat) (v : VReg) : Core := { x with r := { x.r with v := Sparse.set 0#1024 x.r.v r v } }

/-- The producers a vector register waits for. -/
def Core.vMarks (x : Core) (r : Nat) : List Nat := Sparse.get [] x.r.vm r

/-- Mark vector registers empty for producer `id` (R141). -/
def Core.markV (x : Core) (rs : List Nat) (id : Nat) : Core :=
  { x with r := { x.r with vm := rs.foldl (fun m r => Sparse.set [] m r (Sparse.get [] m r ++ [id])) x.r.vm } }

/-- Producer `id` no longer holds vector registers empty. -/
def Core.dropV (x : Core) (rs : List Nat) (id : Nat) : Core :=
  { x with r := { x.r with vm := rs.foldl (fun m r => Sparse.set [] m r ((Sparse.get [] m r).filter (· != id))) x.r.vm } }

/-- Read a count predicate. -/
def Core.rdP (x : Core) (r : Nat) : Pred := Sparse.get {} x.r.p r

/-- Take the next number of the core's issue timeline (R103). -/
def Core.tickId (x : Core) : Core := { x with q := { x.q with nid := x.q.nid + 1 } }

/-- The redundant partner of a core's task (R346). -/
def Core.partner (x : Core) : Option Nat := x.task.bind (fun t => t.partner)

/-- The next write of a redundant core is numbered in issue order (R348); other cores number none. -/
def Core.numbered (x : Core) : Core :=
  if x.partner.isSome then { x with q := { x.q with wseq := x.q.wseq + 1 } } else x

/-- Change a core's sequencers. -/
def Core.seq (x : Core) (f : Seq → Seq) : Core := { x with q := f x.q }

/-! ### Sequencing -/

/-- A loop level (R97). -/
def Seq.loop (q : Seq) (l : Nat) : Loop := Sparse.get {} q.loops l
/-- Write a loop level. -/
def Seq.setLoop (q : Seq) (l : Nat) (v : Loop) : Seq := { q with loops := Sparse.set {} q.loops l v }
/-- Close level `n` and every level below it (R123, R124). -/
def Seq.closeTo (q : Seq) (n : Nat) : Seq := (List.range (n + 1)).foldl (fun q l => q.setLoop l {}) q
/-- LDEPTH (R98). -/
def Seq.ldepth (q : Seq) : Nat := ((List.range 6).filter (fun l => (q.loop l).act)).length

/-- A handler context's sequencer. -/
def Seq.hctx (q : Seq) (h : Nat) : HCtx := Sparse.get {} q.h h
/-- Write a handler context's sequencer. -/
def Seq.setH (q : Seq) (h : Nat) (v : HCtx) : Seq := { q with h := Sparse.set {} q.h h v }
/-- What a context waits for. -/
def Seq.holdOf (q : Seq) (ctx : Nat) : Hold := Sparse.get {} q.hold ctx
/-- Set what a context waits for. -/
def Seq.setHold (q : Seq) (ctx : Nat) (h : Hold) : Seq := { q with hold := Sparse.set {} q.hold ctx h }

/-- The program counter of a context. -/
def Seq.pcOf (q : Seq) (ctx : Nat) : Nat := if ctx = 0 then q.pc else (q.hctx ctx).pc
/-- Set the program counter of a context. -/
def Seq.setPc (q : Seq) (ctx pc : Nat) : Seq :=
  if ctx = 0 then { q with pc := pc } else q.setH ctx { q.hctx ctx with pc := pc }

/-- `fall_through` of R123 from level `l`, with `fuel` levels to look at: `top` is the highest C-word of the instruction. -/
def Seq.fall : Nat → Nat → Seq → Nat → Seq
  | 0, _, q, top => { q with pc := top + 1 }
  | fuel + 1, l, q, top =>
    let lp := q.loop l
    if lp.act && lp.last == top then
      if lp.idx + 1 < lp.trip then
        { q.setLoop l { lp with idx := lp.idx + 1 } with pc := lp.first, point := 1 }
      else Seq.fall fuel (l + 1) (q.closeTo l) top
    else Seq.fall fuel (l + 1) q top

/-- The program counter moves past an instruction of the context whose highest C-word is `top` (R123): a handler context
and a trapped context recognise no loop end (R95, R104). -/
def Seq.past (q : Seq) (ctx top : Nat) : Seq :=
  if ctx ≠ 0 then q.setPc ctx (top + 1)
  else if q.tact then { q with pc := top + 1 }
  else Seq.fall 6 0 q top

/-- A main context that issues leaves the point of R97 it stood at. -/
def Seq.leave (q : Seq) (ctx : Nat) : Seq := if ctx = 0 then { q with point := 0 } else q

/-- Whether the main context stands at a point of R97 other than a waiting instruction. -/
def Core.passed (x : Core) (now : Nat) : Core :=
  x.seq (fun q => if q.point ≠ 0 then { q with pointAt := now } else q)

/-- Whether a hold is that of an instruction that waits at a point of R97 (R97, R286). -/
def HoldK.waitsAtPoint : HoldK → Bool
  | .bar _ _ | .sig _ _ _ _ _ _ | .fut _ _ _ => true
  | _ => false

/-- The main context goes on at an event's clock (R113). -/
def Core.passedBy (x : Core) (now ctx : Nat) : Core := if ctx = 0 then x.passed now else x

/-- The context that runs an `n`-word instruction goes on after it; its word has issued. -/
def Core.next (x : Core) (ctx n : Nat) : Core :=
  { x with q := { ((x.q.leave ctx).past ctx (x.q.pcOf ctx + n - 1)) with nid := x.q.nid + 1 }.setHold ctx {} }

/-- The context transfers to `pc` (R120, R121). -/
def Core.goto (x : Core) (ctx pc : Nat) : Core :=
  { x with q := { ((x.q.leave ctx).setPc ctx pc) with nid := x.q.nid + 1 }.setHold ctx {} }

/-- The instruction completes and control moves on by `n` C-words. -/
def State.done (s : State) (n : Nat) : State := s.upd (fun x => x.next s.ctx n)

/-! ### Exceptions (R103, R104) -/

/-- TINFO (R103). -/
def infoWord (ctx : Nat) (second vec : Bool) (queue index data : Nat) : Word :=
  BitVec.ofNat 64
    (ctx * 2 ^ 62 + second.toNat * 2 ^ 61 + vec.toNat * 2 ^ 60 + queue * 2 ^ 58 + index % 2 ^ 16 * 2 ^ 32 + data % 2 ^ 32)

/-- A `viss` or `swpl` part-way through issue is abandoned: control stands at the C-word after it (R103). -/
def Seq.abandon (q : Seq) : Seq :=
  if q.issue.act then
    let q' := if q.issue.swpl then q.closeTo 0 else q
    { q' with pc := q.issue.pc + (if q.issue.swpl then 2 else 1), issue := {} }
  else q

/-- `take_trap` of R103: a second trap faults the context; with no handler it faults too; otherwise the cause, the
information and the resume address are saved, TACT is set and control goes to TVEC. A stop token in flight is discarded
(R100); a pending stop stays pending. -/
def Core.takeTrap (x : Core) (cause : Nat) (info : Word) (resume : Nat) : Core :=
  if x.q.tact then
    { x with c := { x.c with tcause := BitVec.ofNat 64 cause, tinfo := info }, q := { x.q with st := .faulted } }
  else
    let c := { x.c with tcause := BitVec.ofNat 64 cause, tinfo := info, tpc := BitVec.ofNat 64 resume }
    if c.tvec = 0 then { x with c := c, q := { x.q with st := .faulted } }
    else { x with c := c, q := { x.q with st := .running, tact := true, pc := c.tvec % 2 ^ 15, point := 0, token := 0 } }

/-- A notification starts a handler context (R101): s1 is the handle, s2 the bytes. -/
def Core.startNote (x : Core) (h : Nat) (n : Note) : Core :=
  let y := (x.wrS h 1 (BitVec.ofNat 64 n.h)).wrS h 2 n.bytes
  y.seq (fun q => q.setH h { st := .running, pc := n.pc, seen := n.id + 1 })

/-- A handler context becomes DORMANT; the oldest pending notification starts on it at once (R101). -/
def Core.handlerEnds (x : Core) (h : Nat) : Core :=
  let y := x.seq (fun q => (q.setH h { q.hctx h with st := .dormant }).setHold h {})
  match y.q.notes with
  | [] => y
  | n :: rest => (y.seq (fun q => { q with notes := rest })).startNote h n

/-- The lowest-numbered DORMANT handler context (R101). -/
def Seq.dormant (q : Seq) : Option Nat := [1, 2, 3].find? (fun h => (q.hctx h).st == .dormant)

/-- Deliver a notification: to the lowest DORMANT handler context, else to the pending list, else not at all. -/
def Core.notify (x : Core) (n : Note) : Option Core :=
  match x.q.dormant with
  | some h => some (x.startNote h n)
  | none => if x.q.notes.length < 8 then some (x.seq (fun q => { q with notes := q.notes ++ [n] })) else none

/-- A trap on its way to the main context; one of a clock on which an earlier issued word's has been taken is lost (R103). -/
def Core.late (x : Core) (l : Late) : Core :=
  x.seq (fun q => if q.tookAt = l.arr + 1 then q else { q with late := q.late ++ [l] })

/-- Whether a trap that arises now, of a word issued at `clk`, is lost to one of this clock of an earlier issued word (R103). -/
def Core.beaten (x : Core) (now clk : Nat) : Bool := x.q.late.any (fun l => l.arr == now && decide (l.clk < clk))

/-- A held or queued word's trap is taken as it arises: later issued ones of its clock are lost (R103). -/
def Core.takesNow (x : Core) (now : Nat) : Core :=
  x.seq (fun q => { q with late := q.late.filter (fun l => l.arr != now), tookAt := now + 1 })

/-- Trap CONTAIN's code (R103). -/
def causeContain : Nat := 12

/-- A precise trap of the C-word at the context's program counter (R103): the main context enters its handler with TPC at
`resume`; a handler context's routine is abandoned and the trap passes to the main context (R101). The context then takes the
oldest pending notification, as at `end` (DESIGN CHOICE, notes/assumptions/66.md). -/
def Core.trapAt (x : Core) (now ctx cause : Nat) (second : Bool) (data resume : Nat) : Core :=
  let y := x.tickId
  if ctx = 0 then (y.seq (fun q => q.setHold 0 {})).takeTrap cause (infoWord 0 second false 3 0 data) resume
  else
    (y.handlerEnds ctx).late
      { clk := x.q.nid, cause := cause, info := infoWord ctx second false 3 (x.q.pcOf ctx) data, cont := false,
        vec := false, arr := now }

/-- The C-word that runs traps: no part of its effect takes place, and TPC holds its address (R46, R103). -/
def trap (s : State) (cause data : Nat) : Out :=
  .next (s.upd (fun x => x.trapAt s.now s.ctx cause false data (x.q.pcOf 0)))

/-- MIN of an instruction (R103). -/
def minOf (i : Instr) : Nat :=
  match encodeC i with
  | [] => 0
  | w :: _ => if fld w 58 6 = 5 then fld w 53 5 else fld w 50 8

/-- ILLEGAL with MIN (R46, R103). -/
def illegal (i : Instr) (s : State) : Out := trap s 1 (minOf i)

/-- The privilege trap (R99). -/
def privTrap (s : State) (data : Nat) : Out := trap s 10 data

/-- Return from a trap (R104): PC := target and TACT := 0. -/
def Core.trapReturn (x : Core) (pc : Nat) : Core :=
  { x with q := { x.q with tact := false, pc := pc % 2 ^ 15, nid := x.q.nid + 1 } }

/-! ### KSTAT (R211) -/

/-- The sticky bits of KSTAT. -/
inductive KBit where
  | bounds | stale | revoked
  deriving DecidableEq, Repr

/-- The mask of a sticky bit. -/
def KBit.mask : KBit → Word
  | .bounds => 1#64
  | .stale => 2#64
  | .revoked => 4#64

/-- Whether any sticky bit is set. -/
def kSticky (k : Word) : Bool := k &&& 7#64 != 0#64

/-- `kstat_set` of R211: ENTRY is recorded while no sticky bit is set. -/
def Core.kset (x : Core) (b : KBit) (entry : Nat) : Core :=
  let k := x.c.kstat
  let k' := if kSticky k then k else (k &&& ~~~(0xFFFFF000#64)) ||| BitVec.ofNat 64 (entry % 2 ^ 20 * 2 ^ 12)
  { x with c := { x.c with kstat := k' ||| b.mask } }

/-- KSTAT.ENTRY. -/
def kEntry (k : Word) : Nat := fld k.toNat 12 20

end Sys2Proof.Machine
end

