-- ==== Sys2Proof/Machine/Memory.lean ====
section
/-! DEFINITION. Tokens, their check, and memory: how a window's byte is found, what a read of it returns, what a write at
its home slice does to every copy, what a stash holds, and the work of a release (R203 to R211, R217, R218, R299 to R309,
R338). -/

namespace Sys2Proof.Machine

/-! ### Tokens (R203) -/

/-- The rights bits R, W, X, A (R203). -/
def rR : BitVec 4 := 8#4
def rW : BitVec 4 := 4#4
def rX : BitVec 4 := 2#4
def rA : BitVec 4 := 1#4

/-- The token word (R203). -/
def Token.word (t : Token) : Word :=
  BitVec.ofNat 64 (t.entry * 2 ^ 44 + t.gen * 2 ^ 32 + t.rights.toNat * 2 ^ 28 + t.kind * 2 ^ 26)

/-- A token from its word, base and length. -/
def Token.ofWord (w : Word) (base len : Nat) : Token :=
  { entry := fld w.toNat 44 20, gen := fld w.toNat 32 12, rights := BitVec.ofNat 4 (fld w.toNat 28 4),
    kind := fld w.toNat 26 2, base := base, len := len }

/-- The pontil-table entry `e` (R205). -/
def State.ent (s : State) (e : Nat) : PEntry := Sparse.get {} s.pontil e

/-- Replace a pontil-table entry. -/
def State.setEnt (s : State) (e : Nat) (v : PEntry) : State := { s with pontil := Sparse.set {} s.pontil e v }

/-- The physical byte `off` bytes into the ranges, in extent order (R205, R209). -/
def locate : List (Nat × Nat) → Nat → Option Nat
  | [], _ => none
  | (npg, pa) :: rest, off => if off < npg * 4096 then some (pa + off) else locate rest (off - npg * 4096)

/-- What R209 says of a token before its window is looked at. -/
inductive Judge where
  | wait
  | stale
  | fine (t : Token)

/-- A token rewritten to the forward entry, at the generation the MOVE named (R209, R212, R214): rights and window are kept. When
this begins is (DEDUCED, notes/assumptions/37.md). -/
def State.forwarded (s : State) (t : Token) (fwd : Nat) : Token :=
  { t with entry := fwd, gen := (s.ent t.entry).fgen, kind := (s.ent fwd).kind }

/-- The generation and state test of R209. A MOVE's entry forwards from the moment its generation is bumped (R210). -/
def State.judge (s : State) (t : Token) : Judge :=
  if t.entry = 0 then .fine t
  else
    let e := s.ent t.entry
    let ok (t : Token) : Judge :=
      let f := s.ent t.entry
      match f.st with
      | .draining => if f.gen = t.gen then .wait else .stale
      | .live | .sweeping => if f.gen = t.gen then .fine t else .stale
      | _ => .stale
    match e.st with
    | .draining => .wait
    | .forwarded => if t.gen + 1 = e.gen then ok (s.forwarded t e.fwd) else .stale
    | .sweeping =>
      if e.gen = t.gen then .fine t
      else if e.move ∧ t.gen + 1 = e.gen then ok (s.forwarded t e.fwd) else .stale
    | .live => if e.gen = t.gen then .fine t else .stale
    | _ => .stale

/-- The outcome of a check (R209): wait on DRAINING, fail with a KSTAT bit and entry, or pass with the physical bytes. -/
inductive Chk where
  | wait
  | fail (b : KBit) (entry : Nat)
  | pass (t : Token) (pas : List Nat)
  deriving DecidableEq, Repr

/-- The physical byte at extent offset `off` of an entry: the first range begins with the page that holds the extent's first
byte. -/
def PEntry.at_ (e : PEntry) (off : Nat) : Option Nat := locate e.ranges (e.vbase % 4096 + off)

/-- The physical bytes of `w` bytes at extent offset `off` of an entry; none where the ranges do not reach. -/
def State.bytesOf (s : State) (entry off w : Nat) : Option (List Nat) :=
  (List.range w).mapM (fun i => (s.ent entry).at_ (off + i))

/-- `check` of R209 for the rights in `need`. -/
def State.check (s : State) (t : Token) (off : Int) (w : Nat) (need : BitVec 4) : Chk :=
  match s.judge t with
  | .wait => .wait
  | .stale => .fail .stale t.entry
  | .fine u =>
    if off < 0 ∨ off + w > u.len * 64 ∨ u.rights &&& need ≠ need then .fail .bounds u.entry
    else
      match s.bytesOf u.entry (u.base * 64 + off.toNat) w with
      | some pas => .pass u pas
      | none => .fail .bounds u.entry

/-- The token cache after an access through entry `e` (R209): at most 64 entries, newest first. -/
def Core.cacheTok (x : Core) (e : Nat) : Core :=
  if e = 0 then x else { x with tcache := (e :: x.tcache.filter (· != e)).take 64 }

/-! ### Bytes -/

/-- A byte of physical memory; what nothing has written reads as zero. (DESIGN CHOICE, notes/assumptions/5.md). -/
def State.byte (s : State) (pa : Nat) : Byte := Sparse.get 0#8 s.mem pa

/-- The memory's canonical form. -/
def Memory.wf (m : Sparse Byte) : Bool := Sparse.wf 0#8 m

/-- The little-endian value of bytes at physical addresses. -/
def State.valueAt (s : State) (pas : List Nat) : Nat := leNat (pas.map s.byte)

/-- The agent that no context follows: the host, a dispatcher, another module (R296). -/
def anyAgent : Nat × Nat := (2 ^ 20, 0)

/-- Write one byte of memory and remember what it held, with the releases among it, and whose write this is (R301). -/
def State.putByte (s : State) (pa : Nat) (b : Byte) (who : Nat × Nat := anyAgent) : State :=
  { s with mem := Sparse.set 0#8 s.mem pa b
           hist := Sparse.set [] s.hist pa
             ({ tick := s.tick, old := s.byte pa, agent := who.1, id := who.2, msg := Sparse.get [] s.msgs pa } :: Sparse.get [] s.hist pa) }

/-- Byte `i` of a stash line. -/
def Line.byte (l : Line) (i : Nat) : Byte := l.data.extractLsb' (8 * i) 8

/-- Write byte `i` of a stash line. -/
def Line.put (l : Line) (i : Nat) (b : Byte) : Line :=
  { l with data := (l.data &&& ~~~((0xFF#512) <<< (8 * i))) ||| ((b.zeroExtend 512) <<< (8 * i)) }

/-- A core's stash line. -/
def Core.line (x : Core) (ln : Nat) : Line := Sparse.get {} x.stash ln
/-- Write a core's stash line. -/
def Core.setLine (x : Core) (ln : Nat) (l : Line) : Core := { x with stash := Sparse.set {} x.stash ln l }

/-- The bytes a line's dirty sectors take home, with their physical addresses: those its core has written, so that no copy of another
byte overwrites a later write to it (R299, R218). (DEDUCED, notes/assumptions/68.md). -/
def Line.dirtyBytes (l : Line) (ln : Nat) : List (Nat × Byte) :=
  ((List.range 64).filter (fun i => l.wrote.getLsbD i)).map (fun i => (ln * 64 + i, l.byte i))

/-- Whose store a dirty byte of a line is. -/
def Line.author (l : Line) (pa : Nat) : Nat × Nat := Sparse.get anyAgent l.by_ (pa % 64)

/-- One more than the unit of the error or mark of a line's 8-byte granule `g`; 0 for none (R338). -/
def Line.badAt (l : Line) (g : Nat) : Nat :=
  if Sparse.get 0 l.bad g ≠ 0 then Sparse.get 0 l.bad g else Sparse.get 0 l.hard g

/-- The marks a line's dirty bytes carry home, an error that the write-back finds among them (R338). -/
def Line.dirtyMarks (l : Line) (ln : Nat) : List (Nat × Nat) :=
  (((List.range 64).filter (fun i => l.wrote.getLsbD i && l.badAt (i / 8) != 0))).map
    (fun i => (ln * 64 + i, l.badAt (i / 8) - 1))

/-- Whether the core has written a byte of a line's granule `g`. -/
def Line.wroteIn (l : Line) (g : Nat) : Bool := l.wrote.extractLsb' (8 * g) 8 != 0#8

/-- The units whose errors a write-back of the line finds. -/
def Line.foundUnits (l : Line) : List Nat :=
  ((List.range 8).filter (fun g => l.wroteIn g && Sparse.get 0 l.hard g != 0)).map (fun g => Sparse.get 0 l.hard g - 1)

/-- The first write after which a registered wait holds releases it (R295): a `sig.wait` or a parked ring. -/
def State.wake (s : State) (pas : List Nat) : State :=
  let hit (pa : Nat) (target : Word) : Bool :=
    pas.any (fun p => decide (pa ≤ p) && decide (p < pa + 8)) &&
      decide (target.toNat ≤ s.valueAt ((List.range 8).map (pa + ·)))
  let s1 := s.modAll (fun _ x =>
    match (x.q.holdOf 0).k with
    | .sig pa tg acq sc false e =>
      if hit pa tg then x.seq (fun q => q.setHold 0 { q.holdOf 0 with k := .sig pa tg acq sc true e }) else x
    | _ => x)
  { s1 with io := { s1.io with rings := s1.io.rings.map (fun p =>
      match p.2.wait with
      | some (pa, tg) => if !p.2.met && hit pa tg then (p.1, { p.2 with met := true }) else p
      | none => p) } }

/-- An entry of the wear-and-error log (R352), newest first. Kinds are numbered in the order R352 names them: 1 corrected
error, 2 containment event, 3 REDMIS, 4 mirror mismatch, 5 KATFAIL, 6 ITERBOUND breach, 7 reserved base-die OP, 8 suspect
unit, 9 quarantine, 10 offset change, 11 deconfiguration (DESIGN CHOICE, notes/assumptions/14.md). -/
def State.logEvent (s : State) (kind detail : Nat) : State :=
  { s with w := { s.w with log := ({ gts := s.gts0, kind := kind, detail := detail } :: s.w.log).take 4096 } }

/-- The site of a unit (R340), where it has one. -/
def siteOfUnit (u : Nat) : Option Nat :=
  if u < 0x400 then some (u / 64)
  else if u < 0x800 then some ((u - 0x400) / 64)
  else if u < 0xA00 then some ((u - 0x800) / 32)
  else if u < 0xA40 then some ((u - 0xA00) / 4)
  else if 0xC00 ≤ u ∧ u < 0xC10 then some (u - 0xC00)
  else none

/-- Add one to a 32-bit count of a unit's site (R353). -/
def bump (m : Sparse (BitVec 32)) (u : Nat) : Sparse (BitVec 32) :=
  match siteOfUnit u with
  | some n => Sparse.set 0#32 m n (Sparse.get 0#32 m n + 1#32)
  | none => m

/-- A corrected error is counted in the wear-and-error log (R338). -/
def State.corrected (s : State) (u : Nat) : State :=
  let t := s.logEvent 1 u
  { t with w := { t.w with corr := bump t.w.corr u } }

/-- An uncorrectable error is found (R338, R353). -/
def State.uncorrected (s : State) (u : Nat) : State := { s with w := { s.w with uncorr := bump s.w.uncorr u } }

/-- The Marver and column whose B-deck slot a physical byte lies in (R197). -/
def bdeckMarver (pa : Nat) : Nat := fld pa 31 4 * 4 + fld pa 29 2
/-- The key of a mirror tag: slot and column of a Marver (R170). -/
def mirrorKey (mv slot col : Nat) : Nat := (mv * 1024 + slot) * 512 + col
/-- A Marver. -/
def State.marver (s : State) (mv : Nat) : Marver := Sparse.get {} s.mx mv
/-- Write a Marver. -/
def State.setMarver (s : State) (mv : Nat) (m : Marver) : State := { s with mx := Sparse.set {} s.mx mv m }

/-- A write to a B-deck byte marks the cells' copy of its slot stale and clears the slot's mirror tag (R169, R170). -/
def State.bdeckTouched (s : State) (pa : Nat) : State :=
  if s.cfg.tier pa = .bdeck then
    let mv := bdeckMarver pa
    let m := s.marver mv
    let t := if m.cslot = some (fld pa 10 10) then s.setMarver mv { m with stale := true } else s
    { t with mirror := Sparse.set false t.mirror (mirrorKey mv (fld pa 10 10) (fld pa 20 9)) false }
  else s

/-- A granule that bytes are written to (R338): overwritten whole it is clean; in part, an error in it is found and it is
poisoned. -/
def State.granuleWritten (s : State) (pas : List Nat) (g : Nat) : State :=
  let n := (pas.filter (fun pa => s.cfg.granule pa == g)).length
  if n ≥ s.cfg.granLen g then
    { s with w := { s.w with poison := Sparse.set 0 s.w.poison g 0, hard := Sparse.set 0 s.w.hard g 0
                             soft := Sparse.set 0 s.w.soft g 0 } }
  else if Sparse.get 0 s.w.hard g ≠ 0 then
    { s with w := { s.w with poison := Sparse.set 0 s.w.poison g (Sparse.get 0 s.w.hard g)
                             hard := Sparse.set 0 s.w.hard g 0 } }
  else s

/-- Join two clocks. -/
def Clock.join (a b : Clock) : Clock := b.foldl (fun m p => Sparse.set 0 m p.1 (max (Sparse.get 0 m p.1) p.2)) a

/-- What comes before an access that follows both. -/
def Cov.join (a b : Cov) : Cov := { u := Clock.join a.u b.u, r := Clock.join a.r b.r, vis := max a.vis b.vis }

/-- Add releases to a list; one of a core and scope takes in an earlier one. -/
def addMsgs (l m : List Msg) : List Msg :=
  m.foldl (fun (l : List Msg) p =>
    if l.any (fun q => q.core == p.core && q.scope == p.scope) then
      l.map (fun q => if q.core = p.core ∧ q.scope = p.scope then { q with clk := q.clk.join p.clk } else q)
    else l ++ [p]) l

/-- Whose write a home slice performs: the agent and issue number by byte, what a release among it carries, and whether it also
passes on what stood at its word (an atomic or signal operation, R303). -/
structure Author where
  who : Nat → Nat × Nat := fun _ => anyAgent
  msg : List Msg := []
  join : Bool := false

/-- The release a write leaves at its bytes. -/
def State.leaveMsg (s : State) (pas : List Nat) (au : Author) : State :=
  { s with msgs := pas.foldl (fun (m : Sparse (List Msg)) pa =>
      Sparse.set [] m pa (if au.join then addMsgs (Sparse.get [] m pa) au.msg else au.msg)) s.msgs }

/-- The L2 copy of a line is dropped, with the errors of a clean one (R338). -/
def dropCopy (m : Sparse Nat) (ln : Nat) : Sparse Nat := (List.range 8).foldl (fun m i => Sparse.set 0 m (8 * ln + i) 0) m

/-- Bytes are written over the L2 copies of their 8-byte granules (R338): a whole granule is replaced; a partial write merges into the line
refetched in the place of a clean copy that is bad, and finds the error of a dirty one. -/
def State.copiesWritten (s : State) (pas : List Nat) : State :=
  (pas.map (· / 8)).eraseDups.foldl (fun (t : State) g =>
    let whole := decide (8 ≤ (pas.filter (fun p => p / 8 == g)).length)
    { t with w := { t.w with
        badCopy := if Sparse.get 0 t.w.badCopy g = 0 then t.w.badCopy
          else if whole then Sparse.set 0 t.w.badCopy g 0 else dropCopy t.w.badCopy (g / 8)
        dirtyCopy := Sparse.set 0 t.w.dirtyCopy g (if whole then 0 else markFound (Sparse.get 0 t.w.dirtyCopy g)) } }) s

/-- Bytes take their place at their homes (R299): the bytes and their authors, the release among them, the marks of R338, and the
waits they release. `bad` are the marks moved data carries, by address. -/
def State.homeApply (s : State) (bytes : List (Nat × Byte)) (bad : List (Nat × Nat)) (au : Author) : State :=
  let pas := bytes.map Prod.fst
  let s1 := bytes.foldl (fun (t : State) (p : Nat × Byte) => (t.putByte p.1 p.2 (au.who p.1)).bdeckTouched p.1) s
  let s2 := s1.leaveMsg pas au
  let s3 := (pas.map s.cfg.granule).eraseDups.foldl (fun t g => t.granuleWritten pas g) s2
  let s4 := { s3 with w := { s3.w with
      poison := bad.foldl (fun (m : Sparse Nat) (p : Nat × Nat) => Sparse.set 0 m (s.cfg.granule p.1) (p.2 + 1)) s3.w.poison } }
  (s4.copiesWritten pas).wake pas

/-- What a line's dirty bytes carry home: whose stores they are, and the releases among them. -/
def State.homeLine (s : State) (ln : Nat) (l : Line) : State :=
  let t := l.foundUnits.foldl (fun t u => t.uncorrected u) s
  let u := t.homeApply (l.dirtyBytes ln) (l.dirtyMarks ln) { who := l.author }
  { u with msgs := l.msg.foldl (fun (m : Sparse (List Msg)) p =>
      Sparse.set [] m (ln * 64 + p.1) p.2) u.msgs }

/-- Write back what a core holds dirty of line `ln`, and drop its copy; a wait that the written-back value meets is released. -/
def State.pull (s : State) (ln c : Nat) : State :=
  let l := (s.core c).line ln
  if l = {} then s
  else
    let t := s.mod c (fun x => x.setLine ln {})
    if l.dirty = 0#4 then t else t.homeLine ln l

/-- Every core's dirty sectors of a line go home and its copies are dropped (R299). -/
def State.pullLine (s : State) (ln : Nat) : State := s.coreList.foldl (fun t c => t.pull ln c) s

/-- What the stashes hold dirty of the lines of some bytes goes home, before an operation there reads or writes them (R299). -/
def State.pullFor (s : State) (pas : List Nat) : State := (pas.map (· / 64)).eraseDups.foldl (fun t ln => t.pullLine ln) s

/-- A write performed at home slices (R299): other copies are pulled and dropped, then the bytes take their place. -/
def State.homeWrite (s : State) (bytes : List (Nat × Byte)) (bad : List (Nat × Nat) := []) (au : Author := {}) : State :=
  (s.pullFor (bytes.map Prod.fst)).homeApply bytes bad au

/-! ### Containment events found by a read (R338, R339) -/

/-- KIND codes (R339). -/
def kUcdata : Nat := 1
def kPoison : Nat := 2
def kIllegalBlock : Nat := 3
def kUnreach : Nat := 4
def kRedmis : Nat := 5

/-- Whether a fabric-window byte's module cannot be reached (R334). None can be at reset (notes/assumptions/15.md). -/
def State.unreachable (s : State) (pa : Nat) : Bool :=
  s.cfg.tier pa = .fabric && !s.io.reach.contains (fld (pa - 0x200000000000) 40 5)

/-- Reading one byte finds bad data or not (R338): a clean cached copy with an error is dropped, any other granule with one
is marked poisoned, and both report UCDATA; a marked granule reports POISON. The unit number comes with it. -/
def State.find (s : State) (pa : Nat) : State × Option (Nat × Nat) :=
  let g := s.cfg.granule pa
  if s.unreachable pa then (s, some (kUnreach, 0xFFFF))
  else if 2 ^ 16 < Sparse.get 0 s.w.dirtyCopy (pa / 8) then
    let m := markFound (Sparse.get 0 s.w.dirtyCopy (pa / 8))
    (({ s with w := { s.w with dirtyCopy := Sparse.set 0 s.w.dirtyCopy (pa / 8) m } }).uncorrected (m - 1), some (kUcdata, m - 1))
  else if Sparse.get 0 s.w.dirtyCopy (pa / 8) ≠ 0 then (s, some (kPoison, Sparse.get 0 s.w.dirtyCopy (pa / 8) - 1))
  else if Sparse.get 0 s.w.badCopy (pa / 8) ≠ 0 then
    let u := Sparse.get 0 s.w.badCopy (pa / 8) - 1
    (({ s with w := { s.w with badCopy := dropCopy s.w.badCopy (pa / 64) } }).uncorrected u, some (kUcdata, u))
  else if Sparse.get 0 s.w.hard g ≠ 0 then
    let u := Sparse.get 0 s.w.hard g - 1
    (({ s with w := { s.w with hard := Sparse.set 0 s.w.hard g 0
                               poison := Sparse.set 0 s.w.poison g (u + 1) } }).uncorrected u, some (kUcdata, u))
  else if Sparse.get 0 s.w.poison g ≠ 0 then (s, some (kPoison, Sparse.get 0 s.w.poison g - 1))
  else if Sparse.get 0 s.w.soft g ≠ 0 then
    (({ s with w := { s.w with soft := Sparse.set 0 s.w.soft g 0 } }).corrected (Sparse.get 0 s.w.soft g - 1), none)
  else (s, none)

/-- Reading bytes for consumption: the first finding, if any. -/
def State.findAll : State → List Nat → State × Option (Nat × Nat)
  | s, [] => (s, none)
  | s, pa :: rest =>
    match s.find pa with
    | (t, some e) => (t, some e)
    | (t, none) => State.findAll t rest

/-- The marks a move reads (R338): a found error is marked, and every marked byte is listed with its unit, by position. -/
def State.marksOf (s : State) (pas : List Nat) : State × List (Nat × Nat) :=
  (pas.zip (List.range pas.length)).foldl
    (fun (acc : State × List (Nat × Nat)) p =>
      match acc.1.find p.1 with
      | (t, some (k, u)) =>
        if k = kPoison ∨ Sparse.get 0 t.w.poison (s.cfg.granule p.1) ≠ 0 ∨ Sparse.get 0 t.w.dirtyCopy (p.1 / 8) ≠ 0 then (t, acc.2 ++ [(p.2, u)]) else (t, acc.2)
      | (t, none) => (t, acc.2))
    (s, [])

/-! ### What a core's own access sees -/

/-- A line whose dirty sectors have gone home: what was found bad in them stands marked. -/
def Line.cleaned (l : Line) : Line :=
  { l with
    dirty := 0#4, wrote := 0#64, by_ := [], msg := []
    bad := (List.range 8).foldl (fun b g => if l.wroteIn g then Sparse.set 0 b g (l.badAt g) else b) l.bad
    hard := (List.range 8).foldl (fun h g => if l.wroteIn g then Sparse.set 0 h g 0 else h) l.hard }

/-- The latest earlier-issued pending store of context `ctx` to a byte: its value, and one more than the unit of the mark it carries
(R130, R297, R299, R338). A V-word's store is seen where it performs, and so is another context's. -/
def Core.ownStore (x : Core) (ctx id pa : Nat) : Option (Byte × Nat) :=
  let pick (r : Option (Nat × Byte × Nat)) (a : Acc) : Option (Nat × Byte × Nat) :=
    if a.id < id ∧ a.ctx = ctx ∧ (a.chk = 1 ∨ a.chk = 3) ∧ a.op = .store ∧ (r.map Prod.fst).all (fun n => decide (n ≤ a.id)) then
      match (a.pas.zip a.data).findIdx? (fun p => p.1 == pa) with
      | some i => some (a.id, a.data.getD i 0#8, (((a.bad.find? (fun p => p.1 == i)).map (fun p => p.2 + 1)).getD 0))
      | none => r
    else r
  (x.acc.foldl pick none).map Prod.snd

/-- The byte of the core's stash, where a valid sector holds it. -/
def Core.stashByte (x : Core) (pa : Nat) : Option Byte :=
  let l := x.line (pa / 64)
  if l.valid.getLsbD (pa % 64 / 16) then some (l.byte (pa % 64)) else none

/-- Drop the clean sector that holds a byte (R338). -/
def Line.dropSector (l : Line) (sec : Nat) : Line :=
  { l with
    valid := l.valid &&& ~~~((1#4) <<< sec)
    bad := Sparse.set 0 (Sparse.set 0 l.bad (2 * sec) 0) (2 * sec + 1) 0
    hard := Sparse.set 0 (Sparse.set 0 l.hard (2 * sec) 0) (2 * sec + 1) 0
    soft := Sparse.set 0 (Sparse.set 0 l.soft (2 * sec) 0) (2 * sec + 1) 0 }

/-- A consumption reads a byte of the core's stash (R338): an error in a clean sector drops it, one in a dirty sector is marked, and
both report UCDATA; a mark reports POISON. -/
def State.findStash (s : State) (c pa : Nat) : State × Option (Nat × Nat) :=
  let ln := pa / 64
  let g := pa % 64 / 8
  let l := (s.core c).line ln
  if Sparse.get 0 l.hard g ≠ 0 then
    let u := Sparse.get 0 l.hard g - 1
    let l' := if l.dirty.getLsbD (g / 2) then { l with hard := Sparse.set 0 l.hard g 0, bad := Sparse.set 0 l.bad g (u + 1) }
              else l.dropSector (g / 2)
    ((s.mod c (fun x => x.setLine ln l')).uncorrected u, some (kUcdata, u))
  else if Sparse.get 0 l.bad g ≠ 0 then (s, some (kPoison, Sparse.get 0 l.bad g - 1))
  else if Sparse.get 0 l.soft g ≠ 0 then
    ((s.mod c (fun x => x.setLine ln { l with soft := Sparse.set 0 l.soft g 0 })).corrected (Sparse.get 0 l.soft g - 1), none)
  else (s, none)

/-- A consumption of bytes by access `id` of a context finds the bad data among them where it reads each: in its own pending store,
in the core's stash, or at the home (R338, R339). -/
def State.consume (s : State) (c ctx id : Nat) (home : Bool) : List Nat → State × Option (Nat × Nat)
  | [] => (s, none)
  | pa :: rest =>
    let r : State × Option (Nat × Nat) :=
      if home then s.find pa
      else match (s.core c).ownStore ctx id pa with
        | some (_, 0) => (s, none)
        | some (_, u + 1) => (s, some (kPoison, u))
        | none => if ((s.core c).stashByte pa).isSome then s.findStash c pa else s.find pa
    match r with
    | (t, some e) => (t, some e)
    | (t, none) => State.consume t c ctx id home rest

/-- The agent number of a context of a core, and of its copy, Marver and unmasking engines (R296). -/
def ctxAgent (c ctx : Nat) : Nat := 4 * c + ctx
def engAgent (c eng : Nat) : Nat := 2 ^ 16 + 4 * c + eng

/-- What the acquires of a core's engine's commands before number `n` took (R297, R304, R310). -/
def State.engTook (s : State) (agent n : Nat) : Cov :=
  ((Sparse.get [] s.took agent).filter (fun p => decide (p.1 < n))).foldl (fun k p => k.join p.2) {}

/-- What has observed that the commands before number `n` of engine `eng` of core `c` are complete (R297). -/
def State.afterEng (s : State) (h : Hb) (c eng n : Nat) : Hb :=
  { h with know := h.know.join [(engAgent c eng, n)]
           got := (h.got.join { r := [(engAgent c eng, n)] }).join (s.engTook (engAgent c eng) n) }

/-- What a context follows in happens-before; the handler of a notification follows the copy command that it tells of (R297). -/
def State.hbOf (s : State) (c ctx : Nat) : Hb :=
  let h : Hb := Sparse.get {} s.hb (ctxAgent c ctx)
  let n := ((s.core c).q.hctx ctx).seen
  if ctx = 0 ∨ n = 0 then h else s.afterEng h c 0 n
/-- Change what a context follows. -/
def State.hbMod (s : State) (c ctx : Nat) (f : Hb → Hb) : State :=
  { s with hb := Sparse.set {} s.hb (ctxAgent c ctx) (f (s.hbOf c ctx)) }

/-- A context observes everything performed so far: as the task of an initial record starts, or a saved one resumes, it follows what the
host and the dispatchers did before (R265, R273). -/
def State.upToNow (s : State) (c ctx : Nat) : State :=
  s.hbMod c ctx (fun h => { h with got := { h.got with vis := max h.got.vis (s.tick + 1) } })

/-- Whether a clock follows a write. -/
def Clock.follows (k : Clock) (l : Lost) : Bool := decide (l.id < Sparse.get 0 k l.agent)

/-- The value a byte held just before tick `t`, and the releases that were among it. -/
def State.wasAt (s : State) (t pa : Nat) : Byte × List Msg :=
  match ((Sparse.get [] s.hist pa).filter (fun l => decide (t ≤ l.tick))).getLast? with
  | some l => (l.old, l.msg)
  | none => (s.byte pa, Sparse.get [] s.msgs pa)

/-- The value a byte held just before tick `t`. -/
def State.byteAt (s : State) (t pa : Nat) : Byte := (s.wasAt t pa).1

/-- One more than the tick of the write that a byte held the value of just before tick `t`; 0 where nothing had written it. -/
def State.pointAt (s : State) (t pa : Nat) : Nat :=
  match (Sparse.get [] s.hist pa).find? (fun l => decide (l.tick < t)) with
  | some l => l.tick + 1
  | none => 0

/-- One more than the tick of the latest write to a byte that a context has read (R299). -/
def State.seenAt (s : State) (agent pa : Nat) : Nat := Sparse.get 0 s.seen (agent * 2 ^ 48 + pa)

/-- What a read of some bytes stands after: whose writes it follows, its place in the one visibility order, and the agent whose
earlier reads of those bytes it may not go behind; none on an unordered page (R299, R301, R304). -/
structure Stand where
  k : Clock
  vis : Nat := 0
  agent : Option Nat := none

/-- Where a load of an rc page by access `id` of a context stands (R299, R304): it follows its own context's writes. -/
def Hb.stand (h : Hb) (agent id floor : Nat) : Stand :=
  { k := h.got.r.join [(agent, id)], vis := max h.got.vis floor, agent := some agent }

/-- The ticks before which some bytes, read at once, may be seen (R299, R301, R304): no write at or after one of them is a write the
reader follows in happens-before, or comes no later in the visibility order than what the reader has observed. -/
def State.pastTicks (s : State) (v : Stand) (pas : List Nat) : List Nat :=
  let all := pas.flatMap (fun pa => (Sparse.get [] s.hist pa).map (fun l => l.tick))
  all.eraseDups.filter (fun t => decide (v.vis ≤ t) && pas.all (fun pa =>
    (match v.agent with | none => true | some a => decide (s.seenAt a pa ≤ t)) &&
    (Sparse.get [] s.hist pa).all (fun l => decide (l.tick < t) || !v.k.follows l)))

/-- Bytes read at once: their values, and the tick before which their homes held them where that is not now. -/
abbrev Glimpse := List Byte × Option Nat

/-- Bytes read at once as they stand, or as their homes held them before one of some ticks: a free choice (R299, R301). Which is a
free value (notes/assumptions/8.md). -/
def State.glimpse (s : State) (ticks pas : List Nat) (now : List Byte) : Glimpse :=
  if ticks = [] then (now, none)
  else
    match ticks[Config.freePick s.tick (pas.headD 0) % (ticks.length + 1)]? with
    | some t => (pas.map (s.byteAt t), some t)
    | none => (now, none)

/-- Bytes of an unordered page as an engine reads them, past the stash (R245, R301). -/
def State.unordBytes (s : State) (k : Clock) (pas : List Nat) : List Byte :=
  (s.glimpse (s.pastTicks { k := k } pas) pas (pas.map s.byte)).1

/-- Whether the core's stash holds a byte that it has written there and not taken home. -/
def Core.wroteByte (x : Core) (pa : Nat) : Bool := (x.line (pa / 64)).wrote.getLsbD (pa % 64)

/-- Whether the reader follows the core's own write that its stash holds of a byte. -/
def Core.followsOwn (x : Core) (k : Clock) (pa : Nat) : Bool :=
  let w := (x.line (pa / 64)).author pa
  x.wroteByte pa && decide (w.2 < Sparse.get 0 k w.1)

/-- Whether an access of a context takes a byte from its own earlier store, pending or dirty in the stash. -/
def Core.takesOwn (x : Core) (ctx id pa : Nat) : Bool := (x.ownStore ctx id pa).isSome || x.wroteByte pa

/-- What access `id` of a context sees of some bytes it reads at once: its context's own earlier store, its core's stash, or the
home's value; the home's alone where the access is performed there (R298 to R301, R309). A plain load (`floor` then says what its
context had read when it issued) may see an older value of the homes: on an rc page as far as happens-before and the visibility order
leave it (R299, R304; notes/assumptions/69.md), on an unordered one as far as R301 does. -/
def State.viewAt (s : State) (c ctx id kind : Nat) (home : Bool) (h : Hb) (floor : Option Nat) (pas : List Nat) : Glimpse :=
  let x := s.core c
  let now := pas.map (fun pa =>
    if home then s.byte pa
    else match x.ownStore ctx id pa with
      | some p => p.1
      | none => (x.stashByte pa).getD (s.byte pa))
  let own (pa : Nat) : Bool := !home && x.takesOwn ctx id pa
  if kind = 2 then
    if !home && pas.any (x.followsOwn h.know) then (now, none)
    else s.glimpse (s.pastTicks { k := h.know } pas ++ (if pas.any own then [s.tick + 1] else [])) pas now
  else match floor with
    | some n =>
      if kind = 1 ∧ !pas.any own then s.glimpse (s.pastTicks (h.stand (ctxAgent c ctx) id n) pas) pas now else (now, none)
    | none => (now, none)

/-- Whether an acquire of core `c` at a scope synchronises with a release (R303). -/
def State.syncs (s : State) (c scope : Nat) (m : Msg) : Bool :=
  s.cfg.within scope c m.core && s.cfg.within m.scope c m.core

/-- What an acquire of core `c` at a scope takes from releases it reads. -/
def State.taken (s : State) (c scope : Nat) (l : List Msg) : Cov :=
  ((l.filter (s.syncs c scope)).map (fun m => m.clk)).foldl Cov.join {}

/-- The releases that some bytes, as they were glimpsed, are among. -/
def State.msgsIn (s : State) (pas : List Nat) (at' : Option Nat) : List Msg :=
  pas.foldl (fun l pa => addMsgs l (match at' with
    | some t => (s.wasAt t pa).2
    | none => Sparse.get [] s.msgs pa)) []

/-- The place in the visibility order of what was glimpsed of some bytes: one more than the tick of the latest write among it. -/
def State.pointOf (s : State) (pas : List Nat) (at' : Option Nat) : Nat :=
  pas.foldl (fun n pa => max n (s.pointAt (at'.getD (s.tick + 1)) pa)) 0

/-- A context has read some bytes, as their homes held them before a tick or as they stand (R299): it goes behind them no more. -/
def State.saw (s : State) (agent : Nat) (pas : List Nat) (at' : Option Nat) : State :=
  { s with seen := pas.foldl (fun (m : Sparse Nat) pa =>
      Sparse.set 0 m (agent * 2 ^ 48 + pa) (max (Sparse.get 0 m (agent * 2 ^ 48 + pa)) (s.pointAt (at'.getD (s.tick + 1)) pa))) s.seen }

/-- A read hears the releases among its bytes (R303): an acquire follows them at once; a plain load once a fence makes it one, and it
remembers the lines whose records that fence must force (R308). An unordered load's releases count for a fence with U alone. What an
acquire has observed of the visibility order, its later loads do not go behind (R299). -/
def State.hear (s : State) (c ctx kind : Nat) (acq : Bool) (scope : Nat) (pas : List Nat) (at' : Option Nat) : State :=
  let m := s.msgsIn pas at'
  let n := s.pointOf pas at'
  let h := s.hbOf c ctx
  let new := (pas.map (· / 64)).eraseDups.filter (fun ln => (Sparse.get [] s.pub ln) != [] && !h.lines.contains ln)
  let h' : Hb :=
    if kind = 2 then { h with uheard := addMsgs h.uheard m, lines := h.lines ++ new }
    else if acq then { h with seen := max h.seen n, got := (h.got.join (s.taken c scope m)).join { vis := n } }
    else { h with seen := max h.seen n, heard := addMsgs h.heard m, lines := h.lines ++ new }
  let t := if kind = 2 ∨ n = 0 then s else s.saw (ctxAgent c ctx) pas at'
  if h' = h then t else t.hbMod c ctx (fun _ => h')

/-- What a release by access `id` of an agent carries (R303, R304): its earlier writes, what it has acquired and what its fences with
U have covered, and all that it has observed. -/
def Hb.carries (h : Hb) (agent id : Nat) : Cov :=
  (h.got.join { u := h.sent, vis := h.seen }).join { r := [(agent, id)] }

/-- The releases that fences have put before later stores, by scope, of a core. -/
def fenceMsgs (c : Nat) (f : Sparse Cov) : List Msg := f.map (fun p => { core := c, scope := p.1, clk := p.2 })

/-- The releases a write of access `id` is, of an agent that follows `h` (R303): any store after a release fence is one of what the
fence put before it, and a marked one of all that it follows. An unordered store carries only what a fence with U put before it
(R301). -/
def Hb.msgs (h : Hb) (c agent id kind : Nat) (rel : Bool) : List Msg :=
  if kind = 2 then fenceMsgs c h.ufenced
  else fenceMsgs c h.fenced ++ (if rel then [{ core := c, scope := 5, clk := h.carries agent id }] else [])

/-- The author of a context's store. -/
def State.authorOf (s : State) (c ctx id kind : Nat) (rel join : Bool) : Author :=
  { who := fun _ => (ctxAgent c ctx, id), join := join, msg := (s.hbOf c ctx).msgs c (ctxAgent c ctx) id kind rel }

/-- A context has observed that an engine of its core has completed what was issued before `n` (R119, R180, R239, R297). -/
def State.observe (s : State) (c ctx eng n : Nat) : State := s.hbMod c ctx (fun h => s.afterEng h c eng n)

/-- The keys, above those of memory's words, of what a queue, a barrier and an order of `fence.sc` hand on (R229, R285, R305). -/
def queueKey (q : Nat) : Nat := 2 ^ 48 + q
def barKey (linst grp lvl : Nat) : Nat := 2 ^ 49 + (linst * 2 ^ 10 + grp) * 8 + lvl
def orderKey (g : CfgSt) (scope c : Nat) : Nat :=
  2 ^ 50 + scope * 2 ^ 16 + (if scope = 1 then g.paneOf c * 16 + g.pcoreOf c / 4 else if scope = 2 then g.paneOf c else 0)

/-- What the tasks of a launch have left for its completion (R263, R302). -/
def launchKey (linst : Nat) : Nat := 2 ^ 53 + linst

/-- A context leaves a release, by the word of number `id`, at a key. -/
def State.leaveAt (s : State) (key c ctx id : Nat) : State :=
  let m := (s.hbOf c ctx).msgs c (ctxAgent c ctx) id 1 true
  { s with msgs := Sparse.set [] s.msgs key (addMsgs (Sparse.get [] s.msgs key) m) }

/-- A context acquires, at a scope, what has been left at a key. -/
def State.takeAt (s : State) (key c ctx scope : Nat) : State :=
  let k := s.taken c scope (Sparse.get [] s.msgs key)
  if k = {} then s else s.hbMod c ctx (fun h => { h with got := h.got.join k })

/-- A context acquires what has been pushed to a queue: at pane scope what a core of the queue's pane has, else at module scope (R229). -/
def State.takePushed (s : State) (q c ctx : Nat) : State :=
  let l := Sparse.get [] s.msgs (queueKey q)
  let mine (m : Msg) : Bool := s.cfg.paneOf m.core == q / 256
  let k := (s.taken c 2 (l.filter mine)).join (s.taken c 3 (l.filter (fun m => !mine m)))
  if k = {} then s else s.hbMod c ctx (fun h => { h with got := h.got.join k })

/-- Whether a `stash` operation on window `w` that waits was issued before access `id` (R218). -/
def Core.winBusy (x : Core) (w id : Nat) : Bool :=
  [0, 1, 2, 3].any (fun ctx => (x.q.holdOf ctx).k == .stash w && decide ((x.q.holdOf ctx).since ≤ id))

/-- Whether a stash window covers `w` bytes at extent offset `off` of an entry; one over a strong extent caches nothing (R300). -/
def Win.covers (v : Win) (entry off w : Nat) : Bool :=
  v.size != 0 && v.tok.entry == entry && v.tok.kind != 0 && decide (v.off ≤ off) && decide (off + w ≤ v.off + v.size)

/-- Whether access `id` goes through a stash window of its core (R218). -/
def Core.windowed (x : Core) (entry off w id : Nat) : Bool := x.wins.any (fun p => p.2.covers entry off w && !x.winBusy p.1 id)

/-- Whether access `id` bypasses the stash: an operation on its window that was issued before it waits (R218). -/
def Core.bypasses (x : Core) (entry off w id : Nat) : Bool := x.wins.any (fun p => p.2.covers entry off w && x.winBusy p.1 id)

/-- Fill one sector of a stash line from its home, with the marks it carries (R218, R338). -/
def State.fillSector (s : State) (c ln sec : Nat) : State :=
  let l := (s.core c).line ln
  if l.valid.getLsbD sec then s
  else
    let pas := (List.range 16).map (fun i => ln * 64 + 16 * sec + i)
    let m := s.marksOf pas
    let l' := pas.foldl (fun l pa => Line.put l (pa % 64) (m.1.byte pa)) (l.dropSector sec)
    m.1.mod c (fun x => x.setLine ln { l' with
      valid := l'.valid ||| ((1#4) <<< sec)
      bad := m.2.foldl (fun b p => Sparse.set 0 b (2 * sec + p.1 / 8) (p.2 + 1)) l'.bad })

/-- Fill the sectors of a line that are not valid from the home (R218). -/
def State.fillLine (s : State) (c ln : Nat) : State := [0, 1, 2, 3].foldl (fun t sec => t.fillSector c ln sec) s

/-- Fill the whole line of every byte of a read that misses the stash (R218). -/
def State.fillFor (s : State) (c : Nat) (pas : List Nat) : State :=
  (pas.map (· / 64)).eraseDups.foldl
    (fun t ln => if ((t.core c).line ln).valid = 0xF#4 then t else t.fillLine c ln) s

/-- A sector that a write leaves some byte of is read to merge (R218, R338): it is filled where it is not valid; an error in a clean
copy of it is dropped and refetched, and one in a dirty copy is found and marked. -/
def State.mergeSector (s : State) (c ln sec : Nat) : State :=
  let l := (s.core c).line ln
  let err := Sparse.get 0 l.hard (2 * sec) ≠ 0 ∨ Sparse.get 0 l.hard (2 * sec + 1) ≠ 0
  if err ∧ l.dirty.getLsbD sec = false then (s.mod c (fun x => x.setLine ln (l.dropSector sec))).fillSector c ln sec
  else s.fillSector c ln sec

/-- Bytes of one granule of a line are written: whole, its marks and errors are gone; in part, an error in it is found and the
granule is marked; and the marks of the written bytes come with them (R338). -/
def Line.marked (l : Line) (g : Nat) (whole : Bool) (mark : Nat) : Line :=
  let l' := if whole then { l with bad := Sparse.set 0 l.bad g 0, hard := Sparse.set 0 l.hard g 0, soft := Sparse.set 0 l.soft g 0 }
            else if Sparse.get 0 l.hard g ≠ 0 then { l with bad := Sparse.set 0 l.bad g (l.badAt g), hard := Sparse.set 0 l.hard g 0 }
            else l
  if mark = 0 then l' else { l' with bad := Sparse.set 0 l'.bad g mark }

/-- Write bytes into the core's stash (R218): a sector not wholly written is filled first; written sectors are valid and
dirty. `bad` are the marks the bytes carry, by address (R338); `au` is the store. -/
def State.stashWrite (s : State) (c : Nat) (bytes : List (Nat × Byte)) (bad : List (Nat × Nat) := []) (au : Author := {}) : State :=
  let pas := bytes.map Prod.fst
  let secs := (pas.map (· / 16)).eraseDups
  let s1 := secs.foldl
    (fun t sec => if (pas.filter (fun p => p / 16 == sec)).length = 16 then t else t.mergeSector c (sec / 4) (sec % 4)) s
  let s2 := bytes.foldl
    (fun t p => t.mod c (fun x =>
      let l := (x.line (p.1 / 64)).put (p.1 % 64) p.2
      let m := (1#4) <<< (p.1 % 64 / 16)
      x.setLine (p.1 / 64) { l with
        valid := l.valid ||| m, dirty := l.dirty ||| m, wrote := l.wrote ||| ((1#64) <<< (p.1 % 64))
        by_ := Sparse.set anyAgent l.by_ (p.1 % 64) (au.who p.1), msg := Sparse.set [] l.msg (p.1 % 64) au.msg })) s1
  (pas.map (· / 8)).eraseDups.foldl
    (fun t gr => t.mod c (fun x =>
      let n := (pas.filter (fun p => p / 8 == gr)).length
      let mark := ((bad.find? (fun p => p.1 / 8 == gr)).map (fun p => p.2 + 1)).getD 0
      let l := (x.line (gr / 8)).marked (gr % 8) (decide (8 ≤ n)) mark
      x.setLine (gr / 8) l)) s2

/-- The dirty bytes in a core's stash: 16 for each dirty sector. -/
def Core.dirty (x : Core) : Nat := (x.stash.map (fun p => 16 * ((List.range 4).filter (fun k => p.2.dirty.getLsbD k)).length)).sum

/-- A line that stays after its write-back keeps the sectors that are as their home holds them (R299). -/
def State.keepClean (s : State) (ln : Nat) (l : Line) : Line :=
  (List.range 4).foldl (fun (l : Line) sec =>
    if (List.range 16).all (fun i => l.byte (16 * sec + i) == s.byte (ln * 64 + 16 * sec + i)) then l else l.dropSector sec) l

/-- Write back the dirty sectors of some of a core's lines and leave them clean (R218, R306). -/
def State.writeBack (s : State) (c : Nat) (which : Nat → Bool) : State :=
  (s.core c).stash.foldl
    (fun t p =>
      if which p.1 ∧ p.2.dirty ≠ 0#4 then
        let keep := (t.core c).line p.1
        let u := (t.mod c (fun x => x.setLine p.1 {})).pullLine p.1
        let v := u.homeLine p.1 keep
        v.mod c (fun x => x.setLine p.1 (v.keepClean p.1 keep.cleaned))
      else t) s

/-- Write back every dirty line of a core. -/
def State.flush (s : State) (c : Nat) : State := s.writeBack c (fun _ => true)

/-- The physical lines of a stash window (R217). -/
def State.winLines (s : State) (w : Win) : List Nat :=
  (List.range (w.size / 64)).filterMap (fun i => ((s.ent w.tok.entry).at_ (w.off + 64 * i)).map (· / 64))

/-- Before an operation that bypasses the stash, the core's dirty copy of a line goes home and is dropped (R218, R309). -/
def State.bypass (s : State) (c : Nat) (pas : List Nat) : State :=
  (pas.map (· / 64)).eraseDups.foldl
    (fun t ln => if ((t.core c).line ln).dirty = 0#4 then t
                 else
                   let l := (t.core c).line ln
                   ((t.mod c (fun x => x.setLine ln {})).pullLine ln).homeLine ln l) s

/-! ### Releases and publish records (R306 to R309) -/

/-- The publish records at a line. -/
def State.pubs (s : State) (ln : Nat) : List Pub := Sparse.get [] s.pub ln

/-- Whether a store issued before `n` is unacknowledged in a window a scope waits for (R306): fabric window at scope 4, both
at 5. -/
def State.unackedAt (s : State) (c scope n : Nat) : Bool :=
  (s.core c).unacked.any (fun p => decide (p.1 < n) && decide (4 ≤ scope) && (scope == 5 || s.cfg.tier p.2.1 = .fabric))

/-- Whether the line's four records are taken by other cores: a release there does the work of the system row (R307). -/
def State.pubFull (s : State) (c ln : Nat) : Bool := decide (4 ≤ (s.pubs ln).length) && !(s.pubs ln).any (fun p => p.core == c)

/-- The scope whose work a release at a line does at once: its own, the core row's where it is deferred (R309), the system row's
where it can leave no record (R307). -/
def State.workScope (s : State) (c ln scope : Nat) (deferred : Bool) : Nat :=
  if s.pubFull c ln then 5 else if deferred then 0 else scope

/-- Whether the stores a release of core `c` at number `n` waits for are acknowledged (R306, R307). -/
def State.releaseReady (s : State) (c n ln scope : Nat) (deferred : Bool) : Bool :=
  !s.unackedAt c (s.workScope c ln scope deferred) n

/-- The records of a core that has completed work at system scope are removed (R307). -/
def State.dropPubs (s : State) (c : Nat) : State :=
  { s with pub := (s.pub.map (fun p => (p.1, p.2.filter (fun r => r.core != c)))).filter (fun p => p.2 != []) }

/-- The work of a release at `scope` (R306): at core scope dirty lines stay, at wider scopes they are written back; work that
stays pending is named in a publish record at the release's line, which has room for four (R307). `deferred` is a `sig.add`,
`sig.set` or `fut.put`, which does the core row's work at any scope (R309). What a release waits for is
(notes/assumptions/38.md). -/
def State.release (s : State) (c id ln scope : Nat) (deferred : Bool) : State :=
  let ws := s.workScope c ln scope deferred
  let s1 := if 1 ≤ ws then s.flush c else s
  let x := s1.core c
  if ws = 5 then s1.dropPubs c
  else if ws = 0 ∨ !x.unacked.isEmpty then
    let r : Pub := { core := c, id := id, scope := scope, dirty := x.dirty, remote := !x.unacked.isEmpty }
    { s1 with pub := Sparse.set [] s1.pub ln ((s1.pubs ln).filter (fun p => p.core != c) ++ [r]) }
  else s1

/-- The cores an acquire by agent `y` at a scope must force to publish at a line (R308). -/
def State.mustForce (s : State) (y ln scope : Nat) : List Pub :=
  (s.pubs ln).filter (fun p => p.core != y && s.cfg.within scope y p.core)

/-- Whether an acquire of `y` at `scope` that reads these bytes may return: no record it must force is left (R308). -/
def State.acquireReady (s : State) (y scope : Nat) (pas : List Nat) : Bool :=
  (pas.map (· / 64)).eraseDups.all (fun ln => (s.mustForce y ln scope).isEmpty)

end Sys2Proof.Machine
end

