-- ==== Sys2Proof/Machine/Contain.lean ====
section
/-! DEFINITION. The three queues of a core and what is discarded of them; raising a containment event (R339), and what the Lehr makes
of it: suspect units and quarantine (R344, R345); the errors and marks of registers (R338). -/

namespace Sys2Proof.Machine

/-! ### The queues of V-words -/

/-- The place of a queue, by number: 0 L, 1 A, 2 S. -/
def Vu.queue (v : Vu) (q : Nat) : List VEntry := if q = 0 then v.ql else if q = 1 then v.qa else v.qs

/-- Replace a queue. -/
def Vu.setQueue (v : Vu) (q : Nat) (l : List VEntry) : Vu :=
  if q = 0 then { v with ql := l } else if q = 1 then { v with qa := l } else { v with qs := l }

/-- Change a core's vector unit. -/
def Core.vu (x : Core) (f : Vu → Vu) : Core := { x with v := f x.v }

/-- The entry `id` leaves its queue. -/
def Core.leave (x : Core) (q id : Nat) : Core :=
  x.vu (fun v => v.setQueue q ((v.queue q).filter (fun e => e.cap.id != id)))

/-- A word is discarded or skipped: it withdraws the empty marks it set (R141). -/
def Core.discard (x : Core) (q : Nat) (cap : VCap) : Core := (x.leave q cap.id).dropV cap.marks cap.id

/-- Discard every queued word that satisfies `p`. -/
def Core.discardIf (x : Core) (p : VCap → Bool) : Core :=
  [0, 1, 2].foldl (fun x q => ((x.v.queue q).filter (fun e => p e.cap)).foldl (fun x e => x.discard q e.cap) x) x

/-! ### Containment events -/

/-- An event that names a unit (R344): a second one within 2³² GTS ticks makes it suspect, and a suspect core or column
group is quarantined at once. -/
def State.noteUnit (s : State) (u : Nat) : State :=
  if u = 0xFFFF then s
  else
    let prev := Sparse.get 0 s.w.lastEvent u
    let s1 := { s with w := { s.w with lastEvent := Sparse.set 0 s.w.lastEvent u (s.gts0 + 1) } }
    if prev ≠ 0 ∧ s.gts0 + 1 - prev ≤ 2 ^ 32 ∧ !s.w.suspect.contains u then
      let s2 := ({ s1 with w := { s1.w with suspect := u :: s1.w.suspect } }).logEvent 8 u
      if u < 0x800 then ({ s2 with w := { s2.w with quar := u :: s2.w.quar } }).logEvent 9 u else s2
    else s1

/-- A containment event of core `c` (R339): its trap is on its way to the main context. `clk` is the consumer's place on the
issue timeline, `q` its pipe or 3, `idx` INDEX. Queued words issued after a consuming V-word are discarded (R103), and inside a
region all that were issued after the consumer: the unwind discards the rest (R343). -/
def State.contain (s : State) (c ctx kind source unit idx clk : Nat) (vec : Bool) (q : Nat) : State :=
  let data := unit * 2 ^ 16 + source * 2 ^ 8 + kind
  (((s.logEvent 2 data).noteUnit unit).mod c (fun x =>
    let y := if vec || (!x.q.regions.isEmpty && !x.q.tact) then x.discardIf (fun e => decide (clk < e.id)) else x
    y.late
      { clk := clk, cause := causeContain, info := infoWord ctx false vec q idx data, cont := true, vec := vec,
        arr := s.now }))

/-! ### Errors and marks of registers (R338) -/

/-- The kind and unit of the event that consuming marked data raises (R339): UCDATA where the consumption finds the error, POISON where
it had been found. -/
def markEvent (m : Nat) : Nat × Nat := (if 2 ^ 16 < m then kUcdata else kPoison, (m - 1) % 2 ^ 16)

/-- The event of consuming a record that carries marks: of the first of them. -/
def recordEvent (l : List (Nat × Nat)) : Nat × Nat := markEvent (l.headD (0, 0)).2

/-- The marks that a move of some bytes has read (`State.marksOf`), as a record carries them. -/
def recordMarks (l : List (Nat × Nat)) : List (Nat × Nat) := l.map (fun p => (p.1, p.2 + 1))

/-- The mark of one of some granules of registers: the first there is, 0 for none. -/
def Core.markAt (x : Core) (gs : List Nat) : Nat := ((gs.map (Sparse.get 0 x.r.bad)).find? (· != 0)).getD 0

/-- Reading granules of registers finds the errors among them, which stand marked from then on. -/
def Core.foundAt (x : Core) (gs : List Nat) : Core :=
  { x with r := { x.r with bad := gs.foldl (fun m g => Sparse.set 0 m g (markFound (Sparse.get 0 m g))) x.r.bad } }

/-- Core `c` has read granules of its registers: an error among them is found (R338, R353). -/
def State.readGranules (s : State) (c : Nat) (gs : List Nat) : State :=
  let m := (s.core c).markAt gs
  if m = 0 then s
  else (if 2 ^ 16 < m then s.uncorrected ((markEvent m).2) else s).mod c (fun x => x.foundAt gs)

end Sys2Proof.Machine
end

