-- ==== Sys2Proof/Machine/Operands.lean ====
section
/-! DEFINITION. Operands: which registers an instruction names, when its sources may be read (R47, R48, R96, R102), and the
elements, guards and scalars of a V-word (R20, R66, R137 to R141). -/

namespace Sys2Proof.Machine

/-- A register source and its FE bit (R48). -/
inductive Src where
  | s (r : Nat) (fe : Bool)
  | k (r : Nat) (fe : Bool)
  deriving DecidableEq, Repr

/-- The FE bit of a source. -/
def Src.fe : Src → Bool
  | .s _ f => f
  | .k _ f => f

/-- The register number of a source. -/
def Src.reg : Src → Nat
  | .s r _ => r
  | .k r _ => r

/-- The granule a source register is (R338); s0 and k0 are none. -/
def Src.granule (ctx : Nat) : Src → List Nat
  | .s r _ => if r = 0 then [] else [sKey ctx r]
  | .k r _ => if r = 0 then [] else [kGran ctx r]

/-- Whether a source is full (R96). -/
def Core.full (x : Core) (ctx : Nat) : Src → Bool
  | .s r _ => (x.sMarks ctx r).isEmpty
  | .k r _ => (x.kMarks ctx r).isEmpty

/-- What the sources of a word let it do (R48). -/
inductive Fetch where
  | ok
  | wait
  | empty (r : Nat)
  deriving DecidableEq, Repr

/-- A word waits while a source with FE 0 is empty; then the first source found empty with FE 1 traps (R48, R102). -/
def Core.fetch (x : Core) (ctx : Nat) (l : List Src) : Fetch :=
  if l.any (fun r => !r.fe && !x.full ctx r) then .wait
  else match l.find? (fun r => !x.full ctx r) with
    | some r => .empty r.reg
    | none => .ok

/-- Reading a status scalar clears the Marver fault it records (R180). -/
def Core.touch (x : Core) (ctx : Nat) (l : List Src) : Core :=
  let keys := l.filterMap (fun r => match r with | .s n _ => some (sKey ctx n) | .k _ _ => none)
  { x with e := { x.e with mxfault := x.e.mxfault.filter (fun k => !keys.contains k) } }

/-- The scalar and token registers a C-word names in any field (R47); the last of a run of eight stands for the run. -/
def namesOf : Instr → List Nat × List Nat
  | .add o => ([o.d, o.a, o.b, o.c], [])
  | .addImmediate o => ([o.d, o.a], [])
  | .sub o => ([o.d, o.a, o.b, o.c], [])
  | .subImmediate o => ([o.d, o.a], [])
  | .mul o => ([o.d, o.a, o.b, o.c], [])
  | .mulImmediate o => ([o.d, o.a], [])
  | .mulhS o => ([o.d, o.a, o.b, o.c], [])
  | .mulhSImmediate o => ([o.d, o.a], [])
  | .mulhN o => ([o.d, o.a, o.b, o.c], [])
  | .mulhNImmediate o => ([o.d, o.a], [])
  | .divS o => ([o.d, o.a, o.b, o.c], [])
  | .divSImmediate o => ([o.d, o.a], [])
  | .divN o => ([o.d, o.a, o.b, o.c], [])
  | .divNImmediate o => ([o.d, o.a], [])
  | .remS o => ([o.d, o.a, o.b, o.c], [])
  | .remSImmediate o => ([o.d, o.a], [])
  | .remN o => ([o.d, o.a, o.b, o.c], [])
  | .remNImmediate o => ([o.d, o.a], [])
  | .and o => ([o.d, o.a, o.b, o.c], [])
  | .andImmediate o => ([o.d, o.a], [])
  | .or o => ([o.d, o.a, o.b, o.c], [])
  | .orImmediate o => ([o.d, o.a], [])
  | .xor o => ([o.d, o.a, o.b, o.c], [])
  | .xorImmediate o => ([o.d, o.a], [])
  | .andn o => ([o.d, o.a, o.b, o.c], [])
  | .andnImmediate o => ([o.d, o.a], [])
  | .shl o => ([o.d, o.a, o.b, o.c], [])
  | .shlImmediate o => ([o.d, o.a], [])
  | .shrS o => ([o.d, o.a, o.b, o.c], [])
  | .shrSImmediate o => ([o.d, o.a], [])
  | .shrN o => ([o.d, o.a, o.b, o.c], [])
  | .shrNImmediate o => ([o.d, o.a], [])
  | .rot o => ([o.d, o.a, o.b, o.c], [])
  | .rotImmediate o => ([o.d, o.a], [])
  | .clz o => ([o.d, o.a, o.b, o.c], [])
  | .popc o => ([o.d, o.a, o.b, o.c], [])
  | .minS o => ([o.d, o.a, o.b, o.c], [])
  | .minSImmediate o => ([o.d, o.a], [])
  | .minN o => ([o.d, o.a, o.b, o.c], [])
  | .minNImmediate o => ([o.d, o.a], [])
  | .maxS o => ([o.d, o.a, o.b, o.c], [])
  | .maxSImmediate o => ([o.d, o.a], [])
  | .maxN o => ([o.d, o.a, o.b, o.c], [])
  | .maxNImmediate o => ([o.d, o.a], [])
  | .sel o => ([o.d, o.a, o.b, o.c], [])
  | .mov o => ([o.d, o.a, o.b, o.c], [])
  | .sext o => ([o.d, o.a, o.b, o.c], [])
  | .sextImmediate o => ([o.d, o.a], [])
  | .zext o => ([o.d, o.a, o.b, o.c], [])
  | .zextImmediate o => ([o.d, o.a], [])
  | .bfx o => ([o.d, o.a, o.b, o.c], [])
  | .bfxImmediate o => ([o.d, o.a], [])
  | .bfi o => ([o.d, o.a, o.b, o.c], [])
  | .bfiImmediate o => ([o.d, o.a], [])
  | .csrr d _ => ([d], [])
  | .csrw a _ _ => ([a], [])
  | .rdts d => ([d], [])
  | .ctxsave m => ([m.x], [m.k])
  | .ctxrest m => ([m.x], [m.k])
  | .stop a _ => ([a], [])
  | .ret a _ => ([a], [])
  | .wcsld _ m => ([m.x], [m.k])
  | .pset _ a _ _ _ => ([a], [])
  | .lim d _ => ([d], [])
  | .cset d f => ([d, f.a, f.b], [])
  | .br f _ => ([f.a, f.b], [])
  | .brx a _ _ => ([a], [])
  | .loop f => ([f.t], [])
  | .swpl f => ([f.a], [])
  | .ld f => ([f.d, f.m.x], [f.m.k])
  | .st f => ([f.d, f.m.x], [f.m.k])
  | .amoAdd f => ([f.d, f.a, f.b, f.c], [f.k])
  | .amoAnd f => ([f.d, f.a, f.b, f.c], [f.k])
  | .amoOr f => ([f.d, f.a, f.b, f.c], [f.k])
  | .amoXor f => ([f.d, f.a, f.b, f.c], [f.k])
  | .amoMinS f => ([f.d, f.a, f.b, f.c], [f.k])
  | .amoMaxS f => ([f.d, f.a, f.b, f.c], [f.k])
  | .amoMinN f => ([f.d, f.a, f.b, f.c], [f.k])
  | .amoMaxN f => ([f.d, f.a, f.b, f.c], [f.k])
  | .amoSwap f => ([f.d, f.a, f.b, f.c], [f.k])
  | .amoCas f => ([f.d, f.a, f.b, f.c], [f.k])
  | .amoFmaxF32 f => ([f.d, f.a, f.b, f.c], [f.k])
  | .amoAmaxRr f => ([f.d, f.a, f.b, f.c], [f.k])
  | .xlat _ o => ([o.a, o.b], [o.d])
  | .xlatTry _ o => ([o.a, o.b, o.c], [o.d])
  | .tkchk o => ([o.d], [o.a])
  | .tkdrop o => ([], [o.a])
  | .tkmov o => ([], [o.d, o.a])
  | .tksub o => ([o.b, o.c], [o.d, o.a])
  | .tkinfo o => ([o.d], [o.a])
  | .tkrevKill o => ([o.a], [])
  | .tkrevMove o => ([o.a], [o.b])
  | .stashMap _ m => ([m.x], [m.k])
  | .futWait f => ([f.d, f.m.x], [f.m.k])
  | .futPut f => ([f.d, f.m.x], [f.m.k])
  | .futClr f => ([f.d, f.m.x], [f.m.k])
  | .sigAdd f => ([f.d, f.m.x], [f.m.k])
  | .sigSet f => ([f.d, f.m.x], [f.m.k])
  | .sigWait f => ([f.d, f.m.x], [f.m.k])
  | .sigRead f => ([f.d, f.m.x], [f.m.k])
  | .hset _ a _ => ([a], [])
  | .harr _ a _ => ([a], [])
  | .hinfo d _ => ([d], [])
  | .cpyStat d _ => ([d], [])
  | .qpush o => ([o.a, o.b + 7], [o.c])
  | .qpop o => ([o.a, o.d + 7], [o.c])
  | .qtry o => ([o.a, o.b, o.d + 7], [o.c])
  | .qinfo o => ([o.d, o.a], [])
  | .qbind o => ([o.a, o.b], [o.c])
  | .cpyLvl _ o => ([o.a, o.b, o.c], [])
  | .cpyGo f => ([f.a, f.b, f.c], [f.sk, f.dk])
  | .mxCbtab f => ([f.d, f.b], [f.k])
  | .mxBld f => ([f.d, f.a, f.b], [f.k])
  | .mxBldMirror f => ([f.d, f.a, f.b], [f.k])
  | .mxTld f => ([f.d, f.b, f.c], [f.k])
  | .mxZld f => ([f.d, f.b], [f.k])
  | .mxZst f => ([f.d, f.b], [f.k])
  | .mxMm f => ([f.d], [])
  | .mxKat d _ _ _ => ([d], [])
  | .mxZalloc d _ => ([d], [])
  | .mxZcpy d _ _ => ([d], [])
  | .mxOut f => ([f.d, f.b, f.c], [f.k])
  | .umCfg f => ([f.d, f.a, f.b], [])
  | .umCfgShare f => ([f.d, f.a, f.b], [])
  | .umCfgRad d _ _ _ => ([d], [])
  | .umRank f => ([f.d, f.a, f.b], [f.k])
  | .umCommit f => ([f.d, f.a, f.b], [f.k])
  | .umDnext d => ([d], [])
  | .umDclr a _ => ([a], [])
  | _ => ([], [])

/-- Whether a handler context may run a C-word (R25, R47, R95, R121, R125, R283, R288, R341): some words are the main context's
alone, and no field names s16 to s63 or k8 to k31. A handler may run `pset` and `shape` and reach LSD, LSO and VSHAPE, which are
the main context's (DESIGN CHOICE, notes/assumptions/65.md). -/
def handlerOk (i : Instr) : Bool :=
  let own := match i with
    | .viss _ _ | .swpl _ | .loop _ | .lbrk _ | .call _ | .ctxsave _ | .ctxrest _ | .stop _ _ | .cro _ | .crc
    | .bar _ _ | .futWait _ | .sigWait _ => false
    | .csrw _ _ n => n != 0x002 && n != 0x003
    | .csrr _ n => decide (n < 0x038)
    | _ => true
  own && (namesOf i).1.all (fun r => decide (r < 16)) && (namesOf i).2.all (fun r => decide (r < 8))

/-- Whether the context whose word runs may issue one (R100, R101): the module is not halted, the context is RUNNING, no
word of it holds it, no `viss` or `swpl` of it is part-way, and no illegal V-word has stopped its issue (R67). -/
def State.runs (s : State) : Bool :=
  let x := s.me
  !s.halted && (x.q.holdOf s.ctx).k == .free &&
  (if s.ctx = 0 then x.q.st == .running && !x.q.issue.act && x.q.armed == none else (x.q.hctx s.ctx).st == .running)

/-- The registers whose values a word consumes (R339): a scalar store moves its data. What consumes a mark is (DEDUCED,
notes/assumptions/59.md). -/
def consumed (i : Instr) (ctx : Nat) (l : List Src) : List Nat :=
  (match i with
    | .st _ => l.drop 1
    | _ => l).flatMap (Src.granule ctx)

/-- A C-word has consumed a register that holds bad data (R339): it has no effect, and control stands after it. -/
def State.sourceContained (s : State) (i : Instr) (gs : List Nat) : Out :=
  let e := markEvent (s.me.markAt gs)
  .next (((s.readGranules s.cur gs).contain s.cur s.ctx e.1 0 e.2 (if s.ctx = 0 then 0 else s.me.q.pcOf s.ctx) s.me.q.nid false 3).done
    (max 1 (encodeC i).length))

/-- A granule of code memory that holds bad data is read to issue its word (R338, R339): the main context stays where it stands, and the
event takes it from there. -/
def State.codeContained (s : State) (n : Nat) : Out :=
  let m := Sparse.get 0 s.me.code.bad n
  let e := markEvent m
  let t := (if 2 ^ 16 < m then s.uncorrected e.2 else s).upd (fun x =>
    { x with code := { x.code with bad := Sparse.set 0 x.code.bad n (markFound m) } })
  let u := t.contain s.cur s.ctx e.1 0 e.2 (if s.ctx = 0 then 0 else s.me.q.pcOf s.ctx) s.me.q.nid false 3
  .next (if s.ctx = 0 then u.upd Core.tickId else u.done 1)

/-- A C-word issues: its context must be able to, a handler context must be allowed the word, and its sources are read under
their FE bits and hold no bad data (R338); then `body` is its effect. The order of its checks is (DEDUCED,
notes/assumptions/33.md). -/
def issue (i : Instr) (s : State) (l : List Src) (body : State → Out) : Out :=
  if !s.runs then stall s
  else if s.ctx ≠ 0 ∧ !handlerOk i then illegal i s
  else match s.me.fetch s.ctx l with
    | .wait => stall s
    | .empty r => trap s 2 r
    | .ok =>
      if s.me.markAt (consumed i s.ctx l) ≠ 0 then s.sourceContained i (consumed i s.ctx l)
      else body (s.upd (fun x => x.touch s.ctx l))

/-- Read a scalar of the running context. -/
def State.sc (s : State) (r : Nat) : Word := s.me.rdS s.ctx r
/-- Read a token of the running context. -/
def State.tk (s : State) (r : Nat) : Token := s.me.rdK s.ctx r
/-- The issue number the running word has. -/
def State.id (s : State) : Nat := s.me.q.nid

/-- Write a scalar of the running context and move on by `n` C-words. -/
def State.ret (s : State) (d n : Nat) (v : Word) : State := s.upd (fun x => (x.wrS s.ctx d v).next s.ctx n)

/-- The sources of the register form that are read: A, B, C as asked. -/
def aluSrcs (o : AluR) (b c : Bool) : List Src :=
  [Src.s o.a o.fea] ++ (if b then [.s o.b o.feb] else []) ++ (if c then [.s o.c o.fec] else [])

/-- The byte offset of a CK operand, exact: sX as s64 plus OFF32 sign-extended (R129). -/
def State.offOf (s : State) (m : MemRef) : Int := (s.sc m.x).toInt + m.off.toInt

/-- The sources of a CK operand: the token with FE 0, the index under FEX (R129). -/
def memSrcs (m : MemRef) : List Src := [.k m.k false, .s m.x m.fex]

/-! ### V-words: elements, groups, guards -/

/-- The width in bytes of an element type (R19, R22). -/
def tyBytes (t : Nat) : Nat :=
  match t with
  | 0 | 4 => 1
  | 1 | 5 | 8 | 9 => 2
  | 2 | 6 | 10 => 4
  | _ => 8

/-- Element `e` of the run of registers at `first` (R20), as an unsigned number. -/
def elem (rd : Nat → VReg) (first w e : Nat) : Nat :=
  let per := 128 / w
  (rd (first + e / per)).toNat / 2 ^ (8 * w * (e % per)) % 2 ^ (8 * w)

/-- What writing elements `(e, value)` of width `w` to the run at `first` changes: per register its mask and its bits. -/
def elemWrites (first w : Nat) (els : List (Nat × Nat)) : List (Nat × VReg × VReg) :=
  let per := 128 / w
  ((els.map (fun p => p.1 / per)).eraseDups).map (fun r =>
    let mine := els.filter (fun p => p.1 / per == r)
    (first + r,
     BitVec.ofNat 1024 ((mine.map (fun p => (2 ^ (8 * w) - 1) * 2 ^ (8 * w * (p.1 % per)))).sum),
     BitVec.ofNat 1024 ((mine.map (fun p => p.2 % 2 ^ (8 * w) * 2 ^ (8 * w * (p.1 % per)))).sum)))

/-- Write whole registers from `first` on with elements of width `w`; what no element covers is zero. -/
def regWrites (first w nreg : Nat) (els : List (Nat × Nat)) : List (Nat × VReg × VReg) :=
  let per := 128 / w
  (List.range nreg).map (fun r =>
    (first + r, BitVec.allOnes 1024,
     BitVec.ofNat 1024 (((els.filter (fun p => p.1 / per == r)).map
       (fun p => p.2 % 2 ^ (8 * w) * 2 ^ (8 * w * (p.1 % per)))).sum)))

/-- The elements of a group of `rows` registers (R137). -/
def groupLen (rows w : Nat) : Nat := rows * 128 / w

/-- The count of a guard over `n` elements of width `w` (R138). -/
def guardCount (gc : Nat) (p : Pred) (n w : Nat) : Nat :=
  if gc = 0 then n else min n (p.count * 2 ^ p.width / w)

/-- The top of the mask stack; an empty stack reads as all ones (R140). -/
def Core.mt (x : Core) : BitVec 768 := x.r.masks.headD (BitVec.allOnes 768)

/-- Whether element `e` is selected (R139). -/
def selected (gm cnt : Nat) (mt : BitVec 768) (e : Nat) : Bool :=
  decide (e < cnt) && (if gm = 1 then mt.getLsbD e else if gm = 2 then !mt.getLsbD e else true)

/-- An element as its type reads it (R19): signed types 0 to 3. -/
def tyInt2 (t : Nat) (v : Nat) : Int :=
  let m := 2 ^ (8 * tyBytes t)
  if t < 4 ∧ m ≤ 2 * v then (v : Int) - m else v

/-- lowest(T) and highest(T) (R19). -/
def tyLow (t : Nat) : Int := if t < 4 then -(2 ^ (8 * tyBytes t - 1) : Nat) else 0
def tyHigh (t : Nat) : Int := if t < 4 then (2 ^ (8 * tyBytes t - 1) : Nat) - 1 else (2 ^ (8 * tyBytes t) : Nat) - 1

/-- `wrap` to a type's width, as bits (R21). -/
def tyWrap (t : Nat) (x : Int) : Nat := (x % (2 ^ (8 * tyBytes t) : Nat)).toNat

/-- `sat` to a type's range, as bits (R21). -/
def tySat (t : Nat) (x : Int) : Nat := tyWrap t (min (max x (tyLow t)) (tyHigh t))

/-- The run of registers from `first`, `n` of them. -/
def run (first n : Nat) : List Nat := (List.range n).map (first + ·)

/-- The registers that hold `n` elements of `w` bytes: ceil(n × w / 128). -/
def regsFor (n w : Nat) : Nat := (n * w + 127) / 128

end Sys2Proof.Machine
end

