-- ==== Sys2Proof/Machine/Flags.lean ====
section
/-! DEFINITION. Flags and status: the conditions of `br` and `cset` (R55, R118), the engine status they sample (R119), the
FPSR flags (R24), and the values control and status registers read (R17, R18, R98, R125, R211, R266, R274, R341). -/

namespace Sys2Proof.Machine

/-- CPYBUSY (R119): a copy command is queued or in progress, a held completion included. -/
def Core.cpyBusy (x : Core) : Bool := !x.e.copies.isEmpty

/-- CPYFAULT (R119, R247): a handle holds a fault record. -/
def Core.cpyFault (x : Core) : Bool := x.e.hnd.any (fun p => p.2.code != 0)

/-- MXBUSY (R119): a Marver command of core `c` has issued and not completed. -/
def State.mxBusy (s : State) (c : Nat) : Bool :=
  !(s.core c).e.mxq.isEmpty || (s.marver (s.cfg.marver c)).order.any (fun m => m.core == c)

/-- MXFAULT (R119, R180): a status scalar holds an unread fault. -/
def Core.mxFault (x : Core) : Bool := !x.e.mxfault.isEmpty

/-- The unmasking engine of a pane. -/
def State.umOf (s : State) (pane : Nat) : Um := Sparse.get {} s.um pane
/-- Write an unmasking engine. -/
def State.setUm (s : State) (pane : Nat) (u : Um) : State := { s with um := Sparse.set {} s.um pane u }

/-- UMBUSY (R119): an unmasking command of core `c` has issued and not completed. -/
def State.umBusy (s : State) (c : Nat) : Bool := (s.umOf (s.cfg.paneOf c)).order.any (fun m => m.core == c)

/-- A condition over two words and the issuing core's engine status (R55, R118). -/
def condHolds (s : State) (k : Cond) (a b : Word) : Bool :=
  match k with
  | .al => true
  | .eq => a == b
  | .ne => a != b
  | .ltS => decide (a.toInt < b.toInt)
  | .geS => decide (b.toInt ≤ a.toInt)
  | .ltN => decide (a.toNat < b.toNat)
  | .geN => decide (b.toNat ≤ a.toNat)
  | .cpybusy => s.me.cpyBusy
  | .cpydone => !s.me.cpyBusy && !s.me.cpyFault
  | .mxbusy => s.mxBusy s.cur
  | .mxdone => !s.mxBusy s.cur && !s.me.mxFault
  | .umbusy => s.umBusy s.cur
  | .umdone => !s.umBusy s.cur
  | .cpyfault => s.me.cpyFault
  | .mxfault => s.me.mxFault

/-! ### FPSR (R24) -/

def fNV : BitVec 6 := 1#6
def fDZ : BitVec 6 := 2#6
def fOF : BitVec 6 := 4#6
def fUF : BitVec 6 := 8#6
def fNX : BitVec 6 := 16#6
def fFI : BitVec 6 := 32#6

/-- FPSR flags are set by OR (R24, R28). -/
def Core.orFpsr (x : Core) (f : BitVec 6) : Core := { x with c := { x.c with fpsr := x.c.fpsr ||| f } }

/-! ### Control and status registers -/

/-- CTXID (R98). LDEPTH and TACT are the main context's in a handler context too (DESIGN CHOICE, notes/assumptions/65.md). -/
def Core.ctxid (x : Core) (ctx : Nat) : Word :=
  BitVec.ofNat 64 (x.q.ldepth * 2 ^ 35 + x.q.tact.toNat * 2 ^ 34 + x.q.priv.toNat * 2 ^ 33 + ctx * 2 ^ 30)

/-- What `csrr` of number `n` returns to the running context (R56, R131); fields named zero read zero. -/
def State.csrRead (s : State) (n : Nat) : Word :=
  let x := s.me
  let pane := s.cfg.paneOf s.cur
  if n = 0x000 then s.cfg.idWord s.cur
  else if n = 0x001 then s.cfg.cfgWord s.cur
  else if n = 0x002 then x.c.fpcr.zeroExtend 64
  else if n = 0x003 then x.c.fpsr.zeroExtend 64
  else if n = 0x004 then x.c.kstat
  else if n = 0x005 then x.c.tcause
  else if n = 0x006 then x.c.tpc
  else if n = 0x007 then x.c.tinfo
  else if n = 0x008 then BitVec.ofNat 64 x.c.tvec
  else if 0x010 ≤ n ∧ n ≤ 0x015 then (Sparse.get 0#12 x.c.lsd (n - 0x010)).zeroExtend 64
  else if 0x018 ≤ n ∧ n ≤ 0x01D then (Sparse.get 0#32 x.c.lso (n - 0x018)).zeroExtend 64
  else if n = 0x020 then BitVec.ofNat 64 x.c.rows
  else if n = 0x021 then x.c.stage
  else if n = 0x022 then BitVec.ofNat 64 x.c.prio
  else if n = 0x023 then x.ctxid s.ctx
  else if n = 0x024 then BitVec.ofNat 64 x.q.regions.length
  else if n = 0x030 then BitVec.ofNat 64 (Sparse.get 4096 s.d.gint pane)
  else if n = 0x031 then BitVec.ofNat 64 (Sparse.get 32 s.d.gthr pane)
  else if n = 0x032 then BitVec.ofNat 64 (Sparse.get 8 s.d.age pane)
  else if n = 0x033 then BitVec.ofNat 64 (s.marver (s.cfg.marver s.cur)).len
  else if 0x038 ≤ n ∧ n ≤ 0x03D then
    BitVec.ofNat 64 (if (x.q.loop (n - 0x038)).act then (x.q.loop (n - 0x038)).idx else 0)
  else 0#64

/-- Whether a `csrw` is privileged (R56, R99). -/
def csrPriv (n : Nat) : Bool := n == 0x008 || (decide (0x030 ≤ n) && decide (n ≤ 0x033))

/-- Whether a value breaks a register's range, which traps ILLEGAL with the number as DATA (R131, R177, R267, R274). -/
def csrBad (n : Nat) (v : Nat) : Bool :=
  if n = 0x020 then v % 8 == 0 || v % 8 == 7
  else if n = 0x030 then decide (v % 2 ^ 20 < 64)
  else if n = 0x031 then decide (v % 128 < 1) || decide (64 < v % 128)
  else if n = 0x032 then v % 256 == 0
  else if n = 0x033 then decide (v % 512 < 1) || decide (256 < v % 512)
  else false

/-- The bits of KSTAT, TCAUSE and TINFO that are not named zero (R103, R211). -/
def kstatFields (v : Word) : Word := v &&& 0xFFFFF017#64
def tcauseFields (v : Word) : Word := v &&& 0xFF#64
def tinfoFields (v : Word) : Word := v &&& 0xFC00FFFFFFFFFFFF#64

/-- What a `csrw` writes (R131): fields named zero ignore writes. -/
def State.csrWrite (s : State) (n : Nat) (v : Word) : State :=
  let pane := s.cfg.paneOf s.cur
  let c (f : Csrs → Csrs) : State := s.upd (fun x => { x with c := f x.c })
  if n = 0x002 then c (fun r => { r with fpcr := v.truncate 4 })
  else if n = 0x003 then c (fun r => { r with fpsr := v.truncate 6 })
  else if n = 0x004 then c (fun r => { r with kstat := kstatFields v })
  else if n = 0x005 then c (fun r => { r with tcause := tcauseFields v })
  else if n = 0x006 then c (fun r => { r with tpc := v })
  else if n = 0x007 then c (fun r => { r with tinfo := tinfoFields v })
  else if n = 0x008 then c (fun r => { r with tvec := v.toNat % 2 ^ 15 })
  else if 0x010 ≤ n ∧ n ≤ 0x015 then c (fun r => { r with lsd := Sparse.set 0#12 r.lsd (n - 0x010) (v.truncate 12) })
  else if 0x018 ≤ n ∧ n ≤ 0x01D then c (fun r => { r with lso := Sparse.set 0#32 r.lso (n - 0x018) (v.truncate 32) })
  else if n = 0x020 then c (fun r => { r with rows := v.toNat % 8 })
  else if n = 0x030 then { s with d := { s.d with gint := Sparse.set 4096 s.d.gint pane (v.toNat % 2 ^ 20) } }
  else if n = 0x031 then { s with d := { s.d with gthr := Sparse.set 32 s.d.gthr pane (v.toNat % 128) } }
  else if n = 0x032 then { s with d := { s.d with age := Sparse.set 8 s.d.age pane (v.toNat % 256) } }
  else if n = 0x033 then
    let mv := s.cfg.marver s.cur
    s.setMarver mv { s.marver mv with len := v.toNat % 512 }
  else s

end Sys2Proof.Machine
end

