-- ==== Sys2Proof/Machine/Float.lean ====
section
/-! DEFINITION. Floating-point arithmetic (R22 to R30, R36, R42, R152, R153): values are taken exactly, as a sign, a
natural number and a power of two, and rounded once. -/

namespace Sys2Proof.Machine

/-- A floating format: exponent bits and fraction bits (R22). -/
structure Fmt where
  eb : Nat
  fb : Nat
  deriving DecidableEq, Repr

def fmtH16 : Fmt := { eb := 5, fb := 10 }
def fmtB16 : Fmt := { eb := 8, fb := 7 }
def fmtF32 : Fmt := { eb := 8, fb := 23 }

/-- The format of a TY code (R22). -/
def fmtOf (t : Nat) : Fmt := if t = 8 then fmtH16 else if t = 9 then fmtB16 else fmtF32

/-- The bias. -/
def Fmt.bias (f : Fmt) : Nat := 2 ^ (f.eb - 1) - 1
/-- The exponent of the smallest normal. -/
def Fmt.emin (f : Fmt) : Int := 1 - (f.bias : Int)
/-- The bits of an infinity. -/
def Fmt.inf (f : Fmt) (neg : Bool) : Nat := neg.toNat * 2 ^ (f.eb + f.fb) + (2 ^ f.eb - 1) * 2 ^ f.fb
/-- The canonical NaN (R22, R27). -/
def Fmt.nan (f : Fmt) : Nat := (2 ^ f.eb - 1) * 2 ^ f.fb + 2 ^ (f.fb - 1)
/-- The largest finite magnitude with a sign. -/
def Fmt.top (f : Fmt) (neg : Bool) : Nat := f.inf neg - 1
/-- A signed zero. -/
def Fmt.zero (f : Fmt) (neg : Bool) : Nat := neg.toNat * 2 ^ (f.eb + f.fb)
/-- 1.0. -/
def Fmt.one (f : Fmt) : Nat := f.bias * 2 ^ f.fb

/-- A value: a NaN, an infinity, or (−1)^neg × m × 2^e exactly. -/
inductive FV where
  | nan (signalling : Bool)
  | inf (neg : Bool)
  | fin (neg : Bool) (m : Nat) (e : Int)
  deriving DecidableEq, Repr

/-- The value of a bit pattern (R22). -/
def Fmt.dec (f : Fmt) (b : Nat) : FV :=
  let neg := b / 2 ^ (f.eb + f.fb) % 2 == 1
  let ex := b / 2 ^ f.fb % 2 ^ f.eb
  let fr := b % 2 ^ f.fb
  if ex = 2 ^ f.eb - 1 then (if fr = 0 then .inf neg else .nan (fr / 2 ^ (f.fb - 1) == 0))
  else if ex = 0 then .fin neg fr (f.emin - f.fb)
  else .fin neg (2 ^ f.fb + fr) ((ex : Int) - f.bias - f.fb)

/-- Whether a bit pattern is a subnormal. -/
def Fmt.sub (f : Fmt) (b : Nat) : Bool := b / 2 ^ f.fb % 2 ^ f.eb == 0 && b % 2 ^ f.fb != 0

/-- Flush a subnormal source under FIZ (R26): the bits and the flags. -/
def Fmt.flush (f : Fmt) (fiz : Bool) (b : Nat) : Nat × BitVec 6 :=
  if fiz && f.sub b then (b / 2 ^ (f.eb + f.fb) * 2 ^ (f.eb + f.fb), fFI) else (b, 0#6)

/-- The bits in a number. -/
def bitLen (n : Nat) : Nat := if n = 0 then 0 else Nat.log2 n + 1

/-- Round m × 2^e (and a little more, if `sticky`) to a multiple of 2^q, as that multiple's count, under a mode: 0 nearest
even, 1 toward zero, 2 up, 3 down. The second answer is whether it was inexact. -/
def roundTo (rm : Nat) (neg : Bool) (m : Nat) (e q : Int) (sticky : Bool) : Nat × Bool :=
  if q ≤ e then
    let n := m * 2 ^ (e - q).toNat
    (if sticky ∧ ((rm = 2 ∧ neg = false) ∨ (rm = 3 ∧ neg = true)) then n + 1 else n, sticky)
  else
    let sh := (q - e).toNat
    let n := m / 2 ^ sh
    let r := m % 2 ^ sh
    let inexact := r ≠ 0 ∨ sticky
    let half := 2 ^ (sh - 1)
    let up := match rm with
      | 0 => decide (half < r) || (r == half && (sticky || n % 2 == 1))
      | 1 => false
      | 2 => decide inexact && !neg
      | _ => decide inexact && neg
    (if up then n + 1 else n, decide inexact)

/-- `round_float` of R26: bits and flags of m × 2^e (and a little more, if `sticky`) rounded to a format, under RM and
FOZ. -/
def Fmt.round (f : Fmt) (rm : Nat) (foz neg : Bool) (m : Nat) (e : Int) (sticky : Bool) : Nat × BitVec 6 :=
  if m = 0 then (f.zero neg, if sticky then fNX else 0#6)
  else
    let lead : Int := e + bitLen m - 1
    let free := roundTo rm neg m e (lead - f.fb) sticky
    let tiny := decide (lead < f.emin) && !(lead + 1 == f.emin && free.1 == 2 ^ (f.fb + 1))
    let q := max (lead - f.fb) (f.emin - f.fb)
    let r := roundTo rm neg m e q sticky
    if foz && tiny then (f.zero neg, fUF ||| fNX)
    else
      let nx := if r.2 then fNX else 0#6
      let uf := if tiny && r.2 then fUF else 0#6
      -- the count r.1 of quanta 2^q: a carry into the next binade is still exact in the encoding
      let ex : Nat := (q + f.fb - f.emin).toNat
      let bits := ex * 2 ^ f.fb + r.1
      if bits ≥ (2 ^ f.eb - 1) * 2 ^ f.fb then
        let big := rm = 0 ∨ (rm = 2 ∧ neg = false) ∨ (rm = 3 ∧ neg = true)
        (if big then f.inf neg else f.top neg, fOF ||| fNX)
      else (f.zero neg + bits, nx ||| uf)

/-- NV for a signalling NaN among the operands (R24, R27). -/
def sigFlag (l : List FV) : BitVec 6 := if l.any (fun v => v == .nan true) then fNV else 0#6

/-- A value rounded; a NaN becomes the canonical one. -/
def Fmt.ofFV (f : Fmt) (rm : Nat) (foz : Bool) : FV → Nat × BitVec 6
  | .nan _ => (f.nan, 0#6)
  | .inf n => (f.inf n, 0#6)
  | .fin n m e => f.round rm foz n m e false

/-- The exact sum of two finite values (R26): zero from opposite signs is +0, −0 under RM 3. -/
def addFin (rm : Nat) (n1 : Bool) (m1 : Nat) (e1 : Int) (n2 : Bool) (m2 : Nat) (e2 : Int) : Bool × Nat × Int :=
  let e := min e1 e2
  let a : Int := (if n1 then -1 else 1) * ((m1 * 2 ^ (e1 - e).toNat : Nat) : Int)
  let b : Int := (if n2 then -1 else 1) * ((m2 * 2 ^ (e2 - e).toNat : Nat) : Int)
  let s := a + b
  if s = 0 then (if m1 = 0 ∧ m2 = 0 ∧ n1 = n2 then n1 else rm == 3, 0, e)
  else (decide (s < 0), s.natAbs, e)

/-- a + b (R153). -/
def fAdd (f : Fmt) (rm : Nat) (foz : Bool) (x y : FV) : Nat × BitVec 6 :=
  match x, y with
  | .nan _, _ | _, .nan _ => (f.nan, sigFlag [x, y])
  | .inf a, .inf b => if a = b then (f.inf a, 0#6) else (f.nan, fNV)
  | .inf a, _ => (f.inf a, 0#6)
  | _, .inf b => (f.inf b, 0#6)
  | .fin n1 m1 e1, .fin n2 m2 e2 =>
    let r := addFin rm n1 m1 e1 n2 m2 e2
    f.round rm foz r.1 r.2.1 r.2.2 false

/-- A value with its sign flipped; a NaN stays. -/
def FV.neg : FV → FV
  | .nan s => .nan s
  | .inf n => .inf !n
  | .fin n m e => .fin (!n) m e

/-- Whether a value is zero. -/
def FV.isZero : FV → Bool
  | .fin _ 0 _ => true
  | _ => false

/-- The sign of a value. -/
def FV.sign : FV → Bool
  | .nan _ => false
  | .inf n => n
  | .fin n _ _ => n

/-- a × b (R153): 0 × ∞ is invalid. -/
def fMul (f : Fmt) (rm : Nat) (foz : Bool) (x y : FV) : Nat × BitVec 6 :=
  match x, y with
  | .nan _, _ | _, .nan _ => (f.nan, sigFlag [x, y])
  | .fin n1 m1 e1, .fin n2 m2 e2 => f.round rm foz (n1 != n2) (m1 * m2) (e1 + e2) false
  | a, b => if a.isZero || b.isZero then (f.nan, fNV) else (f.inf (a.sign != b.sign), 0#6)

/-- a × b + c rounded once (R153): 0 × ∞ is invalid even where c is a NaN. -/
def fFma (f : Fmt) (rm : Nat) (foz : Bool) (x y z : FV) : Nat × BitVec 6 :=
  let bad := match x, y with
    | .inf _, b => b.isZero
    | a, .inf _ => a.isZero
    | _, _ => false
  if bad then (f.nan, fNV)
  else match x, y, z with
    | .nan _, _, _ | _, .nan _, _ | _, _, .nan _ => (f.nan, sigFlag [x, y, z])
    | .fin n1 m1 e1, .fin n2 m2 e2, .fin n3 m3 e3 =>
      let r := addFin rm (n1 != n2) (m1 * m2) (e1 + e2) n3 m3 e3
      f.round rm foz r.1 r.2.1 r.2.2 false
    | .fin _ _ _, .fin _ _ _, .inf c => (f.inf c, 0#6)
    | a, b, c =>
      let s := a.sign != b.sign
      match c with
      | .inf t => if s = t then (f.inf s, 0#6) else (f.nan, fNV)
      | _ => (f.inf s, 0#6)

/-- a / b (R153). -/
def fDiv (f : Fmt) (rm : Nat) (foz : Bool) (x y : FV) : Nat × BitVec 6 :=
  let s := x.sign != y.sign
  match x, y with
  | .nan _, _ | _, .nan _ => (f.nan, sigFlag [x, y])
  | .inf _, .inf _ => (f.nan, fNV)
  | .inf _, _ => (f.inf s, 0#6)
  | _, .inf _ => (f.zero s, 0#6)
  | .fin _ m1 e1, .fin _ m2 e2 =>
    if m2 = 0 then (if m1 = 0 then (f.nan, fNV) else (f.inf s, fDZ))
    else
      let k := 64 + bitLen m2
      f.round rm foz s (m1 * 2 ^ k / m2) (e1 - e2 - k) (m1 * 2 ^ k % m2 != 0)

/-- The integer square root, bit by bit: `fuel` bits. -/
def isqrt : Nat → Nat → Nat → Nat
  | 0, _, r => r
  | b + 1, n, r => let t := r + 2 ^ b
                   isqrt b n (if t * t ≤ n then t else r)

/-- √a (R153). -/
def fSqrt (f : Fmt) (rm : Nat) (foz : Bool) (x : FV) : Nat × BitVec 6 :=
  match x with
  | .nan _ => (f.nan, sigFlag [x])
  | .inf n => if n then (f.nan, fNV) else (f.inf false, 0#6)
  | .fin n m e =>
    if m = 0 then (f.zero n, 0#6)
    else if n then (f.nan, fNV)
    else
      let k : Int := if e % 2 = 0 then 64 else 65
      let v := m * 2 ^ k.toNat
      let r := isqrt ((bitLen v + 1) / 2) v 0
      f.round rm foz false r ((e - k) / 2) (r * r != v)

/-- 1 / a (R153). -/
def fRcp (f : Fmt) (rm : Nat) (foz : Bool) (x : FV) : Nat × BitVec 6 := fDiv f rm foz (.fin false 1 0) x

/-- 1 / √a (R153): correctly rounded from ⌊√(2^k / m)⌋ and whether that is exact. -/
def fRsq (f : Fmt) (rm : Nat) (foz : Bool) (x : FV) : Nat × BitVec 6 :=
  match x with
  | .nan _ => (f.nan, sigFlag [x])
  | .inf n => if n then (f.nan, fNV) else (f.zero false, 0#6)
  | .fin n m e =>
    if m = 0 then (f.inf n, fDZ)
    else if n then (f.nan, fNV)
    else
      let m' := if e % 2 = 0 then m else 2 * m
      let e' := if e % 2 = 0 then e else e - 1
      let k := 160
      let v := 2 ^ k / m'
      let r := isqrt ((bitLen v + 1) / 2) v 0
      f.round rm foz false r (-(e' / 2) - 80) (r * r * m' != 2 ^ k)

/-- Fraction bits of the fixed-point work behind `vfexp2` and `vflog2` (UNVERIFIED that no result lies closer to a rounding
boundary, notes/assumptions/11.md). -/
def fixP : Nat := 384

/-- The terms of artanh z: z + z³/3 + z⁵/5 + …, `k` of them from power `p` (all fixed point). -/
def atanhSum : Nat → Nat → Nat → Nat → Nat
  | 0, _, _, _ => 0
  | k + 1, p, z2, d => p / d + atanhSum k (p * z2 / 2 ^ fixP) z2 (d + 2)

/-- artanh (num / den) in fixed point. -/
def atanhFix (num den : Nat) : Nat :=
  let z := num * 2 ^ fixP / den
  atanhSum 130 z (z * z / 2 ^ fixP) 1

/-- The natural logarithm of 2 in fixed point: 2 artanh (1/3). -/
def ln2Fix : Nat := 2 * atanhFix 1 3

/-- The terms of eˣ from term `t`, the `d`th. -/
def expSum : Nat → Nat → Nat → Nat → Nat
  | 0, _, _, _ => 0
  | k + 1, t, x, d => t + expSum k (t * x / 2 ^ fixP / d) x (d + 1)

/-- 2^a (R153): exact for an integer a, else from 2^⌊a⌋ × e^(frac × ln 2). -/
def fExp2 (f : Fmt) (rm : Nat) (foz : Bool) (x : FV) : Nat × BitVec 6 :=
  match x with
  | .nan _ => (f.nan, sigFlag [x])
  | .inf n => (if n then f.zero false else f.inf false, 0#6)
  | .fin n m e =>
    if m = 0 then (f.one, 0#6)
    else if 0 ≤ e ∧ 4096 ≤ m * 2 ^ (min e 64).toNat then f.round rm foz false 1 (if n then -4096 else 4096) false
    else
      -- a = ± m 2^e with |a| < 2^13 or so: floor and fraction over 2^d
      let d := (-e).toNat
      let a : Int := (if n then -1 else 1) * ((m * 2 ^ e.toNat : Nat) : Int)
      let fl := Int.fdiv a (2 ^ d : Nat)
      let fr := (Int.fmod a (2 ^ d : Nat)).toNat
      if 4096 ≤ fl then f.round rm foz false 1 4096 false
      else if fl < -4096 then f.round rm foz false 1 (-4096) false
      else if fr = 0 then f.round rm foz false 1 fl false
      else
        let y := fr * 2 ^ fixP / 2 ^ d * ln2Fix / 2 ^ fixP
        f.round rm foz false (expSum 110 (2 ^ fixP) y 1) (fl - fixP) true

/-- log₂ a (R153): exact for a power of two, else the exponent plus artanh of the reduced argument over artanh (1/3). -/
def fLog2 (f : Fmt) (rm : Nat) (foz : Bool) (x : FV) : Nat × BitVec 6 :=
  match x with
  | .nan _ => (f.nan, sigFlag [x])
  | .inf n => if n then (f.nan, fNV) else (f.inf false, 0#6)
  | .fin n m e =>
    if m = 0 then (f.inf true, fDZ)
    else if n then (f.nan, fNV)
    else
      let l := bitLen m - 1
      let ex : Int := e + l
      if m = 2 ^ l then f.round rm foz (decide (ex < 0)) ex.natAbs 0 false
      else
        let y := atanhFix (m - 2 ^ l) (m + 2 ^ l) * 2 ^ fixP / atanhFix 1 3
        let v : Int := ex * (2 ^ fixP : Nat) + y
        if 0 ≤ v then f.round rm foz false v.natAbs (-fixP) true
        else f.round rm foz true (v.natAbs - 1) (-fixP) true

/-- Whether x < y for values that are no NaN; −0 and +0 are equal. -/
def fLt (x y : FV) : Bool :=
  match x, y with
  | .inf a, .inf b => a && !b
  | .inf a, _ => a
  | _, .inf b => !b
  | .fin n1 m1 e1, .fin n2 m2 e2 =>
    let e := min e1 e2
    let a : Int := (if n1 then -1 else 1) * ((m1 * 2 ^ (e1 - e).toNat : Nat) : Int)
    let b : Int := (if n2 then -1 else 1) * ((m2 * 2 ^ (e2 - e).toNat : Nat) : Int)
    decide (a < b)
  | _, _ => false

/-- Whether two values that are no NaN are equal; −0 = +0. -/
def fEq (x y : FV) : Bool :=
  match x, y with
  | .nan _, _ | _, .nan _ => false
  | _, _ => !fLt x y && !fLt y x

/-- Whether a value is a NaN. -/
def FV.isNan : FV → Bool
  | .nan _ => true
  | _ => false

/-- `vfmin` (`gt` false) and `vfmax` (`gt` true) of R153, on bits and their values: −0 < +0, one NaN gives the other. -/
def fMinMax (f : Fmt) (gt : Bool) (a b : Nat) : Nat × BitVec 6 :=
  let x := f.dec a
  let y := f.dec b
  let fl := sigFlag [x, y]
  if x.isNan then (if y.isNan then f.nan else b, fl)
  else if y.isNan then (a, fl)
  else
    let less := fLt x y || (fEq x y && x.sign && !y.sign)
    (if less != gt then a else b, fl)

/-- fmax of R42 on binary32 bits: a NaN gives the canonical NaN, −0 is less than +0. -/
def fmaxR42 (a b : Nat) : Nat :=
  let x := fmtF32.dec a
  let y := fmtF32.dec b
  if x.isNan || y.isNan then fmtF32.nan
  else if fLt x y || (fEq x y && x.sign && !y.sign) then b else a

/-- `round_int` of R30: an exact value rounded to an integer, and whether it was inexact. -/
def roundInt (rm : Nat) (neg : Bool) (m : Nat) (e : Int) : Int × Bool :=
  let r := roundTo rm neg m e 0 false
  (if neg then -(r.1 : Int) else r.1, r.2)

/-- `cvt` of R30 on bits: S and T any of the eleven types. -/
def cvt (src dst rm : Nat) (fiz foz sat : Bool) (x : Nat) : Nat × BitVec 6 :=
  let narrow (y : Int) (float : Bool) (nx : BitVec 6) : Nat × BitVec 6 :=
    if y < tyLow dst ∨ tyHigh dst < y then
      (if float then (tySat dst y, fNV) else if sat then (tySat dst y, 0#6) else (tyWrap dst y, 0#6))
    else (tyWrap dst y, nx)
  if src < 8 then
    let v := tyInt2 src x
    if dst < 8 then narrow v false 0#6
    else (fmtOf dst).round rm foz (decide (v < 0)) v.natAbs 0 false
  else
    let fl := (fmtOf src).flush fiz x
    let v := (fmtOf src).dec fl.1
    if dst < 8 then
      match v with
      | .nan _ => (0, fl.2 ||| fNV)
      | .inf n => (tyWrap dst (if n then tyLow dst else tyHigh dst), fl.2 ||| fNV)
      | .fin n m e =>
        let r := roundInt rm n m e
        let o := narrow r.1 true (if r.2 then fNX else 0#6)
        (o.1, fl.2 ||| o.2)
    else
      match v with
      | .nan sg => ((fmtOf dst).nan, fl.2 ||| (if sg then fNV else 0#6))
      | v => let o := (fmtOf dst).ofFV rm foz v
             (o.1, fl.2 ||| o.2)

end Sys2Proof.Machine
end

