-- ==== Sys2Proof/Machine/Block.lean ====
section
/-! DEFINITION. Self-describing blocks (R31 to R36, R41): headers, elements, quantisation, and the exact span sums the
Marver rounds once (R37 to R40). A block is a 512-bit number, byte 0 lowest. -/

namespace Sys2Proof.Machine

/-- What a block's header says (R31 to R34). -/
inductive BHead where
  | illegal
  | poison
  | zero (n : Nat)
  | ok (fmt : Nat) (s : Int)
  deriving DecidableEq, Repr

/-- The elements of a format (R32). -/
def fmtLen (f : Nat) : Nat := if f = 1 then 124 else if f = 2 then 62 else 31

/-- A signed byte. -/
def s8Of (v : Nat) : Int := if 128 ≤ v % 256 then (v % 256 : Nat) - 256 else (v % 256 : Nat)

/-- The header of a block. -/
def blkHead (b : Nat) : BHead :=
  let f := fld b 0 8
  let sc := fld b 8 8
  if f = 0xFF then .poison
  else if f = 0 then
    (if sc = 0 then .zero 31 else if sc = 1 then .zero 62 else if sc = 2 then .zero 124 else .illegal)
  else if f ≤ 4 then .ok f (s8Of sc)
  else .illegal

/-- Byte `j` of a block's payload. -/
def payload (b j : Nat) : Nat := fld b (16 + 8 * j) 8

/-- The bit of the block at which element `j` begins, and the bits it has. -/
def elemBits (f j : Nat) : Nat × Nat :=
  if f = 1 then (16 + 4 * j, 4) else if f = 2 then (16 + 8 * j, 8) else (16 + 16 * j, 16)

/-- The unscaled value of element `j` of a block of format `f` (R32); `cb` is the codebook as b16 patterns. -/
def blkElem (b f : Nat) (cb : Nat → Nat) (j : Nat) : FV :=
  let p := elemBits f j
  let v := fld b p.1 p.2
  if f = 1 then fmtB16.dec (cb v)
  else if f = 2 then .fin (decide (128 ≤ v)) (s8Of v).natAbs 0
  else if f = 3 then fmtB16.dec v
  else fmtH16.dec v

/-- A finite value times 2^s. -/
def FV.scale (s : Int) : FV → FV
  | .fin n m e => .fin n m (e + s)
  | v => v

/-- The magnitude of a value. -/
def FV.abs : FV → FV
  | .nan g => .nan g
  | .inf _ => .inf false
  | .fin _ m e => .fin false m e

/-- The larger of two magnitudes; a NaN stays a NaN (R41, R158). -/
def FV.maxAbs (x y : FV) : FV :=
  if x.isNan then x else if y.isNan then y else if fLt x.abs y.abs then y.abs else x.abs

/-- The largest magnitude of a block's elements (R41). -/
def blkAmax (b : Nat) (cb : Nat → Nat) : FV :=
  match blkHead b with
  | .ok f s => ((List.range (fmtLen f)).foldl (fun (a : FV) j => a.maxAbs (blkElem b f cb j)) (FV.fin false 0 0)).scale s
  | _ => .fin false 0 0

/-- Whether a codebook entry is legal (R35): zero, or a normal with an exponent from −16 to 15. -/
def cbOk (v : Nat) : Bool :=
  v % 2 ^ 15 == 0 || (decide (111 ≤ v / 128 % 256) && decide (v / 128 % 256 ≤ 142))

/-! ### Quantisation (R36, R156) -/

/-- Whether m₁ × 2^e₁ ≥ m₂ × 2^e₂. -/
def geMag (m1 : Nat) (e1 : Int) (m2 : Nat) (e2 : Int) : Bool :=
  let e := min e1 e2
  decide (m2 * 2 ^ (e2 - e).toNat ≤ m1 * 2 ^ (e1 - e).toNat)

/-- The smallest integer s with top × 2^s ≥ a, clamped to −128 to 127 (R156). -/
def autoScale (top a : FV) : Int :=
  match top, a with
  | .fin _ mt et, .fin _ ma ea =>
    if ma = 0 ∨ mt = 0 then 0
    else
      let s0 : Int := bitLen ma + ea - bitLen mt - et
      let s := if geMag mt (et + s0) ma ea then s0 else s0 + 1
      max (-128) (min 127 s)
  | .fin _ mt _, .inf _ => if mt = 0 then 0 else 127
  | _, _ => 0

/-- top(F) of R156: 127, the largest b16 and h16, or the largest finite magnitude of the codebook. -/
def packTop (f : Nat) (cb : Nat → Nat) : FV :=
  if f = 2 then .fin false 127 0
  else if f = 3 then fmtB16.dec 0x7F7F
  else if f = 4 then fmtH16.dec 0x7BFF
  else ((List.range 16).map (fun c => fmtB16.dec (cb c))).foldl
    (fun (a v : FV) => match v with | .fin _ _ _ => a.maxAbs v | _ => a) (FV.fin false 0 0)

/-- The distance of two values as a multiple of 2^E, with E at or below both exponents; none where it is not finite. Two equal
infinities are at distance 0 (notes/assumptions/17.md). -/
def dist (E : Int) (x y : FV) : Option Nat :=
  match x, y with
  | .fin n m e, .fin n' m' e' =>
    let a : Int := (if n then -1 else 1) * ((m * 2 ^ (e - E).toNat : Nat) : Int)
    let b : Int := (if n' then -1 else 1) * ((m' * 2 ^ (e' - E).toNat : Nat) : Int)
    some (a - b).natAbs
  | .inf a, .inf b => if a = b then some 0 else none
  | _, _ => none

/-- `k4_code` of R36: the nearest entry that is no NaN, ties to the lower code, and whether it is exact; `open_` stands where
every entry is a NaN. -/
def k4Code (x : FV) (cb : Nat → Nat) (open_ : Nat) : Nat × BitVec 6 :=
  if x.isNan then (0, fNV)
  else
    let E : Int := match x with | .fin _ _ e => min e (-133) | _ => -133
    let cands := (List.range 16).filter (fun c => !(fmtB16.dec (cb c)).isNan)
    match cands with
    | [] => (open_ % 16, if open_ / 16 % 2 = 1 then fNX else 0#6)
    | c0 :: rest =>
      let best := rest.foldl (fun (b : Nat × Option Nat) c =>
        match dist E x (fmtB16.dec (cb c)), b.2 with
        | some d, some d0 => if d < d0 then (c, some d) else b
        | some d, none => (c, some d)
        | none, _ => b) (c0, dist E x (fmtB16.dec (cb c0)))
      (best.1, if best.2 = some 0 then 0#6 else fNX)

/-- `q8_code` of R36. One that saturates sets NV and not NX as well (DESIGN CHOICE, notes/assumptions/76.md). -/
def q8Code (rm : Nat) (x : FV) : Nat × BitVec 6 :=
  match x with
  | .nan _ => (0, fNV)
  | .inf n => (if n then 128 else 127, fNV)
  | .fin n m e =>
    let r := roundInt rm n m e
    if r.1 < -128 ∨ 127 < r.1 then (if n then 128 else 127, fNV)
    else ((r.1 % 256).toNat, if r.2 then fNX else 0#6)

/-- `b16_elem` and `h16_elem` of R36. -/
def fltElem (f : Fmt) (rm : Nat) (foz : Bool) (x : FV) : Nat × BitVec 6 :=
  match x with
  | .nan sg => (f.nan, if sg then fNV else 0#6)
  | v => f.ofFV rm foz v

/-- The code of input `x` against scale `s`, and whether its value is zero. -/
def packCode (f rm : Nat) (foz : Bool) (cb : Nat → Nat) (open_ : Nat) (s : Int) (x : FV) : Nat × BitVec 6 × Bool :=
  let y := x.scale (-s)
  if f = 1 then let r := k4Code y cb open_
                (r.1, r.2, (fmtB16.dec (cb r.1)).isZero)
  else if f = 2 then let r := q8Code rm y
                     (r.1, r.2, r.1 == 0)
  else
    let r := fltElem (if f = 3 then fmtB16 else fmtH16) rm foz y
    (r.1, r.2, r.1 % 2 ^ 15 == 0)

/-- A block packed from its inputs (R156): `open_` fills what the manual leaves open, the payload of a ZERO block. -/
def packBlock (f rm : Nat) (foz : Bool) (cb : Nat → Nat) (auto : Bool) (imm : Int) (xs : List FV) (k4open : Nat)
    (zopen : Nat) : Nat × BitVec 6 :=
  let a := xs.foldl (fun (a x : FV) => if x.isNan then a else a.maxAbs x) (FV.fin false 0 0)
  let s := if auto then autoScale (packTop f cb) a else imm
  let cs := xs.map (packCode f rm foz cb k4open s)
  let fl := cs.foldl (fun fl c => fl ||| c.2.1) 0#6
  let n := fmtLen f
  if cs.all (fun c => c.2.2) then
    ((if n = 31 then 0 else if n = 62 then 1 else 2) * 256 + zopen % 2 ^ 496 * 2 ^ 16, fl)
  else
    (f + (s % 256).toNat * 256 + ((cs.zip (List.range n)).map (fun p => p.1.1 * 2 ^ (elemBits f p.2).1)).sum, fl)

/-! ### Dot products (R37 to R40) -/

/-- The elements of a block, 0 where it holds none worth using. -/
def blkN (b : Nat) : Nat :=
  match blkHead b with
  | .zero n => n
  | .ok f _ => fmtLen f
  | _ => 0

/-- The scale of a block; a ZERO block has none. -/
def blkS (b : Nat) : Int :=
  match blkHead b with
  | .ok _ s => s
  | _ => 0

/-- Element `j` of a block, unscaled. -/
def blkAt (b : Nat) (cb : Nat → Nat) (j : Nat) : FV :=
  match blkHead b with
  | .ok f _ => blkElem b f cb j
  | _ => .fin false 0 0

/-- A partial sum of products: the exact finite part as a multiple of 2^(−266), and what special terms arose. -/
structure Span where
  sum : Int := 0
  pinf : Bool := false
  ninf : Bool := false
  nan : Bool := false
  deriving DecidableEq, Repr

/-- Add one product to a span (R38, R40). -/
def spanAdd (p : Span) (x y : FV) : Span :=
  match x, y with
  | .fin n m e, .fin n' m' e' =>
    { p with sum := p.sum + (if n = n' then 1 else -1) * ((m * m' * 2 ^ (e + e' + 266).toNat : Nat) : Int) }
  | .nan _, _ | _, .nan _ => { p with nan := true }
  | a, b =>
    if a.isZero || b.isZero then { p with nan := true }
    else if a.sign = b.sign then { p with pinf := true } else { p with ninf := true }

/-- c_σ of R38 and R40: rounded to nearest even, subnormals kept; an exact zero is +0. -/
def spanRound (p : Span) (s : Int) : Nat :=
  if p.nan || (p.pinf && p.ninf) then fmtF32.nan
  else if p.pinf then fmtF32.inf false
  else if p.ninf then fmtF32.inf true
  else (fmtF32.round 0 false (decide (p.sum < 0)) p.sum.natAbs (s - 266) false).1

/-- One span of a row block and a column block: `cnt` elements from `oa` and `ob` on. -/
def spanVal (ba bb : Nat) (cba cbb : Nat → Nat) (oa ob cnt : Nat) : Nat :=
  spanRound ((List.range cnt).foldl (fun p j => spanAdd p (blkAt ba cba (oa + j)) (blkAt bb cbb (ob + j))) {})
    (blkS ba + blkS bb)

/-- z + c rounded to nearest even, subnormals kept (R39). -/
def accAdd (z c : Nat) : Nat := (fAdd fmtF32 0 false (fmtF32.dec z) (fmtF32.dec c)).1

end Sys2Proof.Machine
end

