-- ==== Sys2Proof/Machine/Wait.lean ====
section
/-! DEFINITION. Words that hold their context until work issued before them is done (R102, R128, R133, R312, R342): what
counts as outstanding, and the one way such a word starts, waits and goes on. -/

namespace Sys2Proof.Machine

/-- Change a core's engines. -/
def Core.eng (x : Core) (f : Eng → Eng) : Core := { x with e := f x.e }

/-- Whether no access with an issue number in [`lo`, `hi`) is outstanding. -/
def Core.accDone (x : Core) (lo hi : Nat) : Bool := x.acc.all (fun a => decide (a.id < lo) || decide (hi ≤ a.id))

/-- Whether every access issued before `n` has passed its token check (R133). -/
def Core.accChecked (x : Core) (n : Nat) : Bool := x.acc.all (fun a => a.chk != 0 || decide (n ≤ a.id))

/-- Whether every V-word of queue `q` with an issue number in [`lo`, `hi`) has completed (R128). -/
def Core.vDone (x : Core) (q lo hi : Nat) : Bool :=
  let out (id : Nat) : Bool := decide (lo ≤ id) && decide (id < hi)
  !(x.v.queue q).any (fun e => out e.cap.id) && !x.v.fl.any (fun f => f.q == q && out f.id) &&
    (q != 2 || !x.acc.any (fun a => a.op == .vstore && out a.id))

/-- Whether every V-word of queue `q` issued before `n` has made its token check: it has left its queue. -/
def Core.vChecked (x : Core) (q n : Nat) : Bool := !(x.v.queue q).any (fun e => decide (e.cap.id < n))

/-- Whether the copy, Marver and unmasking commands a core issued in [`lo`, `hi`) have completed. -/
def State.engDone (s : State) (c lo hi : Nat) : Bool :=
  let out (id : Nat) : Bool := decide (lo ≤ id) && decide (id < hi)
  let x := s.core c
  !x.e.copies.any (fun k => out k.id) && !x.e.mxq.any (fun k => out k.id) &&
    !(s.marver (s.cfg.marver c)).order.any (fun k => k.core == c && out k.id) &&
    !(s.umOf (s.cfg.paneOf c)).order.any (fun k => k.core == c && out k.id)

/-- Whether the three queues are empty and nothing of them is in flight. -/
def Core.vIdle (x : Core) : Bool := x.v.ql.isEmpty && x.v.qa.isEmpty && x.v.qs.isEmpty && x.v.fl.isEmpty

/-- A stop request (R105): an IDLE or FAULTED context drops it, a second one merges. -/
def Core.requestStop (x : Core) : Core :=
  if x.q.st = .idle ∨ x.q.st = .faulted then x else x.seq (fun q => { q with stop := true })

/-- The context holds for what was issued before now. -/
def State.holds (s : State) (k : HoldK) : State :=
  s.upd (fun x => (x.seq (fun q =>
    { ((q.leave s.ctx).setHold s.ctx { k := k, since := q.nid }) with
      pointAt := if k.waitsAtPoint then s.now else q.pointAt })).tickId)

/-- What the running context waits for. -/
def State.hold (s : State) : Hold := s.me.q.holdOf s.ctx

/-- A word that drains: at its issue its sources are read and `start` runs; it goes on by `fin` once `ready` holds of its
issue number, on that turn or a later one. -/
def drainWord (i : Instr) (s : State) (l : List Src) (k : HoldK) (ready : State → Nat → Bool) (fin : State → Out) : Out :=
  if s.hold.k = k ∧ k ≠ .free then
    if ready s s.hold.since then fin s else stall s
  else
    issue i s l (fun s =>
      let t := s.holds k
      if ready t t.hold.since then fin t else .next t)

end Sys2Proof.Machine
end

