-- ==== Sys2Proof/Machine/Control.lean ====
section
/-! DEFINITION. The control-stream instructions that neither compute nor touch memory (R117 to R125, R134, R135):
constants, conditions, transfers, loops, count predicates and the shape. -/

namespace Sys2Proof.Machine

/-- R117: `lim` writes P64. -/
def execLim (d : Nat) (v : Word) (s : State) : Out := issue (.lim d v) s [] (fun s => .next (s.ret d 2 v))

/-- The compared registers (R55). -/
def CmpSrcs (f : CmpF) : List Src := if f.cond.compares then [.s f.a f.fea, .s f.b f.feb] else []

/-- What the running context observes by finding an engine condition true (R119): what the engine wrote for every command of its core
so far. -/
def State.sampled (s : State) (k : Cond) : State :=
  match k with
  | .cpydone => s.observe s.cur s.ctx 0 s.id
  | .mxdone => s.observe s.cur s.ctx 1 s.id
  | .umdone => s.observe s.cur s.ctx 2 s.id
  | _ => s

/-- R118: `cset` writes 1 or 0. -/
def execCset (d : Nat) (f : CmpF) (s : State) : Out :=
  issue (.cset d f) s (CmpSrcs f) (fun s =>
    if condHolds s f.cond (s.sc f.a) (s.sc f.b) then .next ((s.sampled f.cond).ret d 1 1#64) else .next (s.ret d 1 0#64))

/-- A taken transfer (R120): the target is exact; outside the loaded control section it traps CODEFETCH. -/
def transfer (s : State) (target : Int) (extra : Core → Core) : Out :=
  if 0 ≤ target ∧ target < (s.me.code.ctlLen : Int) then .next (s.upd (fun x => (extra x).goto s.ctx target.toNat))
  else trap s 7 (target % 2 ^ 32).toNat

/-- The C-word index of the word that runs (P of R118, R121). -/
def State.pc (s : State) : Nat := s.me.q.pcOf s.ctx

/-- R118: `br`. An untaken branch checks nothing. -/
def execBr (f : CmpF) (disp : BitVec 39) (s : State) : Out :=
  issue (.br f disp) s (CmpSrcs f) (fun s =>
    if condHolds s f.cond (s.sc f.a) (s.sc f.b) then transfer (s.sampled f.cond) (s.pc + disp.toInt) id
    else .next (s.done 1))

/-- R121: `jmp`. -/
def execJmp (disp : BitVec 37) (s : State) : Out :=
  issue (.jmp disp) s [] (fun s => transfer s (s.pc + disp.toInt) id)

/-- R121: `call` writes P + 1 to s62; with TACT = 1 it traps ILLEGAL (R104). -/
def execCall (disp : BitVec 37) (s : State) : Out :=
  issue (.call disp) s [] (fun s =>
    if s.me.q.tact then illegal (.call disp) s
    else transfer s (s.pc + disp.toInt) (fun x => x.wrS s.ctx 62 (BitVec.ofNat 64 (s.pc + 1))))

/-- R121: `ret` goes to sA[14:0]; with TACT = 1 it returns from the trap (R104). -/
def execRet (a : Nat) (fea : Bool) (s : State) : Out :=
  issue (.ret a fea) s [.s a fea] (fun s =>
    transfer s ((s.sc a).toNat % 2 ^ 15 : Nat) (fun x =>
      if s.ctx = 0 ∧ x.q.tact then x.trapReturn ((s.sc a).toNat % 2 ^ 15) else x))

/-- R121: `brx` goes to sA + IMM37, sA read as s64. -/
def execBrx (a : Nat) (fea : Bool) (imm : BitVec 37) (s : State) : Out :=
  issue (.brx a fea imm) s [.s a fea] (fun s => transfer s ((s.sc a).toInt + imm.toInt) id)

/-- The checks of R122 steps 2 and 3: level `n` and those below it are inactive, and no active level above `n` ends before
`last`. -/
def Seq.mayOpen (q : Seq) (n last : Nat) : Bool :=
  (List.range (n + 1)).all (fun l => !(q.loop l).act) &&
    ((List.range 6).filter (fun l => n < l)).all (fun l => !(q.loop l).act || decide (last ≤ (q.loop l).last))

/-- R122: `loop`. -/
def execLoop (f : LoopF) (s : State) : Out :=
  issue (.loop f) s (if f.ti then [] else [.s f.t false]) (fun s =>
    let last := s.pc + f.body
    let trip := if f.ti then f.trip else (s.sc f.t).toNat
    if s.me.q.tact ∨ s.me.q.mayOpen f.lvl last = false then illegal (.loop f) s
    else if 2 ^ 32 ≤ trip then trap s 4 (trip / 2 ^ 32)
    else if trip = 0 then
      .next (s.upd (fun x => x.tickId.seq (fun q => Seq.fall 6 0 { q with point := 0 } last)))
    else
      .next (s.upd (fun x => x.tickId.seq (fun q =>
        { q.setLoop f.lvl { act := true, idx := 0, trip := trip, first := s.pc + 1, last := last } with
          pc := s.pc + 1, point := 0 }))))

/-- R124: `lbrk` closes level `lvl` and those below it, and goes on after its last word. Under TACT = 1 it is (DEDUCED,
notes/assumptions/35.md). -/
def execLbrk (lvl : Nat) (s : State) : Out :=
  issue (.lbrk lvl) s [] (fun s =>
    if (s.me.q.loop lvl).act then
      .next (s.upd (fun x => x.tickId.seq (fun q =>
        { q.closeTo lvl with pc := (q.loop lvl).last + 1, point := 0 })))
    else illegal (.lbrk lvl) s)

/-- R134: `pset` sets a count predicate to min(sA + addend, 768); p0 ignores it (R6). -/
def execPset (d a : Nat) (fea : Bool) (wc add : Nat) (s : State) : Out :=
  issue (.pset d a fea wc add) s [.s a fea] (fun s =>
    let v : Pred := { count := min ((s.sc a).toNat + add) 768, width := wc }
    .next ((if d = 0 then s
      else s.upd (fun x => { x with r := { x.r with p := Sparse.set {} x.r.p d v, bad := Sparse.set 0 x.r.bad (pGran d) 0 } })).done 1))

/-- R135: `shape` sets VSHAPE. -/
def execShape (rows : Nat) (s : State) : Out :=
  issue (.shape rows) s [] (fun s => .next ((s.upd (fun x => { x with c := { x.c with rows := rows } })).done 1))

end Sys2Proof.Machine
end

