-- ==== Sys2Proof/Machine/Access.lean ====
section
/-! DEFINITION. The life of one access (R129, R209, R297 to R309, R314 to R316): it issues and is checked, waits for what is
ordered before it, and performs at a stash or at its home slice. -/

namespace Sys2Proof.Machine

/-! ### Order -/

/-- Whether an access writes memory as a plain store does: it may stay in flight behind a core-scope release (R306). -/
def Acc.plainStore (a : Acc) : Bool := (a.op == .store || a.op == .vstore) && !a.rel

/-- Whether a release's work is deferred (R309). -/
def Acc.deferred (a : Acc) : Bool := a.op == .sigAdd || a.op == .sigSet || a.op == .futPut

/-- Whether an access is a load. -/
def AOp.isLoad : AOp → Bool
  | .load _ => true
  | _ => false

/-- Whether two accesses share a byte; an access that still waits for its check may. -/
def Acc.shares (a b : Acc) : Bool := a.chk == 0 || b.chk == 0 || a.pas.any (fun p => b.pas.contains p)

/-- Whether a load is performed at the home slice, with no copy of its core's (R218, R300, R309). -/
def Core.atHome (x : Core) (a : Acc) : Bool :=
  a.acq || a.op == .sigRead || a.tok.kind == 0 || x.bypasses a.tok.entry ((a.tok.base * 64 : Nat) + a.off).toNat a.w a.id

/-- Whether the earlier access `a` of a context must perform before its later one `b` (R130, R144, R297 to R304): into a release,
out of an acquire, between strong accesses and between accesses that share a byte, where a load that is not performed at its home
(`home`) may take its own context's earlier store instead. Accesses of unordered kind have no such edge (R301) but between
overlapping V-words (R144), and a V-word's store orders no later C-word (R297). -/
def Acc.before (a b : Acc) (home : Bool) : Bool :=
  let vc := a.op == .vstore && b.op != .vstore
  let forwards := a.op == .store && a.chk != 0 && a.tok.kind == 1 && b.tok.kind == 1 && b.op.isLoad && !home
  (a.op == .vstore && b.op == .vstore && a.shares b) ||
  (a.tok.kind != 2 && b.tok.kind != 2 && !vc &&
    ((b.rel && !a.plainStore) || a.acq || (a.tok.kind == 0 && b.tok.kind == 0) || (a.shares b && !forwards)))

/-- Whether an access may perform: nothing earlier of its context must come first, and where it does a release's work at a scope
wider than core (`work`) no store of its core issued earlier is in flight (R306). -/
def Core.mayPerform (x : Core) (b : Acc) (work : Bool) : Bool :=
  x.acc.all (fun a => decide (b.id ≤ a.id) ||
    (!(work && a.plainStore) && !(a.ctx == b.ctx && a.before b (x.atHome b))))

/-- A core-scope release at number `n` leaves its core's earlier stores in flight (R306): they are marked. -/
def Core.overtake (x : Core) (n : Nat) : Core :=
  { x with acc := x.acc.map (fun a => if a.plainStore ∧ a.id < n then { a with overtaken := true } else a) }

/-- Whether an acquire of a context may return: no store of another context of its core is in flight behind a release that the acquire
may read (R304, R306). What this waits for is (DEDUCED, notes/assumptions/70.md). -/
def Core.noneOvertaken (x : Core) (ctx : Nat) : Bool := x.acc.all (fun a => !a.overtaken || a.ctx == ctx)

/-! ### Issue and check -/

/-- The rights an access is checked for (R129, R288, R315). -/
def AOp.need : AOp → BitVec 4
  | .load _ | .sigRead => rR
  | .store | .vstore => rW
  | .amo _ | .sigAdd | .sigSet | .futPut | .futClr | .join => rW ||| rA
  | .futWait => rR ||| rA

/-- Whether an access fills a register. -/
def AOp.fills : AOp → Bool
  | .load _ | .sigRead | .amo _ => true
  | _ => false

/-- Check an access that has not been checked, or that waited on a DRAINING entry (R209, R210). -/
def State.checkAcc (s : State) (c : Nat) (a : Acc) : State × Acc :=
  match s.check a.tok a.off a.w a.op.need with
  | .wait => (s, a)
  | .fail b e => (s.mod c (fun x => x.kset b e), { a with chk := 2, pas := [] })
  | .pass t pas => (s.mod c (fun x => x.cacheTok t.entry), { a with chk := 1, tok := t, pas := pas })

/-- An access issues: it is checked, takes its number among a redundant core's writes, and is outstanding from now on unless
it has failed and fills no register. -/
def State.begin (s : State) (a : Acc) : State :=
  let p := s.checkAcc s.cur { a with id := s.id, ctx := s.ctx, pc := s.pc, depth := s.me.q.regions.length, seq := s.me.q.wseq
                                     floor := (s.hbOf s.cur s.ctx).seen, clk := s.now }
  p.1.upd (fun x =>
    let y := if a.op.fills then x.markS s.ctx a.d p.2.id else x
    let z := match a.op with
      | .load _ | .sigRead => y
      | _ => y.numbered
    if p.2.chk = 2 ∧ a.op.fills = false then z else { z with acc := z.acc ++ [p.2] })

/-- An access as its instruction gives it. -/
def mkAcc (op : AOp) (d w : Nat) (tok : Token) (off : Int) (a b : Word) (o : Ordr) : Acc :=
  { id := 0, ctx := 0, op := op, d := d, w := w, tok := tok, off := off, a := a, b := b, acq := o.acq, rel := o.rel,
    scope := o.scope, chk := 0, pas := [], data := [], pc := 0, depth := 0, seq := 0 }

/-- Core `c`'s outstanding access `id`. -/
def Core.findAcc (x : Core) (id : Nat) : Option Acc := x.acc.find? (fun a => a.id == id)

/-- Access `id` is no longer outstanding. -/
def Core.dropAcc (x : Core) (id : Nat) : Core := { x with acc := x.acc.filter (fun a => a.id != id) }

/-- An access changes. -/
def Core.putAcc (x : Core) (a : Acc) : Core := { x with acc := x.acc.map (fun b => if b.id = a.id then a else b) }

/-- The bytes an access performs at once: all of an aligned one, one of an unaligned one, whose bytes perform in ascending order
(R129). -/
def Acc.chunk (a : Acc) : Nat := if a.pas.length = a.w ∧ a.pas.headD 0 % a.w = 0 then a.w else 1

/-- The lines of an access. -/
def linesOf (pas : List Nat) : List Nat := (pas.map (· / 64)).eraseDups

/-- Whether the acknowledgements and records a release waits for are there (R306, R307). -/
def State.relReady (s : State) (c : Nat) (a : Acc) : Bool :=
  !a.rel || s.releaseReady c a.id (a.pas.headD 0 / 64) a.scope a.deferred

/-- Whether an access does a release's work at a scope wider than core (R306, R307). -/
def State.works (s : State) (c : Nat) (a : Acc) : Bool :=
  a.rel && decide (1 ≤ s.workScope c (a.pas.headD 0 / 64) a.scope a.deferred)

/-- Whether the forced publishes an acquire waits for are done (R308), and the stores of its core that a release has overtaken. -/
def State.acqReady (s : State) (c : Nat) (a : Acc) : Bool :=
  !a.acq || (s.acquireReady c a.scope a.pas && (s.core c).noneOvertaken a.ctx)

/-- The work of a release of core `c` at number `n`, or at core scope the marks of what it leaves in flight (R306). -/
def State.releaseAt (s : State) (c n ln scope : Nat) (deferred : Bool) : State :=
  let t := s.release c n ln scope deferred
  if s.workScope c ln scope deferred = 0 then t.mod c (fun x => x.overtake n) else t

/-- The work of an access's release, before the access itself (R306). -/
def State.relWork (s : State) (c : Nat) (a : Acc) : State :=
  if a.rel then s.releaseAt c a.id (a.pas.headD 0 / 64) a.scope a.deferred else s

/-- Whether a request is a pop by a program. -/
def QReq.isPop (r : QReq) : Bool :=
  match r.op with
  | .pop _ _ | .tryPop _ _ _ => true
  | _ => false

/-- Whether a pop that core `c`'s context issued before `n` has not delivered: its delivery is an acquire (R229,
notes/assumptions/20.md). -/
def State.popPending (s : State) (c ctx n : Nat) : Bool :=
  (s.core c).deliv.any (fun d => d.ctx == ctx && !d.push && decide (d.id < n)) ||
    s.queues.any (fun p => (p.2.pops ++ p.2.arrive).any (fun r => r.core == c && r.ctx == ctx && r.isPop && decide (r.id < n)))

/-- The host link that an access to the host window travels over (R319): PA[12] names it when both are up, else the surviving one. -/
def State.hostLink (s : State) (pa : Nat) : Option Nat :=
  let up (l : Nat) : Bool := Sparse.get 0 s.io.link l != 0
  let l := pa / 4096 % 2
  if up l then some l else if up (1 - l) then some (1 - l) else none

/-- Whether bytes of the host window have a link to travel over (R319). -/
def State.linked (s : State) (pas : List Nat) : Bool := pas.all (fun p => s.cfg.tier p != .host || (s.hostLink p).isSome)

/-- Take an access that may perform: re-checked where it waited, and nothing ordered before it outstanding. -/
inductive Ready where
  /-- not yet -/
  | no (s : State)
  /-- its check failed -/
  | failed (s : State) (a : Acc)
  | yes (s : State) (a : Acc)

/-- What stands in the way of core `c`'s access `id`. -/
def State.ready (s : State) (c id : Nat) (p : AOp → Bool) : Ready :=
  match (s.core c).findAcc id with
  | none => .no s
  | some a =>
    if !p a.op ∨ a.chk = 3 then .no s
    else
      let r := if a.chk = 0 then s.checkAcc c a else (s, a)
      let t := r.1.mod c (fun x => x.putAcc r.2)
      if r.2.chk = 0 then .no t
      else if r.2.chk = 2 then .failed t r.2
      else if (t.core c).mayPerform r.2 (t.works c r.2) ∧ t.relReady c r.2 ∧ t.acqReady c r.2 ∧
          (r.2.tok.kind = 2 ∨ t.popPending c r.2.ctx id = false) ∧ t.linked r.2.pas then .yes t r.2
      else .no t

/-! ### Performing -/

/-- The access consumed bad data (R339): no effect but the event, and its destination keeps its value. A V-word's store reports its
pipe and its V-word index, which `pc` then holds. -/
def State.accContained (s : State) (c : Nat) (a : Acc) (e : Nat × Nat) : State :=
  if a.op = .vstore then (s.mod c (fun x => x.dropAcc a.id)).contain c 0 e.1 3 e.2 a.pc a.id true 2
  else
    (s.mod c (fun x => (x.dropAcc a.id).dropS a.ctx a.d a.id)).contain c a.ctx e.1 0 e.2 (if a.ctx = 0 then 0 else a.pc) a.id
      false 3

/-- The stores of number `id` into the host or fabric window among some bytes are unacknowledged, each on the host link it travels
over (R306, R319). -/
def State.farStores (s : State) (c id : Nat) (pas : List Nat) : State :=
  let via (p : Nat) : Nat := if s.cfg.tier p = .host then (s.hostLink p).getD 2 else 2
  match (pas.filter (fun p => s.cfg.tier p == .host || s.cfg.tier p == .fabric)).map (fun p => (s.cfg.tier p, p, via p)) with
  | [] => s
  | l => s.mod c (fun x => { x with unacked := x.unacked ++
      (l.foldl (fun (a : List (Tier × Nat × Nat)) p =>
        if a.any (fun q => q.1 == p.1 && q.2.2 == p.2.2) then a else a ++ [p]) []).map (fun p => (id, p.2.1, p.2.2)) })

/-- Bytes written by a core's store, signal operation or atomic at their home slices: the stash's dirty copy goes first
(R309), and a write into the host or fabric window is unacknowledged (R306). -/
def State.homeStore (s : State) (c id : Nat) (bytes : List (Nat × Byte)) (bad : List (Nat × Nat) := []) (au : Author := {}) : State :=
  ((s.bypass c (bytes.map Prod.fst)).homeWrite bytes bad au).farStores c id (bytes.map Prod.fst)

/-- Whether an access goes through the core's stash (R218, R300, R309). -/
def State.stashed (s : State) (c : Nat) (a : Acc) : Bool :=
  !a.acq && !a.rel && a.tok.kind != 0 &&
    (s.core c).windowed a.tok.entry ((a.tok.base * 64 : Nat) + a.off).toNat a.w a.id

/-- Whether access `id` reaches a physical byte of an entry through one of the core's stash windows. -/
def State.inWindow (s : State) (c entry pa id : Nat) : Bool :=
  (s.core c).wins.any (fun p => p.2.size != 0 && p.2.tok.entry == entry && p.2.tok.kind != 0 &&
    (s.winLines p.2).contains (pa / 64) && !(s.core c).winBusy p.1 id)

/-- The author of an access's write (R303). -/
def State.author (s : State) (c : Nat) (a : Acc) (join : Bool) : Author := s.authorOf c a.ctx a.id a.tok.kind a.rel join

/-- A store, or the next byte of an unaligned one, performs; the elements of a vector store go each to the stash or home. `bad` are
the marks the bytes carry, by address (R338). -/
def State.storeBytes (s : State) (c : Nat) (a : Acc) (bytes : List (Nat × Byte)) (bad : List (Nat × Nat) := []) : State :=
  let t := s.relWork c a
  let au := t.author c a false
  if a.op = .vstore then
    let inn := bytes.filter (fun p => t.inWindow c a.tok.entry p.1 a.id)
    let out := bytes.filter (fun p => !t.inWindow c a.tok.entry p.1 a.id)
    let u := if inn = [] then t else t.stashWrite c inn bad au
    if out = [] then u else u.homeStore c a.id out (bad.filter (fun p => out.any (fun q => q.1 == p.1))) au
  else if t.stashed c a then t.stashWrite c bytes bad au
  else t.homeStore c a.id bytes bad au

/-- The new counter of a signal operation (R295). -/
def sigNew (op : AOp) (old v : Word) : Word := if op = .sigAdd then old + v else v

/-- `f` of R315 at `w` bytes. -/
def amoNew (op w old a b : Nat) : Nat :=
  let m := 2 ^ (8 * w)
  let sg (v : Nat) : Int := if m ≤ 2 * v then (v : Int) - m else v
  match op with
  | 0 => (old + a) % m
  | 1 => Nat.land old a
  | 2 => Nat.lor old a
  | 3 => Nat.xor old a
  | 4 => if sg old ≤ sg a then old else a
  | 5 => if sg old ≤ sg a then a else old
  | 6 => min old a
  | 7 => max old a
  | 8 => a
  | 9 => if old = a then b else old
  | 0x10 => fmaxR42 old a
  | _ => 0

/-- An atomic or signal operation performs at the home slice (R288, R315, R316): the old value, or bad data; a `sig.set` reads nothing. A
`cas` that writes nothing still carries its release. -/
def State.rmw (s : State) (c : Nat) (a : Acc) : State × Except (Nat × Nat) Nat :=
  let t := (((s.relWork c a).bypass c a.pas).pullFor a.pas).hear c a.ctx a.tok.kind a.acq a.scope a.pas none
  match (if a.op = .sigSet then (t, none) else t.findAll a.pas) with
  | (u, some e) => (u, .error e)
  | (u, none) =>
    let old := u.valueAt a.pas
    let m := 2 ^ (8 * a.w)
    match a.op with
    | .amo op =>
      let v := amoNew op a.w old (a.a.toNat % m) (a.b.toNat % m)
      if op = 9 ∧ old ≠ a.a.toNat % m then (u, .ok old)
      else (u.homeStore c a.id (a.pas.zip (leBytes a.w v)) [] (u.author c a true), .ok old)
    | op => (u.homeStore c a.id (a.pas.zip (leBytes 8 (sigNew op (BitVec.ofNat 64 old) a.a).toNat)) [] (u.author c a true), .ok old)

/-- Extend a loaded value (R129). -/
def extend (signed : Bool) (w : Nat) (v : Nat) : Word :=
  if signed ∧ 2 ^ (8 * w) ≤ 2 * v then BitVec.ofInt 64 ((v : Int) - (2 ^ (8 * w) : Nat)) else BitVec.ofNat 64 v

/-- A context's load reads some bytes at once, and hears what is among those that are not its own earlier store's (R303). -/
def State.loaded (s : State) (c ctx id kind : Nat) (home acq : Bool) (scope : Nat) (floor : Option Nat) (pas : List Nat) :
    State × List Byte :=
  let g := s.viewAt c ctx id kind home (s.hbOf c ctx) floor pas
  let far := if home then pas else pas.filter (fun pa => !(s.core c).takesOwn ctx id pa)
  (s.hear c ctx kind acq scope far g.2, g.1)

/-- The next bytes of a load are read at once; with the last of them the register fills. -/
def State.loadBytes (s : State) (c : Nat) (a : Acc) : State :=
  let n := a.chunk
  let pas := a.pas.take n
  let home := (s.core c).atHome a
  let t := if home then s.bypass c pas else s
  match t.consume c a.ctx a.id home pas with
  | (u, some e) => u.accContained c a e
  | (u, none) =>
    let floor := if a.acq ∨ a.op = .sigRead then none else some a.floor
    let r := u.loaded c a.ctx a.id a.tok.kind home a.acq a.scope floor pas
    let h := r.1
    let bytes := a.data ++ r.2
    if bytes.length < a.w then h.mod c (fun x => x.putAcc { a with pas := a.pas.drop n, data := bytes })
    else
      let signed := match a.op with
        | .load sg => sg
        | _ => false
      let f := if h.stashed c a && !home then h.fillFor c a.pas else h
      f.mod c (fun x => (x.dropAcc a.id).fillS a.ctx a.d a.id (extend signed a.w (leNat bytes)))

/-- A write of a redundant pair waits at its home slice for its partner's (R348). -/
def State.keepHeld (s : State) (c seq : Nat) (op : HeldOp) : State :=
  { s with w := { s.w with held := s.w.held ++ [{ core := c, seq := seq, op := op, since := s.now }] } }

/-- A store cut into units of bytes of one 64-byte line, each with the marks of its bytes (R348); `fuel` bounds their number. -/
def Acc.units : Nat → Acc → List Acc
  | 0, _ => []
  | fuel + 1, a =>
    match a.pas with
    | [] => []
    | p :: _ =>
      let n := (a.pas.takeWhile (fun q => q / 64 == p / 64)).length
      { a with pas := a.pas.take n, data := a.data.take n, bad := a.bad.filter (fun b => decide (b.1 < n)) } ::
        Acc.units fuel { a with pas := a.pas.drop n, data := a.data.drop n,
                                bad := (a.bad.filter (fun b => decide (n ≤ b.1))).map (fun b => (b.1 - n, b.2)) }

/-- A redundant core's write waits for its partner's: a vector store unit by unit (R348). -/
def State.keepUnits (s : State) (c : Nat) (a : Acc) : State :=
  if a.op = .vstore then
    let l := Acc.units a.pas.length a
    ((List.range l.length).zip l).foldl (fun t p => t.keepHeld c ((a.seq + 1) * 2 ^ 32 + p.1) (.acc p.2)) s
  else s.keepHeld c a.seq (.acc a)

end Sys2Proof.Machine
end

