-- ==== Sys2Proof/Machine/Token.lean ====
section
/-! DEFINITION. Page tables and pontil tokens (R199, R200, R203 to R207, R214, R216): the walk of an extent, the choice of a
pontil entry, `xlat`, `xlat.try` and the token instructions. -/

namespace Sys2Proof.Machine

/-! ### The walk (R199, R200) -/

/-- What a walk finds. -/
inductive Walk where
  | absent
  | bad
  /-- bad data among the bytes of an entry it reads (R338) -/
  | marked (pas : List Nat)
  /-- a leaf of `n` 4 KiB pages whose first page is virtual page `vpn` -/
  | leaf (pte vpn n : Nat)
  deriving DecidableEq, Repr

/-- The bytes of an entry of a page-table node. -/
def ptePas (node i : Nat) : List Nat := (List.range 8).map (node + 8 * i + ·)

/-- An entry of a page-table node. It is read as its home holds it (notes/assumptions/52.md). -/
def State.pteAt (s : State) (node i : Nat) : Nat := s.valueAt (ptePas node i)

/-- The page address of an entry. -/
def ptePA (pte : Nat) : Nat := fld pte 12 34 * 4096

/-- The rights R, W, X, A of an entry. -/
def pteRights (pte : Nat) : BitVec 4 :=
  BitVec.ofNat 4 ((bit pte 2).toNat * 8 + (bit pte 3).toNat * 4 + (bit pte 4).toNat * 2 + (bit pte 5).toNat)

/-- Whether a page holds an absent byte (R197): tiers begin and end on 4 KiB boundaries. -/
def CfgSt.pageAbsent (g : CfgSt) (pa n : Nat) : Bool := (List.range n).any (fun i => g.tier (pa + 4096 * i) == .absent)

/-- Whether a leaf of `n` pages is bad by its own bits (R199). -/
def CfgSt.leafBad (g : CfgSt) (pte n : Nat) : Bool :=
  fld pte 46 18 != 0 || fld pte 9 3 != 0 || fld pte 6 2 == 3 || ptePA pte % (4096 * n) != 0 ||
    g.pageAbsent (ptePA pte) n ||
    (bit pte 5 && !(g.tier (ptePA pte) == .hbm || g.tier (ptePA pte) == .lpddr || g.tier (ptePA pte) == .l2))

/-- Whether a node entry is bad (R199). -/
def CfgSt.nodeBad (g : CfgSt) (pte : Nat) : Bool :=
  fld pte 46 18 != 0 || fld pte 9 3 != 0 || fld pte 2 7 != 0 ||
    !(g.tier (ptePA pte) == .hbm || g.tier (ptePA pte) == .lpddr)

/-- Whether the sixteen leaves of a 64 KiB page fit together (R199): one set of attributes and running addresses. -/
def State.set64 (s : State) (node first : Nat) : Bool :=
  let p0 := s.pteAt node first
  ptePA p0 % 65536 == 0 &&
    (List.range 16).all (fun i => s.pteAt node (first + i) == p0 + 4096 * i)

/-- The walk below a node of level `lvl` (R199). -/
def State.walkAt (s : State) : Nat → Nat → Nat → Walk
  | lvl, node, va =>
    let i := va / 2 ^ (12 + 9 * lvl) % 512
    let pte := s.pteAt node i
    let n := 512 ^ lvl
    let set := (List.range 16).flatMap (fun j => ptePas node (i / 16 * 16 + j))
    if (s.findAll (ptePas node i)).2.isSome then .marked (ptePas node i)
    else if bit pte 0 = false then .absent
    else if bit pte 1 then
      if lvl = 3 ∨ s.cfg.leafBad pte n then .bad
      else if bit pte 8 ∧ lvl = 0 ∧ (s.findAll set).2.isSome then .marked set
      else if bit pte 8 then
        (if lvl = 0 ∧ s.set64 node (i / 16 * 16) ∧ s.cfg.leafBad (s.pteAt node (i / 16 * 16)) 16 = false then
          .leaf (s.pteAt node (i / 16 * 16)) (va / 65536 * 16) 16
        else .bad)
      else .leaf pte (va / 4096 / n * n) n
    else match lvl with
      | 0 => .bad
      | l + 1 => if s.cfg.nodeBad pte then .bad else State.walkAt s l (ptePA pte) va

/-- The walk of a virtual page in an address space; a space with no root maps nothing. -/
def State.walk (s : State) (asid va : Nat) : Walk :=
  let r := Sparse.get 0 s.roots asid
  if r = 0 then .absent else s.walkAt 3 (r - 1) va

/-- A leaf enters a translation cache of 256 entries; which entry a full cache gives up is open (notes/assumptions/12.md). -/
def insTlb (victim : Nat) (l : List TlbE) (e : TlbE) : List TlbE :=
  if l.length < 256 then e :: l else e :: l.eraseIdx (victim % l.length)

/-- One more 4 KiB page at the end of the ranges: contiguous pages merge, up to 262,143 in one range (R205). -/
def addPage (pa : Nat) : List (Nat × Nat) → List (Nat × Nat)
  | [] => [(1, pa)]
  | [(n, p)] => if p + 4096 * n = pa ∧ n < 262143 then [(n + 1, p)] else [(n, p), (1, pa)]
  | r :: rest => r :: addPage pa rest

/-- What translating an extent gives: the reason and page of a failure, or the kind and ranges, and the cache after it. -/
inductive Xl where
  | fail (r p : Nat)
  | marked (pas : List Nat)
  | ok (tlb : List TlbE) (kind : Nat) (ranges : List (Nat × Nat))

/-- Translate `n` pages from page `p` of the extent on (R207): the cache first, then the table. -/
def State.pages (s : State) (asid vpn : Nat) (rights : BitVec 4) :
    Nat → Nat → List TlbE → Nat → List (Nat × Nat) → Xl
  | 0, _, tlb, kind, rs => .ok tlb kind rs
  | n + 1, p, tlb, kind, rs =>
    let go (tlb : List TlbE) (pte v : Nat) : Xl :=
      if pteRights pte &&& rights ≠ rights then .fail 2 p
      else s.pages asid vpn rights n (p + 1) tlb (min kind (fld pte 6 2)) (addPage (ptePA pte + (vpn + p - v) * 4096) rs)
    match tlb.find? (fun e => e.asid == asid && decide (e.vpn ≤ vpn + p) && decide (vpn + p < e.vpn + e.n)) with
    | some e => go tlb e.pte.toNat e.vpn
    | none => match s.walk asid ((vpn + p) * 4096) with
      | .bad => .fail 3 p
      | .absent => .fail 1 p
      | .marked pas => .marked pas
      | .leaf pte v m =>
        go (insTlb (s.free (64 + p % 512)).toNat tlb { asid := asid, vpn := v, n := m, pte := BitVec.ofNat 64 pte }) pte v

/-- Whether an extent's operands are wrong (R207 ARG). -/
def extentBad (va len : Nat) : Bool :=
  va % 64 != 0 || len == 0 || len % 64 != 0 || decide (2 ^ 38 - 64 < len) || decide (2 ^ 48 < va + len)

/-- The pages of an extent translated. -/
def State.extent (s : State) (asid va len : Nat) (rights : BitVec 4) (tlb : List TlbE) : Xl :=
  if extentBad va len then .fail 4 0
  else s.pages asid (va / 4096) rights ((va % 4096 + len + 4095) / 4096) 0 tlb 3 []

/-! ### The pontil entry (R205, R206) -/

/-- The bytes an entry's range list takes from the pool (R205). -/
def listBytes (n : Nat) : Nat := if n ≤ 8 then 0 else (8 + 8 * n + 63) / 64 * 64

/-- The pool bytes in use. -/
def State.poolUsed (s : State) : Nat :=
  (s.pontil.map (fun p => if p.2.st = .free ∨ p.2.st = .retired then 0 else listBytes p.2.ranges.length)).sum

/-- The pool's size: at least 64 MiB (R205). -/
def poolSize : Nat := 2 ^ 26 + Config.rangePool

/-- Whether two extents overlap. -/
def overlap (a n b m : Nat) : Bool := decide (a < b + m) && decide (b < a + n)

/-- The lowest-numbered FREE entry (R207). -/
def State.freeEntry (s : State) : Option Nat :=
  ((List.range (s.pontil.length + 1)).map (· + 1)).find? (fun e => decide (e < 2 ^ 20) && (s.ent e).st == .free)

/-- Set a core's holder bit (R206). -/
def PEntry.hold (e : PEntry) (c : Nat) : PEntry := { e with holders := e.holders ||| (1#1024 <<< c) }

/-- A token of an entry has reached core `c` (R206). -/
def State.holdBit (s : State) (e c : Nat) : State := if e = 0 then s else s.setEnt e ((s.ent e).hold c)

/-- The decision of R207. -/
inductive Got where
  | wait
  | fail (r p : Nat)
  /-- the walk has found bad data: its kind and unit -/
  | event (s : State) (e : Nat × Nat)
  | ok (s : State) (t : Token)

/-- Reuse a LIVE entry or allocate the lowest FREE one (R207): `who` is the core, or none for a dispatcher or the Wilgor
complex. -/
def State.choose (s : State) (who : Option Nat) (asid va len : Nat) (rights : BitVec 4) (kind : Nat)
    (ranges : List (Nat × Nat)) : Got :=
  let hold (e : PEntry) : PEntry := match who with
    | some c => e.hold c
    | none => e
  let tok (n : Nat) (e : PEntry) : Token :=
    { entry := n, gen := e.gen, rights := rights, kind := kind, base := 0, len := len / 64 }
  match s.pontil.find? (fun p => p.2.st == .live && p.2.asid == asid && p.2.vbase == va && p.2.len == len &&
      p.2.rights == rights && p.2.kind == kind) with
  | some p => .ok (s.setEnt p.1 (hold p.2)) (tok p.1 p.2)
  | none =>
    if s.pontil.any (fun p => (p.2.st == .draining || p.2.st == .sweeping) && p.2.asid == asid &&
        overlap p.2.vbase p.2.len va len) then .wait
    else match s.freeEntry with
      | none => .fail 5 0
      | some n =>
        if poolSize < s.poolUsed + listBytes ranges.length then .fail 5 0
        else
          let e : PEntry := { st := .live, gen := (s.ent n).gen + 1, kind := kind, rights := rights, vbase := va,
                              asid := asid, len := len, ranges := ranges, pinned := true }
          .ok (s.setEnt n (hold e)) (tok n e)

/-- Translate an extent and take its entry (R207): a core goes through its translation cache. -/
def State.grant (s : State) (who : Option Nat) (asid va len : Nat) (rights : BitVec 4) : Got :=
  let tlb := match who with
    | some c => (s.core c).tlb
    | none => []
  match s.extent asid va len rights tlb with
  | .fail r p => .fail r p
  | .marked pas => match s.findAll pas with
    | (t, some e) => .event t e
    | (_, none) => .fail 3 0
  | .ok tlb kind ranges =>
    match s.choose who asid va len rights kind ranges with
    | .ok t tok => match who with
      | some c => .ok (t.mod c (fun x => { x with tlb := tlb })) tok
      | none => .ok t tok
    | g => g

/-- A launch. -/
def State.launch (s : State) (n : Nat) : Launch := Sparse.get {} s.d.launches n

/-- The address space of the task a core runs (R199). -/
def State.asidOf (s : State) (c : Nat) : Nat :=
  match (s.core c).task with
  | some t => (s.launch t.linst).asid
  | none => 0

/-! ### xlat (R207) -/

/-- R207: `xlat` marks kD empty and occupies its context until XLAT_COMPLETE. -/
def execXlat (rights : BitVec 4) (o : AluR) (s : State) : Out :=
  issue (.xlat rights o) s [.s o.a o.fea, .s o.b o.feb] (fun s =>
    .next ((s.upd (fun x => x.markK s.ctx o.d s.id)).holds (.walk (.xlat rights o))))

/-- R207: `xlat.try` marks kD and sC empty. -/
def execXlatTry (rights : BitVec 4) (o : AluR) (s : State) : Out :=
  issue (.xlatTry rights o) s [.s o.a o.fea, .s o.b o.feb] (fun s =>
    .next ((s.upd (fun x => (x.markK s.ctx o.d s.id).markS s.ctx o.c s.id)).holds (.walk (.xlatTry rights o))))

/-- The last walk of an `xlat` ends (R207): `st` is the status destination of `xlat.try`. A trap that a trap of an earlier word comes
before is lost (R103). A walk that reads bad data is the word's consumption of it (DEDUCED, notes/assumptions/75.md): its destinations keep
their values (R339). -/
def xlatEnd (rights : BitVec 4) (o : AluR) (st : Option Nat) (s : State) : Out :=
  let id := s.hold.since
  let fill (t : State) (tok : Token) (v : Word) : State :=
    t.upd (fun x =>
      let y := x.fillK s.ctx o.d id tok
      (match st with
       | some r => y.fillS s.ctx r id v
       | none => y).next s.ctx 1 |>.passedBy s.now s.ctx)
  match s.grant (some s.cur) (s.asidOf s.cur) (s.sc o.a).toNat (s.sc o.b).toNat rights with
  | .wait => .next s
  | .event t e =>
    let u := t.upd (fun x =>
      let y := x.dropK s.ctx o.d id
      (match st with
       | some r => y.dropS s.ctx r id
       | none => y).next s.ctx 1 |>.passedBy s.now s.ctx)
    .next (u.contain s.cur s.ctx e.1 0 e.2 (if s.ctx = 0 then 0 else s.me.q.pcOf s.ctx) id false 3)
  | .ok t tok => .next (fill t tok 0#64)
  | .fail r p => match st with
    | some _ => .next (fill s {} (BitVec.ofNat 64 (r * 2 ^ 32 + p)))
    | none =>
      let t := s.upd (fun x => x.dropK s.ctx o.d id)
      if s.ctx = 0 ∧ s.me.beaten s.now id then .next (t.done 1)
      else trap (if s.ctx = 0 then t.upd (fun x => x.takesNow s.now) else t) 8 (r * 2 ^ 28 + p)

/-- R207: the walk of context `x` of core `c` ends. It walks in one moment (DESIGN CHOICE, notes/assumptions/18.md). -/
def execXlatComplete (c x : Nat) (s : State) : Out :=
  let t := { s with cur := c, ctx := x }
  match t.hold.k with
  | .walk (.xlat rights o) => xlatEnd rights o none t
  | .walk (.xlatTry rights o) => xlatEnd rights o (some o.c) t
  | _ => .next s

/-! ### Token instructions (R216) -/

/-- The status of `tkchk` (R216): 0 valid, 1 null, 2 stale, 3 forwarded. -/
def State.tkStatus (s : State) (t : Token) : Nat :=
  if t.entry = 0 then 1
  else match s.judge t with
    | .wait => 0
    | .stale => 2
    | .fine u => if u.entry = t.entry then 0 else 3

/-- R216: `tkchk`. -/
def execTkchk (o : AluR) (s : State) : Out :=
  issue (.tkchk o) s [.k o.a o.fea] (fun s => .next (s.ret o.d 1 (BitVec.ofNat 64 (s.tkStatus (s.tk o.a)))))

/-- Write a token of the running context and move on. -/
def State.retK (s : State) (d : Nat) (t : Token) : State := s.upd (fun x => (x.wrK s.ctx d t).next s.ctx 1)

/-- R216: `tkdrop`. -/
def execTkdrop (o : AluR) (s : State) : Out :=
  issue (.tkdrop o) s [.k o.a o.fea] (fun s => .next (s.retK o.a {}))

/-- R216: `tkmov`. -/
def execTkmov (o : AluR) (s : State) : Out :=
  issue (.tkmov o) s [.k o.a o.fea] (fun s => .next (s.retK o.d (s.tk o.a)))

/-- R216: `tksub` makes a sub-window, or null with BOUNDS. -/
def execTksub (o : AluR) (s : State) : Out :=
  issue (.tksub o) s [.k o.a o.fea, .s o.b o.feb, .s o.c o.fec] (fun s =>
    let t := s.tk o.a
    let b := (s.sc o.b).toNat
    let n := (s.sc o.c).toNat
    if b % 64 ≠ 0 ∨ n % 64 ≠ 0 ∨ n = 0 ∨ t.len * 64 < b + n then
      .next ((s.upd (fun x => x.kset .bounds t.entry)).retK o.d {})
    else .next (s.retK o.d { t with base := t.base + b / 64, len := n / 64 }))

/-- R216: `tkinfo` writes the token word with the status in bits 25:24. -/
def execTkinfo (o : AluR) (s : State) : Out :=
  issue (.tkinfo o) s [.k o.a o.fea] (fun s =>
    .next (s.ret o.d 1 ((s.tk o.a).word + BitVec.ofNat 64 (s.tkStatus (s.tk o.a) * 2 ^ 24))))

/-! ### tkrev (R206, R214) -/

/-- Remove the pages of an extent from every translation cache (R200, R206, R326). -/
def State.purge (s : State) (asid va len : Nat) : State :=
  s.modAll (fun _ x => { x with tlb := x.tlb.filter (fun e =>
    !(e.asid == asid && overlap (e.vpn * 4096) (e.n * 4096) va len)) })

/-- A LIVE entry begins to drain (R206). -/
def State.revoke (s : State) (n : Nat) (move : Bool) (fwd : Nat) : State :=
  let e := s.ent n
  (s.setEnt n { e with st := .draining, move := move, fwd := if move then fwd else 0
                       fgen := if move then (s.ent fwd).gen else 0 }).purge e.asid e.vbase e.len

/-- `tkrev` once its operands are read: `fwd` is the forward token of a MOVE. -/
def revWord (i : Instr) (s : State) (n : Nat) (fwd : Option Token) : Out :=
  let start (t : State) (f : Nat) : Out :=
    if (s.ent n).st = .live then .next ((t.revoke n fwd.isSome f).holds (.rev n)) else .next (s.done 1)
  if s.me.q.priv = false then privTrap s (minOf i)
  else if n = 0 ∨ 2 ^ 20 ≤ n then illegal i s
  else match fwd with
    | none => start s 0
    | some t =>
      if t.entry = n then illegal i s
      else
        let e := s.ent n
        let u : Token := match s.judge t with
          | .fine u => u
          | _ => t
        let stale : Bool := match s.judge t with
          | .stale => true
          | _ => false
        if u.entry = n then illegal i s
        else if t.entry = 0 ∨ stale ∨ u.len * 64 < e.len ∨ u.rights &&& e.rights ≠ e.rights then trap s 9 t.entry
        else start s u.entry

/-- The wait of a `tkrev` ends once its entry is DEAD or FORWARDED (R214). -/
def revWait (s : State) (n : Nat) : Out :=
  if (s.ent n).st = .draining ∨ (s.ent n).st = .sweeping then stall s else .next (s.done 1)

/-- R214: `tkrev.kill`. -/
def execTkrevKill (o : AluR) (s : State) : Out :=
  match s.hold.k with
  | .rev n => revWait s n
  | _ => issue (.tkrevKill o) s [.s o.a o.fea] (fun s => revWord (.tkrevKill o) s (s.sc o.a).toNat none)

/-- R214: `tkrev.move`. -/
def execTkrevMove (o : AluR) (s : State) : Out :=
  match s.hold.k with
  | .rev n => revWait s n
  | _ => issue (.tkrevMove o) s [.s o.a o.fea, .k o.b o.feb] (fun s =>
      revWord (.tkrevMove o) s (s.sc o.a).toNat (some (s.tk o.b)))

end Sys2Proof.Machine
end

