-- ==== Sys2Proof/Machine/Record.lean ====
section
/-! DEFINITION. Task records (R219, R220), the restore check of a token (R110, R213), how queues are named (R221), what a
launch counts as live (R262), and the journal's entries (R330). -/

namespace Sys2Proof.Machine

/-! ### Records -/

/-- The eight words of a record. -/
def Rec.words (r : Rec) : List Word := [r.w0, r.w1, r.w2, r.w3, r.w4, r.w5, r.w6, r.w7]

/-- A record from its words. -/
def Rec.ofWords (l : List Word) : Rec :=
  let w (i : Nat) : Word := l.getD i 0#64
  { w0 := w 0, w1 := w 1, w2 := w 2, w3 := w 3, w4 := w 4, w5 := w 5, w6 := w 6, w7 := w 7 }

/-- A record's 64 bytes (R219). -/
def Rec.bytes (r : Rec) : List Byte := r.words.flatMap (fun w => leBytes 8 w.toNat)

/-- A record from its bytes. -/
def Rec.ofBytes (l : List Byte) : Rec := Rec.ofWords (leWords 8 l)

/-- ENTRY. -/
def Rec.entry (r : Rec) : Nat := fld r.w0.toNat 0 32
/-- IMAGE. -/
def Rec.image (r : Rec) : Nat := fld r.w0.toNat 32 16
/-- STAGE. -/
def Rec.stage (r : Rec) : Nat := fld r.w0.toNat 48 8
/-- PRI. -/
def Rec.pri (r : Rec) : Nat := fld r.w0.toNat 56 2
/-- REDUNDANT. -/
def Rec.redundant (r : Rec) : Bool := bit r.w0.toNat 58
/-- LINST. -/
def Rec.linst (r : Rec) : Nat := fld r.w7.toNat 32 32
/-- JDEC. -/
def Rec.jdec (r : Rec) : Nat := fld r.w6.toNat 32 32
/-- JOFF. -/
def Rec.joff (r : Rec) : Nat := fld r.w6.toNat 0 32
/-- The frame token as the record carries it (R219). -/
def Rec.frame (r : Rec) : Token := Token.ofWord r.w2 (fld r.w3.toNat 0 32) (fld r.w3.toNat 32 32)

/-- Replace a bit field of a word. -/
def setFld (w : Word) (lo n v : Nat) : Word :=
  (w &&& ~~~(BitVec.ofNat 64 ((2 ^ n - 1) * 2 ^ lo))) ||| BitVec.ofNat 64 (v % 2 ^ n * 2 ^ lo)

/-- The stamp of a push (R220). -/
def Rec.stamp (r : Rec) (q : Queue) (linst : Nat) : Rec :=
  let w0 := setFld r.w0 56 2 q.pri
  { r with w0 := if q.stage = 0 then w0 else setFld w0 48 8 (q.stage - 1)
           w7 := setFld r.w7 32 32 linst }

/-! ### The restore check (R110, R213) -/

/-- Follow forward fields, through at most 8 entries, to one that still holds the token's generation. -/
def State.follow (s : State) : Nat → Token → Option Token
  | 0, _ => none
  | n + 1, t =>
    let e := s.ent t.entry
    if e.st = .forwarded ∨ (e.st = .sweeping ∧ e.move ∧ e.gen ≠ t.gen) then
      (if t.gen + 1 = e.gen then s.follow n (s.forwarded t e.fwd) else none)
    else if e.gen = t.gen ∧ e.st ≠ .free ∧ e.st ≠ .dead ∧ e.st ≠ .retired then some t else none

/-- The restore check: a token kept, forwarded, or nulled with STALE in core `c`'s KSTAT. -/
def State.restore (s : State) (c : Nat) (t : Token) : State × Token :=
  if t.entry = 0 then (s, t)
  else match s.follow 9 t with
    | some u => (s, u)
    | none => (s.mod c (fun x => x.kset .stale t.entry), {})

/-- The restore check of a token that reaches core `c`: its holder bit is set (R206). -/
def State.arrives (s : State) (c : Nat) (t : Token) : State × Token :=
  let p := s.restore c t
  (p.1.holdBit p.2.entry c, p.2)

/-! ### Queues and launches -/

/-- A queue, by PANE × 256 + SLOT. -/
def State.queue (s : State) (q : Nat) : Queue := Sparse.get {} s.queues q
/-- Write a queue. -/
def State.setQ (s : State) (q : Nat) (v : Queue) : State := { s with queues := Sparse.set {} s.queues q v }
/-- Write a launch. -/
def State.setLaunch (s : State) (n : Nat) (l : Launch) : State :=
  { s with d := { s.d with launches := Sparse.set {} s.d.launches n l } }

/-- The launch of the task core `c` runs, 0 for none. -/
def State.linstOf (s : State) (c : Nat) : Nat := match (s.core c).task with | some t => t.linst | none => 0

/-- The queue a scalar names for core `c` (R221). -/
def State.qname (s : State) (c : Nat) (w : Word) : Option Nat :=
  let v := w.toNat
  if fld v 13 51 ≠ 0 then none
  else if bit v 12 then
    (if fld v 6 6 ≠ 0 then none else (s.launch (s.linstOf c)).chans[fld v 0 6]?)
  else some (fld v 0 12)

/-- The input queue of a stage of a launch (R88, R222). -/
def Launch.input (l : Launch) (stage : Nat) : Option Nat :=
  (l.kern.stages.find? (fun g => g.num == stage)).bind (fun g => l.chans[g.chan]?)

/-- NSTAGE. -/
def Launch.nstage (l : Launch) : Nat := l.kern.stages.length

/-- Whether a request is a push of an initial record or of a released continuation: its task is not counted elsewhere. -/
def QReq.loose (r : QReq) : Bool := decide (1024 ≤ r.core) && (match r.op with | .push _ _ => true | _ => false)

/-- A request goes to a queue from a pane, and reaches it after its trip (R227). -/
def State.requestFrom (s : State) (pane q : Nat) (r : QReq) : State :=
  s.setQ q { s.queue q with arrive := (s.queue q).arrive ++ [{ r with clk := s.now + s.cfg.queueTrip pane (q / 256) }] }

/-- A core's request goes to a queue. -/
def State.request (s : State) (q : Nat) (r : QReq) : State := s.requestFrom (s.cfg.paneOf r.core) q r

/-- The records of a launch in one queue (R262). -/
def Queue.waiting (q : Queue) : Nat :=
  q.items.length + q.rmeta.length + ((q.arrive ++ q.stalled).filter QReq.loose).length

/-- The tasks of a launch that run, or that a core has taken (R262). -/
def State.runningOf (s : State) (n : Nat) : Nat :=
  (s.cores.filter (fun p => (match p.2.task with | some t => t.linst == n | none => false) ||
    (match p.2.taken with
     | some (.fresh r _ _ _) => r.linst == n
     | _ => false))).length

/-- The saved tasks of a launch. -/
def State.savedOf (s : State) (n : Nat) : Nat := (s.d.lists.filter (fun p => p.2.valid && p.2.linst == n)).length

/-- The LIVE count (R262). -/
def State.live (s : State) (n : Nat) : Nat :=
  let l := s.launch n
  ((s.queues.filter (fun p => p.2.owner == n && p.2.st != 0 && p.2.stage != 0)).map (fun p => p.2.waiting)).sum +
  ((s.d.parked.map (fun p => (p.2.filter (fun k => k.r.linst == n)).length))).sum +
  ((s.d.rels.map (fun p => (p.2.filter (fun k => match k.rel with
      | .table r _ _ => r.linst == n
      | .ring _ _ _ _ => false)).length))).sum + l.ringParked + s.runningOf n + s.savedOf n

/-- A launch starts to fail with a result (R263): its running tasks are asked to stop. -/
def State.fail (s : State) (n result : Nat) : State :=
  let l := s.launch n
  if l.st = .running then
    (s.setLaunch n { l with st := .failing, result := result, reserved := [] }).modAll (fun _ x =>
      match x.task with
      | some t => if t.linst = n then x.requestStop else x
      | none => x)
  else s

/-! ### The journal (R330, R331) -/

/-- An entry awaits its place in the journal: DETAIL bytes 0 and 8 to 15 are given, and whether it ends a packet. -/
def State.journal (s : State) (source index pstat result linst type detail : Nat) (packet : Bool := false) : State :=
  { s with io := { s.io with jpend := s.io.jpend ++
      [{ gts := s.gts0, seq := 0, index := index, pstat := pstat, result := result, source := source, linst := linst,
         type := type, detail := detail, packet := packet }] } }

end Sys2Proof.Machine
end

