-- ==== Sys2Proof/Machine/Engine.lean ====
section
/-! DEFINITION. What the engines share (R181, R245, R310, R363, R385): an engine command's memory in pieces of at most 64
aligned bytes, each checked against the captured token, its acquire and its release, and its writes in a redundant pair. -/

namespace Sys2Proof.Machine

/-- The 64-byte aligned pieces of `n` bytes at a window offset, each with its length. -/
def pieces : Nat → Int → Nat → List (Int × Nat)
  | 0, _, _ => []
  | fuel + 1, off, n =>
    if n = 0 then []
    else
      let k := min n (64 - (off % 64).toNat)
      (off, k) :: pieces fuel (off + k) (n - k)

/-- The pieces of `n` bytes at an offset. -/
def piecesOf (off : Int) (n : Nat) : List (Int × Nat) := pieces (n / 64 + 2) off n

/-- A failure of a command's memory: the entry of it, with whether a KILL of that entry is under way. -/
structure Failed where
  entry : Nat
  killed : Bool
  deriving DecidableEq, Repr

/-- Whether an entry is being killed and the token is of the generation it had (R385). -/
def State.killing (s : State) (t : Token) (entry : Nat) : Bool :=
  (s.ent entry).st == .sweeping && !(s.ent entry).move && (s.ent entry).gen == t.gen + 1

/-- A block of a command failed its check (R209, R211): KSTAT of its core. One that a KILL under way fails sets REVOKED too: the
command's token is a copy that the core holds (R212, R385). -/
def State.failedBlock (s : State) (c : Nat) (t : Token) (b : KBit) (e : Nat) : State :=
  s.mod c (fun x => if s.killing t e then (x.kset b e).kset .revoked e else x.kset b e)

/-- An engine command as an agent (R296): its core, context and number, its engine (0 copy, 1 Marver, 2 unmasking), the order of its
engine word, whether its acquire is done, what it follows, and the numbers of its next write in a redundant pair. -/
structure Agent where
  core : Nat
  ctx : Nat
  id : Nat
  eng : Nat
  ord : Ordr
  acqd : Bool
  hb : Hb
  wseq : Nat
  wunit : Nat

/-- The number, in issue order, of a held write. -/
def Held.num (h : Held) : Nat := if h.seq < 2 ^ 32 then h.seq else h.seq / 2 ^ 32 - 1

/-- Whether what its context issued before a command is done, so that the command's accesses may follow (R181, R246, R348). -/
def State.engFree (s : State) (c ctx id wseq : Nat) : Bool :=
  (s.core c).acc.all (fun a => a.ctx != ctx || decide (id ≤ a.id) || a.op == .vstore) && !s.popPending c ctx id &&
    !s.w.held.any (fun h => h.core == c && decide (h.num < wseq))

/-- Whether a command's read may be made (R310): it is not its first, or the forced publishes its acquire waits for are done. -/
def State.engAcquire (s : State) (g : Agent) (pas : List Nat) : Bool :=
  g.acqd || !g.ord.acq || (s.acquireReady g.core g.ord.scope pas && (s.core g.core).noneOvertaken g.ctx)

/-- What a command follows once it has made a read: its first is its acquire (R310). -/
def State.engHears (s : State) (g : Agent) (pas : List Nat) : Hb :=
  if g.acqd ∨ !g.ord.acq then g.hb
  else { g.hb with got := (g.hb.got.join (s.taken g.core g.ord.scope (s.msgsIn pas none))).join { vis := s.pointOf pas none } }

/-- What a command's acquire took is kept for the context that observes the command's completion (R297, R304). -/
def State.engTakes (s : State) (g : Agent) (pas : List Nat) : State :=
  if g.acqd ∨ !g.ord.acq then s
  else
    let a := engAgent g.core g.eng
    { s with took := Sparse.set [] s.took a (Sparse.get [] s.took a ++ [(g.id, (s.engHears g pas).got)]) }

/-- The bytes of one block as an engine reads them: past the stash, what the homes hold, or on an unordered page what they have
held (R245, R301). -/
def State.engBytes (s : State) (k : Clock) (kind : Nat) (pas : List Nat) : List Byte :=
  if kind = 2 then s.unordBytes k pas else pas.map s.byte

/-! ### Blocks (R181, R245, R338, R363, R385) -/

/-- What reading one block gives. -/
inductive BlockIn where
  /-- it meets a DRAINING entry, or its command's acquire is not done -/
  | wait
  /-- a byte of it lies in a module that cannot be reached (R334, R339) -/
  | unreach
  /-- its bytes, the marks among them by position, its failure, and what the command follows after it -/
  | data (s : State) (bytes : List Byte) (bad : List (Nat × Nat)) (fail : Option Failed) (acqd : Bool) (hb : Hb)

/-- A block of `n` bytes, checked, is read as a move: failed bytes are zero and marks come with it (R34, R338). -/
def State.blockIn (s : State) (g : Agent) (t : Token) (n : Nat) (c : Chk) : BlockIn :=
  match c with
  | .wait => .wait
  | .fail b e =>
    .data (s.failedBlock g.core t b e) (List.replicate n 0#8) [] (some { entry := e, killed := s.killing t e }) g.acqd g.hb
  | .pass u pas =>
    if pas.any s.unreachable then .unreach
    else if !s.linked pas ∨ !s.engAcquire g pas then .wait
    else
      let m := (s.bypass g.core pas).marksOf pas
      .data ((m.1.mod g.core (fun x => x.cacheTok u.entry)).engTakes g pas) (m.1.engBytes g.hb.know u.kind pas) m.2 none true
        (m.1.engHears g pas)

/-- The releases a write of a command is (R303, R310): a releasing command's last covers what comes before its first access, and every
write of it. -/
def Agent.msgs (g : Agent) (kind : Nat) (rel : Bool) : List Msg :=
  let h : Hb := { g.hb with got := g.hb.got.join { r := [(ctxAgent g.core g.ctx, g.id)] } }
  h.msgs g.core (engAgent g.core g.eng) (g.id + 1) kind rel

/-- Whether units of a redundant core's command below number `n` wait for their partner's (R348): `wseq` is the command's number. -/
def State.unitsHeld (s : State) (c wseq n : Nat) : Bool :=
  s.w.held.any (fun h => h.core == c && decide ((wseq + 1) * 2 ^ 32 ≤ h.seq) && decide (h.seq < (wseq + 1) * 2 ^ 32 + n))

/-- Whether any unit of a command does. -/
def State.cmdHeld (s : State) (c wseq : Nat) : Bool := s.unitsHeld c wseq (2 ^ 32)

/-- An engine's bytes are performed at their homes, past the stash; a redundant core's wait for its partner's, and those of far
windows for their acknowledgement (R245, R306, R348). `clr` holds the masks of a step that only clears bits (R361). The next unit's number comes with it. It is done block by block (DESIGN
CHOICE, notes/assumptions/45.md). -/
def State.engWrite (s : State) (g : Agent) (kind : Nat) (last : Bool) (bytes : List (Nat × Byte)) (bad : List (Nat × Nat))
    (clr : List Byte := []) : State × Nat :=
  if bytes = [] then (s, g.wunit)
  else if (s.core g.core).partner.isSome then
    (s.keepHeld g.core ((g.wseq + 1) * 2 ^ 32 + g.wunit) (.bytes bytes bad (4 + g.eng) (g.msgs kind (last && g.ord.rel)) clr), g.wunit + 1)
  else
    (s.homeStore g.core g.id bytes bad
      { who := fun _ => (engAgent g.core g.eng, g.id), msg := g.msgs kind (last && g.ord.rel) }, g.wunit)

/-- Whether a command's release may be performed before its last write at `last` (R306, R310): the stores its core issued before
are home where its scope is wider than core, its own writes are done, and the acknowledgements its scope names are there. -/
def State.engRelReady (s : State) (g : Agent) (last : Option Nat) : Bool :=
  let ws := match last with
    | some pa => s.workScope g.core (pa / 64) g.ord.scope false
    | none => g.ord.scope
  !g.ord.rel ||
    ((ws == 0 || (s.core g.core).acc.all (fun a => !a.plainStore || decide (g.id ≤ a.id))) &&
      !s.w.held.any (fun h => h.core == g.core && decide (h.num ≤ g.wseq)) && !s.unackedAt g.core ws (g.id + 1))

/-- The work of a command's release before its last write at `last` (R306, R310); with no write, the work alone. -/
def State.engRelease (s : State) (g : Agent) (last : Option Nat) : State :=
  if g.ord.rel then
    match last with
    | some pa => s.releaseAt g.core g.id (pa / 64) g.ord.scope false
    | none =>
      let t := if 1 ≤ g.ord.scope then s.flush g.core else s.mod g.core (fun x => x.overtake g.id)
      if g.ord.scope = 5 then t.dropPubs g.core else t
  else s

/-- What writing one block gives. -/
inductive BlockOut where
  /-- it meets a DRAINING entry, or its command's release must wait -/
  | wait
  | unreach (s : State)
  | done (s : State) (unit : Nat) (fail : Option Failed)

/-- A block, checked, is written: a failed one is not. The last write of a releasing command is its release: the work of R306 comes
before it (R310). `data` holds none where there is nothing to write; `bad` are the marks, by position. -/
def State.blockOut (s : State) (g : Agent) (t : Token) (c : Chk) (data : List (Option Byte)) (bad : List (Nat × Nat)) (last : Bool) :
    BlockOut :=
  let rel (at' : Option Nat) : Option State :=
    if !last then some s else if s.engRelReady g at' then some (s.engRelease g at') else none
  match c with
  | .wait => .wait
  | .fail b e =>
    match rel none with
    | none => .wait
    | some u => .done (u.failedBlock g.core t b e) g.wunit (some { entry := e, killed := s.killing t e })
  | .pass v pas =>
    let out := (pas.zip data).filterMap (fun p => p.2.map (fun b => (p.1, b)))
    if pas.any s.unreachable then (match rel none with | none => .wait | some u => .unreach u)
    else if !s.linked pas then .wait
    else match rel (out.head?.map Prod.fst) with
      | none => .wait
      | some u =>
        let w := (u.mod g.core (fun x => x.cacheTok v.entry)).engWrite g v.kind last out
          (bad.filterMap (fun p => (pas[p.1]?).map (fun a => (a, p.2))))
        .done w.1 w.2 none

end Sys2Proof.Machine
end

