-- ==== Sys2Proof/Machine/MxCore.lean ====
section
/-! DEFINITION. The Marver's own storage and arithmetic (R168 to R174, R37 to R40, R189): tile registers, accumulators,
codebooks and the cells' copy of a B-deck slot; the operand rows and columns of `mx.mm`; the known-answer sum. -/

namespace Sys2Proof.Machine

/-! ### Storage -/

/-- The place of a tile byte: tile register, row, byte. -/
def tKey (t row byte : Nat) : Nat := t * 131072 + row * 1024 + byte

/-- The place of an accumulator element. -/
def zKey (mv z row col : Nat) : Nat := ((mv * 64 + z) * 128 + row) * 512 + col

/-- Block `b` of a tile row (R171): a tile register that was not written reads as zero bytes. -/
def Eng.tileBlock (e : Eng) (t row b : Nat) : Nat :=
  if e.twr.getLsbD t then leNat ((List.range 64).map (fun i => Sparse.get 0#8 e.tile (tKey t row (64 * b + i)))) else 0

/-- The mark of byte `i` of that block. -/
def Eng.tileMark (e : Eng) (t row b i : Nat) : Nat :=
  if e.twr.getLsbD t then Sparse.get 0 e.tileBad (tKey t row (64 * b + i) / 8) else 0

/-- Block `b` of the cells of a column (R169). -/
def Marver.cellBlock (m : Marver) (col b : Nat) : Nat :=
  leNat ((List.range 64).map (fun i => Sparse.get 0#8 m.cells (1024 * col + 64 * b + i)))

/-- The mark of byte `i` of that block. -/
def Marver.cellMark (m : Marver) (col b i : Nat) : Nat := Sparse.get 0 m.cellBad ((1024 * col + 64 * b + i) / 8 * 8)

/-- An accumulator element (R173). -/
def State.acc (s : State) (mv z row col : Nat) : Nat := (Sparse.get 0#32 s.accum (zKey mv z row col)).toNat

/-- The mark of an accumulator element. -/
def State.accMark (s : State) (mv z row col : Nat) : Nat := Sparse.get 0 s.accBad (zKey mv z row col / 2)

/-- The errors among accumulator granules from `lo` on, `n` of them, have been found (R338). -/
def State.accFound (s : State) (lo n : Nat) : State :=
  if s.accBad.any (fun p => decide (lo ≤ p.1) && decide (p.1 < lo + n) && decide (2 ^ 16 < p.2)) then
    { s with accBad := s.accBad.map (fun p => if lo ≤ p.1 ∧ p.1 < lo + n then (p.1, markFound p.2) else p) }
  else s

/-- A step that consumed an error of a tile register or an accumulator has found those of its core's tiles and its Marver's
accumulators (R338, R353). -/
def State.operandsFound (s : State) (mv c : Nat) (e : Option (Nat × Nat)) : State :=
  match e with
  | some (k, u) =>
    if k = kUcdata then
      ((s.accFound (zKey mv 0 0 0 / 2) (2 ^ 21)).mod c (fun x => x.eng (fun g =>
        { g with tileBad := g.tileBad.map (fun p => (p.1, markFound p.2)) }))).uncorrected u
    else s
  | none => s

/-- Write an accumulator element. -/
def State.setAcc (s : State) (mv z row col v : Nat) : State :=
  { s with accum := Sparse.set 0#32 s.accum (zKey mv z row col) (BitVec.ofNat 32 v) }

/-- Entry `v` of a codebook slot, as b16 (R174). -/
def State.cb (s : State) (mv slot v : Nat) : Nat := (Sparse.get 0#16 s.cbook ((mv * 8 + slot) * 16 + v % 16)).toNat

/-- Whether a listed B-deck byte lies in a slot of a Marver. -/
def inSlot (mv slot pa : Nat) : Bool :=
  decide (0x90000000000 ≤ pa) && decide (pa < 0x90800000000) && bdeckMarver pa == mv && fld pa 10 10 == slot

/-- The cells' key of a B-deck byte. -/
def cellKey (pa : Nat) : Nat := 1024 * fld pa 20 9 + fld pa 0 10

/-- The swap of R169: every column's cells take the slot as it stands, with its marks; an error found on the way is marked
(R338). -/
def State.swap (s : State) (mv slot : Nat) : State :=
  let found := (s.w.hard ++ s.w.soft).filter (fun p => inSlot mv slot p.1)
  let t := found.foldl (fun (t : State) p => (t.find p.1).1) s
  let m := t.marver mv
  t.setMarver mv { m with
    cslot := some slot, stale := false
    cells := (t.mem.filter (fun p => inSlot mv slot p.1)).foldl (fun c p => Sparse.set 0#8 c (cellKey p.1) p.2) []
    cellBad := (t.w.poison.filter (fun p => inSlot mv slot p.1)).foldl (fun c p => Sparse.set 0 c (cellKey p.1) p.2) [] }

/-! ### Operand rows and columns (R37, R172) -/

/-- One block of an operand as it lies along K: its first index, its elements, the event its consumption raises, its scale,
and each element's value and mark. -/
structure OpBlk where
  k0 : Nat
  n : Nat
  ev : Option (Nat × Nat)
  s : Int
  el : Nat → FV
  bad : Nat → Nat

/-- The event of a header (R34). -/
def headEvent : BHead → Option (Nat × Nat)
  | .illegal => some (kIllegalBlock, 0xFFFF)
  | .poison => some (kPoison, 0xFFFF)
  | _ => none

/-- The byte of a block that holds element `j`. -/
def elemByte (h : BHead) (j : Nat) : Nat :=
  match h with
  | .ok f _ => (elemBits f j).1 / 8
  | _ => 0

/-- A block read whole: each use of an element uses its header too (R338). -/
def mkBlk (k0 b : Nat) (cb : Nat → Nat) (mark : Nat → Nat) : OpBlk :=
  let h := blkHead b
  { k0 := k0, n := blkN b, ev := headEvent h, s := blkS b, el := blkAt b cb
    bad := fun j => if mark 0 ≠ 0 then mark 0 else mark (elemByte h j) }

/-- Sixteen blocks end to end (R37). -/
def layOut (blk : Nat → Nat → OpBlk) : Nat → Nat → Nat → List OpBlk
  | 0, _, _ => []
  | fuel + 1, b, k0 =>
    let x := blk b k0
    if x.ev.isSome then [x] else x :: layOut blk fuel (b + 1) (k0 + x.n)

/-- Row `m` of A read directly. -/
def Eng.row (e : Eng) (cb : Nat → Nat) (t m : Nat) : List OpBlk :=
  layOut (fun b k0 => mkBlk k0 (e.tileBlock t m b) cb (e.tileMark t m b)) 16 0 0

/-- Column `c` of B. -/
def Marver.column (m : Marver) (cb : Nat → Nat) (c : Nat) : List OpBlk :=
  layOut (fun b k0 => mkBlk k0 (m.cellBlock c b) cb (m.cellMark c b)) 16 0 0

/-- The squares of block column `b` (R172): first rows and sizes, and the row of the block that ends them by having no
size. -/
def Eng.squares (e : Eng) (t b : Nat) : Nat → Nat → List (Nat × Nat) × Option Nat
  | 0, _ => ([], none)
  | fuel + 1, r =>
    if 124 ≤ r then ([], none)
    else
      let blk := e.tileBlock t r b
      if (headEvent (blkHead blk)).isSome then ([], some r)
      else if 124 < r + blkN blk then ([], none)
      else
        let p := Eng.squares e t b fuel (r + blkN blk)
        ((r, blkN blk) :: p.1, p.2)

/-- Block `b` of row `m` of a transposed operand that begins at K index `k0`, if a square of the column holds the row. -/
def Eng.trBlock (e : Eng) (cb : Nat → Nat) (t m b k0 : Nat) (sq : List (Nat × Nat)) : Option OpBlk :=
  (sq.find? (fun p => decide (p.1 ≤ m) && decide (m < p.1 + p.2))).map (fun p =>
    let first := e.tileBlock t p.1 b
    let i := m - p.1
    let h := blkHead first
    let same := (List.range p.2).all (fun j => e.tileBlock t (p.1 + j) b % 65536 == first % 65536)
    { k0 := k0, n := p.2, ev := if same then none else some (kIllegalBlock, 0xFFFF), s := blkS first
      el := fun j => blkAt (e.tileBlock t (p.1 + j) b) cb i
      bad := fun j =>
        if e.tileMark t p.1 b 0 ≠ 0 then e.tileMark t p.1 b 0
        else if e.tileMark t (p.1 + j) b 0 ≠ 0 then e.tileMark t (p.1 + j) b 0
        else e.tileMark t (p.1 + j) b (elemByte h i) })

/-- The K index at which block `b` of row `m` begins, where the squares of every earlier column hold the row. -/
def trStart (sqs : List (List (Nat × Nat) × Option Nat)) (m b : Nat) : Option Nat :=
  (sqs.take b).foldl (fun acc sq => match acc, sq.1.find? (fun p => decide (p.1 ≤ m) && decide (m < p.1 + p.2)) with
    | some k, some p => some (k + p.2)
    | _, _ => none) (some 0)

/-- Row `m` of a transposed A (R172): the row of a block with no size that first reaches it consumes it. That a row reaches it by A's
squares and KLEN alone, though B covers less, is (DESIGN CHOICE, notes/assumptions/77.md). -/
def Eng.trRow (e : Eng) (cb : Nat → Nat) (t m klen : Nat) : List OpBlk :=
  let sqs := (List.range 16).map (fun b => Eng.squares e t b 5 0)
  let rec go : Nat → Nat → Nat → List OpBlk
    | 0, _, _ => []
    | fuel + 1, b, k0 =>
      let sq := sqs.getD b ([], none)
      match e.trBlock cb t m b k0 sq.1 with
      | some x => if x.ev.isSome then [x] else x :: go fuel (b + 1) (k0 + x.n)
      | none => match sq.2 with
        | none => []
        | some r =>
          let firstRow := (List.range 124).find? (fun q => decide (r ≤ q) &&
            (match trStart sqs q b with | some k => decide (k < klen) | none => false))
          if firstRow = some m then
            [{ k0 := k0, n := 0, ev := headEvent (blkHead (e.tileBlock t r b)), s := 0,
               el := fun _ => .fin false 0 0, bad := fun _ => 0 }]
          else []
  go 16 0 0

/-! ### The dot product (R38 to R40) -/

/-- The spans of two operands in ascending K order, each rounded once and added to `z`; bad data ends the sum with its event.
Where several are bad, the first in ascending K is the event, A before B; a step takes its elements by row, then column (DESIGN
CHOICE, notes/assumptions/62.md). -/
def dotGo : Nat → Nat → Nat → Nat → List OpBlk → List OpBlk → Except (Nat × Nat) Nat
  | 0, _, _, z, _, _ => .ok z
  | fuel + 1, klen, k, z, a :: as, b :: bs =>
    if klen ≤ k then .ok z
    else match a.ev, b.ev with
      | some e, _ => .error e
      | none, some e => .error e
      | none, none =>
        let stop := min (a.k0 + a.n) (b.k0 + b.n)
        let cnt := min stop klen - k
        match (List.range cnt).findSome? (fun j =>
          let m := if a.bad (k + j - a.k0) ≠ 0 then a.bad (k + j - a.k0) else b.bad (k + j - b.k0)
          if m = 0 then none else some (markEvent m)) with
        | some e => .error e
        | none =>
          let p := (List.range cnt).foldl (fun p j => spanAdd p (a.el (k + j - a.k0)) (b.el (k + j - b.k0))) ({} : Span)
          dotGo fuel klen stop (accAdd z (spanRound p (a.s + b.s)))
            (if stop = a.k0 + a.n then as else a :: as) (if stop = b.k0 + b.n then bs else b :: bs)
  | _ + 1, _, _, z, _, _ => .ok z

/-- `block_dot` of R188, with the mark of the accumulator element it adds to. -/
def blockDot (z zmark : Nat) (a b : List OpBlk) (klen : Nat) : Except (Nat × Nat) Nat :=
  if a.isEmpty || b.isEmpty then .ok z
  else match dotGo 33 klen 0 z a b with
    | .error e => .error e
    | .ok v => if zmark ≠ 0 then .error (markEvent zmark) else .ok v

/-! ### The known-answer sum (R189) -/

/-- `h` of R189. -/
def katH (x mul add : Nat) : Int := s8Of ((x * mul + add) % 65536 / 256)

/-- The checksum of known-answer pattern `n`. -/
def katSum (n : Nat) : Nat :=
  (List.range 8).foldl (fun sum m => (List.range 32).foldl (fun sum j =>
    let p := (List.range 992).foldl (fun (p : Int) k =>
      p + katH (1024 * m + k) 0x9E37 (n * 0x7F4B) * katH (1024 * j + k) 0xC6EF (n * 0x3C6D)) 0
    (sum + (p % (2 ^ 64 : Nat)).toNat * (64 * m + 2 * j + 1)) % 2 ^ 64) sum) 0

end Sys2Proof.Machine
end

