-- ==== Sys2Proof/Machine/Vec.lean ====
section
/-! DEFINITION. V-words from issue to completion: what a word reads and writes (R137), how it is captured and queued (R66 to
R68, R126), what happens when it reaches the head of its queue (R103, R141 to R147), and how its results land (R28, R141). -/

namespace Sys2Proof.Machine

/-! ### Registers of a word (R137) -/

/-- The element count of a block format (R32, R156). -/
def blockLen (ty : Nat) : Nat := if ty = 11 then 124 else if ty = 12 then 62 else 31

/-- The elements `vcb` makes (R155). -/
def vcbLen (w : VFields) (rows : Nat) : Nat := rows * (if w.md % 2 = 1 then 64 else 32)

/-- The destination run of a word: first register and count. -/
def vDest (op : Nat) (w : VFields) (rows : Nat) : List Nat :=
  if op = 0 ∨ op = 2 ∨ op = 4 then run w.d rows
  else if op ≤ 5 then []
  else if op ≤ 0x1C0 then run w.d rows
  else if op = 0x1C1 ∨ op = 0x1C3 ∨ op = 0x200 then [w.d]
  else if op = 0x1C2 then run w.d (regsFor (blockLen w.ty) 4)
  else if op ≤ 0x205 then run w.d rows
  else []

/-- Whether B is a scalar (R150, R152, R160). -/
def vScalarB (op : Nat) (w : VFields) : Bool :=
  (decide (0x40 ≤ op) && decide (op ≤ 0x10E) && w.md / 2 % 2 == 1) || (op == 0x203 && w.md == 2)

/-- Whether an elementwise word reads B. -/
def vReadsB (op : Nat) : Bool :=
  decide (0x40 ≤ op) && decide (op ≤ 0x10C) &&
    !(op == 0x46 || op == 0x47 || op == 0x4B || op == 0x4E || op == 0x4F || (decide (0x106 ≤ op) && decide (op ≤ 0x10A)))

/-- The source registers of a word, each with its FE bit (R48, R141). -/
def vSrcs (op : Nat) (w : VFields) (rows : Nat) : List (Nat × Bool) :=
  let fa := bit w.fe 3
  let fb := bit w.fe 2
  let fc := bit w.fe 1
  let g (r n : Nat) (f : Bool) : List (Nat × Bool) := (run r n).map (·, f)
  if op ≤ 5 then
    (if op % 2 = 1 then g w.d rows false else []) ++
    (if op = 2 ∨ op = 3 then g w.c (regsFor (groupLen rows (tyBytes w.ty)) 4) fc else [])
  else if op ≤ 0x10F then
    g w.a rows fa ++ (if vReadsB op ∧ vScalarB op w = false then g w.b rows fb else []) ++
    (if op = 0x103 ∨ op = 0x104 then g w.c rows fc else [])
  else if op = 0x1C0 then g w.a ((vcbLen w rows + 255) / 256) fa ++ g w.c 1 fc
  else if op = 0x1C1 then g w.a (regsFor (blockLen w.ty) 4) fa ++ (if w.ty = 11 then g w.c 1 fc else [])
  else if op = 0x1C2 then g w.a 1 fa ++ (if w.ty = 11 then g w.c 1 fc else [])
  else if op = 0x1C3 then g w.a (if w.ty < 11 then rows else 1) fa ++ (if w.ty = 11 then g w.c 1 fc else [])
  else if op = 0x201 then g w.a rows fa ++ g w.b (regsFor (groupLen rows (tyBytes w.ty)) 2) fb
  else if op = 0x203 then (if w.md = 2 then [] else g w.a rows fa)
  else if op = 0x204 then g w.a rows fa ++ g w.b rows fb
  else if op ≤ 0x205 then g w.a rows fa
  else if op = 0x240 then g w.a rows fa ++ (if w.md < 4 then g w.b rows fb else [])
  else []

/-- The queue of a word (R64): 0 L, 1 A, 2 S. -/
def vQueue (op : Nat) (w : VFields) : Nat :=
  if op ≤ 5 then (if op % 2 = 1 then 2 else 0)
  else if op = 0x3FF then (if w.md = 1 then 0 else if w.md = 2 then 2 else 1)
  else 1

/-! ### Capture (R66, R68) -/

/-- What capturing a word gives. -/
inductive VTake where
  /-- an empty scalar or token with FE 0: issue waits -/
  | wait
  /-- illegal, or FE_EMPTY: cause and DATA -/
  | bad (cause data : Nat)
  | take (e : VEntry)

/-- The register advance of R66: Σ LSD_L × i_L over the active levels. -/
def Core.stride (x : Core) : Int :=
  ((List.range 6).map (fun l => if (x.q.loop l).act then
      (Sparse.get 0#12 x.c.lsd l).toInt * ((x.q.loop l).idx : Int) else 0)).sum

/-- The offset advance of R66. -/
def Core.strideOff (x : Core) : Int :=
  ((List.range 6).map (fun l => if (x.q.loop l).act then
      (Sparse.get 0#32 x.c.lso l).toInt * ((x.q.loop l).idx : Int) else 0)).sum

/-- A register field advanced where its SM bit asks for it; none where it leaves 0 to 2,047. -/
def advance (d : Int) (sm : Bool) (f : Nat) : Option Nat :=
  let v : Int := f + (if sm then d else 0)
  if 0 ≤ v ∧ v < 2048 then some v.toNat else none

/-- The word with its registers advanced. -/
def advFields (w : VFields) (d : Int) : Option VFields := do
  let vd ← advance d (bit w.sm 4) w.d
  let va ← advance d (bit w.sm 3) w.a
  let vb ← advance d (bit w.sm 2) w.b
  let vc ← advance d (bit w.sm 1) w.c
  return { w with d := vd, a := va, b := vb, c := vc }

/-- The fill number a reader captures (R239). -/
def Core.readerFill (x : Core) (h : Nat) : Nat :=
  let v := Sparse.get {} x.e.hnd h
  if v.st = 1 ∨ v.st = 2 then v.fillno else (v.fillno + 1) % 2 ^ 32

/-- Whether a reader that captured `fill` may proceed (R239). -/
def Core.readerGo (x : Core) (h fill : Nat) : Bool :=
  let v := Sparse.get {} x.e.hnd h
  v.fillno == fill && (v.st == 2 || v.st == 3)

/-- One more than the last copy command whose copies have all completed (R239, R297). -/
def Core.copyMark (x : Core) : Nat :=
  match x.e.copies with
  | [] => x.q.nid
  | k :: _ => if k.emitted ∧ k.fl.isEmpty then k.id + 1 else k.id

/-- The token and the scalar that a word reads at issue (R65, R141): token fields are A[4:0] and scalar fields B[5:0]. -/
def vScalars (op : Nat) (w : VFields) : List Src :=
  if op ≤ 5 then .k (w.a % 32) (bit w.fe 3) :: (if bit w.md 5 then [.s (w.b % 64) (bit w.fe 2)] else [])
  else if vScalarB op w then [.s (w.b % 64) (bit w.fe 2)]
  else []

/-- The granules of the registers that a word captures at issue (R68, R338). -/
def vCaptured (op : Nat) (w : VFields) : List Nat :=
  (vScalars op w).flatMap (Src.granule 0) ++ (if w.gc = 0 then [] else [pGran w.gc])

/-- `capture` of R68, then the checks of R67: what a word reads at issue comes before its legality. `floor` is what the context has read
by then (R304), `base` holds the word's place,
`op` and `w` its bits, and `i` the word where those are legal as they stand. -/
def Core.capture (x : Core) (now floor op : Nat) (w : VFields) (i : Option Instr) (base : VCap) : VTake :=
  match x.fetch 0 (if (vMake w op).isNone then [] else vScalars op w) with
  | .wait => .wait
  | .empty r => .bad 2 r
  | .ok =>
    if i.isNone then .bad 1 base.tag
    else
      match advFields w x.stride with
      | none => .bad 1 base.tag
      | some u =>
        let rows := x.c.rows
        match vMake u op with
        | none => .bad 1 base.tag
        | some j =>
          if (vDest op u rows ++ (vSrcs op u rows).map Prod.fst).all (fun r => decide (r < 2048)) then
            .take { i := j, cap := { base with
              id := x.q.nid, rows := rows
              tok := if op ≤ 5 then x.rdK 0 w.a else {}
              sb := if vScalarB op w ∨ (op ≤ 5 ∧ bit w.md 5) then x.rdS 0 w.b else 0#64
              off := w.imm.toInt + x.strideOff + (if op ≤ 5 ∧ bit w.md 5 then (x.rdS 0 w.b).toInt else 0)
              pred := if w.gc = 0 then {} else x.rdP w.gc
              rm := x.c.fpcr.toNat % 4, fiz := x.c.fpcr.getLsbD 2, foz := x.c.fpcr.getLsbD 3
              depth := x.q.regions.length
              fill := if op ≤ 5 ∧ bit w.md 4 then x.readerFill w.e else 0
              marks := vDest op u rows
              loops := (List.range 6).map (fun l => (x.q.loop l).idx)
              clk := now, floor := floor, bad := x.markAt (vCaptured op w) } }
          else .bad 1 base.tag

/-! ### Issue (R67, R126) -/

/-- The kernel of the image a core runs. -/
def State.kernel (s : State) (c : Nat) : Kernel :=
  match (s.core c).code.image with
  | some n => match Sparse.get none s.d.images n with
    | some im => im.kern
    | none => {}
  | none => {}

/-- The slip limit of a queue (R87, R126). -/
def Kernel.slip (k : Kernel) (q : Nat) : Nat := if q = 0 then k.slipL else if q = 1 then k.slipA else k.slipS

/-- A word enters its queue; its destinations are marked empty (R141). -/
def Core.enqueue (x : Core) (q : Nat) (e : VEntry) : Core :=
  let y := (x.markV e.cap.marks e.cap.id).vu (fun v =>
    v.setQueue q (v.queue q ++ [{ e with cap := { e.cap with wseq := x.q.wseq } }]))
  (if q = 2 then y.numbered else y).seq (fun s => { s with nid := s.nid + 1, point := 0 })

/-- Issue stops at an illegal word, or one whose scalar is empty with FE 1 (R67, R141). -/
def Core.arm (x : Core) (now cause data idx q : Nat) : Core :=
  x.seq (fun s => { s with
    nid := s.nid + 1
    armed := some { clk := s.nid, cause := cause, info := infoWord 0 false true q idx data, cont := false, vec := true,
                    arr := now } })

/-- What became of one word of a range. -/
inductive Sent where
  | wait
  | stop (x : Core)
  | ok (x : Core)

/-- Whether FO and LO withhold a word (R66): they refer to the innermost active level. -/
def Core.withheld (x : Core) (fo lo : Bool) : Bool :=
  match (List.range 6).find? (fun l => (x.q.loop l).act) with
  | none => false
  | some l => let p := x.q.loop l
              (fo && p.idx != 0) || (lo && p.idx + 1 != p.trip)

/-- The queue an illegal word's TINFO names: its OP's, or 3 where the OP names none (notes/assumptions/34.md). -/
def vTrapQueue (op : Nat) (w : VFields) : Nat := if (vMake w op).isSome then vQueue op w else 3

/-- Capture, check and enqueue one word; reading its scalar clears a Marver fault that stands in it (R180). -/
def State.send (s : State) (op : Nat) (w : VFields) (i : Option Instr) (base : VCap) : Sent :=
  let x := s.me
  match x.capture s.now (s.hbOf s.cur 0).seen op w i base with
  | .wait => .wait
  | .bad cause data => .stop (x.arm s.now cause data base.idx (vTrapQueue op w))
  | .take e =>
    if (s.kernel s.cur).slip (vQueue op w) ≤ (x.v.queue (vQueue op w)).length then .wait
    else .ok (((if e.cap.bad = 0 then x else x.foundAt (vCaptured op w)).touch 0 (vScalars op w)).enqueue
      (vQueue op w) e)

/-- The words and mask bytes of a control-store slot (R163). -/
def Core.slot (x : Core) (n : Nat) : List (BitVec 8 × VWordBits) := Sparse.get [] x.code.wcs n

/-- The substitution of R163: the stored word's OP and its fields. -/
def mcallWord (p : BitVec 8 × VWordBits) (m : VFields) : Nat × VFields :=
  let w := vfOf p.2.toNat
  let sub (b : Nat) (x y : Nat) : Nat := if p.1.getLsbD b then (x + y) % 2048 else x
  (fld p.2.toNat 118 10, { w with
    d := sub 4 w.d m.d, a := sub 3 w.a m.a, b := sub 2 w.b m.b, c := sub 1 w.c m.c, e := sub 0 w.e m.e,
    imm := if p.1.getLsbD 5 then w.imm + m.imm else w.imm, eox := w.eox || m.eox })

/-- A stored word as an instruction, where it is legal (R67, R163): mask bits 7:6 are clear and it is no `mcall`. -/
def mcallInstr (mask : BitVec 8) (op : Nat) (u : VFields) : Option Instr :=
  if 64 ≤ mask.toNat ∨ op = 0x280 then none else (vMake u op).filter (fun i => i.wf)

/-- The place a word issued now has (R68): that of the range under way, else of the context's next C-word. -/
def Core.place (x : Core) : VCap :=
  let i := x.q.issue
  if i.act then
    { pc := i.pc, idx := i.cur, tag := if i.swpl then (if i.ph = 2 then i.trip - 1 else i.iter) else 0,
      inst := if i.swpl then i.inst else 0, epi := i.swpl && i.ph == 2 }
  else { pc := x.q.pc }

/-- Set the place within the range under way. -/
def Core.issuing (x : Core) (f : Issue → Issue) : Core := x.seq (fun q => { q with issue := f q.issue })

/-- Index i0 of the `swpl` under way. -/
def Core.setI0 (x : Core) (n : Nat) : Core := x.seq (fun q => q.setLoop 0 { q.loop 0 with idx := n })

/-- The range under way is complete: a `viss` is one C-word, a `swpl` two, and level 0 closes (R126, R127). -/
def Core.issued (x : Core) : Core :=
  let i := x.q.issue
  let y := x.seq (fun q => { (if i.swpl then q.closeTo 0 else q) with issue := {} })
  y.next 0 (if i.swpl then 2 else 1)

/-- The next word of the range under way, by the phases of R127. An iteration boundary (R97) follows each kernel pass. -/
def Core.advanceIssue (x : Core) : Core :=
  let i := x.q.issue
  if i.cur + 1 < i.fin then x.issuing (fun i => { i with cur := i.cur + 1, mpos := 0 })
  else if !i.swpl then x.issued
  else if i.ph = 0 then (x.issuing (fun i => { i with ph := 1, iter := 0, cur := i.ker, fin := i.epi, mpos := 0 })).setI0 0
  else if i.ph = 1 then
    let y := x.seq (fun q => { q with point := 1 })
    if i.iter + 1 < i.trip then (y.issuing (fun i => { i with iter := i.iter + 1, cur := i.ker, mpos := 0 })).setI0 (i.iter + 1)
    else if i.epi < i.last then
      (y.issuing (fun i => { i with ph := 2, iter := i.trip, cur := i.epi, fin := i.last, mpos := 0 })).setI0 (i.trip - 1)
    else x.issued.seq (fun q => { q with point := 1 })
  else x.issued

/-- A word that FO or LO withholds takes no clock (R126). -/
def State.withholds (s : State) (x : Core) : State := { s.setCore s.cur x with noClock := true }

/-- One word of an `mcall` expansion (R163): illegal where the slot or the stored word is. An empty slot has no stored word, and
TINFO.QUEUE is 3 (notes/assumptions/34.md). (DEDUCED.) -/
def mcallStep (w : VFields) (s : State) : Out :=
  let x := s.me
  let i := x.q.issue
  let words := x.slot w.md
  let last := decide (words.length ≤ i.mpos + 1)
  let on (y : Core) : Core := if last then (if i.act then y.advanceIssue else y) else y.issuing (fun i => { i with mpos := i.mpos + 1 })
  match words[i.mpos]? with
  | none => .next (s.setCore s.cur (x.arm s.now 1 x.place.tag x.place.idx 3))
  | some p =>
    let op := (mcallWord p w).1
    let u := (mcallWord p w).2
    if x.withheld u.fo u.lo then .next (s.withholds (on x))
    else match s.send op u (mcallInstr p.1 op u) x.place with
      | .wait => stall s
      | .stop y => .next (s.setCore s.cur y)
      | .ok y => .next (s.setCore s.cur (on y))

/-- One V-word of the range under way issues, is withheld, waits, or stops issue (R68); a half of it that holds bad data raises
an event (R338). The queue of an illegal word is (DEDUCED, notes/assumptions/34.md). -/
def issueStep (s : State) : Out :=
  let x := s.me
  let bits := Sparse.get 0#128 x.code.vec x.q.issue.cur
  let w := vfOf bits.toNat
  let op := fld bits.toNat 118 10
  let i := (decodeV bits).toOption
  let h := 2 ^ 15 + 2 * x.q.issue.cur
  if Sparse.get 0 x.code.bad h ≠ 0 then s.codeContained h
  else if Sparse.get 0 x.code.bad (h + 1) ≠ 0 then s.codeContained (h + 1)
  else if x.withheld w.fo w.lo then .next (s.withholds x.advanceIssue)
  else if op = 0x280 ∧ i.isSome then mcallStep w s
  else match s.send op w i x.place with
    | .wait => stall s
    | .stop y => .next (s.setCore s.cur y)
    | .ok y => .next (s.setCore s.cur y.advanceIssue)

/-- Whether the main context may issue the next word of its range. -/
def State.mayGoOn (s : State) : Bool :=
  !s.halted && s.ctx == 0 && s.me.q.st == .running && s.me.q.issue.act && s.me.q.armed == none &&
    (s.me.q.holdOf 0).k == .free

/-- R57, R126: `viss` issues the V-words `start` to `start + count − 1`, one each turn; a range past the loaded vector
section traps CODEFETCH with the first index outside. -/
def execViss (start count : Nat) (s : State) : Out :=
  if s.me.q.issue.act ∧ s.ctx = 0 then (if s.mayGoOn then issueStep s else stall s)
  else issue (.viss start count) s [] (fun s =>
    let n := s.me.code.vecLen
    if n < start + count then trap s 7 (max start n)
    else issueStep (s.upd (fun x => (x.seq (fun q => q.leave 0)).issuing (fun _ =>
      { act := true, pc := s.pc, cur := start, fin := start + count }))))

/-- R127: `swpl` issues a prologue, `n` kernel passes tagged 0 to n − 1, and an epilogue. The order of its checks, CODEFETCH
last, so that n = 0 completes whatever its range, is the model's (DESIGN CHOICE, notes/assumptions/63.md); so is that it runs
under TACT = 1 (DESIGN CHOICE, notes/assumptions/67.md), and the first and last C-word of its level 0, which no word has: 2¹⁵ (DESIGN
CHOICE, notes/assumptions/21.md). -/
def execSwpl (f : SwplF) (s : State) : Out :=
  if s.me.q.issue.act ∧ s.ctx = 0 then (if s.mayGoOn then issueStep s else stall s)
  else issue (.swpl f) s [.s f.a f.fea] (fun s =>
    let x := s.me
    let n := (s.sc f.a).toNat
    let len := x.code.vecLen
    if (x.q.loop 0).act then illegal (.swpl f) s
    else if 2 ^ 32 ≤ n then trap s 4 (n / 2 ^ 32)
    else if n = 0 then .next (s.done 2)
    else if len < f.fin then trap s 7 (max f.pro len)
    else
      let pro := decide (f.pro < f.ker)
      issueStep (s.upd (fun x => (x.tickId.seq (fun q => (q.leave 0).setLoop 0
          { act := true, idx := 0, trip := n, first := 2 ^ 15, last := 2 ^ 15 })).issuing (fun _ =>
        { act := true, swpl := true, pc := s.pc, cur := if pro then f.pro else f.ker,
          fin := (if pro then f.ker else f.epi), ph := (if pro then 0 else 1), iter := 0, trip := n, ker := f.ker,
          epi := f.epi, last := f.fin, inst := x.q.nid }))))

/-- R128: `vsync` waits until every V-word issued before it to the selected queues has completed. -/
def execVsync (l a q : Bool) (s : State) : Out :=
  drainWord (.vsync l a q) s [] .drain
    (fun s n => (!l || s.me.vDone 0 0 n) && (!a || s.me.vDone 1 0 n) && (!q || s.me.vDone 2 0 n))
    (fun s => .next (s.done 1))

/-! ### At the head of a queue -/

/-- What a word does once its sources are full. -/
inductive VRes where
  | wait
  | trap (cause : Nat)
  | done (s : State) (wr : List (Nat × VReg × VReg)) (flags : BitVec 6)
  /-- part of a memory word has been performed (R384) -/
  | next (s : State)

/-- A V-word's trap (R103): it has no effect, and every later word that has not executed is discarded. -/
def Core.vTrap (x : Core) (now q cause data : Nat) (cap : VCap) : Core :=
  let y := (x.discard q cap).discardIf (fun c => decide (cap.id ≤ c.id))
  (y.seq (fun s => { s with armed := none })).late
    { clk := cap.id, cause := cause, info := infoWord 0 false true q cap.idx data, cont := false, vec := true, arr := now }

/-- A source register is full for word `id` when no other producer holds it (R141, R142). -/
def Core.vFull (x : Core) (id r : Nat) : Bool := (x.vMarks r).all (· == id)

/-- The register a word waits for, and whether it is to trap (R141). -/
def Core.vAwait (x : Core) (op : Nat) (w : VFields) (cap : VCap) : Option (Nat × Bool) :=
  let l := (vSrcs op w cap.rows).filter (fun p => !x.vFull cap.id p.1)
  match l.find? (fun p => !p.2) with
  | some p => some p
  | none => l.head?

/-- Whether R145 discards a word: its `swpl` has ended before its iteration. -/
def Core.ended (x : Core) (w : VFields) (cap : VCap) : Bool :=
  match x.v.ends.find? (fun p => p.1 == cap.inst) with
  | some p => cap.inst != 0 && decide (p.2 < cap.tag) && !cap.epi && !w.eox
  | none => false

/-- A word that has executed: it leaves its queue, and its results are in flight until its pipe completes it. -/
def Core.executed (x : Core) (q : Nat) (cap : VCap) (wr : List (Nat × VReg × VReg)) (flags : BitVec 6) : Core :=
  let y := x.leave q cap.id
  if cap.marks = [] ∧ flags = 0#6 then y
  else y.vu (fun v => { v with fl := v.fl ++
    [{ id := cap.id, q := q, marks := cap.marks, wr := wr, flags := flags, clk := cap.clk }] })

/-- The entries of the mask stack that a word reads, counted from the bottom: `mt` where it selects under the stack or by it, pushes or skips,
and the one below it too where it inverts `mt` (R140, R147, R151, R161, R162). -/
def Core.readsMask (x : Core) (op : Nat) (w : VFields) : List Nat :=
  let n := x.r.masks.length
  if op = 0x241 then run (n - 2) (min n 2)
  else if op = 0x240 ∨ op = 0x243 ∨ op = 0x050 ∨ w.gm ≠ 0 then run (n - 1) (min n 1)
  else []

/-- The granules of the registers a word consumes that hold bad data (R338, R339): a store moves its data. A word reads its source
registers whole (notes/assumptions/59.md). -/
def Core.vBad (x : Core) (op : Nat) (w : VFields) (cap : VCap) : List Nat :=
  let rs := (if op ≤ 5 ∧ op % 2 = 1 then (vSrcs op w cap.rows).drop cap.rows else vSrcs op w cap.rows).map Prod.fst
  (x.r.bad.filter (fun p => (decide (512 ≤ p.1) && decide (p.1 < pGran 0) && rs.contains ((p.1 - 512) / 16)) ||
    (x.readsMask op w).any (fun d => (run (mGran d 0) 12).contains p.1))).map Prod.fst

/-- A word that consumes bad data of its registers, or of a scalar or token it captured, writes nothing and raises the event (R339). -/
def vSourceContained (q m : Nat) (cap : VCap) (s : State) : Out :=
  let e := markEvent m
  .next ((s.contain s.cur 0 e.1 (1 + q) e.2 cap.idx cap.id true q).upd (fun x => x.executed q cap [] 0#6))

/-- The word at the head of queue `q`, with its fields advanced and its capture `cap`. -/
def vHead (op q : Nat) (w : VFields) (cap : VCap) (s : State) (body : State → VRes) : Out :=
  let x := s.me
  if x.ended w cap ∧ cap.done = [] then .next (s.upd (fun x => x.discard q cap))
  else if q = 1 ∧ x.v.skip ≠ 0 then .next (s.upd (fun x => (x.discard q cap).vu (fun v => { v with skip := v.skip - 1 })))
  else if q = 2 ∧ cap.inst ≠ 0 ∧ x.v.qa.any (fun e => e.cap.inst == cap.inst && decide (e.cap.id < cap.id)) then .next s
  else match x.vAwait op w cap with
    | some (_, false) => .next s
    | some (r, true) => .next (s.upd (fun x => x.vTrap s.now q 2 r cap))
    | none =>
      if cap.bad ≠ 0 then
        vSourceContained q cap.bad cap (if 2 ^ 16 < cap.bad then s.uncorrected (markEvent cap.bad).2 else s)
      else if x.vBad op w cap ≠ [] then vSourceContained q (x.markAt (x.vBad op w cap)) cap (s.readGranules s.cur (x.vBad op w cap))
      else match body s with
      | .wait => .next s
      | .next t => .next t
      | .trap cause => .next (s.upd (fun x => x.vTrap s.now q cause cap.tag cap))
      | .done t wr flags => .next (t.upd (fun x => x.executed q cap wr flags))

/-- A V-word: run by its pipe it must be its queue's head; run by itself it is captured now (R68) and reaches an empty
queue's head at once. -/
def vword (i : Instr) (w : VFields) (s : State) (body : VFields → VCap → State → VRes) : Out :=
  match vParts i with
  | none => .next s
  | some (op, w0) =>
    let q := vQueue op w
    match s.pipe with
    | some cap =>
      if ((s.me.v.queue q).head?.map (fun e => e.cap.id)) = some cap.id then vHead op q w cap s (body w cap) else .next s
    | none =>
      match s.me.capture s.now (s.hbOf s.cur 0).seen op w0 (if i.wf then some i else none) s.me.place with
      | .wait => stall s
      | .bad cause data => .next (s.upd (fun x => x.arm s.now cause data x.place.idx q))
      | .take e =>
        match vParts e.i with
        | none => .next s
        | some (_, u) =>
          let t := s.upd (fun x => ((x.touch 0 (vScalars op w)).markV e.cap.marks e.cap.id).tickId)
          vHead op q u e.cap t (body u e.cap)

/-- R163: `mcall` expands at issue. -/
def execMcall (w : VFields) (s : State) : Out := mcallStep w s

/-! ### Completion -/

/-- Bits of a vector register are written: a granule overwritten whole is clean, and an error in one that a partial write merges into is
found (R338). -/
def Core.granulesWritten (x : Core) (r : Nat) (mask : VReg) : Core :=
  if x.r.bad = [] then x
  else
    { x with r := { x.r with bad := (List.range 16).foldl (fun (m : Sparse Nat) g =>
      let b := mask.extractLsb' (64 * g) 64
      if b = 0#64 then m
      else Sparse.set 0 m (vGran r g) (if b = BitVec.allOnes 64 then 0 else markFound (Sparse.get 0 m (vGran r g)))) x.r.bad } }

/-- The results of a word land in its registers (R139, R141) and its flags in FPSR (R28). -/
def Core.land (x : Core) (f : Flight) : Core :=
  let y := f.wr.foldl (fun (x : Core) (p : Nat × VReg × VReg) =>
    (x.putV p.1 ((x.rdV p.1 &&& ~~~p.2.1) ||| (p.2.2 &&& p.2.1))).granulesWritten p.1 p.2.1) x
  ((y.dropV f.marks f.id).orFpsr f.flags).vu (fun v => { v with fl := v.fl.filter (fun g => g.id != f.id) })

/-- R141: the oldest word in flight of pipe `q` of core `c` completes. -/
def execVwordFill (c q : Nat) (s : State) : Out :=
  match (s.core c).v.fl.find? (fun f => f.q == q) with
  | some f => .next (s.mod c (fun x => x.land f))
  | none => .next s

/-- A trap on its way that its own clock and its cause order (R103): of those that arose on one clock the earliest issued is
taken and the others are lost. -/
def Core.oldestLate (x : Core) : Option Late :=
  match x.q.late with
  | [] => none
  | l :: rest => some (rest.foldl (fun b c => if c.arr = b.arr ∧ c.clk < b.clk then c else b) l)

/-- Take the oldest trap on its way at a C-word boundary (R103): a range part-way through issue is abandoned, and an `end` has
issued. -/
def Core.takeLate (x : Core) (l : Late) : Core :=
  let y := x.seq (fun q => { (q.abandon.setHold 0 {}) with
    armed := none
    late := q.late.filter (fun k => k.arr != l.arr) })
  (y.takeTrap l.cause l.info (if x.q.st = .ending then y.q.pc + 1 else y.q.pc)).seq (fun q => { q with nid := q.nid + 1 })

/-- R67, R141: once every V-word issued before it has left its queue, the word that stopped issue traps. ILLEGAL leaves TPC at
the issuing C-word, FE_EMPTY at the C-word after it; issue is over either way. A trap that comes before it is taken first, and
the word is then discarded (R103). -/
def execVwordIllegalTrap (c : Nat) (s : State) : Out :=
  let x := s.core c
  match x.q.armed with
  | none => .next s
  | some l =>
    if x.v.ql.isEmpty && x.v.qa.isEmpty && x.v.qs.isEmpty && !x.beaten s.now l.clk && x.q.late.all (fun k => k.arr == s.now) then
      .next (s.mod c (fun x =>
        let at' := if x.q.issue.act then x.q.issue.pc else x.q.pc
        let y := (x.takesNow s.now).seq (fun q => { q.abandon with armed := none })
        (y.takeTrap l.cause l.info (if l.cause = 1 then at' else y.q.pc)).tickId))
    else .next s

end Sys2Proof.Machine
end

