-- ==== Sys2Proof/Machine/Marver.lean ====
section
/-! DEFINITION. Marver commands (R175 to R192): the lease, issue and its checks, acceptance, the steps, and completion. -/

namespace Sys2Proof.Machine

/-! ### Issue (R173, R175, R179, R183) -/

/-- Commands of core `c` that have issued and not completed, in order of their Marver and of the core's queue. -/
def State.mxOwn (s : State) (c : Nat) : List MxCmd :=
  ((s.marver (s.cfg.marver c)).order.filter (fun k => k.core == c)) ++ (s.core c).e.mxq

/-- The running task, by number; 0 for none. -/
def Core.uid (x : Core) : Nat := match x.task with | some t => t.uid | none => 0

/-- The task that holds an accumulator, 0 for none (R173). -/
def State.zOwner (s : State) (mv z : Nat) : Nat := Sparse.get 0 s.accOwner (mv * 64 + z)

/-- Whether core `c`'s task holds accumulator `z` once its earlier `mx.zfree`s have been applied (R173). -/
def State.holdsZ (s : State) (c z : Nat) : Bool :=
  (s.core c).uid != 0 && s.zOwner (s.cfg.marver c) z == (s.core c).uid && !(s.core c).e.zfree.any (fun p => p.2 == z)

/-- Whether an `mx.zalloc` of `z` by core `c` is in progress (R173). -/
def State.zallocs (s : State) (c z : Nat) : Bool :=
  (s.mxOwn c).any (fun k => match k.i with | .mxZalloc _ y => y == z | _ => false)

/-- The scalar sources of a command, with their FE bits. -/
def mxSrcs (f : MxMemF) (a c : Bool) : List Src :=
  (if a then [.s f.a f.fea] else []) ++ [.s f.b f.feb] ++ (if c then [.s f.c f.fec] else []) ++ [.k f.k false]

/-- The start of a command's memory: sB + OFF32 (R184). -/
def mxStart (f : MxMemF) (s : State) : Int := (s.sc f.b).toInt + f.off.toInt

/-- A column-range word (R186). -/
structure ColWord where
  top : Nat
  pane : Nat
  mxn : Nat
  slot : Nat
  nc : Nat
  c0 : Nat
  mid : Nat
  boff : Nat

/-- The fields of a column-range word. -/
def colWord (w : Nat) : ColWord :=
  { top := fld w 52 12, pane := fld w 48 4, mxn := fld w 46 2, slot := fld w 36 10, nc := fld w 26 10, c0 := fld w 17 9,
    mid := fld w 10 7, boff := fld w 0 10 }

/-- Whether an `mx.bld`'s column-range word is right (R186). -/
def bldOk (g : CfgSt) (w : Nat) (mirror : Bool) : Bool :=
  let u := colWord w
  u.top == 0 && u.mid == 0 && u.boff == 0 && decide (u.slot < 768) && decide (1 ≤ u.nc) && decide (u.nc ≤ g.ncol) &&
    decide (u.c0 + u.nc ≤ (if mirror then g.ncol / 2 else g.ncol))

/-- A command as it is captured: its words, scalars and token (R179). -/
def mxCmd (s : State) (i : Instr) (a b c : Nat) (k : Nat) : MxCmd :=
  { id := s.id, core := s.cur, ctx := s.ctx, i := i, a := s.sc a, b := s.sc b, c := s.sc c, tok := s.tk k, pc := s.pc,
    depth := s.me.q.regions.length, wseq := s.me.q.wseq, hb := s.hbOf s.cur s.ctx }

/-- A Marver command issues: `zs` are the accumulators it names, `held` those its task must hold, `ok` its operand rules,
`cap` its capture, `d` its status scalar, `vs` the vector registers it will fill, `mem` whether it writes memory. -/
def mxIssue (i : Instr) (s : State) (l : List Src) (leased : Bool) (zs held : List Nat) (ok : State → Bool)
    (cap : State → MxCmd) (d : Nat) (vs : List Nat) (mem : Bool) (n : Nat) : Out :=
  issue i s l (fun s =>
    if 4 ≤ (s.mxOwn s.cur).length ∨ zs.any (s.zallocs s.cur) then stall s
    else if leased ∧ (s.marver (s.cfg.marver s.cur)).holder ≠ some s.cur then trap s 11 (minOf i)
    else if !held.all (s.holdsZ s.cur) then illegal i s
    else if !ok s then illegal i s
    else
      .next (s.upd (fun x =>
        let y := ((x.markS s.ctx d s.id).markV vs s.id).eng (fun e => { e with mxq := e.mxq ++ [cap s] })
        (if mem then y.numbered else y).next s.ctx n)))

/-- R175, R176: `mx.lease` waits until its core holds the lease, or has held it since: a grant may lapse before the context has its
turn. A holder renews the lease while no other core waits. -/
def execMxLease (s : State) : Out :=
  let mv := s.cfg.marver s.cur
  let m := s.marver mv
  if s.hold.k = .lease then (if m.holder = some s.cur ∨ !m.waiters.contains s.cur then .next (s.done 1) else stall s)
  else issue .mxLease s [] (fun s =>
    let queue (m : Marver) : State :=
      s.setMarver mv { m with waiters := if m.waiters.contains s.cur then m.waiters else m.waiters ++ [s.cur] }
    if m.holder = some s.cur then
      (if m.waiters.all (· == s.cur) then .next ((s.setMarver mv { m with left := m.len }).done 1)
      else .next ((queue { m with holder := none, last := s.cur }).holds .lease))
    else .next ((queue m).holds .lease))

/-- The lease of core `c` ends (R175). -/
def Marver.lapse (m : Marver) (c : Nat) : Marver := if m.holder = some c then { m with holder := none, last := c } else m

/-- R176: `mx.free` releases the lease at issue. -/
def execMxFree (s : State) : Out :=
  issue .mxFree s [] (fun s =>
    let mv := s.cfg.marver s.cur
    .next ((s.setMarver mv ((s.marver mv).lapse s.cur)).done 1))

/-- R185: `mx.cbtab`. -/
def execMxCbtab (f : MxMemF) (s : State) : Out :=
  mxIssue (.mxCbtab f) s (mxSrcs f false false) true [] [] (fun s => decide (mxStart f s % 64 = 0))
    (fun s => mxCmd s (.mxCbtab f) 0 f.b 0 f.k) f.d [] false 2

/-- R186: `mx.bld`. -/
def execMxBld (f : MxMemF) (s : State) : Out :=
  mxIssue (.mxBld f) s (mxSrcs f true false) true [] []
    (fun s => decide (mxStart f s % 64 = 0) && bldOk s.cfg (s.sc f.a).toNat false)
    (fun s => mxCmd s (.mxBld f) f.a f.b 0 f.k) f.d [] false 2

/-- R186: `mx.bld.mirror`. -/
def execMxBldMirror (f : MxMemF) (s : State) : Out :=
  mxIssue (.mxBldMirror f) s (mxSrcs f true false) true [] []
    (fun s => decide (mxStart f s % 64 = 0) && bldOk s.cfg (s.sc f.a).toNat true)
    (fun s => mxCmd s (.mxBldMirror f) f.a f.b 0 f.k) f.d [] false 2

/-- R187: `mx.tld`. -/
def execMxTld (f : MxMemF) (s : State) : Out :=
  mxIssue (.mxTld f) s (mxSrcs f false true) true [] []
    (fun s => decide (mxStart f s % 64 = 0) && (s.sc f.c).toNat % 64 == 0)
    (fun s => mxCmd s (.mxTld f) 0 f.b f.c f.k) f.d [] false 2

/-- Whether an mm word lies within its limits (R188). -/
def mmOk (f : MmF) (g : CfgSt) : Bool :=
  decide (f.slot < 768) && decide (1 ≤ f.nc) && decide (f.c0 + f.nc ≤ g.ncol) && decide (1 ≤ f.klen) &&
    decide (f.klen ≤ 1984) && (!f.mir || f.c0 / (g.ncol / 2) == (f.c0 + f.nc - 1) / (g.ncol / 2))

/-- R188: `mx.mm`. With HW it is a reader of its handle (R239). -/
def execMxMm (f : MmF) (s : State) : Out :=
  mxIssue (.mxMm f) s [] true [f.z] [f.z] (fun s => mmOk f s.cfg)
    (fun s => { mxCmd s (.mxMm f) 0 0 0 0 with fill := if f.hw then s.me.readerFill f.h else 0 }) f.d [] false 2

/-- R189: `mx.kat`. -/
def execMxKat (d n g : Nat) (sum : Word) (s : State) : Out :=
  mxIssue (.mxKat d n g sum) s [] true [] [] (fun s => decide (g < s.cfg.ncol / 32))
    (fun s => mxCmd s (.mxKat d n g sum) 0 0 0 0) d [] false 2

/-- R190: `mx.zalloc`. -/
def execMxZalloc (d z : Nat) (s : State) : Out :=
  mxIssue (.mxZalloc d z) s [] false [z] [] (fun _ => true) (fun s => mxCmd s (.mxZalloc d z) 0 0 0 0) d [] false 1

/-- R190: `mx.zfree` releases its accumulator once the task's earlier commands have completed. -/
def execMxZfree (z : Nat) (s : State) : Out :=
  issue (.mxZfree z) s [] (fun s =>
    if s.zallocs s.cur z then stall s
    else if !s.holdsZ s.cur z then illegal (.mxZfree z) s
    else if s.mxOwn s.cur = [] then
      .next (({ s with accOwner := Sparse.set 0 s.accOwner (s.cfg.marver s.cur * 64 + z) 0 }).done 1)
    else .next ((s.upd (fun x => x.eng (fun e => { e with zfree := e.zfree ++ [(s.id, z)] }))).done 1))

/-- R191: `mx.zld`. -/
def execMxZld (f : MxMemF) (s : State) : Out :=
  mxIssue (.mxZld f) s (mxSrcs f false false) true [f.a] [f.a] (fun s => decide (mxStart f s % 64 = 0))
    (fun s => mxCmd s (.mxZld f) 0 f.b 0 f.k) f.d [] false 2

/-- R191: `mx.zst`. -/
def execMxZst (f : MxMemF) (s : State) : Out :=
  mxIssue (.mxZst f) s (mxSrcs f false false) true [f.a] [f.a] (fun s => decide (mxStart f s % 64 = 0))
    (fun s => mxCmd s (.mxZst f) 0 f.b 0 f.k) f.d [] true 2

/-- R191: `mx.zcpy`. -/
def execMxZcpy (d za zb : Nat) (s : State) : Out :=
  mxIssue (.mxZcpy d za zb) s [] true [za, zb] [za, zb] (fun _ => true)
    (fun s => mxCmd s (.mxZcpy d za zb) 0 0 0 0) d [] false 1

/-- q of R192: the registers one row fills. -/
def outQ (f : OutF) : Nat := regsFor f.nc (tyBytes f.ty)

/-- The vector registers an `mx.out` fills. -/
def outRegs (f : OutF) : List Nat := if f.dst then [] else run f.vn ((f.nr + 1) * (outQ f))

/-- Whether an out word lies within its limits (R192). -/
def outOk (f : OutF) : Bool :=
  decide (f.ty ≤ 10) && decide (f.r0 + f.nr + 1 ≤ 128) && decide (1 ≤ f.nc) && decide (f.nc ≤ 512) &&
    decide (f.c0 + f.nc ≤ 512) && (f.dst || decide (f.vn + (f.nr + 1) * (outQ f) ≤ 2048))

/-- R192: `mx.out`. -/
def execMxOut (f : OutF) (s : State) : Out :=
  mxIssue (.mxOut f) s (if f.dst then [.s f.b f.feb, .s f.c f.fec, .k f.k false] else []) true [f.z] [f.z]
    (fun _ => outOk f) (fun s => mxCmd s (.mxOut f) 0 f.b f.c f.k) f.d (outRegs f) f.dst 2

/-! ### The lease and acceptance (R175, R179) -/

/-- Whether a command is a leased one (R175). -/
def leasedCmd : Instr → Bool
  | .mxZalloc _ _ | .mxZfree _ => false
  | _ => true

/-- The next waiting core (R175): highest PRIO, then the first in cyclic order after the last holder. -/
def State.leaseNext (s : State) (m : Marver) : Option Nat :=
  let key (c : Nat) : Nat := (3 - (s.core c).c.prio) * 1024 + (c + 1023 - m.last) % 1024
  match m.waiters with
  | [] => none
  | c :: rest => some (rest.foldl (fun b d => if key d < key b then d else b) c)

/-- R175: a free lease goes to the waiting core whose turn it is. -/
def execLeaseGrant (m : Nat) (s : State) : Out :=
  let v := s.marver m
  match v.holder, s.leaseNext v with
  | none, some c => .next (s.setMarver m { v with holder := some c, left := v.len, waiters := v.waiters.filter (· != c) })
  | _, _ => .next s

/-- R175, R179: the Marver accepts core `c`'s oldest queued command. -/
def execMxAccept (c : Nat) (s : State) : Out :=
  let x := s.core c
  let mv := s.cfg.marver c
  let m := s.marver mv
  match x.e.mxq with
  | [] => .next s
  | k :: rest =>
    if x.q.st = .stopping then .next s
    else
      let m1 := { m with order := m.order ++ [k] }
      let m2 := if leasedCmd k.i ∧ m.holder = some c then
          (if m.left ≤ 1 then m1.lapse c else { m1 with left := m.left - 1 })
        else m1
      .next ((s.setMarver mv m2).mod c (fun x => x.eng (fun e => { e with mxq := rest })))

/-! ### Steps (R185 to R193) -/

/-- The steps of a command (R193). -/
def mxSteps (k : MxCmd) : Nat :=
  match k.i with
  | .mxMm _ | .mxTld _ | .mxZld _ | .mxZst _ | .mxZcpy _ _ _ => 16
  | .mxBld _ | .mxBldMirror _ => (colWord k.a.toNat).nc
  | .mxOut f => (f.nr + 8) / 8
  | _ => 1

/-- The memory operand of a command: its order, its start, and whether it reads (R184, R310). -/
def mxMem (k : MxCmd) : Option (Ordr × Int × Bool) :=
  match k.i with
  | .mxCbtab f | .mxBld f | .mxBldMirror f | .mxTld f | .mxZld f => some (f.ord, k.b.toInt + f.off.toInt, true)
  | .mxZst f => some (f.ord, k.b.toInt + f.off.toInt, false)
  | .mxOut f => if f.dst then some (f.ord, k.b.toInt, false) else none
  | _ => none

/-- Put a changed command back in its Marver's order. -/
def State.putMx (s : State) (mv : Nat) (k : MxCmd) : State :=
  let m := s.marver mv
  s.setMarver mv { m with order := m.order.map (fun j => if j.core = k.core ∧ j.id = k.id then k else j) }

/-- A command's status takes a code; the first one stays, but a revocation replaces a token failure (R180, R385). -/
def MxCmd.code_ (k : MxCmd) (code info : Nat) : MxCmd := if k.code = 0 then { k with code := code, info := info } else k

/-- The failures of a command's blocks in its status (R181, R385). -/
def MxCmd.failedBy (k : MxCmd) (f : Option Failed) : MxCmd :=
  match f with
  | none => k
  | some e => if e.killed then { k with code := 7, info := e.entry } else k.code_ 2 e.entry

/-- The steps of a command advance; after the last, or after one at whose end it is to stop, it is done. -/
def MxCmd.stepped (k : MxCmd) : MxCmd := { k with step := k.step + 1, done := decide (mxSteps k ≤ k.step + 1) || k.cut }

/-- The engine consumed bad data (R339, R343): one event, and the command stops after its step with its status unchanged. -/
def State.mxEvent (s : State) (k : MxCmd) (e : Option (Nat × Nat)) : State × MxCmd :=
  match e with
  | none => (s, k)
  | some p =>
    if k.silent then (s, k)
    else (s.contain k.core k.ctx p.1 5 p.2 (if k.ctx = 0 then 0 else k.pc) k.id false 3, { k with cut := true, silent := true })

/-- A command as an agent. -/
def MxCmd.agent (k : MxCmd) : Agent :=
  { core := k.core, ctx := k.ctx, id := k.id, eng := 1, acqd := k.acqd, hb := k.hb, wseq := k.wseq, wunit := k.wunit
    ord := match mxMem k with
      | some (o, _, _) => o
      | none => { acq := false, rel := false, scope := 0 } }

/-- Whether a V-word issued before `id` still touches one of the registers (R192). -/
def Core.vTouches (x : Core) (id : Nat) (rs : List Nat) : Bool :=
  [0, 1, 2].any (fun q => (x.v.queue q).any (fun e => decide (e.cap.id < id) &&
    match vParts e.i with
    | some (op, w) => (e.cap.marks ++ (vSrcs op w e.cap.rows).map Prod.fst).any (fun r => rs.contains r)
    | none => false)) ||
  x.v.fl.any (fun f => decide (f.id < id) && f.marks.any (fun r => rs.contains r))

/-- Whether a command may begin (R181, R188, R192). An `mx.mm` waits at the head for its handle, and every core's later commands wait
behind it (R194). -/
def State.mxReady (s : State) (k : MxCmd) : Bool :=
  match k.i with
  | .mxMm f => !f.hw || decide (0 < k.step) || (s.core k.core).readerGo f.h k.fill
  | .mxOut f => if f.dst then s.engFree k.core k.ctx k.id k.wseq else !(s.core k.core).vTouches k.id (outRegs f)
  | _ => match mxMem k with
    | none => true
    | some _ => s.engFree k.core k.ctx k.id k.wseq

/-- A command begins at the head of its Marver's order: an `mx.mm` judges its handle and swaps (R169, R188). -/
def State.mxBegin (s : State) (mv : Nat) (k : MxCmd) : State :=
  let b := { k with begun := true }
  match k.i with
  | .mxMm f =>
    if f.hw ∧ k.step = 0 ∧ (Sparse.get {} (s.core k.core).e.hnd f.h).err then
      s.putMx mv { b with code := 3, info := f.h, done := true }
    else
      let m := s.marver mv
      let t := if m.cslot = some f.slot ∧ m.stale = false then s else s.swap mv f.slot
      let h := t.cfg.ncol / 2
      let cols := run f.c0 f.nc
      let tag (c : Nat) : Bool := Sparse.get false t.mirror (mirrorKey mv f.slot c)
      let all := (cols ++ cols.map (fun c => if c < h then c + h else c - h))
      let bad := (List.range t.cfg.ncol).find? (fun c => all.contains c && !tag c)
      let u := match f.mir, bad with
        | true, none => { b with mirrored := true }
        | true, some c => b.code_ 5 c
        | false, _ => b
      t.putMx mv u
  | .mxTld f => (s.mod k.core (fun x => x.eng (fun e => { e with twr := e.twr ||| (1#8 <<< f.a) }))).putMx mv b
  | _ => s.putMx mv b

/-- Write an accumulator band's elements with their marks, by granule (R191, R338); an element with no value stays. -/
def State.putBand (s : State) (mv z step : Nat) (vals : List (Option Nat)) (bad : List (Nat × Nat)) : State :=
  let k0 := zKey mv z (8 * step) 0
  let els := (vals.zip (List.range vals.length)).foldl
    (fun (m : Sparse (BitVec 32)) p => match p.1 with
      | some v => Sparse.set 0#32 m (k0 + p.2) (BitVec.ofNat 32 v)
      | none => m) s.accum
  let old := Sparse.keep (fun g _ => !(decide (k0 / 2 ≤ g) && decide (g < k0 / 2 + vals.length / 2))) s.accBad
  { s with accum := els
           accBad := bad.foldl (fun (m : Sparse Nat) (p : Nat × Nat) => Sparse.set 0 m ((k0 + p.1) / 2) (p.2 + 1)) old }

/-- Words of four bytes, none where a byte could not be reached. -/
def words32 (l : List (Option Byte)) : List (Option Nat) :=
  (List.range (l.length / 4)).map (fun i => (((l.drop (4 * i)).take 4).mapM id).map leNat)

/-- A step of a Marver command, or one block of it; `none` where the block waits (R310, R385). -/
abbrev MxStep := Option (State × MxCmd)

/-- Block `nblk` of a step of `n` blocks is done: `fin` ends the step with the last one. -/
def mxBlock (n : Nat) (t : State) (k : MxCmd) (fin : State → MxCmd → State × MxCmd) : MxStep :=
  if k.nblk + 1 < n then some (t, { k with nblk := k.nblk + 1 })
  else
    let r := fin t { k with nblk := 0 }
    some (r.1, { r.2.stepped with got := [], gotBad := [] })

/-- One more block of a step's source `l` is read as a move; `fin` ends the step with all of them read. A block whose module cannot
be reached gives nothing. -/
def mxRead (l : List (Int × Nat)) (k : MxCmd) (s : State) (fin : State → MxCmd → State × MxCmd) : MxStep :=
  match l[k.nblk]? with
  | none => none
  | some (off, n) =>
    match s.blockIn k.agent k.tok n (s.check k.tok off n rR) with
    | .wait => none
    | .unreach =>
      let r := s.mxEvent k (some (kUnreach, 0xFFFF))
      mxBlock l.length r.1 { r.2 with got := r.2.got ++ List.replicate n none } fin
    | .data t b bad f a hb =>
      mxBlock l.length t ({ k with
        got := k.got ++ b.map some, gotBad := k.gotBad ++ bad.map (fun (p : Nat × Nat) => (k.got.length + p.1, p.2)), acqd := a, hb := hb }.failedBy f) fin

/-- One more block of a step's destination `l` is written, from the bytes `data` gives by position and one more than the units of
their marks; the last block of the last step is the command's release (R310). -/
def mxWrite (l : List (Int × Nat)) (data : Nat → Option Byte) (mark : Nat → Nat) (k : MxCmd) (s : State)
    (fin : State → MxCmd → State × MxCmd) : MxStep :=
  match l[k.nblk]? with
  | none => none
  | some (off, n) =>
    let p0 := ((l.take k.nblk).map Prod.snd).sum
    let last := decide (mxSteps k ≤ k.step + 1) && decide (l.length ≤ k.nblk + 1) && !k.cut
    let bad := (List.range n).filterMap (fun i => if mark (p0 + i) = 0 then none else some (i, mark (p0 + i) - 1))
    match s.blockOut k.agent k.tok (s.check k.tok off n rW) ((List.range n).map (fun i => data (p0 + i))) bad last with
    | .wait => none
    | .unreach t =>
      let r := t.mxEvent k (some (kUnreach, 0xFFFF))
      mxBlock l.length r.1 r.2 fin
    | .done t u f => mxBlock l.length t ({ k with wunit := u }.failedBy f) fin

/-- The bytes a step has read, with their positions; those that could not be reached are left out. -/
def MxCmd.bytes (k : MxCmd) : List (Nat × Byte) :=
  (k.got.zip (List.range k.got.length)).filterMap (fun p => p.1.map (fun b => (p.2, b)))

/-- R185: `mx.cbtab` reads its 32 bytes for use: the entries are judged as they are. -/
def stepCbtab (mv slot : Nat) (start : Int) (k : MxCmd) (s : State) : MxStep :=
  match s.check k.tok start 32 rR with
  | .wait => none
  | .fail b e =>
    some (s.failedBlock k.core k.tok b e, (k.failedBy (some { entry := e, killed := s.killing k.tok e })).stepped)
  | .pass t pas =>
    let event (u : State) (e : Nat × Nat) : MxStep := let r := u.mxEvent k (some e); some (r.1, r.2.stepped)
    if pas.any s.unreachable then event s (kUnreach, 0xFFFF)
    else if !s.linked pas ∨ !s.engAcquire k.agent pas then none
    else
      match (((s.mod k.core (fun x => x.cacheTok t.entry)).bypass k.core pas).engTakes k.agent pas).findAll pas with
      | (u, some e) => event u e
      | (u, none) =>
        let bytes := u.engBytes k.hb.know t.kind pas
        let es := (List.range 16).map (fun i => leNat ((bytes.drop (2 * i)).take 2))
        match (List.range 16).find? (fun i => !cbOk (es.getD i 0)) with
        | some i => some (u, (k.code_ 1 i).stepped)
        | none =>
          let book := (es.zip (List.range 16)).foldl
            (fun (m : Sparse (BitVec 16)) p => Sparse.set 0#16 m ((mv * 8 + slot) * 16 + p.2) (BitVec.ofNat 16 p.1)) u.cbook
          some ({ u with cbook := book }, k.stepped)

/-- R186, R310: one column of `mx.bld` or `mx.bld.mirror`: the slice moves with its marks, the mirror tags follow R170. The write of
the last column is the command's release: the work of R306 comes before it. -/
def stepBld (mv : Nat) (mirror : Bool) (start : Int) (k : MxCmd) (s : State) : MxStep :=
  let w := colWord k.a.toNat
  let col := w.c0 + k.step
  let cols := if mirror then [col, col + s.cfg.ncol / 2] else [col]
  let l := piecesOf (start + 1024 * k.step) 1024
  let last := decide (mxSteps k ≤ k.step + 1) && !k.cut
  let lastPA := bdeckPA mv (cols.getLastD 0) w.slot 0
  if last ∧ l.length ≤ k.nblk + 1 ∧ !s.engRelReady k.agent (some lastPA) then none
  else mxRead l k s (fun s k =>
    let rel := last && !k.cut
    let t := cols.foldl (fun (t : State) c =>
      let pa (i : Nat) : Nat := bdeckPA mv c w.slot i
      t.homeWrite (k.bytes.map (fun (p : Nat × Byte) => (pa p.1, p.2))) (k.gotBad.map (fun (p : Nat × Nat) => (pa p.1, p.2)))
        { who := fun _ => (engAgent k.core 1, k.id)
          msg := k.agent.msgs 1 (rel && (k.agent).ord.rel && decide (pa 0 = lastPA)) }) (if rel then s.engRelease k.agent (some lastPA) else s)
    (if mirror then
        { t with mirror := cols.foldl (fun g c => Sparse.set false g (mirrorKey mv w.slot c) true) t.mirror }
      else t, k))

/-- R187: a band of eight rows of a tile register. -/
def stepTld (tile : Nat) (start : Int) (k : MxCmd) (s : State) : MxStep :=
  let k0 := tKey tile (8 * k.step) 0
  mxRead ((run (8 * k.step) 8).flatMap (fun r => piecesOf (start + r * (k.c.toNat : Int)) 1024)) k s (fun s k =>
    (s.mod k.core (fun x => x.eng (fun e => { e with
      tile := k.bytes.foldl (fun (t : Sparse Byte) (p : Nat × Byte) => Sparse.set 0#8 t (k0 + p.1) p.2) e.tile
      tileBad := k.gotBad.foldl (fun (t : Sparse Nat) (p : Nat × Nat) => Sparse.set 0 t ((k0 + p.1) / 8) (p.2 + 1))
        (Sparse.keep (fun g _ => !(decide (k0 / 8 ≤ g) && decide (g < k0 / 8 + 1024))) e.tileBad) })), k))

/-- One element of `mx.mm`: what it becomes, or the event (R188). -/
def mmElem (mv : Nat) (f : MmF) (row : List OpBlk) (cols : Nat → List OpBlk) (s : State) (m c : Nat) :
    Except (Nat × Nat) Nat :=
  blockDot (s.acc mv f.z m c) (s.accMark mv f.z m c) row (cols c) f.klen

/-- R188: one step of `mx.mm`, eight rows of the active columns. -/
def stepMm (mv : Nat) (f : MmF) (k : MxCmd) (s : State) : MxStep :=
  let e := (s.core k.core).e
  let mar := s.marver mv
  let cb := s.cb mv f.cb
  let h := s.cfg.ncol / 2
  let col (c : Nat) : List OpBlk := mar.column cb c
  let rows := (run (8 * k.step) 8).filter (fun m => !f.tr || decide (m < 124))
  let els := rows.flatMap (fun m =>
    let a := if f.tr then e.trRow cb f.t m f.klen else e.row cb f.t m
    (run f.c0 f.nc).map (fun c =>
      (m, c, mmElem mv f a col s m c,
        if k.mirrored then some (blockDot (s.acc mv f.z m c) (s.accMark mv f.z m c) a (col (if c < h then c + h else c - h)) f.klen)
        else none)))
  let bad := (run f.c0 f.nc).find? (fun c => els.any (fun p => p.2.1 == c &&
    match p.2.2.1, p.2.2.2 with
    | .ok v, some (.ok w) => v != w
    | _, _ => false))
  let ev := els.findSome? (fun p => match p.2.2.1, p.2.2.2 with
    | .error e, _ => some e
    | _, some (.error e) => some e
    | _, _ => none)
  match bad with
  | some c =>
    let t := ((s.logEvent 4 (s.cfg.groupUnit mv c)).noteUnit (s.cfg.groupUnit mv c)).noteUnit
      (s.cfg.groupUnit mv (if c < h then c + h else c - h))
    some (t, { k with code := 4, info := k.step + c * 2 ^ 16, done := true })
  | none =>
    let t := els.foldl (fun (t : State) p => match p.2.2.1, p.2.2.2 with
      | .ok v, none => t.setAcc mv f.z p.1 p.2.1 v
      | .ok v, some (.ok _) => t.setAcc mv f.z p.1 p.2.1 v
      | _, _ => t) s
    let r := (t.operandsFound mv k.core ev).mxEvent k ev
    some (r.1, r.2.stepped)

/-- R189: `mx.kat`. -/
def stepKat (mv n g : Nat) (sum : Word) (k : MxCmd) (s : State) : MxStep :=
  if katSum n = sum.toNat then some (s, k.stepped)
  else
    let u := s.cfg.groupUnit mv (32 * g)
    some ((s.logEvent 5 u).noteUnit u, (k.code_ 6 g).stepped)

/-- R190: `mx.zalloc`. -/
def stepZalloc (mv z : Nat) (k : MxCmd) (s : State) : MxStep :=
  let u := (s.core k.core).uid
  let o := s.zOwner mv z
  if o = 0 ∧ u ≠ 0 then
    let a := zKey mv z 0 0
    some ({ s with
      accOwner := Sparse.set 0 s.accOwner (mv * 64 + z) u
      accum := Sparse.keep (fun g _ => !(decide (a ≤ g) && decide (g < a + 65536))) s.accum
      accBad := Sparse.keep (fun g _ => !(decide (a / 2 ≤ g) && decide (g < a / 2 + 32768))) s.accBad }, k.stepped)
  else if o = u then some (s, k.stepped)
  else some (s, (k.code_ 8 0).stepped)

/-- R191: a band of `mx.zld`. -/
def stepZld (mv z : Nat) (start : Int) (k : MxCmd) (s : State) : MxStep :=
  mxRead (piecesOf (start + 16384 * k.step) 16384) k s (fun s k =>
    (s.putBand mv z k.step (words32 k.got) (k.gotBad.map (fun p => (p.1 / 4, p.2))), k))

/-- R191: a band of `mx.zst` moves with its marks. -/
def stepZst (mv z : Nat) (start : Int) (k : MxCmd) (s : State) : MxStep :=
  let k0 := zKey mv z (8 * k.step) 0
  mxWrite (piecesOf (start + 16384 * k.step) 16384)
    (fun i => some ((leBytes 4 (Sparse.get 0#32 s.accum (k0 + i / 4)).toNat).getD (i % 4) 0#8))
    (fun i => markFound (Sparse.get 0 s.accBad ((k0 + i / 4) / 2))) k s (fun s k => (s.accFound (k0 / 2) 2048, k))

/-- R191: a band of `mx.zcpy`. -/
def stepZcpy (mv za zb : Nat) (k : MxCmd) (s : State) : MxStep :=
  if za = zb then some (s, k.stepped)
  else
    let k0 := zKey mv zb (8 * k.step) 0
    let bad := (List.range 4096).filterMap (fun i =>
      let m := Sparse.get 0 s.accBad ((k0 + i) / 2)
      if m = 0 then none else some (i, (m - 1) % 2 ^ 16))
    some ((s.accFound (k0 / 2) 2048).putBand mv za k.step ((List.range 4096).map (fun i => some (Sparse.get 0#32 s.accum (k0 + i)).toNat)) bad, k.stepped)

/-- An element `mx.out` drains: its column within the row, and its bits in the target type; none where it is marked. -/
def outElems (f : OutF) (mv row : Nat) (s : State) : List (Nat × Option Nat) :=
  (List.range f.nc).map (fun j =>
    (j, if s.accMark mv f.z row (f.c0 + j) ≠ 0 then none
        else some (cvt 10 f.ty f.rm false false f.sat (s.acc mv f.z row (f.c0 + j))).1))

/-- R192: one band of `mx.out`. -/
def stepOut (mv : Nat) (f : OutF) (k : MxCmd) (s : State) : MxStep :=
  let rows := (run (8 * k.step) 8).filter (fun i => decide (i ≤ f.nr))
  let w := tyBytes f.ty
  let els := rows.map (fun i => (i, outElems f mv (f.r0 + i) s))
  let ev := els.findSome? (fun r => r.2.findSome? (fun p =>
    match p.2 with
    | none => some (markEvent (s.accMark mv f.z (f.r0 + r.1) (f.c0 + p.1)))
    | some _ => none))
  let clear (t : State) : State :=
    if f.clr then
      els.foldl (fun (t : State) r => r.2.foldl (fun (t : State) p =>
        if p.2.isSome then t.setAcc mv f.z (f.r0 + r.1) (f.c0 + p.1) 0 else t) t) t
    else t
  if f.dst then
    let row (i : Nat) : List (Nat × Option Nat) := ((els.drop (i / (f.nc * w))).head?.map Prod.snd).getD []
    mxWrite (rows.flatMap (fun i => piecesOf (k.b.toInt + i * k.c.toInt) (f.nc * w)))
      (fun i => ((row i)[i % (f.nc * w) / w]?).bind (fun p => p.2.map (fun v => (leBytes w v).getD (i % w) 0#8)))
      (fun _ => 0) k s (fun s k => ((clear s).operandsFound mv k.core ev).mxEvent k ev)
  else
    let regs := rows.flatMap (fun i => run (f.vn + outQ f * i) (outQ f))
    let wr := els.flatMap (fun r =>
      let all := regWrites (f.vn + outQ f * r.1) w (outQ f) (r.2.filterMap (fun p => p.2.map (fun v => (p.1, v))))
      let gaps := elemWrites (f.vn + outQ f * r.1) w (r.2.filterMap (fun p => if p.2.isNone then some (p.1, 0) else none))
      all.map (fun p => (p.1, p.2.1 &&& ~~~((gaps.filter (fun g => g.1 == p.1)).foldl (fun m g => m ||| g.2.1) 0#1024), p.2.2)))
    let t := s.mod k.core (fun x =>
      (wr.foldl (fun (x : Core) p => (x.putV p.1 ((x.rdV p.1 &&& ~~~p.2.1) ||| (p.2.2 &&& p.2.1))).granulesWritten p.1 p.2.1) x).dropV regs k.id)
    let r := ((clear t).operandsFound mv k.core ev).mxEvent k ev
    some (r.1, r.2.stepped)

/-- A command's step. -/
def mxStepOf (mv : Nat) (k : MxCmd) (s : State) : MxStep :=
  match k.i with
  | .mxCbtab f => stepCbtab mv f.a (k.b.toInt + f.off.toInt) k s
  | .mxBld f => stepBld mv false (k.b.toInt + f.off.toInt) k s
  | .mxBldMirror f => stepBld mv true (k.b.toInt + f.off.toInt) k s
  | .mxTld f => stepTld f.a (k.b.toInt + f.off.toInt) k s
  | .mxMm f => stepMm mv f k s
  | .mxKat _ n g sum => stepKat mv n g sum k s
  | .mxZalloc _ z => stepZalloc mv z k s
  | .mxZld f => stepZld mv f.a (k.b.toInt + f.off.toInt) k s
  | .mxZst f => stepZst mv f.a (k.b.toInt + f.off.toInt) k s
  | .mxZcpy _ za zb => stepZcpy mv za zb k s
  | .mxOut f => stepOut mv f k s
  | _ => some (s, k.stepped)

/-- The Marver gives back the commands of a core that is stopping, once its step in progress has ended, and the lease (R196). -/
def State.mxReturn (s : State) (c : Nat) : State :=
  let mv := s.cfg.marver c
  let m := s.marver mv
  let mine := m.order.filter (fun k => k.core == c && !k.done)
  if mine.any (fun k => k.nblk != 0) then s
  else
    (s.setMarver mv { (m.lapse c) with
      order := m.order.filter (fun k => k.core != c || k.done), waiters := m.waiters.filter (· != c) }).mod c
      (fun x => x.eng (fun e => { e with mxq := mine.map (fun k => { k with begun := false }) ++ e.mxq }))

/-- R193, R385: the Marver's head command begins, or executes one step, block by block. A command that has all its steps, or is to stop
between steps, is done (R182); one whose core is stopping goes back to it at the end of its step (R196). -/
def execMxStep (m : Nat) (s : State) : Out :=
  match (s.marver m).order with
  | [] => .next s
  | k :: _ =>
    if k.done then .next s
    else if k.nblk = 0 ∧ (k.cut ∨ (k.begun ∧ mxSteps k ≤ k.step)) then .next (s.putMx m { k with done := true })
    else if !k.begun then (if s.mxReady k then .next (s.mxBegin m k) else .next s)
    else match mxStepOf m k s with
      | none => .next s
      | some (t, j) =>
        let u := t.putMx m j
        .next (if (s.core k.core).q.st = .stopping then u.mxReturn k.core else u)

/-! ### Completion (R180) -/

/-- The `mx.zfree`s of core `c` whose earlier commands have completed take effect (R190). -/
def State.applyZfree (s : State) (c : Nat) : State :=
  let own := (s.mxOwn c).map (fun k => k.id)
  let due := (s.core c).e.zfree.filter (fun p => own.all (fun id => decide (p.1 ≤ id)))
  let t := { s with accOwner := due.foldl (fun (m : Sparse Nat) (p : Nat × Nat) => Sparse.set 0 m (s.cfg.marver c * 64 + p.2) 0) s.accOwner }
  t.mod c (fun x => x.eng (fun e => { e with zfree := e.zfree.filter (fun p => !due.contains p) }))

/-- A command's status scalar (R180). -/
def mxDest : Instr → Nat
  | .mxCbtab f | .mxBld f | .mxBldMirror f | .mxTld f | .mxZld f | .mxZst f => f.d
  | .mxMm f => f.d
  | .mxKat d _ _ _ | .mxZalloc d _ | .mxZcpy d _ _ => d
  | .mxOut f => f.d
  | _ => 0

/-- The vector registers a command still holds empty. -/
def mxRegs : Instr → List Nat
  | .mxOut f => (outRegs f)
  | _ => []

/-- Whether a command writes memory, so that its last write is its release (R310). -/
def mxStores : Instr → Bool
  | .mxZst _ | .mxBld _ | .mxBldMirror _ => true
  | .mxOut f => f.dst
  | _ => false

/-- The status word of R180, its fault record and its MXFAULT. -/
def Core.mxFill (x : Core) (k : MxCmd) : Core :=
  let d := mxDest k.i
  let y := x.dropV (mxRegs k.i) k.id
  if k.silent then y.dropS k.ctx d k.id
  else
    let z := y.fillS k.ctx d k.id (BitVec.ofNat 64 (k.info % 2 ^ 32 * 2 ^ 8 + k.code))
    if 1 ≤ k.code ∧ k.code ≤ 7 ∧ d ≠ 0 then z.eng (fun e => { e with mxfault := sKey k.ctx d :: e.mxfault }) else z

/-- The cancelled Marver commands of a core that is saving fill their statuses at once: no image holds them (R107, R182, R212). -/
def State.dropCancelled (s : State) (c : Nat) : State :=
  ((s.core c).e.mxq.filter (fun k => k.done)).foldl (fun (t : State) k =>
    (t.mod c (fun x => (x.mxFill k).eng (fun e => { e with mxq := e.mxq.filter (fun j => j.id != k.id) }))).applyZfree c) s

/-- R180, R310: the head command completes: a command without a write of its own does its release work, its status fills, and
`mx.zfree`s that waited for it take effect. -/
def execMxStatusFill (m : Nat) (s : State) : Out :=
  match (s.marver m).order with
  | [] => .next s
  | k :: rest =>
    if !k.done then .next s
    else
      let o : Ordr := match mxMem k with
        | some (o, _, _) => if mxStores k.i || k.silent || k.code == 7 then { o with rel := false } else o
        | none => { acq := false, rel := false, scope := 0 }
      let g : Agent := { k.agent with ord := o }
      if !s.engRelReady g none ∨ s.cmdHeld k.core k.wseq then .next s
      else
        let t := (s.engRelease g none).observe k.core k.ctx 1 (k.id + 1)
        let v := t.marver m
        .next (((t.setMarver m { v with order := rest }).mod k.core (fun x => x.mxFill k)).applyZfree k.core)

end Sys2Proof.Machine
end

