-- ==== Sys2Proof/Machine/Handle.lean ====
section
/-! DEFINITION. Buffer handles (R237 to R240): their states, the handle instructions, and the event that frees a drained
one. -/

namespace Sys2Proof.Machine

/-- A handle of a core. -/
def Eng.handle (e : Eng) (h : Nat) : Handle := Sparse.get {} e.hnd h
/-- Write a handle. -/
def Eng.setHandle (e : Eng) (h : Nat) (v : Handle) : Eng := { e with hnd := Sparse.set {} e.hnd h v }

/-- CNT moves by `n` (R238): out of range it fills the handle with ERR; a full or draining one records ERR. -/
def Handle.move (v : Handle) (n : Int) (copy : Bool) : Handle :=
  let c := v.cnt.toInt + n
  let u := { v with cnt := BitVec.ofInt 40 c }
  if v.st = 1 then (if c < -(2 ^ 39) ∨ 2 ^ 39 - 1 < c then { u with st := 2, err := true } else u)
  else if copy then { u with err := true }
  else u

/-- The end of a clock (R238): a filling handle whose counts are both zero is FULL. -/
def Handle.endClock (v : Handle) : Handle := if v.st = 1 ∧ v.cnt = 0#40 ∧ v.arr = 0 then { v with st := 2 } else v

/-- A command naming a handle is cancelled (R238, R247). -/
def Handle.cancel (v : Handle) : Handle := if v.st = 1 then { v with st := 2, err := true } else v

/-- A fault enters a handle's record, unless it holds one (R247). -/
def Handle.fault (v : Handle) (code entry : Nat) : Handle := if v.code = 0 then { v with code := code, entry := entry } else v

/-- Whether a reader of the handle's current fill has yet to perform (R238, R239). -/
def State.readers (s : State) (c h : Nat) : Bool :=
  let x := s.core c
  let f := (x.e.handle h).fillno
  x.v.ql.any (fun e => match vParts e.i with
    | some (op, w) => decide (op ≤ 5) && bit w.md 4 && w.e == h && e.cap.fill == f
    | none => false) ||
  (s.mxOwn c).any (fun k => match k.i with | .mxMm m => m.hw && m.h == h && k.fill == f | _ => false) ||
  [0, 1, 2, 3].any (fun ctx => (x.q.holdOf ctx).k == .reader h f)

/-- Whether a copy command names a handle. -/
def Eng.names (e : Eng) (h : Nat) : Bool := e.copies.any (fun k => k.f.h == h)

/-- Change a handle of the running core and go on. -/
def State.hset (s : State) (h : Nat) (v : Handle) : State := (s.upd (fun x => x.eng (fun e => e.setHandle h v))).done 1

/-- R238, R240: `hset` starts a fill. -/
def execHset (h a : Nat) (fea : Bool) (s : State) : Out :=
  issue (.hset h a fea) s [.s a fea] (fun s =>
    let v := s.me.e.handle h
    let n := (s.sc a).toNat
    if v.st ≠ 0 ∨ n = 0 ∨ 65535 < n then illegal (.hset h a fea) s
    else .next (s.hset h { v with st := 1, cnt := 0#40, arr := n, err := false, fillno := (v.fillno + 1) % 2 ^ 32 }))

/-- R238, R240: `harr` announces bytes and counts one arrival. -/
def execHarr (h a : Nat) (fea : Bool) (s : State) : Out :=
  issue (.harr h a fea) s [.s a fea] (fun s =>
    let v := s.me.e.handle h
    let n := (s.sc a).toNat
    if v.st ≠ 1 ∨ 2 ^ 39 ≤ n then illegal (.harr h a fea) s
    else
      let u := v.move n false
      .next (s.hset h (if v.arr = 0 then { u with st := 2, err := true } else { u with arr := v.arr - 1 })))

/-- R239, R240: `hwait` is a reader. -/
def execHwait (h : Nat) (s : State) : Out :=
  let go (s : State) : Out := .next ((s.observe s.cur s.ctx 0 s.me.copyMark).done 1)
  match s.hold.k with
  | .reader g fill => if s.me.readerGo g fill then go s else stall s
  | _ => issue (.hwait h) s [] (fun s =>
    let fill := s.me.readerFill h
    if s.me.readerGo h fill then go s else .next (s.holds (.reader h fill)))

/-- R238: `hdrain` moves a FULL handle to DRAINING. -/
def execHdrain (h : Nat) (s : State) : Out :=
  issue (.hdrain h) s [] (fun s =>
    let v := s.me.e.handle h
    if v.st ≠ 2 then illegal (.hdrain h) s else .next (s.hset h { v with st := 3 }))

/-- R240: `hfree` frees a FULL handle once its commands and readers are done; a FREE one it leaves. -/
def execHfree (h : Nat) (s : State) : Out :=
  let ready (s : State) : Bool := !s.me.e.names h && !s.readers s.cur h
  let free (s : State) : Out := .next (s.hset h { s.me.e.handle h with st := 0 })
  if s.hold.k = .drain then
    (if (s.me.e.handle h).st = 0 then .next (s.done 1)
    else if (s.me.e.handle h).st = 2 ∧ ready s then free s
    else stall s)
  else issue (.hfree h) s [] (fun s =>
    let v := s.me.e.handle h
    if v.st = 0 then .next (s.done 1)
    else if v.st ≠ 2 then illegal (.hfree h) s
    else if ready s then free s
    else .next (s.holds .drain))

/-- The word `hinfo` writes (R240). -/
def Handle.info (v : Handle) : Word :=
  BitVec.ofNat 64 (v.st * 2 ^ 62 + v.err.toNat * 2 ^ 61 + v.arr * 2 ^ 40 + v.cnt.toNat)

/-- R240: `hinfo`. -/
def execHinfo (d h : Nat) (s : State) : Out :=
  issue (.hinfo d h) s [] (fun s => .next (s.ret d 1 (s.me.e.handle h).info))

/-- R238: a DRAINING handle whose readers have performed and that no command names is FREE. -/
def execHandleDrainFree (c h : Nat) (s : State) : Out :=
  let v := (s.core c).e.handle h
  if v.st = 3 ∧ s.readers c h = false ∧ (s.core c).e.names h = false then
    .next (s.mod c (fun x => x.eng (fun e => e.setHandle h { v with st := 0 })))
  else .next s

end Sys2Proof.Machine
end

