-- ==== Sys2Proof/Machine/Copy.lean ====
section
/-! DEFINITION. The copy sequencer (R241 to R248): levels, the command queue, the copies of a nest, completion, faults and
cancellation. -/

namespace Sys2Proof.Machine

/-! ### Addresses (R244) -/

/-- The extent offsets, counted from the first page, at which an entry's ranges hold a physical byte. -/
def offsetsOf (pa : Nat) : List (Nat × Nat) → Nat → List Nat
  | [], _ => []
  | (n, p) :: rest, acc =>
    (if p ≤ pa ∧ pa < p + 4096 * n then [acc + (pa - p)] else []) ++ offsetsOf pa rest (acc + 4096 * n)

/-- The check of one physical piece of a staging or column word (R244): it passes where some place of it in the token's window
does. -/
def State.checkPa (s : State) (t : Token) (pa n : Nat) (need : BitVec 4) : Chk :=
  match s.judge t with
  | .wait => .wait
  | .stale => .fail .stale t.entry
  | .fine u =>
    let e := s.ent u.entry
    let all := (offsetsOf pa e.ranges 0).map (fun o =>
      s.check t ((o : Int) - (e.vbase % 4096 : Nat) - (u.base * 64 : Nat)) n need)
    (all.find? (fun c => match c with | .pass _ _ => true | _ => false)).getD (.fail .bounds u.entry)

/-- The columns of a column word's copy and the bytes of each, where the word keeps its rules (R186, R244). -/
def colPieces (g : CfgSt) (v : Int) (n : Nat) (mir : Bool) : Option (List (Nat × Nat)) :=
  let u := colWord v.toNat
  let len := n / max u.nc 1
  if v < 0 ∨ 2 ^ 52 ≤ v ∨ u.mid ≠ 0 ∨ u.nc = 0 ∨ 768 ≤ u.slot ∨ g.panes ≤ u.pane ∨ u.boff % 64 ≠ 0 ∨ n % u.nc ≠ 0 ∨
      len % 64 ≠ 0 ∨ 1024 < u.boff + len ∨ (if mir then g.ncol / 2 else g.ncol) < u.c0 + u.nc then none
  else
    let one (h : Nat) : List (Nat × Nat) := (run (u.c0 + h) u.nc).flatMap (fun c =>
      (List.range (len / 64)).map (fun i => (bdeckPA (u.pane * 4 + u.mxn) c u.slot (u.boff + 64 * i), 64)))
    some (one 0 ++ (if mir then one (g.ncol / 2) else []))

/-- Where one block of a copy's end lies: at a window offset, at a physical address, or nowhere. -/
inductive Place where
  | off (o : Int)
  | pa (p : Nat)
  | nowhere

/-- The blocks of one end of a copy, with their lengths: `form` is 0 a window offset, 1 a staging word, 2 a column word (R244). A
staging word within 0 to 2³² − 1 locates its bytes; those past the staging slices lie in no range. -/
def copyBlocks (g : CfgSt) (form : Nat) (mir : Bool) (v : Int) (n : Nat) : List (Nat × Place) :=
  if form = 0 then (piecesOf v n).map (fun p => (p.2, .off p.1))
  else if form = 1 then
    (if v < 0 ∨ 2 ^ 32 ≤ v then [(n, .nowhere)]
    else (piecesOf v n).map (fun p => (p.2, if p.1 < 2 ^ 32 then .pa (0x80000000000 + p.1.toNat) else .nowhere)))
  else match colPieces g v n mir with
    | none => [(n, .nowhere)]
    | some l => l.map (fun p => (p.2, .pa p.1))

/-- The check of one block of a copy (R209, R244). -/
def State.checkBlock (s : State) (t : Token) (need : BitVec 4) (p : Nat × Place) : Chk :=
  match p.2 with
  | .off o => s.check t o p.1 need
  | .pa a => s.checkPa t a p.1 need
  | .nowhere => match s.judge t with
    | .wait => .wait
    | .stale => .fail .stale t.entry
    | .fine u => .fail .bounds u.entry

/-- The counts of the levels a command uses. -/
def Core.counts (x : Core) (k : CopyCmd) : List Level := (List.range k.f.nlvl).map (fun l => Sparse.get {} x.e.lvl l)

/-- The source and destination values of the copy at some indices (R244). -/
def nestAddr (lv : List Level) (k : CopyCmd) (idx : List Nat) : Int × Int :=
  let a : Int := if k.f.sf then (k.a.toNat : Int) else k.a.toInt
  let b : Int := if k.f.df = 0 then k.b.toInt else (k.b.toNat : Int)
  (lv.zip idx).foldl (fun (p : Int × Int) q => (p.1 + q.2 * q.1.ss.toInt, p.2 + q.2 * q.1.ds.toInt)) (a, b)

/-- The indices after some indices, level 0 fastest; none at the end of the nest. -/
def nestNext : List Level → List Nat → Option (List Nat)
  | l :: ls, i :: is => if i + 1 < l.count then some ((i + 1) :: is) else (nestNext ls is).map (fun r => 0 :: r)
  | _, _ => none

/-! ### Instructions -/

/-- R241: `cpy.lvl`. -/
def execCpyLvl (lvl : Nat) (o : AluR) (s : State) : Out :=
  issue (.cpyLvl lvl o) s [.s o.a o.fea, .s o.b o.feb, .s o.c o.fec] (fun s =>
    if s.me.e.copies.any (fun k => decide (lvl < k.f.nlvl)) then stall s
    else if 6 ≤ lvl then illegal (.cpyLvl lvl o) s
    else
      let n := (s.sc o.a).toNat
      if 2 ^ 32 ≤ n then trap s 4 (n / 2 ^ 32)
      else .next ((s.upd (fun x => x.eng (fun e => { e with
        lvl := Sparse.set {} e.lvl lvl { count := n, ss := s.sc o.b, ds := s.sc o.c } }))).done 1))

/-- R242, R243: `cpy.go` captures its scalars and tokens and joins the queue of 16. -/
def execCpyGo (f : CpyF) (s : State) : Out :=
  issue (.cpyGo f) s [.s f.a f.fea, .s f.b f.feb, .s f.c f.fec, .k f.sk false, .k f.dk false] (fun s =>
    let n := (s.sc f.c).toNat
    if 16 ≤ s.me.e.copies.length then stall s
    else if 3 ≤ f.df ∨ 7 ≤ f.nlvl ∨ (f.haddr ≠ 0 ∧ !f.ntf) ∨ (f.mir ∧ f.df ≠ 2) ∨ n = 0 ∨ 2 ^ 32 ≤ n ∨
        (s.me.e.handle f.h).st ≠ 1 then illegal (.cpyGo f) s
    else
      let k : CopyCmd := { id := s.id, ctx := s.ctx, f := f, a := s.sc f.a, b := s.sc f.b, c := s.sc f.c, st := s.tk f.sk,
                           dt := s.tk f.dk, pc := s.pc, depth := s.me.q.regions.length, wseq := s.me.q.wseq, hb := s.hbOf s.cur s.ctx }
      .next (s.upd (fun x => ((x.eng (fun e => { e with copies := e.copies ++ [k] })).numbered).next s.ctx 2)))

/-- Cancel the commands of a core that satisfy `p` (R247): one with no copy in flight is gone at once. -/
def Core.cancel (x : Core) (p : CopyCmd → Bool) (code entry : Nat) : Core :=
  let hit := x.e.copies.filter (fun k => p k && !k.cancelled)
  x.eng (fun e => { e with
    hnd := hit.foldl (fun (m : Sparse Handle) k =>
      Sparse.set {} m k.f.h (((Sparse.get {} m k.f.h).cancel).fault code entry)) e.hnd
    copies := (e.copies.map (fun k =>
      if p k ∧ !k.cancelled then { k with cancelled := true, emitted := true, code := code, ent := entry } else k)).filter
        (fun k => !k.cancelled || !k.fl.isEmpty) })

/-- R248: `cpy.cancel` cancels every command naming a handle and waits until they have stopped. -/
def execCpyCancel (h : Nat) (s : State) : Out :=
  let ready (s : State) : Bool := !s.me.e.copies.any (fun k => k.f.h == h && k.cancelled)
  if s.hold.k = .drain then (if ready s then .next (s.done 1) else stall s)
  else issue (.cpyCancel h) s [] (fun s =>
    let t := s.upd (fun x => x.cancel (fun k => k.f.h == h) 3 0)
    if ready t then .next (t.done 1) else .next (t.holds .drain))

/-- R248: `cpy.stat` reads and clears a handle's fault record. -/
def execCpyStat (d h : Nat) (s : State) : Out :=
  issue (.cpyStat d h) s [] (fun s =>
    let v := s.me.e.handle h
    let n := (s.me.e.copies.filter (fun k => k.f.h == h)).length
    let w := BitVec.ofNat 64 (n * 2 ^ 32 + v.entry * 2 ^ 12 + v.code)
    .next ((s.upd (fun x => x.eng (fun e => e.setHandle h { v with code := 0, entry := 0 }))).ret d 1 w))

/-! ### The sequencer (R244 to R246) -/

/-- Replace the command in progress. -/
def Core.putCopy (x : Core) (k : CopyCmd) : Core :=
  x.eng (fun e => { e with copies := e.copies.map (fun j => if j.id = k.id then k else j) })

/-- A copy's blocks failed (R247): ERR and the fault record of its handle. A failure of a command that a KILL has cancelled is
REVOKED (R385). -/
def Core.copyFault (x : Core) (k : CopyCmd) (f : Option Failed) : Core :=
  match f with
  | none => x
  | some e => x.eng (fun n =>
      let v := n.handle k.f.h
      n.setHandle k.f.h ({ v with err := true }.fault (if e.killed ∨ (k.cancelled ∧ k.code = 2) then 2 else 1) e.entry))

/-- A command as an agent. -/
def CopyCmd.agent (k : CopyCmd) (c : Nat) : Agent :=
  { core := c, ctx := k.ctx, id := k.id, eng := 0, ord := k.f.ord, acqd := k.acqd, hb := k.hb, wseq := k.wseq, wunit := k.wunit }

/-- R244: the sequencer, idle, starts the oldest command. -/
def execCopyCommandStart (c : Nat) (s : State) : Out :=
  let x := s.core c
  match x.e.copies with
  | [] => .next s
  | k :: _ =>
    let lv := x.counts k
    if k.started ∨ k.cancelled ∨ x.q.st = .stopping ∨ !s.engFree c k.ctx k.id k.wseq then .next s
    else if lv.any (fun l => l.count == 0) then .next (s.mod c (fun x => x.putCopy { k with started := true, emitted := true }))
    else .next (s.mod c (fun x => x.putCopy { k with started := true, next := List.replicate k.f.nlvl 0 }))

/-- The event a copy raises where it cannot reach its module (R334, R339). -/
def State.copyUnreach (s : State) (c : Nat) (k : CopyCmd) : State :=
  s.contain c k.ctx kUnreach 4 0xFFFF (if k.ctx = 0 then 0 else k.pc) k.id false 3

/-- The source and destination blocks of a copy in flight. -/
def CopyCmd.srcBlocks (k : CopyCmd) (g : CfgSt) (f : CopyFl) : List (Nat × Place) :=
  copyBlocks g (if k.f.sf then 1 else 0) false f.src k.c.toNat
def CopyCmd.dstBlocks (k : CopyCmd) (g : CfgSt) (f : CopyFl) : List (Nat × Place) := copyBlocks g k.f.df k.f.mir f.dst k.c.toNat

/-- Change copy `i` of a command. -/
def CopyCmd.putFl (k : CopyCmd) (i : Nat) (f : CopyFl) : CopyCmd := { k with fl := k.fl.set i f }

/-- The next copy of the nest is in flight (R244, R245). -/
def CopyCmd.emit (k : CopyCmd) (lv : List Level) : CopyCmd :=
  let p := nestAddr lv k k.next
  let fl := k.fl ++ [{ src := p.1, dst := p.2 }]
  match nestNext lv k.next with
  | some i => { k with next := i, fl := fl }
  | none => { k with emitted := true, fl := fl }

/-- The first byte of block `j` of a copy's end within the copy (R244, R245): a mirrored column word's second half is the first again. -/
def blockAt (l : List (Nat × Place)) (n j : Nat) : Nat := ((l.take j).map Prod.fst).sum % max n 1

/-- Bytes `at'` to `at' + n − 1` of a copy, with the marks among them by position, once the source blocks that hold them are read. -/
def CopyFl.bytesOf (f : CopyFl) (src : List (Nat × Place)) (at' n : Nat) : Option (List (Option Byte) × List (Nat × Nat)) :=
  (List.range src.length).foldl (fun (r : Option (List (Option Byte) × List (Nat × Nat))) j =>
    let o := ((src.take j).map Prod.fst).sum
    let len := (src[j]?.map Prod.fst).getD 0
    let lo := max o at' - o
    let m := min (o + len) (at' + n) - max o at'
    if m = 0 then r
    else match r, f.got.find? (fun q => q.n == j) with
      | some (d, b), some q =>
        some (d ++ (q.data.drop lo).take m,
          b ++ q.bad.filterMap (fun e => if lo ≤ e.1 ∧ e.1 < lo + m then some (d.length + (e.1 - lo), e.2) else none))
      | _, _ => none) (some ([], []))

/-- Copy `i` of the command in progress reads source block `j`; none where it has read it, or the block waits (R245, R310, R385). -/
def State.copyRead (s : State) (c : Nat) (k : CopyCmd) (i : Nat) (f : CopyFl) (j : Nat) : Option State :=
  if f.got.any (fun q => q.n == j) then none
  else ((k.srcBlocks s.cfg f)[j]?).bind (fun p =>
    match s.blockIn (k.agent c) k.st p.1 (s.checkBlock k.st rR p) with
    | .wait => none
    | .unreach =>
      some ((s.copyUnreach c k).mod c (fun x =>
        x.putCopy (k.putFl i { f with got := f.got ++ [({ n := j, data := List.replicate p.1 none, bad := [] } : Read)] })))
    | .data t b bad e a hb =>
      some (t.mod c (fun x => (x.copyFault k e).putCopy ({ k with acqd := a, hb := hb }.putFl i
        { f with got := f.got ++ [({ n := j, data := b.map some, bad := bad } : Read)] }))))

/-- Whether a write of destination block `j` of copy `i` is its command's release (R310): the highest block of the last copy emitted. -/
def CopyCmd.isLast (k : CopyCmd) (i j n : Nat) : Bool :=
  k.emitted && !k.cancelled && i + 1 == k.fl.length && j + 1 == n

/-- Copy `i` of the command in progress writes destination block `j`, once its bytes are read; none where it has written it, or the block
waits. The command's release comes after every other write of it (R245, R310, R385). -/
def State.copyWrite (s : State) (c : Nat) (k : CopyCmd) (i : Nat) (f : CopyFl) (j : Nat) : Option State :=
  let l := k.dstBlocks s.cfg f
  let last := k.isLast i j l.length
  if f.wrote.contains j ∨ (last ∧ k.f.ord.rel ∧ (k.fl.length ≠ 1 ∨ f.wrote.length + 1 < l.length)) then none
  else (l[j]?).bind (fun p => (f.bytesOf (k.srcBlocks s.cfg f) (blockAt l k.c.toNat j) p.1).bind (fun d =>
    let done (u : Nat) : CopyFl := { f with wrote := f.wrote ++ [j], unit := u }
    match s.blockOut (k.agent c) k.dt (s.checkBlock k.dt rW p) d.1 d.2 last with
    | .wait => none
    | .unreach t => some ((t.copyUnreach c k).mod c (fun x => x.putCopy (k.putFl i (done f.unit))))
    | .done t u e => some (t.mod c (fun x => (x.copyFault k e).putCopy ({ k with wunit := u }.putFl i (done (max f.unit u)))))))

/-- The copies in flight with their numbers, each with one of its `n` blocks. -/
def CopyCmd.pairs (k : CopyCmd) (n : CopyFl → Nat) : List (Nat × CopyFl × Nat) :=
  (k.fl.zip (List.range k.fl.length)).flatMap (fun p => (List.range (n p.1)).map (fun j => (p.2, p.1, j)))

/-- What the sequencer may do next with its reads: emit the next copy, or read a block of a copy in flight. -/
def State.copyMoves (s : State) (c : Nat) (k : CopyCmd) : List State :=
  let x := s.core c
  (if k.emitted ∨ 8 ≤ k.fl.length ∨ x.q.st = .stopping then [] else [s.mod c (fun x => x.putCopy (k.emit (x.counts k)))]) ++
    (k.pairs (fun f => (k.srcBlocks s.cfg f).length)).filterMap (fun p => s.copyRead c k p.1 p.2.1 p.2.2)

/-- One of some states, by a free choice: the order of what an engine has under way is open (R245). (DESIGN CHOICE,
notes/assumptions/45.md). -/
def State.pick (s : State) (l : List State) : Out := .next (l.getD (Config.freePick s.tick 0 % max l.length 1) s)

/-- R245: the next copy of the nest is emitted, or a block of one in flight is read. -/
def execCopyEmit (c : Nat) (s : State) : Out :=
  match (s.core c).e.copies with
  | [] => .next s
  | k :: _ => if !k.started then .next s else s.pick (s.copyMoves c k)

/-- A copy's bytes leave its handle (R238). -/
def Core.copied (x : Core) (k : CopyCmd) : Core :=
  x.eng (fun e => e.setHandle k.f.h ((e.handle k.f.h).move (-(k.c.toNat : Int)) true))

/-- R245, R246: the oldest copy in flight, all its blocks written and none waiting for a partner's (R348), completes and subtracts its
length; until then a block of a copy in flight is written. -/
def execCopyComplete (c : Nat) (s : State) : Out :=
  match (s.core c).e.copies with
  | [] => .next s
  | k :: _ => match k.fl with
    | [] => .next s
    | f :: rest =>
      if (k.dstBlocks s.cfg f).length ≤ f.wrote.length ∧ (k.srcBlocks s.cfg f).length ≤ f.got.length ∧
          !s.unitsHeld c k.wseq f.unit then
        .next (s.mod c (fun x => (x.putCopy { k with fl := rest }).copied k))
      else s.pick ((k.pairs (fun f => (k.dstBlocks s.cfg f).length)).filterMap (fun p => s.copyWrite c k p.1 p.2.1 p.2.2))

/-- The bytes a command moves (R246). -/
def Core.copyBytes (x : Core) (k : CopyCmd) : Word :=
  BitVec.ofNat 64 ((x.counts k).foldl (fun n l => n * l.count) k.c.toNat)

/-- R246: a command completes after its release; with NTF it delivers a notification, or waits until one is accepted. -/
def execCopyCommandComplete (c : Nat) (s : State) : Out :=
  let x := s.core c
  match x.e.copies with
  | [] => .next s
  | k :: rest =>
    let drop (x : Core) : Core := x.eng (fun e => { e with copies := rest })
    if !k.started ∨ !k.emitted ∨ !k.fl.isEmpty then .next s
    else if k.cancelled then .next (s.mod c drop)
    else
      let none_ := (x.counts k).any (fun l => l.count == 0)
      if none_ ∧ !s.engRelReady (k.agent c) none then .next s
      else
        let t := if none_ then s.engRelease (k.agent c) none else s
        if k.f.ntf then
          match (t.core c).notify { h := k.f.h, bytes := x.copyBytes k, pc := k.f.haddr, id := k.id } with
          | some y => .next (t.setCore c (drop y))
          | none => .next s
        else .next (t.mod c drop)

end Sys2Proof.Machine
end

