-- ==== Sys2Proof/Machine/Stash.lean ====
section
/-! DEFINITION. Stash windows (R217, R218). -/

namespace Sys2Proof.Machine

/-- The bytes a core has mapped. -/
def Core.mapped (x : Core) : Nat := (x.wins.map (fun p => p.2.size)).sum

/-- Whether an entry's ranges touch L2 staging or the B-deck; one may begin in the tier below. -/
def State.stashless (s : State) (e : PEntry) : Bool :=
  e.ranges.any (fun r => [r.2, r.2 + 4096 * r.1 - 1].any (fun pa => s.cfg.tier pa == .l2 || s.cfg.tier pa == .bdeck))

/-- R217: `stash.map` maps window `w` over sX bytes at OFF32 of a token's window: ILLEGAL with the window number, then
TOKEN. -/
def execStashMap (w : Nat) (m : MemRef) (s : State) : Out :=
  issue (.stashMap w m) s (memSrcs m) (fun s =>
    let t := s.tk m.k
    let n := (s.sc m.x).toNat
    let off := m.off.toInt
    match s.judge t with
    | .wait => stall s
    | j =>
      let u : Token := match j with
        | .fine u => u
        | _ => t
      let stale : Bool := match j with
        | .stale => true
        | _ => false
      let ext := (u.base * 64 : Nat) + off
      let clash := s.me.wins.any (fun p => p.2.size != 0 && p.2.tok.entry == u.entry &&
        decide (ext < (p.2.off + p.2.size : Nat)) && decide ((p.2.off : Int) < ext + n))
      if (Sparse.get {} s.me.wins w).size ≠ 0 ∨ off % 64 ≠ 0 ∨ n % 64 ≠ 0 ∨ n = 0 ∨ 2 ^ 22 < s.me.mapped + n ∨ clash then
        trap s 1 w
      else if t.entry = 0 ∨ stale ∨ off < 0 ∨ (u.len * 64 : Nat) < off + n ∨ s.stashless (s.ent u.entry) then
        trap s 9 t.entry
      else
        .next ((s.upd (fun x => { x with wins := Sparse.set {} x.wins w { tok := u, off := ext.toNat, size := n } })).done 1))

/-- Whether no access issued before `n` that uses a window is outstanding (R218). -/
def State.winQuiet (s : State) (c : Nat) (w : Win) (n : Nat) : Bool :=
  let x := s.core c
  let mine (t : Token) : Bool := t.entry == w.tok.entry
  x.acc.all (fun a => decide (n ≤ a.id) || !mine a.tok) &&
    [x.v.ql, x.v.qs].all (fun q => q.all (fun e => decide (n ≤ e.cap.id) || !mine e.cap.tok))

/-- The window of the running core. -/
def State.win (s : State) (w : Nat) : Win := Sparse.get {} s.me.wins w

/-- Drop the lines of a window (R217). -/
def State.dropLines (s : State) (c : Nat) (w : Win) : State :=
  s.mod c (fun x => { x with stash := Sparse.keep (fun ln _ => !(s.winLines w).contains ln) x.stash })

/-- Write back the dirty sectors of a window (R217). -/
def State.writeWin (s : State) (c : Nat) (w : Win) : State := s.writeBack c (fun ln => (s.winLines w).contains ln)

/-- Free a window of the running core. -/
def State.freeWin (s : State) (w : Nat) : State := s.upd (fun x => { x with wins := Sparse.set {} x.wins w {} })

/-- A window operation waits for the window's earlier accesses (R218). -/
def winWord (i : Instr) (w : Nat) (s : State) (fin : State → State) : Out :=
  drainWord i s [] (.stash w) (fun s n => (s.win w).size == 0 || s.winQuiet s.cur (s.win w) n)
    (fun s => .next ((if (s.win w).size = 0 then s else fin s).done 1))

/-- R217: `stash.unmap` writes back, drops the lines and frees the window. -/
def execStashUnmap (w : Nat) (s : State) : Out :=
  winWord (.stashUnmap w) w s (fun s => ((s.writeWin s.cur (s.win w)).dropLines s.cur (s.win w)).freeWin w)

/-- R217: `stash.wb`. -/
def execStashWb (w : Nat) (s : State) : Out := winWord (.stashWb w) w s (fun s => s.writeWin s.cur (s.win w))

/-- R217: `stash.inv` drops the lines; dirty sectors are lost. -/
def execStashInv (w : Nat) (s : State) : Out := winWord (.stashInv w) w s (fun s => s.dropLines s.cur (s.win w))

end Sys2Proof.Machine
end

