-- ==== Sys2Proof/Machine/Wcs.lean ====
section
/-! DEFINITION. The writable control store (R86, R164, R165): a microprogram record's bytes, and `wcsld`. -/

namespace Sys2Proof.Machine

/-- A context of core `c` reads bytes for consumption in the item `id`, each aligned 8 at once: its own stores and stash, else memory;
bad data ends the read (R338). -/
def State.readBytes (s : State) (c ctx id kind : Nat) (pas : List Nat) : State × Except (Nat × Nat) (List Byte) :=
  match s.consume c ctx id (kind == 0) pas with
  | (t, some e) => (t, .error e)
  | (t, none) => (t, .ok ((pas.splitBy (fun p q => p / 8 == q / 8)).flatMap
      (fun l => (t.viewAt c ctx id kind (kind == 0) (t.hbOf c ctx) none l).1)))

/-- The words of a record with their mask bytes: an 8-byte head, 32 mask bytes, then 16 bytes a word (R86). -/
def wcsWords (bytes : List Byte) (count : Nat) : List (BitVec 8 × VWordBits) :=
  (List.range count).map (fun i =>
    (bytes.getD (8 + i) 0#8, BitVec.ofNat 128 (leNat ((bytes.drop (40 + 16 * i)).take 16))))

/-- Write a control-store slot; `mark` is its written mark (R165). -/
def Code.setSlot (k : Code) (n : Nat) (ws : List (BitVec 8 × VWordBits)) (mark : Bool) : Code :=
  { k with wcs := Sparse.set [] k.wcs n ws
           wmark := if mark then n :: k.wmark.filter (· != n) else k.wmark.filter (· != n) }

/-- A C-word that reads memory itself consumed bad data (R339): it has no effect, and control stands after it. -/
def State.wordContained (s : State) (n : Nat) (e : Nat × Nat) : Out :=
  .next ((s.contain s.cur s.ctx e.1 0 e.2 (if s.ctx = 0 then 0 else s.me.q.pcOf s.ctx) s.hold.since false 3).done n)

/-- R164: `wcsld` loads slot `n` from memory once what its context issued before has performed; TOKEN where the window fails,
then ILLEGAL where the record does. -/
def execWcsld (n : Nat) (m : MemRef) (s : State) : Out :=
  drainWord (.wcsld n m) s (memSrcs m) .drain
    (fun s k => s.me.acc.all (fun a => a.ctx != s.ctx || decide (k ≤ a.id)))
    (fun s =>
      let id := s.hold.since
      match s.check (s.tk m.k) (s.offOf m) 40 rR with
      | .wait => stall s
      | .fail _ e => trap s 9 e
      | .pass t pas =>
        if !s.linked pas then stall s
        else match s.readBytes s.cur s.ctx id t.kind (pas.take 8) with
        | (u, .error e) => u.wordContained 1 e
        | (u, .ok head) =>
          let count := (head.getD 1 0#8).toNat
          match s.check (s.tk m.k) (s.offOf m) (40 + 16 * count) rR with
          | .wait => stall s
          | .fail _ e => trap u 9 e
          | .pass _ all =>
            if (head.getD 0 0#8).toNat ≠ n ∨ count = 0 ∨ 32 < count ∨ (head.drop 2).any (· != 0#8) then
              illegal (.wcsld n m) u
            else match u.readBytes s.cur s.ctx id t.kind all with
              | (v, .error e) => v.wordContained 1 e
              | (v, .ok bytes) =>
                .next ((v.upd (fun x => { x with code := x.code.setSlot n (wcsWords bytes count) true })).done 1))

end Sys2Proof.Machine
end

