-- ==== Sys2Proof/Machine/Unmask.lean ====
section
/-! DEFINITION. The unmasking engine (R354 to R366): configuration, ranking, committing and the dirty map. -/

namespace Sys2Proof.Machine

/-! ### Issue (R356 to R359) -/

/-- An unmasking command issues; its core's queue holds four. -/
def umIssue (i : Instr) (s : State) (l : List Src) (ok : State → Bool) (a b : Nat) (k d n : Nat) (mem : Bool) : Out :=
  issue i s l (fun s =>
    let pane := s.cfg.paneOf s.cur
    let u := s.umOf pane
    if 4 ≤ (u.order.filter (fun j => j.core == s.cur)).length then stall s
    else if !ok s then illegal i s
    else
      let cmd : UmCmd := { id := s.id, clk := s.now, core := s.cur, ctx := s.ctx, i := i, a := s.sc a, b := s.sc b, tok := s.tk k,
                           pc := s.pc, depth := s.me.q.regions.length, linst := s.linstOf s.cur, wseq := s.me.q.wseq,
                           hb := s.hbOf s.cur s.ctx }
      .next ((s.setUm pane { u with order := u.order ++ [cmd] }).upd (fun x =>
        let y := x.markS s.ctx d s.id
        (if mem then y.numbered else y).next s.ctx n)))

/-- BSZ of a code (R359). -/
def umBsz (code : Nat) : Nat := 4 * 2 ^ code

/-- NBLK (R354). -/
def umBlocks (seqlen bsz : Nat) : Nat := (seqlen + bsz - 1) / max bsz 1

/-- The rule of modes 0 and 2: 1 ≤ DEN < 2³² and NUM ≤ DEN (R359). -/
def umShareOk (num den : Word) : Bool := decide (1 ≤ den.toNat) && decide (den.toNat < 2 ^ 32) && decide (num.toNat ≤ den.toNat)

/-- R359: `um.cfg`, mode 0. -/
def execUmCfg (f : UmCfgF) (s : State) : Out :=
  umIssue (.umCfg f) s [.s f.a f.fea, .s f.b f.feb]
    (fun s => umShareOk (s.sc f.a) (s.sc f.b) && decide (1 ≤ f.seqlen) && decide (f.seqlen ≤ 65536) && decide (1 ≤ f.nlayer) &&
      decide (f.nlayer ≤ 256) && decide (f.rnd < 3) && decide (f.nlayer * umBlocks f.seqlen (umBsz f.bsz) ≤ 1048576))
    f.a f.b 0 f.d 2 false

/-- R359: `um.cfg.rad`, mode 1. -/
def execUmCfgRad (d l0 nl radius : Nat) (s : State) : Out :=
  umIssue (.umCfgRad d l0 nl radius) s [] (fun _ => decide (1 ≤ nl) && decide (l0 + nl ≤ 256) && decide (radius < 16384))
    0 0 0 d 2 false

/-- R359: `um.cfg.share`, mode 2. -/
def execUmCfgShare (f : UmCfgF) (s : State) : Out :=
  umIssue (.umCfgShare f) s [.s f.a f.fea, .s f.b f.feb] (fun s => umShareOk (s.sc f.a) (s.sc f.b) && decide (f.rnd < 3))
    f.a f.b 0 f.d 2 false

/-- The sources and offset rule of `um.rank` and `um.commit` (R357, R358). -/
def umMemIssue (i : Instr) (f : UmMemF) (s : State) (mem : Bool) : Out :=
  umIssue i s [.s f.a f.fea, .s f.b f.feb, .k f.k false]
    (fun s => (s.sc f.a).toNat % 64 == 0 && (s.sc f.b).toNat % 64 == 0) f.a f.b f.k f.d 2 mem

/-- R360: `um.rank`. -/
def execUmRank (f : UmMemF) (s : State) : Out := umMemIssue (.umRank f) f s false

/-- R361: `um.commit`. -/
def execUmCommit (f : UmMemF) (s : State) : Out := umMemIssue (.umCommit f) f s true

/-- R362: `um.dnext`. -/
def execUmDnext (d : Nat) (s : State) : Out := umIssue (.umDnext d) s [] (fun _ => true) 0 0 0 d 1 false

/-- R362: `um.dclr`. -/
def execUmDclr (a : Nat) (fea : Bool) (s : State) : Out :=
  umIssue (.umDclr a fea) s [.s a fea] (fun _ => true) a 0 0 0 1 false

/-! ### Memory (R363) -/

/-- The extent offset of a piece. -/
def extOff (t : Token) (off : Int) : Nat := ((t.base * 64 : Nat) + off).toNat

/-- The order of a command's memory word. -/
def umOrd : Instr → Ordr
  | .umRank f | .umCommit f => f.ord
  | _ => { acq := false, rel := false, scope := 0 }

/-- A command as an agent. -/
def UmCmd.agent (k : UmCmd) : Agent :=
  { core := k.core, ctx := k.ctx, id := k.id, eng := 2, ord := umOrd k.i, acqd := k.acqd, hb := k.hb, wseq := k.wseq, wunit := k.wunit }

/-- A block, checked, that an unmasking command uses, as a load of its core would read it: through the stash where a window covers it;
its first read, where it is an acquire, at home (R309, R310). Of its positions those in `use` are consumed. -/
def State.umRead (s : State) (k : UmCmd) (t : Token) (off : Int) (pas : List Nat) (use : Nat → Bool) :
    State × Except (Nat × Nat) (List Byte) :=
  let used := ((pas.zip (List.range pas.length)).filter (fun p => use p.2)).map Prod.fst
  let acq := (umOrd k.i).acq && !k.acqd
  let home := acq || t.kind == 0 || (s.core k.core).bypasses t.entry (extOff t off) pas.length k.id
  match (if home then s.bypass k.core pas else s).consume k.core k.ctx k.id home used with
  | (u, some e) => (u, .error e)
  | (u, none) =>
    let bytes := (u.viewAt k.core k.ctx k.id t.kind home k.hb none pas).1
    let win := !home && (u.core k.core).windowed t.entry (extOff t off) pas.length k.id
    ((if win then u.fillFor k.core pas else u).engTakes k.agent pas, .ok bytes)

/-- A block an unmasking command writes: through the stash where a window covers it, else at home; its release at home (R309); a
redundant core's waits. -/
def State.umWrite (s : State) (k : UmCmd) (t : Token) (off : Int) (last : Bool) (bytes : List (Nat × Byte)) : State × Nat :=
  if (s.core k.core).partner.isNone ∧ !(last ∧ (umOrd k.i).rel) ∧
      (s.core k.core).windowed t.entry (extOff t off) bytes.length k.id then
    (s.stashWrite k.core bytes [] { who := fun _ => (engAgent k.core 2, k.id), msg := k.agent.msgs t.kind false }, k.wunit)
  else s.engWrite k.agent t.kind last bytes []

/-! ### Ranking (R360) -/

/-- The rank key of a binary32 pattern: below every other for a NaN, else totalOrder. -/
def rankKey (b : Nat) : Int :=
  if b / 2 ^ 23 % 256 = 255 ∧ b % 2 ^ 23 ≠ 0 then -1
  else if b < 2 ^ 31 then ((b + 2 ^ 31 : Nat) : Int)
  else ((2 ^ 32 - 1 - b : Nat) : Int)

/-- Insert a position after those of at least its key. -/
def insRank (x : Nat × Int) : List (Nat × Int) → List (Nat × Int)
  | [] => [x]
  | y :: l => if y.2 < x.2 then x :: y :: l else y :: insRank x l

/-- The rank list of positions, given in ascending order with their keys. -/
def rankList (l : List (Nat × Int)) : List Nat := (l.foldl (fun acc x => insRank x acc) []).map Prod.fst

/-- The status of a command takes a failure (R357, R385). -/
def UmCmd.failedBy (k : UmCmd) (f : Option Failed) : UmCmd :=
  match f with
  | none => k
  | some e => if e.killed then { k with code := 6, info := e.entry }
              else if k.code = 0 then { k with code := 1, info := e.entry } else k

/-- The engine after a command that was cancelled or contained (R355, R364): `m` is the rank count it leaves. -/
def Um.cancelled (u : Um) (m : Nat) : Um := { u with st := .configured, rl := [], mcnt := m }

/-- Put a changed command at the head of an engine's order. -/
def Um.putHead (u : Um) (k : UmCmd) : Um := { u with order := k :: u.order.drop 1 }

/-- The engine consumed bad data (R365). -/
def State.umEvent (s : State) (pane : Nat) (k : UmCmd) (e : Nat × Nat) (m : Nat) : State :=
  let t := s.contain k.core k.ctx e.1 6 e.2 (if k.ctx = 0 then 0 else k.pc) k.id false 3
  t.setUm pane (((t.umOf pane).cancelled m).putHead { k with done := true, silent := true })

/-- The blocks a ranking reads: the bitmap, then, once it is known, the confidence blocks that hold a masked position (R360). -/
def Um.rankBlocks (u : Um) (k : UmCmd) (masked : List Nat) : List (Int × Nat) :=
  piecesOf k.b.toInt ((u.seqlen + 7) / 8) ++ (masked.map (· / 16)).eraseDups.map (fun b => (k.a.toInt + (64 * b : Nat), 64))

/-- The masked positions, from the bitmap bytes read (R360). -/
def Um.masked (u : Um) (bits : List Byte) : List Nat :=
  (List.range u.seqlen).filter (fun p => (bits.getD (p / 8) 0#8).getLsbD (p % 8))

/-- The ranking is done: RL from what was read (R360). -/
def State.umRanked (s : State) (pane : Nat) (k : UmCmd) (masked : List Nat) : State :=
  let u := s.umOf pane
  let blocks := (masked.map (· / 16)).eraseDups
  let cb := k.got.drop ((u.seqlen + 7) / 8)
  let conf (p : Nat) : Nat := leNat ((cb.drop (64 * blocks.idxOf (p / 16) + 4 * (p % 16))).take 4)
  let rl := rankList (masked.map (fun p => (p, rankKey (conf p))))
  let j := { k with done := true, got := [], info := if k.code = 0 then rl.length else k.info }
  s.setUm pane ({ u with st := .ranked, rl := rl, mcnt := rl.length }.putHead j)

/-- R360, R385: `um.rank` reads its next block: a block that fails reads as zero bytes. -/
def State.umRank (s : State) (pane : Nat) (k : UmCmd) : State :=
  let u := s.umOf pane
  let nb := (u.seqlen + 7) / 8
  let masked := if k.got.length < nb then [] else u.masked (k.got.take nb)
  match (u.rankBlocks k masked)[k.blk]? with
  | none => s.umRanked pane k masked
  | some (off, n) =>
    let go (t : State) (k : UmCmd) (b : List Byte) : State :=
      t.setUm pane ((t.umOf pane).putHead { k with blk := k.blk + 1, got := k.got ++ b })
    match s.check k.tok off n rR with
    | .wait => s
    | .fail b e =>
      go (s.failedBlock k.core k.tok b e) (k.failedBy (some { entry := e, killed := s.killing k.tok e })) (List.replicate n 0#8)
    | .pass t pas =>
      if pas.any s.unreachable then s.umEvent pane k (kUnreach, 0xFFFF) 0
      else if !s.linked pas ∨ !s.engAcquire k.agent pas then s
      else
        let block := (k.got.length - nb) / 64
        let use (i : Nat) : Bool := decide (k.got.length < nb) ||
          masked.contains (16 * ((masked.map (· / 16)).eraseDups.getD block 0) + i / 4)
        match s.umRead k t off pas use with
        | (w, .error e) => w.umEvent pane k e 0
        | (w, .ok bytes) =>
          go (w.mod k.core (fun x => x.cacheTok t.entry)) { k with acqd := true, hb := w.engHears k.agent pas } bytes

/-! ### Committing (R361) -/

/-- k of R361. -/
def Um.share (u : Um) : Nat :=
  let m := u.mcnt
  let k := if u.rnd = 0 then m * u.num / max u.den 1
    else if u.rnd = 1 then (m * u.num + u.den - 1) / max u.den 1
    else (2 * m * u.num + u.den) / (2 * max u.den 1)
  if 1 ≤ m then max k 1 else k

/-- The pairs a committed position dirties (R361). -/
def Um.dirtyFor (u : Um) (p : Nat) : Um :=
  let nblk := umBlocks u.seqlen u.bsz
  let b := p / max u.bsz 1
  (List.range u.nlayer).foldl (fun (u : Um) l =>
    let r := Sparse.get 0 u.rad l
    ((List.range nblk).filter (fun c => decide (b ≤ c + r) && decide (c ≤ b + r))).foldl (fun (u : Um) c =>
      let i := l * nblk + c
      let v := if Sparse.get false u.claim i then { u with redirty := Sparse.set false u.redirty i true } else u
      { v with dirty := Sparse.set false v.dirty i true }) u) u

/-- The committed positions of one bitmap block. -/
def inBlock (ps : List Nat) (j : Nat) : List Nat := ps.filter (fun p => p / 512 == j)

/-- The blocks of the commit list (R361). -/
def listBlocks (k : UmCmd) (ps : List Nat) : List (Int × Nat) := piecesOf k.a.toInt (4 * ps.length)

/-- R361, R385: the next block of the commit list is written. -/
def State.umList (s : State) (pane : Nat) (k : UmCmd) (ps : List Nat) (off : Int) (n : Nat) : State :=
  let at' := (((listBlocks k ps).take k.blk).map Prod.snd).sum
  let go (t : State) (k : UmCmd) : State := t.setUm pane ((t.umOf pane).putHead { k with blk := k.blk + 1 })
  match s.check k.tok off n rW with
  | .wait => s
  | .fail b e => go (s.failedBlock k.core k.tok b e) (k.failedBy (some { entry := e, killed := s.killing k.tok e }))
  | .pass t pas =>
    if pas.any s.unreachable then s.umEvent pane k (kUnreach, 0xFFFF) (s.umOf pane).mcnt
    else if !s.linked pas then s
    else
      let data := (ps.flatMap (fun p => leBytes 4 p)).drop at'
      let w := (s.mod k.core (fun x => x.cacheTok t.entry)).umWrite k t off false (pas.zip data)
      go w.1 { k with wunit := w.2 }

/-- R361: the next bitmap block loses its committed bits, in one indivisible step at its home, and their pairs are dirtied. When a
pair is dirtied, and that the step bypasses the stash, is (DEDUCED, notes/assumptions/32.md, notes/assumptions/71.md). A block that a KILL fails ends the command before its positions (R364). -/
def State.umBlock (s : State) (pane : Nat) (k : UmCmd) (ps : List Nat) (j : Nat) (last : Bool) : State :=
  let u := s.umOf pane
  let mine := inBlock ps j
  let off : Int := k.b.toInt + (64 * j : Nat)
  let waits (at' : Option Nat) : Bool := last && !s.engRelReady k.agent at'
  let rel (t : State) (at' : Option Nat) : State := if last then t.engRelease k.agent at' else t
  let finish (t : State) (k : UmCmd) : State :=
    let v := mine.foldl (fun (v : Um) p => v.dirtyFor p) (t.umOf pane)
    let n := { k with pos := k.pos + mine.length, blk := k.blk + 1 }
    if last then
      t.setUm pane (({ v with st := .configured, rl := [], mcnt := u.mcnt - ps.length }).putHead
        { n with done := true, info := if n.code = 0 then ps.length else n.info })
    else t.setUm pane (v.putHead n)
  match s.check k.tok off 64 (rR ||| rW) with
  | .wait => s
  | .fail b e =>
    if s.killing k.tok e then
      (s.failedBlock k.core k.tok b e).setUm pane (u.putHead (k.failedBy (some { entry := e, killed := true })))
    else if waits none then s
    else finish ((rel s none).failedBlock k.core k.tok b e) (k.failedBy (some { entry := e, killed := false }))
  | .pass t pas =>
    if pas.any s.unreachable then s.umEvent pane k (kUnreach, 0xFFFF) (u.mcnt - k.pos)
    else if !s.linked pas ∨ !s.engAcquire k.agent pas ∨ waits pas.head? then s
    else match ((s.bypass k.core pas).pullFor pas).findAll pas with
        | (w, some e) => w.umEvent pane k e (u.mcnt - k.pos)
        | (w, none) =>
          let clr := (List.range 64).map (fun i =>
            BitVec.ofNat 8 (((mine.filter (fun q => q % 512 / 8 == i)).map (fun q => 2 ^ (q % 8))).sum))
          let new := (pas.zip clr).map (fun p => (p.1, w.byte p.1 &&& ~~~p.2))
          let k' := { k with acqd := true, hb := w.engHears k.agent pas }
          let z := (((rel w pas.head?).engTakes k.agent pas).mod k.core (fun x => x.cacheTok t.entry)).engWrite k'.agent t.kind last
            new [] clr
          finish z.1 { k' with wunit := z.2 }

/-- One block of `um.commit`: the list's, then the bitmap's in ascending address. -/
def State.umCommit (s : State) (pane : Nat) (k : UmCmd) : State :=
  let u := s.umOf pane
  if u.st ≠ .ranked then s.setUm pane (u.putHead { k with done := true, code := 4 })
  else
    let ps := u.rl.take u.share
    if ps = [] then
      s.setUm pane (({ u with st := .configured, rl := [], mcnt := u.mcnt }).putHead { k with done := true, info := 0 })
    else match (listBlocks k ps)[k.blk]? with
      | some (off, n) => s.umList pane k ps off n
      | none =>
        let js := (List.range ((u.seqlen + 511) / 512)).filter (fun j => inBlock ps j != [])
        let i := k.blk - (listBlocks k ps).length
        match js[i]? with
        | some j => s.umBlock pane k ps j (decide (js.length ≤ i + 1))
        | none => s

/-! ### Execution (R355, R362) -/

/-- The first dirty pair that no core has claimed. -/
def Um.firstDirty (u : Um) : Option Nat :=
  (u.dirty.find? (fun p => p.2 && !Sparse.get false u.claim p.1)).map Prod.fst

/-- `um.dclr` on a pair (R362). -/
def Um.clear (u : Um) (i : Nat) : Um :=
  if Sparse.get false u.dirty i then
    if Sparse.get false u.redirty i then
      { u with claim := Sparse.set false u.claim i false, redirty := Sparse.set false u.redirty i false }
    else
      { u with dirty := Sparse.set false u.dirty i false, claim := Sparse.set false u.claim i false
               redirty := Sparse.set false u.redirty i false }
  else u

/-- What a command finds of the engine before it acts (R355): a status code that refuses it, if any. -/
def Um.refuses (u : Um) (k : UmCmd) : Option (Nat × Nat) :=
  match u.st, k.i with
  | .free, .umCfg _ => none
  | .free, _ => some (2, 0)
  | _, _ => if u.owner = k.linst then none else some (3, u.owner)

/-- Whether a command may begin: its accesses follow its context's earlier ones (R297, R363). -/
def State.umMayBegin (s : State) (k : UmCmd) : Bool :=
  match k.i with
  | .umRank _ | .umCommit _ => s.engFree k.core k.ctx k.id k.wseq
  | _ => true

/-- The command at the head of an engine's order acts. -/
def State.umAct (s : State) (pane : Nat) (k : UmCmd) : State :=
  let u := s.umOf pane
  let fin (u : Um) (code info : Nat) : State := s.setUm pane (u.putHead { k with done := true, code := code, info := info })
  match u.refuses k with
  | some (c, i) => (match k.i with
    | .umDnext _ => fin u 0 (2 ^ 64 - 1)
    | .umDclr _ _ => fin u 0 0
    | _ => if k.code = 6 then fin u 6 k.info else fin u c i)
  | none => if k.code = 6 then
      let m := match k.i with
        | .umCommit _ => u.mcnt - k.pos
        | _ => 0
      s.setUm pane ((u.cancelled m).putHead { k with done := true })
    else match k.i with
    | .umCfg f =>
      fin { u with st := .configured, owner := k.linst, seqlen := f.seqlen, bsz := umBsz f.bsz, nlayer := f.nlayer,
                   num := k.a.toNat, den := k.b.toNat, rnd := f.rnd, rad := [], rl := [], mcnt := 0, dirty := [],
                   claim := [], redirty := [] } 0 0
    | .umCfgRad _ l0 nl radius =>
      if u.nlayer < l0 + nl then fin u 5 u.nlayer
      else fin { u with rad := (run l0 nl).foldl (fun m l => Sparse.set 0 m l radius) u.rad } 0 0
    | .umCfgShare f => fin { u with num := k.a.toNat, den := k.b.toNat, rnd := f.rnd } 0 0
    | .umRank _ => s.umRank pane k
    | .umCommit _ => s.umCommit pane k
    | .umDnext _ =>
      let nblk := max (umBlocks u.seqlen u.bsz) 1
      (match u.firstDirty with
       | some i => fin { u with claim := Sparse.set false u.claim i true } 0 (i / nblk * 2 ^ 16 + i % nblk)
       | none => fin u 0 (2 ^ 64 - 1))
    | .umDclr _ _ =>
      let w := k.a.toNat
      let nblk := umBlocks u.seqlen u.bsz
      if 2 ^ 24 ≤ w ∨ u.nlayer ≤ w / 2 ^ 16 ∨ nblk ≤ w % 2 ^ 16 then fin u 0 0
      else fin (u.clear (w / 2 ^ 16 * nblk + w % 2 ^ 16)) 0 0
    | _ => s

/-- The commands an idle engine may take next: each core's oldest, in whatever order they reach it (R356). -/
def Um.next (u : Um) : List UmCmd :=
  u.order.filter (fun k => u.order.all (fun j => j.core != k.core || decide (k.id ≤ j.id)))

/-- The engine of a pane takes its next command, or goes on with the one it has. Which it takes is a free value (DESIGN CHOICE,
notes/assumptions/45.md). -/
def State.unmaskTurn (s : State) (pane : Nat) : State :=
  let u := s.umOf pane
  match u.order with
  | [] => s
  | k :: _ =>
    if k.done then s
    else if k.begun then s.umAct pane k
    else
      let cand := u.next
      match cand[(s.free 0).toNat % cand.length]? with
      | none => s
      | some j =>
        if !s.umMayBegin j then s
        else
          let b := { j with begun := true }
          (s.setUm pane { u with order := b :: u.order.filter (fun i => i.core != j.core || i.id != j.id) }).umAct pane b

/-- The destination scalar of a command. -/
def umDest : Instr → Nat
  | .umCfg f | .umCfgShare f => f.d
  | .umCfgRad d _ _ _ | .umDnext d => d
  | .umRank f | .umCommit f => f.d
  | _ => 0

/-- R357: a command completes: what release it has not done, its status word or pair, and its place in the queue. -/
def execUmStatusFill (pane : Nat) (s : State) : Out :=
  let u := s.umOf pane
  match u.order with
  | [] => .next s
  | k :: rest =>
    if !k.done then .next s
    else
      let wrote := match k.i with
        | .umCommit _ => (decide (0 < k.blk) : Bool)
        | _ => false
      let o : Ordr := if k.silent || k.code == 6 || wrote then { umOrd k.i with rel := false } else umOrd k.i
      let g : Agent := { k.agent with ord := o }
      if !s.engRelReady g none ∨ s.cmdHeld k.core k.wseq then .next s
      else
        let t := (s.engRelease g none).observe k.core k.ctx 2 (k.id + 1)
        let v : Word := match k.i with
          | .umDnext _ => BitVec.ofNat 64 k.info
          | _ => BitVec.ofNat 64 (k.info % 2 ^ 32 * 2 ^ 8 + k.code)
        .next ((t.setUm pane { t.umOf pane with order := rest }).mod k.core (fun x =>
          if k.silent then x.dropS k.ctx (umDest k.i) k.id else x.fillS k.ctx (umDest k.i) k.id v))

end Sys2Proof.Machine
end

