-- ==== Sys2Proof/Machine/Revoke.lean ====
section
/-! DEFINITION. Revocation after `tkrev` (R206, R210 to R213): the end of draining, the sweep of each holder, the states that
follow, and the walk of saved contexts. -/

namespace Sys2Proof.Machine

/-- Whether an access has passed its check through an entry and not performed. -/
def Acc.through (a : Acc) (e : Nat) : Bool := (a.chk == 1 || a.chk == 3) && a.tok.entry == e

/-- Whether a held write that is no outstanding access goes through an entry: a `fut.wait`'s, a join's, or an engine's (R348). -/
def State.heldThrough (s : State) (e : Nat) (h : Held) : Bool :=
  match h.op with
  | .acc a => (a.op == .futWait || a.op == .join) && a.tok.entry == e
  | .bytes l _ _ _ _ => l.any (fun p => (s.ent e).ranges.any (fun r => decide (r.2 ≤ p.1) && decide (p.1 < r.2 + 4096 * r.1)))
  | .push _ _ => false

/-- Whether an access that passed its check through an entry has not performed (USE of R206, R209): a core's, a wait registered for a
`sig.wait` or for a parked ring's WAIT (R295, R325), or a redundant core's write. -/
def State.inUse (s : State) (e : Nat) : Bool :=
  s.cores.any (fun p => p.2.acc.any (fun a => a.through e) ||
    (match (p.2.q.holdOf 0).k with | .sig _ _ _ _ _ n => n == e | _ => false)) ||
  s.io.rings.any (fun p => (p.2.st == 2 || p.2.cur.isSome) && p.2.wait.isSome && p.2.entry == e) ||
  s.w.held.any (s.heldThrough e)

/-- A MOVE copies the extent's bytes to the forward entry's ranges, with their marks (R206), the releases among them and the records
at their lines; what the pages held before is no value of theirs. That releases and records move is (DEDUCED,
notes/assumptions/72.md). -/
def State.moveExtent (s : State) (e : Nat) : State :=
  let v := s.ent e
  let src := (List.range v.len).filterMap (fun i =>
    match v.at_ i, (s.ent v.fwd).at_ i with
    | some a, some b => some (a, b)
    | _, _ => none)
  let s0 := (src.map (fun p => p.1 / 64)).eraseDups.foldl (fun t ln => t.pullLine ln) s
  let m := s0.marksOf (src.map Prod.fst)
  let t := m.1.homeWrite (src.map (fun p => (p.2, m.1.byte p.1)))
    (m.2.filterMap (fun p => (src[p.1]?).map (fun q => (q.2, p.2))))
  { t with
    hist := src.foldl (fun (h : Sparse (List Lost)) p => Sparse.set [] h p.2 []) t.hist
    msgs := src.foldl (fun (h : Sparse (List Msg)) p => Sparse.set [] h p.2 (Sparse.get [] s0.msgs p.1)) t.msgs
    pub := (src.map (fun p => (p.1 / 64, p.2 / 64))).eraseDups.foldl (fun (h : Sparse (List Pub)) p =>
      Sparse.set [] h p.2 (Sparse.get [] s0.pub p.1)) t.pub }

/-- Write back every stash window of an entry (R206). -/
def State.writeEntry (s : State) (e : Nat) : State :=
  s.coreList.foldl (fun t c =>
    ((t.core c).wins.filter (fun p => p.2.size != 0 && p.2.tok.entry == e)).foldl (fun t p => t.writeWin c p.2) t) s

/-- R206: draining ends with USE 0: write-backs, a MOVE's copy, then the generation is bumped and the sweep begins. -/
def execRevokeDrainEnd (e : Nat) (s : State) : Out :=
  if (s.ent e).st ≠ .draining ∨ s.inUse e then .next s
  else
    let t := s.writeEntry e
    let u := if (t.ent e).move then t.moveExtent e else t
    let v := u.ent e
    .next (u.setEnt e { v with st := .sweeping, gen := v.gen + 1, swept := 0#1024, lists := if v.move then v.lists else 0#64 })

/-! ### The bytes of a pontil-table entry (R205) -/

/-- STATE (R205). -/
def PState.code : PState → Nat
  | .free => 0
  | .live => 1
  | .draining => 2
  | .sweeping => 3
  | .dead => 4
  | .forwarded => 5
  | .retired => 6

/-- USE of an entry: the accesses in flight through it (R205, R206). -/
def State.useOf (s : State) (e : Nat) : Nat :=
  ((s.cores.map (fun p => (p.2.acc.filter (fun a => a.through e)).length)).sum +
    (s.cores.filter (fun p => match (p.2.q.holdOf 0).k with | .sig _ _ _ _ _ n => n == e | _ => false)).length +
    (s.io.rings.filter (fun p => (p.2.st == 2 || p.2.cur.isSome) && p.2.wait.isSome && p.2.entry == e)).length +
    (s.w.held.filter (s.heldThrough e)).length) % 2 ^ 32

/-- The 256 bytes of an entry, with its USE and the address of its range list (R205). -/
def PEntry.bytes (v : PEntry) (use list : Nat) : List Byte :=
  let n := v.ranges.length
  leBytes 8 (v.st.code + v.gen % 2 ^ 12 * 2 ^ 4 + v.kind % 4 * 2 ^ 16 + v.rights.toNat * 2 ^ 18 + (if n ≤ 8 then n else 15) * 2 ^ 22 +
      v.move.toNat * 2 ^ 26) ++
    leBytes 8 (v.vbase % 2 ^ 48 + v.asid % 2 ^ 12 * 2 ^ 48) ++ leBytes 8 (v.len % 2 ^ 39) ++ leBytes 8 (use + v.fwd % 2 ^ 20 * 2 ^ 32) ++
    leBytes 128 v.holders.toNat ++ leBytes 8 v.lists.toNat ++
    (if n ≤ 8 then (List.range 8).flatMap (fun i => match v.ranges[i]? with
        | some r => leBytes 8 (r.1 * 2 ^ 46 + r.2)
        | none => leBytes 8 0)
      else leBytes 64 list) ++ leBytes 24 0

/-- The bytes of a range list (R205). -/
def PEntry.listOf (v : PEntry) : List Byte := leBytes 8 v.ranges.length ++ v.ranges.flatMap (fun r => leBytes 8 (r.1 * 2 ^ 46 + r.2))

/-! ### The sweep (R212) -/

/-- Whether a token is a copy that the sweep of an entry meets. -/
def PEntry.hits (v : PEntry) (e : Nat) (t : Token) : Bool := t.entry == e && t.gen + 1 == v.gen

/-- Rewrite or null every captured and held token of a core by `f`. -/
def Core.mapTokens (x : Core) (f : Token → Token) : Core :=
  let q (l : List VEntry) : List VEntry := l.map (fun e => { e with cap := { e.cap with tok := f e.cap.tok } })
  { x with
    r := { x.r with k := x.r.k.foldr (fun p (m : Sparse Token) => Sparse.set {} m p.1 (f p.2)) [] }
    v := { x.v with ql := q x.v.ql, qa := q x.v.qa, qs := q x.v.qs } }

/-- Whether a core holds a copy of an entry's token. -/
def State.holdsCopy (s : State) (c e : Nat) : Bool :=
  let x := s.core c
  let v := s.ent e
  let hit := v.hits e
  x.r.k.any (fun p => hit p.2) || (x.v.ql ++ x.v.qa ++ x.v.qs).any (fun k => hit k.cap.tok) ||
    x.e.copies.any (fun k => hit k.st || hit k.dt) || (s.mxOwn c).any (fun k => !k.done && hit k.tok) ||
    (s.umOf (s.cfg.paneOf c)).order.any (fun k => k.core == c && !k.done && hit k.tok) ||
    x.wins.any (fun p => p.2.size != 0 && hit p.2.tok) || x.tcache.contains e

/-- The Marver and unmasking commands of a core that satisfy a test change. -/
def State.modCmds (s : State) (c : Nat) (p : Token → Bool) (f : MxCmd → MxCmd) (g : UmCmd → UmCmd) : State :=
  let mv := s.cfg.marver c
  let m := s.marver mv
  let u := s.umOf (s.cfg.paneOf c)
  let h (k : MxCmd) : MxCmd := if k.core = c ∧ k.done = false ∧ p k.tok then f k else k
  ((s.setMarver mv { m with order := m.order.map h }).setUm (s.cfg.paneOf c)
    { u with order := u.order.map (fun k => if k.core = c ∧ k.done = false ∧ p k.tok then g k else k) }).mod c (fun x =>
      x.eng (fun e => { e with mxq := e.mxq.map h }))

/-- The sweep of one core under MOVE. -/
def State.sweepMove (s : State) (c e : Nat) : State :=
  let v := s.ent e
  let f (t : Token) : Token := if v.hits e t then s.forwarded t v.fwd else t
  let t := (s.core c).wins.foldl (fun (t : State) p => if v.hits e p.2.tok then t.dropLines c p.2 else t) s
  (t.mod c (fun x =>
    let y := x.mapTokens f
    { y with
      e := { y.e with copies := y.e.copies.map (fun k => { k with st := f k.st, dt := f k.dt }) }
      acc := y.acc.map (fun a => if a.chk = 0 then { a with tok := f a.tok } else a)
      wins := y.wins.map (fun p => (p.1, { p.2 with tok := f p.2.tok })) })).modCmds c (v.hits e)
    (fun k => { k with tok := f k.tok }) (fun k => { k with tok := f k.tok })

/-- The sweep of one core under KILL: KSTAT.REVOKED where it found a copy. -/
def State.sweepKill (s : State) (c e : Nat) : State :=
  let v := s.ent e
  let found := s.holdsCopy c e
  let f (t : Token) : Token := if v.hits e t then {} else t
  let t := (s.core c).wins.foldl (fun (t : State) p => if v.hits e p.2.tok then t.dropLines c p.2 else t) s
  (t.mod c (fun x =>
    let y := (x.mapTokens f).cancel (fun k => v.hits e k.st || v.hits e k.dt) 2 e
    let z := { y with wins := y.wins.filter (fun p => !v.hits e p.2.tok), tcache := y.tcache.filter (· != e) }
    if found then z.kset .revoked e else z)).modCmds c (v.hits e)
    (fun k => { k with done := decide (k.nblk = 0), cut := true, code := 7, info := e }) (fun k => { k with code := 6, info := e })

/-- R212: core `c` sweeps its copies of an entry's token and reports. -/
def execSweep (c e : Nat) (s : State) : Out :=
  let v := s.ent e
  if v.st ≠ .sweeping ∨ v.holders.getLsbD c = false ∨ v.swept.getLsbD c then .next s
  else
    let t := if v.move then s.sweepMove c e else (if (s.core c).q.st = .stopping then (s.sweepKill c e).dropCancelled c else s.sweepKill c e)
    let w := t.ent e
    .next (t.setEnt e { w with swept := w.swept ||| (1#1024 <<< c) })

/-- R206: every holder has swept. -/
def execSweepDone (e : Nat) (s : State) : Out :=
  let v := s.ent e
  if v.st = .sweeping ∧ v.holders &&& ~~~v.swept = 0#1024 then
    .next (s.setEnt e { v with st := if v.move then .forwarded else .dead, holders := 0#1024, swept := 0#1024, deadAt := s.now
                               lists := if v.move then v.lists else 0#64 })
  else .next s

/-- An entry leaves its extent: FREE, or RETIRED where its generations are used up (R206). -/
def PEntry.freed (v : PEntry) : PEntry := { st := if 4094 ≤ v.gen then .retired else .free, gen := v.gen }

/-- R206: a DEAD entry that is not in use unpins its pages. -/
def execDeadUnpin (e : Nat) (s : State) : Out :=
  let v := s.ent e
  if v.st = .dead ∧ s.inUse e = false then .next (s.setEnt e { v with pinned := false }) else .next s

/-- R206: 2²⁰ clocks after it became DEAD, an entry is FREE or RETIRED. -/
def execDeadHoldExpire (e : Nat) (s : State) : Out :=
  let v := s.ent e
  if v.st = .dead ∧ v.pinned = false ∧ v.deadAt + 2 ^ 20 ≤ s.now then .next (s.setEnt e v.freed) else .next s

/-- R206: a FORWARDED entry that no list and no access needs is FREE or RETIRED. -/
def execForwardRelease (e : Nat) (s : State) : Out :=
  let v := s.ent e
  if v.st = .forwarded ∧ v.lists = 0#64 ∧ s.inUse e = false then .next (s.setEnt e v.freed) else .next s

/-! ### Saved contexts (R108, R110, R213) -/

/-- The little-endian value of `n` bytes of memory, as the dispatchers and the Wilgor complex read it. -/
def State.memNat (s : State) (pa n : Nat) : Nat := s.valueAt ((List.range n).map (pa + ·))

/-- The dispatchers and the Wilgor complex write bytes of memory, with the marks they carry, by position (R108). -/
def State.memPut (s : State) (pa : Nat) (l : List Byte) (bad : List (Nat × Nat) := []) : State :=
  s.homeWrite ((List.range l.length).zip l |>.map (fun p => (pa + p.1, p.2))) (bad.map (fun p => (pa + p.1, p.2)))

/-- They write the bytes of memory that differ from some. -/
def State.memChange (s : State) (pa : Nat) (l : List Byte) : State :=
  match ((List.range l.length).zip l |>.map (fun p => (pa + p.1, p.2))).filter (fun p => s.byte p.1 != p.2) with
  | [] => s
  | d => s.homeWrite d

/-- Where the save area of a list entry lies (R108). -/
def State.areaOf (s : State) (key : Nat) : Nat := areaPA (key / 1024 / 4) (Sparse.get {} s.d.lists key : SaveE).area

/-- The 16 bytes of an entry of a saved-context list (R108). -/
def SaveE.bytes (v : SaveE) (pa : Nat) : List Byte :=
  if v.valid then leBytes 8 (2 ^ 63 + v.mcore % 1024 * 2 ^ 46 + pa) ++ leBytes 8 (v.linst % 2 ^ 32) else leBytes 16 0

/-- The dispatcher writes an entry of a saved-context list: what it keeps of it, and its bytes (R108). -/
def State.setList (s : State) (key : Nat) (v : SaveE) : State :=
  ({ s with d := { s.d with lists := Sparse.set {} s.d.lists key v } }).memPut (listPA key) (v.bytes (areaPA (key / 1024 / 4) v.area))

/-- The 16 bytes of a token-column entry (R110). -/
def Token.image (t : Token) : List Byte := leBytes 8 t.word.toNat ++ leBytes 4 t.base ++ leBytes 4 t.len

/-- Entry `i` of the token column of the image at `pa`. -/
def State.areaTok (s : State) (pa i : Nat) : Token :=
  Token.ofWord (BitVec.ofNat 64 (s.memNat (pa + 0x1000 + 16 * i) 8)) (s.memNat (pa + 0x1008 + 16 * i) 4)
    (s.memNat (pa + 0x100C + 16 * i) 4)

/-- R213: the Wilgor complex rewrites an entry's tokens in the saved contexts of a list and clears the list bit. -/
def execSavedContextWalk (e list : Nat) (s : State) : Out :=
  let v := s.ent e
  if v.st ≠ .forwarded ∨ v.lists.getLsbD list = false then .next s
  else
    let saved := (s.d.lists.filter (fun p => p.1 / 1024 == list && p.2.valid)).map (fun p => areaPA (list / 4) p.2.area)
    let t := saved.foldl (fun (t : State) pa => (List.range 256).foldl (fun (t : State) i =>
        let k := t.areaTok pa i
        if v.hits e k then t.memPut (pa + 0x1000 + 16 * i) (s.forwarded k v.fwd).image else t) t) s
    .next (t.setEnt e { v with lists := v.lists &&& ~~~(1#64 <<< list) })

end Sys2Proof.Machine
end

