-- ==== Sys2Proof/Machine/Queue.lean ====
section
/-! DEFINITION. Queues (R221 to R236): how requests that reach a queue are resolved, the cullet ring, the queue
instructions, and the events that bring records and faults back. -/

namespace Sys2Proof.Machine

/-! ### Who may take a record (R345 to R347) -/

/-- Whether a core may take only REDUNDANT records (R345): it, or a column group of its Marver, is quarantined. -/
def State.restricted (s : State) (c : Nat) : Bool :=
  s.w.quar.contains (s.cfg.coreUnit c) ||
    (List.range 16).any (fun g =>
      s.w.quar.contains (0x0400 + 64 * s.cfg.siteOf (s.cfg.paneOf c) + 16 * s.cfg.mxid c + g))

/-- The cores of a launch's range. -/
def State.range (s : State) (l : Launch) : List Nat := (List.range l.cnum).map (s.cfg.firstCore l.pane + l.cfirst + ·)

/-- The core's logical number in its pane. -/
def State.slotOf (s : State) (c : Nat) : Nat := s.cfg.pcoreOf c

/-- The stage a core is assigned to in a launch. -/
def State.stageOf (s : State) (l : Launch) (c : Nat) : Nat := Sparse.get 0 l.assign (s.slotOf c)

/-- The cores assigned to a stage. -/
def State.assigned (s : State) (l : Launch) (g : Nat) : List Nat := (s.range l).filter (fun c => s.stageOf l c == g)

/-- Whether a core is IDLE and free to take work. -/
def State.idleCore (s : State) (c : Nat) : Bool :=
  (s.core c).q.st == .idle && (s.core c).taken.isNone && decide (c < s.cfg.total)

/-- Whether some launch holds a core reserved for a group or pair. -/
def State.reservedCore (s : State) (c : Nat) : Bool := s.d.launches.any (fun p => p.2.reserved.contains c)

/-- Whether a core is at a task boundary (R269): it has become IDLE on this clock, or is IDLE with a dispatch pop that waits. -/
def State.atBoundary (s : State) (c : Nat) : Bool :=
  s.idleCore c && !s.reservedCore c && ((s.core c).idleAt == s.now + 1 || (s.core c).popAt != 0)

/-- The launch whose pending move core `c` carries out now (R269): the lowest-numbered core of the starved stage at a task boundary. -/
def State.donorFor (s : State) (c : Nat) : Option (Nat × Launch) :=
  s.d.launches.find? (fun p => match p.2.move with
    | some (lo, _) => p.2.st == .running && (s.range p.2).contains c && s.stageOf p.2 c == lo && s.atBoundary c &&
        (s.assigned p.2 lo).all (fun d => decide (c ≤ d) || !s.atBoundary d)
    | none => false)

/-- Whether a core is such a donor. -/
def State.isDonor (s : State) (c : Nat) : Bool := (s.donorFor c).isSome

/-- Whether a launch's range can serve a record (R347). -/
def State.canServe (s : State) (l : Launch) (redundant : Bool) : Bool :=
  if redundant then
    (s.range l).any (fun a => (s.range l).any (fun b => s.cfg.marver a != s.cfg.marver b))
  else (s.range l).any (fun c => !s.restricted c)

/-- Whether a head record is delivered by GROUP_DELIVER alone: it belongs to a co-resident group or to a pair (R272, R346). -/
def Launch.grouped (l : Launch) (r : Rec) (initial : Bool) : Bool := r.redundant || (l.kern.colevel != 0xFF && initial)

/-! ### Resolution (R224 to R227) -/

/-- Insert a request by ascending core number, after those of the same core. -/
def insReq (r : QReq) : List QReq → List QReq
  | [] => [r]
  | x :: l => if r.core < x.core then r :: x :: l else x :: insReq r l

/-- Requests in ascending core number, in issue order within one core (R226). -/
def sortReqs (l : List QReq) : List QReq := l.foldl (fun acc r => insReq r acc) []

/-- A pop waits behind an earlier pop of its context at another queue (R233). (DEDUCED, notes/assumptions/44.md). -/
def State.popBlocked (s : State) (qn : Nat) (r : QReq) : Bool :=
  r.isPop && s.queues.any (fun p => p.1 != qn &&
    (p.2.pops ++ p.2.arrive).any (fun o => o.core == r.core && o.ctx == r.ctx && o.isPop && decide (o.id < r.id)))

/-- A push is a release (R229): what its context issued before it has performed, V-word stores apart (R130), and so have the stores
of its core's other contexts (R306). -/
def State.pushReady (s : State) (r : QReq) : Bool :=
  decide (1024 ≤ r.core) ||
    (s.core r.core).acc.all (fun a => decide (r.id ≤ a.id) || a.op == .vstore || (a.ctx != r.ctx && !a.plainStore))

/-- A waiting pusher goes on: after its `qpush`, or to the end of its join (R280). -/
def Core.pushEnds (x : Core) (now ctx id : Nat) : Core :=
  if (x.q.holdOf ctx).k = .queue id then
    (if ctx = 0 ∧ x.q.st = .ending then
      { x with q := x.q.setHold 0 {}, task := x.task.map (fun t => { t with joined := true }) }
    else (x.next ctx 1).passedBy now ctx)
  else x

/-- The cores whose context waits for a push, with the numbers they wait by: the pusher, and its redundant partner (R348). -/
def State.pushers (s : State) (r : QReq) : List (Nat × Nat) :=
  if 1024 ≤ r.core then []
  else
    match (s.core r.core).partner with
    | none => [(r.core, r.id)]
    | some p => match ((s.core p).q.holdOf r.ctx).k with
      | .queue id => [(r.core, r.id), (p, id)]
      | _ => [(r.core, r.id)]

/-- A push is placed. -/
def State.placed (s : State) (r : QReq) : State :=
  (s.pushers r).foldl (fun (t : State) p => t.mod p.1 (fun x => x.pushEnds s.now r.ctx p.2)) s

/-- A push that its queue refuses (R220, R223): its record is discarded and its pusher will trap QUEUE, which ends the push (R232). -/
def State.pushFault (s : State) (qn : Nat) (r : QReq) : State :=
  (s.pushers r).foldl (fun (t : State) p =>
    t.mod p.1 (fun x => { x with deliv := x.deliv ++
      [{ id := p.2, ctx := r.ctx, q := qn, d := 0, k := 0, st := none, code := 2, r := {}, push := true, pc := r.pc }] })) s

/-- The push of a task's join (R280): its core is ENDING. -/
def State.joinPush (s : State) (r : QReq) : Bool := decide (r.core < 1024) && (s.core r.core).q.st == .ending

/-- A placed record hands on what its pusher releases (R229). -/
def State.pushLeaves (s : State) (qn : Nat) (r : QReq) : State := if r.core < 1024 then s.leaveAt (queueKey qn) r.core r.ctx r.id else s

/-- A queue goes FAULTED (R223): the records in its ring are lost, and the event is journalled. -/
def State.queueFault (s : State) (qn : Nat) : State :=
  let q := s.queue qn
  (s.setQ qn { q with st := 2, rmeta := [] }).journal (0x3000 + qn / 256) 0 0 0 q.owner 0x31 qn

/-- Deliver the head of a queue to a request. -/
def State.deliver (s : State) (qn : Nat) (r : QReq) (rc : Rec) (initial : Bool) (bad : List (Nat × Nat)) : State :=
  let give (d k : Nat) (st : Option Nat) : State := s.mod r.core (fun x => { x with deliv := x.deliv ++
    [{ id := r.id, ctx := r.ctx, q := qn, d := d, k := k, st := st, code := 1, r := rc, bad := bad, pc := r.pc }] })
  match r.op with
  | .pop d k => give d k none
  | .tryPop d k st => give d k (some st)
  | .dispatch => s.mod r.core (fun x => { x with taken := some (.fresh rc initial none bad), popAt := 0 })
  | .push _ _ => s

/-- Whether a dispatch pop may take a head record (R263, R269, R272, R345). -/
def State.mayDispatch (s : State) (c : Nat) (rc : Rec) (initial : Bool) : Bool :=
  let l := s.launch rc.linst
  l.st == .running && !l.grouped rc initial && !s.restricted c && !s.reservedCore c && !s.isDonor c

/-- Step 1 of R226 for one pop. A record of a group or pair in a stage's input is GROUP_DELIVER's alone (R272, R346). -/
def servePop (qn : Nat) (s : State) (r : QReq) : State :=
  let q := s.queue qn
  let wait : State := s.setQ qn { q with pops := q.pops ++ [r] }
  let none_ (d k : Nat) (st : Option Nat) : State := s.mod r.core (fun x => { x with deliv := x.deliv ++
    [{ id := r.id, ctx := r.ctx, q := qn, d := d, k := k, st := st, code := if q.st = 2 then 2 else 0, r := {}, pc := r.pc }] })
  let tries := match r.op with | .tryPop _ _ _ => true | _ => false
  let group (rc : Rec) (initial : Bool) : Bool :=
    q.stage != 0 && (s.launch rc.linst).st == .running && (s.launch rc.linst).grouped rc initial
  if s.popBlocked qn r && !tries then wait
  else match q.items with
    | .here rc initial _ bad :: rest =>
      if r.op = .dispatch then (if s.mayDispatch r.core rc initial then (s.setQ qn { q with items := rest }).deliver qn r rc initial bad else wait)
      else if group rc initial then (match r.op with
        | .tryPop d k st => none_ d k (some st)
        | _ => wait)
      else (s.setQ qn { q with items := rest }).deliver qn r rc initial bad
    | _ => match r.op with
      | .tryPop d k st => none_ d k (some st)
      | .pop d k => if q.st = 2 ∧ q.items = [] then none_ d k none else wait
      | _ => wait

/-- Step 2 of R226: reserve a slot for the ring's head record, up to 8 in flight. -/
def Queue.reserve : Nat → Queue → Queue
  | 0, q => q
  | n + 1, q =>
    match q.rmeta with
    | [] => q
    | initial :: rest =>
      if q.items.length < q.depth ∧
          (q.items.filter (fun i => match i with | .refill _ _ => true | _ => false)).length < 8 then
        Queue.reserve n { q with items := q.items ++ [.refill q.rhead initial], rmeta := rest,
                                 rhead := (q.rhead + 1) % max q.ring.len 1 }
      else q

/-- The positions of the refills in flight (R225), oldest first. -/
def Queue.inFlight (q : Queue) : List Nat := q.items.filterMap (fun i => match i with | .refill p _ => some p | _ => none)

/-- Put a record in the slot reserved for ring position `pos`. -/
def fillSlot (pos : Nat) (r : Rec) (bad : List (Nat × Nat)) : List QItem → List QItem
  | [] => []
  | .refill p i :: rest => if p = pos then .here r i 0 bad :: rest else .refill p i :: fillSlot pos r bad rest
  | x :: rest => x :: fillSlot pos r bad rest

/-- Drop the slot reserved for ring position `pos`. -/
def dropSlot (pos : Nat) : List QItem → List QItem
  | [] => []
  | .refill p i :: rest => if p = pos then rest else .refill p i :: dropSlot pos rest
  | x :: rest => x :: dropSlot pos rest

/-- A record read from some bytes of a ring takes its reserved slot, and a mark travels with it (R225, R338). -/
def State.landRefill (s : State) (qn pos : Nat) (pas : List Nat) : State :=
  let m := s.marksOf pas
  let q := m.1.queue qn
  m.1.setQ qn { q with items := fillSlot pos (Rec.ofBytes (pas.map m.1.byte)) (recordMarks m.2) q.items }

/-- A refill of ring position `pos` that is still in flight is read, as it is ordered before a later write there (R225). -/
def State.readRefill (s : State) (qn pos : Nat) : State :=
  let q := s.queue qn
  if q.inFlight.contains pos then
    match s.check q.ring (64 * pos : Nat) 64 rR with
    | .pass _ pas => s.landRefill qn pos pas
    | _ => s
  else s

/-- Steps 3 and 4 of R226 for one push: the record is stamped as it is placed (R220). A full ring alone stalls a push (R225): a record
whose refill is on its way has left it, and is read before its place is written again. A record of the dispatcher's or a join's for
a launch that no longer runs is dropped (R263). -/
def servePush (qn : Nat) (s : State) (r : QReq) : State :=
  let q := s.queue qn
  match r.op with
  | .push rd initial =>
    let rc := rd.stamp q rd.linst
    let chip : State := ((s.pushLeaves qn r).setQ qn { q with items := q.items ++ [.here rc initial 0 r.bad] }).placed r
    let stall : State := s.setQ qn { q with stalled := q.stalled ++ [r] }
    if q.st = 2 then s.pushFault qn r
    else if q.st = 0 ∨ ((r.loose ∨ s.joinPush r) ∧ (s.launch rc.linst).st ≠ .running) then s.placed r
    else if q.items.length < q.depth ∧ q.rmeta = [] then chip
    else if q.spill = false ∨ q.ring.len ≤ q.rmeta.length then stall
    else
      let pos := (q.rhead + q.rmeta.length) % max q.ring.len 1
      match s.check q.ring (64 * pos : Nat) 64 rW with
      | .wait => stall
      | .fail _ _ => (s.queueFault qn).pushFault qn r
      | .pass _ pas =>
        if !s.linked pas then stall
        else
          let t := ((s.pushLeaves qn r).readRefill qn pos).homeWrite (pas.zip rc.bytes)
            (r.bad.map (fun p => (pas.getD p.1 0, (markEvent p.2).2)))
          (t.setQ qn { t.queue qn with rmeta := q.rmeta ++ [initial] }).placed r
  | _ => s

/-- The head's age begins (R273). -/
def Queue.noteHead (q : Queue) (now : Nat) : Queue :=
  match q.items with
  | .here r i 0 b :: rest => { q with items := .here r i (now + 1) b :: rest }
  | _ => q

/-- A head record that its launch's range cannot serve is retired unrun (R347). -/
def State.retireHead (s : State) (qn : Nat) : State :=
  let q := s.queue qn
  match q.items with
  | .here r _ _ _ :: rest =>
    let l := s.launch r.linst
    if q.stage ≠ 0 ∧ l.st = .running ∧ s.canServe l r.redundant = false then
      (s.setQ qn { q with items := rest }).fail r.linst 0x11
    else s
  | _ => s

/-- The release work of the pushes about to be served (R229, R306): dirty lines go home. -/
def State.pushFlush (s : State) (l : List QReq) : State :=
  l.foldl (fun t r => if r.core < 1024 then t.flush r.core else t) s

/-- Whether a request is a push. -/
def QReq.isPush (r : QReq) : Bool := match r.op with | .push _ _ => true | _ => false

/-- The requests a queue resolves next: those that have reached it and may be served. -/
def State.batch (s : State) (qn : Nat) : List QReq :=
  (s.queue qn).arrive.filter (fun r => decide (r.clk ≤ s.now) && (!r.isPush || s.pushReady r))

/-- What has reached a queue on one clock is resolved (R226). -/
def State.resolve (s : State) (qn : Nat) : State :=
  let q := s.queue qn
  let push := QReq.isPush
  let now := s.batch qn
  let go := sortReqs now
  let s0 := s.pushFlush (go.filter push)
  let q0 := s0.queue qn
  let s1 := s0.setQ qn { q0 with arrive := q.arrive.filter (fun r => !now.contains r), pops := [], doneAt := s.now + 1 }
  let s2 := (q.pops ++ go.filter (fun r => !push r)).foldl (servePop qn) s1
  let s3 := s2.setQ qn (Queue.reserve 8 (s2.queue qn))
  let s4 := (s3.queue qn).stalled.foldl (servePush qn) (s3.setQ qn { s3.queue qn with stalled := [] })
  let s5 := (go.filter push).foldl (servePush qn) s4
  (s5.setQ qn ((s5.queue qn).noteHead s.now)).retireHead qn

/-- R226: a queue resolves its clock's requests, once in the clock. -/
def execQueueResolve (pane slot : Nat) (s : State) : Out :=
  .next (if (s.queue (pane * 256 + slot)).doneAt = s.now + 1 then s else s.resolve (pane * 256 + slot))

/-- Whether a queue has something to resolve on a clock. -/
def Queue.busy (q : Queue) (now : Nat) : Bool :=
  q.arrive.any (fun r => decide (r.clk ≤ now)) || !q.stalled.isEmpty || (!q.pops.isEmpty && (!q.items.isEmpty || q.st == 2)) ||
    (!q.rmeta.isEmpty && decide (q.items.length < q.depth))

/-- R225: a refill lands, any of those in flight, as their trips differ (R202); a failed read faults the queue. -/
def execRefillLand (pane slot : Nat) (s : State) : Out :=
  let qn := pane * 256 + slot
  let q := s.queue qn
  match q.inFlight[Config.freePick s.tick qn % max q.inFlight.length 1]? with
  | none => .next s
  | some pos =>
    match s.check q.ring (64 * pos : Nat) 64 rR with
    | .wait => .next s
    | .fail _ _ =>
      let t := s.setQ qn { q with items := dropSlot pos q.items }
      .next (if q.st = 2 then t else t.queueFault qn)
    | .pass _ pas =>
      if s.linked pas then
        let t := s.landRefill qn pos pas
        .next (t.setQ qn ((t.queue qn).noteHead s.now))
      else .next s

/-! ### Delivery and faults -/

/-- Whether a delivery is a QUEUE trap on its way (R223). -/
def Deliv.trap (d : Deliv) : Bool := d.push || (d.st.isNone && d.code == 2)

/-- The eight registers of a delivery. -/
def Deliv.regs (d : Deliv) : List Nat := run d.d 8

/-- A delivery's destinations are full again, unchanged. -/
def Core.undeliver (x : Core) (d : Deliv) : Core :=
  if d.push then x
  else
    let y := d.regs.foldl (fun x r => x.dropS d.ctx r d.id) x
    let z := y.dropK d.ctx d.k d.id
    match d.st with
    | some r => z.dropS d.ctx r d.id
    | none => z

/-- Drop one delivery from the list. -/
def Core.takeDeliv (x : Core) (d : Deliv) : Core := { x with deliv := x.deliv.filter (fun e => e.id != d.id || e.push != d.push) }

/-- R229, R233, R234: the oldest record on its way to core `c` is written, an acquire; its frame token is checked as on restore, or is
discarded where no register takes it. -/
def execRecordDelivery (c : Nat) (s : State) : Out :=
  match (s.core c).deliv.find? (fun d => !d.trap) with
  | none => .next s
  | some d =>
    let s1 := s.mod c (fun x => x.takeDeliv d)
    if d.bad ≠ [] then
      .next ((s1.mod c (fun x => x.undeliver d)).contain c d.ctx (recordEvent d.bad).1 0 (recordEvent d.bad).2
        (if d.ctx = 0 then 0 else d.pc) d.id false 3)
    else
      let s2 := if d.code = 1 then s1.takePushed d.q c d.ctx else s1
      let p := if d.code = 1 ∧ d.k ≠ 0 then s2.arrives c d.r.frame else (s2, ({} : Token))
      let vals : List Word := if d.code = 1 then [d.r.w0, d.r.w1, 0#64, 0#64, d.r.w4, d.r.w5, d.r.w6, d.r.w7]
        else List.replicate 8 0#64
      .next (p.1.mod c (fun x =>
        let y := (d.regs.zip vals).foldl (fun (x : Core) q => x.fillS d.ctx q.1 d.id q.2) x
        let z := y.fillK d.ctx d.k d.id p.2
        match d.st with
        | some r => z.fillS d.ctx r d.id (BitVec.ofNat 64 d.code)
        | none => z))

/-- R223: a QUEUE trap reaches context `x` of core `c`, for its main context's next C-word boundary. -/
def execQueueFaultTrap (c x : Nat) (s : State) : Out :=
  match (s.core c).deliv.find? (fun d => d.trap && d.ctx == x) with
  | none => .next s
  | some d =>
    .next (s.mod c (fun k =>
      let w := (k.takeDeliv d).undeliver d
      let y := if d.push then w.pushEnds s.now x d.id else w
      let info := infoWord x false false 3 (if x = 0 then 0 else d.pc) d.q
      let z := if x ≠ 0 ∧ (y.q.hctx x).st = .running then y.handlerEnds x else y
      z.late { clk := d.id, cause := 13, info := info, cont := false, vec := false, arr := s.now }))

/-! ### Instructions (R231 to R236) -/

/-- The queue trap (R221). -/
def queueTrap (s : State) (w : Word) : Out :=
  trap s 13 (match s.qname s.cur w with
    | some q => q
    | none => w.toNat % 2 ^ 32)

/-- Whether the running task may push to a queue (R222). -/
def State.owns (s : State) (q : Nat) : Bool := (s.queue q).st != 0 && (s.queue q).owner == s.linstOf s.cur

/-- Whether a queue lies in the running core's pane. -/
def State.local_ (s : State) (q : Nat) : Bool := q / 256 == s.cfg.paneOf s.cur


/-- A push of the running core: a redundant core's waits for its partner's (R348). -/
def State.pushOf (s : State) (q : Nat) (r : QReq) : State :=
  if (s.core r.core).partner.isSome then
    let n := (s.core r.core).q.wseq
    (s.mod r.core Core.numbered).keepHeld r.core n (.push q r)
  else s.request q r

/-- R232: `qpush` builds a record from eight registers and a token, stamps it and waits until it is placed. -/
def execQpush (o : AluR) (s : State) : Out :=
  issue (.qpush o) s ([.s o.a o.fea] ++ ([0, 1, 4, 5, 6, 7].map (fun i => Src.s (o.b + i) o.feb)) ++ [.k o.c false])
    (fun s =>
      let g (i : Nat) : Word := s.sc (o.b + i)
      let t := s.tk o.c
      match s.qname s.cur (s.sc o.a) with
      | none => queueTrap s (s.sc o.a)
      | some q =>
        if (g 0).toNat / 2 ^ 60 ≠ 0 ∨ s.owns q = false then queueTrap s (s.sc o.a)
        else
          let r : Rec := { w0 := g 0, w1 := g 1, w2 := t.word, w3 := BitVec.ofNat 64 (t.base + t.len * 2 ^ 32),
                           w4 := g 4, w5 := g 5, w6 := g 6, w7 := g 7 }
          let rq : QReq := { core := s.cur, ctx := s.ctx, id := s.id,
                             op := .push (r.stamp (s.queue q) (s.linstOf s.cur)) false, pc := s.pc }
          .next ((s.holds (.queue s.id)).pushOf q rq))

/-- A pop marks its destinations and goes to its queue. -/
def popWord (s : State) (o : AluR) (st : Option Nat) (op : QOp) : Out :=
  match s.qname s.cur (s.sc o.a) with
  | none => queueTrap s (s.sc o.a)
  | some q =>
    if s.owns q = false ∨ s.local_ q = false then queueTrap s (s.sc o.a)
    else
      let t := s.upd (fun x =>
        let y := ((run o.d 8).foldl (fun x r => x.markS s.ctx r s.id) x).markK s.ctx o.c s.id
        match st with
        | some r => y.markS s.ctx r s.id
        | none => y)
      .next ((t.request q { core := s.cur, ctx := s.ctx, id := s.id, op := op, pc := s.pc }).done 1)

/-- R233: `qpop`. -/
def execQpop (o : AluR) (s : State) : Out :=
  issue (.qpop o) s [.s o.a o.fea] (fun s => popWord s o none (.pop o.d o.c))

/-- R234: `qtry`. -/
def execQtry (o : AluR) (s : State) : Out :=
  issue (.qtry o) s [.s o.a o.fea] (fun s => popWord s o (some o.b) (.tryPop o.d o.c o.b))

/-- ONCHIP: records present on chip (R235). -/
def Queue.onchip (q : Queue) : Nat := (q.items.filter (fun i => match i with | .here _ _ _ _ => true | _ => false)).length

/-- Occupancy in 64ths (R228). -/
def Queue.occ (q : Queue) : Nat := if q.rmeta ≠ [] then 64 else 64 * q.items.length / max q.depth 1

/-- The word `qinfo` returns (R235). -/
def Queue.info (q : Queue) : Word :=
  if q.st = 0 then 0#64
  else
    BitVec.ofNat 64 (q.st * 2 ^ 56 + q.occ * 2 ^ 49 + q.pri * 2 ^ 47 + q.spill.toNat * 2 ^ 46 + q.depth * 2 ^ 40 +
      q.onchip * 2 ^ 34 + (q.items.length - q.onchip) * 2 ^ 30 + q.rmeta.length)

/-- R235: `qinfo` reads any queue as its last resolution left it. -/
def execQinfo (o : AluR) (s : State) : Out :=
  issue (.qinfo o) s [.s o.a o.fea] (fun s =>
    match s.qname s.cur (s.sc o.a) with
    | none => queueTrap s (s.sc o.a)
    | some q => .next (s.ret o.d 1 (s.queue q).info))

/-- What the ring token of a `qbind` is found to be (R236). -/
inductive RingTok where
  | wait
  | bad
  | ok (t : Token)

/-- Judge a ring token: it must have R and W and a window of 1 to 2³⁰ − 1 records. -/
def State.ringTok (s : State) (t : Token) : RingTok :=
  match s.judge t with
  | .wait => .wait
  | .stale => .bad
  | .fine u =>
    if u.entry = 0 ∨ u.len = 0 ∨ 2 ^ 30 ≤ u.len ∨ u.rights &&& (rR ||| rW) ≠ rR ||| rW then .bad else .ok u

/-- R236: `qbind` reconfigures an empty OPEN queue; waiting pops stay. -/
def execQbind (o : AluR) (s : State) : Out :=
  issue (.qbind o) s [.s o.a o.fea, .s o.b o.feb, .k o.c false] (fun s =>
    let cfg := (s.sc o.b).toNat
    match s.qname s.cur (s.sc o.a) with
    | none => queueTrap s (s.sc o.a)
    | some n =>
      let q := s.queue n
      let spill := bit cfg 6
      let bind (t : Token) : Out :=
        .next ((s.setQ n { q with spill := spill, depth := fld cfg 0 6, pri := fld cfg 7 2, ring := t, rhead := 0 }).done 1)
      if s.owns n = false ∨ s.local_ n = false ∨ q.st ≠ 1 ∨ q.items ≠ [] ∨ q.rmeta ≠ [] ∨ q.stalled ≠ [] ∨
          2 ^ 9 ≤ cfg ∨ fld cfg 0 6 = 0 ∨ 32 < fld cfg 0 6 then queueTrap s (s.sc o.a)
      else if spill then
        match s.ringTok (s.tk o.c) with
        | .wait => stall s
        | .bad => queueTrap s (s.sc o.a)
        | .ok t => bind t
      else if o.c ≠ 0 then queueTrap s (s.sc o.a)
      else bind {})

end Sys2Proof.Machine
end

