-- ==== Sys2Proof/Machine/Future.lean ====
section
/-! DEFINITION. Futures at their home slice (R289, R290, R292, R293): the words of a future, what `fut.put` and `fut.clr` do
there, and the pushes that release parked continuations. -/

namespace Sys2Proof.Machine

/-- The words of a future (R289). -/
structure Fut where
  value : Word
  full : Bool
  rhead : Nat
  rcnt : Nat
  rlen : Nat
  rbase : Nat
  deriving DecidableEq, Repr

/-- The future at some physical bytes. -/
def State.futAt (s : State) (pas : List Nat) : Fut :=
  let w (i : Nat) : Nat := s.valueAt ((pas.drop (8 * i)).take 8)
  { value := BitVec.ofNat 64 (w 0), full := bit (w 1) 63, rhead := fld (w 1) 20 20, rcnt := fld (w 1) 0 20,
    rlen := fld (w 2) 32 20, rbase := fld (w 2) 0 32 }

/-- The 24 bytes a slice writes. -/
def Fut.bytes (f : Fut) : List Byte :=
  leBytes 8 f.value.toNat ++ leBytes 8 (f.full.toNat * 2 ^ 63 + f.rhead % 2 ^ 20 * 2 ^ 20 + f.rcnt % 2 ^ 20) ++
    leBytes 8 (f.rlen * 2 ^ 32 + f.rbase)

/-- The window offset of ring record `i` of a future. -/
def Fut.ring (f : Fut) (off : Int) (i : Nat) : Int := off + ((f.rbase + i % max f.rlen 1) * 64 : Nat)

/-- The wait table of a pane and the releases it still holds. -/
def State.waitTable (s : State) (pane : Nat) : List Parked := Sparse.get [] s.d.parked pane
def State.releases (s : State) (pane : Nat) : List DueRel := Sparse.get [] s.d.rels pane

/-- Entries of a pane's wait table in use (R289, R292): a released one frees when its record is pushed. -/
def State.tableUsed (s : State) (pane : Nat) : Nat :=
  (s.waitTable pane).length + ((s.releases pane).filter (fun r => match r.rel with | .table _ _ _ => true | _ => false)).length

/-- The physical bytes at an offset of a token's window, through its entry alone: what a slice's own step reaches; none while the entry
is DRAINING, and no bytes once it is gone. -/
def State.reach (s : State) (t : Token) (off : Int) (n : Nat) : Option (List Nat) :=
  match s.judge t with
  | .wait => none
  | .stale => some []
  | .fine u => some (if (u.base * 64 : Nat) + off < 0 then [] else (s.bytesOf u.entry ((u.base * 64 : Nat) + off).toNat n).getD [])

/-- The ring records of the future at `pa` that an earlier put has captured and that still stand in its ring (R292). -/
def State.ringCaptured (s : State) (pane pa : Nat) : Nat :=
  ((s.releases pane).filter (fun r => match r.rel with
    | .ring tok off _ _ => ((s.reach tok off 64).bind List.head?) == some pa
    | .table _ _ _ => false)).length

/-- `fut.put` at its slice (R290, R292): the first put fills the future and captures the waiters that no put has captured yet; release k
is due on the (k + 1)-th clock after. -/
def State.putAt (s : State) (c : Nat) (a : Acc) : State :=
  let f := s.futAt a.pas
  if f.full then s
  else
    let pa := a.pas.headD 0
    let pane := s.cfg.homePane pa
    let mine := (s.waitTable pane).filter (fun k => k.pa == pa)
    let rel := mine.map (fun k => Release.table k.r k.pa a.a) ++
      List.replicate (f.rcnt - s.ringCaptured pane pa) (Release.ring a.tok a.off a.a (s.linstOf c))
    let t := s.homeStore c a.id (a.pas.zip ({ f with value := a.a, full := true } : Fut).bytes) [] (s.author c a true)
    { t with d := { t.d with
        parked := Sparse.set [] t.d.parked pane ((t.waitTable pane).filter (fun k => k.pa != pa))
        rels := Sparse.set [] t.d.rels pane (t.releases pane ++
          (rel.zip (List.range rel.length)).map (fun p => { at' := s.now + p.2 + 1, put := s.tick, rel := p.1 })) } }

/-- `fut.clr` at its slice (R293); none while its ring's entry is DRAINING. -/
def State.clrAt (s : State) (c : Nat) (a : Acc) : Option State :=
  let f := s.futAt a.pas
  let cfg := a.a.toNat
  if f.rcnt ≠ 0 then
    some (s.homeStore c a.id (a.pas.zip ({ f with value := 0#64, full := false } : Fut).bytes) [] (s.author c a true))
  else
    let g : Fut := { value := 0#64, full := false, rhead := 0, rcnt := 0, rlen := fld cfg 32 20, rbase := fld cfg 0 32 }
    let done : State := s.homeStore c a.id (a.pas.zip g.bytes) [] (s.author c a true)
    if g.rlen = 0 then some done
    else match s.check a.tok (g.ring a.off 0) (g.rlen * 64) (rR ||| rW) with
      | .wait => none
      | .fail b e => some (s.mod c (fun x => x.kset b e))
      | .pass _ _ => some done

/-- A future operation performs at its home slice (R288), or consumes bad data there (R339). -/
def State.futPerform (s : State) (c : Nat) (a : Acc) : Option (State × Except (Nat × Nat) Unit) :=
  let t1 := (((s.relWork c a).bypass c a.pas).pullFor a.pas).hear c a.ctx a.tok.kind a.acq a.scope a.pas none
  match t1.findAll (a.pas.take 24) with
  | (t, .some e) => some (t, .error e)
  | (t, .none) => if a.op = .futPut then some (t.putAt c a, .ok ()) else (t.clrAt c a).map (fun u => (u, .ok ()))

/-- A released continuation is pushed to its stage's input queue, and what stands released at its future with it (R292, R294); one of
a launch that no longer runs is dropped. -/
def State.pushReleased (s : State) (pane pa : Nat) (r : Rec) (value : Word) (bad : List (Nat × Nat)) : State :=
  let l := s.launch r.linst
  match l.input r.stage with
  | some q =>
    if l.st = .running then
      let m := s.msgsIn ((List.range 64).map (pa + ·)) none
      let t := { s with msgs := Sparse.set [] s.msgs (queueKey q) (addMsgs (Sparse.get [] s.msgs (queueKey q)) m) }
      t.requestFrom pane q
        { core := 1024 + pane, ctx := 0, id := 0, op := .push (({ r with w5 := value } : Rec).stamp (s.queue q) r.linst) false, bad := bad }
    else s
  | none => s

/-- The acquire of released continuations at a future's line forces publishes (R294, R308): whether none is left. -/
def State.releaseClear (s : State) (pa : Nat) : Bool := (s.mustForce 4096 (pa / 64) 3).isEmpty

/-- A launch has one parked ring record fewer. -/
def State.unpark (s : State) (linst : Nat) : State :=
  let l := s.launch linst
  s.setLaunch linst { l with ringParked := l.ringParked - 1 }

/-- A captured release of a pane is pushed, once the publishes its acquire forces are done (R292, R294); none while it waits. A ring
record whose entry is gone, or that the ring no longer counts, is lost (notes/assumptions/57.md). -/
def State.pushDue (s : State) (pane : Nat) (d : DueRel) : Option State :=
    let t : State := { s with d := { s.d with
      rels := Sparse.set [] s.d.rels pane ((s.releases pane).filter (fun e => e.put != d.put || e.at' != d.at')) } }
    match d.rel with
    | .table rc pa v => if s.releaseClear pa then some (t.pushReleased pane pa rc v []) else none
    | .ring tok off v linst =>
      match s.reach tok off 64 with
      | none => none
      | some pas =>
        let pa := pas.headD 0
        let f := s.futAt pas
        if pas = [] ∨ f.rcnt = 0 then some (t.unpark linst)
        else if !s.releaseClear pa then none
        else match s.reach tok (f.ring off f.rhead) 64 with
          | none => none
          | some rp =>
            let m := t.marksOf rp
            let rc := Rec.ofBytes (rp.map m.1.byte)
            let u := m.1.homeWrite (pas.zip
              ({ f with rhead := (f.rhead + 1) % max f.rlen 1, rcnt := f.rcnt - 1 } : Fut).bytes) [] { join := true }
            if rp = [] then some (u.unpark linst)
            else some ((u.pushReleased pane pa rc v (recordMarks m.2)).unpark rc.linst)

/-- The captured releases of a pane that may be pushed on this clock: the oldest of each put, once it is due (R292). -/
def State.dueRels (s : State) (pane : Nat) : List DueRel :=
  (s.releases pane).filter (fun d => decide (d.at' ≤ s.now) && (s.releases pane).all (fun e => e.put != d.put || decide (d.at' ≤ e.at')))

/-- R292, R294: a captured release of a pane that is due is pushed: the oldest of those that need not wait. -/
def execFutReleasePush (pane : Nat) (s : State) : Out := .next (((s.dueRels pane).findSome? (s.pushDue pane)).getD s)

end Sys2Proof.Machine
end

