-- ==== Sys2Proof/Machine/ScalarMem.lean ====
section
/-! DEFINITION. Scalar loads and stores (R129), and the events by which they perform (R299, R306, R319). -/

namespace Sys2Proof.Machine

/-- R129: `ld` checks its access and marks sD empty; the value comes with LOAD_COMPLETE. -/
def execLd (f : LdF) (s : State) : Out :=
  issue (.ld f) s (memSrcs f.m) (fun s =>
    .next ((s.begin (mkAcc (.load (decide (f.ty < 4))) f.d (tyBytes f.ty) (s.tk f.m.k) (s.offOf f.m) 0#64 0#64 f.ord)).done 1))

/-- R129: `st` checks its access and stores the low bytes of sD, after issue. A mark of sD goes with them (R338). -/
def execSt (f : LdF) (s : State) : Out :=
  issue (.st f) s (.s f.d false :: memSrcs f.m) (fun s =>
    let a := mkAcc .store 0 (tyBytes f.ty) (s.tk f.m.k) (s.offOf f.m) 0#64 0#64 f.ord
    let gs := (Src.s f.d false).granule s.ctx
    let m := s.me.markAt gs
    .next (((s.readGranules s.cur gs).begin { a with
      data := leBytes (tyBytes f.ty) (s.sc f.d).toNat
      bad := if m = 0 then [] else (List.range (tyBytes f.ty)).map (fun i => (i, (m - 1) % 2 ^ 16)) }).done 1))

/-- R129, R308: a scalar load, or a `sig.read`, completes and fills its register; a failed check delivers 0. -/
def execLoadComplete (c id : Nat) (s : State) : Out :=
  match s.ready c id (fun op => op.fills && (match op with | .amo _ => false | _ => true)) with
  | .no t => .next t
  | .failed t a => .next (t.mod c (fun x => (x.dropAcc id).fillS a.ctx a.d id 0#64))
  | .yes t a => .next (t.loadBytes c a)

/-- R299, R306, R334, R348: a store or signal operation performs; a redundant core's waits for its partner's. -/
def execWriteReachesHome (c id : Nat) (s : State) : Out :=
  match s.ready c id (fun op => !op.fills) with
  | .no t => .next t
  | .failed t _ => .next (t.mod c (fun x => x.dropAcc id))
  | .yes t a =>
    if a.pas.any t.unreachable then .next (t.accContained c a (kUnreach, 0xFFFF))
    else if (t.core c).partner.isSome then .next ((t.mod c (fun x => x.putAcc { a with chk := 3 })).keepUnits c a)
    else if a.op = .futPut ∨ a.op = .futClr then
      match t.futPerform c a with
      | none => .next t
      | some (u, .error e) => .next (u.accContained c a e)
      | some (u, .ok ()) => .next (u.mod c (fun x => x.dropAcc id))
    else if a.deferred then
      match t.rmw c a with
      | (u, .error e) => .next (u.accContained c a e)
      | (u, .ok _) => .next (u.mod c (fun x => x.dropAcc id))
    else
      let n := if a.op = .vstore then a.pas.length else a.chunk
      let u := t.storeBytes c a ((a.pas.take n).zip (a.data.take n)) ((a.bad.filter (fun p => decide (p.1 < n))).map
        (fun p => (a.pas.getD p.1 0, p.2)))
      .next (u.mod c (fun x =>
        if n < a.pas.length then
          x.putAcc { a with pas := a.pas.drop n, data := a.data.drop n
                            bad := (a.bad.filter (fun p => decide (n ≤ p.1))).map (fun p => (p.1 - n, p.2)) }
        else x.dropAcc id))

/-- Some elements of a V-word's store perform (R384): those of `sel`, but none before an earlier one that writes a byte of it. -/
def State.storeElements (s : State) (c id : Nat) (sel : List Nat) : State :=
  match s.ready c id (fun op => op == .vstore) with
  | .no t => t
  | .failed t _ => t.mod c (fun x => x.dropAcc id)
  | .yes t a =>
    let w := max a.w 1
    let el (e : Nat) : List Nat := (a.pas.drop (e * w)).take w
    let go (e : Nat) : Bool := sel.contains e &&
      (List.range e).all (fun f => sel.contains f || (el f).all (fun p => !(el e).contains p))
    let on := (List.range a.pas.length).filter (fun i => go (i / w))
    let off := (List.range a.pas.length).filter (fun i => !go (i / w))
    let at' (i : Nat) : Nat := a.pas.getD i 0
    if on = [] ∨ (t.core c).partner.isSome then t
    else if on.any (fun i => t.unreachable (at' i)) then t.accContained c a (kUnreach, 0xFFFF)
    else
      let u := t.storeBytes c a (on.map (fun i => (at' i, a.data.getD i 0#8)))
        ((a.bad.filter (fun p => on.contains p.1)).map (fun p => (at' p.1, p.2)))
      u.mod c (fun x =>
        if off = [] then x.dropAcc id
        else x.putAcc { a with pas := off.map at', data := off.map (fun i => a.data.getD i 0#8)
                               bad := a.bad.filterMap (fun p => (off.idxOf? p.1).map (fun i => (i, p.2))) })

/-- R306, R319: a host-window or fabric-window store is acknowledged: its link, or its module, reports its completion. Under PCIe the
zero-length read behind the store completes, and with it every store of its core before it on that link. -/
def execStoreAcknowledged (c id : Nat) (s : State) : Out :=
  let mode (l : Nat) : Nat := Sparse.get 0 s.io.link l
  let mine := (s.core c).unacked.filter (fun p => p.1 == id)
  if mine.any (fun p => (decide (p.2.2 < 2) && mode p.2.2 == 0) || s.unreachable p.2.1) then .next s
  else .next (s.mod c (fun x => { x with unacked := x.unacked.filter (fun p =>
    p.1 != id && !(mine.any (fun m => decide (m.2.2 < 2) && mode m.2.2 == 1 && m.2.2 == p.2.2) && decide (p.1 < id))) }))

end Sys2Proof.Machine
end

