-- ==== Sys2Proof/Machine/Task.lean ====
section
/-! DEFINITION. How a task ends (R100, R263, R280 to R284, R309): draining, the join, and what its core gives up. -/

namespace Sys2Proof.Machine

/-- Whether everything a context waits for in ENDING is done (R100, R291): queues, copies, handlers, Marver and unmasking
commands, and the traps on their way. -/
def State.quiet (s : State) (c : Nat) : Bool :=
  let x := s.core c
  x.vIdle && x.q.armed.isNone && x.q.late.isEmpty && x.e.copies.isEmpty && x.q.notes.isEmpty &&
    [1, 2, 3].all (fun h => (x.q.hctx h).st == .dormant) && (s.mxOwn c).isEmpty &&
    !(s.umOf (s.cfg.paneOf c)).order.any (fun k => k.core == c)

/-- Whether a core's accesses have all performed and been acknowledged, and no write of it waits for a partner's (R306, R348). -/
def State.performed (s : State) (c : Nat) : Bool :=
  (s.core c).acc.isEmpty && (s.core c).unacked.isEmpty && !s.w.held.any (fun h => h.core == c)

/-- The work of the system row, and the end of every stash window (R309). -/
def State.systemWork (s : State) (c : Nat) : State :=
  ((s.flush c).dropPubs c).mod c (fun x => { x with wins := [], stash := [] })

/-! ### Barrier objects (R270, R284) -/

/-- Extent E_f of a launch (R253). -/
def Launch.extent (l : Launch) (f : Nat) : Nat := fld (l.words.getD (12 + f / 2) 0#64).toNat (32 * (f % 2)) 32

/-- G_L: the size of a group at level `lvl`. -/
def Launch.groupSize (l : Launch) (lvl : Nat) : Nat := ((List.range (lvl + 1)).map l.extent).foldl (· * ·) 1

/-- The number of a record's group at level `lvl` (R270). -/
def Launch.groupOf (l : Launch) (lvl : Nat) (w1 : Word) : Nat := w1.toNat / 2 ^ ((l.kern.widths.take (lvl + 1)).sum)

/-- The barrier object of a launch, group and level. -/
def State.bar (s : State) (linst grp lvl : Nat) : Bar :=
  (s.d.bars.find? (fun b => b.linst == linst && b.grp == grp && b.lvl == lvl)).getD
    { linst := linst, grp := grp, lvl := lvl, arr := [], dep := 0 }

/-- Replace a barrier object; one whose members have all ended is gone. -/
def State.setBar (s : State) (b : Bar) : State :=
  let rest := s.d.bars.filter (fun o => o.linst != b.linst || o.grp != b.grp || o.lvl != b.lvl)
  let gone := decide ((s.launch b.linst).groupSize b.lvl ≤ b.dep) || (b.arr.isEmpty && b.dep == 0)
  { s with d := { s.d with bars := if gone then rest else b :: rest } }

/-- The member that runs on core `c` departs from its barriers (R284). -/
def State.departs (s : State) (c : Nat) : State :=
  match (s.core c).task with
  | none => s
  | some t =>
    let l := s.launch t.linst
    if t.initial ∧ l.kern.colevel ≠ 0xFF then
      (List.range (l.kern.colevel + 1)).foldl (fun (u : State) lvl =>
        let b := u.bar t.linst (l.groupOf lvl t.r.w1) lvl
        u.setBar { b with arr := b.arr.filter (· != c), dep := b.dep + 1 }) s
    else s

/-- A waiting member withdraws (R286). -/
def State.withdraw (s : State) (c : Nat) : State :=
  let l := (s.d.bars.map (fun b => { b with arr := b.arr.filter (· != c) })).filter (fun b => !b.arr.isEmpty || b.dep != 0)
  { s with d := { s.d with bars := l } }

/-! ### Leaving a core -/

/-- The pops a task leaves behind are withdrawn, its records on their way with them. -/
def State.dropPops (s : State) (c : Nat) : State :=
  { s.mod c (fun x => { x with deliv := [] }) with
    queues := s.queues.map (fun p => (p.1, { p.2 with
      pops := p.2.pops.filter (fun r => r.core != c || r.op == .dispatch)
      arrive := p.2.arrive.filter (fun r => r.core != c || !r.isPop) })) }

/-- The accumulators of a task are freed (R173). -/
def State.freeZ (s : State) (uid : Nat) : State :=
  { s with accOwner := s.accOwner.filter (fun p => p.2 != uid || uid == 0) }

/-- The main context becomes IDLE: a pending stop is satisfied, handler contexts are DORMANT, no register is empty. -/
def Core.idle (x : Core) : Core :=
  { x with
    task := none
    r := { x.r with sm := [], km := [], vm := [] }
    v := {}
    q := { x.q with st := .idle, tact := false, stop := false, issue := {}, armed := none, late := [], regions := [],
                    notes := [], hold := [], h := [], point := 0, token := 0, loops := [] } }

/-- What a task's contexts and engine commands have done is what its launch's completion releases (R263, R302). -/
def State.leavesLaunch (s : State) (c : Nat) : State :=
  match (s.core c).task with
  | none => s
  | some t =>
    let n := (s.core c).q.nid
    let u := [0, 1, 2].foldl (fun (u : State) e => u.observe c 0 e n) s
    [0, 1, 2, 3].foldl (fun (u : State) ctx => u.leaveAt (launchKey t.linst) c ctx n) u

/-- A task leaves its core for good. -/
def State.finish (s : State) (c : Nat) : State :=
  let x := s.core c
  let asid := s.asidOf c
  ((((s.leavesLaunch c).departs c).freeZ x.uid).dropPops c).mod c (fun x => { x.idle with
    e := { x.e with zfree := [], mxfault := [] }
    lastAsid := some asid
    idleAt := s.now + 1 })

/-! ### The join (R280 to R282) -/

/-- What became of a join. -/
inductive Joined where
  | wait
  /-- it is over: made without a push, or failed -/
  | over (s : State)
  /-- its continuation goes to a queue -/
  | push (s : State) (q : Nat) (r : Rec)
  /-- bad data was consumed -/
  | event (s : State) (e : Nat × Nat)

/-- A failed join: KSTAT where R209 failed, and the launch goes FAILING. -/
def State.joinFails (s : State) (c linst : Nat) (k : Option (KBit × Nat)) : Joined :=
  match k with
  | some (b, e) => .over ((s.mod c (fun x => x.kset b e)).fail linst 0x10)
  | none => .over (s.fail linst 0x11)

/-- The join of the task on core `c` (R280): an acquire and release at module scope. -/
def State.join (s : State) (c : Nat) (t : Task) : Joined :=
  let r := t.r
  let p := s.restore c r.frame
  let tok := p.2
  let j : Int := r.joff
  if r.joff % 8 ≠ 0 then p.1.joinFails c t.linst (some (.bounds, tok.entry))
  else match p.1.check tok j 8 (rW ||| rA) with
    | .wait => .wait
    | .fail b e => p.1.joinFails c t.linst (some (b, e))
    | .pass _ pas =>
      if !(p.1.acquireReady c 3 pas && (p.1.core c).noneOvertaken 0 && p.1.linked pas) then .wait
      else
        match (((p.1.bypass c pas).pullFor pas).hear c 0 tok.kind true 3 pas none).findAll pas with
        | (u, some e) => .event u e
        | (u, none) =>
          let v := BitVec.ofNat 64 (u.valueAt pas) - BitVec.ofNat 64 r.jdec
          let w := u.homeStore c (u.core c).q.nid (pas.zip (leBytes 8 v.toNat)) []
            (u.authorOf c 0 (u.core c).q.nid tok.kind true true)
          if v ≠ 0#64 then .over w
          else match w.check tok (j + 8) 64 rR with
            | .wait => .wait
            | .fail b e => w.joinFails c t.linst (some (b, e))
            | .pass _ rp => match (w.bypass c rp).findAll rp with
              | (y, some e) => .event y e
              | (y, none) =>
                let n := Rec.ofBytes (rp.map y.byte)
                let l := y.launch t.linst
                match l.input n.stage with
                | none => y.joinFails c t.linst none
                | some q =>
                  if l.st = .running then .push y q (n.stamp (y.queue q) t.linst) else .over y

/-- The task's join is made. -/
def Core.setJoined (x : Core) : Core := { x with task := x.task.map (fun t => { t with joined := true }) }

/-- A containment event in ENDING faults the task (R282). -/
def State.endEvent (s : State) (c : Nat) (e : Nat × Nat) : State :=
  (s.contain c 0 e.1 0 e.2 0 (s.core c).q.nid false 3).mod c (fun x =>
    match x.q.late.getLast? with
    | some l => { x with c := { x.c with tcause := BitVec.ofNat 64 causeContain, tinfo := l.info }
                         q := { x.q with st := .faulted, late := [] } }
    | none => x)

/-- The join on behalf of the cores in `cs`, led by the first (R280, R348): its push is as a `qpush`, and one whose w0 has bits 63:60 set
traps QUEUE (R220). -/
def State.makeJoin (s : State) (cs : List Nat) : Option State :=
  let c := cs.headD 0
  match (s.core c).task with
  | none => none
  | some t => match s.join c t with
    | .wait => none
    | .over u => some (cs.foldl (fun u d => u.mod d Core.setJoined) u)
    | .event u e => some (cs.foldl (fun u d => u.endEvent d e) u)
    | .push u q r =>
      let id := (u.core c).q.nid
      let v := u.mod c (fun x => x.tickId.seq (fun k => k.setHold 0 { k := .queue id, since := id }))
      let rq : QReq := { core := c, ctx := 0, id := id, op := .push r false }
      let w := if r.w0.toNat / 2 ^ 60 ≠ 0 then v.pushFault q rq else v.request q rq
      some ((cs.filter (· != c)).foldl (fun u d => u.mod d Core.setJoined) w)

/-- R100, R280, R309: an ENDING context that has drained traps under TRAPEND, or makes its join and becomes IDLE. -/
def execTaskEndComplete (c : Nat) (s : State) : Out :=
  let x := s.core c
  match x.task with
  | none => .next s
  | some t =>
    if x.q.st ≠ .ending ∨ (x.q.holdOf 0).k ≠ .free ∨ !s.quiet c ∨ !x.deliv.isEmpty then .next s
    else if t.joined then (if s.performed c then .next (s.finish c) else .next s)
    else if !s.performed c then .next s
    else if x.c.kstat.getLsbD 4 ∧ kSticky x.c.kstat then
      .next (s.mod c (fun x => x.tickId.takeTrap 9 (infoWord 0 false false 3 0 (kEntry x.c.kstat)) x.q.pc))
    else
      let w := s.systemWork c
      if t.r.jdec = 0 then .next (w.finish c)
      else if x.partner.isSome then
        .next ((w.mod c Core.numbered).keepHeld c x.q.wseq (.acc
          { mkAcc .join 0 8 t.r.frame t.r.joff (BitVec.ofNat 64 t.r.jdec) 0#64 { acq := true, rel := true, scope := 3 } with
            id := x.q.nid, seq := x.q.wseq }))
      else match w.makeJoin [c] with
        | none => .next s
        | some u => if ((u.core c).task.map (fun t => t.joined)) = some true then .next (u.finish c) else .next u

/-- Every trace of a core's work on its engines is removed: queued copies, its Marver and unmasking commands, its lease (R100,
R263). -/
def State.abandon (s : State) (c : Nat) : State :=
  let mv := s.cfg.marver c
  let m := s.marver mv
  let u := s.umOf (s.cfg.paneOf c)
  (((s.setMarver mv { (m.lapse c) with order := m.order.filter (fun k => k.core != c)
                                       waiters := m.waiters.filter (· != c) }).setUm (s.cfg.paneOf c)
      { u with order := u.order.filter (fun k => k.core != c) })).mod c (fun x =>
    { x with e := { x.e with copies := [], mxq := [] } })

/-- R100, R263: the dispatcher retires a FAULTED task: its launch fails with FAULT, and the core becomes IDLE. The journal tells
of it by its launch (DEDUCED, notes/assumptions/47.md). -/
def execTaskRetire (c : Nat) (s : State) : Out :=
  let x := s.core c
  if x.q.st ≠ .faulted ∨ !s.performed c then .next s
  else
    let l := s.linstOf c
    let t := s.fail l 0x10
    .next (((t.systemWork c).abandon c).finish c)

end Sys2Proof.Machine
end

