-- ==== Sys2Proof/Machine/Sync.lean ====
section
/-! DEFINITION. Barriers, futures and signals as a program sees them (R283 to R295), and the events that let waiters go. -/

namespace Sys2Proof.Machine

/-! ### Barriers -/

/-- R283: `bar` arrives at its group's object and holds its context until the release. -/
def execBar (lvl scope : Nat) (s : State) : Out :=
  match s.hold.k with
  | .bar _ _ => stall s
  | _ => issue (.bar lvl scope) s [] (fun s =>
    match s.me.task with
    | none => illegal (.bar lvl scope) s
    | some t =>
      let l := s.launch t.linst
      if 5 < lvl ∨ 5 < scope ∨ l.kern.colevel = 0xFF ∨ l.kern.colevel < lvl ∨ !t.initial ∨ s.me.q.tact then
        illegal (.bar lvl scope) s
      else
        let b := s.bar t.linst (l.groupOf lvl t.r.w1) lvl
        .next (((s.leaveAt (barKey t.linst (l.groupOf lvl t.r.w1) lvl) s.cur 0 s.id).setBar { b with arr := b.arr ++ [s.cur] }).holds
          (.bar lvl scope)))

/-- Whether a member's release may be performed (R285): what it issued before the `bar` has performed at its scope. -/
def State.barReady (s : State) (c : Nat) : Bool :=
  let x := s.core c
  match (x.q.holdOf 0).k with
  | .bar _ scope =>
    let n := (x.q.holdOf 0).since
    x.acc.all (fun a => decide (n ≤ a.id) || (if a.plainStore then scope == 0 else a.ctx != 0)) &&
      !s.unackedAt c scope n
  | _ => true

/-- R284, R285: every member has arrived or ended; their releases are performed, and the waiting ones acquire and go on. -/
def execBarrierRelease (linst grp lvl : Nat) (s : State) : Out :=
  let b := s.bar linst grp lvl
  let g := (s.launch linst).groupSize lvl
  if !b.rel ∨ b.arr = [] ∨ b.arr.length + b.dep ≠ g ∨ !b.arr.all s.barReady then .next s
  else
    let t := b.arr.foldl (fun (t : State) c =>
      match ((t.core c).q.holdOf 0).k with
      | .bar _ scope =>
        let u := if 1 ≤ scope then t.flush c else t
        ((if scope = 5 then u.dropPubs c else u).takeAt (barKey linst grp lvl) c 0 scope).mod c (fun x => (x.next 0 1).passed s.now)
      | _ => t) s
    .next (t.setBar { b with arr := [], rel := false })

/-! ### Futures -/

/-- The sources of a future or signal operation: D with FE 0 where it is read, the token and the index (R288). -/
def syncSrcs (f : SyncF) (d : Bool) : List Src := (if d then [.s f.d false] else []) ++ memSrcs f.m

/-- Whether the slice step of the access that holds the context is still to come. -/
def State.slicePending (s : State) : Bool :=
  s.me.acc.any (fun a => a.id == s.hold.since)

/-- `fut.put` and `fut.clr` hold their context until the slice has answered (R288). -/
def futIssue (i : Instr) (op : AOp) (f : SyncF) (s : State) (bad : Word → Bool) : Out :=
  if s.hold.k = .slice then (if s.slicePending then stall s else .next (s.done 1))
  else issue i s (syncSrcs f true) (fun s =>
    if s.offOf f.m % 64 ≠ 0 ∨ bad (s.sc f.d) then illegal i s
    else .next ((s.begin (mkAcc op 0 64 (s.tk f.m.k) (s.offOf f.m) (s.sc f.d) 0#64 f.ord)).holds .slice))

/-- R290: `fut.put`. -/
def execFutPut (f : SyncF) (s : State) : Out := futIssue (.futPut f) .futPut f s (fun _ => false)

/-- R293: `fut.clr`. -/
def execFutClr (f : SyncF) (s : State) : Out :=
  futIssue (.futClr f) .futClr f s (fun w => fld w.toNat 52 12 != 0 || (fld w.toNat 32 20 != 0 && fld w.toNat 0 32 == 0))

/-- A `fut.wait` goes on at its resume index with `v` in s3 (R291). -/
def Core.resumeFut (x : Core) (pc : Nat) (v : Word) : Core :=
  (x.fillS 0 3 (x.q.holdOf 0).since v).goto 0 pc

/-- The continuation of the task on a core (R291): ENTRY, CONT and w5. -/
def Task.cont (t : Task) (resume : Nat) : Rec :=
  { t.r with w0 := setFld (setFld t.r.w0 0 32 resume) 59 1 1, w5 := 0#64 }

/-- A `fut.wait` has found no room, and waits for some (R286, R291). -/
def Core.noRoom (x : Core) : Core :=
  x.seq (fun q => match (q.holdOf 0).k with
    | .fut f n _ => q.setHold 0 { q.holdOf 0 with k := .fut f n true }
    | _ => q)

/-- The slice step of a `fut.wait` on behalf of the cores `cs`, led by the first (R291), after its release at module scope; none where
it must wait. -/
def State.futSlice (s : State) (cs : List Nat) (tok : Token) (off : Int) (o : Ordr) (resume : Nat) : Option State :=
  let c := cs.headD 0
  let all (t : State) (f : Core → Core) : State := cs.foldl (fun u d => u.mod d f) t
  let id := ((s.core c).q.holdOf 0).since
  let failed (t : State) (b : KBit) (e : Nat) : State := all t (fun x => (x.kset b e).resumeFut resume 0#64)
  match s.check tok off 64 (rR ||| rA) with
  | .wait => none
  | .fail b e => some (failed (s.flush c) b e)
  | .pass u pas =>
    let pa := pas.headD 0
    if !s.releaseReady c id (pa / 64) 3 false ∨ !s.linked pas then none
    else
      match (((s.releaseAt c id (pa / 64) 3 false).bypass c pas).pullFor pas).findAll (pas.take 24) with
      | (t, some e) =>
        some (cs.foldl (fun (t : State) d =>
          (t.contain d 0 e.1 0 e.2 0 ((t.core d).q.holdOf 0).since false 3).mod d (fun x =>
            (x.dropS 0 3 (x.q.holdOf 0).since).next 0 1)) t)
      | (t, none) =>
        let f := t.futAt pas
        if f.full then
          if o.acq ∧ !(t.acquireReady c o.scope pas && (t.core c).noneOvertaken 0) then none
          else some (all (t.hear c 0 u.kind o.acq o.scope pas none) (fun x => x.resumeFut resume f.value))
        else match (s.core c).task with
          | none => none
          | some task =>
            let r := task.cont resume
            let pane := s.cfg.homePane pa
            let leave (t : State) : State := cs.foldl (fun t d => (t.systemWork d).finish d) t
            let w := t.leaveMsg [pa] { msg := (t.hbOf c 0).msgs c (ctxAgent c 0) id u.kind true, join := true }
            if !cs.all s.performed then none
            else if t.tableUsed pane < 512 then
              let v := leave w
              some { v with d := { v.d with parked := Sparse.set [] v.d.parked pane (v.waitTable pane ++ [{ r := r, pa := pa }]) } }
            else if f.rcnt < f.rlen then
              match w.check u (f.ring off (f.rhead + f.rcnt)) 64 rW with
              | .wait => none
              | .fail b e => some (failed w b e)
              | .pass _ rp =>
                let v := (w.homeWrite (rp.zip r.bytes)).homeWrite (pas.zip ({ f with rcnt := f.rcnt + 1 } : Fut).bytes) [] { join := true }
                let l := v.launch task.linst
                some (leave (v.setLaunch task.linst { l with ringParked := l.ringParked + 1 }))
            else if cs.all (fun d => match ((s.core d).q.holdOf 0).k with | .fut _ _ room => room | _ => true) then none
            else some (all s Core.noRoom)

/-- A `fut.wait` that holds its context looks again (R291): drained, it traps under TRAPEND or takes its slice step; a
redundant core's waits for its partner's. -/
def futTry (f : SyncF) (seq : Nat) (s : State) : Option State :=
  let c := s.cur
  let x := s.me
  let resume := (s.sc f.d).toNat % 2 ^ 32
  if !s.quiet c ∨ !x.deliv.isEmpty ∨ !x.accDone 0 s.hold.since ∨ s.w.held.any (fun h => h.core == c) then none
  else if x.c.kstat.getLsbD 4 ∧ kSticky x.c.kstat then
    some (s.upd (fun x => (x.dropS 0 3 (x.q.holdOf 0).since).trapAt s.now 0 9 false (kEntry x.c.kstat) x.q.pc))
  else if x.partner.isSome then
    let a : Acc := mkAcc .futWait 3 64 (s.tk f.m.k) (s.offOf f.m) (BitVec.ofNat 64 resume) 0#64 f.ord
    some (s.keepHeld c seq (.acc { a with id := s.hold.since, seq := seq, chk := 1 }))
  else s.futSlice [c] (s.tk f.m.k) (s.offOf f.m) f.ord resume

/-- R291: `fut.wait` drains as ENDING does, releases, and continues with the value or parks its task. -/
def execFutWait (f : SyncF) (s : State) : Out :=
  match s.hold.k with
  | .fut g seq _ => (match futTry g seq s with
    | some t => .next t
    | none => stall s)
  | _ => issue (.futWait f) s (syncSrcs f true) (fun s =>
    let resume := (s.sc f.d).toNat % 2 ^ 32
    if s.offOf f.m % 64 ≠ 0 then illegal (.futWait f) s
    else if s.me.code.ctlLen ≤ resume then trap s 7 resume
    else
      let seq := s.me.q.wseq
      .next ((s.upd (fun x => (x.markS 0 3 s.id).numbered)).holds (.fut f seq false)))

/-- R291: a `fut.wait` without room retries its slice step. -/
def execFutParkRetry (c : Nat) (s : State) : Out :=
  let t := { s with cur := c, ctx := 0 }
  match t.hold.k with
  | .fut f seq _ => .next ((futTry f seq t).getD s)
  | _ => .next s

/-! ### Signals -/

/-- A signal operation that does not hold its context issues as an access (R288). -/
def sigIssue (i : Instr) (op : AOp) (f : SyncF) (s : State) : Out :=
  issue i s (syncSrcs f (op != .sigRead)) (fun s =>
    if s.offOf f.m % 8 ≠ 0 then illegal i s
    else
      let v := if op = .sigRead then 0#64 else s.sc f.d
      .next ((s.begin (mkAcc op (if op = .sigRead then f.d else 0) 8 (s.tk f.m.k) (s.offOf f.m) v 0#64 f.ord)).done 1))

/-- R295: `sig.add`. -/
def execSigAdd (f : SyncF) (s : State) : Out := sigIssue (.sigAdd f) .sigAdd f s

/-- R295: `sig.set`. -/
def execSigSet (f : SyncF) (s : State) : Out := sigIssue (.sigSet f) .sigSet f s

/-- R295: `sig.read`. -/
def execSigRead (f : SyncF) (s : State) : Out := sigIssue (.sigRead f) .sigRead f s

/-- R295: `sig.wait` registers at its slice once what must come before it has performed; a failed check proceeds at once. -/
def execSigWait (f : SyncF) (s : State) : Out :=
  match s.hold.k with
  | .sig _ _ _ _ _ _ => stall s
  | _ => issue (.sigWait f) s (syncSrcs f true) (fun s =>
    if s.offOf f.m % 8 ≠ 0 then illegal (.sigWait f) s
    else match s.check (s.tk f.m.k) (s.offOf f.m) 8 rR with
      | .wait => stall s
      | .fail b e => .next ((s.upd (fun x => x.kset b e)).done 1)
      | .pass t pas =>
        let a : Acc := { mkAcc .sigRead 0 8 t (s.offOf f.m) 0#64 0#64 f.ord with id := s.id, ctx := 0, chk := 1, pas := pas }
        if !s.me.mayPerform a false ∨ s.popPending s.cur 0 s.id then stall s
        else
          let u := (s.upd (fun x => x.cacheTok t.entry)).bypass s.cur pas
          .next (u.holds (.sig (pas.headD 0) (s.sc f.d) f.ord.acq f.ord.scope false t.entry)))

/-- R295: a registered wait whose condition has held is released, as an acquire. -/
def execSigWaitRelease (c : Nat) (s : State) : Out :=
  let h := (s.core c).q.holdOf 0
  match h.k with
  | .sig pa target acq scope met entry =>
    let pas := (List.range 8).map (pa + ·)
    if !(met || decide (target.toNat ≤ s.valueAt pas)) ∨ !s.linked pas ∨ (acq ∧ !(s.acquireReady c scope pas && (s.core c).noneOvertaken 0)) then .next s
    else match (s.hear c 0 (s.ent entry).kind acq scope pas none).findAll pas with
      | (t, some e) => .next ((t.contain c 0 e.1 0 e.2 0 h.since false 3).mod c (fun x => (x.next 0 1).passed s.now))
      | (t, none) => .next (t.mod c (fun x => (x.next 0 1).passed s.now))
  | _ => .next s

end Sys2Proof.Machine
end

