-- ==== Sys2Proof/Machine/Save.lean ====
section
/-! DEFINITION. Stopping, saving and restoring a context (R105 to R111, R196, R250): how a pending stop is honoured, the image
of a context, `ctxsave`, `ctxrest`, and the events of a save. -/

namespace Sys2Proof.Machine

/-! ### The image of a context (R109, R110) -/

/-- The bytes of an image before its tile registers. -/
def imageHead : Nat := 0x44000
/-- Pack bits into bytes, least significant first. -/
def packBits (n : Nat) (f : Nat → Bool) : List Byte :=
  (List.range (n / 8)).map (fun b =>
    BitVec.ofNat 8 (((List.range 8).map (fun j => if f (8 * b + j) then 2 ^ j else 0)).sum))

/-- The eight bytes of a number. -/
def le8 (v : Nat) : List Byte := leBytes 8 v

/-- Whether a Marver command names a token (R184). -/
def mxTok (k : MxCmd) : Bool := (mxMem k).isSome

/-- The indices of a copy command's next copy; a command with none left holds its counts, or 1 in j0 where it uses no level
(notes/assumptions/21.md). -/
def Core.copyIdx (x : Core) (k : CopyCmd) : List Nat :=
  if k.emitted then (if k.f.nlvl = 0 then [1] else (x.counts k).map (fun l => l.count)) else k.next

/-- The token column (R110). -/
def Core.tokenColumn (x : Core) : List Token :=
  (List.range 32).map (x.rdK 0) ++
    [1, 2, 3].flatMap (fun h => (List.range 8).map (x.rdK h)) ++
    (List.range 16).map (fun i => ((x.e.copies[i]?).map (fun k => k.st)).getD {}) ++
    (List.range 16).map (fun i => ((x.e.copies[i]?).map (fun k => k.dt)).getD {}) ++
    (List.range 64).map (fun w => (Sparse.get {} x.wins w).tok) ++
    (List.range 4).map (fun i => ((x.e.mxq[i]?).map (fun k => if mxTok k then k.tok else {})).getD {})

/-- A command record's first words: the word, P64 and the three captured scalars (R196, R250). -/
def cmdWords (i : Instr) (a b c : Word) : List Byte :=
  let w := encodeC i
  le8 (w.getD 0 0) ++ le8 (w.getD 1 0) ++ le8 a.toNat ++ le8 b.toNat ++ le8 c.toNat

/-- STAGE with the bits that read zero clear (R266). -/
def stageFields (v : Word) : Word := v &&& 0xFFFFFFFF0000003F#64

/-- Write bytes of an image. -/
def imgPut (a : Sparse Byte) (off : Nat) (l : List Byte) : Sparse Byte :=
  (l.zip (List.range l.length)).foldl (fun (m : Sparse Byte) p => Sparse.set 0#8 m (off + p.2) p.1) a

/-- STEP of a saved Marver command: its five bits reach 16, and an `mx.bld` with more steps done does those after the sixteenth again
(R196, notes/assumptions/55.md). -/
def savedStep (k : MxCmd) : Nat := min k.step 16

/-- The main parts of an image: offset and bytes. The program counter saved is `pc`. What R109 leaves open of the layout is
(DESIGN CHOICE, notes/assumptions/21.md). -/
def State.imageParts (s : State) (c reason pc : Nat) (leased : Bool) : List (Nat × List Byte) :=
  let x := s.core c
  let q := x.q
  let i := q.issue
  let sw := i.act && i.swpl
  let full (l : List Nat) : Bool := l.isEmpty
  let head := 1 + q.priv.toNat * 2 ^ 8 + q.tact.toNat * 2 ^ 9 + reason * 2 ^ 10 + q.ldepth * 2 ^ 12 + pc % 2 ^ 15 * 2 ^ 16 +
    c % 1024 * 2 ^ 32 + x.e.twr.toNat * 2 ^ 42
  let level (l : Nat) : List Byte :=
    let p := q.loop l
    leBytes 4 p.idx ++ leBytes 4 p.trip ++ leBytes 2 p.first ++ leBytes 2 p.last ++ leBytes 20 p.act.toNat
  let csrs : List Nat := [x.c.fpcr.toNat, x.c.fpsr.toNat, x.c.kstat.toNat, x.c.tcause.toNat, x.c.tpc.toNat, x.c.tinfo.toNat,
    x.c.tvec, x.c.rows, q.regions.length, x.c.stage.toNat, x.c.prio, s.gts c]
  let region (r : Region) : List Byte :=
    le8 (r.hpc % 2 ^ 15 + r.ldepth * 2 ^ 15 + r.mdepth * 2 ^ 18 + r.swpl.toNat * 2 ^ 23) ++ le8 (r.opc % 2 ^ 15)
  let hctx (h : Nat) : List Byte :=
    let k := q.hctx h
    le8 (k.pc % 2 ^ 15 + (if k.st = .running ∨ (k.st = .held ∧ k.ran) then 2 ^ 15 else 0))
  let held (z : Nat) : Bool := s.holdsZ c z
  let masks := x.r.masks.reverse
  [(0x0, le8 head),
   (0x8, le8 (if sw then 1 + (x.v.ends.any (fun p => p.1 == i.inst)).toNat * 2 + i.pc % 2 ^ 15 * 4 + i.iter * 2 ^ 32 else 0)),
   (0x10, le8 (if sw then i.trip else 0)),
   (0x40, match x.task with | some t => t.r.bytes | none => []),
   (0x80, (List.range 6).flatMap level),
   (0x140, (List.range 6).flatMap (fun l => le8 (Sparse.get 0#12 x.c.lsd l).toNat)),
   (0x170, (List.range 6).flatMap (fun l => le8 (Sparse.get 0#32 x.c.lso l).toNat)),
   (0x1A0, csrs.flatMap le8),
   (0x200, (List.range 16).flatMap (fun r => leBytes 2 ((x.rdP r).count + (x.rdP r).width * 2 ^ 10))),
   (0x220, (q.regions.reverse).flatMap region),
   (0x260, packBits 64 (fun r => full (x.sMarks 0 r)) ++ packBits 32 (fun r => full (x.kMarks 0 r)) ++
      [1, 2, 3].flatMap (fun h => packBits 16 (fun r => full (x.sMarks h r))) ++
      [1, 2, 3].flatMap (fun h => packBits 8 (fun r => full (x.kMarks h r)))),
   (0x280, packBits 2048 (fun r => full (x.vMarks r))),
   (0x400, (List.range 64).flatMap (fun r => le8 (x.rdS 0 r).toNat)),
   (0x600, [1, 2, 3].flatMap (fun h => (List.range 16).flatMap (fun r => le8 (x.rdS h r).toNat))),
   (0x780, [1, 2, 3].flatMap hctx ++ le8 q.notes.length),
   (0x7A0, q.notes.flatMap (fun n => leBytes 2 n.h ++ le8 n.bytes.toNat ++ leBytes 6 n.pc)),
   (0x820, packBits 64 held ++ le8 (x.e.mxq.length + leased.toNat * 8)),
   (0x840, x.e.mxq.flatMap (fun k => cmdWords k.i k.a k.b k.c ++ le8 (savedStep k + (mxTok k).toNat * 32) ++ le8 0)),
   (0x1000, x.tokenColumn.flatMap Token.image),
   (0x2000, masks.flatMap (fun m => leBytes 96 m.toNat)),
   (0x2600, [BitVec.ofNat 8 masks.length]),
   (0x2640, x.e.copies.flatMap (fun k => cmdWords (.cpyGo k.f) k.a k.b k.c ++ le8 (1 + k.started.toNat * 2) ++ le8 0 ++ le8 0)),
   (0x2A40, (List.range 6).flatMap (fun l =>
      let v : Level := Sparse.get {} x.e.lvl l
      le8 v.count ++ le8 v.ss.toNat ++ le8 v.ds.toNat)),
   (0x2AD0, match x.e.copies with
      | k :: _ => if k.started then (x.copyIdx k).flatMap (leBytes 4) else []
      | [] => []),
   (0x2B40, (List.range 64).flatMap (fun h =>
      let v := x.e.handle h
      le8 v.info.toNat ++ le8 (v.fillno + v.code * 2 ^ 32 + v.entry * 2 ^ 40))),
   (0x2F40, (List.range 64).flatMap (fun w =>
      let v : Win := Sparse.get {} x.wins w
      le8 v.off ++ le8 v.size)),
   (0x4000, (List.range 2048).flatMap (fun r => leBytes 128 (x.rdV r).toNat))]

/-- The image of the context of core `c`, byte by byte; a byte that is not listed is zero, and the bytes of a tile register whose
TWR bit is clear are not written. -/
def State.image (s : State) (c reason pc : Nat) (leased : Bool) : Sparse Byte :=
  let x := s.core c
  let m := (s.imageParts c reason pc leased).foldl (fun m p => imgPut m p.1 p.2) []
  x.e.tile.foldl (fun (m : Sparse Byte) p =>
    if x.e.twr.getLsbD (p.1 / 131072) then Sparse.set 0#8 m (imageHead + p.1) p.2 else m) m

/-- The offsets an image with TWR `twr` writes. -/
def imageOffsets (twr : BitVec 8) : List Nat :=
  List.range imageHead ++ ((List.range 8).filter (fun t => twr.getLsbD t)).flatMap (fun t => run (imageHead + 131072 * t) 131072)

/-- Where the granule of a register lies in an image (R109). -/
def granuleAt (g : Nat) : Nat :=
  if g < 64 then 0x400 + 8 * g
  else if g < 256 then 0x600 + 128 * (g / 64 - 1) + 8 * (g % 64)
  else if g < 288 then 0x1000 + 16 * (g - 256)
  else if g < 512 then 0x1000 + 16 * (32 + 8 * ((g - 256) / 32 - 1) + g % 32)
  else if g < pGran 0 then 0x4000 + 8 * (g - 512)
  else if g < mGran 0 0 then 0x200 + 2 * (g - pGran 0)
  else 0x2000 + 96 * ((g - mGran 0 0) / 16) + 8 * ((g - mGran 0 0) % 16)

/-- The marks of a context's registers and tiles as offsets in its image, with their units. -/
def Core.imageMarks (x : Core) : List (Nat × Nat) :=
  x.r.bad.map (fun p => (granuleAt p.1, (p.2 - 1) % 2 ^ 16)) ++
    (x.e.tileBad.filter (fun p => x.e.twr.getLsbD (p.1 * 8 / 131072))).map (fun p => (imageHead + 8 * p.1, (p.2 - 1) % 2 ^ 16))

/-! ### Checking an image (R109, R111) -/

/-- The little-endian value of `n` bytes of an image. -/
def imgNat (rd : Nat → Byte) (off n : Nat) : Nat := leNat ((List.range n).map (fun i => rd (off + i)))

/-- The fields named zero: first byte, bytes, and the bits of each byte that must be zero. -/
def zeroFields : List (Nat × Nat × Nat) :=
  [(1, 1, 0x80), (3, 1, 0x80), (6, 1, 0xFC), (7, 1, 0xFF), (0xA, 1, 0xFE), (0xB, 1, 0xFF), (0x14, 4, 0xFF), (0x18, 40, 0xFF)] ++
  (List.range 6).map (fun l => (0x80 + 32 * l + 13, 19, 0xFF)) ++
  (List.range 16).map (fun r => (0x200 + 2 * r + 1, 1, 0xF0)) ++
  (List.range 4).flatMap (fun i => [(0x220 + 16 * i + 3, 5, 0xFF), (0x220 + 16 * i + 9, 1, 0x80), (0x220 + 16 * i + 10, 6, 0xFF)]) ++
  [(0x275, 11, 0xFF), (0x380, 128, 0xFF), (0x828, 1, 0xF0), (0x829, 7, 0xFF), (0x830, 16, 0xFF)] ++
  (List.range 4).flatMap (fun i => [(0x840 + 56 * i + 40, 1, 0xC0), (0x840 + 56 * i + 41, 15, 0xFF)]) ++
  [(0x920, 1760, 0xFF), (0x19C0, 1600, 0xFF), (0x2601, 63, 0xFF)] ++
  (List.range 16).flatMap (fun i => [(0x2640 + 64 * i + 40, 1, 0xFC), (0x2640 + 64 * i + 41, 23, 0xFF)]) ++
  (List.range 6).map (fun l => (0x2A44 + 24 * l, 4, 0xFF)) ++
  [(0x2AE8, 88, 0xFF)] ++
  (List.range 64).flatMap (fun h => [(0x2B40 + 16 * h + 7, 1, 0x1F), (0x2B40 + 16 * h + 15, 1, 0xF0)]) ++
  [(0x3340, 3264, 0xFF)]

/-- The first byte of a zero field that is not zero. -/
def imageBad (rd : Nat → Byte) : Option Nat :=
  zeroFields.findSome? (fun f => (run f.1 f.2.1).find? (fun o => (rd o).toNat &&& f.2.2 != 0))

/-- TWR of an image. -/
def imgTwr (rd : Nat → Byte) : BitVec 8 := BitVec.ofNat 8 (fld (imgNat rd 0 8) 42 8)

/-- Whether a restore must hold the lease first (R196). -/
def imgLease (rd : Nat → Byte) : Bool := fld (imgNat rd 0x828 8) 0 4 != 0

/-! ### Restoring (R110, R111, R196, R250) -/

/-- The scalars of a context from an image. -/
def imgScalars (rd : Nat → Byte) : Sparse Word :=
  let put (m : Sparse Word) (k off : Nat) : Sparse Word := Sparse.set 0#64 m k (BitVec.ofNat 64 (imgNat rd off 8))
  let m := (run 1 63).foldl (fun m r => put m (sKey 0 r) (0x400 + 8 * r)) []
  [1, 2, 3].foldl (fun m h => (run 1 15).foldl (fun m r => put m (sKey h r) (0x600 + 128 * (h - 1) + 8 * r)) m) m

/-- The token registers from an image's token column. -/
def imgTokens (col : Nat → Token) : Sparse Token :=
  let m := (run 1 31).foldl (fun (m : Sparse Token) r => Sparse.set {} m (kKey 0 r) (col r)) []
  [1, 2, 3].foldl (fun m h => (run 1 7).foldl (fun (m : Sparse Token) r => Sparse.set {} m (kKey h r) (col (32 + 8 * (h - 1) + r))) m) m

/-- The marks of registers an image holds empty: no producer fills them but a command the image holds too. -/
def imgMarks (rd : Nat → Byte) (base n : Nat) (key : Nat → Nat) (m : Sparse (List Nat)) : Sparse (List Nat) :=
  (List.range n).foldl (fun m r => if bit (imgNat rd (base + r / 8) 1) (r % 8) then m else Sparse.set [] m (key r) [0]) m

/-- The scalar marks of an image. -/
def imgSMarks (rd : Nat → Byte) : Sparse (List Nat) :=
  let m := imgMarks rd 0x260 64 (sKey 0) []
  Sparse.keep (fun k _ => k % 64 != 0)
    ([1, 2, 3].foldl (fun m h => imgMarks rd (0x26C + 2 * (h - 1)) 16 (sKey h) m) m)

/-- The token marks of an image. -/
def imgKMarks (rd : Nat → Byte) : Sparse (List Nat) :=
  let m := imgMarks rd 0x268 32 (kKey 0) []
  Sparse.keep (fun k _ => k % 32 != 0)
    ([1, 2, 3].foldl (fun m h => imgMarks rd (0x272 + (h - 1)) 8 (kKey h) m) m)

/-- The region stack of an image, innermost first. -/
def imgRegions (rd : Nat → Byte) (nid : Nat) : List Region :=
  ((List.range (min 4 (imgNat rd 0x1E0 8 % 8))).map (fun i =>
    let w := imgNat rd (0x220 + 16 * i) 8
    { opc := fld (imgNat rd (0x228 + 16 * i) 8) 0 15, hpc := fld w 0 15, ldepth := fld w 15 3, mdepth := fld w 18 5,
      swpl := bit w 23, since := nid : Region })).reverse

/-- A command's word and P64 read back. -/
def imgInstr (rd : Nat → Byte) (off : Nat) : Option Instr :=
  match decodeC (BitVec.ofNat 64 (imgNat rd off 8)) (BitVec.ofNat 64 (imgNat rd (off + 8) 8)) with
  | .ok (i, _) => some i
  | .error _ => none

/-- The Marver commands of an image, numbered from `nid`: a command whose status scalar a handler context holds empty is
that context's. -/
def imgMx (rd : Nat → Byte) (col : Nat → Token) (marks : Sparse (List Nat)) (c nid : Nat) (fill : Nat → Nat) : List MxCmd :=
  (List.range (min 4 (fld (imgNat rd 0x828 8) 0 3))).filterMap (fun n =>
    let off := 0x840 + 56 * n
    (imgInstr rd off).map (fun i =>
      let g (k : Nat) : Word := BitVec.ofNat 64 (imgNat rd (off + 16 + 8 * k) 8)
      let st := imgNat rd (off + 40) 8
      let ctx := ([0, 1, 2, 3].find? (fun x => Sparse.get [] marks (sKey x (mxDest i)) != [])).getD 0
      { id := nid + n, core := c, ctx := ctx, i := i, a := g 0, b := g 1, c := g 2,
        tok := if bit st 5 then col (152 + n) else {}, pc := 0, depth := 0, step := fld st 0 5,
        fill := match i with | .mxMm f => if f.hw then fill f.h else 0 | _ => 0 }))

/-- The copy commands of an image, numbered from `nid`. -/
def imgCopies (rd : Nat → Byte) (col : Nat → Token) (lv : Sparse Level) (nid : Nat) : List CopyCmd :=
  (List.range 16).filterMap (fun n =>
    let off := 0x2640 + 64 * n
    let st := imgNat rd (off + 40) 8
    match bit st 0, imgInstr rd off with
    | true, some (.cpyGo f) =>
      let g (k : Nat) : Word := BitVec.ofNat 64 (imgNat rd (off + 16 + 8 * k) 8)
      let idx := (List.range 6).map (fun j => imgNat rd (0x2AD0 + 4 * j) 4)
      let ended := if f.nlvl = 0 then idx.getD 0 0 != 0
        else (List.range f.nlvl).any (fun l => decide ((Sparse.get {} lv l : Level).count ≤ idx.getD l 0))
      some { id := nid + n, ctx := 0, f := f, a := g 0, b := g 1, c := g 2, st := col (56 + n), dt := col (72 + n), pc := 0,
             depth := 0, started := bit st 1, next := if bit st 1 then idx.take f.nlvl else [], emitted := bit st 1 && ended }
    | _, _ => none)

/-- The `swpl` an image was saved in goes on at its next iteration; one that had ended issues its epilogue alone (R106). -/
def imgSwpl (rd : Nat → Byte) (x : Core) : Core :=
  let w := imgNat rd 0x8 8
  let pc := fld w 2 15
  let word (i : Nat) : Word := Sparse.get 0#64 x.code.ctl i
  match bit w 0, decodeC (word pc) (word (pc + 1)) with
  | true, .ok (.swpl f, _) =>
    let trip := imgNat rd 0x10 4
    let iter := fld w 32 32
    let base : Issue := { act := true, swpl := true, pc := pc, cur := f.ker, fin := f.epi, ph := 1, iter := iter, trip := trip,
                          ker := f.ker, epi := f.epi, last := f.fin, inst := x.q.nid }
    let y := x.seq (fun q => { q with pc := pc })
    if !bit w 1 ∧ iter < trip then (y.issuing (fun _ => base)).setI0 iter
    else
      let z := (y.issuing (fun _ => { base with ph := 2, iter := trip, cur := f.epi, fin := f.fin })).setI0 (trip - 1)
      if f.epi < f.fin then z else z.issued
  | _, _ => x

/-- Pending notifications start on handler contexts that are DORMANT (R101). -/
def Core.startNotes (x : Core) : Nat → Core
  | 0 => x
  | n + 1 =>
    match x.q.notes, x.q.dormant with
    | k :: rest, some h => ((x.seq (fun q => { q with notes := rest })).startNote h k).startNotes n
    | _, _ => x

/-- Core `c` with the context an image holds; `bad` are the marks of its tiles, by granule. Tokens stand as saved. What stays of
the core (its stash, its task's launch) is the model's choice (DESIGN CHOICE, notes/assumptions/55.md), and so is that a ZOWN bit of an
accumulator no longer held gives nothing back (DESIGN CHOICE, notes/assumptions/21.md). -/
def Core.fromImage (x : Core) (rd : Nat → Byte) (bad : Sparse Nat) (c mv : Nat) (owner : Nat → Nat) : Core :=
  let n := x.q.nid
  let head := imgNat rd 0 8
  let col (i : Nat) : Token :=
    Token.ofWord (BitVec.ofNat 64 (imgNat rd (0x1000 + 16 * i) 8)) (imgNat rd (0x1008 + 16 * i) 4) (imgNat rd (0x100C + 16 * i) 4)
  let csr (i : Nat) : Nat := imgNat rd (0x1A0 + 8 * i) 8
  let hnd : Sparse Handle := (List.range 64).foldl (fun m h =>
    let w := imgNat rd (0x2B40 + 16 * h) 8
    let v := imgNat rd (0x2B48 + 16 * h) 8
    Sparse.set {} m h { st := fld w 62 2, err := bit w 61, arr := fld w 40 16, cnt := BitVec.ofNat 40 (fld w 0 40),
                        fillno := fld v 0 32, code := fld v 32 8, entry := fld v 40 20 }) []
  let lv : Sparse Level := (List.range 6).foldl (fun m l =>
    let o := 0x2A40 + 24 * l
    Sparse.set {} m l { count := imgNat rd o 4, ss := BitVec.ofNat 64 (imgNat rd (o + 8) 8),
                        ds := BitVec.ofNat 64 (imgNat rd (o + 16) 8) }) []
  let wins : Sparse Win := (List.range 64).foldl (fun m w =>
    Sparse.set {} m w { tok := col (88 + w), off := imgNat rd (0x2F40 + 16 * w) 8, size := imgNat rd (0x2F48 + 16 * w) 8 }) []
  let sm := imgSMarks rd
  let fill (h : Nat) : Nat := ({ x with e := { x.e with hnd := hnd } } : Core).readerFill h
  let mxq := imgMx rd col sm c (n + 16) fill
  let zown := imgNat rd 0x820 8
  let zs := (List.range 64).filter (fun z => (x.uid != 0 && owner (mv * 64 + z) == x.uid) && !bit zown z)
  let sm' := mxq.foldl (fun (m : Sparse (List Nat)) k =>
    if mxDest k.i = 0 then m
    else Sparse.set [] m (sKey k.ctx (mxDest k.i)) ((Sparse.get [] m (sKey k.ctx (mxDest k.i))).filter (· != 0) ++ [k.id])) sm
  let vm := mxq.foldl (fun (m : Sparse (List Nat)) k => (mxRegs k.i).foldl (fun (m : Sparse (List Nat)) r =>
      Sparse.set [] m r ((Sparse.get [] m r).filter (· != 0) ++ [k.id])) m) (imgMarks rd 0x280 2048 id [])
  let q : Seq :=
    { st := .running, tact := bit head 9, priv := bit head 8, pc := fld head 16 15, stop := x.q.stop, nid := n + 32,
      wseq := x.q.wseq, pointAt := x.q.pointAt, lastH := x.q.lastH, clockAt := x.q.clockAt, hrun := x.q.hrun
      loops := (List.range 6).foldl (fun (m : Sparse Loop) l =>
        let o := 0x80 + 32 * l
        Sparse.set {} m l { idx := imgNat rd o 4, trip := imgNat rd (o + 4) 4, first := imgNat rd (o + 8) 2,
                            last := imgNat rd (o + 10) 2, act := bit (imgNat rd (o + 12) 1) 0 }) []
      h := [1, 2, 3].foldl (fun (m : Sparse HCtx) h =>
        let w := imgNat rd (0x780 + 8 * (h - 1)) 8
        Sparse.set {} m h { st := if fld w 15 2 = 1 then .running else .dormant, pc := fld w 0 15 }) []
      regions := imgRegions rd (n + 32)
      notes := (List.range (min 8 (imgNat rd 0x798 1))).map (fun i =>
        let o := 0x7A0 + 16 * i
        { h := imgNat rd o 2, bytes := BitVec.ofNat 64 (imgNat rd (o + 2) 8), pc := imgNat rd (o + 10) 2, id := 0 : Note }) }
  let y : Core :=
    { x with
      r := { s := imgScalars rd, k := imgTokens col, sm := sm', km := imgKMarks rd, vm := vm
             v := (List.range 2048).foldl (fun (m : Sparse VReg) r =>
               Sparse.set 0#1024 m r (BitVec.ofNat 1024 (imgNat rd (0x4000 + 128 * r) 128))) []
             p := (List.range 16).foldl (fun (m : Sparse Pred) r =>
               let w := imgNat rd (0x200 + 2 * r) 2
               Sparse.set {} m r { count := fld w 0 10, width := fld w 10 2 }) []
             masks := ((List.range (min 16 (imgNat rd 0x2600 1))).map (fun i =>
               BitVec.ofNat 768 (imgNat rd (0x2000 + 96 * i) 96))).reverse }
      c := { fpcr := BitVec.ofNat 4 (csr 0), fpsr := BitVec.ofNat 6 (csr 1), kstat := kstatFields (BitVec.ofNat 64 (csr 2))
             tcause := tcauseFields (BitVec.ofNat 64 (csr 3)), tpc := BitVec.ofNat 64 (csr 4)
             tinfo := tinfoFields (BitVec.ofNat 64 (csr 5))
             tvec := csr 6 % 2 ^ 15, rows := csr 7 % 8, stage := stageFields (BitVec.ofNat 64 (csr 9)), prio := csr 10 % 4
             lsd := (List.range 6).foldl (fun (m : Sparse (BitVec 12)) l =>
               Sparse.set 0#12 m l (BitVec.ofNat 12 (imgNat rd (0x140 + 8 * l) 8))) []
             lso := (List.range 6).foldl (fun (m : Sparse (BitVec 32)) l =>
               Sparse.set 0#32 m l (BitVec.ofNat 32 (imgNat rd (0x170 + 8 * l) 8))) [] }
      q := q
      v := {}
      e := { hnd := hnd, lvl := lv, copies := imgCopies rd col lv n, mxq := mxq, zfree := zs.map (fun z => (n + 31, z)),
             mxfault := [], twr := imgTwr rd, tileBad := bad
             tile := ((List.range 8).filter (fun t => (imgTwr rd).getLsbD t)).foldl (fun m t =>
               (List.range 131072).foldl (fun (m : Sparse Byte) i =>
                 Sparse.set 0#8 m (131072 * t + i) (rd (imageHead + 131072 * t + i))) m) [] }
      wins := wins
      task := x.task.map (fun t => { t with r := Rec.ofBytes ((List.range 64).map (fun i => rd (0x40 + i))) }) }
  (imgSwpl rd y).startNotes 3

/-- R110 for a list of tokens that reach core `c`. -/
def State.arriveAll (s : State) (c : Nat) (l : List Token) : State × List Token :=
  l.foldl (fun (acc : State × List Token) t =>
    let p := acc.1.arrives c t
    (p.1, acc.2 ++ [p.2])) (s, [])

/-- R110 for every token a restored context holds: registers, copy commands, Marver commands, then windows, which fixes the entry
KSTAT names where several are stale (notes/assumptions/55.md). -/
def State.restoreTokens (s : State) (c : Nat) : State :=
  let x := s.core c
  let k := s.arriveAll c (x.r.k.map Prod.snd)
  let a := k.1.arriveAll c (x.e.copies.map (fun p => p.st))
  let b := a.1.arriveAll c (x.e.copies.map (fun p => p.dt))
  let m := b.1.arriveAll c (x.e.mxq.map (fun p => p.tok))
  let w := m.1.arriveAll c (x.wins.map (fun p => p.2.tok))
  w.1.mod c (fun y =>
    { y with
      r := { y.r with k := ((x.r.k.map Prod.fst).zip k.2).foldl (fun (m : Sparse Token) p => Sparse.set {} m p.1 p.2) [] }
      e := { y.e with
        copies := (x.e.copies.zip (a.2.zip b.2)).map (fun p => { p.1 with st := p.2.1, dt := p.2.2 })
        mxq := (x.e.mxq.zip m.2).map (fun p => { p.1 with tok := p.2 }) }
      wins := ((x.wins.map Prod.fst).zip ((x.wins.map Prod.snd).zip w.2)).foldl
        (fun (m : Sparse Win) p => Sparse.set {} m p.1 { p.2.1 with tok := p.2.2 }) [] })

/-- The context of core `c` becomes the one an image holds. The core's stash lines stay, no longer in a window, and so does the launch
of its task (notes/assumptions/55.md); the engine commands follow what their contexts follow now. -/
def State.restoreImage (s : State) (c : Nat) (rd : Nat → Byte) (bad : Sparse Nat) : State :=
  let mv := s.cfg.marver c
  let u := ((s.mod c (fun x => x.fromImage rd bad c mv (fun k => Sparse.get 0 s.accOwner k))).restoreTokens c).applyZfree c
  let t := [0, 1, 2, 3].foldl (fun (t : State) h => t.upToNow c h) u
  t.mod c (fun x => x.eng (fun e => { e with
    copies := e.copies.map (fun k => { k with hb := t.hbOf c k.ctx })
    mxq := e.mxq.map (fun k => { k with hb := t.hbOf c k.ctx }) }))

/-- The lease a restore needs is there, with a fresh count, or the core waits for it (R196). -/
def State.leaseFor (s : State) (c : Nat) : State × Bool :=
  let mv := s.cfg.marver c
  let m := s.marver mv
  if m.holder = some c then (s.setMarver mv { m with left := m.len }, true)
  else (s.setMarver mv { m with waiters := if m.waiters.contains c then m.waiters else m.waiters ++ [c] }, false)

/-! ### `ctxsave` and `ctxrest` (R111) -/

/-- Whether what both wait for is done (R111, R366): queues, copies, handlers, Marver and unmasking commands, and the accesses
issued before. -/
def State.saveReady (s : State) : Bool :=
  let x := s.me
  x.vIdle && x.e.copies.isEmpty && x.q.notes.isEmpty && [1, 2, 3].all (fun h => (x.q.hctx h).st == .dormant) &&
    (s.mxOwn s.cur).isEmpty && !s.umBusy s.cur && s.performed s.cur && x.deliv.isEmpty &&
    !s.popPending s.cur 0 x.q.nid && x.q.late.isEmpty && x.q.armed.isNone

/-- The form both share: privilege, then TACT, at issue; then the wait. -/
def ctxWord (i : Instr) (m : MemRef) (s : State) (fin : State → Out) : Out :=
  if s.hold.k = .drain ∨ s.hold.k = .lease then (if s.saveReady then fin s else stall s)
  else issue i s (memSrcs m) (fun s =>
    if s.me.q.priv = false then privTrap s (minOf i)
    else if s.me.q.tact then illegal i s
    else
      let t := (s.holds .drain).upd (fun x => x.seq (fun q => { q with pointAt := s.now }))
      if t.saveReady then fin t else .next t)

/-- R111: `ctxsave` writes the image of its context at an offset of a window. The position it saves is where control goes next: past
the end of a loop body that it ends (notes/assumptions/53.md). -/
def execCtxsave (m : MemRef) (s : State) : Out :=
  ctxWord (.ctxsave m) m s (fun s =>
    match s.check (s.tk m.k) (s.offOf m) imageLen rW with
    | .wait => stall s
    | .fail _ e => trap s 9 e
    | .pass t pas =>
      if !s.linked pas then stall s else
      let c := s.cur
      let after := s.done 1
      let img := after.image c 2 after.pc ((s.marver (s.cfg.marver c)).holder == some c)
      let at' (o : Nat) : Nat := pas.getD o 0
      let bytes := (imageOffsets s.me.e.twr).map (fun o => (at' o, Sparse.get 0#8 img o))
      let u := (s.upd (fun x => x.cacheTok t.entry)).bypass c (bytes.map Prod.fst)
      let au := u.authorOf c s.ctx s.id t.kind false false
      .next ((u.homeStore c s.id bytes (s.me.imageMarks.map (fun p => (at' p.1, p.2))) au).done 1))

/-- R111: `ctxrest` reads an image, checks it and becomes the context it holds. -/
def execCtxrest (m : MemRef) (s : State) : Out :=
  ctxWord (.ctxrest m) m s (fun s =>
    match s.check (s.tk m.k) (s.offOf m) imageLen rR with
    | .wait => stall s
    | .fail _ e => trap s 9 e
    | .pass t pas =>
      if !s.linked pas then stall s else
      let c := s.cur
      let s0 := (s.upd (fun x => x.cacheTok t.entry)).bypass c pas
      match s0.findAll (pas.take imageHead) with
      | (u, some e) => u.wordContained 1 e
      | (u, none) =>
        let all := pas.map u.byte
        let seen := if t.kind = 2 then u.unordBytes (u.hbOf c u.ctx).know pas else all
        let rd0 (o : Nat) : Byte := seen.getD o 0#8
        match imageBad rd0 with
        | some o => trap u 1 o
        | none =>
          if imgNat rd0 0 1 ≠ 1 ∨ fld (imgNat rd0 0 8) 32 10 ≠ c then illegal (.ctxrest m) u
          else
            let p : State × Bool := if imgLease rd0 then u.leaseFor c else (u, true)
            if !p.2 then
              (if s.hold.k = .lease ∧ (s.marver (s.cfg.marver c)).waiters.contains c then stall s
               else .next (p.1.upd (fun x => x.seq (fun q => q.setHold 0 { q.holdOf 0 with k := .lease }))))
            else
              let offs := (imageOffsets (imgTwr rd0)).drop imageHead
              let mk := p.1.marksOf (offs.map (fun o => pas.getD o 0))
              let bad := mk.2.foldl (fun (b : Sparse Nat) q => Sparse.set 0 b ((offs.getD q.1 imageHead - imageHead) / 8) (q.2 + 1)) []
              .next ((mk.1.restoreImage c rd0 bad).upd (fun x =>
                x.seq (fun q => { q with pointAt := s.now }))))

/-! ### Stops (R105 to R108) -/

/-- The saved-context list of core `c`'s task. -/
def State.listOf (s : State) (c : Nat) : Nat := s.cfg.paneOf c * 4 + (s.core c).c.prio

/-- The lowest save area of a pane that is free. -/
def State.freeArea (s : State) (pane : Nat) : Option Nat :=
  (List.range 256).find? (fun a => !s.d.areaUsed.contains (pane * 256 + a))

/-- The lowest free entry of a saved-context list. -/
def State.freeList (s : State) (list : Nat) : Option Nat :=
  (List.range 1024).find? (fun i => !s.d.lists.any (fun p => p.1 == list * 1024 + i))

/-- Whether core `c`'s main context waits in an instruction that honours a stop (R284, R286): a `bar` that is GATHERING, a
`sig.wait` whose condition is false, or a `fut.wait` that has found no room. -/
def State.mayAbandon (s : State) (c : Nat) : Bool :=
  match ((s.core c).q.holdOf 0).k with
  | .bar _ _ => !s.d.bars.any (fun b => b.rel && b.arr.contains c)
  | .sig pa target _ _ met _ => !(met || decide (target.toNat ≤ s.valueAt ((List.range 8).map (pa + ·))))
  | .fut _ _ room => room
  | _ => false

/-- The waiting instruction of R286 abandons its wait. -/
def State.abandonWait (s : State) (c : Nat) : State :=
  match ((s.core c).q.holdOf 0).k with
  | .bar _ _ => (s.withdraw c).mod c (fun x => x.seq (fun q => q.setHold 0 {}))
  | .fut _ _ _ =>
    let t := s.mod c (fun x => (x.dropS 0 3 (x.q.holdOf 0).since).seq (fun q => q.setHold 0 {}))
    { t with w := { t.w with held := t.w.held.filter (fun h => h.core != c ||
        (match h.op with | .acc a => a.op != .futWait | _ => true)) } }
  | _ => s.mod c (fun x => x.seq (fun q => q.setHold 0 {}))

/-- A context enters STOPPING (R101, R106, R196): the token enters L, the handlers are HELD, and the Marver gives back the commands it
has not completed and the lease, at the end of a step in progress. -/
def State.enterStop (s : State) (c reason : Nat) : State :=
  let m := s.marver (s.cfg.marver c)
  (s.mxReturn c).mod c (fun x =>
    { x with
      q := { x.q with st := .stopping, reason := reason, token := 0, point := 0, leased := m.holder == some c
                      h := [1, 2, 3].foldl (fun (g : Sparse HCtx) h =>
                        Sparse.set {} g h { x.q.hctx h with st := .held, ran := (x.q.hctx h).st == .running }) x.q.h } })

/-- A pending stop of core `c` is honoured at a point of R97 or a waiting instruction of R286, if a save area and a list entry
are free (R106, R108). -/
def State.honourStop (s : State) (c : Nat) : Option State :=
  let x := s.core c
  let list := s.listOf c
  let waits := s.mayAbandon c
  if s.halted ∨ x.q.st ≠ .running ∨ !x.q.stop ∨ x.q.tact ∨ (!x.q.late.isEmpty ∧ !waits) ∨ x.q.armed.isSome ∨
      (x.q.point = 0 ∧ !waits) then none
  else match x.task, s.freeArea (s.cfg.paneOf c), s.freeList list with
    | some t, some a, some i =>
      let e : SaveE := { linst := t.linst, mcore := c, area := a, uid := t.uid, initial := t.initial, partner := t.partner,
                         wseq := x.q.wseq }
      let u := (s.abandonWait c).enterStop c (if x.q.point = 2 ∧ !waits then 1 else 0)
      some { u with d := { u.d with lists := Sparse.set {} u.d.lists (list * 1024 + i) e,
                                    areaUsed := (s.cfg.paneOf c * 256 + a) :: u.d.areaUsed } }
    | _, _, _ => none

/-- R106: a pending stop is honoured. -/
def execStopHonour (c : Nat) (s : State) : Out := .next ((s.honourStop c).getD s)

/-- R106: the pipe `q` consumes the stop token once its queue holds nothing before it, and passes it on. -/
def execStopTokenPass (c q : Nat) (s : State) : Out :=
  let x := s.core c
  if x.q.st = .stopping ∧ x.q.token = q ∧ q < 3 ∧ (x.v.queue q).isEmpty then
    .next (s.mod c (fun x => x.seq (fun k => { k with token := q + 1 })))
  else .next s

/-- A list entry is cleared and its area returns to the pool (R108). -/
def State.freeSave (s : State) (key : Nat) : State :=
  let e : SaveE := Sparse.get {} s.d.lists key
  let area := key / 1024 / 4 * 256 + e.area
  let t := if e.valid then s.setList key {} else { s with d := { s.d with lists := Sparse.set {} s.d.lists key {} } }
  { t with d := { t.d with areaUsed := t.d.areaUsed.filter (· != area) } }

/-- The list entry that core `c`'s save under way holds. -/
def State.saveSlot (s : State) (c : Nat) : Option Nat :=
  (s.d.lists.find? (fun p => p.2.mcore == c && !p.2.valid)).map Prod.fst

/-- A trap leaves STOPPING (R100): the stop stays pending, the handlers and engines go on, a handler's `mx.lease` waits again, and the
area is returned. -/
def State.unstop (s : State) (c : Nat) : State :=
  let t := match s.saveSlot c with
    | some k => s.freeSave k
    | none => s
  let u := t.mod c (fun x => x.seq (fun q => { q with
    token := 0
    h := [1, 2, 3].foldl (fun (g : Sparse HCtx) h =>
      let k := q.hctx h
      if k.st = .held then Sparse.set {} g h { k with st := if k.ran then .running else .dormant, ran := false } else g) q.h }))
  let mv := s.cfg.marver c
  let m := u.marver mv
  if [1, 2, 3].any (fun h => ((u.core c).q.holdOf h).k == .lease) && m.holder != some c && !m.waiters.contains c then
    u.setMarver mv { m with waiters := m.waiters ++ [c] }
  else u

/-- A hold of a handler context that a save must wait for: the word is part-way through an effect. -/
def HoldK.busy : HoldK → Bool
  | .queue _ | .slice | .walk _ | .rev _ => true
  | _ => false

/-- Whether core `c` is quiet enough to be saved (R107, R366). What is counted is (DESIGN CHOICE, notes/assumptions/40.md). -/
def State.quiesced (s : State) (c : Nat) : Bool :=
  let x := s.core c
  x.vIdle && x.q.armed.isNone && x.q.late.isEmpty && s.performed c && x.deliv.isEmpty &&
    [0, 1, 2, 3].all (fun ctx => !(x.q.holdOf ctx).k.busy && !s.popPending c ctx x.q.nid) &&
    x.e.copies.all (fun k => k.fl.isEmpty && !k.cancelled && (!(k.started && k.emitted) || (k.f.ntf && decide (8 ≤ x.q.notes.length)))) &&
    !(s.marver (s.cfg.marver c)).order.any (fun k => k.core == c) && !s.umBusy c

/-- The list bit of every live entry in the token column is set and the core's own bit cleared (R107). -/
def State.listBits (s : State) (list c : Nat) (l : List Token) : State :=
  l.foldl (fun (t : State) k =>
    if k.entry = 0 ∨ (t.ent k.entry).st = .free ∨ (t.ent k.entry).st = .retired ∨ (t.ent k.entry).st = .dead then t
    else
      let e := t.ent k.entry
      t.setEnt k.entry { e with lists := e.lists ||| (1#64 <<< list), holders := e.holders &&& ~~~(1#1024 <<< c) }) s

/-- A core gives up its context after a save. -/
def State.leaveSaved (s : State) (c : Nat) : State :=
  let asid := s.asidOf c
  (s.systemWork c).mod c (fun x => { x.idle with
    e := { x.e with copies := [], mxq := [], zfree := [], mxfault := [] }
    lastAsid := some asid
    idleAt := s.now + 1 })

/-- R107, R108, R196, R250, R263: the save area is written, the list bits set, and the context becomes IDLE; a save of a launch
that has failed is discarded. -/
def execContextSaveComplete (c : Nat) (s : State) : Out :=
  let x := s.core c
  match s.saveSlot c with
  | none => .next s
  | some key =>
    if x.q.st ≠ .stopping ∨ x.q.token ≠ 3 ∨ !s.quiesced c then .next s
    else
      let e : SaveE := Sparse.get {} s.d.lists key
      if (s.launch e.linst).st ≠ .running then
        .next ((((s.systemWork c).freeSave key).abandon c).finish c)
      else
        let w := (s.dropCancelled c).flush c
        let area := s.areaOf key
        let pc := if x.q.issue.act then x.q.issue.pc + 2 else x.q.pc
        let img := w.image c x.q.reason pc x.q.leased
        let t := w.homeWrite ((imageOffsets x.e.twr).map (fun o => (area + o, Sparse.get 0#8 img o)))
          (x.imageMarks.map (fun p => (area + p.1, p.2)))
        let u := t.setList key { e with valid := true, savedAt := s.now }
        .next ((u.listBits (key / 1024) c x.tokenColumn).leaveSaved c)

/-- A saved task resumes on its core (R100, R111, R273), or waits for the lease its image needs. Its image is read as moves and
consumptions are: tile bytes keep their marks, and bad data that would fill a register is a containment event of the context (R338,
R339, notes/assumptions/55.md). -/
def State.resumeSaved (s : State) (c key : Nat) : Option State :=
  let e : SaveE := Sparse.get {} s.d.lists key
  let area := s.areaOf key
  let rd (o : Nat) : Byte := s.byte (area + o)
  let p : State × Bool := if imgLease rd then s.leaseFor c else (s, true)
  if !p.2 then some p.1
  else
    let h := p.1.findAll (run area imageHead)
    let offs := (imageOffsets (imgTwr rd)).drop imageHead
    let mk := h.1.marksOf (offs.map (area + ·))
    let bad := mk.2.foldl (fun (b : Sparse Nat) q => Sparse.set 0 b ((offs.getD q.1 imageHead - imageHead) / 8) (q.2 + 1)) []
    let t := mk.1.mod c (fun x => { x with
      taken := none
      task := some { uid := e.uid, r := {}, linst := e.linst, initial := e.initial, partner := e.partner }
      q := { x.q with wseq := e.wseq, pointAt := s.now, stop := false }
      busyAt := s.now })
    let u := (t.restoreImage c rd bad).freeSave key
    some (match h.2 with
      | none => u
      | some f => u.contain c 0 f.1 0 f.2 0 (u.core c).q.nid false 3)

end Sys2Proof.Machine
end

