-- ==== Sys2Proof/Machine/Loader.lean ====
section
/-! DEFINITION. Reading a linked image (R83 to R89, R93, R94, R251): its header, section table, kernel header, stages, channels and
token slots, each with the checks of its rule. -/

namespace Sys2Proof.Machine

/-- A section-table entry (R85). -/
structure Sec where
  type : Nat
  tier : Nat
  al : Nat
  foff : Nat
  size : Nat
  link : Nat
  name : Nat
  z : Nat
  deriving DecidableEq, Repr

/-- The little-endian value of `n` bytes of a file. -/
def fNat (rd : Nat → Byte) (off n : Nat) : Nat := leNat ((List.range n).map (fun i => rd (off + i)))

/-- Section-table entry `i`. -/
def secAt (rd : Nat → Byte) (off i : Nat) : Sec :=
  let o := off + 32 * i
  { type := fNat rd o 1, tier := fNat rd (o + 1) 1, al := fNat rd (o + 2) 1, foff := fNat rd (o + 8) 8,
    size := fNat rd (o + 16) 8, link := fNat rd (o + 24) 4, name := fNat rd (o + 4) 4,
    z := fNat rd (o + 3) 1 + fNat rd (o + 28) 4 }

/-- Whether the strings section is one (R83): ASCII strings that end with a zero byte, the first of them empty. -/
def stringsOk (rd : Nat → Byte) (strs : Sec) : Bool :=
  decide (0 < strs.size) && rd strs.foff == 0#8 && rd (strs.foff + strs.size - 1) == 0#8 &&
    (List.range strs.size).all (fun i => decide ((rd (strs.foff + i)).toNat < 128))

/-- Whether a name lies in the strings section. -/
def nameOk (strs : Sec) (o : Nat) : Bool := decide (o < strs.size)

/-- The string at an offset of the strings section. -/
def nameAt (rd : Nat → Byte) (strs : Sec) (o : Nat) : List Byte :=
  ((List.range (strs.size - o)).map (fun i => rd (strs.foff + o + i))).takeWhile (· != 0#8)

/-- Whether a list has no repeats. -/
def noDup {α : Type} [BEq α] (l : List α) : Bool := l.eraseDups.length == l.length

/-- The symbol records of a linked image (R81, R92, R93): every field in its range, none undefined, no name global twice. -/
def symsOk (rd : Nat → Byte) (strs : Sec) (nsec : Nat) (y : Sec) : Bool :=
  let recs := (List.range (y.size / 24)).map (fun i => y.foff + 24 * i)
  recs.all (fun o =>
      nameOk strs (fNat rd o 4) && (decide (fNat rd (o + 4) 2 < nsec) || fNat rd (o + 4) 2 == 0xFFFF) &&
        decide (fNat rd (o + 6) 1 ≤ 6) && decide (fNat rd (o + 7) 1 ≤ 1) &&
        (fNat rd (o + 6) 1 != 3 || decide (fNat rd (o + 16) 8 < 8))) &&
    noDup ((recs.filter (fun o => fNat rd (o + 7) 1 == 1)).map (fun o => nameAt rd strs (fNat rd o 4)))

/-- The rules of R85 and R86 for one section of a linked image; `strs` is the number of the strings section. -/
def secOk (len strs : Nat) (s : Sec) : Bool :=
  s.z == 0 && decide (1 ≤ s.type) && decide (s.type ≤ 9) && s.type != 7 && decide (s.foff + s.size ≤ len) &&
    (if s.type = 4 then decide (s.tier ≤ 3) && decide (6 ≤ s.al) else s.tier == 0) &&
    (if s.type = 8 then s.link == strs else s.link == 0) &&
    (if s.type = 1 then decide (s.size ≤ 262144) && s.size % 8 == 0 else true) &&
    (if s.type = 2 then decide (s.size ≤ 1048576) && s.size % 16 == 0 else true) &&
    (if s.type = 5 ∨ s.type = 6 then s.size % 16 == 0 else true) &&
    (if s.type = 8 then s.size % 24 == 0 else true)

/-- The microprogram records of a wcs section (R86): offset from the section, slot and word count; none where one is wrong.
`fuel` bounds their number. -/
def wcsRecs (rd : Nat → Byte) (base size : Nat) : Nat → Nat → Option (List (Nat × Nat × Nat))
  | 0, off => if off = size then some [] else none
  | fuel + 1, off =>
    if off = size then some []
    else
      let slot := fNat rd (base + off) 1
      let n := fNat rd (base + off + 1) 1
      if fNat rd (base + off + 2) 6 ≠ 0 ∨ 64 ≤ slot ∨ n = 0 ∨ 32 < n ∨ size < off + 40 + 16 * n then none
      else (wcsRecs rd base size fuel (off + 40 + 16 * n)).map (fun l => (off, slot, n) :: l)

/-- The section of a type. -/
def ofType (l : List Sec) (t : Nat) : Option Sec := l.find? (fun s => s.type == t)

/-- The kernel header and its sections (R87 to R89), or none where a rule is broken. A token slot's DSEC is an index of the section
table, as LINK and SECT are, and slot record i of an image holds KREG 2 + i (DESIGN CHOICE, notes/assumptions/54.md). -/
def readKernel (rd : Nat → Byte) (kh : Nat) (l : List Sec) (strs : Sec) : Option Kernel :=
  let b (i n : Nat) : Nat := fNat rd (kh + i) n
  let size (t : Nat) : Nat := ((ofType l t).map (fun s => s.size)).getD 0
  let off (t : Nat) : Nat := ((ofType l t).map (fun s => s.foff)).getD 0
  let nf := b 1 1
  let ws := (List.range 6).map (fun i => b (2 + i) 1)
  let recs := (List.range (size 6 / 16)).map (fun i => off 6 + 16 * i)
  let chans := recs.filter (fun o => fNat rd o 1 == 2)
  let stages := (recs.filter (fun o => fNat rd o 1 == 1)).map (fun o =>
    ({ num := fNat rd (o + 1) 1, chan := fNat rd (o + 2) 2, entry := fNat rd (o + 4) 4 } : Stage))
  let slots := (List.range (size 5 / 16)).map (fun i => off 5 + 16 * i)
  let wcs := wcsRecs rd (off 3) (size 3) 64 0
  let ok :=
    b 36 28 == 0 && b 0 1 == 1 && decide (1 ≤ nf) && decide (nf ≤ 6) &&
    (ws.take nf).all (fun w => decide (1 ≤ w) && decide (w ≤ 64)) && (ws.take nf).sum == 64 && (ws.drop nf).all (· == 0) &&
    (b 8 1 == 0xFF || decide (b 8 1 < nf)) && decide (b 9 1 ≤ 1) &&
    decide (1 ≤ b 10 1) && decide (b 10 1 ≤ 64) && decide (1 ≤ b 11 1) && decide (b 11 1 ≤ 64) &&
    decide (1 ≤ b 12 1) && decide (b 12 1 ≤ 32) && decide (1 ≤ b 13 1) && decide (b 13 1 ≤ 64) && decide (b 14 1 ≤ 64) &&
    decide (b 15 1 ≤ 30) && decide (1 ≤ b 16 4) && b 24 4 * 8 == size 1 && b 28 4 * 16 == size 2 &&
    nameOk strs (b 32 4) &&
    recs.all (fun o => fNat rd o 1 == 1 || fNat rd o 1 == 2) &&
    chans.length == b 14 1 && stages.length == b 13 1 && slots.length == b 15 1 &&
    chans.all (fun o => decide (fNat rd (o + 1) 1 ≤ 1) && decide (1 ≤ fNat rd (o + 2) 2) && decide (fNat rd (o + 2) 2 ≤ 32) &&
      nameOk strs (fNat rd (o + 4) 4) && fNat rd (o + 8) 8 == 0) &&
    (recs.filter (fun o => fNat rd o 1 == 1)).all (fun o => nameOk strs (fNat rd (o + 8) 4) && fNat rd (o + 12) 4 == 0) &&
    stages.all (fun g => decide (g.num < stages.length) && decide (g.chan < chans.length)) &&
    noDup (stages.map (fun g => g.num)) && noDup (stages.map (fun g => g.chan)) &&
    (slots.zip (List.range slots.length)).all (fun p =>
      fNat rd p.1 1 == 2 + p.2 && decide (1 ≤ fNat rd (p.1 + 1) 1) && decide (fNat rd (p.1 + 1) 1 < 16) &&
      (fNat rd (p.1 + 2) 1 == 0xFF || (match l[fNat rd (p.1 + 2) 1]? with
        | some s => s.type == 4 && nameAt rd strs s.name == nameAt rd strs (fNat rd (p.1 + 4) 4)
        | none => false)) &&
      fNat rd (p.1 + 3) 1 == 0 && nameOk strs (fNat rd (p.1 + 4) 4) && fNat rd (p.1 + 8) 8 == 0) &&
    noDup (slots.map (fun o => nameAt rd strs (fNat rd (o + 4) 4))) &&
    noDup (chans.map (fun o => nameAt rd strs (fNat rd (o + 4) 4))) &&
    noDup ((l.filter (fun s => s.type == 4)).map (fun s => nameAt rd strs s.name))
  match ok, wcs with
  | true, some ms =>
    if !noDup (ms.map (fun p => p.2.1)) then none
    else
      some { widths := ws.take nf, colevel := b 8 1, static := b 9 1 == 1, slipL := b 10 1, slipA := b 11 1, slipS := b 12 1,
             iterbound := b 16 4, frame := b 20 4, ctlLen := b 24 4, vecLen := b 28 4, stages := stages
             chans := chans.map (fun o => { spill := fNat rd (o + 1) 1 == 1, depth := fNat rd (o + 2) 2 })
             slots := slots.map (fun o =>
               { kreg := fNat rd o 1, rights := BitVec.ofNat 4 (fNat rd (o + 1) 1)
                 dsec := if fNat rd (o + 2) 1 = 0xFF then 0xFF
                         else ((l.take (fNat rd (o + 2) 1)).filter (fun s => s.type == 4)).length })
             datas := (l.filter (fun s => s.type == 4)).map (fun s => { tier := s.tier, al := s.al, foff := s.foff, size := s.size })
             ctlOff := off 1, vecOff := off 2, wcsOff := off 3, wcsLen := size 3
             wcs := ms.map (fun p => p.2.1) }
  | _, _ => none

/-- A linked image of `len` bytes (R83 to R94): its kernel, or none where the file breaks a rule, is not a linked image, has no
kernel header or holds a relocation section (R251). -/
def readImage (rd : Nat → Byte) (len : Nat) : Option Kernel :=
  let nsec := fNat rd 8 2
  let so := fNat rd 16 8
  let kh := fNat rd 24 8
  let l := (List.range nsec).map (secAt rd so)
  let strs := ((List.range nsec).find? (fun i => (l.getD i default').type == 9)).getD nsec
  match ofType l 9 with
  | none => none
  | some sec =>
    if fNat rd 0 4 ≠ 0x1A464F5A ∨ fNat rd 4 2 ≠ 1 ∨ fNat rd 6 2 ≠ 2 ∨ fNat rd 10 6 ≠ 0 ∨ fNat rd 32 32 ≠ 0 ∨ kh = 0 ∨
        len < kh + 64 ∨ len < so + 32 * nsec ∨ !l.all (secOk len strs) ∨
        !stringsOk rd sec ∨ !l.all (fun s => nameOk sec s.name && (s.type != 8 || symsOk rd sec nsec s)) ∨
        [1, 2, 3, 5, 6, 8, 9].any (fun t => decide (1 < (l.filter (fun s => s.type == t)).length)) then none
    else readKernel rd kh l sec
where
  /-- an entry that stands for none -/
  default' : Sec := { type := 0, tier := 0, al := 0, foff := 0, size := 0, link := 0, name := 0, z := 0 }

end Sys2Proof.Machine
end

