-- ==== Sys2Proof/Machine/Launch.lean ====
section
/-! DEFINITION. Launches (R251 to R265): loading and its checks, acceptance, initial records, completion, boot mailboxes and
graphs of launches. -/

namespace Sys2Proof.Machine

/-! ### Memory as a dispatcher reaches it -/

/-- The physical bytes of `n` bytes at a virtual address, where every page has the rights (R199). -/
def State.vpas (s : State) (asid va n : Nat) (rights : BitVec 4) : Option (List Nat) :=
  match s.pages asid (va / 4096) rights ((va % 4096 + n + 4095) / 4096) 0 [] 3 [] with
  | .fail _ _ | .marked _ => none
  | .ok _ _ rs => (List.range n).mapM (fun i => locate rs (va % 4096 + i))

/-- The little-endian value of bytes. -/
def State.vnat (s : State) (pas : List Nat) (off n : Nat) : Nat := s.valueAt ((pas.drop off).take n)

/-- A signal VA of a packet or of DONEVA, translated with some rights (R263, R325). The entry covers the signal's 64-byte line
(notes/assumptions/22.md). -/
inductive SigAt where
  | wait
  | fail
  | ok (s : State) (pas : List Nat) (entry : Nat)

/-- Translate a signal VA (R325). -/
def State.signalAt (s : State) (asid va : Nat) (rights : BitVec 4) : SigAt :=
  match s.grant none asid (va / 64 * 64) 64 rights with
  | .wait => .wait
  | .fail _ _ | .event _ _ => .fail
  | .ok t tok => match t.bytesOf tok.entry (va % 64) 8 with
    | some pas => if t.linked pas then .ok t pas tok.entry else .wait
    | none => .fail

/-- A dispatcher's signal operation at system scope, a release of `msg` that passes on what it finds released there (R263, R295, R302,
R303, R325); an addition to bad data takes no operation, and a set reads nothing. -/
def State.signal (s : State) (pas : List Nat) (set : Bool) (v : Word) (msg : List Msg := []) : State :=
  let s0 := (pas.map (· / 64)).eraseDups.foldl (fun t ln => t.pullLine ln) s
  match (if set then (s0, none) else s0.findAll pas) with
  | (t, some _) => t
  | (t, none) =>
    let old := BitVec.ofNat 64 (t.valueAt pas)
    t.homeWrite (pas.zip (leBytes 8 (if set then v else old + v).toNat)) [] { join := true, msg := msg }

/-! ### Images (R251) -/

/-- What the image table gives a launch. -/
inductive Img where
  | wait
  | fail (s : State) (code : Nat)
  | ok (s : State) (n : Nat) (k : Kernel)

/-- Whether a token is valid, or waits on a DRAINING entry. -/
def State.tokenOk (s : State) (t : Token) : Option Bool :=
  if t.entry = 0 then some false
  else match s.judge t with
    | .wait => none
    | .stale => some false
    | .fine _ => some true

/-- The token an image is reached through: after a MOVE, that of its forward entry (R214). -/
def State.imgTok (s : State) (t : Token) : Token :=
  match s.judge t with
  | .fine u => u
  | _ => t

/-- Byte `off` of an image through its token. It is read as the homes hold it (notes/assumptions/52.md). -/
def State.imgByte (s : State) (t : Token) (off : Nat) : Byte :=
  match (s.ent (s.imgTok t).entry).at_ ((s.imgTok t).base * 64 + off) with
  | some pa => s.byte pa
  | none => 0#8

/-- Whether an image's extent holds data that cannot be read (R338): the file then fails its checks. -/
def State.imgMarked (s : State) (t : Token) : Bool :=
  let inn (pa : Nat) : Bool := (s.ent (s.imgTok t).entry).ranges.any (fun r => decide (r.2 ≤ pa) && decide (pa < r.2 + 4096 * r.1))
  s.w.poison.any (fun p => inn p.1) || s.w.hard.any (fun p => inn p.1)

/-- A free place in the image table: one never used, or one whose token is dead. -/
def State.freeImage (s : State) : Option Nat :=
  (List.range 4096).find? (fun n => match (Sparse.get none s.d.images n : Option Image) with
    | none => true
    | some im => s.tokenOk im.tok == some false)

/-- The image of a launch (R251): a valid entry, or one built. -/
def State.imageFor (s : State) (asid va len : Nat) : Img :=
  let found := s.d.images.find? (fun p => match p.2 with
    | some im => im.asid == asid && im.va == va && im.len == len
    | none => false)
  let build (slot : Option Nat) : Img :=
    match s.grant none asid va (4096 * len) (rR ||| rX) with
    | .wait => .wait
    | .fail _ _ => .fail s 2
    | .event t _ => .fail t 2
    | .ok t tok =>
      if t.imgMarked tok then .fail t 3
      else match readImage (t.imgByte tok) (4096 * len) with
        | none => .fail t 3
        | some k => match slot.or s.freeImage with
          | none => .fail t 8
          | some n =>
            let u := if slot = some n then t else t.modAll (fun _ x =>
              if x.code.image = some n then { x with code := { x.code with image := none } } else x)
            let im : Image := { asid := asid, va := va, len := len, tok := tok, kern := k }
            .ok { u with d := { u.d with images := Sparse.set none u.d.images n (some im) } } n k
  match found with
  | some (n, some im) => match s.tokenOk im.tok with
    | none => .wait
    | some true => .ok s n im.kern
    | some false => build (some n)
  | _ => build none

/-! ### The launch record (R253, R254) -/

/-- Word `i` of a launch record. -/
def Launch.w (l : Launch) (i : Nat) : Nat := (l.words.getD i 0#64).toNat

/-- A launch from its words. -/
def Launch.ofWords (ws : List Word) (src : LSrc) (wilgor : Bool) : Launch :=
  let w0 := (ws.getD 0 0#64).toNat
  { st := .loading, src := src, words := ws, wilgor := wilgor, pane := fld w0 40 4, cfirst := fld w0 44 6, cnum := fld w0 50 7,
    asid := fld w0 13 12, pri := fld w0 8 2, priv := wilgor && bit w0 10, tvec := fld w0 25 15 }

/-- Row 1 of R254. -/
def Launch.bad1 (l : Launch) : Bool :=
  fld (l.w 0) 57 7 != 0 || fld (l.w 0) 11 2 != 0 || [2, 3, 4, 6, 7].any (fun i => fld (l.w i) 48 16 != 0) ||
    fld (l.w 11) 32 32 != 0 || fld (l.w 15) 0 56 != 0 || fld (l.w 0) 0 7 != 1 ||
    fld (l.w 1) 0 48 % 4096 != 0 || fld (l.w 2) 0 48 % 8 != 0 || fld (l.w 3) 0 48 % 64 != 0 || fld (l.w 4) 0 48 % 64 != 0 ||
    decide (2 ^ 48 < fld (l.w 1) 0 48 + 4096 * fld (l.w 1) 48 16) || decide (2 ^ 48 < fld (l.w 2) 0 48 + 8)

/-- RINGREC. -/
def Launch.ringrec (l : Launch) : Nat := fld (l.w 5) 0 32

/-- The SPILL channels of a kernel. -/
def Kernel.spills (k : Kernel) : Nat := (k.chans.filter (fun c => c.spill)).length

/-- Rows 3 and 4 of R254: extents, and the fields that must agree with the kernel. -/
def Launch.bad3 (l : Launch) : Bool :=
  let k := l.kern
  let nf := k.widths.length
  (List.range 6).any (fun f =>
    if f < nf then l.extent f == 0 || decide (2 ^ (k.widths.getD f 0) < l.extent f) else l.extent f != 0) ||
    decide (2 ^ 48 < l.groupSize (nf - 1)) ||
    ((l.ringrec == 0) != (k.spills == 0)) || decide (2 ^ 30 ≤ l.ringrec) ||
    (k.frame == 0 && fld (l.w 3) 0 48 != 0) || ((fld (l.w 6) 0 48 == 0) != k.datas.isEmpty) ||
    ((fld (l.w 7) 0 48 == 0) != !k.slots.any (fun t => t.dsec == 0xFF)) ||
    decide (2 ^ 48 < fld (l.w 6) 0 48 + 8 * k.datas.length) ||
    decide (2 ^ 48 < fld (l.w 7) 0 48 + 16 * (k.slots.filter (fun t => t.dsec == 0xFF)).length) ||
    decide (2 ^ 48 < fld (l.w 3) 0 48 + 64 * k.frame) || decide (2 ^ 48 < fld (l.w 4) 0 48 + 64 * k.spills * l.ringrec)

/-- Row 5 of R254 and R347. -/
def State.noCore (s : State) (l : Launch) : Bool :=
  decide (s.cfg.panes ≤ l.pane) || decide (s.cfg.pcores l.pane < l.cfirst + l.cnum) || decide (l.cnum < l.kern.stages.length) ||
    !s.canServe l false

/-- The free queue slots of a pane, lowest first. -/
def State.freeQueues (s : State) (pane : Nat) : List Nat :=
  ((List.range 256).map (pane * 256 + ·)).filter (fun q => (s.queue q).st == 0)

/-- Row 7 of R254 (R271). -/
def Launch.badCo (l : Launch) : Bool :=
  let k := l.kern
  k.colevel != 0xFF && (decide (1 < k.stages.length) || decide (l.cnum < l.groupSize k.colevel) ||
    (decide (0 < k.spills) && decide (l.ringrec < l.groupSize k.colevel)))

/-! ### Loading (R257) -/

/-- What loading a launch gives. -/
inductive Load where
  | wait
  | reject (s : State) (code : Nat)
  | ok (s : State) (l : Launch)

/-- Round up to 64 bytes. -/
def up64 (n : Nat) : Nat := (n + 63) / 64 * 64

/-- The tier a data section asks for (R85). -/
def tierOf (t : Nat) : Option Tier :=
  if t = 1 then some .hbm else if t = 2 then some .lpddr else if t = 3 then some .host else none

/-- Whether two extents share a byte. -/
def extentsMeet (a b : Nat × Nat) : Bool := decide (a.1 < b.1 + b.2) && decide (b.1 < a.1 + a.2)

/-- PLACE 1 (R201, R257): each data section gets an extent of the Wilgor complex's pool, which the manual does not describe: a
free address, aligned as the section asks (R85) and apart from every extent the pool has given in the address space, which must be
mapped for reading and writing in the section's tier, or there is no room (code 7). A section with TIER 0 lies in any tier. The
section's bytes are copied there and the map is written, where its own address translates (else code 2). Where an extent lies, how
long the pool keeps it out of use, and the tier of TIER 0 are (DESIGN CHOICE, notes/assumptions/41.md). -/
def State.placeStatic (s : State) (l : Launch) (img : Token) : Except Nat State :=
  let dmap := fld (l.w 6) 0 48
  let one (acc : Option (State × List (Nat × Nat))) (p : DSec × Nat) : Option (State × List (Nat × Nat)) :=
    acc.bind (fun a =>
      let f := (s.free (512 + p.2)).toNat
      let va := fld f 6 42 * 64 / 2 ^ p.1.al * 2 ^ p.1.al
      if bit f 63 ∨ (a.1.d.placed.filter (fun q => q.1 == l.asid)).any (fun q => extentsMeet (va, p.1.size) q.2) then none
      else match a.1.vpas l.asid va (up64 p.1.size) (rR ||| rW) with
        | none => none
        | some pas =>
          if pas.all (fun a => match tierOf p.1.tier with | some t => s.cfg.tier a == t | none => true) then
            let t := a.1.homeWrite ((pas.take p.1.size).zip ((List.range p.1.size).map (fun i => s.imgByte img (p.1.foff + i))))
            some ({ t with d := { t.d with placed := (l.asid, va, p.1.size) :: t.d.placed } }, a.2 ++ [(va, p.1.size)])
          else none)
  match (l.kern.datas.zip (List.range l.kern.datas.length)).foldl one (some (s, [])) with
  | none => .error 7
  | some (t, vas) => match t.vpas l.asid dmap (8 * vas.length) rW with
    | none => .error 2
    | some pas => .ok (t.homeWrite (pas.zip (vas.flatMap (fun v => leBytes 8 v.1))))

/-- The extents of a launch's token slots, in slot order (R257): none where a map cannot be read, or a map entry's zero field is
not zero. -/
def State.slotExtents (s : State) (l : Launch) : Option (List (TSlot × Nat × Nat)) :=
  let k := l.kern
  let nargs := (k.slots.filter (fun t => t.dsec == 0xFF)).length
  let dm := if k.datas.isEmpty then some [] else s.vpas l.asid (fld (l.w 6) 0 48) (8 * k.datas.length) rR
  let am := if nargs = 0 then some [] else s.vpas l.asid (fld (l.w 7) 0 48) (16 * nargs) rR
  match dm, am with
  | some d, some a =>
    (k.slots.zip (List.range k.slots.length)).mapM (fun p =>
      if p.1.dsec = 0xFF then
        let j := ((k.slots.take p.2).filter (fun t => t.dsec == 0xFF)).length
        some (p.1, fld (s.vnat a (16 * j) 8) 0 48, fld (s.vnat a (16 * j + 8) 8) 0 39)
      else
        let w := s.vnat d (8 * p.1.dsec) 8
        if fld w 48 16 ≠ 0 then none else some (p.1, fld w 0 48, up64 (((k.datas[p.1.dsec]?).map (fun d => d.size)).getD 0)))
  | _, _ => none

/-- What building a launch's tokens gives: a wait, the state in which one of them failed, or all of them. -/
inductive Grants where
  | wait
  | fail (s : State)
  | ok (s : State) (toks : List Token)

/-- Build tokens one after another. -/
def State.grants (s : State) (asid : Nat) : List (Nat × Nat × BitVec 4) → List Token → Grants
  | [], acc => .ok s acc
  | (va, len, rights) :: rest, acc => match s.grant none asid va len rights with
    | .wait => .wait
    | .fail _ _ => .fail s
    | .event t _ => .fail t
    | .ok t tok => t.grants asid rest (acc ++ [tok])

/-- Entries that a rejected launch newly allocated return to FREE with their generations used (R206, R257). -/
def State.unbuild (old new : State) : State :=
  new.pontil.foldl (fun (t : State) p =>
    if p.2.st = .live ∧ ((old.ent p.1).st = .free) then t.setEnt p.1 p.2.freed else t) old

/-- Check a launch and build what it needs (R251, R254, R257), as far as the state before RUNNING. The codes of corners that
R254 leaves open are (DESIGN CHOICE, notes/assumptions/41.md). -/
def State.load (s : State) (l0 : Launch) : Load :=
  let img := match l0.src with
    | .mailbox _ => match (Sparse.get none s.d.images l0.image : Option Image) with
      | some im => Img.ok s l0.image im.kern
      | none => .fail s 8
    | _ => s.imageFor l0.asid (fld (l0.w 1) 0 48) (fld (l0.w 1) 48 16)
  if l0.bad1 then .reject s 1
  else match img with
    | .wait => .wait
    | .fail t c => .reject (s.unbuild t) c
    | .ok s1 n k =>
      let l := { l0 with image := n, kern := k }
      let im : Token := match (Sparse.get none s1.d.images n : Option Image) with | some i => i.tok | none => {}
      if l.bad3 then .reject (s.unbuild s1) 1
      else if s1.noCore l then .reject (s.unbuild s1) 5
      else if (s1.freeQueues l.pane).length < k.chans.length then .reject (s.unbuild s1) 4
      else if l.badCo then .reject (s.unbuild s1) 6
      else match (if k.static ∧ !k.datas.isEmpty then s1.placeStatic l im else .ok s1) with
        | .error code => .reject (s.unbuild s1) code
        | .ok s2 => match s2.slotExtents l with
          | none => .reject (s.unbuild s2) 2
          | some ex =>
            let jobs := (if k.frame = 0 then [] else [(fld (l.w 3) 0 48, 64 * k.frame, rR ||| rW ||| rA)]) ++
              (if k.spills = 0 then [] else [(fld (l.w 4) 0 48, 64 * k.spills * l.ringrec, rR ||| rW)]) ++
              ex.map (fun p => (p.2.1, p.2.2, p.1.rights))
            match s2.grants l.asid jobs [] with
            | .fail s3 => .reject (s.unbuild s3) 2
            | .wait => .wait
            | .ok s3 toks =>
              let nf := if k.frame = 0 then 0 else 1
              let nr := if k.spills = 0 then 0 else 1
              let ring := if nr = 0 then {} else toks.getD nf {}
              let qs := (s3.freeQueues l.pane).take k.chans.length
              let bound := (qs.zip (List.range qs.length)).foldl (fun (t : State) p =>
                let c := k.chans.getD p.2 { spill := false, depth := 1 }
                let before := ((k.chans.take p.2).filter (fun c => c.spill)).length
                let stage := match k.stages.find? (fun g => g.chan == p.2) with | some g => g.num + 1 | none => 0
                t.setQ p.1 { st := 1, owner := s3.d.nextLinst, spill := c.spill, depth := c.depth, pri := l.pri, stage := stage
                             ring := if c.spill then { ring with base := ring.base + before * l.ringrec, len := l.ringrec } else {} }) s3
              .ok bound { l with chans := qs, frame := if nf = 0 then {} else toks.getD 0 {}
                                 slots := (k.slots.map (fun t => t.kreg)).zip (toks.drop (nf + nr))
                                 total := l.groupSize (k.widths.length - 1) }

/-! ### Acceptance (R258, R260, R265) -/

/-- Bytes of BAR0 the device writes. -/
def State.barWrite (s : State) (off : Nat) (l : List Byte) : State :=
  let b := (l.zip (List.range l.length)).foldl (fun (m : Sparse Byte) p => Sparse.set 0#8 m (off + p.2) p.1) s.io.bar
  { s with io := { s.io with bar := b } }

/-- The little-endian value of BAR0 bytes. -/
def State.barNat (s : State) (off n : Nat) : Nat := leNat ((List.range n).map (fun i => Sparse.get 0#8 s.io.bar (off + i)))

/-- Where core `c`'s boot mailbox lies in BAR0 (R318). -/
def mailboxAt (c : Nat) : Nat := 0x200000 + 64 * c

/-- STATE, RESULT and LINST of a boot mailbox (R260). -/
def State.mailbox (s : State) (c st result linst : Nat) : State :=
  s.barWrite (mailboxAt c + 16) (le8 (st + result * 2 ^ 8 + linst * 2 ^ 32))

/-- A graph. -/
def State.graph (s : State) (g : Nat) : Option Graph := Sparse.get none s.d.graphs g
/-- Write a graph. -/
def State.setGraph (s : State) (g : Nat) (v : Option Graph) : State :=
  { s with d := { s.d with graphs := Sparse.set none s.d.graphs g v } }

/-- The physical bytes of `n` bytes of node `k` of a graph, from `off` on. -/
def State.nodePas (s : State) (g : Graph) (k off n : Nat) : List Nat :=
  (s.bytesOf g.tok.entry (g.tok.base * 64 + 64 + 256 * k + off) n).getD []

/-- A number in a node of a graph. -/
def State.nodeNat (s : State) (g : Graph) (k off n : Nat) : Nat := s.valueAt (s.nodePas g k off n)

/-- Write bytes of a node. -/
def State.nodePut (s : State) (g : Graph) (k off : Nat) (l : List Byte) : State :=
  s.homeWrite ((s.nodePas g k off l.length).zip l)

/-- A node goes to SEALED (R264, R265): its launch begins to load. -/
def State.sealNode (s : State) (gn : Nat) (g : Graph) (k : Nat) : State :=
  let ws := (List.range 16).map (fun i => BitVec.ofNat 64 (s.nodeNat g k (8 * i) 8))
  let w15 := (ws.getD 15 0#64).toNat % 2 ^ 56
  let w0 := (ws.getD 0 0#64)
  let l := Launch.ofWords ((ws.take 15).set 0 (setFld w0 7 1 0) ++ [BitVec.ofNat 64 w15]) (.node gn k) false
  let t : State := { s with d := { s.d with loading := Sparse.set {} s.d.loading s.d.nextLid l, nextLid := s.d.nextLid + 1 } }
  match t.graph gn with
  | some v => t.setGraph gn (some { v with live := v.live + 1 })
  | none => t

/-- A ring. -/
def State.ring (s : State) (r : Nat) : Ring := Sparse.get {} s.io.rings r
/-- Write a ring. -/
def State.setRing (s : State) (r : Nat) (v : Ring) : State := { s with io := { s.io with rings := Sparse.set {} s.io.rings r v } }

/-- A packet ends (R327, R330): its journal entry, then HEAD; the slot is freed. -/
def State.packetEnds (s : State) (r pstat result linst type : Nat) : State :=
  let v := s.ring r
  (s.journal r v.head pstat result linst type 0 true).setRing r
    { v with head := (v.head + 1) % 2 ^ 32, cur := none, loading := false, wait := none, met := false, look := true }

/-- SOURCE of the Wilgor complex (R331). -/
def srcWilgor : Nat := 0x4000

/-- Whether the Wilgor complex's access to what a packet field names passes its capability (R328): the manual gives no capability's
length or permissions, so the first field, of those at some byte offsets, whose access does is a free value
(notes/assumptions/50.md). -/
def State.capFault (s : State) (fields : List Nat) : Option Nat := fields.find? (fun f => (s.free (640 + f)).getLsbD 0)

/-- A packet ends with CAP (R327, R328): the fault is journalled with the field's byte offset, before any access. -/
def State.packetCap (s : State) (r f type : Nat) : State := (s.journal srcWilgor 0 0 0 0 0x32 f).packetEnds r 3 0 0 type

/-- What a node of a launch in `pane` that has completed does to its graph (R265). -/
def State.nodeDone (s : State) (gn k result pane : Nat) : State :=
  match s.graph gn with
  | none => s
  | some g =>
    let s0 := s.nodePut g k 133 [BitVec.ofNat 8 result]
    let nsucc := s0.nodeNat g k 132 1
    let s1 :=
      if result ≠ 0 then s0.setGraph gn (some { g with failed := true })
      else (List.range nsucc).foldl (fun (t : State) i =>
        let j := t.nodeNat g k (144 + 2 * i) 2
        let p := t.nodeNat g j 130 2
        let u := t.nodePut g j 130 (leBytes 2 (p - 1))
        match u.graph gn with
        | some v => if p = 1 ∧ v.failed = false then u.sealNode gn g j else u
        | none => u) s0
    match s1.graph gn with
    | none => s1
    | some v =>
      if v.live ≤ 1 then
        let t := (s1.journal (0x3000 + pane) v.idx 0 (if v.failed then 0x10 else 0) 0 0x21 0).setGraph gn none
        let q := t.ring v.ring
        t.setRing v.ring { q with opened := q.opened.filter (· != 2 * gn + 1) }
      else s1.setGraph gn (some { v with live := v.live - 1 })

/-- A node's completion in the order in which a dispatcher handles them (R265): ascending (GTS, source), in creation order within one
source. -/
def insEnd (n : NodeEnd) : List NodeEnd → List NodeEnd
  | [] => [n]
  | x :: l => if n.gts < x.gts ∨ (n.gts = x.gts ∧ n.source < x.source) then n :: x :: l else x :: insEnd n l

/-- A node has completed: its graph is told in its turn (R265). -/
def State.nodeEnds (s : State) (source gn k result pane : Nat) : State :=
  { s with d := { s.d with nodes := insEnd { gts := s.gts0, source := source, graph := gn, node := k, result := result, pane := pane }
                                      s.d.nodes } }

/-- The graphs are told of the nodes that completed before the GTS tick under way (R265): no other of their tick can then follow. -/
def State.handleNodes (s : State) : State :=
  (s.d.nodes.filter (fun n => decide (n.gts < s.gts0))).foldl (fun t n => t.nodeDone n.graph n.node n.result n.pane)
    { s with d := { s.d with nodes := s.d.nodes.filter (fun n => !decide (n.gts < s.gts0)) } }

/-- A launch is answered: accepted with its instance, or rejected with a code (R258, R259, R260, R265). The interface has no field for
the record that an image fails by (R83): DETAIL is 0. A node's entry, and that, are (DESIGN CHOICE, notes/assumptions/42.md). -/
def State.answer (s : State) (l : Launch) (result linst : Nat) : State :=
  match l.src with
  | .window slot =>
    let t := s.journal (0x1000 + slot) slot 0 result linst 0x10 0
    let w := leBytes 8 (linst + result * 2 ^ 40)
    let win := (w.zip (List.range 8)).foldl (fun (m : Sparse Byte) p => Sparse.set 0#8 m (128 * slot + 120 + p.2) p.1) t.io.window
    { t with io := { t.io with window := win, sealed := t.io.sealed.filter (· != slot) } }
  | .mailbox c =>
    (s.journal (0x2000 + c) c 0 result linst 0x11 0).mailbox c (if result = 0 then 1 else 3) result linst
  | .ring r _ =>
    let t := s.packetEnds r 0 result linst 1
    if result = 0 then t.setRing r { t.ring r with opened := 2 * linst :: (t.ring r).opened } else t
  | .node gn k =>
    match s.graph gn with
    | none => s
    | some g =>
      let t := (s.journal g.ring g.idx 0 result linst 1 0).nodePut g k 136 (leBytes 4 linst)
      if result = 0 then t else t.nodeEnds g.ring gn k result l.pane

/-- A launch that has been read is checked at once; unless it is rejected it is LOADING (R258, R263). -/
def State.beginLoad (s : State) (l : Launch) : State :=
  match s.load l with
  | .reject t code => t.answer l code 0
  | _ => { s with d := { s.d with loading := Sparse.set {} s.d.loading s.d.nextLid l, nextLid := s.d.nextLid + 1 } }

/-- The words of a launch-window slot. -/
def State.slotWords (s : State) (slot : Nat) : List Word :=
  leWords 16 ((List.range 128).map (fun i => Sparse.get 0#8 s.io.window (128 * slot + i)))

/-- The line monitor sees 0x5A stored to byte 127 of a slot (R258): it reads the slot's 128 bytes as they then stand. A slot whose
acceptance is still to be written is ignored. `wilgor` says whether the Wilgor complex made the store (R99). -/
def State.sealSlot (s : State) (slot : Nat) (wilgor : Bool) : State :=
  if 4096 ≤ slot ∨ s.io.sealed.contains slot then s
  else { s with io := { s.io with sealed := slot :: s.io.sealed, sealing := s.io.sealing ++ [(slot, wilgor, s.slotWords slot)] } }

/-- R258: the dispatcher acts on a seal that the line monitor has seen. -/
def execLaunchSeal (slot : Nat) (s : State) : Out :=
  match s.io.sealing.find? (fun p => p.1 == slot) with
  | none => .next s
  | some p =>
    let t : State := { s with io := { s.io with sealing := s.io.sealing.filter (fun q => q.1 != slot) } }
    .next (t.beginLoad (Launch.ofWords p.2.2 (.window slot) p.2.1))

/-- The next launch instance: they wrap from 2³² − 1 to 1 (R258). -/
def nextInst (n : Nat) : Nat := if n + 1 = 2 ^ 32 then 1 else n + 1

/-! ### Initial records (R255) -/

/-- The work identifier of initial record `k`. -/
def Launch.workId (l : Launch) (k : Nat) : Nat :=
  ((List.range l.kern.widths.length).foldl (fun (acc : Nat × Nat × Nat) f =>
    let e := max (l.extent f) 1
    (acc.1 + acc.2.1 % e * 2 ^ acc.2.2, acc.2.1 / e, acc.2.2 + l.kern.widths.getD f 0)) (0, k, 0)).1

/-- Initial record `k` of a launch. -/
def Launch.initial (l : Launch) (k : Nat) : Rec :=
  let entry := ((l.kern.stages.find? (fun g => g.num == 0)).map (fun g => g.entry)).getD 0
  { w0 := BitVec.ofNat 64 (entry + l.image * 2 ^ 32 + l.pri * 2 ^ 56), w1 := BitVec.ofNat 64 (l.workId k), w2 := l.frame.word,
    w3 := if l.frame.entry = 0 then 0#64 else BitVec.ofNat 64 (l.kern.frame * 2 ^ 32), w4 := l.words.getD 8 0#64,
    w5 := l.words.getD 9 0#64, w6 := l.words.getD 10 0#64, w7 := BitVec.ofNat 64 (l.linst * 2 ^ 32 + fld (l.w 11) 0 32) }

/-- The next initial record of a running launch is pushed to stage 0's input once the one before is placed, one a clock; it reaches the
queue on its own clock. -/
def State.initialPush (s : State) (linst : Nat) : State :=
  let l := s.launch linst
  match l.input 0 with
  | none => s
  | some q =>
    let v := s.queue q
    let pending := (v.arrive ++ v.stalled).any (fun r => match r.op with | .push _ i => i | _ => false)
    if l.st ≠ .running ∨ l.total ≤ l.pushed ∨ l.pushAt = s.now + 1 ∨ pending then s
    else
      (s.setQ q { v with arrive := v.arrive ++
        [{ core := 1024 + l.pane, ctx := 0, id := 0, op := .push (l.initial l.pushed) true, clk := s.now }] }).setLaunch linst
          { l with pushed := l.pushed + 1, pushAt := s.now + 1 }

/-- R255: the event of one such push. -/
def execInitialRecordPush (linst : Nat) (s : State) : Out := .next (s.initialPush linst)

/-- R263: a loading launch whose image, tokens, channels and cores are in place is RUNNING: it has its instance, its cores
take their stages (R256), the Gaffer's interval starts (R267), and its first initial record reaches its queue (R255). -/
def execLaunchRunning (lid : Nat) (s : State) : Out :=
  match s.d.loading.find? (fun p => p.1 == lid) with
  | none => .next s
  | some (_, l) =>
    let drop (t : State) : State := { t with d := { t.d with loading := Sparse.set {} t.d.loading lid {} } }
    match s.load l with
    | .wait => .next s
    | .reject t code => .next ((drop t).answer l code 0)
    | .ok t v =>
      let n := t.d.nextLinst
      let ns := v.kern.stages.length
      let assign := (List.range v.cnum).foldl (fun (m : Sparse Nat) j =>
        Sparse.ins m (v.cfirst + j) (if j < v.cnum - (ns - 1) then 0 else j + ns - v.cnum)) []
      let u := drop (t.setLaunch n { v with
        st := .running, linst := n, assign := assign, gbegin := s.now, glen := Sparse.get 4096 t.d.gint v.pane })
      let w := (({ u with d := { u.d with nextLinst := nextInst n } }).answer l 0 n).initialPush n
      .next (match (w.launch n).input 0 with
        | some q => w.resolve q
        | none => w)

/-! ### Completion (R263) -/

/-- Whether a launch may complete. -/
def State.finished (s : State) (n : Nat) : Bool :=
  let l := s.launch n
  (l.st == .running && l.pushed == l.total && s.live n == 0) ||
    (l.st == .failing && s.runningOf n == 0)

/-- A retired launch gives up its queues, saved tasks, accumulators, parked continuations, barriers and engine (R223, R263,
R355). -/
def State.retire (s : State) (n : Nat) : State :=
  let l := s.launch n
  let saves := (s.d.lists.filter (fun p => p.2.valid && p.2.linst == n)).map Prod.fst
  let t := saves.foldl (fun (t : State) k => (t.freeZ (Sparse.get {} t.d.lists k : SaveE).uid).freeSave k) s
  let u := l.chans.foldl (fun (t : State) q => t.setQ q {}) t
  let v := u.modAll (fun _ x => if x.popAt ≠ 0 ∧ l.chans.contains (x.popAt - 1) then { x with popAt := 0 } else x)
  let w : State := { v with d := { v.d with
    bars := v.d.bars.filter (fun b => b.linst != n)
    parked := (v.d.parked.map (fun p => (p.1, p.2.filter (fun k => k.r.linst != n)))).filter (fun p => p.2 != [])
    rels := (v.d.rels.map (fun p => (p.1, p.2.filter (fun k => match k.rel with
      | .table r _ _ => r.linst != n
      | .ring _ _ _ _ => true)))).filter (fun p => p.2 != []) } }
  let um := w.umOf l.pane
  let y := if um.st ≠ .free ∧ um.owner = n then w.setUm l.pane { order := um.order } else w
  ({ y with msgs := Sparse.set [] y.msgs (launchKey n) [] } : State).setLaunch n { l with st := .done, assign := [], reserved := [], move := none }

/-- A launch that has finished completes: DONEVA is signalled, the journal written, its mailbox, ring and graph told, and it retires. A
signal that fails is left out (DESIGN CHOICE, notes/assumptions/42.md). -/
def State.launchDone (s : State) (linst : Nat) : State :=
  let l := s.launch linst
  if !s.finished linst then s
  else
    let result := if l.st = .failing then l.result else 0
    let go (t : State) : State :=
      let t1 := (t.journal (0x3000 + l.pane) 0 0 result linst 0x20 0).retire linst
      match l.src with
      | .mailbox c => t1.mailbox c (if result = 0 then 2 else 3) result linst
      | .ring r _ => t1.setRing r { t1.ring r with opened := (t1.ring r).opened.filter (· != 2 * linst) }
      | .node gn k => t1.nodeEnds (0x3000 + l.pane) gn k result l.pane
      | .window _ => t1
    let va := fld (l.w 2) 0 48
    if va = 0 then go s
    else match s.signalAt l.asid va (rW ||| rA) with
      | .wait => s
      | .fail => go s
      | .ok t pas _ => go (t.signal pas false (BitVec.ofNat 64 (fld (l.w 5) 32 32)) (Sparse.get [] t.msgs (launchKey linst)))

/-- R263: a launch completes. -/
def execLaunchDone (linst : Nat) (s : State) : Out := .next (s.launchDone linst)

/-- The dispatchers of the first `n` panes complete what has finished, in ascending pane and launch instance (R265, R331). That all of a
clock's are completed on it is (DESIGN CHOICE, notes/assumptions/43.md). -/
def State.completions (s : State) (n : Nat) : State :=
  (List.range n).foldl (fun t p =>
    ((t.d.launches.filter (fun q => q.2.pane == p)).map Prod.fst).foldl (fun t k => t.launchDone k) t) s

/-! ### Boot mailboxes (R260) -/

/-- R260: a DOOR write, made when STATE was 0, 2 or 3, starts a launch on the mailbox's own core. -/
def execBootDoor (c : Nat) (s : State) : Out :=
  let at' := mailboxAt c
  if !s.io.doors.contains c then .next s
  else
    let t : State := { s with io := { s.io with doors := s.io.doors.filter (· != c) } }
    if s.cfg.total ≤ c then .next t
    else
      let w0 := s.barNat at' 8
      let img := fld w0 0 12
      let asid := fld w0 12 12
      let fail (code : Nat) : Out := .next ((t.journal (0x2000 + c) c 0 code 0 0x11 0).mailbox c 3 code 0)
      if fld w0 24 40 ≠ 0 then fail 1
      else match (Sparse.get none s.d.images img : Option Image) with
        | none => fail 8
        | some im =>
          let k := im.kern
          let one (f : Nat) : Nat := if f < k.widths.length then 1 else 0
          if s.tokenOk im.tok = none then .next s
          else if im.asid ≠ asid ∨ s.tokenOk im.tok = some false then fail 8
          else if k.stages.length ≠ 1 ∨ k.chans.length ≠ 1 ∨ k.spills ≠ 0 ∨ k.frame ≠ 0 ∨ !k.datas.isEmpty ∨
              k.slots.any (fun x => x.dsec == 0xFF) then fail 1
          else
            let ws : List Word := [BitVec.ofNat 64 (1 + asid * 2 ^ 13 + s.cfg.paneOf c * 2 ^ 40 + s.cfg.pcoreOf c * 2 ^ 44 + 2 ^ 50),
              0#64, 0#64, 0#64, 0#64, 0#64, 0#64, 0#64, BitVec.ofNat 64 (s.barNat (at' + 8) 8), 0#64, 0#64, 0#64,
              BitVec.ofNat 64 (one 0 + one 1 * 2 ^ 32), BitVec.ofNat 64 (one 2 + one 3 * 2 ^ 32),
              BitVec.ofNat 64 (one 4 + one 5 * 2 ^ 32), 0#64]
            .next (t.beginLoad { Launch.ofWords ws (.mailbox c) false with image := img })

/-! ### Graphs (R264) -/

/-- Remove nodes with no predecessor left, as often as there are nodes: what stays lies on a cycle (R264). -/
def peel (succ : Nat → List Nat) : Nat → List Nat → List Nat
  | 0, l => l
  | n + 1, l =>
    let rest := l.filter (fun k => l.any (fun j => (succ j).contains k))
    if rest.length = l.length then l else peel succ n rest

/-- Whether a graph table breaks a rule of R264. -/
def State.graphBad (s : State) (g : Graph) (head : List Nat) : Bool :=
  let ns := List.range g.nnode
  let nsucc (k : Nat) : Nat := s.nodeNat g k 132 1
  let ent (k i : Nat) : Nat := s.nodeNat g k (144 + 2 * i) 2
  let succ (k : Nat) : List Nat := (List.range (min 56 (nsucc k))).map (ent k)
  fld (s.vnat head 0 8) 0 16 != 1 || fld (s.vnat head 0 8) 32 32 != 0 || (head.drop 8).any (fun pa => s.byte pa != 0#8) ||
    g.nnode == 0 ||
    ns.any (fun k =>
      decide (56 < nsucc k) || s.nodeNat g k 134 2 != 0 || s.nodeNat g k 140 4 != 0 ||
      (run (nsucc k) (56 - nsucc k)).any (fun i => ent k i != 0) ||
      (succ k).any (fun j => decide (g.nnode ≤ j)) || !noDup (succ k) ||
      s.nodeNat g k 128 2 != (ns.filter (fun j => (succ j).contains k)).length) ||
    !(peel succ g.nnode ns).isEmpty

end Sys2Proof.Machine
end

