-- ==== Sys2Proof/Machine/Sched.lean ====
section
/-! DEFINITION. Scheduling (R252, R261, R266 to R275, R308, R346): how an idle core takes its next record, how a task starts, groups
and pairs, urgent stops, the Gaffer, forced publishes and the record of a broken ITERBOUND promise. -/

namespace Sys2Proof.Machine

/-! ### Choosing (R272, R273) -/

/-- The running launches whose range covers a core. -/
def State.launchesOf (s : State) (c : Nat) : List (Nat × Launch) :=
  s.d.launches.filter (fun p => p.2.st == .running && p.2.pane == s.cfg.paneOf c &&
    decide (p.2.cfirst ≤ s.slotOf c) && decide (s.slotOf c < p.2.cfirst + p.2.cnum))

/-- A core's candidate queues (R273). -/
def State.candidates (s : State) (c : Nat) : List Nat :=
  (s.launchesOf c).filterMap (fun p => p.2.input (s.stageOf p.2 c))

/-- Whether a saved task belongs to a co-resident group (R272, R273). -/
def State.coSaved (s : State) (e : SaveE) : Bool := e.initial && (s.launch e.linst).kern.colevel != 0xFF

/-- A core's resume list (R273): keys of the saved-context lists. -/
def State.resumes (s : State) (c : Nat) : List Nat :=
  (s.d.lists.filter (fun p => p.2.valid && p.2.mcore == c && (s.launch p.2.linst).st == .running && !s.coSaved p.2)).map Prod.fst

/-- One candidate of R273: its PRI, since when it has stood, a tie number, and what taking it means. -/
structure Cand where
  pri : Nat
  since : Nat
  tie : Nat
  what : Nat ⊕ Nat

/-- The candidates whose head a core may take now, and its resume entries (R273). -/
def State.cands (s : State) (c : Nat) : List Cand :=
  ((s.candidates c).filterMap (fun q => match (s.queue q).items with
    | .here r i n _ :: _ => if s.mayDispatch c r i then some { pri := (s.queue q).pri, since := n, tie := q + 1, what := .inl q } else none
    | _ => none)) ++
  (s.resumes c).map (fun k => { pri := k / 1024 % 4, since := (Sparse.get {} s.d.lists k : SaveE).savedAt + 1, tie := 0, what := .inr k })

/-- The oldest of some candidates; ties go to resume entries, then to the lower queue number. -/
def oldestCand : List Cand → Option Cand
  | [] => none
  | x :: l => some (l.foldl (fun b d => if d.since < b.since ∨ (d.since = b.since ∧ d.tie < b.tie) then d else b) x)

/-- Withdraw a core's dispatch pop. -/
def State.dropPop (s : State) (c : Nat) : State :=
  let f (l : List QReq) : List QReq := l.filter (fun r => r.core != c || r.op != .dispatch)
  ({ s with queues := s.queues.map (fun (p : Nat × Queue) => (p.1, { p.2 with pops := f p.2.pops, arrive := f p.2.arrive })) }).mod c
    (fun x => { x with popAt := 0 })

/-- `choose` of R273 from candidates `l` that are not empty, with AGECNT `n` and AGE.COUNT `age`: the choice and AGECNT after it. -/
def chooseCand (l : List Cand) (n age : Nat) : Option Cand × Nat :=
  let top := (l.map (fun x => x.pri)).foldl max 0
  let low := l.filter (fun x => decide (x.pri < top))
  if age ≤ n ∧ !low.isEmpty then (oldestCand low, 0)
  else (oldestCand (l.filter (fun x => x.pri == top)), if low.isEmpty then n else n + 1)

/-- The dispatch pop of a core; `n` is 1 where the dispatcher has decided it, 0 where it goes straight to its one queue (R273). -/
def popOf (c n : Nat) : QReq := { core := c, ctx := 0, id := n, op := .dispatch }

/-- A decided pop goes ahead of every other, those of one clock in ascending core number (R226, R273). -/
def insPop (r : QReq) : List QReq → List QReq
  | [] => [r]
  | x :: l => if x.op = .dispatch ∧ x.id = 1 ∧ x.core < r.core then x :: insPop r l else r :: x :: l

/-- Whether a core's straight pop is on its way to, or waits in, a queue. -/
def State.straight (s : State) (c q : Nat) : Bool :=
  ((s.queue q).pops ++ (s.queue q).arrive).any (fun r => r.core == c && r.op == .dispatch && r.id == 0)

/-- The dispatcher's decision for core `c` from what stands now: its pop is resolved on the next clock, and a resume entry is taken. -/
def State.choosePop (s : State) (c : Nat) : State :=
  match s.cands c with
  | [] => s
  | l =>
    let p := chooseCand l (s.core c).agecnt (Sparse.get 8 s.d.age (s.cfg.paneOf c))
    let u := s.mod c (fun x => { x with agecnt := p.2 })
    match p.1 with
    | none => u
    | some k => match k.what with
      | .inl q => (u.setQ q { u.queue q with pops := insPop (popOf c 1) (u.queue q).pops }).mod c (fun x => { x with popAt := q + 1 })
      | .inr e => u.mod c (fun x => { x with taken := some (.resume (e / 1024) (e % 1024)) })

/-- The dispatcher finds an idle core its next record or resume entry, once a clock: a core with one candidate queue and no saved task
pops straight into it; for any other it decides, and what it decided before is withdrawn. A quarantined core takes no record and resumes
its saved tasks (R345, notes/assumptions/60.md); a donor moves first (R269). -/
def State.dispatch (s : State) (c : Nat) : State :=
  let qs := if s.restricted c then [] else s.candidates c
  if s.halted ∨ !s.idleCore c ∨ s.reservedCore c ∨ s.isDonor c ∨ (s.core c).decided = s.now + 1 then s
  else
    let t := s.mod c (fun x => { x with decided := s.now + 1 })
    match qs, s.resumes c with
    | [q], [] =>
      if t.straight c q then t
      else ((t.dropPop c).request q (popOf c 0)).mod c (fun x => { x with popAt := q + 1 })
    | _, _ => (t.dropPop c).choosePop c

/-- R273: the event of one such decision. -/
def execTaskDispatch (c : Nat) (s : State) : Out := .next (s.dispatch c)

/-! ### Groups and pairs (R272, R346) -/

/-- The records of the group or pair at the head of a queue: how many cores it needs, and its records where all are present. -/
def Launch.headGroup (l : Launch) (items : List QItem) : Option (Nat × Option (List (Rec × List (Nat × Nat)))) :=
  match items with
  | .here r i _ b :: _ =>
    if r.redundant then some (2, some [(r, b), (r, b)])
    else if i ∧ l.kern.colevel ≠ 0xFF then
      let n := l.groupSize l.kern.colevel
      let l' := (items.take n).filterMap (fun k => match k with
        | .here r true _ b => some (r, b)
        | _ => none)
      some (n, if l'.length = n then some l' else none)
    else none
  | _ => none

/-- The cores a launch reserves, in ascending number, as they are IDLE (R272); a pair's second core is wired to another Marver
(R346). One that may no longer take the group is let go (R345). -/
def State.reserve (s : State) (l : Launch) (pair : Bool) (n : Nat) : List Nat :=
  let fit (c : Nat) : Bool := s.idleCore c && (pair || !s.restricted c)
  (s.range l).foldl (fun (acc : List Nat) c =>
    if acc.length < n ∧ !acc.contains c ∧ fit c ∧ !(s.d.launches.any (fun p => p.1 != l.linst && p.2.reserved.contains c)) ∧
        (!pair || acc.all (fun d => s.cfg.marver d != s.cfg.marver c)) then acc ++ [c]
    else acc) (l.reserved.filter fit)

/-- Insert a core in ascending order. -/
def insNat (n : Nat) : List Nat → List Nat
  | [] => [n]
  | x :: l => if n ≤ x then n :: x :: l else x :: insNat n l

/-- Reserve for, and deliver, the group or pair at the head of stage 0's input of a launch (R272), or the pair at the head of any
stage's (R346). -/
def State.deliverGroup (s : State) (linst q : Nat) : State :=
  let l := s.launch linst
  match l.headGroup (s.queue q).items with
  | none => s
  | some (n, recs) =>
    let pair := match (s.queue q).items with | .here r _ _ _ :: _ => r.redundant | _ => false
    let rs := s.reserve l pair n
    let t := rs.foldl (fun (t : State) c => t.dropPop c) (s.setLaunch linst { l with reserved := rs })
    match recs with
    | none => t
    | some rl =>
      if rs.length < n then t
      else
        let cs := rs.foldl (fun a c => insNat c a) []
        let used := if pair then 1 else n
        let u := t.setQ q ({ t.queue q with items := (t.queue q).items.drop used }.noteHead s.now)
        let v := (cs.zip rl).foldl (fun (t : State) p =>
          t.mod p.1 (fun x => { x with taken := some (.fresh p.2.1 (!pair)
            (if pair then cs.find? (· != p.1) else none) p.2.2), popAt := 0 })) u
        v.setLaunch linst { v.launch linst with reserved := [] }

/-- The saved members of a co-resident group, when every core of them is IDLE, and no member is on its way to a save (R272). -/
def State.groupResumes (s : State) (linst : Nat) : List Nat :=
  let l := s.launch linst
  let lvl := l.kern.colevel
  let grp (key : Nat) : Nat :=
    l.groupOf lvl (BitVec.ofNat 64 (s.memNat (s.areaOf key + 0x48) 8))
  let keys := (s.d.lists.filter (fun p => p.2.valid && p.2.linst == linst && s.coSaved p.2)).map Prod.fst
  let stopping (g : Nat) : Bool := s.cores.any (fun p => match p.2.task with
    | some t => t.linst == linst && t.initial && l.groupOf lvl t.r.w1 == g && (p.2.q.stop || p.2.q.st == .stopping)
    | none => false)
  keys.filter (fun k => !stopping (grp k) &&
    keys.all (fun j => grp j != grp k || s.idleCore (Sparse.get {} s.d.lists j : SaveE).mcore))

/-- A saved member of a group takes its core, which may have been reserved for a group to come (R272). -/
def State.takeBack (s : State) (key : Nat) : State :=
  let c := (Sparse.get {} s.d.lists key : SaveE).mcore
  let t : State := { s with d := { s.d with
    launches := s.d.launches.map (fun p => (p.1, { p.2 with reserved := p.2.reserved.filter (· != c) })) } }
  (t.dropPop c).mod c (fun x => { x with taken := some (.resume (key / 1024) (key % 1024)) })

/-- A pane's dispatcher resumes the saved members of a group together, then reserves cores for the groups and pairs at the heads of its
queues and delivers the complete ones (R272, R346). -/
def State.groupDeliver (s : State) (pane : Nat) : State :=
  let ls := (s.d.launches.filter (fun p => p.2.st == .running && p.2.pane == pane)).map Prod.fst
  if s.halted then s
  else
    let t := ls.foldl (fun (t : State) n => (t.groupResumes n).foldl State.takeBack t) s
    ls.foldl (fun (t : State) n => (t.launch n).kern.stages.foldl (fun (u : State) g =>
      match (u.launch n).input g.num with
      | some q => u.deliverGroup n q
      | none => u) t) t

/-- R272, R346: the event of it. -/
def execGroupDeliver (pane : Nat) (s : State) : Out := .next (s.groupDeliver pane)

/-! ### Task start (R252, R261) -/

/-- The microprogram records of an image's wcs section. -/
def wcsOf (rd : Nat → Byte) (k : Kernel) : List (Nat × Nat × Nat) := (wcsRecs rd k.wcsOff k.wcsLen 64 0).getD []

/-- Load an image, or, where it is loaded, the named slots that `wcsld` has written since (R165, R252). It leaves no mark
(notes/assumptions/51.md). -/
def Code.load (x : Code) (n : Nat) (rd : Nat → Byte) (k : Kernel) : Code :=
  let word (off w : Nat) : Nat := fNat rd off w
  let slots (y : Code) (all : Bool) : Code :=
    (wcsOf rd k).foldl (fun (y : Code) p =>
      if all ∨ y.wmark.contains p.2.1 then
        y.setSlot p.2.1 (wcsWords ((List.range (40 + 16 * p.2.2)).map (fun i => rd (k.wcsOff + p.1 + i))) p.2.2) false
      else y) y
  if x.image = some n then slots x false
  else
    slots { x with
      image := some n, ctlLen := k.ctlLen, vecLen := k.vecLen, bad := []
      ctl := (List.range k.ctlLen).foldl (fun (m : Sparse Word) i =>
        Sparse.set 0#64 m i (BitVec.ofNat 64 (word (k.ctlOff + 8 * i) 8))) []
      vec := (List.range k.vecLen).foldl (fun (m : Sparse VWordBits) i =>
        Sparse.set 0#128 m i (BitVec.ofNat 128 (word (k.vecOff + 16 * i) 16))) [] } true

/-- The registers of a task start (R23, R100, R237, R241, R261); what is kept keeps its marks (R338). -/
def Core.taskStart (x : Core) (now : Nat) (t : Task) (l : Launch) (keepV : Bool) : Core :=
  let r := t.r
  let s0 := Sparse.keep (fun k _ => decide (64 ≤ k)) x.r.s
  let k0 := Sparse.keep (fun k _ => decide (32 ≤ k)) x.r.k
  let bad := Sparse.keep (fun g _ => (decide (64 ≤ g) && decide (g < 256)) || (decide (kGran 1 0 ≤ g) && decide (g < vGran 0 0)) ||
    (keepV && decide (vGran 0 0 ≤ g) && decide (g < pGran 0))) x.r.bad
  let y : Core :=
    { x with
      taken := none, task := some t, wins := []
      r := { s := s0, k := k0, v := if keepV then x.r.v else [], p := [], sm := [], km := [], vm := [], masks := [], bad := bad }
      c := { x.c with fpcr := 0#4, fpsr := 0#6, kstat := 0#64, tvec := l.tvec, rows := 1
                      stage := BitVec.ofNat 64 (l.linst * 2 ^ 32 + r.stage % 64), prio := l.pri, lsd := [], lso := [] }
      q := { st := .running, priv := l.priv, pc := r.entry, nid := x.q.nid, pointAt := now, lastH := x.q.lastH
             clockAt := x.q.clockAt, hrun := x.q.hrun }
      v := {}
      e := {}
      busyAt := now }
  let z := [(1, r.w1), (2, r.w4), (3, r.w5), (4, BitVec.ofNat 64 (fld r.w7.toNat 0 32)), (5, BitVec.ofNat 64 (fld r.w7.toNat 32 32))]
  let w := z.foldl (fun (x : Core) p => x.wrS 0 p.1 p.2) y
  l.slots.foldl (fun (x : Core) p => x.wrK 0 p.1 p.2) w

/-- Start the task of a record on a core: k1 is checked as on restore, and the slots' entries hold the core (R206, R261). The pop that
took the record is an acquire (R229), and an initial record's task observes what its launch came after (R265). -/
def State.startTask (s : State) (c : Nat) (r : Rec) (initial : Bool) (partner : Option Nat) : State :=
  let l := s.launch r.linst
  let t : Task := { uid := s.d.nextTask, r := r, linst := r.linst, initial := initial, partner := partner }
  let keepV := match (s.core c).lastAsid with
    | some a => a == l.asid
    | none => true
  let s1 := ({ s with d := { s.d with nextTask := s.d.nextTask + 1 } }).mod c (fun x => x.taskStart s.now t l keepV)
  let s2 := l.slots.foldl (fun (u : State) p => u.holdBit p.2.entry c) s1
  let p := s2.arrives c r.frame
  let u := p.1.mod c (fun x => x.wrK 0 1 p.2)
  let v := if initial then u.upToNow c 0 else u
  match l.input r.stage with
  | some q => v.takePushed q c 0
  | none => v

/-- A record that carries a mark faults its task with CONTAIN as it starts (R338). -/
def State.startBad (s : State) (c : Nat) (bad : List (Nat × Nat)) : State :=
  (s.contain c 0 (recordEvent bad).1 0 (recordEvent bad).2 0 (s.core c).q.nid false 3).mod c (fun x =>
    match x.q.late.getLast? with
    | some l => { x with c := { x.c with tcause := BitVec.ofNat 64 causeContain, tinfo := l.info }
                         q := { x.q with st := .faulted, late := [] } }
    | none => x)

/-- The token of an image. -/
def State.imageTok (s : State) (n : Nat) : Option (Token × Kernel) :=
  (Sparse.get none s.d.images n : Option Image).map (fun im => (im.tok, im.kern))

/-- Load the code a task needs on a core; none where the image's token waits, and no state where it is dead. A core that has
loaded the image and need rewrite no slot reads nothing (R252). (DEDUCED, notes/assumptions/58.md). -/
def State.loadCode (s : State) (c n : Nat) : Option (Option State) :=
  match s.imageTok n with
  | none => some none
  | some (t, k) =>
    if (s.core c).code.image = some n ∧ k.wcs.all (fun w => !(s.core c).code.wmark.contains w) then some (some s)
    else match s.tokenOk t with
    | none => none
    | some false => some none
    | some true => some (some (s.mod c (fun x => { x with code := x.code.load n (s.imgByte t) k })))

/-- An urgent stop is no longer outstanding once its core takes work again (R275). -/
def State.urgentOver (s : State) (c : Nat) : State :=
  { s with queues := s.queues.map (fun (p : Nat × Queue) => (p.1, if p.2.urgent = c + 1 then { p.2 with urgent := 0 } else p.2)) }

/-- R261, R273: a core checks the record it has taken and starts its task, or resumes a saved one. A record whose launch no
longer runs is dropped; one that fails its check fails the launch. -/
def execTaskStart (c : Nat) (s : State) : Out :=
  let x := s.core c
  let drop (t : State) : State := t.mod c (fun x => { x with taken := none })
  if s.halted then .next s
  else match x.taken with
    | none => .next s
    | some (.fresh r initial partner bad) =>
      let l := s.launch r.linst
      if l.st ≠ .running then .next (drop s)
      else if r.image ≠ l.image ∨ l.kern.ctlLen ≤ r.entry then .next ((drop s).fail r.linst 0x11)
      else match s.loadCode c l.image with
        | none => .next s
        | some none => .next ((drop s).fail r.linst 0x11)
        | some (some t) =>
          let u := (t.startTask c r initial partner).urgentOver c
          .next (if bad = [] then u else u.startBad c bad)
    | some (.resume list idx) =>
      let key := list * 1024 + idx
      let e : SaveE := Sparse.get {} s.d.lists key
      if e.valid = false ∨ (s.launch e.linst).st ≠ .running then .next (drop s)
      else match s.loadCode c (s.launch e.linst).image with
        | none => .next s
        | some none => .next ((drop s).fail e.linst 0x11)
        | some (some t) => match (t.urgentOver c).resumeSaved c key with
          | some u => .next u
          | none => .next s

/-! ### Urgent records (R275) -/

/-- GINT of a pane. -/
def State.gintOf (s : State) (pane : Nat) : Nat := Sparse.get 4096 s.d.gint pane

/-- A record of PRI 3 that has been the head for GINT.INTERVAL clocks while no candidate core was IDLE stops the candidate whose
task has the lowest PRI below 3, outside a co-resident group; of equals the highest number. -/
def State.urgentStop (s : State) (qn : Nat) : State :=
  let q := s.queue qn
  let l := s.launch q.owner
  match q.items with
  | .here r _ since _ :: _ =>
    let cs := (s.range l).filter (fun c => l.input (s.stageOf l c) == some qn)
    let mine (c : Nat) : Bool := match (s.core c).task with
      | some t => (s.core c).q.st == .running && decide ((s.core c).c.prio < 3) &&
          !(t.initial && (s.launch t.linst).kern.colevel != 0xFF)
      | none => false
    let out := q.urgent != 0 && (s.core (q.urgent - 1)).q.st != .idle
    let busy (c : Nat) : Bool := (s.core c).q.st != .idle && decide ((s.core c).busyAt + s.gintOf (qn / 256) ≤ s.now)
    if r.pri ≠ 3 ∨ since = 0 ∨ s.now < since - 1 + s.gintOf (qn / 256) ∨ !cs.all busy ∨ l.st ≠ .running ∨ out then s
    else match cs.filter mine with
      | [] => s
      | c :: rest =>
        let best := rest.foldl (fun b d => if (s.core d).c.prio ≤ (s.core b).c.prio then d else b) c
        (s.setQ qn { q with urgent := best + 1 }).mod best Core.requestStop
  | _ => s

/-- R275: the event of it. -/
def execUrgentStop (pane slot : Nat) (s : State) : Out := .next (s.urgentStop (pane * 256 + slot))

/-! ### The Gaffer (R267 to R269) -/

/-- The pressures of a launch's stages, in stage order (R228, R268). -/
def State.pressures (s : State) (l : Launch) : List Nat :=
  (List.range l.nstage).map (fun g => match l.input g with
    | some q => (s.queue q).occ
    | none => 0)

/-- The move the Gaffer makes pending (R268). -/
def State.gafferPick (s : State) (l : Launch) : Option (Nat × Nat) :=
  let p := s.pressures l
  let g (i : Nat) : Nat := p.getD i 0
  let hi := (List.range l.nstage).foldl (fun b i => if g b < g i then i else b) 0
  match (List.range l.nstage).filter (fun i => decide (2 ≤ (s.assigned l i).length)) with
  | [] => none
  | a :: rest =>
    let lo := rest.foldl (fun b i => if g i < g b then i else b) a
    if lo ≠ hi ∧ Sparse.get 32 s.d.gthr l.pane + g lo ≤ g hi then some (lo, hi) else none

/-- On the last clock of an interval the Gaffer samples a launch, and the next interval begins. -/
def State.gafferSample (s : State) (linst : Nat) : State :=
  let l := s.launch linst
  if l.st ≠ .running ∨ s.now + 1 ≠ l.gbegin + l.glen then s
  else
    let mv := if l.nstage < 2 ∨ l.move.isSome then l.move else s.gafferPick l
    s.setLaunch linst { l with move := mv, gbegin := s.now + 1, glen := s.gintOf l.pane }

/-- R267, R268: the event of a sample. -/
def execGafferSample (linst : Nat) (s : State) : Out := .next (s.gafferSample linst)

/-- The lowest-numbered core of the starved stage at a task boundary moves to the pressed stage. -/
def State.gafferMove (s : State) (c : Nat) : State :=
  match s.donorFor c with
  | some (n, l) => match l.move with
    | some (_, hi) => (s.dropPop c).setLaunch n { l with move := none, assign := Sparse.ins l.assign (s.slotOf c) hi }
    | none => s
  | none => s

/-- R269: the event of a move. -/
def execGafferMove (c : Nat) (s : State) : Out := .next (s.gafferMove c)

/-! ### Promises and publishes -/

/-- R113, R366: a kernel that has broken its ITERBOUND promise is logged once for each word its core has issued; V-words, stores under
way among them, and unmasking commands are timed from their issue. The detail holds
LINST, core and image number (R352). DETAIL's layout is (DESIGN CHOICE, notes/assumptions/46.md). -/
def execIterboundBreach (c : Nat) (s : State) : Out :=
  let x := s.core c
  let ib := (s.kernel c).iterbound
  let late (n : Nat) : Bool := decide (n + ib < s.now)
  let main := x.q.st == .running && late x.q.pointAt
  let vec := (x.v.ql ++ x.v.qa ++ x.v.qs).any (fun e => late e.cap.clk) || x.v.fl.any (fun f => late f.clk) ||
    x.acc.any (fun a => a.op == .vstore && late a.clk) || s.w.held.any (fun h => h.core == c && (match h.op with
      | .acc a => a.op == .vstore && late a.clk
      | _ => false)) || (s.umOf (s.cfg.paneOf c)).order.any (fun k => k.core == c && !k.done && late k.clk)
  if ib = 0 ∨ x.task.isNone ∨ x.q.breach = x.q.nid ∨ !(main || vec) then .next s
  else
    .next ((s.logEvent 6 (s.linstOf c + c * 2 ^ 32 + x.code.image.getD 0 * 2 ^ 48)).mod c (fun x =>
      x.seq (fun q => { q with breach := q.nid })))

/-- Whether some acquire at a scope waits for the record of core `c` at a line to be published (R308): an access, fence, future or
signal wait of a core, an engine command's, a join's, or one of a dispatcher, a ring or the host. -/
def State.demands (s : State) (c line scope : Nat) : Bool :=
  let by_ (y sc : Nat) : Bool := y != c && sc == scope && s.cfg.within sc y c
  let eng (o : Ordr) (acqd : Bool) (y : Nat) : Bool := o.acq && !acqd && by_ y o.scope
  s.cores.any (fun p =>
    p.2.acc.any (fun a => a.acq && by_ p.1 a.scope && a.pas.any (fun pa => pa / 64 == line)) ||
    [0, 1, 2, 3].any (fun h => match (p.2.q.holdOf h).k with
      | .sig pa _ acq sc _ _ => acq && by_ p.1 sc && pa / 64 == line
      | .fut f _ _ => f.ord.acq && by_ p.1 f.ord.scope
      | .fence sc => by_ p.1 sc && (s.hbOf p.1 h).lines.contains line
      | _ => false) ||
    p.2.e.copies.any (fun k => eng (k.agent p.1).ord k.acqd p.1) || (p.2.q.st == .ending && by_ p.1 3)) ||
  s.mx.any (fun p => p.2.order.any (fun k => eng k.agent.ord k.acqd k.core)) ||
  s.um.any (fun p => p.2.order.any (fun k => eng k.agent.ord k.acqd k.core)) ||
  (by_ 4096 5 && (s.io.read.isSome || s.io.rings.any (fun p => p.2.st == 1))) || (by_ 4096 3 && !s.d.rels.isEmpty)

/-- R308: where an acquire asks for it, a core named in a publish record at a line does the work of a release at the acquire's scope,
and the record is removed. -/
def execForcedPublish (c line scope : Nat) (s : State) : Out :=
  match (s.pubs line).find? (fun p => p.core == c) with
  | none => .next s
  | some p =>
    if scope = 0 ∨ 5 < scope ∨ !s.demands c line scope ∨ s.unackedAt c scope p.id ∨
        (s.core c).acc.any (fun a => a.plainStore && decide (a.id < p.id)) then .next s
    else
      let t := s.flush c
      let u := if scope = 5 then t.dropPubs c else t
      .next { u with pub := Sparse.set [] u.pub line ((u.pubs line).filter (fun p => p.core != c)) }

end Sys2Proof.Machine
end

