-- ==== Sys2Proof/Machine/Links.lean ====
section
/-! DEFINITION. Host links, BAR0, HDM, command rings and their packets, the journal and the Barom links (R14, R317 to R334). -/

namespace Sys2Proof.Machine

/-- Raise an MSI-X vector (R317). -/
def State.raise (s : State) (v : Nat) : State := { s with io := { s.io with msix := v :: s.io.msix } }

/-- Whether a host link has trained in CXL mode (R317). -/
def State.cxl (s : State) : Bool := s.io.link.any (fun p => p.2 == 2)

/-! ### Links (R14, R317, R319) -/

/-- What went over a host link that is down is acknowledged on the other, where that is up (R319). (DESIGN CHOICE,
notes/assumptions/74.md). -/
def State.rerouted (s : State) : State :=
  let up (l : Nat) : Bool := Sparse.get 0 s.io.link l != 0
  s.modAll (fun _ x => { x with unacked := x.unacked.map (fun p =>
    if p.2.2 < 2 ∧ up p.2.2 = false ∧ up (1 - p.2.2) then (p.1, p.2.1, 1 - p.2.2) else p) })

/-- R317: a host link trains; links that settle in different modes are both held in reset and LINKMODE is journalled. Its
entry's INDEX is 0 (DESIGN CHOICE, notes/assumptions/24.md). -/
def execLinkTrain (link : Nat) (cxl : Bool) (s : State) : Out :=
  let m := if cxl then 2 else 1
  let other := Sparse.get 0 s.io.link (1 - link)
  if 2 ≤ link ∨ s.io.linkReset then .next s
  else if other ≠ 0 ∧ other ≠ m then
    .next (({ s with io := { s.io with link := [], linkReset := true } } : State).journal srcWilgor 0 0 0 0 0x33 0)
  else .next ({ s with io := { s.io with link := Sparse.set 0 s.io.link link m } } : State).rerouted

/-- R319: a host link is lost; the other carries what goes to the host window. -/
def execHostLinkDown (link : Nat) (s : State) : Out :=
  .next ({ s with io := { s.io with link := Sparse.set 0 s.io.link link 0 } } : State).rerouted

/-- R14: a pane passes its trip point: issue stops on every pane, THERMAL is journalled, and the module is halted. Its entry's
INDEX is 0 (DESIGN CHOICE, notes/assumptions/24.md); what stands still then is (DESIGN CHOICE, notes/assumptions/61.md). -/
def execThermalTrip (pane : Nat) (s : State) : Out :=
  if s.cfg.panes ≤ pane ∨ s.halted then .next s
  else .next ((({ s with halted := true } : State).journal srcWilgor 0 0 0 0 0x3F 0).raise 2)

/-! ### What the host reads (R318) -/

/-- The device's word of a ring descriptor (R320). -/
def Ring.word (v : Ring) : Nat := v.code * 2 ^ 40 + v.st * 2 ^ 32 + v.shown

/-- The bytes of a journal entry (R330): TYPE is DETAIL byte 0, and what the type records stands at +40. -/
def JEntry.bytes (e : JEntry) : List Byte :=
  leBytes 8 e.gts ++ leBytes 8 e.seq ++ leBytes 8 (e.index * 2 ^ 32 + e.pstat * 2 ^ 24 + e.result * 2 ^ 16 + e.source) ++
    leBytes 8 e.linst ++ leBytes 8 e.type ++ leBytes 8 e.detail ++ leBytes 16 0

/-- A byte of BAR0 as the host reads it (R318): the status page, the device's word of a descriptor, the journal, and what has
been written. -/
def State.barByte (s : State) (off : Nat) : Byte :=
  if off < 0x1000 then
    (leBytes 8 (if s.io.badFirmware then 0 else (s.cfg.idWord 0).toNat) ++ leBytes 8 (s.cfg.cfgWord 0).toNat ++
      leBytes 8 s.io.jtail).getD off 0#8
  else if 0x100000 ≤ off ∧ off < 0x140000 ∧ 16 ≤ off % 64 ∧ off % 64 < 24 then
    (leBytes 8 (s.ring ((off - 0x100000) / 64)).word).getD (off % 64 - 16) 0#8
  else if 0x1000000 ≤ off ∧ off < 0x1400000 then
    match s.io.journal.find? (fun e => e.seq % 65536 == (off - 0x1000000) / 64) with
    | some e => e.bytes.getD (off % 64) 0#8
    | none => 0#8
  else Sparse.get 0#8 s.io.bar off

/-! ### HDM (R318) -/

/-- The physical address of an HDM offset: device memory of the first and second tier, or none. -/
def State.hdmPA (s : State) (off : Nat) : Option Nat :=
  if off < 0x40000000 then none
  else match s.cfg.tier (off - 0x40000000) with
    | .hbm | .lpddr => some (off - 0x40000000)
    | _ => none

/-- R318: a host store to HDM: bytes of the launch window, where 0x5A at a slot's last byte seals it (R258), or a write at their lines'
home slices; others are ignored. -/
def execHostHdmWrite (off : Nat) (bytes : List Byte) (s : State) : Out :=
  if s.cxl = false ∨ s.io.linkReset then .next s
  else
    let l := (List.range bytes.length).zip bytes
    let win := l.foldl (fun (m : Sparse Byte) p => if off + p.1 < 0x80000 then Sparse.set 0#8 m (off + p.1) p.2 else m) s.io.window
    let t : State := { s with io := { s.io with window := win } }
    let seals := (l.filter (fun p => decide (off + p.1 < 0x80000) && (off + p.1) % 128 == 127 && p.2 == 0x5A#8)).map
      (fun p => (off + p.1) / 128)
    let u := seals.foldl (fun u n => u.sealSlot n false) t
    let dev := l.filterMap (fun p => (s.hdmPA (off + p.1)).map (fun pa => (pa, p.2)))
    .next (if dev = [] then u else u.homeWrite dev)

/-- A byte a host read of HDM returns: bytes of data that cannot be corrected are free values. -/
def State.hdmByte (s : State) (bad : List Nat) (off : Nat) : Byte :=
  if off < 0x80000 then Sparse.get 0#8 s.io.window off
  else match s.hdmPA off with
    | some pa => if bad.contains pa then BitVec.ofNat 8 (Config.freePick s.tick pa) else s.byte pa
    | none => 0#8

/-- R318: a host read of HDM is an acquire at system scope: its data is returned once every publish it forces is done. It
happens in one moment (DESIGN CHOICE, notes/assumptions/27.md). -/
def execHostHdmRead (off n : Nat) (s : State) : Out :=
  let pas := (List.range n).filterMap (fun i => s.hdmPA (off + i))
  if s.cxl = false ∨ s.io.linkReset then .next s
  else if s.acquireReady 4096 5 pas then
    let m := s.marksOf pas
    let bad := pas.filter (fun pa => Sparse.get 0 m.1.w.poison (s.cfg.granule pa) != 0)
    .next { m.1 with io := { m.1.io with read := none, hostData := some (off, (List.range n).map (fun i => m.1.hdmByte bad (off + i))) } }
  else .next { s with io := { s.io with read := some (off, n) } }

/-! ### Rings (R320 to R323) -/

/-- A ring goes FAULTED (R322). Its entry is no packet's: PSTAT is 0 (R330). -/
def State.ringFault (s : State) (r code : Nat) : State :=
  let v := s.ring r
  ((s.setRing r { v with st := 3, code := code, cur := none, wait := none, met := false }).journal r v.head 0 0 0 0x30 0).raise 1

/-- Where ring `r`'s descriptor lies in BAR0. -/
def descAt (r : Nat) : Nat := 0x100000 + 64 * r

/-- ENABLE of a ring's descriptor. -/
def State.ringOn (s : State) (r : Nat) : Bool := bit (s.barNat (descAt r) 8) 0

/-- R322: a DISABLED ring whose descriptor is enabled is checked and becomes ACTIVE, or FAULTED. -/
def execRingEnable (r : Nat) (s : State) : Out :=
  let d0 := s.barNat (descAt r) 8
  let d1 := s.barNat (descAt r + 8) 8
  let lg := fld d0 1 5
  let v : Ring := { (s.ring r) with code := 0, head := 0, shown := 0, asid := fld d0 6 12, log2n := lg, polled := s.now, look := true, off := false }
  if 4096 ≤ r ∨ (s.ring r).st ≠ 0 ∨ s.ringOn r = false ∨ s.halted then .next s
  else if fld d0 18 46 ≠ 0 ∨ fld d1 48 16 ≠ 0 ∨ lg < 4 ∨ 16 < lg ∨ d1 % 4096 ≠ 0 then .next ((s.setRing r v).ringFault r 1)
  else if (s.capFault [8]).isSome then .next (((s.journal srcWilgor 0 0 0 0 0x32 8).setRing r v).ringFault r 3)
  else match s.grant none v.asid (fld d1 0 48) (128 * 2 ^ lg) rR with
    | .wait => .next s
    | .fail _ _ => .next ((s.setRing r v).ringFault r 2)
    | .event t _ => .next ((t.setRing r v).ringFault r 2)
    | .ok t tok => .next (t.setRing r { v with st := 1, tok := tok })

/-- R322: ENABLE written 0, though it is 1 again by then, disables a ring after its current packet, once the packet's journal entry is
written. (DESIGN CHOICE, notes/assumptions/50.md). -/
def execRingDisable (r : Nat) (s : State) : Out :=
  let v := s.ring r
  if v.st = 0 ∨ (s.ringOn r ∧ !v.off) ∨ v.cur.isSome ∨ v.loading ∨ s.io.jpend.any (fun e => e.source == r && e.packet) then .next s
  else .next (s.setRing r { v with st := 0, tok := {}, wait := none, met := false, off := false })

/-- What a ring's next packet is found to be. -/
inductive Slot where
  | absent
  | bad (code : Nat)
  | here (pas : List Nat)
  deriving DecidableEq, Repr

/-- Look for the next packet of a ring (R321, R322): its token is checked, and PHASE says whether it is there. It is read as the
homes hold it (notes/assumptions/52.md). -/
def State.nextPacket (s : State) (r : Nat) : Slot :=
  let v := s.ring r
  let n := 2 ^ v.log2n
  match s.check v.tok (128 * (v.head % n) : Nat) 128 rR with
  | .wait => .absent
  | .fail .bounds _ => .bad 5
  | .fail _ _ => .bad 4
  | .pass _ pas =>
    if s.linked pas ∧ (s.byte (pas.headD 0)).getLsbD 7 = (v.head / n % 2 == 0) then .here pas else .absent

/-- Whether a ring's next packet is there, or its read will fail. -/
def State.packetThere (s : State) (r : Nat) : Bool := match s.nextPacket r with | .absent => false | _ => true

/-- Whether a ring waits for a slot with a packet, or with a read that will fail: under CXL the fetcher sees a packet at once, else when
it looks (R321). -/
def State.ringReady (s : State) (r : Nat) : Bool :=
  let v := s.ring r
  v.st == 1 && v.cur.isNone && !v.loading && s.ringOn r && !v.off && (s.cxl || v.look) && s.packetThere r

/-- The fetcher looks for a ring's next packet (R321): as the one before has ended, and 1,024 clocks after it last found none. -/
def State.pollRing (s : State) (r : Nat) : State :=
  let v := s.ring r
  if v.st ≠ 1 ∨ v.cur.isSome ∨ v.loading ∨ (v.look ∧ s.packetThere r) ∨ (v.look = false ∧ s.now < v.polled + 1024) then s
  else s.setRing r { v with look := s.packetThere r, polled := s.now }

/-- The packet a ring's read gives (R324): one of another address space than its LAUNCH is none. -/
def State.packet (s : State) (r : Nat) (pas : List Nat) : Option Instr :=
  match decodePacket r (pas.map s.byte) with
  | .ok (.launchPacket q rec) => if fld (rec.headD 0#64).toNat 13 12 = (s.ring r).asid then some (.launchPacket q rec) else none
  | .ok i => some i
  | .error _ => none

/-- TYPE of a packet's journal entry (R330): of a bad packet whose TYPE is none of the six the manual names no value, and it is
a free one of them. (DESIGN CHOICE, notes/assumptions/50.md). -/
def State.entryType (s : State) (pa : Nat) : Nat :=
  let t := (s.byte pa).toNat % 128
  if t < 6 then t else (s.free 600).toNat % 6

/-- R323: a free slot takes the next packet of the ready ring that comes first after the ring last granted; a ring read that
fails faults the ring; a packet that is none fails with BADPKT. A packet whose data cannot be read is BADPKT (DESIGN CHOICE,
notes/assumptions/50.md). -/
def execPacketFetch (r : Nat) (s : State) : Out :=
  let after (q : Nat) : Nat := (q + 8191 - s.io.lastRing) % 4096
  let used := (s.io.rings.filter (fun p => p.2.cur.isSome || p.2.loading)).length
  if s.halted ∨ 64 ≤ used ∨ !s.ringReady r ∨
      s.io.rings.any (fun p => s.ringReady p.1 && decide (after p.1 < after r)) then .next s
  else
    let v := s.ring r
    let t : State := { s with io := { s.io with lastRing := r } }
    match s.nextPacket r with
    | .absent => .next s
    | .bad code => .next (t.ringFault r code)
    | .here pas =>
      if !s.acquireReady 4096 5 pas then .next s
      else match t.findAll pas with
        | (u, some _) => .next (u.packetEnds r 1 0 0 (s.entryType (pas.headD 0)))
        | (u, none) => match s.packet r pas with
          | some i => .next (u.setRing r { v with cur := some i, started := s.tick })
          | none => .next (u.packetEnds r 1 0 0 (s.entryType (pas.headD 0)))

/-- R321: an ACTIVE ring with no packet present is polled once in 1,024 clocks. -/
def execRingPoll (r : Nat) (s : State) : Out := .next (s.pollRing r)

/-- The extent whose translation a packet waits with: a GRAPH's is its whole table (R264). -/
def State.packetExtent (s : State) (asid : Nat) : Instr → Option (Nat × Nat)
  | .graphPacket _ va =>
    let nn := match s.vpas asid va.toNat 64 rR with
      | some head => fld (s.vnat head 0 8) 16 16
      | none => 0
    some (va.toNat, 64 + 256 * nn)
  | .waitPacket _ va _ | .signalPacket _ _ _ va _ => some (va.toNat / 64 * 64, 64)
  | .revokePacket _ _ _ len nv => some (nv.toNat, len)
  | _ => none

/-- Whether a PARKED ring's packet still meets an entry that drains (R322, R325). -/
def State.parkedWaits (s : State) (r : Nat) : Bool :=
  match s.nextPacket r with
  | .here pas => match (s.packet r pas).bind (s.packetExtent (s.ring r).asid) with
    | some (va, n) => s.pontil.any (fun p => p.2.st == .draining && p.2.asid == (s.ring r).asid &&
        overlap p.2.vbase p.2.len va n)
    | none => false
  | _ => false

/-- R322: a PARKED ring's condition is met, or its entry has left DRAINING: it queues again for a slot. -/
def execRingUnpark (r : Nat) (s : State) : Out :=
  let v := s.ring r
  if v.st ≠ 2 then .next s
  else match v.wait with
    | none => if s.parkedWaits r then .next s else .next (s.setRing r { v with st := 1, look := true })
    | some (pa, target) =>
      if v.met ∨ target.toNat ≤ s.valueAt ((List.range 8).map (pa + ·)) then
        .next (s.setRing r { v with st := 1, met := true, look := true })
      else .next s

/-! ### Packets (R324 to R327) -/

/-- A ring parks and frees its slot (R322); a wait is registered through its signal's entry. -/
def State.parkRing (s : State) (r : Nat) (w : Option (Nat × Word)) (met : Bool) (entry : Nat := 0) : State :=
  s.setRing r { s.ring r with st := 2, cur := none, wait := w, met := met, entry := entry }

/-- A packet whose translation must wait: its ring parks on a DRAINING entry (R322, R325), and on one that is being swept it keeps its
slot. -/
def State.parkOrWait (s : State) (r : Nat) : State := if s.parkedWaits r then s.parkRing r none false else s

/-- R264: a GRAPH packet pins its table, checks it and seals its roots. -/
def execGraphPacket (r : Nat) (va : BitVec 48) (s : State) : Out :=
  let v := s.ring r
  if v.cur ≠ some (.graphPacket r va) then .next s
  else if (s.capFault [8]).isSome then .next (s.packetCap r 8 2)
  else match s.vpas v.asid va.toNat 64 rR with
    | none => .next (s.packetEnds r 2 0 0 2)
    | some head =>
      let nn := fld (s.vnat head 0 8) 16 16
      match s.grant none v.asid va.toNat (64 + 256 * nn) (rR ||| rW) with
      | .wait => .next (s.parkOrWait r)
      | .fail _ _ => .next (s.packetEnds r 2 0 0 2)
      | .event t _ => .next (t.packetEnds r 2 0 0 2)
      | .ok t tok =>
        let g : Graph := { asid := v.asid, tok := tok, nnode := nn, ring := r, idx := v.head, failed := false, live := 0 }
        if t.graphBad g head then .next (t.packetEnds r 0 1 0 2)
        else
          let gn := t.d.nextGraph
          let t1 := (List.range nn).foldl (fun (u : State) k => u.nodePut g k 130 (leBytes 2 (u.nodeNat g k 128 2))) t
          let t2 : State := { t1 with d := { t1.d with nextGraph := gn + 1, graphs := Sparse.set none t1.d.graphs gn (some g) } }
          let t3 := ((List.range nn).filter (fun k => t2.nodeNat g k 128 2 == 0)).foldl (fun (u : State) k => u.sealNode gn g k) t2
          let q := t3.ring r
          .next ((t3.setRing r { q with opened := (2 * gn + 1) :: q.opened }).packetEnds r 0 0 0 2)

/-- R324: a NOP is accepted at once. -/
def execNopPacket (r : Nat) (s : State) : Out :=
  if (s.ring r).cur = some (.nopPacket r) then .next (s.packetEnds r 0 0 0 0) else .next s

/-- R324: a LAUNCH is loaded; it is accepted when it leaves LOADING or is rejected. -/
def execLaunchPacket (r : Nat) (rec : List Word) (s : State) : Out :=
  let v := s.ring r
  if v.cur ≠ some (.launchPacket r rec) then .next s
  else if let some f := s.capFault [8, 16, 24, 32, 48, 56] then .next (s.packetCap r f 1)
  else
    let w15 := (rec.getD 15 0#64).toNat % 2 ^ 56
    let ws := (rec.take 15).set 0 (setFld (rec.getD 0 0#64) 7 1 0) ++ [BitVec.ofNat 64 w15]
    .next ((s.setRing r { v with cur := none, loading := true }).beginLoad (Launch.ofWords ws (.ring r v.head) false))

/-- R325: a WAIT acts as `sig.wait.acq.sys`: accepted once the counter is, or has been since it parked, at or above the
target; until then the ring parks, registered at the slice. One that is satisfied keeps its slot while publishes are forced (R308). -/
def execWaitPacket (r : Nat) (va : BitVec 48) (target : Word) (s : State) : Out :=
  let v := s.ring r
  if v.cur ≠ some (.waitPacket r va target) then .next s
  else if (s.capFault [8]).isSome then .next (s.packetCap r 8 3)
  else match s.signalAt v.asid va.toNat rR with
    | .wait => .next (s.parkOrWait r)
    | .fail => .next (s.packetEnds r 2 0 0 3)
    | .ok t pas e =>
      let w := some (pas.headD 0, target)
      match t.findAll pas with
      | (u, some _) => .next (u.parkRing r w false e)
      | (u, none) =>
        if (v.met ∧ v.wait = w) ∨ target.toNat ≤ u.valueAt pas then
          if u.acquireReady 4096 5 pas then .next (u.packetEnds r 0 0 0 3)
          else .next (u.setRing r { u.ring r with wait := w, met := true, entry := e })
        else .next (u.parkRing r w false e)

/-- R325: a SIGNAL adds or sets at system scope, with FENCE after every earlier LAUNCH and GRAPH of its ring is DONE. -/
def execSignalPacket (r : Nat) (set fence : Bool) (va : BitVec 48) (value : Word) (s : State) : Out :=
  let v := s.ring r
  if v.cur ≠ some (.signalPacket r set fence va value) ∨ (fence ∧ v.opened ≠ []) then .next s
  else if (s.capFault [8]).isSome then .next (s.packetCap r 8 4)
  else match s.signalAt v.asid va.toNat (rW ||| rA) with
    | .wait => .next (s.parkOrWait r)
    | .fail => .next (s.packetEnds r 2 0 0 4)
    | .ok t pas _ => .next ((t.signal pas set value).packetEnds r 0 0 0 4)

/-- The LIVE entries of an address space that overlap a range. -/
def State.liveIn (s : State) (asid va len : Nat) : List (Nat × PEntry) :=
  s.pontil.filter (fun p => p.2.st == .live && p.2.asid == asid && overlap p.2.vbase p.2.len va len)

/-- What looking up the forward extents of a MOVE gives: it waits, fails with a status, or the entries and their forwards. -/
inductive Moves where
  | wait
  | fail (pstat : Nat)
  | ok (s : State) (l : List (Nat × Nat))

/-- Translate every entry's forward extent with its own rights (R326). -/
def State.forwards (s : State) (va nv : Nat) : List (Nat × PEntry) → List (Nat × Nat) → Moves
  | [], acc => .ok s acc
  | (n, e) :: rest, acc =>
    match s.grant none e.asid (e.vbase - va + nv) e.len e.rights with
    | .wait => .wait
    | .fail _ _ | .event _ _ => .fail 2
    | .ok t tok => t.forwards va nv rest (acc ++ [(n, tok.entry)])

/-- R326: a REVOKE purges the translation caches and revokes every LIVE entry that overlaps its range; it is accepted once all
are DEAD or FORWARDED. A forward entry that is itself revoked is BADPKT (DESIGN CHOICE, notes/assumptions/37.md). -/
def execRevokePacket (r : Nat) (mv : Bool) (va : BitVec 48) (len : Nat) (newva : BitVec 48) (s : State) : Out :=
  let v := s.ring r
  let es := s.liveIn v.asid va.toNat len
  let start (t : State) (l : List (Nat × Nat)) : State :=
    let u := l.foldl (fun (u : State) p => u.revoke p.1 mv p.2) (t.purge v.asid va.toNat len)
    u.setRing r { u.ring r with loading := true }
  if v.cur ≠ some (.revokePacket r mv va len newva) then .next s
  else if v.loading then
    if s.pontil.any (fun p => (p.2.st == .draining || p.2.st == .sweeping) && p.2.asid == v.asid &&
        overlap p.2.vbase p.2.len va.toNat len) then .next s
    else .next (s.packetEnds r 0 0 0 5)
  else if let some f := s.capFault (if mv then [8, 24] else [8]) then .next (s.packetCap r f 5)
  else if !mv then .next (start s (es.map (fun p => (p.1, 0))))
  else if es.any (fun p => decide (p.2.vbase < va.toNat) || decide (va.toNat + len < p.2.vbase + p.2.len)) then
    .next (s.packetEnds r 1 0 0 5)
  else match s.forwards va.toNat newva.toNat es [] with
    | .wait => .next (s.parkOrWait r)
    | .fail p => .next (s.packetEnds r p 0 0 5)
    | .ok t l =>
      if l.any (fun p => l.any (fun q => p.2 == q.1)) then .next (s.packetEnds r 1 0 0 5)
      else .next (start t l)

/-! ### The journal (R330 to R332) -/

/-- The entry the journal takes next: ascending (GTS, SOURCE), then creation order (R331). -/
def nextEntry : List JEntry → Option JEntry
  | [] => none
  | e :: l => some (l.foldl (fun b d => if d.gts < b.gts ∨ (d.gts = b.gts ∧ d.source < b.source) then d else b) e)

/-- HEAD of a ring is written after its packet's journal entry (R321). -/
def State.showHead (s : State) (e : JEntry) : State :=
  let v := s.ring e.source
  if e.source < 4096 ∧ e.packet ∧ e.index = v.shown then s.setRing e.source { v with shown := (v.shown + 1) % 2 ^ 32 } else s

/-- R331, R332: the next entry is appended 64 ticks after its GTS; JTAIL holds its SEQ, and a completion raises vector 0. -/
def execJournalAppend (s : State) : Out :=
  match nextEntry s.io.jpend with
  | none => .next s
  | some e =>
    if s.gts0 < e.gts + 64 then .next s
    else
      let n := s.io.jtail + 1
      let j := s.io.journal ++ [{ e with seq := n }]
      let t : State := { s with io := { s.io with
        jpend := s.io.jpend.erase e, journal := j.drop (j.length - 65536), jtail := n } }
      let u := t.showHead e
      .next (if e.type = 0x20 ∨ e.type = 0x21 then u.raise 0 else u)

/-! ### Barom links (R333, R334) -/

/-- One byte through CRC-64 of the ECMA-182 polynomial, most significant bit first. -/
def crcByte (c : BitVec 64) (b : Byte) : BitVec 64 :=
  (List.range 8).foldl (fun (c : BitVec 64) _ => if c.getLsbD 63 then (c <<< 1) ^^^ 0x42F0E1EBA9EA3693#64 else c <<< 1)
    (c ^^^ ((b.zeroExtend 64) <<< 56))

/-- CRC-64 over bytes (R333). Its start value is the model's (DESIGN CHOICE, notes/assumptions/26.md). -/
def crc64 (l : List Byte) : BitVec 64 := l.foldl crcByte 0#64

/-- Whether a flit is intact (R333). -/
def flitIntact (f : List Byte) : Bool :=
  f.length == 256 && leNat (f.take 4) == 0 && leNat (f.drop 248) == (crc64 (f.take 248)).toNat

/-- R333: a flit arrives; `acked` is one more than the SEQ last acknowledged. One that fails its CRC is dropped; an intact one acknowledges the replay buffer's flits up to ACK,
and the next in sequence delivers its fifteen slots. -/
def execBaromFlit (link : Nat) (flit : List Byte) (s : State) : Out :=
  if 18 ≤ link ∨ !flitIntact flit then .next s
  else
    let b : BLink := Sparse.get {} s.io.barom link
    let sq := leNat ((flit.drop 4).take 2)
    let ack := leNat ((flit.drop 6).take 2)
    let gone := (ack + 65537 - b.acked) % 65536
    let b1 : BLink := if gone ≤ b.replay.length then { b with acked := (ack + 1) % 65536, replay := b.replay.drop gone } else b
    let b2 : BLink :=
      if sq = b.rx then
        { b1 with rx := (b.rx + 1) % 65536
                  got := b1.got ++ (List.range 15).map (fun i => (flit.drop (8 + 16 * i)).take 16) }
      else b1
    .next { s with io := { s.io with barom := Sparse.set {} s.io.barom link b2 } }

/-- A flit of fifteen message slots (R333). -/
def flitOf (seq ack : Nat) (slots : List Byte) : List Byte :=
  let body := leBytes 4 0 ++ leBytes 2 seq ++ leBytes 2 ack ++ slots
  body ++ leBytes 8 (crc64 body).toNat

/-- R333: a link sends its next flit, where its replay buffer has room: ACK is the SEQ of the last flit received intact. The messages
in its slots are a free value: the manual gives them no layout (notes/assumptions/26.md). -/
def State.sendFlit (s : State) (link : Nat) (slots : List Byte) : State :=
  let b : BLink := Sparse.get {} s.io.barom link
  if 18 ≤ link ∨ slots.length ≠ 240 ∨ 256 ≤ b.replay.length then s
  else
    let f := flitOf b.tx ((b.rx + 65535) % 65536) slots
    let v : BLink := { b with tx := (b.tx + 1) % 65536, replay := b.replay ++ [f], out := b.out ++ [f] }
    { s with io := { s.io with barom := Sparse.set {} s.io.barom link v } }

/-- R333: a link sends again what stands in its replay buffer: the flits after the last one acknowledged. -/
def State.replayFlits (s : State) (link : Nat) : State :=
  let b : BLink := Sparse.get {} s.io.barom link
  if 18 ≤ link then s
  else { s with io := { s.io with barom := Sparse.set {} s.io.barom link { b with out := b.out ++ b.replay } } }

end Sys2Proof.Machine
end

