-- ==== Sys2Proof/Machine/Clock.lean ====
section
/-! DEFINITION. What passes with a clock: what falls due as it begins, what the dispatchers and the Gaffer do as it ends (R226, R238,
R255, R263, R265, R267 to R269, R272, R273, R275, R284, R292, R321). No event need happen for these, and none can be late. -/

namespace Sys2Proof.Machine

/-- The cores in the ranges of running launches, in ascending number. -/
def State.served (s : State) : List Nat :=
  (((s.d.launches.filter (fun p => p.2.st == .running)).flatMap (fun p => s.range p.2)).foldl (fun a c => insNat c a) []).eraseDups

/-- A queue resolves what has reached it (R226), or gives up a head that no core can serve (R347). -/
def State.queueClock (s : State) (qn : Nat) : State :=
  let q := s.queue qn
  if q.doneAt ≠ s.now + 1 ∧ q.busy s.now then s.resolve qn else s.retireHead qn

/-- What falls due as a clock begins: nodes are handled (R265), initial records (R255) and released continuations (R292) pushed, queues
resolve (R226), and then the Gaffer samples (R268); the fetcher looks for packets (R321). -/
def State.opening (s : State) : State :=
  let launches := s.d.launches.map Prod.fst
  let s1 := launches.foldl (fun t n => t.initialPush n) s.handleNodes
  let s2 := (s1.d.rels.map Prod.fst).foldl (fun t p => (t.dueRels p).foldl (fun t d => (t.pushDue p d).getD t) t) s1
  let s3 := (s2.queues.map Prod.fst).foldl State.queueClock s2
  let s4 := launches.foldl (fun t n => t.gafferSample n) s3
  (s4.io.rings.map Prod.fst).foldl (fun t r => t.pollRing r) s4

/-- What is done as a clock ends, from what stands then: launches complete (R263), groups resume and are delivered (R272), the Gaffer
moves (R269), idle cores find work (R273), and urgent records stop a core (R275). -/
def State.closing (s : State) : State :=
  let s1 := s.completions s.cfg.panes
  let s2 := (List.range s1.cfg.panes).foldl (fun t p => t.groupDeliver p) s1
  let s3 := s2.served.foldl (fun t c => t.gafferMove c) s2
  let s4 := s3.served.foldl (fun t c => t.dispatch c) s3
  (s4.queues.map Prod.fst).foldl (fun t q => t.urgentStop q) s4

/-- Every handle is judged (R238), and a barrier object whose members have all arrived or ended is RELEASING (R284). -/
def State.clockEnds (s : State) : State :=
  { s with
    cores := s.cores.map (fun (p : Nat × Core) =>
      (p.1, p.2.eng (fun e => { e with hnd := e.hnd.map (fun (h : Nat × Handle) => (h.1, h.2.endClock)) })))
    d := { s.d with bars := s.d.bars.map (fun b =>
      { b with rel := b.rel || (!b.arr.isEmpty && b.arr.length + b.dep == (s.launch b.linst).groupSize b.lvl) }) }
    rank := (0, 0) }

/-- One clock passes; on a halted module (R14, R351) its dispatchers stand still (DESIGN CHOICE, notes/assumptions/61.md). -/
def State.passClock (s : State) : State :=
  let t := (if s.halted then s else s.closing).clockEnds
  let u : State := { t with now := t.now + 1, tick := t.tick + 1 }
  if u.halted then u else u.opening

/-- Clocks pass, one after another. -/
def State.passClocks : Nat → State → State
  | 0, s => s
  | n + 1, s => State.passClocks n s.passClock

end Sys2Proof.Machine
end

