-- ==== Sys2Proof/Machine/Alu.lean ====
section
/-! DEFINITION. Scalar arithmetic (R114, R115): one function for each operation of the table, and one meaning for each form
of it. The clocks an operation takes are R116's (notes/assumptions/2.md). -/

namespace Sys2Proof.Machine

/-! ### Results (R115) -/

/-- `add`. -/
def aluAdd (a b : Word) : Word := a + b
/-- `sub`. -/
def aluSub (a b : Word) : Word := a - b
/-- `mul`. -/
def aluMul (a b : Word) : Word := a * b
/-- `mulh.s`: bits 127:64 of the exact product. -/
def aluMulhS (a b : Word) : Word := Word.wrap (Int.fdiv (a.toInt * b.toInt) (2 ^ 64))
/-- `mulh.n`. -/
def aluMulhN (a b : Word) : Word := BitVec.ofNat 64 (a.toNat * b.toNat / 2 ^ 64)
/-- `div.s`: all ones for a zero divisor; −2⁶³ / −1 wraps to −2⁶³. -/
def aluDivS (a b : Word) : Word := if b = 0#64 then BitVec.allOnes 64 else Word.wrap (Int.tdiv a.toInt b.toInt)
/-- `div.n`. -/
def aluDivN (a b : Word) : Word := if b = 0#64 then BitVec.allOnes 64 else BitVec.ofNat 64 (a.toNat / b.toNat)
/-- `rem.s`: the sign of a; a for a zero divisor. -/
def aluRemS (a b : Word) : Word := if b = 0#64 then a else Word.wrap (Int.tmod a.toInt b.toInt)
/-- `rem.n`. -/
def aluRemN (a b : Word) : Word := if b = 0#64 then a else BitVec.ofNat 64 (a.toNat % b.toNat)
/-- `and`. -/
def aluAnd (a b : Word) : Word := a &&& b
/-- `or`. -/
def aluOr (a b : Word) : Word := a ||| b
/-- `xor`. -/
def aluXor (a b : Word) : Word := a ^^^ b
/-- `andn`. -/
def aluAndn (a b : Word) : Word := a &&& ~~~b
/-- `shl`: a count of 64 or more gives 0. -/
def aluShl (a b : Word) : Word := if 64 ≤ b.toNat then 0#64 else a <<< b.toNat
/-- `shr.s`: a count of 64 or more copies bit 63. -/
def aluShrS (a b : Word) : Word :=
  if 64 ≤ b.toNat then (if a.msb then BitVec.allOnes 64 else 0#64) else a.sshiftRight b.toNat
/-- `shr.n`. -/
def aluShrN (a b : Word) : Word := if 64 ≤ b.toNat then 0#64 else a >>> b.toNat
/-- `rot`: left by b mod 64. -/
def aluRot (a b : Word) : Word := a.rotateLeft (b.toNat % 64)
/-- `clz`: 64 for zero. -/
def aluClz (a : Word) : Word := BitVec.ofNat 64 (if a = 0#64 then 64 else 63 - Nat.log2 a.toNat)
/-- `popc`. -/
def aluPopc (a : Word) : Word := BitVec.ofNat 64 ((List.range 64).filter (fun i => a.getLsbD i)).length
/-- `min.s`. -/
def aluMinS (a b : Word) : Word := if a.toInt ≤ b.toInt then a else b
/-- `min.n`. -/
def aluMinN (a b : Word) : Word := if a.toNat ≤ b.toNat then a else b
/-- `max.s`. -/
def aluMaxS (a b : Word) : Word := if a.toInt ≤ b.toInt then b else a
/-- `max.n`. -/
def aluMaxN (a b : Word) : Word := if a.toNat ≤ b.toNat then b else a
/-- `sext`: w is b as n64; 0 gives 0, 64 or more gives a. -/
def aluSext (a b : Word) : Word :=
  if b = 0#64 then 0#64 else if 64 ≤ b.toNat then a else (a.setWidth b.toNat).signExtend 64
/-- `zext`. -/
def aluZext (a b : Word) : Word :=
  if b = 0#64 then 0#64 else if 64 ≤ b.toNat then a else (a.setWidth b.toNat).setWidth 64
/-- The low `n` bits set, all 64 for more. -/
def lowOnes (n : Nat) : Word := BitVec.ofNat 64 (2 ^ min n 64 - 1)
/-- `bfx` with position and width as n64: a position of 64 or more, or a width of 0, gives 0. -/
def aluBfx (a : Word) (pos wid : Nat) : Word := if 64 ≤ pos then 0#64 else (a >>> pos) &&& lowOnes wid
/-- `bfi`: bits pos to min(pos + wid, 64) − 1 of the old destination are replaced by the low bits of a. -/
def aluBfi (old a : Word) (pos wid : Nat) : Word :=
  if 64 ≤ pos then old
  else
    let m := lowOnes wid <<< pos
    (old &&& ~~~m) ||| ((a <<< pos) &&& m)

/-! ### The two forms (R114) -/

/-- The register form of an operation that reads a and b. -/
def aluReg (i : Instr) (o : AluR) (f : Word → Word → Word) (s : State) : Out :=
  issue i s (aluSrcs o true false) (fun s => .next (s.ret o.d 1 (f (s.sc o.a) (s.sc o.b))))

/-- The register form of an operation that reads a alone. -/
def aluOne (i : Instr) (o : AluR) (f : Word → Word) (s : State) : Out :=
  issue i s (aluSrcs o false false) (fun s => .next (s.ret o.d 1 (f (s.sc o.a))))

/-- The immediate form: b is IMM37 sign-extended. -/
def aluImm (i : Instr) (o : AluI) (f : Word → Word → Word) (s : State) : Out :=
  issue i s [.s o.a o.fea] (fun s => .next (s.ret o.d 1 (f (s.sc o.a) (o.imm.signExtend 64))))

/-! ### The meanings -/

/-- R115 `add`, register form: wrap64(a + b). -/
def execAdd (o : AluR) (s : State) : Out := aluReg (.add o) o aluAdd s

/-- R115 `add`, immediate form: wrap64(a + b). -/
def execAddImmediate (o : AluI) (s : State) : Out := aluImm (.addImmediate o) o aluAdd s

/-- R115 `sub`, register form: wrap64(a − b). -/
def execSub (o : AluR) (s : State) : Out := aluReg (.sub o) o aluSub s

/-- R115 `sub`, immediate form: wrap64(a − b). -/
def execSubImmediate (o : AluI) (s : State) : Out := aluImm (.subImmediate o) o aluSub s

/-- R115 `mul`, register form: wrap64(a × b). -/
def execMul (o : AluR) (s : State) : Out := aluReg (.mul o) o aluMul s

/-- R115 `mul`, immediate form: wrap64(a × b). -/
def execMulImmediate (o : AluI) (s : State) : Out := aluImm (.mulImmediate o) o aluMul s

/-- R115 `mulhS`, register form: bits 127:64 of the signed product. -/
def execMulhS (o : AluR) (s : State) : Out := aluReg (.mulhS o) o aluMulhS s

/-- R115 `mulhS`, immediate form: bits 127:64 of the signed product. -/
def execMulhSImmediate (o : AluI) (s : State) : Out := aluImm (.mulhSImmediate o) o aluMulhS s

/-- R115 `mulhN`, register form: bits 127:64 of the unsigned product. -/
def execMulhN (o : AluR) (s : State) : Out := aluReg (.mulhN o) o aluMulhN s

/-- R115 `mulhN`, immediate form: bits 127:64 of the unsigned product. -/
def execMulhNImmediate (o : AluI) (s : State) : Out := aluImm (.mulhNImmediate o) o aluMulhN s

/-- R115 `divS`, register form: the signed quotient toward zero. -/
def execDivS (o : AluR) (s : State) : Out := aluReg (.divS o) o aluDivS s

/-- R115 `divS`, immediate form: the signed quotient toward zero. -/
def execDivSImmediate (o : AluI) (s : State) : Out := aluImm (.divSImmediate o) o aluDivS s

/-- R115 `divN`, register form: the unsigned quotient. -/
def execDivN (o : AluR) (s : State) : Out := aluReg (.divN o) o aluDivN s

/-- R115 `divN`, immediate form: the unsigned quotient. -/
def execDivNImmediate (o : AluI) (s : State) : Out := aluImm (.divNImmediate o) o aluDivN s

/-- R115 `remS`, register form: the signed remainder. -/
def execRemS (o : AluR) (s : State) : Out := aluReg (.remS o) o aluRemS s

/-- R115 `remS`, immediate form: the signed remainder. -/
def execRemSImmediate (o : AluI) (s : State) : Out := aluImm (.remSImmediate o) o aluRemS s

/-- R115 `remN`, register form: the unsigned remainder. -/
def execRemN (o : AluR) (s : State) : Out := aluReg (.remN o) o aluRemN s

/-- R115 `remN`, immediate form: the unsigned remainder. -/
def execRemNImmediate (o : AluI) (s : State) : Out := aluImm (.remNImmediate o) o aluRemN s

/-- R115 `and`, register form: a AND b. -/
def execAnd (o : AluR) (s : State) : Out := aluReg (.and o) o aluAnd s

/-- R115 `and`, immediate form: a AND b. -/
def execAndImmediate (o : AluI) (s : State) : Out := aluImm (.andImmediate o) o aluAnd s

/-- R115 `or`, register form: a OR b. -/
def execOr (o : AluR) (s : State) : Out := aluReg (.or o) o aluOr s

/-- R115 `or`, immediate form: a OR b. -/
def execOrImmediate (o : AluI) (s : State) : Out := aluImm (.orImmediate o) o aluOr s

/-- R115 `xor`, register form: a XOR b. -/
def execXor (o : AluR) (s : State) : Out := aluReg (.xor o) o aluXor s

/-- R115 `xor`, immediate form: a XOR b. -/
def execXorImmediate (o : AluI) (s : State) : Out := aluImm (.xorImmediate o) o aluXor s

/-- R115 `andn`, register form: a AND NOT b. -/
def execAndn (o : AluR) (s : State) : Out := aluReg (.andn o) o aluAndn s

/-- R115 `andn`, immediate form: a AND NOT b. -/
def execAndnImmediate (o : AluI) (s : State) : Out := aluImm (.andnImmediate o) o aluAndn s

/-- R115 `shl`, register form: shift left. -/
def execShl (o : AluR) (s : State) : Out := aluReg (.shl o) o aluShl s

/-- R115 `shl`, immediate form: shift left. -/
def execShlImmediate (o : AluI) (s : State) : Out := aluImm (.shlImmediate o) o aluShl s

/-- R115 `shrS`, register form: arithmetic shift right. -/
def execShrS (o : AluR) (s : State) : Out := aluReg (.shrS o) o aluShrS s

/-- R115 `shrS`, immediate form: arithmetic shift right. -/
def execShrSImmediate (o : AluI) (s : State) : Out := aluImm (.shrSImmediate o) o aluShrS s

/-- R115 `shrN`, register form: logical shift right. -/
def execShrN (o : AluR) (s : State) : Out := aluReg (.shrN o) o aluShrN s

/-- R115 `shrN`, immediate form: logical shift right. -/
def execShrNImmediate (o : AluI) (s : State) : Out := aluImm (.shrNImmediate o) o aluShrN s

/-- R115 `rot`, register form: rotate left. -/
def execRot (o : AluR) (s : State) : Out := aluReg (.rot o) o aluRot s

/-- R115 `rot`, immediate form: rotate left. -/
def execRotImmediate (o : AluI) (s : State) : Out := aluImm (.rotImmediate o) o aluRot s

/-- R115 `minS`, register form: signed minimum. -/
def execMinS (o : AluR) (s : State) : Out := aluReg (.minS o) o aluMinS s

/-- R115 `minS`, immediate form: signed minimum. -/
def execMinSImmediate (o : AluI) (s : State) : Out := aluImm (.minSImmediate o) o aluMinS s

/-- R115 `minN`, register form: unsigned minimum. -/
def execMinN (o : AluR) (s : State) : Out := aluReg (.minN o) o aluMinN s

/-- R115 `minN`, immediate form: unsigned minimum. -/
def execMinNImmediate (o : AluI) (s : State) : Out := aluImm (.minNImmediate o) o aluMinN s

/-- R115 `maxS`, register form: signed maximum. -/
def execMaxS (o : AluR) (s : State) : Out := aluReg (.maxS o) o aluMaxS s

/-- R115 `maxS`, immediate form: signed maximum. -/
def execMaxSImmediate (o : AluI) (s : State) : Out := aluImm (.maxSImmediate o) o aluMaxS s

/-- R115 `maxN`, register form: unsigned maximum. -/
def execMaxN (o : AluR) (s : State) : Out := aluReg (.maxN o) o aluMaxN s

/-- R115 `maxN`, immediate form: unsigned maximum. -/
def execMaxNImmediate (o : AluI) (s : State) : Out := aluImm (.maxNImmediate o) o aluMaxN s

/-- R115 `sext`, register form: sign-extend the low b bits. -/
def execSext (o : AluR) (s : State) : Out := aluReg (.sext o) o aluSext s

/-- R115 `sext`, immediate form: sign-extend the low b bits. -/
def execSextImmediate (o : AluI) (s : State) : Out := aluImm (.sextImmediate o) o aluSext s

/-- R115 `zext`, register form: zero-extend the low b bits. -/
def execZext (o : AluR) (s : State) : Out := aluReg (.zext o) o aluZext s

/-- R115 `zext`, immediate form: zero-extend the low b bits. -/
def execZextImmediate (o : AluI) (s : State) : Out := aluImm (.zextImmediate o) o aluZext s

/-- R115 `clz`: leading zero bits. -/
def execClz (o : AluR) (s : State) : Out := aluOne (.clz o) o aluClz s

/-- R115 `popc`: one bits. -/
def execPopc (o : AluR) (s : State) : Out := aluOne (.popc o) o aluPopc s

/-- R115 `mov`. -/
def execMov (o : AluR) (s : State) : Out := aluOne (.mov o) o id s

/-- R115 `sel`: a if c is not zero, else b. -/
def execSel (o : AluR) (s : State) : Out :=
  issue (.sel o) s (aluSrcs o true true)
    (fun s => .next (s.ret o.d 1 (if s.sc o.c ≠ 0#64 then s.sc o.a else s.sc o.b)))

/-- R115 `bfx`, register form: position and width are sB and sC. -/
def execBfx (o : AluR) (s : State) : Out :=
  issue (.bfx o) s (aluSrcs o true true)
    (fun s => .next (s.ret o.d 1 (aluBfx (s.sc o.a) (s.sc o.b).toNat (s.sc o.c).toNat)))

/-- R115 `bfx`, immediate form: position and width are IMM37 5:0 and 12:6. -/
def execBfxImmediate (o : AluI) (s : State) : Out :=
  issue (.bfxImmediate o) s [.s o.a o.fea]
    (fun s => .next (s.ret o.d 1 (aluBfx (s.sc o.a) (fld o.imm.toNat 0 6) (fld o.imm.toNat 6 7))))

/-- R115 `bfi`, register form; the destination is a source with FE 0. -/
def execBfi (o : AluR) (s : State) : Out :=
  issue (.bfi o) s (.s o.d false :: aluSrcs o true true)
    (fun s => .next (s.ret o.d 1 (aluBfi (s.sc o.d) (s.sc o.a) (s.sc o.b).toNat (s.sc o.c).toNat)))

/-- R115 `bfi`, immediate form. -/
def execBfiImmediate (o : AluI) (s : State) : Out :=
  issue (.bfiImmediate o) s [.s o.d false, .s o.a o.fea]
    (fun s => .next (s.ret o.d 1 (aluBfi (s.sc o.d) (s.sc o.a) (fld o.imm.toNat 0 6) (fld o.imm.toNat 6 7))))

end Sys2Proof.Machine
end

