-- ==== Sys2Proof/Machine/Atomic.lean ====
section
/-! DEFINITION. Atomics (R314 to R316, R42, R43): each captures its operands, marks sD empty and performs at the home slice;
AMO_REPLY brings the old value. -/

namespace Sys2Proof.Machine

/-- The sources of an `amo`: A, B and the index C under their FE bits, the token and the old-value register with FE 0 (R48,
R314). -/
def amoSrcs (f : AmoF) : List Src :=
  [.s f.d false, .s f.a f.fea, .s f.b f.feb, .s f.c f.fec, .k f.k false]

/-- R315: an atomic issues; an offset that is no multiple of the width traps ILLEGAL with MIN. -/
def amoIssue (i : Instr) (op : Nat) (f : AmoF) (s : State) : Out :=
  issue i s (amoSrcs f) (fun s =>
    let w : Nat := if f.w64 then 8 else 4
    let off : Int := (s.sc f.c).toInt + f.off.toInt
    if off % (w : Int) ≠ 0 then illegal i s
    else .next ((s.begin (mkAcc (.amo op) f.d w (s.tk f.k) off (s.sc f.a) (s.sc f.b) f.ord)).done 2))

/-- R315: `amo.add`. -/
def execAmoAdd (f : AmoF) (s : State) : Out := amoIssue (.amoAdd f) 0 f s

/-- R315: `amo.and`. -/
def execAmoAnd (f : AmoF) (s : State) : Out := amoIssue (.amoAnd f) 1 f s

/-- R315: `amo.or`. -/
def execAmoOr (f : AmoF) (s : State) : Out := amoIssue (.amoOr f) 2 f s

/-- R315: `amo.xor`. -/
def execAmoXor (f : AmoF) (s : State) : Out := amoIssue (.amoXor f) 3 f s

/-- R315: `amo.min.s`. -/
def execAmoMinS (f : AmoF) (s : State) : Out := amoIssue (.amoMinS f) 4 f s

/-- R315: `amo.max.s`. -/
def execAmoMaxS (f : AmoF) (s : State) : Out := amoIssue (.amoMaxS f) 5 f s

/-- R315: `amo.min.n`. -/
def execAmoMinN (f : AmoF) (s : State) : Out := amoIssue (.amoMinN f) 6 f s

/-- R315: `amo.max.n`. -/
def execAmoMaxN (f : AmoF) (s : State) : Out := amoIssue (.amoMaxN f) 7 f s

/-- R315: `amo.swap`. -/
def execAmoSwap (f : AmoF) (s : State) : Out := amoIssue (.amoSwap f) 8 f s

/-- R315: `amo.cas`. -/
def execAmoCas (f : AmoF) (s : State) : Out := amoIssue (.amoCas f) 9 f s

/-- R315: `amo.fmax.f32`. -/
def execAmoFmaxF32 (f : AmoF) (s : State) : Out := amoIssue (.amoFmaxF32 f) 16 f s

/-- R315: `amo.amax.rr`. -/
def execAmoAmaxRr (f : AmoF) (s : State) : Out := amoIssue (.amoAmaxRr f) 17 f s

/-- R315, R316: the atomic performs and its old value fills sD, zero-extended; a failed check fills 0 and writes nothing. A
redundant core's waits for its partner's (R348). -/
def execAmoReply (c id : Nat) (s : State) : Out :=
  match s.ready c id (fun op => match op with | .amo _ => true | _ => false) with
  | .no t => .next t
  | .failed t a => .next (t.mod c (fun x => (x.dropAcc id).fillS a.ctx a.d id 0#64))
  | .yes t a =>
    if a.pas.any t.unreachable then .next (t.accContained c a (kUnreach, 0xFFFF))
    else if (t.core c).partner.isSome then .next ((t.mod c (fun x => x.putAcc { a with chk := 3 })).keepHeld c a.seq (.acc a))
    else match t.rmw c a with
      | (u, .error e) => .next (u.accContained c a e)
      | (u, .ok old) => .next (u.mod c (fun x => (x.dropAcc id).fillS a.ctx a.d id (BitVec.ofNat 64 old)))

end Sys2Proof.Machine
end

