-- ==== Sys2Proof/Machine/BaseDie.lean ====
section
/-! DEFINITION. The base-die protocol (R335 to R337): requests of a slice's port to its pane's stack, and their replies. -/

namespace Sys2Proof.Machine

/-- A base-die port. -/
def State.port (s : State) (pane p : Nat) : Port := Sparse.get {} s.bd (pane * 32 + p)
/-- Write a base-die port. -/
def State.setPort (s : State) (pane p : Nat) (v : Port) : State := { s with bd := Sparse.set {} s.bd (pane * 32 + p) v }

/-- The lowest-numbered free tag (R335): a tag frees on the clock after its reply. -/
def Port.freeTag (v : Port) (now : Nat) : Option Nat :=
  (List.range 8).find? (fun t => !v.reqs.any (fun r => r.tag == t) && !v.freed.any (fun p => p.1 == t && decide (now ≤ p.2)))

/-- A request is issued: in order, one per clock, with the lowest free tag; a port with none stalls (R335). Any port may ask for
any line, and memory is reached at the reply (DESIGN CHOICE, notes/assumptions/25.md). -/
def baseDie (pane : Nat) (h : BdHead) (op : Nat) (mask : Word) (data : List Byte) (s : State) : Out :=
  let v := s.port pane h.port
  if s.cfg.panes ≤ pane then .fault (.absentAddress (pane * 2 ^ 36 + h.line * 64))
  else if v.freeTag s.now ≠ some h.tag ∨ v.last = s.now + 1 then .next s
  else
    .next (s.setPort pane h.port { v with
      reqs := v.reqs ++ [{ op := op, tag := h.tag, line := h.line, mask := mask, data := data }]
      freed := v.freed.filter (fun p => p.1 != h.tag), last := s.now + 1 })

/-- R336: RD. -/
def execRd (pane : Nat) (h : BdHead) (s : State) : Out := baseDie pane h 0 0#64 [] s

/-- R336: WR. -/
def execWr (pane : Nat) (h : BdHead) (data : List Byte) (s : State) : Out := baseDie pane h 1 (BitVec.allOnes 64) data s

/-- R336, R337: WRM. -/
def execWrm (pane : Nat) (h : BdHead) (mask : Word) (data : List Byte) (s : State) : Out := baseDie pane h 2 mask data s

/-- R336: OP 11 is dropped and reported to the Lehr. -/
def execReservedOp (pane : Nat) (h : BdHead) (s : State) : Out := .next (s.logEvent 7 (pane * 32 + h.port))

/-- Whether a request touches granule `i` (0 or 1) of its line (R337). -/
def BdReq.touches (r : BdReq) (i : Nat) : Bool := r.op != 2 || decide (fld r.mask.toNat (32 * i) 32 ≠ 0)

/-- Whether an earlier request of the list to a granule of `r` must be performed first (R337). -/
def waitsFor (l : List BdReq) (r : BdReq) : Bool :=
  (l.takeWhile (fun o => o.tag != r.tag)).any (fun o => o.line == r.line && [0, 1].any (fun i => o.touches i && r.touches i))

/-- What the die finds as it reads a granule (R336, R338): the status, 0 OK, 1 corrected, 2 uncorrectable. -/
def State.dieRead (s : State) (g : Nat) : State × Nat :=
  if Sparse.get 0 s.w.hard g ≠ 0 then
    let u := Sparse.get 0 s.w.hard g - 1
    (({ s with w := { s.w with hard := Sparse.set 0 s.w.hard g 0, poison := Sparse.set 0 s.w.poison g (u + 1) } }).uncorrected u, 2)
  else if Sparse.get 0 s.w.poison g ≠ 0 then (s, 2)
  else if Sparse.get 0 s.w.soft g ≠ 0 then
    (({ s with w := { s.w with soft := Sparse.set 0 s.w.soft g 0 } }).corrected (Sparse.get 0 s.w.soft g - 1), 1)
  else (s, 0)

/-- The die reads some granules of a line; the worst status stands. -/
def State.dieReads (s : State) (gs : List Nat) : State × Nat :=
  gs.foldl (fun (acc : State × Nat) g =>
    let p := acc.1.dieRead g
    (p.1, max acc.2 p.2)) (s, 0)

/-- The first byte of a line of a pane's stack. -/
def linePA (pane line : Nat) : Nat := pane * 2 ^ 36 + line * 64

/-- A reply arrives: the request leaves its port and its tag is free on the next clock (R335). -/
def State.replied (s : State) (pane p : Nat) (r : BdReq) (st : Nat) (data : List Byte) : State :=
  let v := s.port pane p
  s.setPort pane p { v with
    reqs := v.reqs.filter (fun o => o.tag != r.tag), freed := v.freed ++ [(r.tag, s.now)], reply := some (r.tag, st, data) }

/-- A byte of a data reply: of a granule that cannot be corrected the manual gives none, and it is a free value. -/
def State.dieByte (s : State) (pa : Nat) : Byte :=
  if Sparse.get 0 s.w.poison (pa / 32 * 32) ≠ 0 then BitVec.ofNat 8 (Config.freePick s.tick pa) else s.byte pa

/-- R336, R337: the reply to a RD. -/
def execDataReply (pane port tag : Nat) (s : State) : Out :=
  let v := s.port pane port
  match v.reqs.find? (fun r => r.tag == tag && r.op == 0) with
  | none => .next s
  | some r =>
    if waitsFor v.reqs r then .next s
    else
      let a := linePA pane r.line
      let p := s.dieReads [a, a + 32]
      .next (p.1.replied pane port r p.2 ((List.range 64).map (fun i => p.1.dieByte (a + i))))

/-- The bytes a write writes: those its mask names. -/
def BdReq.bytes (r : BdReq) (a : Nat) : List (Nat × Byte) :=
  ((List.range 64).filter (fun i => r.mask.getLsbD i)).map (fun i => (a + i, r.data.getD i 0#8))

/-- R336, R337: the acknowledgement of a WR or WRM, after its write; a merge that reads bad data writes nothing. -/
def execAcknowledgement (pane port tag : Nat) (s : State) : Out :=
  let v := s.port pane port
  match v.reqs.find? (fun r => r.tag == tag && r.op != 0) with
  | none => .next s
  | some r =>
    if waitsFor v.reqs r then .next s
    else
      let a := linePA pane r.line
      let part := ([0, 1].filter (fun i => r.touches i && decide (fld r.mask.toNat (32 * i) 32 ≠ 2 ^ 32 - 1))).map (fun i => a + 32 * i)
      let p := s.dieReads part
      let t := if p.2 = 2 ∨ r.bytes a = [] then p.1 else p.1.homeWrite (r.bytes a)
      .next (t.replied pane port r p.2 [])

end Sys2Proof.Machine
end

