-- ==== Sys2Proof/Machine/Fence.lean ====
section
/-! DEFINITION. Fences (R312): what each kind waits for, the work of R306 a release kind does, and what each puts in happens-before
(R301, R303, R305). One turn finishes a fence, so fences of one scope fall in one order (R305). -/

namespace Sys2Proof.Machine

/-- Every load and atomic of the running context issued before `n` has returned, and, in the main context, the L words too
(R312 `acq`); what they read, the fence makes an acquire, whose forced publishes are done (R303, R308). -/
def fenceReads (scope : Nat) (s : State) (n : Nat) : Bool :=
  let x := s.me
  x.acc.all (fun a => a.ctx != s.ctx || decide (n ≤ a.id) || !a.op.fills) && (s.ctx != 0 || x.vChecked 0 n) && x.noneOvertaken s.ctx &&
    (s.hbOf s.cur s.ctx).lines.all (fun ln => (s.mustForce s.cur ln scope).isEmpty)

/-- Every access of the running context issued before `n` has performed, the L and S words of the main context among them,
and the remote stores the scope waits for are acknowledged (R306, R312 `rel`). -/
def fenceAll (scope : Nat) (s : State) (n : Nat) : Bool :=
  let x := s.me
  x.acc.all (fun a => (a.ctx != s.ctx && !(decide (1 ≤ scope) && a.plainStore)) || decide (n ≤ a.id)) &&
    (s.ctx != 0 || (x.vChecked 0 n && x.vDone 2 0 n)) &&
    !s.unackedAt s.cur scope n

/-- The release work of a fence (R306): dirty lines go home at scopes wider than core; at core scope the stores of other contexts that
it leaves in flight are marked. -/
def fenceWork (scope : Nat) (s : State) : State :=
  let t := if 1 ≤ scope then s.flush s.cur else s.upd (fun x => x.overtake s.hold.since)
  if scope = 5 then t.dropPubs s.cur else t

/-- What an acquire fence makes of the releases its context's loads have read (R303): those within its scope are acquired, and
with U its later unordered reads follow all it has acquired (R301). What its loads have read its later accesses do not go behind
(R299, R312). What U adds is (DEDUCED, notes/assumptions/36.md). -/
def fenceAcquires (u : Bool) (scope : Nat) (s : State) : State :=
  let h := s.hbOf s.cur s.ctx
  let got := (h.got.join (s.taken s.cur scope h.heard)).join { vis := h.seen }
  let ugot := if u then got.join (s.taken s.cur scope h.uheard) else got
  let rest (l : List Msg) : List Msg := l.filter (fun m => !s.syncs s.cur scope m)
  s.hbMod s.cur s.ctx (fun h => { h with
    got := ugot, heard := rest h.heard, uheard := if u then rest h.uheard else h.uheard
    know := if u then h.know.join ugot.u else h.know
    lines := if 3 ≤ scope then [] else h.lines })

/-- What a release fence issued at `n` puts before its context's later stores (R303): its accesses before `n`, what the context has
acquired and read, and what earlier fences with U have covered; with U its unordered accesses before `n` too (R301). What U adds is (DEDUCED,
notes/assumptions/36.md). -/
def fenceReleases (u : Bool) (scope n : Nat) (s : State) : State :=
  s.hbMod s.cur s.ctx (fun h =>
    let sent := if u then (h.sent.join h.know).join [(ctxAgent s.cur s.ctx, n)] else h.sent
    let cov := Hb.carries { h with sent := sent } (ctxAgent s.cur s.ctx) n
    let put (f : Sparse Cov) : Sparse Cov := Sparse.set {} f scope ((Sparse.get {} f scope).join cov)
    { h with sent := sent, fenced := put h.fenced, ufenced := if u then put h.ufenced else h.ufenced })

/-- What an sc fence adds (R305, R312): its context's later accesses follow its earlier ones, and it takes its place in the order of
its scope's one set of cores, after what the fences before it put there. -/
def fenceOrders (u : Bool) (scope n : Nat) (s : State) : State :=
  let key := orderKey s.cfg scope s.cur
  let t := (s.takeAt key s.cur s.ctx scope).leaveAt key s.cur s.ctx n
  if u then
    t.hbMod s.cur s.ctx (fun h => { h with know := (h.know.join h.got.u).join [(ctxAgent s.cur s.ctx, n)] })
  else t

/-- R312: `fence.acq`. -/
def execFenceAcq (u : Bool) (scope : Nat) (s : State) : Out :=
  drainWord (.fenceAcq u scope) s [] (.fence scope) (fenceReads scope) (fun s => .next ((fenceAcquires u scope s).done 1))

/-- R312: `fence.rel`. -/
def execFenceRel (u : Bool) (scope : Nat) (s : State) : Out :=
  drainWord (.fenceRel u scope) s [] .drain (fenceAll scope)
    (fun s => .next ((fenceReleases u scope s.hold.since (fenceWork scope s)).done 1))

/-- R312: `fence.ar` does both. -/
def execFenceAr (u : Bool) (scope : Nat) (s : State) : Out :=
  drainWord (.fenceAr u scope) s [] (.fence scope) (fun s n => fenceReads scope s n && fenceAll scope s n)
    (fun s => .next ((fenceReleases u scope s.hold.since (fenceAcquires u scope (fenceWork scope s))).done 1))

/-- R305, R312: `fence.sc` does as `ar` and takes its place in the order of its scope. -/
def execFenceSc (u : Bool) (scope : Nat) (s : State) : Out :=
  drainWord (.fenceSc u scope) s [] (.fence scope) (fun s n => fenceReads scope s n && fenceAll scope s n)
    (fun s => .next ((fenceOrders u scope s.hold.since
      (fenceReleases u scope s.hold.since (fenceAcquires u scope (fenceWork scope s)))).done 1))

end Sys2Proof.Machine
end

