-- ==== Sys2Proof/Machine/Sys.lean ====
section
/-! DEFINITION. The sys family (R53) but for the words that save a context or load the control store: `nop`, `end`, `yield`,
`trap`, control and status registers, time, the token check, regions and stop requests (R100, R101, R105, R106, R112, R131 to
R133, R341, R342). -/

namespace Sys2Proof.Machine

/-- R53: `nop` only advances the program counter. -/
def execNop (s : State) : Out := issue .nop s [] (fun s => .next (s.done 1))

/-- R100, R101, R342: `end`. The main context enters ENDING, its regions close and no C-word issues after it; a handler
context becomes DORMANT. -/
def execEndTask (s : State) : Out :=
  issue .endTask s [] (fun s =>
    .next (s.upd (fun x =>
      if s.ctx = 0 then
        x.tickId.seq (fun q => { q.setHold 0 {} with st := .ending, regions := [], point := 0 })
      else x.tickId.handlerEnds s.ctx)))

/-- R106: `yield` is a point at which a pending stop is honoured; in a handler context a `nop` (R101). -/
def execYield (s : State) : Out :=
  issue .yield s [] (fun s =>
    .next ((s.done 1).upd (fun x => if s.ctx = 0 then x.seq (fun q => { q with point := 2 }) else x)))

/-- R112: `trap` raises TRAP with the code, TPC at the next C-word. -/
def execTrap (code : BitVec 16) (s : State) : Out :=
  issue (.trap code) s [] (fun s =>
    .next (s.upd (fun x => x.trapAt s.now s.ctx 14 false code.toNat (x.q.pcOf 0 + 1))))

/-- R131: `csrr`. -/
def execCsrr (d csr : Nat) (s : State) : Out :=
  issue (.csrr d csr) s [] (fun s => .next (s.ret d 1 (s.csrRead csr)))

/-- R131: `csrw`: privilege first, then the register's range, each with the CSR number as DATA. -/
def execCsrw (a : Nat) (fea : Bool) (csr : Nat) (s : State) : Out :=
  issue (.csrw a fea csr) s [.s a fea] (fun s =>
    if csrPriv csr ∧ s.me.q.priv = false then privTrap s csr
    else if csrBad csr (s.sc a).toNat then trap s 1 csr
    else .next ((s.csrWrite csr (s.sc a)).done 1))

/-- R132: `rdts`. -/
def execRdts (d : Nat) (s : State) : Out :=
  issue (.rdts d) s [] (fun s => .next (s.ret d 1 (BitVec.ofNat 64 (s.gts s.cur))))

/-- R133: `chk` waits for every earlier token check and traps TOKEN on a sticky KSTAT bit. -/
def execChk (s : State) : Out :=
  drainWord .chk s [] .drain
    (fun s n => s.me.accChecked n && s.me.vChecked 0 n && s.me.vChecked 2 n)
    (fun s => if kSticky s.me.c.kstat then trap s 9 (kEntry s.me.c.kstat) else .next (s.done 1))

/-- R341: `cro` opens a containment region. -/
def execCro (disp : BitVec 37) (s : State) : Out :=
  issue (.cro disp) s [] (fun s =>
    let x := s.me
    let t : Int := s.pc + disp.toInt
    if x.q.tact ∨ 4 ≤ x.q.regions.length ∨ t < 0 ∨ (x.code.ctlLen : Int) ≤ t then illegal (.cro disp) s
    else
      let r : Region := { opc := s.pc, hpc := t.toNat, ldepth := x.q.ldepth, mdepth := x.r.masks.length, swpl := false,
                          since := x.q.nid }
      .next ((s.upd (fun x => x.seq (fun q => { q with regions := r :: q.regions }))).done 1))

/-- Whether a pop that core `c` issued in [`lo`, `hi`) has not delivered its record. -/
def State.popsOut (s : State) (c lo hi : Nat) : Bool :=
  let out (id : Nat) : Bool := decide (lo ≤ id) && decide (id < hi)
  (s.core c).deliv.any (fun d => out d.id) ||
    s.queues.any (fun p => (p.2.pops ++ p.2.arrive).any (fun r => r.core == c && r.isPop && out r.id))

/-- R341, R342: `crc` waits for every item issued since its `cro`, the writes of a redundant pair and the pops among them, and closes
the innermost region. -/
def execCrc (s : State) : Out :=
  drainWord .crc s [] .drain
    (fun s n =>
      match s.me.q.regions with
      | [] => true
      | r :: _ =>
        s.me.q.tact || r.ldepth != s.me.q.ldepth ||
        (s.me.accDone r.since n && s.me.vDone 0 r.since n && s.me.vDone 1 r.since n && s.me.vDone 2 r.since n &&
          s.engDone s.cur r.since n && !s.w.held.any (fun h => h.core == s.cur) && !s.popsOut s.cur r.since n))
    (fun s =>
      match s.me.q.regions with
      | [] => illegal .crc s
      | r :: rest =>
        if s.me.q.tact ∨ r.ldepth ≠ s.me.q.ldepth then illegal .crc s
        else .next ((s.upd (fun x => x.seq (fun q => { q with regions := rest }))).done 1))

/-- R105: `stop` sends a stop request to core sA; privileged. -/
def execStop (a : Nat) (fea : Bool) (s : State) : Out :=
  issue (.stop a fea) s [.s a fea] (fun s =>
    let c := (s.sc a).toNat
    if s.me.q.priv = false then privTrap s (minOf (.stop a fea))
    else if s.cfg.total ≤ c then trap s 1 (c % 2 ^ 32)
    else .next ((s.mod c Core.requestStop).done 1))

end Sys2Proof.Machine
end

