-- ==== Sys2Proof/Machine/VInt.lean ====
section
/-! DEFINITION. Integer vector words (R150, R151): each computes exactly on the selected elements as TY reads them, then
narrows by `wrap`, or by `sat` under MOD bit 0. -/

namespace Sys2Proof.Machine

/-- The selected elements of a word over `n` elements of `wd` bytes (R138, R139). -/
def State.sel (s : State) (w : VFields) (cap : VCap) (n wd : Nat) : List Nat :=
  (List.range n).filter (selected w.gm (guardCount w.gc cap.pred n wd) s.me.mt)

/-- What an elementwise word writes: `f` gives the result and the flags of each selected element, and the others keep what
their register holds (R139). -/
def vEach (w : VFields) (cap : VCap) (s : State) (n wd : Nat) (f : Nat → Nat × BitVec 6) : VRes :=
  let l := (s.sel w cap n wd).map (fun e => (e, f e))
  .done s (elemWrites w.d wd (l.map (fun p => (p.1, p.2.1)))) (l.foldl (fun fl p => fl ||| p.2.2) 0#6)

/-- Element `e` of operand A. -/
def vA (w : VFields) (s : State) (wd e : Nat) : Nat := elem s.me.rdV w.a wd e

/-- Element `e` of operand B: its group, or the captured scalar's low bits (R150, R152). -/
def vB (w : VFields) (cap : VCap) (s : State) (wd e : Nat) : Nat :=
  if w.md / 2 % 2 = 1 then cap.sb.toNat % 2 ^ (8 * wd) else elem s.me.rdV w.b wd e

/-- An integer word: `f` takes the type, the bits of a and of b, and gives the exact result (R150). -/
def vInt (w : VFields) (cap : VCap) (s : State) (f : Nat → Nat → Nat → Int) : VRes :=
  let t := w.ty
  let wd := tyBytes t
  vEach w cap s (groupLen cap.rows wd) wd (fun e =>
    let r := f t (vA w s wd e) (vB w cap s wd e)
    (if w.md % 2 = 1 then tySat t r else tyWrap t r, 0#6))

/-- Leading zero bits of a `bits`-bit number (R151). -/
def leadZero (bits v : Nat) : Nat := if v = 0 then bits else bits - 1 - Nat.log2 v

/-- One bits of a number of at most 64 bits (R151). -/
def onesIn (v : Nat) : Nat := ((List.range 64).filter (fun i => v.testBit i)).length

/-- R151: `vadd`: a + b. -/
def execVadd (w : VFields) (s : State) : Out :=
  vword (.vadd w) w s (fun u c s => vInt u c s (fun t a b => tyInt2 t a + tyInt2 t b))

/-- R151: `vsub`: a − b. -/
def execVsub (w : VFields) (s : State) : Out :=
  vword (.vsub w) w s (fun u c s => vInt u c s (fun t a b => tyInt2 t a - tyInt2 t b))

/-- R151: `vmul`: a × b. -/
def execVmul (w : VFields) (s : State) : Out :=
  vword (.vmul w) w s (fun u c s => vInt u c s (fun t a b => tyInt2 t a * tyInt2 t b))

/-- R151: `vmulh`: the high half of the exact product. -/
def execVmulh (w : VFields) (s : State) : Out :=
  vword (.vmulh w) w s (fun u c s => vInt u c s (fun t a b => (tyInt2 t a * tyInt2 t b) / (2 ^ (8 * tyBytes t) : Nat)))

/-- R151: `vmin`: the smaller by TY signedness. -/
def execVmin (w : VFields) (s : State) : Out :=
  vword (.vmin w) w s (fun u c s => vInt u c s (fun t a b => min (tyInt2 t a) (tyInt2 t b)))

/-- R151: `vmax`: the larger by TY signedness. -/
def execVmax (w : VFields) (s : State) : Out :=
  vword (.vmax w) w s (fun u c s => vInt u c s (fun t a b => max (tyInt2 t a) (tyInt2 t b)))

/-- R151: `vabs`: |a|. -/
def execVabs (w : VFields) (s : State) : Out :=
  vword (.vabs w) w s (fun u c s => vInt u c s (fun t a _ => ((tyInt2 t a).natAbs : Int)))

/-- R151: `vneg`: −a. -/
def execVneg (w : VFields) (s : State) : Out :=
  vword (.vneg w) w s (fun u c s => vInt u c s (fun t a _ => -tyInt2 t a))

/-- R151: `vand`: bitwise AND. -/
def execVand (w : VFields) (s : State) : Out :=
  vword (.vand w) w s (fun u c s => vInt u c s (fun _ a b => (Nat.land a b : Nat)))

/-- R151: `vor`: bitwise OR. -/
def execVor (w : VFields) (s : State) : Out :=
  vword (.vor w) w s (fun u c s => vInt u c s (fun _ a b => (Nat.lor a b : Nat)))

/-- R151: `vxor`: bitwise XOR. -/
def execVxor (w : VFields) (s : State) : Out :=
  vword (.vxor w) w s (fun u c s => vInt u c s (fun _ a b => (Nat.xor a b : Nat)))

/-- R151: `vnot`: bitwise NOT. -/
def execVnot (w : VFields) (s : State) : Out :=
  vword (.vnot w) w s (fun u c s => vInt u c s (fun t a _ => ((2 ^ (8 * tyBytes t) - 1 - a : Nat) : Int)))

/-- R151: `vshl`: a × 2^k with k = b read as unsigned, 0 for k ≥ 8w. -/
def execVshl (w : VFields) (s : State) : Out :=
  vword (.vshl w) w s (fun u c s => vInt u c s (fun t a b => if 8 * tyBytes t ≤ b then 0 else tyInt2 t a * (2 ^ b : Nat)))

/-- R151: `vshr`: floor(a / 2^k) by TY signedness; all sign for k ≥ 8w. -/
def execVshr (w : VFields) (s : State) : Out :=
  vword (.vshr w) w s (fun u c s => vInt u c s (fun t a b => tyInt2 t a / (2 ^ (min b (8 * tyBytes t)) : Nat)))

/-- R151: `vclz`: leading zero bits. -/
def execVclz (w : VFields) (s : State) : Out :=
  vword (.vclz w) w s (fun u c s => vInt u c s (fun t a _ => (leadZero (8 * tyBytes t) a : Nat)))

/-- R151: `vpopc`: one bits. -/
def execVpopc (w : VFields) (s : State) : Out :=
  vword (.vpopc w) w s (fun u c s => vInt u c s (fun _ a _ => (onesIn a : Nat)))

/-- R151: `vsel` takes a where bit e of `mt` is 1 (0 under `.inv`), else b, as raw bits; GC still selects. -/
def execVsel (w : VFields) (s : State) : Out :=
  vword (.vsel w) w s (fun u c s =>
    let wd := tyBytes u.ty
    vEach u c s (groupLen c.rows wd) wd (fun e =>
      (if s.me.mt.getLsbD e != (u.md / 4 % 2 == 1) then vA u s wd e else vB u c s wd e, 0#6)))

end Sys2Proof.Machine
end

