-- ==== Sys2Proof/Machine/VFloat.lean ====
section
/-! DEFINITION. Floating vector words and conversions (R26, R27, R152 to R154): inputs are flushed under FIZ, the exact
result is rounded once under the captured RM and FOZ, and flags land with the result. -/

namespace Sys2Proof.Machine

/-- A flushed operand as a value, and the flag of the flush (R26). -/
def flushV (f : Fmt) (fiz : Bool) (b : Nat) : FV × BitVec 6 :=
  let p := f.flush fiz b
  (f.dec p.1, p.2)

/-- A word of one operand. -/
def vF1 (w : VFields) (cap : VCap) (s : State) (g : Fmt → Nat → Bool → FV → Nat × BitVec 6) : VRes :=
  let f := fmtOf w.ty
  let wd := tyBytes w.ty
  vEach w cap s (groupLen cap.rows wd) wd (fun e =>
    let a := flushV f cap.fiz (vA w s wd e)
    let r := g f cap.rm cap.foz a.1
    (r.1, r.2 ||| a.2))

/-- A word of two operands. -/
def vF2 (w : VFields) (cap : VCap) (s : State) (g : Fmt → Nat → Bool → FV → FV → Nat × BitVec 6) : VRes :=
  let f := fmtOf w.ty
  let wd := tyBytes w.ty
  vEach w cap s (groupLen cap.rows wd) wd (fun e =>
    let a := flushV f cap.fiz (vA w s wd e)
    let b := flushV f cap.fiz (vB w cap s wd e)
    let r := g f cap.rm cap.foz a.1 b.1
    (r.1, r.2 ||| a.2 ||| b.2))

/-- A fused word: `neg` subtracts c. -/
def vF3 (w : VFields) (cap : VCap) (s : State) (neg : Bool) : VRes :=
  let f := fmtOf w.ty
  let wd := tyBytes w.ty
  vEach w cap s (groupLen cap.rows wd) wd (fun e =>
    let a := flushV f cap.fiz (vA w s wd e)
    let b := flushV f cap.fiz (vB w cap s wd e)
    let c := flushV f cap.fiz (elem s.me.rdV w.c wd e)
    let r := fFma f cap.rm cap.foz a.1 b.1 (if neg then c.1.neg else c.1)
    (r.1, r.2 ||| a.2 ||| b.2 ||| c.2))

/-- A minimum or maximum on bits: FIZ applies to the inputs, FOZ to nothing. -/
def vFMM (w : VFields) (cap : VCap) (s : State) (gt : Bool) : VRes :=
  let f := fmtOf w.ty
  let wd := tyBytes w.ty
  vEach w cap s (groupLen cap.rows wd) wd (fun e =>
    let a := f.flush cap.fiz (vA w s wd e)
    let b := f.flush cap.fiz (vB w cap s wd e)
    let r := fMinMax f gt a.1 b.1
    (r.1, r.2 ||| a.2 ||| b.2))

/-- A sign operation: neither FIZ nor FOZ, no flag, and the canonical NaN for a NaN. -/
def vFSign (w : VFields) (cap : VCap) (s : State) (g : Nat → Nat → Nat) : VRes :=
  let f := fmtOf w.ty
  let wd := tyBytes w.ty
  vEach w cap s (groupLen cap.rows wd) wd (fun e =>
    let a := vA w s wd e
    (if (f.dec a).isNan then f.nan else g (2 ^ (8 * wd - 1)) a, 0#6))

/-- R153: `vfadd`: a + b. -/
def execVfadd (w : VFields) (s : State) : Out := vword (.vfadd w) w s (fun u c s => vF2 u c s fAdd)

/-- R153: `vfsub`: a − b. -/
def execVfsub (w : VFields) (s : State) : Out := vword (.vfsub w) w s (fun u c s => vF2 u c s (fun f rm foz a b => fAdd f rm foz a b.neg))

/-- R153: `vfmul`: a × b. -/
def execVfmul (w : VFields) (s : State) : Out := vword (.vfmul w) w s (fun u c s => vF2 u c s fMul)

/-- R153: `vfma`: a × b + c, rounded once. -/
def execVfma (w : VFields) (s : State) : Out := vword (.vfma w) w s (fun u c s => vF3 u c s false)

/-- R153: `vfms`: a × b − c, rounded once. -/
def execVfms (w : VFields) (s : State) : Out := vword (.vfms w) w s (fun u c s => vF3 u c s true)

/-- R153: `vfdiv`: a / b. -/
def execVfdiv (w : VFields) (s : State) : Out := vword (.vfdiv w) w s (fun u c s => vF2 u c s fDiv)

/-- R153: `vfsqrt`: √a. -/
def execVfsqrt (w : VFields) (s : State) : Out := vword (.vfsqrt w) w s (fun u c s => vF1 u c s fSqrt)

/-- R153: `vfrcp`: 1 / a. -/
def execVfrcp (w : VFields) (s : State) : Out := vword (.vfrcp w) w s (fun u c s => vF1 u c s fRcp)

/-- R153: `vfrsq`: 1 / √a. -/
def execVfrsq (w : VFields) (s : State) : Out := vword (.vfrsq w) w s (fun u c s => vF1 u c s fRsq)

/-- R153: `vfexp2`: 2^a. -/
def execVfexp2 (w : VFields) (s : State) : Out := vword (.vfexp2 w) w s (fun u c s => vF1 u c s fExp2)

/-- R153: `vflog2`: log2 a. -/
def execVflog2 (w : VFields) (s : State) : Out := vword (.vflog2 w) w s (fun u c s => vF1 u c s fLog2)

/-- R153: `vfmin`: the smaller. -/
def execVfmin (w : VFields) (s : State) : Out := vword (.vfmin w) w s (fun u c s => vFMM u c s false)

/-- R153: `vfmax`: the larger. -/
def execVfmax (w : VFields) (s : State) : Out := vword (.vfmax w) w s (fun u c s => vFMM u c s true)

/-- R153: `vfabs`: the sign cleared. -/
def execVfabs (w : VFields) (s : State) : Out := vword (.vfabs w) w s (fun u c s => vFSign u c s (fun m a => a % m))

/-- R153: `vfneg`: the sign flipped. -/
def execVfneg (w : VFields) (s : State) : Out := vword (.vfneg w) w s (fun u c s => vFSign u c s (fun m a => if a < m then a + m else a - m))

/-- R154: `vcvt` converts element e of type S (MOD bits 3:0) into type T (TY) by R30. -/
def execVcvt (w : VFields) (s : State) : Out :=
  vword (.vcvt w) w s (fun u c s =>
    let src := u.md % 16
    let wt := tyBytes u.ty
    let ws := tyBytes src
    vEach u c s (groupLen c.rows (max ws wt)) wt (fun e =>
      cvt src u.ty c.rm c.fiz c.foz (u.md / 16 % 2 == 1) (elem s.me.rdV u.a ws e)))

end Sys2Proof.Machine
end

