-- ==== Sys2Proof/Machine/VBlock.lean ====
section
/-! DEFINITION. Block vector words (R155 to R158): codebook decoding, packing, unpacking and the largest magnitude. -/

namespace Sys2Proof.Machine

/-- The b16 entries of the table in bytes 0 to 31 of vC (R155). -/
def vTable (w : VFields) (s : State) (c : Nat) : Nat := elem s.me.rdV w.c 2 (c % 16)

/-- The block in the half of a register that MOD bit 0 names. -/
def vBlockOf (w : VFields) (s : State) : Nat := elem s.me.rdV w.a 64 (w.md % 2)

/-- A V-word consumed a block that is no block (R34, R339): it writes nothing and raises the event. -/
def vConsumed (kind : Nat) (cap : VCap) (s : State) : VRes :=
  .done (s.contain s.cur 0 kind 2 0xFFFF cap.idx cap.id true 1) [] 0#6

/-- A table entry as an output: exact, and a NaN in its canonical form (R22). -/
def cbOut (b16 : Bool) (v : Nat) : Nat :=
  if (fmtB16.dec v).isNan then (if b16 then fmtB16.nan else fmtF32.nan) else if b16 then v else v * 2 ^ 16

/-- R155: `vcb.k4` decodes nibble j of the run at vA through the table in vC, to f32 or b16. -/
def execVcb (w : VFields) (s : State) : Out :=
  vword (.vcb w) w s (fun u c s =>
    let b16 := u.md % 2 == 1
    let wd := if b16 then 2 else 4
    vEach u c s (vcbLen u c.rows) wd (fun j =>
      (cbOut b16 (vTable u s (elem s.me.rdV u.a 1 (j / 2) / 16 ^ (j % 2) % 16)), 0#6)))

/-- R156: `vpack` writes one block into half of vD. -/
def execVpack (w : VFields) (s : State) : Out :=
  vword (.vpack w) w s (fun u c s =>
    let f := u.ty - 10
    let n := fmtLen f
    let on := selected u.gm (guardCount u.gc c.pred n 4) s.me.mt
    let xs := (List.range n).map (fun j =>
      if on j then flushV fmtF32 c.fiz (vA u s 4 j) else (.fin false 0 0, 0#6))
    let open_ := ((List.range 8).map (fun i => (s.free (i + 1)).toNat * 2 ^ (64 * i))).sum
    let r := packBlock f c.rm c.foz (vTable u s) (u.md / 2 % 2 == 1) (s8Of u.imm.toNat) (xs.map Prod.fst) (s.free 0).toNat open_
    .done s (elemWrites u.d 64 [(u.md % 2, r.1)]) (xs.foldl (fun fl p => fl ||| p.2) r.2))

/-- R157: `vunpack` decodes a block into f32 values under selection; what lies past element n − 1 is written zero. -/
def execVunpack (w : VFields) (s : State) : Out :=
  vword (.vunpack w) w s (fun u c s =>
    let f := u.ty - 10
    let n := fmtLen f
    let b := vBlockOf u s
    let write (g : Nat → Nat × BitVec 6) : VRes :=
      let l := (s.sel u c n 4).map (fun e => (e, g e))
      let tail := (List.range (32 * regsFor n 4 - n)).map (fun i => (n + i, 0))
      .done s (elemWrites u.d 4 (l.map (fun p => (p.1, p.2.1)) ++ tail)) (l.foldl (fun fl p => fl ||| p.2.2) 0#6)
    match blkHead b with
    | .poison => vConsumed kPoison c s
    | .illegal => vConsumed kIllegalBlock c s
    | .zero _ => write (fun _ => (0, 0#6))
    | .ok g sc =>
      if g ≠ f then vConsumed kIllegalBlock c s
      else write (fun j =>
        match (blkElem b f (vTable u s) j).scale sc with
        | .nan sg => (fmtF32.nan, if sg then fNV else 0#6)
        | v => fmtF32.ofFV c.rm c.foz v))

/-- R158: `vamax` writes the largest magnitude, rounded toward +∞, as f32 element 0 and zeroes the rest. A block is decoded by its own
FMT, whatever TY names (DESIGN CHOICE, notes/assumptions/76.md). -/
def execVamax (w : VFields) (s : State) : Out :=
  vword (.vamax w) w s (fun u c s =>
    let out (v : FV) : VRes := .done s (regWrites u.d 4 1 [(0, (fmtF32.ofFV 2 false v).1)]) 0#6
    if u.ty < 11 then
      let wd := tyBytes u.ty
      out ((s.sel u c (groupLen c.rows wd) wd).foldl
        (fun (a : FV) e => a.maxAbs ((fmtOf u.ty).dec (vA u s wd e))) (FV.fin false 0 0))
    else
      let b := vBlockOf u s
      match blkHead b with
      | .poison => vConsumed kPoison c s
      | .illegal => vConsumed kIllegalBlock c s
      | _ => out (blkAmax b (vTable u s)))

end Sys2Proof.Machine
end

