-- ==== Sys2Proof/Machine/VMask.lean ====
section
/-! DEFINITION. The mask stack, end of stream, uniform skip and `vnop` (R140, R145, R147, R161, R162, R166). -/

namespace Sys2Proof.Machine

/-- Replace the mask stack of the running core, of which the entries from `d` on, counted from the bottom, are new or gone: they hold no
bad data (R338). -/
def State.setMasks (s : State) (l : List (BitVec 768)) (d : Nat) : State :=
  s.upd (fun x => { x with r := { x.r with masks := l, bad := Sparse.keep (fun g _ => decide (g < mGran d 0)) x.r.bad } })

/-- An integer condition of R161. -/
def maskInt (cond : Nat) (a b : Int) : Bool :=
  if cond = 0 then a == b else if cond = 1 then a != b else if cond = 2 then decide (a < b)
  else if cond = 3 then decide (b ≤ a) else a != 0

/-- A floating condition of R161, with its flags: `lt` and `ge` set NV on any NaN, the others on a signalling one. -/
def maskFloat (f : Fmt) (fiz : Bool) (cond a b : Nat) : Bool × BitVec 6 :=
  let x := flushV f fiz a
  let y := flushV f fiz b
  let two := cond < 4
  let nan := x.1.isNan || (two && y.1.isNan)
  let fl := x.2 ||| (if two then y.2 else 0#6) ||| sigFlag (if two then [x.1, y.1] else [x.1]) |||
    (if nan ∧ (cond = 2 ∨ cond = 3) then fNV else 0#6)
  let v := if cond = 5 then x.1.isNan
    else if cond = 4 then nan || !x.1.isZero
    else if nan then cond == 1
    else if cond = 0 then fEq x.1 y.1
    else if cond = 1 then !fEq x.1 y.1
    else if cond = 2 then fLt x.1 y.1
    else !fLt x.1 y.1
  (v, fl)

/-- R161: `mpush` pushes `mt` AND the compare mask; a full stack traps MASKOVF. -/
def execMpush (w : VFields) (s : State) : Out :=
  vword (.mpush w) w s (fun u c s =>
    if 16 ≤ s.me.r.masks.length then .trap 5
    else
      let wd := tyBytes u.ty
      let cond := u.md % 8
      let cnt := guardCount u.gc c.pred (groupLen c.rows wd) wd
      let rs := (List.range cnt).map (fun e =>
        let a := vA u s wd e
        let b := elem s.me.rdV u.b wd e
        if u.ty < 8 then (maskInt cond (tyInt2 u.ty a) (tyInt2 u.ty b), 0#6) else maskFloat (fmtOf u.ty) c.fiz cond a b)
      let m : Nat := ((rs.zip (List.range cnt)).map (fun p => if p.1.1 then 2 ^ p.2 else 0)).sum
      .done (s.setMasks ((s.me.mt &&& BitVec.ofNat 768 m) :: s.me.r.masks) s.me.r.masks.length) [] (rs.foldl (fun fl p => fl ||| p.2) 0#6))

/-- R162: `minv` replaces `mt` with the mask below AND NOT `mt`. -/
def execMinv (w : VFields) (s : State) : Out :=
  vword (.minv w) w s (fun _ _ s =>
    match s.me.r.masks with
    | m :: b :: rest => .done (s.setMasks ((b &&& ~~~m) :: b :: rest) (rest.length + 1)) [] 0#6
    | _ => .trap 6)

/-- R162: `mpop` removes `mt`. -/
def execMpop (w : VFields) (s : State) : Out :=
  vword (.mpop w) w s (fun _ _ s =>
    match s.me.r.masks with
    | _ :: rest => .done (s.setMasks rest rest.length) [] 0#6
    | [] => .trap 6)

/-- R147: `vskip n` skips the next n A-queue words when the stack is not empty and `mt` is zero. What ends the count is
(DEDUCED, notes/assumptions/39.md). -/
def execVskip (w : VFields) (s : State) : Out :=
  vword (.vskip w) w s (fun u _ s =>
    .done (match s.me.r.masks with
      | m :: _ => if m = 0#768 then s.upd (fun x => x.vu (fun v => { v with skip := u.imm.toNat })) else s
      | [] => s) [] 0#6)

/-- The ending iteration of a `swpl` becomes `j` if it was unset or greater (R145). -/
def endStream (l : List (Nat × Nat)) (inst j : Nat) : List (Nat × Nat) :=
  match l.find? (fun p => p.1 == inst) with
  | some p => if j < p.2 then l.map (fun q => if q.1 = inst then (inst, j) else q) else l
  | none => (inst, j) :: l

/-- R145: `veos` fires when it selects an element of an s8-width group; outside a `swpl` it has no effect. -/
def execVeos (w : VFields) (s : State) : Out :=
  vword (.veos w) w s (fun u c s =>
    .done (if c.inst ≠ 0 ∧ (s.sel u c (128 * c.rows) 1) ≠ [] then
        s.upd (fun x => x.vu (fun v => { v with ends := endStream v.ends c.inst c.tag }))
      else s) [] 0#6)

/-- R166: `vnop` enters its queue and has no effect. -/
def execVnop (w : VFields) (s : State) : Out := vword (.vnop w) w s (fun _ _ s => .done s [] 0#6)

end Sys2Proof.Machine
end

