-- ==== Sys2Proof/Machine/VMem.lean ====
section
/-! DEFINITION. Vector memory words (R144, R148, R149): the address of every element, its check, the order L and S words
keep, and the six words. -/

namespace Sys2Proof.Machine

/-- How a word places its elements (R149): 0 dense, 1 rows at a pitch, 2 by an index run. -/
def vMemForm (op : Nat) : Nat := if op ≤ 1 then 0 else if op ≤ 3 then 2 else 1

/-- The selected elements of a memory word with their byte offsets, exact (R138, R148, R149); `rd` reads vector registers. -/
def vOffsets (op : Nat) (w : VFields) (cap : VCap) (rd : Nat → VReg) : List (Nat × Int) :=
  let b := tyBytes w.ty
  let n := groupLen cap.rows b
  (List.range (guardCount w.gc cap.pred n b)).map (fun e =>
    (e, match vMemForm op with
      | 0 => cap.off + (e * b : Nat)
      | 1 => cap.off + (e * b / 128 * (64 * w.c) + e % (128 / b) * b : Nat)
      | _ => cap.off + (elem rd w.c 4 e : Nat)))

/-- The physical bytes a word's elements reach through its token, for the overlap of R144; none where an entry is DRAINING or
an index run is not full. -/
def State.vBytes (s : State) (c op : Nat) (w : VFields) (cap : VCap) : Option (List Nat) :=
  let x := s.core c
  if vMemForm op = 2 ∧ (run w.c (regsFor (groupLen cap.rows (tyBytes w.ty)) 4)).any (fun r => !x.vFull cap.id r) then none
  else
    (vOffsets op w cap x.rdV).foldl (fun acc p =>
      match acc, s.check cap.tok p.2 (tyBytes w.ty) 0#4 with
      | none, _ => none
      | some l, .pass _ pas => some (l ++ pas)
      | some l, .fail _ _ => some l
      | some _, .wait => none) (some [])

/-- Whether an earlier word of the other memory queue holds this one back (R144, R300): it shares bytes, its bytes cannot be
told yet, or both are strong. `own` are the bytes of the elements that are to perform, which alone count for `vgat` and `vsca`
(R384). -/
def State.vBlocked (s : State) (c op q : Nat) (w : VFields) (cap : VCap) (own : List Nat) : Bool :=
  let x := s.core c
  let mine : Option (List Nat) := if vMemForm op = 2 then some own else s.vBytes c op w cap
  let other := if q = 0 then 2 else 0
  let waiting := (x.v.queue other).any (fun e => decide (e.cap.id < cap.id) &&
    match vParts e.i with
    | none => false
    | some (o2, w2) =>
      decide (o2 ≤ 5) && cap.tok.entry != 0 && e.cap.tok.entry != 0 &&
      ((cap.tok.kind == 0 && e.cap.tok.kind == 0) ||
        match mine, s.vBytes c o2 w2 e.cap with
        | some l, some m => l.any (fun p => m.contains p)
        | _, _ => true))
  let stores := q = 0 && x.acc.any (fun a => a.op == .vstore && decide (a.id < cap.id) &&
    ((cap.tok.kind == 0 && a.tok.kind == 0) || a.chk == 0 ||
      match mine with
      | some l => l.any (fun p => a.pas.contains p)
      | none => true))
  waiting || stores

/-- A vector access against the C-word accesses its context issued before it (R130, R300 to R304): it waits for an earlier acquire, for
an earlier strong access if it is strong, and for an earlier load or atomic of a byte it reads or writes; a load that is performed at
its home (`home`) waits for a store of one too. -/
def State.vAfterC (s : State) (c : Nat) (cap : VCap) (pas : List Nat) (home : Bool) : Bool :=
  (cap.tok.kind == 2 || !s.popPending c 0 cap.id) && (s.core c).acc.all (fun a => decide (cap.id ≤ a.id) || a.ctx != 0 || a.op == .vstore || a.tok.kind == 2 ||
    cap.tok.kind == 2 ||
    !(a.acq || a.chk == 0 || (a.tok.kind == 0 && cap.tok.kind == 0) ||
      ((a.op != .store || home) && a.pas.any (fun p => pas.contains p))))

/-- The check of every selected element (R148, R209). -/
def State.vChecks (s : State) (w : VFields) (cap : VCap) (need : BitVec 4) (l : List (Nat × Int)) : List (Nat × Int × Chk) :=
  l.map (fun p => (p.1, p.2, s.check cap.tok p.2 (tyBytes w.ty) need))

/-- The physical bytes of the elements that passed. -/
def passed (l : List (Nat × Int × Chk)) : List Nat :=
  l.flatMap (fun p => match p.2.2 with | .pass _ l => l | _ => [])

/-- The KSTAT bits of failed elements, and the entries of passed ones in the token cache. -/
def Core.vRecord (x : Core) (l : List (Nat × Int × Chk)) : Core :=
  l.foldl (fun x p => match p.2.2 with
    | .fail b e => x.kset b e
    | .pass t _ => x.cacheTok t.entry
    | .wait => x) x

/-- Whether an element of a word is performed at its home slice (R218, R300). -/
def Core.vHome (x : Core) (w : VFields) (cap : VCap) (t : Token) (off : Int) : Bool :=
  t.kind == 0 || x.bypasses t.entry ((t.base * 64 : Nat) + off).toNat (tyBytes w.ty) cap.id

/-- One element of a load: bad data raises one event for the word and leaves that element (R339); a failed element is 0. A gather's
index register orders it after what its context has read by now (R297, R304). -/
def vLoadElem (c op : Nat) (w : VFields) (cap : VCap) (acc : State × List (Nat × Nat) × Bool) (p : Nat × Int × Chk) :
    State × List (Nat × Nat) × Bool :=
  match p.2.2 with
  | .pass t pas =>
    let home := (acc.1.core c).vHome w cap t p.2.1
    match (if home then acc.1.bypass c pas else acc.1).consume c 0 cap.id home pas with
    | (u, some e) =>
      if acc.2.2 then (u, acc.2.1, true)
      else (u.contain c 0 e.1 1 e.2 cap.idx cap.id true 0, acc.2.1, true)
    | (u, none) =>
      let r := u.loaded c 0 cap.id t.kind home false 0 (some (if op = 2 then (u.hbOf c 0).seen else cap.floor)) pas
      let win := (r.1.core c).windowed t.entry ((t.base * 64 : Nat) + p.2.1).toNat (tyBytes w.ty) cap.id
      (if win then r.1.fillFor c pas else r.1, acc.2.1 ++ [(p.1, leNat r.2)], acc.2.2)
  | _ => (acc.1, acc.2.1 ++ [(p.1, 0)], acc.2.2)

/-- R148, R149: a vector load at the L head performs its elements, or those of them that the turn names (R384); with the last of them
the word is done. Which elements have been performed is kept with the word. -/
def vLoad (op : Nat) (w : VFields) (cap : VCap) (s : State) : VRes :=
  let x := s.me
  if bit w.md 4 ∧ x.readerGo w.e cap.fill = false then .wait
  else
    let todo := (vOffsets op w cap x.rdV).filter (fun p => !cap.done.contains p.1)
    let l := match s.part with
      | some sel => todo.filter (fun p => sel.contains p.1)
      | none => todo
    let cs := s.vChecks w cap rR l
    let pas := passed cs
    let home := cs.any (fun p => match p.2.2 with | .pass t _ => x.vHome w cap t p.2.1 | _ => false)
    if cs.any (fun p => p.2.2 == .wait) ∨ !s.linked pas ∨ s.vBlocked s.cur op 0 w cap pas ∨ s.vAfterC s.cur cap pas home = false then .wait
    else
      let t := (if bit w.md 4 then s.observe s.cur 0 0 x.copyMark else s).upd (fun x => x.vRecord cs)
      let r := cs.foldl (vLoadElem t.cur op w cap) (t, cap.got, cap.found)
      if l.length < todo.length then
        .next (r.1.upd (fun x => x.vu (fun v => { v with ql := v.ql.map (fun e =>
          if e.cap.id = cap.id then { e with cap := { e.cap with got := r.2.1, found := r.2.2, done := cap.done ++ l.map Prod.fst } } else e) })))
      else .done r.1 (elemWrites w.d (tyBytes w.ty) r.2.1) 0#6

/-- R148, R149: a vector store at the S head: its bytes are known and on their way, in ascending element order, with the
marks of their registers (R338). Its access names the V-word's index. -/
def vStore (op : Nat) (w : VFields) (cap : VCap) (s : State) : VRes :=
  let x := s.me
  let l := vOffsets op w cap x.rdV
  let cs := s.vChecks w cap rW l
  let pas := passed cs
  if cs.any (fun p => p.2.2 == .wait) ∨ s.vBlocked s.cur op 2 w cap pas ∨ s.vAfterC s.cur cap pas false = false then .wait
  else
    let b := tyBytes w.ty
    let data := cs.flatMap (fun p => match p.2.2 with
      | .pass _ _ => leBytes b (elem x.rdV w.d b p.1)
      | _ => [])
    let tok := (cs.findSome? (fun p => match p.2.2 with | .pass t _ => some t | _ => none)).getD cap.tok
    let gran (e i : Nat) : Nat := vGran (w.d + (e * b + i) / 128) ((e * b + i) % 128 / 8)
    let gs := cs.flatMap (fun p => match p.2.2 with
      | .pass _ _ => (List.range b).map (gran p.1)
      | _ => [])
    let bad := if x.r.bad = [] then []
      else ((List.range gs.length).zip gs).filterMap (fun p =>
        let m := Sparse.get 0 x.r.bad p.2
        if m = 0 then none else some (p.1, (m - 1) % 2 ^ 16))
    let a : Acc := { mkAcc .vstore 0 b tok cap.off 0#64 0#64 { acq := false, rel := false, scope := 0 } with
      id := cap.id, chk := 1, pas := pas, data := data, pc := cap.idx, depth := cap.depth, seq := cap.wseq, bad := bad, clk := cap.clk }
    let t := (if bad = [] then s else s.readGranules s.cur gs).upd (fun x => x.vRecord cs)
    .done (if pas = [] then t else t.upd (fun x => { x with acc := x.acc ++ [a] })) [] 0#6

/-- R149: `vld`. -/
def execVld (w : VFields) (s : State) : Out := vword (.vld w) w s (fun u c s => vLoad 0 u c s)
/-- R149: `vst`. -/
def execVst (w : VFields) (s : State) : Out := vword (.vst w) w s (fun u c s => vStore 1 u c s)
/-- R149: `vgat`. -/
def execVgat (w : VFields) (s : State) : Out := vword (.vgat w) w s (fun u c s => vLoad 2 u c s)
/-- R149: `vsca`. -/
def execVsca (w : VFields) (s : State) : Out := vword (.vsca w) w s (fun u c s => vStore 3 u c s)
/-- R149: `vldb`. -/
def execVldb (w : VFields) (s : State) : Out := vword (.vldb w) w s (fun u c s => vLoad 4 u c s)
/-- R149: `vstb`. -/
def execVstb (w : VFields) (s : State) : Out := vword (.vstb w) w s (fun u c s => vStore 5 u c s)

/-! ### Deadlock (R143) -/

/-- Whether a memory word waits on a handle, or for a word of the other queue (R143, R144): it then waits on no register. -/
def State.waitsElsewhere (s : State) (c op q : Nat) (w : VFields) (cap : VCap) : Bool :=
  decide (op ≤ 5) && ((q == 0 && bit w.md 4 && !(s.core c).readerGo w.e cap.fill) ||
    (s.vBytes c op w cap).any (fun l => s.vBlocked c op q w cap l))

/-- The registers the head of a queue awaits (R143): its empty sources with FE 0; none where it waits on none. A head whose empty
sources all have FE 1 waits on none: it traps (R141). The first of them, in the order of its operand fields, is the one that
TINFO.DATA names (DESIGN CHOICE, notes/assumptions/73.md). -/
def State.headAwaits (s : State) (c q : Nat) : Option (VEntry × Nat × List Nat) :=
  let x := s.core c
  match x.v.queue q with
  | [] => none
  | e :: _ => match vParts e.i with
    | none => none
    | some (op, w) =>
      if x.ended w e.cap ∨ (q = 1 ∧ x.v.skip ≠ 0) ∨ s.waitsElsewhere c op q w e.cap then none
      else match ((vSrcs op w e.cap.rows).filter (fun p => !p.2 && !x.vFull e.cap.id p.1)).map Prod.fst with
        | [] => none
        | r :: rest => some (e, r, r :: rest)

/-- R143: every non-empty queue's head awaits an empty register that neither a word in flight nor a Marver command will fill:
the earliest issued of them traps, and DATA is the register of the first non-empty queue's head. Which producers count is
(DEDUCED, notes/assumptions/19.md). -/
def execDeadlock (c : Nat) (s : State) : Out :=
  let x := s.core c
  let qs := [0, 1, 2].filter (fun q => !(x.v.queue q).isEmpty)
  let waits := qs.filterMap (fun q => (s.headAwaits c q).map (fun p => (q, p.1, p.2.1, p.2.2)))
  let busy : List Nat := x.v.fl.map (fun f => f.id) ++ x.e.mxq.map (fun k => k.id) ++
    ((s.marver (s.cfg.marver c)).order.filter (fun k => k.core == c)).map (fun k => k.id)
  match waits with
  | [] => .next s
  | (q0, e0, r0, l0) :: rest =>
    if waits.length = qs.length ∧
        waits.all (fun p => p.2.2.2.all (fun r => (x.vMarks r).all (fun id => !busy.contains id))) then
      let first := rest.foldl (fun b p => if p.2.1.cap.id < b.2.1.cap.id then p else b) (q0, e0, r0, l0)
      .next (s.mod c (fun x => x.vTrap s.now first.1 3 r0 first.2.1.cap))
    else .next s

end Sys2Proof.Machine
end

