-- ==== Sys2Proof/Machine/VPerm.lean ====
section
/-! DEFINITION. Reductions and permutations (R159, R160). -/

namespace Sys2Proof.Machine

/-- An element as a reduction takes it: flushed under FIZ (R23, R26), and a NaN made canonical (R22), with NV for a signalling one
(R27). -/
def redIn (f : Fmt) (fiz : Bool) (x : Nat) : Nat × BitVec 6 :=
  let a := f.flush fiz x
  (if (f.dec a.1).isNan then f.nan else a.1, a.2 ||| sigFlag [f.dec a.1])

/-- The running value and the next element, reduced by op 0 to 2 of R159 in a floating type; only the element is an input. -/
def redFloat (f : Fmt) (op rm : Nat) (fiz foz : Bool) (z x : Nat) : Nat × BitVec 6 :=
  let b := redIn f fiz x
  let r := if op = 0 then fAdd f rm foz (f.dec z) (f.dec b.1) else fMinMax f (op == 2) z b.1
  (r.1, r.2 ||| b.2)

/-- A floating reduction in ascending order from the first selected element (R159). FIZ flushes each source (DEDUCED,
notes/assumptions/48.md); FOZ does not flush a lone element, which no step rounds (DESIGN CHOICE, notes/assumptions/76.md). -/
def redFloats (f : Fmt) (op rm : Nat) (fiz foz : Bool) : List Nat → Nat × BitVec 6
  | [] => (if op = 0 then 0 else f.inf (op == 2), 0#6)
  | x :: rest =>
    rest.foldl (fun (z : Nat × BitVec 6) y => let q := redFloat f op rm fiz foz z.1 y
                                              (q.1, z.2 ||| q.2)) (redIn f fiz x)

/-- An integer reduction (R159), as bits. -/
def redInts (t op : Nat) (sat : Bool) (l : List Nat) : Nat :=
  let v := l.map (tyInt2 t)
  if op = 0 then (if sat then tySat t v.sum else tyWrap t v.sum)
  else if op = 1 then tyWrap t (v.foldl min (tyHigh t))
  else if op = 2 then tyWrap t (v.foldl max (tyLow t))
  else if op = 3 then l.foldl Nat.land (2 ^ (8 * tyBytes t) - 1)
  else if op = 4 then l.foldl Nat.lor 0
  else l.foldl Nat.xor 0

/-- R159: `vred` reduces the selected elements into element 0 of vD and zeroes the rest. -/
def execVred (w : VFields) (s : State) : Out :=
  vword (.vred w) w s (fun u c s =>
    let wd := tyBytes u.ty
    let n := groupLen c.rows wd
    let on := s.sel u c n wd
    let l := on.map (vA u s wd)
    let op := u.md % 8
    let out (wo v : Nat) (fl : BitVec 6) : VRes := .done s (regWrites u.d wo 1 [(0, v)]) fl
    if op = 6 then out 4 (l.filter (· != 0)).length 0#6
    else if op = 7 then
      out 4 (if l = [] then 0 else (on.find? (fun e => vA u s wd e != 0)).getD (guardCount u.gc c.pred n wd)) 0#6
    else if u.ty < 8 then out wd (redInts u.ty op (u.md / 8 % 2 == 1) l) 0#6
    else
      let r := redFloats (fmtOf u.ty) op c.rm c.fiz c.foz l
      out wd r.1 r.2)

/-- A permutation: `f` gives the raw bits of element e (R160); it merges. -/
def vMove (w : VFields) (cap : VCap) (s : State) (f : Nat → Nat → Nat → Nat) : VRes :=
  let wd := tyBytes w.ty
  let n := groupLen cap.rows wd
  vEach w cap s n wd (fun e => (f wd n e, 0#6))

/-- R160: `vperm` takes element idx(e) mod n, idx an n16 run at vB. -/
def execVperm (w : VFields) (s : State) : Out :=
  vword (.vperm w) w s (fun u c s => vMove u c s (fun wd n e => vA u s wd (elem s.me.rdV u.b 2 e % n)))

/-- R160: `vtrns` transposes in square tiles; columns past the last whole tile are copied. -/
def execVtrns (w : VFields) (s : State) : Out :=
  vword (.vtrns w) w s (fun u c s => vMove u c s (fun wd _ e =>
    let m := 128 / wd
    let row := e / m
    let col := e % m
    let t := col / c.rows
    let k := col % c.rows
    if (t + 1) * c.rows ≤ m then vA u s wd (k * m + t * c.rows + row) else vA u s wd e))

/-- R160: `vbcast` broadcasts element IMM32, or the captured scalar narrowed. -/
def execVbcast (w : VFields) (s : State) : Out :=
  vword (.vbcast w) w s (fun u c s => vMove u c s (fun wd n _ =>
    if u.md / 2 % 2 = 1 then c.sb.toNat % 2 ^ (8 * wd)
    else if u.imm.toNat < n then vA u s wd u.imm.toNat else 0))

/-- R160: `vslide` slides across two groups by IMM32. -/
def execVslide (w : VFields) (s : State) : Out :=
  vword (.vslide w) w s (fun u c s => vMove u c s (fun wd n e =>
    let k := u.imm.toNat
    if e + k < n then vA u s wd (e + k) else if e + k < 2 * n then elem s.me.rdV u.b wd (e + k - n) else 0))

/-- R160: `vcompress` packs the selected elements from element 0; the rest of the group is zero. -/
def execVcompress (w : VFields) (s : State) : Out :=
  vword (.vcompress w) w s (fun u c s =>
    let wd := tyBytes u.ty
    let on := s.sel u c (groupLen c.rows wd) wd
    .done s (regWrites u.d wd c.rows ((List.range on.length).zip (on.map (vA u s wd)))) 0#6)

end Sys2Proof.Machine
end

