-- ==== Sys2Proof/Machine/Wear.lean ====
section
/-! DEFINITION. Redundant pairs' comparison, the scrubber, the Lehr, the wear record, the management mailbox and a module reset
(R16, R205, R329, R346 to R353). -/

namespace Sys2Proof.Machine

/-! ### Redundant pairs (R348) -/

/-- Whether two accesses of a pair write the same: operation, address, width and bytes, their operands at that width. Two with no bytes of their own yet are
compared by their windows. What is compared is the model's reading (DESIGN CHOICE, notes/assumptions/28.md). -/
def Acc.agrees (a b : Acc) : Bool :=
  let cut (x : Word) : Nat := x.toNat % 2 ^ (8 * a.w)
  a.op == b.op && a.w == b.w && a.pas == b.pas && cut a.a == cut b.a && (a.op != .amo 9 || cut a.b == cut b.b) && a.data == b.data &&
    (a.pas != [] || (a.tok == b.tok && a.off == b.off))

/-- Whether two held writes agree. -/
def HeldOp.agrees : HeldOp → HeldOp → Bool
  | .acc a, .acc b => a.agrees b
  | .push q r, .push p o => q == p && r.op == o.op
  | .bytes l _ _ _ p, .bytes m _ _ _ q => if p = [] ∧ q = [] then l == m else l.map Prod.fst == m.map Prod.fst && p == q
  | .acc _, .push _ _ | .acc _, .bytes _ _ _ _ _ | .push _ _, .acc _ | .push _ _, .bytes _ _ _ _ _ | .bytes _ _ _ _ _, .acc _
  | .bytes _ _ _ _ _, .push _ _ => false

/-- A held write leaves its slice. -/
def State.dropHeld (s : State) (h : Held) : State := { s with w := { s.w with held := s.w.held.erase h } }

/-- A held write has left its slice: the access it belongs to is over once no unit of it is held. -/
def State.heldOver (s : State) (h : Held) : State :=
  match h.op with
  | .acc a =>
    if s.w.held.any (fun k => k.core == h.core && (match k.op with | .acc b => b.id == a.id | _ => false)) then s
    else s.mod h.core (fun x => x.dropAcc a.id)
  | .push _ _ | .bytes _ _ _ _ _ => s

/-- The command of core `c` whose write has number `n`: its context, C-word and place on the issue timeline. -/
def State.cmdOf (s : State) (c n : Nat) : Nat × Nat × Nat :=
  let x := s.core c
  match x.e.copies.find? (fun k => k.wseq == n) with
  | some k => (k.ctx, k.pc, k.id)
  | none => match (s.mxOwn c).find? (fun k => k.wseq == n) with
    | some k => (k.ctx, k.pc, k.id)
    | none => match (s.umOf (s.cfg.paneOf c)).order.find? (fun k => k.core == c && k.wseq == n) with
      | some k => (k.ctx, k.pc, k.id)
      | none => (0, 0, x.q.nid)

/-- REDMIS on the core of a held write (R348): it is not performed; a register it would fill keeps its value, and a context that
waits for it goes on. The event's unit is 0xFFFF (DESIGN CHOICE, notes/assumptions/28.md). -/
def State.redmis (s : State) (h : Held) : State :=
  let c := h.core
  let t := (((s.dropHeld h).heldOver h).logEvent 3 (s.cfg.coreUnit c)).noteUnit (s.cfg.coreUnit c)
  let ev (t : State) (ctx src pc clk : Nat) (vec : Bool) (q : Nat) : State :=
    t.contain c ctx kRedmis src 0xFFFF (if vec ∨ ctx ≠ 0 then pc else 0) clk vec q
  match h.op with
  | .acc a =>
    match a.op with
    | .join => t.endEvent c (kRedmis, 0xFFFF)
    | .vstore => ev t 0 3 a.pc a.id true 2
    | .futWait => (ev t 0 0 0 a.id false 3).mod c (fun x => ((x.dropS 0 3 a.id).next 0 1).passed s.now)
    | .load _ | .store | .amo _ | .sigAdd | .sigSet | .sigRead | .futPut | .futClr =>
      (ev t a.ctx 0 a.pc a.id false 3).mod c (fun x => if a.op.fills then x.dropS a.ctx a.d a.id else x)
  | .push _ r => (ev t r.ctx 0 r.pc r.id false 3).mod c (fun x => x.pushEnds s.now r.ctx r.id)
  | .bytes _ _ src _ _ =>
    let k := s.cmdOf c h.num
    ev t k.1 src k.2.1 k.2.2 false 3

/-- Bad data that an atomic or signal operation of a pair meets is consumed by both (R339). -/
def State.pairContained (s : State) (l : List (Nat × Acc)) (e : Nat × Nat) : State :=
  l.foldl (fun (t : State) p => t.accContained p.1 p.2 e) s

/-- Two writes that agree are performed once, by the leader `c` with its `a`; none where the slice must wait. -/
def State.performPair (s : State) (c d : Nat) (h k : Held) : Option State :=
  match h.op, k.op with
  | .acc a, .acc b =>
    match a.op with
    | .join => s.makeJoin [c, d]
    | .futWait => s.futSlice [c, d] a.tok a.off { acq := a.acq, rel := a.rel, scope := a.scope } (a.a.toNat % 2 ^ 32)
    | .futPut | .futClr =>
      (s.futPerform c a).map (fun p => match p.2 with
        | .error e => p.1.pairContained [(c, a), (d, b)] e
        | .ok () => p.1)
    | .amo _ =>
      some (match (s.relWork d b).rmw c a with
        | (t, .error e) => t.pairContained [(c, a), (d, b)] e
        | (t, .ok old) => [(c, a), (d, b)].foldl (fun (t : State) p =>
            t.mod p.1 (fun x => x.fillS p.2.ctx p.2.d p.2.id (BitVec.ofNat 64 old))) t)
    | .sigAdd | .sigSet =>
      some (match (s.relWork d b).rmw c a with
        | (t, .error e) => t.pairContained [(c, a), (d, b)] e
        | (t, .ok _) => t)
    | .store | .vstore =>
      let t := (s.relWork d b).relWork c a
      some (t.homeStore c a.id (a.pas.zip a.data) (a.bad.map (fun p => (a.pas.getD p.1 0, p.2))) (t.author c a false))
    | .load _ | .sigRead => some s
  | .push q r, _ => some (s.request q r)
  | .bytes l m src msg clr, .bytes _ n _ _ _ =>
    let id := (s.cmdOf c h.num).2.2
    let t := if clr = [] then s else (s.bypass c (l.map Prod.fst)).pullFor (l.map Prod.fst)
    let new := if clr = [] then l else (l.zip clr).map (fun p => (p.1.1, t.byte p.1.1 &&& ~~~p.2))
    some (t.homeStore c id new (m ++ n) { who := fun _ => (engAgent c (src - 4), id), msg := msg })
  | _, _ => some s

/-- R348: the home slice compares write `id` of core `c` with its partner's: the same is performed once, in the order of the
numbers; a difference raises REDMIS on both. -/
def execRedundantCompare (c id : Nat) (s : State) : Out :=
  match s.w.held.find? (fun h => h.core == c && h.seq == id), (s.core c).partner with
  | some h, some d =>
    match s.w.held.find? (fun k => k.core == d && k.seq == id) with
    | none => .next s
    | some k =>
      let first := s.w.held.all (fun o => o.core != c || decide (h.num ≤ o.num))
      let lead := if c < d then (c, d, h, k) else (d, c, k, h)
      if !first then .next s
      else if h.op.agrees k.op then
        .next (((((s.dropHeld h).dropHeld k).performPair lead.1 lead.2.1 lead.2.2.1 lead.2.2.2).map
          (fun t => (t.heldOver h).heldOver k)).getD s)
      else .next ((s.redmis h).redmis k)
  | _, _ => .next s

/-- R348: a write whose partner's has not come within ITERBOUND clocks raises REDMIS on the core that wrote. -/
def execRedmisTimeout (c id : Nat) (s : State) : Out :=
  match s.w.held.find? (fun h => h.core == c && h.seq == id), (s.core c).partner with
  | some h, some d =>
    let ib := (s.kernel c).iterbound
    if ib = 0 ∨ s.now < h.since + ib ∨ s.w.held.any (fun k => k.core == d && k.seq == id) then .next s
    else .next (s.redmis h)
  | _, _ => .next s

/-! ### The scrubber and the Lehr (R349, R350) -/

/-- R349: the scrubber visits a granule: a correctable error is corrected, an uncorrectable one is poisoned. -/
def execScrubVisit (granule : Nat) (s : State) : Out :=
  match s.cfg.tier granule with
  | .hbm | .lpddr => .next (s.dieRead (granule / 32 * 32)).1
  | .absent => .fault (.absentAddress granule)
  | .l2 | .bdeck | .host | .fabric => .next s

/-- The readings of a site. -/
def siteReadings (l : List (Nat × Nat)) (site : Nat) : List (Nat × Nat) :=
  l.filter (fun p => siteOfUnit p.1 == some site && decide (p.1 < 0x800))

/-- The Lehr adjusts the pane at a site (R350): readings are margins in tenths of a per cent of the clock period. The hours of
R353 go to the bin of the offset that stood; the temperature and the trend are free values. The bin and the trend are free
values (DESIGN CHOICE, notes/assumptions/29.md). -/
def State.adjust (s : State) (readings : List (Nat × Nat)) (site : Nat) : State :=
  match siteReadings readings site with
  | [] => s
  | r :: rest =>
    let worst := rest.foldl (fun m p => min m p.2) r.2
    let v := Sparse.get 0 s.w.volt site
    let v' := if worst < 60 then min 24 (v + 1) else if 100 < worst then v - 1 else v
    let bin := site * 16 + 4 * min 3 (v / 6) + (s.free site).toNat % 4
    let worn := ((r :: rest).filter (fun p => v == 24 && decide (p.2 < 40) && !s.w.worn.contains p.1)).map Prod.fst
    let t : State := { s with w := { s.w with
      volt := Sparse.set 0 s.w.volt site v', margin := Sparse.set 0 s.w.margin site worst
      trend := Sparse.set 0#32 s.w.trend site ((s.free (16 + site)).truncate 32)
      hours := Sparse.set 0 s.w.hours bin (Sparse.get 0 s.w.hours bin + 2 ^ 26), worn := s.w.worn ++ worn } }
    if v' = v then t else t.logEvent 10 (site * 2 ^ 8 + v')

/-- R350: once every 2²⁶ GTS ticks the Lehr reads its monitors and adjusts the voltage offset of every pane in service. -/
def execLehrAdjust (readings : List (Nat × Nat)) (s : State) : Out :=
  if s.gts0 < s.w.lehrAt then .next s
  else .next (s.cfg.sites.foldl (fun (t : State) n => t.adjust readings n)
    { s with w := { s.w with lehrAt := s.gts0 + 2 ^ 26 } })

/-! ### The wear record and the management mailbox (R205, R352, R353) -/

/-- A bitmap of the units of a list, by a place for each. -/
def bitmap (l : List Nat) (place : Nat → Option Nat) : Nat :=
  (l.filterMap place).eraseDups.foldl (fun m i => m + 2 ^ i) 0

/-- The quad of a core unit of a site. -/
def quadIn (site u : Nat) : Option Nat := if u / 64 = site ∧ u < 0x400 then some (u % 64 / 4) else none
/-- The group bit 16m + g of a column-group unit of a site. -/
def groupIn (site u : Nat) : Option Nat := if 0x400 ≤ u ∧ u < 0x800 ∧ (u - 0x400) / 64 = site then some (u % 64) else none

/-- Remaining life in hours until the margin reaches 4 % at the trend (R353). (DESIGN CHOICE, notes/assumptions/29.md). -/
def lifeHours (margin : Nat) (trend : BitVec 32) : Nat :=
  if 0 ≤ trend.toInt then 0xFFFFFFFF else min 0xFFFFFFFF ((margin - 40) * 1000 / trend.toInt.natAbs)

/-- The pane entry of a site in the wear record (R353). -/
def State.wearEntry (s : State) (site : Nat) : List Byte :=
  let w := s.w
  let hour (i : Nat) : Nat := min 0xFFFFFFFF (Sparse.get 0 w.hours (site * 16 + i) / 3600000000000)
  let mine (l : List Nat) : Bool := l.any (fun u => decide (u < 0x800) && siteOfUnit u == some site)
  ((List.range 16).flatMap (fun i => leBytes 4 (hour i))) ++ leBytes 2 (Sparse.get 0 w.volt site) ++
    leBytes 2 (Sparse.get 0 w.margin site) ++ leBytes 4 (Sparse.get 0#32 w.trend site).toNat ++
    leBytes 4 (lifeHours (Sparse.get 0 w.margin site) (Sparse.get 0#32 w.trend site)) ++
    leBytes 4 (Sparse.get 0#32 w.corr site).toNat ++ leBytes 4 (Sparse.get 0#32 w.uncorr site).toNat ++
    leBytes 2 (bitmap w.quar (quadIn site)) ++ leBytes 2 (bitmap w.worn (quadIn site)) ++
    leBytes 8 (bitmap w.quar (groupIn site)) ++ leBytes 8 (bitmap w.worn (groupIn site)) ++
    [if s.cfg.sitesOut.contains site then 1 else if mine (w.worn.filter (fun u => !w.gone.contains u)) then 2 else 0] ++
    leBytes 23 0

/-- Bytes 0 to 2,111 of the wear record (R353). -/
def State.wearBody (s : State) (nonce : List Byte) : List Byte :=
  leBytes 8 0x0101 ++ leBytes 8 s.gts0 ++ nonce ++ leBytes 8 Config.serial.toNat ++ leBytes 8 (s.cfg.cfgWord 0).toNat ++
    (List.range 16).flatMap s.wearEntry

/-- A management reply (R317). -/
def State.reply (s : State) (kind : Nat) (l : List Nat) : State :=
  ({ s with io := { s.io with replies := (kind, l) :: s.io.replies } }).raise 3

/-- R353: the wear record with a 32-byte nonce, signed. -/
def execWearRecordRequest (nonce : List Byte) (s : State) : Out :=
  if nonce.length ≠ 32 then .next s
  else
    let b := s.wearBody nonce
    let r := b ++ (List.range 384).map (fun i => Config.signature b i)
    .next (({ s with w := { s.w with record := r } } : State).reply 2 (r.map BitVec.toNat))

/-- R205, R352: the management mailbox reads the wear-and-error log, newest first (kind 0), or the usage of the range-list pool
(kind 1). -/
def execManagementMailboxRequest (kind : Nat) (s : State) : Out :=
  if kind = 0 then .next (s.reply 0 (s.w.log.flatMap (fun e => [e.gts, e.kind, e.detail])))
  else if kind = 1 then .next (s.reply 1 [s.poolUsed, poolSize])
  else .next s

/-! ### Module reset (R15, R16, R351) -/

/-- The groups of Marver `m` of a site that bad units name. -/
def badGroups (bad : List Nat) (site m : Nat) : List Nat :=
  (List.range 16).filter (fun g => bad.contains (0x400 + 64 * site + 16 * m + g))

/-- The quads of a site that bad units name. -/
def badQuads (bad : List Nat) (site : Nat) : List Nat :=
  (List.range 16).filter (fun q => (List.range 4).any (fun i => bad.contains (64 * site + 4 * q + i)))

/-- Whether the pane at a site must be removed (R351): fewer than 56 cores would stay, or a Marver has two such groups. -/
def siteOut (bad : List Nat) (site : Nat) : Bool :=
  decide (2 < (badQuads bad site).length) || (List.range 4).any (fun m => decide (1 < (badGroups bad site m).length))

/-- The configuration the Lehr makes of worn and quarantined units (R15, R351); none where two panes would have to go. -/
def legalCfg (bad : List Nat) : Option CfgSt :=
  let out := (List.range 16).filter (siteOut bad)
  let anyGroup := bad.any (fun u => decide (0x400 ≤ u) && decide (u < 0x800))
  if 1 < out.length then none
  else
    some { sitesOut := out
           quadsOut := (List.range 16).flatMap (fun n => (badQuads bad n).map (fun q => 16 * n + q))
           groupOut := if anyGroup then
               (List.range 64).map (fun k => (k, (badGroups bad (k / 4) (k % 4)).headD 15 + 1)) else []
           ncol := if anyGroup then 480 else 512 }

/-- What outlives a module reset: time, what the host and the fabric hold, DRAM and its marks, and the Lehr's records. What
stays, and that HBM4E keeps its bytes and marks by address where a pane goes and the later ones are renumbered, is (DESIGN CHOICE,
notes/assumptions/30.md). -/
def State.afterReset (s : State) (cfg : CfgSt) : State :=
  let dram (pa : Nat) : Bool := match s.cfg.tier pa with
    | .hbm | .lpddr | .host | .fabric => true
    | _ => false
  let keep (m : Sparse Nat) : Sparse Nat := Sparse.keep (fun pa _ => dram pa) m
  { State.reset with
    agenda := s.agenda, tick := s.tick, now := s.now, cfg := cfg
    mem := Sparse.keep (fun pa _ => dram pa) s.mem
    io := { State.reset.io with reach := s.io.reach }
    w := { s.w with
      hard := keep s.w.hard, soft := keep s.w.soft, poison := keep s.w.poison, badCopy := [], dirtyCopy := [], held := []
      suspect := [], quar := [], record := [] } }

/-- R16, R329, R351: a module reset. The Lehr turns worn and quarantined units into a legal configuration; where that would take
a second pane, or the boot ROM refuses the firmware, the module does not leave reset. -/
def execModuleReset (s : State) : Out :=
  let bad := (s.w.worn ++ s.w.quar ++ s.w.gone).eraseDups
  let held (t : State) : State := { t with halted := true, io := { t.io with linkReset := true } }
  let after (g : CfgSt) : State :=
    let t := s.afterReset g
    { t with w := { t.w with gone := bad } }
  match legalCfg bad with
  | none => .next (held (after s.cfg))
  | some g =>
    let u := after g
    let v := (bad.filter (fun x => !s.w.gone.contains x)).foldl (fun (v : State) x => v.logEvent 11 x) u
    if Config.firmwareSigned s.tick then .next v
    else
      let x := held v
      .next { x with io := { x.io with badFirmware := true } }

end Sys2Proof.Machine
end

