-- ==== Sys2Proof/Machine/Dispatch.lean ====
section
/-! DEFINITION. The one dispatch from an instruction to its meaning. -/

namespace Sys2Proof.Machine

def exec (i : Instr) (s : State) : Host.Outcome State Fault Refusal :=
  match i with
  | .nop => Sys2Proof.Machine.execNop s
  | .endTask => Sys2Proof.Machine.execEndTask s
  | .yield => Sys2Proof.Machine.execYield s
  | .trap code => Sys2Proof.Machine.execTrap code s
  | .csrr d csr => Sys2Proof.Machine.execCsrr d csr s
  | .csrw a fea csr => Sys2Proof.Machine.execCsrw a fea csr s
  | .rdts d => Sys2Proof.Machine.execRdts d s
  | .chk => Sys2Proof.Machine.execChk s
  | .cro disp => Sys2Proof.Machine.execCro disp s
  | .crc => Sys2Proof.Machine.execCrc s
  | .ctxsave m => Sys2Proof.Machine.execCtxsave m s
  | .ctxrest m => Sys2Proof.Machine.execCtxrest m s
  | .stop a fea => Sys2Proof.Machine.execStop a fea s
  | .wcsld slot m => Sys2Proof.Machine.execWcsld slot m s
  | .add o => Sys2Proof.Machine.execAdd o s
  | .addImmediate o => Sys2Proof.Machine.execAddImmediate o s
  | .sub o => Sys2Proof.Machine.execSub o s
  | .subImmediate o => Sys2Proof.Machine.execSubImmediate o s
  | .mul o => Sys2Proof.Machine.execMul o s
  | .mulImmediate o => Sys2Proof.Machine.execMulImmediate o s
  | .mulhS o => Sys2Proof.Machine.execMulhS o s
  | .mulhSImmediate o => Sys2Proof.Machine.execMulhSImmediate o s
  | .mulhN o => Sys2Proof.Machine.execMulhN o s
  | .mulhNImmediate o => Sys2Proof.Machine.execMulhNImmediate o s
  | .divS o => Sys2Proof.Machine.execDivS o s
  | .divSImmediate o => Sys2Proof.Machine.execDivSImmediate o s
  | .divN o => Sys2Proof.Machine.execDivN o s
  | .divNImmediate o => Sys2Proof.Machine.execDivNImmediate o s
  | .remS o => Sys2Proof.Machine.execRemS o s
  | .remSImmediate o => Sys2Proof.Machine.execRemSImmediate o s
  | .remN o => Sys2Proof.Machine.execRemN o s
  | .remNImmediate o => Sys2Proof.Machine.execRemNImmediate o s
  | .and o => Sys2Proof.Machine.execAnd o s
  | .andImmediate o => Sys2Proof.Machine.execAndImmediate o s
  | .or o => Sys2Proof.Machine.execOr o s
  | .orImmediate o => Sys2Proof.Machine.execOrImmediate o s
  | .xor o => Sys2Proof.Machine.execXor o s
  | .xorImmediate o => Sys2Proof.Machine.execXorImmediate o s
  | .andn o => Sys2Proof.Machine.execAndn o s
  | .andnImmediate o => Sys2Proof.Machine.execAndnImmediate o s
  | .shl o => Sys2Proof.Machine.execShl o s
  | .shlImmediate o => Sys2Proof.Machine.execShlImmediate o s
  | .shrS o => Sys2Proof.Machine.execShrS o s
  | .shrSImmediate o => Sys2Proof.Machine.execShrSImmediate o s
  | .shrN o => Sys2Proof.Machine.execShrN o s
  | .shrNImmediate o => Sys2Proof.Machine.execShrNImmediate o s
  | .rot o => Sys2Proof.Machine.execRot o s
  | .rotImmediate o => Sys2Proof.Machine.execRotImmediate o s
  | .clz o => Sys2Proof.Machine.execClz o s
  | .popc o => Sys2Proof.Machine.execPopc o s
  | .minS o => Sys2Proof.Machine.execMinS o s
  | .minSImmediate o => Sys2Proof.Machine.execMinSImmediate o s
  | .minN o => Sys2Proof.Machine.execMinN o s
  | .minNImmediate o => Sys2Proof.Machine.execMinNImmediate o s
  | .maxS o => Sys2Proof.Machine.execMaxS o s
  | .maxSImmediate o => Sys2Proof.Machine.execMaxSImmediate o s
  | .maxN o => Sys2Proof.Machine.execMaxN o s
  | .maxNImmediate o => Sys2Proof.Machine.execMaxNImmediate o s
  | .sel o => Sys2Proof.Machine.execSel o s
  | .mov o => Sys2Proof.Machine.execMov o s
  | .sext o => Sys2Proof.Machine.execSext o s
  | .sextImmediate o => Sys2Proof.Machine.execSextImmediate o s
  | .zext o => Sys2Proof.Machine.execZext o s
  | .zextImmediate o => Sys2Proof.Machine.execZextImmediate o s
  | .bfx o => Sys2Proof.Machine.execBfx o s
  | .bfxImmediate o => Sys2Proof.Machine.execBfxImmediate o s
  | .bfi o => Sys2Proof.Machine.execBfi o s
  | .bfiImmediate o => Sys2Proof.Machine.execBfiImmediate o s
  | .pset d a fea wc add => Sys2Proof.Machine.execPset d a fea wc add s
  | .shape rows => Sys2Proof.Machine.execShape rows s
  | .lim d v => Sys2Proof.Machine.execLim d v s
  | .cset d f => Sys2Proof.Machine.execCset d f s
  | .br f disp => Sys2Proof.Machine.execBr f disp s
  | .jmp disp => Sys2Proof.Machine.execJmp disp s
  | .call disp => Sys2Proof.Machine.execCall disp s
  | .ret a fea => Sys2Proof.Machine.execRet a fea s
  | .brx a fea imm => Sys2Proof.Machine.execBrx a fea imm s
  | .loop f => Sys2Proof.Machine.execLoop f s
  | .lbrk lvl => Sys2Proof.Machine.execLbrk lvl s
  | .viss start count => Sys2Proof.Machine.execViss start count s
  | .swpl f => Sys2Proof.Machine.execSwpl f s
  | .vsync l a q => Sys2Proof.Machine.execVsync l a q s
  | .ld f => Sys2Proof.Machine.execLd f s
  | .st f => Sys2Proof.Machine.execSt f s
  | .amoAdd f => Sys2Proof.Machine.execAmoAdd f s
  | .amoAnd f => Sys2Proof.Machine.execAmoAnd f s
  | .amoOr f => Sys2Proof.Machine.execAmoOr f s
  | .amoXor f => Sys2Proof.Machine.execAmoXor f s
  | .amoMinS f => Sys2Proof.Machine.execAmoMinS f s
  | .amoMaxS f => Sys2Proof.Machine.execAmoMaxS f s
  | .amoMinN f => Sys2Proof.Machine.execAmoMinN f s
  | .amoMaxN f => Sys2Proof.Machine.execAmoMaxN f s
  | .amoSwap f => Sys2Proof.Machine.execAmoSwap f s
  | .amoCas f => Sys2Proof.Machine.execAmoCas f s
  | .amoFmaxF32 f => Sys2Proof.Machine.execAmoFmaxF32 f s
  | .amoAmaxRr f => Sys2Proof.Machine.execAmoAmaxRr f s
  | .fenceAcq u scope => Sys2Proof.Machine.execFenceAcq u scope s
  | .fenceRel u scope => Sys2Proof.Machine.execFenceRel u scope s
  | .fenceAr u scope => Sys2Proof.Machine.execFenceAr u scope s
  | .fenceSc u scope => Sys2Proof.Machine.execFenceSc u scope s
  | .xlat rights o => Sys2Proof.Machine.execXlat rights o s
  | .xlatTry rights o => Sys2Proof.Machine.execXlatTry rights o s
  | .tkchk o => Sys2Proof.Machine.execTkchk o s
  | .tkdrop o => Sys2Proof.Machine.execTkdrop o s
  | .tkmov o => Sys2Proof.Machine.execTkmov o s
  | .tksub o => Sys2Proof.Machine.execTksub o s
  | .tkinfo o => Sys2Proof.Machine.execTkinfo o s
  | .tkrevKill o => Sys2Proof.Machine.execTkrevKill o s
  | .tkrevMove o => Sys2Proof.Machine.execTkrevMove o s
  | .stashMap w m => Sys2Proof.Machine.execStashMap w m s
  | .stashUnmap w => Sys2Proof.Machine.execStashUnmap w s
  | .stashWb w => Sys2Proof.Machine.execStashWb w s
  | .stashInv w => Sys2Proof.Machine.execStashInv w s
  | .bar lvl scope => Sys2Proof.Machine.execBar lvl scope s
  | .futWait f => Sys2Proof.Machine.execFutWait f s
  | .futPut f => Sys2Proof.Machine.execFutPut f s
  | .futClr f => Sys2Proof.Machine.execFutClr f s
  | .sigAdd f => Sys2Proof.Machine.execSigAdd f s
  | .sigSet f => Sys2Proof.Machine.execSigSet f s
  | .sigWait f => Sys2Proof.Machine.execSigWait f s
  | .sigRead f => Sys2Proof.Machine.execSigRead f s
  | .hset h a fea => Sys2Proof.Machine.execHset h a fea s
  | .harr h a fea => Sys2Proof.Machine.execHarr h a fea s
  | .hwait h => Sys2Proof.Machine.execHwait h s
  | .hdrain h => Sys2Proof.Machine.execHdrain h s
  | .hfree h => Sys2Proof.Machine.execHfree h s
  | .hinfo d h => Sys2Proof.Machine.execHinfo d h s
  | .qpush o => Sys2Proof.Machine.execQpush o s
  | .qpop o => Sys2Proof.Machine.execQpop o s
  | .qtry o => Sys2Proof.Machine.execQtry o s
  | .qinfo o => Sys2Proof.Machine.execQinfo o s
  | .qbind o => Sys2Proof.Machine.execQbind o s
  | .cpyLvl lvl o => Sys2Proof.Machine.execCpyLvl lvl o s
  | .cpyGo f => Sys2Proof.Machine.execCpyGo f s
  | .cpyCancel h => Sys2Proof.Machine.execCpyCancel h s
  | .cpyStat d h => Sys2Proof.Machine.execCpyStat d h s
  | .mxLease => Sys2Proof.Machine.execMxLease s
  | .mxFree => Sys2Proof.Machine.execMxFree s
  | .mxCbtab f => Sys2Proof.Machine.execMxCbtab f s
  | .mxBld f => Sys2Proof.Machine.execMxBld f s
  | .mxBldMirror f => Sys2Proof.Machine.execMxBldMirror f s
  | .mxTld f => Sys2Proof.Machine.execMxTld f s
  | .mxMm f => Sys2Proof.Machine.execMxMm f s
  | .mxKat d n g sum => Sys2Proof.Machine.execMxKat d n g sum s
  | .mxZalloc d z => Sys2Proof.Machine.execMxZalloc d z s
  | .mxZfree z => Sys2Proof.Machine.execMxZfree z s
  | .mxZld f => Sys2Proof.Machine.execMxZld f s
  | .mxZst f => Sys2Proof.Machine.execMxZst f s
  | .mxZcpy d za zb => Sys2Proof.Machine.execMxZcpy d za zb s
  | .mxOut f => Sys2Proof.Machine.execMxOut f s
  | .umCfg f => Sys2Proof.Machine.execUmCfg f s
  | .umCfgRad d l0 nl radius => Sys2Proof.Machine.execUmCfgRad d l0 nl radius s
  | .umCfgShare f => Sys2Proof.Machine.execUmCfgShare f s
  | .umRank f => Sys2Proof.Machine.execUmRank f s
  | .umCommit f => Sys2Proof.Machine.execUmCommit f s
  | .umDnext d => Sys2Proof.Machine.execUmDnext d s
  | .umDclr a fea => Sys2Proof.Machine.execUmDclr a fea s
  | .vld w => Sys2Proof.Machine.execVld w s
  | .vst w => Sys2Proof.Machine.execVst w s
  | .vgat w => Sys2Proof.Machine.execVgat w s
  | .vsca w => Sys2Proof.Machine.execVsca w s
  | .vldb w => Sys2Proof.Machine.execVldb w s
  | .vstb w => Sys2Proof.Machine.execVstb w s
  | .vadd w => Sys2Proof.Machine.execVadd w s
  | .vsub w => Sys2Proof.Machine.execVsub w s
  | .vmul w => Sys2Proof.Machine.execVmul w s
  | .vmulh w => Sys2Proof.Machine.execVmulh w s
  | .vmin w => Sys2Proof.Machine.execVmin w s
  | .vmax w => Sys2Proof.Machine.execVmax w s
  | .vabs w => Sys2Proof.Machine.execVabs w s
  | .vneg w => Sys2Proof.Machine.execVneg w s
  | .vand w => Sys2Proof.Machine.execVand w s
  | .vor w => Sys2Proof.Machine.execVor w s
  | .vxor w => Sys2Proof.Machine.execVxor w s
  | .vnot w => Sys2Proof.Machine.execVnot w s
  | .vshl w => Sys2Proof.Machine.execVshl w s
  | .vshr w => Sys2Proof.Machine.execVshr w s
  | .vclz w => Sys2Proof.Machine.execVclz w s
  | .vpopc w => Sys2Proof.Machine.execVpopc w s
  | .vsel w => Sys2Proof.Machine.execVsel w s
  | .vfadd w => Sys2Proof.Machine.execVfadd w s
  | .vfsub w => Sys2Proof.Machine.execVfsub w s
  | .vfmul w => Sys2Proof.Machine.execVfmul w s
  | .vfma w => Sys2Proof.Machine.execVfma w s
  | .vfms w => Sys2Proof.Machine.execVfms w s
  | .vfdiv w => Sys2Proof.Machine.execVfdiv w s
  | .vfsqrt w => Sys2Proof.Machine.execVfsqrt w s
  | .vfrcp w => Sys2Proof.Machine.execVfrcp w s
  | .vfrsq w => Sys2Proof.Machine.execVfrsq w s
  | .vfexp2 w => Sys2Proof.Machine.execVfexp2 w s
  | .vflog2 w => Sys2Proof.Machine.execVflog2 w s
  | .vfmin w => Sys2Proof.Machine.execVfmin w s
  | .vfmax w => Sys2Proof.Machine.execVfmax w s
  | .vfabs w => Sys2Proof.Machine.execVfabs w s
  | .vfneg w => Sys2Proof.Machine.execVfneg w s
  | .vcvt w => Sys2Proof.Machine.execVcvt w s
  | .vcb w => Sys2Proof.Machine.execVcb w s
  | .vpack w => Sys2Proof.Machine.execVpack w s
  | .vunpack w => Sys2Proof.Machine.execVunpack w s
  | .vamax w => Sys2Proof.Machine.execVamax w s
  | .vred w => Sys2Proof.Machine.execVred w s
  | .vperm w => Sys2Proof.Machine.execVperm w s
  | .vtrns w => Sys2Proof.Machine.execVtrns w s
  | .vbcast w => Sys2Proof.Machine.execVbcast w s
  | .vslide w => Sys2Proof.Machine.execVslide w s
  | .vcompress w => Sys2Proof.Machine.execVcompress w s
  | .mpush w => Sys2Proof.Machine.execMpush w s
  | .minv w => Sys2Proof.Machine.execMinv w s
  | .mpop w => Sys2Proof.Machine.execMpop w s
  | .vskip w => Sys2Proof.Machine.execVskip w s
  | .veos w => Sys2Proof.Machine.execVeos w s
  | .mcall w => Sys2Proof.Machine.execMcall w s
  | .vnop w => Sys2Proof.Machine.execVnop w s
  | .nopPacket r => Sys2Proof.Machine.execNopPacket r s
  | .launchPacket r rc => Sys2Proof.Machine.execLaunchPacket r rc s
  | .graphPacket r va => Sys2Proof.Machine.execGraphPacket r va s
  | .waitPacket r va target => Sys2Proof.Machine.execWaitPacket r va target s
  | .signalPacket r st fence va value => Sys2Proof.Machine.execSignalPacket r st fence va value s
  | .revokePacket r mv va len newva => Sys2Proof.Machine.execRevokePacket r mv va len newva s
  | .rd pane h => Sys2Proof.Machine.execRd pane h s
  | .wr pane h data => Sys2Proof.Machine.execWr pane h data s
  | .wrm pane h mask data => Sys2Proof.Machine.execWrm pane h mask data s
  | .reservedOp pane h => Sys2Proof.Machine.execReservedOp pane h s
  | .baromFlit link flit => Sys2Proof.Machine.execBaromFlit link flit s
  | .moduleReset => Sys2Proof.Machine.execModuleReset s
  | .thermalTrip pane => Sys2Proof.Machine.execThermalTrip pane s
  | .linkTrain link cxl => Sys2Proof.Machine.execLinkTrain link cxl s
  | .loadComplete c id => Sys2Proof.Machine.execLoadComplete c id s
  | .amoReply c id => Sys2Proof.Machine.execAmoReply c id s
  | .xlatComplete c x => Sys2Proof.Machine.execXlatComplete c x s
  | .barrierRelease linst grp lvl => Sys2Proof.Machine.execBarrierRelease linst grp lvl s
  | .futReleasePush pane => Sys2Proof.Machine.execFutReleasePush pane s
  | .futParkRetry c => Sys2Proof.Machine.execFutParkRetry c s
  | .sigWaitRelease c => Sys2Proof.Machine.execSigWaitRelease c s
  | .handleDrainFree c h => Sys2Proof.Machine.execHandleDrainFree c h s
  | .queueResolve pane slot => Sys2Proof.Machine.execQueueResolve pane slot s
  | .refillLand pane slot => Sys2Proof.Machine.execRefillLand pane slot s
  | .recordDelivery c => Sys2Proof.Machine.execRecordDelivery c s
  | .queueFaultTrap c x => Sys2Proof.Machine.execQueueFaultTrap c x s
  | .copyCommandStart c => Sys2Proof.Machine.execCopyCommandStart c s
  | .copyEmit c => Sys2Proof.Machine.execCopyEmit c s
  | .copyComplete c => Sys2Proof.Machine.execCopyComplete c s
  | .copyCommandComplete c => Sys2Proof.Machine.execCopyCommandComplete c s
  | .leaseGrant m => Sys2Proof.Machine.execLeaseGrant m s
  | .mxAccept c => Sys2Proof.Machine.execMxAccept c s
  | .mxStep m => Sys2Proof.Machine.execMxStep m s
  | .mxStatusFill m => Sys2Proof.Machine.execMxStatusFill m s
  | .umStatusFill pane => Sys2Proof.Machine.execUmStatusFill pane s
  | .vwordFill c q => Sys2Proof.Machine.execVwordFill c q s
  | .vwordIllegalTrap c => Sys2Proof.Machine.execVwordIllegalTrap c s
  | .deadlock c => Sys2Proof.Machine.execDeadlock c s
  | .iterboundBreach c => Sys2Proof.Machine.execIterboundBreach c s
  | .taskDispatch c => Sys2Proof.Machine.execTaskDispatch c s
  | .taskStart c => Sys2Proof.Machine.execTaskStart c s
  | .groupDeliver pane => Sys2Proof.Machine.execGroupDeliver pane s
  | .taskEndComplete c => Sys2Proof.Machine.execTaskEndComplete c s
  | .taskRetire c => Sys2Proof.Machine.execTaskRetire c s
  | .stopHonour c => Sys2Proof.Machine.execStopHonour c s
  | .stopTokenPass c q => Sys2Proof.Machine.execStopTokenPass c q s
  | .contextSaveComplete c => Sys2Proof.Machine.execContextSaveComplete c s
  | .urgentStop pane slot => Sys2Proof.Machine.execUrgentStop pane slot s
  | .launchSeal slot => Sys2Proof.Machine.execLaunchSeal slot s
  | .launchRunning lid => Sys2Proof.Machine.execLaunchRunning lid s
  | .initialRecordPush linst => Sys2Proof.Machine.execInitialRecordPush linst s
  | .launchDone linst => Sys2Proof.Machine.execLaunchDone linst s
  | .bootDoor c => Sys2Proof.Machine.execBootDoor c s
  | .gafferSample linst => Sys2Proof.Machine.execGafferSample linst s
  | .gafferMove c => Sys2Proof.Machine.execGafferMove c s
  | .forcedPublish c line scope => Sys2Proof.Machine.execForcedPublish c line scope s
  | .sweep c e => Sys2Proof.Machine.execSweep c e s
  | .revokeDrainEnd e => Sys2Proof.Machine.execRevokeDrainEnd e s
  | .sweepDone e => Sys2Proof.Machine.execSweepDone e s
  | .deadUnpin e => Sys2Proof.Machine.execDeadUnpin e s
  | .deadHoldExpire e => Sys2Proof.Machine.execDeadHoldExpire e s
  | .forwardRelease e => Sys2Proof.Machine.execForwardRelease e s
  | .savedContextWalk e list => Sys2Proof.Machine.execSavedContextWalk e list s
  | .hostHdmWrite off bytes => Sys2Proof.Machine.execHostHdmWrite off bytes s
  | .hostHdmRead off n => Sys2Proof.Machine.execHostHdmRead off n s
  | .ringEnable r => Sys2Proof.Machine.execRingEnable r s
  | .ringDisable r => Sys2Proof.Machine.execRingDisable r s
  | .ringPoll r => Sys2Proof.Machine.execRingPoll r s
  | .packetFetch r => Sys2Proof.Machine.execPacketFetch r s
  | .ringUnpark r => Sys2Proof.Machine.execRingUnpark r s
  | .journalAppend => Sys2Proof.Machine.execJournalAppend s
  | .dataReply pane port tag => Sys2Proof.Machine.execDataReply pane port tag s
  | .acknowledgement pane port tag => Sys2Proof.Machine.execAcknowledgement pane port tag s
  | .redundantCompare c id => Sys2Proof.Machine.execRedundantCompare c id s
  | .redmisTimeout c id => Sys2Proof.Machine.execRedmisTimeout c id s
  | .scrubVisit granule => Sys2Proof.Machine.execScrubVisit granule s
  | .lehrAdjust readings => Sys2Proof.Machine.execLehrAdjust readings s
  | .wearRecordRequest nonce => Sys2Proof.Machine.execWearRecordRequest nonce s
  | .writeReachesHome c id => Sys2Proof.Machine.execWriteReachesHome c id s
  | .storeAcknowledged c id => Sys2Proof.Machine.execStoreAcknowledged c id s
  | .hostLinkDown link => Sys2Proof.Machine.execHostLinkDown link s
  | .managementMailboxRequest kind => Sys2Proof.Machine.execManagementMailboxRequest kind s

end Sys2Proof.Machine
end

