-- ==== Sys2Proof/Machine/Turn.lean ====
section
/-! DEFINITION. One turn of the module: fetching a context's next C-word (R51), the boundary at which late traps, containment
events and stops are taken (R100, R103, R106, R343), the choice of a context (R102), and what each act does. -/

namespace Sys2Proof.Machine

/-! ### Fetch (R46, R51) -/

/-- What a context's next C-word is found to be. -/
inductive Fetched where
  /-- outside the loaded control section: the first index outside, and whether it was a second word -/
  | outside (index : Nat) (second : Bool)
  /-- no instruction: what ILLEGAL reports -/
  | bad (data : Nat)
  | ok (i : Instr)

/-- C-word `n` of a core's control section. -/
def Core.cword (x : Core) (n : Nat) : Word := Sparse.get 0#64 x.code.ctl n

/-- Fetch the instruction at C-word `pc`. -/
def Core.fetchC (x : Core) (pc : Nat) : Fetched :=
  if x.code.ctlLen ≤ pc then .outside pc false
  else if twoWords (x.cword pc) ∧ x.code.ctlLen ≤ pc + 1 then .outside (pc + 1) true
  else match decodeC (x.cword pc) (x.cword (pc + 1)) with
    | .error _ => .bad (illegalData (x.cword pc))
    | .ok (i, _) => .ok i

/-- The C-word a context runs next: the `viss` or `swpl` under way, else the word at its program counter. -/
def Core.nextPc (x : Core) (ctx : Nat) : Nat := if ctx = 0 ∧ x.q.issue.act then x.q.issue.pc else x.q.pcOf ctx

/-- Whether a context may run: RUNNING, and not stopped by an illegal V-word (R67). -/
def Core.contextRuns (x : Core) (ctx : Nat) : Bool :=
  if ctx = 0 then x.q.st == .running && x.q.armed.isNone else (x.q.hctx ctx).st == .running

/-- The C-word of the instruction at `pc` that holds bad data (R338), if any. -/
def Core.wordBad (x : Core) (pc : Nat) : Option Nat :=
  if Sparse.get 0 x.code.bad pc ≠ 0 then some pc
  else if twoWords (x.cword pc) ∧ Sparse.get 0 x.code.bad (pc + 1) ≠ 0 then some (pc + 1)
  else none

/-- The running context fetches and executes its next instruction. -/
def State.contextStep (s : State) : Out :=
  if !s.me.contextRuns s.ctx then stall s
  else if s.me.wordBad (s.me.nextPc s.ctx) ≠ none then s.codeContained ((s.me.wordBad (s.me.nextPc s.ctx)).getD 0)
  else match s.me.fetchC (s.me.nextPc s.ctx) with
    | .outside n second => .next (s.upd (fun x => x.trapAt s.now s.ctx 7 second n (x.q.pcOf 0)))
    | .bad data => trap s 1 data
    | .ok i => exec i s

/-! ### Containment (R343) -/

/-- Close active levels, the innermost first, until `n` are left. -/
def Seq.closeDown (q : Seq) (n : Nat) : Seq :=
  (List.range 6).foldl (fun (q : Seq) l => if n < q.ldepth ∧ (q.loop l).act then q.setLoop l {} else q) q

/-- The end of an unwind to region `e`: what its context becomes. -/
def Core.unwound (x : Core) (l : Late) (e : Region) (rest : List Region) : Core :=
  let q := x.q.abandon
  let y : Core := { x with
    r := { x.r with masks := x.r.masks.drop (x.r.masks.length - e.mdepth)
                    bad := Sparse.keep (fun g _ => decide (g < mGran e.mdepth 0)) x.r.bad }
    c := { x.c with tcause := BitVec.ofNat 64 causeContain, tinfo := l.info, tpc := BitVec.ofNat 64 q.pc }
    q := { ((q.closeDown e.ldepth).setHold 0 {}) with
      regions := rest, pc := e.hpc, armed := none, point := 0, late := q.late.filter (fun k => !k.cont && k.arr != l.arr) } }
  [1, 2, 3].foldl (fun (y : Core) h => if (y.q.hctx h).st = .running then y.handlerEnds h else y) y.tickId

/-- An unwind begins or goes on: queued V-words are discarded and copy commands of the region cancelled; it ends once the core's
Marver and unmasking commands are over. What it drops and waits for is (DEDUCED, notes/assumptions/49.md). -/
def State.unwind (s : State) (c : Nat) (l : Late) (e : Region) (rest : List Region) : State :=
  let n := rest.length + 1
  let t := if (s.core c).q.st = .stopping then (s.unstop c).mod c (fun x => x.seq (fun q => { q with st := .running })) else s
  let u := t.mod c (fun x => (x.discardIf (fun _ => true)).cancel (fun k => decide (n ≤ k.depth)) 3 0)
  if (u.mxOwn c).isEmpty ∧ !u.umBusy c then u.mod c (fun x => x.unwound l e rest) else u

/-- A containment event outside any region, or with TACT = 1: the context is FAULTED (R100, R343). -/
def Core.contained (x : Core) (l : Late) : Core :=
  { x with c := { x.c with tcause := BitVec.ofNat 64 causeContain, tinfo := l.info }
           q := { x.q with st := .faulted, late := x.q.late.filter (fun k => k.arr != l.arr) } }

/-! ### The boundary -/

/-- Whether a word that holds the main context must end before a late trap is taken: it has issued, and its effect is under way.
The other words that hold it are abandoned there and issue again, a `fut.wait` among them, which waits as ENDING does (R291). Which
words these are is (DEDUCED, notes/assumptions/10.md). -/
def HoldK.mustEnd : HoldK → Bool
  | .queue _ | .walk _ | .sig _ _ _ _ _ _ | .bar _ _ | .slice | .rev _ => true
  | .free | .drain | .reader _ _ | .lease | .stash _ | .fence _ | .fut _ _ _ => false

/-- Whether a hold is that of a word that has not issued: it waits on a handle or for the lease (R102, R176, R239). -/
def HoldK.unready : HoldK → Bool
  | .reader _ _ | .lease => true
  | _ => false

/-- A core that no longer waits for the lease leaves its Marver's waiters. -/
def State.leaveLease (s : State) (c : Nat) : State :=
  if [0, 1, 2, 3].any (fun h => ((s.core c).q.holdOf h).k == .lease) then s
  else
    let mv := s.cfg.marver c
    let m := s.marver mv
    s.setMarver mv { m with waiters := m.waiters.filter (· != c) }

/-- What a C-word boundary of core `c`'s main context takes before a word issues: a late trap or event, or a pending stop; none
where it takes nothing. A stop ends a wait of R286 though a trap is on its way, which is then taken. That it comes before R102's choice is (DEDUCED, notes/assumptions/7.md). -/
def State.boundary (s : State) (c : Nat) : Option State :=
  let x := s.core c
  match x.oldestLate with
  | some l =>
    if x.q.st = .idle ∨ x.q.st = .faulted then none
    else if (x.q.holdOf 0).k.mustEnd then s.honourStop c
    else
      let trapped : State :=
        let t := if x.q.st = .stopping then s.unstop c else match (x.q.holdOf 0).k with
          | .fut _ _ _ => s.abandonWait c
          | _ => s
        (t.mod c (fun y => y.takeLate l)).leaveLease c
      let fault : State := (if x.q.st = .stopping then s.unstop c else s).mod c (fun y => y.contained l)
      if l.cont then
        match x.q.regions with
        | e :: rest => if x.q.tact then some fault else some ((s.unwind c l e rest).leaveLease c)
        | [] => some fault
      else some trapped
  | none => s.honourStop c

/-- Whether a late trap or event keeps the main context from issuing. -/
def Core.lateWaits (x : Core) : Bool := !x.q.late.isEmpty

/-! ### The choice (R102) -/

/-- The handler contexts in cyclic order after the last to issue. -/
def handlersAfter (last : Nat) : List Nat := (List.range 3).map (fun i => (last + i) % 3 + 1)

/-- The contexts in the order in which R102 chooses among those that are ready. -/
def Core.choices (x : Core) (run : Nat) : List Nat :=
  let hs := handlersAfter x.q.lastH
  let main := if x.lateWaits then [] else [0]
  if 3 ≤ run then main ++ hs else hs ++ main

/-- How many of the clocks just before clock `now`, one after the other, issued from a handler context (R102): none where the core
did not issue on the clock before. -/
def Seq.handlerRun (q : Seq) (now : Nat) : Nat := if q.clockAt = now then q.hrun else 0

/-- A context has issued on this clock: what R102 remembers of it, and the end of its core's part of the clock. -/
def State.issuedBy (s : State) (c ctx run : Nat) : State :=
  { s.mod c (fun x => x.seq (fun q =>
      if ctx = 0 then { q with hrun := 0, clockAt := s.now + 1 }
      else { q with lastH := ctx, hrun := run + 1, clockAt := s.now + 1 })) with rank := (2 * c + 2, 0) }

/-- The first context of a list that is ready issues its word; where none is, the clock passes. A word that begins to wait on a handle
or for the lease is not ready (notes/assumptions/7.md). Two things take no clock: a word withheld by FO or LO (R126), and the end of
the wait of a word that had issued before, which has its place in the clock's order (R305). -/
def State.tryContexts (s : State) (c run : Nat) : List Nat → Out
  | [] => .next { s with rank := (2 * c + 2, 0) }
  | ctx :: rest =>
    match ({ s with cur := c, ctx := ctx, waited := false, noClock := false } : State).contextStep with
    | .next t =>
      let was := ((s.core c).q.holdOf ctx).k
      if t.waited then s.tryContexts c run rest
      else if was = .free ∧ ((t.core c).q.holdOf ctx).k.unready then t.tryContexts c run rest
      else
        let u := if ctx = 0 then t.mod c (fun x => x.passed s.now) else t
        if t.noClock then .next u
        else if was ≠ .free ∧ !was.unready then .next { u with rank := (2 * c + 1, (s.core c).q.nid + 1) }
        else .next (u.issuedBy c ctx run)
    | .fault f => .fault f
    | .refused r => .refused r

/-- An issue clock of core `c`. -/
def State.coreTurn (s : State) (c : Nat) : Out :=
  if s.halted ∨ s.cfg.total ≤ c then .next s
  else match s.boundary c with
    | some t => .next { t with rank := (2 * c + 2, 0) }
    | none => s.tryContexts c ((s.core c).q.handlerRun s.now) ((s.core c).choices ((s.core c).q.handlerRun s.now))

/-! ### The other acts -/

/-- Pipe `q` of core `c` executes the word at the head of its queue. After a thermal trip it stands still, though accesses
already issued perform (DESIGN CHOICE, notes/assumptions/61.md). -/
def State.pipeTurn (s : State) (c q : Nat) : Out :=
  match ((s.core c).v.queue q).head? with
  | none => .next s
  | some e => if s.halted then .next s else exec e.i { s with cur := c, ctx := 0, pipe := some e.cap }

/-- Some elements of V-word `id` of core `c` perform: of the L word at its queue's head, or of a store under way (R384). -/
def State.partTurn (s : State) (c id : Nat) (sel : List Nat) : Out :=
  match ((s.core c).v.queue 0).head? with
  | some e =>
    if e.cap.id = id then (if s.halted then .next s else exec e.i { s with cur := c, ctx := 0, pipe := some e.cap, part := some sel })
    else .next (s.storeElements c id sel)
  | none => .next (s.storeElements c id sel)

/-- Whether an instruction is an event, a packet or a message: no word of code memory encodes it. -/
def outerWord (i : Instr) : Bool := (vParts i).isNone && (encodeC i).isEmpty

/-- What may happen once a thermal trip or an illegal configuration has halted the module (R14, R351): what has issued performs,
and the host and the management mailbox are answered. What else goes on then is the model's choice (DESIGN CHOICE,
notes/assumptions/61.md). -/
def whileHalted : Instr → Bool
  | .moduleReset | .journalAppend | .managementMailboxRequest _ | .wearRecordRequest _ | .hostHdmRead _ _ | .hostHdmWrite _ _
  | .linkTrain _ _ | .hostLinkDown _ | .loadComplete _ _ | .amoReply _ _ | .writeReachesHome _ _ | .storeAcknowledged _ _
  | .dataReply _ _ _ | .acknowledgement _ _ _ => true
  | _ => false

/-- What a free turn does not make up: a write of a base-die port, as the model's own write-backs are part of its memory operations
(notes/assumptions/25.md), and what the clocks themselves do. -/
def invented : Instr → Bool
  | .wr _ _ _ | .wrm _ _ _ _ | .queueResolve _ _ | .initialRecordPush _ | .futReleasePush _ | .gafferSample _ | .gafferMove _
  | .groupDeliver _ | .taskDispatch _ | .launchDone _ | .urgentStop _ _ => true
  | _ => false

/-- An event. One whose guard does not hold changes nothing (notes/assumptions/9.md). -/
def State.eventTurn (s : State) (i : Instr) : Out :=
  if outerWord i && (!s.halted || whileHalted i) then exec i s else .next s

/-- Whether the host may write a byte of BAR0 (R260, R318, R320): the device writes the status page, its words of the
descriptors and mailboxes, and the journal. -/
def barOpen (off : Nat) : Bool :=
  if 0x100000 ≤ off ∧ off < 0x140000 then decide (off % 64 < 16)
  else if 0x200000 ≤ off ∧ off < 0x210000 then decide (off % 64 < 16) || off % 64 == 56
  else decide (0x300000 ≤ off) && decide (off < 0x301000)

/-- The host writes a byte of BAR0: a ring's ENABLE written 0 is remembered (R322), and bit 0 of a mailbox's DOOR rings it, but not where
its STATE is 1 (R260). -/
def State.barTurn (s : State) (off : Nat) (b : Byte) : State :=
  if barOpen off = false ∨ s.io.linkReset then s
  else
    let w := s.barWrite off [b]
    let r := (off - 0x100000) / 64
    let t := if 0x100000 ≤ off ∧ off < 0x140000 ∧ off % 64 = 0 ∧ b.getLsbD 0 = false ∧ (w.ring r).st ≠ 0 then w.setRing r { w.ring r with off := true } else w
    if 0x200000 ≤ off ∧ off < 0x210000 ∧ off % 64 = 56 ∧ b.getLsbD 0 ∧ s.barNat (off / 64 * 64 + 16) 1 ≠ 1 then
      { t with io := { t.io with doors := (off - 0x200000) / 64 :: t.io.doors.filter (· != (off - 0x200000) / 64) } }
    else t

/-- A bit error strikes memory (R338). When one strikes is the outside's choice (notes/assumptions/16.md). -/
def State.upsetTurn (s : State) (pa : Nat) (hard : Bool) : State :=
  let g := s.cfg.granule pa
  match s.cfg.tier pa with
  | .hbm | .lpddr | .l2 | .bdeck =>
    if hard then { s with w := { s.w with hard := Sparse.set 0 s.w.hard g (s.cfg.memUnit pa + 1) } }
    else { s with w := { s.w with soft := Sparse.set 0 s.w.soft g (s.cfg.memUnit pa + 1) } }
  | .host | .fabric | .absent => s

/-- Whether a slice may hold a dirty copy of a line: it has been written since reset. -/
def State.copyDirty (s : State) (ln : Nat) : Bool := (List.range 64).any (fun i => (Sparse.get [] s.hist (64 * ln + i)) != [])

/-- An uncorrectable error strikes a granule of a slice's copy of a line of DRAM (R338). -/
def State.copyTurn (s : State) (pa : Nat) (dirty : Bool) : State :=
  let g := pa / 8
  let u := s.cfg.homeUnit pa + 1
  match s.cfg.tier pa with
  | .hbm | .lpddr =>
    if dirty then
      (if s.copyDirty (pa / 64) ∧ Sparse.get 0 s.w.dirtyCopy g = 0 then
        { s with w := { s.w with dirtyCopy := Sparse.set 0 s.w.dirtyCopy g (u + 2 ^ 16) } } else s)
    else { s with w := { s.w with badCopy := Sparse.set 0 s.w.badCopy g u } }
  | _ => s

/-- A slice writes its dirty copy of a line back (R338): what is bad in it is found, and marks the granules of the tier. -/
def State.evictTurn (s : State) (ln : Nat) : State :=
  (List.range 8).foldl (fun (t : State) i =>
    let m := Sparse.get 0 t.w.dirtyCopy (8 * ln + i)
    if m = 0 then t
    else
      let u := if 2 ^ 16 < m then t.uncorrected (markFound m - 1) else t
      { u with w := { u.w with
          dirtyCopy := Sparse.set 0 u.w.dirtyCopy (8 * ln + i) 0
          poison := Sparse.set 0 u.w.poison (s.cfg.granule (64 * ln + 8 * i)) (markFound m) } }) s

/-- A mark once more than a granule has: an error strikes a granule that holds none. -/
def struck (m : Sparse Nat) (k unit : Nat) : Sparse Nat := if Sparse.get 0 m k ≠ 0 then m else Sparse.set 0 m k (unit + 1 + 2 ^ 16)

/-- The unit of storage beside memory (R340): a queue's records have none. -/
def State.storeUnit (s : State) : Store → Nat
  | .scalar c _ _ | .token c _ _ | .vector c _ _ | .predicate c _ | .mask c _ _ | .vword c _ _ | .control c _ | .vhalf c _
  | .tokenCache c _ | .stash c _ _ | .tile c _ => s.cfg.coreUnit c
  | .accum mv k => s.cfg.groupUnit mv (2 * k % 512)
  | .record _ _ _ => 0xFFFF

/-- A granule of a record on chip is struck. -/
def QItem.struck (g : Nat) : QItem → QItem
  | .here r i n bad => .here r i n (if bad.any (fun p => p.1 / 8 == g) then bad else bad ++ [(8 * g, 0xFFFF + 1 + 2 ^ 16)])
  | .refill pos i => .refill pos i

/-- An uncorrectable error strikes a granule of storage beside memory (R338); a copy of a pontil-table entry is dropped. -/
def State.strikeHard (s : State) (p : Store) : State :=
  let u := s.storeUnit p
  let reg (c g : Nat) : State := s.mod c (fun x => { x with r := { x.r with bad := struck x.r.bad g u } })
  let code (c n : Nat) : State := s.mod c (fun x => { x with code := { x.code with bad := struck x.code.bad n u } })
  match p with
  | .scalar c ctx r => if 0 < r ∧ r < (if ctx = 0 then 64 else 16) ∧ ctx < 4 then reg c (sKey ctx r) else s
  | .token c ctx r => if 0 < r ∧ r < (if ctx = 0 then 32 else 8) ∧ ctx < 4 then reg c (kGran ctx r) else s
  | .vector c r g => if r < 2048 ∧ g < 16 then reg c (vGran r g) else s
  | .predicate c r => if 0 < r ∧ r < 16 then reg c (pGran r) else s
  | .mask c d g => if d < (s.core c).r.masks.length ∧ g < 12 then reg c (mGran d g) else s
  | .vword c q i =>
    s.mod c (fun x => x.vu (fun v => v.setQueue q (((List.range (v.queue q).length).zip (v.queue q)).map (fun p =>
      if p.1 = i ∧ p.2.cap.bad = 0 then { p.2 with cap := { p.2.cap with bad := u + 1 + 2 ^ 16 } } else p.2))))
  | .control c n => if n < (s.core c).code.ctlLen then code c n else s
  | .vhalf c n => if n < 2 * (s.core c).code.vecLen then code c (2 ^ 15 + n) else s
  | .tokenCache c e => s.mod c (fun x => { x with tcache := x.tcache.filter (· != e) })
  | .stash c ln g =>
    s.mod c (fun x =>
      let l := x.line ln
      if g < 8 ∧ l.valid.getLsbD (g / 2) ∧ l.badAt g = 0 then x.setLine ln { l with hard := Sparse.set 0 l.hard g (u + 1) } else x)
  | .tile c g => s.mod c (fun x => x.eng (fun e => if e.twr.getLsbD (g / 16384) then { e with tileBad := struck e.tileBad g u } else e))
  | .accum mv k => if k < 2 ^ 21 ∧ mv < 64 then { s with accBad := struck s.accBad (mv * 2 ^ 21 + k) u } else s
  | .record q i g =>
    let v := s.queue q
    s.setQ q { v with items := ((List.range v.items.length).zip v.items).map (fun x => if x.1 = i then x.2.struck (g % 8) else x.2) }

/-- A bit error strikes storage beside memory (R338): a correctable one is corrected and counted. When one strikes, and what may
be struck, is (notes/assumptions/16.md). -/
def State.strikeTurn (s : State) (p : Store) (hard : Bool) : State :=
  let there : Bool := match p with
    | .scalar c _ _ | .token c _ _ | .vector c _ _ | .predicate c _ | .mask c _ _ | .vword c _ _ | .control c _ | .vhalf c _
    | .tokenCache c _ | .stash c _ _ | .tile c _ => decide (c < s.cfg.total)
    | .accum _ _ | .record _ _ _ => true
  if !there then s else if hard then s.strikeHard p else s.corrected (s.storeUnit p)

/-- The host or another module writes a byte of its own memory, or another module one of this module's tiers (R197). It may come
at any time (notes/assumptions/26.md). -/
def State.outsideTurn (s : State) (pa : Nat) (b : Byte) : State :=
  match s.cfg.tier pa with
  | .host | .fabric | .hbm | .lpddr => s.homeWrite [(pa, b)]
  | .l2 | .bdeck | .absent => s

/-- The Wilgor complex writes a slot of the launch window and seals it (R99, R253, R258). It is an act of its own
(notes/assumptions/23.md). -/
def State.wilgorTurn (s : State) (slot : Nat) (words : List Word) : State :=
  if 4096 ≤ slot ∨ words.length ≠ 16 ∨ s.io.sealed.contains slot then s
  else
    let l := words.flatMap (fun w => leBytes 8 w.toNat)
    let w := ((List.range 128).zip l).foldl (fun (m : Sparse Byte) p => Sparse.set 0#8 m (128 * slot + p.1) p.2) s.io.window
    ({ s with io := { s.io with window := w } } : State).sealSlot slot true

/-- What an act does. -/
def State.act (s : State) : Act → Out
  | .core c => s.coreTurn c
  | .pipe c q => s.pipeTurn c q
  | .part c id sel => s.partTurn c id sel
  | .event i => s.eventTurn i
  | .unmask pane => if s.halted then .next s else .next (s.unmaskTurn pane)
  | .outside pa b => .next (s.outsideTurn pa b)
  | .bar off b => .next (s.barTurn off b)
  | .upset pa hard => .next (s.upsetTurn pa hard)
  | .badCopy pa dirty => .next (s.copyTurn pa dirty)
  | .evict pa => .next (s.evictTurn (pa / 64))
  | .strike p hard => .next (s.strikeTurn p hard)
  | .wilgor slot words => .next (s.wilgorTurn slot words)
  | .send link slots => .next (s.sendFlit link slots)
  | .replay link => .next (s.replayFlits link)
  | .root asid pa => .next { s with roots := Sparse.set 0 s.roots asid (pa + 1) }
  | .reach m up => .next { s with io := { s.io with reach := (s.io.reach.filter (· != m)) ++ (if up then [m] else []) } }

/-- The place an event has in the fixed order of a clock; none for one that may come anywhere in it. Queues resolve first (R226,
R227); then, in ascending core number, what a core's issued words do, in issue order, the end of its task, and the core's own issue
(R103, R207, R280, R288, R305, R316); then the dispatchers by pane, the Wilgor complex in the order in which it started, and the host
(R207, R316). -/
def State.eventRank (s : State) : Instr → Option (Nat × Nat)
  | .queueResolve _ _ => some (0, 0)
  | .vwordIllegalTrap c | .deadlock c | .copyEmit c | .copyComplete c | .copyCommandStart c | .copyCommandComplete c
  | .queueFaultTrap c _ | .sigWaitRelease c | .futParkRetry c | .taskStart c => some (2 * c + 1, 0)
  | .taskEndComplete c | .taskRetire c | .contextSaveComplete c => some (2 * c + 1, (s.core c).q.nid + 1)
  | .loadComplete c id | .amoReply c id | .writeReachesHome c id | .xlatComplete c id | .redundantCompare c id
  | .redmisTimeout c id => some (2 * c + 1, id + 1)
  | .mxStep m => ((s.marver m).order.head?).map (fun k => (2 * k.core + 1, k.id + 1))
  | .launchRunning lid => some (4096 + (Sparse.get {} s.d.loading lid : Launch).pane, lid)
  | .ringEnable _ | .packetFetch _ => some (5000, s.tick)
  | .ringDisable _ | .ringUnpark _ => some (5000, 0)
  | .nopPacket r | .launchPacket r _ | .graphPacket r _ | .waitPacket r _ _ | .signalPacket r _ _ _ _ | .revokePacket r _ _ _ _ =>
    some (5000, (s.ring r).started)
  | .hostHdmRead _ _ | .hostHdmWrite _ _ => some (6000, 0)
  | _ => none

/-- The place an act has in the fixed order of a clock. A core's issue comes after what its earlier words do. What the manual
leaves without one may come anywhere (notes/assumptions/1.md). -/
def State.rankOf (s : State) : Act → Option (Nat × Nat)
  | .core c => some (2 * c + 2, 0)
  | .pipe c _ | .part c _ _ => some (2 * c + 1, 0)
  | .event i => s.eventRank i
  | .unmask pane => ((s.umOf pane).order.head?).map (fun k => (2 * k.core + 1, k.id + 1))
  | .outside _ _ | .bar _ _ => some (6000, 0)
  | .wilgor _ _ => some (5000, 0)
  | .upset _ _ | .badCopy _ _ | .evict _ | .strike _ _ | .root _ _ | .reach _ _ | .send _ _ | .replay _ => none

/-- `a` comes before `b` in the order of a clock. -/
def rankLt (a b : Nat × Nat) : Bool := decide (a.1 < b.1) || (a.1 == b.1 && decide (a.2 < b.2))

/-- Whether an act can no longer fall on the clock under way: the clock's order has passed its place, or its core has issued. -/
def State.tooLate (s : State) (a : Act) : Bool :=
  match s.rankOf a with
  | none => false
  | some r => rankLt r s.rank || (match a with | .core _ => r == s.rank | _ => false)

/-- The clocks that pass before a turn's act: what the turn says, and one where this clock has no room for it. -/
def State.clocksFor (s : State) (t : Turn) : Nat := if t.dt = 0 ∧ s.tooLate t.act then 1 else t.dt

/-- The turn that comes next, and the agenda after it: the head of the agenda, else a free one that makes up no base-die write.
The order of the module's agents is open (notes/assumptions/1.md). -/
def State.nextTurn (s : State) : Turn × List Turn :=
  match s.agenda with
  | t :: rest => (t, rest)
  | [] =>
    let t := Config.freeTurn s.tick
    (match t.act with
     | .event i => if invented i then { t with act := .event .journalAppend } else t
     | _ => t, [])

/-- The dispatchers that come before an act of place `r` in its clock have completed what finished in it (R207, R331). -/
def State.upTo (s : State) (r : Nat × Nat) : State :=
  if r.1 < 4096 ∨ s.halted then s else s.completions (min (r.1 - 4095) s.cfg.panes)

/-- The state in which a turn's act runs: its clocks have passed and the last word's marks are gone. -/
def State.begun (s : State) (t : Turn) (rest : List Turn) : State :=
  let u := State.passClocks (s.clocksFor t)
    { s with agenda := rest, waited := false, noClock := false, pipe := none, part := none, cur := 0, ctx := 0 }
  let v : State := { u with tick := u.tick + 1 }
  match t.act, v.rankOf t.act with
  | .core _, _ | _, none => v
  | _, some r => { v.upTo r with rank := r }

/-- Where the pontil table lies in HBM4E, and the range list of an entry's generation in the pool (R205). -/
def tablePA (e : Nat) : Nat := setAside 0 + 256 * e
def rangesPA (e gen : Nat) : Nat := setAside 1 + 64 * (Config.rangePlace e gen % (poolSize / 64))

/-- The table in HBM4E follows its entries (R205): where an act has changed an entry, or its USE, what differs of the 256 bytes is
written, and of the range list of an entry of more than eight. Where it lies is free, and the copy goes one way (notes/assumptions/56.md). -/
def State.tableWritten (s old : State) : State :=
  let changed := ((old.pontil ++ s.pontil).map Prod.fst).eraseDups.filter
    (fun e => old.ent e != s.ent e || old.useOf e != s.useOf e)
  changed.foldl (fun t e =>
    let v := s.ent e
    let u := t.memChange (tablePA e) (v.bytes (s.useOf e) (rangesPA e v.gen))
    if v.ranges.length ≤ 8 then u else u.memChange (rangesPA e v.gen) v.listOf) s

/-- One turn of the module. -/
def State.turn (s : State) : Out :=
  let b := s.begun s.nextTurn.1 s.nextTurn.2
  match b.act s.nextTurn.1.act with
  | .next t => .next (t.tableWritten b)
  | o => o

/-! ### Placing an instruction (the host's `withFetchWord`) -/

/-- A core whose main context stands at C-word 0 with nothing in its way and the given words loaded. -/
def Core.ready (x : Core) (ctl : List Word) : Core :=
  { x with
    q := { x.q with st := .running, pc := 0, issue := {}, h := [], hold := [], stop := false, late := [], armed := none, tact := false }
    code := { x.code with ctl := (ctl.zip (List.range ctl.length)).foldl (fun (m : Sparse Word) p => Sparse.set 0#64 m p.2 p.1) x.code.ctl
                          ctlLen := max x.code.ctlLen ctl.length } }

/-- Core 0 ready to issue one V-word by a `viss`. -/
def Core.readyV (x : Core) (w : VWordBits) : Core :=
  let y := x.ready [0x2000000000040000#64]
  { y with code := { y.code with vec := Sparse.set 0#128 y.code.vec 0 w, vecLen := max y.code.vecLen 1 } }

/-- Store an instruction where the next turn runs it. How a program comes to run from reset is said in (notes/assumptions/6.md).
-/
def State.place (s : State) (nbits w : Nat) : State :=
  match decodeTableWord nbits w with
  | none => s
  | some i =>
    let at0 (f : Core → Core) : State := { s.mod 0 f with halted := false }
    match vParts i with
    | some (op, u) =>
      if op = 0x280 then { at0 (fun x => x.readyV (encodeV i)) with agenda := [{ dt := 0, act := .core 0 }] }
      else
        let q := vQueue op u
        let t := at0 (fun x => (x.ready []).vu (fun v => v.setQueue q
          ({ i := i, cap := { id := 0, rows := 1, marks := vDest op u 1, pred := {} } } :: v.queue q)))
        { t with agenda := [{ dt := 0, act := .pipe 0 q }] }
    | none =>
      if outerWord i then
        let t : State := { s with halted := false }
        let p := if encodePacket i = [] then t else t.setRing 0 { t.ring 0 with cur := some i }
        { p with agenda := [{ dt := 0, act := .event i }] }
      else
        let ws := (List.range ((nbits + 63) / 64)).map (fun k => BitVec.ofNat 64 (w / 2 ^ (64 * k)))
        { at0 (fun x => x.ready (if 2 ≤ (encodeC i).length ∧ ws.length < 2 then ws ++ [0#64] else ws)) with
          agenda := [{ dt := 0, act := .core 0 }] }

end Sys2Proof.Machine
end

