-- ==== Sys2Proof/Machine/Step.lean ====
section
/-! DEFINITION. The step of the module: one turn, and the placing of one instruction where the next step runs it. -/

namespace Sys2Proof.Machine

/-- One step: one turn of the module. -/
def step (s : State) : Host.Outcome State Fault Refusal := s.turn

/-- `s` with an instruction placed where the very next step runs it. -/
def State.withFetchWord (s : State) (nbits w : Nat) : State := s.place nbits w

end Sys2Proof.Machine
end

