-- ==== Sys2Proof/Safety.lean ====
section
/-! DEFINITION. What counts as a safe run, and the terms claims use: when a word may issue, what a step leaves alone, and what
it writes. -/

namespace Sys2Proof

open Machine

/-- A step answers a next state: the module neither faults nor meets an instruction without a meaning. -/
def StepSafe (s : State) : Prop := ∃ t, Machine.step s = .next t

/-- The memory of a state is in its canonical form. -/
def MemoryCanonical (s : State) : Prop := Memory.wf s.mem = true

/-- The context whose word runs may issue `i`, the sources `l` it reads are full, and what it consumes holds no bad data (R48, R95,
R100, R102, R338). -/
structure MayIssue (i : Instr) (l : List Src) (s : State) : Prop where
  runs : s.runs = true
  allowed : s.ctx = 0 ∨ handlerOk i = true
  full : ∀ r ∈ l, s.me.full s.ctx r = true
  sound : ∀ g ∈ consumed i s.ctx l, Sparse.get 0 s.me.r.bad g = 0

/-- Nothing but core `c` changes: no other core, no byte of memory, and no other part of the module. -/
structure OnlyCore (c : Nat) (s t : State) : Prop where
  rest : t = { s with cores := t.cores }
  others : ∀ d, d ≠ c → t.core d = s.core d
  bytes : ∀ pa, t.byte pa = s.byte pa

/-- The registers of a core but for the scalars `ds` of context `ctx` keep their values and their full or empty bits. -/
structure ScalarsKept (x y : Core) (ctx : Nat) (ds : List Nat) : Prop where
  scalars : ∀ k r, r < 64 → ¬(k = ctx ∧ r ∈ ds) → y.rdS k r = x.rdS k r ∧ y.sMarks k r = x.sMarks k r
  tokens : y.r.k = x.r.k ∧ y.r.km = x.r.km
  vectors : y.r.v = x.r.v ∧ y.r.vm = x.r.vm
  predicates : y.r.p = x.r.p
  masks : y.r.masks = x.r.masks
  marks : ∀ g, (∀ r ∈ ds, g ≠ sKey ctx r) → Sparse.get 0 y.r.bad g = Sparse.get 0 x.r.bad g

/-- A core changes in nothing but its registers, the record of unread Marver faults, and where its contexts stand: every control
and status register, the vector queues, the engines, the stash and the accesses under way are as before. -/
structure CoreKept (x y : Core) : Prop where
  rest : y = { x with r := y.r, e := y.e, q := y.q }
  engines : y.e = { x.e with mxfault := y.e.mxfault }
  place : y.q = { x.q with pc := y.q.pc, loops := y.q.loops, nid := y.q.nid, point := y.q.point, pointAt := y.q.pointAt
                           hold := y.q.hold, h := y.q.h }

/-- The running context has moved past an instruction of `n` C-words, where no loop level ends with it (R46, R123). -/
def Passes (s t : State) (n : Nat) : Prop :=
  (s.ctx ≠ 0 ∨ s.me.q.tact = true ∨
    ∀ l, l < 6 → (s.me.q.loop l).act = false ∨ (s.me.q.loop l).last ≠ s.me.q.pcOf s.ctx + n - 1) →
  (t.core s.cur).q.pcOf s.ctx = s.me.q.pcOf s.ctx + n

/-- Scalar `d` of the running context is written `v` and full, s0 reads zero still, and nothing else changes (R6, R96). -/
structure WritesScalar (s t : State) (d : Nat) (v : Word) : Prop where
  only : OnlyCore s.cur s t
  core : CoreKept s.me (t.core s.cur)
  kept : ScalarsKept s.me (t.core s.cur) s.ctx [d]
  value : (t.core s.cur).rdS s.ctx d = if d = 0 then 0#64 else v
  full : (t.core s.cur).sMarks s.ctx d = []

/-- `i`, which reads the sources `l`, completes: it writes scalar `d` with a value that `P` describes, passes its `n` C-words
and changes nothing else. -/
def ScalarResult (i : Instr) (l : List Src) (d n : Nat) (s : State) (P : Word → Prop) : Prop :=
  i.wf = true → MayIssue i l s → ∃ t v, exec i s = .next t ∧ P v ∧ WritesScalar s t d v ∧ Passes s t n

/-- Both forms of an ALU operation (R114) complete with a result that `P` describes of a, b and the result: b is sB, or IMM37
sign-extended. -/
def BothForms (reg : AluR → Instr) (imm : AluI → Instr) (P : Word → Word → Word → Prop) : Prop :=
  ∀ s, (∀ o, ScalarResult (reg o) (aluSrcs o true false) o.d 1 s (P (s.sc o.a) (s.sc o.b))) ∧
    (∀ o, ScalarResult (imm o) [.s o.a o.fea] o.d 1 s (P (s.sc o.a) (o.imm.signExtend 64)))

/-- The register form of an ALU operation that reads a alone completes with a result that `P` describes. -/
def OneForm (reg : AluR → Instr) (P : Word → Word → Prop) : Prop :=
  ∀ s o, ScalarResult (reg o) (aluSrcs o false false) o.d 1 s (P (s.sc o.a))

/-- Bits of a field extraction (R115 `bfx`): bit k of the result, for a position and a width of any size. -/
def bfxBit (a : Word) (pos wid k : Nat) : Bool := decide (k < wid) && decide (pos < 64) && a.getLsbD (pos + k)

/-- Bits of a field insertion (R115 `bfi`): bit k of the result. -/
def bfiBit (old a : Word) (pos wid k : Nat) : Bool :=
  if pos ≤ k ∧ k < pos + wid ∧ pos < 64 then a.getLsbD (k - pos) else old.getLsbD k

/-- `i`, which reads the sources `l`, completes with a next state of which `P` holds. -/
def WordResult (i : Instr) (l : List Src) (s : State) (P : State → Prop) : Prop :=
  i.wf = true → MayIssue i l s → ∃ t, exec i s = .next t ∧ P t

/-- `i`, which reads the sources `l`, completes with a next state of which `P` holds, and may leave its context following in
happens-before what an engine wrote (R119, R239): `P` is told of the state with that put back. -/
def SeeingResult (i : Instr) (l : List Src) (s : State) (P : State → Prop) : Prop :=
  i.wf = true → MayIssue i l s → ∃ t, exec i s = .next t ∧ P { t with hb := s.hb }

/-- Nothing but where the running core's contexts stand changes, and the record of unread Marver faults. -/
structure Quiet (s t : State) : Prop where
  only : OnlyCore s.cur s t
  core : CoreKept s.me (t.core s.cur)
  regs : (t.core s.cur).r = s.me.r

/-- The running context goes on at `pc`, and no loop level changes (R120, R123). -/
def Goes (s t : State) (pc : Nat) : Prop :=
  (t.core s.cur).q.pcOf s.ctx = pc ∧ (t.core s.cur).q.loops = s.me.q.loops

/-- The main context has taken a trap of its C-word (R103, R104): TCAUSE and TINFO hold the cause and the data; with TACT = 1,
or with no handler, the context is FAULTED; otherwise TPC is the resume address, TACT is 1 and the context runs at TVEC. No
register, no other core and no byte of memory changes. -/
structure Trapped (s t : State) (cause data resume : Nat) : Prop where
  only : OnlyCore s.cur s t
  regs : (t.core s.cur).r = s.me.r
  core : t.core s.cur = { s.me with c := (t.core s.cur).c, q := (t.core s.cur).q, e := (t.core s.cur).e }
  saved : (t.core s.cur).c = { s.me.c with tcause := BitVec.ofNat 64 cause,
                                           tinfo := BitVec.ofNat 64 (3 * 2 ^ 58 + data % 2 ^ 32),
                                           tpc := if s.me.q.tact then s.me.c.tpc else BitVec.ofNat 64 resume }
  state : (t.core s.cur).q.st = if s.me.q.tact = true ∨ s.me.c.tvec = 0 then .faulted else .running
  tact : (t.core s.cur).q.tact = (s.me.q.tact || s.me.c.tvec != 0)
  pc : (t.core s.cur).q.pc = if s.me.q.tact = true ∨ s.me.c.tvec = 0 then s.me.q.pc else s.me.c.tvec % 2 ^ 15
  loops : (t.core s.cur).q.loops = s.me.q.loops

/-- `i`, which reads the sources `l`, traps in the main context (R103). -/
def TrapsBy (i : Instr) (l : List Src) (s : State) (cause data resume : Nat) : Prop :=
  i.wf = true → MayIssue i l s → s.ctx = 0 → ∃ t, exec i s = .next t ∧ Trapped s t cause data resume

/-- A transfer to C-word `target` (R120): inside the loaded control section the context goes on there; outside it the main
context traps CODEFETCH with the target's low 32 bits. -/
def TransfersTo (i : Instr) (l : List Src) (s : State) (target : Int) : Prop :=
  (0 ≤ target ∧ target < (s.me.code.ctlLen : Int) → WordResult i l s (fun t => Quiet s t ∧ Goes s t target.toNat)) ∧
  (¬(0 ≤ target ∧ target < (s.me.code.ctlLen : Int)) → TrapsBy i l s 7 (target % 2 ^ 32).toNat s.me.q.pc)

/-- The condition of `cset` and `br` (R55, R118, R119), as a statement. -/
def CondTrue (s : State) (k : Cond) (a b : Word) : Prop :=
  match k with
  | .al => True
  | .eq => a = b
  | .ne => a ≠ b
  | .ltS => a.toInt < b.toInt
  | .geS => b.toInt ≤ a.toInt
  | .ltN => a.toNat < b.toNat
  | .geN => b.toNat ≤ a.toNat
  | .cpybusy => s.me.e.copies ≠ []
  | .cpydone => s.me.e.copies = [] ∧ ∀ p ∈ s.me.e.hnd, p.2.code = 0
  | .mxbusy => s.mxBusy s.cur = true
  | .mxdone => s.mxBusy s.cur = false ∧ s.me.e.mxfault = []
  | .umbusy => ∃ m ∈ (s.umOf (s.cfg.paneOf s.cur)).order, m.core = s.cur
  | .umdone => ∀ m ∈ (s.umOf (s.cfg.paneOf s.cur)).order, m.core ≠ s.cur
  | .cpyfault => ∃ p ∈ s.me.e.hnd, p.2.code ≠ 0
  | .mxfault => s.me.e.mxfault ≠ []

/-- The bits of a control and status register that a write reaches (R17, R23, R24, R103, R104, R125, R131, R135, R177, R211,
R267, R274). -/
def csrFields (n : Nat) : Word :=
  if n = 0x002 then 0xF#64
  else if n = 0x003 then 0x3F#64
  else if n = 0x004 then 0xFFFFF017#64
  else if n = 0x005 then 0xFF#64
  else if n = 0x006 then BitVec.allOnes 64
  else if n = 0x007 then 0xFC00FFFFFFFFFFFF#64
  else if n = 0x008 then 0x7FFF#64
  else if n < 0x018 then 0xFFF#64
  else if n < 0x020 then 0xFFFFFFFF#64
  else if n = 0x020 then 7#64
  else if n = 0x030 then 0xFFFFF#64
  else if n = 0x031 then 0x7F#64
  else if n = 0x032 then 0xFF#64
  else 0x1FF#64

/-- The state in which the act `a` of a turn runs that lets no clock pass: the agenda goes on, the turn counts, and the order of the
clock has come to the act's place, past the dispatchers that come before it. -/
def Begins (s : State) (a : Act) (rest : List Turn) : State :=
  let v : State := { s with
    agenda := rest, tick := s.tick + 1, waited := false, noClock := false, pipe := none, part := none, cur := 0, ctx := 0 }
  match a, v.rankOf a with
  | .core _, _ | _, none => v
  | _, some r => { v.upTo r with rank := r }

/-- Context `ctx` of core `c` alone may issue: the module is not halted, the core exists and its place in the clock's order has not
passed, no late trap and no stop is pending, its next C-word holds no bad data, and every other context stands still (R100, R101, R102,
R207, R338). -/
structure AloneMayIssue (s : State) (c ctx : Nat) : Prop where
  awake : s.halted = false
  inside : c < s.cfg.total
  noLate : (s.core c).q.late = []
  noStop : (s.core c).q.stop = false
  main : if ctx = 0 then (s.core c).q.st = .running ∧ (s.core c).q.armed = none ∧ (s.core c).q.issue.act = false
         else (s.core c).q.st ≠ .running ∧ ctx ≤ 3 ∧ ((s.core c).q.hctx ctx).st = .running
  handlers : ∀ h, h ≠ ctx → ((s.core c).q.hctx h).st ≠ .running
  sound : (s.core c).wordBad ((s.core c).q.pcOf ctx) = none
  early : s.tooLate (.core c) = false

/-- A trap or event that `P` describes is on its way to the main context of core `x`, now `y`; one that arises on a clock on which an
earlier issued word's trap has been taken is lost (R103). -/
def Raises (now : Nat) (x y : Core) (P : Late → Prop) : Prop :=
  (x.q.tookAt ≠ now + 1 → ∃ l, y.q.late = x.q.late ++ [l] ∧ P l ∧ l.arr = now) ∧ (x.q.tookAt = now + 1 → y.q.late = x.q.late)

/-- A handler context has taken a trap of its C-word (R101, R103): its routine is abandoned, it is DORMANT or runs the oldest
notification, and the trap waits for the main context with TINFO.CTX, the handler's C-word and the data. -/
structure HandlerTrapped (s t : State) (cause data : Nat) : Prop where
  only : OnlyCore s.cur s t
  csrs : (t.core s.cur).c = s.me.c
  main : (t.core s.cur).q.st = s.me.q.st ∧ (t.core s.cur).q.pc = s.me.q.pc ∧ (t.core s.cur).q.tact = s.me.q.tact
  ended : s.me.q.notes = [] → ((t.core s.cur).q.hctx s.ctx).st = .dormant ∧ (t.core s.cur).r = s.me.r
  passed : Raises s.now s.me (t.core s.cur) (fun l => l.cause = cause ∧ l.clk = s.me.q.nid ∧ l.cont = false ∧
    l.info = BitVec.ofNat 64 (s.ctx * 2 ^ 62 + 3 * 2 ^ 58 + s.me.q.pcOf s.ctx % 2 ^ 16 * 2 ^ 32 + data % 2 ^ 32))

/-- `i` issues an access of `w` bytes at byte offset `off` of a token's window, checked for the rights `need` (R129, R209): the
register `fills` is marked empty and keeps its value, no other register changes and memory stays as it is. A passed access is
outstanding with its token and its bytes, one whose entry is DRAINING is outstanding unchecked, and a failed one sets KSTAT and is
outstanding only if it fills a register. -/
def IssuesAccess (i : Instr) (l : List Src) (n : Nat) (fills : Option Nat) (need : BitVec 4) (tok : Token) (off : Int) (w : Nat)
    (s : State) (P : Acc → Prop) : Prop :=
  WordResult i l s (fun t =>
    OnlyCore s.cur s t ∧ Passes s t n ∧ (t.core s.cur).r = { s.me.r with sm := (t.core s.cur).r.sm } ∧
    t.core s.cur = { s.me with r := (t.core s.cur).r, c := (t.core s.cur).c, q := (t.core s.cur).q, e := (t.core s.cur).e,
                               acc := (t.core s.cur).acc, tcache := (t.core s.cur).tcache } ∧
    (∀ k r, r < 64 → (t.core s.cur).sMarks k r =
      if fills = some r ∧ k = s.ctx ∧ r ≠ 0 then s.me.sMarks k r ++ [s.me.q.nid] else s.me.sMarks k r) ∧
    let issued : Acc → Prop := fun a => a.id = s.me.q.nid ∧ a.ctx = s.ctx ∧ a.w = w ∧ P a
    match s.check tok off w need with
    | .pass u pas => (t.core s.cur).c = s.me.c ∧
        ∃ a, (t.core s.cur).acc = s.me.acc ++ [a] ∧ issued a ∧ a.chk = 1 ∧ a.tok = u ∧ a.pas = pas
    | .wait => (t.core s.cur).c = s.me.c ∧
        ∃ a, (t.core s.cur).acc = s.me.acc ++ [a] ∧ issued a ∧ a.chk = 0 ∧ a.tok = tok ∧ a.off = off
    | .fail b e => (t.core s.cur).c = (s.me.kset b e).c ∧
        (fills = none → (t.core s.cur).acc = s.me.acc) ∧
        (fills ≠ none → ∃ a, (t.core s.cur).acc = s.me.acc ++ [a] ∧ issued a ∧ a.chk = 2))

/-- Bytes that a read finds reachable and free of errors and marks (R334, R338). -/
def Clean (s : State) (pas : List Nat) : Prop :=
  ∀ pa ∈ pas, s.unreachable pa = false ∧ Sparse.get 0 s.w.dirtyCopy (pa / 8) = 0 ∧ Sparse.get 0 s.w.badCopy (pa / 8) = 0 ∧
    Sparse.get 0 s.w.hard (s.cfg.granule pa) = 0 ∧ Sparse.get 0 s.w.poison (s.cfg.granule pa) = 0

/-- No core's stash holds a mark or an error (R338). -/
def StashesClean (s : State) : Prop := ∀ d, ∀ p ∈ (s.core d).stash, p.2.bad = [] ∧ p.2.hard = []

/-- Core `c`'s access `a` may perform (R130, R297, R302 to R309, R319, R338): it has passed its check, nothing of its context that must
come first is outstanding, nor a store of its core where it does a release's work, what its release and its acquire wait for is there,
its core is no redundant one, its bytes are reachable and carry no error, and its core's stash holds none bad. -/
structure MayLand (s : State) (c : Nat) (a : Acc) : Prop where
  found : (s.core c).findAcc a.id = some a
  checked : a.chk = 1
  alone : (s.core c).partner = none
  order : ∀ b ∈ (s.core c).acc, b.id < a.id →
    (b.ctx = a.ctx → b.before a ((s.core c).atHome a) = false) ∧ (s.works c a = true → b.plainStore = false)
  pops : a.tok.kind = 2 ∨ s.popPending c a.ctx a.id = false
  released : a.rel = true → s.releaseReady c a.id (a.pas.headD 0 / 64) a.scope a.deferred = true
  acquired : a.acq = true → s.acquireReady c a.scope a.pas = true ∧ (s.core c).noneOvertaken a.ctx = true
  linked : s.linked a.pas = true
  clean : Clean s a.pas
  stashClean : ∀ p ∈ (s.core c).stash, p.2.bad = [] ∧ p.2.hard = []
  storesClean : ∀ b ∈ (s.core c).acc, b.bad = []

/-- Core `d`'s stash holds a byte that its core has written there (R218). -/
def WroteAt (s : State) (d pa : Nat) : Prop := (s.core d).wroteByte pa = true

/-- Core `d`'s stash holds a byte that it has still to take home: it has written it, and the line is dirty (R218). -/
def DirtyAt (s : State) (d pa : Nat) : Prop := ((s.core d).line (pa / 64)).dirty ≠ 0#4 ∧ WroteAt s d pa

/-- Every byte of memory outside `pas` reads as before, or as some core had written it in its stash: a write at a home slice takes
dirty copies of its line with it (R218, R299). -/
def BytesKept (s t : State) (pas : List Nat) : Prop :=
  ∀ pa, pa ∉ pas → t.byte pa = s.byte pa ∨ ∃ d, WroteAt s d pa ∧ t.byte pa = ((s.core d).line (pa / 64)).byte (pa % 64)

/-- No register of any core changes. -/
def RegistersKept (s t : State) : Prop := ∀ c, (t.core c).r = (s.core c).r

/-- R315: the operations of the atomics on a `w`-byte value. -/
def amoMeans (op w old a b new : Nat) : Prop :=
  let m := 2 ^ (8 * w)
  let sg (v : Nat) : Int := (BitVec.ofNat (8 * w) v).toInt
  (op = 0 → new = (old + a) % m) ∧ (op = 1 → new = Nat.land old a) ∧ (op = 2 → new = Nat.lor old a) ∧
  (op = 3 → new = Nat.xor old a) ∧
  (op = 4 → (new = old ∨ new = a) ∧ sg new ≤ sg old ∧ sg new ≤ sg a) ∧
  (op = 5 → (new = old ∨ new = a) ∧ sg old ≤ sg new ∧ sg a ≤ sg new) ∧
  (op = 6 → (new = old ∨ new = a) ∧ new ≤ old ∧ new ≤ a) ∧ (op = 7 → (new = old ∨ new = a) ∧ old ≤ new ∧ a ≤ new) ∧
  (op = 8 → new = a) ∧ (op = 9 → new = if old = a then b else old) ∧ (op = 16 → new = fmaxR42 old a) ∧ (op = 17 → new = 0)

/-- Token `d` of the running context is written, and nothing else of the registers changes. -/
def WritesToken (s t : State) (d : Nat) (v : Token) : Prop :=
  OnlyCore s.cur s t ∧ Passes s t 1 ∧ (t.core s.cur).acc = s.me.acc ∧ (t.core s.cur).rdK s.ctx d = (if d = 0 then {} else v) ∧
    (t.core s.cur).kMarks s.ctx d = [] ∧
    (∀ k r, r < 32 → ¬(k = s.ctx ∧ r = d) → (t.core s.cur).rdK k r = s.me.rdK k r ∧ (t.core s.cur).kMarks k r = s.me.kMarks k r) ∧
    (t.core s.cur).r = { s.me.r with k := (t.core s.cur).r.k, km := (t.core s.cur).r.km, bad := (t.core s.cur).r.bad } ∧
    ∀ g, g ≠ kGran s.ctx d → Sparse.get 0 (t.core s.cur).r.bad g = Sparse.get 0 s.me.r.bad g

/-- Only entry `e` of the pontil table may change (R206). -/
def EntryOnly (s t : State) (e : Nat) : Prop := ∀ d, d ≠ e → t.ent d = s.ent d

/-- An event leaves registers alone, and memory but for what stashes held dirty. -/
def Housekeeping (s t : State) : Prop := RegistersKept s t ∧ BytesKept s t []

/-! ### Queues -/

/-- The records of a queue on chip, oldest first; a slot reserved for a refill holds none yet (R222, R225). -/
def recordsOf (q : Queue) : List (Option Rec) :=
  q.items.map (fun i => match i with
    | .here r _ _ _ => some r
    | .refill _ _ => none)

/-- A queue instruction of the main context traps QUEUE (R221, R223): the data are the queue's number, or the low 32 bits of a
word that names none. -/
def QueueTraps (i : Instr) (l : List Src) (s : State) (w : Word) : Prop :=
  TrapsBy i l s 13 (match s.qname s.cur w with
    | some q => q
    | none => w.toNat % 2 ^ 32) s.me.q.pc

/-- The range of the launch whose stage a queue feeds can serve every record (R347). -/
def CanServe (s : State) (qn : Nat) : Prop :=
  (s.queue qn).stage = 0 ∨ ∀ (r : Rec), s.canServe (s.launch r.linst) r.redundant = true

/-- The context `ctx` of core `c` goes on past its one-word instruction, where no loop level ends with it. -/
def GoneOn (s t : State) (c ctx : Nat) : Prop :=
  (t.core c).q.holdOf ctx = {} ∧
    ((ctx ≠ 0 ∨ (s.core c).q.tact = true ∨
        ∀ l, l < 6 → ((s.core c).q.loop l).act = false ∨ ((s.core c).q.loop l).last ≠ (s.core c).q.pc) →
      (t.core c).q.pcOf ctx = (s.core c).q.pcOf ctx + 1)

/-! ### Engines -/

/-- The checks of an engine's pieces have all passed, at the bytes `pas`, through a token whose page is not unordered. -/
def AllPass (l : List (Nat × Chk)) (pas : List Nat) : Prop :=
  pas = (l.flatMap (fun p => match p.2 with | .pass _ q => q | _ => [])) ∧ ∀ p ∈ l, ∃ u q, p.2 = .pass u q ∧ q.length = p.1 ∧ u.kind ≠ 2

/-- The place of a copy in its nest, level 0 fastest (R244). -/
def nestPos : List Level → List Nat → Nat
  | l :: ls, i :: is => i + l.count * nestPos ls is
  | _, _ => 0

/-- The copies of a nest (R244). -/
def nestSize (lv : List Level) : Nat := (lv.map (fun l => l.count)).foldr (· * ·) 1

/-- An offset of a copy: the word's base and each level's index times its stride (R244). -/
def nestOff (base : Int) (idx : List Nat) (stride : List Word) : Int :=
  base + ((idx.zip stride).map (fun p => (p.1 : Int) * p.2.toInt)).sum

/-- Core `c`'s command at the head of its copy queue becomes `k`, and the others stay. -/
def HeadCopy (s t : State) (c : Nat) (k : CopyCmd) : Prop :=
  (t.core c).e.copies = k :: (s.core c).e.copies.tail

/-- A Marver command issues (R179, R180): its status scalar `d` and the registers `vs` are marked empty, and it joins its core's
queue with its captured scalars and token. -/
def MxIssues (i : Instr) (l : List Src) (n d : Nat) (vs : List Nat) (a b c : Word) (tok : Token) (s : State) : Prop :=
  WordResult i l s (fun t =>
    OnlyCore s.cur s t ∧ Passes s t n ∧
    (t.core s.cur).r = { s.me.r with sm := (t.core s.cur).r.sm, vm := (t.core s.cur).r.vm } ∧
    (∀ k r, r < 64 → (t.core s.cur).sMarks k r =
      if k = s.ctx ∧ r = d ∧ r ≠ 0 then s.me.sMarks k r ++ [s.me.q.nid] else s.me.sMarks k r) ∧
    (∀ r, (t.core s.cur).vMarks r = if r ∈ vs then s.me.vMarks r ++ [s.me.q.nid] else s.me.vMarks r) ∧
    ∃ k, (t.core s.cur).e.mxq = s.me.e.mxq ++ [k] ∧ k.i = i ∧ k.id = s.me.q.nid ∧ k.core = s.cur ∧ k.ctx = s.ctx ∧ k.a = a ∧
      k.b = b ∧ k.c = c ∧ k.tok = tok ∧ k.step = 0 ∧ k.begun = false ∧ k.done = false ∧ k.code = 0)

/-- No core's stash holds a byte that it has written. -/
def NoneDirty (s : State) : Prop := ∀ d pa, ¬WroteAt s d pa

/-- A step of the command `k` at the head of Marver `mv` has run: it counts, and the command is done after its last of `n`. -/
def Stepped (t : State) (mv : Nat) (k : MxCmd) (n : Nat) : Prop :=
  (t.marver mv).order.head? = some { k with step := k.step + 1, done := decide (n ≤ k.step + 1) }

/-- The last block of a step of the command `k` at the head of Marver `mv` is done: as `Stepped`, and what the step's blocks had left is
gone. -/
def BandDone (t : State) (mv : Nat) (k : MxCmd) (n : Nat) : Prop :=
  ∃ j : MxCmd, (t.marver mv).order.head? = some j ∧ j = { k with
    step := k.step + 1, done := decide (n ≤ k.step + 1), nblk := 0, got := [], gotBad := [], acqd := j.acqd, hb := j.hb }

/-- An unmasking command issues (R356, R357): its status scalar is marked empty, and it joins its pane's order with its captured
scalars and token. -/
def UmIssues (i : Instr) (l : List Src) (n d : Nat) (a b : Word) (tok : Token) (s : State) : Prop :=
  WordResult i l s (fun t =>
    t = { s with cores := t.cores, um := t.um } ∧ Passes s t n ∧ (∀ c, c ≠ s.cur → t.core c = s.core c) ∧
    (t.core s.cur).r = { s.me.r with sm := (t.core s.cur).r.sm } ∧
    (∀ k r, r < 64 → (t.core s.cur).sMarks k r =
      if k = s.ctx ∧ r = d ∧ r ≠ 0 then s.me.sMarks k r ++ [s.me.q.nid] else s.me.sMarks k r) ∧
    ∃ k, t.umOf (s.cfg.paneOf s.cur) = { s.umOf (s.cfg.paneOf s.cur) with order := (s.umOf (s.cfg.paneOf s.cur)).order ++ [k] } ∧
      k.i = i ∧ k.id = s.me.q.nid ∧ k.core = s.cur ∧ k.ctx = s.ctx ∧ k.a = a ∧ k.b = b ∧ k.tok = tok ∧
      k.linst = s.linstOf s.cur ∧ k.begun = false ∧ k.done = false ∧ k.code = 0 ∧ k.blk = 0)

/-- Nothing of core `c` stands between an access and the homes: no access or window of its own, and no redundant partner. -/
def PlainCore (s : State) (c : Nat) : Prop :=
  (s.core c).acc = [] ∧ (s.core c).wins = [] ∧ (s.core c).stash = [] ∧ (s.core c).partner = none ∧ s.w.held = []

/-! ### V-words -/

/-- The V-word with fields `w` and capture `cap` stands at the head of its queue, and its pipe may execute it, whole (R141, R143 to R147,
R384): its stream goes on, it is not skipped, and its sources are full and hold no bad data (R338). -/
structure AtHead (s : State) (op : Nat) (w : VFields) (cap : VCap) : Prop where
  pipe : s.pipe = some cap
  head : ∃ e l, s.me.v.queue (vQueue op w) = e :: l ∧ e.cap.id = cap.id
  marks : cap.marks = vDest op w cap.rows
  rows : 1 ≤ cap.rows
  alive : s.me.ended w cap = false
  unskipped : vQueue op w = 1 → s.me.v.skip = 0
  ordered : vQueue op w = 2 → cap.inst = 0 ∨ ∀ e ∈ s.me.v.qa, e.cap.inst ≠ cap.inst ∨ cap.id ≤ e.cap.id
  full : ∀ r ∈ vSrcs op w cap.rows, s.me.vFull cap.id r.1 = true
  captured : cap.bad = 0
  whole : s.part = none ∧ cap.done = [] ∧ cap.got = [] ∧ cap.found = false
  sound : s.me.vBad op w cap = []

/-- A word has left its queue, and its results `f` are in flight; the running core changes in nothing else. -/
structure Executed (s t : State) (q : Nat) (cap : VCap) (f : Flight) : Prop where
  only : OnlyCore s.cur s t
  core : t.core s.cur = { s.me with v := (t.core s.cur).v }
  flight : (t.core s.cur).v.fl = s.me.v.fl ++ [f]
  left : ∀ p, (t.core s.cur).v.queue p =
    if p = q then (s.me.v.queue p).filter (fun e => e.cap.id != cap.id) else s.me.v.queue p
  named : f.id = cap.id ∧ f.q = q ∧ f.marks = cap.marks ∧ f.clk = cap.clk

/-- What a word in flight writes when it completes (R139, R141): of the `n` elements of `wd` bytes from register `d` on, the
selected ones take their values and the others stay, and no other vector register changes. -/
def Lands (f : Flight) (d wd n : Nat) (sel : Nat → Prop) (val : Nat → Nat) : Prop :=
  ∀ x : Core,
    (∀ e, e < n → (sel e → elem (x.land f).rdV d wd e = val e % 2 ^ (8 * wd)) ∧
      (¬sel e → elem (x.land f).rdV d wd e = elem x.rdV d wd e)) ∧
    ∀ r, r < d ∨ d + (n * wd + 127) / 128 ≤ r → (x.land f).rdV r = x.rdV r

/-- The elements a word selects (R138, R139): below the guard's count, and by the top of the mask stack. -/
def Sel (s : State) (w : VFields) (cap : VCap) (n wd e : Nat) : Prop :=
  e < (if w.gc = 0 then n else min n (cap.pred.count * 2 ^ cap.pred.width / wd)) ∧ (w.gm = 1 → s.me.mt.getLsbD e = true) ∧
    (w.gm = 2 → s.me.mt.getLsbD e = false)

/-- The V-word `i` at its queue's head executes: `n` elements of `wd` bytes of its destination will land, where `P` describes the
values and the flags. -/
def VDoes (i : Instr) (s : State) (w : VFields) (cap : VCap) (n wd : Nat) (sel : Nat → Prop)
    (P : (Nat → Nat) → BitVec 6 → Prop) : Prop :=
  ∀ op, vParts i = some (op, w) → i.wf = true → AtHead s op w cap →
    ∃ t f val, exec i s = .next t ∧ Executed s t (vQueue op w) cap f ∧ Lands f w.d wd n sel val ∧ P val f.flags

/-- An elementwise word: `P` describes each selected element and its flags; FPSR will take the flags of them all (R24, R28). -/
def VEach (i : Instr) (s : State) (w : VFields) (cap : VCap) (n wd : Nat) (P : Nat → Nat → BitVec 6 → Prop) : Prop :=
  VDoes i s w cap n wd (Sel s w cap n wd) (fun val flags => ∃ fl : Nat → BitVec 6,
    (∀ e, Sel s w cap n wd e → P e (val e) (fl e)) ∧
    ∀ k, flags.getLsbD k = true ↔ ∃ e, Sel s w cap n wd e ∧ (fl e).getLsbD k = true)

/-- An element as its type reads it (R19): types 0 to 3 are signed. -/
def readsAs (t v : Nat) : Int :=
  if t < 4 then (BitVec.ofNat (8 * tyBytes t) v).toInt else ((v % 2 ^ (8 * tyBytes t) : Nat) : Int)

/-- A result narrowed to an integer type (R21): by `wrap`, or by `sat` to the type's range. -/
def Narrowed (t : Nat) (sat : Bool) (r : Int) (v : Nat) : Prop :=
  let n := 8 * tyBytes t
  let lo : Int := if t < 4 then -(2 ^ (n - 1)) else 0
  let hi : Int := if t < 4 then 2 ^ (n - 1) - 1 else 2 ^ n - 1
  v < 2 ^ n ∧ if sat then readsAs t v = max lo (min hi r) else (v : Int) % 2 ^ n = r % 2 ^ n

/-- A V-word of queue `q` of core `c` traps (R103): its trap is on its way to the main context, and it and every later word that has
not executed are gone without effect. -/
def VTraps (s t : State) (c q cause data : Nat) (cap : VCap) : Prop :=
  OnlyCore c s t ∧ (∀ r, (t.core c).rdV r = (s.core c).rdV r) ∧ (t.core c).r.masks = (s.core c).r.masks ∧
    Raises s.now (s.core c) (t.core c) (fun l => l.cause = cause ∧ l.clk = cap.id ∧ l.cont = false ∧
      l.info = infoWord 0 false true q cap.idx data) ∧
    ∀ p, p < 3 → ∀ e ∈ (t.core c).v.queue p, e.cap.id < cap.id

/-- A V-word without a destination executes: it leaves its queue, and `P` describes the mask stack, the words still to skip, the
streams that have ended, and the flags it leaves for FPSR. -/
def VActs (i : Instr) (s : State) (w : VFields) (cap : VCap)
    (P : List (BitVec 768) → Nat → List (Nat × Nat) → BitVec 6 → Prop) : Prop :=
  ∀ op, vParts i = some (op, w) → i.wf = true → AtHead s op w cap →
    ∃ t flags, exec i s = .next t ∧ OnlyCore s.cur s t ∧
      t.core s.cur = { s.me with r := { s.me.r with masks := (t.core s.cur).r.masks }, v := (t.core s.cur).v } ∧
      (∀ p, (t.core s.cur).v.queue p =
        if p = vQueue op w then (s.me.v.queue p).filter (fun e => e.cap.id != cap.id) else s.me.v.queue p) ∧
      (flags = 0#6 → (t.core s.cur).v.fl = s.me.v.fl) ∧
      (flags ≠ 0#6 → ∃ f, (t.core s.cur).v.fl = s.me.v.fl ++ [f] ∧ f.id = cap.id ∧ f.q = vQueue op w ∧ f.marks = [] ∧ f.wr = [] ∧
        f.flags = flags) ∧
      P (t.core s.cur).r.masks (t.core s.cur).v.skip (t.core s.cur).v.ends flags

/-- The V-word at its queue's head traps. -/
def VWordTraps (i : Instr) (s : State) (w : VFields) (cap : VCap) (cause : Nat) : Prop :=
  ∀ op, vParts i = some (op, w) → i.wf = true → AtHead s op w cap →
    ∃ t, exec i s = .next t ∧ VTraps s t s.cur (vQueue op w) cause cap.tag cap

/-- The advance of a core's strides over its active loop levels (R66). -/
def Advance (x : Core) (by' : Nat → Int) : Int :=
  ((List.range 6).map (fun l => if (x.q.loop l).act then by' l * ((x.q.loop l).idx : Int) else 0)).sum

/-- A register field of a V-word, advanced where its SM bit asks for it (R66). -/
def advanced (x : Core) (w : VFields) (b n : Nat) : Int :=
  n + if bit w.sm b then Advance x (fun l => (Sparse.get 0#12 x.c.lsd l).toInt) else 0

/-- A V-word of the range under way may enter its queue (R48, R66, R67, R126): its captured sources are full, its advanced registers
exist, and its queue has room. -/
structure CanEnqueue (s : State) (op : Nat) (w : VFields) : Prop where
  token : op ≤ 5 → s.me.kMarks 0 w.a = []
  scalar : (vScalarB op w = true ∨ (op ≤ 5 ∧ bit w.md 5 = true)) → s.me.sMarks 0 w.b = []
  fields : ∀ p ∈ [(4, w.d), (3, w.a), (2, w.b), (1, w.c)], 0 ≤ advanced s.me w p.1 p.2 ∧ advanced s.me w p.1 p.2 < 2048
  registers : ∀ u : VFields, u = { w with d := u.d, a := u.a, b := u.b, c := u.c } → (u.d : Int) = advanced s.me w 4 w.d →
    (u.a : Int) = advanced s.me w 3 w.a → (u.b : Int) = advanced s.me w 2 w.b → (u.c : Int) = advanced s.me w 1 w.c →
    ∀ r ∈ vDest op u s.me.c.rows ++ (vSrcs op u s.me.c.rows).map Prod.fst, r < 2048
  room : (s.me.v.queue (vQueue op w)).length < (s.kernel s.cur).slip (vQueue op w)

/-- A V-word enters its queue (R66, R68, R141): with its registers advanced, what it captures, and its destinations marked empty. -/
def Enqueues (s t : State) (op : Nat) (w : VFields) : Prop :=
  let x := s.me
  let y := t.core s.cur
  OnlyCore s.cur s t ∧ y.r = { x.r with vm := y.r.vm, bad := y.r.bad } ∧ y.c = x.c ∧ x.q.nid < y.q.nid ∧
    ((∀ k ∈ vScalars op w, ∀ g ∈ k.granule 0, Sparse.get 0 x.r.bad g = 0) → y.r.bad = x.r.bad) ∧
    ∃ e u, vParts e.i = some (op, u) ∧ u = { w with d := u.d, a := u.a, b := u.b, c := u.c } ∧
      (u.d : Int) = advanced x w 4 w.d ∧ (u.a : Int) = advanced x w 3 w.a ∧ (u.b : Int) = advanced x w 2 w.b ∧
      (u.c : Int) = advanced x w 1 w.c ∧
      (∀ p, y.v.queue p = if p = vQueue op w then x.v.queue p ++ [e] else x.v.queue p) ∧
      (∀ r, y.vMarks r = if r ∈ vDest op u x.c.rows then x.vMarks r ++ [x.q.nid] else x.vMarks r) ∧
      e.cap.id = x.q.nid ∧ e.cap.rows = x.c.rows ∧ e.cap.pc = x.place.pc ∧ e.cap.idx = x.place.idx ∧ e.cap.tag = x.place.tag ∧
      (op ≤ 5 → e.cap.tok = x.rdK 0 w.a) ∧ (vScalarB op w = true → e.cap.sb = x.rdS 0 w.b) ∧
      e.cap.off = w.imm.toInt + Advance x (fun l => (Sparse.get 0#32 x.c.lso l).toInt) +
        (if op ≤ 5 ∧ bit w.md 5 = true then (x.rdS 0 w.b).toInt else 0) ∧
      (w.gc ≠ 0 → e.cap.pred = x.rdP w.gc) ∧ e.cap.rm = x.c.fpcr.toNat % 4 ∧ e.cap.fiz = x.c.fpcr.getLsbD 2 ∧
      e.cap.foz = x.c.fpcr.getLsbD 3

/-- The range under way goes on after one of its words, by the phases of R127; a `viss` ends as one C-word and a `swpl` as two. -/
def WentOn (s t : State) : Prop :=
  let k := s.me.q.issue
  let y := t.core s.cur
  let over' (n : Nat) : Prop := y.q.issue = {} ∧ Passes s t n
  (k.cur + 1 < k.fin → y.q.issue = { k with cur := k.cur + 1, mpos := 0 } ∧ y.q.pc = s.me.q.pc ∧ y.q.loops = s.me.q.loops) ∧
  (k.fin ≤ k.cur + 1 →
    (k.swpl = false → over' 1) ∧
    (k.swpl = true → k.ph = 0 →
      y.q.issue = { k with ph := 1, iter := 0, cur := k.ker, fin := k.epi, mpos := 0 } ∧ (y.q.loop 0).idx = 0) ∧
    (k.swpl = true → k.ph = 1 → k.iter + 1 < k.trip →
      y.q.issue = { k with iter := k.iter + 1, cur := k.ker, mpos := 0 } ∧ (y.q.loop 0).idx = k.iter + 1) ∧
    (k.swpl = true → k.ph = 1 → k.trip ≤ k.iter + 1 → k.epi < k.last →
      y.q.issue = { k with ph := 2, iter := k.trip, cur := k.epi, fin := k.last, mpos := 0 } ∧ (y.q.loop 0).idx = k.trip - 1) ∧
    (k.swpl = true → (2 ≤ k.ph ∨ (k.ph = 1 ∧ k.trip ≤ k.iter + 1 ∧ k.last ≤ k.epi)) → over' 2 ∧ (y.q.loop 0).act = false))

/-- Issue stops at a V-word (R67, R141): its trap is armed, and no register and no queue changes. -/
def Arms (s t : State) (q cause data : Nat) : Prop :=
  OnlyCore s.cur s t ∧ (t.core s.cur).r = s.me.r ∧ (t.core s.cur).v = s.me.v ∧
    ∃ l, (t.core s.cur).q.armed = some l ∧ l.cause = cause ∧ l.info = infoWord 0 false true q s.me.place.idx data

/-- The word with capture `cap` leaves queue `q` without effect, and the empty marks it set go with it (R141, R145, R147). -/
def Dropped (s t : State) (q : Nat) (cap : VCap) : Prop :=
  OnlyCore s.cur s t ∧ (∀ r, (t.core s.cur).rdV r = s.me.rdV r) ∧ (t.core s.cur).c = s.me.c ∧
    (∀ p, (t.core s.cur).v.queue p = if p = q then (s.me.v.queue p).filter (fun e => e.cap.id != cap.id) else s.me.v.queue p) ∧
    (∀ r, (t.core s.cur).vMarks r = if r ∈ cap.marks then (s.me.vMarks r).filter (· != cap.id) else s.me.vMarks r) ∧
    (t.core s.cur).v.fl = s.me.v.fl

/-- The element offsets of a vector memory word (R149): dense, by an index run, or rows at a pitch of 64 × C bytes. -/
def elemOff (s : State) (op : Nat) (w : VFields) (cap : VCap) (e : Nat) : Int :=
  let b := tyBytes w.ty
  if op ≤ 1 then cap.off + (e * b : Nat)
  else if op ≤ 3 then cap.off + (elem s.me.rdV w.c 4 e : Nat)
  else cap.off + (e * b / 128 * (64 * w.c) + e % (128 / b) * b : Nat)

/-- The exact value of a finite number (R22). -/
def valOf : FV → Option Rat
  | .fin neg m e => some ((if neg then -1 else 1) * (m : Rat) * (2 : Rat) ^ e)
  | _ => none

/-! ### Tasks -/

/-- Of two candidates the one that has stood longer, ties to the lower number (R273). -/
def Older (a b : Cand) : Prop := a.since < b.since ∨ (a.since = b.since ∧ a.tie ≤ b.tie)

/-- A core whose task has left it (R100): IDLE, no task, no empty register, and its values kept. -/
def LeftIdle (s t : State) (c : Nat) : Prop :=
  (t.core c).q.st = .idle ∧ (t.core c).task = none ∧ (t.core c).q.tact = false ∧ (t.core c).q.stop = false ∧
    (t.core c).r = { (s.core c).r with sm := [], km := [], vm := [] } ∧ (∀ d, d ≠ c → (t.core d).r = (s.core d).r) ∧
    (t.core c).lastAsid = some (s.asidOf c) ∧ (∀ pa, ¬DirtyAt t c pa) ∧ (t.core c).acc = [] ∧ (t.core c).e.copies = [] ∧
    (t.core c).e.mxq = []

/-- A main context of core `c` in ENDING that has drained (R100). -/
structure Drained (s : State) (c : Nat) (k : Task) : Prop where
  task : (s.core c).task = some k
  st : (s.core c).q.st = .ending
  free : ((s.core c).q.holdOf 0).k = .free
  quiet : s.quiet c = true
  deliv : (s.core c).deliv = []
  unjoined : k.joined = false
  performed : s.performed c = true

/-- The main context has taken a trap of its C-word (R103, R104), as in `Trapped`, where finding the trap has looked at memory: the
registers, the bytes of memory and the other control and status registers are as before. -/
def TrapTaken (s t : State) (cause data : Nat) : Prop :=
  RegistersKept s t ∧ (∀ pa, t.byte pa = s.byte pa) ∧
    (t.core s.cur).c = { s.me.c with tcause := BitVec.ofNat 64 cause, tinfo := BitVec.ofNat 64 (3 * 2 ^ 58 + data % 2 ^ 32)
                                     tpc := if s.me.q.tact then s.me.c.tpc else BitVec.ofNat 64 s.me.q.pc } ∧
    (t.core s.cur).q.st = (if s.me.q.tact = true ∨ s.me.c.tvec = 0 then .faulted else .running) ∧
    (t.core s.cur).q.tact = (s.me.q.tact || s.me.c.tvec != 0) ∧
    (t.core s.cur).q.pc = if s.me.q.tact = true ∨ s.me.c.tvec = 0 then s.me.q.pc else s.me.c.tvec % 2 ^ 15

/-- The context of core `c` is the one an image holds (R109 to R111): its scalars, its vector registers, its mode bits and where it
goes on. -/
def HoldsImage (t : State) (c : Nat) (rd : Nat → Byte) : Prop :=
  (t.core c).q.st = .running ∧ (t.core c).q.pc = fld (imgNat rd 0 8) 16 15 ∧ (t.core c).q.tact = bit (imgNat rd 0 8) 9 ∧
    (t.core c).q.priv = bit (imgNat rd 0 8) 8 ∧
    (∀ n, 1 ≤ n → n < 64 → (t.core c).rdS 0 n = BitVec.ofNat 64 (imgNat rd (0x400 + 8 * n) 8)) ∧
    ∀ r, r < 2048 → (t.core c).rdV r = BitVec.ofNat 1024 (imgNat rd (0x4000 + 128 * r) 128)

/-- An image holds the scalars and vector registers of core `c`, and where its context goes on (R109). -/
def ImageOf (s : State) (c pc : Nat) (rd : Nat → Byte) : Prop :=
  fld (imgNat rd 0 8) 16 15 = pc % 2 ^ 15 ∧ (∀ n, n < 64 → imgNat rd (0x400 + 8 * n) 8 = ((s.core c).rdS 0 n).toNat) ∧
    ∀ r, r < 2048 → imgNat rd (0x4000 + 128 * r) 128 = ((s.core c).rdV r).toNat

/-! ### Launches and rings -/

/-- The next entry for the journal (R330), before any other that the same event makes, and whether HEAD of its source's ring follows it
(R321). -/
def JournalsAs (packet : Bool) (s t : State) (source index pstat result linst type detail : Nat) : Prop :=
  ∃ rest, t.io.jpend = s.io.jpend ++
    { gts := s.gts0, seq := 0, index := index, pstat := pstat, result := result, source := source, linst := linst, type := type
      detail := detail, packet := packet } :: rest

/-- The next entry for the journal, of no packet's end. -/
abbrev Journals := JournalsAs false

/-- A packet of ring `r` has ended (R321, R327): its journal entry, and its slot is free. -/
def PacketDone (s t : State) (r pstat result type : Nat) : Prop :=
  JournalsAs true s t r (s.ring r).head pstat result 0 type 0 ∧
    t.ring r = { s.ring r with head := ((s.ring r).head + 1) % 2 ^ 32, cur := none, loading := false, wait := none, met := false, look := true }

/-- What a core's stores still wait for goes over the link that is up (R319): of each only its link may change, and that only from one
that is down to one that is up; nothing else of the core changes. -/
def Reroutes (s t : State) : Prop :=
  let up (l : Nat) : Prop := Sparse.get 0 t.io.link l ≠ 0
  ∀ c, t.core c = { s.core c with unacked := (t.core c).unacked } ∧ (t.core c).unacked.length = (s.core c).unacked.length ∧
    ∀ (i : Nat) p, (s.core c).unacked[i]? = some p → ∃ l, (t.core c).unacked[i]? = some (p.1, p.2.1, l) ∧
      (p.2.2 < 2 → ¬up p.2.2 → up (1 - p.2.2) → l = 1 - p.2.2) ∧ (2 ≤ p.2.2 ∨ up p.2.2 ∨ ¬up (1 - p.2.2) → l = p.2.2)

/-- A launch is answered where it came from (R258, R260, R265, R327): in its slot, its mailbox, its ring or its graph's node. -/
def Answered (s t : State) (l : Launch) (result linst : Nat) : Prop :=
  match l.src with
  | .window slot => Journals s t (0x1000 + slot) slot 0 result linst 0x10 0 ∧ slot ∉ t.io.sealed ∧
      ∀ i, i < 8 → Sparse.get 0#8 t.io.window (128 * slot + 120 + i) = (leBytes 8 (linst + result * 2 ^ 40)).getD i 0#8
  | .mailbox c => Journals s t (0x2000 + c) c 0 result linst 0x11 0 ∧
      t.barNat (mailboxAt c + 16) 8 = ((if result = 0 then 1 else 3) + result * 2 ^ 8 + linst * 2 ^ 32) % 2 ^ 64
  | .ring r _ => JournalsAs true s t r (s.ring r).head 0 result linst 1 0 ∧ (t.ring r).head = ((s.ring r).head + 1) % 2 ^ 32 ∧
      (t.ring r).cur = none ∧ (t.ring r).loading = false ∧
      (t.ring r).opened = if result = 0 then 2 * linst :: (s.ring r).opened else (s.ring r).opened
  | .node gn _ => ∀ g, s.graph gn = some g → Journals s t g.ring g.idx 0 result linst 1 0

/-- A new launch `l` is LOADING (R263). -/
def BeginsLoading (s t : State) (l : Launch) : Prop :=
  t = { s with d := t.d } ∧ (Sparse.get {} t.d.loading s.d.nextLid : Launch) = l ∧ t.d.nextLid = s.d.nextLid + 1

/-- A launch is not rejected at once (R254). -/
def NotRejected (s : State) (l : Launch) : Prop := ∀ u c, s.load l ≠ .reject u c

end Sys2Proof
end

