-- ==== Sys2Proof/Certificates/Slice0/Obligations.lean ====
section
/-! DEFINITION. The statements for the provers. -/

open Sys2Proof
open Sys2Proof.Machine

/-! ### Scalar arithmetic (R114, R115) -/

/-- R115: `add`, `sub`, `mul` and the high products, in both forms, give the exact result of the operands as the operation reads them,
its low or its high 64 bits. Of quotients and remainders a zero divisor gives all ones or a, −2⁶³ by −1 gives −2⁶³ and 0, and every
other signed quotient is rounded toward zero, its remainder with the sign of a. -/
def Obligations.ScalarArithmetic : Prop :=
  BothForms .add .addImmediate (fun a b v => v = Word.wrap (a.toInt + b.toInt)) ∧
  BothForms .sub .subImmediate (fun a b v => v = Word.wrap (a.toInt - b.toInt)) ∧
  BothForms .mul .mulImmediate (fun a b v => v = Word.wrap (a.toInt * b.toInt)) ∧
  BothForms .mulhS .mulhSImmediate (fun a b v => v.toInt = (a.toInt * b.toInt) / 2 ^ 64) ∧
  BothForms .mulhN .mulhNImmediate (fun a b v => v.toNat = a.toNat * b.toNat / 2 ^ 64) ∧
  BothForms .divS .divSImmediate (fun a b v =>
    if b = 0#64 then v = BitVec.allOnes 64
    else if a.toInt = -2 ^ 63 ∧ b.toInt = -1 then v.toInt = -2 ^ 63
    else v.toInt = Int.tdiv a.toInt b.toInt) ∧
  BothForms .remS .remSImmediate (fun a b v =>
    if b = 0#64 then v = a
    else if a.toInt = -2 ^ 63 ∧ b.toInt = -1 then v = 0#64
    else v.toInt = a.toInt - b.toInt * Int.tdiv a.toInt b.toInt) ∧
  BothForms .divN .divNImmediate (fun a b v =>
    if b = 0#64 then v = BitVec.allOnes 64 else v.toNat = a.toNat / b.toNat) ∧
  BothForms .remN .remNImmediate (fun a b v => if b = 0#64 then v = a else v.toNat = a.toNat % b.toNat)

/-- R115: logic and shifts, in both forms, bit by bit: a shift by 64 or more leaves zeros, or copies of bit 63, and a rotation
counts modulo 64. -/
def Obligations.ScalarLogicAndShifts : Prop :=
  BothForms .and .andImmediate (fun a b v => ∀ k, k < 64 → v.getLsbD k = (a.getLsbD k && b.getLsbD k)) ∧
  BothForms .or .orImmediate (fun a b v => ∀ k, k < 64 → v.getLsbD k = (a.getLsbD k || b.getLsbD k)) ∧
  BothForms .xor .xorImmediate (fun a b v => ∀ k, k < 64 → v.getLsbD k = (a.getLsbD k != b.getLsbD k)) ∧
  BothForms .andn .andnImmediate (fun a b v => ∀ k, k < 64 → v.getLsbD k = (a.getLsbD k && !b.getLsbD k)) ∧
  BothForms .shl .shlImmediate (fun a b v => ∀ k, k < 64 →
    v.getLsbD k = (decide (b.toNat ≤ k) && a.getLsbD (k - b.toNat))) ∧
  BothForms .shrS .shrSImmediate (fun a b v => ∀ k, k < 64 → v.getLsbD k = a.getLsbD (min (k + b.toNat) 63)) ∧
  BothForms .shrN .shrNImmediate (fun a b v => ∀ k, k < 64 →
    v.getLsbD k = (decide (k + b.toNat < 64) && a.getLsbD (k + b.toNat))) ∧
  BothForms .rot .rotImmediate (fun a b v => ∀ k, k < 64 → v.getLsbD ((k + b.toNat) % 64) = a.getLsbD k)

/-- R115: the smaller and the larger of two operands, in both forms, signed and unsigned; `mov`, `sel`, the leading zero bits and
the one bits of a; extension from the low b bits, and bit fields, in both forms. In the immediate form of `bfx` and `bfi` position
and width are bits 5:0 and 12:6 of IMM37; in the register form a position of 64 or more, or a width of 0, gives 0 or leaves sD, and
`bfi` reads sD with FE 0. -/
def Obligations.ScalarSelectionCountsAndFields : Prop :=
  (BothForms .minS .minSImmediate (fun a b v => (v = a ∨ v = b) ∧ v.toInt ≤ a.toInt ∧ v.toInt ≤ b.toInt) ∧
  BothForms .minN .minNImmediate (fun a b v => (v = a ∨ v = b) ∧ v.toNat ≤ a.toNat ∧ v.toNat ≤ b.toNat) ∧
  BothForms .maxS .maxSImmediate (fun a b v => (v = a ∨ v = b) ∧ a.toInt ≤ v.toInt ∧ b.toInt ≤ v.toInt) ∧
  BothForms .maxN .maxNImmediate (fun a b v => (v = a ∨ v = b) ∧ a.toNat ≤ v.toNat ∧ b.toNat ≤ v.toNat) ∧
  OneForm .mov (fun a v => v = a) ∧
  OneForm .clz (fun a v => v.toNat ≤ 64 ∧ a.toNat < 2 ^ (64 - v.toNat) ∧ (v.toNat < 64 → 2 ^ (63 - v.toNat) ≤ a.toNat)) ∧
  OneForm .popc (fun a v => v.toNat = (List.range 64).countP (fun k => a.getLsbD k)) ∧
  ∀ (s : State) o, ScalarResult (.sel o) (aluSrcs o true true) o.d 1 s (fun v => v = if s.sc o.c = 0#64 then s.sc o.b else s.sc o.a)) ∧
  (BothForms .sext .sextImmediate (fun a b v => ∀ k, k < 64 →
    v.getLsbD k = (b != 0#64 && a.getLsbD (min k (min b.toNat 64 - 1)))) ∧
  BothForms .zext .zextImmediate (fun a b v => ∀ k, k < 64 → v.getLsbD k = (decide (k < b.toNat) && a.getLsbD k)) ∧
  (∀ (s : State) o, ScalarResult (.bfx o) (aluSrcs o true true) o.d 1 s (fun v => ∀ k, k < 64 →
    v.getLsbD k = bfxBit (s.sc o.a) (s.sc o.b).toNat (s.sc o.c).toNat k)) ∧
  (∀ (s : State) o, ScalarResult (.bfi o) (.s o.d false :: aluSrcs o true true) o.d 1 s (fun v => ∀ k, k < 64 →
    v.getLsbD k = bfiBit (s.sc o.d) (s.sc o.a) (s.sc o.b).toNat (s.sc o.c).toNat k)) ∧
  (∀ (s : State) o, ScalarResult (.bfxImmediate o) [.s o.a o.fea] o.d 1 s (fun v => ∀ k, k < 64 →
    v.getLsbD k = bfxBit (s.sc o.a) (o.imm.toNat % 64) (o.imm.toNat / 64 % 128) k)) ∧
  (∀ (s : State) o, ScalarResult (.bfiImmediate o) [.s o.d false, .s o.a o.fea] o.d 1 s (fun v => ∀ k, k < 64 →
    v.getLsbD k = bfiBit (s.sc o.d) (s.sc o.a) (o.imm.toNat % 64) (o.imm.toNat / 64 % 128) k)))

/-! ### Control -/

/-- R117, R134, R135: `lim` writes P64; `pset` writes min(sA + addend, 768) and the width code, and does nothing to p0; `shape`
writes VSHAPE.ROWS; nothing else changes but a mark the written predicate carried. The words are the spec's examples. That `pset` and
`shape` of a handler context act on the main context's predicates and VSHAPE is the model's choice (notes/assumptions/65.md). -/
def Obligations.ConstantsCountsAndShape : Prop :=
  (∀ (s : State) d v, ScalarResult (.lim d v) [] d 2 s (fun w => w = v)) ∧
  decodeC 0x0C00700000000000#64 0x40#64 = .ok (.lim 7 0x40#64, 2) ∧
  (∀ (s : State) d a fea wc add, WordResult (.pset d a fea wc add) [.s a fea] s (fun t =>
    OnlyCore s.cur s t ∧ Passes s t 1 ∧ CoreKept s.me (t.core s.cur) ∧
    (t.core s.cur).r = { s.me.r with p := (t.core s.cur).r.p, bad := (t.core s.cur).r.bad } ∧
    (∀ g, g ≠ pGran d → Sparse.get 0 (t.core s.cur).r.bad g = Sparse.get 0 s.me.r.bad g) ∧
    (d ≠ 0 → Sparse.get 0 (t.core s.cur).r.bad (pGran d) = 0) ∧
    (∀ p, (t.core s.cur).rdP p = if p = d ∧ d ≠ 0 then { count := min ((s.sc a).toNat + add) 768, width := wc }
      else s.me.rdP p))) ∧
  decodeC 0x0880100000000808#64 0#64 = .ok (.pset 1 0 false 2 8, 1) ∧
  (∀ (s : State) rows, WordResult (.shape rows) [] s (fun t =>
    OnlyCore s.cur s t ∧ Passes s t 1 ∧ (t.core s.cur).r = s.me.r ∧
    t.core s.cur = { s.me with c := { s.me.c with rows := rows }, q := (t.core s.cur).q } ∧
    t.csrRead 0x020 = BitVec.ofNat 64 rows)) ∧
  decodeC 0x0884000000000003#64 0#64 = .ok (.shape 3, 1)

/-- R118: `cset` writes 1 or 0; `br` goes to P + DISP39 if the condition holds and to P + 1 otherwise. A form that gives
registers to a condition that compares none is no instruction. Beside these effects a `cpydone`, `mxdone` or `umdone` that is found
true leaves its context following what the engine wrote (R119). -/
def Obligations.ConditionsAndBranches : Prop :=
  (∀ (s : State) d f, SeeingResult (.cset d f) (CmpSrcs f) s (fun t => ∃ v, WritesScalar s t d v ∧ Passes s t 1 ∧
    ((CondTrue s f.cond (s.sc f.a) (s.sc f.b) ∧ v = 1#64) ∨ (¬CondTrue s f.cond (s.sc f.a) (s.sc f.b) ∧ v = 0#64)))) ∧
  (∀ (s : State) f disp, CondTrue s f.cond (s.sc f.a) (s.sc f.b) →
    let target : Int := s.me.q.pcOf s.ctx + disp.toInt
    (0 ≤ target ∧ target < (s.me.code.ctlLen : Int) →
      SeeingResult (.br f disp) (CmpSrcs f) s (fun t => Quiet s t ∧ Goes s t target.toNat)) ∧
    (¬(0 ≤ target ∧ target < (s.me.code.ctlLen : Int)) → s.ctx = 0 →
      SeeingResult (.br f disp) (CmpSrcs f) s (fun t => Trapped s t 7 (target % 2 ^ 32).toNat s.me.q.pc))) ∧
  (∀ (s : State) f disp, ¬CondTrue s f.cond (s.sc f.a) (s.sc f.b) →
    WordResult (.br f disp) (CmpSrcs f) s (fun t => Quiet s t ∧ Passes s t 1)) ∧
  (∀ d f disp, f.cond.compares = false → (f.a ≠ 0 ∨ f.b ≠ 0 ∨ f.fea = true ∨ f.feb = true) →
    (Instr.cset d f).wf = false ∧ (Instr.br f disp).wf = false) ∧
  decodeC 0x1461887FFFFFFFFB#64 0#64 = .ok (.br { cond := .ltS, a := 3, fea := false, b := 4, feb := false } (BitVec.ofInt 39 (-5)), 1)

/-- R120, R121: `jmp`, `brx`, `call` and `ret` go to their target or trap CODEFETCH. `call` writes P + 1 to s62 in the main
context, and is illegal with TACT = 1 and in a handler context. `ret` with TACT = 1 is the trap return. -/
def Obligations.TransfersOfControl : Prop :=
  (∀ (s : State) disp, TransfersTo (.jmp disp) [] s (s.me.q.pcOf s.ctx + disp.toInt)) ∧
  (∀ (s : State) a fea imm, TransfersTo (.brx a fea imm) [.s a fea] s ((s.sc a).toInt + imm.toInt)) ∧
  (∀ (s : State) a fea, s.ctx = 0 → s.me.q.tact = true → (s.sc a).toNat % 2 ^ 15 < s.me.code.ctlLen →
    WordResult (.ret a fea) [.s a fea] s (fun t => (t.core s.cur).q.tact = false ∧ (t.core s.cur).q.pc = (s.sc a).toNat % 2 ^ 15)) ∧
  (∀ (s : State) a fea, (s.ctx ≠ 0 ∨ s.me.q.tact = false) → TransfersTo (.ret a fea) [.s a fea] s ((s.sc a).toNat % 2 ^ 15 : Nat)) ∧
  (∀ (s : State) disp, s.me.q.tact = false →
    let target : Int := s.me.q.pcOf s.ctx + disp.toInt
    (0 ≤ target ∧ target < (s.me.code.ctlLen : Int) → WordResult (.call disp) [] s (fun t =>
      WritesScalar s t 62 (BitVec.ofNat 64 (s.me.q.pcOf s.ctx + 1)) ∧ Goes s t target.toNat)) ∧
    (¬(0 ≤ target ∧ target < (s.me.code.ctlLen : Int)) → TrapsBy (.call disp) [] s 7 (target % 2 ^ 32).toNat s.me.q.pc)) ∧
  (∀ (s : State) disp, s.me.q.tact = true → TrapsBy (.call disp) [] s 1 1 s.me.q.pc) ∧
  (∀ disp, handlerOk (.call disp) = false) ∧ (∀ fea, handlerOk (.ret 62 fea) = false) ∧
  decodeC 0x1804000000000003#64 0#64 = .ok (.call 3#37, 1)

/-- R103, R104, R112: `trap` raises TRAP with its code and the C-word after it; in a trap handler it faults the context. `ret`
with TACT = 1 returns: TACT := 0 and PC := sA[14:0], and no register changes. -/
def Obligations.TrapsAndReturns : Prop :=
  (∀ (s : State) code, TrapsBy (.trap code) [] s 14 code.toNat (s.me.q.pc + 1)) ∧
  (∀ (s : State) a fea, s.ctx = 0 → s.me.q.tact = true → (s.sc a).toNat % 2 ^ 15 < s.me.code.ctlLen →
    WordResult (.ret a fea) [.s a fea] s (fun t =>
      OnlyCore s.cur s t ∧ (t.core s.cur).r = s.me.r ∧ (t.core s.cur).c = s.me.c ∧
      (t.core s.cur).q.tact = false ∧ (t.core s.cur).q.pc = (s.sc a).toNat % 2 ^ 15 ∧
      (t.core s.cur).q.st = .running ∧ (t.core s.cur).q.loops = s.me.q.loops)) ∧
  decodeC 0x000C00000000002A#64 0#64 = .ok (.trap 0x2A#16, 1)

/-- R122, R124: `loop` opens its level, or skips its body when the trip count is 0 and no other level ends with that body; a trip
count with any of bits 63:32 set, and a level that may not open, trap. `lbrk` closes its level and those below it, or
traps; that it does so with TACT = 1 too is the model's choice (notes/assumptions/35.md). -/
def Obligations.LoopsOpenAndClose : Prop :=
  ∀ (s : State), s.ctx = 0 → ∀ f : LoopF,
    let srcs : List Src := if f.ti then [] else [.s f.t false]
    let trip := if f.ti then f.trip else (s.sc f.t).toNat
    let last := s.me.q.pc + f.body
    let opens := s.me.q.tact = false ∧ (∀ l, l ≤ f.lvl → (s.me.q.loop l).act = false) ∧
      ∀ l, f.lvl < l → l < 6 → (s.me.q.loop l).act = true → last ≤ (s.me.q.loop l).last
    (opens → 0 < trip → trip < 2 ^ 32 → WordResult (.loop f) srcs s (fun t => Quiet s t ∧ (t.core s.cur).q.pc = s.me.q.pc + 1 ∧
      (t.core s.cur).q.loop f.lvl = { act := true, idx := 0, trip := trip, first := s.me.q.pc + 1, last := last } ∧
      ∀ l, l ≠ f.lvl → (t.core s.cur).q.loop l = s.me.q.loop l)) ∧
    (opens → trip = 0 → (∀ l, l < 6 → (s.me.q.loop l).act = true → (s.me.q.loop l).last ≠ last) →
      WordResult (.loop f) srcs s (fun t => Quiet s t ∧ (t.core s.cur).q.pc = last + 1 ∧
        ∀ l, (t.core s.cur).q.loop l = s.me.q.loop l)) ∧
    (opens → 2 ^ 32 ≤ trip → TrapsBy (.loop f) srcs s 4 (trip / 2 ^ 32) s.me.q.pc) ∧
    (¬opens → TrapsBy (.loop f) srcs s 1 0 s.me.q.pc) ∧
    (∀ n, (s.me.q.loop n).act = true → WordResult (.lbrk n) [] s (fun t => Quiet s t ∧
      (t.core s.cur).q.pc = (s.me.q.loop n).last + 1 ∧
      (∀ l, l ≤ n → ((t.core s.cur).q.loop l).act = false) ∧ ∀ l, n < l → (t.core s.cur).q.loop l = s.me.q.loop l)) ∧
    (∀ n, (s.me.q.loop n).act = false → TrapsBy (.lbrk n) [] s 1 1 s.me.q.pc)

/-- R123: control falls through from the last word of the bodies that end there, here a `nop`: the innermost level that still has
iterations takes control back at its first word, the levels that ended inside it and everything below them close, and control
goes on past the word when none is left. With TACT = 1 nothing ends (R104). -/
def Obligations.LoopBodiesEnd : Prop :=
  ∀ (s : State), s.ctx = 0 →
    let here := fun l => l < 6 ∧ (s.me.q.loop l).act = true ∧ (s.me.q.loop l).last = s.me.q.pc
    let more := fun l => (s.me.q.loop l).idx + 1 < (s.me.q.loop l).trip
    (s.me.q.tact = true → WordResult .nop [] s (fun t => Quiet s t ∧ (t.core s.cur).q.pc = s.me.q.pc + 1 ∧
      ∀ l, (t.core s.cur).q.loop l = s.me.q.loop l)) ∧
    (s.me.q.tact = false → ∀ n, here n → more n → (∀ l, l < n → here l → ¬more l) →
      WordResult .nop [] s (fun t => Quiet s t ∧ (t.core s.cur).q.pc = (s.me.q.loop n).first ∧
        (t.core s.cur).q.loop n = { s.me.q.loop n with idx := (s.me.q.loop n).idx + 1 } ∧
        ∀ l, l ≠ n → ((∃ k, here k ∧ l ≤ k ∧ k < n) → ((t.core s.cur).q.loop l).act = false) ∧
          ((∀ k, here k → l ≤ k → n ≤ k) → (t.core s.cur).q.loop l = s.me.q.loop l))) ∧
    (s.me.q.tact = false → (∀ l, here l → ¬more l) →
      WordResult .nop [] s (fun t => Quiet s t ∧ (t.core s.cur).q.pc = s.me.q.pc + 1 ∧
        ∀ l, ((∃ k, here k ∧ l ≤ k) → ((t.core s.cur).q.loop l).act = false) ∧
          ((∀ k, here k → ¬l ≤ k) → (t.core s.cur).q.loop l = s.me.q.loop l)))

/-- R17, R18, R98, R125, R131, R132, R211, R266, R274, R341: `csrr` reads the register its number names, with zeros above its
fields; `rdts` reads the global time stamp, within 2 of every other core's reading of that moment, and never less later. That a handler
context reads the main context's LSD, LSO, VSHAPE and loop depth is the model's choice (notes/assumptions/65.md), and so is each core's
fixed distance from the time stamp (notes/assumptions/3.md). -/
def Obligations.ControlRegistersRead : Prop :=
  (∀ (s : State) d n, ScalarResult (.csrr d n) [] d 1 s (fun v =>
    (n = 0x000 → v = s.cfg.idWord s.cur) ∧ (n = 0x001 → v = s.cfg.cfgWord s.cur) ∧
    (n = 0x002 → v.toNat = s.me.c.fpcr.toNat) ∧ (n = 0x003 → v.toNat = s.me.c.fpsr.toNat) ∧
    (n = 0x004 → v = s.me.c.kstat) ∧ (n = 0x005 → v = s.me.c.tcause) ∧ (n = 0x006 → v = s.me.c.tpc) ∧
    (n = 0x007 → v = s.me.c.tinfo) ∧ (n = 0x008 → v = BitVec.ofNat 64 s.me.c.tvec) ∧
    (0x010 ≤ n → n ≤ 0x015 → v.toNat = (Sparse.get 0#12 s.me.c.lsd (n - 0x010)).toNat) ∧
    (0x018 ≤ n → n ≤ 0x01D → v.toNat = (Sparse.get 0#32 s.me.c.lso (n - 0x018)).toNat) ∧
    (n = 0x020 → v = BitVec.ofNat 64 s.me.c.rows) ∧ (n = 0x021 → v = s.me.c.stage) ∧
    (n = 0x022 → v = BitVec.ofNat 64 s.me.c.prio) ∧
    (n = 0x023 → s.ctx < 4 → v.getLsbD 34 = s.me.q.tact ∧ v.getLsbD 33 = s.me.q.priv ∧
      (v >>> 35).toNat = ((List.range 6).filter (fun l => (s.me.q.loop l).act)).length ∧
      (v >>> 30 &&& 7#64).toNat = s.ctx ∧ v &&& 0x3FFFFFFF#64 = 0#64) ∧
    (n = 0x024 → v = BitVec.ofNat 64 s.me.q.regions.length) ∧
    (0x038 ≤ n → n ≤ 0x03D → v = if (s.me.q.loop (n - 0x038)).act then BitVec.ofNat 64 (s.me.q.loop (n - 0x038)).idx else 0#64))) ∧
  (∀ (s : State) d, ScalarResult (.rdts d) [] d 1 s (fun v => v = BitVec.ofNat 64 (s.gts s.cur))) ∧
  (∀ (s : State) c d, s.gts c ≤ s.gts d + 2) ∧
  (∀ (s t : State) c, s.now ≤ t.now → s.gts c ≤ t.gts c) ∧
  decodeC 0x0018500000000000#64 0#64 = .ok (.rdts 5, 1)

/-- R99, R131, R135, R177, R267, R274: `csrw` of a register writes the bits its fields hold and leaves every other register and
all of memory alone; it is privileged for TVEC, GINT, GTHR, AGE and LEASELEN, and traps ILLEGAL with the CSR number on a value
outside a register's range. That a handler context's write of LSD, LSO or VSHAPE reaches the main context's registers is the model's
choice (notes/assumptions/65.md). -/
def Obligations.ControlRegistersWritten : Prop :=
  ∀ (s : State) a fea n,
    ((csrPriv n = true → s.me.q.priv = true) → csrBad n (s.sc a).toNat = false →
      WordResult (.csrw a fea n) [.s a fea] s (fun t =>
        t = { s with cores := t.cores, d := t.d, mx := t.mx } ∧ Passes s t 1 ∧
        t.csrRead n = s.sc a &&& csrFields n ∧
        (∀ m, m ≠ n → m < 0x034 → m ≠ 0x023 → t.csrRead m = s.csrRead m) ∧
        (t.core s.cur).r = s.me.r ∧ (t.core s.cur).v = s.me.v ∧ (t.core s.cur).acc = s.me.acc ∧
        (∀ c, c ≠ s.cur → t.core c = s.core c) ∧ (∀ pa, t.byte pa = s.byte pa) ∧
        t.d = { s.d with gint := t.d.gint, gthr := t.d.gthr, age := t.d.age })) ∧
    (csrPriv n = true → s.me.q.priv = false → TrapsBy (.csrw a fea n) [.s a fea] s 10 n s.me.q.pc) ∧
    ((csrPriv n = true → s.me.q.priv = true) → csrBad n (s.sc a).toNat = true →
      TrapsBy (.csrw a fea n) [.s a fea] s 1 n s.me.q.pc) ∧
    (n = 0x020 → (csrBad n (s.sc a).toNat = true ↔ (s.sc a).toNat % 8 = 0 ∨ (s.sc a).toNat % 8 = 7)) ∧
    (n = 0x030 → (csrBad n (s.sc a).toNat = true ↔ (s.sc a).toNat % 2 ^ 20 < 64)) ∧
    (n = 0x031 → (csrBad n (s.sc a).toNat = true ↔ (s.sc a).toNat % 2 ^ 7 = 0 ∨ 64 < (s.sc a).toNat % 2 ^ 7)) ∧
    (n = 0x032 → (csrBad n (s.sc a).toNat = true ↔ (s.sc a).toNat % 2 ^ 8 = 0)) ∧
    (n = 0x033 → (csrBad n (s.sc a).toNat = true ↔ (s.sc a).toNat % 2 ^ 9 = 0 ∨ 256 < (s.sc a).toNat % 2 ^ 9)) ∧
    (csrBad n (s.sc a).toNat = true → n = 0x020 ∨ (0x030 ≤ n ∧ n ≤ 0x033)) ∧
    (csrPriv n = true → n = 0x008 ∨ (0x030 ≤ n ∧ n ≤ 0x033))

/-- R133: `chk` completes once every earlier access of the core has passed its token check and no sticky KSTAT bit is set; with
one set it traps TOKEN with KSTAT.ENTRY, and clears nothing. While a check is outstanding it holds its context. -/
def Obligations.TokenCheckPoint : Prop :=
  ∀ (s : State),
    let checked := (∀ a ∈ s.me.acc, a.chk ≠ 0 ∨ s.me.q.nid ≤ a.id) ∧ (∀ e ∈ s.me.v.ql, s.me.q.nid ≤ e.cap.id) ∧
      ∀ e ∈ s.me.v.qs, s.me.q.nid ≤ e.cap.id
    (checked → s.me.c.kstat &&& 7#64 = 0#64 → WordResult .chk [] s (fun t => Quiet s t ∧ Passes s t 1)) ∧
    (checked → s.me.c.kstat &&& 7#64 ≠ 0#64 → TrapsBy .chk [] s 9 (s.me.c.kstat.toNat / 2 ^ 12 % 2 ^ 20) s.me.q.pc) ∧
    (¬checked → WordResult .chk [] s (fun t => Quiet s t ∧ Goes s t (s.me.q.pcOf s.ctx) ∧
      (t.core s.cur).q.holdOf s.ctx = { k := .drain, since := s.me.q.nid })) ∧
    decodeC 0x001C000000000000#64 0#64 = .ok (.chk, 1)

/-- R341, R342: `cro` opens a containment region over its handler, at most four deep and never with TACT = 1; `crc` closes the
innermost region at its loop depth once every item issued since its `cro` is done, the pops and the held writes of a redundant pair
among them. Otherwise both trap ILLEGAL. -/
def Obligations.ContainmentRegions : Prop :=
  (∀ (s : State) disp, s.ctx = 0 →
    let target : Int := s.me.q.pc + disp.toInt
    let opens := s.me.q.tact = false ∧ s.me.q.regions.length < 4 ∧ 0 ≤ target ∧ target < (s.me.code.ctlLen : Int)
    (opens → WordResult (.cro disp) [] s (fun t => OnlyCore s.cur s t ∧ Passes s t 1 ∧ (t.core s.cur).r = s.me.r ∧
      (t.core s.cur).c = s.me.c ∧ (t.core s.cur).q.regions.tail = s.me.q.regions ∧
      ∃ r : Region, (t.core s.cur).q.regions.head? = some r ∧ r.hpc = target.toNat ∧ r.opc = s.me.q.pc ∧
        r.ldepth = s.me.q.ldepth ∧ r.mdepth = s.me.r.masks.length)) ∧
    (¬opens → TrapsBy (.cro disp) [] s 1 8 s.me.q.pc)) ∧
  (∀ (s : State) r rest, s.ctx = 0 → s.me.q.regions = r :: rest →
    let out := fun id => r.since ≤ id ∧ id < s.me.q.nid
    (s.me.q.tact = false → r.ldepth = s.me.q.ldepth → (∀ a ∈ s.me.acc, ¬out a.id) →
      (∀ e ∈ s.me.v.ql ++ s.me.v.qa ++ s.me.v.qs, ¬out e.cap.id) → (∀ f ∈ s.me.v.fl, ¬out f.id) →
      s.engDone s.cur r.since s.me.q.nid = true → s.popsOut s.cur r.since s.me.q.nid = false →
      (∀ h ∈ s.w.held, h.core ≠ s.cur) →
      WordResult .crc [] s (fun t => OnlyCore s.cur s t ∧ Passes s t 1 ∧ (t.core s.cur).r = s.me.r ∧
        (t.core s.cur).c = s.me.c ∧ (t.core s.cur).q.regions = rest)) ∧
    ((s.me.q.tact = true ∨ r.ldepth ≠ s.me.q.ldepth) → TrapsBy .crc [] s 1 9 s.me.q.pc)) ∧
  (∀ (s : State), s.me.q.regions = [] → TrapsBy .crc [] s 1 9 s.me.q.pc)

/-- R99, R100, R101, R105, R106: `end` puts the main context into ENDING and closes its regions, and makes a handler context with
no notification waiting DORMANT; `yield` stands at a point of R97; `stop` asks a core's main context to stop, unless it is IDLE or
FAULTED, and traps PRIV in a context that is not privileged and ILLEGAL for a core the module does not have. -/
def Obligations.EndYieldAndStop : Prop :=
  (∀ (s : State), s.ctx = 0 → WordResult .endTask [] s (fun t => OnlyCore s.cur s t ∧ (t.core s.cur).r = s.me.r ∧
    (t.core s.cur).c = s.me.c ∧ (t.core s.cur).q.st = .ending ∧ (t.core s.cur).q.regions = [] ∧
    (t.core s.cur).q.pc = s.me.q.pc)) ∧
  (∀ (s : State), s.ctx ≠ 0 → s.me.q.notes = [] → WordResult .endTask [] s (fun t => OnlyCore s.cur s t ∧ (t.core s.cur).r = s.me.r ∧
    ((t.core s.cur).q.hctx s.ctx).st = .dormant ∧ (t.core s.cur).q.st = s.me.q.st ∧
    ∀ h, h ≠ s.ctx → (t.core s.cur).q.hctx h = s.me.q.hctx h)) ∧
  (∀ (s : State), WordResult .yield [] s (fun t => Quiet s t ∧ Passes s t 1 ∧ (s.ctx = 0 → (t.core s.cur).q.point = 2))) ∧
  (∀ (s : State) a fea, s.me.q.priv = true → (s.sc a).toNat < s.cfg.total → WordResult (.stop a fea) [.s a fea] s (fun t =>
    t = { s with cores := t.cores } ∧ Passes s t 1 ∧ (∀ c, (t.core c).r = (s.core c).r) ∧
    (∀ c, (t.core c).q.stop = ((s.core c).q.stop ||
      (c == (s.sc a).toNat && (s.core c).q.st != .idle && (s.core c).q.st != .faulted))) ∧
    ∀ c, c ≠ s.cur → c ≠ (s.sc a).toNat → t.core c = s.core c)) ∧
  (∀ (s : State) a fea, s.me.q.priv = false → TrapsBy (.stop a fea) [.s a fea] s 10 0x0C s.me.q.pc) ∧
  (∀ (s : State) a fea, s.me.q.priv = true → s.cfg.total ≤ (s.sc a).toNat →
    TrapsBy (.stop a fea) [.s a fea] s 1 ((s.sc a).toNat % 2 ^ 32) s.me.q.pc) ∧
  decodeC 0x0030024000000000#64 0#64 = .ok (.stop 9 false, 1)

/-! ### The step -/

/-- R46, R51, R102, R126, R141: a turn of a core in which one context alone may issue runs the instruction its next C-words decode to;
what the turn adds is the record of who issued and of the point of R97 at which the context stands, and the end of the core's part of
the clock where the word takes a clock: a word that had issued before and ends its wait takes its place among what the core's words do,
and one that comes to wait on a handle or for the lease has not issued. A turn of a pipe runs the V-word at the head of its queue as captured; a turn of an event runs
the event. The bytes of the pontil table follow what the turn has done to its entries (R205). Which turn comes next, and the place of
each in its clock, are the model's choice (notes/assumptions/1.md). -/
def Obligations.StepRunsTheDecodedWord : Prop :=
  (∀ (s : State) c ctx rest i n, s.agenda = ⟨0, .core c⟩ :: rest → AloneMayIssue s c ctx →
    (s.core c).q.pcOf ctx < (s.core c).code.ctlLen → (s.core c).q.pcOf ctx + n ≤ (s.core c).code.ctlLen →
    decodeC ((s.core c).cword ((s.core c).q.pcOf ctx)) ((s.core c).cword ((s.core c).q.pcOf ctx + 1)) = .ok (i, n) →
    let b : State := { Begins s (.core c) rest with cur := c, ctx := ctx }
    let main (t : State) : State := if ctx = 0 then t.mod c (fun x => x.passed s.now) else t
    let was := ((s.core c).q.holdOf ctx).k
    let issues (t : State) : Prop := was ≠ .free ∨ ((t.core c).q.holdOf ctx).k.unready = false
    (∀ t, exec i b = .next t → t.waited = false → t.noClock = false → issues t → (was = .free ∨ was.unready = true) →
      Machine.step s = .next (((main t).issuedBy c ctx ((s.core c).q.handlerRun s.now)).tableWritten (Begins s (.core c) rest))) ∧
    (∀ t, exec i b = .next t → t.waited = false → t.noClock = true → issues t →
      Machine.step s = .next ((main t).tableWritten (Begins s (.core c) rest))) ∧
    (∀ t, exec i b = .next t → t.waited = false → t.noClock = false → was ≠ .free → was.unready = false →
      Machine.step s = .next (({ main t with rank := (2 * c + 1, (s.core c).q.nid + 1) } : State).tableWritten
        (Begins s (.core c) rest))) ∧
    (∀ t, exec i b = .next t → t.waited = false → was = .free → ((t.core c).q.holdOf ctx).k.unready = true →
      (∀ h, h ≠ ctx → (t.core c).contextRuns h = false) →
      Machine.step s = .next (({ t with rank := (2 * c + 2, 0) } : State).tableWritten (Begins s (.core c) rest))) ∧
    (∀ t, exec i b = .next t → t.waited = true → Machine.step s = .next { Begins s (.core c) rest with rank := (2 * c + 2, 0) }) ∧
    (∀ f, exec i b = .fault f → Machine.step s = .fault f) ∧
    ∀ r, exec i b = .refused r → Machine.step s = .refused r) ∧
  ((∀ (s : State) c q rest e l, c < 1024 → s.agenda = ⟨0, .pipe c q⟩ :: rest → s.tooLate (.pipe c q) = false → s.halted = false →
    (s.core c).v.queue q = e :: l → ∀ t,
    exec e.i { Begins s (.pipe c q) rest with cur := c, pipe := some e.cap } = .next t →
    Machine.step s = .next (t.tableWritten (Begins s (.pipe c q) rest))) ∧
  (∀ (s : State) i rest, s.agenda = ⟨0, .event i⟩ :: rest → s.tooLate (.event i) = false → (Begins s (.event i) rest).halted = false →
    vParts i = none → encodeC i = [] →
    (∀ t, exec i (Begins s (.event i) rest) = .next t → Machine.step s = .next (t.tableWritten (Begins s (.event i) rest))) ∧
    (∀ f, exec i (Begins s (.event i) rest) = .fault f → Machine.step s = .fault f)))

/-- R46, R51: a turn in which the main context alone may issue traps ILLEGAL with MIN or COND where its C-word is no
instruction, and CODEFETCH with the C-word index where it lies outside the loaded control section. -/
def Obligations.FetchTraps : Prop :=
  ∀ (s : State) c rest, s.agenda = ⟨0, .core c⟩ :: rest → AloneMayIssue s c 0 →
    let b : State := { Begins s (.core c) rest with cur := c }
    let pc := (s.core c).q.pc
    let issued (t : State) : State :=
      ((t.mod c (fun x => x.passed s.now)).issuedBy c 0 ((s.core c).q.handlerRun s.now)).tableWritten (Begins s (.core c) rest)
    ((s.core c).q.holdOf 0).k = .free →
    (∀ r, pc < (s.core c).code.ctlLen → (twoWords ((s.core c).cword pc) = true → pc + 1 < (s.core c).code.ctlLen) →
      decodeC ((s.core c).cword pc) ((s.core c).cword (pc + 1)) = .error r →
      ∃ t, Machine.step s = .next (issued t) ∧ Trapped b t 1 (illegalData ((s.core c).cword pc)) pc) ∧
    ((s.core c).code.ctlLen ≤ pc → ∃ t, Machine.step s = .next (issued t) ∧ Trapped b t 7 pc pc) ∧
    (pc < (s.core c).code.ctlLen → (s.core c).code.ctlLen ≤ pc + 1 → twoWords ((s.core c).cword pc) = true →
      ∃ t, Machine.step s = .next t ∧ (t.core c).c.tcause = 7#64 ∧
        (t.core c).c.tinfo = BitVec.ofNat 64 (2 ^ 61 + 3 * 2 ^ 58 + (pc + 1) % 2 ^ 32) ∧
        ((s.core c).q.tact = false → (t.core c).c.tpc = BitVec.ofNat 64 pc))

/-- R48, R101, R102, R103: a word that a context may run waits while a source with FE 0 is empty; then the first source found empty
with FE 1 traps FE_EMPTY with the register number; a word a handler context may not run traps ILLEGAL there, and passes to the
main context. -/
def Obligations.SourcesWaitOrTrap : Prop :=
  ∀ i l s (body : State → Host.Outcome State Fault Refusal), s.runs = true →
    ((s.ctx = 0 ∨ handlerOk i = true) → (∃ r ∈ l, r.fe = false ∧ s.me.full s.ctx r = false) →
      issue i s l body = .next { s with waited := true }) ∧
    (s.ctx = 0 → (∀ r ∈ l, r.fe = false → s.me.full s.ctx r = true) → ∀ a r b, l = a ++ r :: b →
      (∀ k ∈ a, s.me.full s.ctx k = true) → s.me.full s.ctx r = false →
      ∃ t, issue i s l body = .next t ∧ Trapped s t 2 r.reg s.me.q.pc) ∧
    (s.ctx ≠ 0 → handlerOk i = false → ∃ t, issue i s l body = .next t ∧ HandlerTrapped s t 1 (minOf i)) ∧
    (s.ctx ≠ 0 → handlerOk i = true → (∀ r ∈ l, r.fe = false → s.me.full s.ctx r = true) → ∀ a r b, l = a ++ r :: b →
      (∀ k ∈ a, s.me.full s.ctx k = true) → s.me.full s.ctx r = false →
      ∃ t, issue i s l body = .next t ∧ HandlerTrapped s t 2 r.reg)

/-! ### Tokens and memory -/

/-- R204, R209, R211: what a check of a token answers. The null token, a window left, or a right not held gives BOUNDS; a
generation that does not match, or an entry that is free, dead or retired, gives STALE; a DRAINING entry waits; a FORWARDED one
whose generation is one on rewrites the token to the forward entry at the generation the MOVE named, or is STALE where that
entry has gone on from it; a passed check names the bytes of the extent. KSTAT keeps the entry of the first
failure and collects the sticky bits. -/
def Obligations.TokenChecks : Prop :=
  (∀ (s : State) (t : Token) off (w : Nat) need, t.entry ≠ 0 → (s.ent t.entry).st = .draining → s.check t off w need = .wait) ∧
  (∀ (s : State) (t : Token) off (w : Nat) need, t.entry ≠ 0 →
    ((s.ent t.entry).st = .free ∨ (s.ent t.entry).st = .dead ∨ (s.ent t.entry).st = .retired ∨
      ((s.ent t.entry).st = .live ∧ (s.ent t.entry).gen ≠ t.gen)) →
    s.check t off w need = .fail .stale t.entry) ∧
  (∀ (s : State) (t : Token) off (w : Nat) need, (t.entry = 0 ∨ ((s.ent t.entry).st = .live ∧ (s.ent t.entry).gen = t.gen)) →
    (off < 0 ∨ (t.len * 64 : Nat) < off + (w : Int) ∨ t.rights &&& need ≠ need) → s.check t off w need = .fail .bounds t.entry) ∧
  (∀ (s : State) (t : Token) off (w : Nat) need n pa, (s.ent t.entry).st = .live → (s.ent t.entry).gen = t.gen →
    (s.ent t.entry).ranges = [(n, pa)] → 0 ≤ off → off + (w : Int) ≤ (t.len * 64 : Nat) → t.rights &&& need = need →
    ((s.ent t.entry).vbase % 4096 + t.base * 64 + off.toNat + w ≤ n * 4096) → t.entry ≠ 0 →
    s.check t off w need =
      .pass t ((List.range w).map (fun i => pa + ((s.ent t.entry).vbase % 4096 + (t.base * 64 + off.toNat + i))))) ∧
  (∀ (s : State) (t : Token) off (w : Nat) need, t.entry ≠ 0 → (s.ent t.entry).st = .forwarded → t.gen + 1 = (s.ent t.entry).gen →
    (s.ent (s.ent t.entry).fwd).st = .live → (s.ent (s.ent t.entry).fwd).gen = (s.ent t.entry).fgen → (s.ent t.entry).fwd ≠ 0 →
    s.check t off w need = s.check { t with entry := (s.ent t.entry).fwd, gen := (s.ent t.entry).fgen,
                                            kind := (s.ent (s.ent t.entry).fwd).kind } off w need) ∧
  (∀ (s : State) (t : Token) off (w : Nat) need, t.entry ≠ 0 → (s.ent t.entry).st = .forwarded →
    (t.gen + 1 ≠ (s.ent t.entry).gen ∨ (s.ent (s.ent t.entry).fwd).gen ≠ (s.ent t.entry).fgen ∨
      (s.ent (s.ent t.entry).fwd).st = .free ∨ (s.ent (s.ent t.entry).fwd).st = .dead ∨ (s.ent (s.ent t.entry).fwd).st = .retired) →
    s.check t off w need = .fail .stale t.entry) ∧
  (∀ (x : Core) b e, (x.kset b e).c.kstat &&& 7#64 = (x.c.kstat &&& 7#64) ||| b.mask ∧
    (x.kset b e).c.kstat.toNat / 2 ^ 12 % 2 ^ 20 =
      if x.c.kstat &&& 7#64 = 0#64 then e % 2 ^ 20 else x.c.kstat.toNat / 2 ^ 12 % 2 ^ 20)

/-- R129, R315, R338: a scalar load, a scalar store and every atomic issue their access; a store's bytes carry the mark of sD; a
misaligned atomic traps ILLEGAL. -/
def Obligations.ScalarAccessesIssue : Prop :=
  ∀ (s : State),
    (∀ f : LdF, IssuesAccess (.ld f) (memSrcs f.m) 1 (some f.d) rR (s.tk f.m.k) ((s.sc f.m.x).toInt + f.m.off.toInt) (tyBytes f.ty) s
      (fun a => a.op = .load (decide (f.ty < 4)) ∧ a.d = f.d ∧ a.acq = f.ord.acq ∧ a.scope = f.ord.scope)) ∧
    (∀ f : LdF, s.me.markAt ((Src.s f.d false).granule s.ctx) = 0 →
      IssuesAccess (.st f) (.s f.d false :: memSrcs f.m) 1 none rW (s.tk f.m.k) ((s.sc f.m.x).toInt + f.m.off.toInt)
        (tyBytes f.ty) s (fun a => a.op = .store ∧ a.data = leBytes (tyBytes f.ty) (s.sc f.d).toNat ∧ a.bad = [] ∧ a.rel = f.ord.rel ∧
          a.scope = f.ord.scope)) ∧
    (∀ (f : LdF) m u pas, s.me.markAt ((Src.s f.d false).granule s.ctx) = m → m ≠ 0 →
      s.check (s.tk f.m.k) ((s.sc f.m.x).toInt + f.m.off.toInt) (tyBytes f.ty) rW = .pass u pas →
      WordResult (.st f) (.s f.d false :: memSrcs f.m) s (fun t => Passes s t 1 ∧ (∀ pa, t.byte pa = s.byte pa) ∧
        ∃ a : Acc, (t.core s.cur).acc = s.me.acc ++ [a] ∧ a.op = .store ∧ a.pas = pas ∧ a.data = leBytes (tyBytes f.ty) (s.sc f.d).toNat ∧
          a.bad = (List.range (tyBytes f.ty)).map (fun i => (i, (m - 1) % 2 ^ 16)))) ∧
    ∀ f : AmoF, ∀ p ∈ [(Instr.amoAdd f, 0), (.amoAnd f, 1), (.amoOr f, 2), (.amoXor f, 3), (.amoMinS f, 4), (.amoMaxS f, 5),
        (.amoMinN f, 6), (.amoMaxN f, 7), (.amoSwap f, 8), (.amoCas f, 9), (.amoFmaxF32 f, 16), (.amoAmaxRr f, 17)],
      let w : Nat := if f.w64 then 8 else 4
      let off := (s.sc f.c).toInt + f.off.toInt
      (off % w = 0 → IssuesAccess p.1 (amoSrcs f) 2 (some f.d) (rW ||| rA) (s.tk f.k) off w s
        (fun a => a.op = .amo p.2 ∧ a.d = f.d ∧ a.a = s.sc f.a ∧ a.b = s.sc f.b ∧ a.acq = f.ord.acq ∧ a.rel = f.ord.rel ∧
          a.scope = f.ord.scope)) ∧
      (off % w ≠ 0 → TrapsBy p.1 (amoSrcs f) s 1 (minOf p.1) s.me.q.pc)

/-- R129, R299, R300, R306, R319: a load that may perform fills its register with its bytes, extended by its type, and changes no memory:
an acquire, a strong load and one that bypasses the stash read the homes, and others their context's earlier stores first, then the
stash; a plain load of an rc page that takes none of its own may see what the homes held before, as far as its place in happens-before
and in the visibility order leaves it (notes/assumptions/69.md); one whose check failed fills it with 0. A store that may perform at its home slice stores its bytes, one at a time where it is
not aligned, and the rest of memory keeps its bytes or takes a core's dirty ones. An acknowledgement ends a remote store whose link or
module is there, and under PCIe the core's earlier stores on that link. That an event runs on its own turn, and does nothing where it may not happen, is the model's choice
(notes/assumptions/9.md). -/
def Obligations.LoadsAndStoresPerform : Prop :=
  (∀ (s : State) c a sg, MayLand s c a → a.op = .load sg → a.tok.kind ≠ 2 → a.d < 64 → a.w ≠ 0 → a.pas.length = a.w →
    a.data = [] → a.pas.headD 0 % a.w = 0 →
    let home := a.acq = true ∨ a.tok.kind = 0 ∨ (s.core c).bypasses a.tok.entry ((a.tok.base * 64 : Nat) + a.off).toNat a.w a.id = true
    (home → ∀ pa ∈ a.pas, ((s.core c).line (pa / 64)).dirty = 0#4) →
    ∃ (t : State) (sees : Nat → Byte), exec (.loadComplete c a.id) s = .next t ∧
      t = { s with cores := t.cores, w := t.w, hb := t.hb, seen := t.seen } ∧
      (∀ pa, t.byte pa = s.byte pa) ∧ (∀ d, d ≠ c → t.core d = s.core d) ∧
      (((home → ∀ pa, sees pa = s.byte pa) ∧
        (¬home → ∀ pa, (∀ p, (s.core c).ownStore a.ctx a.id pa = some p → sees pa = p.1) ∧
          ((s.core c).ownStore a.ctx a.id pa = none →
            (∀ b, (s.core c).stashByte pa = some b → sees pa = b) ∧ ((s.core c).stashByte pa = none → sees pa = s.byte pa)))) ∨
       (a.acq = false ∧ a.tok.kind = 1 ∧ (home ∨ ∀ pa ∈ a.pas, (s.core c).takesOwn a.ctx a.id pa = false) ∧
        ∃ tk ∈ s.pastTicks ((s.hbOf c a.ctx).stand (ctxAgent c a.ctx) a.id a.floor) a.pas, ∀ pa, sees pa = s.byteAt tk pa)) ∧
      (∀ k r, r < 64 → ¬(k = a.ctx ∧ r = a.d) → (t.core c).rdS k r = (s.core c).rdS k r) ∧
      (t.core c).rdS a.ctx a.d = (if a.d = 0 then 0#64
        else if sg then (BitVec.ofNat (8 * a.w) (leNat (a.pas.map sees))).signExtend 64
        else (BitVec.ofNat (8 * a.w) (leNat (a.pas.map sees))).setWidth 64) ∧
      a.id ∉ (t.core c).sMarks a.ctx a.d ∧ ∀ b ∈ (t.core c).acc, b.id ≠ a.id) ∧
  (∀ (s : State) c a, (s.core c).findAcc a.id = some a → a.chk = 2 → ((∃ sg, a.op = .load sg) ∨ a.op = .sigRead) → a.d < 64 →
    ∃ t, exec (.loadComplete c a.id) s = .next t ∧ OnlyCore c s t ∧ (t.core c).rdS a.ctx a.d = 0#64 ∧
      a.id ∉ (t.core c).sMarks a.ctx a.d) ∧
  (∀ (s : State) c a, MayLand s c a → a.op = .store → s.stashed c a = false → a.w ≠ 0 → a.pas.headD 0 % a.w = 0 → a.pas.Nodup →
    a.pas.length = a.w → a.data.length = a.pas.length →
    ∃ t, exec (.writeReachesHome c a.id) s = .next t ∧ (∀ p ∈ a.pas.zip a.data, t.byte p.1 = p.2) ∧ BytesKept s t a.pas ∧
      RegistersKept s t ∧ ∀ b ∈ (t.core c).acc, b.id ≠ a.id) ∧
  (∀ (s : State) c a pa b pas data, MayLand s c a → a.op = .store → s.stashed c a = false → a.rel = false → a.w ≠ 0 →
    a.pas = pa :: pas → a.data = b :: data → (pa % a.w ≠ 0 ∨ a.pas.length ≠ a.w) → pas ≠ [] →
    ∃ t, exec (.writeReachesHome c a.id) s = .next t ∧ t.byte pa = b ∧ BytesKept s t [pa] ∧ RegistersKept s t ∧
      { a with pas := pas, data := data } ∈ (t.core c).acc) ∧
  (∀ (s : State) c id,
    let mode (l : Nat) : Nat := Sparse.get 0 s.io.link l
    let there := ∀ p ∈ (s.core c).unacked, p.1 = id → (p.2.2 < 2 → mode p.2.2 ≠ 0) ∧ s.unreachable p.2.1 = false
    let behind (p : Nat × Nat × Nat) : Prop :=
      p.1 < id ∧ ∃ m ∈ (s.core c).unacked, m.1 = id ∧ m.2.2 < 2 ∧ mode m.2.2 = 1 ∧ m.2.2 = p.2.2
    (there → ∃ t, exec (.storeAcknowledged c id) s = .next t ∧ OnlyCore c s t ∧
      t.core c = { s.core c with unacked := (t.core c).unacked } ∧
      ∀ p, p ∈ (t.core c).unacked ↔ p ∈ (s.core c).unacked ∧ p.1 ≠ id ∧ ¬behind p) ∧
    (¬there → exec (.storeAcknowledged c id) s = .next s))

/-- R315, R316: an atomic that may perform fills sD with the old value, zero-extended, and leaves at its bytes what its operation
makes of it; memory outside them keeps its bytes or takes a core's dirty ones. A failed check fills 0 and writes nothing. -/
def Obligations.AtomicsPerform : Prop :=
  (∀ (s : State) c a op, MayLand s c a → a.op = .amo op → (op ≤ 9 ∨ op = 16 ∨ op = 17) → a.rel = false → a.d < 64 → (a.w = 4 ∨ a.w = 8) →
    a.pas.length = a.w → a.pas.Nodup → (∀ pa ∈ a.pas, ∀ d, ¬DirtyAt s d pa) → StashesClean s →
    ∃ t new, exec (.amoReply c a.id) s = .next t ∧
      amoMeans op a.w (s.valueAt a.pas) (a.a.toNat % 2 ^ (8 * a.w)) (a.b.toNat % 2 ^ (8 * a.w)) new ∧
      t.valueAt a.pas = new ∧ BytesKept s t a.pas ∧
      (t.core c).rdS a.ctx a.d = (if a.d = 0 then 0#64 else BitVec.ofNat 64 (s.valueAt a.pas)) ∧
      a.id ∉ (t.core c).sMarks a.ctx a.d ∧ (∀ b ∈ (t.core c).acc, b.id ≠ a.id) ∧
      (∀ k r, r < 64 → ¬(k = a.ctx ∧ r = a.d) → (t.core c).rdS k r = (s.core c).rdS k r) ∧
      ∀ d, d ≠ c → (t.core d).r = (s.core d).r) ∧
  (∀ (s : State) c a op, (s.core c).findAcc a.id = some a → a.chk = 2 → a.op = .amo op → a.d < 64 →
    ∃ t, exec (.amoReply c a.id) s = .next t ∧ OnlyCore c s t ∧ (t.core c).rdS a.ctx a.d = 0#64 ∧
      a.id ∉ (t.core c).sMarks a.ctx a.d)

/-- R130, R297, R300, R302 to R304: an access does not perform while an earlier one of its context that must come first is
outstanding, on strong or rc pages: any load or atomic before a release, anything after an acquire, strong accesses in their
order, and a store before an earlier access to one of its bytes; nor a release that does its work at a scope wider than core while an
earlier store of its core is. The event then changes no byte and the access stays (notes/assumptions/8.md, 9.md, 38.md). -/
def Obligations.AccessesPerformInOrder : Prop :=
  ∀ (s : State) c (a b : Acc), (s.core c).findAcc b.id = some b → a ∈ (s.core c).acc → a.id < b.id → b.chk = 1 → a.chk = 1 →
    ((a.ctx = b.ctx ∧ a.tok.kind ≠ 2 ∧ b.tok.kind ≠ 2 ∧
      ((b.rel = true ∧ a.op.fills = true) ∨ (a.acq = true ∧ a.op ≠ .vstore) ∨
        (a.tok.kind = 0 ∧ b.tok.kind = 0 ∧ a.op ≠ .vstore) ∨
        (b.op = .store ∧ a.op ≠ .vstore ∧ ∃ pa ∈ a.pas, pa ∈ b.pas))) ∨
      (s.works c b = true ∧ a.plainStore = true)) →
    ∀ e ∈ [Instr.loadComplete c b.id, .amoReply c b.id, .writeReachesHome c b.id],
      ∃ t, exec e s = .next t ∧ (∀ pa, t.byte pa = s.byte pa) ∧ RegistersKept s t ∧ (t.core c).findAcc b.id = some b

/-- R306, R312: a fence goes on once what its kind waits for is done: for `acq` the earlier loads and atomics of its context have
returned and the publishes that they must force are done, for `rel` every earlier access has performed, for `ar` and `sc` both. The
release kinds leave every byte the core held dirty at its home at scopes wider than core; the others and core scope change no byte; at
core scope the stores that a release leaves in flight are marked. No register changes (notes/assumptions/36.md, 38.md, 70.md). -/
def Obligations.Fences : Prop :=
  ∀ (s : State) u scope,
    let n := s.me.q.nid
    let passes (rel : Bool) : State → Prop := fun t =>
      Passes s t 1 ∧ RegistersKept s t ∧ (t.core s.cur).c = s.me.c ∧
      (rel = false ∨ 1 ≤ scope → (t.core s.cur).acc = s.me.acc) ∧
      (t.core s.cur).acc.map (fun a => { a with overtaken := false }) = s.me.acc.map (fun a => { a with overtaken := false }) ∧
      (rel = false ∨ scope = 0 → ∀ pa, t.byte pa = s.byte pa) ∧
      (rel = true → 1 ≤ scope → (∀ pa, DirtyAt s s.cur pa → t.byte pa = (s.me.line (pa / 64)).byte (pa % 64)) ∧
        (∀ pa, ¬DirtyAt t s.cur pa) ∧ BytesKept s t [])
    (fenceReads scope s n = true → WordResult (.fenceAcq u scope) [] s (passes false)) ∧
    (fenceAll scope s n = true → WordResult (.fenceRel u scope) [] s (passes true)) ∧
    (fenceReads scope s n = true → fenceAll scope s n = true → WordResult (.fenceAr u scope) [] s (passes true)) ∧
    (fenceReads scope s n = true → fenceAll scope s n = true → WordResult (.fenceSc u scope) [] s (passes true)) ∧
    (((∃ a ∈ s.me.acc, a.ctx = s.ctx ∧ a.id < n ∧ a.op.fills = true) ∨
        ∃ ln ∈ (s.hbOf s.cur s.ctx).lines, s.mustForce s.cur ln scope ≠ []) →
      ∀ i ∈ [Instr.fenceAcq u scope, .fenceAr u scope, .fenceSc u scope],
      WordResult i [] s (fun t => Quiet s t ∧ Goes s t (s.me.q.pcOf s.ctx) ∧
        (t.core s.cur).q.holdOf s.ctx = { k := .fence scope, since := n })) ∧
    (∀ a ∈ s.me.acc, a.ctx = s.ctx → a.id < n → WordResult (.fenceRel u scope) [] s (fun t => Quiet s t ∧
      Goes s t (s.me.q.pcOf s.ctx) ∧ (t.core s.cur).q.holdOf s.ctx = { k := .drain, since := n }))

/-- R216: the token instructions. `tkchk` gives 1 for the null token, 2 for a stale one, 3 for a forwarded one and 0 for a valid
one, a DRAINING entry among them; a forwarded one whose forward entry has gone on from the generation that the MOVE named is stale; `tkinfo` adds that status to the token word; `tksub` gives a sub-window, or null with BOUNDS. -/
def Obligations.TokenWords : Prop :=
  ∀ (s : State) o,
    let t := s.tk o.a
    let e := s.ent t.entry
    let status : Word → Prop := fun v =>
      (t.entry = 0 → v = 1#64) ∧ (t.entry ≠ 0 → e.st = .draining → v = 0#64) ∧
      (t.entry ≠ 0 → e.st = .live → e.gen = t.gen → v = 0#64) ∧ (t.entry ≠ 0 → e.st = .live → e.gen ≠ t.gen → v = 2#64) ∧
      (t.entry ≠ 0 → (e.st = .free ∨ e.st = .dead ∨ e.st = .retired) → v = 2#64) ∧
      (t.entry ≠ 0 → e.st = .sweeping → e.gen = t.gen → v = 0#64) ∧
      (t.entry ≠ 0 → e.st = .sweeping → e.gen ≠ t.gen → e.move = false → v = 2#64) ∧
      (t.entry ≠ 0 → e.st = .forwarded → t.gen + 1 ≠ e.gen → v = 2#64) ∧
      (t.entry ≠ 0 → e.st = .forwarded → (s.ent e.fwd).gen ≠ e.fgen → v = 2#64) ∧
      (t.entry ≠ 0 → e.st = .forwarded → ((s.ent e.fwd).st = .free ∨ (s.ent e.fwd).st = .dead ∨ (s.ent e.fwd).st = .retired) → v = 2#64) ∧
      (t.entry ≠ 0 → e.st = .forwarded → t.gen + 1 = e.gen → e.fwd ≠ t.entry → (s.ent e.fwd).st = .live → (s.ent e.fwd).gen = e.fgen →
        v = 3#64)
    ScalarResult (.tkchk o) [.k o.a o.fea] o.d 1 s status ∧
    ScalarResult (.tkinfo o) [.k o.a o.fea] o.d 1 s (fun v => ∃ st, status st ∧ v = t.word + (st <<< 24)) ∧
    WordResult (.tkdrop o) [.k o.a o.fea] s (fun u => WritesToken s u o.a {} ∧ (u.core s.cur).c = s.me.c) ∧
    WordResult (.tkmov o) [.k o.a o.fea] s (fun u => WritesToken s u o.d t ∧ (u.core s.cur).c = s.me.c) ∧
    ((s.sc o.b).toNat % 64 = 0 → (s.sc o.c).toNat % 64 = 0 → (s.sc o.c).toNat ≠ 0 →
        (s.sc o.b).toNat + (s.sc o.c).toNat ≤ t.len * 64 →
      WordResult (.tksub o) [.k o.a o.fea, .s o.b o.feb, .s o.c o.fec] s (fun u =>
        WritesToken s u o.d { t with base := t.base + (s.sc o.b).toNat / 64, len := (s.sc o.c).toNat / 64 } ∧
        (u.core s.cur).c = s.me.c)) ∧
    (((s.sc o.b).toNat % 64 ≠ 0 ∨ (s.sc o.c).toNat % 64 ≠ 0 ∨ (s.sc o.c).toNat = 0 ∨
        t.len * 64 < (s.sc o.b).toNat + (s.sc o.c).toNat) →
      WordResult (.tksub o) [.k o.a o.fea, .s o.b o.feb, .s o.c o.fec] s (fun u => WritesToken s u o.d {} ∧
        (u.core s.cur).c = (s.me.kset .bounds t.entry).c)) ∧
    decodeC 0x3C14614C34000000#64 0#64 =
      .ok (.tksub { d := 6, a := 5, b := 12, c := 13, fea := false, feb := false, fec := false }, 1)

/-- R207: `xlat` and `xlat.try` mark their destinations empty and hold their context; the end of the walk fills kD with a token of
the extent (base 0, its length, the rights asked for, this core a holder of its entry) and the status with 0, or fails with a
reason and a page: `xlat` then traps XLAT, and `xlat.try` fills the null token and the status. A bad operand is ARG and an address
space without a root is ABSENT at page 0 (the model's choice, notes/assumptions/18.md); a trap that one of an earlier word of its
clock comes before is lost (R103); a walk that reads bad data is a containment event, and the destinations keep their values
(notes/assumptions/75.md); a LIVE entry of the same extent, rights and
kind is reused. -/
def Obligations.ExtentsTranslate : Prop :=
  (∀ (s : State) rights o, WordResult (.xlat rights o) [.s o.a o.fea, .s o.b o.feb] s (fun t => OnlyCore s.cur s t ∧
    (t.core s.cur).q.pcOf s.ctx = s.me.q.pcOf s.ctx ∧
    (t.core s.cur).q.holdOf s.ctx = { k := .walk (.xlat rights o), since := s.me.q.nid } ∧
    (o.d ≠ 0 → (t.core s.cur).kMarks s.ctx o.d = s.me.kMarks s.ctx o.d ++ [s.me.q.nid]) ∧
    (∀ k r, (t.core s.cur).rdK k r = s.me.rdK k r) ∧ (t.core s.cur).r = { s.me.r with km := (t.core s.cur).r.km })) ∧
  (∀ (s : State) rights o, WordResult (.xlatTry rights o) [.s o.a o.fea, .s o.b o.feb] s (fun t => OnlyCore s.cur s t ∧
    (t.core s.cur).q.pcOf s.ctx = s.me.q.pcOf s.ctx ∧
    (t.core s.cur).q.holdOf s.ctx = { k := .walk (.xlatTry rights o), since := s.me.q.nid } ∧
    (o.d ≠ 0 → (t.core s.cur).kMarks s.ctx o.d = s.me.kMarks s.ctx o.d ++ [s.me.q.nid]) ∧
    (o.c ≠ 0 → (t.core s.cur).sMarks s.ctx o.c = s.me.sMarks s.ctx o.c ++ [s.me.q.nid]) ∧
    (∀ k r, (t.core s.cur).rdK k r = s.me.rdK k r ∧ (t.core s.cur).rdS k r = s.me.rdS k r))) ∧
  (∀ (s : State) c x rights o since, let h := (s.core c).q.holdOf x
    (h = { k := .walk (.xlat rights o), since := since } ∨ h = { k := .walk (.xlatTry rights o), since := since }) →
    o.d < 32 → o.c < 64 →
    let va := ((s.core c).rdS x o.a).toNat
    let len := ((s.core c).rdS x o.b).toNat
    (∀ u tok, ({ s with cur := c, ctx := x } : State).grant (some c) (s.asidOf c) va len rights = .ok u tok →
      ∃ t, exec (.xlatComplete c x) s = .next t ∧ (t.core c).rdK x o.d = (if o.d = 0 then {} else tok) ∧
        since ∉ (t.core c).kMarks x o.d ∧ tok.base = 0 ∧ tok.len = len / 64 ∧ tok.rights = rights ∧
        (t.ent tok.entry).st = .live ∧ (t.ent tok.entry).gen = tok.gen ∧ (c < 1024 → (t.ent tok.entry).holders.getLsbD c = true) ∧
        (h.k = .walk (.xlatTry rights o) → o.c ≠ 0 → (t.core c).rdS x o.c = 0#64) ∧ ∀ pa, t.byte pa = s.byte pa) ∧
    (∀ r p, ({ s with cur := c, ctx := x } : State).grant (some c) (s.asidOf c) va len rights = .fail r p →
      ∃ t, exec (.xlatComplete c x) s = .next t ∧ t.pontil = s.pontil ∧ since ∉ (t.core c).kMarks x o.d ∧
        (h.k = .walk (.xlatTry rights o) → o.c ≠ 0 →
          (t.core c).rdK x o.d = {} ∧ (t.core c).rdS x o.c = BitVec.ofNat 64 (r * 2 ^ 32 + p)) ∧
        (h.k = .walk (.xlat rights o) → x = 0 → (s.core c).beaten s.now since = true → (t.core c).c = (s.core c).c) ∧
        (h.k = .walk (.xlat rights o) → x = 0 → (s.core c).q.tact = false → (s.core c).beaten s.now since = false →
          (t.core c).c.tcause = 8#64 ∧ (t.core c).c.tinfo = BitVec.ofNat 64 (3 * 2 ^ 58 + (r * 2 ^ 28 + p) % 2 ^ 32) ∧
          (t.core c).c.tpc = BitVec.ofNat 64 (s.core c).q.pc)) ∧
    (∀ u e, ({ s with cur := c, ctx := x } : State).grant (some c) (s.asidOf c) va len rights = .event u e →
      ∃ t, exec (.xlatComplete c x) s = .next t ∧ t.pontil = s.pontil ∧ since ∉ (t.core c).kMarks x o.d ∧
        (∀ k r, (t.core c).rdK k r = (s.core c).rdK k r ∧ (t.core c).rdS k r = (s.core c).rdS k r) ∧
        Raises s.now (s.core c) (t.core c) (fun l => l.cause = causeContain ∧ l.cont = true ∧ l.clk = since) ∧
        ∀ pa, t.byte pa = s.byte pa)) ∧
  (∀ (s : State) who asid va len rights, (va % 64 ≠ 0 ∨ len = 0 ∨ len % 64 ≠ 0 ∨ 2 ^ 38 - 64 < len ∨ 2 ^ 48 < va + len) →
    s.grant who asid va len rights = .fail 4 0) ∧
  (∀ (s : State) asid va len rights, ¬(va % 64 ≠ 0 ∨ len = 0 ∨ len % 64 ≠ 0 ∨ 2 ^ 38 - 64 < len ∨ 2 ^ 48 < va + len) →
    Sparse.get 0 s.roots asid = 0 → s.grant none asid va len rights = .fail 1 0) ∧
  (∀ (s : State) who asid va len rights u tok, s.grant who asid va len rights = .ok u tok →
    (∃ p ∈ s.pontil, p.2.st = .live ∧ p.2.asid = asid ∧ p.2.vbase = va ∧ p.2.len = len ∧ p.2.rights = rights ∧
      tok.entry = p.1 ∧ tok.gen = p.2.gen ∧ tok.kind = p.2.kind) ∨
    ((s.ent tok.entry).st = .free ∧ tok.entry ≠ 0 ∧ tok.entry < 2 ^ 20 ∧ tok.gen = (s.ent tok.entry).gen + 1 ∧
      ∀ e, e ≠ 0 → e < tok.entry → (s.ent e).st ≠ .free))

/-- R206, R214: `tkrev` starts the revocation of a LIVE entry, purges its extent from every translation cache and holds its
context until the entry is DEAD or FORWARDED; it does nothing to an entry that is not LIVE. It is privileged; a bad entry number
and a forward token of the same entry are ILLEGAL, a forward token that is null, stale, short or short of rights traps TOKEN. -/
def Obligations.RevocationStarts : Prop :=
  ∀ (s : State) (o : AluR),
    let n := (s.sc o.a).toNat
    let good := s.me.q.priv = true ∧ n ≠ 0 ∧ n < 2 ^ 20
    let f := s.tk o.b
    let v := s.ent n
    let drains (i : Instr) (l : List Src) (move : Bool) (fwd : Nat) : Prop := WordResult i l s (fun t =>
      t.ent n = { v with st := .draining, move := move, fwd := fwd, fgen := if move then (s.ent fwd).gen else 0 } ∧ EntryOnly s t n ∧ RegistersKept s t ∧
      (∀ pa, t.byte pa = s.byte pa) ∧ (t.core s.cur).q.pcOf s.ctx = s.me.q.pcOf s.ctx ∧
      (t.core s.cur).q.holdOf s.ctx = { k := .rev n, since := s.me.q.nid } ∧
      ∀ c ∈ s.coreList, ∀ e ∈ (t.core c).tlb, ¬(e.asid = v.asid ∧ e.vpn * 4096 < v.vbase + v.len ∧ v.vbase < (e.vpn + e.n) * 4096))
    let kill := [Src.s o.a o.fea]
    let both := [Src.s o.a o.fea, .k o.b o.feb]
    let stale := s.check f 0 0 0#4 = .fail .stale f.entry
    let wide := v.len ≤ f.len * 64 ∧ f.rights &&& v.rights = v.rights
    (good → v.st = .live → drains (.tkrevKill o) kill false 0) ∧
    (good → v.st ≠ .live → WordResult (.tkrevKill o) kill s (fun t => Quiet s t ∧ Passes s t 1)) ∧
    (good → f.entry ≠ n → f.entry ≠ 0 → wide →
      (v.st = .live → s.check f 0 0 0#4 = .wait → drains (.tkrevMove o) both true f.entry) ∧
      (∀ u, s.check f 0 0 0#4 = .pass u [] → u.entry ≠ n →
        (v.st = .live → drains (.tkrevMove o) both true u.entry) ∧
        (v.st ≠ .live → WordResult (.tkrevMove o) both s (fun t => Quiet s t ∧ Passes s t 1)))) ∧
    (good → f.entry ≠ n → (f.entry = 0 ∨ stale) → TrapsBy (.tkrevMove o) both s 9 f.entry s.me.q.pc) ∧
    (good → f.entry ≠ n → (∀ u, s.check f 0 0 0#4 = .pass u [] → u.entry ≠ n) → ¬wide →
      TrapsBy (.tkrevMove o) both s 9 f.entry s.me.q.pc) ∧
    (good → f.entry = n → TrapsBy (.tkrevMove o) both s 1 (minOf (.tkrevMove o)) s.me.q.pc) ∧
    (s.me.q.priv = true → n = 0 ∨ 2 ^ 20 ≤ n → TrapsBy (.tkrevKill o) kill s 1 (minOf (.tkrevKill o)) s.me.q.pc ∧
      TrapsBy (.tkrevMove o) both s 1 (minOf (.tkrevMove o)) s.me.q.pc) ∧
    (s.me.q.priv = false → TrapsBy (.tkrevKill o) kill s 10 (minOf (.tkrevKill o)) s.me.q.pc ∧
      TrapsBy (.tkrevMove o) both s 10 (minOf (.tkrevMove o)) s.me.q.pc) ∧
    (∀ i ∈ [Instr.tkrevKill o, .tkrevMove o], ∀ e, s.hold.k = .rev e →
      ((s.ent e).st = .draining ∨ (s.ent e).st = .sweeping → exec i s = .next { s with waited := true }) ∧
      ((s.ent e).st = .dead ∨ (s.ent e).st = .forwarded → ∃ t, exec i s = .next t ∧ Quiet s t ∧ Passes s t 1)) ∧
    decodeC 0x3C1C024000000000#64 0#64 = .ok (.tkrevKill { d := 0, a := 9, b := 0, c := 0, fea := false, feb := false, fec := false }, 1)

/-- R206, R212, R213: the events of a revocation. Draining ends, with no access in flight, in SWEEPING under the next generation;
a MOVE has then copied the extent. Each holder's sweep nulls its copies under KILL and sets REVOKED, or rewrites them to the
forward entry under MOVE. When all have reported the entry is DEAD or FORWARDED without holders. A DEAD entry unpins its pages,
and 2²⁰ clocks after it died is FREE or RETIRED with its generation; so is a FORWARDED one without list bits. The walk of a list rewrites
the entry's tokens in its save areas. An event that is not enabled changes nothing (the model's choice, notes/assumptions/9.md). -/
def Obligations.RevocationRuns : Prop :=
  (∀ (s : State) e, (s.ent e).st = .draining → s.inUse e = false → ∃ t, exec (.revokeDrainEnd e) s = .next t ∧ EntryOnly s t e ∧
    RegistersKept s t ∧ t.ent e = { s.ent e with st := .sweeping, gen := (s.ent e).gen + 1, swept := 0#1024,
                                                 lists := if (s.ent e).move then (s.ent e).lists else 0#64 } ∧
    ((s.ent e).move = false → BytesKept s t []) ∧
    ∀ i a b, (s.ent e).move = true → i < (s.ent e).len → (s.ent e).at_ i = some a → (s.ent (s.ent e).fwd).at_ i = some b →
      NoneDirty s →
      (∀ j k x y z, (s.ent e).at_ j = some x → (s.ent (s.ent e).fwd).at_ j = some y → (s.ent (s.ent e).fwd).at_ k = some z →
        x ≠ z ∧ (y = z → j = k)) →
      t.byte b = s.byte a) ∧
  (∀ (s : State) c e, e ≠ 0 → (s.ent e).st = .sweeping → (s.ent e).holders.getLsbD c = true → (s.ent e).swept.getLsbD c = false →
    ∃ t, exec (.sweep c e) s = .next t ∧ (∀ pa, t.byte pa = s.byte pa) ∧ (∀ d, d ≠ c → t.core d = s.core d) ∧ EntryOnly s t e ∧
      t.ent e = { s.ent e with swept := (s.ent e).swept ||| (1#1024 <<< c) } ∧
      ((s.ent e).move = true ∨ (s.core c).q.st ≠ .stopping → ∀ k r, (t.core c).rdS k r = (s.core c).rdS k r) ∧
      (∀ k r, (t.core c).rdK k r =
        if ((s.core c).rdK k r).entry = e ∧ ((s.core c).rdK k r).gen + 1 = (s.ent e).gen then
          (if (s.ent e).move then s.forwarded ((s.core c).rdK k r) (s.ent e).fwd else {})
        else (s.core c).rdK k r) ∧
      ((s.ent e).move = false → s.holdsCopy c e = true → (t.core c).c.kstat.getLsbD 2 = true) ∧
      ((s.ent e).move = true → (t.core c).c = (s.core c).c)) ∧
  (∀ (s : State) e, (s.ent e).st = .sweeping → (s.ent e).holders &&& ~~~(s.ent e).swept = 0#1024 →
    ∃ t, exec (.sweepDone e) s = .next t ∧ t = { s with pontil := t.pontil } ∧ EntryOnly s t e ∧
      (t.ent e).st = (if (s.ent e).move then .forwarded else .dead) ∧ (t.ent e).holders = 0#1024 ∧ (t.ent e).deadAt = s.now ∧
      (t.ent e).gen = (s.ent e).gen ∧ ((s.ent e).move = false → (t.ent e).lists = 0#64)) ∧
  (∀ (s : State) e, (s.ent e).st = .sweeping → (s.ent e).holders &&& ~~~(s.ent e).swept ≠ 0#1024 → exec (.sweepDone e) s = .next s) ∧
  (∀ (s : State) e, (s.ent e).st = .dead → s.inUse e = false →
    ∃ t, exec (.deadUnpin e) s = .next t ∧ t = { s with pontil := t.pontil } ∧ EntryOnly s t e ∧
      t.ent e = { s.ent e with pinned := false }) ∧
  (∀ (s : State) e, (s.ent e).st = .dead → (s.ent e).pinned = false → (s.ent e).deadAt + 2 ^ 20 ≤ s.now →
    ∃ t, exec (.deadHoldExpire e) s = .next t ∧ t = { s with pontil := t.pontil } ∧ EntryOnly s t e ∧
      (t.ent e).st = (if 4094 ≤ (s.ent e).gen then .retired else .free) ∧ (t.ent e).gen = (s.ent e).gen) ∧
  (∀ (s : State) e, (s.ent e).st = .dead → s.now < (s.ent e).deadAt + 2 ^ 20 → exec (.deadHoldExpire e) s = .next s) ∧
  (∀ (s : State) e, (s.ent e).st = .forwarded → (s.ent e).lists = 0#64 → s.inUse e = false →
    ∃ t, exec (.forwardRelease e) s = .next t ∧ t = { s with pontil := t.pontil } ∧ EntryOnly s t e ∧
      (t.ent e).st = (if 4094 ≤ (s.ent e).gen then .retired else .free) ∧ (t.ent e).gen = (s.ent e).gen) ∧
  (∀ (s : State) e list, (s.ent e).st = .forwarded → (s.ent e).lists.getLsbD list = true → list < 64 →
    let f := (s.ent e).fwd
    ∃ t, exec (.savedContextWalk e list) s = .next t ∧ RegistersKept s t ∧ EntryOnly s t e ∧
      (t.ent e).st = .forwarded ∧ t.d = s.d ∧
      (∀ k, k < 64 → (t.ent e).lists.getLsbD k = ((s.ent e).lists.getLsbD k && k != list)) ∧
      (NoneDirty s → f < 2 ^ 20 → (s.ent e).fgen < 2 ^ 12 → (s.ent f).kind < 4 →
        ∀ p ∈ s.d.lists, p.1 / 1024 = list → p.2.valid = true → ∀ i, i < 256 →
          let k := s.areaTok (areaPA (list / 4) p.2.area) i
          t.areaTok (areaPA (list / 4) p.2.area) i = if (s.ent e).hits e k = true then s.forwarded k f else k))

/-- R217, R218: `stash.map` maps a window of a token's extent or traps; `stash.wb` leaves the window's dirty bytes at their homes
and the window mapped, `stash.unmap` also drops its lines and frees it, `stash.inv` drops its lines and changes no byte of memory;
the three wait for the window's earlier accesses and do nothing to a free window. -/
def Obligations.StashWindows : Prop :=
  (∀ (s : State) w m, let u := s.tk m.k
    let n : Nat := (s.sc m.x).toNat
    let off := m.off.toInt
    let ext : Int := (u.base * 64 : Nat) + off
    let bad := (Sparse.get {} s.me.wins w).size ≠ 0 ∨ off % 64 ≠ 0 ∨ n % 64 ≠ 0 ∨ n = 0 ∨ 2 ^ 22 < s.me.mapped + n ∨
      ∃ p ∈ s.me.wins, p.2.size ≠ 0 ∧ p.2.tok.entry = u.entry ∧ ext < (p.2.off + p.2.size : Nat) ∧ (p.2.off : Int) < ext + (n : Int)
    let fits := 0 ≤ off ∧ off + (n : Int) ≤ (u.len * 64 : Nat) ∧
      ∀ r ∈ (s.ent u.entry).ranges, ∀ pa ∈ [r.2, r.2 + 4096 * r.1 - 1], s.cfg.tier pa ≠ .l2 ∧ s.cfg.tier pa ≠ .bdeck
    u.entry ≠ 0 → (s.ent u.entry).st = .live → (s.ent u.entry).gen = u.gen →
    (¬bad → fits → WordResult (.stashMap w m) (memSrcs m) s (fun t => OnlyCore s.cur s t ∧ Passes s t 1 ∧
      (t.core s.cur).r = s.me.r ∧ (t.core s.cur).c = s.me.c ∧ (t.core s.cur).stash = s.me.stash ∧
      Sparse.get {} (t.core s.cur).wins w = { tok := u, off := ext.toNat, size := n } ∧
      ∀ k, k ≠ w → Sparse.get {} (t.core s.cur).wins k = Sparse.get {} s.me.wins k)) ∧
    (bad → TrapsBy (.stashMap w m) (memSrcs m) s 1 w s.me.q.pc) ∧
    (¬bad → ¬fits → TrapsBy (.stashMap w m) (memSrcs m) s 9 u.entry s.me.q.pc)) ∧
  (∀ (s : State) w, (s.win w).size ≠ 0 → s.winQuiet s.cur (s.win w) s.me.q.nid = true →
    let inside := fun ln => (s.winLines (s.win w)).contains ln = true
    let home : State → Prop := fun t => Housekeeping s t ∧ Passes s t 1 ∧
      (∀ pa, inside (pa / 64) → DirtyAt s s.cur pa → t.byte pa = (s.me.line (pa / 64)).byte (pa % 64)) ∧
      ∀ pa, inside (pa / 64) → ¬DirtyAt t s.cur pa
    WordResult (.stashWb w) [] s (fun t => home t ∧ (t.core s.cur).wins = s.me.wins) ∧
    WordResult (.stashUnmap w) [] s (fun t => home t ∧ Sparse.get {} (t.core s.cur).wins w = {} ∧
      ∀ ln, inside ln → (t.core s.cur).line ln = {}) ∧
    WordResult (.stashInv w) [] s (fun t => OnlyCore s.cur s t ∧ Passes s t 1 ∧ (t.core s.cur).r = s.me.r ∧
      (t.core s.cur).wins = s.me.wins ∧ (∀ ln, inside ln → (t.core s.cur).line ln = {}) ∧
      ∀ ln, ¬inside ln → (t.core s.cur).line ln = s.me.line ln)) ∧
  (∀ (s : State) w, (s.win w).size = 0 → ∀ i ∈ [Instr.stashWb w, .stashUnmap w, .stashInv w],
    WordResult i [] s (fun t => Quiet s t ∧ Passes s t 1))

/-- R283 to R285: a legal `bar` adds its core to the arrivals of its group's object and holds its context; an illegal one traps.
At the end of a clock an object whose members have all arrived or ended is RELEASING; once their releases are ready, all that wait go
on past their `bar`, the arrivals are none, and what a member held dirty is at home where its scope is wider than core. R288, R295:
`sig.add`, `sig.set` and `sig.read` issue an access to 8 aligned bytes; at the home slice `sig.add` leaves the sum, `sig.set` its
operand, and `sig.read` fills its register with the counter. `sig.wait` registers its target and holds its context, or sets KSTAT and
goes on where its check fails; it goes on once the counter is at least the target. That a release event does nothing before then is
the model's choice (notes/assumptions/9.md). -/
def Obligations.BarriersAndSignals : Prop :=
  ((∀ (s : State) lvl scope k, s.me.task = some k →
    let l := s.launch k.linst
    let legal := lvl ≤ 5 ∧ scope ≤ 5 ∧ l.kern.colevel ≠ 0xFF ∧ lvl ≤ l.kern.colevel ∧ k.initial = true ∧ s.me.q.tact = false
    let grp := l.groupOf lvl k.r.w1
    (legal → (s.bar k.linst grp lvl).dep < l.groupSize lvl → WordResult (.bar lvl scope) [] s (fun t =>
      (t.bar k.linst grp lvl).arr = (s.bar k.linst grp lvl).arr ++ [s.cur] ∧ (t.bar k.linst grp lvl).dep = (s.bar k.linst grp lvl).dep ∧
      (t.core s.cur).q.holdOf 0 = { k := .bar lvl scope, since := s.me.q.nid } ∧ (t.core s.cur).q.pc = s.me.q.pc ∧
      (t.bar k.linst grp lvl).rel = (s.bar k.linst grp lvl).rel ∧ RegistersKept s t ∧ ∀ pa, t.byte pa = s.byte pa)) ∧
    (¬legal → TrapsBy (.bar lvl scope) [] s 1 (minOf (.bar lvl scope)) s.me.q.pc)) ∧
  (∀ (s : State) linst grp lvl, let b := s.bar linst grp lvl
    (b.rel = false ∨ b.arr = [] ∨ b.arr.length + b.dep ≠ (s.launch linst).groupSize lvl ∨ ∃ c ∈ b.arr, s.barReady c = false) →
      exec (.barrierRelease linst grp lvl) s = .next s) ∧
  (∀ (s : State), ∀ b ∈ s.clockEnds.d.bars, b.arr ≠ [] → b.arr.length + b.dep = (s.launch b.linst).groupSize b.lvl → b.rel = true) ∧
  (∀ (s : State) linst grp lvl, let b := s.bar linst grp lvl
    b.rel = true → b.arr ≠ [] → b.arr.Nodup → b.arr.length + b.dep = (s.launch linst).groupSize lvl → (∀ c ∈ b.arr, s.barReady c = true) →
    (∀ c ∈ b.arr, ∃ l scope since, (s.core c).q.holdOf 0 = { k := .bar l scope, since := since }) →
    ∃ t, exec (.barrierRelease linst grp lvl) s = .next t ∧ (t.bar linst grp lvl).arr = [] ∧ (t.bar linst grp lvl).rel = false ∧ Housekeeping s t ∧
      (∀ c ∈ b.arr, (t.core c).q.holdOf 0 = {} ∧
        ((∀ l, l < 6 → ((s.core c).q.loop l).act = false ∨ ((s.core c).q.loop l).last ≠ (s.core c).q.pc) →
          (t.core c).q.pc = (s.core c).q.pc + 1)) ∧
      ∀ c ∈ b.arr, ∀ l scope since pa, (s.core c).q.holdOf 0 = { k := .bar l scope, since := since } → 1 ≤ scope → ¬DirtyAt t c pa)) ∧
  ((∀ (s : State) (f : SyncF), let off := (s.sc f.m.x).toInt + f.m.off.toInt
    (off % 8 = 0 →
      IssuesAccess (.sigAdd f) (syncSrcs f true) 1 none (rW ||| rA) (s.tk f.m.k) off 8 s (fun a => a.op = .sigAdd ∧ a.a = s.sc f.d ∧ a.rel = f.ord.rel ∧ a.acq = f.ord.acq) ∧
      IssuesAccess (.sigSet f) (syncSrcs f true) 1 none (rW ||| rA) (s.tk f.m.k) off 8 s (fun a => a.op = .sigSet ∧ a.a = s.sc f.d ∧ a.rel = f.ord.rel ∧ a.acq = f.ord.acq) ∧
      IssuesAccess (.sigRead f) (syncSrcs f false) 1 (some f.d) rR (s.tk f.m.k) off 8 s (fun a => a.op = .sigRead ∧ a.d = f.d ∧ a.acq = f.ord.acq)) ∧
    (off % 8 ≠ 0 → TrapsBy (.sigAdd f) (syncSrcs f true) s 1 (minOf (.sigAdd f)) s.me.q.pc ∧
      TrapsBy (.sigSet f) (syncSrcs f true) s 1 (minOf (.sigSet f)) s.me.q.pc ∧
      TrapsBy (.sigRead f) (syncSrcs f false) s 1 (minOf (.sigRead f)) s.me.q.pc ∧
      TrapsBy (.sigWait f) (syncSrcs f true) s 1 (minOf (.sigWait f)) s.me.q.pc)) ∧
  (∀ (s : State) c a, MayLand s c a → (a.op = .sigAdd ∨ a.op = .sigSet) → a.rel = false → a.pas.length = 8 → a.pas.Nodup →
    (∀ pa ∈ a.pas, ∀ d, ¬DirtyAt s d pa) → StashesClean s →
    ∃ t, exec (.writeReachesHome c a.id) s = .next t ∧ BytesKept s t a.pas ∧ RegistersKept s t ∧
      (∀ b ∈ (t.core c).acc, b.id ≠ a.id) ∧
      t.valueAt a.pas = if a.op = .sigAdd then (s.valueAt a.pas + a.a.toNat) % 2 ^ 64 else a.a.toNat) ∧
  (∀ (s : State) c a, MayLand s c a → a.op = .sigRead → a.tok.kind ≠ 2 → a.d < 64 → a.w = 8 → a.pas.length = 8 → a.data = [] →
    a.pas.headD 0 % 8 = 0 → (∀ pa ∈ a.pas, ((s.core c).line (pa / 64)).dirty = 0#4) →
    ∃ t, exec (.loadComplete c a.id) s = .next t ∧ (∀ pa, t.byte pa = s.byte pa) ∧
      (t.core c).rdS a.ctx a.d = (if a.d = 0 then 0#64 else BitVec.ofNat 64 (s.valueAt a.pas)) ∧
      a.id ∉ (t.core c).sMarks a.ctx a.d) ∧
  (∀ (s : State) (f : SyncF), let off := (s.sc f.m.x).toInt + f.m.off.toInt
    off % 8 = 0 →
    (∀ u pas, s.check (s.tk f.m.k) off 8 rR = .pass u pas → s.me.acc = [] → s.popPending s.cur 0 s.me.q.nid = false →
      WordResult (.sigWait f) (syncSrcs f true) s (fun t => Housekeeping s t ∧ (t.core s.cur).q.pc = s.me.q.pc ∧
        (t.core s.cur).q.holdOf 0 = { k := .sig (pas.headD 0) (s.sc f.d) f.ord.acq f.ord.scope false u.entry, since := s.me.q.nid })) ∧
    (∀ b e, s.check (s.tk f.m.k) off 8 rR = .fail b e → WordResult (.sigWait f) (syncSrcs f true) s (fun t =>
      OnlyCore s.cur s t ∧ Passes s t 1 ∧ (t.core s.cur).r = s.me.r ∧ (t.core s.cur).c = (s.me.kset b e).c))) ∧
  (∀ (s : State) c pa target acq scope met e since,
    (s.core c).q.holdOf 0 = { k := .sig pa target acq scope met e, since := since } →
    let pas := (List.range 8).map (pa + ·)
    (met = false → s.valueAt pas < target.toNat → exec (.sigWaitRelease c) s = .next s) ∧
    ((met = true ∨ target.toNat ≤ s.valueAt pas) →
      (acq = true → s.acquireReady c scope pas = true ∧ (s.core c).noneOvertaken 0 = true) → Clean s pas → s.linked pas = true →
      ∃ t, exec (.sigWaitRelease c) s = .next t ∧ t = { s with cores := t.cores, w := t.w, hb := t.hb, seen := t.seen } ∧
        RegistersKept s t ∧
        (t.core c).q.holdOf 0 = {} ∧
        ((∀ l, l < 6 → ((s.core c).q.loop l).act = false ∨ ((s.core c).q.loop l).last ≠ (s.core c).q.pc) →
          (t.core c).q.pc = (s.core c).q.pc + 1))))

/-- R288 to R293: `fut.put` and `fut.clr` hold their context until their slice step is over; the first put fills an empty future
and captures its waiters, a later one changes nothing; `fut.clr` empties a future. `fut.wait` marks s3 empty and holds its context;
drained, it goes on at its resume index with the value of a full future, or parks its task in the wait table and leaves the core
IDLE. Release k of a put falls due k + 1 clocks after it; a released continuation of a running launch that is due is pushed to its
stage's queue with the value in w5, once the publishes that its acquire forces are done. -/
def Obligations.Futures : Prop :=
  (∀ (s : State) (f : SyncF), let off := (s.sc f.m.x).toInt + f.m.off.toInt
    let held : State → Prop := fun t => OnlyCore s.cur s t ∧ (t.core s.cur).r = s.me.r ∧
      (t.core s.cur).q.pcOf s.ctx = s.me.q.pcOf s.ctx ∧ ((t.core s.cur).q.holdOf s.ctx).k = .slice
    (off % 64 = 0 → ∀ u pas, s.check (s.tk f.m.k) off 64 (rW ||| rA) = .pass u pas →
      WordResult (.futPut f) (syncSrcs f true) s (fun t => held t ∧ ∃ a : Acc, (t.core s.cur).acc = s.me.acc ++ [a] ∧ a.op = .futPut ∧
        a.chk = 1 ∧ a.pas = pas ∧ a.a = s.sc f.d ∧ a.id = s.me.q.nid) ∧
      ((s.sc f.d).toNat < 2 ^ 52 → ((s.sc f.d).toNat / 2 ^ 32 ≠ 0 → (s.sc f.d).toNat % 2 ^ 32 ≠ 0) →
        WordResult (.futClr f) (syncSrcs f true) s (fun t => held t ∧ ∃ a : Acc, (t.core s.cur).acc = s.me.acc ++ [a] ∧ a.op = .futClr ∧
          a.chk = 1 ∧ a.pas = pas ∧ a.a = s.sc f.d ∧ a.id = s.me.q.nid))) ∧
    (s.hold.k = .slice → (∀ a ∈ s.me.acc, a.id ≠ s.hold.since) → ∀ i ∈ [Instr.futPut f, .futClr f],
      ∃ t, exec i s = .next t ∧ Quiet s t ∧ Passes s t 1)) ∧
  (∀ (s : State) c a, MayLand s c a → (a.op = .futPut ∨ a.op = .futClr) → a.rel = false → a.pas.length = 64 → a.pas.Nodup →
    (∀ pa ∈ a.pas, ∀ d, ¬DirtyAt s d pa) → StashesClean s →
    let f := s.futAt a.pas
    let pane := s.cfg.homePane (a.pas.headD 0)
    let mine : List Parked := (s.waitTable pane).filter (fun k => k.pa == a.pas.headD 0)
    ∃ t, exec (.writeReachesHome c a.id) s = .next t ∧ BytesKept s t a.pas ∧ RegistersKept s t ∧
      (a.op = .futPut → f.full = true → t.futAt a.pas = f ∧ t.releases pane = s.releases pane) ∧
      (a.op = .futPut → f.full = false → t.futAt a.pas = { f with value := a.a, full := true } ∧
        (∀ k ∈ t.waitTable pane, k.pa ≠ a.pas.headD 0) ∧
        ∃ l : List DueRel, t.releases pane = s.releases pane ++ l ∧
          (∀ (i : Nat) (k : Parked), mine[i]? = some k → (l[i]?).map (fun d : DueRel => d.rel) = some (.table k.r k.pa a.a)) ∧
          ∀ i d, l[i]? = some d → d.at' = s.now + i + 1 ∧ d.put = s.tick) ∧
      (a.op = .futClr → f.rcnt ≠ 0 → t.futAt a.pas = { f with value := 0#64, full := false }) ∧
      (a.op = .futClr → f.rcnt = 0 → fld a.a.toNat 32 20 = 0 → 
        t.futAt a.pas = { value := 0#64, full := false, rhead := 0, rcnt := 0, rlen := 0, rbase := a.a.toNat % 2 ^ 32 })) ∧
  (∀ (s : State) (f : SyncF), let off := (s.sc f.m.x).toInt + f.m.off.toInt
    let resume := (s.sc f.d).toNat % 2 ^ 32
    (off % 64 = 0 → resume < s.me.code.ctlLen → WordResult (.futWait f) (syncSrcs f true) s (fun t => OnlyCore s.cur s t ∧
      (t.core s.cur).q.pc = s.me.q.pc ∧ (t.core s.cur).q.holdOf 0 = { k := .fut f s.me.q.wseq false, since := s.me.q.nid } ∧
      (t.core s.cur).sMarks 0 3 = s.me.sMarks 0 3 ++ [s.me.q.nid])) ∧
    (off % 64 ≠ 0 → TrapsBy (.futWait f) (syncSrcs f true) s 1 (minOf (.futWait f)) s.me.q.pc) ∧
    (off % 64 = 0 → s.me.code.ctlLen ≤ resume → TrapsBy (.futWait f) (syncSrcs f true) s 7 resume s.me.q.pc)) ∧
  (∀ (s : State) (f : SyncF) seq room since u pas k, s.ctx = 0 → s.me.q.holdOf 0 = { k := .fut f seq room, since := since } →
    s.quiet s.cur = true → s.me.deliv = [] → s.performed s.cur = true → s.me.partner = none → s.me.task = some k →
    (s.me.c.kstat.getLsbD 4 = false ∨ s.me.c.kstat &&& 7#64 = 0#64) →
    s.check (s.tk f.m.k) ((s.sc f.m.x).toInt + f.m.off.toInt) 64 (rR ||| rA) = .pass u pas → pas.length = 64 →
    s.releaseReady s.cur since (pas.headD 0 / 64) 3 false = true → f.ord.acq = false →
    NoneDirty s → Clean s pas → s.linked pas = true →
    let v := s.futAt pas
    ∀ i ∈ [Instr.futWait f, .futParkRetry s.cur], ∃ t, exec i s = .next t ∧ (∀ pa, t.byte pa = s.byte pa ) ∧
      (v.full = true → (t.core s.cur).rdS 0 3 = v.value ∧ since ∉ (t.core s.cur).sMarks 0 3 ∧
        (t.core s.cur).q.pc = (s.sc f.d).toNat % 2 ^ 32 ∧ (t.core s.cur).q.holdOf 0 = {}) ∧
      (v.full = false → s.tableUsed (s.cfg.homePane (pas.headD 0)) < 512 → (t.core s.cur).q.st = .idle ∧
        (t.core s.cur).task = none ∧ t.waitTable (s.cfg.homePane (pas.headD 0)) =
          s.waitTable (s.cfg.homePane (pas.headD 0)) ++ [{ r := k.cont ((s.sc f.d).toNat % 2 ^ 32), pa := pas.headD 0 }])) ∧
  (∀ (s : State) pane, (∀ d ∈ s.releases pane, s.now < d.at') → exec (.futReleasePush pane) s = .next s) ∧
  (∀ (s : State) pane (d : DueRel) r pa v rest, s.releases pane = d :: rest → d.rel = .table r pa v → d.at' ≤ s.now →
    (∀ e ∈ rest, e.put ≠ d.put ∨ d.at' < e.at') → s.releaseClear pa = true →
    ∃ t, exec (.futReleasePush pane) s = .next t ∧ t.releases pane = rest ∧
      t = { s with d := t.d, queues := t.queues, msgs := t.msgs } ∧
      ∀ q, (s.launch r.linst).input r.stage = some q → (s.launch r.linst).st = .running →
        ∃ rq : QReq, (t.queue q).arrive = (s.queue q).arrive ++ [rq] ∧ rq.bad = [] ∧ 1024 ≤ rq.core ∧
          rq.op = .push (({ r with w5 := v } : Rec).stamp (s.queue q) r.linst) false)

/-- R237 to R240: a handle goes from FREE to FILLING by `hset`, counts by `harr`, to DRAINING by `hdrain`, to FREE by `hfree` or
once it has drained; every other pairing traps ILLEGAL. A FILLING handle whose counts are both zero at the end of a clock is FULL.
`hwait` goes on when the fill it captured is FULL or DRAINING. `hinfo` reads the handle. -/
def Obligations.BufferHandles : Prop :=
  (∀ (s : State) h a fea, let v := s.me.e.handle h
    let n : Nat := (s.sc a).toNat
    let sets (i : Instr) (l : List Src) (u : Handle) : Prop := WordResult i l s (fun t => OnlyCore s.cur s t ∧ Passes s t 1 ∧
      (t.core s.cur).r = s.me.r ∧ (t.core s.cur).c = s.me.c ∧ (t.core s.cur).e.handle h = u ∧
      ∀ k, k ≠ h → (t.core s.cur).e.handle k = s.me.e.handle k)
    (v.st = 0 → 1 ≤ n → n ≤ 65535 → sets (.hset h a fea) [.s a fea]
      { v with st := 1, cnt := 0#40, arr := n, err := false, fillno := (v.fillno + 1) % 2 ^ 32 }) ∧
    ((v.st ≠ 0 ∨ n = 0 ∨ 65535 < n) → TrapsBy (.hset h a fea) [.s a fea] s 1 0 s.me.q.pc) ∧
    (v.st = 1 → n < 2 ^ 39 → 0 < v.arr → v.cnt.toInt + (n : Int) < 2 ^ 39 → sets (.harr h a fea) [.s a fea]
      { v with cnt := v.cnt + BitVec.ofNat 40 n, arr := v.arr - 1 }) ∧
    (v.st = 1 → n < 2 ^ 39 → v.arr = 0 → sets (.harr h a fea) [.s a fea]
      { v with cnt := v.cnt + BitVec.ofNat 40 n, st := 2, err := true }) ∧
    ((v.st ≠ 1 ∨ 2 ^ 39 ≤ n) → TrapsBy (.harr h a fea) [.s a fea] s 1 1 s.me.q.pc) ∧
    (v.st = 2 → sets (.hdrain h) [] { v with st := 3 }) ∧ (v.st ≠ 2 → TrapsBy (.hdrain h) [] s 1 3 s.me.q.pc) ∧
    (v.st = 2 → s.me.e.names h = false → s.readers s.cur h = false → sets (.hfree h) [] { v with st := 0 }) ∧
    (v.st = 0 → WordResult (.hfree h) [] s (fun t => Quiet s t ∧ Passes s t 1)) ∧
    (v.st ≠ 0 → v.st ≠ 2 → TrapsBy (.hfree h) [] s 1 4 s.me.q.pc) ∧
    ((v.st = 2) → SeeingResult (.hwait h) [] s (fun t => Quiet s t ∧ Passes s t 1)) ∧
    (v.st ≠ 2 → WordResult (.hwait h) [] s (fun t => Quiet s t ∧ Goes s t (s.me.q.pcOf s.ctx) ∧
      (t.core s.cur).q.holdOf s.ctx =
        { k := .reader h (if v.st = 1 then v.fillno else (v.fillno + 1) % 2 ^ 32), since := s.me.q.nid }))) ∧
  (∀ (s : State) d h, ScalarResult (.hinfo d h) [] d 1 s (fun w =>
    (s.me.e.handle h).st < 4 → (s.me.e.handle h).arr < 2 ^ 16 →
      (w >>> 62).toNat = (s.me.e.handle h).st ∧ w.getLsbD 61 = (s.me.e.handle h).err ∧
      w.toNat / 2 ^ 40 % 2 ^ 16 = (s.me.e.handle h).arr ∧ w.setWidth 40 = (s.me.e.handle h).cnt)) ∧
  (∀ (s : State) c h, ((s.core c).e.handle h).st = 3 → s.readers c h = false → (s.core c).e.names h = false →
    ∃ t, exec (.handleDrainFree c h) s = .next t ∧ OnlyCore c s t ∧ (t.core c).r = (s.core c).r ∧
      (t.core c).e.handle h = { (s.core c).e.handle h with st := 0 } ∧
      ∀ k, k ≠ h → (t.core c).e.handle k = (s.core c).e.handle k) ∧
  (∀ (s : State) c h, let v := (s.core c).e.handle h
    ((s.clockEnds).core c).e.handle h = if v.st = 1 ∧ v.cnt = 0#40 ∧ v.arr = 0 then { v with st := 2 } else v)

/-! ### Queues -/

/-- R220, R221, R227, R231 to R236: the queue words. `qpush` sends the record its registers and token make, stamped, to a queue of the
running launch and holds its context; `qpop` and `qtry` mark their destinations empty and go on; a request reaches its queue after its
trip; `qinfo` reads a queue; `qbind`
reconfigures an empty OPEN one. A word that names no queue, or a queue the task may not use, traps QUEUE. -/
def Obligations.QueueWords : Prop :=
  ∀ (s : State) (o : AluR) (qn : Nat),
    let w := s.sc o.a
    let g := fun i => s.sc (o.b + i)
    let t := s.tk o.c
    let n := s.me.q.nid
    let pc := s.me.q.pcOf s.ctx
    let q := s.queue qn
    let reaches := s.now + if qn / 256 = s.cfg.paneOf s.cur then 2 else 40 + 8 * s.cfg.distance (s.cfg.paneOf s.cur) (qn / 256)
    let pushSrcs : List Src := [.s o.a o.fea] ++ ([0, 1, 4, 5, 6, 7].map (fun i => Src.s (o.b + i) o.feb)) ++ [.k o.c false]
    let asks (i : Instr) (st : Option Nat) (op : QOp) : Prop := WordResult i [.s o.a o.fea] s (fun u =>
      Passes s u 1 ∧ (u.queue qn) = { q with arrive := q.arrive ++ [{ core := s.cur, ctx := s.ctx, id := n, op := op, clk := reaches, pc := pc }] } ∧
      (∀ k, k ≠ qn → u.queue k = s.queue k) ∧ u = { s with cores := u.cores, queues := u.queues } ∧
      (∀ c, c ≠ s.cur → u.core c = s.core c) ∧
      (u.core s.cur).r = { s.me.r with sm := (u.core s.cur).r.sm, km := (u.core s.cur).r.km } ∧
      (∀ r, r < 64 → r ≠ 0 → (u.core s.cur).sMarks s.ctx r = s.me.sMarks s.ctx r ++
        (if o.d ≤ r ∧ r < o.d + 8 then [n] else []) ++ (if st = some r then [n] else [])) ∧
      (o.c ≠ 0 → (u.core s.cur).kMarks s.ctx o.c = s.me.kMarks s.ctx o.c ++ [n]))
    (s.qname s.cur w = some qn → s.me.partner = none → (g 0).toNat < 2 ^ 60 → s.owns qn = true →
      WordResult (.qpush o) pushSrcs s (fun u => ∃ r : Rec,
        u.queue qn = { q with arrive := q.arrive ++ [{ core := s.cur, ctx := s.ctx, id := n, op := .push r false, clk := reaches, pc := pc }] } ∧
        (∀ k, k ≠ qn → u.queue k = s.queue k) ∧ u = { s with cores := u.cores, queues := u.queues } ∧ RegistersKept s u ∧
        (u.core s.cur).q.pcOf s.ctx = s.me.q.pcOf s.ctx ∧ (u.core s.cur).q.holdOf s.ctx = { k := .queue n, since := n } ∧
        r.w1 = g 1 ∧ r.w2 = t.word ∧ r.w3 = BitVec.ofNat 64 (t.base + t.len * 2 ^ 32) ∧ r.w4 = g 4 ∧ r.w5 = g 5 ∧ r.w6 = g 6 ∧
        r.w7.setWidth 32 = (g 7).setWidth 32 ∧ r.linst = s.linstOf s.cur % 2 ^ 32 ∧ r.pri = q.pri % 4 ∧
        r.entry = (g 0).toNat % 2 ^ 32 ∧ r.image = (g 0).toNat / 2 ^ 32 % 2 ^ 16 ∧ r.redundant = (g 0).getLsbD 58 ∧
        r.stage = if q.stage = 0 then (g 0).toNat / 2 ^ 48 % 2 ^ 8 else (q.stage - 1) % 2 ^ 8)) ∧
    ((s.qname s.cur w = none ∨ 2 ^ 60 ≤ (g 0).toNat ∨ (s.qname s.cur w = some qn ∧ s.owns qn = false)) →
      QueueTraps (.qpush o) pushSrcs s w) ∧
    (s.qname s.cur w = some qn → s.owns qn = true → qn / 256 = s.cfg.paneOf s.cur →
      asks (.qpop o) none (.pop o.d o.c) ∧ asks (.qtry o) (some o.b) (.tryPop o.d o.c o.b)) ∧
    ((s.qname s.cur w = none ∨ (s.qname s.cur w = some qn ∧ (s.owns qn = false ∨ qn / 256 ≠ s.cfg.paneOf s.cur))) →
      QueueTraps (.qpop o) [.s o.a o.fea] s w ∧ QueueTraps (.qtry o) [.s o.a o.fea] s w) ∧
    (s.qname s.cur w = some qn → ScalarResult (.qinfo o) [.s o.a o.fea] o.d 1 s (fun v =>
      (q.st = 0 → v = 0#64) ∧
      (q.st ≠ 0 → q.st < 4 → q.pri < 4 → q.depth < 64 → q.items.length ≤ q.depth → q.rmeta.length < 2 ^ 30 →
        (recordsOf q).countP Option.isNone < 16 →
        v.toNat / 2 ^ 56 = q.st ∧ v.toNat / 2 ^ 47 % 4 = q.pri ∧ v.getLsbD 46 = q.spill ∧ v.toNat / 2 ^ 40 % 64 = q.depth ∧
        v.toNat / 2 ^ 34 % 64 = (recordsOf q).countP Option.isSome ∧
        v.toNat / 2 ^ 30 % 16 = (recordsOf q).countP Option.isNone ∧ v.toNat % 2 ^ 30 = q.rmeta.length ∧
        v.toNat / 2 ^ 49 % 128 = if q.rmeta = [] then 64 * q.items.length / max q.depth 1 else 64))) ∧
    (s.qname s.cur w = none → QueueTraps (.qinfo o) [.s o.a o.fea] s w) ∧
    (let cfg := (s.sc o.b).toNat
     let fits := qn / 256 = s.cfg.paneOf s.cur ∧ s.owns qn = true ∧ q.st = 1 ∧ q.items = [] ∧ q.rmeta = [] ∧ q.stalled = [] ∧
       cfg < 2 ^ 9 ∧ 1 ≤ cfg % 64 ∧ cfg % 64 ≤ 32
     let binds (ring : Token) : Prop := WordResult (.qbind o) [.s o.a o.fea, .s o.b o.feb, .k o.c false] s (fun u =>
       u = { s with cores := u.cores, queues := u.queues } ∧ RegistersKept s u ∧ Passes s u 1 ∧
       u.queue qn = { q with spill := (s.sc o.b).getLsbD 6, depth := cfg % 64, pri := cfg / 2 ^ 7 % 4, ring := ring, rhead := 0 } ∧
       ∀ k, k ≠ qn → u.queue k = s.queue k)
     s.qname s.cur w = some qn →
     (fits → (s.sc o.b).getLsbD 6 = false → o.c = 0 → binds {}) ∧
     (fits → (s.sc o.b).getLsbD 6 = false → o.c ≠ 0 → QueueTraps (.qbind o) [.s o.a o.fea, .s o.b o.feb, .k o.c false] s w) ∧
     (fits → (s.sc o.b).getLsbD 6 = true → t.entry ≠ 0 → (s.ent t.entry).st = .live → (s.ent t.entry).gen = t.gen → 1 ≤ t.len →
        t.len < 2 ^ 30 → t.rights &&& 0xC#4 = 0xC#4 → binds t) ∧
     (fits → (s.sc o.b).getLsbD 6 = true → (t.entry = 0 ∨ ((s.ent t.entry).st = .live ∧ ((s.ent t.entry).gen ≠ t.gen ∨ t.len = 0 ∨
        2 ^ 30 ≤ t.len ∨ t.rights &&& 0xC#4 ≠ 0xC#4))) →
        QueueTraps (.qbind o) [.s o.a o.fea, .s o.b o.feb, .k o.c false] s w) ∧
     (¬fits → QueueTraps (.qbind o) [.s o.a o.fea, .s o.b o.feb, .k o.c false] s w))

/-- R220, R222 to R229, R232, R272, R347: how a queue resolves one request. A push is stamped and placed behind the records there, in
the ring once the chip is full, or stalls; a FAULTED queue refuses it, and its pusher waits for the QUEUE trap. A pop takes the oldest
record, unless a group's delivery alone may take it, and waits at an empty queue, where `qtry` reports 0. Records of the ring move to
reserved slots in order. A head that its launch's range cannot serve fails the launch. A request that has not reached the queue stays
on its way (notes/assumptions/44.md), and a queue resolves once in a clock. -/
def Obligations.QueuesResolve : Prop :=
  (∀ (s : State) pane slot (r : QReq) (rc : Rec) initial,
    let qn := pane * 256 + slot
    let q := s.queue qn
    q.doneAt ≠ s.now + 1 → q.arrive = [r] → r.op = .push rc initial → q.pops = [] → q.stalled = [] → r.clk ≤ s.now → s.pushReady r = true → r.core < 1024 →
    (s.core r.core).partner = none → CanServe s qn → ((s.core r.core).q.st ≠ .ending ∨ (s.launch rc.linst).st = .running) →
    let go : State → Prop := fun t => Housekeeping s t ∧ ((s.core r.core).q.holdOf r.ctx = { k := .queue r.id, since := r.id } →
      (s.core r.core).q.st ≠ .ending → GoneOn s t r.core r.ctx)
    let stamped := rc.stamp q rc.linst
    (q.st = 1 → q.rmeta = [] → q.items.length < q.depth → ∃ t, exec (.queueResolve pane slot) s = .next t ∧ go t ∧
      recordsOf (t.queue qn) = recordsOf q ++ [some stamped] ∧ (t.queue qn).arrive = [] ∧ (t.queue qn).stalled = []) ∧
    (q.st = 1 → q.rmeta = [] → q.depth ≤ q.items.length → q.spill = false → ∃ t, exec (.queueResolve pane slot) s = .next t ∧
      Housekeeping s t ∧ recordsOf (t.queue qn) = recordsOf q ∧ (t.queue qn).arrive = [] ∧ (t.queue qn).stalled = [r]) ∧
    (q.st = 1 → q.rmeta = [] → q.depth ≤ q.items.length → q.spill = true → ∀ u pas, 0 < q.ring.len → pas.length = 64 → pas.Nodup →
      NoneDirty s → s.linked pas = true → s.check q.ring (64 * (q.rhead % max q.ring.len 1) : Nat) 64 rW = .pass u pas →
      (∀ j, QItem.refill (q.rhead % max q.ring.len 1) j ∉ q.items) →
      ∃ t, exec (.queueResolve pane slot) s = .next t ∧ RegistersKept s t ∧ recordsOf (t.queue qn) = recordsOf q ∧
        (t.queue qn).rmeta = [initial] ∧ (t.queue qn).stalled = [] ∧ (∀ p ∈ pas.zip stamped.bytes, t.byte p.1 = p.2) ∧
        ∀ pa, pa ∉ pas → t.byte pa = s.byte pa) ∧
    (q.st = 2 → q.rmeta = [] → ∃ t, exec (.queueResolve pane slot) s = .next t ∧ Housekeeping s t ∧
      recordsOf (t.queue qn) = recordsOf q ∧ (t.core r.core).q = { (s.core r.core).q with hold := (t.core r.core).q.hold } ∧
      ((s.core r.core).q.holdOf r.ctx = { k := .queue r.id, since := r.id } → (t.core r.core).q.holdOf r.ctx = { k := .queue r.id, since := r.id }) ∧
      ∃ d : Deliv, (t.core r.core).deliv = (s.core r.core).deliv ++ [d] ∧ d.push = true ∧ d.id = r.id ∧ d.ctx = r.ctx ∧ d.q = qn)) ∧
  (∀ (s : State) pane slot (r : QReq) d k, let qn := pane * 256 + slot
    let q := s.queue qn
    q.doneAt ≠ s.now + 1 → q.arrive = [r] → q.pops = [] → q.stalled = [] → q.rmeta = [] → r.clk ≤ s.now → s.popBlocked qn r = false → CanServe s qn →
    (r.op = .pop d k ∨ ∃ b, r.op = .tryPop d k b) →
    (∀ (rc : Rec) ini since bad rest, q.items = .here rc ini since bad :: rest →
      let grouped := q.stage ≠ 0 ∧ (s.launch rc.linst).st = .running ∧ (s.launch rc.linst).grouped rc ini = true
      (¬grouped → ∃ (t : State) (v : Deliv), exec (.queueResolve pane slot) s = .next t ∧ RegistersKept s t ∧
        (∀ pa, t.byte pa = s.byte pa) ∧ recordsOf (t.queue qn) = recordsOf { q with items := rest } ∧ (t.queue qn).arrive = [] ∧
        (t.queue qn).pops = [] ∧ (t.core r.core).deliv = (s.core r.core).deliv ++ [v] ∧ v.code = 1 ∧ v.r = rc ∧ v.bad = bad ∧
        v.id = r.id ∧ v.ctx = r.ctx ∧ v.d = d ∧ v.k = k ∧ v.q = qn) ∧
      (grouped → r.op = .pop d k → ∃ t, exec (.queueResolve pane slot) s = .next t ∧ RegistersKept s t ∧
        recordsOf (t.queue qn) = recordsOf q ∧ (t.queue qn).pops = [r] ∧ t.cores = s.cores) ∧
      (grouped → ∀ b, r.op = .tryPop d k b → ∃ (t : State) (v : Deliv), exec (.queueResolve pane slot) s = .next t ∧ RegistersKept s t ∧
        recordsOf (t.queue qn) = recordsOf q ∧ (t.core r.core).deliv = (s.core r.core).deliv ++ [v] ∧
        v.code = (if q.st = 2 then 2 else 0) ∧ v.st = some b ∧ v.id = r.id)) ∧
    (q.items = [] → q.st = 1 → r.op = .pop d k → ∃ t, exec (.queueResolve pane slot) s = .next t ∧ RegistersKept s t ∧
      (∀ pa, t.byte pa = s.byte pa) ∧ t.queue qn = { q with arrive := [], pops := [r], doneAt := s.now + 1 }) ∧
    (q.items = [] → ∀ b, r.op = .tryPop d k b → ∃ (t : State) (v : Deliv), exec (.queueResolve pane slot) s = .next t ∧ RegistersKept s t ∧
      t.queue qn = { q with arrive := [], doneAt := s.now + 1 } ∧ (t.core r.core).deliv = (s.core r.core).deliv ++ [v] ∧
      v.code = (if q.st = 2 then 2 else 0) ∧ v.st = some b ∧ v.id = r.id)) ∧
  (∀ (s : State) pane slot initial rest, let qn := pane * 256 + slot
    let q := s.queue qn
    q.doneAt ≠ s.now + 1 → q.arrive = [] → q.pops = [] → q.stalled = [] → q.rmeta = initial :: rest → q.items.length < q.depth → CanServe s qn →
    (recordsOf q).countP Option.isNone < 8 →
    ∃ t l, exec (.queueResolve pane slot) s = .next t ∧ RegistersKept s t ∧ (∀ pa, t.byte pa = s.byte pa) ∧
      recordsOf (t.queue qn) = recordsOf q ++ none :: l ∧ (∀ x ∈ l, x = none) ∧
      (t.queue qn).items[q.items.length]? = some (.refill q.rhead initial) ∧
      (t.queue qn).rmeta.length + l.length = rest.length) ∧
  (∀ (s : State) pane slot, let qn := pane * 256 + slot
    let q := s.queue qn
    q.doneAt ≠ s.now + 1 → (∀ r ∈ q.arrive, s.now < r.clk) → q.pops = [] → q.stalled = [] → q.rmeta = [] → CanServe s qn →
    ∃ t, exec (.queueResolve pane slot) s = .next t ∧ (t.queue qn).arrive = q.arrive ∧ recordsOf (t.queue qn) = recordsOf q ∧
      t.cores = s.cores) ∧
  (∀ (s : State) pane slot (rc : Rec) rest, let qn := pane * 256 + slot
    let q := s.queue qn
    q.doneAt ≠ s.now + 1 → q.arrive = [] → q.pops = [] → q.stalled = [] → q.rmeta = [] → q.stage ≠ 0 → recordsOf q = some rc :: rest →
    (s.launch rc.linst).st = .running → s.canServe (s.launch rc.linst) rc.redundant = false →
    ∃ t, exec (.queueResolve pane slot) s = .next t ∧ RegistersKept s t ∧ recordsOf (t.queue qn) = rest ∧
      (t.launch rc.linst).st = .failing ∧ (t.launch rc.linst).result = 0x11) ∧
  (∀ (s : State) pane slot, (s.queue (pane * 256 + slot)).doneAt = s.now + 1 → exec (.queueResolve pane slot) s = .next s)

/-- R213, R223, R225, R227, R233, R234: a refill in flight lands in its slot or, where its read fails, faults the queue; which of
several lands is open, as their trips differ (notes/assumptions/44.md). The oldest
record on its way is written: eight registers and the frame token, checked as on restore, or zeros, and the status of a `qtry`;
a QUEUE trap on its way fills nothing, ends a push, and waits for the main context. -/
def Obligations.RecordsArrive : Prop :=
  (∀ (s : State) pane slot, let qn := pane * 256 + slot
    let q := s.queue qn
    let at' (pos : Nat) (a b : List QItem) : Prop := ∃ j, q.items = a ++ .refill pos j :: b ∧ ∀ i, .refill pos i ∉ a
    (∃ pos j, QItem.refill pos j ∈ q.items) →
    ((∀ pos j, .refill pos j ∈ q.items → ∃ u pas, s.check q.ring (64 * pos : Nat) 64 rR = .pass u pas ∧ pas.length = 64 ∧ Clean s pas ∧
        s.linked pas = true) →
      ∃ t pos a b u pas, at' pos a b ∧ s.check q.ring (64 * pos : Nat) 64 rR = .pass u pas ∧
        exec (.refillLand pane slot) s = .next t ∧ RegistersKept s t ∧ (∀ pa, t.byte pa = s.byte pa) ∧
        recordsOf (t.queue qn) = recordsOf { q with items := a } ++ some (Rec.ofBytes (pas.map s.byte)) :: recordsOf { q with items := b }) ∧
    (q.st ≠ 2 → (∀ pos j, .refill pos j ∈ q.items → ∃ k e, s.check q.ring (64 * pos : Nat) 64 rR = .fail k e) →
      ∃ t pos a b, at' pos a b ∧ exec (.refillLand pane slot) s = .next t ∧ RegistersKept s t ∧ (∀ pa, t.byte pa = s.byte pa) ∧
        (t.queue qn).st = 2 ∧ (t.queue qn).rmeta = [] ∧
        recordsOf (t.queue qn) = recordsOf { q with items := a } ++ recordsOf { q with items := b } ∧
        ∃ j : JEntry, t.io.jpend = s.io.jpend ++ [j] ∧ j.type = 0x31 ∧ j.linst = q.owner ∧ j.detail = qn)) ∧
  (∀ (s : State) c d rest, (s.core c).deliv = d :: rest → d.push = false → (d.st ≠ none ∨ d.code ≠ 2) → d.bad = [] → d.d ≠ 0 →
    d.d + 8 ≤ 64 → d.k < 32 → d.ctx < 4 → (∀ r, d.st = some r → r < 64 ∧ (r < d.d ∨ d.d + 8 ≤ r)) →
    let f := d.r.frame
    let words : List Word := if d.code = 1 then [d.r.w0, d.r.w1, 0#64, 0#64, d.r.w4, d.r.w5, d.r.w6, d.r.w7] else List.replicate 8 0#64
    (f.entry = 0 ∨ ((s.ent f.entry).st = .live ∧ (s.ent f.entry).gen = f.gen)) →
    ∃ t, exec (.recordDelivery c) s = .next t ∧ (∀ pa, t.byte pa = s.byte pa) ∧ (∀ e, e ≠ c → t.core e = s.core e) ∧
      (∀ i, i < 8 → (t.core c).rdS d.ctx (d.d + i) = words.getD i 0#64 ∧ d.id ∉ (t.core c).sMarks d.ctx (d.d + i)) ∧
      (d.k ≠ 0 → (t.core c).rdK d.ctx d.k = (if d.code = 1 then f else {}) ∧ d.id ∉ (t.core c).kMarks d.ctx d.k) ∧
      (d.code = 1 → d.k ≠ 0 → f.entry ≠ 0 → c < 1024 → (t.ent f.entry).holders.getLsbD c = true) ∧ (d.k = 0 → t.pontil = s.pontil) ∧
      (∀ r, d.st = some r → r ≠ 0 → (t.core c).rdS d.ctx r = BitVec.ofNat 64 d.code ∧ d.id ∉ (t.core c).sMarks d.ctx r) ∧
      ∀ k r, r < 64 → ¬(k = d.ctx ∧ (d.d ≤ r ∧ r < d.d + 8 ∨ d.st = some r)) → (t.core c).rdS k r = (s.core c).rdS k r) ∧
  (∀ (s : State) c d rest, (s.core c).deliv = d :: rest → (d.push = true ∨ (d.st = none ∧ d.code = 2)) → d.ctx = 0 →
    ∃ t : State, exec (.queueFaultTrap c 0) s = .next t ∧ OnlyCore c s t ∧ (∀ k r, (t.core c).rdS k r = (s.core c).rdS k r) ∧
      (∀ k r, (t.core c).rdK k r = (s.core c).rdK k r) ∧
      Raises s.now (s.core c) (t.core c) (fun l => l.cause = 13 ∧ l.clk = d.id ∧ l.cont = false ∧
        l.info = BitVec.ofNat 64 (3 * 2 ^ 58 + d.q % 2 ^ 32)) ∧
      (∀ i, i < 8 → d.push = false → d.d + i < 64 → d.id ∉ (t.core c).sMarks 0 (d.d + i)) ∧
      (d.push = true → (s.core c).q.holdOf 0 = { k := .queue d.id, since := d.id } → (s.core c).q.st ≠ .ending → GoneOn s t c 0))

/-! ### Copies -/

/-- R241 to R243, R247, R248: the copy words. `cpy.lvl` sets a level; `cpy.go` captures its operands and joins the queue, or traps;
`cpy.cancel` removes the commands of a handle and fills it with ERR; `cpy.stat` reads and clears a handle's fault record. -/
def Obligations.CopyWords : Prop :=
  (∀ (s : State) lvl (o : AluR), let n := (s.sc o.a).toNat
    let srcs : List Src := [.s o.a o.fea, .s o.b o.feb, .s o.c o.fec]
    (∀ k ∈ s.me.e.copies, k.f.nlvl ≤ lvl) →
    (n < 2 ^ 32 → WordResult (.cpyLvl lvl o) srcs s (fun t => OnlyCore s.cur s t ∧ Passes s t 1 ∧
      (t.core s.cur).r = s.me.r ∧ (t.core s.cur).c = s.me.c ∧ (t.core s.cur).e.copies = s.me.e.copies ∧
      Sparse.get {} (t.core s.cur).e.lvl lvl = { count := n, ss := s.sc o.b, ds := s.sc o.c } ∧
      ∀ k, k ≠ lvl → Sparse.get {} (t.core s.cur).e.lvl k = Sparse.get {} s.me.e.lvl k)) ∧
    (2 ^ 32 ≤ n → TrapsBy (.cpyLvl lvl o) srcs s 4 (n / 2 ^ 32) s.me.q.pc)) ∧
  (∀ (s : State) (f : CpyF), let n := (s.sc f.c).toNat
    let srcs : List Src := [.s f.a f.fea, .s f.b f.feb, .s f.c f.fec, .k f.sk false, .k f.dk false]
    let legal := n ≠ 0 ∧ n < 2 ^ 32 ∧ (s.me.e.handle f.h).st = 1
    s.me.e.copies.length < 16 →
    (legal → WordResult (.cpyGo f) srcs s (fun t => OnlyCore s.cur s t ∧ Passes s t 2 ∧ (t.core s.cur).r = s.me.r ∧
      (t.core s.cur).c = s.me.c ∧ (t.core s.cur).e.hnd = s.me.e.hnd ∧ (t.core s.cur).e.lvl = s.me.e.lvl ∧
      ∃ k : CopyCmd, (t.core s.cur).e.copies = s.me.e.copies ++ [k] ∧ k.f = f ∧ k.a = s.sc f.a ∧ k.b = s.sc f.b ∧ k.c = s.sc f.c ∧
        k.st = s.tk f.sk ∧ k.dt = s.tk f.dk ∧ k.id = s.me.q.nid ∧ k.ctx = s.ctx ∧ k.started = false ∧ k.emitted = false ∧
        k.cancelled = false ∧ k.fl = [] ∧ k.code = 0)) ∧
    (¬legal → TrapsBy (.cpyGo f) srcs s 1 (minOf (.cpyGo f)) s.me.q.pc)) ∧
  (∀ (s : State) h, (∀ k ∈ s.me.e.copies, k.f.h = h → k.fl = [] ∧ k.cancelled = false) → let v := s.me.e.handle h
    WordResult (.cpyCancel h) [] s (fun t => OnlyCore s.cur s t ∧ Passes s t 1 ∧ (t.core s.cur).r = s.me.r ∧
      (∀ k, k ∈ (t.core s.cur).e.copies ↔ k ∈ s.me.e.copies ∧ k.f.h ≠ h ∧ (k.cancelled = false ∨ k.fl ≠ [])) ∧
      (∀ g, g ≠ h → (t.core s.cur).e.handle g = s.me.e.handle g) ∧
      (t.core s.cur).e.handle h = if ∃ k ∈ s.me.e.copies, k.f.h = h then
        { v with st := if v.st = 1 then 2 else v.st, err := v.err || v.st == 1, code := if v.code = 0 then 3 else v.code,
                 entry := if v.code = 0 then 0 else v.entry } else v)) ∧
  (∀ (s : State) h, (∃ k ∈ s.me.e.copies, k.f.h = h ∧ k.fl ≠ []) → WordResult (.cpyCancel h) [] s (fun t => OnlyCore s.cur s t ∧
    (t.core s.cur).q.pcOf s.ctx = s.me.q.pcOf s.ctx ∧ (t.core s.cur).q.holdOf s.ctx = { k := .drain, since := s.me.q.nid } ∧
    ∀ k ∈ (t.core s.cur).e.copies, k.f.h = h → k.cancelled = true ∧ k.fl ≠ [])) ∧
  (∀ (s : State) d h, let v := s.me.e.handle h
    WordResult (.cpyStat d h) [] s (fun t => OnlyCore s.cur s t ∧ Passes s t 1 ∧
      ScalarsKept s.me (t.core s.cur) s.ctx [d] ∧ (t.core s.cur).sMarks s.ctx d = [] ∧
      (t.core s.cur).rdS s.ctx d = (if d = 0 then 0#64
        else BitVec.ofNat 64 (s.me.e.copies.countP (fun k => k.f.h == h) * 2 ^ 32 + v.entry * 2 ^ 12 + v.code)) ∧
      (t.core s.cur).e.handle h = { v with code := 0, entry := 0 } ∧
      (∀ g, g ≠ h → (t.core s.cur).e.handle g = s.me.e.handle g) ∧ (t.core s.cur).e.copies = s.me.e.copies))

/-- R238, R244 to R247: the events of a copy. The oldest command starts once what its context issued before is done; a level with
count 0 emits nothing. Copies are emitted by the nest, level 0 fastest, up to eight in flight. A copy's source and destination are cut
into blocks of at most 64 bytes: each is read and written alone, one that fails its check reads as zeros and sets ERR and the fault
record, and bytes go past the stash to their homes. The oldest copy, all its blocks written, subtracts its length from CNT, in a
redundant pair once its writes have matched the partner's. A finished command leaves the queue, and with NTF a DORMANT handler starts
with the handle and the bytes moved. Blocks go in any order, a block's write after the reads it takes its bytes from
(notes/assumptions/45.md), and a start event before its time does nothing (notes/assumptions/9.md). -/
def Obligations.CopiesRun : Prop :=
  ∀ (s : State) c k rest, (s.core c).e.copies = k :: rest → (∀ j ∈ rest, j.id ≠ k.id) →
    let x := s.core c
    let v := x.e.handle k.f.h
    let lv := (List.range k.f.nlvl).map (fun l => Sparse.get {} x.e.lvl l)
    let src (idx : List Nat) : Int := nestOff (if k.f.sf then (k.a.toNat : Int) else k.a.toInt) idx (lv.map (fun l => l.ss))
    let dst (idx : List Nat) : Int := nestOff (if k.f.df = 0 then k.b.toInt else (k.b.toNat : Int)) idx (lv.map (fun l => l.ds))
    (k.started = false → k.cancelled = false → x.q.st ≠ .stopping → s.engFree c k.ctx k.id k.wseq = true →
      ∃ t, exec (.copyCommandStart c) s = .next t ∧ OnlyCore c s t ∧ (t.core c).r = x.r ∧
        ((∃ l ∈ lv, l.count = 0) → HeadCopy s t c { k with started := true, emitted := true }) ∧
        ((∀ l ∈ lv, l.count ≠ 0) → HeadCopy s t c { k with started := true, next := List.replicate k.f.nlvl 0 })) ∧
    (∀ a ∈ x.acc, a.ctx = k.ctx → a.id < k.id → a.op ≠ .vstore → k.started = false →
      exec (.copyCommandStart c) s = .next s) ∧
    (k.started = true → k.emitted = false → k.fl = [] → x.q.st ≠ .stopping → k.next.length = k.f.nlvl →
      (∀ p ∈ lv.zip k.next, p.2 < p.1.count) →
      ∃ t j, exec (.copyEmit c) s = .next t ∧ OnlyCore c s t ∧ (t.core c).r = x.r ∧ HeadCopy s t c j ∧
        j.fl = [{ src := src k.next, dst := dst k.next }] ∧
        (nestPos lv k.next + 1 < nestSize lv → j = { k with next := j.next, fl := j.fl } ∧ j.next.length = k.f.nlvl ∧
          nestPos lv j.next = nestPos lv k.next + 1 ∧ ∀ p ∈ lv.zip j.next, p.2 < p.1.count) ∧
        (nestPos lv k.next + 1 = nestSize lv → j = { k with emitted := true, fl := j.fl })) ∧
    (8 ≤ k.fl.length → ∃ t j, exec (.copyEmit c) s = .next t ∧ HeadCopy s t c j ∧ j.fl.length = k.fl.length) ∧
    (∀ f, (k.f.sf = false → ((k.srcBlocks s.cfg f).map Prod.fst).sum = k.c.toNat ∧ ∀ p ∈ k.srcBlocks s.cfg f, p.1 ≤ 64) ∧
      (k.f.df = 0 → ((k.dstBlocks s.cfg f).map Prod.fst).sum = k.c.toNat ∧ ∀ p ∈ k.dstBlocks s.cfg f, p.1 ≤ 64)) ∧
    (∀ f, k.started = true → k.emitted = true → k.fl = [f] →
      let blocks := k.srcBlocks s.cfg f
      let unread (j : Nat) (p : Nat × Place) : Prop := blocks[j]? = some p ∧ ∀ q ∈ f.got, q.n ≠ j
      (∃ j p, unread j p) →
      ((∀ j p, unread j p → ∃ u pas, s.checkBlock k.st rR p = .pass u pas ∧ u.kind ≠ 2 ∧ Clean s pas ∧ s.linked pas = true ∧
          (k.f.ord.acq = true → k.acqd = false → s.acquireReady c k.f.ord.scope pas = true ∧ x.noneOvertaken k.ctx = true)) →
        (∀ ln, (x.line ln).dirty = 0#4) →
        ∃ t j p u pas h, unread j p ∧ s.checkBlock k.st rR p = .pass u pas ∧ exec (.copyEmit c) s = .next t ∧ RegistersKept s t ∧
          (∀ pa, t.byte pa = s.byte pa) ∧ (t.core c).e.hnd = x.e.hnd ∧ HeadCopy s t c { k with
            acqd := true, hb := h
            fl := [{ f with got := f.got ++ [{ n := j, data := pas.map (fun pa => some (s.byte pa)), bad := [] }] }] }) ∧
      ((∀ j p, unread j p → ∃ b e, s.checkBlock k.st rR p = .fail b e) →
        ∃ t j p b e, unread j p ∧ s.checkBlock k.st rR p = .fail b e ∧ exec (.copyEmit c) s = .next t ∧ OnlyCore c s t ∧
          (t.core c).r = x.r ∧ (t.core c).c = (if s.killing k.st e then ((x.kset b e).kset .revoked e).c else (x.kset b e).c) ∧
          HeadCopy s t c { k with fl := [{ f with got := f.got ++ [{ n := j, data := List.replicate p.1 (some 0#8), bad := [] }] }] } ∧
          (t.core c).e.handle k.f.h = { v with
            err := true
            code := if v.code = 0 then (if s.killing k.st e = true ∨ (k.cancelled = true ∧ k.code = 2) then 2 else 1) else v.code
            entry := if v.code = 0 then e else v.entry })) ∧
    (∀ f, k.fl = [f] → x.partner = none → k.f.ord.rel = false →
      let from' := k.srcBlocks s.cfg f
      let into := k.dstBlocks s.cfg f
      let unwritten (j : Nat) (p : Nat × Place) : Prop := into[j]? = some p ∧ j ∉ f.wrote
      (∃ j p, unwritten j p) → f.wrote.length < into.length →
      (∀ n p, from'[n]? = some p → ∃ q, f.got.find? (fun q => q.n == n) = some q ∧ q.data.length = p.1 ∧ q.bad = [] ∧
        ∀ b ∈ q.data, b ≠ none) →
      (∀ j p, unwritten j p → ∃ u pas, s.checkBlock k.dt rW p = .pass u pas ∧ pas.Nodup ∧ pas.length = p.1 ∧ s.linked pas = true ∧
        ∀ pa ∈ pas, s.unreachable pa = false) →
      ∃ t j p u pas, unwritten j p ∧ s.checkBlock k.dt rW p = .pass u pas ∧ exec (.copyComplete c) s = .next t ∧ RegistersKept s t ∧
        BytesKept s t pas ∧ (t.core c).e.hnd = x.e.hnd ∧
        HeadCopy s t c { k with fl := [{ f with wrote := f.wrote ++ [j], unit := max f.unit k.wunit }] } ∧
        let first := ((into.take j).map Prod.fst).sum % k.c.toNat
        ∀ i pa n q, pas[i]? = some pa → n < from'.length → f.got.find? (fun q => q.n == n) = some q →
          let o := ((from'.take n).map Prod.fst).sum
          o ≤ first + i → first + i < o + q.data.length → q.data[first + i - o]? = some (some (t.byte pa))) ∧
    (∀ f fl, k.fl = f :: fl → (k.dstBlocks s.cfg f).length ≤ f.wrote.length → (k.srcBlocks s.cfg f).length ≤ f.got.length →
      (s.unitsHeld c k.wseq f.unit = false →
        ∃ t, exec (.copyComplete c) s = .next t ∧ OnlyCore c s t ∧ (t.core c).r = x.r ∧ HeadCopy s t c { k with fl := fl } ∧
          (v.st = 1 → -(2 ^ 39) ≤ v.cnt.toInt - k.c.toNat →
            (t.core c).e.handle k.f.h = { v with cnt := v.cnt - BitVec.ofNat 40 k.c.toNat }) ∧
          ∀ g, g ≠ k.f.h → (t.core c).e.handle g = x.e.handle g) ∧
      (s.unitsHeld c k.wseq f.unit = true →
        ∃ t, exec (.copyComplete c) s = .next t ∧ ((t.core c).e.handle k.f.h).cnt = v.cnt)) ∧
    (k.started = true → k.emitted = true → k.fl = [] → k.cancelled = false → (∀ l ∈ lv, l.count ≠ 0) →
      (k.f.ntf = false → ∃ t, exec (.copyCommandComplete c) s = .next t ∧ OnlyCore c s t ∧ (t.core c).r = x.r ∧
        (t.core c).q = x.q ∧ (t.core c).e = { x.e with copies := rest }) ∧
      (∀ h, k.f.ntf = true → 1 ≤ h → h ≤ 3 → (x.q.hctx h).st = .dormant → (∀ g, 1 ≤ g → g < h → (x.q.hctx g).st ≠ .dormant) →
        ∃ t, exec (.copyCommandComplete c) s = .next t ∧ OnlyCore c s t ∧ (t.core c).e.copies = rest ∧
          ((t.core c).q.hctx h).st = .running ∧ ((t.core c).q.hctx h).pc = k.f.haddr ∧
          (t.core c).rdS h 1 = BitVec.ofNat 64 k.f.h ∧
          (t.core c).rdS h 2 = BitVec.ofNat 64 (k.c.toNat * nestSize lv) ∧ ScalarsKept x (t.core c) h [1, 2]))

/-! ### Marvers -/

/-- R175, R179, R180, R183 to R192: with room in its core's queue a Marver command issues if its core holds the lease, its task
the accumulators it names, and its operands obey the rules of its description; without the lease it traps LEASE, and otherwise
ILLEGAL. `mx.zalloc` needs no lease. -/
def Obligations.MarverCommandsIssue : Prop :=
  ∀ (s : State),
    let cmd (i : Instr) (l : List Src) (n d : Nat) (vs : List Nat) (a b c : Word) (tok : Token) (zs held : List Nat) (leased : Bool)
        (rule : Prop) : Prop :=
      let room := (s.mxOwn s.cur).length < 4 ∧ ∀ z ∈ zs, s.zallocs s.cur z = false
      let lease := leased = false ∨ (s.marver (s.cfg.marver s.cur)).holder = some s.cur
      let legal := (∀ z ∈ held, s.holdsZ s.cur z = true) ∧ rule
      (room → lease → legal → MxIssues i l n d vs a b c tok s) ∧ (room → ¬lease → TrapsBy i l s 11 (minOf i) s.me.q.pc) ∧
        (room → lease → ¬legal → TrapsBy i l s 1 (minOf i) s.me.q.pc) ∧
        (¬room → WordResult i l s (fun t => t.waited = true ∧ (t.core s.cur).r = s.me.r ∧ (t.core s.cur).q = s.me.q))
    let aligned (f : MxMemF) : Prop := ((s.sc f.b).toInt + f.off.toInt) % 64 = 0
    let columns (w top : Nat) : Prop := w / 2 ^ 52 = 0 ∧ w / 2 ^ 10 % 2 ^ 7 = 0 ∧ w % 2 ^ 10 = 0 ∧ w / 2 ^ 36 % 2 ^ 10 < 768 ∧
      1 ≤ w / 2 ^ 26 % 2 ^ 10 ∧ w / 2 ^ 26 % 2 ^ 10 ≤ s.cfg.ncol ∧ w / 2 ^ 17 % 2 ^ 9 + w / 2 ^ 26 % 2 ^ 10 ≤ top
    (∀ f : MxMemF,
      cmd (.mxCbtab f) (mxSrcs f false false) 2 f.d [] 0#64 (s.sc f.b) 0#64 (s.tk f.k) [] [] true (aligned f) ∧
      cmd (.mxBld f) (mxSrcs f true false) 2 f.d [] (s.sc f.a) (s.sc f.b) 0#64 (s.tk f.k) [] [] true
        (aligned f ∧ columns (s.sc f.a).toNat s.cfg.ncol) ∧
      cmd (.mxBldMirror f) (mxSrcs f true false) 2 f.d [] (s.sc f.a) (s.sc f.b) 0#64 (s.tk f.k) [] [] true
        (aligned f ∧ columns (s.sc f.a).toNat (s.cfg.ncol / 2)) ∧
      cmd (.mxTld f) (mxSrcs f false true) 2 f.d [] 0#64 (s.sc f.b) (s.sc f.c) (s.tk f.k) [] [] true
        (aligned f ∧ (s.sc f.c).toNat % 64 = 0) ∧
      cmd (.mxZld f) (mxSrcs f false false) 2 f.d [] 0#64 (s.sc f.b) 0#64 (s.tk f.k) [f.a] [f.a] true (aligned f) ∧
      cmd (.mxZst f) (mxSrcs f false false) 2 f.d [] 0#64 (s.sc f.b) 0#64 (s.tk f.k) [f.a] [f.a] true (aligned f)) ∧
    (∀ f : MmF, cmd (.mxMm f) [] 2 f.d [] 0#64 0#64 0#64 {} [f.z] [f.z] true
      (f.slot < 768 ∧ 1 ≤ f.nc ∧ f.c0 + f.nc ≤ s.cfg.ncol ∧ 1 ≤ f.klen ∧ f.klen ≤ 1984 ∧
        (f.mir = true → f.c0 / (s.cfg.ncol / 2) = (f.c0 + f.nc - 1) / (s.cfg.ncol / 2)))) ∧
    (∀ d n g sum, cmd (.mxKat d n g sum) [] 2 d [] 0#64 0#64 0#64 {} [] [] true (g < s.cfg.ncol / 32)) ∧
    (∀ d z, cmd (.mxZalloc d z) [] 1 d [] 0#64 0#64 0#64 {} [z] [] false True) ∧
    (∀ d za zb, cmd (.mxZcpy d za zb) [] 1 d [] 0#64 0#64 0#64 {} [za, zb] [za, zb] true True) ∧
    (∀ f : OutF, let w := tyBytes f.ty
      let q := (f.nc * w + 127) / 128
      let fits := f.ty ≤ 10 ∧ f.r0 + f.nr + 1 ≤ 128 ∧ 1 ≤ f.nc ∧ f.nc ≤ 512 ∧ f.c0 + f.nc ≤ 512
      (f.dst = true → cmd (.mxOut f) [.s f.b f.feb, .s f.c f.fec, .k f.k false] 2 f.d [] 0#64 (s.sc f.b) (s.sc f.c) (s.tk f.k)
        [f.z] [f.z] true fits) ∧
      (f.dst = false → f.b = 0 → f.c = 0 → f.k = 0 → cmd (.mxOut f) [] 2 f.d (run f.vn ((f.nr + 1) * q)) 0#64 0#64 0#64 {}
        [f.z] [f.z] true (fits ∧ f.vn + (f.nr + 1) * q ≤ 2048)))

/-- R173, R175 to R177, R190: the lease. `mx.lease` renews a lease nobody else waits for, and otherwise queues its core and waits;
`mx.free` ends it at issue; a free lease goes to the waiting core with the highest PRIO, the first after the last holder among
equals, for LEASELEN leased commands; a wait ends also where its grant has lapsed before the context's turn. Accepting a core's oldest command
counts one down. `mx.zfree` releases its accumulator. That a grant with no core waiting does nothing is the model's choice
(notes/assumptions/9.md). -/
def Obligations.MarverLease : Prop :=
  (∀ (s : State), let mv := s.cfg.marver s.cur
    let m := s.marver mv
    let becomes (i : Instr) (u : Marver) (P : State → Prop) : Prop := WordResult i [] s (fun t =>
      t = { s with cores := t.cores, mx := t.mx } ∧ t.marver mv = u ∧ (∀ k, k ≠ mv → t.marver k = s.marver k) ∧ RegistersKept s t ∧
        P t)
    let waits : State → Prop := fun t => (t.core s.cur).q.pcOf s.ctx = s.me.q.pcOf s.ctx ∧
      (t.core s.cur).q.holdOf s.ctx = { k := .lease, since := s.me.q.nid }
    (m.holder = some s.cur → (∀ w ∈ m.waiters, w = s.cur) → becomes .mxLease { m with left := m.len } (fun t => Passes s t 1)) ∧
    (m.holder = some s.cur → s.cur ∉ m.waiters → m.waiters ≠ [] →
      becomes .mxLease { m with holder := none, last := s.cur, waiters := m.waiters ++ [s.cur] } waits) ∧
    (m.holder ≠ some s.cur → s.cur ∉ m.waiters → becomes .mxLease { m with waiters := m.waiters ++ [s.cur] } waits) ∧
    (m.holder = some s.cur → becomes .mxFree { m with holder := none, last := s.cur } (fun t => Passes s t 1)) ∧
    (m.holder ≠ some s.cur → becomes .mxFree m (fun t => Passes s t 1)) ∧
    (s.hold.k = .lease → m.holder = some s.cur → ∃ t, exec .mxLease s = .next t ∧ Quiet s t ∧ Passes s t 1) ∧
    (s.hold.k = .lease → s.cur ∉ m.waiters → ∃ t, exec .mxLease s = .next t ∧ Quiet s t ∧ Passes s t 1) ∧
    (s.hold.k = .lease → m.holder ≠ some s.cur → s.cur ∈ m.waiters → exec .mxLease s = .next { s with waited := true })) ∧
  (∀ (s : State) mv, let m := s.marver mv
    m.holder = none → m.waiters ≠ [] → (∀ w ∈ m.waiters, (s.core w).c.prio ≤ 3 ∧ w < 1024) → m.last < 1024 →
    ∃ t w, exec (.leaseGrant mv) s = .next t ∧ w ∈ m.waiters ∧
      t = { s with mx := t.mx } ∧ t.marver mv = { m with holder := some w, left := m.len, waiters := m.waiters.filter (· != w) } ∧
      (∀ k, k ≠ mv → t.marver k = s.marver k) ∧
      ∀ v ∈ m.waiters, (s.core v).c.prio ≤ (s.core w).c.prio ∧
        ((s.core v).c.prio = (s.core w).c.prio → (w + 1023 - m.last) % 1024 ≤ (v + 1023 - m.last) % 1024)) ∧
  (∀ (s : State) mv, ((s.marver mv).holder ≠ none ∨ (s.marver mv).waiters = []) → exec (.leaseGrant mv) s = .next s) ∧
  (∀ (s : State) c k rest, (s.core c).e.mxq = k :: rest → (s.core c).q.st ≠ .stopping →
    let mv := s.cfg.marver c
    let m := s.marver mv
    let counts := (∀ d z, k.i ≠ .mxZalloc d z) ∧ (∀ z, k.i ≠ .mxZfree z) ∧ m.holder = some c
    ∃ t, exec (.mxAccept c) s = .next t ∧ t = { s with cores := t.cores, mx := t.mx } ∧ RegistersKept s t ∧
      (t.core c).e.mxq = rest ∧ (t.marver mv).order = m.order ++ [k] ∧
      (counts → 1 < m.left → t.marver mv = { m with order := m.order ++ [k], left := m.left - 1 }) ∧
      (counts → m.left ≤ 1 → t.marver mv = { m with order := m.order ++ [k], holder := none, last := c }) ∧
      (¬counts → t.marver mv = { m with order := m.order ++ [k] })) ∧
  (∀ (s : State) z, let key := s.cfg.marver s.cur * 64 + z
    s.zallocs s.cur z = false →
    (s.holdsZ s.cur z = true → s.mxOwn s.cur = [] → WordResult (.mxZfree z) [] s (fun t =>
      t = { s with cores := t.cores, accOwner := t.accOwner } ∧ Passes s t 1 ∧ RegistersKept s t ∧
      Sparse.get 0 t.accOwner key = 0 ∧ ∀ k, k ≠ key → Sparse.get 0 t.accOwner k = Sparse.get 0 s.accOwner k)) ∧
    (s.holdsZ s.cur z = true → s.mxOwn s.cur ≠ [] → WordResult (.mxZfree z) [] s (fun t =>
      OnlyCore s.cur s t ∧ Passes s t 1 ∧ (t.core s.cur).r = s.me.r ∧ (t.core s.cur).e.zfree = s.me.e.zfree ++ [(s.me.q.nid, z)])) ∧
    (s.holdsZ s.cur z = false → TrapsBy (.mxZfree z) [] s 1 (minOf (.mxZfree z)) s.me.q.pc))

/-- R173, R180 to R182, R185 to R194: the steps of Marver commands. A step that reads or writes memory goes block by block, each of at
most 64 bytes: one that fails its check reads as zeros and sets the status. Where every block passes and carries no mark: `mx.mm` makes
each active element of its eight rows the block dot product of R188 and touches no other element; `mx.zalloc` grants a free
accumulator with zeros; `mx.kat` compares the known-answer sum; `mx.cbtab` takes sixteen entries or none; `mx.zld`, `mx.zst` and
`mx.zcpy` move raw elements, `mx.tld` tile rows and `mx.bld` a slice. An `mx.mm` that waits for its handle holds back every later
command. A done command fills its status and frees its registers. The order of a step's blocks and the kind of the log entry that a failed `mx.kat` leaves
are the model's choices (notes/assumptions/45.md, notes/assumptions/14.md), and so is that an event whose command waits does nothing (notes/assumptions/9.md). -/
def Obligations.MarverSteps : Prop :=
  (∀ (s : State) mv k rest, (s.marver mv).order = k :: rest → k.begun = true → k.done = false → k.cut = false →
    k.step < mxSteps k → (s.core k.core).q.st ≠ .stopping →
    let x := s.core k.core
    let start (f : MxMemF) : Int := k.b.toInt + f.off.toInt
    let band (m c : Nat) : Prop := 8 * k.step ≤ m ∧ m < 8 * k.step + 8 ∧ c < 512
    let others (t : State) (P : Nat → Nat → Nat → Prop) : Prop :=
      ∀ z m c, m < 128 → c < 512 → ¬P z m c → t.acc mv z m c = s.acc mv z m c
    let zmem (f : MxMemF) : List (Int × Nat) := piecesOf (start f + 16384 * k.step) 16384
    let tmem (f : MxMemF) : List (Int × Nat) := (run (8 * k.step) 8).flatMap (fun r => piecesOf (start f + r * (k.c.toNat : Int)) 1024)
    let bmem (f : MxMemF) : List (Int × Nat) := piecesOf (start f + 1024 * k.step) 1024
    let readable (off : Int) (n : Nat) (pas : List Nat) : Prop :=
      (∃ u, s.check k.tok off n rR = .pass u pas ∧ u.kind ≠ 2) ∧ Clean s pas ∧ s.linked pas = true ∧ NoneDirty s ∧
        ∀ o a r, mxMem k = some (o, a, r) → o.acq = true → k.acqd = false →
          s.acquireReady k.core o.scope pas = true ∧ x.noneOvertaken k.ctx = true
    let lastRead (l : List (Int × Nat)) (all : List Byte) : Prop :=
      ∃ off n pas got, k.nblk + 1 = l.length ∧ l[k.nblk]? = some (off, n) ∧ readable off n pas ∧ k.gotBad = [] ∧
        k.got = got.map some ∧ all = got ++ pas.map s.byte
    (∀ l, (∃ f, (k.i = .mxZld f ∧ l = zmem f) ∨ (k.i = .mxTld f ∧ l = tmem f) ∨ ((k.i = .mxBld f ∨ k.i = .mxBldMirror f) ∧ l = bmem f)) →
      (∀ q ∈ l, q.2 ≤ 64) ∧
      ∀ off n, l[k.nblk]? = some (off, n) → k.nblk + 1 < l.length →
        (∀ pas, readable off n pas → ∃ t j, exec (.mxStep mv) s = .next t ∧ RegistersKept s t ∧ (∀ pa, t.byte pa = s.byte pa) ∧
          others t (fun _ _ _ => False) ∧ (t.marver mv).order.head? = some j ∧
          j = { k with nblk := k.nblk + 1, got := k.got ++ pas.map (fun pa => some (s.byte pa)), acqd := true, hb := j.hb }) ∧
        (∀ b e, s.check k.tok off n rR = .fail b e → ∃ t, exec (.mxStep mv) s = .next t ∧ RegistersKept s t ∧
          (∀ pa, t.byte pa = s.byte pa) ∧
          (t.core k.core).c = (if s.killing k.tok e then ((x.kset b e).kset .revoked e).c else (x.kset b e).c) ∧ (t.marver mv).order.head? = some { k with
            nblk := k.nblk + 1, got := k.got ++ List.replicate n (some 0#8)
            code := if s.killing k.tok e then 7 else if k.code = 0 then 2 else k.code
            info := if s.killing k.tok e ∨ k.code = 0 then e else k.info })) ∧
    (∀ f : MmF, k.i = .mxMm f → k.mirrored = false → f.c0 + f.nc ≤ 512 →
      let book := s.cb mv f.cb
      let row (m : Nat) : List OpBlk := if f.tr then x.e.trRow book f.t m f.klen else x.e.row book f.t m
      let active (z m c : Nat) : Prop := z = f.z ∧ 8 * k.step ≤ m ∧ m < 8 * k.step + 8 ∧ (f.tr = true → m < 124) ∧ f.c0 ≤ c ∧ c < f.c0 + f.nc
      (∀ m c, active f.z m c → ∃ v, blockDot (s.acc mv f.z m c) (s.accMark mv f.z m c) (row m) ((s.marver mv).column book c) f.klen = .ok v) →
      ∃ t, exec (.mxStep mv) s = .next t ∧ t = { s with mx := t.mx, accum := t.accum } ∧ Stepped t mv k 16 ∧ others t active ∧
        ∀ m c v, active f.z m c →
          blockDot (s.acc mv f.z m c) (s.accMark mv f.z m c) (row m) ((s.marver mv).column book c) f.klen = .ok v →
          t.acc mv f.z m c = v % 2 ^ 32) ∧
    (∀ d z, k.i = .mxZalloc d z → x.uid ≠ 0 →
      (s.zOwner mv z = 0 → ∃ t, exec (.mxStep mv) s = .next t ∧ t.zOwner mv z = x.uid ∧ Stepped t mv k 1 ∧
        (∀ m c, m < 128 → c < 512 → t.acc mv z m c = 0 ∧ t.accMark mv z m c = 0) ∧ others t (fun y _ _ => y = z) ∧
        ∀ y, y ≠ z → t.zOwner mv y = s.zOwner mv y) ∧
      (s.zOwner mv z ≠ 0 → s.zOwner mv z ≠ x.uid → k.code = 0 → ∃ t, exec (.mxStep mv) s = .next t ∧ t = { s with mx := t.mx } ∧
        Stepped t mv { k with code := 8, info := 0 } 1) ∧
      (s.zOwner mv z = x.uid → ∃ t, exec (.mxStep mv) s = .next t ∧ t = { s with mx := t.mx } ∧ Stepped t mv k 1)) ∧
    (∀ d n g sum, k.i = .mxKat d n g sum → k.code = 0 →
      (katSum n = sum.toNat → ∃ t, exec (.mxStep mv) s = .next t ∧ t = { s with mx := t.mx } ∧ Stepped t mv k 1) ∧
      (katSum n ≠ sum.toNat → ∃ t, exec (.mxStep mv) s = .next t ∧ t = { s with mx := t.mx, w := t.w } ∧
        Stepped t mv { k with code := 6, info := g } 1 ∧ ∃ e, e ∈ t.w.log ∧ e.kind = 5 ∧ e.detail = s.cfg.groupUnit mv (32 * g))) ∧
    (∀ (f : MxMemF) pas, k.i = .mxCbtab f → readable (start f) 32 pas → pas.length = 32 → k.code = 0 →
      let entry (i : Nat) : Nat := leNat (((pas.map s.byte).drop (2 * i)).take 2)
      ((∀ i, i < 16 → cbOk (entry i) = true) → ∃ t, exec (.mxStep mv) s = .next t ∧ Stepped t mv k 1 ∧
        (∀ i, i < 16 → t.cb mv f.a i = entry i) ∧ ∀ b i, b < 8 → b ≠ f.a → f.a < 8 → t.cb mv b i = s.cb mv b i) ∧
      (∀ i, i < 16 → cbOk (entry i) = false → (∀ j, j < i → cbOk (entry j) = true) → ∃ t, exec (.mxStep mv) s = .next t ∧
        Stepped t mv { k with code := 1, info := i } 1 ∧ t.cbook = s.cbook)) ∧
    (∀ (f : MxMemF) all, k.i = .mxZld f → lastRead (zmem f) all → all.length = 16384 → ∃ t, exec (.mxStep mv) s = .next t ∧
      BandDone t mv k 16 ∧ others t (fun z m c => z = f.a ∧ band m c) ∧
      ∀ m c, band m c → t.acc mv f.a m c = leNat ((all.drop (4 * (512 * (m - 8 * k.step) + c))).take 4)) ∧
    (∀ (f : MxMemF) off n u pas, k.i = .mxZst f → f.ord.rel = false → x.partner = none → (zmem f)[k.nblk]? = some (off, n) →
      s.check k.tok off n rW = .pass u pas → pas.length = n → pas.Nodup → (∀ pa ∈ pas, s.unreachable pa = false) →
      s.linked pas = true → (∀ m c, band m c → s.accMark mv f.a m c = 0) →
      let first := (((zmem f).take k.nblk).map Prod.snd).sum
      ∃ t, exec (.mxStep mv) s = .next t ∧ RegistersKept s t ∧ BytesKept s t pas ∧ others t (fun _ _ _ => False) ∧
        (k.nblk + 1 < (zmem f).length → (t.marver mv).order.head? = some { k with nblk := k.nblk + 1 }) ∧
        ((zmem f).length ≤ k.nblk + 1 → BandDone t mv k 16) ∧
        ∀ i pa, pas[i]? = some pa → (t.byte pa).toNat =
          s.acc mv f.a (8 * k.step + (first + i) / 2048) ((first + i) % 2048 / 4) / 2 ^ (8 * ((first + i) % 4)) % 2 ^ 8) ∧
    (∀ d za zb, k.i = .mxZcpy d za zb → za ≠ zb → ∃ t, exec (.mxStep mv) s = .next t ∧
      t = { s with mx := t.mx, accum := t.accum, accBad := t.accBad } ∧ Stepped t mv k 16 ∧
      others t (fun z m c => z = za ∧ band m c) ∧ ∀ m c, band m c → t.acc mv za m c = s.acc mv zb m c) ∧
    (∀ (f : MxMemF) all, k.i = .mxTld f → lastRead (tmem f) all → all.length = 8192 → ∃ t, exec (.mxStep mv) s = .next t ∧
        BandDone t mv k 16 ∧ RegistersKept s t ∧ (∀ pa, t.byte pa = s.byte pa) ∧
        (∀ r b, 8 * k.step ≤ r → r < 8 * k.step + 8 → b < 1024 →
          Sparse.get 0#8 (t.core k.core).e.tile (tKey f.a r b) = all.getD (1024 * (r - 8 * k.step) + b) 0#8) ∧
        ∀ y r b, r < 128 → b < 1024 → ¬(y = f.a ∧ 8 * k.step ≤ r ∧ r < 8 * k.step + 8) →
          Sparse.get 0#8 (t.core k.core).e.tile (tKey y r b) = Sparse.get 0#8 x.e.tile (tKey y r b)) ∧
    (∀ f : OutF, k.i = .mxOut f → f.dst = false → f.clr = false → f.ty ≤ 10 → 1 ≤ f.nc →
      let w := tyBytes f.ty
      let q := (f.nc * w + 127) / 128
      let drained (i j : Nat) : Prop := 8 * k.step ≤ i ∧ i < 8 * k.step + 8 ∧ i ≤ f.nr ∧ j < f.nc
      (∀ i j, drained i j → s.accMark mv f.z (f.r0 + i) (f.c0 + j) = 0) →
      ∃ t, exec (.mxStep mv) s = .next t ∧ t = { s with cores := t.cores, mx := t.mx } ∧ Stepped t mv k ((f.nr + 8) / 8) ∧
        (∀ c, c ≠ k.core → t.core c = s.core c) ∧
        ∀ i j, drained i j → k.id ∉ (t.core k.core).vMarks (f.vn + q * i + j / (128 / w)) ∧
          elem (t.core k.core).rdV (f.vn + q * i) w j =
            (cvt 10 f.ty f.rm false false f.sat (s.acc mv f.z (f.r0 + i) (f.c0 + j))).1 % 2 ^ (8 * w)) ∧
    (∀ (f : MxMemF) all, k.i = .mxBld f → lastRead (bmem f) all → all.length = 1024 →
      let w := k.a.toNat
      let slice := (List.range 1024).map (bdeckPA mv (w / 2 ^ 17 % 2 ^ 9 + k.step) (w / 2 ^ 36 % 2 ^ 10))
      (f.ord.rel = false ∨ s.engRelReady k.agent slice.head? = true) → ∃ t, exec (.mxStep mv) s = .next t ∧ RegistersKept s t ∧ BytesKept s t slice ∧ BandDone t mv k (w / 2 ^ 26 % 2 ^ 10) ∧
        ∀ i, i < 1024 → t.byte (slice.getD i 0) = all.getD i 0#8)) ∧
  (∀ (s : State) mv k rest f, (s.marver mv).order = k :: rest → k.i = .mxMm f → f.hw = true → k.begun = false → k.done = false →
    k.cut = false → k.step = 0 → (s.core k.core).readerGo f.h k.fill = false →
    exec (.mxStep mv) s = .next s ∧ exec (.mxStatusFill mv) s = .next s) ∧
  (∀ (s : State) mv k rest, (s.marver mv).order = k :: rest → k.done = true →
    (mxMem k = none ∨ mxStores k.i = true ∨ k.silent = true ∨ k.code = 7 ∨ ∀ o a r, mxMem k = some (o, a, r) → o.rel = false) →
    s.cmdHeld k.core k.wseq = false → mxDest k.i < 64 →
    let d := mxDest k.i
    ∃ t, exec (.mxStatusFill mv) s = .next t ∧ (∀ pa, t.byte pa = s.byte pa) ∧ (t.marver mv).order = rest ∧
      (∀ c, c ≠ k.core → t.core c = s.core c) ∧ k.id ∉ (t.core k.core).sMarks k.ctx d ∧
      (∀ r ∈ mxRegs k.i, k.id ∉ (t.core k.core).vMarks r) ∧
      (t.core k.core).rdS k.ctx d = (if d = 0 then 0#64 else if k.silent then (s.core k.core).rdS k.ctx d
        else BitVec.ofNat 64 (k.info % 2 ^ 32 * 2 ^ 8 + k.code)) ∧
      (∀ c r, r < 64 → ¬(c = k.ctx ∧ r = d) → (t.core k.core).rdS c r = (s.core k.core).rdS c r) ∧
      (k.silent = false → d ≠ 0 → 1 ≤ k.code → k.code ≤ 7 → (t.core k.core).e.mxfault ≠ []))

/-! ### Unmasking -/

/-- R356 to R359: with room in its core's queue of four an unmasking command issues if its operands obey its rules, and traps
ILLEGAL otherwise. A completed command leaves the order and fills its status scalar, or its pair for `um.dnext`. -/
def Obligations.UnmaskingCommandsIssue : Prop :=
  (∀ (s : State),
    let cmd (i : Instr) (l : List Src) (n d : Nat) (a b : Word) (tok : Token) (rule : Prop) : Prop :=
      let room := (((s.umOf (s.cfg.paneOf s.cur)).order.filter (fun j => j.core == s.cur)).length < 4)
      (room → rule → UmIssues i l n d a b tok s) ∧ (room → ¬rule → TrapsBy i l s 1 (minOf i) s.me.q.pc) ∧
        (¬room → WordResult i l s (fun t => t.waited = true ∧ (t.core s.cur).r = s.me.r ∧ (t.core s.cur).q = s.me.q))
    let share (a b : Nat) : Prop := 1 ≤ (s.sc b).toNat ∧ (s.sc b).toNat < 2 ^ 32 ∧ (s.sc a).toNat ≤ (s.sc b).toNat
    let aligned (f : UmMemF) : Prop := (s.sc f.a).toNat % 64 = 0 ∧ (s.sc f.b).toNat % 64 = 0
    let memory (f : UmMemF) : List Src := [.s f.a f.fea, .s f.b f.feb, .k f.k false]
    (∀ f : UmCfgF, let bsz := 4 * 2 ^ f.bsz
      cmd (.umCfg f) [.s f.a f.fea, .s f.b f.feb] 2 f.d (s.sc f.a) (s.sc f.b) {}
        (share f.a f.b ∧ 1 ≤ f.seqlen ∧ f.seqlen ≤ 65536 ∧ 1 ≤ f.nlayer ∧ f.nlayer ≤ 256 ∧ f.rnd < 3 ∧
          f.nlayer * ((f.seqlen + bsz - 1) / bsz) ≤ 1048576) ∧
      cmd (.umCfgShare f) [.s f.a f.fea, .s f.b f.feb] 2 f.d (s.sc f.a) (s.sc f.b) {} (share f.a f.b ∧ f.rnd < 3)) ∧
    (∀ d l0 nl radius, cmd (.umCfgRad d l0 nl radius) [] 2 d 0#64 0#64 {} (1 ≤ nl ∧ l0 + nl ≤ 256 ∧ radius < 16384)) ∧
    (∀ f : UmMemF, cmd (.umRank f) (memory f) 2 f.d (s.sc f.a) (s.sc f.b) (s.tk f.k) (aligned f) ∧
      cmd (.umCommit f) (memory f) 2 f.d (s.sc f.a) (s.sc f.b) (s.tk f.k) (aligned f)) ∧
    (∀ d, cmd (.umDnext d) [] 1 d 0#64 0#64 {} True) ∧
    ∀ a fea, cmd (.umDclr a fea) [.s a fea] 1 0 (s.sc a) 0#64 {} True) ∧
  (∀ (s : State) pane k rest, (s.umOf pane).order = k :: rest → k.done = true → umDest k.i < 64 →
    ((umOrd k.i).rel = false ∨ k.silent = true ∨ k.code = 6 ∨ ((∃ f, k.i = .umCommit f) ∧ 0 < k.blk)) →
    s.cmdHeld k.core k.wseq = false → let d := umDest k.i
    ∃ t, exec (.umStatusFill pane) s = .next t ∧ t = { s with cores := t.cores, um := t.um, hb := t.hb } ∧
      t.umOf pane = { s.umOf pane with order := rest } ∧ (∀ c, c ≠ k.core → t.core c = s.core c) ∧
      k.id ∉ (t.core k.core).sMarks k.ctx d ∧
      (∀ c r, r < 64 → ¬(c = k.ctx ∧ r = d) → (t.core k.core).rdS c r = (s.core k.core).rdS c r) ∧
      (k.silent = true → (t.core k.core).rdS k.ctx d = (s.core k.core).rdS k.ctx d) ∧
      (k.silent = false → d ≠ 0 → (t.core k.core).rdS k.ctx d =
        if k.i = .umDnext d then BitVec.ofNat 64 k.info else BitVec.ofNat 64 (k.info % 2 ^ 32 * 2 ^ 8 + k.code)))

/-- R355, R359 to R362: the acts of an unmasking engine. Mode 0 configures it from FREE or for its owner; other commands on a FREE
engine give NOCFG, and commands of another launch NOTOWN. `um.rank` orders the masked positions by falling confidence, equal ones
by rising position. `um.commit` writes the first k of them, clears their bits block by block and dirties the pairs within each
layer's radius. `um.dnext` claims the first dirty pair without a claim; `um.dclr` clears a pair that was not dirtied again. A ranking
reads, and a commit writes its list, block by block. Which turn comes next, which idle engine's command it takes, and the order of
blocks are the model's choice (notes/assumptions/1.md, notes/assumptions/32.md, notes/assumptions/45.md). -/
def Obligations.UnmaskingActs : Prop :=
  (∀ (s : State) pane rest, s.agenda = ⟨0, .unmask pane⟩ :: rest → s.tooLate (.unmask pane) = false →
    let b := Begins s (.unmask pane) rest
    b.halted = false → Machine.step s = .next ((b.unmaskTurn pane).tableWritten b)) ∧
  (∀ (s : State) pane k, (s.umOf pane).order = [k] → k.begun = false → k.done = false → s.umMayBegin k = true →
    s.unmaskTurn pane = (s.setUm pane { s.umOf pane with order := [{ k with begun := true }] }).unmaskTurn pane) ∧
  ∀ (s : State) pane k rest, (s.umOf pane).order = k :: rest → k.begun = true → k.done = false → k.code = 0 →
    let u := s.umOf pane
    let t := s.unmaskTurn pane
    let mine := u.st ≠ .free ∧ u.owner = k.linst
    let fin (u : Um) (code info : Nat) : Prop :=
      t = s.setUm pane { u with order := { k with done := true, code := code, info := info } :: rest }
    let nblk := (u.seqlen + u.bsz - 1) / max u.bsz 1
    let dirty (v : Um) (l c : Nat) : Bool := Sparse.get false v.dirty (l * nblk + c)
    let claim (v : Um) (l c : Nat) : Bool := Sparse.get false v.claim (l * nblk + c)
    let again (v : Um) (l c : Nat) : Bool := Sparse.get false v.redirty (l * nblk + c)
    let m := u.mcnt
    let share := max (if m = 0 then 0 else 1) (if u.rnd = 0 then m * u.num / u.den else if u.rnd = 1 then (m * u.num + u.den - 1) / u.den
      else (2 * m * u.num + u.den) / (2 * u.den))
    let ps := u.rl.take share
    let js := (List.range ((u.seqlen + 511) / 512)).filter (fun j => ps.any (fun p => p / 512 == j))
    let listed := piecesOf k.a.toInt (4 * ps.length)
    (∀ f, k.i = .umCfg f → (u.st = .free ∨ mine) → fin { order := u.order, st := .configured, owner := k.linst, seqlen := f.seqlen,
                                                         bsz := 4 * 2 ^ f.bsz, nlayer := f.nlayer, num := k.a.toNat,
                                                         den := k.b.toNat, rnd := f.rnd } 0 0) ∧
    ((∀ f, k.i ≠ .umCfg f) → u.st = .free → (∀ d, k.i ≠ .umDnext d) → (∀ a b, k.i ≠ .umDclr a b) → fin u 2 0) ∧
    (u.st ≠ .free → u.owner ≠ k.linst → (∀ d, k.i ≠ .umDnext d) → (∀ a b, k.i ≠ .umDclr a b) → fin u 3 u.owner) ∧
    (¬mine → (∀ d, k.i = .umDnext d → fin u 0 (2 ^ 64 - 1)) ∧ ∀ a b, k.i = .umDclr a b → fin u 0 0) ∧
    (mine → ∀ d l0 nl radius, k.i = .umCfgRad d l0 nl radius → (u.nlayer < l0 + nl → fin u 5 u.nlayer) ∧
      (l0 + nl ≤ u.nlayer → ∃ rad, fin { u with rad := rad } 0 0 ∧
        ∀ l, Sparse.get 0 rad l = if l0 ≤ l ∧ l < l0 + nl then radius else Sparse.get 0 u.rad l)) ∧
    (mine → ∀ f, k.i = .umCfgShare f → fin { u with num := k.a.toNat, den := k.b.toNat, rnd := f.rnd } 0 0) ∧
    (mine → ∀ f, k.i = .umRank f →
      let nb := (u.seqlen + 7) / 8
      let ml := if k.got.length < nb then [] else u.masked (k.got.take nb)
      (∀ off n v pas, (u.rankBlocks k ml)[k.blk]? = some (off, n) → PlainCore s k.core → NoneDirty s →
        s.check k.tok off n rR = .pass v pas → v.kind ≠ 2 → Clean s pas → s.linked pas = true →
        (f.ord.acq = true → k.acqd = false →
          s.acquireReady k.core f.ord.scope pas = true ∧ (s.core k.core).noneOvertaken k.ctx = true) →
        ∃ h, t.umOf pane = { u with
            order := { k with blk := k.blk + 1, got := k.got ++ pas.map s.byte, acqd := true, hb := h } :: rest } ∧
          (∀ pa, t.byte pa = s.byte pa) ∧ RegistersKept s t) ∧
      ((u.rankBlocks k ml)[k.blk]? = none → nb ≤ k.got.length →
        let masked (p : Nat) : Prop := p < u.seqlen ∧ (k.got.getD (p / 8) 0#8).getLsbD (p % 8) = true
        let conf (p : Nat) : Nat := leNat (((k.got.drop (nb + 64 * ((ml.map (· / 16)).eraseDups).idxOf (p / 16))).drop (4 * (p % 16))).take 4)
        ∃ rl, t = s.setUm pane { u with
            st := .ranked, rl := rl, mcnt := rl.length
            order := { k with done := true, got := [], info := rl.length } :: rest } ∧
          (∀ p, p ∈ rl ↔ masked p) ∧
          rl.Pairwise (fun p q => rankKey (conf q) < rankKey (conf p) ∨ (rankKey (conf q) = rankKey (conf p) ∧ p < q)))) ∧
    (mine → ∀ f, k.i = .umCommit f → 1 ≤ u.den →
      (u.st ≠ .ranked → fin u 4 k.info) ∧
      (u.st = .ranked → ps = [] → fin { u with st := .configured, rl := [] } 0 0) ∧
      (∀ off n v pas, u.st = .ranked → ps ≠ [] → listed[k.blk]? = some (off, n) → PlainCore s k.core →
        s.check k.tok off n rW = .pass v pas → pas.length = n → pas.Nodup → (∀ pa ∈ pas, s.unreachable pa = false) →
        s.linked pas = true → let first := ((listed.take k.blk).map Prod.snd).sum
        t.umOf pane = { u with order := { k with blk := k.blk + 1 } :: rest } ∧ BytesKept s t pas ∧ RegistersKept s t ∧
          ∀ i pa, pas[i]? = some pa → (t.byte pa).toNat = ps.getD ((first + i) / 4) 0 / 2 ^ (8 * ((first + i) % 4)) % 2 ^ 8) ∧
      (∀ j v pas, u.st = .ranked → ps ≠ [] → listed.length ≤ k.blk → js[k.blk - listed.length]? = some j → PlainCore s k.core →
        NoneDirty s → s.check k.tok (k.b.toInt + (64 * j : Nat)) 64 (rR ||| rW) = .pass v pas → v.kind ≠ 2 → pas.length = 64 →
        pas.Nodup → Clean s pas → s.linked pas = true → f.ord.rel = false → 1 ≤ u.bsz → u.rl.Nodup →
        (f.ord.acq = true → k.acqd = false →
          s.acquireReady k.core f.ord.scope pas = true ∧ (s.core k.core).noneOvertaken k.ctx = true) →
        let last := js.length ≤ k.blk - listed.length + 1
        let near (l c : Nat) : Prop := ∃ p ∈ ps, p / 512 = j ∧ p / u.bsz ≤ c + Sparse.get 0 u.rad l ∧ c ≤ p / u.bsz + Sparse.get 0 u.rad l
        (∀ i b, i < 64 → b < 8 → (t.byte (pas.getD i 0)).getLsbD b =
          ((s.byte (pas.getD i 0)).getLsbD b && !ps.contains (512 * j + 8 * i + b))) ∧
        (∀ pa, pa ∉ pas → t.byte pa = s.byte pa) ∧ RegistersKept s t ∧
        (∀ l c, l < u.nlayer → c < nblk → (dirty (t.umOf pane) l c = true ↔ dirty u l c = true ∨ near l c) ∧
          (again (t.umOf pane) l c = true ↔ again u l c = true ∨ (claim u l c = true ∧ near l c)) ∧
          claim (t.umOf pane) l c = claim u l c) ∧
        (¬last → (t.umOf pane).st = .ranked ∧ (t.umOf pane).rl = u.rl ∧ ∃ h : UmCmd, (t.umOf pane).order = h :: rest ∧ h.done = false ∧ h.blk = k.blk + 1) ∧
        (last → (t.umOf pane).st = .configured ∧ (t.umOf pane).rl = [] ∧ (t.umOf pane).mcnt = m - ps.length ∧
          ∃ h : UmCmd, (t.umOf pane).order = h :: rest ∧ h.done = true ∧ h.code = 0 ∧ h.info = ps.length))) ∧
    (mine → ∀ d, k.i = .umDnext d → Sparse.wf false u.dirty = true → 1 ≤ nblk →
      ((∀ i, ¬(Sparse.get false u.dirty i = true ∧ Sparse.get false u.claim i = false)) → fin u 0 (2 ^ 64 - 1)) ∧
      ∀ i, Sparse.get false u.dirty i = true → Sparse.get false u.claim i = false →
        (∀ j, j < i → ¬(Sparse.get false u.dirty j = true ∧ Sparse.get false u.claim j = false)) →
        ∃ cl, fin { u with claim := cl } 0 (i / nblk * 2 ^ 16 + i % nblk) ∧
          ∀ j, Sparse.get false cl j = if j = i then true else Sparse.get false u.claim j) ∧
    (mine → ∀ a b, k.i = .umDclr a b → let l := k.a.toNat / 2 ^ 16
      let c := k.a.toNat % 2 ^ 16
      (u.nlayer ≤ l ∨ nblk ≤ c → fin u 0 0) ∧
      (k.a.toNat < 2 ^ 24 → l < u.nlayer → c < nblk →
        (dirty u l c = false → fin u 0 0) ∧
        (dirty u l c = true → (dirty (t.umOf pane) l c = again u l c ∧ claim (t.umOf pane) l c = false ∧
          again (t.umOf pane) l c = false ∧ ∀ x y, x < u.nlayer → y < nblk → ¬(x = l ∧ y = c) →
            dirty (t.umOf pane) x y = dirty u x y ∧ claim (t.umOf pane) x y = claim u x y))))

/-! ### V-words -/

/-- R19, R21, R137 to R139, R150, R151: the integer vector words. Each selected element is the exact result of the operands as TY
reads them, narrowed by `wrap` or, with MOD bit 0, by `sat`; B is a register group or the captured scalar. `vsel` takes raw bits by
the top of the mask stack. -/
def Obligations.VectorIntegers : Prop :=
  ∀ (s : State) w cap,
    let wd := tyBytes w.ty
    let n := cap.rows * 128 / wd
    let bits := 8 * wd
    let a := fun e => vA w s wd e
    let b := fun e => vB w cap s wd e
    let int (i : Instr) (R : Int → Int → Nat → Int → Prop) : Prop := VEach i s w cap n wd (fun e v fl => fl = 0#6 ∧
      ∃ r, R (readsAs w.ty (a e)) (readsAs w.ty (b e)) (b e) r ∧ Narrowed w.ty (w.md % 2 == 1) r v)
    let bit (i : Instr) (f : Bool → Bool → Bool) : Prop := VEach i s w cap n wd (fun e v fl => fl = 0#6 ∧
      v < 2 ^ bits ∧ ∀ k, k < bits → v.testBit k = f ((a e).testBit k) ((b e).testBit k))
    int (.vadd w) (fun a b _ r => r = a + b) ∧ int (.vsub w) (fun a b _ r => r = a - b) ∧ int (.vmul w) (fun a b _ r => r = a * b) ∧
    int (.vmulh w) (fun a b _ r => r = Int.fdiv (a * b) (2 ^ bits)) ∧
    int (.vmin w) (fun a b _ r => r = min a b) ∧ int (.vmax w) (fun a b _ r => r = max a b) ∧
    int (.vabs w) (fun a _ _ r => r = |a|) ∧ int (.vneg w) (fun a _ _ r => r = -a) ∧
    int (.vshl w) (fun a _ k r => r = if bits ≤ k then 0 else a * 2 ^ k) ∧
    int (.vshr w) (fun a _ k r => r = if bits ≤ k then (if a < 0 then -1 else 0) else Int.fdiv a (2 ^ k)) ∧
    bit (.vand w) (fun x y => x && y) ∧ bit (.vor w) (fun x y => x || y) ∧ bit (.vxor w) (fun x y => x != y) ∧
    bit (.vnot w) (fun x _ => !x) ∧
    VEach (.vclz w) s w cap n wd (fun e v fl => fl = 0#6 ∧ v ≤ bits ∧ a e < 2 ^ (bits - v) ∧ (v < bits → 2 ^ (bits - 1 - v) ≤ a e)) ∧
    VEach (.vpopc w) s w cap n wd (fun e v fl => fl = 0#6 ∧ v = (List.range bits).countP (fun k => (a e).testBit k)) ∧
    VEach (.vsel w) s w cap n wd (fun e v fl => fl = 0#6 ∧
      v = if s.me.mt.getLsbD e = decide (w.md / 4 % 2 = 0) then a e else b e)

/-- R26, R27, R30, R152 to R154: the floating vector words. Each selected element is its operation on the operands, flushed under
the captured FIZ, rounded once under the captured RM and FOZ; its flags are the rounding's and the flushes'. The sign operations and
the minima flush or flag as R153 says; `vcvt` converts by R30. -/
def Obligations.VectorFloats : Prop :=
  ∀ (s : State) w cap,
    let wd := tyBytes w.ty
    let n := cap.rows * 128 / wd
    let f := fmtOf w.ty
    let x := fun e => f.flush cap.fiz (vA w s wd e)
    let y := fun e => f.flush cap.fiz (vB w cap s wd e)
    let z := fun e => f.flush cap.fiz (elem s.me.rdV w.c wd e)
    let one (i : Instr) (g : FV → Nat × BitVec 6) : Prop := VEach i s w cap n wd (fun e v fl =>
      v = (g (f.dec (x e).1)).1 ∧ fl = (g (f.dec (x e).1)).2 ||| (x e).2)
    let two (i : Instr) (g : FV → FV → Nat × BitVec 6) : Prop := VEach i s w cap n wd (fun e v fl =>
      let r := g (f.dec (x e).1) (f.dec (y e).1)
      v = r.1 ∧ fl = r.2 ||| (x e).2 ||| (y e).2)
    let fused (i : Instr) (g : FV → FV) : Prop := VEach i s w cap n wd (fun e v fl =>
      let r := fFma f cap.rm cap.foz (f.dec (x e).1) (f.dec (y e).1) (g (f.dec (z e).1))
      v = r.1 ∧ fl = r.2 ||| (x e).2 ||| (y e).2 ||| (z e).2)
    let most (i : Instr) (gt : Bool) : Prop := VEach i s w cap n wd (fun e v fl =>
      let r := fMinMax f gt (x e).1 (y e).1
      v = r.1 ∧ fl = r.2 ||| (x e).2 ||| (y e).2)
    let sign (i : Instr) (P : Bool → Bool → Prop) : Prop := VEach i s w cap n wd (fun e v fl => fl = 0#6 ∧
      let a := vA w s wd e
      if (f.dec a).isNan then v = f.nan
      else (∀ k, k < 8 * wd - 1 → v.testBit k = a.testBit k) ∧ P (a.testBit (8 * wd - 1)) (v.testBit (8 * wd - 1)) ∧ v < 2 ^ (8 * wd))
    two (.vfadd w) (fAdd f cap.rm cap.foz) ∧ two (.vfsub w) (fun a b => fAdd f cap.rm cap.foz a b.neg) ∧
    two (.vfmul w) (fMul f cap.rm cap.foz) ∧ two (.vfdiv w) (fDiv f cap.rm cap.foz) ∧
    fused (.vfma w) id ∧ fused (.vfms w) FV.neg ∧
    one (.vfsqrt w) (fSqrt f cap.rm cap.foz) ∧ one (.vfrcp w) (fDiv f cap.rm cap.foz (.fin false 1 0)) ∧
    one (.vfrsq w) (fRsq f cap.rm cap.foz) ∧ one (.vfexp2 w) (fExp2 f cap.rm cap.foz) ∧ one (.vflog2 w) (fLog2 f cap.rm cap.foz) ∧
    most (.vfmin w) false ∧ most (.vfmax w) true ∧
    sign (.vfabs w) (fun _ v => v = false) ∧ sign (.vfneg w) (fun a v => v = !a) ∧
    (let src := w.md % 16
     let ws := tyBytes src
     VEach (.vcvt w) s w cap (cap.rows * 128 / max ws wd) wd (fun e v fl =>
       (v, fl) = cvt src w.ty cap.rm cap.fiz cap.foz (w.md / 16 % 2 == 1) (elem s.me.rdV w.a ws e)))

/-- R26: rounding, for each of the three formats and each mode, of an exact value that does not overflow and is not flushed: the
result is the exact value where one is representable, and NX says that it is not; otherwise it is the nearest, or the next toward
zero, up or down. An overflow sets OF and NX. Sums, products and fused products of finite operands are rounded from their exact
value. -/
def Obligations.FloatRounding : Prop :=
  ∀ f ∈ [fmtH16, fmtB16, fmtF32],
    (∀ rm neg (m : Nat) (e : Int), rm < 4 → m ≠ 0 →
      let x : Rat := (if neg then -1 else 1) * (m : Rat) * (2 : Rat) ^ (e : Int)
      let r := f.round rm false neg m e false
      let big := r.2.getLsbD 2 = true
      (big → r.2.getLsbD 4 = true ∧ (f.dec r.1 = .inf neg ∨ r.1 = f.top neg) ∧
        (f.dec r.1 = .inf neg ↔ rm = 0 ∨ (rm = 2 ∧ neg = false) ∨ (rm = 3 ∧ neg = true))) ∧
      (¬big → ∃ y, valOf (f.dec r.1) = some y ∧ (r.2.getLsbD 4 = true ↔ y ≠ x) ∧
        ∀ c z, c < 2 ^ (f.eb + f.fb + 1) → valOf (f.dec c) = some z →
          (rm = 0 → |y - x| ≤ |z - x|) ∧ (rm = 1 → |y| ≤ |x| ∧ (|z| ≤ |x| → |z| ≤ |y|)) ∧
          (rm = 2 → x ≤ y ∧ (x ≤ z → y ≤ z)) ∧ (rm = 3 → y ≤ x ∧ (z ≤ x → z ≤ y)))) ∧
    (∀ rm foz x y u v, valOf x = some u → valOf y = some v →
      (∃ n m e, valOf (.fin n m e) = some (u + v) ∧ fAdd f rm foz x y = f.round rm foz n m e false) ∧
      (∃ n m e, valOf (.fin n m e) = some (u * v) ∧ fMul f rm foz x y = f.round rm foz n m e false) ∧
      ∀ z w, valOf z = some w → ∃ n m e, valOf (.fin n m e) = some (u * v + w) ∧ fFma f rm foz x y z = f.round rm foz n m e false) ∧
    f.dec f.one = .fin false (2 ^ f.fb) (-(f.fb : Int)) ∧ (f.dec f.nan).isNan = true ∧ f.dec (f.inf true) = .inf true

/-- R32 to R36, R155 to R160: the codebook, block, reduction and permutation words. `vcb` looks nibbles up, a NaN in its canonical form;
`vpack` writes one half of its destination; `vunpack` decodes a block of its format, and a block that is none raises a containment event
there and in `vamax`; `vamax` and `vred` leave one element and zeros, and each float a `vred` takes is flushed and flagged first; the
permutations move raw bits, and `vcompress` packs the selected ones before zeros. That the block form of `vamax` reads its block whole and
by the block's own format, and a lone element of a `vred`, are among the model's choices (notes/assumptions/17.md, 48.md, 64.md, 76.md). -/
def Obligations.VectorBlocksAndMoves : Prop :=
  ∀ (s : State) w cap,
    let wd := tyBytes w.ty
    let n := cap.rows * 128 / wd
    let a := fun e => vA w s wd e
    let table := fun c => elem s.me.rdV w.c 2 (c % 16)
    let move (i : Instr) (g : Nat → Nat → Prop) : Prop := VEach i s w cap n wd (fun e v fl => fl = 0#6 ∧ g e v)
    let first (i : Instr) (wo : Nat) (P : Nat → BitVec 6 → Prop) : Prop := VDoes i s w cap (128 / wo) wo (fun _ => True) (fun val fl =>
      (∀ e, 0 < e → val e = 0) ∧ P (val 0) fl)
    let on := s.sel w cap n wd
    let l := on.map a
    let blk := elem s.me.rdV w.a 64 (w.md % 2)
    move (.vperm w) (fun e v => v = a (elem s.me.rdV w.b 2 e % n)) ∧
    move (.vtrns w) (fun e v => let m := 128 / wd
      let row := e / m
      let t := e % m / cap.rows
      let k := e % m % cap.rows
      v = if (t + 1) * cap.rows ≤ m then a (k * m + t * cap.rows + row) else a e) ∧
    move (.vbcast w) (fun _ v => v = if w.md = 2 then cap.sb.toNat % 2 ^ (8 * wd) else if w.imm.toNat < n then a w.imm.toNat else 0) ∧
    move (.vslide w) (fun e v => let k := e + w.imm.toNat
      v = if k < n then a k else if k < 2 * n then elem s.me.rdV w.b wd (k - n) else 0) ∧
    VDoes (.vcompress w) s w cap n wd (fun _ => True) (fun val fl => fl = 0#6 ∧
      ∀ e, e < n → val e = if e < l.length then l.getD e 0 else 0) ∧
    (∀ e, e ∈ on ↔ Sel s w cap n wd e) ∧ on.Pairwise (· < ·) ∧
    VEach (.vcb w) s w cap (cap.rows * (if w.md = 1 then 64 else 32)) (if w.md = 1 then 2 else 4) (fun j v fl => fl = 0#6 ∧
      let c := elem s.me.rdV w.a 1 (j / 2) / 16 ^ (j % 2) % 16
      let t := table c
      v = if (fmtB16.dec t).isNan = true then (if w.md = 1 then fmtB16.nan else fmtF32.nan) else if w.md = 1 then t else t * 2 ^ 16) ∧
    (w.md % 8 = 6 → first (.vred w) 4 (fun v fl => fl = 0#6 ∧ v = l.countP (· != 0))) ∧
    (w.md % 8 = 7 → first (.vred w) 4 (fun v fl => fl = 0#6 ∧ (l = [] → v = 0) ∧
      (l ≠ [] → (∀ x ∈ l, x = 0) → v = if w.gc = 0 then n else min n (cap.pred.count * 2 ^ cap.pred.width / wd)) ∧
      ((∃ x ∈ l, x ≠ 0) → v ∈ on ∧ a v ≠ 0 ∧ ∀ e ∈ on, e < v → a e = 0))) ∧
    (w.md % 8 < 6 → w.ty < 8 → first (.vred w) wd (fun v fl => fl = 0#6 ∧
      let xs := l.map (readsAs w.ty)
      (w.md % 8 = 0 → Narrowed w.ty (w.md == 8) xs.sum v) ∧
      (w.md % 8 = 1 → (xs = [] → v = (tyHigh w.ty).toNat) ∧ (xs ≠ [] → v ∈ l ∧ ∀ x ∈ xs, readsAs w.ty v ≤ x)) ∧
      (w.md % 8 = 2 → (xs = [] → readsAs w.ty v = tyLow w.ty) ∧ (xs ≠ [] → v ∈ l ∧ ∀ x ∈ xs, x ≤ readsAs w.ty v)) ∧
      (w.md % 8 = 3 → ∀ k, k < 8 * wd → v.testBit k = l.all (fun x => x.testBit k)) ∧
      (w.md % 8 = 4 → ∀ k, k < 8 * wd → v.testBit k = l.any (fun x => x.testBit k)) ∧
      (w.md % 8 = 5 → ∀ k, k < 8 * wd → v.testBit k = decide (l.countP (fun x => x.testBit k) % 2 = 1)))) ∧
    (8 ≤ w.ty → first (.vred w) wd (fun v fl => (v, fl) = redFloats (fmtOf w.ty) (w.md % 8) cap.rm cap.fiz cap.foz l)) ∧
    (∀ f ∈ [fmtH16, fmtB16, fmtF32], ∀ op rm fiz foz x y xs,
      let r := redFloats f op rm fiz foz
      let a := f.flush fiz x
      let one := r [x]
      ((f.dec a.1).isNan = true → one.1 = f.nan) ∧ ((f.dec a.1).isNan = false → one.1 = a.1) ∧
      (one.2.getLsbD 0 = true ↔ f.dec a.1 = .nan true) ∧ (one.2.getLsbD 5 = true ↔ fiz = true ∧ f.sub x = true) ∧
      r [] = (if op = 0 then 0 else f.inf (op == 2), 0#6) ∧
      let z := r (y :: xs)
      let v := if op = 0 then fAdd f rm foz (f.dec z.1) (f.dec one.1) else fMinMax f (op == 2) z.1 one.1
      r (y :: xs ++ [x]) = (v.1, z.2 ||| (v.2 ||| one.2))) ∧
    (w.ty < 11 → first (.vamax w) 4 (fun v fl => fl = 0#6 ∧ v = (fmtF32.ofFV 2 false
      (l.foldl (fun (m : FV) x => m.maxAbs ((fmtOf w.ty).dec x)) (FV.fin false 0 0))).1)) ∧
    (11 ≤ w.ty → blkHead blk ≠ .poison → blkHead blk ≠ .illegal → first (.vamax w) 4 (fun v fl => fl = 0#6 ∧
      v = (fmtF32.ofFV 2 false (blkAmax blk table)).1)) ∧
    (let f := w.ty - 10
     let m := fmtLen f
     VDoes (.vpack w) s w cap 2 64 (fun e => e = w.md % 2) (fun val fl => ∃ k4open zopen,
       let x := fun j => if selected w.gm (guardCount w.gc cap.pred m 4) s.me.mt j then flushV fmtF32 cap.fiz (elem s.me.rdV w.a 4 j)
         else (.fin false 0 0, 0#6)
       let r := packBlock f cap.rm cap.foz table (w.md / 2 % 2 == 1) (s8Of w.imm.toNat) ((List.range m).map (fun j => (x j).1)) k4open zopen
       val (w.md % 2) = r.1 ∧ fl = (List.range m).foldl (fun fl j => fl ||| (x j).2) r.2) ∧
     (∀ sc, blkHead blk = .ok f sc → VDoes (.vunpack w) s w cap (32 * ((m * 4 + 127) / 128)) 4
       (fun e => m ≤ e ∨ Sel s w cap m 4 e) (fun val _ => (∀ e, m ≤ e → val e = 0) ∧
         ∀ e, e < m → Sel s w cap m 4 e → val e = match (blkElem blk f table e).scale sc with
           | .nan _ => fmtF32.nan
           | v => (fmtF32.ofFV cap.rm cap.foz v).1)) ∧
     (∀ z, blkHead blk = .zero z → VDoes (.vunpack w) s w cap (32 * ((m * 4 + 127) / 128)) 4 (fun e => m ≤ e ∨ Sel s w cap m 4 e)
       (fun val fl => fl = 0#6 ∧ ∀ e, val e = 0)) ∧
     ∀ i op, vParts i = some (op, w) → i.wf = true → AtHead s op w cap →
       (i = .vunpack w ∧ (blkHead blk = .poison ∨ blkHead blk = .illegal ∨ ∃ g sc, blkHead blk = .ok g sc ∧ g ≠ f)) ∨
         (i = .vamax w ∧ 11 ≤ w.ty ∧ (blkHead blk = .poison ∨ blkHead blk = .illegal)) →
       ∃ (t : State), exec i s = .next t ∧ (∀ r, (t.core s.cur).rdV r = s.me.rdV r) ∧ Raises s.now s.me (t.core s.cur) (fun l =>
         l.cont = true ∧ l.cause = 12 ∧ l.info = infoWord 0 false true 1 cap.idx
           (0xFFFF * 2 ^ 16 + 2 * 2 ^ 8 + if blkHead blk = .poison then kPoison else kIllegalBlock)))

/-- R140, R145, R147, R161, R162, R166: `mpush` pushes the old top AND its comparison, and traps MASKOVF at sixteen masks; `minv` and
`mpop` change the top and trap MASKUNF where they have none; `vskip` skips on a zero top; `veos` ends its `swpl`'s stream at the least
iteration; `vnop` does nothing (notes/assumptions/48.md). -/
def Obligations.VectorMasks : Prop :=
  ∀ (s : State) w cap,
    let wd := tyBytes w.ty
    let n := cap.rows * 128 / wd
    let cnt := if w.gc = 0 then n else min n (cap.pred.count * 2 ^ cap.pred.width / wd)
    let a := fun e => vA w s wd e
    let b := fun e => elem s.me.rdV w.b wd e
    let f := fmtOf w.ty
    let x := fun e => f.dec (f.flush cap.fiz (a e)).1
    let y := fun e => f.dec (f.flush cap.fiz (b e)).1
    let cond := w.md % 8
    let nan := fun e => (x e).isNan = true ∨ (cond < 4 ∧ (y e).isNan = true)
    let old := s.me.r.masks
    let same (P : List (BitVec 768) → Prop) : List (BitVec 768) → Nat → List (Nat × Nat) → BitVec 6 → Prop := fun l k e fl =>
      P l ∧ k = s.me.v.skip ∧ e = s.me.v.ends ∧ fl = 0#6
    let at' (l : List (Nat × Nat)) (k : Nat) : Option Nat := (l.find? (fun p => p.1 == k)).map Prod.snd
    (old.length < 16 → VActs (.mpush w) s w cap (fun l k e fl => k = s.me.v.skip ∧ e = s.me.v.ends ∧
      ∃ m : BitVec 768, l = m :: old ∧ (∀ i, m.getLsbD i = true → s.me.mt.getLsbD i = true ∧ i < cnt) ∧
        (w.ty < 8 → fl = 0#6 ∧ ∀ i, i < 768 → i < cnt → s.me.mt.getLsbD i = true → (m.getLsbD i = true ↔
          (cond = 0 ∧ readsAs w.ty (a i) = readsAs w.ty (b i)) ∨ (cond = 1 ∧ readsAs w.ty (a i) ≠ readsAs w.ty (b i)) ∨
          (cond = 2 ∧ readsAs w.ty (a i) < readsAs w.ty (b i)) ∨ (cond = 3 ∧ readsAs w.ty (b i) ≤ readsAs w.ty (a i)) ∨
          (4 ≤ cond ∧ readsAs w.ty (a i) ≠ 0))) ∧
        (8 ≤ w.ty → (∀ i, i < 768 → i < cnt → s.me.mt.getLsbD i = true →
            (cond = 5 → (m.getLsbD i = true ↔ (x i).isNan = true)) ∧ (cond = 4 → (m.getLsbD i = true ↔ valOf (x i) ≠ some 0)) ∧
            (nan i → cond < 4 → (m.getLsbD i = true ↔ cond = 1)) ∧
            (¬nan i → (cond = 0 → (m.getLsbD i = true ↔ fEq (x i) (y i) = true)) ∧ (cond = 1 → (m.getLsbD i = true ↔ fEq (x i) (y i) = false)) ∧
              (cond = 2 → (m.getLsbD i = true ↔ fLt (x i) (y i) = true)) ∧ (cond = 3 → (m.getLsbD i = true ↔ fLt (x i) (y i) = false)))) ∧
          (fl.getLsbD 0 = true ↔ ∃ i, i < cnt ∧ (x i = .nan true ∨ (cond < 4 ∧ y i = .nan true) ∨ (nan i ∧ (cond = 2 ∨ cond = 3)))) ∧
          (fl.getLsbD 5 = true ↔ cap.fiz = true ∧ ∃ i, i < cnt ∧ (f.sub (a i) = true ∨ (cond < 4 ∧ f.sub (b i) = true))) ∧
          ∀ k, k ≠ 0 → k ≠ 5 → fl.getLsbD k = false))) ∧
    (16 ≤ old.length → VWordTraps (.mpush w) s w cap 5) ∧
    (∀ u v p q, valOf u = some p → valOf v = some q → (fLt u v = true ↔ p < q) ∧ (fEq u v = true ↔ p = q)) ∧
    (∀ m r l, old = m :: r :: l → VActs (.minv w) s w cap (same (fun k => k = (r &&& ~~~m) :: r :: l))) ∧
    (old.length < 2 → VWordTraps (.minv w) s w cap 6) ∧
    (∀ m l, old = m :: l → VActs (.mpop w) s w cap (same (fun k => k = l))) ∧
    (old = [] → VWordTraps (.mpop w) s w cap 6) ∧
    VActs (.vskip w) s w cap (fun l k e fl => l = old ∧ e = s.me.v.ends ∧ fl = 0#6 ∧
      k = if s.me.r.masks.head? = some 0#768 then w.imm.toNat else 0) ∧
    VActs (.veos w) s w cap (fun l k e fl => l = old ∧ k = s.me.v.skip ∧ fl = 0#6 ∧
      let fires := cap.inst ≠ 0 ∧ ∃ i, Sel s w cap (128 * cap.rows) 1 i
      (¬fires → e = s.me.v.ends) ∧
      (fires → at' e cap.inst = some (match at' s.me.v.ends cap.inst with
        | some j => min j cap.tag
        | none => cap.tag) ∧ ∀ j, j ≠ cap.inst → at' e j = at' s.me.v.ends j)) ∧
    VActs (.vnop w) s w cap (same (fun l => l = old))

/-- R138, R148, R149: the vector memory words, performed whole. Each element the guard selects is checked at its own offset; a load's
elements take their bytes from memory, and 0 where the check fails; on an rc page an element may be what its homes held before some
write that they record (R299; notes/assumptions/69.md); a store's bytes are on their way in ascending element order, and later reach
their homes. Where elements share a byte the higher one's stands. A store moves marked data with its marks (R338, R339). -/
def Obligations.VectorMemory : Prop :=
  (∀ (s : State) w cap i op, vParts i = some (op, w) → i.wf = true → AtHead s op w cap → PlainCore s s.cur → op ≤ 5 → cap.tok.kind ≠ 2 →
    s.popPending s.cur 0 cap.id = false →
    let wd := tyBytes w.ty
    let n := cap.rows * 128 / wd
    let cnt := if w.gc = 0 then n else min n (cap.pred.count * 2 ^ cap.pred.width / wd)
    let chk := fun (need : BitVec 4) e => s.check cap.tok (elemOff s op w cap e) wd need
    let left (t : State) (q : Nat) : Prop := ∀ p, (t.core s.cur).v.queue p =
      if p = q then (s.me.v.queue p).filter (fun e => e.cap.id != cap.id) else s.me.v.queue p
    let bits (t : State) (need : BitVec 4) : Prop :=
      ((∀ e, e < cnt → ∃ u l, chk need e = .pass u l) → (t.core s.cur).c = s.me.c) ∧
      ∀ e b en, e < cnt → chk need e = .fail b en → (t.core s.cur).c.kstat &&& b.mask = b.mask
    (i = .vld w ∨ i = .vgat w ∨ i = .vldb w → s.me.v.qs = [] → (bit w.md 4 = true → s.me.readerGo w.e cap.fill = true) →
      (∀ e, e < cnt → (∃ u l, chk rR e = .pass u l ∧ u.kind ≠ 2 ∧ Clean s l ∧ s.linked l = true) ∨ ∃ b en, chk rR e = .fail b en) →
      ∃ t f val, exec i s = .next t ∧ t = { s with cores := t.cores, w := t.w, hb := t.hb, seen := t.seen } ∧ RegistersKept s t ∧
        (∀ pa, t.byte pa = s.byte pa) ∧ left t 0 ∧ (t.core s.cur).v.fl = s.me.v.fl ++ [f] ∧ f.id = cap.id ∧ f.q = 0 ∧ f.marks = cap.marks ∧ f.flags = 0#6 ∧ bits t rR ∧
        Lands f w.d wd n (fun e => e < cnt) val ∧
        ∀ e, e < cnt → (∀ u l, chk rR e = .pass u l → val e = s.valueAt l ∨ (u.kind = 1 ∧ ∃ tk, val e = leNat (l.map (s.byteAt tk)) ∧
          ∃ pa ∈ l, ∃ h ∈ Sparse.get [] s.hist pa, h.tick = tk)) ∧ (∀ b en, chk rR e = .fail b en → val e = 0)) ∧
    (i = .vst w ∨ i = .vsca w ∨ i = .vstb w → s.me.v.ql = [] → (∀ e, e < cnt → chk rW e ≠ .wait) →
      ∃ t, exec i s = .next t ∧ t = { s with cores := t.cores, w := t.w } ∧ left t 2 ∧ (t.core s.cur).v.fl = s.me.v.fl ∧ bits t rW ∧
        (∀ d, (t.core d).r = { (s.core d).r with bad := (t.core d).r.bad }) ∧
        ((∀ r g, Sparse.get 0 s.me.r.bad (vGran r g) = 0) → RegistersKept s t ∧ t.w = s.w ∧ ∀ a ∈ (t.core s.cur).acc, a.bad = []) ∧
        let pas := (List.range cnt).flatMap (fun e => match chk rW e with
          | .pass _ l => l
          | _ => [])
        let data := (List.range cnt).flatMap (fun e => match chk rW e with
          | .pass _ _ => leBytes wd (elem s.me.rdV w.d wd e)
          | _ => [])
        (pas = [] → (t.core s.cur).acc = []) ∧
        (pas ≠ [] → ∃ a : Acc, (t.core s.cur).acc = [a] ∧ a.op = .vstore ∧ a.id = cap.id ∧ a.ctx = 0 ∧ a.chk = 1 ∧ a.pas = pas ∧ a.data = data ∧
          a.pc = cap.idx))) ∧
  (∀ (s : State) c a, MayLand s c a → a.op = .vstore → a.rel = false → (s.core c).wins = [] → a.pas ≠ [] → a.data.length = a.pas.length →
    ∃ t, exec (.writeReachesHome c a.id) s = .next t ∧ BytesKept s t a.pas ∧ RegistersKept s t ∧ (∀ b ∈ (t.core c).acc, b.id ≠ a.id) ∧
      ∀ k, k < a.pas.length → (∀ j, k < j → j < a.pas.length → a.pas.getD j 0 ≠ a.pas.getD k 0) →
        t.byte (a.pas.getD k 0) = a.data.getD k 0)

/-- R57, R66 to R68, R126 to R128, R141, R163, R338: how V-words come to run. `viss` and `swpl` issue the words of their ranges, one a
turn, each with its registers advanced and its scalars captured; `mcall` issues a slot's words; a word that cannot issue waits, or stops
issue, its captured sources before its legality; one that FO and LO withhold is passed over, and one in bad code memory raises an event;
ranges outside the vector section, and a `swpl` inside level 0 or of 2³² passes, trap; `vsync` waits for its queues. The queue an
illegal word names, the order of the checks of `swpl`, that it runs with TACT = 1, and the C-words of its level 0 are the model's choices
(notes/assumptions/21.md, 34.md, 63.md, 67.md). -/
def Obligations.VectorIssue : Prop :=
  (∀ (s : State) st n, s.ctx = 0 →
    (s.me.code.vecLen < st + n → TrapsBy (.viss st n) [] s 7 (max st s.me.code.vecLen) s.me.q.pc) ∧
    (st + n ≤ s.me.code.vecLen → (Instr.viss st n).wf = true → MayIssue (.viss st n) [] s → exec (.viss st n) s =
      exec (.viss st n) (s.upd (fun x => (x.seq (fun q => q.leave 0)).issuing (fun _ => { act := true, pc := s.me.q.pc, cur := st, fin := st + n }))))) ∧
  (∀ (s : State) f, s.ctx = 0 →
    let l := [Src.s f.a f.fea]
    let n := (s.sc f.a).toNat
    let free := (s.me.q.loop 0).act = false
    (¬free → TrapsBy (.swpl f) l s 1 (minOf (.swpl f)) s.me.q.pc) ∧
    (free → 2 ^ 32 ≤ n → TrapsBy (.swpl f) l s 4 (n / 2 ^ 32) s.me.q.pc) ∧
    (free → n = 0 → WordResult (.swpl f) l s (fun t => Quiet s t ∧ Passes s t 2)) ∧
    (free → 0 < n → n < 2 ^ 32 → s.me.code.vecLen < f.fin → TrapsBy (.swpl f) l s 7 (max f.pro s.me.code.vecLen) s.me.q.pc) ∧
    (free → 0 < n → n < 2 ^ 32 → f.fin ≤ s.me.code.vecLen → (Instr.swpl f).wf = true → MayIssue (.swpl f) l s →
      ∃ (u : State) (k : Issue), exec (.swpl f) s = exec (.swpl f) u ∧ OnlyCore s.cur s u ∧ (u.core s.cur).q.issue = k ∧ (u.core s.cur).r = s.me.r ∧
        (u.core s.cur).v = s.me.v ∧ (u.core s.cur).c = s.me.c ∧ (u.core s.cur).code = s.me.code ∧ (u.core s.cur).q.pc = s.me.q.pc ∧
        (u.core s.cur).q.loop 0 = { act := true, idx := 0, trip := n, first := 2 ^ 15, last := 2 ^ 15 } ∧ k.act = true ∧ k.swpl = true ∧
        k.pc = s.me.q.pc ∧ k.trip = n ∧ k.iter = 0 ∧ k.ker = f.ker ∧ k.epi = f.epi ∧ k.last = f.fin ∧
        (f.pro < f.ker → k.ph = 0 ∧ k.cur = f.pro ∧ k.fin = f.ker) ∧ (¬f.pro < f.ker → k.ph = 1 ∧ k.cur = f.ker ∧ k.fin = f.epi))) ∧
  (∀ (s : State) st n f, s.mayGoOn = true → ∀ j ∈ [Instr.viss st n, .swpl f],
    let bits := Sparse.get 0#128 s.me.code.vec s.me.q.issue.cur
    let half (k : Nat) : Prop := Sparse.get 0 s.me.code.bad (2 ^ 15 + 2 * s.me.q.issue.cur + k) ≠ 0
    let w := vfOf bits.toNat
    let op := fld bits.toNat 118 10
    let passed (t : State) : Prop := OnlyCore s.cur s t ∧ (t.core s.cur).r = s.me.r ∧ (t.core s.cur).v = s.me.v ∧ WentOn s t
    let empty (k : Src) : Prop := k ∈ vScalars op w ∧ s.me.full 0 k = false
    (half 0 ∨ half 1 → ∃ (t : State), exec j s = .next t ∧ (t.core s.cur).r = { s.me.r with vm := (t.core s.cur).r.vm } ∧
      Raises s.now s.me (t.core s.cur) (fun l => l.cause = 12 ∧ l.cont = true)) ∧
    (¬half 0 → ¬half 1 →
      (s.me.withheld w.fo w.lo = true → ∃ t, exec j s = .next { t with noClock := true } ∧ passed t) ∧
      (s.me.withheld w.fo w.lo = false →
        ((vMake w op).isSome = true → op ≠ 0x280 →
          ((∃ k, empty k ∧ k.fe = false) → exec j s = .next { s with waited := true }) ∧
          (∀ k, (∀ k, empty k → k.fe = true) → (vScalars op w).find? (fun k => !s.me.full 0 k) = some k →
            ∃ t, exec j s = .next t ∧ Arms s t (vQueue op w) 2 k.reg)) ∧
        (∀ i, decodeV bits = .ok i → op ≠ 0x280 → CanEnqueue s op w → ∃ t, exec j s = .next t ∧ Enqueues s t op w ∧ WentOn s t) ∧
        (∀ m, decodeV bits = .ok (.mcall m) → exec j s = exec (.mcall m) s) ∧
        ∀ r, decodeV bits = .error r → ((vMake w op).isSome = true → ∀ k, ¬empty k) →
          ∃ t, exec j s = .next t ∧ Arms s t (if (vMake w op).isSome = true then vQueue op w else 3) 1 s.me.place.tag))) ∧
  (∀ (s : State) m, s.mayGoOn = true →
    let k := s.me.q.issue
    let words := s.me.slot m.md
    let on (t : State) : Prop := (words.length ≤ k.mpos + 1 → WentOn s t) ∧
      (k.mpos + 1 < words.length → (t.core s.cur).q.issue = { k with mpos := k.mpos + 1 })
    (∀ p op w u, words[k.mpos]? = some p → op = fld p.2.toNat 118 10 → w = vfOf p.2.toNat →
      u = { w with d := if p.1.getLsbD 4 then (w.d + m.d) % 2048 else w.d, a := if p.1.getLsbD 3 then (w.a + m.a) % 2048 else w.a
                   b := if p.1.getLsbD 2 then (w.b + m.b) % 2048 else w.b, c := if p.1.getLsbD 1 then (w.c + m.c) % 2048 else w.c
                   e := if p.1.getLsbD 0 then (w.e + m.e) % 2048 else w.e, imm := if p.1.getLsbD 5 then w.imm + m.imm else w.imm
                   eox := w.eox || m.eox } →
      let legal := p.1.toNat < 64 ∧ op ≠ 0x280 ∧ ∃ j, vMake u op = some j ∧ j.wf = true
      (s.me.withheld u.fo u.lo = true → ∃ t, exec (.mcall m) s = .next { t with noClock := true } ∧ OnlyCore s.cur s t ∧
        (t.core s.cur).r = s.me.r ∧ (t.core s.cur).v = s.me.v ∧ on t) ∧
      (s.me.withheld u.fo u.lo = false →
        (legal → CanEnqueue s op u → ∃ t, exec (.mcall m) s = .next t ∧ Enqueues s t op u ∧ on t) ∧
        (¬legal → ((vMake u op).isSome = true → ∀ k ∈ vScalars op u, s.me.full 0 k = true) → ∃ t, exec (.mcall m) s = .next t ∧
          Arms s t (if (vMake u op).isSome = true then vQueue op u else 3) 1 s.me.place.tag))) ∧
    (words[k.mpos]? = none → ∃ t, exec (.mcall m) s = .next t ∧ Arms s t 3 1 s.me.place.tag)) ∧
  (∀ (s : State) l a q,
    let on (p : Nat) : Prop := (p = 0 ∧ l = true) ∨ (p = 1 ∧ a = true) ∨ (p = 2 ∧ q = true)
    let done (n : Nat) : Prop := ∀ p, on p → (∀ e ∈ s.me.v.queue p, n ≤ e.cap.id) ∧ (∀ f ∈ s.me.v.fl, f.q = p → n ≤ f.id) ∧
      (p = 2 → ∀ k ∈ s.me.acc, k.op = .vstore → n ≤ k.id)
    (done s.me.q.nid → WordResult (.vsync l a q) [] s (fun t => Quiet s t ∧ Passes s t 1)) ∧
    (¬done s.me.q.nid → WordResult (.vsync l a q) [] s (fun t => Quiet s t ∧ Goes s t (s.me.q.pcOf s.ctx) ∧
      (t.core s.cur).q.holdOf s.ctx = { k := .drain, since := s.me.q.nid })) ∧
    (∀ n, s.hold = { k := .drain, since := n } → done n → ∃ t, exec (.vsync l a q) s = .next t ∧ Quiet s t ∧ Passes s t 1))

/-- R103, R139, R141 to R145, R147: what becomes of queued V-words. One past its stream's end, or skipped, leaves; one with an empty
source waits, or traps FE_EMPTY; one that would consume bad data raises an event instead (R338); results land as the oldest word of a
pipe completes, with their flags; an armed trap is taken once the queues are empty and no trap that comes before it stands; and heads
that wait on registers alone, which nothing will fill, trap DEADLOCK. Which producers count, which of a head's registers DATA names, what
a word consumes of its registers, and that an event before its time does nothing are the model's choices (notes/assumptions/9.md, 19.md,
59.md, 73.md). -/
def Obligations.VectorHeads : Prop :=
  (∀ (s : State) i op w cap, vParts i = some (op, w) → op ≠ 0x280 → s.pipe = some cap →
    ((s.me.v.queue (vQueue op w)).head?.map (fun e => e.cap.id)) = some cap.id →
    let q := vQueue op w
    (s.me.ended w cap = true → cap.done = [] → ∃ t, exec i s = .next t ∧ Dropped s t q cap ∧ (t.core s.cur).v.skip = s.me.v.skip) ∧
    (s.me.ended w cap = false → q = 1 → s.me.v.skip ≠ 0 → ∃ t, exec i s = .next t ∧ Dropped s t q cap ∧
      (t.core s.cur).v.skip = s.me.v.skip - 1) ∧
    (s.me.ended w cap = false → (q = 1 → s.me.v.skip = 0) →
      (q = 2 → cap.inst = 0 ∨ ∀ e ∈ s.me.v.qa, e.cap.inst ≠ cap.inst ∨ cap.id ≤ e.cap.id) →
      ((∃ p ∈ vSrcs op w cap.rows, p.2 = false ∧ s.me.vFull cap.id p.1 = false) → exec i s = .next s) ∧
      ∀ p, (∀ p ∈ vSrcs op w cap.rows, p.2 = false → s.me.vFull cap.id p.1 = true) →
        (vSrcs op w cap.rows).find? (fun p => !s.me.vFull cap.id p.1) = some p →
        ∃ t, exec i s = .next t ∧ VTraps s t s.cur q 2 p.1 cap) ∧
    (s.me.ended w cap = false → (q = 1 → s.me.v.skip = 0) →
      (q = 2 → cap.inst = 0 ∨ ∀ e ∈ s.me.v.qa, e.cap.inst ≠ cap.inst ∨ cap.id ≤ e.cap.id) →
      (∀ p ∈ vSrcs op w cap.rows, s.me.vFull cap.id p.1 = true) → cap.bad ≠ 0 ∨ s.me.vBad op w cap ≠ [] →
      ∃ (t : State), exec i s = .next t ∧ (∀ r, (t.core s.cur).rdV r = s.me.rdV r) ∧
        Raises s.now s.me (t.core s.cur) (fun l => l.cause = 12 ∧ l.cont = true))) ∧
  (∀ (s : State) c q,
    (∀ f, (s.core c).v.fl.find? (fun f => f.q == q) = some f → ∃ t, exec (.vwordFill c q) s = .next t ∧ OnlyCore c s t ∧
      t.core c = (s.core c).land f ∧ (t.core c).c = { (s.core c).c with fpsr := (s.core c).c.fpsr ||| f.flags } ∧
      (t.core c).v.fl = (s.core c).v.fl.filter (fun g => g.id != f.id) ∧ (t.core c).r.s = (s.core c).r.s ∧
      ∀ r, (t.core c).vMarks r = if r ∈ f.marks then ((s.core c).vMarks r).filter (· != f.id) else (s.core c).vMarks r) ∧
    ((∀ f ∈ (s.core c).v.fl, f.q ≠ q) → exec (.vwordFill c q) s = .next s)) ∧
  (∀ (s : State) c l, (s.core c).q.armed = some l →
    let x := s.core c
    ((∀ q, q < 3 → x.v.queue q = []) → (∀ k ∈ x.q.late, k.arr = s.now ∧ l.clk ≤ k.clk) → x.q.tact = false → x.c.tvec ≠ 0 → ∃ t, exec (.vwordIllegalTrap c) s = .next t ∧ OnlyCore c s t ∧
      (t.core c).r = x.r ∧ (t.core c).q.armed = none ∧ (t.core c).q.tact = true ∧ (t.core c).q.st = .running ∧
      (t.core c).q.pc = x.c.tvec % 2 ^ 15 ∧ (t.core c).q.issue.act = false ∧ (t.core c).c.tcause = BitVec.ofNat 64 l.cause ∧
      (t.core c).c.tinfo = l.info ∧ (t.core c).c.tpc = BitVec.ofNat 64 (if x.q.issue.act = true
        then (if l.cause = 1 then x.q.issue.pc else x.q.issue.pc + (if x.q.issue.swpl then 2 else 1)) else x.q.pc)) ∧
    ((∃ q, q < 3 ∧ x.v.queue q ≠ []) ∨ (∃ k ∈ x.q.late, k.arr ≠ s.now ∨ k.clk < l.clk) → exec (.vwordIllegalTrap c) s = .next s)) ∧
  (∀ (s : State) c,
    let x := s.core c
    let waits (q : Nat) (e : VEntry) (l : List Nat) : Prop := q < 3 ∧ ∃ rest op w, x.v.queue q = e :: rest ∧ vParts e.i = some (op, w) ∧
      x.ended w e.cap = false ∧ (q = 1 → x.v.skip = 0) ∧ s.waitsElsewhere c op q w e.cap = false ∧
      l = ((vSrcs op w e.cap.rows).filter (fun p => !p.2 && !x.vFull e.cap.id p.1)).map Prod.fst
    let awaits (q : Nat) (e : VEntry) (r : Nat) : Prop := ∃ l, waits q e (r :: l)
    let idle (q : Nat) : Prop := (∃ e, waits q e []) ∨ ∃ e rest, x.v.queue q = e :: rest ∧ ∀ e l, ¬waits q e l
    let coming (r : Nat) : Prop := ∃ id ∈ x.vMarks r, (∃ f ∈ x.v.fl, f.id = id) ∨ (∃ k ∈ x.e.mxq, k.id = id) ∨
      ∃ k ∈ (s.marver (s.cfg.marver c)).order, k.core = c ∧ k.id = id
    ((∀ q, q < 3 → x.v.queue q ≠ [] → ∃ e r l, waits q e (r :: l) ∧ ∀ k ∈ r :: l, ¬coming k) →
      ∀ q e r q0 e0 r0, awaits q e r → (∀ p e' r', awaits p e' r' → p ≠ q → e.cap.id < e'.cap.id) →
        awaits q0 e0 r0 → (∀ p, p < q0 → x.v.queue p = []) →
        ∃ t, exec (.deadlock c) s = .next t ∧ VTraps s t c q 3 r0 e.cap) ∧
    ((∃ q, q < 3 ∧ idle q) → exec (.deadlock c) s = .next s) ∧
    ((∃ q e l k, waits q e l ∧ k ∈ l ∧ coming k) → exec (.deadlock c) s = .next s))

/-! ### Tasks -/

/-- R252, R261, R263, R266, R272, R273, R345: how a task comes to a core. Once a clock an idle core that no group has reserved and that
makes no move pops straight into its one candidate queue, or the dispatcher decides anew for it, by priority, age and AGE.COUNT, among the
heads it may take and its saved tasks: a pop so decided stands before all others in its queue but those of lower cores; a fresh task
starts with its record's words and its launch's tokens, an image that is loaded already whatever its token; a group is delivered whole.
That an event that has nothing to do does nothing, what a loaded image asks of its token, and what a quarantined core still does are the
model's choices (notes/assumptions/9.md, 58.md, 60.md). -/
def Obligations.TasksBegin : Prop :=
  (∀ (s : State) c,
    let x := s.core c
    let other (r : QReq) : Bool := r.core != c || r.op != .dispatch
    let disp (n : Nat) : QReq := { core := c, ctx := 0, id := n, op := .dispatch }
    let onWay (q : Nat) : Prop := ∃ r, (r ∈ (s.queue q).pops ∨ r ∈ (s.queue q).arrive) ∧ r.core = c ∧ r.op = .dispatch ∧ r.id = 0
    let free := s.halted = false ∧ s.idleCore c = true ∧ s.reservedCore c = false ∧ s.isDonor c = false ∧ x.decided ≠ s.now + 1
    let straight (q : Nat) : Prop := s.restricted c = false ∧ s.candidates c = [q] ∧ s.resumes c = []
    (¬free → exec (.taskDispatch c) s = .next s) ∧
    (∀ q, free → straight q →
      (onWay q → ∃ t, exec (.taskDispatch c) s = .next t ∧ OnlyCore c s t ∧ t.core c = { x with decided := s.now + 1 }) ∧
      (¬onWay q → ∃ t, exec (.taskDispatch c) s = .next t ∧
        t = { s with cores := t.cores, queues := t.queues } ∧ (∀ d, d ≠ c → t.core d = s.core d) ∧
        t.core c = { x with decided := s.now + 1, popAt := q + 1 } ∧
        ∀ p, (t.queue p).pops = (s.queue p).pops.filter other ∧ (t.queue p).arrive = (s.queue p).arrive.filter other ++
          if p = q then [{ disp 0 with clk := s.now + s.cfg.queueTrip (s.cfg.paneOf c) (q / 256) }] else [])) ∧
    (free → (∀ q, ¬straight q) →
      let l := s.cands c
      let low (k : Cand) : Prop := ∃ y ∈ l, k.pri < y.pri
      let age := Sparse.get 8 s.d.age (s.cfg.paneOf c)
      (l = [] → ∃ t, exec (.taskDispatch c) s = .next t ∧ t = { s with cores := t.cores, queues := t.queues } ∧
        (∀ d, d ≠ c → t.core d = s.core d) ∧ t.core c = { x with decided := s.now + 1, popAt := 0 } ∧
        ∀ p, (t.queue p).pops = (s.queue p).pops.filter other ∧ (t.queue p).arrive = (s.queue p).arrive.filter other) ∧
      (l ≠ [] → ∃ t k, exec (.taskDispatch c) s = .next t ∧ k ∈ l ∧ RegistersKept s t ∧ (∀ pa, t.byte pa = s.byte pa) ∧
        (age ≤ x.agecnt ∧ (∃ y ∈ l, low y) → low k ∧ (∀ y ∈ l, low y → Older k y) ∧ (t.core c).agecnt = 0) ∧
        (¬(age ≤ x.agecnt ∧ ∃ y ∈ l, low y) → ¬low k ∧ (∀ y ∈ l, ¬low y → Older k y) ∧
          ((∃ y ∈ l, low y) → (t.core c).agecnt = x.agecnt + 1) ∧ ((∀ y ∈ l, ¬low y) → (t.core c).agecnt = x.agecnt)) ∧
        (∀ q, k.what = .inl q → (t.core c).popAt = q + 1 ∧ ∃ a b, (t.queue q).pops = a ++ disp 1 :: b ∧
          a ++ b = (s.queue q).pops.filter other ∧ (∀ r ∈ a, r.op = .dispatch ∧ r.id = 1 ∧ r.core < c) ∧
          ∀ r, b.head? = some r → ¬(r.op = .dispatch ∧ r.id = 1 ∧ r.core < c)) ∧
        ∀ e, k.what = .inr e → (t.core c).taken = some (.resume (e / 1024) (e % 1024))))) ∧
  (∀ (s : State) c r initial partner, s.halted = false → (s.core c).taken = some (.fresh r initial partner []) →
    let l := s.launch r.linst
    let x := s.core c
    (l.st ≠ .running → ∃ t, exec (.taskStart c) s = .next t ∧ OnlyCore c s t ∧ t.core c = { x with taken := none }) ∧
    (l.st = .running → r.image ≠ l.image ∨ l.kern.ctlLen ≤ r.entry → ∃ t, exec (.taskStart c) s = .next t ∧ (t.core c).taken = none ∧
      (t.launch r.linst).st = .failing ∧ (t.launch r.linst).result = 0x11 ∧ RegistersKept s t) ∧
    (∀ im : Image, l.st = .running → r.image = l.image → r.entry < l.kern.ctlLen →
      (Sparse.get none s.d.images l.image : Option Image) = some im →
      (s.tokenOk im.tok = some true ∨ (x.code.image = some l.image ∧ ∀ w ∈ im.kern.wcs, w ∉ x.code.wmark)) →
      (r.frame.entry = 0 ∨ ((s.ent r.frame.entry).st = .live ∧ (s.ent r.frame.entry).gen = r.frame.gen)) →
      (∀ p ∈ l.slots, 2 ≤ p.1 ∧ p.1 < 32) → (l.slots.map Prod.fst).Nodup →
      ∃ t k, exec (.taskStart c) s = .next t ∧ (∀ pa, t.byte pa = s.byte pa) ∧ (∀ d, d ≠ c → t.core d = s.core d) ∧
        let y := t.core c
        y.taken = none ∧ y.task = some k ∧ k.r = r ∧ k.linst = r.linst ∧ k.initial = initial ∧ k.partner = partner ∧
        y.code.image = some l.image ∧ y.q.st = .running ∧ y.q.pc = r.entry ∧ y.q.priv = l.priv ∧ y.q.tact = false ∧ y.q.stop = false ∧
        y.q.regions = [] ∧ y.q.loops = [] ∧ y.e = {} ∧ y.v = {} ∧ y.wins = [] ∧
        y.c = { tcause := x.c.tcause, tpc := x.c.tpc, tinfo := x.c.tinfo, tvec := l.tvec, prio := l.pri
                stage := BitVec.ofNat 64 (l.linst * 2 ^ 32 + r.stage % 64) } ∧
        y.rdS 0 1 = r.w1 ∧ y.rdS 0 2 = r.w4 ∧ y.rdS 0 3 = r.w5 ∧ y.rdS 0 4 = BitVec.ofNat 64 (fld r.w7.toNat 0 32) ∧
        y.rdS 0 5 = BitVec.ofNat 64 (fld r.w7.toNat 32 32) ∧ (∀ n, 6 ≤ n → n < 64 → y.rdS 0 n = 0#64) ∧
        y.rdK 0 1 = r.frame ∧ (∀ p ∈ l.slots, y.rdK 0 p.1 = p.2) ∧
        (∀ n, 2 ≤ n → n < 32 → n ∉ l.slots.map Prod.fst → y.rdK 0 n = {}) ∧
        (∀ ctx n, y.sMarks ctx n = [] ∧ y.kMarks ctx n = []) ∧ (∀ n, y.vMarks n = []) ∧ y.r.masks = [] ∧ y.r.p = [] ∧
        ∀ n, y.rdV n = if x.lastAsid = none ∨ x.lastAsid = some l.asid then x.rdV n else 0#1024)) ∧
  (∀ (s : State) pane, (s.halted = true → exec (.groupDeliver pane) s = .next s) ∧
    (s.halted = false → ∃ t, exec (.groupDeliver pane) s = .next t ∧ RegistersKept s t ∧ (∀ pa, t.byte pa = s.byte pa) ∧
      ∀ c, (t.core c).q = (s.core c).q ∧ (t.core c).task = (s.core c).task)) ∧
  (∀ (s : State) pane n l g q r0 since b rest (rl : List (Rec × Nat × List (Nat × Nat))), s.halted = false → s.d.launches = [(n, l)] → l.linst = n →
    l.st = .running → l.pane = pane → l.kern.stages = [g] → l.input g.num = some q → (s.queue q).items = .here r0 true since b :: rest →
    r0.redundant = false → l.kern.colevel ≠ 0xFF → l.reserved = [] → s.d.lists = [] → (s.range l).Pairwise (· < ·) →
    let k := l.groupSize l.kern.colevel
    let free := (s.range l).filter (fun c => s.idleCore c && !s.restricted c)
    (s.queue q).items.take k = rl.map (fun p => QItem.here p.1 true p.2.1 p.2.2) → rl.length = k → 1 ≤ k →
    ∃ t, exec (.groupDeliver pane) s = .next t ∧
      (free.length < k → (t.launch n).reserved = free ∧ recordsOf (t.queue q) = recordsOf (s.queue q) ∧
        ∀ c, (t.core c).taken = (s.core c).taken) ∧
      (k ≤ free.length → (t.launch n).reserved = [] ∧ recordsOf (t.queue q) = (recordsOf (s.queue q)).drop k ∧
        (∀ j c (p : Rec × Nat × List (Nat × Nat)), j < k → free[j]? = some c → rl[j]? = some p →
          (t.core c).taken = some (.fresh p.1 true none p.2.2)) ∧
        ∀ c, c ∉ free.take k → (t.core c).taken = (s.core c).taken))

/-- R100, R220, R263, R280 to R282, R309: how a task leaves its core. An ENDING context that has not drained stays; one that has traps
under TRAPEND, and otherwise does the work of the system row, makes its join, an atomic whose zero pushes the continuation, and becomes
IDLE; a FAULTED task is retired: its launch fails with FAULT, its commands and its lease go, and its core becomes IDLE
(notes/assumptions/9.md). -/
def Obligations.TasksEnd : Prop :=
  (∀ (s : State) c k, Drained s c k →
    let x := s.core c
    let traps := x.c.kstat.getLsbD 4 = true ∧ kSticky x.c.kstat = true
    (traps → x.q.tact = false → x.c.tvec ≠ 0 → ∃ t, exec (.taskEndComplete c) s = .next t ∧ OnlyCore c s t ∧ (t.core c).r = x.r ∧
      (t.core c).q.st = .running ∧ (t.core c).q.tact = true ∧ (t.core c).q.pc = x.c.tvec % 2 ^ 15 ∧ (t.core c).c.tcause = 9#64 ∧
      (t.core c).c.tinfo = infoWord 0 false false 3 0 (kEntry x.c.kstat) ∧ (t.core c).task = some k) ∧
    (traps → (x.q.tact = true ∨ x.c.tvec = 0) → ∃ t, exec (.taskEndComplete c) s = .next t ∧ OnlyCore c s t ∧ (t.core c).r = x.r ∧
      (t.core c).q.st = .faulted ∧ (t.core c).c.tcause = 9#64) ∧
    (¬traps → k.r.jdec = 0 → ∃ t, exec (.taskEndComplete c) s = .next t ∧ LeftIdle s t c ∧ BytesKept s t []) ∧
    (∀ u pas, ¬traps → k.r.jdec ≠ 0 → PlainCore s c → NoneDirty s → k.r.joff % 8 = 0 → k.r.frame.entry ≠ 0 →
      (s.ent k.r.frame.entry).st = .live → (s.ent k.r.frame.entry).gen = k.r.frame.gen →
      s.check k.r.frame k.r.joff 8 (rW ||| rA) = .pass u pas → pas.length = 8 → pas.Nodup → Sparse.wf [] s.pub = true →
      s.acquireReady c 3 pas = true → Clean s pas → s.linked pas = true →
      let v := BitVec.ofNat 64 (s.valueAt pas) - BitVec.ofNat 64 k.r.jdec
      ∃ t, exec (.taskEndComplete c) s = .next t ∧ t.valueAt pas = v.toNat ∧ (∀ pa, pa ∉ pas → t.byte pa = s.byte pa) ∧
        (v ≠ 0#64 → LeftIdle s t c) ∧
        ∀ u' rp q, v = 0#64 → s.check k.r.frame (k.r.joff + 8) 64 rR = .pass u' rp → rp.length = 64 → (∀ pa ∈ rp, pa ∉ pas) → Clean s rp →
          let n := Rec.ofBytes (rp.map s.byte)
          let m := n.stamp (s.queue q) k.linst
          (s.launch k.linst).st = .running → (s.launch k.linst).input n.stage = some q →
          ∃ id, ((t.core c).q.holdOf 0).k = .queue id ∧
            (m.w0.toNat < 2 ^ 60 → (t.queue q).arrive = (s.queue q).arrive ++
              [{ core := c, ctx := 0, id := id, op := .push m false, clk := s.now + s.cfg.queueTrip (s.cfg.paneOf c) (q / 256) }]) ∧
            (2 ^ 60 ≤ m.w0.toNat → (t.queue q).arrive = (s.queue q).arrive ∧
              ∃ d ∈ (t.core c).deliv, d.id = id ∧ d.q = q ∧ d.push = true ∧ d.code = 2))) ∧
  (∀ (s : State) c k, (s.core c).task = some k → (s.core c).q.st = .ending → ((s.core c).q.holdOf 0).k = .free → s.quiet c = true →
    (s.core c).deliv = [] → k.joined = true → s.performed c = true →
    ∃ t, exec (.taskEndComplete c) s = .next t ∧ (t.core c).q.st = .idle ∧ (t.core c).task = none ∧ ∀ pa, t.byte pa = s.byte pa) ∧
  (∀ (s : State) c, ((s.core c).q.st ≠ .ending ∨ s.quiet c = false ∨ s.performed c = false ∨ (s.core c).deliv ≠ []) →
    exec (.taskEndComplete c) s = .next s) ∧
  (∀ (s : State) c,
    let n := s.linstOf c
    ((s.core c).q.st ≠ .faulted ∨ s.performed c = false → exec (.taskRetire c) s = .next s) ∧
    ((s.core c).q.st = .faulted → s.performed c = true → ∃ t, exec (.taskRetire c) s = .next t ∧ LeftIdle s t c ∧ BytesKept s t [] ∧
      ((s.launch n).st = .running → (t.launch n).st = .failing ∧ (t.launch n).result = 0x10) ∧
      (t.marver (s.cfg.marver c)).holder ≠ some c ∧ (∀ k ∈ (t.marver (s.cfg.marver c)).order, k.core ≠ c) ∧
      ∀ k ∈ (t.umOf (s.cfg.paneOf c)).order, k.core ≠ c))

/-- R86, R105 to R111, R164, R165, R275: a stop honoured at a point of R97 or in a waiting instruction of R286 puts its context in
STOPPING, the token passes the empty queues, and the save leaves the context's image in its area, an entry in its list and its core idle;
a resumed context, and one that `ctxrest` reads, is its image's; `ctxsave` writes one; an urgent record stops the task of the lowest
priority; `wcsld` loads a slot. Areas and lists lie where the Wilgor complex has set bytes aside (notes/assumptions/9.md, 21.md, 31.md,
40.md, 53.md, 55.md, 56.md). -/
def Obligations.TasksSaveAndResume : Prop :=
  (∀ (s : State) c,
    let x := s.core c
    let waits := s.mayAbandon c
    let list := s.listOf c
    let mine (m : MxCmd) : Prop := m ∈ (s.marver (s.cfg.marver c)).order ∧ m.core = c ∧ m.done = false
    (∀ k, (x.q.holdOf 0).k = k →
      (∀ a b, k = .bar a b → (waits = true ↔ ∀ b ∈ s.d.bars, b.rel = true → c ∉ b.arr)) ∧
      (∀ pa (target : Word) acq scope met w, k = .sig pa target acq scope met w →
        (waits = true ↔ met = false ∧ s.valueAt ((List.range 8).map (pa + ·)) < target.toNat)) ∧
      (∀ f j room, k = .fut f j room → waits = room) ∧ (k = .free → waits = false)) ∧
    (∀ k a i, s.halted = false → x.q.st = .running → x.q.stop = true → x.q.tact = false → x.q.late = [] → x.q.armed = none →
      (x.q.point ≠ 0 ∨ waits = true) → x.task = some k → s.freeArea (s.cfg.paneOf c) = some a → s.freeList list = some i →
      ∃ t, exec (.stopHonour c) s = .next t ∧ (∀ pa, t.byte pa = s.byte pa) ∧ (∀ d, d ≠ c → (t.core d).r = (s.core d).r) ∧
        let y := t.core c
        y.r = { x.r with sm := y.r.sm } ∧ y.q.st = .stopping ∧ y.q.token = 0 ∧ y.q.pc = x.q.pc ∧
        y.q.reason = (if x.q.point = 2 ∧ waits = false then 1 else 0) ∧ (waits = true → (y.q.holdOf 0).k = .free) ∧
        (∀ h ∈ [1, 2, 3], (y.q.hctx h).st = .held ∧ (y.q.hctx h).pc = (x.q.hctx h).pc ∧
          ((y.q.hctx h).ran = true ↔ (x.q.hctx h).st = .running)) ∧
        (Sparse.get {} t.d.lists (list * 1024 + i) : SaveE) = { linst := k.linst, mcore := c, area := a, uid := k.uid, initial := k.initial
                                                                partner := k.partner, wseq := x.q.wseq } ∧
        s.cfg.paneOf c * 256 + a ∈ t.d.areaUsed ∧
        ((∃ m, mine m ∧ m.nblk ≠ 0) → t.marver (s.cfg.marver c) = s.marver (s.cfg.marver c)) ∧
        ((∀ m, mine m → m.nblk = 0) → (t.marver (s.cfg.marver c)).holder ≠ some c ∧
          ∀ m ∈ (t.marver (s.cfg.marver c)).order, m.core = c → m.done = true)) ∧
    (s.halted = true ∨ x.q.st ≠ .running ∨ x.q.stop = false ∨ x.q.tact = true ∨ (x.q.point = 0 ∧ waits = false) ∨ s.freeArea (s.cfg.paneOf c) = none ∨
      s.freeList list = none → exec (.stopHonour c) s = .next s) ∧
    (∀ q, x.q.st = .stopping → x.q.token = q → q < 3 → (x.v.queue q = [] → ∃ t, exec (.stopTokenPass c q) s = .next t ∧ OnlyCore c s t ∧
        t.core c = { x with q := { x.q with token := q + 1 } }) ∧
      (x.v.queue q ≠ [] → exec (.stopTokenPass c q) s = .next s))) ∧
  (∀ (s : State) c key, s.saveSlot c = some key → (s.core c).q.st = .stopping → (s.core c).q.token = 3 → s.quiesced c = true →
    let x := s.core c
    let e : SaveE := Sparse.get {} s.d.lists key
    let area := key / 1024 / 4 * 256 + e.area
    let at' := s.areaOf key
    let pas := (imageOffsets x.e.twr).map (at' + ·)
    let entry := (List.range 16).map (listPA key + ·)
    ((s.launch e.linst).st = .running → x.q.reason < 4 → (∀ pa ∈ entry, pa ∉ pas) → (∀ k ∈ x.e.mxq, k.done = false) →
      ∃ t, exec (.contextSaveComplete c) s = .next t ∧ (t.core c).q.st = .idle ∧ (t.core c).task = none ∧ BytesKept s t (pas ++ entry) ∧
        entry.map t.byte = leBytes 8 (2 ^ 63 + c % 1024 * 2 ^ 46 + at') ++ leBytes 8 (e.linst % 2 ^ 32) ∧
        (∀ d, d ≠ c → (t.core d).r = (s.core d).r) ∧ (Sparse.get {} t.d.lists key : SaveE) = { e with valid := true, savedAt := s.now } ∧
        (∀ n, n < 32 → key / 1024 < 64 → c < 1024 → (x.rdK 0 n).entry ≠ 0 → (s.ent (x.rdK 0 n).entry).st = .live →
          (t.ent (x.rdK 0 n).entry).lists.getLsbD (key / 1024) = true ∧ (t.ent (x.rdK 0 n).entry).holders.getLsbD c = false) ∧
        ImageOf s c (if x.q.issue.act = true then x.q.issue.pc + 2 else x.q.pc) (fun o => t.byte (at' + o))) ∧
    ((s.launch e.linst).st ≠ .running → ∃ t, exec (.contextSaveComplete c) s = .next t ∧ (t.core c).q.st = .idle ∧ (t.core c).task = none ∧
      (Sparse.get {} t.d.lists key : SaveE) = {} ∧ area ∉ t.d.areaUsed)) ∧
  (∀ (s : State) c list idx (im : Image), s.halted = false → (s.core c).taken = some (.resume list idx) →
    let key := list * 1024 + idx
    let e : SaveE := Sparse.get {} s.d.lists key
    let area := list / 4 * 256 + e.area
    let rd := fun o => s.byte (s.areaOf key + o)
    let entry := (List.range 16).map (listPA key + ·)
    e.valid = true → (s.launch e.linst).st = .running → idx < 1024 →
    (Sparse.get none s.d.images (s.launch e.linst).image : Option Image) = some im → s.tokenOk im.tok = some true →
    imgLease rd = false → bit (imgNat rd 8 8) 0 = false → Clean s ((imageOffsets (imgTwr rd)).map (s.areaOf key + ·)) →
    ∃ t k, exec (.taskStart c) s = .next t ∧ BytesKept s t entry ∧ (∀ pa ∈ entry, t.byte pa = 0#8) ∧ (∀ d, d ≠ c → (t.core d).r = (s.core d).r) ∧
      HoldsImage t c rd ∧ (t.core c).taken = none ∧ (t.core c).task = some k ∧ k.uid = e.uid ∧ k.linst = e.linst ∧ k.initial = e.initial ∧
      (Sparse.get {} t.d.lists key : SaveE) = {} ∧ area ∉ t.d.areaUsed) ∧
  (∀ (s : State) pane slot r i since b rest,
    let qn := pane * 256 + slot
    let l := s.launch (s.queue qn).owner
    let feeds (c : Nat) : Prop := c ∈ s.range l ∧ l.input (s.stageOf l c) = some qn
    let mine (c : Nat) : Prop := feeds c ∧ (s.core c).q.st = .running ∧ (s.core c).c.prio < 3 ∧ ∃ k, (s.core c).task = some k ∧
      ¬(k.initial = true ∧ (s.launch k.linst).kern.colevel ≠ 0xFF)
    (s.queue qn).items = .here r i since b :: rest → r.pri = 3 → 0 < since → since - 1 + s.gintOf pane ≤ s.now → l.st = .running →
    (∀ c, feeds c → (s.core c).q.st ≠ .idle ∧ (s.core c).busyAt + s.gintOf pane ≤ s.now) → (s.queue qn).urgent = 0 → (∃ c, mine c) →
    ∃ t c, exec (.urgentStop pane slot) s = .next t ∧ mine c ∧
      (∀ d, mine d → (s.core c).c.prio < (s.core d).c.prio ∨ ((s.core c).c.prio = (s.core d).c.prio ∧ d ≤ c)) ∧
      t.core c = { s.core c with q := { (s.core c).q with stop := true } } ∧ (t.queue qn).urgent = c + 1 ∧ ∀ d, d ≠ c → t.core d = s.core d) ∧
  (∀ (s : State) m,
    let c := s.cur
    let ready := (s.holds .drain).saveReady = true
    let save := Instr.ctxsave m
    let rest := Instr.ctxrest m
    let l := memSrcs m
    (∀ i k, (i = save ∧ k = 0x0A) ∨ (i = rest ∧ k = 0x0B) →
      (s.me.q.priv = false → TrapsBy i l s 10 k s.me.q.pc) ∧
      (s.me.q.priv = true → s.me.q.tact = true → TrapsBy i l s 1 k s.me.q.pc) ∧
      (s.me.q.priv = true → s.me.q.tact = false → ready → ∀ b e, s.check (s.tk m.k) (s.offOf m) imageLen (if k = 0x0A then rW else rR) = .fail b e →
        TrapsBy i l s 9 e s.me.q.pc) ∧
      (s.me.q.priv = true → s.me.q.tact = false → ¬ready → WordResult i l s (fun t => Quiet s t ∧ Goes s t (s.me.q.pcOf s.ctx) ∧
        (t.core c).q.holdOf s.ctx = { k := .drain, since := s.me.q.nid }))) ∧
    (∀ u pas, s.me.q.priv = true → s.me.q.tact = false → ready → s.check (s.tk m.k) (s.offOf m) imageLen rW = .pass u pas → pas.Nodup →
      s.linked pas = true → WordResult save l s (fun t => Passes s t 1 ∧ RegistersKept s t ∧ BytesKept s t pas ∧
        ImageOf s c (t.core c).q.pc (fun o => t.byte (pas.getD o 0)))) ∧
    (∀ u pas, s.me.q.priv = true → s.me.q.tact = false → ready → s.check (s.tk m.k) (s.offOf m) imageLen rR = .pass u pas → u.kind ≠ 2 →
      PlainCore s c → NoneDirty s → Clean s pas → s.linked pas = true →
      let rd := fun o => s.byte (pas.getD o 0)
      (∀ o, imageBad rd = some o → WordResult rest l s (fun t => TrapTaken s t 1 o)) ∧
      (imageBad rd = none → imgNat rd 0 1 ≠ 1 ∨ fld (imgNat rd 0 8) 32 10 ≠ c →
        WordResult rest l s (fun t => TrapTaken s t 1 0x0B)) ∧
      (imageBad rd = none → imgNat rd 0 1 = 1 → fld (imgNat rd 0 8) 32 10 = c → imgLease rd = false → bit (imgNat rd 8 8) 0 = false →
        WordResult rest l s (fun t => (∀ pa, t.byte pa = s.byte pa) ∧ (∀ d, d ≠ c → (t.core d).r = (s.core d).r) ∧ HoldsImage t c rd)))) ∧
  (∀ (s : State) n m, (∀ a ∈ s.me.acc, a.ctx = s.ctx → s.me.q.nid ≤ a.id) →
    let l := memSrcs m
    let chk := fun w => s.check (s.tk m.k) (s.offOf m) w rR
    (∀ b e, chk 40 = .fail b e → TrapsBy (.wcsld n m) l s 9 e s.me.q.pc) ∧
    (∀ u all count, PlainCore s s.cur → u.kind ≠ 2 → Clean s all → s.linked all = true → chk (40 + 16 * count) = .pass u all → chk 40 = .pass u (all.take 40) →
      let b := fun i => s.byte (all.getD i 0)
      (b 1).toNat = count →
      ((b 0).toNat ≠ n ∨ count = 0 ∨ 32 < count ∨ (∃ i, 2 ≤ i ∧ i < 8 ∧ b i ≠ 0#8) → s.ctx = 0 →
        WordResult (.wcsld n m) l s (fun t => TrapTaken s t 1 0x0D)) ∧
      ((b 0).toNat = n → 1 ≤ count → count ≤ 32 → (∀ i, 2 ≤ i → i < 8 → b i = 0#8) → WordResult (.wcsld n m) l s (fun t =>
        Passes s t 1 ∧ RegistersKept s t ∧ (∀ pa, t.byte pa = s.byte pa) ∧ ((t.core s.cur).slot n).length = count ∧ n ∈ (t.core s.cur).code.wmark ∧
        (∀ i, i < count → ((t.core s.cur).slot n)[i]? =
          some (b (8 + i), BitVec.ofNat 128 (s.valueAt ((all.drop (40 + 16 * i)).take 16)))) ∧
        ∀ k, k ≠ n → (t.core s.cur).slot k = s.me.slot k))))

/-! ### Launches -/

/-- R113, R222, R255, R256, R258, R260, R263, R267 to R269, R352: how launches run. A slot whose seal the line monitor has seen, or a
rung mailbox, begins to load, or is answered with its code (notes/assumptions/31.md, 41.md, 43.md, 46.md); a loaded launch is RUNNING with its queues bound and its cores assigned to stages; its initial records are
pushed one a clock; it completes with its signal, its journal entry and its queues freed; the Gaffer samples it on the last clock of
its interval and moves a core; a broken ITERBOUND promise is logged once, however its V-words, their stores or its unmasking commands
stand. The events before their time do nothing (notes/assumptions/9.md); the log's kind 6 (14.md), a DONEVA that does not translate and
a node's journal type (42.md) and the requester 1,024 + pane (44.md) are the model's choices. -/
def Obligations.LaunchesRun : Prop :=
  (∀ (s : State) slot,
    let s' : State := { s with io := { s.io with sealing := s.io.sealing.filter (fun p => p.1 != slot) } }
    ((∀ p ∈ s.io.sealing, p.1 ≠ slot) → exec (.launchSeal slot) s = .next s) ∧
    ∀ wilgor ws, s.io.sealing.find? (fun p => p.1 == slot) = some (slot, wilgor, ws) →
      let l := Launch.ofWords ws (.window slot) wilgor
      (l.bad1 = true → ∃ t, exec (.launchSeal slot) s = .next t ∧ Answered s' t l 1 0 ∧ RegistersKept s t ∧ ∀ pa, t.byte pa = s.byte pa) ∧
      (∀ u code, s'.load l = .reject u code → ∃ t, exec (.launchSeal slot) s = .next t ∧ Answered u t l code 0) ∧
      (NotRejected s' l → ∃ t, exec (.launchSeal slot) s = .next t ∧ BeginsLoading s' t l)) ∧
  (∀ (s : State) slot wilgor,
    (4096 ≤ slot ∨ slot ∈ s.io.sealed → s.sealSlot slot wilgor = s) ∧
    (slot < 4096 → slot ∉ s.io.sealed → (s.sealSlot slot wilgor).io =
      { s.io with sealed := slot :: s.io.sealed, sealing := s.io.sealing ++ [(slot, wilgor, s.slotWords slot)] })) ∧
  (∀ (s : State) lid l, s.d.loading.find? (fun p => p.1 == lid) = some (lid, l) →
    (s.load l = .wait → exec (.launchRunning lid) s = .next s) ∧
    (∀ u code, s.load l = .reject u code → ∃ t, exec (.launchRunning lid) s = .next t ∧ Answered u t l code 0 ∧ RegistersKept u t) ∧
    ∀ u v, s.load l = .ok u v →
      let n := u.d.nextLinst
      let ns := v.kern.stages.length
      ∃ t, exec (.launchRunning lid) s = .next t ∧ Answered u t v 0 n ∧ RegistersKept u t ∧ t.d.nextLinst = (if n + 1 = 2 ^ 32 then 1 else n + 1) ∧
        let y := t.launch n
        y.st = .running ∧ y.linst = n ∧ y.words = v.words ∧ y.kern = v.kern ∧ y.chans = v.chans ∧ y.gbegin = s.now ∧
        (v.pushed = 0 → v.pushAt = 0 → 0 < v.total → ∀ q, v.input 0 = some q →
          (∀ r ∈ (u.queue q).arrive ++ (u.queue q).stalled, ∀ a, r.op ≠ .push a true) → y.pushed = 1 ∧ y.pushAt = s.now + 1) ∧
        (∀ j, j < v.cnum → Sparse.get 0 y.assign (v.cfirst + j) = if j < v.cnum - (ns - 1) then 0 else j + ns - v.cnum) ∧
        v.words = l.words ∧ v.chans = (s.freeQueues l.pane).take v.kern.chans.length ∧ v.chans.length = v.kern.chans.length ∧
        ∀ i q c, v.chans[i]? = some q → v.kern.chans[i]? = some c →
          (u.queue q).st = 1 ∧ (u.queue q).owner = n ∧ (u.queue q).spill = c.spill ∧ (u.queue q).depth = c.depth ∧ (u.queue q).pri = l.pri ∧
          ∀ g, v.kern.stages.find? (fun g => g.chan == i) = some g → (u.queue q).stage = g.num + 1) ∧
  (∀ (s : State) n q,
    let l := s.launch n
    let v := s.queue q
    (l.pushAt = s.now + 1 → exec (.initialRecordPush n) s = .next s) ∧
    (l.input 0 = some q → l.st = .running → l.pushed < l.total → l.pushAt ≠ s.now + 1 →
    (∀ r ∈ v.arrive ++ v.stalled, ∀ a, r.op ≠ .push a true) →
    ∃ t, exec (.initialRecordPush n) s = .next t ∧ t = { s with queues := t.queues, d := t.d } ∧ (t.launch n).pushed = l.pushed + 1 ∧
      (t.launch n).pushAt = s.now + 1 ∧ (t.queue q).arrive = v.arrive ++ [{ core := 1024 + l.pane, ctx := 0, id := 0, op := .push (l.initial l.pushed) true, clk := s.now }])) ∧
  (∀ (l : Launch) k,
    let r := l.initial k
    let w := l.kern.widths
    (l.image < 2 ^ 16 → l.pri < 4 → (∀ g ∈ l.kern.stages, g.entry < 2 ^ 32) → r.image = l.image ∧ r.pri = l.pri ∧ r.stage = 0 ∧
      r.redundant = false ∧ ∀ g, l.kern.stages.find? (fun g => g.num == 0) = some g → r.entry = g.entry) ∧
    r.w4 = l.words.getD 8 0#64 ∧ r.w5 = l.words.getD 9 0#64 ∧ r.w6 = l.words.getD 10 0#64 ∧ (l.linst < 2 ^ 32 → r.linst = l.linst) ∧
    (w.sum ≤ 64 → (∀ f, f < w.length → 1 ≤ l.extent f ∧ l.extent f ≤ 2 ^ w.getD f 0) → ∀ f, f < w.length →
      fld r.w1.toNat (w.take f).sum (w.getD f 0) = k / ((List.range f).map l.extent).foldl (· * ·) 1 % l.extent f)) ∧
  (∀ (s : State) n,
    let l := s.launch n
    let va := fld (l.w 2) 0 48
    let result := if l.st = .failing then l.result else 0
    let told (u t : State) : Prop := Journals u t (0x3000 + l.pane) 0 0 result n 0x20 0 ∧ (t.launch n).st = .done ∧ (∀ q ∈ l.chans, t.queue q = {}) ∧
      RegistersKept u t ∧
      match l.src with
      | .mailbox c => t.barNat (mailboxAt c + 16) 8 = ((if result = 0 then 2 else 3) + result * 2 ^ 8 + n * 2 ^ 32) % 2 ^ 64
      | .ring r _ => (t.ring r).opened = (u.ring r).opened.filter (· != 2 * n)
      | .node g k => ∃ e ∈ t.d.nodes, e.graph = g ∧ e.node = k ∧ e.result = result ∧ e.pane = l.pane ∧ e.gts = u.gts0 ∧ e.source = 0x3000 + l.pane
      | .window _ => True
    (s.finished n = false → exec (.launchDone n) s = .next s) ∧
    (s.finished n = true →
      (va = 0 → ∃ t, exec (.launchDone n) s = .next t ∧ told s t) ∧
      (va ≠ 0 → s.signalAt l.asid va (rW ||| rA) = .fail → ∃ t, exec (.launchDone n) s = .next t ∧ told s t) ∧
      (va ≠ 0 → s.signalAt l.asid va (rW ||| rA) = .wait → exec (.launchDone n) s = .next s) ∧
      ∀ u pas e, va ≠ 0 → s.signalAt l.asid va (rW ||| rA) = .ok u pas e → pas.length = 8 → pas.Nodup → NoneDirty u → Clean u pas →
        let freed (pa : Nat) : Prop := ∃ p ∈ s.d.lists, p.2.valid = true ∧ p.2.linst = n ∧ listPA p.1 ≤ pa ∧ pa < listPA p.1 + 16
        ∃ t, exec (.launchDone n) s = .next t ∧ told u t ∧
          ((∀ pa ∈ pas, ¬freed pa) → t.valueAt pas = (u.valueAt pas + fld (l.w 5) 32 32) % 2 ^ 64) ∧
          ∀ pa, pa ∉ pas → ¬freed pa → t.byte pa = u.byte pa)) ∧
  (∀ (s : State) c,
    let w0 := s.barNat (mailboxAt c) 8
    let t0 : State := { s with io := { s.io with doors := s.io.doors.filter (· != c) } }
    let fails (code : Nat) : Prop := ∃ t, exec (.bootDoor c) s = .next t ∧ Journals s t (0x2000 + c) c 0 code 0 0x11 0 ∧ c ∉ t.io.doors ∧
      t.barNat (mailboxAt c + 16) 8 = 3 + code * 2 ^ 8 ∧ RegistersKept s t
    (∀ b : Byte, c < 1024 → s.io.linkReset = false →
      (b.getLsbD 0 = true → s.barNat (mailboxAt c + 16) 1 ≠ 1 → c ∈ (s.barTurn (mailboxAt c + 56) b).io.doors) ∧
      (b.getLsbD 0 = false ∨ s.barNat (mailboxAt c + 16) 1 = 1 → (s.barTurn (mailboxAt c + 56) b).io.doors = s.io.doors)) ∧
    (c ∉ s.io.doors → exec (.bootDoor c) s = .next s) ∧
    (c ∈ s.io.doors → s.cfg.total ≤ c → exec (.bootDoor c) s = .next t0) ∧
    (c ∈ s.io.doors → c < s.cfg.total →
      (fld w0 24 40 ≠ 0 → fails 1) ∧
      (fld w0 24 40 = 0 → (Sparse.get none s.d.images (fld w0 0 12) : Option Image) = none → fails 8) ∧
      ∀ im : Image, fld w0 24 40 = 0 → (Sparse.get none s.d.images (fld w0 0 12) : Option Image) = some im →
        let k := im.kern
        let small := k.stages.length = 1 ∧ k.chans.length = 1 ∧ k.spills = 0 ∧ k.frame = 0 ∧ k.datas = [] ∧ ∀ x ∈ k.slots, x.dsec ≠ 0xFF
        (s.tokenOk im.tok = some false ∨ (s.tokenOk im.tok = some true ∧ im.asid ≠ fld w0 12 12) → fails 8) ∧
        (s.tokenOk im.tok = some true → im.asid = fld w0 12 12 → ¬small → fails 1) ∧
        (s.tokenOk im.tok = some true → im.asid = fld w0 12 12 → small → s.cfg.paneOf c < 16 → s.cfg.pcoreOf c < 64 →
          ∃ l : Launch, l.src = .mailbox c ∧ l.image = fld w0 0 12 ∧ l.asid = fld w0 12 12 ∧ l.pane = s.cfg.paneOf c ∧
            l.cfirst = s.cfg.pcoreOf c ∧ l.cnum = 1 ∧ l.words.getD 8 0#64 = BitVec.ofNat 64 (s.barNat (mailboxAt c + 8) 8) ∧
            (NotRejected t0 l → ∃ t, exec (.bootDoor c) s = .next t ∧ BeginsLoading t0 t l)))) ∧
  (∀ (s : State) n,
    let l := s.launch n
    let press (i : Nat) : Nat := match l.input i with
      | some q => (s.queue q).occ
      | none => 0
    let big (i : Nat) : Prop := i < l.nstage ∧ 2 ≤ (s.assigned l i).length
    ((l.st ≠ .running ∨ s.now + 1 ≠ l.gbegin + l.glen) → exec (.gafferSample n) s = .next s) ∧
    (l.st = .running → s.now + 1 = l.gbegin + l.glen → ∃ t, exec (.gafferSample n) s = .next t ∧ t = { s with d := t.d } ∧
      t.launch n = { l with move := (t.launch n).move, gbegin := s.now + 1, glen := s.gintOf l.pane } ∧
      (l.nstage < 2 ∨ l.move.isSome = true → (t.launch n).move = l.move) ∧
      (2 ≤ l.nstage → l.move = none →
        (∀ lo hi, (t.launch n).move = some (lo, hi) ↔ hi < l.nstage ∧ big lo ∧ lo ≠ hi ∧ Sparse.get 32 s.d.gthr l.pane + press lo ≤ press hi ∧
          (∀ i, i < l.nstage → press i < press hi ∨ (press i = press hi ∧ hi ≤ i)) ∧
          ∀ i, big i → press lo < press i ∨ (press i = press lo ∧ lo ≤ i))))) ∧
  (∀ (s : State) c n l lo hi, s.d.launches = [(n, l)] → l.move = some (lo, hi) → l.st = .running → c ∈ s.range l → s.stageOf l c = lo →
    s.atBoundary c = true → (∀ d ∈ s.assigned l lo, s.atBoundary d = true → c ≤ d) →
    ∃ t, exec (.gafferMove c) s = .next t ∧ RegistersKept s t ∧ (t.launch n).move = none ∧ t.stageOf (t.launch n) c = hi ∧
      ∀ d, s.slotOf d ≠ s.slotOf c → t.stageOf (t.launch n) d = s.stageOf l d) ∧
  (∀ (s : State) c,
    let x := s.core c
    let ib := (s.kernel c).iterbound
    let broken := (x.q.st = .running ∧ x.q.pointAt + ib < s.now) ∨ (∃ q, q < 3 ∧ ∃ e ∈ x.v.queue q, e.cap.clk + ib < s.now) ∨
      (∃ f ∈ x.v.fl, f.clk + ib < s.now) ∨ (∃ a ∈ x.acc, a.op = .vstore ∧ a.clk + ib < s.now) ∨
      (∃ h ∈ s.w.held, h.core = c ∧ ∃ a, h.op = .acc a ∧ a.op = .vstore ∧ a.clk + ib < s.now) ∨
      ∃ k ∈ (s.umOf (s.cfg.paneOf c)).order, k.core = c ∧ k.done = false ∧ k.clk + ib < s.now
    (ib = 0 ∨ x.q.breach = x.q.nid ∨ ¬broken → exec (.iterboundBreach c) s = .next s) ∧
    (ib ≠ 0 → x.q.breach ≠ x.q.nid → x.task.isSome = true → broken →
      ∃ t, exec (.iterboundBreach c) s = .next t ∧ RegistersKept s t ∧ (t.core c).q.breach = x.q.nid ∧ t.w.log.head? =
        some { gts := s.gts0, kind := 6, detail := s.linstOf c + c * 2 ^ 32 + x.code.image.getD 0 * 2 ^ 48 }))

/-- R320 to R328, R330 to R332: command rings, their packets and the journal. A descriptor that is enabled and whole makes its ring
ACTIVE; a free slot takes the next packet; each packet does its work, ends with its status and moves HEAD, or parks its ring; one whose
capability the Wilgor complex's access breaks journals the field and ends with CAP; the journal takes entries by time stamp and source.
Which access breaks its capability, and the journal's type of a packet of no known TYPE, are free values (notes/assumptions/50.md); an
event before its time does nothing (9.md) and a graph's node journals as a launch packet does (42.md): these are the model's choices. -/
def Obligations.RingsAndPackets : Prop :=
  (∀ (s : State) r, r < 4096 → (s.ring r).st = 0 → s.ringOn r = true → s.halted = false →
    let d0 := s.barNat (descAt r) 8
    let d1 := s.barNat (descAt r + 8) 8
    let lg := fld d0 1 5
    let whole := fld d0 18 46 = 0 ∧ fld d1 48 16 = 0 ∧ 4 ≤ lg ∧ lg ≤ 16 ∧ d1 % 4096 = 0
    let got := s.grant none (fld d0 6 12) (fld d1 0 48) (128 * 2 ^ lg) rR
    let faults (code : Nat) : Prop := ∃ t, exec (.ringEnable r) s = .next t ∧ (t.ring r).st = 3 ∧ (t.ring r).code = code ∧ (t.ring r).cur = none ∧
      Journals s t r 0 0 0 0 0x30 0 ∧ t.io.msix = 1 :: s.io.msix
    let cap := s.capFault [8]
    (¬whole → faults 1) ∧ (∀ a b, whole → cap = none → got = .fail a b → faults 2) ∧
    (whole → cap ≠ none → ∃ t, exec (.ringEnable r) s = .next t ∧ (t.ring r).st = 3 ∧ (t.ring r).code = 3 ∧ t.io.msix = 1 :: s.io.msix ∧
      Journals s t 0x4000 0 0 0 0 0x32 8) ∧
    (whole → cap = none → got = .wait → exec (.ringEnable r) s = .next s) ∧
    ∀ u tok, whole → cap = none → got = .ok u tok → ∃ t, exec (.ringEnable r) s = .next t ∧ t.ring r = { s.ring r with
      st := 1, code := 0, head := 0, shown := 0, asid := fld d0 6 12, log2n := lg, tok := tok, polled := s.now, look := true, off := false }) ∧
  (∀ (s : State) r,
    let v := s.ring r
    let busy := v.cur ≠ none ∨ v.loading = true ∨ ∃ e ∈ s.io.jpend, e.source = r ∧ e.packet = true
    (v.st = 0 ∨ (s.ringOn r = true ∧ v.off = false) ∨ busy → exec (.ringDisable r) s = .next s) ∧
    (v.st ≠ 0 → s.ringOn r = false ∨ v.off = true → ¬busy → ∃ t, exec (.ringDisable r) s = .next t ∧ t = { s with io := t.io } ∧
      t.ring r = { v with st := 0, tok := {}, wait := none, met := false, off := false }) ∧
    (let looks := v.st = 1 ∧ v.cur = none ∧ v.loading = false ∧ (v.look = true → s.packetThere r = false) ∧
        (v.look = false → v.polled + 1024 ≤ s.now)
     (¬looks → exec (.ringPoll r) s = .next s) ∧
     (looks → ∃ t, exec (.ringPoll r) s = .next t ∧ t = { s with io := t.io } ∧
        t.ring r = { v with look := s.packetThere r, polled := s.now })) ∧
    (v.st = 2 → v.wait = none → s.parkedWaits r = false → ∃ t, exec (.ringUnpark r) s = .next t ∧ t.ring r = { v with st := 1, look := true }) ∧
    (∀ pa target, v.st = 2 → v.wait = some (pa, target) →
      let there := v.met = true ∨ target.toNat ≤ s.valueAt ((List.range 8).map (pa + ·))
      (there → ∃ t, exec (.ringUnpark r) s = .next t ∧ t.ring r = { v with st := 1, met := true, look := true }) ∧
      (¬there → exec (.ringUnpark r) s = .next s))) ∧
  (∀ (s : State) r, s.halted = false → (s.io.rings.filter (fun p => p.2.cur.isSome || p.2.loading)).length < 64 → s.ringReady r = true →
    (∀ p ∈ s.io.rings, s.ringReady p.1 = true → (r + 8191 - s.io.lastRing) % 4096 ≤ (p.1 + 8191 - s.io.lastRing) % 4096) →
    (∀ code, s.nextPacket r = .bad code → ∃ t, exec (.packetFetch r) s = .next t ∧ (t.ring r).st = 3 ∧ (t.ring r).code = code ∧
      Journals s t r (s.ring r).head 0 0 0 0x30 0 ∧ t.io.msix = 1 :: s.io.msix ∧ t.io.lastRing = r) ∧
    ∀ pas, s.nextPacket r = .here pas → s.acquireReady 4096 5 pas = true → Clean s pas →
      (∀ i, s.packet r pas = some i → ∃ t, exec (.packetFetch r) s = .next t ∧ t.ring r = { s.ring r with cur := some i, started := s.tick } ∧ t.io.lastRing = r) ∧
      (s.packet r pas = none → ∃ t type, exec (.packetFetch r) s = .next t ∧ PacketDone s t r 1 0 type ∧ type < 6 ∧
        ((s.byte (pas.headD 0)).toNat % 128 < 6 → type = (s.byte (pas.headD 0)).toNat % 128) ∧ t.io.lastRing = r)) ∧
  (∀ (s : State) r i f, (s.ring r).cur = some i →
    let c (fields : List Nat) : Prop := s.capFault fields = some f
    let done (type : Nat) : Prop := ∃ t, exec i s = .next t ∧ Journals s t 0x4000 0 0 0 0 0x32 f ∧ (t.ring r).cur = none ∧
      (t.ring r).head = ((s.ring r).head + 1) % 2 ^ 32 ∧ ∃ e ∈ t.io.jpend, e.source = r ∧ e.index = (s.ring r).head ∧ e.pstat = 3 ∧
        e.result = 0 ∧ e.type = type ∧ e.packet = true
    (∀ rec, i = .launchPacket r rec → c [8, 16, 24, 32, 48, 56] → done 1) ∧
    (∀ va, i = .graphPacket r va → c [8] → done 2) ∧ (∀ va target, i = .waitPacket r va target → c [8] → done 3) ∧
    (∀ set fence va v, i = .signalPacket r set fence va v → fence = false ∨ (s.ring r).opened = [] → c [8] → done 4) ∧
    (∀ mv va len nv, i = .revokePacket r mv va len nv → (s.ring r).loading = false → c (if mv then [8, 24] else [8]) → done 5)) ∧
  (∀ (s : State) r, (s.ring r).cur = some (.nopPacket r) → ∃ t, exec (.nopPacket r) s = .next t ∧ t = { s with io := t.io } ∧ PacketDone s t r 0 0 0) ∧
  (∀ (s : State) r rec, (s.ring r).cur = some (.launchPacket r rec) → s.capFault [8, 16, 24, 32, 48, 56] = none →
    let l := Launch.ofWords ((rec.take 15).set 0 (setFld (rec.getD 0 0#64) 7 1 0) ++ [BitVec.ofNat 64 ((rec.getD 15 0#64).toNat % 2 ^ 56)])
      (.ring r (s.ring r).head) false
    let s' := s.setRing r { s.ring r with cur := none, loading := true }
    (l.bad1 = true → ∃ t, exec (.launchPacket r rec) s = .next t ∧ Answered s' t l 1 0) ∧
    (∀ u code, s'.load l = .reject u code → ∃ t, exec (.launchPacket r rec) s = .next t ∧ Answered u t l code 0) ∧
    (NotRejected s' l → ∃ t, exec (.launchPacket r rec) s = .next t ∧ BeginsLoading s' t l)) ∧
  (∀ (s : State) r va, (s.ring r).cur = some (.graphPacket r va) → s.capFault [8] = none →
    let v := s.ring r
    (s.vpas v.asid va.toNat 64 rR = none → ∃ t, exec (.graphPacket r va) s = .next t ∧ PacketDone s t r 2 0 2) ∧
    ∀ head, s.vpas v.asid va.toNat 64 rR = some head →
      let nn := fld (s.vnat head 0 8) 16 16
      let got := s.grant none v.asid va.toNat (64 + 256 * nn) (rR ||| rW)
      (got = .wait → s.parkedWaits r = true → ∃ t, exec (.graphPacket r va) s = .next t ∧
        t.ring r = { v with st := 2, cur := none, wait := none, met := false, entry := 0 }) ∧
      (got = .wait → s.parkedWaits r = false → exec (.graphPacket r va) s = .next s) ∧
      (∀ a b, got = .fail a b → ∃ t, exec (.graphPacket r va) s = .next t ∧ PacketDone s t r 2 0 2) ∧
      ∀ u tok, got = .ok u tok →
        let g : Graph := { asid := v.asid, tok := tok, nnode := nn, ring := r, idx := v.head, failed := false, live := 0 }
        let gn := u.d.nextGraph
        (u.graphBad g head = true → ∃ t, exec (.graphPacket r va) s = .next t ∧ PacketDone s t r 0 1 2) ∧
        (u.graphBad g head = false → ∃ t g', exec (.graphPacket r va) s = .next t ∧ JournalsAs true s t r v.head 0 0 0 2 0 ∧
          (t.ring r).head = (v.head + 1) % 2 ^ 32 ∧ (t.ring r).cur = none ∧ 2 * gn + 1 ∈ (t.ring r).opened ∧ t.graph gn = some g' ∧
          g'.nnode = nn ∧ g'.tok = tok ∧ g'.ring = r ∧ g'.failed = false ∧
          ∀ k, k < nn → t.nodeNat g k 128 2 = 0 → ∃ p ∈ t.d.loading, p.2.src = .node gn k)) ∧
  (∀ (s : State) r va target, (s.ring r).cur = some (.waitPacket r va target) → s.capFault [8] = none →
    let v := s.ring r
    let at' := s.signalAt v.asid va.toNat rR
    (at' = .wait → s.parkedWaits r = true → ∃ t, exec (.waitPacket r va target) s = .next t ∧
      t.ring r = { v with st := 2, cur := none, wait := none, met := false, entry := 0 }) ∧
    (at' = .wait → s.parkedWaits r = false → exec (.waitPacket r va target) s = .next s) ∧
    (at' = .fail → ∃ t, exec (.waitPacket r va target) s = .next t ∧ PacketDone s t r 2 0 3) ∧
    ∀ u pas e, at' = .ok u pas e → Clean u pas →
      (target.toNat ≤ u.valueAt pas → u.acquireReady 4096 5 pas = true → ∃ t, exec (.waitPacket r va target) s = .next t ∧ PacketDone s t r 0 0 3) ∧
      (u.valueAt pas < target.toNat → v.met = false → ∃ t, exec (.waitPacket r va target) s = .next t ∧
        t.ring r = { v with st := 2, cur := none, wait := some (pas.headD 0, target), met := false, entry := e }) ∧
      (target.toNat ≤ u.valueAt pas → u.acquireReady 4096 5 pas = false → ∃ t, exec (.waitPacket r va target) s = .next t ∧
        t.ring r = { v with wait := some (pas.headD 0, target), met := true, entry := e })) ∧
  (∀ (s : State) r set fence va value, (s.ring r).cur = some (.signalPacket r set fence va value) →
    let i := Instr.signalPacket r set fence va value
    let at' := s.signalAt (s.ring r).asid va.toNat (rW ||| rA)
    (fence = true → (s.ring r).opened ≠ [] → exec i s = .next s) ∧
    (fence = false ∨ (s.ring r).opened = [] → s.capFault [8] = none →
      (at' = .wait → s.parkedWaits r = false → exec i s = .next s) ∧
      (at' = .fail → ∃ t, exec i s = .next t ∧ PacketDone s t r 2 0 4) ∧
      ∀ u pas e, at' = .ok u pas e → pas.length = 8 → pas.Nodup → NoneDirty u → Clean u pas →
        ∃ t, exec i s = .next t ∧ PacketDone s t r 0 0 4 ∧ (∀ pa, pa ∉ pas → t.byte pa = u.byte pa) ∧
          t.valueAt pas = if set then value.toNat else (u.valueAt pas + value.toNat) % 2 ^ 64)) ∧
  (∀ (s : State) r mv va len nv, (s.ring r).cur = some (.revokePacket r mv va len nv) →
    let i := Instr.revokePacket r mv va len nv
    let v := s.ring r
    let meets (e : PEntry) : Prop := e.asid = v.asid ∧ e.vbase < va.toNat + len ∧ va.toNat < e.vbase + e.len
    let drains (e : PEntry) : Prop := e.st = .draining ∨ e.st = .sweeping
    (v.loading = true → (∃ p ∈ s.pontil, drains p.2 ∧ meets p.2) → exec i s = .next s) ∧
    (v.loading = true → (∀ p ∈ s.pontil, ¬(drains p.2 ∧ meets p.2)) → ∃ t, exec i s = .next t ∧ PacketDone s t r 0 0 5) ∧
    (v.loading = false → s.capFault [8] = none → mv = false → Sparse.wf {} s.pontil = true → ∃ t, exec i s = .next t ∧ (t.ring r).loading = true ∧
      RegistersKept s t ∧ (∀ pa, t.byte pa = s.byte pa) ∧ ∀ n, let e := s.ent n
        t.ent n = if e.st = .live ∧ meets e then { e with st := .draining, move := false, fwd := 0, fgen := 0 } else e) ∧
    (v.loading = false → s.capFault [8, 24] = none → mv = true → (∃ p ∈ s.liveIn v.asid va.toNat len, p.2.vbase < va.toNat ∨ va.toNat + len < p.2.vbase + p.2.len) →
      ∃ t, exec i s = .next t ∧ PacketDone s t r 1 0 5) ∧
    (v.loading = false → s.capFault [8, 24] = none → mv = true → (∀ p ∈ s.liveIn v.asid va.toNat len, va.toNat ≤ p.2.vbase ∧ p.2.vbase + p.2.len ≤ va.toNat + len) →
      ∀ u l, s.forwards va.toNat nv.toNat (s.liveIn v.asid va.toNat len) [] = .ok u l → (∀ p ∈ l, ∀ q ∈ l, p.2 ≠ q.1) →
        (l.map Prod.fst).Nodup → ∃ t, exec i s = .next t ∧ (t.ring r).loading = true ∧
          ∀ p ∈ l, (t.ent p.1).st = .draining ∧ (t.ent p.1).move = true ∧ (t.ent p.1).fwd = p.2)) ∧
  (∀ (s : State),
    (s.io.jpend = [] → exec .journalAppend s = .next s) ∧
    (s.io.jpend ≠ [] → ∃ e ∈ s.io.jpend, (∀ d ∈ s.io.jpend, e.gts < d.gts ∨ (e.gts = d.gts ∧ e.source ≤ d.source)) ∧
      (s.gts0 < e.gts + 64 → exec .journalAppend s = .next s) ∧
      (e.gts + 64 ≤ s.gts0 → ∃ t, exec .journalAppend s = .next t ∧ t = { s with io := t.io } ∧ t.io.jpend = s.io.jpend.erase e ∧
        t.io.jtail = s.io.jtail + 1 ∧ t.io.journal.getLast? = some { e with seq := s.io.jtail + 1 } ∧ t.io.journal.length ≤ 65536 ∧
        t.io.msix = (if e.type = 0x20 ∨ e.type = 0x21 then 0 :: s.io.msix else s.io.msix) ∧
        (e.source < 4096 → e.packet = true → e.index = (s.ring e.source).shown →
          (t.ring e.source).shown = ((s.ring e.source).shown + 1) % 2 ^ 32))))

/-! ### The base die, links and services -/

/-- R14, R317 to R319, R333 to R337: the base-die protocol, host links and Barom links. A request takes the lowest free tag; a reply
carries the line's bytes and its status; an acknowledged write has written what its mask names, or nothing where it meets data that
cannot be corrected; an absent pane faults. The host reads and writes device memory, and seals launch slots (R258); links train; a trip
halts; flits are checked (notes/assumptions/24.md to 27.md). Stores that a lost link carried are acknowledged on the other (74.md), a
request or event that is not enabled does nothing (9.md), and the log's kind 7 (14.md) is the model's choice. -/
def Obligations.BaseDieAndLinks : Prop :=
  (∀ (s : State) pane h data mask, ∀ r ∈ [(Instr.rd pane h, 0, 0#64, ([] : List Byte)), (.wr pane h data, 1, BitVec.allOnes 64, data),
      (.wrm pane h mask data, 2, mask, data)],
    let v := s.port pane h.port
    let busy (t : Nat) : Prop := (∃ q ∈ v.reqs, q.tag = t) ∨ ∃ p ∈ v.freed, p.1 = t ∧ s.now ≤ p.2
    let goes := h.tag < 8 ∧ ¬busy h.tag ∧ (∀ t, t < h.tag → busy t) ∧ v.last ≠ s.now + 1
    (s.cfg.panes ≤ pane → exec r.1 s = .fault (.absentAddress (pane * 2 ^ 36 + h.line * 64))) ∧
    (pane < s.cfg.panes → ¬goes → exec r.1 s = .next s) ∧
    (pane < s.cfg.panes → goes → ∃ t, exec r.1 s = .next t ∧ t = { s with bd := t.bd } ∧ t.port pane h.port = { v with
      reqs := v.reqs ++ [{ op := r.2.1, tag := h.tag, line := h.line, mask := r.2.2.1, data := r.2.2.2 }]
      freed := v.freed.filter (fun p => p.1 != h.tag), last := s.now + 1 })) ∧
  (∀ (s : State) pane h, ∃ t, exec (.reservedOp pane h) s = .next t ∧ t = { s with w := t.w } ∧
    t.w.log.head? = some { gts := s.gts0, kind := 7, detail := pane * 32 + h.port }) ∧
  (∀ (s : State) pane port tag r,
    let v := s.port pane port
    let a := pane * 2 ^ 36 + r.line * 64
    let bad (g : Nat) : Prop := Sparse.get 0 s.w.hard g ≠ 0 ∨ Sparse.get 0 s.w.poison g ≠ 0
    let soft (g : Nat) : Prop := Sparse.get 0 s.w.soft g ≠ 0
    let answers (t : State) (st : Nat) (data : List Byte → Prop) : Prop := ∃ d, data d ∧ t.port pane port = { v with
      reqs := v.reqs.filter (fun o => o.tag != tag), freed := v.freed ++ [(tag, s.now)], reply := some (tag, st, d) }
    (v.reqs.find? (fun q => q.tag == tag && q.op == 0) = some r →
      (waitsFor v.reqs r = true → exec (.dataReply pane port tag) s = .next s) ∧
      (waitsFor v.reqs r = false → ∃ t, exec (.dataReply pane port tag) s = .next t ∧ t = { s with bd := t.bd, w := t.w } ∧
        (bad a ∨ bad (a + 32) → answers t 2 (fun _ => True)) ∧
        (¬bad a → ¬bad (a + 32) → soft a ∨ soft (a + 32) → answers t 1 (fun d => d = (List.range 64).map (fun i => s.byte (a + i)))) ∧
        (¬bad a → ¬bad (a + 32) → ¬soft a → ¬soft (a + 32) → answers t 0 (fun d => d = (List.range 64).map (fun i => s.byte (a + i)))))) ∧
    (v.reqs.find? (fun q => q.tag == tag && q.op != 0) = some r →
      let part (i : Nat) : Prop := i < 2 ∧ r.touches i = true ∧ fld r.mask.toNat (32 * i) 32 ≠ 2 ^ 32 - 1
      (waitsFor v.reqs r = true → exec (.acknowledgement pane port tag) s = .next s) ∧
      (waitsFor v.reqs r = false → ∃ t, exec (.acknowledgement pane port tag) s = .next t ∧ RegistersKept s t ∧
        ((∃ i, part i ∧ bad (a + 32 * i)) → answers t 2 (fun d => d = []) ∧ ∀ pa, t.byte pa = s.byte pa) ∧
        ((∀ i, part i → ¬bad (a + 32 * i)) → (∃ st, st < 2 ∧ answers t st (fun d => d = [])) ∧
          (∀ i, i < 64 → r.mask.getLsbD i = true → t.byte (a + i) = r.data.getD i 0#8) ∧
          BytesKept s t (((List.range 64).filter (fun i => r.mask.getLsbD i)).map (a + ·)))))) ∧
  (∀ (s : State) off bytes,
    (s.cxl = false ∨ s.io.linkReset = true → exec (.hostHdmWrite off bytes) s = .next s ∧ ∀ n, exec (.hostHdmRead off n) s = .next s) ∧
    (s.cxl = true → s.io.linkReset = false →
      (∃ t, exec (.hostHdmWrite off bytes) s = .next t ∧ RegistersKept s t ∧
        (∀ i, i < bytes.length → off + i < 0x80000 → Sparse.get 0#8 t.io.window (off + i) = bytes.getD i 0#8) ∧
        (∀ k, (∀ i, i < bytes.length → k ≠ off + i) → Sparse.get 0#8 t.io.window k = Sparse.get 0#8 s.io.window k) ∧
        (∀ slot, slot < 4096 → let i := 128 * slot + 127 - off
          (off ≤ 128 * slot + 127 ∧ i < bytes.length ∧ bytes.getD i 0#8 = 0x5A#8 ∧ slot ∉ s.io.sealed →
            slot ∈ t.io.sealed ∧ (slot, false, t.slotWords slot) ∈ t.io.sealing) ∧
          (slot ∉ s.io.sealed → (¬(off ≤ 128 * slot + 127 ∧ i < bytes.length) ∨ bytes.getD i 0#8 ≠ 0x5A#8) → slot ∉ t.io.sealed)) ∧
        (∀ i pa, i < bytes.length → s.hdmPA (off + i) = some pa → t.byte pa = bytes.getD i 0#8) ∧
        BytesKept s t ((List.range bytes.length).filterMap (fun i => s.hdmPA (off + i)))) ∧
      ∀ n, let pas := (List.range n).filterMap (fun i => s.hdmPA (off + i))
        (s.acquireReady 4096 5 pas = false → ∃ t, exec (.hostHdmRead off n) s = .next t ∧ t = { s with io := t.io } ∧ t.io.read = some (off, n)) ∧
        (s.acquireReady 4096 5 pas = true → Clean s pas → ∃ t d, exec (.hostHdmRead off n) s = .next t ∧ t = { s with io := t.io, w := t.w } ∧
          t.io.hostData = some (off, d) ∧ d.length = n ∧ ∀ i, i < n →
            (off + i < 0x80000 → d.getD i 0#8 = Sparse.get 0#8 s.io.window (off + i)) ∧
            ∀ pa, s.hdmPA (off + i) = some pa → d.getD i 0#8 = s.byte pa))) ∧
  (∀ (s : State) link cxl, link < 2 → s.io.linkReset = false →
    let m := if cxl then 2 else 1
    let other := Sparse.get 0 s.io.link (1 - link)
    (other ≠ 0 → other ≠ m → ∃ t, exec (.linkTrain link cxl) s = .next t ∧ t = { s with io := t.io } ∧ t.io.linkReset = true ∧ t.cxl = false ∧
      Journals s t 0x4000 0 0 0 0 0x33 0) ∧
    (other = 0 ∨ other = m → ∃ t, exec (.linkTrain link cxl) s = .next t ∧ t = { s with io := t.io, cores := t.cores } ∧
      Sparse.get 0 t.io.link link = m ∧ Sparse.get 0 t.io.link (1 - link) = other ∧ Reroutes s t)) ∧
  (∀ (s : State) link, ∃ t, exec (.hostLinkDown link) s = .next t ∧ t = { s with io := t.io, cores := t.cores } ∧
    Sparse.get 0 t.io.link link = 0 ∧ (∀ l, l ≠ link → Sparse.get 0 t.io.link l = Sparse.get 0 s.io.link l) ∧ Reroutes s t) ∧
  (∀ (s : State) pane, (s.cfg.panes ≤ pane ∨ s.halted = true → exec (.thermalTrip pane) s = .next s) ∧
    (pane < s.cfg.panes → s.halted = false → ∃ t, exec (.thermalTrip pane) s = .next t ∧ t = { s with halted := true, io := t.io } ∧
      Journals s t 0x4000 0 0 0 0 0x3F 0 ∧ t.io.msix = 2 :: s.io.msix)) ∧
  (∀ (s : State) link flit,
    let b : BLink := Sparse.get {} s.io.barom link
    let sq := leNat ((flit.drop 4).take 2)
    (18 ≤ link ∨ flitIntact flit = false → exec (.baromFlit link flit) s = .next s) ∧
    (link < 18 → flitIntact flit = true → ∃ t, exec (.baromFlit link flit) s = .next t ∧ t = { s with io := t.io } ∧
      (sq ≠ b.rx → (Sparse.get {} t.io.barom link : BLink).got = b.got ∧ (Sparse.get {} t.io.barom link : BLink).rx = b.rx) ∧
      (sq = b.rx → (Sparse.get {} t.io.barom link : BLink).rx = (b.rx + 1) % 65536 ∧ (Sparse.get {} t.io.barom link : BLink).got =
        b.got ++ (List.range 15).map (fun i => (flit.drop (8 + 16 * i)).take 16))))

/-- R205, R308, R329, R346 to R353: what the module does for itself. Redundant writes that agree are performed once, and others raise
REDMIS on their cores; the scrubber corrects and poisons; the Lehr adjusts voltages; the wear record and the mailbox answer; a forced
publish that some acquire waits for does its work and clears its record; a module reset takes a legal configuration and keeps only what
outlives it. Events before their time do nothing (notes/assumptions/9.md); the mailbox's form (14.md), the pair's comparison and REDMIS's
unit (28.md), the Lehr's free values (29.md) and what outlives a reset (30.md) are the model's choices. -/
def Obligations.ModuleServices : Prop :=
  (∀ (s : State) c d id h, (s.core c).partner = some d → c < d → s.w.held.find? (fun h => h.core == c && h.seq == id) = some h →
    let e := Instr.redundantCompare c id
    let first := ∀ o ∈ s.w.held, o.core = c → h.num ≤ o.num
    (s.w.held.find? (fun k => k.core == d && k.seq == id) = none → exec e s = .next s) ∧
    (¬first → exec e s = .next s) ∧
    ∀ k a b, first → s.w.held.find? (fun k => k.core == d && k.seq == id) = some k → h.op = .acc a → k.op = .acc b → a.op = .store →
      (a.agrees b = true → a.rel = false → b.rel = false → a.pas.Nodup → a.data.length = a.pas.length → ∃ t, exec e s = .next t ∧
        (∀ p ∈ a.pas.zip a.data, t.byte p.1 = p.2) ∧ BytesKept s t a.pas ∧ RegistersKept s t ∧ t.w.held = (s.w.held.erase h).erase k) ∧
      (a.agrees b = false → b.op = .store → ∃ t, exec e s = .next t ∧ (∀ pa, t.byte pa = s.byte pa) ∧ t.w.held = (s.w.held.erase h).erase k ∧
        ∀ x ∈ [c, d], Raises s.now (s.core x) (t.core x) (fun l => l.cause = 12 ∧ l.cont = true))) ∧
  (∀ (s : State) c d id h a, (s.core c).partner = some d → s.w.held.find? (fun h => h.core == c && h.seq == id) = some h → h.op = .acc a → a.op = .store →
    let ib := (s.kernel c).iterbound
    (ib = 0 ∨ s.now < h.since + ib ∨ (∃ k ∈ s.w.held, k.core = d ∧ k.seq = id) → exec (.redmisTimeout c id) s = .next s) ∧
    (ib ≠ 0 → h.since + ib ≤ s.now → (∀ k ∈ s.w.held, ¬(k.core = d ∧ k.seq = id)) → ∃ t, exec (.redmisTimeout c id) s = .next t ∧
      (∀ pa, t.byte pa = s.byte pa) ∧ t.w.held = s.w.held.erase h ∧
      Raises s.now (s.core c) (t.core c) (fun l => l.cause = 12 ∧ l.cont = true))) ∧
  (∀ (s : State) pa,
    let g := pa / 32 * 32
    let hard := Sparse.get 0 s.w.hard g
    (s.cfg.tier pa = .absent → exec (.scrubVisit pa) s = .fault (.absentAddress pa)) ∧
    (s.cfg.tier pa = .l2 ∨ s.cfg.tier pa = .bdeck ∨ s.cfg.tier pa = .host ∨ s.cfg.tier pa = .fabric → exec (.scrubVisit pa) s = .next s) ∧
    (s.cfg.tier pa = .hbm ∨ s.cfg.tier pa = .lpddr → ∃ t, exec (.scrubVisit pa) s = .next t ∧ t = { s with w := t.w } ∧
      (hard ≠ 0 → Sparse.get 0 t.w.hard g = 0 ∧ Sparse.get 0 t.w.poison g = hard) ∧
      (hard = 0 → t.w.poison = s.w.poison ∧ t.w.hard = s.w.hard ∧ (Sparse.get 0 s.w.poison g = 0 → Sparse.get 0 t.w.soft g = 0)))) ∧
  (∀ (s : State) readings,
    (s.gts0 < s.w.lehrAt → exec (.lehrAdjust readings) s = .next s) ∧
    (s.w.lehrAt ≤ s.gts0 → ∃ t, exec (.lehrAdjust readings) s = .next t ∧ t = { s with w := t.w } ∧ t.w.lehrAt = s.gts0 + 2 ^ 26 ∧
      ∀ n ∈ s.cfg.sites, let mine := readings.filter (fun p => siteOfUnit p.1 == some n && decide (p.1 < 0x800))
        (mine = [] → Sparse.get 0 t.w.volt n = Sparse.get 0 s.w.volt n) ∧
        ∀ p ∈ mine, (∀ q ∈ mine, p.2 ≤ q.2) → Sparse.get 0 t.w.margin n = p.2 ∧
          Sparse.get 0 t.w.volt n = if p.2 < 60 then min 24 (Sparse.get 0 s.w.volt n + 1)
            else if 100 < p.2 then Sparse.get 0 s.w.volt n - 1 else Sparse.get 0 s.w.volt n)) ∧
  (∀ (s : State) nonce, (nonce.length ≠ 32 → exec (.wearRecordRequest nonce) s = .next s) ∧
    (nonce.length = 32 → ∃ t, exec (.wearRecordRequest nonce) s = .next t ∧ t = { s with io := t.io, w := t.w } ∧
      t.io.replies.head? = some (2, t.w.record.map BitVec.toNat) ∧ t.io.msix = 3 :: s.io.msix ∧ t.w.record.length = 2496 ∧
      leNat (t.w.record.take 8) = 0x0101 ∧ leNat ((t.w.record.drop 8).take 8) = s.gts0 % 2 ^ 64 ∧ (t.w.record.drop 16).take 32 = nonce)) ∧
  (∀ (s : State), (∃ t, exec (.managementMailboxRequest 0) s = .next t ∧ t = { s with io := t.io } ∧ t.io.msix = 3 :: s.io.msix ∧
      t.io.replies.head? = some (0, s.w.log.flatMap (fun e => [e.gts, e.kind, e.detail]))) ∧
    ∃ t, exec (.managementMailboxRequest 1) s = .next t ∧ t = { s with io := t.io } ∧ t.io.replies.head? = some (1, [s.poolUsed, poolSize])) ∧
  (∀ (s : State) c line scope,
    ((∀ p ∈ s.pubs line, p.core ≠ c) → exec (.forcedPublish c line scope) s = .next s) ∧
    ∀ p, (s.pubs line).find? (fun p => p.core == c) = some p → scope ≤ 5 →
      let blocked := s.unackedAt c scope p.id = true ∨ ∃ a ∈ (s.core c).acc, a.plainStore = true ∧ a.id < p.id
      (scope = 0 ∨ s.demands c line scope = false ∨ blocked → exec (.forcedPublish c line scope) s = .next s) ∧
      (scope ≠ 0 → s.demands c line scope = true → ¬blocked → ∃ t, exec (.forcedPublish c line scope) s = .next t ∧ RegistersKept s t ∧
        BytesKept s t [] ∧ (∀ q ∈ t.pubs line, q.core ≠ c) ∧
        (∀ pa, DirtyAt s c pa → t.byte pa = ((s.core c).line (pa / 64)).byte (pa % 64)) ∧ ∀ pa, ¬DirtyAt t c pa)) ∧
  (∀ (s : State),
    let bad := (s.w.worn ++ s.w.quar ++ s.w.gone).eraseDups
    let lives (pa : Nat) : Prop := s.cfg.tier pa = .hbm ∨ s.cfg.tier pa = .lpddr ∨ s.cfg.tier pa = .host ∨ s.cfg.tier pa = .fabric
    ∃ t, exec .moduleReset s = .next t ∧ t.cores = [] ∧ t.pontil = [] ∧ t.queues = [] ∧ t.d = {} ∧ t.roots = [] ∧ t.tick = s.tick ∧
      t.now = s.now ∧ t.agenda = s.agenda ∧ t.io.reach = s.io.reach ∧ t.w.worn = s.w.worn ∧ t.w.quar = [] ∧ t.w.gone = bad ∧
      (∀ pa, lives pa → t.byte pa = s.byte pa) ∧ (∀ pa, ¬lives pa → t.byte pa = 0#8) ∧
      (legalCfg bad = none → t.halted = true ∧ t.io.linkReset = true ∧ t.cfg = s.cfg) ∧
      ∀ g, legalCfg bad = some g → t.cfg = g ∧
        (Config.firmwareSigned s.tick = true → t.halted = false ∧ t.io.linkReset = false) ∧
        (Config.firmwareSigned s.tick = false → t.halted = true ∧ t.io.linkReset = true ∧ t.io.badFirmware = true))

/-! ### The whole machine -/

/-- What a module reset of a full configuration leaves (R12, R16, R23, R24, R96, R100, R101, R169, R177, R205, R267, R274): 1,024
cores, each IDLE with no trap and no privilege, its handler contexts DORMANT, every register full, its queues and engines empty; FPCR
and FPSR 0; GINT 4,096, GTHR 32, AGE 8, LEASELEN 64; every entry of the pontil table FREE with GEN 0. That every register and every
byte of memory then reads 0 is the model's choice (log entries 4 and 5). The memory is in its canonical form. -/
def Obligations.ResetState : Prop :=
  State.reset.cfg.panes = 16 ∧ State.reset.cfg.total = 1024 ∧
  (∀ c, let x := State.reset.core c
    x.q.st = .idle ∧ x.q.tact = false ∧ x.q.priv = false ∧ (∀ h, (x.q.hctx h).st = .dormant) ∧ x.task = none ∧
    (∀ ctx r, x.rdS ctx r = 0#64 ∧ x.sMarks ctx r = [] ∧ x.rdK ctx r = {} ∧ x.kMarks ctx r = []) ∧
    (∀ r, x.rdV r = 0#1024 ∧ x.vMarks r = [] ∧ x.rdP r = {}) ∧
    x.r.masks = [] ∧ x.c.fpcr = 0#4 ∧ x.c.fpsr = 0#6 ∧ (∀ q, x.v.queue q = []) ∧ x.v.fl = [] ∧ x.acc = [] ∧ x.e.copies = [] ∧
    x.e.mxq = [] ∧ x.q.regions = []) ∧
  (∀ c, let s := { State.reset with cur := c }
    s.csrRead 0x030 = 4096#64 ∧ s.csrRead 0x031 = 32#64 ∧ s.csrRead 0x032 = 8#64 ∧ s.csrRead 0x033 = 64#64) ∧
  (∀ e, (State.reset.ent e).st = .free ∧ (State.reset.ent e).gen = 0) ∧
  (∀ pa, State.reset.byte pa = 0#8) ∧ MemoryCanonical State.reset

/-- The memory's canonical form (addresses strictly rising, no listed zero byte) is kept by every step of the module, whichever turn
it is: equal memories stay equal data. The form is the model's own (log entry 5). -/
def Obligations.MemoryCanonicalKept : Prop :=
  ∀ (s : State) t, MemoryCanonical s → Machine.step s = .next t → MemoryCanonical t

/-- R46, R51, R62, R67: decoding gives back every well-formed C-word instruction from the one or two words the encoder writes, with
its length, and every well-formed V-word from its 128 bits, with every field at every value the encoding admits. A C-word of one
word does not depend on the word after it. -/
def Obligations.WordsRoundTrip : Prop :=
  ∀ i : Instr, i.wf = true →
    (∀ w0, encodeC i = [w0] → w0 < 2 ^ 64 ∧ ∀ w1, decodeC (BitVec.ofNat 64 w0) w1 = .ok (i, 1)) ∧
    (∀ w0 w1, encodeC i = [w0, w1] → w0 < 2 ^ 64 ∧ w1 < 2 ^ 64 ∧ decodeC (BitVec.ofNat 64 w0) (BitVec.ofNat 64 w1) = .ok (i, 2)) ∧
    (∀ op f, vParts i = some (op, f) → vWord op f < 2 ^ 128 ∧ decodeV (encodeV i) = .ok i)

/-- R4, R46, R50 to R67: the spec's own example words decode to the instructions it gives for them; a word with an unassigned MIN, a
non-zero zero field, a token field above 31 or a reserved V-word OP is no instruction, by name. -/
def Obligations.DecodeExamples : Prop :=
  decodeC 0x0400A28B00000000#64 0#64 = .ok (.add { d := 10, a := 10, fea := false, b := 11, feb := false, c := 0, fec := false }, 1) ∧
  decodeC 0x0024000000000000#64 0#64 = .ok (.crc, 1) ∧
  decodeC 0x1804000000000003#64 0#64 = .ok (.call 3#37, 1) ∧
  decodeC 0x3C1C024000000000#64 0#64 =
    .ok (.tkrevKill { d := 0, a := 9, fea := false, b := 0, feb := false, c := 0, fec := false }, 1) ∧
  decodeC 0x4C00010000000003#64 0#64 = .ok (.hset 3 4 false, 1) ∧
  decodeC 0x540CC00000000003#64 0#64 = .ok (.cpyStat 12 3, 1) ∧
  decodeC 0x5804000000000000#64 0#64 = .ok (.mxFree, 1) ∧
  decodeC 0x5C10024000000000#64 0#64 = .ok (.umDclr 9 false, 1) ∧
  decodeC 0x0038000000000000#64 0#64 = .error .minor ∧
  decodeC 0x0008000000000001#64 0#64 = .error .zeroField ∧
  decodeC 0x3C0C080000000000#64 0#64 = .error .register ∧
  decodeC 0x6000000000000000#64 0#64 = .error .major ∧
  decodeV (BitVec.ofNat 128 (0x006 * 2 ^ 118)) = .error .vOp
end

