-- ==== Sys2Proof/Laws/Decode.lean ====
section
/-! SUPPORT. Reading back what the encoder wrote, one lemma for each word layout of R50 and R62, and what it takes for a word to
decode to an instruction. -/

namespace Sys2Proof

theorem bit_toNat (b : Bool) : b.toNat < 2 := by cases b <;> decide

/-- Every field of a CR word is within its width. -/
def CR.fits (f : CR) : Prop := f.maj < 64 ∧ f.mn < 256 ∧ f.d < 64 ∧ f.a < 64 ∧ f.b < 64 ∧ f.c < 64 ∧ f.z < 2 ^ 23

theorem bit_mk (w i : Nat) (b : Bool) (h : w / 2 ^ i % 2 = b.toNat) : bit w i = b := by
  unfold bit; rw [h]; cases b <;> rfl

theorem crOf_crWord (f : CR) (h : f.fits) : crOf (crWord f) = f ∧ crWord f < 2 ^ 64 := by
  obtain ⟨h1, h2, h3, h4, h5, h6, h7⟩ := h
  have ha := bit_toNat f.fea
  have hb := bit_toNat f.feb
  have hc := bit_toNat f.fec
  have e : ∀ w, crOf w = ⟨(crOf w).maj, (crOf w).mn, (crOf w).d, (crOf w).a, (crOf w).b, (crOf w).c, (crOf w).fea,
    (crOf w).feb, (crOf w).fec, (crOf w).z⟩ := fun _ => rfl
  constructor
  · rw [e]
    cases f
    simp only [CR.mk.injEq, crOf, fld] at *
    refine ⟨?_, ?_, ?_, ?_, ?_, ?_, ?_, ?_, ?_, ?_⟩ <;> (try apply bit_mk) <;> simp only [crWord] <;> omega
  · simp only [crWord]; omega

/-- Every field of a CI word is within its width. -/
def CI.fits (f : CI) : Prop := f.maj < 64 ∧ f.mn < 256 ∧ f.d < 64 ∧ f.a < 64 ∧ f.imm < 2 ^ 37
theorem ciOf_ciWord (f : CI) (h : f.fits) : ciOf (ciWord f) = f ∧ ciWord f < 2 ^ 64 ∧
    (crOf (ciWord f)).mn = f.mn ∧ fld (ciWord f) 58 6 = f.maj := by
  obtain ⟨h1, h2, h3, h4, h5⟩ := h
  have ha := bit_toNat f.fea
  refine ⟨?_, ?_, ?_, ?_⟩
  · have e : ∀ w, ciOf w = ⟨(ciOf w).maj, (ciOf w).mn, (ciOf w).d, (ciOf w).a, (ciOf w).fea, (ciOf w).imm⟩ := fun _ => rfl
    rw [e]
    cases f
    simp only [CI.mk.injEq, ciOf, fld] at *
    refine ⟨?_, ?_, ?_, ?_, ?_, ?_⟩ <;> (try apply bit_mk) <;> simp only [ciWord] <;> omega
  · simp only [ciWord]; omega
  · simp only [crOf, fld, ciWord]; omega
  · simp only [fld, ciWord]; omega

/-- Every field of a CK word is within its width. -/
def CK.fits (f : CK) : Prop := f.maj < 64 ∧ f.mn < 256 ∧ f.d < 64 ∧ f.k < 32 ∧ f.x < 64 ∧ f.off < 2 ^ 32
theorem ckOf_ckWord (f : CK) (h : f.fits) : ckOf (ckWord f) = f ∧ ckWord f < 2 ^ 64 ∧
    (crOf (ckWord f)).mn = f.mn ∧ fld (ckWord f) 58 6 = f.maj := by
  obtain ⟨h1, h2, h3, h4, h5, h6⟩ := h
  have ha := bit_toNat f.fex
  refine ⟨?_, ?_, ?_, ?_⟩
  · have e : ∀ w, ckOf w = ⟨(ckOf w).maj, (ckOf w).mn, (ckOf w).d, (ckOf w).k, (ckOf w).x, (ckOf w).fex,
      (ckOf w).off⟩ := fun _ => rfl
    rw [e]
    cases f
    simp only [CK.mk.injEq, ckOf, fld] at *
    refine ⟨?_, ?_, ?_, ?_, ?_, ?_, ?_⟩ <;> (try apply bit_mk) <;> simp only [ckWord] <;> omega
  · simp only [ckWord]; omega
  · simp only [crOf, fld, ckWord]; omega
  · simp only [fld, ckWord]; omega

theorem vfOf_vWord (op : Nat) (f : VFields) (ho : op < 1024) (h : f.bounds = true) :
    vfOf (vWord op f) = f ∧ fld (vWord op f) 118 10 = op ∧ vWord op f < 2 ^ 128 := by
  simp only [VFields.bounds, Bool.and_eq_true, decide_eq_true_eq] at h
  have h1 := bit_toNat f.fo
  have h2 := bit_toNat f.lo
  have h3 := bit_toNat f.yld
  have h4 := bit_toNat f.eox
  have h5 := f.imm.isLt
  refine ⟨?_, ?_, ?_⟩
  · have e : ∀ w, vfOf w = ⟨(vfOf w).ty, (vfOf w).d, (vfOf w).a, (vfOf w).b, (vfOf w).c, (vfOf w).e, (vfOf w).fe,
      (vfOf w).gc, (vfOf w).gm, (vfOf w).hint, (vfOf w).fo, (vfOf w).lo, (vfOf w).yld, (vfOf w).eox, (vfOf w).sm,
      (vfOf w).md, (vfOf w).imm⟩ := fun _ => rfl
    rw [e]
    cases f
    simp only [VFields.mk.injEq, vfOf, fld] at *
    refine ⟨?_, ?_, ?_, ?_, ?_, ?_, ?_, ?_, ?_, ?_, ?_, ?_, ?_, ?_, ?_, ?_, ?_⟩ <;> (try apply bit_mk) <;>
      (try apply BitVec.eq_of_toNat_eq; rw [BitVec.toNat_ofNat]) <;> simp only [vWord] <;> omega
  · simp only [fld, vWord]; omega
  · simp only [vWord]; omega

/-- Every field of a CB word is within its width. -/
def CB.fits (f : CB) : Prop := f.maj < 64 ∧ f.cond < 32 ∧ f.a < 64 ∧ f.b < 64 ∧ f.disp < 2 ^ 39
theorem cbOf_cbWord (f : CB) (h : f.fits) : cbOf (cbWord f) = f ∧ cbWord f < 2 ^ 64 ∧ fld (cbWord f) 58 6 = f.maj := by
  obtain ⟨h1, h2, h3, h4, h5⟩ := h
  have ha := bit_toNat f.fea
  have hb := bit_toNat f.feb
  refine ⟨?_, ?_, ?_⟩
  · have e : ∀ w, cbOf w = ⟨(cbOf w).maj, (cbOf w).cond, (cbOf w).a, (cbOf w).b, (cbOf w).fea, (cbOf w).feb,
      (cbOf w).disp⟩ := fun _ => rfl
    rw [e]
    cases f
    simp only [CB.mk.injEq, cbOf, fld] at *
    refine ⟨?_, ?_, ?_, ?_, ?_, ?_, ?_⟩ <;> (try apply bit_mk) <;> simp only [cbWord] <;> omega
  · simp only [cbWord]; omega
  · simp only [fld, cbWord]; omega

/-- Every field of a CL word is within its width. -/
def CL.fits (f : CL) : Prop := f.maj < 64 ∧ f.mn < 256 ∧ f.lvl < 8 ∧ f.t < 64 ∧ f.body < 2 ^ 16 ∧ f.trip < 2 ^ 24
theorem clOf_clWord (f : CL) (h : f.fits) : clOf (clWord f) = f ∧ clWord f < 2 ^ 64 ∧ fld (clWord f) 58 6 = f.maj := by
  obtain ⟨h1, h2, h3, h4, h5, h6⟩ := h
  have ha := bit_toNat f.ti
  refine ⟨?_, ?_, ?_⟩
  · have e : ∀ w, clOf w = ⟨(clOf w).maj, (clOf w).mn, (clOf w).lvl, (clOf w).t, (clOf w).ti, (clOf w).body,
      (clOf w).trip⟩ := fun _ => rfl
    rw [e]
    cases f
    simp only [CL.mk.injEq, clOf, fld] at *
    refine ⟨?_, ?_, ?_, ?_, ?_, ?_, ?_⟩ <;> (try apply bit_mk) <;> simp only [clWord] <;> omega
  · simp only [clWord]; omega
  · simp only [fld, clWord]; omega

/-- Every field of a CV word is within its width. -/
def CV.fits (f : CV) : Prop := f.maj < 64 ∧ f.mn < 256 ∧ f.start < 2 ^ 16 ∧ f.count < 2 ^ 16 ∧ f.z < 2 ^ 18
theorem cvOf_cvWord (f : CV) (h : f.fits) : cvOf (cvWord f) = f ∧ cvWord f < 2 ^ 64 ∧ fld (cvWord f) 58 6 = f.maj := by
  obtain ⟨h1, h2, h3, h4, h5⟩ := h
  refine ⟨?_, ?_, ?_⟩
  · have e : ∀ w, cvOf w = ⟨(cvOf w).maj, (cvOf w).mn, (cvOf w).start, (cvOf w).count, (cvOf w).z⟩ := fun _ => rfl
    rw [e]
    cases f
    simp only [CV.mk.injEq, cvOf, fld] at *
    refine ⟨?_, ?_, ?_, ?_, ?_⟩ <;> simp only [cvWord] <;> omega
  · simp only [cvWord]; omega
  · simp only [fld, cvWord]; omega

/-! ### From the fields to the instruction -/

theorem firstFail_nil : firstFail [] = none := rfl

theorem firstFail_cons (b : Bool) (r : Reject) (l : List (Bool × Reject)) :
    firstFail ((b, r) :: l) = none ↔ b = true ∧ firstFail l = none := by
  cases b <;> simp [firstFail]

/-- A word whose fields parse to a well-formed instruction decodes to it. -/
theorem decodeC_of {i : Instr} {n w : Nat} (h : w < 2 ^ 64) (w1 : Word) (hw : i.wf = true)
    (hp : parseC w w1.toNat = .ok (i, n)) : decodeC (BitVec.ofNat 64 w) w1 = .ok (i, n) := by
  have hc : i.check = none := by simpa [Instr.wf] using hw
  unfold decodeC
  rw [BitVec.toNat_ofNat, Nat.mod_eq_of_lt h, hp]
  simp [hc]

theorem decodeV_of (i : Instr) (x : Nat) (hx : x < 2 ^ 128) (hm : vMake (vfOf x) (fld x 118 10) = some i) (hw : i.wf = true) :
    decodeV (BitVec.ofNat 128 x) = .ok i := by
  have hc : i.check = none := by simpa [Instr.wf] using hw
  have e : (BitVec.ofNat 128 x).toNat = x := by rw [BitVec.toNat_ofNat]; exact Nat.mod_eq_of_lt hx
  unfold decodeV parseV
  rw [e, hm]
  simp only [hc]

/-- A V-word that passes the checks of its use has every field within its width. -/
theorem VFields.bounds_of_checks {w : VFields} {u : VUse} (h : w.checks u = none) : w.bounds = true := by
  unfold VFields.checks at h
  exact ((firstFail_cons _ _ _).1 h).1

theorem VFields.bounds_of_memChecks {w : VFields} {a b c : Bool} (h : w.memChecks a b c = none) : w.bounds = true := by
  unfold VFields.memChecks at h
  exact ((firstFail_cons _ _ _).1 h).1

end Sys2Proof
end

