-- ==== Sys2Proof/Laws/Sparse.lean ====
section
/-! SUPPORT. The laws of sparse data: reading after writing, and the canonical form that every operation keeps. -/

namespace Sys2Proof.Machine

variable {α : Type}

/-- Every listed key is above `lo`. -/
def Sparse.above (lo : Nat) (m : Sparse α) : Prop := ∀ p ∈ m, lo < p.1

/-! ### Reading after writing -/

@[simp] theorem Sparse.get_nil (d : α) (k : Nat) : Sparse.get d [] k = d := rfl

theorem Sparse.get_del_same (d : α) (m : Sparse α) (k : Nat) : Sparse.get d (Sparse.del m k) k = d := by
  induction m with
  | nil => rfl
  | cons p m ih =>
    obtain ⟨j, v⟩ := p
    by_cases h : j = k
    · simpa [Sparse.del, h] using ih
    · simp [Sparse.del, Sparse.get, h, ih]

theorem Sparse.get_del_other (d : α) (m : Sparse α) {j k : Nat} (h : j ≠ k) :
    Sparse.get d (Sparse.del m k) j = Sparse.get d m j := by
  induction m with
  | nil => rfl
  | cons p m ih =>
    obtain ⟨i, v⟩ := p
    by_cases hi : i = k
    · have hj : ¬ k = j := fun e => h e.symm
      simp [Sparse.del, Sparse.get, hi, hj, ih]
    · by_cases hj : i = j
      · subst hj
        simp [Sparse.del, Sparse.get, hi]
      · simp [Sparse.del, Sparse.get, hi, hj, ih]

theorem Sparse.get_ins_same (d : α) (m : Sparse α) (k : Nat) (v : α) : Sparse.get d (Sparse.ins m k v) k = v := by
  induction m with
  | nil => simp [Sparse.ins, Sparse.get]
  | cons p m ih =>
    obtain ⟨j, u⟩ := p
    by_cases h1 : k < j
    · simp [Sparse.ins, Sparse.get, h1]
    · by_cases h2 : k = j
      · simp [Sparse.ins, Sparse.get, h2]
      · have h3 : ¬ j = k := fun e => h2 e.symm
        simp [Sparse.ins, Sparse.get, h1, h2, h3, ih]

theorem Sparse.get_ins_other (d : α) (m : Sparse α) {j k : Nat} (v : α) (h : j ≠ k) :
    Sparse.get d (Sparse.ins m k v) j = Sparse.get d m j := by
  have hk : ¬ k = j := fun e => h e.symm
  induction m with
  | nil => simp [Sparse.ins, Sparse.get, hk]
  | cons p m ih =>
    obtain ⟨i, u⟩ := p
    by_cases h1 : k < i
    · simp [Sparse.ins, Sparse.get, h1, hk]
    · by_cases h2 : k = i
      · subst h2
        simp [Sparse.ins, Sparse.get, hk]
      · simp [Sparse.ins, Sparse.get, h1, h2, ih]

variable [DecidableEq α]

/-- A key reads as it was last written. -/
@[simp] theorem Sparse.get_set_same (d : α) (m : Sparse α) (k : Nat) (v : α) :
    Sparse.get d (Sparse.set d m k v) k = v := by
  unfold Sparse.set
  split
  · next h => rw [h, Sparse.get_del_same]
  · exact Sparse.get_ins_same d m k v

/-- A write leaves every other key alone. -/
theorem Sparse.get_set_other (d : α) (m : Sparse α) {j k : Nat} (v : α) (h : j ≠ k) :
    Sparse.get d (Sparse.set d m k v) j = Sparse.get d m j := by
  unfold Sparse.set
  split
  · exact Sparse.get_del_other d m h
  · exact Sparse.get_ins_other d m v h

/-! ### The canonical form -/

omit [DecidableEq α] in
theorem Sparse.rising_iff (lo : Nat) (m : Sparse α) :
    Sparse.rising (some lo) m = true ↔ Sparse.above lo m ∧ Sparse.rising none m = true := by
  induction m generalizing lo with
  | nil => simp [Sparse.rising, Sparse.above]
  | cons p m ih =>
    obtain ⟨j, v⟩ := p
    simp only [Sparse.rising, Bool.and_eq_true, decide_eq_true_eq]
    constructor
    · rintro ⟨h1, h2⟩
      refine ⟨?_, h2⟩
      intro q hq
      rcases List.mem_cons.1 hq with rfl | hq
      · exact h1
      · exact Nat.lt_trans h1 ((ih j).1 h2 |>.1 q hq)
    · rintro ⟨h1, h2⟩
      exact ⟨h1 (j, v) (List.mem_cons_self ..), h2⟩

omit [DecidableEq α] in
theorem Sparse.rising_cons (j : Nat) (v : α) (m : Sparse α) :
    Sparse.rising none ((j, v) :: m) = true ↔ Sparse.above j m ∧ Sparse.rising none m = true := by
  simpa [Sparse.rising] using Sparse.rising_iff j m

omit [DecidableEq α] in
theorem Sparse.mem_ins {m : Sparse α} {k : Nat} {v : α} {p : Nat × α} (h : p ∈ Sparse.ins m k v) :
    p = (k, v) ∨ p ∈ m := by
  induction m with
  | nil => simpa [Sparse.ins] using h
  | cons q m ih =>
    obtain ⟨j, u⟩ := q
    simp only [Sparse.ins] at h
    split at h
    · simpa using h
    · split at h
      · rcases List.mem_cons.1 h with h | h
        · exact .inl h
        · exact .inr (List.mem_cons_of_mem _ h)
      · rcases List.mem_cons.1 h with h | h
        · exact .inr (h ▸ List.mem_cons_self ..)
        · exact (ih h).imp id (List.mem_cons_of_mem _)

omit [DecidableEq α] in
theorem Sparse.mem_del {m : Sparse α} {k : Nat} {p : Nat × α} (h : p ∈ Sparse.del m k) : p ∈ m := by
  induction m with
  | nil => simp [Sparse.del] at h
  | cons q m ih =>
    obtain ⟨j, u⟩ := q
    simp only [Sparse.del] at h
    split at h
    · exact List.mem_cons_of_mem _ (ih h)
    · rcases List.mem_cons.1 h with h | h
      · exact h ▸ List.mem_cons_self ..
      · exact List.mem_cons_of_mem _ (ih h)

omit [DecidableEq α] in
theorem Sparse.rising_ins (m : Sparse α) (k : Nat) (v : α) (h : Sparse.rising none m = true) :
    Sparse.rising none (Sparse.ins m k v) = true := by
  induction m with
  | nil => rfl
  | cons q m ih =>
    obtain ⟨j, u⟩ := q
    obtain ⟨ha, hr⟩ := (Sparse.rising_cons j u m).1 h
    simp only [Sparse.ins]
    split
    · next hk =>
      refine (Sparse.rising_cons ..).2 ⟨?_, h⟩
      intro p hp
      rcases List.mem_cons.1 hp with rfl | hp
      · exact hk
      · exact Nat.lt_trans hk (ha p hp)
    · next hk =>
      split
      · next he => subst he; exact (Sparse.rising_cons ..).2 ⟨ha, hr⟩
      · next he =>
        refine (Sparse.rising_cons ..).2 ⟨?_, ih hr⟩
        intro p hp
        rcases Sparse.mem_ins hp with rfl | hp
        · show j < k
          omega
        · exact ha p hp

omit [DecidableEq α] in
theorem Sparse.rising_del (m : Sparse α) (k : Nat) (h : Sparse.rising none m = true) :
    Sparse.rising none (Sparse.del m k) = true := by
  induction m with
  | nil => rfl
  | cons q m ih =>
    obtain ⟨j, u⟩ := q
    obtain ⟨ha, hr⟩ := (Sparse.rising_cons j u m).1 h
    simp only [Sparse.del]
    split
    · exact ih hr
    · exact (Sparse.rising_cons ..).2 ⟨fun p hp => ha p (Sparse.mem_del hp), ih hr⟩

theorem Sparse.wf_iff (d : α) (m : Sparse α) :
    Sparse.wf d m = true ↔ Sparse.rising none m = true ∧ ∀ p ∈ m, p.2 ≠ d := by
  simp [Sparse.wf, List.all_eq_true]

@[simp] theorem Sparse.wf_nil (d : α) : Sparse.wf d ([] : Sparse α) = true := rfl

/-- A write keeps the canonical form. -/
theorem Sparse.wf_set {d : α} {m : Sparse α} (k : Nat) (v : α) (h : Sparse.wf d m = true) :
    Sparse.wf d (Sparse.set d m k v) = true := by
  obtain ⟨hr, hd⟩ := (Sparse.wf_iff d m).1 h
  refine (Sparse.wf_iff ..).2 ?_
  unfold Sparse.set
  split
  · exact ⟨Sparse.rising_del m k hr, fun p hp => hd p (Sparse.mem_del hp)⟩
  · next hv =>
    refine ⟨Sparse.rising_ins m k v hr, fun p hp => ?_⟩
    rcases Sparse.mem_ins hp with rfl | hp
    · exact hv
    · exact hd p hp

omit [DecidableEq α] in
theorem Sparse.rising_filter (f : Nat × α → Bool) (m : Sparse α) (h : Sparse.rising none m = true) :
    Sparse.rising none (m.filter f) = true := by
  induction m with
  | nil => rfl
  | cons q m ih =>
    obtain ⟨j, u⟩ := q
    obtain ⟨ha, hr⟩ := (Sparse.rising_cons j u m).1 h
    by_cases hf : f (j, u) = true
    · rw [List.filter_cons_of_pos hf]
      exact (Sparse.rising_cons ..).2 ⟨fun p hp => ha p (List.mem_of_mem_filter hp), ih hr⟩
    · rw [List.filter_cons_of_neg hf]
      exact ih hr

/-- Keeping some keys keeps the canonical form. -/
theorem Sparse.wf_keep {d : α} {m : Sparse α} (p : Nat → α → Bool) (h : Sparse.wf d m = true) :
    Sparse.wf d (Sparse.keep p m) = true := by
  obtain ⟨hr, hd⟩ := (Sparse.wf_iff d m).1 h
  exact (Sparse.wf_iff ..).2
    ⟨Sparse.rising_filter _ m hr, fun q hq => hd q (List.mem_of_mem_filter hq)⟩

end Sys2Proof.Machine
end

