-- ==== Sys2Proof/Laws/State.lean ====
section
/-! SUPPORT. What every update of the state and of a core leaves alone, field by field, so that no proof unfolds a record
update. -/

namespace Sys2Proof.Machine

/-! ### Updates of the state -/

@[simp] theorem State.setCore_agenda (s : State) (c : Nat) (x : Core) : (s.setCore c x).agenda = s.agenda := rfl
@[simp] theorem State.setCore_tick (s : State) (c : Nat) (x : Core) : (s.setCore c x).tick = s.tick := rfl
@[simp] theorem State.setCore_now (s : State) (c : Nat) (x : Core) : (s.setCore c x).now = s.now := rfl
@[simp] theorem State.setCore_rank (s : State) (c : Nat) (x : Core) : (s.setCore c x).rank = s.rank := rfl
@[simp] theorem State.setCore_halted (s : State) (c : Nat) (x : Core) : (s.setCore c x).halted = s.halted := rfl
@[simp] theorem State.setCore_cur (s : State) (c : Nat) (x : Core) : (s.setCore c x).cur = s.cur := rfl
@[simp] theorem State.setCore_ctx (s : State) (c : Nat) (x : Core) : (s.setCore c x).ctx = s.ctx := rfl
@[simp] theorem State.setCore_pipe (s : State) (c : Nat) (x : Core) : (s.setCore c x).pipe = s.pipe := rfl
@[simp] theorem State.setCore_part (s : State) (c : Nat) (x : Core) : (s.setCore c x).part = s.part := rfl
@[simp] theorem State.setCore_waited (s : State) (c : Nat) (x : Core) : (s.setCore c x).waited = s.waited := rfl
@[simp] theorem State.setCore_noClock (s : State) (c : Nat) (x : Core) : (s.setCore c x).noClock = s.noClock := rfl
@[simp] theorem State.setCore_cfg (s : State) (c : Nat) (x : Core) : (s.setCore c x).cfg = s.cfg := rfl
@[simp] theorem State.setCore_mem (s : State) (c : Nat) (x : Core) : (s.setCore c x).mem = s.mem := rfl
@[simp] theorem State.setCore_hist (s : State) (c : Nat) (x : Core) : (s.setCore c x).hist = s.hist := rfl
@[simp] theorem State.setCore_hb (s : State) (c : Nat) (x : Core) : (s.setCore c x).hb = s.hb := rfl
@[simp] theorem State.setCore_seen (s : State) (c : Nat) (x : Core) : (s.setCore c x).seen = s.seen := rfl
@[simp] theorem State.setCore_took (s : State) (c : Nat) (x : Core) : (s.setCore c x).took = s.took := rfl
@[simp] theorem State.setCore_msgs (s : State) (c : Nat) (x : Core) : (s.setCore c x).msgs = s.msgs := rfl
@[simp] theorem State.setCore_pub (s : State) (c : Nat) (x : Core) : (s.setCore c x).pub = s.pub := rfl
@[simp] theorem State.setCore_mx (s : State) (c : Nat) (x : Core) : (s.setCore c x).mx = s.mx := rfl
@[simp] theorem State.setCore_accum (s : State) (c : Nat) (x : Core) : (s.setCore c x).accum = s.accum := rfl
@[simp] theorem State.setCore_accOwner (s : State) (c : Nat) (x : Core) : (s.setCore c x).accOwner = s.accOwner := rfl
@[simp] theorem State.setCore_accBad (s : State) (c : Nat) (x : Core) : (s.setCore c x).accBad = s.accBad := rfl
@[simp] theorem State.setCore_cbook (s : State) (c : Nat) (x : Core) : (s.setCore c x).cbook = s.cbook := rfl
@[simp] theorem State.setCore_mirror (s : State) (c : Nat) (x : Core) : (s.setCore c x).mirror = s.mirror := rfl
@[simp] theorem State.setCore_um (s : State) (c : Nat) (x : Core) : (s.setCore c x).um = s.um := rfl
@[simp] theorem State.setCore_pontil (s : State) (c : Nat) (x : Core) : (s.setCore c x).pontil = s.pontil := rfl
@[simp] theorem State.setCore_roots (s : State) (c : Nat) (x : Core) : (s.setCore c x).roots = s.roots := rfl
@[simp] theorem State.setCore_queues (s : State) (c : Nat) (x : Core) : (s.setCore c x).queues = s.queues := rfl
@[simp] theorem State.setCore_d (s : State) (c : Nat) (x : Core) : (s.setCore c x).d = s.d := rfl
@[simp] theorem State.setCore_io (s : State) (c : Nat) (x : Core) : (s.setCore c x).io = s.io := rfl
@[simp] theorem State.setCore_bd (s : State) (c : Nat) (x : Core) : (s.setCore c x).bd = s.bd := rfl
@[simp] theorem State.setCore_w (s : State) (c : Nat) (x : Core) : (s.setCore c x).w = s.w := rfl

@[simp] theorem State.mod_agenda (s : State) (c : Nat) (f : Core → Core) : (s.mod c f).agenda = s.agenda := rfl
@[simp] theorem State.mod_tick (s : State) (c : Nat) (f : Core → Core) : (s.mod c f).tick = s.tick := rfl
@[simp] theorem State.mod_now (s : State) (c : Nat) (f : Core → Core) : (s.mod c f).now = s.now := rfl
@[simp] theorem State.mod_rank (s : State) (c : Nat) (f : Core → Core) : (s.mod c f).rank = s.rank := rfl
@[simp] theorem State.mod_halted (s : State) (c : Nat) (f : Core → Core) : (s.mod c f).halted = s.halted := rfl
@[simp] theorem State.mod_cur (s : State) (c : Nat) (f : Core → Core) : (s.mod c f).cur = s.cur := rfl
@[simp] theorem State.mod_ctx (s : State) (c : Nat) (f : Core → Core) : (s.mod c f).ctx = s.ctx := rfl
@[simp] theorem State.mod_pipe (s : State) (c : Nat) (f : Core → Core) : (s.mod c f).pipe = s.pipe := rfl
@[simp] theorem State.mod_part (s : State) (c : Nat) (f : Core → Core) : (s.mod c f).part = s.part := rfl
@[simp] theorem State.mod_waited (s : State) (c : Nat) (f : Core → Core) : (s.mod c f).waited = s.waited := rfl
@[simp] theorem State.mod_noClock (s : State) (c : Nat) (f : Core → Core) : (s.mod c f).noClock = s.noClock := rfl
@[simp] theorem State.mod_cfg (s : State) (c : Nat) (f : Core → Core) : (s.mod c f).cfg = s.cfg := rfl
@[simp] theorem State.mod_mem (s : State) (c : Nat) (f : Core → Core) : (s.mod c f).mem = s.mem := rfl
@[simp] theorem State.mod_hist (s : State) (c : Nat) (f : Core → Core) : (s.mod c f).hist = s.hist := rfl
@[simp] theorem State.mod_hb (s : State) (c : Nat) (f : Core → Core) : (s.mod c f).hb = s.hb := rfl
@[simp] theorem State.mod_seen (s : State) (c : Nat) (f : Core → Core) : (s.mod c f).seen = s.seen := rfl
@[simp] theorem State.mod_took (s : State) (c : Nat) (f : Core → Core) : (s.mod c f).took = s.took := rfl
@[simp] theorem State.mod_msgs (s : State) (c : Nat) (f : Core → Core) : (s.mod c f).msgs = s.msgs := rfl
@[simp] theorem State.mod_pub (s : State) (c : Nat) (f : Core → Core) : (s.mod c f).pub = s.pub := rfl
@[simp] theorem State.mod_mx (s : State) (c : Nat) (f : Core → Core) : (s.mod c f).mx = s.mx := rfl
@[simp] theorem State.mod_accum (s : State) (c : Nat) (f : Core → Core) : (s.mod c f).accum = s.accum := rfl
@[simp] theorem State.mod_accOwner (s : State) (c : Nat) (f : Core → Core) : (s.mod c f).accOwner = s.accOwner := rfl
@[simp] theorem State.mod_accBad (s : State) (c : Nat) (f : Core → Core) : (s.mod c f).accBad = s.accBad := rfl
@[simp] theorem State.mod_cbook (s : State) (c : Nat) (f : Core → Core) : (s.mod c f).cbook = s.cbook := rfl
@[simp] theorem State.mod_mirror (s : State) (c : Nat) (f : Core → Core) : (s.mod c f).mirror = s.mirror := rfl
@[simp] theorem State.mod_um (s : State) (c : Nat) (f : Core → Core) : (s.mod c f).um = s.um := rfl
@[simp] theorem State.mod_pontil (s : State) (c : Nat) (f : Core → Core) : (s.mod c f).pontil = s.pontil := rfl
@[simp] theorem State.mod_roots (s : State) (c : Nat) (f : Core → Core) : (s.mod c f).roots = s.roots := rfl
@[simp] theorem State.mod_queues (s : State) (c : Nat) (f : Core → Core) : (s.mod c f).queues = s.queues := rfl
@[simp] theorem State.mod_d (s : State) (c : Nat) (f : Core → Core) : (s.mod c f).d = s.d := rfl
@[simp] theorem State.mod_io (s : State) (c : Nat) (f : Core → Core) : (s.mod c f).io = s.io := rfl
@[simp] theorem State.mod_bd (s : State) (c : Nat) (f : Core → Core) : (s.mod c f).bd = s.bd := rfl
@[simp] theorem State.mod_w (s : State) (c : Nat) (f : Core → Core) : (s.mod c f).w = s.w := rfl

@[simp] theorem State.upd_agenda (s : State) (f : Core → Core) : (s.upd f).agenda = s.agenda := rfl
@[simp] theorem State.upd_tick (s : State) (f : Core → Core) : (s.upd f).tick = s.tick := rfl
@[simp] theorem State.upd_now (s : State) (f : Core → Core) : (s.upd f).now = s.now := rfl
@[simp] theorem State.upd_rank (s : State) (f : Core → Core) : (s.upd f).rank = s.rank := rfl
@[simp] theorem State.upd_halted (s : State) (f : Core → Core) : (s.upd f).halted = s.halted := rfl
@[simp] theorem State.upd_cur (s : State) (f : Core → Core) : (s.upd f).cur = s.cur := rfl
@[simp] theorem State.upd_ctx (s : State) (f : Core → Core) : (s.upd f).ctx = s.ctx := rfl
@[simp] theorem State.upd_pipe (s : State) (f : Core → Core) : (s.upd f).pipe = s.pipe := rfl
@[simp] theorem State.upd_part (s : State) (f : Core → Core) : (s.upd f).part = s.part := rfl
@[simp] theorem State.upd_waited (s : State) (f : Core → Core) : (s.upd f).waited = s.waited := rfl
@[simp] theorem State.upd_noClock (s : State) (f : Core → Core) : (s.upd f).noClock = s.noClock := rfl
@[simp] theorem State.upd_cfg (s : State) (f : Core → Core) : (s.upd f).cfg = s.cfg := rfl
@[simp] theorem State.upd_mem (s : State) (f : Core → Core) : (s.upd f).mem = s.mem := rfl
@[simp] theorem State.upd_hist (s : State) (f : Core → Core) : (s.upd f).hist = s.hist := rfl
@[simp] theorem State.upd_hb (s : State) (f : Core → Core) : (s.upd f).hb = s.hb := rfl
@[simp] theorem State.upd_seen (s : State) (f : Core → Core) : (s.upd f).seen = s.seen := rfl
@[simp] theorem State.upd_took (s : State) (f : Core → Core) : (s.upd f).took = s.took := rfl
@[simp] theorem State.upd_msgs (s : State) (f : Core → Core) : (s.upd f).msgs = s.msgs := rfl
@[simp] theorem State.upd_pub (s : State) (f : Core → Core) : (s.upd f).pub = s.pub := rfl
@[simp] theorem State.upd_mx (s : State) (f : Core → Core) : (s.upd f).mx = s.mx := rfl
@[simp] theorem State.upd_accum (s : State) (f : Core → Core) : (s.upd f).accum = s.accum := rfl
@[simp] theorem State.upd_accOwner (s : State) (f : Core → Core) : (s.upd f).accOwner = s.accOwner := rfl
@[simp] theorem State.upd_accBad (s : State) (f : Core → Core) : (s.upd f).accBad = s.accBad := rfl
@[simp] theorem State.upd_cbook (s : State) (f : Core → Core) : (s.upd f).cbook = s.cbook := rfl
@[simp] theorem State.upd_mirror (s : State) (f : Core → Core) : (s.upd f).mirror = s.mirror := rfl
@[simp] theorem State.upd_um (s : State) (f : Core → Core) : (s.upd f).um = s.um := rfl
@[simp] theorem State.upd_pontil (s : State) (f : Core → Core) : (s.upd f).pontil = s.pontil := rfl
@[simp] theorem State.upd_roots (s : State) (f : Core → Core) : (s.upd f).roots = s.roots := rfl
@[simp] theorem State.upd_queues (s : State) (f : Core → Core) : (s.upd f).queues = s.queues := rfl
@[simp] theorem State.upd_d (s : State) (f : Core → Core) : (s.upd f).d = s.d := rfl
@[simp] theorem State.upd_io (s : State) (f : Core → Core) : (s.upd f).io = s.io := rfl
@[simp] theorem State.upd_bd (s : State) (f : Core → Core) : (s.upd f).bd = s.bd := rfl
@[simp] theorem State.upd_w (s : State) (f : Core → Core) : (s.upd f).w = s.w := rfl

@[simp] theorem State.done_agenda (s : State) (n : Nat) : (s.done n).agenda = s.agenda := rfl
@[simp] theorem State.done_tick (s : State) (n : Nat) : (s.done n).tick = s.tick := rfl
@[simp] theorem State.done_now (s : State) (n : Nat) : (s.done n).now = s.now := rfl
@[simp] theorem State.done_rank (s : State) (n : Nat) : (s.done n).rank = s.rank := rfl
@[simp] theorem State.done_halted (s : State) (n : Nat) : (s.done n).halted = s.halted := rfl
@[simp] theorem State.done_cur (s : State) (n : Nat) : (s.done n).cur = s.cur := rfl
@[simp] theorem State.done_ctx (s : State) (n : Nat) : (s.done n).ctx = s.ctx := rfl
@[simp] theorem State.done_pipe (s : State) (n : Nat) : (s.done n).pipe = s.pipe := rfl
@[simp] theorem State.done_part (s : State) (n : Nat) : (s.done n).part = s.part := rfl
@[simp] theorem State.done_waited (s : State) (n : Nat) : (s.done n).waited = s.waited := rfl
@[simp] theorem State.done_noClock (s : State) (n : Nat) : (s.done n).noClock = s.noClock := rfl
@[simp] theorem State.done_cfg (s : State) (n : Nat) : (s.done n).cfg = s.cfg := rfl
@[simp] theorem State.done_mem (s : State) (n : Nat) : (s.done n).mem = s.mem := rfl
@[simp] theorem State.done_hist (s : State) (n : Nat) : (s.done n).hist = s.hist := rfl
@[simp] theorem State.done_hb (s : State) (n : Nat) : (s.done n).hb = s.hb := rfl
@[simp] theorem State.done_seen (s : State) (n : Nat) : (s.done n).seen = s.seen := rfl
@[simp] theorem State.done_took (s : State) (n : Nat) : (s.done n).took = s.took := rfl
@[simp] theorem State.done_msgs (s : State) (n : Nat) : (s.done n).msgs = s.msgs := rfl
@[simp] theorem State.done_pub (s : State) (n : Nat) : (s.done n).pub = s.pub := rfl
@[simp] theorem State.done_mx (s : State) (n : Nat) : (s.done n).mx = s.mx := rfl
@[simp] theorem State.done_accum (s : State) (n : Nat) : (s.done n).accum = s.accum := rfl
@[simp] theorem State.done_accOwner (s : State) (n : Nat) : (s.done n).accOwner = s.accOwner := rfl
@[simp] theorem State.done_accBad (s : State) (n : Nat) : (s.done n).accBad = s.accBad := rfl
@[simp] theorem State.done_cbook (s : State) (n : Nat) : (s.done n).cbook = s.cbook := rfl
@[simp] theorem State.done_mirror (s : State) (n : Nat) : (s.done n).mirror = s.mirror := rfl
@[simp] theorem State.done_um (s : State) (n : Nat) : (s.done n).um = s.um := rfl
@[simp] theorem State.done_pontil (s : State) (n : Nat) : (s.done n).pontil = s.pontil := rfl
@[simp] theorem State.done_roots (s : State) (n : Nat) : (s.done n).roots = s.roots := rfl
@[simp] theorem State.done_queues (s : State) (n : Nat) : (s.done n).queues = s.queues := rfl
@[simp] theorem State.done_d (s : State) (n : Nat) : (s.done n).d = s.d := rfl
@[simp] theorem State.done_io (s : State) (n : Nat) : (s.done n).io = s.io := rfl
@[simp] theorem State.done_bd (s : State) (n : Nat) : (s.done n).bd = s.bd := rfl
@[simp] theorem State.done_w (s : State) (n : Nat) : (s.done n).w = s.w := rfl

@[simp] theorem State.ret_agenda (s : State) (d n : Nat) (v : Word) : (s.ret d n v).agenda = s.agenda := rfl
@[simp] theorem State.ret_tick (s : State) (d n : Nat) (v : Word) : (s.ret d n v).tick = s.tick := rfl
@[simp] theorem State.ret_now (s : State) (d n : Nat) (v : Word) : (s.ret d n v).now = s.now := rfl
@[simp] theorem State.ret_rank (s : State) (d n : Nat) (v : Word) : (s.ret d n v).rank = s.rank := rfl
@[simp] theorem State.ret_halted (s : State) (d n : Nat) (v : Word) : (s.ret d n v).halted = s.halted := rfl
@[simp] theorem State.ret_cur (s : State) (d n : Nat) (v : Word) : (s.ret d n v).cur = s.cur := rfl
@[simp] theorem State.ret_ctx (s : State) (d n : Nat) (v : Word) : (s.ret d n v).ctx = s.ctx := rfl
@[simp] theorem State.ret_pipe (s : State) (d n : Nat) (v : Word) : (s.ret d n v).pipe = s.pipe := rfl
@[simp] theorem State.ret_part (s : State) (d n : Nat) (v : Word) : (s.ret d n v).part = s.part := rfl
@[simp] theorem State.ret_waited (s : State) (d n : Nat) (v : Word) : (s.ret d n v).waited = s.waited := rfl
@[simp] theorem State.ret_noClock (s : State) (d n : Nat) (v : Word) : (s.ret d n v).noClock = s.noClock := rfl
@[simp] theorem State.ret_cfg (s : State) (d n : Nat) (v : Word) : (s.ret d n v).cfg = s.cfg := rfl
@[simp] theorem State.ret_mem (s : State) (d n : Nat) (v : Word) : (s.ret d n v).mem = s.mem := rfl
@[simp] theorem State.ret_hist (s : State) (d n : Nat) (v : Word) : (s.ret d n v).hist = s.hist := rfl
@[simp] theorem State.ret_hb (s : State) (d n : Nat) (v : Word) : (s.ret d n v).hb = s.hb := rfl
@[simp] theorem State.ret_seen (s : State) (d n : Nat) (v : Word) : (s.ret d n v).seen = s.seen := rfl
@[simp] theorem State.ret_took (s : State) (d n : Nat) (v : Word) : (s.ret d n v).took = s.took := rfl
@[simp] theorem State.ret_msgs (s : State) (d n : Nat) (v : Word) : (s.ret d n v).msgs = s.msgs := rfl
@[simp] theorem State.ret_pub (s : State) (d n : Nat) (v : Word) : (s.ret d n v).pub = s.pub := rfl
@[simp] theorem State.ret_mx (s : State) (d n : Nat) (v : Word) : (s.ret d n v).mx = s.mx := rfl
@[simp] theorem State.ret_accum (s : State) (d n : Nat) (v : Word) : (s.ret d n v).accum = s.accum := rfl
@[simp] theorem State.ret_accOwner (s : State) (d n : Nat) (v : Word) : (s.ret d n v).accOwner = s.accOwner := rfl
@[simp] theorem State.ret_accBad (s : State) (d n : Nat) (v : Word) : (s.ret d n v).accBad = s.accBad := rfl
@[simp] theorem State.ret_cbook (s : State) (d n : Nat) (v : Word) : (s.ret d n v).cbook = s.cbook := rfl
@[simp] theorem State.ret_mirror (s : State) (d n : Nat) (v : Word) : (s.ret d n v).mirror = s.mirror := rfl
@[simp] theorem State.ret_um (s : State) (d n : Nat) (v : Word) : (s.ret d n v).um = s.um := rfl
@[simp] theorem State.ret_pontil (s : State) (d n : Nat) (v : Word) : (s.ret d n v).pontil = s.pontil := rfl
@[simp] theorem State.ret_roots (s : State) (d n : Nat) (v : Word) : (s.ret d n v).roots = s.roots := rfl
@[simp] theorem State.ret_queues (s : State) (d n : Nat) (v : Word) : (s.ret d n v).queues = s.queues := rfl
@[simp] theorem State.ret_d (s : State) (d n : Nat) (v : Word) : (s.ret d n v).d = s.d := rfl
@[simp] theorem State.ret_io (s : State) (d n : Nat) (v : Word) : (s.ret d n v).io = s.io := rfl
@[simp] theorem State.ret_bd (s : State) (d n : Nat) (v : Word) : (s.ret d n v).bd = s.bd := rfl
@[simp] theorem State.ret_w (s : State) (d n : Nat) (v : Word) : (s.ret d n v).w = s.w := rfl

@[simp] theorem State.retK_agenda (s : State) (d : Nat) (t : Token) : (s.retK d t).agenda = s.agenda := rfl
@[simp] theorem State.retK_tick (s : State) (d : Nat) (t : Token) : (s.retK d t).tick = s.tick := rfl
@[simp] theorem State.retK_now (s : State) (d : Nat) (t : Token) : (s.retK d t).now = s.now := rfl
@[simp] theorem State.retK_rank (s : State) (d : Nat) (t : Token) : (s.retK d t).rank = s.rank := rfl
@[simp] theorem State.retK_halted (s : State) (d : Nat) (t : Token) : (s.retK d t).halted = s.halted := rfl
@[simp] theorem State.retK_cur (s : State) (d : Nat) (t : Token) : (s.retK d t).cur = s.cur := rfl
@[simp] theorem State.retK_ctx (s : State) (d : Nat) (t : Token) : (s.retK d t).ctx = s.ctx := rfl
@[simp] theorem State.retK_pipe (s : State) (d : Nat) (t : Token) : (s.retK d t).pipe = s.pipe := rfl
@[simp] theorem State.retK_part (s : State) (d : Nat) (t : Token) : (s.retK d t).part = s.part := rfl
@[simp] theorem State.retK_waited (s : State) (d : Nat) (t : Token) : (s.retK d t).waited = s.waited := rfl
@[simp] theorem State.retK_noClock (s : State) (d : Nat) (t : Token) : (s.retK d t).noClock = s.noClock := rfl
@[simp] theorem State.retK_cfg (s : State) (d : Nat) (t : Token) : (s.retK d t).cfg = s.cfg := rfl
@[simp] theorem State.retK_mem (s : State) (d : Nat) (t : Token) : (s.retK d t).mem = s.mem := rfl
@[simp] theorem State.retK_hist (s : State) (d : Nat) (t : Token) : (s.retK d t).hist = s.hist := rfl
@[simp] theorem State.retK_hb (s : State) (d : Nat) (t : Token) : (s.retK d t).hb = s.hb := rfl
@[simp] theorem State.retK_seen (s : State) (d : Nat) (t : Token) : (s.retK d t).seen = s.seen := rfl
@[simp] theorem State.retK_took (s : State) (d : Nat) (t : Token) : (s.retK d t).took = s.took := rfl
@[simp] theorem State.retK_msgs (s : State) (d : Nat) (t : Token) : (s.retK d t).msgs = s.msgs := rfl
@[simp] theorem State.retK_pub (s : State) (d : Nat) (t : Token) : (s.retK d t).pub = s.pub := rfl
@[simp] theorem State.retK_mx (s : State) (d : Nat) (t : Token) : (s.retK d t).mx = s.mx := rfl
@[simp] theorem State.retK_accum (s : State) (d : Nat) (t : Token) : (s.retK d t).accum = s.accum := rfl
@[simp] theorem State.retK_accOwner (s : State) (d : Nat) (t : Token) : (s.retK d t).accOwner = s.accOwner := rfl
@[simp] theorem State.retK_accBad (s : State) (d : Nat) (t : Token) : (s.retK d t).accBad = s.accBad := rfl
@[simp] theorem State.retK_cbook (s : State) (d : Nat) (t : Token) : (s.retK d t).cbook = s.cbook := rfl
@[simp] theorem State.retK_mirror (s : State) (d : Nat) (t : Token) : (s.retK d t).mirror = s.mirror := rfl
@[simp] theorem State.retK_um (s : State) (d : Nat) (t : Token) : (s.retK d t).um = s.um := rfl
@[simp] theorem State.retK_pontil (s : State) (d : Nat) (t : Token) : (s.retK d t).pontil = s.pontil := rfl
@[simp] theorem State.retK_roots (s : State) (d : Nat) (t : Token) : (s.retK d t).roots = s.roots := rfl
@[simp] theorem State.retK_queues (s : State) (d : Nat) (t : Token) : (s.retK d t).queues = s.queues := rfl
@[simp] theorem State.retK_d (s : State) (d : Nat) (t : Token) : (s.retK d t).d = s.d := rfl
@[simp] theorem State.retK_io (s : State) (d : Nat) (t : Token) : (s.retK d t).io = s.io := rfl
@[simp] theorem State.retK_bd (s : State) (d : Nat) (t : Token) : (s.retK d t).bd = s.bd := rfl
@[simp] theorem State.retK_w (s : State) (d : Nat) (t : Token) : (s.retK d t).w = s.w := rfl

@[simp] theorem State.holds_agenda (s : State) (k : HoldK) : (s.holds k).agenda = s.agenda := rfl
@[simp] theorem State.holds_tick (s : State) (k : HoldK) : (s.holds k).tick = s.tick := rfl
@[simp] theorem State.holds_now (s : State) (k : HoldK) : (s.holds k).now = s.now := rfl
@[simp] theorem State.holds_rank (s : State) (k : HoldK) : (s.holds k).rank = s.rank := rfl
@[simp] theorem State.holds_halted (s : State) (k : HoldK) : (s.holds k).halted = s.halted := rfl
@[simp] theorem State.holds_cur (s : State) (k : HoldK) : (s.holds k).cur = s.cur := rfl
@[simp] theorem State.holds_ctx (s : State) (k : HoldK) : (s.holds k).ctx = s.ctx := rfl
@[simp] theorem State.holds_pipe (s : State) (k : HoldK) : (s.holds k).pipe = s.pipe := rfl
@[simp] theorem State.holds_part (s : State) (k : HoldK) : (s.holds k).part = s.part := rfl
@[simp] theorem State.holds_waited (s : State) (k : HoldK) : (s.holds k).waited = s.waited := rfl
@[simp] theorem State.holds_noClock (s : State) (k : HoldK) : (s.holds k).noClock = s.noClock := rfl
@[simp] theorem State.holds_cfg (s : State) (k : HoldK) : (s.holds k).cfg = s.cfg := rfl
@[simp] theorem State.holds_mem (s : State) (k : HoldK) : (s.holds k).mem = s.mem := rfl
@[simp] theorem State.holds_hist (s : State) (k : HoldK) : (s.holds k).hist = s.hist := rfl
@[simp] theorem State.holds_hb (s : State) (k : HoldK) : (s.holds k).hb = s.hb := rfl
@[simp] theorem State.holds_seen (s : State) (k : HoldK) : (s.holds k).seen = s.seen := rfl
@[simp] theorem State.holds_took (s : State) (k : HoldK) : (s.holds k).took = s.took := rfl
@[simp] theorem State.holds_msgs (s : State) (k : HoldK) : (s.holds k).msgs = s.msgs := rfl
@[simp] theorem State.holds_pub (s : State) (k : HoldK) : (s.holds k).pub = s.pub := rfl
@[simp] theorem State.holds_mx (s : State) (k : HoldK) : (s.holds k).mx = s.mx := rfl
@[simp] theorem State.holds_accum (s : State) (k : HoldK) : (s.holds k).accum = s.accum := rfl
@[simp] theorem State.holds_accOwner (s : State) (k : HoldK) : (s.holds k).accOwner = s.accOwner := rfl
@[simp] theorem State.holds_accBad (s : State) (k : HoldK) : (s.holds k).accBad = s.accBad := rfl
@[simp] theorem State.holds_cbook (s : State) (k : HoldK) : (s.holds k).cbook = s.cbook := rfl
@[simp] theorem State.holds_mirror (s : State) (k : HoldK) : (s.holds k).mirror = s.mirror := rfl
@[simp] theorem State.holds_um (s : State) (k : HoldK) : (s.holds k).um = s.um := rfl
@[simp] theorem State.holds_pontil (s : State) (k : HoldK) : (s.holds k).pontil = s.pontil := rfl
@[simp] theorem State.holds_roots (s : State) (k : HoldK) : (s.holds k).roots = s.roots := rfl
@[simp] theorem State.holds_queues (s : State) (k : HoldK) : (s.holds k).queues = s.queues := rfl
@[simp] theorem State.holds_d (s : State) (k : HoldK) : (s.holds k).d = s.d := rfl
@[simp] theorem State.holds_io (s : State) (k : HoldK) : (s.holds k).io = s.io := rfl
@[simp] theorem State.holds_bd (s : State) (k : HoldK) : (s.holds k).bd = s.bd := rfl
@[simp] theorem State.holds_w (s : State) (k : HoldK) : (s.holds k).w = s.w := rfl

@[simp] theorem State.setMasks_agenda (s : State) (l : List (BitVec 768)) (d : Nat) : (s.setMasks l d).agenda = s.agenda := rfl
@[simp] theorem State.setMasks_tick (s : State) (l : List (BitVec 768)) (d : Nat) : (s.setMasks l d).tick = s.tick := rfl
@[simp] theorem State.setMasks_now (s : State) (l : List (BitVec 768)) (d : Nat) : (s.setMasks l d).now = s.now := rfl
@[simp] theorem State.setMasks_rank (s : State) (l : List (BitVec 768)) (d : Nat) : (s.setMasks l d).rank = s.rank := rfl
@[simp] theorem State.setMasks_halted (s : State) (l : List (BitVec 768)) (d : Nat) : (s.setMasks l d).halted = s.halted := rfl
@[simp] theorem State.setMasks_cur (s : State) (l : List (BitVec 768)) (d : Nat) : (s.setMasks l d).cur = s.cur := rfl
@[simp] theorem State.setMasks_ctx (s : State) (l : List (BitVec 768)) (d : Nat) : (s.setMasks l d).ctx = s.ctx := rfl
@[simp] theorem State.setMasks_pipe (s : State) (l : List (BitVec 768)) (d : Nat) : (s.setMasks l d).pipe = s.pipe := rfl
@[simp] theorem State.setMasks_part (s : State) (l : List (BitVec 768)) (d : Nat) : (s.setMasks l d).part = s.part := rfl
@[simp] theorem State.setMasks_waited (s : State) (l : List (BitVec 768)) (d : Nat) : (s.setMasks l d).waited = s.waited := rfl
@[simp] theorem State.setMasks_noClock (s : State) (l : List (BitVec 768)) (d : Nat) : (s.setMasks l d).noClock = s.noClock := rfl
@[simp] theorem State.setMasks_cfg (s : State) (l : List (BitVec 768)) (d : Nat) : (s.setMasks l d).cfg = s.cfg := rfl
@[simp] theorem State.setMasks_mem (s : State) (l : List (BitVec 768)) (d : Nat) : (s.setMasks l d).mem = s.mem := rfl
@[simp] theorem State.setMasks_hist (s : State) (l : List (BitVec 768)) (d : Nat) : (s.setMasks l d).hist = s.hist := rfl
@[simp] theorem State.setMasks_hb (s : State) (l : List (BitVec 768)) (d : Nat) : (s.setMasks l d).hb = s.hb := rfl
@[simp] theorem State.setMasks_seen (s : State) (l : List (BitVec 768)) (d : Nat) : (s.setMasks l d).seen = s.seen := rfl
@[simp] theorem State.setMasks_took (s : State) (l : List (BitVec 768)) (d : Nat) : (s.setMasks l d).took = s.took := rfl
@[simp] theorem State.setMasks_msgs (s : State) (l : List (BitVec 768)) (d : Nat) : (s.setMasks l d).msgs = s.msgs := rfl
@[simp] theorem State.setMasks_pub (s : State) (l : List (BitVec 768)) (d : Nat) : (s.setMasks l d).pub = s.pub := rfl
@[simp] theorem State.setMasks_mx (s : State) (l : List (BitVec 768)) (d : Nat) : (s.setMasks l d).mx = s.mx := rfl
@[simp] theorem State.setMasks_accum (s : State) (l : List (BitVec 768)) (d : Nat) : (s.setMasks l d).accum = s.accum := rfl
@[simp] theorem State.setMasks_accOwner (s : State) (l : List (BitVec 768)) (d : Nat) : (s.setMasks l d).accOwner = s.accOwner := rfl
@[simp] theorem State.setMasks_accBad (s : State) (l : List (BitVec 768)) (d : Nat) : (s.setMasks l d).accBad = s.accBad := rfl
@[simp] theorem State.setMasks_cbook (s : State) (l : List (BitVec 768)) (d : Nat) : (s.setMasks l d).cbook = s.cbook := rfl
@[simp] theorem State.setMasks_mirror (s : State) (l : List (BitVec 768)) (d : Nat) : (s.setMasks l d).mirror = s.mirror := rfl
@[simp] theorem State.setMasks_um (s : State) (l : List (BitVec 768)) (d : Nat) : (s.setMasks l d).um = s.um := rfl
@[simp] theorem State.setMasks_pontil (s : State) (l : List (BitVec 768)) (d : Nat) : (s.setMasks l d).pontil = s.pontil := rfl
@[simp] theorem State.setMasks_roots (s : State) (l : List (BitVec 768)) (d : Nat) : (s.setMasks l d).roots = s.roots := rfl
@[simp] theorem State.setMasks_queues (s : State) (l : List (BitVec 768)) (d : Nat) : (s.setMasks l d).queues = s.queues := rfl
@[simp] theorem State.setMasks_d (s : State) (l : List (BitVec 768)) (d : Nat) : (s.setMasks l d).d = s.d := rfl
@[simp] theorem State.setMasks_io (s : State) (l : List (BitVec 768)) (d : Nat) : (s.setMasks l d).io = s.io := rfl
@[simp] theorem State.setMasks_bd (s : State) (l : List (BitVec 768)) (d : Nat) : (s.setMasks l d).bd = s.bd := rfl
@[simp] theorem State.setMasks_w (s : State) (l : List (BitVec 768)) (d : Nat) : (s.setMasks l d).w = s.w := rfl

@[simp] theorem State.freeWin_agenda (s : State) (n : Nat) : (s.freeWin n).agenda = s.agenda := rfl
@[simp] theorem State.freeWin_tick (s : State) (n : Nat) : (s.freeWin n).tick = s.tick := rfl
@[simp] theorem State.freeWin_now (s : State) (n : Nat) : (s.freeWin n).now = s.now := rfl
@[simp] theorem State.freeWin_rank (s : State) (n : Nat) : (s.freeWin n).rank = s.rank := rfl
@[simp] theorem State.freeWin_halted (s : State) (n : Nat) : (s.freeWin n).halted = s.halted := rfl
@[simp] theorem State.freeWin_cur (s : State) (n : Nat) : (s.freeWin n).cur = s.cur := rfl
@[simp] theorem State.freeWin_ctx (s : State) (n : Nat) : (s.freeWin n).ctx = s.ctx := rfl
@[simp] theorem State.freeWin_pipe (s : State) (n : Nat) : (s.freeWin n).pipe = s.pipe := rfl
@[simp] theorem State.freeWin_part (s : State) (n : Nat) : (s.freeWin n).part = s.part := rfl
@[simp] theorem State.freeWin_waited (s : State) (n : Nat) : (s.freeWin n).waited = s.waited := rfl
@[simp] theorem State.freeWin_noClock (s : State) (n : Nat) : (s.freeWin n).noClock = s.noClock := rfl
@[simp] theorem State.freeWin_cfg (s : State) (n : Nat) : (s.freeWin n).cfg = s.cfg := rfl
@[simp] theorem State.freeWin_mem (s : State) (n : Nat) : (s.freeWin n).mem = s.mem := rfl
@[simp] theorem State.freeWin_hist (s : State) (n : Nat) : (s.freeWin n).hist = s.hist := rfl
@[simp] theorem State.freeWin_hb (s : State) (n : Nat) : (s.freeWin n).hb = s.hb := rfl
@[simp] theorem State.freeWin_seen (s : State) (n : Nat) : (s.freeWin n).seen = s.seen := rfl
@[simp] theorem State.freeWin_took (s : State) (n : Nat) : (s.freeWin n).took = s.took := rfl
@[simp] theorem State.freeWin_msgs (s : State) (n : Nat) : (s.freeWin n).msgs = s.msgs := rfl
@[simp] theorem State.freeWin_pub (s : State) (n : Nat) : (s.freeWin n).pub = s.pub := rfl
@[simp] theorem State.freeWin_mx (s : State) (n : Nat) : (s.freeWin n).mx = s.mx := rfl
@[simp] theorem State.freeWin_accum (s : State) (n : Nat) : (s.freeWin n).accum = s.accum := rfl
@[simp] theorem State.freeWin_accOwner (s : State) (n : Nat) : (s.freeWin n).accOwner = s.accOwner := rfl
@[simp] theorem State.freeWin_accBad (s : State) (n : Nat) : (s.freeWin n).accBad = s.accBad := rfl
@[simp] theorem State.freeWin_cbook (s : State) (n : Nat) : (s.freeWin n).cbook = s.cbook := rfl
@[simp] theorem State.freeWin_mirror (s : State) (n : Nat) : (s.freeWin n).mirror = s.mirror := rfl
@[simp] theorem State.freeWin_um (s : State) (n : Nat) : (s.freeWin n).um = s.um := rfl
@[simp] theorem State.freeWin_pontil (s : State) (n : Nat) : (s.freeWin n).pontil = s.pontil := rfl
@[simp] theorem State.freeWin_roots (s : State) (n : Nat) : (s.freeWin n).roots = s.roots := rfl
@[simp] theorem State.freeWin_queues (s : State) (n : Nat) : (s.freeWin n).queues = s.queues := rfl
@[simp] theorem State.freeWin_d (s : State) (n : Nat) : (s.freeWin n).d = s.d := rfl
@[simp] theorem State.freeWin_io (s : State) (n : Nat) : (s.freeWin n).io = s.io := rfl
@[simp] theorem State.freeWin_bd (s : State) (n : Nat) : (s.freeWin n).bd = s.bd := rfl
@[simp] theorem State.freeWin_w (s : State) (n : Nat) : (s.freeWin n).w = s.w := rfl

@[simp] theorem State.setEnt_agenda (s : State) (e : Nat) (v : PEntry) : (s.setEnt e v).agenda = s.agenda := rfl
@[simp] theorem State.setEnt_tick (s : State) (e : Nat) (v : PEntry) : (s.setEnt e v).tick = s.tick := rfl
@[simp] theorem State.setEnt_now (s : State) (e : Nat) (v : PEntry) : (s.setEnt e v).now = s.now := rfl
@[simp] theorem State.setEnt_rank (s : State) (e : Nat) (v : PEntry) : (s.setEnt e v).rank = s.rank := rfl
@[simp] theorem State.setEnt_halted (s : State) (e : Nat) (v : PEntry) : (s.setEnt e v).halted = s.halted := rfl
@[simp] theorem State.setEnt_cur (s : State) (e : Nat) (v : PEntry) : (s.setEnt e v).cur = s.cur := rfl
@[simp] theorem State.setEnt_ctx (s : State) (e : Nat) (v : PEntry) : (s.setEnt e v).ctx = s.ctx := rfl
@[simp] theorem State.setEnt_pipe (s : State) (e : Nat) (v : PEntry) : (s.setEnt e v).pipe = s.pipe := rfl
@[simp] theorem State.setEnt_part (s : State) (e : Nat) (v : PEntry) : (s.setEnt e v).part = s.part := rfl
@[simp] theorem State.setEnt_waited (s : State) (e : Nat) (v : PEntry) : (s.setEnt e v).waited = s.waited := rfl
@[simp] theorem State.setEnt_noClock (s : State) (e : Nat) (v : PEntry) : (s.setEnt e v).noClock = s.noClock := rfl
@[simp] theorem State.setEnt_cfg (s : State) (e : Nat) (v : PEntry) : (s.setEnt e v).cfg = s.cfg := rfl
@[simp] theorem State.setEnt_cores (s : State) (e : Nat) (v : PEntry) : (s.setEnt e v).cores = s.cores := rfl
@[simp] theorem State.setEnt_mem (s : State) (e : Nat) (v : PEntry) : (s.setEnt e v).mem = s.mem := rfl
@[simp] theorem State.setEnt_hist (s : State) (e : Nat) (v : PEntry) : (s.setEnt e v).hist = s.hist := rfl
@[simp] theorem State.setEnt_hb (s : State) (e : Nat) (v : PEntry) : (s.setEnt e v).hb = s.hb := rfl
@[simp] theorem State.setEnt_seen (s : State) (e : Nat) (v : PEntry) : (s.setEnt e v).seen = s.seen := rfl
@[simp] theorem State.setEnt_took (s : State) (e : Nat) (v : PEntry) : (s.setEnt e v).took = s.took := rfl
@[simp] theorem State.setEnt_msgs (s : State) (e : Nat) (v : PEntry) : (s.setEnt e v).msgs = s.msgs := rfl
@[simp] theorem State.setEnt_pub (s : State) (e : Nat) (v : PEntry) : (s.setEnt e v).pub = s.pub := rfl
@[simp] theorem State.setEnt_mx (s : State) (e : Nat) (v : PEntry) : (s.setEnt e v).mx = s.mx := rfl
@[simp] theorem State.setEnt_accum (s : State) (e : Nat) (v : PEntry) : (s.setEnt e v).accum = s.accum := rfl
@[simp] theorem State.setEnt_accOwner (s : State) (e : Nat) (v : PEntry) : (s.setEnt e v).accOwner = s.accOwner := rfl
@[simp] theorem State.setEnt_accBad (s : State) (e : Nat) (v : PEntry) : (s.setEnt e v).accBad = s.accBad := rfl
@[simp] theorem State.setEnt_cbook (s : State) (e : Nat) (v : PEntry) : (s.setEnt e v).cbook = s.cbook := rfl
@[simp] theorem State.setEnt_mirror (s : State) (e : Nat) (v : PEntry) : (s.setEnt e v).mirror = s.mirror := rfl
@[simp] theorem State.setEnt_um (s : State) (e : Nat) (v : PEntry) : (s.setEnt e v).um = s.um := rfl
@[simp] theorem State.setEnt_roots (s : State) (e : Nat) (v : PEntry) : (s.setEnt e v).roots = s.roots := rfl
@[simp] theorem State.setEnt_queues (s : State) (e : Nat) (v : PEntry) : (s.setEnt e v).queues = s.queues := rfl
@[simp] theorem State.setEnt_d (s : State) (e : Nat) (v : PEntry) : (s.setEnt e v).d = s.d := rfl
@[simp] theorem State.setEnt_io (s : State) (e : Nat) (v : PEntry) : (s.setEnt e v).io = s.io := rfl
@[simp] theorem State.setEnt_bd (s : State) (e : Nat) (v : PEntry) : (s.setEnt e v).bd = s.bd := rfl
@[simp] theorem State.setEnt_w (s : State) (e : Nat) (v : PEntry) : (s.setEnt e v).w = s.w := rfl

@[simp] theorem State.setMarver_agenda (s : State) (mv : Nat) (m : Marver) : (s.setMarver mv m).agenda = s.agenda := rfl
@[simp] theorem State.setMarver_tick (s : State) (mv : Nat) (m : Marver) : (s.setMarver mv m).tick = s.tick := rfl
@[simp] theorem State.setMarver_now (s : State) (mv : Nat) (m : Marver) : (s.setMarver mv m).now = s.now := rfl
@[simp] theorem State.setMarver_rank (s : State) (mv : Nat) (m : Marver) : (s.setMarver mv m).rank = s.rank := rfl
@[simp] theorem State.setMarver_halted (s : State) (mv : Nat) (m : Marver) : (s.setMarver mv m).halted = s.halted := rfl
@[simp] theorem State.setMarver_cur (s : State) (mv : Nat) (m : Marver) : (s.setMarver mv m).cur = s.cur := rfl
@[simp] theorem State.setMarver_ctx (s : State) (mv : Nat) (m : Marver) : (s.setMarver mv m).ctx = s.ctx := rfl
@[simp] theorem State.setMarver_pipe (s : State) (mv : Nat) (m : Marver) : (s.setMarver mv m).pipe = s.pipe := rfl
@[simp] theorem State.setMarver_part (s : State) (mv : Nat) (m : Marver) : (s.setMarver mv m).part = s.part := rfl
@[simp] theorem State.setMarver_waited (s : State) (mv : Nat) (m : Marver) : (s.setMarver mv m).waited = s.waited := rfl
@[simp] theorem State.setMarver_noClock (s : State) (mv : Nat) (m : Marver) : (s.setMarver mv m).noClock = s.noClock := rfl
@[simp] theorem State.setMarver_cfg (s : State) (mv : Nat) (m : Marver) : (s.setMarver mv m).cfg = s.cfg := rfl
@[simp] theorem State.setMarver_cores (s : State) (mv : Nat) (m : Marver) : (s.setMarver mv m).cores = s.cores := rfl
@[simp] theorem State.setMarver_mem (s : State) (mv : Nat) (m : Marver) : (s.setMarver mv m).mem = s.mem := rfl
@[simp] theorem State.setMarver_hist (s : State) (mv : Nat) (m : Marver) : (s.setMarver mv m).hist = s.hist := rfl
@[simp] theorem State.setMarver_hb (s : State) (mv : Nat) (m : Marver) : (s.setMarver mv m).hb = s.hb := rfl
@[simp] theorem State.setMarver_seen (s : State) (mv : Nat) (m : Marver) : (s.setMarver mv m).seen = s.seen := rfl
@[simp] theorem State.setMarver_took (s : State) (mv : Nat) (m : Marver) : (s.setMarver mv m).took = s.took := rfl
@[simp] theorem State.setMarver_msgs (s : State) (mv : Nat) (m : Marver) : (s.setMarver mv m).msgs = s.msgs := rfl
@[simp] theorem State.setMarver_pub (s : State) (mv : Nat) (m : Marver) : (s.setMarver mv m).pub = s.pub := rfl
@[simp] theorem State.setMarver_accum (s : State) (mv : Nat) (m : Marver) : (s.setMarver mv m).accum = s.accum := rfl
@[simp] theorem State.setMarver_accOwner (s : State) (mv : Nat) (m : Marver) : (s.setMarver mv m).accOwner = s.accOwner := rfl
@[simp] theorem State.setMarver_accBad (s : State) (mv : Nat) (m : Marver) : (s.setMarver mv m).accBad = s.accBad := rfl
@[simp] theorem State.setMarver_cbook (s : State) (mv : Nat) (m : Marver) : (s.setMarver mv m).cbook = s.cbook := rfl
@[simp] theorem State.setMarver_mirror (s : State) (mv : Nat) (m : Marver) : (s.setMarver mv m).mirror = s.mirror := rfl
@[simp] theorem State.setMarver_um (s : State) (mv : Nat) (m : Marver) : (s.setMarver mv m).um = s.um := rfl
@[simp] theorem State.setMarver_pontil (s : State) (mv : Nat) (m : Marver) : (s.setMarver mv m).pontil = s.pontil := rfl
@[simp] theorem State.setMarver_roots (s : State) (mv : Nat) (m : Marver) : (s.setMarver mv m).roots = s.roots := rfl
@[simp] theorem State.setMarver_queues (s : State) (mv : Nat) (m : Marver) : (s.setMarver mv m).queues = s.queues := rfl
@[simp] theorem State.setMarver_d (s : State) (mv : Nat) (m : Marver) : (s.setMarver mv m).d = s.d := rfl
@[simp] theorem State.setMarver_io (s : State) (mv : Nat) (m : Marver) : (s.setMarver mv m).io = s.io := rfl
@[simp] theorem State.setMarver_bd (s : State) (mv : Nat) (m : Marver) : (s.setMarver mv m).bd = s.bd := rfl
@[simp] theorem State.setMarver_w (s : State) (mv : Nat) (m : Marver) : (s.setMarver mv m).w = s.w := rfl

@[simp] theorem State.setUm_agenda (s : State) (pane : Nat) (u : Um) : (s.setUm pane u).agenda = s.agenda := rfl
@[simp] theorem State.setUm_tick (s : State) (pane : Nat) (u : Um) : (s.setUm pane u).tick = s.tick := rfl
@[simp] theorem State.setUm_now (s : State) (pane : Nat) (u : Um) : (s.setUm pane u).now = s.now := rfl
@[simp] theorem State.setUm_rank (s : State) (pane : Nat) (u : Um) : (s.setUm pane u).rank = s.rank := rfl
@[simp] theorem State.setUm_halted (s : State) (pane : Nat) (u : Um) : (s.setUm pane u).halted = s.halted := rfl
@[simp] theorem State.setUm_cur (s : State) (pane : Nat) (u : Um) : (s.setUm pane u).cur = s.cur := rfl
@[simp] theorem State.setUm_ctx (s : State) (pane : Nat) (u : Um) : (s.setUm pane u).ctx = s.ctx := rfl
@[simp] theorem State.setUm_pipe (s : State) (pane : Nat) (u : Um) : (s.setUm pane u).pipe = s.pipe := rfl
@[simp] theorem State.setUm_part (s : State) (pane : Nat) (u : Um) : (s.setUm pane u).part = s.part := rfl
@[simp] theorem State.setUm_waited (s : State) (pane : Nat) (u : Um) : (s.setUm pane u).waited = s.waited := rfl
@[simp] theorem State.setUm_noClock (s : State) (pane : Nat) (u : Um) : (s.setUm pane u).noClock = s.noClock := rfl
@[simp] theorem State.setUm_cfg (s : State) (pane : Nat) (u : Um) : (s.setUm pane u).cfg = s.cfg := rfl
@[simp] theorem State.setUm_cores (s : State) (pane : Nat) (u : Um) : (s.setUm pane u).cores = s.cores := rfl
@[simp] theorem State.setUm_mem (s : State) (pane : Nat) (u : Um) : (s.setUm pane u).mem = s.mem := rfl
@[simp] theorem State.setUm_hist (s : State) (pane : Nat) (u : Um) : (s.setUm pane u).hist = s.hist := rfl
@[simp] theorem State.setUm_hb (s : State) (pane : Nat) (u : Um) : (s.setUm pane u).hb = s.hb := rfl
@[simp] theorem State.setUm_seen (s : State) (pane : Nat) (u : Um) : (s.setUm pane u).seen = s.seen := rfl
@[simp] theorem State.setUm_took (s : State) (pane : Nat) (u : Um) : (s.setUm pane u).took = s.took := rfl
@[simp] theorem State.setUm_msgs (s : State) (pane : Nat) (u : Um) : (s.setUm pane u).msgs = s.msgs := rfl
@[simp] theorem State.setUm_pub (s : State) (pane : Nat) (u : Um) : (s.setUm pane u).pub = s.pub := rfl
@[simp] theorem State.setUm_mx (s : State) (pane : Nat) (u : Um) : (s.setUm pane u).mx = s.mx := rfl
@[simp] theorem State.setUm_accum (s : State) (pane : Nat) (u : Um) : (s.setUm pane u).accum = s.accum := rfl
@[simp] theorem State.setUm_accOwner (s : State) (pane : Nat) (u : Um) : (s.setUm pane u).accOwner = s.accOwner := rfl
@[simp] theorem State.setUm_accBad (s : State) (pane : Nat) (u : Um) : (s.setUm pane u).accBad = s.accBad := rfl
@[simp] theorem State.setUm_cbook (s : State) (pane : Nat) (u : Um) : (s.setUm pane u).cbook = s.cbook := rfl
@[simp] theorem State.setUm_mirror (s : State) (pane : Nat) (u : Um) : (s.setUm pane u).mirror = s.mirror := rfl
@[simp] theorem State.setUm_pontil (s : State) (pane : Nat) (u : Um) : (s.setUm pane u).pontil = s.pontil := rfl
@[simp] theorem State.setUm_roots (s : State) (pane : Nat) (u : Um) : (s.setUm pane u).roots = s.roots := rfl
@[simp] theorem State.setUm_queues (s : State) (pane : Nat) (u : Um) : (s.setUm pane u).queues = s.queues := rfl
@[simp] theorem State.setUm_d (s : State) (pane : Nat) (u : Um) : (s.setUm pane u).d = s.d := rfl
@[simp] theorem State.setUm_io (s : State) (pane : Nat) (u : Um) : (s.setUm pane u).io = s.io := rfl
@[simp] theorem State.setUm_bd (s : State) (pane : Nat) (u : Um) : (s.setUm pane u).bd = s.bd := rfl
@[simp] theorem State.setUm_w (s : State) (pane : Nat) (u : Um) : (s.setUm pane u).w = s.w := rfl

@[simp] theorem State.setQ_agenda (s : State) (q : Nat) (v : Queue) : (s.setQ q v).agenda = s.agenda := rfl
@[simp] theorem State.setQ_tick (s : State) (q : Nat) (v : Queue) : (s.setQ q v).tick = s.tick := rfl
@[simp] theorem State.setQ_now (s : State) (q : Nat) (v : Queue) : (s.setQ q v).now = s.now := rfl
@[simp] theorem State.setQ_rank (s : State) (q : Nat) (v : Queue) : (s.setQ q v).rank = s.rank := rfl
@[simp] theorem State.setQ_halted (s : State) (q : Nat) (v : Queue) : (s.setQ q v).halted = s.halted := rfl
@[simp] theorem State.setQ_cur (s : State) (q : Nat) (v : Queue) : (s.setQ q v).cur = s.cur := rfl
@[simp] theorem State.setQ_ctx (s : State) (q : Nat) (v : Queue) : (s.setQ q v).ctx = s.ctx := rfl
@[simp] theorem State.setQ_pipe (s : State) (q : Nat) (v : Queue) : (s.setQ q v).pipe = s.pipe := rfl
@[simp] theorem State.setQ_part (s : State) (q : Nat) (v : Queue) : (s.setQ q v).part = s.part := rfl
@[simp] theorem State.setQ_waited (s : State) (q : Nat) (v : Queue) : (s.setQ q v).waited = s.waited := rfl
@[simp] theorem State.setQ_noClock (s : State) (q : Nat) (v : Queue) : (s.setQ q v).noClock = s.noClock := rfl
@[simp] theorem State.setQ_cfg (s : State) (q : Nat) (v : Queue) : (s.setQ q v).cfg = s.cfg := rfl
@[simp] theorem State.setQ_cores (s : State) (q : Nat) (v : Queue) : (s.setQ q v).cores = s.cores := rfl
@[simp] theorem State.setQ_mem (s : State) (q : Nat) (v : Queue) : (s.setQ q v).mem = s.mem := rfl
@[simp] theorem State.setQ_hist (s : State) (q : Nat) (v : Queue) : (s.setQ q v).hist = s.hist := rfl
@[simp] theorem State.setQ_hb (s : State) (q : Nat) (v : Queue) : (s.setQ q v).hb = s.hb := rfl
@[simp] theorem State.setQ_seen (s : State) (q : Nat) (v : Queue) : (s.setQ q v).seen = s.seen := rfl
@[simp] theorem State.setQ_took (s : State) (q : Nat) (v : Queue) : (s.setQ q v).took = s.took := rfl
@[simp] theorem State.setQ_msgs (s : State) (q : Nat) (v : Queue) : (s.setQ q v).msgs = s.msgs := rfl
@[simp] theorem State.setQ_pub (s : State) (q : Nat) (v : Queue) : (s.setQ q v).pub = s.pub := rfl
@[simp] theorem State.setQ_mx (s : State) (q : Nat) (v : Queue) : (s.setQ q v).mx = s.mx := rfl
@[simp] theorem State.setQ_accum (s : State) (q : Nat) (v : Queue) : (s.setQ q v).accum = s.accum := rfl
@[simp] theorem State.setQ_accOwner (s : State) (q : Nat) (v : Queue) : (s.setQ q v).accOwner = s.accOwner := rfl
@[simp] theorem State.setQ_accBad (s : State) (q : Nat) (v : Queue) : (s.setQ q v).accBad = s.accBad := rfl
@[simp] theorem State.setQ_cbook (s : State) (q : Nat) (v : Queue) : (s.setQ q v).cbook = s.cbook := rfl
@[simp] theorem State.setQ_mirror (s : State) (q : Nat) (v : Queue) : (s.setQ q v).mirror = s.mirror := rfl
@[simp] theorem State.setQ_um (s : State) (q : Nat) (v : Queue) : (s.setQ q v).um = s.um := rfl
@[simp] theorem State.setQ_pontil (s : State) (q : Nat) (v : Queue) : (s.setQ q v).pontil = s.pontil := rfl
@[simp] theorem State.setQ_roots (s : State) (q : Nat) (v : Queue) : (s.setQ q v).roots = s.roots := rfl
@[simp] theorem State.setQ_d (s : State) (q : Nat) (v : Queue) : (s.setQ q v).d = s.d := rfl
@[simp] theorem State.setQ_io (s : State) (q : Nat) (v : Queue) : (s.setQ q v).io = s.io := rfl
@[simp] theorem State.setQ_bd (s : State) (q : Nat) (v : Queue) : (s.setQ q v).bd = s.bd := rfl
@[simp] theorem State.setQ_w (s : State) (q : Nat) (v : Queue) : (s.setQ q v).w = s.w := rfl

@[simp] theorem State.request_agenda (s : State) (q : Nat) (r : QReq) : (s.request q r).agenda = s.agenda := rfl
@[simp] theorem State.request_tick (s : State) (q : Nat) (r : QReq) : (s.request q r).tick = s.tick := rfl
@[simp] theorem State.request_now (s : State) (q : Nat) (r : QReq) : (s.request q r).now = s.now := rfl
@[simp] theorem State.request_rank (s : State) (q : Nat) (r : QReq) : (s.request q r).rank = s.rank := rfl
@[simp] theorem State.request_halted (s : State) (q : Nat) (r : QReq) : (s.request q r).halted = s.halted := rfl
@[simp] theorem State.request_cur (s : State) (q : Nat) (r : QReq) : (s.request q r).cur = s.cur := rfl
@[simp] theorem State.request_ctx (s : State) (q : Nat) (r : QReq) : (s.request q r).ctx = s.ctx := rfl
@[simp] theorem State.request_pipe (s : State) (q : Nat) (r : QReq) : (s.request q r).pipe = s.pipe := rfl
@[simp] theorem State.request_part (s : State) (q : Nat) (r : QReq) : (s.request q r).part = s.part := rfl
@[simp] theorem State.request_waited (s : State) (q : Nat) (r : QReq) : (s.request q r).waited = s.waited := rfl
@[simp] theorem State.request_noClock (s : State) (q : Nat) (r : QReq) : (s.request q r).noClock = s.noClock := rfl
@[simp] theorem State.request_cfg (s : State) (q : Nat) (r : QReq) : (s.request q r).cfg = s.cfg := rfl
@[simp] theorem State.request_cores (s : State) (q : Nat) (r : QReq) : (s.request q r).cores = s.cores := rfl
@[simp] theorem State.request_mem (s : State) (q : Nat) (r : QReq) : (s.request q r).mem = s.mem := rfl
@[simp] theorem State.request_hist (s : State) (q : Nat) (r : QReq) : (s.request q r).hist = s.hist := rfl
@[simp] theorem State.request_hb (s : State) (q : Nat) (r : QReq) : (s.request q r).hb = s.hb := rfl
@[simp] theorem State.request_seen (s : State) (q : Nat) (r : QReq) : (s.request q r).seen = s.seen := rfl
@[simp] theorem State.request_took (s : State) (q : Nat) (r : QReq) : (s.request q r).took = s.took := rfl
@[simp] theorem State.request_msgs (s : State) (q : Nat) (r : QReq) : (s.request q r).msgs = s.msgs := rfl
@[simp] theorem State.request_pub (s : State) (q : Nat) (r : QReq) : (s.request q r).pub = s.pub := rfl
@[simp] theorem State.request_mx (s : State) (q : Nat) (r : QReq) : (s.request q r).mx = s.mx := rfl
@[simp] theorem State.request_accum (s : State) (q : Nat) (r : QReq) : (s.request q r).accum = s.accum := rfl
@[simp] theorem State.request_accOwner (s : State) (q : Nat) (r : QReq) : (s.request q r).accOwner = s.accOwner := rfl
@[simp] theorem State.request_accBad (s : State) (q : Nat) (r : QReq) : (s.request q r).accBad = s.accBad := rfl
@[simp] theorem State.request_cbook (s : State) (q : Nat) (r : QReq) : (s.request q r).cbook = s.cbook := rfl
@[simp] theorem State.request_mirror (s : State) (q : Nat) (r : QReq) : (s.request q r).mirror = s.mirror := rfl
@[simp] theorem State.request_um (s : State) (q : Nat) (r : QReq) : (s.request q r).um = s.um := rfl
@[simp] theorem State.request_pontil (s : State) (q : Nat) (r : QReq) : (s.request q r).pontil = s.pontil := rfl
@[simp] theorem State.request_roots (s : State) (q : Nat) (r : QReq) : (s.request q r).roots = s.roots := rfl
@[simp] theorem State.request_d (s : State) (q : Nat) (r : QReq) : (s.request q r).d = s.d := rfl
@[simp] theorem State.request_io (s : State) (q : Nat) (r : QReq) : (s.request q r).io = s.io := rfl
@[simp] theorem State.request_bd (s : State) (q : Nat) (r : QReq) : (s.request q r).bd = s.bd := rfl
@[simp] theorem State.request_w (s : State) (q : Nat) (r : QReq) : (s.request q r).w = s.w := rfl

@[simp] theorem State.setLaunch_agenda (s : State) (n : Nat) (l : Launch) : (s.setLaunch n l).agenda = s.agenda := rfl
@[simp] theorem State.setLaunch_tick (s : State) (n : Nat) (l : Launch) : (s.setLaunch n l).tick = s.tick := rfl
@[simp] theorem State.setLaunch_now (s : State) (n : Nat) (l : Launch) : (s.setLaunch n l).now = s.now := rfl
@[simp] theorem State.setLaunch_rank (s : State) (n : Nat) (l : Launch) : (s.setLaunch n l).rank = s.rank := rfl
@[simp] theorem State.setLaunch_halted (s : State) (n : Nat) (l : Launch) : (s.setLaunch n l).halted = s.halted := rfl
@[simp] theorem State.setLaunch_cur (s : State) (n : Nat) (l : Launch) : (s.setLaunch n l).cur = s.cur := rfl
@[simp] theorem State.setLaunch_ctx (s : State) (n : Nat) (l : Launch) : (s.setLaunch n l).ctx = s.ctx := rfl
@[simp] theorem State.setLaunch_pipe (s : State) (n : Nat) (l : Launch) : (s.setLaunch n l).pipe = s.pipe := rfl
@[simp] theorem State.setLaunch_part (s : State) (n : Nat) (l : Launch) : (s.setLaunch n l).part = s.part := rfl
@[simp] theorem State.setLaunch_waited (s : State) (n : Nat) (l : Launch) : (s.setLaunch n l).waited = s.waited := rfl
@[simp] theorem State.setLaunch_noClock (s : State) (n : Nat) (l : Launch) : (s.setLaunch n l).noClock = s.noClock := rfl
@[simp] theorem State.setLaunch_cfg (s : State) (n : Nat) (l : Launch) : (s.setLaunch n l).cfg = s.cfg := rfl
@[simp] theorem State.setLaunch_cores (s : State) (n : Nat) (l : Launch) : (s.setLaunch n l).cores = s.cores := rfl
@[simp] theorem State.setLaunch_mem (s : State) (n : Nat) (l : Launch) : (s.setLaunch n l).mem = s.mem := rfl
@[simp] theorem State.setLaunch_hist (s : State) (n : Nat) (l : Launch) : (s.setLaunch n l).hist = s.hist := rfl
@[simp] theorem State.setLaunch_hb (s : State) (n : Nat) (l : Launch) : (s.setLaunch n l).hb = s.hb := rfl
@[simp] theorem State.setLaunch_seen (s : State) (n : Nat) (l : Launch) : (s.setLaunch n l).seen = s.seen := rfl
@[simp] theorem State.setLaunch_took (s : State) (n : Nat) (l : Launch) : (s.setLaunch n l).took = s.took := rfl
@[simp] theorem State.setLaunch_msgs (s : State) (n : Nat) (l : Launch) : (s.setLaunch n l).msgs = s.msgs := rfl
@[simp] theorem State.setLaunch_pub (s : State) (n : Nat) (l : Launch) : (s.setLaunch n l).pub = s.pub := rfl
@[simp] theorem State.setLaunch_mx (s : State) (n : Nat) (l : Launch) : (s.setLaunch n l).mx = s.mx := rfl
@[simp] theorem State.setLaunch_accum (s : State) (n : Nat) (l : Launch) : (s.setLaunch n l).accum = s.accum := rfl
@[simp] theorem State.setLaunch_accOwner (s : State) (n : Nat) (l : Launch) : (s.setLaunch n l).accOwner = s.accOwner := rfl
@[simp] theorem State.setLaunch_accBad (s : State) (n : Nat) (l : Launch) : (s.setLaunch n l).accBad = s.accBad := rfl
@[simp] theorem State.setLaunch_cbook (s : State) (n : Nat) (l : Launch) : (s.setLaunch n l).cbook = s.cbook := rfl
@[simp] theorem State.setLaunch_mirror (s : State) (n : Nat) (l : Launch) : (s.setLaunch n l).mirror = s.mirror := rfl
@[simp] theorem State.setLaunch_um (s : State) (n : Nat) (l : Launch) : (s.setLaunch n l).um = s.um := rfl
@[simp] theorem State.setLaunch_pontil (s : State) (n : Nat) (l : Launch) : (s.setLaunch n l).pontil = s.pontil := rfl
@[simp] theorem State.setLaunch_roots (s : State) (n : Nat) (l : Launch) : (s.setLaunch n l).roots = s.roots := rfl
@[simp] theorem State.setLaunch_queues (s : State) (n : Nat) (l : Launch) : (s.setLaunch n l).queues = s.queues := rfl
@[simp] theorem State.setLaunch_io (s : State) (n : Nat) (l : Launch) : (s.setLaunch n l).io = s.io := rfl
@[simp] theorem State.setLaunch_bd (s : State) (n : Nat) (l : Launch) : (s.setLaunch n l).bd = s.bd := rfl
@[simp] theorem State.setLaunch_w (s : State) (n : Nat) (l : Launch) : (s.setLaunch n l).w = s.w := rfl

@[simp] theorem State.setBar_agenda (s : State) (b : Bar) : (s.setBar b).agenda = s.agenda := rfl
@[simp] theorem State.setBar_tick (s : State) (b : Bar) : (s.setBar b).tick = s.tick := rfl
@[simp] theorem State.setBar_now (s : State) (b : Bar) : (s.setBar b).now = s.now := rfl
@[simp] theorem State.setBar_rank (s : State) (b : Bar) : (s.setBar b).rank = s.rank := rfl
@[simp] theorem State.setBar_halted (s : State) (b : Bar) : (s.setBar b).halted = s.halted := rfl
@[simp] theorem State.setBar_cur (s : State) (b : Bar) : (s.setBar b).cur = s.cur := rfl
@[simp] theorem State.setBar_ctx (s : State) (b : Bar) : (s.setBar b).ctx = s.ctx := rfl
@[simp] theorem State.setBar_pipe (s : State) (b : Bar) : (s.setBar b).pipe = s.pipe := rfl
@[simp] theorem State.setBar_part (s : State) (b : Bar) : (s.setBar b).part = s.part := rfl
@[simp] theorem State.setBar_waited (s : State) (b : Bar) : (s.setBar b).waited = s.waited := rfl
@[simp] theorem State.setBar_noClock (s : State) (b : Bar) : (s.setBar b).noClock = s.noClock := rfl
@[simp] theorem State.setBar_cfg (s : State) (b : Bar) : (s.setBar b).cfg = s.cfg := rfl
@[simp] theorem State.setBar_cores (s : State) (b : Bar) : (s.setBar b).cores = s.cores := rfl
@[simp] theorem State.setBar_mem (s : State) (b : Bar) : (s.setBar b).mem = s.mem := rfl
@[simp] theorem State.setBar_hist (s : State) (b : Bar) : (s.setBar b).hist = s.hist := rfl
@[simp] theorem State.setBar_hb (s : State) (b : Bar) : (s.setBar b).hb = s.hb := rfl
@[simp] theorem State.setBar_seen (s : State) (b : Bar) : (s.setBar b).seen = s.seen := rfl
@[simp] theorem State.setBar_took (s : State) (b : Bar) : (s.setBar b).took = s.took := rfl
@[simp] theorem State.setBar_msgs (s : State) (b : Bar) : (s.setBar b).msgs = s.msgs := rfl
@[simp] theorem State.setBar_pub (s : State) (b : Bar) : (s.setBar b).pub = s.pub := rfl
@[simp] theorem State.setBar_mx (s : State) (b : Bar) : (s.setBar b).mx = s.mx := rfl
@[simp] theorem State.setBar_accum (s : State) (b : Bar) : (s.setBar b).accum = s.accum := rfl
@[simp] theorem State.setBar_accOwner (s : State) (b : Bar) : (s.setBar b).accOwner = s.accOwner := rfl
@[simp] theorem State.setBar_accBad (s : State) (b : Bar) : (s.setBar b).accBad = s.accBad := rfl
@[simp] theorem State.setBar_cbook (s : State) (b : Bar) : (s.setBar b).cbook = s.cbook := rfl
@[simp] theorem State.setBar_mirror (s : State) (b : Bar) : (s.setBar b).mirror = s.mirror := rfl
@[simp] theorem State.setBar_um (s : State) (b : Bar) : (s.setBar b).um = s.um := rfl
@[simp] theorem State.setBar_pontil (s : State) (b : Bar) : (s.setBar b).pontil = s.pontil := rfl
@[simp] theorem State.setBar_roots (s : State) (b : Bar) : (s.setBar b).roots = s.roots := rfl
@[simp] theorem State.setBar_queues (s : State) (b : Bar) : (s.setBar b).queues = s.queues := rfl
@[simp] theorem State.setBar_io (s : State) (b : Bar) : (s.setBar b).io = s.io := rfl
@[simp] theorem State.setBar_bd (s : State) (b : Bar) : (s.setBar b).bd = s.bd := rfl
@[simp] theorem State.setBar_w (s : State) (b : Bar) : (s.setBar b).w = s.w := rfl

@[simp] theorem State.setRing_agenda (s : State) (r : Nat) (v : Ring) : (s.setRing r v).agenda = s.agenda := rfl
@[simp] theorem State.setRing_tick (s : State) (r : Nat) (v : Ring) : (s.setRing r v).tick = s.tick := rfl
@[simp] theorem State.setRing_now (s : State) (r : Nat) (v : Ring) : (s.setRing r v).now = s.now := rfl
@[simp] theorem State.setRing_rank (s : State) (r : Nat) (v : Ring) : (s.setRing r v).rank = s.rank := rfl
@[simp] theorem State.setRing_halted (s : State) (r : Nat) (v : Ring) : (s.setRing r v).halted = s.halted := rfl
@[simp] theorem State.setRing_cur (s : State) (r : Nat) (v : Ring) : (s.setRing r v).cur = s.cur := rfl
@[simp] theorem State.setRing_ctx (s : State) (r : Nat) (v : Ring) : (s.setRing r v).ctx = s.ctx := rfl
@[simp] theorem State.setRing_pipe (s : State) (r : Nat) (v : Ring) : (s.setRing r v).pipe = s.pipe := rfl
@[simp] theorem State.setRing_part (s : State) (r : Nat) (v : Ring) : (s.setRing r v).part = s.part := rfl
@[simp] theorem State.setRing_waited (s : State) (r : Nat) (v : Ring) : (s.setRing r v).waited = s.waited := rfl
@[simp] theorem State.setRing_noClock (s : State) (r : Nat) (v : Ring) : (s.setRing r v).noClock = s.noClock := rfl
@[simp] theorem State.setRing_cfg (s : State) (r : Nat) (v : Ring) : (s.setRing r v).cfg = s.cfg := rfl
@[simp] theorem State.setRing_cores (s : State) (r : Nat) (v : Ring) : (s.setRing r v).cores = s.cores := rfl
@[simp] theorem State.setRing_mem (s : State) (r : Nat) (v : Ring) : (s.setRing r v).mem = s.mem := rfl
@[simp] theorem State.setRing_hist (s : State) (r : Nat) (v : Ring) : (s.setRing r v).hist = s.hist := rfl
@[simp] theorem State.setRing_hb (s : State) (r : Nat) (v : Ring) : (s.setRing r v).hb = s.hb := rfl
@[simp] theorem State.setRing_seen (s : State) (r : Nat) (v : Ring) : (s.setRing r v).seen = s.seen := rfl
@[simp] theorem State.setRing_took (s : State) (r : Nat) (v : Ring) : (s.setRing r v).took = s.took := rfl
@[simp] theorem State.setRing_msgs (s : State) (r : Nat) (v : Ring) : (s.setRing r v).msgs = s.msgs := rfl
@[simp] theorem State.setRing_pub (s : State) (r : Nat) (v : Ring) : (s.setRing r v).pub = s.pub := rfl
@[simp] theorem State.setRing_mx (s : State) (r : Nat) (v : Ring) : (s.setRing r v).mx = s.mx := rfl
@[simp] theorem State.setRing_accum (s : State) (r : Nat) (v : Ring) : (s.setRing r v).accum = s.accum := rfl
@[simp] theorem State.setRing_accOwner (s : State) (r : Nat) (v : Ring) : (s.setRing r v).accOwner = s.accOwner := rfl
@[simp] theorem State.setRing_accBad (s : State) (r : Nat) (v : Ring) : (s.setRing r v).accBad = s.accBad := rfl
@[simp] theorem State.setRing_cbook (s : State) (r : Nat) (v : Ring) : (s.setRing r v).cbook = s.cbook := rfl
@[simp] theorem State.setRing_mirror (s : State) (r : Nat) (v : Ring) : (s.setRing r v).mirror = s.mirror := rfl
@[simp] theorem State.setRing_um (s : State) (r : Nat) (v : Ring) : (s.setRing r v).um = s.um := rfl
@[simp] theorem State.setRing_pontil (s : State) (r : Nat) (v : Ring) : (s.setRing r v).pontil = s.pontil := rfl
@[simp] theorem State.setRing_roots (s : State) (r : Nat) (v : Ring) : (s.setRing r v).roots = s.roots := rfl
@[simp] theorem State.setRing_queues (s : State) (r : Nat) (v : Ring) : (s.setRing r v).queues = s.queues := rfl
@[simp] theorem State.setRing_d (s : State) (r : Nat) (v : Ring) : (s.setRing r v).d = s.d := rfl
@[simp] theorem State.setRing_bd (s : State) (r : Nat) (v : Ring) : (s.setRing r v).bd = s.bd := rfl
@[simp] theorem State.setRing_w (s : State) (r : Nat) (v : Ring) : (s.setRing r v).w = s.w := rfl

@[simp] theorem State.raise_agenda (s : State) (v : Nat) : (s.raise v).agenda = s.agenda := rfl
@[simp] theorem State.raise_tick (s : State) (v : Nat) : (s.raise v).tick = s.tick := rfl
@[simp] theorem State.raise_now (s : State) (v : Nat) : (s.raise v).now = s.now := rfl
@[simp] theorem State.raise_rank (s : State) (v : Nat) : (s.raise v).rank = s.rank := rfl
@[simp] theorem State.raise_halted (s : State) (v : Nat) : (s.raise v).halted = s.halted := rfl
@[simp] theorem State.raise_cur (s : State) (v : Nat) : (s.raise v).cur = s.cur := rfl
@[simp] theorem State.raise_ctx (s : State) (v : Nat) : (s.raise v).ctx = s.ctx := rfl
@[simp] theorem State.raise_pipe (s : State) (v : Nat) : (s.raise v).pipe = s.pipe := rfl
@[simp] theorem State.raise_part (s : State) (v : Nat) : (s.raise v).part = s.part := rfl
@[simp] theorem State.raise_waited (s : State) (v : Nat) : (s.raise v).waited = s.waited := rfl
@[simp] theorem State.raise_noClock (s : State) (v : Nat) : (s.raise v).noClock = s.noClock := rfl
@[simp] theorem State.raise_cfg (s : State) (v : Nat) : (s.raise v).cfg = s.cfg := rfl
@[simp] theorem State.raise_cores (s : State) (v : Nat) : (s.raise v).cores = s.cores := rfl
@[simp] theorem State.raise_mem (s : State) (v : Nat) : (s.raise v).mem = s.mem := rfl
@[simp] theorem State.raise_hist (s : State) (v : Nat) : (s.raise v).hist = s.hist := rfl
@[simp] theorem State.raise_hb (s : State) (v : Nat) : (s.raise v).hb = s.hb := rfl
@[simp] theorem State.raise_seen (s : State) (v : Nat) : (s.raise v).seen = s.seen := rfl
@[simp] theorem State.raise_took (s : State) (v : Nat) : (s.raise v).took = s.took := rfl
@[simp] theorem State.raise_msgs (s : State) (v : Nat) : (s.raise v).msgs = s.msgs := rfl
@[simp] theorem State.raise_pub (s : State) (v : Nat) : (s.raise v).pub = s.pub := rfl
@[simp] theorem State.raise_mx (s : State) (v : Nat) : (s.raise v).mx = s.mx := rfl
@[simp] theorem State.raise_accum (s : State) (v : Nat) : (s.raise v).accum = s.accum := rfl
@[simp] theorem State.raise_accOwner (s : State) (v : Nat) : (s.raise v).accOwner = s.accOwner := rfl
@[simp] theorem State.raise_accBad (s : State) (v : Nat) : (s.raise v).accBad = s.accBad := rfl
@[simp] theorem State.raise_cbook (s : State) (v : Nat) : (s.raise v).cbook = s.cbook := rfl
@[simp] theorem State.raise_mirror (s : State) (v : Nat) : (s.raise v).mirror = s.mirror := rfl
@[simp] theorem State.raise_um (s : State) (v : Nat) : (s.raise v).um = s.um := rfl
@[simp] theorem State.raise_pontil (s : State) (v : Nat) : (s.raise v).pontil = s.pontil := rfl
@[simp] theorem State.raise_roots (s : State) (v : Nat) : (s.raise v).roots = s.roots := rfl
@[simp] theorem State.raise_queues (s : State) (v : Nat) : (s.raise v).queues = s.queues := rfl
@[simp] theorem State.raise_d (s : State) (v : Nat) : (s.raise v).d = s.d := rfl
@[simp] theorem State.raise_bd (s : State) (v : Nat) : (s.raise v).bd = s.bd := rfl
@[simp] theorem State.raise_w (s : State) (v : Nat) : (s.raise v).w = s.w := rfl

@[simp] theorem State.setPort_agenda (s : State) (pane p : Nat) (v : Port) : (s.setPort pane p v).agenda = s.agenda := rfl
@[simp] theorem State.setPort_tick (s : State) (pane p : Nat) (v : Port) : (s.setPort pane p v).tick = s.tick := rfl
@[simp] theorem State.setPort_now (s : State) (pane p : Nat) (v : Port) : (s.setPort pane p v).now = s.now := rfl
@[simp] theorem State.setPort_rank (s : State) (pane p : Nat) (v : Port) : (s.setPort pane p v).rank = s.rank := rfl
@[simp] theorem State.setPort_halted (s : State) (pane p : Nat) (v : Port) : (s.setPort pane p v).halted = s.halted := rfl
@[simp] theorem State.setPort_cur (s : State) (pane p : Nat) (v : Port) : (s.setPort pane p v).cur = s.cur := rfl
@[simp] theorem State.setPort_ctx (s : State) (pane p : Nat) (v : Port) : (s.setPort pane p v).ctx = s.ctx := rfl
@[simp] theorem State.setPort_pipe (s : State) (pane p : Nat) (v : Port) : (s.setPort pane p v).pipe = s.pipe := rfl
@[simp] theorem State.setPort_part (s : State) (pane p : Nat) (v : Port) : (s.setPort pane p v).part = s.part := rfl
@[simp] theorem State.setPort_waited (s : State) (pane p : Nat) (v : Port) : (s.setPort pane p v).waited = s.waited := rfl
@[simp] theorem State.setPort_noClock (s : State) (pane p : Nat) (v : Port) : (s.setPort pane p v).noClock = s.noClock := rfl
@[simp] theorem State.setPort_cfg (s : State) (pane p : Nat) (v : Port) : (s.setPort pane p v).cfg = s.cfg := rfl
@[simp] theorem State.setPort_cores (s : State) (pane p : Nat) (v : Port) : (s.setPort pane p v).cores = s.cores := rfl
@[simp] theorem State.setPort_mem (s : State) (pane p : Nat) (v : Port) : (s.setPort pane p v).mem = s.mem := rfl
@[simp] theorem State.setPort_hist (s : State) (pane p : Nat) (v : Port) : (s.setPort pane p v).hist = s.hist := rfl
@[simp] theorem State.setPort_hb (s : State) (pane p : Nat) (v : Port) : (s.setPort pane p v).hb = s.hb := rfl
@[simp] theorem State.setPort_seen (s : State) (pane p : Nat) (v : Port) : (s.setPort pane p v).seen = s.seen := rfl
@[simp] theorem State.setPort_took (s : State) (pane p : Nat) (v : Port) : (s.setPort pane p v).took = s.took := rfl
@[simp] theorem State.setPort_msgs (s : State) (pane p : Nat) (v : Port) : (s.setPort pane p v).msgs = s.msgs := rfl
@[simp] theorem State.setPort_pub (s : State) (pane p : Nat) (v : Port) : (s.setPort pane p v).pub = s.pub := rfl
@[simp] theorem State.setPort_mx (s : State) (pane p : Nat) (v : Port) : (s.setPort pane p v).mx = s.mx := rfl
@[simp] theorem State.setPort_accum (s : State) (pane p : Nat) (v : Port) : (s.setPort pane p v).accum = s.accum := rfl
@[simp] theorem State.setPort_accOwner (s : State) (pane p : Nat) (v : Port) : (s.setPort pane p v).accOwner = s.accOwner := rfl
@[simp] theorem State.setPort_accBad (s : State) (pane p : Nat) (v : Port) : (s.setPort pane p v).accBad = s.accBad := rfl
@[simp] theorem State.setPort_cbook (s : State) (pane p : Nat) (v : Port) : (s.setPort pane p v).cbook = s.cbook := rfl
@[simp] theorem State.setPort_mirror (s : State) (pane p : Nat) (v : Port) : (s.setPort pane p v).mirror = s.mirror := rfl
@[simp] theorem State.setPort_um (s : State) (pane p : Nat) (v : Port) : (s.setPort pane p v).um = s.um := rfl
@[simp] theorem State.setPort_pontil (s : State) (pane p : Nat) (v : Port) : (s.setPort pane p v).pontil = s.pontil := rfl
@[simp] theorem State.setPort_roots (s : State) (pane p : Nat) (v : Port) : (s.setPort pane p v).roots = s.roots := rfl
@[simp] theorem State.setPort_queues (s : State) (pane p : Nat) (v : Port) : (s.setPort pane p v).queues = s.queues := rfl
@[simp] theorem State.setPort_d (s : State) (pane p : Nat) (v : Port) : (s.setPort pane p v).d = s.d := rfl
@[simp] theorem State.setPort_io (s : State) (pane p : Nat) (v : Port) : (s.setPort pane p v).io = s.io := rfl
@[simp] theorem State.setPort_w (s : State) (pane p : Nat) (v : Port) : (s.setPort pane p v).w = s.w := rfl

@[simp] theorem State.logEvent_agenda (s : State) (k d : Nat) : (s.logEvent k d).agenda = s.agenda := rfl
@[simp] theorem State.logEvent_tick (s : State) (k d : Nat) : (s.logEvent k d).tick = s.tick := rfl
@[simp] theorem State.logEvent_now (s : State) (k d : Nat) : (s.logEvent k d).now = s.now := rfl
@[simp] theorem State.logEvent_rank (s : State) (k d : Nat) : (s.logEvent k d).rank = s.rank := rfl
@[simp] theorem State.logEvent_halted (s : State) (k d : Nat) : (s.logEvent k d).halted = s.halted := rfl
@[simp] theorem State.logEvent_cur (s : State) (k d : Nat) : (s.logEvent k d).cur = s.cur := rfl
@[simp] theorem State.logEvent_ctx (s : State) (k d : Nat) : (s.logEvent k d).ctx = s.ctx := rfl
@[simp] theorem State.logEvent_pipe (s : State) (k d : Nat) : (s.logEvent k d).pipe = s.pipe := rfl
@[simp] theorem State.logEvent_part (s : State) (k d : Nat) : (s.logEvent k d).part = s.part := rfl
@[simp] theorem State.logEvent_waited (s : State) (k d : Nat) : (s.logEvent k d).waited = s.waited := rfl
@[simp] theorem State.logEvent_noClock (s : State) (k d : Nat) : (s.logEvent k d).noClock = s.noClock := rfl
@[simp] theorem State.logEvent_cfg (s : State) (k d : Nat) : (s.logEvent k d).cfg = s.cfg := rfl
@[simp] theorem State.logEvent_cores (s : State) (k d : Nat) : (s.logEvent k d).cores = s.cores := rfl
@[simp] theorem State.logEvent_mem (s : State) (k d : Nat) : (s.logEvent k d).mem = s.mem := rfl
@[simp] theorem State.logEvent_hist (s : State) (k d : Nat) : (s.logEvent k d).hist = s.hist := rfl
@[simp] theorem State.logEvent_hb (s : State) (k d : Nat) : (s.logEvent k d).hb = s.hb := rfl
@[simp] theorem State.logEvent_seen (s : State) (k d : Nat) : (s.logEvent k d).seen = s.seen := rfl
@[simp] theorem State.logEvent_took (s : State) (k d : Nat) : (s.logEvent k d).took = s.took := rfl
@[simp] theorem State.logEvent_msgs (s : State) (k d : Nat) : (s.logEvent k d).msgs = s.msgs := rfl
@[simp] theorem State.logEvent_pub (s : State) (k d : Nat) : (s.logEvent k d).pub = s.pub := rfl
@[simp] theorem State.logEvent_mx (s : State) (k d : Nat) : (s.logEvent k d).mx = s.mx := rfl
@[simp] theorem State.logEvent_accum (s : State) (k d : Nat) : (s.logEvent k d).accum = s.accum := rfl
@[simp] theorem State.logEvent_accOwner (s : State) (k d : Nat) : (s.logEvent k d).accOwner = s.accOwner := rfl
@[simp] theorem State.logEvent_accBad (s : State) (k d : Nat) : (s.logEvent k d).accBad = s.accBad := rfl
@[simp] theorem State.logEvent_cbook (s : State) (k d : Nat) : (s.logEvent k d).cbook = s.cbook := rfl
@[simp] theorem State.logEvent_mirror (s : State) (k d : Nat) : (s.logEvent k d).mirror = s.mirror := rfl
@[simp] theorem State.logEvent_um (s : State) (k d : Nat) : (s.logEvent k d).um = s.um := rfl
@[simp] theorem State.logEvent_pontil (s : State) (k d : Nat) : (s.logEvent k d).pontil = s.pontil := rfl
@[simp] theorem State.logEvent_roots (s : State) (k d : Nat) : (s.logEvent k d).roots = s.roots := rfl
@[simp] theorem State.logEvent_queues (s : State) (k d : Nat) : (s.logEvent k d).queues = s.queues := rfl
@[simp] theorem State.logEvent_d (s : State) (k d : Nat) : (s.logEvent k d).d = s.d := rfl
@[simp] theorem State.logEvent_io (s : State) (k d : Nat) : (s.logEvent k d).io = s.io := rfl
@[simp] theorem State.logEvent_bd (s : State) (k d : Nat) : (s.logEvent k d).bd = s.bd := rfl

@[simp] theorem State.hbMod_agenda (s : State) (c ctx : Nat) (f : Hb → Hb) : (s.hbMod c ctx f).agenda = s.agenda := rfl
@[simp] theorem State.hbMod_tick (s : State) (c ctx : Nat) (f : Hb → Hb) : (s.hbMod c ctx f).tick = s.tick := rfl
@[simp] theorem State.hbMod_now (s : State) (c ctx : Nat) (f : Hb → Hb) : (s.hbMod c ctx f).now = s.now := rfl
@[simp] theorem State.hbMod_rank (s : State) (c ctx : Nat) (f : Hb → Hb) : (s.hbMod c ctx f).rank = s.rank := rfl
@[simp] theorem State.hbMod_halted (s : State) (c ctx : Nat) (f : Hb → Hb) : (s.hbMod c ctx f).halted = s.halted := rfl
@[simp] theorem State.hbMod_cur (s : State) (c ctx : Nat) (f : Hb → Hb) : (s.hbMod c ctx f).cur = s.cur := rfl
@[simp] theorem State.hbMod_ctx (s : State) (c ctx : Nat) (f : Hb → Hb) : (s.hbMod c ctx f).ctx = s.ctx := rfl
@[simp] theorem State.hbMod_pipe (s : State) (c ctx : Nat) (f : Hb → Hb) : (s.hbMod c ctx f).pipe = s.pipe := rfl
@[simp] theorem State.hbMod_part (s : State) (c ctx : Nat) (f : Hb → Hb) : (s.hbMod c ctx f).part = s.part := rfl
@[simp] theorem State.hbMod_waited (s : State) (c ctx : Nat) (f : Hb → Hb) : (s.hbMod c ctx f).waited = s.waited := rfl
@[simp] theorem State.hbMod_noClock (s : State) (c ctx : Nat) (f : Hb → Hb) : (s.hbMod c ctx f).noClock = s.noClock := rfl
@[simp] theorem State.hbMod_cfg (s : State) (c ctx : Nat) (f : Hb → Hb) : (s.hbMod c ctx f).cfg = s.cfg := rfl
@[simp] theorem State.hbMod_cores (s : State) (c ctx : Nat) (f : Hb → Hb) : (s.hbMod c ctx f).cores = s.cores := rfl
@[simp] theorem State.hbMod_mem (s : State) (c ctx : Nat) (f : Hb → Hb) : (s.hbMod c ctx f).mem = s.mem := rfl
@[simp] theorem State.hbMod_hist (s : State) (c ctx : Nat) (f : Hb → Hb) : (s.hbMod c ctx f).hist = s.hist := rfl
@[simp] theorem State.hbMod_seen (s : State) (c ctx : Nat) (f : Hb → Hb) : (s.hbMod c ctx f).seen = s.seen := rfl
@[simp] theorem State.hbMod_took (s : State) (c ctx : Nat) (f : Hb → Hb) : (s.hbMod c ctx f).took = s.took := rfl
@[simp] theorem State.hbMod_msgs (s : State) (c ctx : Nat) (f : Hb → Hb) : (s.hbMod c ctx f).msgs = s.msgs := rfl
@[simp] theorem State.hbMod_pub (s : State) (c ctx : Nat) (f : Hb → Hb) : (s.hbMod c ctx f).pub = s.pub := rfl
@[simp] theorem State.hbMod_mx (s : State) (c ctx : Nat) (f : Hb → Hb) : (s.hbMod c ctx f).mx = s.mx := rfl
@[simp] theorem State.hbMod_accum (s : State) (c ctx : Nat) (f : Hb → Hb) : (s.hbMod c ctx f).accum = s.accum := rfl
@[simp] theorem State.hbMod_accOwner (s : State) (c ctx : Nat) (f : Hb → Hb) : (s.hbMod c ctx f).accOwner = s.accOwner := rfl
@[simp] theorem State.hbMod_accBad (s : State) (c ctx : Nat) (f : Hb → Hb) : (s.hbMod c ctx f).accBad = s.accBad := rfl
@[simp] theorem State.hbMod_cbook (s : State) (c ctx : Nat) (f : Hb → Hb) : (s.hbMod c ctx f).cbook = s.cbook := rfl
@[simp] theorem State.hbMod_mirror (s : State) (c ctx : Nat) (f : Hb → Hb) : (s.hbMod c ctx f).mirror = s.mirror := rfl
@[simp] theorem State.hbMod_um (s : State) (c ctx : Nat) (f : Hb → Hb) : (s.hbMod c ctx f).um = s.um := rfl
@[simp] theorem State.hbMod_pontil (s : State) (c ctx : Nat) (f : Hb → Hb) : (s.hbMod c ctx f).pontil = s.pontil := rfl
@[simp] theorem State.hbMod_roots (s : State) (c ctx : Nat) (f : Hb → Hb) : (s.hbMod c ctx f).roots = s.roots := rfl
@[simp] theorem State.hbMod_queues (s : State) (c ctx : Nat) (f : Hb → Hb) : (s.hbMod c ctx f).queues = s.queues := rfl
@[simp] theorem State.hbMod_d (s : State) (c ctx : Nat) (f : Hb → Hb) : (s.hbMod c ctx f).d = s.d := rfl
@[simp] theorem State.hbMod_io (s : State) (c ctx : Nat) (f : Hb → Hb) : (s.hbMod c ctx f).io = s.io := rfl
@[simp] theorem State.hbMod_bd (s : State) (c ctx : Nat) (f : Hb → Hb) : (s.hbMod c ctx f).bd = s.bd := rfl
@[simp] theorem State.hbMod_w (s : State) (c ctx : Nat) (f : Hb → Hb) : (s.hbMod c ctx f).w = s.w := rfl

@[simp] theorem State.keepHeld_agenda (s : State) (c seq : Nat) (op : HeldOp) : (s.keepHeld c seq op).agenda = s.agenda := rfl
@[simp] theorem State.keepHeld_tick (s : State) (c seq : Nat) (op : HeldOp) : (s.keepHeld c seq op).tick = s.tick := rfl
@[simp] theorem State.keepHeld_now (s : State) (c seq : Nat) (op : HeldOp) : (s.keepHeld c seq op).now = s.now := rfl
@[simp] theorem State.keepHeld_rank (s : State) (c seq : Nat) (op : HeldOp) : (s.keepHeld c seq op).rank = s.rank := rfl
@[simp] theorem State.keepHeld_halted (s : State) (c seq : Nat) (op : HeldOp) : (s.keepHeld c seq op).halted = s.halted := rfl
@[simp] theorem State.keepHeld_cur (s : State) (c seq : Nat) (op : HeldOp) : (s.keepHeld c seq op).cur = s.cur := rfl
@[simp] theorem State.keepHeld_ctx (s : State) (c seq : Nat) (op : HeldOp) : (s.keepHeld c seq op).ctx = s.ctx := rfl
@[simp] theorem State.keepHeld_pipe (s : State) (c seq : Nat) (op : HeldOp) : (s.keepHeld c seq op).pipe = s.pipe := rfl
@[simp] theorem State.keepHeld_part (s : State) (c seq : Nat) (op : HeldOp) : (s.keepHeld c seq op).part = s.part := rfl
@[simp] theorem State.keepHeld_waited (s : State) (c seq : Nat) (op : HeldOp) : (s.keepHeld c seq op).waited = s.waited := rfl
@[simp] theorem State.keepHeld_noClock (s : State) (c seq : Nat) (op : HeldOp) : (s.keepHeld c seq op).noClock = s.noClock := rfl
@[simp] theorem State.keepHeld_cfg (s : State) (c seq : Nat) (op : HeldOp) : (s.keepHeld c seq op).cfg = s.cfg := rfl
@[simp] theorem State.keepHeld_cores (s : State) (c seq : Nat) (op : HeldOp) : (s.keepHeld c seq op).cores = s.cores := rfl
@[simp] theorem State.keepHeld_mem (s : State) (c seq : Nat) (op : HeldOp) : (s.keepHeld c seq op).mem = s.mem := rfl
@[simp] theorem State.keepHeld_hist (s : State) (c seq : Nat) (op : HeldOp) : (s.keepHeld c seq op).hist = s.hist := rfl
@[simp] theorem State.keepHeld_hb (s : State) (c seq : Nat) (op : HeldOp) : (s.keepHeld c seq op).hb = s.hb := rfl
@[simp] theorem State.keepHeld_seen (s : State) (c seq : Nat) (op : HeldOp) : (s.keepHeld c seq op).seen = s.seen := rfl
@[simp] theorem State.keepHeld_took (s : State) (c seq : Nat) (op : HeldOp) : (s.keepHeld c seq op).took = s.took := rfl
@[simp] theorem State.keepHeld_msgs (s : State) (c seq : Nat) (op : HeldOp) : (s.keepHeld c seq op).msgs = s.msgs := rfl
@[simp] theorem State.keepHeld_pub (s : State) (c seq : Nat) (op : HeldOp) : (s.keepHeld c seq op).pub = s.pub := rfl
@[simp] theorem State.keepHeld_mx (s : State) (c seq : Nat) (op : HeldOp) : (s.keepHeld c seq op).mx = s.mx := rfl
@[simp] theorem State.keepHeld_accum (s : State) (c seq : Nat) (op : HeldOp) : (s.keepHeld c seq op).accum = s.accum := rfl
@[simp] theorem State.keepHeld_accOwner (s : State) (c seq : Nat) (op : HeldOp) : (s.keepHeld c seq op).accOwner = s.accOwner := rfl
@[simp] theorem State.keepHeld_accBad (s : State) (c seq : Nat) (op : HeldOp) : (s.keepHeld c seq op).accBad = s.accBad := rfl
@[simp] theorem State.keepHeld_cbook (s : State) (c seq : Nat) (op : HeldOp) : (s.keepHeld c seq op).cbook = s.cbook := rfl
@[simp] theorem State.keepHeld_mirror (s : State) (c seq : Nat) (op : HeldOp) : (s.keepHeld c seq op).mirror = s.mirror := rfl
@[simp] theorem State.keepHeld_um (s : State) (c seq : Nat) (op : HeldOp) : (s.keepHeld c seq op).um = s.um := rfl
@[simp] theorem State.keepHeld_pontil (s : State) (c seq : Nat) (op : HeldOp) : (s.keepHeld c seq op).pontil = s.pontil := rfl
@[simp] theorem State.keepHeld_roots (s : State) (c seq : Nat) (op : HeldOp) : (s.keepHeld c seq op).roots = s.roots := rfl
@[simp] theorem State.keepHeld_queues (s : State) (c seq : Nat) (op : HeldOp) : (s.keepHeld c seq op).queues = s.queues := rfl
@[simp] theorem State.keepHeld_d (s : State) (c seq : Nat) (op : HeldOp) : (s.keepHeld c seq op).d = s.d := rfl
@[simp] theorem State.keepHeld_io (s : State) (c seq : Nat) (op : HeldOp) : (s.keepHeld c seq op).io = s.io := rfl
@[simp] theorem State.keepHeld_bd (s : State) (c seq : Nat) (op : HeldOp) : (s.keepHeld c seq op).bd = s.bd := rfl

/-- The fields that a byte written to memory leaves alone. -/
@[simp] theorem State.putByte_agenda (s : State) (pa : Nat) (b : Byte) (who : Nat × Nat) : (s.putByte pa b who).agenda = s.agenda := rfl
@[simp] theorem State.putByte_tick (s : State) (pa : Nat) (b : Byte) (who : Nat × Nat) : (s.putByte pa b who).tick = s.tick := rfl
@[simp] theorem State.putByte_now (s : State) (pa : Nat) (b : Byte) (who : Nat × Nat) : (s.putByte pa b who).now = s.now := rfl
@[simp] theorem State.putByte_rank (s : State) (pa : Nat) (b : Byte) (who : Nat × Nat) : (s.putByte pa b who).rank = s.rank := rfl
@[simp] theorem State.putByte_halted (s : State) (pa : Nat) (b : Byte) (who : Nat × Nat) : (s.putByte pa b who).halted = s.halted := rfl
@[simp] theorem State.putByte_cur (s : State) (pa : Nat) (b : Byte) (who : Nat × Nat) : (s.putByte pa b who).cur = s.cur := rfl
@[simp] theorem State.putByte_ctx (s : State) (pa : Nat) (b : Byte) (who : Nat × Nat) : (s.putByte pa b who).ctx = s.ctx := rfl
@[simp] theorem State.putByte_pipe (s : State) (pa : Nat) (b : Byte) (who : Nat × Nat) : (s.putByte pa b who).pipe = s.pipe := rfl
@[simp] theorem State.putByte_part (s : State) (pa : Nat) (b : Byte) (who : Nat × Nat) : (s.putByte pa b who).part = s.part := rfl
@[simp] theorem State.putByte_waited (s : State) (pa : Nat) (b : Byte) (who : Nat × Nat) : (s.putByte pa b who).waited = s.waited := rfl
@[simp] theorem State.putByte_noClock (s : State) (pa : Nat) (b : Byte) (who : Nat × Nat) : (s.putByte pa b who).noClock = s.noClock := rfl
@[simp] theorem State.putByte_cfg (s : State) (pa : Nat) (b : Byte) (who : Nat × Nat) : (s.putByte pa b who).cfg = s.cfg := rfl
@[simp] theorem State.putByte_cores (s : State) (pa : Nat) (b : Byte) (who : Nat × Nat) : (s.putByte pa b who).cores = s.cores := rfl
@[simp] theorem State.putByte_hb (s : State) (pa : Nat) (b : Byte) (who : Nat × Nat) : (s.putByte pa b who).hb = s.hb := rfl
@[simp] theorem State.putByte_seen (s : State) (pa : Nat) (b : Byte) (who : Nat × Nat) : (s.putByte pa b who).seen = s.seen := rfl
@[simp] theorem State.putByte_took (s : State) (pa : Nat) (b : Byte) (who : Nat × Nat) : (s.putByte pa b who).took = s.took := rfl
@[simp] theorem State.putByte_msgs (s : State) (pa : Nat) (b : Byte) (who : Nat × Nat) : (s.putByte pa b who).msgs = s.msgs := rfl
@[simp] theorem State.putByte_pub (s : State) (pa : Nat) (b : Byte) (who : Nat × Nat) : (s.putByte pa b who).pub = s.pub := rfl
@[simp] theorem State.putByte_mx (s : State) (pa : Nat) (b : Byte) (who : Nat × Nat) : (s.putByte pa b who).mx = s.mx := rfl
@[simp] theorem State.putByte_accum (s : State) (pa : Nat) (b : Byte) (who : Nat × Nat) : (s.putByte pa b who).accum = s.accum := rfl
@[simp] theorem State.putByte_accOwner (s : State) (pa : Nat) (b : Byte) (who : Nat × Nat) : (s.putByte pa b who).accOwner = s.accOwner := rfl
@[simp] theorem State.putByte_accBad (s : State) (pa : Nat) (b : Byte) (who : Nat × Nat) : (s.putByte pa b who).accBad = s.accBad := rfl
@[simp] theorem State.putByte_cbook (s : State) (pa : Nat) (b : Byte) (who : Nat × Nat) : (s.putByte pa b who).cbook = s.cbook := rfl
@[simp] theorem State.putByte_mirror (s : State) (pa : Nat) (b : Byte) (who : Nat × Nat) : (s.putByte pa b who).mirror = s.mirror := rfl
@[simp] theorem State.putByte_um (s : State) (pa : Nat) (b : Byte) (who : Nat × Nat) : (s.putByte pa b who).um = s.um := rfl
@[simp] theorem State.putByte_pontil (s : State) (pa : Nat) (b : Byte) (who : Nat × Nat) : (s.putByte pa b who).pontil = s.pontil := rfl
@[simp] theorem State.putByte_roots (s : State) (pa : Nat) (b : Byte) (who : Nat × Nat) : (s.putByte pa b who).roots = s.roots := rfl
@[simp] theorem State.putByte_queues (s : State) (pa : Nat) (b : Byte) (who : Nat × Nat) : (s.putByte pa b who).queues = s.queues := rfl
@[simp] theorem State.putByte_d (s : State) (pa : Nat) (b : Byte) (who : Nat × Nat) : (s.putByte pa b who).d = s.d := rfl
@[simp] theorem State.putByte_io (s : State) (pa : Nat) (b : Byte) (who : Nat × Nat) : (s.putByte pa b who).io = s.io := rfl
@[simp] theorem State.putByte_bd (s : State) (pa : Nat) (b : Byte) (who : Nat × Nat) : (s.putByte pa b who).bd = s.bd := rfl
@[simp] theorem State.putByte_w (s : State) (pa : Nat) (b : Byte) (who : Nat × Nat) : (s.putByte pa b who).w = s.w := rfl

/-! ### Updates of a core -/

@[simp] theorem Core.wrS_c (x : Core) (ctx r : Nat) (v : Word) : (x.wrS ctx r v).c = x.c := by
  unfold Core.wrS; split <;> rfl
@[simp] theorem Core.wrS_q (x : Core) (ctx r : Nat) (v : Word) : (x.wrS ctx r v).q = x.q := by
  unfold Core.wrS; split <;> rfl
@[simp] theorem Core.wrS_v (x : Core) (ctx r : Nat) (v : Word) : (x.wrS ctx r v).v = x.v := by
  unfold Core.wrS; split <;> rfl
@[simp] theorem Core.wrS_code (x : Core) (ctx r : Nat) (v : Word) : (x.wrS ctx r v).code = x.code := by
  unfold Core.wrS; split <;> rfl
@[simp] theorem Core.wrS_acc (x : Core) (ctx r : Nat) (v : Word) : (x.wrS ctx r v).acc = x.acc := by
  unfold Core.wrS; split <;> rfl
@[simp] theorem Core.wrS_wins (x : Core) (ctx r : Nat) (v : Word) : (x.wrS ctx r v).wins = x.wins := by
  unfold Core.wrS; split <;> rfl
@[simp] theorem Core.wrS_stash (x : Core) (ctx r : Nat) (v : Word) : (x.wrS ctx r v).stash = x.stash := by
  unfold Core.wrS; split <;> rfl
@[simp] theorem Core.wrS_unacked (x : Core) (ctx r : Nat) (v : Word) : (x.wrS ctx r v).unacked = x.unacked := by
  unfold Core.wrS; split <;> rfl
@[simp] theorem Core.wrS_tlb (x : Core) (ctx r : Nat) (v : Word) : (x.wrS ctx r v).tlb = x.tlb := by
  unfold Core.wrS; split <;> rfl
@[simp] theorem Core.wrS_tcache (x : Core) (ctx r : Nat) (v : Word) : (x.wrS ctx r v).tcache = x.tcache := by
  unfold Core.wrS; split <;> rfl
@[simp] theorem Core.wrS_task (x : Core) (ctx r : Nat) (v : Word) : (x.wrS ctx r v).task = x.task := by
  unfold Core.wrS; split <;> rfl
@[simp] theorem Core.wrS_lastAsid (x : Core) (ctx r : Nat) (v : Word) : (x.wrS ctx r v).lastAsid = x.lastAsid := by
  unfold Core.wrS; split <;> rfl
@[simp] theorem Core.wrS_taken (x : Core) (ctx r : Nat) (v : Word) : (x.wrS ctx r v).taken = x.taken := by
  unfold Core.wrS; split <;> rfl
@[simp] theorem Core.wrS_deliv (x : Core) (ctx r : Nat) (v : Word) : (x.wrS ctx r v).deliv = x.deliv := by
  unfold Core.wrS; split <;> rfl
@[simp] theorem Core.wrS_popAt (x : Core) (ctx r : Nat) (v : Word) : (x.wrS ctx r v).popAt = x.popAt := by
  unfold Core.wrS; split <;> rfl
@[simp] theorem Core.wrS_agecnt (x : Core) (ctx r : Nat) (v : Word) : (x.wrS ctx r v).agecnt = x.agecnt := by
  unfold Core.wrS; split <;> rfl
@[simp] theorem Core.wrS_decided (x : Core) (ctx r : Nat) (v : Word) : (x.wrS ctx r v).decided = x.decided := by
  unfold Core.wrS; split <;> rfl
@[simp] theorem Core.wrS_idleAt (x : Core) (ctx r : Nat) (v : Word) : (x.wrS ctx r v).idleAt = x.idleAt := by
  unfold Core.wrS; split <;> rfl
@[simp] theorem Core.wrS_busyAt (x : Core) (ctx r : Nat) (v : Word) : (x.wrS ctx r v).busyAt = x.busyAt := by
  unfold Core.wrS; split <;> rfl

@[simp] theorem Core.markS_c (x : Core) (ctx r id : Nat) : (x.markS ctx r id).c = x.c := by
  unfold Core.markS; split <;> rfl
@[simp] theorem Core.markS_q (x : Core) (ctx r id : Nat) : (x.markS ctx r id).q = x.q := by
  unfold Core.markS; split <;> rfl
@[simp] theorem Core.markS_v (x : Core) (ctx r id : Nat) : (x.markS ctx r id).v = x.v := by
  unfold Core.markS; split <;> rfl
@[simp] theorem Core.markS_e (x : Core) (ctx r id : Nat) : (x.markS ctx r id).e = x.e := by
  unfold Core.markS; split <;> rfl
@[simp] theorem Core.markS_code (x : Core) (ctx r id : Nat) : (x.markS ctx r id).code = x.code := by
  unfold Core.markS; split <;> rfl
@[simp] theorem Core.markS_acc (x : Core) (ctx r id : Nat) : (x.markS ctx r id).acc = x.acc := by
  unfold Core.markS; split <;> rfl
@[simp] theorem Core.markS_wins (x : Core) (ctx r id : Nat) : (x.markS ctx r id).wins = x.wins := by
  unfold Core.markS; split <;> rfl
@[simp] theorem Core.markS_stash (x : Core) (ctx r id : Nat) : (x.markS ctx r id).stash = x.stash := by
  unfold Core.markS; split <;> rfl
@[simp] theorem Core.markS_unacked (x : Core) (ctx r id : Nat) : (x.markS ctx r id).unacked = x.unacked := by
  unfold Core.markS; split <;> rfl
@[simp] theorem Core.markS_tlb (x : Core) (ctx r id : Nat) : (x.markS ctx r id).tlb = x.tlb := by
  unfold Core.markS; split <;> rfl
@[simp] theorem Core.markS_tcache (x : Core) (ctx r id : Nat) : (x.markS ctx r id).tcache = x.tcache := by
  unfold Core.markS; split <;> rfl
@[simp] theorem Core.markS_task (x : Core) (ctx r id : Nat) : (x.markS ctx r id).task = x.task := by
  unfold Core.markS; split <;> rfl
@[simp] theorem Core.markS_lastAsid (x : Core) (ctx r id : Nat) : (x.markS ctx r id).lastAsid = x.lastAsid := by
  unfold Core.markS; split <;> rfl
@[simp] theorem Core.markS_taken (x : Core) (ctx r id : Nat) : (x.markS ctx r id).taken = x.taken := by
  unfold Core.markS; split <;> rfl
@[simp] theorem Core.markS_deliv (x : Core) (ctx r id : Nat) : (x.markS ctx r id).deliv = x.deliv := by
  unfold Core.markS; split <;> rfl
@[simp] theorem Core.markS_popAt (x : Core) (ctx r id : Nat) : (x.markS ctx r id).popAt = x.popAt := by
  unfold Core.markS; split <;> rfl
@[simp] theorem Core.markS_agecnt (x : Core) (ctx r id : Nat) : (x.markS ctx r id).agecnt = x.agecnt := by
  unfold Core.markS; split <;> rfl
@[simp] theorem Core.markS_decided (x : Core) (ctx r id : Nat) : (x.markS ctx r id).decided = x.decided := by
  unfold Core.markS; split <;> rfl
@[simp] theorem Core.markS_idleAt (x : Core) (ctx r id : Nat) : (x.markS ctx r id).idleAt = x.idleAt := by
  unfold Core.markS; split <;> rfl
@[simp] theorem Core.markS_busyAt (x : Core) (ctx r id : Nat) : (x.markS ctx r id).busyAt = x.busyAt := by
  unfold Core.markS; split <;> rfl

@[simp] theorem Core.dropS_c (x : Core) (ctx r id : Nat) : (x.dropS ctx r id).c = x.c := by
  unfold Core.dropS; split <;> rfl
@[simp] theorem Core.dropS_q (x : Core) (ctx r id : Nat) : (x.dropS ctx r id).q = x.q := by
  unfold Core.dropS; split <;> rfl
@[simp] theorem Core.dropS_v (x : Core) (ctx r id : Nat) : (x.dropS ctx r id).v = x.v := by
  unfold Core.dropS; split <;> rfl
@[simp] theorem Core.dropS_e (x : Core) (ctx r id : Nat) : (x.dropS ctx r id).e = x.e := by
  unfold Core.dropS; split <;> rfl
@[simp] theorem Core.dropS_code (x : Core) (ctx r id : Nat) : (x.dropS ctx r id).code = x.code := by
  unfold Core.dropS; split <;> rfl
@[simp] theorem Core.dropS_acc (x : Core) (ctx r id : Nat) : (x.dropS ctx r id).acc = x.acc := by
  unfold Core.dropS; split <;> rfl
@[simp] theorem Core.dropS_wins (x : Core) (ctx r id : Nat) : (x.dropS ctx r id).wins = x.wins := by
  unfold Core.dropS; split <;> rfl
@[simp] theorem Core.dropS_stash (x : Core) (ctx r id : Nat) : (x.dropS ctx r id).stash = x.stash := by
  unfold Core.dropS; split <;> rfl
@[simp] theorem Core.dropS_unacked (x : Core) (ctx r id : Nat) : (x.dropS ctx r id).unacked = x.unacked := by
  unfold Core.dropS; split <;> rfl
@[simp] theorem Core.dropS_tlb (x : Core) (ctx r id : Nat) : (x.dropS ctx r id).tlb = x.tlb := by
  unfold Core.dropS; split <;> rfl
@[simp] theorem Core.dropS_tcache (x : Core) (ctx r id : Nat) : (x.dropS ctx r id).tcache = x.tcache := by
  unfold Core.dropS; split <;> rfl
@[simp] theorem Core.dropS_task (x : Core) (ctx r id : Nat) : (x.dropS ctx r id).task = x.task := by
  unfold Core.dropS; split <;> rfl
@[simp] theorem Core.dropS_lastAsid (x : Core) (ctx r id : Nat) : (x.dropS ctx r id).lastAsid = x.lastAsid := by
  unfold Core.dropS; split <;> rfl
@[simp] theorem Core.dropS_taken (x : Core) (ctx r id : Nat) : (x.dropS ctx r id).taken = x.taken := by
  unfold Core.dropS; split <;> rfl
@[simp] theorem Core.dropS_deliv (x : Core) (ctx r id : Nat) : (x.dropS ctx r id).deliv = x.deliv := by
  unfold Core.dropS; split <;> rfl
@[simp] theorem Core.dropS_popAt (x : Core) (ctx r id : Nat) : (x.dropS ctx r id).popAt = x.popAt := by
  unfold Core.dropS; split <;> rfl
@[simp] theorem Core.dropS_agecnt (x : Core) (ctx r id : Nat) : (x.dropS ctx r id).agecnt = x.agecnt := by
  unfold Core.dropS; split <;> rfl
@[simp] theorem Core.dropS_decided (x : Core) (ctx r id : Nat) : (x.dropS ctx r id).decided = x.decided := by
  unfold Core.dropS; split <;> rfl
@[simp] theorem Core.dropS_idleAt (x : Core) (ctx r id : Nat) : (x.dropS ctx r id).idleAt = x.idleAt := by
  unfold Core.dropS; split <;> rfl
@[simp] theorem Core.dropS_busyAt (x : Core) (ctx r id : Nat) : (x.dropS ctx r id).busyAt = x.busyAt := by
  unfold Core.dropS; split <;> rfl

@[simp] theorem Core.wrK_c (x : Core) (ctx r : Nat) (t : Token) : (x.wrK ctx r t).c = x.c := by
  unfold Core.wrK; split <;> rfl
@[simp] theorem Core.wrK_q (x : Core) (ctx r : Nat) (t : Token) : (x.wrK ctx r t).q = x.q := by
  unfold Core.wrK; split <;> rfl
@[simp] theorem Core.wrK_v (x : Core) (ctx r : Nat) (t : Token) : (x.wrK ctx r t).v = x.v := by
  unfold Core.wrK; split <;> rfl
@[simp] theorem Core.wrK_e (x : Core) (ctx r : Nat) (t : Token) : (x.wrK ctx r t).e = x.e := by
  unfold Core.wrK; split <;> rfl
@[simp] theorem Core.wrK_code (x : Core) (ctx r : Nat) (t : Token) : (x.wrK ctx r t).code = x.code := by
  unfold Core.wrK; split <;> rfl
@[simp] theorem Core.wrK_acc (x : Core) (ctx r : Nat) (t : Token) : (x.wrK ctx r t).acc = x.acc := by
  unfold Core.wrK; split <;> rfl
@[simp] theorem Core.wrK_wins (x : Core) (ctx r : Nat) (t : Token) : (x.wrK ctx r t).wins = x.wins := by
  unfold Core.wrK; split <;> rfl
@[simp] theorem Core.wrK_stash (x : Core) (ctx r : Nat) (t : Token) : (x.wrK ctx r t).stash = x.stash := by
  unfold Core.wrK; split <;> rfl
@[simp] theorem Core.wrK_unacked (x : Core) (ctx r : Nat) (t : Token) : (x.wrK ctx r t).unacked = x.unacked := by
  unfold Core.wrK; split <;> rfl
@[simp] theorem Core.wrK_tlb (x : Core) (ctx r : Nat) (t : Token) : (x.wrK ctx r t).tlb = x.tlb := by
  unfold Core.wrK; split <;> rfl
@[simp] theorem Core.wrK_tcache (x : Core) (ctx r : Nat) (t : Token) : (x.wrK ctx r t).tcache = x.tcache := by
  unfold Core.wrK; split <;> rfl
@[simp] theorem Core.wrK_task (x : Core) (ctx r : Nat) (t : Token) : (x.wrK ctx r t).task = x.task := by
  unfold Core.wrK; split <;> rfl
@[simp] theorem Core.wrK_lastAsid (x : Core) (ctx r : Nat) (t : Token) : (x.wrK ctx r t).lastAsid = x.lastAsid := by
  unfold Core.wrK; split <;> rfl
@[simp] theorem Core.wrK_taken (x : Core) (ctx r : Nat) (t : Token) : (x.wrK ctx r t).taken = x.taken := by
  unfold Core.wrK; split <;> rfl
@[simp] theorem Core.wrK_deliv (x : Core) (ctx r : Nat) (t : Token) : (x.wrK ctx r t).deliv = x.deliv := by
  unfold Core.wrK; split <;> rfl
@[simp] theorem Core.wrK_popAt (x : Core) (ctx r : Nat) (t : Token) : (x.wrK ctx r t).popAt = x.popAt := by
  unfold Core.wrK; split <;> rfl
@[simp] theorem Core.wrK_agecnt (x : Core) (ctx r : Nat) (t : Token) : (x.wrK ctx r t).agecnt = x.agecnt := by
  unfold Core.wrK; split <;> rfl
@[simp] theorem Core.wrK_decided (x : Core) (ctx r : Nat) (t : Token) : (x.wrK ctx r t).decided = x.decided := by
  unfold Core.wrK; split <;> rfl
@[simp] theorem Core.wrK_idleAt (x : Core) (ctx r : Nat) (t : Token) : (x.wrK ctx r t).idleAt = x.idleAt := by
  unfold Core.wrK; split <;> rfl
@[simp] theorem Core.wrK_busyAt (x : Core) (ctx r : Nat) (t : Token) : (x.wrK ctx r t).busyAt = x.busyAt := by
  unfold Core.wrK; split <;> rfl

@[simp] theorem Core.markK_c (x : Core) (ctx r id : Nat) : (x.markK ctx r id).c = x.c := by
  unfold Core.markK; split <;> rfl
@[simp] theorem Core.markK_q (x : Core) (ctx r id : Nat) : (x.markK ctx r id).q = x.q := by
  unfold Core.markK; split <;> rfl
@[simp] theorem Core.markK_v (x : Core) (ctx r id : Nat) : (x.markK ctx r id).v = x.v := by
  unfold Core.markK; split <;> rfl
@[simp] theorem Core.markK_e (x : Core) (ctx r id : Nat) : (x.markK ctx r id).e = x.e := by
  unfold Core.markK; split <;> rfl
@[simp] theorem Core.markK_code (x : Core) (ctx r id : Nat) : (x.markK ctx r id).code = x.code := by
  unfold Core.markK; split <;> rfl
@[simp] theorem Core.markK_acc (x : Core) (ctx r id : Nat) : (x.markK ctx r id).acc = x.acc := by
  unfold Core.markK; split <;> rfl
@[simp] theorem Core.markK_wins (x : Core) (ctx r id : Nat) : (x.markK ctx r id).wins = x.wins := by
  unfold Core.markK; split <;> rfl
@[simp] theorem Core.markK_stash (x : Core) (ctx r id : Nat) : (x.markK ctx r id).stash = x.stash := by
  unfold Core.markK; split <;> rfl
@[simp] theorem Core.markK_unacked (x : Core) (ctx r id : Nat) : (x.markK ctx r id).unacked = x.unacked := by
  unfold Core.markK; split <;> rfl
@[simp] theorem Core.markK_tlb (x : Core) (ctx r id : Nat) : (x.markK ctx r id).tlb = x.tlb := by
  unfold Core.markK; split <;> rfl
@[simp] theorem Core.markK_tcache (x : Core) (ctx r id : Nat) : (x.markK ctx r id).tcache = x.tcache := by
  unfold Core.markK; split <;> rfl
@[simp] theorem Core.markK_task (x : Core) (ctx r id : Nat) : (x.markK ctx r id).task = x.task := by
  unfold Core.markK; split <;> rfl
@[simp] theorem Core.markK_lastAsid (x : Core) (ctx r id : Nat) : (x.markK ctx r id).lastAsid = x.lastAsid := by
  unfold Core.markK; split <;> rfl
@[simp] theorem Core.markK_taken (x : Core) (ctx r id : Nat) : (x.markK ctx r id).taken = x.taken := by
  unfold Core.markK; split <;> rfl
@[simp] theorem Core.markK_deliv (x : Core) (ctx r id : Nat) : (x.markK ctx r id).deliv = x.deliv := by
  unfold Core.markK; split <;> rfl
@[simp] theorem Core.markK_popAt (x : Core) (ctx r id : Nat) : (x.markK ctx r id).popAt = x.popAt := by
  unfold Core.markK; split <;> rfl
@[simp] theorem Core.markK_agecnt (x : Core) (ctx r id : Nat) : (x.markK ctx r id).agecnt = x.agecnt := by
  unfold Core.markK; split <;> rfl
@[simp] theorem Core.markK_decided (x : Core) (ctx r id : Nat) : (x.markK ctx r id).decided = x.decided := by
  unfold Core.markK; split <;> rfl
@[simp] theorem Core.markK_idleAt (x : Core) (ctx r id : Nat) : (x.markK ctx r id).idleAt = x.idleAt := by
  unfold Core.markK; split <;> rfl
@[simp] theorem Core.markK_busyAt (x : Core) (ctx r id : Nat) : (x.markK ctx r id).busyAt = x.busyAt := by
  unfold Core.markK; split <;> rfl

@[simp] theorem Core.dropK_c (x : Core) (ctx r id : Nat) : (x.dropK ctx r id).c = x.c := by
  unfold Core.dropK; split <;> rfl
@[simp] theorem Core.dropK_q (x : Core) (ctx r id : Nat) : (x.dropK ctx r id).q = x.q := by
  unfold Core.dropK; split <;> rfl
@[simp] theorem Core.dropK_v (x : Core) (ctx r id : Nat) : (x.dropK ctx r id).v = x.v := by
  unfold Core.dropK; split <;> rfl
@[simp] theorem Core.dropK_e (x : Core) (ctx r id : Nat) : (x.dropK ctx r id).e = x.e := by
  unfold Core.dropK; split <;> rfl
@[simp] theorem Core.dropK_code (x : Core) (ctx r id : Nat) : (x.dropK ctx r id).code = x.code := by
  unfold Core.dropK; split <;> rfl
@[simp] theorem Core.dropK_acc (x : Core) (ctx r id : Nat) : (x.dropK ctx r id).acc = x.acc := by
  unfold Core.dropK; split <;> rfl
@[simp] theorem Core.dropK_wins (x : Core) (ctx r id : Nat) : (x.dropK ctx r id).wins = x.wins := by
  unfold Core.dropK; split <;> rfl
@[simp] theorem Core.dropK_stash (x : Core) (ctx r id : Nat) : (x.dropK ctx r id).stash = x.stash := by
  unfold Core.dropK; split <;> rfl
@[simp] theorem Core.dropK_unacked (x : Core) (ctx r id : Nat) : (x.dropK ctx r id).unacked = x.unacked := by
  unfold Core.dropK; split <;> rfl
@[simp] theorem Core.dropK_tlb (x : Core) (ctx r id : Nat) : (x.dropK ctx r id).tlb = x.tlb := by
  unfold Core.dropK; split <;> rfl
@[simp] theorem Core.dropK_tcache (x : Core) (ctx r id : Nat) : (x.dropK ctx r id).tcache = x.tcache := by
  unfold Core.dropK; split <;> rfl
@[simp] theorem Core.dropK_task (x : Core) (ctx r id : Nat) : (x.dropK ctx r id).task = x.task := by
  unfold Core.dropK; split <;> rfl
@[simp] theorem Core.dropK_lastAsid (x : Core) (ctx r id : Nat) : (x.dropK ctx r id).lastAsid = x.lastAsid := by
  unfold Core.dropK; split <;> rfl
@[simp] theorem Core.dropK_taken (x : Core) (ctx r id : Nat) : (x.dropK ctx r id).taken = x.taken := by
  unfold Core.dropK; split <;> rfl
@[simp] theorem Core.dropK_deliv (x : Core) (ctx r id : Nat) : (x.dropK ctx r id).deliv = x.deliv := by
  unfold Core.dropK; split <;> rfl
@[simp] theorem Core.dropK_popAt (x : Core) (ctx r id : Nat) : (x.dropK ctx r id).popAt = x.popAt := by
  unfold Core.dropK; split <;> rfl
@[simp] theorem Core.dropK_agecnt (x : Core) (ctx r id : Nat) : (x.dropK ctx r id).agecnt = x.agecnt := by
  unfold Core.dropK; split <;> rfl
@[simp] theorem Core.dropK_decided (x : Core) (ctx r id : Nat) : (x.dropK ctx r id).decided = x.decided := by
  unfold Core.dropK; split <;> rfl
@[simp] theorem Core.dropK_idleAt (x : Core) (ctx r id : Nat) : (x.dropK ctx r id).idleAt = x.idleAt := by
  unfold Core.dropK; split <;> rfl
@[simp] theorem Core.dropK_busyAt (x : Core) (ctx r id : Nat) : (x.dropK ctx r id).busyAt = x.busyAt := by
  unfold Core.dropK; split <;> rfl

@[simp] theorem Core.putV_c (x : Core) (r : Nat) (v : VReg) : (x.putV r v).c = x.c := rfl
@[simp] theorem Core.putV_q (x : Core) (r : Nat) (v : VReg) : (x.putV r v).q = x.q := rfl
@[simp] theorem Core.putV_v (x : Core) (r : Nat) (v : VReg) : (x.putV r v).v = x.v := rfl
@[simp] theorem Core.putV_e (x : Core) (r : Nat) (v : VReg) : (x.putV r v).e = x.e := rfl
@[simp] theorem Core.putV_code (x : Core) (r : Nat) (v : VReg) : (x.putV r v).code = x.code := rfl
@[simp] theorem Core.putV_acc (x : Core) (r : Nat) (v : VReg) : (x.putV r v).acc = x.acc := rfl
@[simp] theorem Core.putV_wins (x : Core) (r : Nat) (v : VReg) : (x.putV r v).wins = x.wins := rfl
@[simp] theorem Core.putV_stash (x : Core) (r : Nat) (v : VReg) : (x.putV r v).stash = x.stash := rfl
@[simp] theorem Core.putV_unacked (x : Core) (r : Nat) (v : VReg) : (x.putV r v).unacked = x.unacked := rfl
@[simp] theorem Core.putV_tlb (x : Core) (r : Nat) (v : VReg) : (x.putV r v).tlb = x.tlb := rfl
@[simp] theorem Core.putV_tcache (x : Core) (r : Nat) (v : VReg) : (x.putV r v).tcache = x.tcache := rfl
@[simp] theorem Core.putV_task (x : Core) (r : Nat) (v : VReg) : (x.putV r v).task = x.task := rfl
@[simp] theorem Core.putV_lastAsid (x : Core) (r : Nat) (v : VReg) : (x.putV r v).lastAsid = x.lastAsid := rfl
@[simp] theorem Core.putV_taken (x : Core) (r : Nat) (v : VReg) : (x.putV r v).taken = x.taken := rfl
@[simp] theorem Core.putV_deliv (x : Core) (r : Nat) (v : VReg) : (x.putV r v).deliv = x.deliv := rfl
@[simp] theorem Core.putV_popAt (x : Core) (r : Nat) (v : VReg) : (x.putV r v).popAt = x.popAt := rfl
@[simp] theorem Core.putV_agecnt (x : Core) (r : Nat) (v : VReg) : (x.putV r v).agecnt = x.agecnt := rfl
@[simp] theorem Core.putV_decided (x : Core) (r : Nat) (v : VReg) : (x.putV r v).decided = x.decided := rfl
@[simp] theorem Core.putV_idleAt (x : Core) (r : Nat) (v : VReg) : (x.putV r v).idleAt = x.idleAt := rfl
@[simp] theorem Core.putV_busyAt (x : Core) (r : Nat) (v : VReg) : (x.putV r v).busyAt = x.busyAt := rfl

@[simp] theorem Core.markV_c (x : Core) (rs : List Nat) (id : Nat) : (x.markV rs id).c = x.c := rfl
@[simp] theorem Core.markV_q (x : Core) (rs : List Nat) (id : Nat) : (x.markV rs id).q = x.q := rfl
@[simp] theorem Core.markV_v (x : Core) (rs : List Nat) (id : Nat) : (x.markV rs id).v = x.v := rfl
@[simp] theorem Core.markV_e (x : Core) (rs : List Nat) (id : Nat) : (x.markV rs id).e = x.e := rfl
@[simp] theorem Core.markV_code (x : Core) (rs : List Nat) (id : Nat) : (x.markV rs id).code = x.code := rfl
@[simp] theorem Core.markV_acc (x : Core) (rs : List Nat) (id : Nat) : (x.markV rs id).acc = x.acc := rfl
@[simp] theorem Core.markV_wins (x : Core) (rs : List Nat) (id : Nat) : (x.markV rs id).wins = x.wins := rfl
@[simp] theorem Core.markV_stash (x : Core) (rs : List Nat) (id : Nat) : (x.markV rs id).stash = x.stash := rfl
@[simp] theorem Core.markV_unacked (x : Core) (rs : List Nat) (id : Nat) : (x.markV rs id).unacked = x.unacked := rfl
@[simp] theorem Core.markV_tlb (x : Core) (rs : List Nat) (id : Nat) : (x.markV rs id).tlb = x.tlb := rfl
@[simp] theorem Core.markV_tcache (x : Core) (rs : List Nat) (id : Nat) : (x.markV rs id).tcache = x.tcache := rfl
@[simp] theorem Core.markV_task (x : Core) (rs : List Nat) (id : Nat) : (x.markV rs id).task = x.task := rfl
@[simp] theorem Core.markV_lastAsid (x : Core) (rs : List Nat) (id : Nat) : (x.markV rs id).lastAsid = x.lastAsid := rfl
@[simp] theorem Core.markV_taken (x : Core) (rs : List Nat) (id : Nat) : (x.markV rs id).taken = x.taken := rfl
@[simp] theorem Core.markV_deliv (x : Core) (rs : List Nat) (id : Nat) : (x.markV rs id).deliv = x.deliv := rfl
@[simp] theorem Core.markV_popAt (x : Core) (rs : List Nat) (id : Nat) : (x.markV rs id).popAt = x.popAt := rfl
@[simp] theorem Core.markV_agecnt (x : Core) (rs : List Nat) (id : Nat) : (x.markV rs id).agecnt = x.agecnt := rfl
@[simp] theorem Core.markV_decided (x : Core) (rs : List Nat) (id : Nat) : (x.markV rs id).decided = x.decided := rfl
@[simp] theorem Core.markV_idleAt (x : Core) (rs : List Nat) (id : Nat) : (x.markV rs id).idleAt = x.idleAt := rfl
@[simp] theorem Core.markV_busyAt (x : Core) (rs : List Nat) (id : Nat) : (x.markV rs id).busyAt = x.busyAt := rfl

@[simp] theorem Core.dropV_c (x : Core) (rs : List Nat) (id : Nat) : (x.dropV rs id).c = x.c := rfl
@[simp] theorem Core.dropV_q (x : Core) (rs : List Nat) (id : Nat) : (x.dropV rs id).q = x.q := rfl
@[simp] theorem Core.dropV_v (x : Core) (rs : List Nat) (id : Nat) : (x.dropV rs id).v = x.v := rfl
@[simp] theorem Core.dropV_e (x : Core) (rs : List Nat) (id : Nat) : (x.dropV rs id).e = x.e := rfl
@[simp] theorem Core.dropV_code (x : Core) (rs : List Nat) (id : Nat) : (x.dropV rs id).code = x.code := rfl
@[simp] theorem Core.dropV_acc (x : Core) (rs : List Nat) (id : Nat) : (x.dropV rs id).acc = x.acc := rfl
@[simp] theorem Core.dropV_wins (x : Core) (rs : List Nat) (id : Nat) : (x.dropV rs id).wins = x.wins := rfl
@[simp] theorem Core.dropV_stash (x : Core) (rs : List Nat) (id : Nat) : (x.dropV rs id).stash = x.stash := rfl
@[simp] theorem Core.dropV_unacked (x : Core) (rs : List Nat) (id : Nat) : (x.dropV rs id).unacked = x.unacked := rfl
@[simp] theorem Core.dropV_tlb (x : Core) (rs : List Nat) (id : Nat) : (x.dropV rs id).tlb = x.tlb := rfl
@[simp] theorem Core.dropV_tcache (x : Core) (rs : List Nat) (id : Nat) : (x.dropV rs id).tcache = x.tcache := rfl
@[simp] theorem Core.dropV_task (x : Core) (rs : List Nat) (id : Nat) : (x.dropV rs id).task = x.task := rfl
@[simp] theorem Core.dropV_lastAsid (x : Core) (rs : List Nat) (id : Nat) : (x.dropV rs id).lastAsid = x.lastAsid := rfl
@[simp] theorem Core.dropV_taken (x : Core) (rs : List Nat) (id : Nat) : (x.dropV rs id).taken = x.taken := rfl
@[simp] theorem Core.dropV_deliv (x : Core) (rs : List Nat) (id : Nat) : (x.dropV rs id).deliv = x.deliv := rfl
@[simp] theorem Core.dropV_popAt (x : Core) (rs : List Nat) (id : Nat) : (x.dropV rs id).popAt = x.popAt := rfl
@[simp] theorem Core.dropV_agecnt (x : Core) (rs : List Nat) (id : Nat) : (x.dropV rs id).agecnt = x.agecnt := rfl
@[simp] theorem Core.dropV_decided (x : Core) (rs : List Nat) (id : Nat) : (x.dropV rs id).decided = x.decided := rfl
@[simp] theorem Core.dropV_idleAt (x : Core) (rs : List Nat) (id : Nat) : (x.dropV rs id).idleAt = x.idleAt := rfl
@[simp] theorem Core.dropV_busyAt (x : Core) (rs : List Nat) (id : Nat) : (x.dropV rs id).busyAt = x.busyAt := rfl

@[simp] theorem Core.next_r (x : Core) (ctx n : Nat) : (x.next ctx n).r = x.r := rfl
@[simp] theorem Core.next_c (x : Core) (ctx n : Nat) : (x.next ctx n).c = x.c := rfl
@[simp] theorem Core.next_v (x : Core) (ctx n : Nat) : (x.next ctx n).v = x.v := rfl
@[simp] theorem Core.next_e (x : Core) (ctx n : Nat) : (x.next ctx n).e = x.e := rfl
@[simp] theorem Core.next_code (x : Core) (ctx n : Nat) : (x.next ctx n).code = x.code := rfl
@[simp] theorem Core.next_acc (x : Core) (ctx n : Nat) : (x.next ctx n).acc = x.acc := rfl
@[simp] theorem Core.next_wins (x : Core) (ctx n : Nat) : (x.next ctx n).wins = x.wins := rfl
@[simp] theorem Core.next_stash (x : Core) (ctx n : Nat) : (x.next ctx n).stash = x.stash := rfl
@[simp] theorem Core.next_unacked (x : Core) (ctx n : Nat) : (x.next ctx n).unacked = x.unacked := rfl
@[simp] theorem Core.next_tlb (x : Core) (ctx n : Nat) : (x.next ctx n).tlb = x.tlb := rfl
@[simp] theorem Core.next_tcache (x : Core) (ctx n : Nat) : (x.next ctx n).tcache = x.tcache := rfl
@[simp] theorem Core.next_task (x : Core) (ctx n : Nat) : (x.next ctx n).task = x.task := rfl
@[simp] theorem Core.next_lastAsid (x : Core) (ctx n : Nat) : (x.next ctx n).lastAsid = x.lastAsid := rfl
@[simp] theorem Core.next_taken (x : Core) (ctx n : Nat) : (x.next ctx n).taken = x.taken := rfl
@[simp] theorem Core.next_deliv (x : Core) (ctx n : Nat) : (x.next ctx n).deliv = x.deliv := rfl
@[simp] theorem Core.next_popAt (x : Core) (ctx n : Nat) : (x.next ctx n).popAt = x.popAt := rfl
@[simp] theorem Core.next_agecnt (x : Core) (ctx n : Nat) : (x.next ctx n).agecnt = x.agecnt := rfl
@[simp] theorem Core.next_decided (x : Core) (ctx n : Nat) : (x.next ctx n).decided = x.decided := rfl
@[simp] theorem Core.next_idleAt (x : Core) (ctx n : Nat) : (x.next ctx n).idleAt = x.idleAt := rfl
@[simp] theorem Core.next_busyAt (x : Core) (ctx n : Nat) : (x.next ctx n).busyAt = x.busyAt := rfl

@[simp] theorem Core.goto_r (x : Core) (ctx pc : Nat) : (x.goto ctx pc).r = x.r := rfl
@[simp] theorem Core.goto_c (x : Core) (ctx pc : Nat) : (x.goto ctx pc).c = x.c := rfl
@[simp] theorem Core.goto_v (x : Core) (ctx pc : Nat) : (x.goto ctx pc).v = x.v := rfl
@[simp] theorem Core.goto_e (x : Core) (ctx pc : Nat) : (x.goto ctx pc).e = x.e := rfl
@[simp] theorem Core.goto_code (x : Core) (ctx pc : Nat) : (x.goto ctx pc).code = x.code := rfl
@[simp] theorem Core.goto_acc (x : Core) (ctx pc : Nat) : (x.goto ctx pc).acc = x.acc := rfl
@[simp] theorem Core.goto_wins (x : Core) (ctx pc : Nat) : (x.goto ctx pc).wins = x.wins := rfl
@[simp] theorem Core.goto_stash (x : Core) (ctx pc : Nat) : (x.goto ctx pc).stash = x.stash := rfl
@[simp] theorem Core.goto_unacked (x : Core) (ctx pc : Nat) : (x.goto ctx pc).unacked = x.unacked := rfl
@[simp] theorem Core.goto_tlb (x : Core) (ctx pc : Nat) : (x.goto ctx pc).tlb = x.tlb := rfl
@[simp] theorem Core.goto_tcache (x : Core) (ctx pc : Nat) : (x.goto ctx pc).tcache = x.tcache := rfl
@[simp] theorem Core.goto_task (x : Core) (ctx pc : Nat) : (x.goto ctx pc).task = x.task := rfl
@[simp] theorem Core.goto_lastAsid (x : Core) (ctx pc : Nat) : (x.goto ctx pc).lastAsid = x.lastAsid := rfl
@[simp] theorem Core.goto_taken (x : Core) (ctx pc : Nat) : (x.goto ctx pc).taken = x.taken := rfl
@[simp] theorem Core.goto_deliv (x : Core) (ctx pc : Nat) : (x.goto ctx pc).deliv = x.deliv := rfl
@[simp] theorem Core.goto_popAt (x : Core) (ctx pc : Nat) : (x.goto ctx pc).popAt = x.popAt := rfl
@[simp] theorem Core.goto_agecnt (x : Core) (ctx pc : Nat) : (x.goto ctx pc).agecnt = x.agecnt := rfl
@[simp] theorem Core.goto_decided (x : Core) (ctx pc : Nat) : (x.goto ctx pc).decided = x.decided := rfl
@[simp] theorem Core.goto_idleAt (x : Core) (ctx pc : Nat) : (x.goto ctx pc).idleAt = x.idleAt := rfl
@[simp] theorem Core.goto_busyAt (x : Core) (ctx pc : Nat) : (x.goto ctx pc).busyAt = x.busyAt := rfl

@[simp] theorem Core.tickId_r (x : Core) : x.tickId.r = x.r := rfl
@[simp] theorem Core.tickId_c (x : Core) : x.tickId.c = x.c := rfl
@[simp] theorem Core.tickId_v (x : Core) : x.tickId.v = x.v := rfl
@[simp] theorem Core.tickId_e (x : Core) : x.tickId.e = x.e := rfl
@[simp] theorem Core.tickId_code (x : Core) : x.tickId.code = x.code := rfl
@[simp] theorem Core.tickId_acc (x : Core) : x.tickId.acc = x.acc := rfl
@[simp] theorem Core.tickId_wins (x : Core) : x.tickId.wins = x.wins := rfl
@[simp] theorem Core.tickId_stash (x : Core) : x.tickId.stash = x.stash := rfl
@[simp] theorem Core.tickId_unacked (x : Core) : x.tickId.unacked = x.unacked := rfl
@[simp] theorem Core.tickId_tlb (x : Core) : x.tickId.tlb = x.tlb := rfl
@[simp] theorem Core.tickId_tcache (x : Core) : x.tickId.tcache = x.tcache := rfl
@[simp] theorem Core.tickId_task (x : Core) : x.tickId.task = x.task := rfl
@[simp] theorem Core.tickId_lastAsid (x : Core) : x.tickId.lastAsid = x.lastAsid := rfl
@[simp] theorem Core.tickId_taken (x : Core) : x.tickId.taken = x.taken := rfl
@[simp] theorem Core.tickId_deliv (x : Core) : x.tickId.deliv = x.deliv := rfl
@[simp] theorem Core.tickId_popAt (x : Core) : x.tickId.popAt = x.popAt := rfl
@[simp] theorem Core.tickId_agecnt (x : Core) : x.tickId.agecnt = x.agecnt := rfl
@[simp] theorem Core.tickId_decided (x : Core) : x.tickId.decided = x.decided := rfl
@[simp] theorem Core.tickId_idleAt (x : Core) : x.tickId.idleAt = x.idleAt := rfl
@[simp] theorem Core.tickId_busyAt (x : Core) : x.tickId.busyAt = x.busyAt := rfl

@[simp] theorem Core.seq_r (x : Core) (f : Seq → Seq) : (x.seq f).r = x.r := rfl
@[simp] theorem Core.seq_c (x : Core) (f : Seq → Seq) : (x.seq f).c = x.c := rfl
@[simp] theorem Core.seq_v (x : Core) (f : Seq → Seq) : (x.seq f).v = x.v := rfl
@[simp] theorem Core.seq_e (x : Core) (f : Seq → Seq) : (x.seq f).e = x.e := rfl
@[simp] theorem Core.seq_code (x : Core) (f : Seq → Seq) : (x.seq f).code = x.code := rfl
@[simp] theorem Core.seq_acc (x : Core) (f : Seq → Seq) : (x.seq f).acc = x.acc := rfl
@[simp] theorem Core.seq_wins (x : Core) (f : Seq → Seq) : (x.seq f).wins = x.wins := rfl
@[simp] theorem Core.seq_stash (x : Core) (f : Seq → Seq) : (x.seq f).stash = x.stash := rfl
@[simp] theorem Core.seq_unacked (x : Core) (f : Seq → Seq) : (x.seq f).unacked = x.unacked := rfl
@[simp] theorem Core.seq_tlb (x : Core) (f : Seq → Seq) : (x.seq f).tlb = x.tlb := rfl
@[simp] theorem Core.seq_tcache (x : Core) (f : Seq → Seq) : (x.seq f).tcache = x.tcache := rfl
@[simp] theorem Core.seq_task (x : Core) (f : Seq → Seq) : (x.seq f).task = x.task := rfl
@[simp] theorem Core.seq_lastAsid (x : Core) (f : Seq → Seq) : (x.seq f).lastAsid = x.lastAsid := rfl
@[simp] theorem Core.seq_taken (x : Core) (f : Seq → Seq) : (x.seq f).taken = x.taken := rfl
@[simp] theorem Core.seq_deliv (x : Core) (f : Seq → Seq) : (x.seq f).deliv = x.deliv := rfl
@[simp] theorem Core.seq_popAt (x : Core) (f : Seq → Seq) : (x.seq f).popAt = x.popAt := rfl
@[simp] theorem Core.seq_agecnt (x : Core) (f : Seq → Seq) : (x.seq f).agecnt = x.agecnt := rfl
@[simp] theorem Core.seq_decided (x : Core) (f : Seq → Seq) : (x.seq f).decided = x.decided := rfl
@[simp] theorem Core.seq_idleAt (x : Core) (f : Seq → Seq) : (x.seq f).idleAt = x.idleAt := rfl
@[simp] theorem Core.seq_busyAt (x : Core) (f : Seq → Seq) : (x.seq f).busyAt = x.busyAt := rfl

@[simp] theorem Core.eng_r (x : Core) (f : Eng → Eng) : (x.eng f).r = x.r := rfl
@[simp] theorem Core.eng_c (x : Core) (f : Eng → Eng) : (x.eng f).c = x.c := rfl
@[simp] theorem Core.eng_q (x : Core) (f : Eng → Eng) : (x.eng f).q = x.q := rfl
@[simp] theorem Core.eng_v (x : Core) (f : Eng → Eng) : (x.eng f).v = x.v := rfl
@[simp] theorem Core.eng_code (x : Core) (f : Eng → Eng) : (x.eng f).code = x.code := rfl
@[simp] theorem Core.eng_acc (x : Core) (f : Eng → Eng) : (x.eng f).acc = x.acc := rfl
@[simp] theorem Core.eng_wins (x : Core) (f : Eng → Eng) : (x.eng f).wins = x.wins := rfl
@[simp] theorem Core.eng_stash (x : Core) (f : Eng → Eng) : (x.eng f).stash = x.stash := rfl
@[simp] theorem Core.eng_unacked (x : Core) (f : Eng → Eng) : (x.eng f).unacked = x.unacked := rfl
@[simp] theorem Core.eng_tlb (x : Core) (f : Eng → Eng) : (x.eng f).tlb = x.tlb := rfl
@[simp] theorem Core.eng_tcache (x : Core) (f : Eng → Eng) : (x.eng f).tcache = x.tcache := rfl
@[simp] theorem Core.eng_task (x : Core) (f : Eng → Eng) : (x.eng f).task = x.task := rfl
@[simp] theorem Core.eng_lastAsid (x : Core) (f : Eng → Eng) : (x.eng f).lastAsid = x.lastAsid := rfl
@[simp] theorem Core.eng_taken (x : Core) (f : Eng → Eng) : (x.eng f).taken = x.taken := rfl
@[simp] theorem Core.eng_deliv (x : Core) (f : Eng → Eng) : (x.eng f).deliv = x.deliv := rfl
@[simp] theorem Core.eng_popAt (x : Core) (f : Eng → Eng) : (x.eng f).popAt = x.popAt := rfl
@[simp] theorem Core.eng_agecnt (x : Core) (f : Eng → Eng) : (x.eng f).agecnt = x.agecnt := rfl
@[simp] theorem Core.eng_decided (x : Core) (f : Eng → Eng) : (x.eng f).decided = x.decided := rfl
@[simp] theorem Core.eng_idleAt (x : Core) (f : Eng → Eng) : (x.eng f).idleAt = x.idleAt := rfl
@[simp] theorem Core.eng_busyAt (x : Core) (f : Eng → Eng) : (x.eng f).busyAt = x.busyAt := rfl

@[simp] theorem Core.vu_r (x : Core) (f : Vu → Vu) : (x.vu f).r = x.r := rfl
@[simp] theorem Core.vu_c (x : Core) (f : Vu → Vu) : (x.vu f).c = x.c := rfl
@[simp] theorem Core.vu_q (x : Core) (f : Vu → Vu) : (x.vu f).q = x.q := rfl
@[simp] theorem Core.vu_e (x : Core) (f : Vu → Vu) : (x.vu f).e = x.e := rfl
@[simp] theorem Core.vu_code (x : Core) (f : Vu → Vu) : (x.vu f).code = x.code := rfl
@[simp] theorem Core.vu_acc (x : Core) (f : Vu → Vu) : (x.vu f).acc = x.acc := rfl
@[simp] theorem Core.vu_wins (x : Core) (f : Vu → Vu) : (x.vu f).wins = x.wins := rfl
@[simp] theorem Core.vu_stash (x : Core) (f : Vu → Vu) : (x.vu f).stash = x.stash := rfl
@[simp] theorem Core.vu_unacked (x : Core) (f : Vu → Vu) : (x.vu f).unacked = x.unacked := rfl
@[simp] theorem Core.vu_tlb (x : Core) (f : Vu → Vu) : (x.vu f).tlb = x.tlb := rfl
@[simp] theorem Core.vu_tcache (x : Core) (f : Vu → Vu) : (x.vu f).tcache = x.tcache := rfl
@[simp] theorem Core.vu_task (x : Core) (f : Vu → Vu) : (x.vu f).task = x.task := rfl
@[simp] theorem Core.vu_lastAsid (x : Core) (f : Vu → Vu) : (x.vu f).lastAsid = x.lastAsid := rfl
@[simp] theorem Core.vu_taken (x : Core) (f : Vu → Vu) : (x.vu f).taken = x.taken := rfl
@[simp] theorem Core.vu_deliv (x : Core) (f : Vu → Vu) : (x.vu f).deliv = x.deliv := rfl
@[simp] theorem Core.vu_popAt (x : Core) (f : Vu → Vu) : (x.vu f).popAt = x.popAt := rfl
@[simp] theorem Core.vu_agecnt (x : Core) (f : Vu → Vu) : (x.vu f).agecnt = x.agecnt := rfl
@[simp] theorem Core.vu_decided (x : Core) (f : Vu → Vu) : (x.vu f).decided = x.decided := rfl
@[simp] theorem Core.vu_idleAt (x : Core) (f : Vu → Vu) : (x.vu f).idleAt = x.idleAt := rfl
@[simp] theorem Core.vu_busyAt (x : Core) (f : Vu → Vu) : (x.vu f).busyAt = x.busyAt := rfl

@[simp] theorem Core.touch_r (x : Core) (ctx : Nat) (l : List Src) : (x.touch ctx l).r = x.r := rfl
@[simp] theorem Core.touch_c (x : Core) (ctx : Nat) (l : List Src) : (x.touch ctx l).c = x.c := rfl
@[simp] theorem Core.touch_q (x : Core) (ctx : Nat) (l : List Src) : (x.touch ctx l).q = x.q := rfl
@[simp] theorem Core.touch_v (x : Core) (ctx : Nat) (l : List Src) : (x.touch ctx l).v = x.v := rfl
@[simp] theorem Core.touch_code (x : Core) (ctx : Nat) (l : List Src) : (x.touch ctx l).code = x.code := rfl
@[simp] theorem Core.touch_acc (x : Core) (ctx : Nat) (l : List Src) : (x.touch ctx l).acc = x.acc := rfl
@[simp] theorem Core.touch_wins (x : Core) (ctx : Nat) (l : List Src) : (x.touch ctx l).wins = x.wins := rfl
@[simp] theorem Core.touch_stash (x : Core) (ctx : Nat) (l : List Src) : (x.touch ctx l).stash = x.stash := rfl
@[simp] theorem Core.touch_unacked (x : Core) (ctx : Nat) (l : List Src) : (x.touch ctx l).unacked = x.unacked := rfl
@[simp] theorem Core.touch_tlb (x : Core) (ctx : Nat) (l : List Src) : (x.touch ctx l).tlb = x.tlb := rfl
@[simp] theorem Core.touch_tcache (x : Core) (ctx : Nat) (l : List Src) : (x.touch ctx l).tcache = x.tcache := rfl
@[simp] theorem Core.touch_task (x : Core) (ctx : Nat) (l : List Src) : (x.touch ctx l).task = x.task := rfl
@[simp] theorem Core.touch_lastAsid (x : Core) (ctx : Nat) (l : List Src) : (x.touch ctx l).lastAsid = x.lastAsid := rfl
@[simp] theorem Core.touch_taken (x : Core) (ctx : Nat) (l : List Src) : (x.touch ctx l).taken = x.taken := rfl
@[simp] theorem Core.touch_deliv (x : Core) (ctx : Nat) (l : List Src) : (x.touch ctx l).deliv = x.deliv := rfl
@[simp] theorem Core.touch_popAt (x : Core) (ctx : Nat) (l : List Src) : (x.touch ctx l).popAt = x.popAt := rfl
@[simp] theorem Core.touch_agecnt (x : Core) (ctx : Nat) (l : List Src) : (x.touch ctx l).agecnt = x.agecnt := rfl
@[simp] theorem Core.touch_decided (x : Core) (ctx : Nat) (l : List Src) : (x.touch ctx l).decided = x.decided := rfl
@[simp] theorem Core.touch_idleAt (x : Core) (ctx : Nat) (l : List Src) : (x.touch ctx l).idleAt = x.idleAt := rfl
@[simp] theorem Core.touch_busyAt (x : Core) (ctx : Nat) (l : List Src) : (x.touch ctx l).busyAt = x.busyAt := rfl

@[simp] theorem Core.kset_r (x : Core) (b : KBit) (n : Nat) : (x.kset b n).r = x.r := rfl
@[simp] theorem Core.kset_q (x : Core) (b : KBit) (n : Nat) : (x.kset b n).q = x.q := rfl
@[simp] theorem Core.kset_v (x : Core) (b : KBit) (n : Nat) : (x.kset b n).v = x.v := rfl
@[simp] theorem Core.kset_e (x : Core) (b : KBit) (n : Nat) : (x.kset b n).e = x.e := rfl
@[simp] theorem Core.kset_code (x : Core) (b : KBit) (n : Nat) : (x.kset b n).code = x.code := rfl
@[simp] theorem Core.kset_acc (x : Core) (b : KBit) (n : Nat) : (x.kset b n).acc = x.acc := rfl
@[simp] theorem Core.kset_wins (x : Core) (b : KBit) (n : Nat) : (x.kset b n).wins = x.wins := rfl
@[simp] theorem Core.kset_stash (x : Core) (b : KBit) (n : Nat) : (x.kset b n).stash = x.stash := rfl
@[simp] theorem Core.kset_unacked (x : Core) (b : KBit) (n : Nat) : (x.kset b n).unacked = x.unacked := rfl
@[simp] theorem Core.kset_tlb (x : Core) (b : KBit) (n : Nat) : (x.kset b n).tlb = x.tlb := rfl
@[simp] theorem Core.kset_tcache (x : Core) (b : KBit) (n : Nat) : (x.kset b n).tcache = x.tcache := rfl
@[simp] theorem Core.kset_task (x : Core) (b : KBit) (n : Nat) : (x.kset b n).task = x.task := rfl
@[simp] theorem Core.kset_lastAsid (x : Core) (b : KBit) (n : Nat) : (x.kset b n).lastAsid = x.lastAsid := rfl
@[simp] theorem Core.kset_taken (x : Core) (b : KBit) (n : Nat) : (x.kset b n).taken = x.taken := rfl
@[simp] theorem Core.kset_deliv (x : Core) (b : KBit) (n : Nat) : (x.kset b n).deliv = x.deliv := rfl
@[simp] theorem Core.kset_popAt (x : Core) (b : KBit) (n : Nat) : (x.kset b n).popAt = x.popAt := rfl
@[simp] theorem Core.kset_agecnt (x : Core) (b : KBit) (n : Nat) : (x.kset b n).agecnt = x.agecnt := rfl
@[simp] theorem Core.kset_decided (x : Core) (b : KBit) (n : Nat) : (x.kset b n).decided = x.decided := rfl
@[simp] theorem Core.kset_idleAt (x : Core) (b : KBit) (n : Nat) : (x.kset b n).idleAt = x.idleAt := rfl
@[simp] theorem Core.kset_busyAt (x : Core) (b : KBit) (n : Nat) : (x.kset b n).busyAt = x.busyAt := rfl

@[simp] theorem Core.orFpsr_r (x : Core) (fl : BitVec 6) : (x.orFpsr fl).r = x.r := rfl
@[simp] theorem Core.orFpsr_q (x : Core) (fl : BitVec 6) : (x.orFpsr fl).q = x.q := rfl
@[simp] theorem Core.orFpsr_v (x : Core) (fl : BitVec 6) : (x.orFpsr fl).v = x.v := rfl
@[simp] theorem Core.orFpsr_e (x : Core) (fl : BitVec 6) : (x.orFpsr fl).e = x.e := rfl
@[simp] theorem Core.orFpsr_code (x : Core) (fl : BitVec 6) : (x.orFpsr fl).code = x.code := rfl
@[simp] theorem Core.orFpsr_acc (x : Core) (fl : BitVec 6) : (x.orFpsr fl).acc = x.acc := rfl
@[simp] theorem Core.orFpsr_wins (x : Core) (fl : BitVec 6) : (x.orFpsr fl).wins = x.wins := rfl
@[simp] theorem Core.orFpsr_stash (x : Core) (fl : BitVec 6) : (x.orFpsr fl).stash = x.stash := rfl
@[simp] theorem Core.orFpsr_unacked (x : Core) (fl : BitVec 6) : (x.orFpsr fl).unacked = x.unacked := rfl
@[simp] theorem Core.orFpsr_tlb (x : Core) (fl : BitVec 6) : (x.orFpsr fl).tlb = x.tlb := rfl
@[simp] theorem Core.orFpsr_tcache (x : Core) (fl : BitVec 6) : (x.orFpsr fl).tcache = x.tcache := rfl
@[simp] theorem Core.orFpsr_task (x : Core) (fl : BitVec 6) : (x.orFpsr fl).task = x.task := rfl
@[simp] theorem Core.orFpsr_lastAsid (x : Core) (fl : BitVec 6) : (x.orFpsr fl).lastAsid = x.lastAsid := rfl
@[simp] theorem Core.orFpsr_taken (x : Core) (fl : BitVec 6) : (x.orFpsr fl).taken = x.taken := rfl
@[simp] theorem Core.orFpsr_deliv (x : Core) (fl : BitVec 6) : (x.orFpsr fl).deliv = x.deliv := rfl
@[simp] theorem Core.orFpsr_popAt (x : Core) (fl : BitVec 6) : (x.orFpsr fl).popAt = x.popAt := rfl
@[simp] theorem Core.orFpsr_agecnt (x : Core) (fl : BitVec 6) : (x.orFpsr fl).agecnt = x.agecnt := rfl
@[simp] theorem Core.orFpsr_decided (x : Core) (fl : BitVec 6) : (x.orFpsr fl).decided = x.decided := rfl
@[simp] theorem Core.orFpsr_idleAt (x : Core) (fl : BitVec 6) : (x.orFpsr fl).idleAt = x.idleAt := rfl
@[simp] theorem Core.orFpsr_busyAt (x : Core) (fl : BitVec 6) : (x.orFpsr fl).busyAt = x.busyAt := rfl

@[simp] theorem Core.late_r (x : Core) (l : Late) : (x.late l).r = x.r := rfl
@[simp] theorem Core.late_c (x : Core) (l : Late) : (x.late l).c = x.c := rfl
@[simp] theorem Core.late_v (x : Core) (l : Late) : (x.late l).v = x.v := rfl
@[simp] theorem Core.late_e (x : Core) (l : Late) : (x.late l).e = x.e := rfl
@[simp] theorem Core.late_code (x : Core) (l : Late) : (x.late l).code = x.code := rfl
@[simp] theorem Core.late_acc (x : Core) (l : Late) : (x.late l).acc = x.acc := rfl
@[simp] theorem Core.late_wins (x : Core) (l : Late) : (x.late l).wins = x.wins := rfl
@[simp] theorem Core.late_stash (x : Core) (l : Late) : (x.late l).stash = x.stash := rfl
@[simp] theorem Core.late_unacked (x : Core) (l : Late) : (x.late l).unacked = x.unacked := rfl
@[simp] theorem Core.late_tlb (x : Core) (l : Late) : (x.late l).tlb = x.tlb := rfl
@[simp] theorem Core.late_tcache (x : Core) (l : Late) : (x.late l).tcache = x.tcache := rfl
@[simp] theorem Core.late_task (x : Core) (l : Late) : (x.late l).task = x.task := rfl
@[simp] theorem Core.late_lastAsid (x : Core) (l : Late) : (x.late l).lastAsid = x.lastAsid := rfl
@[simp] theorem Core.late_taken (x : Core) (l : Late) : (x.late l).taken = x.taken := rfl
@[simp] theorem Core.late_deliv (x : Core) (l : Late) : (x.late l).deliv = x.deliv := rfl
@[simp] theorem Core.late_popAt (x : Core) (l : Late) : (x.late l).popAt = x.popAt := rfl
@[simp] theorem Core.late_agecnt (x : Core) (l : Late) : (x.late l).agecnt = x.agecnt := rfl
@[simp] theorem Core.late_decided (x : Core) (l : Late) : (x.late l).decided = x.decided := rfl
@[simp] theorem Core.late_idleAt (x : Core) (l : Late) : (x.late l).idleAt = x.idleAt := rfl
@[simp] theorem Core.late_busyAt (x : Core) (l : Late) : (x.late l).busyAt = x.busyAt := rfl

@[simp] theorem Core.dropAcc_r (x : Core) (id : Nat) : (x.dropAcc id).r = x.r := rfl
@[simp] theorem Core.dropAcc_c (x : Core) (id : Nat) : (x.dropAcc id).c = x.c := rfl
@[simp] theorem Core.dropAcc_q (x : Core) (id : Nat) : (x.dropAcc id).q = x.q := rfl
@[simp] theorem Core.dropAcc_v (x : Core) (id : Nat) : (x.dropAcc id).v = x.v := rfl
@[simp] theorem Core.dropAcc_e (x : Core) (id : Nat) : (x.dropAcc id).e = x.e := rfl
@[simp] theorem Core.dropAcc_code (x : Core) (id : Nat) : (x.dropAcc id).code = x.code := rfl
@[simp] theorem Core.dropAcc_wins (x : Core) (id : Nat) : (x.dropAcc id).wins = x.wins := rfl
@[simp] theorem Core.dropAcc_stash (x : Core) (id : Nat) : (x.dropAcc id).stash = x.stash := rfl
@[simp] theorem Core.dropAcc_unacked (x : Core) (id : Nat) : (x.dropAcc id).unacked = x.unacked := rfl
@[simp] theorem Core.dropAcc_tlb (x : Core) (id : Nat) : (x.dropAcc id).tlb = x.tlb := rfl
@[simp] theorem Core.dropAcc_tcache (x : Core) (id : Nat) : (x.dropAcc id).tcache = x.tcache := rfl
@[simp] theorem Core.dropAcc_task (x : Core) (id : Nat) : (x.dropAcc id).task = x.task := rfl
@[simp] theorem Core.dropAcc_lastAsid (x : Core) (id : Nat) : (x.dropAcc id).lastAsid = x.lastAsid := rfl
@[simp] theorem Core.dropAcc_taken (x : Core) (id : Nat) : (x.dropAcc id).taken = x.taken := rfl
@[simp] theorem Core.dropAcc_deliv (x : Core) (id : Nat) : (x.dropAcc id).deliv = x.deliv := rfl
@[simp] theorem Core.dropAcc_popAt (x : Core) (id : Nat) : (x.dropAcc id).popAt = x.popAt := rfl
@[simp] theorem Core.dropAcc_agecnt (x : Core) (id : Nat) : (x.dropAcc id).agecnt = x.agecnt := rfl
@[simp] theorem Core.dropAcc_decided (x : Core) (id : Nat) : (x.dropAcc id).decided = x.decided := rfl
@[simp] theorem Core.dropAcc_idleAt (x : Core) (id : Nat) : (x.dropAcc id).idleAt = x.idleAt := rfl
@[simp] theorem Core.dropAcc_busyAt (x : Core) (id : Nat) : (x.dropAcc id).busyAt = x.busyAt := rfl

@[simp] theorem Core.putAcc_r (x : Core) (a : Acc) : (x.putAcc a).r = x.r := rfl
@[simp] theorem Core.putAcc_c (x : Core) (a : Acc) : (x.putAcc a).c = x.c := rfl
@[simp] theorem Core.putAcc_q (x : Core) (a : Acc) : (x.putAcc a).q = x.q := rfl
@[simp] theorem Core.putAcc_v (x : Core) (a : Acc) : (x.putAcc a).v = x.v := rfl
@[simp] theorem Core.putAcc_e (x : Core) (a : Acc) : (x.putAcc a).e = x.e := rfl
@[simp] theorem Core.putAcc_code (x : Core) (a : Acc) : (x.putAcc a).code = x.code := rfl
@[simp] theorem Core.putAcc_wins (x : Core) (a : Acc) : (x.putAcc a).wins = x.wins := rfl
@[simp] theorem Core.putAcc_stash (x : Core) (a : Acc) : (x.putAcc a).stash = x.stash := rfl
@[simp] theorem Core.putAcc_unacked (x : Core) (a : Acc) : (x.putAcc a).unacked = x.unacked := rfl
@[simp] theorem Core.putAcc_tlb (x : Core) (a : Acc) : (x.putAcc a).tlb = x.tlb := rfl
@[simp] theorem Core.putAcc_tcache (x : Core) (a : Acc) : (x.putAcc a).tcache = x.tcache := rfl
@[simp] theorem Core.putAcc_task (x : Core) (a : Acc) : (x.putAcc a).task = x.task := rfl
@[simp] theorem Core.putAcc_lastAsid (x : Core) (a : Acc) : (x.putAcc a).lastAsid = x.lastAsid := rfl
@[simp] theorem Core.putAcc_taken (x : Core) (a : Acc) : (x.putAcc a).taken = x.taken := rfl
@[simp] theorem Core.putAcc_deliv (x : Core) (a : Acc) : (x.putAcc a).deliv = x.deliv := rfl
@[simp] theorem Core.putAcc_popAt (x : Core) (a : Acc) : (x.putAcc a).popAt = x.popAt := rfl
@[simp] theorem Core.putAcc_agecnt (x : Core) (a : Acc) : (x.putAcc a).agecnt = x.agecnt := rfl
@[simp] theorem Core.putAcc_decided (x : Core) (a : Acc) : (x.putAcc a).decided = x.decided := rfl
@[simp] theorem Core.putAcc_idleAt (x : Core) (a : Acc) : (x.putAcc a).idleAt = x.idleAt := rfl
@[simp] theorem Core.putAcc_busyAt (x : Core) (a : Acc) : (x.putAcc a).busyAt = x.busyAt := rfl

@[simp] theorem Core.setLine_r (x : Core) (ln : Nat) (l : Line) : (x.setLine ln l).r = x.r := rfl
@[simp] theorem Core.setLine_c (x : Core) (ln : Nat) (l : Line) : (x.setLine ln l).c = x.c := rfl
@[simp] theorem Core.setLine_q (x : Core) (ln : Nat) (l : Line) : (x.setLine ln l).q = x.q := rfl
@[simp] theorem Core.setLine_v (x : Core) (ln : Nat) (l : Line) : (x.setLine ln l).v = x.v := rfl
@[simp] theorem Core.setLine_e (x : Core) (ln : Nat) (l : Line) : (x.setLine ln l).e = x.e := rfl
@[simp] theorem Core.setLine_code (x : Core) (ln : Nat) (l : Line) : (x.setLine ln l).code = x.code := rfl
@[simp] theorem Core.setLine_acc (x : Core) (ln : Nat) (l : Line) : (x.setLine ln l).acc = x.acc := rfl
@[simp] theorem Core.setLine_wins (x : Core) (ln : Nat) (l : Line) : (x.setLine ln l).wins = x.wins := rfl
@[simp] theorem Core.setLine_unacked (x : Core) (ln : Nat) (l : Line) : (x.setLine ln l).unacked = x.unacked := rfl
@[simp] theorem Core.setLine_tlb (x : Core) (ln : Nat) (l : Line) : (x.setLine ln l).tlb = x.tlb := rfl
@[simp] theorem Core.setLine_tcache (x : Core) (ln : Nat) (l : Line) : (x.setLine ln l).tcache = x.tcache := rfl
@[simp] theorem Core.setLine_task (x : Core) (ln : Nat) (l : Line) : (x.setLine ln l).task = x.task := rfl
@[simp] theorem Core.setLine_lastAsid (x : Core) (ln : Nat) (l : Line) : (x.setLine ln l).lastAsid = x.lastAsid := rfl
@[simp] theorem Core.setLine_taken (x : Core) (ln : Nat) (l : Line) : (x.setLine ln l).taken = x.taken := rfl
@[simp] theorem Core.setLine_deliv (x : Core) (ln : Nat) (l : Line) : (x.setLine ln l).deliv = x.deliv := rfl
@[simp] theorem Core.setLine_popAt (x : Core) (ln : Nat) (l : Line) : (x.setLine ln l).popAt = x.popAt := rfl
@[simp] theorem Core.setLine_agecnt (x : Core) (ln : Nat) (l : Line) : (x.setLine ln l).agecnt = x.agecnt := rfl
@[simp] theorem Core.setLine_decided (x : Core) (ln : Nat) (l : Line) : (x.setLine ln l).decided = x.decided := rfl
@[simp] theorem Core.setLine_idleAt (x : Core) (ln : Nat) (l : Line) : (x.setLine ln l).idleAt = x.idleAt := rfl
@[simp] theorem Core.setLine_busyAt (x : Core) (ln : Nat) (l : Line) : (x.setLine ln l).busyAt = x.busyAt := rfl

@[simp] theorem Core.numbered_r (x : Core) : x.numbered.r = x.r := by
  unfold Core.numbered; split <;> rfl
@[simp] theorem Core.numbered_c (x : Core) : x.numbered.c = x.c := by
  unfold Core.numbered; split <;> rfl
@[simp] theorem Core.numbered_v (x : Core) : x.numbered.v = x.v := by
  unfold Core.numbered; split <;> rfl
@[simp] theorem Core.numbered_e (x : Core) : x.numbered.e = x.e := by
  unfold Core.numbered; split <;> rfl
@[simp] theorem Core.numbered_code (x : Core) : x.numbered.code = x.code := by
  unfold Core.numbered; split <;> rfl
@[simp] theorem Core.numbered_acc (x : Core) : x.numbered.acc = x.acc := by
  unfold Core.numbered; split <;> rfl
@[simp] theorem Core.numbered_wins (x : Core) : x.numbered.wins = x.wins := by
  unfold Core.numbered; split <;> rfl
@[simp] theorem Core.numbered_stash (x : Core) : x.numbered.stash = x.stash := by
  unfold Core.numbered; split <;> rfl
@[simp] theorem Core.numbered_unacked (x : Core) : x.numbered.unacked = x.unacked := by
  unfold Core.numbered; split <;> rfl
@[simp] theorem Core.numbered_tlb (x : Core) : x.numbered.tlb = x.tlb := by
  unfold Core.numbered; split <;> rfl
@[simp] theorem Core.numbered_tcache (x : Core) : x.numbered.tcache = x.tcache := by
  unfold Core.numbered; split <;> rfl
@[simp] theorem Core.numbered_task (x : Core) : x.numbered.task = x.task := by
  unfold Core.numbered; split <;> rfl
@[simp] theorem Core.numbered_lastAsid (x : Core) : x.numbered.lastAsid = x.lastAsid := by
  unfold Core.numbered; split <;> rfl
@[simp] theorem Core.numbered_taken (x : Core) : x.numbered.taken = x.taken := by
  unfold Core.numbered; split <;> rfl
@[simp] theorem Core.numbered_deliv (x : Core) : x.numbered.deliv = x.deliv := by
  unfold Core.numbered; split <;> rfl
@[simp] theorem Core.numbered_popAt (x : Core) : x.numbered.popAt = x.popAt := by
  unfold Core.numbered; split <;> rfl
@[simp] theorem Core.numbered_agecnt (x : Core) : x.numbered.agecnt = x.agecnt := by
  unfold Core.numbered; split <;> rfl
@[simp] theorem Core.numbered_decided (x : Core) : x.numbered.decided = x.decided := by
  unfold Core.numbered; split <;> rfl
@[simp] theorem Core.numbered_idleAt (x : Core) : x.numbered.idleAt = x.idleAt := by
  unfold Core.numbered; split <;> rfl
@[simp] theorem Core.numbered_busyAt (x : Core) : x.numbered.busyAt = x.busyAt := by
  unfold Core.numbered; split <;> rfl

@[simp] theorem Core.cacheTok_r (x : Core) (n : Nat) : (x.cacheTok n).r = x.r := by
  unfold Core.cacheTok; split <;> rfl
@[simp] theorem Core.cacheTok_c (x : Core) (n : Nat) : (x.cacheTok n).c = x.c := by
  unfold Core.cacheTok; split <;> rfl
@[simp] theorem Core.cacheTok_q (x : Core) (n : Nat) : (x.cacheTok n).q = x.q := by
  unfold Core.cacheTok; split <;> rfl
@[simp] theorem Core.cacheTok_v (x : Core) (n : Nat) : (x.cacheTok n).v = x.v := by
  unfold Core.cacheTok; split <;> rfl
@[simp] theorem Core.cacheTok_e (x : Core) (n : Nat) : (x.cacheTok n).e = x.e := by
  unfold Core.cacheTok; split <;> rfl
@[simp] theorem Core.cacheTok_code (x : Core) (n : Nat) : (x.cacheTok n).code = x.code := by
  unfold Core.cacheTok; split <;> rfl
@[simp] theorem Core.cacheTok_acc (x : Core) (n : Nat) : (x.cacheTok n).acc = x.acc := by
  unfold Core.cacheTok; split <;> rfl
@[simp] theorem Core.cacheTok_wins (x : Core) (n : Nat) : (x.cacheTok n).wins = x.wins := by
  unfold Core.cacheTok; split <;> rfl
@[simp] theorem Core.cacheTok_stash (x : Core) (n : Nat) : (x.cacheTok n).stash = x.stash := by
  unfold Core.cacheTok; split <;> rfl
@[simp] theorem Core.cacheTok_unacked (x : Core) (n : Nat) : (x.cacheTok n).unacked = x.unacked := by
  unfold Core.cacheTok; split <;> rfl
@[simp] theorem Core.cacheTok_tlb (x : Core) (n : Nat) : (x.cacheTok n).tlb = x.tlb := by
  unfold Core.cacheTok; split <;> rfl
@[simp] theorem Core.cacheTok_task (x : Core) (n : Nat) : (x.cacheTok n).task = x.task := by
  unfold Core.cacheTok; split <;> rfl
@[simp] theorem Core.cacheTok_lastAsid (x : Core) (n : Nat) : (x.cacheTok n).lastAsid = x.lastAsid := by
  unfold Core.cacheTok; split <;> rfl
@[simp] theorem Core.cacheTok_taken (x : Core) (n : Nat) : (x.cacheTok n).taken = x.taken := by
  unfold Core.cacheTok; split <;> rfl
@[simp] theorem Core.cacheTok_deliv (x : Core) (n : Nat) : (x.cacheTok n).deliv = x.deliv := by
  unfold Core.cacheTok; split <;> rfl
@[simp] theorem Core.cacheTok_popAt (x : Core) (n : Nat) : (x.cacheTok n).popAt = x.popAt := by
  unfold Core.cacheTok; split <;> rfl
@[simp] theorem Core.cacheTok_agecnt (x : Core) (n : Nat) : (x.cacheTok n).agecnt = x.agecnt := by
  unfold Core.cacheTok; split <;> rfl
@[simp] theorem Core.cacheTok_decided (x : Core) (n : Nat) : (x.cacheTok n).decided = x.decided := by
  unfold Core.cacheTok; split <;> rfl
@[simp] theorem Core.cacheTok_idleAt (x : Core) (n : Nat) : (x.cacheTok n).idleAt = x.idleAt := by
  unfold Core.cacheTok; split <;> rfl
@[simp] theorem Core.cacheTok_busyAt (x : Core) (n : Nat) : (x.cacheTok n).busyAt = x.busyAt := by
  unfold Core.cacheTok; split <;> rfl

@[simp] theorem Core.foundAt_c (x : Core) (gs : List Nat) : (x.foundAt gs).c = x.c := rfl
@[simp] theorem Core.foundAt_q (x : Core) (gs : List Nat) : (x.foundAt gs).q = x.q := rfl
@[simp] theorem Core.foundAt_v (x : Core) (gs : List Nat) : (x.foundAt gs).v = x.v := rfl
@[simp] theorem Core.foundAt_e (x : Core) (gs : List Nat) : (x.foundAt gs).e = x.e := rfl
@[simp] theorem Core.foundAt_code (x : Core) (gs : List Nat) : (x.foundAt gs).code = x.code := rfl
@[simp] theorem Core.foundAt_acc (x : Core) (gs : List Nat) : (x.foundAt gs).acc = x.acc := rfl
@[simp] theorem Core.foundAt_wins (x : Core) (gs : List Nat) : (x.foundAt gs).wins = x.wins := rfl
@[simp] theorem Core.foundAt_stash (x : Core) (gs : List Nat) : (x.foundAt gs).stash = x.stash := rfl
@[simp] theorem Core.foundAt_unacked (x : Core) (gs : List Nat) : (x.foundAt gs).unacked = x.unacked := rfl
@[simp] theorem Core.foundAt_tlb (x : Core) (gs : List Nat) : (x.foundAt gs).tlb = x.tlb := rfl
@[simp] theorem Core.foundAt_tcache (x : Core) (gs : List Nat) : (x.foundAt gs).tcache = x.tcache := rfl
@[simp] theorem Core.foundAt_task (x : Core) (gs : List Nat) : (x.foundAt gs).task = x.task := rfl
@[simp] theorem Core.foundAt_lastAsid (x : Core) (gs : List Nat) : (x.foundAt gs).lastAsid = x.lastAsid := rfl
@[simp] theorem Core.foundAt_taken (x : Core) (gs : List Nat) : (x.foundAt gs).taken = x.taken := rfl
@[simp] theorem Core.foundAt_deliv (x : Core) (gs : List Nat) : (x.foundAt gs).deliv = x.deliv := rfl
@[simp] theorem Core.foundAt_popAt (x : Core) (gs : List Nat) : (x.foundAt gs).popAt = x.popAt := rfl
@[simp] theorem Core.foundAt_agecnt (x : Core) (gs : List Nat) : (x.foundAt gs).agecnt = x.agecnt := rfl
@[simp] theorem Core.foundAt_decided (x : Core) (gs : List Nat) : (x.foundAt gs).decided = x.decided := rfl
@[simp] theorem Core.foundAt_idleAt (x : Core) (gs : List Nat) : (x.foundAt gs).idleAt = x.idleAt := rfl
@[simp] theorem Core.foundAt_busyAt (x : Core) (gs : List Nat) : (x.foundAt gs).busyAt = x.busyAt := rfl

@[simp] theorem Core.fillS_c (x : Core) (ctx r id : Nat) (v : Word) : (x.fillS ctx r id v).c = x.c := by
  unfold Core.fillS; split <;> simp
@[simp] theorem Core.fillS_q (x : Core) (ctx r id : Nat) (v : Word) : (x.fillS ctx r id v).q = x.q := by
  unfold Core.fillS; split <;> simp
@[simp] theorem Core.fillS_v (x : Core) (ctx r id : Nat) (v : Word) : (x.fillS ctx r id v).v = x.v := by
  unfold Core.fillS; split <;> simp
@[simp] theorem Core.fillS_code (x : Core) (ctx r id : Nat) (v : Word) : (x.fillS ctx r id v).code = x.code := by
  unfold Core.fillS; split <;> simp
@[simp] theorem Core.fillS_acc (x : Core) (ctx r id : Nat) (v : Word) : (x.fillS ctx r id v).acc = x.acc := by
  unfold Core.fillS; split <;> simp
@[simp] theorem Core.fillS_wins (x : Core) (ctx r id : Nat) (v : Word) : (x.fillS ctx r id v).wins = x.wins := by
  unfold Core.fillS; split <;> simp
@[simp] theorem Core.fillS_stash (x : Core) (ctx r id : Nat) (v : Word) : (x.fillS ctx r id v).stash = x.stash := by
  unfold Core.fillS; split <;> simp
@[simp] theorem Core.fillS_unacked (x : Core) (ctx r id : Nat) (v : Word) : (x.fillS ctx r id v).unacked = x.unacked := by
  unfold Core.fillS; split <;> simp
@[simp] theorem Core.fillS_tlb (x : Core) (ctx r id : Nat) (v : Word) : (x.fillS ctx r id v).tlb = x.tlb := by
  unfold Core.fillS; split <;> simp
@[simp] theorem Core.fillS_tcache (x : Core) (ctx r id : Nat) (v : Word) : (x.fillS ctx r id v).tcache = x.tcache := by
  unfold Core.fillS; split <;> simp
@[simp] theorem Core.fillS_task (x : Core) (ctx r id : Nat) (v : Word) : (x.fillS ctx r id v).task = x.task := by
  unfold Core.fillS; split <;> simp
@[simp] theorem Core.fillS_lastAsid (x : Core) (ctx r id : Nat) (v : Word) : (x.fillS ctx r id v).lastAsid = x.lastAsid := by
  unfold Core.fillS; split <;> simp
@[simp] theorem Core.fillS_taken (x : Core) (ctx r id : Nat) (v : Word) : (x.fillS ctx r id v).taken = x.taken := by
  unfold Core.fillS; split <;> simp
@[simp] theorem Core.fillS_deliv (x : Core) (ctx r id : Nat) (v : Word) : (x.fillS ctx r id v).deliv = x.deliv := by
  unfold Core.fillS; split <;> simp
@[simp] theorem Core.fillS_popAt (x : Core) (ctx r id : Nat) (v : Word) : (x.fillS ctx r id v).popAt = x.popAt := by
  unfold Core.fillS; split <;> simp
@[simp] theorem Core.fillS_agecnt (x : Core) (ctx r id : Nat) (v : Word) : (x.fillS ctx r id v).agecnt = x.agecnt := by
  unfold Core.fillS; split <;> simp
@[simp] theorem Core.fillS_decided (x : Core) (ctx r id : Nat) (v : Word) : (x.fillS ctx r id v).decided = x.decided := by
  unfold Core.fillS; split <;> simp
@[simp] theorem Core.fillS_idleAt (x : Core) (ctx r id : Nat) (v : Word) : (x.fillS ctx r id v).idleAt = x.idleAt := by
  unfold Core.fillS; split <;> simp
@[simp] theorem Core.fillS_busyAt (x : Core) (ctx r id : Nat) (v : Word) : (x.fillS ctx r id v).busyAt = x.busyAt := by
  unfold Core.fillS; split <;> simp

@[simp] theorem Core.fillK_c (x : Core) (ctx r id : Nat) (t : Token) : (x.fillK ctx r id t).c = x.c := by
  unfold Core.fillK; split <;> simp
@[simp] theorem Core.fillK_q (x : Core) (ctx r id : Nat) (t : Token) : (x.fillK ctx r id t).q = x.q := by
  unfold Core.fillK; split <;> simp
@[simp] theorem Core.fillK_v (x : Core) (ctx r id : Nat) (t : Token) : (x.fillK ctx r id t).v = x.v := by
  unfold Core.fillK; split <;> simp
@[simp] theorem Core.fillK_e (x : Core) (ctx r id : Nat) (t : Token) : (x.fillK ctx r id t).e = x.e := by
  unfold Core.fillK; split <;> simp
@[simp] theorem Core.fillK_code (x : Core) (ctx r id : Nat) (t : Token) : (x.fillK ctx r id t).code = x.code := by
  unfold Core.fillK; split <;> simp
@[simp] theorem Core.fillK_acc (x : Core) (ctx r id : Nat) (t : Token) : (x.fillK ctx r id t).acc = x.acc := by
  unfold Core.fillK; split <;> simp
@[simp] theorem Core.fillK_wins (x : Core) (ctx r id : Nat) (t : Token) : (x.fillK ctx r id t).wins = x.wins := by
  unfold Core.fillK; split <;> simp
@[simp] theorem Core.fillK_stash (x : Core) (ctx r id : Nat) (t : Token) : (x.fillK ctx r id t).stash = x.stash := by
  unfold Core.fillK; split <;> simp
@[simp] theorem Core.fillK_unacked (x : Core) (ctx r id : Nat) (t : Token) : (x.fillK ctx r id t).unacked = x.unacked := by
  unfold Core.fillK; split <;> simp
@[simp] theorem Core.fillK_tlb (x : Core) (ctx r id : Nat) (t : Token) : (x.fillK ctx r id t).tlb = x.tlb := by
  unfold Core.fillK; split <;> simp
@[simp] theorem Core.fillK_tcache (x : Core) (ctx r id : Nat) (t : Token) : (x.fillK ctx r id t).tcache = x.tcache := by
  unfold Core.fillK; split <;> simp
@[simp] theorem Core.fillK_task (x : Core) (ctx r id : Nat) (t : Token) : (x.fillK ctx r id t).task = x.task := by
  unfold Core.fillK; split <;> simp
@[simp] theorem Core.fillK_lastAsid (x : Core) (ctx r id : Nat) (t : Token) : (x.fillK ctx r id t).lastAsid = x.lastAsid := by
  unfold Core.fillK; split <;> simp
@[simp] theorem Core.fillK_taken (x : Core) (ctx r id : Nat) (t : Token) : (x.fillK ctx r id t).taken = x.taken := by
  unfold Core.fillK; split <;> simp
@[simp] theorem Core.fillK_deliv (x : Core) (ctx r id : Nat) (t : Token) : (x.fillK ctx r id t).deliv = x.deliv := by
  unfold Core.fillK; split <;> simp
@[simp] theorem Core.fillK_popAt (x : Core) (ctx r id : Nat) (t : Token) : (x.fillK ctx r id t).popAt = x.popAt := by
  unfold Core.fillK; split <;> simp
@[simp] theorem Core.fillK_agecnt (x : Core) (ctx r id : Nat) (t : Token) : (x.fillK ctx r id t).agecnt = x.agecnt := by
  unfold Core.fillK; split <;> simp
@[simp] theorem Core.fillK_decided (x : Core) (ctx r id : Nat) (t : Token) : (x.fillK ctx r id t).decided = x.decided := by
  unfold Core.fillK; split <;> simp
@[simp] theorem Core.fillK_idleAt (x : Core) (ctx r id : Nat) (t : Token) : (x.fillK ctx r id t).idleAt = x.idleAt := by
  unfold Core.fillK; split <;> simp
@[simp] theorem Core.fillK_busyAt (x : Core) (ctx r id : Nat) (t : Token) : (x.fillK ctx r id t).busyAt = x.busyAt := by
  unfold Core.fillK; split <;> simp

end Sys2Proof.Machine
end

