-- ==== Sys2Proof/Laws/Ops.lean ====
section
/-! SUPPORT. What the named operations of Machine/Ops.lean and Machine/Operands.lean do, said once: registers read as they were
written, cores stay apart, and what issuing a word comes to. -/

namespace Sys2Proof.Machine

/-! ### Cores -/

@[simp] theorem State.core_setCore_same (s : State) (c : Nat) (x : Core) : (s.setCore c x).core c = x := by
  simp [State.core, State.setCore]

theorem State.core_setCore_other (s : State) {c d : Nat} (x : Core) (h : d ≠ c) : (s.setCore c x).core d = s.core d := by
  simp [State.core, State.setCore, Sparse.get_set_other _ _ _ h]

@[simp] theorem State.core_mod_same (s : State) (c : Nat) (f : Core → Core) : (s.mod c f).core c = f (s.core c) := by
  simp [State.mod]

theorem State.core_mod_other (s : State) {c d : Nat} (f : Core → Core) (h : d ≠ c) : (s.mod c f).core d = s.core d := by
  simp [State.mod, State.core_setCore_other _ _ h]

@[simp] theorem State.core_upd (s : State) (f : Core → Core) : (s.upd f).core s.cur = f s.me := by
  simp [State.upd, State.me]

theorem State.core_upd_other (s : State) {d : Nat} (f : Core → Core) (h : d ≠ s.cur) : (s.upd f).core d = s.core d :=
  State.core_mod_other s f h

@[simp] theorem State.me_upd (s : State) (f : Core → Core) : (s.upd f).me = f s.me := by
  simp [State.me]

@[simp] theorem State.byte_upd (s : State) (f : Core → Core) (pa : Nat) : (s.upd f).byte pa = s.byte pa := rfl

@[simp] theorem State.byte_mod (s : State) (c : Nat) (f : Core → Core) (pa : Nat) : (s.mod c f).byte pa = s.byte pa := rfl

/-- A change of the running core changes nothing else. -/
theorem State.upd_only (s : State) (f : Core → Core) : OnlyCore s.cur s (s.upd f) where
  rest := rfl
  others := fun _ h => State.core_upd_other s f h
  bytes := fun _ => rfl

/-- A change of core `c` changes nothing else. -/
theorem State.mod_only (s : State) (c : Nat) (f : Core → Core) : OnlyCore c s (s.mod c f) where
  rest := rfl
  others := fun _ h => State.core_mod_other s f h
  bytes := fun _ => rfl

theorem OnlyCore.trans {c : Nat} {s t u : State} (a : OnlyCore c s t) (b : OnlyCore c t u) : OnlyCore c s u where
  rest := by rw [b.rest, a.rest]
  others := fun d h => (b.others d h).trans (a.others d h)
  bytes := fun pa => (b.bytes pa).trans (a.bytes pa)

/-! ### Scalars and tokens -/

theorem sKey_ne {k ctx r d : Nat} (hr : r < 64) (hd : d < 64) (h : ¬(k = ctx ∧ r = d)) : sKey k r ≠ sKey ctx d := by
  unfold sKey
  omega

theorem kKey_ne {k ctx r d : Nat} (hr : r < 32) (hd : d < 32) (h : ¬(k = ctx ∧ r = d)) : kKey k r ≠ kKey ctx d := by
  unfold kKey
  omega

theorem Core.rdS_zero (x : Core) (ctx : Nat) : x.rdS ctx 0 = 0#64 := rfl

theorem Core.rdS_wrS_same (x : Core) (ctx d : Nat) (v : Word) : (x.wrS ctx d v).rdS ctx d = if d = 0 then 0#64 else v := by
  by_cases h : d = 0
  · simp [Core.rdS, h]
  · simp [Core.wrS, Core.rdS, h]

theorem Core.sMarks_wrS_same (x : Core) (ctx d : Nat) (v : Word) : (x.wrS ctx d v).sMarks ctx d = [] := by
  by_cases h : d = 0
  · simp [Core.sMarks, h]
  · simp [Core.wrS, Core.sMarks, h]

theorem Core.rdS_wrS_other (x : Core) {k ctx r d : Nat} (v : Word) (hr : r < 64) (hd : d < 64) (h : ¬(k = ctx ∧ r = d)) :
    (x.wrS ctx d v).rdS k r = x.rdS k r := by
  by_cases h0 : d = 0
  · simp [Core.wrS, h0]
  · by_cases h1 : r = 0
    · simp [Core.rdS, h1]
    · simp only [Core.wrS, Core.rdS, h0, h1, if_false]
      apply Sparse.get_set_other
      exact sKey_ne hr hd h

theorem Core.sMarks_wrS_other (x : Core) {k ctx r d : Nat} (v : Word) (hr : r < 64) (hd : d < 64) (h : ¬(k = ctx ∧ r = d)) :
    (x.wrS ctx d v).sMarks k r = x.sMarks k r := by
  by_cases h0 : d = 0
  · simp [Core.wrS, h0]
  · by_cases h1 : r = 0
    · simp [Core.sMarks, h1]
    · simp only [Core.wrS, Core.sMarks, h0, h1, if_false]
      apply Sparse.get_set_other
      exact sKey_ne hr hd h

/-- Writing a scalar keeps the other registers. -/
theorem Core.wrS_kept (x : Core) (ctx : Nat) {d : Nat} (v : Word) (hd : d < 64) : ScalarsKept x (x.wrS ctx d v) ctx [d] where
  scalars := fun k r hr h => by
    simp only [List.mem_singleton] at h
    exact ⟨Core.rdS_wrS_other x v hr hd h, Core.sMarks_wrS_other x v hr hd h⟩
  tokens := by unfold Core.wrS; split <;> exact ⟨rfl, rfl⟩
  vectors := by unfold Core.wrS; split <;> exact ⟨rfl, rfl⟩
  predicates := by unfold Core.wrS; split <;> rfl
  masks := by unfold Core.wrS; split <;> rfl
  marks := fun g h => by
    unfold Core.wrS
    split
    · rfl
    · exact Sparse.get_set_other (0 : Nat) x.r.bad 0 (h d (List.mem_singleton.mpr rfl))

theorem ScalarsKept.of_r {x y z : Core} {ctx : Nat} {ds : List Nat} (h : ScalarsKept x y ctx ds) (e : z.r = y.r) :
    ScalarsKept x z ctx ds where
  scalars := fun k r hr hn => by
    have := h.scalars k r hr hn
    simpa [Core.rdS, Core.sMarks, e] using this
  tokens := by rw [e]; exact h.tokens
  vectors := by rw [e]; exact h.vectors
  predicates := by rw [e]; exact h.predicates
  masks := by rw [e]; exact h.masks
  marks := by rw [e]; exact h.marks

theorem ScalarsKept.refl (x : Core) (ctx : Nat) (ds : List Nat) : ScalarsKept x x ctx ds :=
  ⟨fun _ _ _ _ => ⟨rfl, rfl⟩, ⟨rfl, rfl⟩, ⟨rfl, rfl⟩, rfl, rfl, fun _ _ => rfl⟩

/-! ### Where a context stands -/

theorem Seq.fall_kept (fuel l : Nat) (q : Seq) (top : Nat) :
    Seq.fall fuel l q top = { q with pc := (Seq.fall fuel l q top).pc, loops := (Seq.fall fuel l q top).loops,
                                     point := (Seq.fall fuel l q top).point } := by
  have close : ∀ (q : Seq) (n : Nat), q.closeTo n = { q with loops := (q.closeTo n).loops } := by
    intro q n
    unfold Seq.closeTo
    generalize List.range (n + 1) = l
    induction l generalizing q with
    | nil => rfl
    | cons a l ih =>
      simp only [List.foldl_cons]
      rw [ih]
      rfl
  induction fuel generalizing l q with
  | zero => rfl
  | succ n ih =>
    unfold Seq.fall
    dsimp only
    split
    · split
      · rfl
      · rw [ih, close]
    · rw [ih]

/-- Moving past a word changes where the context stands and nothing else of its core's sequencers. -/
theorem Core.next_place (x : Core) (ctx n : Nat) :
    (x.next ctx n).q = { x.q with pc := (x.next ctx n).q.pc, loops := (x.next ctx n).q.loops, nid := (x.next ctx n).q.nid,
                                  point := (x.next ctx n).q.point, hold := (x.next ctx n).q.hold, h := (x.next ctx n).q.h } := by
  unfold Core.next Seq.past Seq.leave
  by_cases h : ctx = 0
  · subst h
    simp only [ne_eq, not_true_eq_false, if_false, if_true]
    split
    · rfl
    · rw [Seq.fall_kept]; rfl
  · simp only [ne_eq, h, not_false_eq_true, if_true, if_false]
    unfold Seq.setPc
    simp only [h, if_false]
    rfl

theorem CoreKept.next {x y : Core} (h : CoreKept x y) (ctx n : Nat) : CoreKept x (y.next ctx n) where
  rest := by
    have := h.rest
    calc y.next ctx n = { y with q := (y.next ctx n).q } := rfl
      _ = _ := by rw [this]; rfl
  engines := h.engines
  place := by
    have h1 := Core.next_place y ctx n
    have h2 := h.place
    rw [h1, h2]

theorem CoreKept.refl (x : Core) : CoreKept x x := ⟨rfl, rfl, rfl⟩

theorem Core.touch_kept (x : Core) (ctx : Nat) (l : List Src) : CoreKept x (x.touch ctx l) := ⟨rfl, rfl, rfl⟩

theorem CoreKept.wrS {x y : Core} (h : CoreKept x y) (ctx d : Nat) (v : Word) : CoreKept x (y.wrS ctx d v) where
  rest := by
    rw [show y.wrS ctx d v = { y with r := (y.wrS ctx d v).r, e := (y.wrS ctx d v).e } from by
      unfold Core.wrS; split <;> rfl]
    rw [h.rest]
  engines := by
    have : (y.wrS ctx d v).e = { y.e with mxfault := (y.wrS ctx d v).e.mxfault } := by unfold Core.wrS; split <;> rfl
    rw [this, h.engines]
  place := by rw [Core.wrS_q]; exact h.place

theorem Seq.fall_stays (q : Seq) (top : Nat) (h : ∀ l, l < 6 → (q.loop l).act = false ∨ (q.loop l).last ≠ top) :
    (Seq.fall 6 0 q top).pc = top + 1 := by
  have step : ∀ fuel l, l + fuel = 6 → (Seq.fall fuel l q top).pc = top + 1 := by
    intro fuel
    induction fuel with
    | zero => intro l _; rfl
    | succ n ih =>
      intro l hl
      unfold Seq.fall
      dsimp only
      have hb : ((q.loop l).act && (q.loop l).last == top) = false := by
        rcases h l (by omega) with e | e <;> simp [e]
      rw [hb]
      simpa using ih (l + 1) (by omega)
  exact step 6 0 rfl

/-- Where no loop level ends with the word, the context stands at the word after it. -/
theorem Core.next_pc (x : Core) (ctx n : Nat) (hn : 0 < n)
    (h : ctx ≠ 0 ∨ x.q.tact = true ∨ ∀ l, l < 6 → (x.q.loop l).act = false ∨ (x.q.loop l).last ≠ x.q.pcOf ctx + n - 1) :
    (x.next ctx n).q.pcOf ctx = x.q.pcOf ctx + n := by
  unfold Core.next Seq.past Seq.leave
  by_cases hc : ctx = 0
  · subst hc
    simp only [ne_eq, not_true_eq_false, if_false, if_true, false_or] at h ⊢
    have e : x.q.pcOf 0 = x.q.pc := rfl
    rw [e] at h ⊢
    by_cases ht : x.q.tact = true
    · simp [ht, Seq.pcOf, Seq.setHold]; omega
    · simp only [ht, if_false, false_or, Bool.false_eq_true] at h ⊢
      have := Seq.fall_stays { x.q with point := 0 } (x.q.pc + n - 1) h
      simp only [Seq.pcOf, Seq.setHold, if_true]
      dsimp only at this ⊢
      simp only [Bool.not_eq_true] at ht
      simp only [ht] at this
      omega
  · simp only [ne_eq, hc, not_false_eq_true, if_true, if_false]
    simp [Seq.pcOf, Seq.setPc, Seq.setHold, hc, Seq.hctx, Seq.setH]
    omega

/-! ### Clocks -/

@[simp] theorem State.passClocks_zero (s : State) : State.passClocks 0 s = s := rfl

theorem State.passClocks_succ (n : Nat) (s : State) : State.passClocks (n + 1) s = State.passClocks n s.passClock := rfl

/-! ### Issue -/

theorem Core.fetch_full (x : Core) (ctx : Nat) (l : List Src) (h : ∀ r ∈ l, x.full ctx r = true) : x.fetch ctx l = .ok := by
  have h1 : l.any (fun r => !r.fe && !x.full ctx r) = false := by
    simp only [List.any_eq_false, Bool.and_eq_true, Bool.not_eq_true', not_and, Bool.not_eq_false]
    exact fun r hr _ => h r hr
  have h2 : l.find? (fun r => !x.full ctx r) = none := by
    simp only [List.find?_eq_none, Bool.not_eq_true', Bool.not_eq_false]
    exact fun r hr => h r hr
  simp [Core.fetch, h1, h2]

/-- Granules that hold no bad data have no mark among them. -/
theorem Core.markAt_clean (x : Core) (gs : List Nat) (h : ∀ g ∈ gs, Sparse.get 0 x.r.bad g = 0) : x.markAt gs = 0 := by
  have : (gs.map (Sparse.get 0 x.r.bad)).find? (· != 0) = none := by
    simp only [List.find?_eq_none, List.mem_map, bne_iff_ne, ne_eq, not_not]
    rintro _ ⟨g, hg, rfl⟩
    exact h g hg
  simp [Core.markAt, this]

/-- A word that may issue does so: its effect follows, on the state in which its sources have been read. -/
theorem issue_ready {i : Instr} {l : List Src} {s : State} (h : MayIssue i l s) (body : State → Out) :
    issue i s l body = body (s.upd (fun x => x.touch s.ctx l)) := by
  have ha : ¬(s.ctx ≠ 0 ∧ (!handlerOk i) = true) := by
    rintro ⟨h1, h2⟩
    rcases h.allowed with e | e
    · exact h1 e
    · simp [e] at h2
  unfold issue
  simp only [h.runs, Bool.not_true, Bool.false_eq_true, if_false, ha, Core.fetch_full _ _ _ h.full,
    Core.markAt_clean _ _ h.sound, ne_eq, not_true_eq_false]

/-- Everything that issuing a word can come to: its context waits, a trap is taken, bad data it consumes is contained, or its effect
follows (R48, R95, R102, R339). -/
theorem issue_cases (i : Instr) (s : State) (l : List Src) (body : State → Out) :
    issue i s l body = stall s ∨ issue i s l body = illegal i s ∨ (∃ r, issue i s l body = trap s 2 r) ∨
      issue i s l body = s.sourceContained i (consumed i s.ctx l) ∨
      (s.runs = true ∧ issue i s l body = body (s.upd (fun x => x.touch s.ctx l))) := by
  unfold issue
  split
  · exact .inl rfl
  · next hr =>
    split
    · exact .inr (.inl rfl)
    · split
      · exact .inl rfl
      · exact .inr (.inr (.inl ⟨_, rfl⟩))
      · split
        · exact .inr (.inr (.inr (.inl rfl)))
        · exact .inr (.inr (.inr (.inr ⟨by simpa using hr, rfl⟩)))

/-! ### Writing a scalar -/

@[simp] theorem Core.touch_rdS (x : Core) (ctx : Nat) (l : List Src) (k r : Nat) : (x.touch ctx l).rdS k r = x.rdS k r := rfl
@[simp] theorem Core.touch_sMarks (x : Core) (ctx : Nat) (l : List Src) (k r : Nat) :
    (x.touch ctx l).sMarks k r = x.sMarks k r := rfl
@[simp] theorem Core.touch_rdK (x : Core) (ctx : Nat) (l : List Src) (k r : Nat) : (x.touch ctx l).rdK k r = x.rdK k r := rfl
@[simp] theorem Core.next_rdS (x : Core) (ctx n k r : Nat) : (x.next ctx n).rdS k r = x.rdS k r := rfl
@[simp] theorem Core.next_sMarks (x : Core) (ctx n k r : Nat) : (x.next ctx n).sMarks k r = x.sMarks k r := rfl
@[simp] theorem State.sc_upd_touch (s : State) (l : List Src) (r : Nat) :
    (s.upd (fun x => x.touch s.ctx l)).sc r = s.sc r := by
  simp [State.sc]
@[simp] theorem State.tk_upd_touch (s : State) (l : List Src) (r : Nat) :
    (s.upd (fun x => x.touch s.ctx l)).tk r = s.tk r := by
  simp [State.tk]

/-- The one thing that ends most scalar words: a scalar is written, and the context moves past the word. -/
theorem State.ret_writes (s : State) (l : List Src) {d n : Nat} (v : Word) (hd : d < 64) (hn : 0 < n) :
    WritesScalar s ((s.upd (fun x => x.touch s.ctx l)).ret d n v) d v ∧
      Passes s ((s.upd (fun x => x.touch s.ctx l)).ret d n v) n := by
  have hc : ((s.upd (fun x => x.touch s.ctx l)).ret d n v).core s.cur =
      ((s.me.touch s.ctx l).wrS s.ctx d v).next s.ctx n := by
    have := State.core_upd (s.upd (fun x => x.touch s.ctx l)) (fun x => (x.wrS s.ctx d v).next s.ctx n)
    simpa [State.ret] using this
  refine ⟨⟨?_, ?_, ?_, ?_, ?_⟩, ?_⟩
  · exact OnlyCore.trans (State.upd_only s (fun x => x.touch s.ctx l))
      (State.upd_only (s.upd (fun x => x.touch s.ctx l)) (fun x => (x.wrS s.ctx d v).next s.ctx n))
  · rw [hc]; exact CoreKept.next (CoreKept.wrS (Core.touch_kept _ _ _) _ _ _) _ _
  · rw [hc]
    have h : ScalarsKept s.me ((s.me.touch s.ctx l).wrS s.ctx d v) s.ctx [d] := by
      obtain ⟨a, b, c, e, f, g⟩ := Core.wrS_kept (s.me.touch s.ctx l) s.ctx v hd
      exact ⟨a, b, c, e, f, g⟩
    exact ScalarsKept.of_r h rfl
  · rw [hc]; simp [Core.rdS_wrS_same]
  · rw [hc]; simp [Core.sMarks_wrS_same]
  · intro h
    rw [hc]
    have := Core.next_pc ((s.me.touch s.ctx l).wrS s.ctx d v) s.ctx n hn (by simpa using h)
    simpa using this

end Sys2Proof.Machine
end

