-- ==== Sys2Proof/Laws/Memory.lean ====
section
/-! SUPPORT. The shared memory operations, said once: what a byte reads as after a byte is written, and that every operation that
writes memory keeps its canonical form. -/

namespace Sys2Proof.Machine

/-- A predicate that each step of a fold keeps is kept by the fold. -/
theorem foldl_keeps {α β : Type} (P : β → Prop) (f : β → α → β) (h : ∀ t x, P t → P (f t x)) (l : List α) :
    ∀ t, P t → P (l.foldl f t) := by
  induction l with
  | nil => intro t ht; exact ht
  | cons a l ih => intro t ht; exact ih _ (h t a ht)

/-- A state function that each step of a fold leaves alone is left alone by the fold. -/
theorem foldl_same {α β γ : Type} (g : β → γ) (f : β → α → β) (h : ∀ t x, g (f t x) = g t) (l : List α) (t : β) :
    g (l.foldl f t) = g t :=
  foldl_keeps (fun u => g u = g t) f (fun u x hu => (h u x).trans hu) l t rfl

/-! ### One byte -/

theorem State.byte_putByte (s : State) (pa : Nat) (b : Byte) (who : Nat × Nat) (q : Nat) :
    (s.putByte pa b who).byte q = if q = pa then b else s.byte q := by
  by_cases hq : q = pa
  · rw [if_pos hq, hq]; exact Sparse.get_set_same _ _ _ _
  · rw [if_neg hq]; exact Sparse.get_set_other _ _ _ hq

theorem State.putByte_canonical {s : State} (pa : Nat) (b : Byte) (who : Nat × Nat) (h : MemoryCanonical s) :
    MemoryCanonical (s.putByte pa b who) := Sparse.wf_set pa b h

/-- The canonical form says only something about the bytes' list. -/
theorem canonical_of_mem {s t : State} (h : MemoryCanonical s) (e : t.mem = s.mem) : MemoryCanonical t := by
  unfold MemoryCanonical; rw [e]; exact h

/-- Bytes written to addresses of a list leave every other address alone. -/
theorem State.putBytes_other (l : List (Nat × Byte)) (w : Nat → Nat × Nat) (q : Nat) (hq : q ∉ l.map Prod.fst) :
    ∀ s : State, (l.foldl (fun t p => t.putByte p.1 p.2 (w p.1)) s).byte q = s.byte q := by
  induction l with
  | nil => intro s; rfl
  | cons a l ih =>
    intro s
    simp only [List.map_cons, List.mem_cons, not_or] at hq
    rw [List.foldl_cons, ih hq.2, State.byte_putByte, if_neg hq.1]

/-! ### Home slices and the stash -/

@[simp] theorem State.bdeckTouched_mem (s : State) (pa : Nat) : (s.bdeckTouched pa).mem = s.mem := by
  unfold State.bdeckTouched
  split
  · dsimp only; split <;> rfl
  · rfl

@[simp] theorem State.granuleWritten_mem (s : State) (pas : List Nat) (g : Nat) : (s.granuleWritten pas g).mem = s.mem := by
  unfold State.granuleWritten
  dsimp only
  split
  · rfl
  · split <;> rfl

@[simp] theorem State.copiesWritten_mem (s : State) (pas : List Nat) : (s.copiesWritten pas).mem = s.mem := by
  unfold State.copiesWritten
  refine foldl_same State.mem _ (fun t g => ?_) _ s
  rfl

@[simp] theorem State.modAll_mem (s : State) (f : Nat → Core → Core) : (s.modAll f).mem = s.mem :=
  foldl_same State.mem (fun (t : State) (c : Nat) => t.mod c (f c)) (fun t c => State.mod_mem t c _) _ s

@[simp] theorem State.wake_mem (s : State) (pas : List Nat) : (s.wake pas).mem = s.mem := by
  unfold State.wake
  exact State.modAll_mem _ _

@[simp] theorem State.corrected_mem (s : State) (u : Nat) : (s.corrected u).mem = s.mem := rfl
@[simp] theorem State.uncorrected_mem (s : State) (u : Nat) : (s.uncorrected u).mem = s.mem := rfl

theorem State.homeApply_canonical {s : State} (bytes : List (Nat × Byte)) (bad : List (Nat × Nat)) (au : Author)
    (h : MemoryCanonical s) : MemoryCanonical (s.homeApply bytes bad au) := by
  unfold State.homeApply
  dsimp only
  refine canonical_of_mem ?_ ((State.wake_mem _ _).trans (State.copiesWritten_mem _ _))
  refine canonical_of_mem (s := List.foldl _ (State.leaveMsg _ _ _) _) ?_ rfl
  refine foldl_keeps MemoryCanonical _ (fun t g ht => canonical_of_mem ht (State.granuleWritten_mem _ _ _)) _ _ ?_
  refine foldl_keeps MemoryCanonical _
    (fun t p ht => canonical_of_mem (State.putByte_canonical p.1 p.2 _ ht) (State.bdeckTouched_mem _ _)) _ _ ?_
  exact canonical_of_mem h rfl

theorem State.homeLine_canonical {s : State} (ln : Nat) (l : Line) (h : MemoryCanonical s) : MemoryCanonical (s.homeLine ln l) := by
  unfold State.homeLine
  dsimp only
  refine canonical_of_mem (s := State.homeApply _ _ _ _) ?_ rfl
  refine State.homeApply_canonical _ _ _ ?_
  exact foldl_keeps MemoryCanonical _ (fun t u ht => canonical_of_mem ht (State.uncorrected_mem t u)) _ _ h

theorem State.pull_canonical {s : State} (ln c : Nat) (h : MemoryCanonical s) : MemoryCanonical (s.pull ln c) := by
  unfold State.pull
  dsimp only
  split
  · exact h
  · have ht : MemoryCanonical (s.mod c (fun x => x.setLine ln {})) := canonical_of_mem h (State.mod_mem _ _ _)
    split
    · exact ht
    · exact State.homeLine_canonical _ _ ht

theorem State.pullLine_canonical {s : State} (ln : Nat) (h : MemoryCanonical s) : MemoryCanonical (s.pullLine ln) :=
  foldl_keeps MemoryCanonical _ (fun _ _ ht => State.pull_canonical _ _ ht) _ _ h

theorem State.pullFor_canonical {s : State} (pas : List Nat) (h : MemoryCanonical s) : MemoryCanonical (s.pullFor pas) :=
  foldl_keeps MemoryCanonical _ (fun _ _ ht => State.pullLine_canonical _ ht) _ _ h

theorem State.homeWrite_canonical {s : State} (bytes : List (Nat × Byte)) (bad : List (Nat × Nat)) (au : Author)
    (h : MemoryCanonical s) : MemoryCanonical (s.homeWrite bytes bad au) := by
  unfold State.homeWrite
  exact State.homeApply_canonical _ _ _ (State.pullFor_canonical _ h)

theorem State.bypass_canonical {s : State} (c : Nat) (pas : List Nat) (h : MemoryCanonical s) : MemoryCanonical (s.bypass c pas) := by
  refine foldl_keeps MemoryCanonical _ (fun t ln ht => ?_) _ _ h
  split
  · exact ht
  · exact State.homeLine_canonical _ _ (State.pullLine_canonical _ (canonical_of_mem ht (State.mod_mem _ _ _)))

theorem State.writeBack_canonical {s : State} (c : Nat) (which : Nat → Bool) (h : MemoryCanonical s) :
    MemoryCanonical (s.writeBack c which) := by
  refine foldl_keeps MemoryCanonical _ (fun t p ht => ?_) _ _ h
  split
  · dsimp only
    rw [MemoryCanonical, State.mod_mem]
    refine State.homeLine_canonical _ _ (State.pullLine_canonical _ ?_)
    exact canonical_of_mem ht (State.mod_mem _ _ _)
  · exact ht

theorem State.flush_canonical {s : State} (c : Nat) (h : MemoryCanonical s) : MemoryCanonical (s.flush c) :=
  State.writeBack_canonical c _ h

/-! ### Releases -/

@[simp] theorem State.dropPubs_mem (s : State) (c : Nat) : (s.dropPubs c).mem = s.mem := rfl

theorem State.release_canonical {s : State} (c id ln scope : Nat) (deferred : Bool) (h : MemoryCanonical s) :
    MemoryCanonical (s.release c id ln scope deferred) := by
  have hf := State.flush_canonical c h
  unfold State.release
  dsimp only
  repeat' split
  all_goals first
    | exact canonical_of_mem hf rfl
    | exact canonical_of_mem h rfl

/-! ### What a read finds -/

@[simp] theorem State.find_mem (s : State) (pa : Nat) : (s.find pa).1.mem = s.mem := by
  unfold State.find
  dsimp only
  repeat' split
  all_goals simp

@[simp] theorem State.findAll_mem (l : List Nat) : ∀ s : State, (s.findAll l).1.mem = s.mem := by
  induction l with
  | nil => intro s; rfl
  | cons a l ih =>
    intro s
    have hf := State.find_mem s a
    unfold State.findAll
    split
    · rename_i e; rw [e] at hf; exact hf
    · rename_i e; rw [e] at hf; rw [ih]; exact hf

@[simp] theorem State.marksOf_mem (s : State) (pas : List Nat) : (s.marksOf pas).1.mem = s.mem := by
  unfold State.marksOf
  refine foldl_same (fun p : State × List (Nat × Nat) => p.1.mem) _ (fun acc p => ?_) _ (s, [])
  have hf := State.find_mem acc.1 p.1
  split
  · rename_i e
    rw [e] at hf
    split <;> exact hf
  · rename_i e
    rw [e] at hf
    exact hf

/-! ### Filling and writing a stash -/

@[simp] theorem State.fillSector_mem (s : State) (c ln sec : Nat) : (s.fillSector c ln sec).mem = s.mem := by
  unfold State.fillSector
  dsimp only
  split
  · rfl
  · rw [State.mod_mem, State.marksOf_mem]

@[simp] theorem State.fillLine_mem (s : State) (c ln : Nat) : (s.fillLine c ln).mem = s.mem :=
  foldl_same State.mem _ (fun t sec => State.fillSector_mem t c ln sec) _ s

@[simp] theorem State.fillFor_mem (s : State) (c : Nat) (pas : List Nat) : (s.fillFor c pas).mem = s.mem := by
  refine foldl_same State.mem _ (fun t ln => ?_) _ s
  split <;> simp

@[simp] theorem State.mergeSector_mem (s : State) (c ln sec : Nat) : (s.mergeSector c ln sec).mem = s.mem := by
  unfold State.mergeSector
  dsimp only
  split <;> simp

@[simp] theorem State.stashWrite_mem (s : State) (c : Nat) (bytes : List (Nat × Byte)) (bad : List (Nat × Nat)) (au : Author) :
    (s.stashWrite c bytes bad au).mem = s.mem := by
  unfold State.stashWrite
  dsimp only
  refine (foldl_same State.mem _ (fun t p => State.mod_mem t _ _) _ _).trans ?_
  refine (foldl_same State.mem _ (fun t p => State.mod_mem t _ _) _ _).trans ?_
  refine foldl_same State.mem _ (fun t sec => ?_) _ s
  split <;> simp

@[simp] theorem State.findStash_mem (s : State) (c pa : Nat) : (s.findStash c pa).1.mem = s.mem := by
  unfold State.findStash
  dsimp only
  repeat' split
  all_goals simp

@[simp] theorem State.consume_mem (c ctx id : Nat) (home : Bool) (l : List Nat) :
    ∀ s : State, (s.consume c ctx id home l).1.mem = s.mem := by
  induction l with
  | nil => intro s; rfl
  | cons a l ih =>
    intro s
    have hr : ∀ r : State × Option (Nat × Nat), r.1.mem = s.mem →
        ((match r with
          | (t, some e) => (t, some e)
          | (t, none) => State.consume t c ctx id home l) : State × Option (Nat × Nat)).1.mem = s.mem := by
      rintro ⟨t, e⟩ h
      cases e with
      | none => exact (ih t).trans h
      | some e => exact h
    unfold State.consume
    refine hr _ ?_
    split
    · exact State.find_mem s a
    · split
      · rfl
      · rfl
      · split
        · exact State.findStash_mem _ _ _
        · exact State.find_mem s a

@[simp] theorem State.hear_mem (s : State) (c ctx kind : Nat) (acq : Bool) (scope : Nat) (pas : List Nat) (at' : Option Nat) :
    (s.hear c ctx kind acq scope pas at').mem = s.mem := by
  have key : ∀ (t : State) (h : Hb), t.mem = s.mem → (if h = s.hbOf c ctx then t else t.hbMod c ctx (fun _ => h)).mem = s.mem := by
    intro t h e
    split <;> exact e
  refine key _ _ ?_
  split <;> rfl

@[simp] theorem State.loaded_mem (s : State) (c ctx id kind : Nat) (home acq : Bool) (scope : Nat) (floor : Option Nat)
    (pas : List Nat) : (s.loaded c ctx id kind home acq scope floor pas).1.mem = s.mem := State.hear_mem _ _ _ _ _ _ _ _

@[simp] theorem State.noteUnit_mem (s : State) (u : Nat) : (s.noteUnit u).mem = s.mem := by
  unfold State.noteUnit
  dsimp only
  repeat' split
  all_goals rfl

@[simp] theorem State.contain_mem (s : State) (c ctx kind source unit idx clk : Nat) (vec : Bool) (q : Nat) :
    (s.contain c ctx kind source unit idx clk vec q).mem = s.mem := by
  unfold State.contain
  simp

/-! ### Accesses and engines -/

theorem State.farStores_mem (s : State) (c id : Nat) (pas : List Nat) : (s.farStores c id pas).mem = s.mem := by
  unfold State.farStores
  dsimp only
  split <;> rfl

theorem State.homeStore_canonical {s : State} (c id : Nat) (bytes : List (Nat × Byte)) (bad : List (Nat × Nat)) (au : Author)
    (h : MemoryCanonical s) : MemoryCanonical (s.homeStore c id bytes bad au) :=
  canonical_of_mem (State.homeWrite_canonical bytes bad au (State.bypass_canonical c (bytes.map Prod.fst) h))
    (State.farStores_mem _ _ _ _)

theorem State.releaseAt_canonical {s : State} (c n ln scope : Nat) (deferred : Bool) (h : MemoryCanonical s) :
    MemoryCanonical (s.releaseAt c n ln scope deferred) := by
  have ht := State.release_canonical c n ln scope deferred h
  unfold State.releaseAt
  dsimp only
  split
  · exact canonical_of_mem ht rfl
  · exact ht

theorem State.relWork_canonical {s : State} (c : Nat) (a : Acc) (h : MemoryCanonical s) : MemoryCanonical (s.relWork c a) := by
  unfold State.relWork
  split
  · exact State.releaseAt_canonical _ _ _ _ _ h
  · exact h

theorem State.storeBytes_canonical {s : State} (c : Nat) (a : Acc) (bytes : List (Nat × Byte)) (bad : List (Nat × Nat))
    (h : MemoryCanonical s) : MemoryCanonical (s.storeBytes c a bytes bad) := by
  have ht := State.relWork_canonical c a h
  unfold State.storeBytes
  dsimp only
  split
  · have hu : ∀ inn : List (Nat × Byte), MemoryCanonical (if inn = [] then s.relWork c a
        else (s.relWork c a).stashWrite c inn bad ((s.relWork c a).author c a false)) := by
      intro inn
      split
      · exact ht
      · exact canonical_of_mem ht (State.stashWrite_mem _ _ _ _ _)
    split
    · exact hu _
    · exact State.homeStore_canonical _ _ _ _ _ (hu _)
  · split
    · exact canonical_of_mem ht (State.stashWrite_mem _ _ _ _ _)
    · exact State.homeStore_canonical _ _ _ _ _ ht

theorem State.rmw_canonical {s : State} (c : Nat) (a : Acc) (h : MemoryCanonical s) : MemoryCanonical (s.rmw c a).1 := by
  have ht : MemoryCanonical ((((s.relWork c a).bypass c a.pas).pullFor a.pas).hear c a.ctx a.tok.kind a.acq a.scope a.pas none) :=
    canonical_of_mem (State.pullFor_canonical _ (State.bypass_canonical c a.pas (State.relWork_canonical c a h)))
      (State.hear_mem _ _ _ _ _ _ _ _)
  unfold State.rmw
  dsimp only
  generalize (((s.relWork c a).bypass c a.pas).pullFor a.pas).hear c a.ctx a.tok.kind a.acq a.scope a.pas none = t at ht ⊢
  have hf : (if a.op = .sigSet then (t, none) else t.findAll a.pas : State × Option (Nat × Nat)).1.mem = t.mem := by
    split
    · rfl
    · exact State.findAll_mem _ _
  split
  · rename_i e; rw [e] at hf; exact canonical_of_mem ht hf
  · rename_i e
    rw [e] at hf
    have hu := canonical_of_mem ht hf
    split
    · split
      · exact hu
      · exact State.homeStore_canonical _ _ _ _ _ hu
    · exact State.homeStore_canonical _ _ _ _ _ hu

@[simp] theorem State.accContained_mem (s : State) (c : Nat) (a : Acc) (e : Nat × Nat) : (s.accContained c a e).mem = s.mem := by
  unfold State.accContained
  split <;> simp

theorem State.loadBytes_canonical {s : State} (c : Nat) (a : Acc) (h : MemoryCanonical s) : MemoryCanonical (s.loadBytes c a) := by
  unfold State.loadBytes
  dsimp only
  generalize (s.core c).atHome a = home
  have ht : MemoryCanonical (if home = true then s.bypass c (a.pas.take a.chunk) else s) := by
    split
    · exact State.bypass_canonical _ _ h
    · exact h
  generalize (if home = true then s.bypass c (a.pas.take a.chunk) else s) = t at ht ⊢
  have hf := State.consume_mem c a.ctx a.id home (a.pas.take a.chunk) t
  split
  · rename_i e; rw [e] at hf
    exact canonical_of_mem ht ((State.accContained_mem _ _ _ _).trans hf)
  · rename_i u e; rw [e] at hf
    have hu := canonical_of_mem ht hf
    generalize (if a.acq = true ∨ a.op = .sigRead then none else some a.floor : Option Nat) = floor
    have hv := canonical_of_mem hu (State.loaded_mem u c a.ctx a.id a.tok.kind home a.acq a.scope floor (a.pas.take a.chunk))
    split
    · exact canonical_of_mem hv rfl
    · refine canonical_of_mem (s := if _ then _ else _) ?_ rfl
      split
      · exact canonical_of_mem hv (State.fillFor_mem _ _ _)
      · exact hv

theorem State.engWrite_canonical {s : State} (g : Agent) (kind : Nat) (last : Bool) (bytes : List (Nat × Byte)) (bad : List (Nat × Nat))
    (clr : List Byte) (h : MemoryCanonical s) : MemoryCanonical (s.engWrite g kind last bytes bad clr).1 := by
  unfold State.engWrite
  split
  · exact h
  · split
    · exact canonical_of_mem h rfl
    · exact State.homeStore_canonical _ _ _ _ _ h

theorem State.engRelease_canonical {s : State} (g : Agent) (last : Option Nat) (h : MemoryCanonical s) :
    MemoryCanonical (s.engRelease g last) := by
  unfold State.engRelease
  split
  · split
    · exact State.releaseAt_canonical _ _ _ _ _ h
    · have ht : MemoryCanonical (if 1 ≤ g.ord.scope then s.flush g.core else s.mod g.core (fun x => x.overtake g.id)) := by
        split
        · exact State.flush_canonical _ h
        · exact canonical_of_mem h rfl
      dsimp only
      split
      · exact canonical_of_mem ht rfl
      · exact ht
  · exact h

@[simp] theorem State.engTakes_mem (s : State) (g : Agent) (pas : List Nat) : (s.engTakes g pas).mem = s.mem := by
  unfold State.engTakes
  split <;> rfl

/-- What a block's read gives keeps the canonical form. -/
theorem State.blockIn_canonical {s t : State} {g : Agent} {tok : Token} {n : Nat} {c : Chk} {bytes : List Byte}
    {bad : List (Nat × Nat)} {fail : Option Failed} {acqd : Bool} {hb : Hb} (h : MemoryCanonical s)
    (e : s.blockIn g tok n c = .data t bytes bad fail acqd hb) : MemoryCanonical t := by
  unfold State.blockIn at e
  split at e
  · cases e
  · cases e; exact canonical_of_mem h rfl
  · split at e
    · cases e
    · split at e
      · cases e
      · cases e
        rename_i pas _ _
        exact canonical_of_mem (State.bypass_canonical g.core pas h)
          ((State.engTakes_mem _ _ _).trans ((State.mod_mem _ _ _).trans (State.marksOf_mem _ _)))

/-! ### Words -/

/-- An outcome whose next state, if it has one, has its memory in the canonical form. -/
def KeepsMemory (o : Out) : Prop := ∀ t, o = .next t → MemoryCanonical t

theorem keepsMemory_next {s : State} (h : MemoryCanonical s) : KeepsMemory (.next s) := fun t e => by
  cases e; exact h

theorem trap_keepsMemory {s : State} (cause data : Nat) (h : MemoryCanonical s) : KeepsMemory (trap s cause data) :=
  keepsMemory_next (canonical_of_mem h rfl)

theorem illegal_keepsMemory {s : State} (i : Instr) (h : MemoryCanonical s) : KeepsMemory (illegal i s) :=
  trap_keepsMemory _ _ h

theorem stall_keepsMemory {s : State} (h : MemoryCanonical s) : KeepsMemory (stall s) :=
  keepsMemory_next (canonical_of_mem h rfl)

@[simp] theorem State.readGranules_mem (s : State) (c : Nat) (gs : List Nat) : (s.readGranules c gs).mem = s.mem := by
  unfold State.readGranules
  dsimp only
  split
  · rfl
  · split <;> simp

theorem sourceContained_keepsMemory {s : State} (i : Instr) (gs : List Nat) (h : MemoryCanonical s) :
    KeepsMemory (s.sourceContained i gs) := by
  refine keepsMemory_next (canonical_of_mem h ?_)
  rw [State.done_mem, State.contain_mem, State.readGranules_mem]

/-- A word keeps the canonical form if its effect does. -/
theorem issue_keepsMemory {i : Instr} {s : State} {l : List Src} {body : State → Out} (h : MemoryCanonical s)
    (hb : ∀ t, MemoryCanonical t → KeepsMemory (body t)) : KeepsMemory (issue i s l body) := by
  unfold issue
  split
  · exact stall_keepsMemory h
  · split
    · exact illegal_keepsMemory i h
    · split
      · exact stall_keepsMemory h
      · exact trap_keepsMemory _ _ h
      · split
        · exact sourceContained_keepsMemory i _ h
        · exact hb _ (canonical_of_mem h rfl)

/-- A word that drains keeps the canonical form if what it ends with does. -/
theorem drainWord_keepsMemory {i : Instr} {s : State} {l : List Src} {k : HoldK} {ready : State → Nat → Bool} {fin : State → Out}
    (h : MemoryCanonical s) (hf : ∀ t, MemoryCanonical t → KeepsMemory (fin t)) : KeepsMemory (drainWord i s l k ready fin) := by
  unfold drainWord
  split
  · split
    · exact hf _ h
    · exact stall_keepsMemory h
  · refine issue_keepsMemory h (fun t ht => ?_)
    have hu : MemoryCanonical (t.holds k) := canonical_of_mem ht rfl
    dsimp only
    split
    · exact hf _ hu
    · exact keepsMemory_next hu

end Sys2Proof.Machine
end

