-- ==== Sys2Proof/Laws/PerInstr.lean ====
section
/-! SUPPORT. What is said of every instruction, one lemma for each constructor: it is written in at most two C-words, and a V-word
is no C-word (R50, R51, R62). -/

namespace Sys2Proof.Laws.Words

/-- An instruction is a V-word or is written in C-words, never both, and takes at most two C-words. -/
def Statement (i : Instr) : Prop := (vParts i = none ∨ encodeC i = []) ∧ (encodeC i).length ≤ 2

theorem nop : Statement .nop := ⟨.inl rfl, Nat.le_of_ble_eq_true rfl⟩
theorem endTask : Statement .endTask := ⟨.inl rfl, Nat.le_of_ble_eq_true rfl⟩
theorem yield : Statement .yield := ⟨.inl rfl, Nat.le_of_ble_eq_true rfl⟩
theorem trap (code : BitVec 16) : Statement (.trap code) := ⟨.inl rfl, Nat.le_of_ble_eq_true rfl⟩
theorem csrr (d : Nat) (csr : Nat) : Statement (.csrr d csr) := ⟨.inl rfl, Nat.le_of_ble_eq_true rfl⟩
theorem csrw (a : Nat) (fea : Bool) (csr : Nat) : Statement (.csrw a fea csr) := ⟨.inl rfl, Nat.le_of_ble_eq_true rfl⟩
theorem rdts (d : Nat) : Statement (.rdts d) := ⟨.inl rfl, Nat.le_of_ble_eq_true rfl⟩
theorem chk : Statement .chk := ⟨.inl rfl, Nat.le_of_ble_eq_true rfl⟩
theorem cro (disp : BitVec 37) : Statement (.cro disp) := ⟨.inl rfl, Nat.le_of_ble_eq_true rfl⟩
theorem crc : Statement .crc := ⟨.inl rfl, Nat.le_of_ble_eq_true rfl⟩
theorem ctxsave (m : MemRef) : Statement (.ctxsave m) := ⟨.inl rfl, Nat.le_of_ble_eq_true rfl⟩
theorem ctxrest (m : MemRef) : Statement (.ctxrest m) := ⟨.inl rfl, Nat.le_of_ble_eq_true rfl⟩
theorem stop (a : Nat) (fea : Bool) : Statement (.stop a fea) := ⟨.inl rfl, Nat.le_of_ble_eq_true rfl⟩
theorem wcsld (slot : Nat) (m : MemRef) : Statement (.wcsld slot m) := ⟨.inl rfl, Nat.le_of_ble_eq_true rfl⟩
theorem add (o : AluR) : Statement (.add o) := ⟨.inl rfl, Nat.le_of_ble_eq_true rfl⟩
theorem addImmediate (o : AluI) : Statement (.addImmediate o) := ⟨.inl rfl, Nat.le_of_ble_eq_true rfl⟩
theorem sub (o : AluR) : Statement (.sub o) := ⟨.inl rfl, Nat.le_of_ble_eq_true rfl⟩
theorem subImmediate (o : AluI) : Statement (.subImmediate o) := ⟨.inl rfl, Nat.le_of_ble_eq_true rfl⟩
theorem mul (o : AluR) : Statement (.mul o) := ⟨.inl rfl, Nat.le_of_ble_eq_true rfl⟩
theorem mulImmediate (o : AluI) : Statement (.mulImmediate o) := ⟨.inl rfl, Nat.le_of_ble_eq_true rfl⟩
theorem mulhS (o : AluR) : Statement (.mulhS o) := ⟨.inl rfl, Nat.le_of_ble_eq_true rfl⟩
theorem mulhSImmediate (o : AluI) : Statement (.mulhSImmediate o) := ⟨.inl rfl, Nat.le_of_ble_eq_true rfl⟩
theorem mulhN (o : AluR) : Statement (.mulhN o) := ⟨.inl rfl, Nat.le_of_ble_eq_true rfl⟩
theorem mulhNImmediate (o : AluI) : Statement (.mulhNImmediate o) := ⟨.inl rfl, Nat.le_of_ble_eq_true rfl⟩
theorem divS (o : AluR) : Statement (.divS o) := ⟨.inl rfl, Nat.le_of_ble_eq_true rfl⟩
theorem divSImmediate (o : AluI) : Statement (.divSImmediate o) := ⟨.inl rfl, Nat.le_of_ble_eq_true rfl⟩
theorem divN (o : AluR) : Statement (.divN o) := ⟨.inl rfl, Nat.le_of_ble_eq_true rfl⟩
theorem divNImmediate (o : AluI) : Statement (.divNImmediate o) := ⟨.inl rfl, Nat.le_of_ble_eq_true rfl⟩
theorem remS (o : AluR) : Statement (.remS o) := ⟨.inl rfl, Nat.le_of_ble_eq_true rfl⟩
theorem remSImmediate (o : AluI) : Statement (.remSImmediate o) := ⟨.inl rfl, Nat.le_of_ble_eq_true rfl⟩
theorem remN (o : AluR) : Statement (.remN o) := ⟨.inl rfl, Nat.le_of_ble_eq_true rfl⟩
theorem remNImmediate (o : AluI) : Statement (.remNImmediate o) := ⟨.inl rfl, Nat.le_of_ble_eq_true rfl⟩
theorem and (o : AluR) : Statement (.and o) := ⟨.inl rfl, Nat.le_of_ble_eq_true rfl⟩
theorem andImmediate (o : AluI) : Statement (.andImmediate o) := ⟨.inl rfl, Nat.le_of_ble_eq_true rfl⟩
theorem or (o : AluR) : Statement (.or o) := ⟨.inl rfl, Nat.le_of_ble_eq_true rfl⟩
theorem orImmediate (o : AluI) : Statement (.orImmediate o) := ⟨.inl rfl, Nat.le_of_ble_eq_true rfl⟩
theorem xor (o : AluR) : Statement (.xor o) := ⟨.inl rfl, Nat.le_of_ble_eq_true rfl⟩
theorem xorImmediate (o : AluI) : Statement (.xorImmediate o) := ⟨.inl rfl, Nat.le_of_ble_eq_true rfl⟩
theorem andn (o : AluR) : Statement (.andn o) := ⟨.inl rfl, Nat.le_of_ble_eq_true rfl⟩
theorem andnImmediate (o : AluI) : Statement (.andnImmediate o) := ⟨.inl rfl, Nat.le_of_ble_eq_true rfl⟩
theorem shl (o : AluR) : Statement (.shl o) := ⟨.inl rfl, Nat.le_of_ble_eq_true rfl⟩
theorem shlImmediate (o : AluI) : Statement (.shlImmediate o) := ⟨.inl rfl, Nat.le_of_ble_eq_true rfl⟩
theorem shrS (o : AluR) : Statement (.shrS o) := ⟨.inl rfl, Nat.le_of_ble_eq_true rfl⟩
theorem shrSImmediate (o : AluI) : Statement (.shrSImmediate o) := ⟨.inl rfl, Nat.le_of_ble_eq_true rfl⟩
theorem shrN (o : AluR) : Statement (.shrN o) := ⟨.inl rfl, Nat.le_of_ble_eq_true rfl⟩
theorem shrNImmediate (o : AluI) : Statement (.shrNImmediate o) := ⟨.inl rfl, Nat.le_of_ble_eq_true rfl⟩
theorem rot (o : AluR) : Statement (.rot o) := ⟨.inl rfl, Nat.le_of_ble_eq_true rfl⟩
theorem rotImmediate (o : AluI) : Statement (.rotImmediate o) := ⟨.inl rfl, Nat.le_of_ble_eq_true rfl⟩
theorem clz (o : AluR) : Statement (.clz o) := ⟨.inl rfl, Nat.le_of_ble_eq_true rfl⟩
theorem popc (o : AluR) : Statement (.popc o) := ⟨.inl rfl, Nat.le_of_ble_eq_true rfl⟩
theorem minS (o : AluR) : Statement (.minS o) := ⟨.inl rfl, Nat.le_of_ble_eq_true rfl⟩
theorem minSImmediate (o : AluI) : Statement (.minSImmediate o) := ⟨.inl rfl, Nat.le_of_ble_eq_true rfl⟩
theorem minN (o : AluR) : Statement (.minN o) := ⟨.inl rfl, Nat.le_of_ble_eq_true rfl⟩
theorem minNImmediate (o : AluI) : Statement (.minNImmediate o) := ⟨.inl rfl, Nat.le_of_ble_eq_true rfl⟩
theorem maxS (o : AluR) : Statement (.maxS o) := ⟨.inl rfl, Nat.le_of_ble_eq_true rfl⟩
theorem maxSImmediate (o : AluI) : Statement (.maxSImmediate o) := ⟨.inl rfl, Nat.le_of_ble_eq_true rfl⟩
theorem maxN (o : AluR) : Statement (.maxN o) := ⟨.inl rfl, Nat.le_of_ble_eq_true rfl⟩
theorem maxNImmediate (o : AluI) : Statement (.maxNImmediate o) := ⟨.inl rfl, Nat.le_of_ble_eq_true rfl⟩
theorem sel (o : AluR) : Statement (.sel o) := ⟨.inl rfl, Nat.le_of_ble_eq_true rfl⟩
theorem mov (o : AluR) : Statement (.mov o) := ⟨.inl rfl, Nat.le_of_ble_eq_true rfl⟩
theorem sext (o : AluR) : Statement (.sext o) := ⟨.inl rfl, Nat.le_of_ble_eq_true rfl⟩
theorem sextImmediate (o : AluI) : Statement (.sextImmediate o) := ⟨.inl rfl, Nat.le_of_ble_eq_true rfl⟩
theorem zext (o : AluR) : Statement (.zext o) := ⟨.inl rfl, Nat.le_of_ble_eq_true rfl⟩
theorem zextImmediate (o : AluI) : Statement (.zextImmediate o) := ⟨.inl rfl, Nat.le_of_ble_eq_true rfl⟩
theorem bfx (o : AluR) : Statement (.bfx o) := ⟨.inl rfl, Nat.le_of_ble_eq_true rfl⟩
theorem bfxImmediate (o : AluI) : Statement (.bfxImmediate o) := ⟨.inl rfl, Nat.le_of_ble_eq_true rfl⟩
theorem bfi (o : AluR) : Statement (.bfi o) := ⟨.inl rfl, Nat.le_of_ble_eq_true rfl⟩
theorem bfiImmediate (o : AluI) : Statement (.bfiImmediate o) := ⟨.inl rfl, Nat.le_of_ble_eq_true rfl⟩
theorem pset (d : Nat) (a : Nat) (fea : Bool) (wc : Nat) (add : Nat) : Statement (.pset d a fea wc add) := ⟨.inl rfl, Nat.le_of_ble_eq_true rfl⟩
theorem shape (rows : Nat) : Statement (.shape rows) := ⟨.inl rfl, Nat.le_of_ble_eq_true rfl⟩
theorem lim (d : Nat) (v : Word) : Statement (.lim d v) := ⟨.inl rfl, Nat.le_of_ble_eq_true rfl⟩
theorem cset (d : Nat) (f : CmpF) : Statement (.cset d f) := ⟨.inl rfl, Nat.le_of_ble_eq_true rfl⟩
theorem br (f : CmpF) (disp : BitVec 39) : Statement (.br f disp) := ⟨.inl rfl, Nat.le_of_ble_eq_true rfl⟩
theorem jmp (disp : BitVec 37) : Statement (.jmp disp) := ⟨.inl rfl, Nat.le_of_ble_eq_true rfl⟩
theorem call (disp : BitVec 37) : Statement (.call disp) := ⟨.inl rfl, Nat.le_of_ble_eq_true rfl⟩
theorem ret (a : Nat) (fea : Bool) : Statement (.ret a fea) := ⟨.inl rfl, Nat.le_of_ble_eq_true rfl⟩
theorem brx (a : Nat) (fea : Bool) (imm : BitVec 37) : Statement (.brx a fea imm) := ⟨.inl rfl, Nat.le_of_ble_eq_true rfl⟩
theorem loop (f : LoopF) : Statement (.loop f) := ⟨.inl rfl, Nat.le_of_ble_eq_true rfl⟩
theorem lbrk (lvl : Nat) : Statement (.lbrk lvl) := ⟨.inl rfl, Nat.le_of_ble_eq_true rfl⟩
theorem viss (start : Nat) (count : Nat) : Statement (.viss start count) := ⟨.inl rfl, Nat.le_of_ble_eq_true rfl⟩
theorem swpl (f : SwplF) : Statement (.swpl f) := ⟨.inl rfl, Nat.le_of_ble_eq_true rfl⟩
theorem vsync (l : Bool) (a : Bool) (q : Bool) : Statement (.vsync l a q) := ⟨.inl rfl, Nat.le_of_ble_eq_true rfl⟩
theorem ld (f : LdF) : Statement (.ld f) := ⟨.inl rfl, Nat.le_of_ble_eq_true rfl⟩
theorem st (f : LdF) : Statement (.st f) := ⟨.inl rfl, Nat.le_of_ble_eq_true rfl⟩
theorem amoAdd (f : AmoF) : Statement (.amoAdd f) := ⟨.inl rfl, Nat.le_of_ble_eq_true rfl⟩
theorem amoAnd (f : AmoF) : Statement (.amoAnd f) := ⟨.inl rfl, Nat.le_of_ble_eq_true rfl⟩
theorem amoOr (f : AmoF) : Statement (.amoOr f) := ⟨.inl rfl, Nat.le_of_ble_eq_true rfl⟩
theorem amoXor (f : AmoF) : Statement (.amoXor f) := ⟨.inl rfl, Nat.le_of_ble_eq_true rfl⟩
theorem amoMinS (f : AmoF) : Statement (.amoMinS f) := ⟨.inl rfl, Nat.le_of_ble_eq_true rfl⟩
theorem amoMaxS (f : AmoF) : Statement (.amoMaxS f) := ⟨.inl rfl, Nat.le_of_ble_eq_true rfl⟩
theorem amoMinN (f : AmoF) : Statement (.amoMinN f) := ⟨.inl rfl, Nat.le_of_ble_eq_true rfl⟩
theorem amoMaxN (f : AmoF) : Statement (.amoMaxN f) := ⟨.inl rfl, Nat.le_of_ble_eq_true rfl⟩
theorem amoSwap (f : AmoF) : Statement (.amoSwap f) := ⟨.inl rfl, Nat.le_of_ble_eq_true rfl⟩
theorem amoCas (f : AmoF) : Statement (.amoCas f) := ⟨.inl rfl, Nat.le_of_ble_eq_true rfl⟩
theorem amoFmaxF32 (f : AmoF) : Statement (.amoFmaxF32 f) := ⟨.inl rfl, Nat.le_of_ble_eq_true rfl⟩
theorem amoAmaxRr (f : AmoF) : Statement (.amoAmaxRr f) := ⟨.inl rfl, Nat.le_of_ble_eq_true rfl⟩
theorem fenceAcq (u : Bool) (scope : Nat) : Statement (.fenceAcq u scope) := ⟨.inl rfl, Nat.le_of_ble_eq_true rfl⟩
theorem fenceRel (u : Bool) (scope : Nat) : Statement (.fenceRel u scope) := ⟨.inl rfl, Nat.le_of_ble_eq_true rfl⟩
theorem fenceAr (u : Bool) (scope : Nat) : Statement (.fenceAr u scope) := ⟨.inl rfl, Nat.le_of_ble_eq_true rfl⟩
theorem fenceSc (u : Bool) (scope : Nat) : Statement (.fenceSc u scope) := ⟨.inl rfl, Nat.le_of_ble_eq_true rfl⟩
theorem xlat (rights : BitVec 4) (o : AluR) : Statement (.xlat rights o) := ⟨.inl rfl, Nat.le_of_ble_eq_true rfl⟩
theorem xlatTry (rights : BitVec 4) (o : AluR) : Statement (.xlatTry rights o) := ⟨.inl rfl, Nat.le_of_ble_eq_true rfl⟩
theorem tkchk (o : AluR) : Statement (.tkchk o) := ⟨.inl rfl, Nat.le_of_ble_eq_true rfl⟩
theorem tkdrop (o : AluR) : Statement (.tkdrop o) := ⟨.inl rfl, Nat.le_of_ble_eq_true rfl⟩
theorem tkmov (o : AluR) : Statement (.tkmov o) := ⟨.inl rfl, Nat.le_of_ble_eq_true rfl⟩
theorem tksub (o : AluR) : Statement (.tksub o) := ⟨.inl rfl, Nat.le_of_ble_eq_true rfl⟩
theorem tkinfo (o : AluR) : Statement (.tkinfo o) := ⟨.inl rfl, Nat.le_of_ble_eq_true rfl⟩
theorem tkrevKill (o : AluR) : Statement (.tkrevKill o) := ⟨.inl rfl, Nat.le_of_ble_eq_true rfl⟩
theorem tkrevMove (o : AluR) : Statement (.tkrevMove o) := ⟨.inl rfl, Nat.le_of_ble_eq_true rfl⟩
theorem stashMap (w : Nat) (m : MemRef) : Statement (.stashMap w m) := ⟨.inl rfl, Nat.le_of_ble_eq_true rfl⟩
theorem stashUnmap (w : Nat) : Statement (.stashUnmap w) := ⟨.inl rfl, Nat.le_of_ble_eq_true rfl⟩
theorem stashWb (w : Nat) : Statement (.stashWb w) := ⟨.inl rfl, Nat.le_of_ble_eq_true rfl⟩
theorem stashInv (w : Nat) : Statement (.stashInv w) := ⟨.inl rfl, Nat.le_of_ble_eq_true rfl⟩
theorem bar (lvl : Nat) (scope : Nat) : Statement (.bar lvl scope) := ⟨.inl rfl, Nat.le_of_ble_eq_true rfl⟩
theorem futWait (f : SyncF) : Statement (.futWait f) := ⟨.inl rfl, Nat.le_of_ble_eq_true rfl⟩
theorem futPut (f : SyncF) : Statement (.futPut f) := ⟨.inl rfl, Nat.le_of_ble_eq_true rfl⟩
theorem futClr (f : SyncF) : Statement (.futClr f) := ⟨.inl rfl, Nat.le_of_ble_eq_true rfl⟩
theorem sigAdd (f : SyncF) : Statement (.sigAdd f) := ⟨.inl rfl, Nat.le_of_ble_eq_true rfl⟩
theorem sigSet (f : SyncF) : Statement (.sigSet f) := ⟨.inl rfl, Nat.le_of_ble_eq_true rfl⟩
theorem sigWait (f : SyncF) : Statement (.sigWait f) := ⟨.inl rfl, Nat.le_of_ble_eq_true rfl⟩
theorem sigRead (f : SyncF) : Statement (.sigRead f) := ⟨.inl rfl, Nat.le_of_ble_eq_true rfl⟩
theorem hset (h : Nat) (a : Nat) (fea : Bool) : Statement (.hset h a fea) := ⟨.inl rfl, Nat.le_of_ble_eq_true rfl⟩
theorem harr (h : Nat) (a : Nat) (fea : Bool) : Statement (.harr h a fea) := ⟨.inl rfl, Nat.le_of_ble_eq_true rfl⟩
theorem hwait (h : Nat) : Statement (.hwait h) := ⟨.inl rfl, Nat.le_of_ble_eq_true rfl⟩
theorem hdrain (h : Nat) : Statement (.hdrain h) := ⟨.inl rfl, Nat.le_of_ble_eq_true rfl⟩
theorem hfree (h : Nat) : Statement (.hfree h) := ⟨.inl rfl, Nat.le_of_ble_eq_true rfl⟩
theorem hinfo (d : Nat) (h : Nat) : Statement (.hinfo d h) := ⟨.inl rfl, Nat.le_of_ble_eq_true rfl⟩
theorem qpush (o : AluR) : Statement (.qpush o) := ⟨.inl rfl, Nat.le_of_ble_eq_true rfl⟩
theorem qpop (o : AluR) : Statement (.qpop o) := ⟨.inl rfl, Nat.le_of_ble_eq_true rfl⟩
theorem qtry (o : AluR) : Statement (.qtry o) := ⟨.inl rfl, Nat.le_of_ble_eq_true rfl⟩
theorem qinfo (o : AluR) : Statement (.qinfo o) := ⟨.inl rfl, Nat.le_of_ble_eq_true rfl⟩
theorem qbind (o : AluR) : Statement (.qbind o) := ⟨.inl rfl, Nat.le_of_ble_eq_true rfl⟩
theorem cpyLvl (lvl : Nat) (o : AluR) : Statement (.cpyLvl lvl o) := ⟨.inl rfl, Nat.le_of_ble_eq_true rfl⟩
theorem cpyGo (f : CpyF) : Statement (.cpyGo f) := ⟨.inl rfl, Nat.le_of_ble_eq_true rfl⟩
theorem cpyCancel (h : Nat) : Statement (.cpyCancel h) := ⟨.inl rfl, Nat.le_of_ble_eq_true rfl⟩
theorem cpyStat (d : Nat) (h : Nat) : Statement (.cpyStat d h) := ⟨.inl rfl, Nat.le_of_ble_eq_true rfl⟩
theorem mxLease : Statement .mxLease := ⟨.inl rfl, Nat.le_of_ble_eq_true rfl⟩
theorem mxFree : Statement .mxFree := ⟨.inl rfl, Nat.le_of_ble_eq_true rfl⟩
theorem mxCbtab (f : MxMemF) : Statement (.mxCbtab f) := ⟨.inl rfl, Nat.le_of_ble_eq_true rfl⟩
theorem mxBld (f : MxMemF) : Statement (.mxBld f) := ⟨.inl rfl, Nat.le_of_ble_eq_true rfl⟩
theorem mxBldMirror (f : MxMemF) : Statement (.mxBldMirror f) := ⟨.inl rfl, Nat.le_of_ble_eq_true rfl⟩
theorem mxTld (f : MxMemF) : Statement (.mxTld f) := ⟨.inl rfl, Nat.le_of_ble_eq_true rfl⟩
theorem mxMm (f : MmF) : Statement (.mxMm f) := ⟨.inl rfl, Nat.le_of_ble_eq_true rfl⟩
theorem mxKat (d : Nat) (n : Nat) (g : Nat) (sum : Word) : Statement (.mxKat d n g sum) := ⟨.inl rfl, Nat.le_of_ble_eq_true rfl⟩
theorem mxZalloc (d : Nat) (z : Nat) : Statement (.mxZalloc d z) := ⟨.inl rfl, Nat.le_of_ble_eq_true rfl⟩
theorem mxZfree (z : Nat) : Statement (.mxZfree z) := ⟨.inl rfl, Nat.le_of_ble_eq_true rfl⟩
theorem mxZld (f : MxMemF) : Statement (.mxZld f) := ⟨.inl rfl, Nat.le_of_ble_eq_true rfl⟩
theorem mxZst (f : MxMemF) : Statement (.mxZst f) := ⟨.inl rfl, Nat.le_of_ble_eq_true rfl⟩
theorem mxZcpy (d : Nat) (za : Nat) (zb : Nat) : Statement (.mxZcpy d za zb) := ⟨.inl rfl, Nat.le_of_ble_eq_true rfl⟩
theorem mxOut (f : OutF) : Statement (.mxOut f) := ⟨.inl rfl, Nat.le_of_ble_eq_true rfl⟩
theorem umCfg (f : UmCfgF) : Statement (.umCfg f) := ⟨.inl rfl, Nat.le_of_ble_eq_true rfl⟩
theorem umCfgRad (d : Nat) (l0 : Nat) (nl : Nat) (radius : Nat) : Statement (.umCfgRad d l0 nl radius) := ⟨.inl rfl, Nat.le_of_ble_eq_true rfl⟩
theorem umCfgShare (f : UmCfgF) : Statement (.umCfgShare f) := ⟨.inl rfl, Nat.le_of_ble_eq_true rfl⟩
theorem umRank (f : UmMemF) : Statement (.umRank f) := ⟨.inl rfl, Nat.le_of_ble_eq_true rfl⟩
theorem umCommit (f : UmMemF) : Statement (.umCommit f) := ⟨.inl rfl, Nat.le_of_ble_eq_true rfl⟩
theorem umDnext (d : Nat) : Statement (.umDnext d) := ⟨.inl rfl, Nat.le_of_ble_eq_true rfl⟩
theorem umDclr (a : Nat) (fea : Bool) : Statement (.umDclr a fea) := ⟨.inl rfl, Nat.le_of_ble_eq_true rfl⟩
theorem vld (w : VFields) : Statement (.vld w) := ⟨.inr rfl, Nat.le_of_ble_eq_true rfl⟩
theorem vst (w : VFields) : Statement (.vst w) := ⟨.inr rfl, Nat.le_of_ble_eq_true rfl⟩
theorem vgat (w : VFields) : Statement (.vgat w) := ⟨.inr rfl, Nat.le_of_ble_eq_true rfl⟩
theorem vsca (w : VFields) : Statement (.vsca w) := ⟨.inr rfl, Nat.le_of_ble_eq_true rfl⟩
theorem vldb (w : VFields) : Statement (.vldb w) := ⟨.inr rfl, Nat.le_of_ble_eq_true rfl⟩
theorem vstb (w : VFields) : Statement (.vstb w) := ⟨.inr rfl, Nat.le_of_ble_eq_true rfl⟩
theorem vadd (w : VFields) : Statement (.vadd w) := ⟨.inr rfl, Nat.le_of_ble_eq_true rfl⟩
theorem vsub (w : VFields) : Statement (.vsub w) := ⟨.inr rfl, Nat.le_of_ble_eq_true rfl⟩
theorem vmul (w : VFields) : Statement (.vmul w) := ⟨.inr rfl, Nat.le_of_ble_eq_true rfl⟩
theorem vmulh (w : VFields) : Statement (.vmulh w) := ⟨.inr rfl, Nat.le_of_ble_eq_true rfl⟩
theorem vmin (w : VFields) : Statement (.vmin w) := ⟨.inr rfl, Nat.le_of_ble_eq_true rfl⟩
theorem vmax (w : VFields) : Statement (.vmax w) := ⟨.inr rfl, Nat.le_of_ble_eq_true rfl⟩
theorem vabs (w : VFields) : Statement (.vabs w) := ⟨.inr rfl, Nat.le_of_ble_eq_true rfl⟩
theorem vneg (w : VFields) : Statement (.vneg w) := ⟨.inr rfl, Nat.le_of_ble_eq_true rfl⟩
theorem vand (w : VFields) : Statement (.vand w) := ⟨.inr rfl, Nat.le_of_ble_eq_true rfl⟩
theorem vor (w : VFields) : Statement (.vor w) := ⟨.inr rfl, Nat.le_of_ble_eq_true rfl⟩
theorem vxor (w : VFields) : Statement (.vxor w) := ⟨.inr rfl, Nat.le_of_ble_eq_true rfl⟩
theorem vnot (w : VFields) : Statement (.vnot w) := ⟨.inr rfl, Nat.le_of_ble_eq_true rfl⟩
theorem vshl (w : VFields) : Statement (.vshl w) := ⟨.inr rfl, Nat.le_of_ble_eq_true rfl⟩
theorem vshr (w : VFields) : Statement (.vshr w) := ⟨.inr rfl, Nat.le_of_ble_eq_true rfl⟩
theorem vclz (w : VFields) : Statement (.vclz w) := ⟨.inr rfl, Nat.le_of_ble_eq_true rfl⟩
theorem vpopc (w : VFields) : Statement (.vpopc w) := ⟨.inr rfl, Nat.le_of_ble_eq_true rfl⟩
theorem vsel (w : VFields) : Statement (.vsel w) := ⟨.inr rfl, Nat.le_of_ble_eq_true rfl⟩
theorem vfadd (w : VFields) : Statement (.vfadd w) := ⟨.inr rfl, Nat.le_of_ble_eq_true rfl⟩
theorem vfsub (w : VFields) : Statement (.vfsub w) := ⟨.inr rfl, Nat.le_of_ble_eq_true rfl⟩
theorem vfmul (w : VFields) : Statement (.vfmul w) := ⟨.inr rfl, Nat.le_of_ble_eq_true rfl⟩
theorem vfma (w : VFields) : Statement (.vfma w) := ⟨.inr rfl, Nat.le_of_ble_eq_true rfl⟩
theorem vfms (w : VFields) : Statement (.vfms w) := ⟨.inr rfl, Nat.le_of_ble_eq_true rfl⟩
theorem vfdiv (w : VFields) : Statement (.vfdiv w) := ⟨.inr rfl, Nat.le_of_ble_eq_true rfl⟩
theorem vfsqrt (w : VFields) : Statement (.vfsqrt w) := ⟨.inr rfl, Nat.le_of_ble_eq_true rfl⟩
theorem vfrcp (w : VFields) : Statement (.vfrcp w) := ⟨.inr rfl, Nat.le_of_ble_eq_true rfl⟩
theorem vfrsq (w : VFields) : Statement (.vfrsq w) := ⟨.inr rfl, Nat.le_of_ble_eq_true rfl⟩
theorem vfexp2 (w : VFields) : Statement (.vfexp2 w) := ⟨.inr rfl, Nat.le_of_ble_eq_true rfl⟩
theorem vflog2 (w : VFields) : Statement (.vflog2 w) := ⟨.inr rfl, Nat.le_of_ble_eq_true rfl⟩
theorem vfmin (w : VFields) : Statement (.vfmin w) := ⟨.inr rfl, Nat.le_of_ble_eq_true rfl⟩
theorem vfmax (w : VFields) : Statement (.vfmax w) := ⟨.inr rfl, Nat.le_of_ble_eq_true rfl⟩
theorem vfabs (w : VFields) : Statement (.vfabs w) := ⟨.inr rfl, Nat.le_of_ble_eq_true rfl⟩
theorem vfneg (w : VFields) : Statement (.vfneg w) := ⟨.inr rfl, Nat.le_of_ble_eq_true rfl⟩
theorem vcvt (w : VFields) : Statement (.vcvt w) := ⟨.inr rfl, Nat.le_of_ble_eq_true rfl⟩
theorem vcb (w : VFields) : Statement (.vcb w) := ⟨.inr rfl, Nat.le_of_ble_eq_true rfl⟩
theorem vpack (w : VFields) : Statement (.vpack w) := ⟨.inr rfl, Nat.le_of_ble_eq_true rfl⟩
theorem vunpack (w : VFields) : Statement (.vunpack w) := ⟨.inr rfl, Nat.le_of_ble_eq_true rfl⟩
theorem vamax (w : VFields) : Statement (.vamax w) := ⟨.inr rfl, Nat.le_of_ble_eq_true rfl⟩
theorem vred (w : VFields) : Statement (.vred w) := ⟨.inr rfl, Nat.le_of_ble_eq_true rfl⟩
theorem vperm (w : VFields) : Statement (.vperm w) := ⟨.inr rfl, Nat.le_of_ble_eq_true rfl⟩
theorem vtrns (w : VFields) : Statement (.vtrns w) := ⟨.inr rfl, Nat.le_of_ble_eq_true rfl⟩
theorem vbcast (w : VFields) : Statement (.vbcast w) := ⟨.inr rfl, Nat.le_of_ble_eq_true rfl⟩
theorem vslide (w : VFields) : Statement (.vslide w) := ⟨.inr rfl, Nat.le_of_ble_eq_true rfl⟩
theorem vcompress (w : VFields) : Statement (.vcompress w) := ⟨.inr rfl, Nat.le_of_ble_eq_true rfl⟩
theorem mpush (w : VFields) : Statement (.mpush w) := ⟨.inr rfl, Nat.le_of_ble_eq_true rfl⟩
theorem minv (w : VFields) : Statement (.minv w) := ⟨.inr rfl, Nat.le_of_ble_eq_true rfl⟩
theorem mpop (w : VFields) : Statement (.mpop w) := ⟨.inr rfl, Nat.le_of_ble_eq_true rfl⟩
theorem vskip (w : VFields) : Statement (.vskip w) := ⟨.inr rfl, Nat.le_of_ble_eq_true rfl⟩
theorem veos (w : VFields) : Statement (.veos w) := ⟨.inr rfl, Nat.le_of_ble_eq_true rfl⟩
theorem mcall (w : VFields) : Statement (.mcall w) := ⟨.inr rfl, Nat.le_of_ble_eq_true rfl⟩
theorem vnop (w : VFields) : Statement (.vnop w) := ⟨.inr rfl, Nat.le_of_ble_eq_true rfl⟩
theorem nopPacket (r : Nat) : Statement (.nopPacket r) := ⟨.inr rfl, Nat.le_of_ble_eq_true rfl⟩
theorem launchPacket (r : Nat) (rec : List Word) : Statement (.launchPacket r rec) := ⟨.inr rfl, Nat.le_of_ble_eq_true rfl⟩
theorem graphPacket (r : Nat) (va : BitVec 48) : Statement (.graphPacket r va) := ⟨.inr rfl, Nat.le_of_ble_eq_true rfl⟩
theorem waitPacket (r : Nat) (va : BitVec 48) (target : Word) : Statement (.waitPacket r va target) := ⟨.inr rfl, Nat.le_of_ble_eq_true rfl⟩
theorem signalPacket (r : Nat) (set : Bool) (fence : Bool) (va : BitVec 48) (value : Word) : Statement (.signalPacket r set fence va value) := ⟨.inr rfl, Nat.le_of_ble_eq_true rfl⟩
theorem revokePacket (r : Nat) (mv : Bool) (va : BitVec 48) (len : Nat) (newva : BitVec 48) : Statement (.revokePacket r mv va len newva) := ⟨.inr rfl, Nat.le_of_ble_eq_true rfl⟩
theorem rd (pane : Nat) (h : BdHead) : Statement (.rd pane h) := ⟨.inr rfl, Nat.le_of_ble_eq_true rfl⟩
theorem wr (pane : Nat) (h : BdHead) (data : List Byte) : Statement (.wr pane h data) := ⟨.inr rfl, Nat.le_of_ble_eq_true rfl⟩
theorem wrm (pane : Nat) (h : BdHead) (mask : Word) (data : List Byte) : Statement (.wrm pane h mask data) := ⟨.inr rfl, Nat.le_of_ble_eq_true rfl⟩
theorem reservedOp (pane : Nat) (h : BdHead) : Statement (.reservedOp pane h) := ⟨.inr rfl, Nat.le_of_ble_eq_true rfl⟩
theorem baromFlit (link : Nat) (flit : List Byte) : Statement (.baromFlit link flit) := ⟨.inr rfl, Nat.le_of_ble_eq_true rfl⟩
theorem moduleReset : Statement .moduleReset := ⟨.inr rfl, Nat.le_of_ble_eq_true rfl⟩
theorem thermalTrip (pane : Nat) : Statement (.thermalTrip pane) := ⟨.inr rfl, Nat.le_of_ble_eq_true rfl⟩
theorem linkTrain (link : Nat) (cxl : Bool) : Statement (.linkTrain link cxl) := ⟨.inr rfl, Nat.le_of_ble_eq_true rfl⟩
theorem loadComplete (c : Nat) (id : Nat) : Statement (.loadComplete c id) := ⟨.inr rfl, Nat.le_of_ble_eq_true rfl⟩
theorem amoReply (c : Nat) (id : Nat) : Statement (.amoReply c id) := ⟨.inr rfl, Nat.le_of_ble_eq_true rfl⟩
theorem xlatComplete (c : Nat) (x : Nat) : Statement (.xlatComplete c x) := ⟨.inr rfl, Nat.le_of_ble_eq_true rfl⟩
theorem barrierRelease (linst : Nat) (grp : Nat) (lvl : Nat) : Statement (.barrierRelease linst grp lvl) := ⟨.inr rfl, Nat.le_of_ble_eq_true rfl⟩
theorem futReleasePush (pane : Nat) : Statement (.futReleasePush pane) := ⟨.inr rfl, Nat.le_of_ble_eq_true rfl⟩
theorem futParkRetry (c : Nat) : Statement (.futParkRetry c) := ⟨.inr rfl, Nat.le_of_ble_eq_true rfl⟩
theorem sigWaitRelease (c : Nat) : Statement (.sigWaitRelease c) := ⟨.inr rfl, Nat.le_of_ble_eq_true rfl⟩
theorem handleDrainFree (c : Nat) (h : Nat) : Statement (.handleDrainFree c h) := ⟨.inr rfl, Nat.le_of_ble_eq_true rfl⟩
theorem queueResolve (pane : Nat) (slot : Nat) : Statement (.queueResolve pane slot) := ⟨.inr rfl, Nat.le_of_ble_eq_true rfl⟩
theorem refillLand (pane : Nat) (slot : Nat) : Statement (.refillLand pane slot) := ⟨.inr rfl, Nat.le_of_ble_eq_true rfl⟩
theorem recordDelivery (c : Nat) : Statement (.recordDelivery c) := ⟨.inr rfl, Nat.le_of_ble_eq_true rfl⟩
theorem queueFaultTrap (c : Nat) (x : Nat) : Statement (.queueFaultTrap c x) := ⟨.inr rfl, Nat.le_of_ble_eq_true rfl⟩
theorem copyCommandStart (c : Nat) : Statement (.copyCommandStart c) := ⟨.inr rfl, Nat.le_of_ble_eq_true rfl⟩
theorem copyEmit (c : Nat) : Statement (.copyEmit c) := ⟨.inr rfl, Nat.le_of_ble_eq_true rfl⟩
theorem copyComplete (c : Nat) : Statement (.copyComplete c) := ⟨.inr rfl, Nat.le_of_ble_eq_true rfl⟩
theorem copyCommandComplete (c : Nat) : Statement (.copyCommandComplete c) := ⟨.inr rfl, Nat.le_of_ble_eq_true rfl⟩
theorem leaseGrant (m : Nat) : Statement (.leaseGrant m) := ⟨.inr rfl, Nat.le_of_ble_eq_true rfl⟩
theorem mxAccept (c : Nat) : Statement (.mxAccept c) := ⟨.inr rfl, Nat.le_of_ble_eq_true rfl⟩
theorem mxStep (m : Nat) : Statement (.mxStep m) := ⟨.inr rfl, Nat.le_of_ble_eq_true rfl⟩
theorem mxStatusFill (m : Nat) : Statement (.mxStatusFill m) := ⟨.inr rfl, Nat.le_of_ble_eq_true rfl⟩
theorem umStatusFill (pane : Nat) : Statement (.umStatusFill pane) := ⟨.inr rfl, Nat.le_of_ble_eq_true rfl⟩
theorem vwordFill (c : Nat) (q : Nat) : Statement (.vwordFill c q) := ⟨.inr rfl, Nat.le_of_ble_eq_true rfl⟩
theorem vwordIllegalTrap (c : Nat) : Statement (.vwordIllegalTrap c) := ⟨.inr rfl, Nat.le_of_ble_eq_true rfl⟩
theorem deadlock (c : Nat) : Statement (.deadlock c) := ⟨.inr rfl, Nat.le_of_ble_eq_true rfl⟩
theorem iterboundBreach (c : Nat) : Statement (.iterboundBreach c) := ⟨.inr rfl, Nat.le_of_ble_eq_true rfl⟩
theorem taskDispatch (c : Nat) : Statement (.taskDispatch c) := ⟨.inr rfl, Nat.le_of_ble_eq_true rfl⟩
theorem taskStart (c : Nat) : Statement (.taskStart c) := ⟨.inr rfl, Nat.le_of_ble_eq_true rfl⟩
theorem groupDeliver (pane : Nat) : Statement (.groupDeliver pane) := ⟨.inr rfl, Nat.le_of_ble_eq_true rfl⟩
theorem taskEndComplete (c : Nat) : Statement (.taskEndComplete c) := ⟨.inr rfl, Nat.le_of_ble_eq_true rfl⟩
theorem taskRetire (c : Nat) : Statement (.taskRetire c) := ⟨.inr rfl, Nat.le_of_ble_eq_true rfl⟩
theorem stopHonour (c : Nat) : Statement (.stopHonour c) := ⟨.inr rfl, Nat.le_of_ble_eq_true rfl⟩
theorem stopTokenPass (c : Nat) (q : Nat) : Statement (.stopTokenPass c q) := ⟨.inr rfl, Nat.le_of_ble_eq_true rfl⟩
theorem contextSaveComplete (c : Nat) : Statement (.contextSaveComplete c) := ⟨.inr rfl, Nat.le_of_ble_eq_true rfl⟩
theorem urgentStop (pane : Nat) (slot : Nat) : Statement (.urgentStop pane slot) := ⟨.inr rfl, Nat.le_of_ble_eq_true rfl⟩
theorem launchSeal (slot : Nat) : Statement (.launchSeal slot) := ⟨.inr rfl, Nat.le_of_ble_eq_true rfl⟩
theorem launchRunning (lid : Nat) : Statement (.launchRunning lid) := ⟨.inr rfl, Nat.le_of_ble_eq_true rfl⟩
theorem initialRecordPush (linst : Nat) : Statement (.initialRecordPush linst) := ⟨.inr rfl, Nat.le_of_ble_eq_true rfl⟩
theorem launchDone (linst : Nat) : Statement (.launchDone linst) := ⟨.inr rfl, Nat.le_of_ble_eq_true rfl⟩
theorem bootDoor (c : Nat) : Statement (.bootDoor c) := ⟨.inr rfl, Nat.le_of_ble_eq_true rfl⟩
theorem gafferSample (linst : Nat) : Statement (.gafferSample linst) := ⟨.inr rfl, Nat.le_of_ble_eq_true rfl⟩
theorem gafferMove (c : Nat) : Statement (.gafferMove c) := ⟨.inr rfl, Nat.le_of_ble_eq_true rfl⟩
theorem forcedPublish (c : Nat) (line : Nat) (scope : Nat) : Statement (.forcedPublish c line scope) := ⟨.inr rfl, Nat.le_of_ble_eq_true rfl⟩
theorem sweep (c : Nat) (e : Nat) : Statement (.sweep c e) := ⟨.inr rfl, Nat.le_of_ble_eq_true rfl⟩
theorem revokeDrainEnd (e : Nat) : Statement (.revokeDrainEnd e) := ⟨.inr rfl, Nat.le_of_ble_eq_true rfl⟩
theorem sweepDone (e : Nat) : Statement (.sweepDone e) := ⟨.inr rfl, Nat.le_of_ble_eq_true rfl⟩
theorem deadUnpin (e : Nat) : Statement (.deadUnpin e) := ⟨.inr rfl, Nat.le_of_ble_eq_true rfl⟩
theorem deadHoldExpire (e : Nat) : Statement (.deadHoldExpire e) := ⟨.inr rfl, Nat.le_of_ble_eq_true rfl⟩
theorem forwardRelease (e : Nat) : Statement (.forwardRelease e) := ⟨.inr rfl, Nat.le_of_ble_eq_true rfl⟩
theorem savedContextWalk (e : Nat) (list : Nat) : Statement (.savedContextWalk e list) := ⟨.inr rfl, Nat.le_of_ble_eq_true rfl⟩
theorem hostHdmWrite (off : Nat) (bytes : List Byte) : Statement (.hostHdmWrite off bytes) := ⟨.inr rfl, Nat.le_of_ble_eq_true rfl⟩
theorem hostHdmRead (off : Nat) (n : Nat) : Statement (.hostHdmRead off n) := ⟨.inr rfl, Nat.le_of_ble_eq_true rfl⟩
theorem ringEnable (r : Nat) : Statement (.ringEnable r) := ⟨.inr rfl, Nat.le_of_ble_eq_true rfl⟩
theorem ringDisable (r : Nat) : Statement (.ringDisable r) := ⟨.inr rfl, Nat.le_of_ble_eq_true rfl⟩
theorem ringPoll (r : Nat) : Statement (.ringPoll r) := ⟨.inr rfl, Nat.le_of_ble_eq_true rfl⟩
theorem packetFetch (r : Nat) : Statement (.packetFetch r) := ⟨.inr rfl, Nat.le_of_ble_eq_true rfl⟩
theorem ringUnpark (r : Nat) : Statement (.ringUnpark r) := ⟨.inr rfl, Nat.le_of_ble_eq_true rfl⟩
theorem journalAppend : Statement .journalAppend := ⟨.inr rfl, Nat.le_of_ble_eq_true rfl⟩
theorem dataReply (pane : Nat) (port : Nat) (tag : Nat) : Statement (.dataReply pane port tag) := ⟨.inr rfl, Nat.le_of_ble_eq_true rfl⟩
theorem acknowledgement (pane : Nat) (port : Nat) (tag : Nat) : Statement (.acknowledgement pane port tag) := ⟨.inr rfl, Nat.le_of_ble_eq_true rfl⟩
theorem redundantCompare (c : Nat) (id : Nat) : Statement (.redundantCompare c id) := ⟨.inr rfl, Nat.le_of_ble_eq_true rfl⟩
theorem redmisTimeout (c : Nat) (id : Nat) : Statement (.redmisTimeout c id) := ⟨.inr rfl, Nat.le_of_ble_eq_true rfl⟩
theorem scrubVisit (granule : Nat) : Statement (.scrubVisit granule) := ⟨.inr rfl, Nat.le_of_ble_eq_true rfl⟩
theorem lehrAdjust (readings : List (Nat × Nat)) : Statement (.lehrAdjust readings) := ⟨.inr rfl, Nat.le_of_ble_eq_true rfl⟩
theorem wearRecordRequest (nonce : List Byte) : Statement (.wearRecordRequest nonce) := ⟨.inr rfl, Nat.le_of_ble_eq_true rfl⟩
theorem writeReachesHome (c : Nat) (id : Nat) : Statement (.writeReachesHome c id) := ⟨.inr rfl, Nat.le_of_ble_eq_true rfl⟩
theorem storeAcknowledged (c : Nat) (id : Nat) : Statement (.storeAcknowledged c id) := ⟨.inr rfl, Nat.le_of_ble_eq_true rfl⟩
theorem hostLinkDown (link : Nat) : Statement (.hostLinkDown link) := ⟨.inr rfl, Nat.le_of_ble_eq_true rfl⟩
theorem managementMailboxRequest (kind : Nat) : Statement (.managementMailboxRequest kind) := ⟨.inr rfl, Nat.le_of_ble_eq_true rfl⟩

end Sys2Proof.Laws.Words
end

