-- ==== Sys2Proof/Laws/Words.lean ====
section
/-! SUPPORT. How a C-word ends, said once for each way: it goes on, transfers, or traps. -/

namespace Sys2Proof.Machine

/-- The state in which a word's effect follows: its sources have been read. -/
abbrev State.read (s : State) (l : List Src) : State := s.upd (fun x => x.touch s.ctx l)

@[simp] theorem State.read_cur (s : State) (l : List Src) : (s.read l).cur = s.cur := rfl
@[simp] theorem State.read_ctx (s : State) (l : List Src) : (s.read l).ctx = s.ctx := rfl
@[simp] theorem State.read_me (s : State) (l : List Src) : (s.read l).me = s.me.touch s.ctx l := by simp

theorem OnlyCore.refl (c : Nat) (s : State) : OnlyCore c s s := ⟨rfl, fun _ _ => rfl, fun _ => rfl⟩

/-- Reading sources and then changing the running core is one change of that core. -/
theorem State.read_upd_core (s : State) (l : List Src) (f : Core → Core) :
    ((s.read l).upd f).core s.cur = f (s.me.touch s.ctx l) := by
  have := State.core_upd (s.read l) f
  simpa using this

theorem State.read_upd_only (s : State) (l : List Src) (f : Core → Core) : OnlyCore s.cur s ((s.read l).upd f) :=
  OnlyCore.trans (State.upd_only s _) (State.upd_only (s.read l) f)

/-- A word that only goes on: nothing changes but where its context stands. -/
theorem State.done_quiet (s : State) (l : List Src) {n : Nat} (hn : 0 < n) :
    Quiet s ((s.read l).done n) ∧ Passes s ((s.read l).done n) n := by
  have hc : ((s.read l).done n).core s.cur = (s.me.touch s.ctx l).next s.ctx n := State.read_upd_core s l _
  refine ⟨⟨State.read_upd_only s l _, ?_, ?_⟩, ?_⟩
  · rw [hc]; exact CoreKept.next (Core.touch_kept _ _ _) _ _
  · rw [hc]; rfl
  · intro h
    rw [hc]
    simpa using Core.next_pc (s.me.touch s.ctx l) s.ctx n hn (by simpa using h)

/-- Going to a C-word changes nothing but where the context stands. -/
theorem Core.goto_pc (x : Core) (ctx pc : Nat) : (x.goto ctx pc).q.pcOf ctx = pc ∧ (x.goto ctx pc).q.loops = x.q.loops := by
  unfold Core.goto Seq.leave Seq.setPc Seq.pcOf
  by_cases h : ctx = 0 <;> simp [h, Seq.setHold, Seq.hctx, Seq.setH]

theorem CoreKept.goto {x y : Core} (h : CoreKept x y) (ctx pc : Nat) : CoreKept x (y.goto ctx pc) where
  rest := by
    have := h.rest
    calc y.goto ctx pc = { y with q := (y.goto ctx pc).q } := rfl
      _ = _ := by rw [this]; rfl
  engines := h.engines
  place := by
    have h1 : (y.goto ctx pc).q = { y.q with pc := (y.goto ctx pc).q.pc, nid := (y.goto ctx pc).q.nid, point := (y.goto ctx pc).q.point, hold := (y.goto ctx pc).q.hold, h := (y.goto ctx pc).q.h } := by
      unfold Core.goto Seq.leave Seq.setPc
      by_cases h : ctx = 0 <;> simp [h] <;> rfl
    have h2 := h.place
    rw [h1, h2]

/-- A precise trap of the main context, seen from outside. -/
theorem State.trapAt_trapped (s : State) (l : List Src) (cause data resume : Nat) (h : s.ctx = 0) :
    Trapped s ((s.read l).upd (fun x => x.trapAt s.now s.ctx cause false data resume)) cause data resume := by
  have hc : ((s.read l).upd (fun x => x.trapAt s.now s.ctx cause false data resume)).core s.cur =
      (s.me.touch s.ctx l).trapAt s.now s.ctx cause false data resume := State.read_upd_core s l _
  have hi : infoWord 0 false false 3 0 data = BitVec.ofNat 64 (3 * 2 ^ 58 + data % 2 ^ 32) := by
    unfold infoWord; simp
  refine ⟨State.read_upd_only s l _, ?_, ?_, ?_, ?_, ?_, ?_, ?_⟩ <;> rw [hc] <;>
    simp only [Core.trapAt, h, if_true, Core.seq, Core.tickId, Core.takeTrap, Core.touch_q, Seq.setHold, Core.touch_c] <;>
    cases s.me.q.tact <;> by_cases hv : s.me.c.tvec = 0 <;> simp [hv, hi]

theorem trap_trapped {i : Instr} {l : List Src} {s : State} {cause data : Nat} (hi : MayIssue i l s → exec i s = trap (s.read l) cause data) :
    TrapsBy i l s cause data s.me.q.pc := by
  intro _ hm h
  refine ⟨_, hi hm, ?_⟩
  have := State.trapAt_trapped s l cause data s.me.q.pc h
  have e : (s.read l).upd (fun x => x.trapAt (s.read l).now (s.read l).ctx cause false data (x.q.pcOf 0)) =
      (s.read l).upd (fun x => x.trapAt s.now s.ctx cause false data s.me.q.pc) := by
    unfold State.upd State.mod
    congr 1
    show ((s.read l).me).trapAt _ _ _ _ _ (((s.read l).me).q.pcOf 0) = ((s.read l).me).trapAt _ _ _ _ _ _
    rw [State.read_me]
    rfl
  rw [e]; exact this

/-- A taken transfer whose words change no register on the way. -/
theorem transfer_to {i : Instr} {l : List Src} {s : State} {target : Int}
    (he : MayIssue i l s → exec i s = transfer (s.read l) target id) : TransfersTo i l s target := by
  constructor
  · intro h _ hm
    have hin : 0 ≤ target ∧ target < ((s.read l).me.code.ctlLen : Int) := by simpa using h
    refine ⟨(s.read l).upd (fun x => x.goto s.ctx target.toNat), ?_, ⟨State.read_upd_only s l _, ?_, ?_⟩, ?_⟩
    · rw [he hm]
      unfold transfer
      rw [if_pos hin]
      rfl
    · rw [State.read_upd_core]; exact CoreKept.goto (Core.touch_kept _ _ _) _ _
    · rw [State.read_upd_core]; rfl
    · unfold Goes
      rw [State.read_upd_core]
      have := Core.goto_pc (s.me.touch s.ctx l) s.ctx target.toNat
      simpa using this
  · intro h
    apply trap_trapped
    intro hm
    rw [he hm]
    unfold transfer
    rw [if_neg (by simpa using h)]

end Sys2Proof.Machine
end

