-- ==== Sys2Proof/Tests/Slice0.lean ====
section
/-! SUPPORT. Tests. Words written out from the encodings of 03_encoding.md and the spec's own listings decode to the instructions they
stand for; a term that breaks a check is refused by it; single steps give the results the rules state; and for every obligation
with hypotheses a state and operands that meet them all. -/

namespace Sys2Proof.Tests

open Sys2Proof Sys2Proof.Machine

-- Each proof here is short and asks the kernel: one after the other they need no thread of their own.
set_option Elab.async false

/-! ### Small states -/

/-- A state whose core 0 is `x`. -/
def on (x : Core) : State := { cores := [(0, x)] }

/-- A main context that runs C-word 5 of 200, with a trap handler at C-word 100. -/
def running : Core := { q := { st := .running, pc := 5, nid := 9 }, c := { tvec := 100 }, code := { ctlLen := 200 } }

/-- Core 0 runs. -/
def run : State := on running

/-- Scalars s1, s2 and so on of the main context, from a list. -/
def scalars (x : Core) (l : List Word) : Core :=
  { x with r := { x.r with s := (List.range l.length).foldl (fun m i => Sparse.set 0#64 m (i + 1) (l.getD i 0#64)) x.r.s } }

/-- The next state of an outcome, or reset. -/
def after (o : Host.Outcome State Fault Refusal) : State :=
  match o with
  | .next t => t
  | _ => {}

/-- Where no register is empty, a word of the main context may issue. -/
theorem mayIssue {i : Instr} {l : List Src} {s : State} (h : s.runs = true) (hc : s.ctx = 0) (hs : s.me.r.sm = [])
    (hk : s.me.r.km = []) (hb : s.me.r.bad = [] := by rfl) : MayIssue i l s where
  runs := h
  allowed := .inl hc
  full := fun r _ => by
    cases r with
    | s n f => simp [Core.full, Core.sMarks, hs, Sparse.get]
    | k n f => simp [Core.full, Core.kMarks, hk, Sparse.get]
  sound := fun g _ => by rw [hb]; rfl

theorem run_mayIssue (i : Instr) (l : List Src) : MayIssue i l run := mayIssue rfl rfl rfl rfl

/-! ### Decoding: the listings of 18 to 24 and words assembled by hand from R50 to R62 -/

/-- Register operands without FE bits. -/
def alu (d a b c : Nat) : AluR := { d := d, a := a, b := b, c := c, fea := false, feb := false, fec := false }
/-- A memory operand without an FE bit. -/
def mem (k x : Nat) (off : BitVec 32) : MemRef := { k := k, x := x, fex := false, off := off }
/-- No order. -/
def plain : Ordr := { acq := false, rel := false, scope := 0 }

theorem test_words_sys : ∀ p ∈ [(0x0008000000000000#64, Instr.yield), (0x0030024000000000#64, .stop 9 false),
    (0x0028030000000000#64, .ctxsave (mem 6 0 0#32)), (0x002C030000000000#64, .ctxrest (mem 6 0 0#32)),
    (0x000C00000000002A#64, .trap 0x2A#16), (0x0024000000000000#64, .crc), (0x0020000000000007#64, .cro 7#37),
    (0x0034320000000000#64, .wcsld 3 (mem 4 0 0#32)), (0x0010700000000020#64, .csrr 7 0x020),
    (0x0014012000000008#64, .csrw 4 true 0x008)], decodeC p.1 0#64 = .ok (p.2, 1) := by decide +kernel

theorem test_words_alu : ∀ p ∈ [(0x0400A28B00000000#64, Instr.add (alu 10 10 11 0)),
    (0x045CF040C8000000#64, .sel (alu 15 1 0 50)),
    (0x0800F0BFFFFFFFFF#64, .addImmediate { d := 15, a := 2, fea := true, imm := 0x1FFFFFFFFF#37 })],
    decodeC p.1 0#64 = .ok (p.2, 1) := by decide +kernel

theorem test_words_control : ∀ p ∈ [(0x1804000000000003#64, Instr.call 3#37),
    (0x14651A7FFFFFFFF8#64, .br { cond := .ltS, a := 10, b := 13, fea := false, feb := false } (BitVec.ofInt 39 (-8))),
    (0x1808008000000000#64, .ret 2 false), (0x1C01010003000010#64, .loop { lvl := 2, t := 0, ti := true, body := 3, trip := 16 }),
    (0x2000000000040000#64, .viss 0 1), (0x2814000000000000#64, .vsync true false true)],
    decodeC p.1 0#64 = .ok (p.2, 1) := by decide +kernel

theorem test_words_twoWords : ∀ p ∈ [((0x0C00700000000000#64, 0x40#64), Instr.lim 7 0x40#64),
    ((0x5C04828B00000000#64, 0x5100000000000000#64),
      .umRank { d := 8, a := 10, b := 11, fea := false, feb := false, ord := { acq := true, rel := false, scope := 2 }, k := 4 }),
    ((0x5C08830B00000000#64, 0x9100000000000000#64),
      .umCommit { d := 8, a := 12, b := 11, fea := false, feb := false, ord := { acq := false, rel := true, scope := 2 }, k := 4 }),
    ((0x581490850C000000#64, 0x002200201F008000#64),
      .mxMm { d := 9, t := 2, z := 5, h := 3, slot := 17, c0 := 0, nc := 128, klen := 992, cb := 0, hw := true, tr := false,
              mir := false }),
    ((0x5830914000000000#64, 0x024400700400012C#64),
      .mxOut { d := 9, z := 5, b := 0, c := 0, feb := false, fec := false, ord := plain, dst := false, ty := 9, rm := 0,
               sat := false, clr := true, r0 := 0, nr := 7, c0 := 0, nc := 512, k := 0, vn := 300 })],
    decodeC p.1.1 p.1.2 = .ok (p.2, 2) := by decide +kernel

theorem test_words_memory : ∀ p ∈ [(0x2C18A10000000000#64, Instr.ld { ty := 6, d := 10, m := mem 2 0 0#32, ord := plain }),
    (0x301CA10000000010#64, .st { ty := 7, d := 10, m := mem 2 0 0x10#32, ord := plain }),
    (0x3940000000000000#64, .fenceAr false 2), (0x4000329200001000#64, .stashMap 3 (mem 5 9 0x1000#32))],
    decodeC p.1 0#64 = .ok (p.2, 1) := by decide +kernel

theorem test_words_tokens : ∀ p ∈ [(0x3F00528B00000000#64, Instr.xlat 12#4 (alu 5 10 11 0)),
    (0x3C14614C34000000#64, .tksub (alu 6 5 12 13)), (0x3C1C024000000000#64, .tkrevKill (alu 0 9 0 0))],
    decodeC p.1 0#64 = .ok (p.2, 1) := by decide +kernel

theorem test_words_sync : ∀ p ∈ [(0x4500000000000000#64, Instr.bar 0 2),
    (0x49C4A08000000040#64, .futPut { d := 10, m := mem 1 0 0x40#32, ord := { acq := false, rel := true, scope := 3 } }),
    (0x4818718000000008#64, .sigRead { d := 7, m := mem 3 0 8#32, ord := plain }), (0x4C00010000000003#64, .hset 3 4 false),
    (0x5008808304000000#64, .qtry (alu 8 2 3 1))],
    decodeC p.1 0#64 = .ok (p.2, 1) := by decide +kernel

theorem test_words_engines : ∀ p ∈ [(0x5408000000000003#64, Instr.cpyCancel 3),
    (0x5400018720000000#64, .cpyLvl 0 (alu 0 6 7 8)), (0x540CC00000000003#64, .cpyStat 12 3), (0x5800000000000000#64, .mxLease),
    (0x5804000000000000#64, .mxFree), (0x5C0C900000000000#64, .umDnext 9), (0x5C10024000000000#64, .umDclr 9 false)],
    decodeC p.1 0#64 = .ok (p.2, 1) := by decide +kernel

/-- A V-word with every field zero. -/
def vz : VFields :=
  { ty := 0, d := 0, a := 0, b := 0, c := 0, e := 0, fe := 0, gc := 0, gm := 0, hint := 0, fo := false, lo := false, yld := false
    eox := false, sm := 0, md := 0, imm := 0#32 }

theorem test_words_vector : ∀ p ∈ [
    (0x040 * 2 ^ 118 + 6 * 2 ^ 114 + 8 * 2 ^ 103 + 16 * 2 ^ 92 + 24 * 2 ^ 81 + 3 * 2 ^ 51 + 1 * 2 ^ 49,
      Instr.vadd { vz with ty := 6, d := 8, a := 16, b := 24, gc := 3, gm := 1 }),
    (0x102 * 2 ^ 118 + 9 * 2 ^ 114 + 2047 * 2 ^ 103 + 1 * 2 ^ 92 + 63 * 2 ^ 81 + 4 * 2 ^ 55 + 2 * 2 ^ 32,
      .vfmul { vz with ty := 9, d := 2047, a := 1, b := 63, fe := 4, md := 2 }),
    (0x000 * 2 ^ 118 + 2 * 2 ^ 114 + 12 * 2 ^ 103 + 31 * 2 ^ 92 + 7 * 2 ^ 81 + 16 * 2 ^ 38 + 32 * 2 ^ 32 + 0xFFFFFFC0,
      .vld { vz with ty := 2, d := 12, a := 31, b := 7, sm := 16, md := 32, imm := 0xFFFFFFC0#32 }),
    (0x1C1 * 2 ^ 118 + 13 * 2 ^ 114 + 4 * 2 ^ 103 + 5 * 2 ^ 92 + 200, .vpack { vz with ty := 13, d := 4, a := 5, imm := 200#32 }),
    (0x201 * 2 ^ 118 + 3 * 2 ^ 114 + 4 * 2 ^ 103 + 5 * 2 ^ 92 + 6 * 2 ^ 81, .vperm { vz with ty := 3, d := 4, a := 5, b := 6 }),
    (0x242 * 2 ^ 118, .mpop vz), (0x280 * 2 ^ 118 + 5, .mcall { vz with imm := 5#32 }), (0x3FF * 2 ^ 118 + 1 * 2 ^ 32, .vnop { vz with md := 1 })],
    decodeV (BitVec.ofNat 128 p.1) = .ok p.2 := by decide +kernel

/-- A packet whose first bytes are given. -/
def packet (l : List Byte) : List Byte := l ++ List.replicate (128 - l.length) 0#8

theorem test_packets :
    decodePacket 7 (packet [0x83#8, 0#8, 0#8, 0#8, 0#8, 0#8, 0#8, 0#8, 8#8, 1#8, 0#8, 0#8, 0#8, 0x80#8, 0#8, 0#8, 2#8]) =
      .ok (.waitPacket 7 0x800000000108#48 2#64) ∧
    decodePacket 0 (packet [4#8, 3#8, 0#8, 0#8, 0#8, 0#8, 0#8, 0#8, 0x10#8]) = .ok (.signalPacket 0 true true 0x10#48 0#64) ∧
    decodePacket 0 (packet [5#8, 0#8, 0#8, 0#8, 0#8, 0#8, 0#8, 0#8, 0#8, 0x10#8, 0#8, 0#8, 0#8, 0#8, 0#8, 0#8, 0#8, 0x20#8]) =
      .ok (.revokePacket 0 false 0x1000#48 0x2000 0#48) ∧
    decodePacket 0 (packet [0#8, 1#8]) = .error .packet ∧ decodePacket 0 (packet [6#8]) = .error .packet ∧
    decodeBaseDie 2 [0x0140000000000100#64] = .ok (.rd 2 { tag := 0, port := 5, line := 256 }) := by decide +kernel

/-! ### A term that breaks each check is refused by it -/

theorem test_illFormed : ∀ p ∈ [
    (Instr.add (alu 64 0 0 0), Reject.register), (.xlat 1#4 (alu 32 0 0 0), .register), (.tkdrop (alu 0 32 0 0), .register),
    (.qpop (alu 9 1 0 1), .register), (.qpush (alu 0 1 12 1), .register), (.add (alu 1 2 3 4), .register),
    (.clz { alu 1 2 0 0 with feb := true }, .unread), 
    (.mxZld { d := 1, a := 2, b := 3, c := 0, fea := true, feb := false, fec := false, ord := plain, k := 1, off := 0#32 }, .unread),
    (.loop { lvl := 6, t := 0, ti := true, body := 1, trip := 1 }, .literal), (.loop { lvl := 0, t := 1, ti := true, body := 1, trip := 1 }, .unread),
    (.loop { lvl := 0, t := 0, ti := true, body := 0, trip := 1 }, .immediate), (.lbrk 6, .literal), (.viss 65535 2, .immediate),
    (.swpl { a := 1, fea := false, pro := 2, ker := 1, epi := 3, fin := 4 }, .immediate), (.vsync false false false, .literal),
    (.shape 7, .immediate), (.pset 16 0 false 0 0, .register), (.pset 1 0 false 4 0, .immediate),
    (.bfxImmediate { d := 1, a := 1, fea := false, imm := 0#37 }, .immediate), (.csrr 1 0x009, .csr), (.csrw 1 false 0x021, .csr),
    (.ld { ty := 8, d := 1, m := mem 1 0 0#32, ord := plain }, .literal),
    (.ld { ty := 0, d := 1, m := mem 1 0 0#32, ord := { acq := false, rel := true, scope := 0 } }, .order),
    (.st { ty := 0, d := 1, m := mem 1 0 0#32, ord := { acq := true, rel := false, scope := 0 } }, .order),
    (.ld { ty := 0, d := 1, m := mem 1 0 0#32, ord := { acq := true, rel := false, scope := 6 } }, .scope),
    (.ld { ty := 0, d := 1, m := mem 1 0 0#32, ord := { acq := false, rel := false, scope := 1 } }, .scope),
    (.fenceSc false 0, .scope), (.bar 0 6, .scope), (.br { cond := .al, a := 1, b := 0, fea := false, feb := false } 0#39, .register),
    (.xlat 0#4 (alu 1 2 3 0), .literal), (.hset 64 1 false, .literal), (.stashWb 64, .literal), (.wcsld 64 (mem 1 0 0#32), .literal),
    (.mxKat 1 64 0 0#64, .literal), (.umCfgRad 1 0 257 1, .literal)], p.1.check = some p.2 := by decide +kernel

theorem test_illFormed_vector : ∀ p ∈ [
    (Instr.vadd { vz with ty := 8 }, Reject.vType), (.vfadd { vz with ty := 7 }, .vType), (.vadd { vz with gm := 3 }, .vGuard),
    (.vand { vz with md := 1 }, .vMod), (.vnot { vz with b := 1 }, .register), (.vadd { vz with c := 1 }, .unread),
    (.vadd { vz with imm := 1#32 }, .immediate), (.vadd { vz with d := 2048 }, .register), (.vld { vz with gm := 1 }, .vGuard),
    (.vld { vz with a := 32 }, .register), (.mpop { vz with ty := 1 }, .vType), (.vskip { vz with imm := 256#32 }, .immediate),
    (.mcall { vz with yld := true }, .unread), (.vpack { vz with ty := 11, imm := 256#32 }, .immediate)],
    p.1.check = some p.2 := by decide +kernel

theorem test_illFormed_outside : (Instr.launchPacket 0 []).check = some .packet ∧ (Instr.waitPacket 0 4#48 0#64).check = some .packet ∧
    (Instr.revokePacket 0 false 0x1000#48 0x800 0#48).check = some .packet ∧ (Instr.rd 0 { tag := 8, port := 0, line := 0 }).check = some .literal ∧
    (Instr.wr 0 { tag := 0, port := 0, line := 0 } []).check = some .literal ∧ (Instr.baromFlit 0 []).check = some .packet := by
  decide +kernel

/-! ### States that meet the hypotheses of the statements -/

/-- The fields of a compare. -/
def cmp (c : Cond) (a b : Nat) : CmpF := { cond := c, a := a, b := b, fea := false, feb := false }
/-- Core 0 with s1 and s2. -/
def run12 (a b : Word) : State := on (scalars running [a, b])
/-- Core 0 in its trap handler. -/
def trapped : Core := { running with q := { running.q with tact := true } }
/-- A register form that names s63 and s0, and an immediate form. -/
def ro : AluR := alu 63 1 2 0
def im : AluI := { d := 0, a := 1, fea := true, imm := 0x1FFFFFFFFF#37 }
/-- Core 0 in handler context 2. -/
def inHandler : State :=
  { on { running with q := { running.q with st := .faulted, h := [(2, { st := .running, pc := 7 })] } } with ctx := 2 }

theorem inHandler_mayIssue {i : Instr} {l : List Src} (h : handlerOk i = true) : MayIssue i l inHandler where
  runs := rfl
  allowed := .inr h
  full := fun r _ => by cases r <;> simp [inHandler, on, running, Core.full, Core.sMarks, Core.kMarks, State.me, State.core, Sparse.get]
  sound := fun _ _ => rfl

theorem test_meets_ScalarArithmetic : (∀ i ∈ [Instr.add ro, .addImmediate im, .sub ro, .subImmediate im, .mul ro, .mulImmediate im,
    .mulhS ro, .mulhSImmediate im, .mulhN ro, .mulhNImmediate im, .divS ro, .divSImmediate im, .divN ro, .divNImmediate im, .remS ro, .remSImmediate im,
    .remN ro, .remNImmediate im], i.wf = true) ∧
    ∀ a ∈ [0#64, BitVec.intMin 64, BitVec.allOnes 64], ∀ b ∈ [0#64, BitVec.allOnes 64, 3#64], ∀ i l, MayIssue i l (run12 a b) :=
  ⟨by decide, fun _ ha _ hb _ _ => by
    simp only [List.mem_cons, List.not_mem_nil, or_false] at ha hb
    rcases ha with rfl | rfl | rfl <;> rcases hb with rfl | rfl | rfl <;> exact mayIssue rfl rfl rfl rfl⟩

theorem test_meets_ScalarLogicAndShifts : (∀ i ∈ [Instr.and ro, .andImmediate im, .or ro, .orImmediate im, .xor ro, .xorImmediate im,
    .andn ro, .andnImmediate im, .shl ro, .shlImmediate im, .shrS ro, .shrSImmediate im, .shrN ro, .shrNImmediate im, .rot ro,
    .rotImmediate im], i.wf = true) ∧ ∀ i l, MayIssue i l (run12 1#64 64#64) := ⟨by decide, fun _ _ => mayIssue rfl rfl rfl rfl⟩

theorem test_meets_ScalarSelectionCountsAndFields : (∀ i ∈ [Instr.minS ro, .minSImmediate im, .minN ro, .minNImmediate im, .maxS ro,
    .maxSImmediate im, .maxN ro, .maxNImmediate im, .mov (alu 63 1 0 0), .clz (alu 63 1 0 0), .popc (alu 63 1 0 0), .sel (alu 63 1 2 1),
    .sext ro, .sextImmediate im, .zext ro, .zextImmediate im, .bfx (alu 63 1 2 1), .bfi (alu 63 1 2 1),
    .bfxImmediate { im with imm := 4159#37 }, .bfiImmediate { im with imm := 64#37 }], i.wf = true) ∧
    ∀ i l, MayIssue i l (run12 1#64 64#64) := ⟨by decide, fun _ _ => mayIssue rfl rfl rfl rfl⟩

theorem test_meets_ConstantsCountsAndShape : (∀ i ∈ [Instr.lim 0 5#64, .pset 0 1 false 3 1023, .pset 15 1 true 0 0, .shape 1, .shape 6],
    i.wf = true) ∧ ∀ i l, MayIssue i l (run12 1#64 64#64) := ⟨by decide, fun _ _ => mayIssue rfl rfl rfl rfl⟩

theorem test_meets_ConditionsAndBranches : (∀ i ∈ [Instr.cset 5 (cmp .eq 1 2), .br (cmp .eq 1 2) 3#39, .br (cmp .al 0 0) 0#39], i.wf = true) ∧
    (∀ i l a b, MayIssue i l (run12 a b)) ∧ CondTrue run .eq (run.sc 1) (run.sc 2) ∧
    ¬CondTrue (run12 1#64 2#64) .eq ((run12 1#64 2#64).sc 1) ((run12 1#64 2#64).sc 2) ∧
    (cmp .al 1 0).cond.compares = false ∧ (cmp .al 1 0).a ≠ 0 :=
  ⟨by decide, fun _ _ _ _ => mayIssue rfl rfl rfl rfl, rfl, by unfold CondTrue; decide, by decide⟩

theorem test_meets_TransfersOfControl : (∀ i ∈ [Instr.jmp 194#37, .jmp 195#37, .brx 1 true 3#37, .ret 1 false, .call (BitVec.ofInt 37 (-6))],
    i.wf = true) ∧ (∀ i l, MayIssue i l (run12 7#64 0#64) ∧ MayIssue i l (on trapped)) ∧
    (run.me.q.pcOf 0 + (194#37).toInt < (run.me.code.ctlLen : Int)) ∧ ¬(run.me.q.pcOf 0 + (195#37).toInt < (run.me.code.ctlLen : Int)) ∧
    ¬(0 ≤ run.me.q.pcOf 0 + (BitVec.ofInt 37 (-6)).toInt) ∧ run.me.q.tact = false ∧ (on trapped).me.q.tact = true ∧
    (∀ l, MayIssue (.ret 1 false) l inHandler) ∧ inHandler.ctx ≠ 0 :=
  ⟨by decide, fun _ _ => ⟨mayIssue rfl rfl rfl rfl, mayIssue rfl rfl rfl rfl⟩, by decide, by decide, by decide, rfl, rfl,
    fun _ => inHandler_mayIssue rfl, by decide⟩

theorem test_meets_TrapsAndReturns : (∀ i ∈ [Instr.trap 0xFFFF#16, .ret 1 true], i.wf = true) ∧
    (∀ i l, MayIssue i l run ∧ MayIssue i l (on trapped)) ∧ run.ctx = 0 ∧ (on trapped).me.q.tact = true ∧
    ((on trapped).sc 1).toNat % 2 ^ 15 < (on trapped).me.code.ctlLen :=
  ⟨by decide, fun _ _ => ⟨mayIssue rfl rfl rfl rfl, mayIssue rfl rfl rfl rfl⟩, by decide⟩

/-- Core 0 inside loop level 2, which ends at C-word `last`, in iteration `idx` of 4. -/
def inLoop (last idx : Nat) : Core :=
  { running with q := { running.q with loops := [(2, { act := true, idx := idx, trip := 4, first := 1, last := last })] } }

/-- A `loop` of level `l` with an immediate trip count. -/
def lp (l body trip : Nat) : LoopF := { lvl := l, t := 0, ti := true, body := body, trip := trip }

theorem test_meets_LoopsOpenAndClose : (∀ i ∈ [Instr.loop (lp 1 3 1), .loop (lp 1 3 0), .loop { lp 0 3 0 with t := 1, ti := false }, .lbrk 2, .lbrk 5],
    i.wf = true) ∧ (∀ i l, MayIssue i l (on (inLoop 8 0)) ∧ MayIssue i l (on (inLoop 7 0)) ∧ MayIssue i l (run12 0x100000000#64 0#64)) ∧
    (let q := (on (inLoop 8 0)).me.q
     q.tact = false ∧ (∀ l, l ≤ 1 → (q.loop l).act = false) ∧
       (∀ l, l < 6 → 1 < l → (q.loop l).act = true → q.pc + 3 ≤ (q.loop l).last) ∧ (q.loop 2).act = true ∧ (q.loop 5).act = false) ∧
    (∀ l, l < 6 → (run.me.q.loop l).act = true → (run.me.q.loop l).last ≠ 8) ∧
    ¬(∀ l, l < 6 → 1 < l → ((on (inLoop 7 0)).me.q.loop l).act = true → (on (inLoop 7 0)).me.q.pc + 3 ≤ ((on (inLoop 7 0)).me.q.loop l).last) ∧
    2 ^ 32 ≤ ((run12 0x100000000#64 0#64).sc 1).toNat :=
  ⟨by decide, fun _ _ => ⟨mayIssue rfl rfl rfl rfl, mayIssue rfl rfl rfl rfl, mayIssue rfl rfl rfl rfl⟩, by decide, by decide, by decide,
    by decide⟩

theorem test_meets_LoopBodiesEnd : Instr.nop.wf = true ∧ (∀ i l, MayIssue i l (on trapped) ∧ MayIssue i l (on (inLoop 5 0)) ∧
    MayIssue i l (on (inLoop 5 3))) ∧ (on trapped).me.q.tact = true ∧
    (let q := (on (inLoop 5 0)).me.q
     q.tact = false ∧ (q.loop 2).act = true ∧ (q.loop 2).last = q.pc ∧ (q.loop 2).idx + 1 < (q.loop 2).trip ∧
       ∀ l, l < 2 → (q.loop l).act = false) ∧
    (let q := (on (inLoop 5 3)).me.q
     q.tact = false ∧ ∀ l, l < 6 → (q.loop l).act = true → (q.loop l).last = q.pc → ¬(q.loop l).idx + 1 < (q.loop l).trip) :=
  ⟨by decide, fun _ _ => ⟨mayIssue rfl rfl rfl rfl, mayIssue rfl rfl rfl rfl, mayIssue rfl rfl rfl rfl⟩, by decide⟩

theorem test_meets_ControlRegistersRead : (∀ n ∈ [0x000, 0x001, 0x002, 0x003, 0x004, 0x005, 0x006, 0x007, 0x008, 0x010, 0x015, 0x018, 0x01D,
    0x020, 0x021, 0x022, 0x023, 0x024, 0x038, 0x03D], (Instr.csrr 63 n).wf = true) ∧ (Instr.rdts 0).wf = true ∧
    (∀ i l, MayIssue i l run) ∧ run.now ≤ { run with now := 1 }.now := ⟨by decide, by decide, run_mayIssue, by decide⟩

/-- Core 0 with PRIV set and s1. -/
def priv (a : Word) : State := on (scalars { running with q := { running.q with priv := true } } [a])

theorem test_meets_ControlRegistersWritten : (∀ n ∈ [0x002, 0x008, 0x015, 0x01D, 0x020, 0x030, 0x031, 0x032, 0x033], (Instr.csrw 1 false n).wf = true) ∧
    (∀ i l a, MayIssue i l (priv a)) ∧ (∀ i l, MayIssue i l run) ∧
    (∀ p ∈ [(0x020, 1), (0x020, 6), (0x030, 64), (0x031, 64), (0x032, 1), (0x033, 256)], csrBad p.1 ((priv (BitVec.ofNat 64 p.2)).sc 1).toNat = false) ∧
    (∀ p ∈ [(0x020, 0), (0x020, 7), (0x030, 63), (0x031, 65), (0x032, 256), (0x033, 257)], csrBad p.1 ((priv (BitVec.ofNat 64 p.2)).sc 1).toNat = true) ∧
    csrPriv 0x008 = true ∧ csrPriv 0x033 = true ∧ run.me.q.priv = false ∧ (priv 0#64).me.q.priv = true :=
  ⟨by decide, fun _ _ _ => mayIssue rfl rfl rfl rfl, run_mayIssue, by decide, by decide, by decide⟩

/-- An outstanding access of core 0. -/
def acc (op : AOp) (id chk : Nat) (pas : List Nat) : Acc :=
  { id := id, ctx := 0, op := op, d := 3, w := 8, tok := { entry := 1, kind := 1 }, off := 0, a := 0#64, b := 0#64, acq := false
    rel := false, scope := 0, chk := chk, pas := pas, data := [], pc := 0, depth := 0, seq := 0 }

theorem test_meets_TokenCheckPoint : Instr.chk.wf = true ∧ (∀ i l, MayIssue i l run ∧ MayIssue i l (on { running with c := { running.c with kstat := 1#64 } }) ∧
    MayIssue i l (on { running with acc := [acc (.load true) 3 0 []] })) ∧ run.me.acc = [] ∧ run.me.v.ql = [] ∧ run.me.v.qs = [] ∧
    run.me.c.kstat &&& 7#64 = 0#64 ∧ (on { running with c := { running.c with kstat := 1#64 } }).me.c.kstat &&& 7#64 ≠ 0#64 ∧
    ¬(∀ a ∈ (on { running with acc := [acc (.load true) 3 0 []] }).me.acc, a.chk ≠ 0 ∨ (on { running with acc := [acc (.load true) 3 0 []] }).me.q.nid ≤ a.id) :=
  ⟨by decide, fun _ _ => ⟨mayIssue rfl rfl rfl rfl, mayIssue rfl rfl rfl rfl, mayIssue rfl rfl rfl rfl⟩, by decide⟩

/-- Core 0 with a region open. -/
def inRegion (depth : Nat) : State :=
  on { running with q := { running.q with regions := [{ opc := 2, hpc := 90, ldepth := depth, mdepth := 0, swpl := false, since := 3 }] } }

theorem test_meets_ContainmentRegions : (∀ i ∈ [Instr.cro 10#37, .cro 195#37, .crc], i.wf = true) ∧
    (∀ i l, MayIssue i l run ∧ MayIssue i l (inRegion 0) ∧ MayIssue i l (inRegion 1)) ∧ run.me.q.tact = false ∧ run.me.q.regions = [] ∧
    0 ≤ run.me.q.pc + (10#37).toInt ∧ run.me.q.pc + (10#37).toInt < (run.me.code.ctlLen : Int) ∧
    ¬(run.me.q.pc + (195#37).toInt < (run.me.code.ctlLen : Int)) ∧ (inRegion 0).me.q.ldepth = 0 ∧ (inRegion 0).me.acc = [] ∧
    (inRegion 0).me.v = {} ∧ (inRegion 0).engDone 0 3 9 = true ∧ 1 ≠ (inRegion 1).me.q.ldepth :=
  ⟨by decide, fun _ _ => ⟨run_mayIssue _ _, mayIssue rfl rfl rfl rfl, mayIssue rfl rfl rfl rfl⟩, by decide⟩

theorem test_meets_EndYieldAndStop : (∀ i ∈ [Instr.endTask, .yield, .stop 1 false], i.wf = true) ∧ (∀ i l a, MayIssue i l run ∧ MayIssue i l (priv a)) ∧
    (∀ l, MayIssue .endTask l inHandler) ∧ inHandler.me.q.notes = [] ∧ ((priv 1023#64).sc 1).toNat < (priv 1023#64).cfg.total ∧
    (priv 1024#64).cfg.total ≤ ((priv 1024#64).sc 1).toNat ∧ run.me.q.priv = false :=
  ⟨by decide, fun _ _ _ => ⟨run_mayIssue _ _, mayIssue rfl rfl rfl rfl⟩, fun _ => inHandler_mayIssue rfl, by decide⟩

/-- Core 0 at C-word 5 with the given words there, and its turn next. -/
def fetching (l : List Word) (len : Nat) : State :=
  { on { running with code := { ctl := (List.range l.length).map (fun i => (5 + i, l.getD i 0#64)), ctlLen := len } } with
    agenda := [⟨0, .core 0⟩] }

theorem alone (l : List Word) (n : Nat) : AloneMayIssue (fetching l n) 0 0 where
  awake := rfl
  inside := by show 0 < CfgSt.total {}; decide
  noLate := rfl
  noStop := rfl
  main := ⟨rfl, rfl, rfl⟩
  handlers := fun h _ => by simp [fetching, on, running, State.core, Seq.hctx, Sparse.get]
  sound := by simp [fetching, on, running, State.core, Sparse.get, Core.wordBad]
  early := by show State.tooLate _ _ = false; rfl

theorem test_meets_StepRunsTheDecodedWord :
    (fetching [0x0C00700000000000#64, 0x40#64] 7).agenda = [⟨0, .core 0⟩] ∧ AloneMayIssue (fetching [0x0C00700000000000#64, 0x40#64] 7) 0 0 ∧
    ((fetching [0x0C00700000000000#64, 0x40#64] 7).core 0).q.pcOf 0 + 2 ≤ 7 ∧
    decodeC (((fetching [0x0C00700000000000#64, 0x40#64] 7).core 0).cword 5) (((fetching [0x0C00700000000000#64, 0x40#64] 7).core 0).cword 6) =
      .ok (.lim 7 0x40#64, 2) ∧
    (let s := fetching [0x4C08000000000004#64] 7
     let held (n : Nat) : Core := { s.core 0 with e := { hnd := [(4, { st := n })] }, q := { (s.core 0).q with hold := [(0, { k := .reader 4 0, since := 4 })] } }
     decodeC ((s.core 0).cword 5) ((s.core 0).cword 6) = .ok (.hwait 4, 1) ∧ ((s.core 0).q.holdOf 0).k = .free ∧
     (∃ t, exec (.hwait 4) { s with agenda := [], cores := [(0, { s.core 0 with e := { hnd := [(4, { st := 1 })] } })] } = .next t ∧ t.waited = false ∧
       ((t.core 0).q.holdOf 0).k.unready = true ∧ ∀ h, h ≠ 0 → (t.core 0).contextRuns h = false) ∧
     (∃ t, exec (.hwait 4) (on (held 1)) = .next t ∧ t.waited = true) ∧ ((held 1).q.holdOf 0).k.unready = true ∧
     ∃ t, exec (.hwait 4) (on (held 2)) = .next t ∧ t.waited = false ∧ t.noClock = false ∧ ((t.core 0).q.holdOf 0).k.unready = false) ∧
    (∃ t, exec (.lim 7 0x40#64) (fetching [0x0C00700000000000#64, 0x40#64] 7) = .next t ∧ t.waited = false ∧ t.noClock = false ∧
      ((t.core 0).q.holdOf 0).k.unready = false) ∧
    (on { running with v := { qa := [{ i := .mpop vz, cap := { id := 4 } }] } }).me.v.queue 1 = [{ i := .mpop vz, cap := { id := 4 } }] ∧
    (Begins (on running) (.event (.taskDispatch 0)) []).halted = false ∧ (on running).tooLate (.event (.taskDispatch 0)) = false ∧
    vParts (.taskDispatch 0) = none ∧ encodeC (.taskDispatch 0) = [] :=
  ⟨rfl, alone _ _, by decide, by decide,
    ⟨by decide, by decide, ⟨_, rfl, by decide, by decide, fun h hh => by simp only [Core.contextRuns, if_neg hh]; rfl⟩,
      ⟨_, rfl, by decide⟩, by decide, ⟨_, rfl, by decide, by decide, by decide⟩⟩, ⟨_, rfl, by decide, by decide, by decide⟩, by decide, by decide, by decide, rfl, rfl⟩

theorem test_meets_FetchTraps : (∀ l n, AloneMayIssue (fetching l n) 0 0) ∧
    decodeC (((fetching [0x6000000000000000#64] 6).core 0).cword 5) (((fetching [0x6000000000000000#64] 6).core 0).cword 6) = .error .major ∧
    ((fetching [] 5).core 0).code.ctlLen ≤ ((fetching [] 5).core 0).q.pc ∧
    decodeC (((fetching [0x0C00700000000000#64] 6).core 0).cword 5) (((fetching [0x0C00700000000000#64] 6).core 0).cword 6) = .ok (.lim 7 0#64, 2) :=
  ⟨alone, by decide, by decide, by decide⟩

/-- Core 0 with s2 empty. -/
def empty2 : Core := { running with r := { sm := [(2, [4])] } }

theorem test_meets_SourcesWaitOrTrap : (on empty2).runs = true ∧ (on empty2).me.full 0 (.s 2 false) = false ∧ (on empty2).me.full 0 (.s 1 true) = true ∧
    inHandler.runs = true ∧ handlerOk (.br (cmp .al 0 0) 1#39) = handlerOk (.br (cmp .al 0 0) 1#39) ∧ handlerOk .crc = false ∧ handlerOk .nop = true ∧
    ({ inHandler with cores := [(0, { inHandler.me with r := { sm := [(130, [4])] } })] }).runs = true ∧
    ({ inHandler with cores := [(0, { inHandler.me with r := { sm := [(130, [4])] } })] }).me.full 2 (.s 2 true) = false := by decide

/-- Entry 1 LIVE over one page of L2 staging, 4,096 bytes; entry 2 FORWARDED to it; entry 3 DRAINING; entry 4 DEAD. -/
def table : Sparse PEntry :=
  [(1, { st := .live, gen := 3, kind := 1, rights := 15#4, len := 1, ranges := [(1, 0x8000000000)] }),
   (2, { st := .forwarded, gen := 6, fwd := 1, fgen := 3 }), (3, { st := .draining, gen := 1 }), (4, { st := .dead, gen := 1 })]
/-- Entry 2 FORWARDED to an entry that has gone on from the generation named, and entry 3 to one that is DEAD. -/
def forwardsGone : Sparse PEntry :=
  [(1, { st := .live, gen := 4 }), (2, { st := .forwarded, gen := 6, fwd := 1, fgen := 3 }), (3, { st := .forwarded, gen := 6, fwd := 4, fgen := 1 }),
   (4, { st := .dead, gen := 1 })]
/-- A token of entry `e`. -/
def tok (e g len : Nat) : Token := { entry := e, gen := g, rights := 15#4, kind := 1, base := 0, len := len }
/-- A state with that table. -/
def tabled : State := { run with pontil := table }

theorem test_meets_TokenChecks : (tabled.ent 3).st = .draining ∧ (tabled.ent 4).st = .dead ∧ ((tabled.ent 1).st = .live ∧ (tabled.ent 1).gen ≠ (tok 1 2 64).gen) ∧
    (tabled.ent 1).gen = (tok 1 3 64).gen ∧ (((tok 1 3 64).len * 64 : Nat) : Int) < 4095 + (2 : Nat) ∧ (tabled.ent 1).ranges = [(1, 0x8000000000)] ∧
    ((4094 : Int) + (2 : Nat) ≤ (((tok 1 3 64).len * 64 : Nat) : Int)) ∧ (tok 1 3 64).rights &&& rR = rR ∧
    (tabled.ent 1).vbase % 4096 + (tok 1 3 64).base * 64 + 4094 + 2 ≤ 1 * 4096 ∧
    (tabled.ent 2).st = .forwarded ∧ (tok 2 5 64).gen + 1 = (tabled.ent 2).gen ∧ (tabled.ent (tabled.ent 2).fwd).st = .live ∧ (tabled.ent 2).fwd ≠ 0 ∧
    (tabled.ent (tabled.ent 2).fwd).gen = (tabled.ent 2).fgen ∧ (tok 2 4 64).gen + 1 ≠ (tabled.ent 2).gen ∧
    (let s : State := { run with pontil := forwardsGone }
     (s.ent 2).st = .forwarded ∧ (tok 2 5 64).gen + 1 = (s.ent 2).gen ∧ (s.ent (s.ent 2).fwd).gen ≠ (s.ent 2).fgen ∧
       (s.ent 3).st = .forwarded ∧ (s.ent (s.ent 3).fwd).gen = (s.ent 3).fgen ∧ (s.ent (s.ent 3).fwd).st = .dead) := by
  decide

/-- Entry 5 LIVE over one page of HBM. -/
def hbm : PEntry := { st := .live, gen := 2, kind := 1, rights := 15#4, len := 4096, ranges := [(1, 0x10000)] }
/-- Core 0 with tokens k1 of entry 1, k3 of entry 3, k5 of entry 5, and scalars s1 and s2. -/
def holding (a b : Word) : Core :=
  { scalars running [a, b] with r := { (scalars running [a, b]).r with k := [(1, tok 1 3 64), (3, tok 3 1 64), (5, tok 5 2 64)] } }
/-- A state with entries 1 to 5 in which core 0 is `x`. -/
def within (x : Core) : State := { on x with pontil := table ++ [(5, hbm)] }
/-- A load or store at [k + s1]. -/
def ldf (ty k : Nat) : LdF := { ty := ty, d := 3, m := mem k 1 0#32, ord := plain }
/-- An atomic at [k + s1]. -/
def amof (w64 : Bool) (k : Nat) : AmoF :=
  { w64 := w64, d := 3, a := 2, b := 0, c := 1, fea := false, feb := false, fec := false, k := k, ord := plain, off := 0#32 }

theorem within_mayIssue (a b : Word) (i : Instr) (l : List Src) : MayIssue i l (within (holding a b)) := mayIssue rfl rfl rfl rfl

theorem test_meets_ScalarAccessesIssue : (∀ k ∈ [1, 3, 0], ∀ ty ∈ [0, 7], (Instr.ld (ldf ty k)).wf = true ∧ (Instr.st (ldf ty k)).wf = true) ∧
    (∀ i ∈ [Instr.amoAdd (amof true 1), .amoAnd (amof true 1), .amoOr (amof false 1), .amoXor (amof true 3), .amoMinS (amof true 0),
      .amoMaxS (amof true 1), .amoMinN (amof true 1), .amoMaxN (amof true 1), .amoSwap (amof true 1), .amoCas { amof true 1 with b := 1 },
      .amoFmaxF32 (amof false 1), .amoAmaxRr { amof false 1 with a := 0 }], i.wf = true) ∧ (∀ a i l, MayIssue i l (within (holding a 0#64))) ∧
    (∃ u pas, (within (holding 8#64 0#64)).check (tok 1 3 64) 8 8 rR = .pass u pas) ∧
    (within (holding 8#64 0#64)).check (tok 3 1 64) 8 8 rR = .wait ∧ (within (holding 8#64 0#64)).check {} 8 8 rR = .fail .bounds 0 ∧
    ((8#64).toInt + (0#32).toInt) % 8 = 0 ∧ ((6#64).toInt + (0#32).toInt) % 4 ≠ 0 :=
  ⟨by decide, by decide, fun _ _ _ => within_mayIssue _ _ _ _, ⟨_, _, rfl⟩, by decide, by decide, by decide⟩

/-- Bytes that are reachable are clean where nothing has gone wrong. -/
theorem cleanOf {s : State} {pas : List Nat} (hu : ∀ pa ∈ pas, s.unreachable pa = false) (hw : s.w = {}) : Clean s pas :=
  fun pa h => ⟨hu pa h, by rw [hw]; rfl, by rw [hw]; rfl, by rw [hw]; rfl, by rw [hw]; rfl⟩

/-- Where core 0 alone is listed and its stash is empty, nothing is dirty. -/
theorem noneDirty {s : State} {x : Core} (h : s.cores = [(0, x)]) (hs : x.stash = []) : NoneDirty s := fun d pa => by
  have e : (s.core d).line (pa / 64) = {} := by
    by_cases hd : d = 0
    · subst hd; simp [State.core, h, Core.line, Sparse.get, hs]
    · simp [State.core, h, Core.line, Sparse.get, Ne.symm hd]
  unfold WroteAt Core.wroteByte
  rw [e]; simp

/-- So no byte stands dirty. -/
theorem noDirty {s : State} {x : Core} (h : s.cores = [(0, x)]) (hs : x.stash = []) (d pa : Nat) : ¬DirtyAt s d pa :=
  fun hd => noneDirty h hs d pa hd.2

/-- Nor does its stash hold a mark or an error. -/
theorem stashesEmpty {s : State} {x : Core} (h : s.cores = [(0, x)]) (hs : x.stash = []) : StashesClean s := fun d p hp => by
  have e : (s.core d).stash = [] := by
    by_cases hd : d = 0
    · subst hd; simp [State.core, h, Sparse.get, hs]
    · simp [State.core, h, Sparse.get, Ne.symm hd]
  rw [e] at hp; exact absurd hp (List.not_mem_nil)

/-- Core 0 with one outstanding access. -/
def waiting (a : Acc) : State := on { running with acc := [a] }

/-- Where an access alone is outstanding and its bytes are clean, it may perform. -/
theorem mayLand {a : Acc} (h : a.chk = 1) (hr : a.rel = false) (hq : a.acq = false)
    (hu : ∀ pa ∈ a.pas, ({} : State).unreachable pa = false) (hl : ∀ pa ∈ a.pas, ({} : State).cfg.tier pa ≠ .host := by decide)
    (hb : a.bad = [] := by rfl) : MayLand (waiting a) 0 a where
  found := by
    show List.find? _ [a] = _
    simp
  checked := h
  alone := rfl
  order := fun b hb hn => by
    have : b ∈ [a] := hb
    simp only [List.mem_cons, List.not_mem_nil, or_false] at this
    subst this; exact absurd hn (Nat.lt_irrefl _)
  pops := .inr rfl
  released := fun e => by rw [hr] at e; cases e
  acquired := fun e => by rw [hq] at e; cases e
  linked := by
    refine List.all_eq_true.mpr (fun pa h => ?_)
    have : (!(({} : State).cfg.tier pa == .host)) = true := by simp [hl pa h]
    exact (Bool.or_eq_true _ _).mpr (.inl this)
  clean := fun pa h => ⟨hu pa h, rfl, rfl, rfl, rfl⟩
  stashClean := fun _ h => absurd h (List.not_mem_nil)
  storesClean := fun b h => by rw [List.mem_singleton.mp h]; exact hb

/-- Eight bytes from an address. -/
def eight (pa : Nat) : List Nat := (List.range 8).map (pa + ·)

theorem test_meets_LoadsAndStoresPerform :
    (MayLand (waiting (acc (.load true) 3 1 (eight 0x10000))) 0 (acc (.load true) 3 1 (eight 0x10000)) ∧ (eight 0x10000).length = 8 ∧
      (eight 0x10000).headD 0 % 8 = 0 ∧ (∀ pa ∈ eight 0x10000, ((waiting (acc (.load true) 3 1 (eight 0x10000))).core 0).ownStore 0 3 pa = none ∧
        ((waiting (acc (.load true) 3 1 (eight 0x10000))).core 0).stashByte pa = none)) ∧
    ((waiting (acc .sigRead 3 2 [])).core 0).findAcc 3 = some (acc .sigRead 3 2 []) ∧
    (MayLand (waiting { acc .store 3 1 (eight 0x10001) with data := eight 0 |>.map (BitVec.ofNat 8) }) 0
        { acc .store 3 1 (eight 0x10001) with data := eight 0 |>.map (BitVec.ofNat 8) } ∧
      (waiting (acc .store 3 1 (eight 0x10001))).stashed 0 (acc .store 3 1 (eight 0x10001)) = false ∧ 0x10001 % 8 ≠ 0 ∧ (eight 0x10000).Nodup) :=
  ⟨⟨mayLand rfl rfl rfl (by decide), by decide, by decide, by decide⟩, by decide, mayLand rfl rfl rfl (by decide), by decide, by decide, by decide⟩

theorem test_meets_AtomicsPerform : (∀ op ∈ [0, 9, 16, 17], MayLand (waiting (acc (.amo op) 3 1 (eight 0x10000))) 0 (acc (.amo op) 3 1 (eight 0x10000))) ∧
    (eight 0x10000).length = 8 ∧ (eight 0x10000).Nodup ∧ (∀ pa d, ¬DirtyAt (waiting (acc (.amo 0) 3 1 (eight 0x10000))) d pa) ∧ StashesClean (waiting (acc (.amo 0) 3 1 (eight 0x10000))) ∧
    ((waiting (acc (.amo 9) 3 2 [])).core 0).findAcc 3 = some (acc (.amo 9) 3 2 []) :=
  ⟨fun _ _ => mayLand rfl rfl rfl (show ∀ pa ∈ eight 0x10000, ({} : State).unreachable pa = false by decide)
    (show ∀ pa ∈ eight 0x10000, ({} : State).cfg.tier pa ≠ .host by decide), by decide, by decide, fun pa d => noDirty (x := { running with acc := [acc (.amo 0) 3 1 (eight 0x10000)] }) rfl rfl d pa,
    stashesEmpty (x := { running with acc := [acc (.amo 0) 3 1 (eight 0x10000)] }) rfl rfl, by decide⟩

theorem test_meets_AccessesPerformInOrder :
    (let a := acc (.load true) 3 1 (eight 0x10000)
     let b := { acc .store 4 1 (eight 0x10000) with rel := true }
     ((on { running with acc := [a, b] }).core 0).findAcc 4 = some b ∧ a ∈ ((on { running with acc := [a, b] }).core 0).acc ∧ a.id < b.id ∧
       a.ctx = b.ctx ∧ a.chk = 1 ∧ b.chk = 1 ∧ a.tok.kind ≠ 2 ∧ b.rel = true ∧ a.op.fills = true ∧ b.op = .store ∧ ∃ pa ∈ a.pas, pa ∈ b.pas) ∧
    (let a := { acc (.load true) 3 1 (eight 0x10000) with acq := true }
     a.acq = true ∧ a.op ≠ .vstore) ∧ ({ acc .store 3 1 [] with tok := { entry := 1, kind := 0 } } : Acc).tok.kind = 0 := by decide

theorem test_meets_Fences : (∀ i ∈ [Instr.fenceAcq true 0, .fenceRel false 5, .fenceAr true 3, .fenceSc false 1], i.wf = true) ∧
    (∀ i l, MayIssue i l run ∧ MayIssue i l (waiting (acc (.amo 0) 3 1 []))) ∧ fenceReads 5 run 9 = true ∧ fenceAll 5 run 9 = true ∧
    (∀ a ∈ (waiting (acc (.amo 0) 3 1 [])).me.acc, a.ctx = 0 ∧ a.id < 9 ∧ a.op.fills = true) :=
  ⟨by decide, fun _ _ => ⟨run_mayIssue _ _, mayIssue rfl rfl rfl rfl⟩, by decide⟩

/-- Core 0 with k1 of a LIVE entry, k2 of a FORWARDED one, k3 of a DRAINING one, k4 of a DEAD one and k5 stale, s12 and s13. -/
def tokens (b c : Word) : State :=
  within { running with r := { s := [(12, b), (13, c)], k := [(1, tok 1 3 64), (2, tok 2 5 64), (3, tok 3 1 64), (4, tok 4 0 64), (5, tok 5 1 64)] } }

theorem test_meets_TokenWords : (∀ i ∈ [Instr.tkchk (alu 63 31 0 0), .tkinfo (alu 63 1 0 0), .tkdrop (alu 0 1 0 0), .tkmov (alu 31 1 0 0),
    .tksub (alu 6 1 12 13)], i.wf = true) ∧ (∀ i l b c, MayIssue i l (tokens b c)) ∧ ((tokens 0#64 0#64).tk 0).entry = 0 ∧
    (∀ p ∈ [(1, PState.live), (2, .forwarded), (3, .draining), (4, .dead)], ((tokens 0#64 0#64).ent ((tokens 0#64 0#64).tk p.1).entry).st = p.2) ∧
    ((tokens 0#64 0#64).ent 5).gen ≠ ((tokens 0#64 0#64).tk 5).gen ∧
    ((tokens 0#64 0#64).tk 2).gen + 1 = ((tokens 0#64 0#64).ent 2).gen ∧ ((tokens 0#64 0#64).ent ((tokens 0#64 0#64).ent 2).fwd).gen = ((tokens 0#64 0#64).ent 2).fgen ∧
    (let s : State := { tokens 0#64 0#64 with pontil := forwardsGone }
     (s.ent (s.tk 2).entry).st = .forwarded ∧ (s.ent (s.ent 2).fwd).gen ≠ (s.ent 2).fgen ∧ (s.ent 3).st = .forwarded ∧ (s.ent (s.ent 3).fwd).st = .dead) ∧
    (let s := tokens 64#64 4032#64
     (s.sc 12).toNat % 64 = 0 ∧ (s.sc 13).toNat % 64 = 0 ∧ (s.sc 13).toNat ≠ 0 ∧ (s.sc 12).toNat + (s.sc 13).toNat ≤ (s.tk 1).len * 64) ∧
    (let s := tokens 64#64 4096#64
     (s.tk 1).len * 64 < (s.sc 12).toNat + (s.sc 13).toNat) :=
  ⟨by decide, fun _ _ _ _ => mayIssue rfl rfl rfl rfl, by decide⟩

/-- Core 0, whose task has no page table, waits for the end of a walk. -/
def walking (va len : Word) (st : PState) : State :=
  { on { scalars running [va, len] with q := { running.q with hold := [(0, { k := .walk (.xlatTry 12#4 (alu 5 1 2 6)), since := 4 })] }
                                        tlb := [{ asid := 0, vpn := 1, n := 1, pte := 0x1004F#64 }] } with
    pontil := [(1, { st := st, gen := 3, kind := 1, rights := 12#4, vbase := 0x1000, asid := 0, len := 64, ranges := [(1, 0x10000)] })] }

theorem test_meets_ExtentsTranslate : (∀ i ∈ [Instr.xlat 15#4 (alu 0 1 2 0), .xlatTry 8#4 (alu 31 1 2 63)], i.wf = true) ∧ (∀ i l, MayIssue i l run) ∧
    ((walking 0#64 0#64 .live).core 0).q.holdOf 0 = { k := .walk (.xlatTry 12#4 (alu 5 1 2 6)), since := 4 } ∧
    (∃ r p, (walking 1#64 64#64 .live).grant (some 0) 0 1 64 12#4 = .fail r p) ∧
    (∃ u tok, (walking 0x1000#64 64#64 .live).grant (some 0) 0 0x1000 64 12#4 = .ok u tok) ∧
    (∃ u e, ({ walking 0x1000#64 64#64 .live with cores := [(0, { (walking 0x1000#64 64#64 .live).core 0 with tlb := [] })], roots := [(0, 0x20000)]
                                                  pontil := [], w := { poison := [(0x20000, 1)] } } : State).grant (some 0) 0 0x1000 64 12#4 = .event u e) ∧
    (let x : Core := { running with q := { running.q with hold := [(0, { k := .walk (.xlat 12#4 (alu 5 1 2 6)), since := 4 })] } }
     (on x).me.beaten 0 4 = false ∧ x.q.tact = false ∧
       (on { x with q := { x.q with late := [{ clk := 3, cause := 1, info := 0#64, cont := false, vec := false, arr := 0 }] } }).me.beaten 0 4 = true) ∧
    (64 % 64 ≠ 0 ∨ 0 = 0) ∧ ¬(4096 % 64 ≠ 0 ∨ 64 = 0 ∨ 64 % 64 ≠ 0 ∨ 2 ^ 38 - 64 < 64 ∨ 2 ^ 48 < 4096 + 64) ∧
    Sparse.get 0 (walking 1#64 64#64 .live).roots 0 = 0 :=
  ⟨by decide, run_mayIssue, by decide, ⟨_, _, rfl⟩, ⟨_, _, rfl⟩, ⟨_, _, rfl⟩, by decide, by decide, by decide, by decide⟩

/-- Core 0, privileged, with the entry number in s1 and a token of entry 5 in k5; entry 1 is in state `st`. -/
def revoking (n : Nat) (st : PState) (hold : Hold := {}) (p : Bool := true) : State :=
  { on { scalars running [BitVec.ofNat 64 n] with q := { running.q with priv := p, hold := if hold = {} then [] else [(0, hold)] }
                                                  r := { s := [(1, BitVec.ofNat 64 n)], k := [(5, tok 5 2 64), (6, tok 5 1 64)] } } with
    pontil := [(1, { st := st, gen := 3, kind := 1, rights := 15#4, len := 4096, ranges := [(1, 0x20000)] }), (5, hbm)] }

theorem test_meets_RevocationStarts : (∀ i ∈ [Instr.tkrevKill (alu 0 1 0 0), .tkrevMove (alu 0 1 5 0)], i.wf = true) ∧
    (∀ n st i l, MayIssue i l (revoking n st)) ∧ (∀ i l, MayIssue i l (revoking 1 .live {} false)) ∧
    (let s := revoking 1 .live
     s.me.q.priv = true ∧ (s.sc 1).toNat = 1 ∧ (s.ent 1).st = .live ∧ (s.tk 5).entry ≠ 1 ∧ (s.ent (s.tk 5).entry).st = .live ∧
       (s.ent 5).gen = (s.tk 5).gen ∧ (s.ent 1).len ≤ (s.tk 5).len * 64 ∧ (s.tk 5).rights &&& (s.ent 1).rights = (s.ent 1).rights ∧
       (s.ent 5).gen ≠ (s.tk 6).gen ∧ s.check (s.tk 5) 0 0 0#4 = .pass (s.tk 5) [] ∧
       s.check (s.tk 6) 0 0 0#4 = .fail .stale 5) ∧
    ((revoking 1 .dead).check ((revoking 1 .dead).tk 5) 0 0 0#4 = .pass ((revoking 1 .dead).tk 5) []) ∧
    ((revoking 1 .dead).ent 1).st ≠ .live ∧ ((revoking 5 .live).tk 5).entry = ((revoking 5 .live).sc 1).toNat ∧
    2 ^ 20 ≤ ((revoking (2 ^ 20) .live).sc 1).toNat ∧ (revoking 1 .sweeping { k := .rev 1 }).hold.k = .rev 1 ∧
    ((revoking 1 .sweeping { k := .rev 1 }).ent 1).st = .sweeping ∧ ((revoking 1 .forwarded { k := .rev 1 }).ent 1).st = .forwarded ∧
    (revoking 1 .live {} false).me.q.priv = false :=
  ⟨by decide, fun _ _ _ _ => mayIssue rfl rfl rfl rfl, fun _ _ => mayIssue rfl rfl rfl rfl, by decide +kernel, by decide +kernel,
    by decide, by decide, by decide, by decide, by decide, by decide, by decide⟩

/-- Entry 1 in a state of its revocation, at a time. -/
def ending (e : PEntry) (now : Nat) : State := { on running with pontil := [(1, e), (5, { hbm with ranges := [(1, 0x20000)] })], now := now }

theorem test_meets_RevocationRuns :
    (let s := ending { hbm with st := .draining, move := true, fwd := 5 } 0
     (s.ent 1).st = .draining ∧ s.inUse 1 = false ∧ 4095 < (s.ent 1).len ∧ (s.ent 1).at_ 4095 = some 0x10FFF ∧
       (s.ent (s.ent 1).fwd).at_ 4095 = some 0x20FFF ∧ NoneDirty s) ∧
    (let s := ending { hbm with st := .sweeping, holders := 1#1024 } 0
     (s.ent 1).st = .sweeping ∧ (s.ent 1).holders.getLsbD 0 = true ∧ (s.ent 1).swept.getLsbD 0 = false ∧
       (s.ent 1).holders &&& ~~~(s.ent 1).swept ≠ 0#1024) ∧
    (let s := ending { hbm with st := .sweeping, holders := 1#1024, swept := 1#1024 } 0
     (s.ent 1).holders &&& ~~~(s.ent 1).swept = 0#1024) ∧
    (let s := ending { hbm with st := .dead, deadAt := 5 } (5 + 2 ^ 20)
     (s.ent 1).st = .dead ∧ s.inUse 1 = false ∧ (s.ent 1).pinned = false ∧ (s.ent 1).deadAt + 2 ^ 20 ≤ s.now) ∧
    (let s := ending { hbm with st := .dead, deadAt := 5 } (4 + 2 ^ 20)
     (s.ent 1).st = .dead ∧ s.now < (s.ent 1).deadAt + 2 ^ 20) ∧
    (let s := ending { hbm with st := .forwarded } 0
     (s.ent 1).st = .forwarded ∧ (s.ent 1).lists = 0#64 ∧ s.inUse 1 = false) ∧
    (let s := ending { hbm with st := .forwarded, lists := 1#64 <<< 63 } 0
     (s.ent 1).lists.getLsbD 63 = true) :=
  ⟨⟨by decide, by decide, by decide, by decide, by decide, noneDirty (x := running) rfl rfl⟩, by decide +kernel, by decide +kernel,
    by decide +kernel, by decide +kernel, by decide, by decide⟩

/-- Core 0 with k5, a stash window over 64 bytes of entry 5, and s1. -/
def mapped (a : Word) (size : Nat) : State :=
  within { holding a 0#64 with wins := if size = 0 then [] else [(3, { tok := tok 5 2 64, off := 64, size := size })] }

theorem test_meets_StashWindows : (∀ i ∈ [Instr.stashMap 63 (mem 5 1 0#32), .stashMap 3 (mem 5 1 0xFC0#32), .stashWb 3, .stashUnmap 3, .stashInv 63], i.wf = true) ∧
    (∀ a n i l, n ∈ [0, 64] → MayIssue i l (mapped a n)) ∧
    (let s := mapped 64#64 0
     (s.tk 5).entry ≠ 0 ∧ (s.ent (s.tk 5).entry).st = .live ∧ (s.ent (s.tk 5).entry).gen = (s.tk 5).gen ∧ (Sparse.get {} s.me.wins 3).size = 0 ∧
       (0xFC0#32).toInt % 64 = 0 ∧ (s.sc 1).toNat % 64 = 0 ∧ (s.sc 1).toNat ≠ 0 ∧ s.me.mapped + 64 ≤ 2 ^ 22 ∧
       (0xFC0#32).toInt + ((s.sc 1).toNat : Int) ≤ ((s.tk 5).len * 64 : Nat) ∧
       (∀ r ∈ (s.ent (s.tk 5).entry).ranges, s.cfg.tier r.2 ≠ .l2 ∧ s.cfg.tier r.2 ≠ .bdeck) ∧
       ¬((0x1000#32).toInt + ((s.sc 1).toNat : Int) ≤ ((s.tk 5).len * 64 : Nat))) ∧
    ((mapped 64#64 64).win 3).size ≠ 0 ∧ (mapped 64#64 64).winQuiet 0 ((mapped 64#64 64).win 3) 9 = true ∧ ((mapped 0#64 64).win 63).size = 0 :=
  ⟨by decide, fun a n _ _ h => by
    simp only [List.mem_cons, List.not_mem_nil, or_false] at h
    rcases h with rfl | rfl <;> exact mayIssue rfl rfl rfl rfl, by decide, by decide, by decide, by decide⟩

/-- A task of launch 1 that started from an initial record. -/
def task : Task := { uid := 1, r := { w1 := 1#64 }, linst := 1, initial := true }
/-- Launch 1 runs on 64 cores of pane 0: groups of two at level 0. -/
def launch1 : Launch :=
  { st := .running, linst := 1, kern := { widths := [1], colevel := 0, stages := [{ num := 0, chan := 0, entry := 0 }] }, cnum := 64, chans := [3]
    words := List.replicate 12 0#64 ++ [2#64] }
/-- Core 0 runs the task, with a hold. -/
def member (h : Hold) : Core := { running with task := some task, q := { running.q with hold := if h = {} then [] else [(0, h)] } }
/-- Launch 1 with its members on core 0. -/
def grouped (h : Hold) (arr : List Nat) (dep : Nat) : State :=
  { on (member h) with d := { launches := [(1, launch1)], bars := if arr = [] then [] else [{ linst := 1, grp := 0, lvl := 0, arr := arr, dep := dep }] } }
/-- A future or signal word at [k + s1]. -/
def sync (k : Nat) : SyncF := { d := 2, m := mem k 1 0#32, ord := plain }
/-- Core 0 waits for a signal. -/
def signalled (met : Bool) (target : Word) : State :=
  on { running with q := { running.q with hold := [(0, { k := .sig 0x10000 target true 3 met 5, since := 4 })] } }

theorem test_meets_BarriersAndSignals :
    (∀ i ∈ [Instr.bar 0 2, .bar 5 0, .sigAdd (sync 5), .sigSet (sync 5), .sigRead (sync 5), .sigWait (sync 5)], i.wf = true) ∧
    (∀ i l, MayIssue i l (grouped {} [] 0)) ∧ (∀ a i l, MayIssue i l (within (holding a 7#64))) ∧
    (let s := grouped {} [] 0
     s.me.task = some task ∧ 0 ≤ (s.launch 1).kern.colevel ∧ (s.launch 1).kern.colevel ≠ 0xFF ∧ task.initial = true ∧ s.me.q.tact = false ∧
       (s.bar 1 0 0).dep < (s.launch 1).groupSize 0 ∧ ¬(5 ≤ (s.launch 1).kern.colevel) ∧ (s.bar 1 0 0).arr = []) ∧
    (let s := grouped { k := .bar 0 2, since := 4 } [0] 1
     (s.bar 1 0 0).arr ≠ [] ∧ (s.bar 1 0 0).arr.length + (s.bar 1 0 0).dep = (s.launch 1).groupSize 0 ∧ (∀ c ∈ (s.bar 1 0 0).arr, s.barReady c = true) ∧
       (s.core 0).q.holdOf 0 = { k := .bar 0 2, since := 4 }) ∧
    ((8#64).toInt + (0#32).toInt) % 8 = 0 ∧ ((4#64).toInt + (0#32).toInt) % 8 ≠ 0 ∧
    (MayLand (waiting (acc .sigAdd 3 1 (eight 0x10000))) 0 (acc .sigAdd 3 1 (eight 0x10000)) ∧ (eight 0x10000).Nodup ∧
      (∀ d pa, ¬DirtyAt (waiting (acc .sigAdd 3 1 (eight 0x10000))) d pa) ∧ StashesClean (waiting (acc .sigAdd 3 1 (eight 0x10000)))) ∧
    (MayLand (waiting (acc .sigRead 3 1 (eight 0x10000))) 0 (acc .sigRead 3 1 (eight 0x10000)) ∧
      ∀ pa ∈ eight 0x10000, ((waiting (acc .sigRead 3 1 (eight 0x10000))).core 0).ownStore 0 3 pa = none) ∧
    (∃ u pas, (within (holding 8#64 7#64)).check (tok 5 2 64) 8 8 rR = .pass u pas) ∧ (within (holding 8#64 7#64)).popPending 0 0 9 = false ∧
    (within (holding 4096#64 7#64)).check (tok 5 2 64) 4096 8 rR = .fail .bounds 5 ∧
    (signalled false 1#64).valueAt (eight 0x10000) < (1#64).toNat ∧ (0#64).toNat ≤ (signalled false 0#64).valueAt (eight 0x10000) ∧
    (signalled true 9#64).acquireReady 0 3 (eight 0x10000) = true ∧ ((signalled true 9#64).core 0).noneOvertaken 0 = true ∧
    Clean (signalled true 9#64) (eight 0x10000) ∧ (signalled true 9#64).linked (eight 0x10000) = true :=
  ⟨by decide, fun _ _ => mayIssue rfl rfl rfl rfl, fun _ _ _ => within_mayIssue _ _ _ _, by decide, by decide, by decide, by decide,
    ⟨mayLand rfl rfl rfl (by decide), by decide, noDirty (x := { running with acc := [acc .sigAdd 3 1 (eight 0x10000)] }) rfl rfl, stashesEmpty (x := { running with acc := [acc .sigAdd 3 1 (eight 0x10000)] }) rfl rfl⟩,
    ⟨mayLand rfl rfl rfl (by decide), by decide⟩, ⟨_, _, rfl⟩, by decide, by decide, by decide, by decide, by decide, by decide,
    cleanOf (by decide) rfl, by decide⟩

/-- The sixty-four bytes of a future. -/
def future : List Nat := (List.range 64).map (0x10000 + ·)
/-- Core 0 waits, drained, at a `fut.wait` through k5. -/
def atFuture : State :=
  { within { holding 0#64 7#64 with task := some task, q := { running.q with hold := [(0, { k := .fut (sync 5) 0 false, since := 4 })] } } with
    d := { launches := [(1, launch1)], rels := [(2, [{ at' := 0, put := 0, rel := .table { w0 := 0x100000000#64 } 0x10000 9#64 }])] } }

theorem test_meets_Futures :
    (∀ i ∈ [Instr.futPut (sync 5), .futClr (sync 5), .futWait (sync 5)], i.wf = true) ∧ (∀ a b i l, MayIssue i l (within (holding a b))) ∧
    ((0#64).toInt + (0#32).toInt) % 64 = 0 ∧ ((32#64).toInt + (0#32).toInt) % 64 ≠ 0 ∧
    (∃ u pas, (within (holding 0#64 7#64)).check (tok 5 2 64) 0 64 (rW ||| rA) = .pass u pas) ∧ (7#64).toNat < 2 ^ 52 ∧
    (7#64).toNat % 2 ^ 32 < (within (holding 0#64 7#64)).me.code.ctlLen ∧ (within (holding 0#64 200#64)).me.code.ctlLen ≤ (200#64).toNat % 2 ^ 32 ∧
    (on { running with q := { running.q with hold := [(0, { k := .slice, since := 4 })] } }).hold.k = .slice ∧
    (∀ op ∈ [AOp.futPut, .futClr], MayLand (waiting (acc op 3 1 future)) 0 (acc op 3 1 future)) ∧ future.length = 64 ∧ future.Nodup ∧
    ((waiting (acc .futPut 3 1 future)).futAt future).full = false ∧ ((waiting (acc .futPut 3 1 future)).futAt future).rcnt = 0 ∧
    (atFuture.me.q.holdOf 0 = { k := .fut (sync 5) 0 false, since := 4 } ∧ atFuture.quiet 0 = true ∧ atFuture.performed 0 = true ∧
      atFuture.me.partner = none ∧ atFuture.me.task = some task ∧ atFuture.me.c.kstat &&& 7#64 = 0#64 ∧ atFuture.releaseReady 0 4 0x400 3 false = true ∧
      atFuture.tableUsed 0 < 512 ∧ atFuture.me.deliv = [] ∧ NoneDirty atFuture ∧ Clean atFuture future ∧ atFuture.linked future = true) ∧
    (∃ u, atFuture.check (atFuture.tk 5) 0 64 (rR ||| rA) = .pass u future) ∧ atFuture.releases 2 = [{ at' := 0, put := 0, rel := .table { w0 := 0x100000000#64 } 0x10000 9#64 }] ∧ 0 ≤ atFuture.now ∧ atFuture.releaseClear 0x10000 = true ∧
    (∀ d ∈ ({ atFuture with d := { rels := [(2, [{ at' := 1, put := 0, rel := .table {} 0x10000 9#64 }])] } } : State).releases 2, atFuture.now < d.at') ∧
    (atFuture.launch 1).input 0 = some 3 ∧ (atFuture.launch 1).st = .running :=
  ⟨by decide, fun _ _ _ _ => within_mayIssue _ _ _ _, by decide, by decide, ⟨_, _, rfl⟩, by decide, by decide, by decide, by decide,
    fun _ _ => mayLand rfl rfl rfl (show ∀ pa ∈ future, ({} : State).unreachable pa = false by decide +kernel)
      (show ∀ pa ∈ future, ({} : State).cfg.tier pa ≠ .host by decide +kernel), by decide, by decide +kernel,
    by decide +kernel, by decide +kernel,
    ⟨by decide, by decide, by decide, by decide, by decide, by decide, by decide, by decide, rfl,
      noneDirty (x := { holding 0#64 7#64 with task := some task, q := { running.q with hold := [(0, { k := .fut (sync 5) 0 false, since := 4 })] } }) rfl rfl,
      cleanOf (by decide +kernel) rfl, by decide +kernel⟩,
    ⟨tok 5 2 64, by decide +kernel⟩, by decide, by decide, by decide, by decide, by decide, by decide⟩

/-- Core 0 with handle 63 in a state, and s1. -/
def handled (v : Handle) (a : Word) : State := on { scalars running [a] with e := { hnd := [(63, v)] } }

theorem test_meets_BufferHandles : (∀ i ∈ [Instr.hset 63 1 false, .harr 63 1 true, .hdrain 63, .hfree 63, .hwait 63, .hinfo 0 63], i.wf = true) ∧
    (∀ v a i l, MayIssue i l (handled v a)) ∧ (∀ n ∈ [0, 1, 2, 3], ((handled { st := n } 1#64).me.e.handle 63).st = n) ∧
    ((handled {} 65535#64).sc 1).toNat ≤ 65535 ∧ 65535 < ((handled {} 65536#64).sc 1).toNat ∧ 0 < ((handled { st := 1, arr := 1 } 0#64).me.e.handle 63).arr ∧
    (handled { st := 2 } 0#64).me.e.names 63 = false ∧ (handled { st := 3 } 0#64).readers 0 63 = false ∧
    ((handled { st := 1 } 0#64).me.e.handle 63).cnt = 0#40 :=
  ⟨by decide, fun _ _ _ _ => mayIssue rfl rfl rfl rfl, by decide, by decide, by decide, by decide, by decide, by decide, by decide⟩

/-- Core 0 runs a task of launch 1, with k5, and queue 3 is `q`. -/
def queued (l : List Word) (q : Queue) : State :=
  { on { scalars running l with task := some task, r := { (scalars running l).r with k := [(5, tok 5 2 64)] } } with
    queues := [(3, q)], pontil := [(5, hbm)] }

/-- The words of a queue instruction issue. -/
theorem queued_mayIssue (l : List Word) (q : Queue) (i : Instr) (k : List Src) : MayIssue i k (queued l q) := mayIssue rfl rfl rfl rfl

theorem test_meets_QueueWords : (∀ i ∈ [Instr.qpush (alu 0 1 8 5), .qpop (alu 48 1 0 5), .qtry (alu 48 1 60 5), .qinfo (alu 3 1 0 0), .qbind (alu 0 1 2 0),
      .qbind (alu 0 1 2 5)], i.wf = true) ∧ (∀ l q i k, MayIssue i k (queued l q)) ∧
    (let s := queued [3#64, 0x48#64] { st := 1, owner := 1, depth := 4 }
     s.qname 0 3#64 = some 3 ∧ s.me.partner = none ∧ (0x48#64).toNat < 2 ^ 60 ∧ s.owns 3 = true ∧ 3 / 256 = s.cfg.paneOf 0 ∧
       (s.queue 3).items.length ≤ 4 ∧ (recordsOf (s.queue 3)).countP Option.isNone < 16 ∧
       (s.queue 3).st = 1 ∧ (s.queue 3).items = [] ∧ (s.queue 3).rmeta = [] ∧ (s.queue 3).stalled = [] ∧
       (s.sc 2).toNat < 2 ^ 9 ∧ 1 ≤ (s.sc 2).toNat % 64 ∧ (s.sc 2).toNat % 64 ≤ 32 ∧ (s.sc 2).getLsbD 6 = true ∧ (s.tk 5).entry ≠ 0 ∧
       (s.ent (s.tk 5).entry).st = .live ∧ (s.ent (s.tk 5).entry).gen = (s.tk 5).gen ∧ 1 ≤ (s.tk 5).len ∧ (s.tk 5).len < 2 ^ 30 ∧
       (s.tk 5).rights &&& 0xC#4 = 0xC#4 ∧ (s.tk 0).entry = 0) ∧
    ((queued [3#64, 0x08#64] {}).sc 2).getLsbD 6 = false ∧ (queued [] {}).qname 0 0x2000#64 = none ∧ (queued [] {}).owns 3 = false ∧
    ((queued [] {}).queue 3).st = 0 :=
  ⟨by decide, queued_mayIssue, by decide, by decide, by decide, by decide, by decide⟩

/-- A push, and a pop, of core 0. -/
def push : QReq := { core := 0, ctx := 0, id := 7, op := .push { w0 := 5#64 } false }
def pop (op : QOp) : QReq := { core := 0, ctx := 0, id := 7, op := op }
/-- A queue with one record. -/
def one : Queue := { st := 1, owner := 1, depth := 1, items := [.here { w1 := 9#64 } false 0 []] }
/-- The sixty-four bytes at the start of entry 5. -/
def line5 : List Nat := (List.range 64).map (0x10000 + ·)

theorem test_meets_QueuesResolve :
    (∀ q ∈ [{ st := 1, depth := 1, arrive := [push] }, { one with arrive := [push] }, { one with arrive := [push], spill := true, ring := tok 5 2 64 },
        { st := 2, arrive := [push] }], let s := queued [] q
      (s.queue 3).doneAt ≠ s.now + 1 ∧ (s.queue 3).arrive = [push] ∧ (s.queue 3).pops = [] ∧ (s.queue 3).stalled = [] ∧ s.pushReady push = true ∧ (s.queue 3).stage = 0 ∧
        (s.queue 3).rmeta = [] ∧ (s.core 0).partner = none) ∧
    (∃ u, (queued [] one).check (tok 5 2 64) 0 64 rW = .pass u line5) ∧ line5.length = 64 ∧ line5.Nodup ∧
    (let q : Queue := { one with arrive := [push], spill := true, ring := tok 5 2 64 }
     NoneDirty (queued [] q) ∧ (queued [] q).linked line5 = true ∧ 0 < q.ring.len ∧ ∀ j, QItem.refill (q.rhead % max q.ring.len 1) j ∉ q.items) ∧
    (let q : Queue := { one with stage := 1, items := [.here { w0 := 1#64 <<< 58, w7 := 0x100000000#64 } false 0 []] }
     let s : State := { queued [] q with d := { launches := [(1, { st := .running, linst := 1 })] } }
     (s.queue 3).stage ≠ 0 ∧ (s.launch (Rec.linst { w7 := 0x100000000#64 })).st = .running ∧
       (s.launch (Rec.linst { w7 := 0x100000000#64 })).grouped { w0 := 1#64 <<< 58, w7 := 0x100000000#64 } false = true) ∧
    (queued [] { one with doneAt := 1 }).now + 1 = ((queued [] { one with doneAt := 1 }).queue 3).doneAt ∧
    (∀ r ∈ [pop (.pop 48 5), pop (.tryPop 48 5 60)], ∀ q ∈ [{ one with arrive := [r] }, { st := 1, arrive := [r] }, { st := 2, arrive := [r] }],
      (queued [] q).popBlocked 3 r = false ∧ q.rmeta = [] ∧ (queued [] q).queue 3 = q) ∧
    recordsOf one = [some { w1 := 9#64 }] ∧
    (let q : Queue := { st := 1, spill := true, depth := 4, rmeta := [true, false] }
     q.items.length < q.depth ∧ (recordsOf q).countP Option.isNone < 8 ∧ (queued [] q).queue 3 = q) ∧
    (let s := { queued [] { one with stage := 1, items := [.here { w7 := 0x100000000#64 } false 0 []] } with d := { launches := [(1, { st := .running, linst := 1 })] } }
     (recordsOf (s.queue 3)).head? = some (some { w7 := 0x100000000#64 }) ∧ (s.launch (Rec.linst { w7 := 0x100000000#64 })).st = .running ∧
       s.canServe (s.launch (Rec.linst { w7 := 0x100000000#64 })) false = false) :=
  ⟨by decide, ⟨tok 5 2 64, by decide +kernel⟩, by decide, by decide +kernel,
    ⟨noneDirty (x := { scalars running [] with task := some task, r := { (scalars running []).r with k := [(5, tok 5 2 64)] } }) rfl rfl, by decide +kernel,
      by decide, fun _ => by simp [one]⟩, by decide, by decide, by decide, by decide, by decide, by decide⟩

/-- A record on its way to core 0. -/
def deliv (d : Deliv) : State := { on { running with deliv := [d] } with pontil := [(5, hbm)] }

theorem test_meets_RecordsArrive :
    (let s := queued [] { st := 1, spill := true, depth := 4, items := [.refill 0 true], ring := tok 5 2 64 }
     (s.queue 3).items = [] ++ .refill 0 true :: [] ∧ (∃ u, s.check (s.queue 3).ring (64 * 0 : Nat) 64 rR = .pass u line5) ∧
       line5.length = 64 ∧ Clean s line5 ∧ s.linked line5 = true) ∧
    (queued [] {}).check {} (64 * 0 : Nat) 64 rR = .fail .bounds 0 ∧
    (let d : Deliv := { id := 7, ctx := 0, q := 3, d := 56, k := 5, st := some 55, code := 1, r := { w2 := (tok 5 2 64).word } }
     ((deliv d).core 0).deliv = [d] ∧ d.d + 8 ≤ 64 ∧ d.r.frame.entry = 5 ∧ ((deliv d).ent 5).st = .live ∧ ((deliv d).ent 5).gen = d.r.frame.gen) ∧
    (let d : Deliv := { id := 7, ctx := 3, q := 3, d := 1, k := 0, st := some 9, code := 0, r := {} }
     d.r.frame.entry = 0 ∧ (d.st ≠ none ∨ d.code ≠ 2)) ∧
    (let d : Deliv := { id := 7, ctx := 0, q := 3, d := 0, k := 0, st := none, code := 2, r := {}, push := true }
     ((deliv d).core 0).deliv = [d] ∧ d.push = true) :=
  ⟨⟨by decide, ⟨tok 5 2 64, by decide +kernel⟩, by decide, cleanOf (by decide +kernel) rfl, by decide +kernel⟩, by decide, by decide, by decide, by decide⟩

/-- A copy between byte 0 and byte 0x800 of entry 5. -/
def cpy : CpyF :=
  { h := 4, a := 1, b := 2, c := 3, fea := false, feb := false, fec := false, ord := plain, sk := 5, dk := 5, sf := false, df := 0
    nlvl := 1, ntf := true, mir := false, haddr := 9 }
/-- Its command. -/
def cmd : CopyCmd := { id := 4, ctx := 0, f := cpy, a := 0#64, b := 0x800#64, c := 64#64, st := tok 5 2 64, dt := tok 5 2 64, pc := 5, depth := 0 }
/-- Core 0 with copy commands, handle 4 FILLING and level 0 of three copies. -/
def copying (l : List CopyCmd) (n : Nat) (c : Word) : State :=
  { on { scalars running [0#64, 0x800#64, c] with
         e := { copies := l, hnd := [(4, { st := 1, cnt := 640#40 })], lvl := if n = 0 then [] else [(0, { count := n, ss := 128#64, ds := 64#64 })] } } with
    pontil := [(5, hbm)] }

theorem test_meets_CopyWords : (∀ lvl ∈ [0, 5], (Instr.cpyLvl lvl (alu 0 3 1 2)).wf = true) ∧
    (∀ i ∈ [Instr.cpyGo cpy, .cpyGo { cpy with h := 5 }, .cpyCancel 4, .cpyStat 3 4], i.wf = true) ∧
    (∀ l n c i k, MayIssue i k (copying l n c)) ∧
    (((copying [] 3 64#64).sc 3).toNat < 2 ^ 32 ∧ 2 ^ 32 ≤ ((copying [] 3 0x100000000#64).sc 3).toNat ∧
      (∀ k ∈ (copying [cmd] 3 0#64).me.e.copies, k.f.nlvl ≤ 5) ∧ ((copying [] 3 64#64).me.e.handle cpy.h).st = 1 ∧
      ((copying [] 3 64#64).me.e.handle 5).st ≠ 1 ∧ ((copying [] 3 64#64).sc cpy.c).toNat ≠ 0) ∧
    (∀ k ∈ (copying [cmd] 3 0#64).me.e.copies, k.f.h = 4 → k.fl = [] ∧ k.cancelled = false) ∧
    (∃ k ∈ (copying [{ cmd with fl := [{ src := 0, dst := 0 }] }] 3 0#64).me.e.copies, k.f.h = 4 ∧ k.fl ≠ []) :=
  ⟨by decide, by decide, fun _ _ _ _ _ => mayIssue rfl rfl rfl rfl, by decide, by decide, by decide⟩

/-- A copy in flight, with all its bytes read. -/
def flown : CopyFl := { src := 0, dst := 0x800, got := [{ n := 0, data := List.replicate 64 (some 7#8), bad := [] }] }
/-- Core 0 with the command under way and one copy in flight. -/
def inFlight (f : CopyFl) : State := copying [{ cmd with started := true, emitted := true, fl := [f] }] 3 0#64

theorem test_meets_CopiesRun :
    ((copying [cmd] 3 0#64).core 0).e.copies = [cmd] ∧ (copying [cmd] 3 0#64).engFree 0 0 4 0 = true ∧
    (∃ l ∈ [Sparse.get {} ((copying [cmd] 0 0#64).core 0).e.lvl 0], l.count = 0) ∧
    (Sparse.get {} ((copying [cmd] 3 0#64).core 0).e.lvl 0).count ≠ 0 ∧
    (let s := inFlight { flown with got := [] }
     (cmd.srcBlocks s.cfg { flown with got := [] }).length = 1 ∧
      (∀ p ∈ cmd.srcBlocks s.cfg { flown with got := [] }, s.checkBlock cmd.st rR p = .pass (tok 5 2 64) line5 ∧ (tok 5 2 64).kind ≠ 2 ∧
        (copying [] 3 0#64).checkBlock {} rR p = .fail .bounds 0) ∧ Clean s line5 ∧ s.linked line5 = true ∧ cmd.f.ord.acq = false ∧
      ∀ ln, ((s.core 0).line ln).dirty = 0#4) ∧
    (let s := inFlight flown
     (s.core 0).partner = none ∧ cmd.f.ord.rel = false ∧ (cmd.dstBlocks s.cfg flown).length = 1 ∧ flown.wrote.length = 0 ∧
      (∀ p ∈ cmd.srcBlocks s.cfg flown, p.1 = 64) ∧ (flown.got.find? (fun q => q.n == 0)).isSome = true ∧
      (∀ q ∈ flown.got, q.data.length = 64 ∧ q.bad = [] ∧ ∀ b ∈ q.data, b ≠ none) ∧
      (∀ p ∈ cmd.dstBlocks s.cfg flown, p.1 = 64 ∧ s.checkBlock cmd.dt rW p = .pass (tok 5 2 64) (line5.map (· + 0x800))) ∧
      (line5.map (· + 0x800)).Nodup ∧ (line5.map (· + 0x800)).length = 64 ∧ s.linked (line5.map (· + 0x800)) = true ∧
      ∀ pa ∈ line5.map (· + 0x800), s.unreachable pa = false) ∧
    (cmd.dstBlocks {} { flown with wrote := [0] }).length ≤ 1 ∧ (cmd.srcBlocks {} flown).length ≤ flown.got.length ∧
    (inFlight { flown with wrote := [0] }).unitsHeld 0 cmd.wseq 0 = false ∧
    ({ inFlight { flown with wrote := [0], unit := 2 } with
       w := { held := [{ core := 0, seq := (cmd.wseq + 1) * 2 ^ 32 + 1, since := 0, op := .bytes [] [] 4 [] [] }] } } : State).unitsHeld 0 cmd.wseq 2 = true ∧
    nestPos [{ count := 3 }] [2] + 1 = nestSize [{ count := 3 }] ∧ nestPos [{ count := 3 }] [0] + 1 < nestSize [{ count := 3 }] ∧
    8 ≤ (List.replicate 8 flown).length ∧ -(2 ^ 39) ≤ (640#40).toInt - (64#64).toNat ∧ (running.q.hctx 1).st = .dormant ∧
    (∃ a ∈ (on { running with acc := [acc (.load true) 3 1 []], e := { copies := [cmd] } }).me.acc, a.ctx = cmd.ctx ∧ a.id < cmd.id ∧ a.op ≠ .vstore) :=
  ⟨by decide, by decide, by decide, by decide,
    ⟨by decide, by decide +kernel, cleanOf (by decide +kernel) rfl, by decide +kernel, rfl, fun _ => rfl⟩,
    by decide +kernel, by decide, by decide, by decide, by decide, by decide, by decide, by decide, by decide, by decide, by decide⟩


/-- A Marver memory command over [k5 + s2]. -/
def mxm : MxMemF := { d := 3, a := 5, b := 2, c := 4, fea := false, feb := false, fec := false, ord := plain, k := 5, off := 64#32 }
/-- Core 0 runs the task, holds the lease and accumulator 5 of Marver 0, and has a column word in s1. -/
def leased (l : List Word) (holder : Option Nat) : State :=
  { on { scalars running l with task := some task, r := { (scalars running l).r with k := [(5, tok 5 2 64)] } } with
    mx := [(0, { holder := holder, left := 64 })], accOwner := [(5, 1)], pontil := [(5, hbm)] }

theorem leased_mayIssue (l : List Word) (h : Option Nat) (i : Instr) (k : List Src) : MayIssue i k (leased l h) := mayIssue rfl rfl rfl rfl

/-- An `mx.out` of rows 120 to 127, and an `mx.mm`. -/
def outf (dst : Bool) : OutF :=
  { d := 3, z := 5, b := if dst then 2 else 0, c := 0, feb := false, fec := false, ord := plain, dst := dst, ty := 10, rm := 0, sat := false, clr := false
    r0 := 120, nr := 7, c0 := 480, nc := 32, k := if dst then 5 else 0, vn := if dst then 0 else 2040 }
def mmf : MmF := { d := 3, t := 1, z := 5, h := 0, slot := 767, c0 := 511, nc := 1, klen := 1, cb := 7, hw := false, tr := false, mir := false }

theorem test_meets_MarverCommandsIssue :
    (∀ i ∈ [Instr.mxCbtab { mxm with c := 0 }, .mxBld { mxm with a := 1, c := 0 }, .mxBldMirror { mxm with a := 1, c := 0 }, .mxTld mxm, .mxZld { mxm with c := 0 },
      .mxZst { mxm with c := 0 }, .mxMm mmf, .mxKat 3 0 15 0#64, .mxZalloc 3 5, .mxZcpy 3 5 5, .mxOut (outf true), .mxOut (outf false)], i.wf = true) ∧
    (∀ l h i k, MayIssue i k (leased l h)) ∧
    (let s := leased [0x04000000#64, 0#64, 0#64, 64#64] (some 0)
     (s.mxOwn 0).length < 4 ∧ s.zallocs 0 5 = false ∧ (s.marver (s.cfg.marver 0)).holder = some 0 ∧ s.holdsZ 0 5 = true ∧ s.holdsZ 0 6 = false ∧
       ((s.sc mxm.b).toInt + mxm.off.toInt) % 64 = 0 ∧ (s.sc mxm.c).toNat % 64 = 0 ∧ 1 ≤ (s.sc 1).toNat / 2 ^ 26 % 2 ^ 10 ∧
       (s.sc 1).toNat / 2 ^ 17 % 2 ^ 9 + (s.sc 1).toNat / 2 ^ 26 % 2 ^ 10 ≤ s.cfg.ncol / 2 ∧ mmf.c0 + mmf.nc ≤ s.cfg.ncol ∧ 15 < s.cfg.ncol / 32) ∧
    ((leased [0x04000000#64, 8#64] none).marver ((leased [] none).cfg.marver 0)).holder ≠ some 0 ∧ ((8#64).toInt + mxm.off.toInt) % 64 ≠ 0 ∧
    (outf true).r0 + (outf true).nr + 1 ≤ 128 ∧ (outf true).c0 + (outf true).nc ≤ 512 ∧ (outf false).vn + ((outf false).nr + 1) * 1 ≤ 2048 :=
  ⟨by decide, leased_mayIssue, by decide, by decide, by decide, by decide, by decide, by decide⟩

/-- Core 0 with Marver 0 in a state. -/
def atMarver (m : Marver) (x : Core := running) : State := { on x with mx := [(0, m)] }

theorem test_meets_MarverLease : (∀ i ∈ [Instr.mxLease, .mxFree, .mxZfree 5], i.wf = true) ∧ (∀ m i l, MayIssue i l (atMarver m)) ∧
    (∀ l h i k, MayIssue i k (leased l h)) ∧
    (atMarver { holder := some 0 }).cfg.marver 0 = 0 ∧ (∀ w ∈ ({ holder := some 0, waiters := [] } : Marver).waiters, w = 0) ∧
    (0 ∉ ({ holder := some 0, waiters := [1] } : Marver).waiters ∧ ({ holder := some 0, waiters := [1] } : Marver).waiters ≠ []) ∧
    ({ holder := some 1 } : Marver).holder ≠ some 0 ∧
    (atMarver { holder := some 0 } { running with q := { running.q with hold := [(0, { k := .lease, since := 4 })] } }).hold.k = .lease ∧
    (let s := atMarver { waiters := [1, 0], last := 1023 }
     (s.marver 0).holder = none ∧ (s.marver 0).waiters ≠ [] ∧ (∀ w ∈ (s.marver 0).waiters, (s.core w).c.prio ≤ 3 ∧ w < 1024) ∧ (s.marver 0).last < 1024) ∧
    (∀ n ∈ [1, 2], (atMarver { holder := some 0, left := n }).marver 0 = { holder := some 0, left := n }) ∧
    (let s := leased [] (some 0)
     s.holdsZ 0 5 = true ∧ s.mxOwn 0 = [] ∧ s.holdsZ 0 6 = false ∧ s.zallocs 0 5 = false) ∧ running.q.st ≠ .stopping :=
  ⟨by decide, fun _ _ _ => mayIssue rfl rfl rfl rfl, leased_mayIssue, by decide, by decide, by decide, by decide, by decide, by decide, by decide,
    by decide, by decide⟩

/-- A command of core 0's task at the head of Marver 0. -/
def mxc (i : Instr) : MxCmd :=
  { id := 4, core := 0, ctx := 0, i := i, a := 0x4000000#64, b := 0xFFFFFFFFFFFFFFC0#64, c := 1024#64, tok := tok 6 1 256, pc := 5, depth := 0, begun := true }
/-- Entry 6: 16,384 bytes of HBM. -/
def hbm6 : PEntry := { st := .live, gen := 1, kind := 1, rights := 15#4, len := 16384, ranges := [(4, 0x20000)] }
/-- Marver 0 with that command. -/
def marvering (i : Instr) (owner : Nat) : State :=
  { on { running with task := some task } with mx := [(0, { order := [mxc i] })], accOwner := if owner = 0 then [] else [(5, owner)], pontil := [(6, hbm6)] }

/-- Sixty-four bytes of entry 6. -/
def block6 (i : Nat) : List Nat := (List.range 64).map (0x20000 + 64 * i + ·)
/-- The last block of a step of `n` blocks. -/
def mxLast (i : Instr) (n : Nat) : MxCmd := { mxc i with nblk := n - 1, got := List.replicate (64 * (n - 1)) (some 0#8) }

theorem test_meets_MarverSteps :
    (∀ i o, ((marvering i o).marver 0).order = [mxc i] ∧ (mxc i).begun = true ∧ (mxc i).done = false ∧ (mxc i).cut = false) ∧
    (∀ i ∈ [Instr.mxMm mmf, .mxZalloc 3 5, .mxKat 3 0 0 0#64, .mxCbtab mxm, .mxZld mxm, .mxZst mxm, .mxZcpy 3 5 6, .mxTld mxm, .mxOut (outf false), .mxBld mxm],
      (mxc i).step < mxSteps (mxc i)) ∧ running.q.st ≠ .stopping ∧
    (∀ m c, m < 8 → c = mmf.c0 → ∃ v, blockDot ((marvering (.mxMm mmf) 1).acc 0 5 m c) ((marvering (.mxMm mmf) 1).accMark 0 5 m c)
      (((marvering (.mxMm mmf) 1).core 0).e.row ((marvering (.mxMm mmf) 1).cb 0 mmf.cb) mmf.t m)
      (((marvering (.mxMm mmf) 1).marver 0).column ((marvering (.mxMm mmf) 1).cb 0 mmf.cb) c) mmf.klen = .ok v) ∧
    mmf.c0 + mmf.nc ≤ 512 ∧ ((marvering .nop 1).core 0).uid ≠ 0 ∧ (marvering .nop 0).zOwner 0 5 = 0 ∧ (marvering .nop 1).zOwner 0 5 = ((marvering .nop 1).core 0).uid ∧
    (marvering .nop 2).zOwner 0 5 ≠ ((marvering .nop 2).core 0).uid ∧ (mxc (.mxZld mxm)).b.toInt + mxm.off.toInt = 0 ∧
    (∀ p ∈ [(256, 16384), (16, 1024)], (piecesOf 0 p.2)[p.1 - 1]? = some (((64 * (p.1 - 1) : Nat) : Int), 64) ∧ (piecesOf 0 p.2).length = p.1 ∧
      ∀ need ∈ [rR, rW], (marvering .nop 1).check (mxc .nop).tok (64 * (p.1 - 1) : Nat) 64 need = .pass (tok 6 1 256) (block6 (p.1 - 1))) ∧
    (((List.range 8).flatMap (fun r => piecesOf (r * 1024) 1024))[127]? = some (8128, 64) ∧
      (marvering .nop 1).check (mxc .nop).tok 8128 64 rR = .pass (tok 6 1 256) (block6 127)) ∧
    (∀ n ∈ [256, 16, 128], (mxLast .nop n).nblk + 1 = n ∧ (mxLast .nop n).gotBad = []) ∧
    (marvering .nop 1).check (mxc .nop).tok 0 32 rR = .pass (tok 6 1 256) ((block6 0).take 32) ∧ (marvering .nop 1).check {} 0 64 rR = .fail .bounds 0 ∧
    (tok 6 1 256).kind ≠ 2 ∧ (∀ i ∈ [0, 15, 127, 255], Clean (marvering .nop 1) (block6 i) ∧ (block6 i).length = 64 ∧ (block6 i).Nodup) ∧
    (∀ i ∈ [0, 15, 127, 255], (marvering .nop 1).linked (block6 i) = true) ∧ ((marvering .nop 1).core 0).noneOvertaken 0 = true ∧
    (marvering .nop 1).cmdHeld 0 (mxc .nop).wseq = false ∧ (marvering .nop 1).engRelReady (mxc (.mxBld { mxm with ord := { mxm.ord with rel := true } })).agent (some 0x20000) = true ∧
    NoneDirty (marvering .nop 1) ∧ cbOk 0 = true ∧ cbOk 0x100 = false ∧ (outf false).clr = false ∧ (outf false).ty ≤ 10 ∧ 1 ≤ (outf false).nc ∧
    (∀ m c, (marvering (.mxOut (outf false)) 1).accMark 0 5 m c = 0) ∧ ((marvering .nop 1).core 0).readerGo 63 0 = false ∧
    mxDest (.mxZcpy 63 5 6) < 64 ∧ mxMem (mxc (.mxKat 3 0 0 0#64)) = none := by
  refine ⟨fun _ _ => ⟨rfl, rfl, rfl, rfl⟩, by decide, by decide, fun m c hm hc => by
      subst hc
      have h : ∀ m, m < 8 → blockDot ((marvering (.mxMm mmf) 1).acc 0 5 m mmf.c0) ((marvering (.mxMm mmf) 1).accMark 0 5 m mmf.c0)
        (((marvering (.mxMm mmf) 1).core 0).e.row ((marvering (.mxMm mmf) 1).cb 0 mmf.cb) mmf.t m)
        (((marvering (.mxMm mmf) 1).marver 0).column ((marvering (.mxMm mmf) 1).cb 0 mmf.cb) mmf.c0) mmf.klen = .ok 0 := by decide +kernel
      exact ⟨0, h m hm⟩, by decide, by decide, by decide, by decide, by decide, by decide, by decide +kernel, by decide +kernel, by decide +kernel,
    by decide +kernel, by decide, by decide, fun i h => ⟨?_, ?_, ?_⟩, by decide +kernel, by decide, by decide, by decide +kernel,
    noneDirty (x := { running with task := some task }) rfl rfl,
    by decide, by decide, rfl, by decide, by decide, fun _ _ => rfl, by decide, by decide, rfl⟩
  · have hc : ∀ i ∈ [0, 15, 127, 255], ∀ pa ∈ block6 i, (marvering .nop 1).unreachable pa = false := by decide +kernel
    exact cleanOf (hc i h) rfl
  · simp [block6]
  · exact List.nodup_range.map (fun _ _ => Nat.add_left_cancel)

/-- An unmasking memory command over k6. -/
def umm : UmMemF := { d := 3, a := 1, b := 2, fea := false, feb := false, ord := plain, k := 6 }
def umc : UmCfgF := { d := 3, a := 1, b := 2, fea := false, feb := false, seqlen := 1000, bsz := 0, nlayer := 2, rnd := 1 }
/-- A command of core 0 for pane 0's engine. -/
def umk (i : Instr) : UmCmd :=
  { id := 4, core := 0, ctx := 0, i := i, a := 1024#64, b := 0#64, tok := tok 6 1 256, pc := 5, depth := 0, linst := 1, begun := true }
/-- Pane 0's engine holds `u`, and core 0 has s1 and s2. -/
def unmasking (l : List Word) (u : Um) : State :=
  { on (scalars running l) with um := [(0, u)], pontil := [(6, hbm6)] }

theorem test_meets_UnmaskingCommandsIssue :
    (∀ i ∈ [Instr.umCfg umc, .umCfgShare { umc with seqlen := 0, bsz := 0, nlayer := 0 }, .umCfgRad 3 0 2 16383, .umRank umm, .umCommit umm, .umDnext 2, .umDclr 1 false], i.wf = true) ∧
    (∀ l u i k, MayIssue i k (unmasking l u)) ∧
    (let s := unmasking [64#64, 128#64] {}
     (((s.umOf (s.cfg.paneOf s.cur)).order.filter (fun j => j.core == s.cur)).length < 4) ∧ 1 ≤ (s.sc 2).toNat ∧ (s.sc 2).toNat < 2 ^ 32 ∧
       (s.sc 1).toNat ≤ (s.sc 2).toNat ∧ (s.sc 1).toNat % 64 = 0 ∧ (s.sc 2).toNat % 64 = 0 ∧ umc.nlayer * ((umc.seqlen + 3) / 4) ≤ 1048576 ∧ umc.rnd < 3) ∧
    ¬(((unmasking [2#64, 1#64] {}).sc 1).toNat ≤ ((unmasking [2#64, 1#64] {}).sc 2).toNat) ∧ ((unmasking [8#64] {}).sc 1).toNat % 64 ≠ 0 ∧
    (((unmasking [] { order := List.replicate 4 (umk .nop) }).umOf 0).order.filter (fun j => j.core == 0)).length = 4 ∧
    (let k := { umk (.umDnext 62) with done := true }
     ((unmasking [] { order := [k] }).umOf 0).order = [k] ∧ umDest k.i < 64 ∧ (umOrd k.i).rel = false ∧ k.silent = false ∧ (unmasking [] { order := [k] }).cmdHeld k.core k.wseq = false) ∧
    { umk (.umDnext 62) with done := true, silent := true }.silent = true :=
  ⟨by decide, fun _ _ _ _ => mayIssue rfl rfl rfl rfl, by decide, by decide, by decide, by decide, by decide, by decide⟩

/-- An engine of launch 1 over 1,000 positions in blocks of four and two layers, with positions 1, 513 and 2 ranked. -/
def ranked : Um :=
  { st := .ranked, owner := 1, seqlen := 1000, bsz := 4, nlayer := 2, num := 2, den := 3, rnd := 0, rad := [(1, 1)], rl := [1, 513, 2], mcnt := 3
    dirty := [(3, true)] }

theorem test_meets_UnmaskingActs :
    (∀ rest, (Begins ({ unmasking [] {} with agenda := ⟨0, .unmask 0⟩ :: rest } : State) (.unmask 0) rest).halted = false) ∧
    (let k := { umk (.umRank umm) with begun := false }
     ((unmasking [] { order := [k] }).umOf 0).order = [k] ∧ (unmasking [] { order := [k] }).umMayBegin k = true) ∧
    (∀ rest, ({ unmasking [] {} with agenda := ⟨0, .unmask 0⟩ :: rest } : State).tooLate (.unmask 0) = false) ∧
    (let s := unmasking [] { ranked with order := [umk (.umCommit umm)] }
     (s.umOf 0).order = umk (.umCommit umm) :: [] ∧ (s.umOf 0).st ≠ .free ∧ (s.umOf 0).owner = (umk .nop).linst ∧
       max (if (s.umOf 0).mcnt = 0 then 0 else 1) ((s.umOf 0).mcnt * (s.umOf 0).num / (s.umOf 0).den) = 2 ∧ PlainCore s 0 ∧
       (s.umOf 0).rl.Nodup ∧ 1 ≤ (s.umOf 0).bsz ∧ (∀ p ∈ (s.umOf 0).rl.take 2, p < 2 ^ 32) ∧
       ((List.range ((1000 + 511) / 512)).filter (fun j => ((s.umOf 0).rl.take 2).any (fun p => p / 512 == j)))[1]? = some 1) ∧
    NoneDirty (unmasking [] ranked) ∧
    (piecesOf (umk .nop).a.toInt (4 * 2))[0]? = some (1024, 8) ∧
    (∃ v, (unmasking [] ranked).check (umk .nop).tok 1024 8 rW = .pass v ((List.range 8).map (0x20400 + ·))) ∧
    (∃ v, (unmasking [] ranked).check (umk .nop).tok ((umk .nop).b.toInt + (64 * 1 : Nat)) 64 (rR ||| rW) = .pass v ((List.range 64).map (0x20040 + ·)) ∧ v.kind ≠ 2) ∧
    Clean (unmasking [] ranked) ((List.range 64).map (0x20040 + ·)) ∧ (unmasking [] ranked).linked ((List.range 64).map (0x20040 + ·)) = true ∧
    ((unmasking [] ranked).core 0).noneOvertaken 0 = true ∧
    (∃ off n, (ranked.rankBlocks (umk .nop) [])[0]? = some (off, n) ∧
      ∃ v, (unmasking [] ranked).check (umk .nop).tok off n rR = .pass v (block6 0) ∧ v.kind ≠ 2) ∧
    (ranked.rankBlocks { umk .nop with blk := 2, got := List.replicate 125 0#8 } (ranked.masked (List.replicate 125 0#8)))[2]? = none ∧
    (unmasking [] {}).umOf 0 = {} ∧ ({ ranked with owner := 2 } : Um).owner ≠ (umk .nop).linst ∧ ranked.nlayer < 1 + 2 ∧ 0 + 2 ≤ ranked.nlayer ∧
    ({ ranked with st := .configured } : Um).st ≠ .ranked ∧ ({ ranked with rl := [] } : Um).rl.take 0 = [] ∧
    (Sparse.wf false ranked.dirty = true ∧ Sparse.get false ranked.dirty 3 = true ∧ Sparse.get false ranked.claim 3 = false ∧
      ∀ j, j < 3 → ¬(Sparse.get false ranked.dirty j = true ∧ Sparse.get false ranked.claim j = false)) ∧
    (3#64).toNat < 2 ^ 24 ∧ (3#64).toNat / 2 ^ 16 < ranked.nlayer ∧ (3#64).toNat % 2 ^ 16 < (1000 + 3) / 4 ∧ ranked.nlayer ≤ (0x20000#64).toNat / 2 ^ 16 := by
  exact ⟨fun _ => rfl, by decide +kernel, fun _ => rfl, ⟨by decide, by decide, by decide, by decide, ⟨rfl, rfl, rfl, rfl, rfl⟩, by decide, by decide, by decide, by decide⟩,
    noneDirty (x := scalars running []) rfl rfl, by decide, ⟨tok 6 1 256, by decide +kernel⟩, ⟨tok 6 1 256, by decide +kernel⟩,
    cleanOf (by decide +kernel) rfl, by decide +kernel, by decide, ⟨_, _, rfl, tok 6 1 256, by decide +kernel, by decide⟩, by decide +kernel, by decide, by decide, by decide, by decide, by decide, by decide, by decide,
    by decide, by decide, by decide, by decide⟩

/-- The capture of a V-word with six rows. -/
def capOf (op : Nat) (w : VFields) : VCap := { id := 4, rows := 6, marks := vDest op w 6, tok := tok 6 1 256 }
/-- The V-word stands at its queue's head, its pipe runs it, and the mask stack is `ms`. -/
def headed (i : Instr) (op : Nat) (w : VFields) (ms : List (BitVec 768)) (v : Sparse VReg := []) : State :=
  { on { running with r := { masks := ms, v := v }
                      v := ({} : Vu).setQueue (vQueue op w) [{ i := i, cap := capOf op w }] } with pipe := some (capOf op w), pontil := [(6, hbm6)] }

theorem vQueue_lt (op : Nat) (w : VFields) : vQueue op w < 3 := by
  unfold vQueue; repeat' split
  all_goals omega

theorem headed_atHead (i : Instr) (op : Nat) (w : VFields) (ms : List (BitVec 768)) (v : Sparse VReg) : AtHead (headed i op w ms v) op w (capOf op w) where
  pipe := rfl
  head := by
    refine ⟨{ i := i, cap := capOf op w }, [], ?_, rfl⟩
    show ((({} : Vu).setQueue (vQueue op w) [{ i := i, cap := capOf op w }])).queue (vQueue op w) = _
    have := vQueue_lt op w
    obtain h | h | h : vQueue op w = 0 ∨ vQueue op w = 1 ∨ vQueue op w = 2 := by omega
    all_goals rw [h]; rfl
  marks := rfl
  rows := by show 1 ≤ 6; decide
  alive := by
    have : (headed i op w ms v).me.v.ends = [] := by
      show (({} : Vu).setQueue (vQueue op w) [{ i := i, cap := capOf op w }]).ends = []
      have := vQueue_lt op w
      obtain h | h | h : vQueue op w = 0 ∨ vQueue op w = 1 ∨ vQueue op w = 2 := by omega
      all_goals rw [h]; rfl
    simp [Core.ended, this]
  unskipped := fun h => by
    show (({} : Vu).setQueue (vQueue op w) [{ i := i, cap := capOf op w }]).skip = 0
    rw [h]; rfl
  ordered := fun _ => .inl rfl
  full := fun _ _ => rfl
  captured := rfl
  whole := ⟨rfl, rfl, rfl, rfl⟩
  sound := rfl

/-- The fields a V-word of that type needs. -/
def vw (ty : Nat) (md : Nat := 0) : VFields := { vz with ty := ty, d := 16, a := 24, md := md }
/-- A word that reads B too. -/
def vb (ty : Nat) (md : Nat := 0) : VFields := { vw ty md with b := 32 }

theorem test_meets_VectorIntegers : (∀ i op w ms, AtHead (headed i op w ms) op w (capOf op w)) ∧
    ∀ p ∈ [(Instr.vadd (vb 0 1), 0x40, vb 0 1), (.vsub (vb 7 3), 0x41, vb 7 3), (.vmul (vb 2), 0x42, vb 2), (.vmulh (vb 6), 0x43, vb 6), (.vmin (vb 1), 0x44, vb 1),
      (.vmax (vb 5), 0x45, vb 5), (.vabs (vw 0 1), 0x46, vw 0 1), (.vneg (vw 3), 0x47, vw 3), (.vand (vb 4), 0x48, vb 4), (.vor (vb 0), 0x49, vb 0),
      (.vxor (vb 0 2), 0x4A, vb 0 2), (.vnot (vw 3), 0x4B, vw 3), (.vshl (vb 0 1), 0x4C, vb 0 1), (.vshr (vb 4), 0x4D, vb 4), (.vclz (vw 0), 0x4E, vw 0),
      (.vpopc (vw 7), 0x4F, vw 7), (.vsel (vb 10 4), 0x50, vb 10 4)], vParts p.1 = some p.2 ∧ p.1.wf = true :=
  ⟨fun _ _ _ _ => headed_atHead _ _ _ _ _, by decide⟩

theorem test_meets_VectorFloats : (∀ i op w ms, AtHead (headed i op w ms) op w (capOf op w)) ∧
    ∀ p ∈ [(Instr.vfadd (vb 8), 0x100, vb 8), (.vfsub (vb 9 2), 0x101, vb 9 2), (.vfmul (vb 10), 0x102, vb 10), (.vfma { vb 10 with c := 40 }, 0x103, { vb 10 with c := 40 }),
      (.vfms { vb 8 with c := 40 }, 0x104, { vb 8 with c := 40 }), (.vfdiv (vb 9), 0x105, vb 9), (.vfsqrt (vw 8), 0x106, vw 8), (.vfrcp (vw 10), 0x107, vw 10),
      (.vfrsq (vw 9), 0x108, vw 9), (.vfexp2 (vw 8), 0x109, vw 8), (.vflog2 (vw 10), 0x10A, vw 10), (.vfmin (vb 8), 0x10B, vb 8), (.vfmax (vb 8), 0x10C, vb 8),
      (.vfabs (vw 9), 0x10D, vw 9), (.vfneg (vw 10), 0x10E, vw 10), (.vcvt (vw 4 26), 0x10F, vw 4 26)], vParts p.1 = some p.2 ∧ p.1.wf = true :=
  ⟨fun _ _ _ _ => headed_atHead _ _ _ _ _, by decide⟩

theorem test_meets_FloatRounding : (∀ rm ∈ [0, 1, 2, 3], rm < 4) ∧ (fmtH16.round 0 false false 1 16 false).2.getLsbD 2 = true ∧
    (fmtH16.round 0 false true 1 0 false).2.getLsbD 2 = false ∧ valOf (.fin false 3 (-1)) = some (3 / 2) := by
  refine ⟨by decide, by decide +kernel, by decide +kernel, ?_⟩
  norm_num [valOf]

theorem test_meets_VectorBlocksAndMoves : (∀ i op w ms v, AtHead (headed i op w ms v) op w (capOf op w)) ∧
    (∀ p ∈ [(Instr.vperm (vb 8), 0x201, vb 8), (.vtrns (vw 2), 0x202, vw 2), (.vbcast { vz with ty := 2, d := 16, b := 3, md := 2 }, 0x203, { vz with ty := 2, d := 16, b := 3, md := 2 }),
      (.vbcast { vw 2 with imm := 9#32 }, 0x203, { vw 2 with imm := 9#32 }), (.vslide { vb 0 with imm := 767#32 }, 0x204, { vb 0 with imm := 767#32 }),
      (.vcompress (vw 10), 0x205, vw 10), (.vcb { vw 11 1 with c := 40 }, 0x1C0, { vw 11 1 with c := 40 }), (.vred (vw 0 6), 0x200, vw 0 6), (.vred (vw 3 7), 0x200, vw 3 7),
      (.vred (vw 0 8), 0x200, vw 0 8), (.vred (vw 4 1), 0x200, vw 4 1), (.vred (vw 1 2), 0x200, vw 1 2), (.vred (vw 1 3), 0x200, vw 1 3), (.vred (vw 1 4), 0x200, vw 1 4),
      (.vred (vw 1 5), 0x200, vw 1 5), (.vred (vw 9 2), 0x200, vw 9 2), (.vamax (vw 8), 0x1C3, vw 8), (.vamax (vw 12 1), 0x1C3, vw 12 1),
      (.vpack { vw 13 1 with imm := 200#32 }, 0x1C1, { vw 13 1 with imm := 200#32 }), (.vunpack (vw 12), 0x1C2, vw 12)], vParts p.1 = some p.2 ∧ p.1.wf = true) ∧
    (∀ p ∈ [(0xFF02#1024, BHead.ok 2 (-1)), (0x0100#1024, .zero 62), (0xFF#1024, .poison), (0x55#1024, .illegal)],
      blkHead (elem (headed .nop 0x1C2 (vw 12) [] [(24, p.1)]).me.rdV 24 64 0) = p.2) :=
  ⟨fun _ _ _ _ _ => headed_atHead _ _ _ _ _, by decide, by decide +kernel⟩

theorem test_meets_VectorMasks : (∀ i op w ms, AtHead (headed i op w ms) op w (capOf op w)) ∧
    (∀ p ∈ [(Instr.mpush { vb 0 3 with d := 0 }, 0x240, { vb 0 3 with d := 0 }), (.mpush { vw 10 5 with d := 0 }, 0x240, { vw 10 5 with d := 0 }), (.minv vz, 0x241, vz), (.mpop vz, 0x242, vz),
      (.vskip { vz with imm := 255#32 }, 0x243, { vz with imm := 255#32 }), (.veos vz, 0x244, vz), (.vnop { vz with md := 2 }, 0x3FF, { vz with md := 2 })],
      vParts p.1 = some p.2 ∧ p.1.wf = true) ∧
    (∀ l : List (BitVec 768), (headed .nop 0x240 vz l).me.r.masks = l) ∧ (List.replicate 15 (1#768)).length < 16 ∧ 16 ≤ (List.replicate 16 (1#768)).length ∧
    valOf (.fin true 1 0) = some (-1) :=
  ⟨fun _ _ _ _ => headed_atHead _ _ _ _ _, by decide, fun _ => rfl, by decide, by decide, by norm_num [valOf]⟩

theorem test_meets_VectorMemory : (∀ i op w ms, AtHead (headed i op w ms) op w (capOf op w)) ∧
    (∀ p ∈ [(Instr.vld (vw 2), 0, vw 2), (.vst (vw 0), 1, vw 0), (.vgat { vw 8 with c := 40 }, 2, { vw 8 with c := 40 }),
      (.vsca { vw 2 with c := 40 }, 3, { vw 2 with c := 40 }), (.vldb { vw 2 with c := 1 }, 4, { vw 2 with c := 1 }), (.vstb { vw 2 with c := 1 }, 5, { vw 2 with c := 1 })],
      vParts p.1 = some p.2 ∧ p.1.wf = true) ∧
    (∀ i op w, PlainCore (headed i op w []) 0 ∧ (headed i op w []).popPending 0 0 4 = false) ∧
    (∃ u l, (headed .nop 0 (vw 2) []).check (tok 6 1 256) 64 4 rR = .pass u l ∧ u.kind ≠ 2 ∧ Clean (headed .nop 0 (vw 2) []) l ∧ (headed .nop 0 (vw 2) []).linked l = true) ∧
    (headed .nop 0 (vw 2) []).check (tok 6 1 256) (-4) 4 rW = .fail .bounds 6 ∧
    (let a := { acc .vstore 3 1 [0x20000, 0x20001, 0x20000] with data := [1#8, 2#8, 3#8] }
     MayLand (waiting a) 0 a ∧ a.data.length = a.pas.length ∧ a.pas.getD 0 0 = a.pas.getD 2 0) :=
  ⟨fun _ _ _ _ => headed_atHead _ _ _ _ _, by decide, fun i op w => ⟨⟨rfl, by unfold headed; rfl, rfl, rfl, rfl⟩, rfl⟩,
    ⟨tok 6 1 256, [0x20040, 0x20041, 0x20042, 0x20043], by decide +kernel, by decide, cleanOf (by decide) rfl, by decide⟩, by decide +kernel,
    mayLand rfl rfl rfl (by decide), by decide, by decide⟩

/-- Core 0 with a vector section of `l`, and a range under way. -/
def issuing (l : List VWordBits) (k : Issue) (lp : Sparse Loop := []) (sm : Sparse (List Nat) := []) (wcs : Sparse (List (BitVec 8 × VWordBits)) := []) : State :=
  { on { scalars running [3#64] with
         r := { (scalars running [3#64]).r with sm := sm }
         q := { running.q with issue := k, loops := lp }
         code := { ctlLen := 200, vec := (List.range l.length).map (fun i => (i, l.getD i 0#128)), vecLen := l.length, wcs := wcs } } with
    d := { launches := [(1, launch1)] } }
/-- `vadd` of type S8 with its B from s1, with FE of B `fe`. -/
def vaddS (fe : Nat) : VFields := { vz with d := 16, a := 24, b := 1, md := 2, fe := fe }
/-- A `swpl` over V-words 0 to 2. -/
def swplf : SwplF := { a := 1, fea := false, pro := 0, ker := 1, epi := 2, fin := 2 }

/-- Where no register is empty, a word of type `vaddS` can enter its queue. -/
theorem canEnqueue (s : State) (h1 : s.me.r.sm = []) (h3 : s.me.v = {}) (h4 : s.me.c.rows = 1)
    (h5 : (s.kernel s.cur).slip 1 ≠ 0) : CanEnqueue s 0x40 (vaddS 0) where
  token := fun h => by omega
  scalar := fun _ => by simp [Core.sMarks, h1, Sparse.get]
  fields := by simp [advanced, vaddS, vz, bit]
  registers := by
    intro u hu hd ha hb hc r hr
    have e : u = vaddS 0 := by
      rw [hu]; simp [advanced, vaddS, vz, bit] at hd ha hb hc
      simp [vaddS, vz]; omega
    rw [e, h4] at hr
    revert r; decide
  room := by rw [h3]; exact Nat.pos_of_ne_zero h5

theorem test_meets_VectorIssue :
    (∀ i ∈ [Instr.viss 0 2, .swpl swplf, .vsync true false true, .vadd (vaddS 0), .vadd (vaddS 4)], i.wf = true) ∧
    (∀ l lp w i a, MayIssue i a (issuing l {} lp [] w)) ∧
    (let s := issuing [0#128, 0#128] {}
     s.me.code.vecLen = 2 ∧ s.me.code.vecLen < 1 + 2 ∧ (s.me.q.loop 0).act = false ∧ (s.sc 1).toNat = 3 ∧ swplf.fin ≤ s.me.code.vecLen ∧ (s.sc 2).toNat = 0) ∧
    ((issuing [] {} [(0, { act := true })]).me.q.loop 0).act = true ∧ 2 ^ 32 ≤ (0x100000000#64).toNat ∧ swplf.pro < swplf.ker ∧
    (let k : Issue := { act := true, cur := 0, fin := 2 }
     let badCode (n : Nat) : State := on { (issuing [0#128] k).me with code := { vecLen := 1, bad := [(n, 1)] } }
     Sparse.get 0 (badCode (2 ^ 15)).me.code.bad (2 ^ 15) ≠ 0 ∧ Sparse.get 0 (badCode (2 ^ 15 + 1)).me.code.bad (2 ^ 15 + 1) ≠ 0 ∧ (badCode (2 ^ 15)).mayGoOn = true) ∧
    (let k : Issue := { act := true, cur := 0, fin := 2 }
     let bits := BitVec.ofNat 128 (vWord 0x40 (vaddS 0))
     (issuing [bits] k).mayGoOn = true ∧ decodeV bits = .ok (.vadd (vaddS 0)) ∧ vParts (.vadd (vaddS 0)) = some (0x40, vaddS 0) ∧
       (issuing [bits] k).me.withheld false false = false ∧
       (issuing [bits] k [(0, { act := true, idx := 1, trip := 3 })]).me.withheld true false = true ∧
       (vScalars 0x40 (vaddS 0)).find? (fun r => !(issuing [bits] k [] [(1, [4])]).me.full 0 r) = some (.s 1 false) ∧
       (vScalars 0x40 (vaddS 4)).find? (fun r => !(issuing [bits] k [] [(1, [4])]).me.full 0 r) = some (.s 1 true) ∧
       (issuing [bits] k [] [(1, [4])]).me.sMarks 0 1 ≠ [] ∧ vScalarB 0x40 (vaddS 0) = true ∧ bit (vaddS 4).fe 2 = true ∧ bit (vaddS 0).fe 2 = false ∧
       decodeV 0x01800000000000000000000000000000#128 = .error .vOp ∧
       ((issuing [] k [] [] [(5, [(0x1F#8, bits)])]).me.slot 5)[0]? = some (0x1F#8, bits) ∧ ((issuing [] k).me.slot 5)[0]? = none ∧
       vMake (vaddS 0) 0x40 = some (.vadd (vaddS 0))) ∧
    (∀ l k lp w, CanEnqueue (issuing l k lp [] w) 0x40 (vaddS 0)) ∧
    (∀ n, run.me.v.queue n = []) ∧ (on { running with v := { ql := [{ i := .vnop vz, cap := { id := 4 } }] } }).me.v.queue 0 ≠ [] :=
  ⟨by decide, fun _ _ _ _ _ => mayIssue rfl rfl rfl rfl, by decide, by decide, by decide, by decide, by decide +kernel, by decide +kernel,
    fun _ _ _ _ => canEnqueue _ rfl rfl rfl (by show (Kernel.slip {} 1 : Nat) ≠ 0; decide), fun n => by
      show Vu.queue {} n = []
      unfold Vu.queue; repeat' split
      all_goals rfl, by decide⟩

/-- Core 0 with V-words queued and in flight. -/
def vectors (v : Vu) (vm : Sparse (List Nat) := []) : State := { on { running with v := v, r := { vm := vm } } with pipe := some { id := 4, inst := 2, tag := 5 } }
/-- A queued `vnot` with that capture. -/
def queuedNot (id : Nat) : VEntry := { i := .vnot (vw 0), cap := { id := id, inst := 2, tag := 5 } }

theorem test_meets_VectorHeads :
    vParts (.vnot (vw 0)) = some (0x4B, vw 0) ∧
    (let v : Vu := { qa := [queuedNot 4] }
     (vectors v).me.v.queue 1 = [queuedNot 4] ∧ (vectors { v with ends := [(2, 4)] }).me.ended (vw 0) (queuedNot 4).cap = true ∧
       (vectors v).me.ended (vw 0) (queuedNot 4).cap = false ∧ (vectors { v with skip := 3 }).me.v.skip ≠ 0 ∧ (vectors v).me.v.skip = 0 ∧
       (∃ p ∈ vSrcs 0x4B (vw 0) 1, p.2 = false ∧ (vectors v [(24, [3])]).me.vFull 4 p.1 = false) ∧
       (∀ p ∈ vSrcs 0x4B { vw 0 with fe := 8 } 1, p.2 = false → (vectors v [(24, [3])]).me.vFull 4 p.1 = true) ∧
       (vSrcs 0x4B { vw 0 with fe := 8 } 1).find? (fun p => !(vectors v [(24, [3])]).me.vFull 4 p.1) = some (24, true) ∧
       (on { (vectors v).me with r := { bad := [(512 + 24 * 16, 1)] } }).me.vBad 0x4B (vw 0) { (queuedNot 4).cap with rows := 1 } ≠ []) ∧
    (let f : Flight := { id := 4, q := 1, marks := [16], wr := [], flags := 1#6 }
     (vectors { fl := [f] }).me.v.fl.find? (fun f => f.q == 1) = some f ∧ (∀ g ∈ [f], g.q ≠ 0)) ∧
    (let l : Late := { clk := 4, cause := 1, info := 0#64, cont := false, vec := true, arr := 0 }
     let s := on { running with q := { running.q with armed := some l } }
     (s.core 0).q.armed = some l ∧ (∀ q, q < 3 → (s.core 0).v.queue q = []) ∧ (s.core 0).q.late = [] ∧ (s.core 0).q.tact = false ∧ (s.core 0).c.tvec ≠ 0) ∧
    (let l : Late := { clk := 4, cause := 1, info := 0#64, cont := false, vec := true, arr := 0 }
     let s (a n : Nat) : State := on { running with q := { running.q with armed := some l, late := [{ l with clk := n, arr := a }] } }
     (∀ k ∈ ((s 0 4).core 0).q.late, k.arr = (s 0 4).now ∧ l.clk ≤ k.clk) ∧ (∃ k ∈ ((s 0 3).core 0).q.late, k.clk < l.clk) ∧
       ∃ k ∈ ((s 1 4).core 0).q.late, k.arr ≠ (s 1 4).now) ∧
    (let s := vectors { qa := [queuedNot 4] } [(24, [3])]
     s.headAwaits 0 1 = some (queuedNot 4, 24, [24]) ∧ s.waitsElsewhere 0 0x4B 1 (vw 0) (queuedNot 4).cap = false ∧ (queuedNot 4).cap.done = [] ∧ (s.core 0).v.queue 0 = [] ∧ (s.core 0).v.queue 2 = [] ∧ (s.core 0).vMarks 24 = [3] ∧
       (s.core 0).v.fl = [] ∧ (s.core 0).e.mxq = [] ∧ (s.marver (s.cfg.marver 0)).order = []) ∧
    (vectors { qa := [queuedNot 4] }).headAwaits 0 1 = none := by decide +kernel

/-- Launch 1, and launch 2, of one stage on the 64 cores of pane 0 without groups. -/
def plainLaunch (n q : Nat) : Launch := { launch1 with linst := n, chans := [q], image := 7, kern := { launch1.kern with colevel := 0xFF, ctlLen := 200 } }
/-- Core 0 as given; queues 3 and 4 feed launches 1 and 2; entry 5 is LIVE and image 7 known. -/
def dispatching (x : Core) (two : Bool) : State :=
  { on x with
    d := { launches := if two then [(1, plainLaunch 1 3), (2, plainLaunch 2 4)] else [(1, plainLaunch 1 3)]
           images := [(7, some { asid := 0, va := 0, len := 1, tok := tok 5 2 64, kern := {} })] }
    queues := [(3, { one with items := [.here { w0 := 0x700000000#64, w7 := 0x100000000#64 } true 5 []] }), (4, { one with pri := 2, items := [.here { w0 := 0x700000000#64, w7 := 0x200000000#64 } true 9 []] })]
    pontil := [(5, hbm)] }
/-- The record at the head of queue 3. -/
def rec3 : Rec := { w0 := 0x700000000#64, w7 := 0x100000000#64 }
/-- A task that joins: JDEC 1 at offset 0 of its frame, entry 5. -/
def joins : Task := { uid := 1, r := { w2 := (tok 5 2 64).word, w3 := 0x4000000000#64, w6 := 0x100000000#64 }, linst := 1, initial := false }
/-- Core 0 in ENDING. -/
def endingTask (k : Task) (kst : Word) : Core := { running with task := some k, q := { running.q with st := .ending }, c := { running.c with kstat := kst } }

theorem endingTask_drained (k : Task) (kst : Word) (h : k.joined = false) : Drained (dispatching (endingTask k kst) false) 0 k where
  task := rfl
  st := rfl
  free := rfl
  quiet := rfl
  deliv := rfl
  unjoined := h
  performed := rfl

theorem test_meets_TasksBegin :
    (let s := dispatching {} false
     s.halted = false ∧ s.idleCore 0 = true ∧ s.reservedCore 0 = false ∧ s.restricted 0 = false ∧ s.candidates 0 = [3] ∧ s.resumes 0 = [] ∧
       s.isDonor 0 = false ∧ (s.core 0).decided ≠ s.now + 1 ∧ (s.queue 3).pops = [] ∧ (s.queue 3).arrive = []) ∧
    (let s := dispatching {} false
     let u : State := { s with queues := [(3, { s.queue 3 with pops := [{ core := 0, ctx := 0, id := 0, op := .dispatch }] })] }
     (∃ r ∈ (u.queue 3).pops, r.core = 0 ∧ r.op = .dispatch ∧ r.id = 0) ∧ u.candidates 0 = [3] ∧ u.idleCore 0 = true ∧ u.isDonor 0 = false) ∧
    (run.cands 0 = [] ∧ (on {}).idleCore 0 = true ∧ (on {}).candidates 0 = [] ∧ (on {}).cands 0 = [] ∧ (on { decided := 1 }).core 0 = { decided := 1 }) ∧
    ((dispatching {} true).candidates 0 = [3, 4] ∧ ((dispatching {} true).cands 0).map (fun k => k.pri) = [0, 2] ∧ ((dispatching {} true).core 0).popAt = 0 ∧ (dispatching {} true).isDonor 0 = false ∧
      Sparse.get 8 (dispatching {} true).d.age 0 ≤ 8) ∧
    (let s := dispatching { taken := some (.fresh rec3 true none []) } false
     (s.core 0).taken = some (.fresh rec3 true none []) ∧ (s.launch rec3.linst).st = .running ∧ rec3.image = (s.launch rec3.linst).image ∧
       rec3.entry < (s.launch rec3.linst).kern.ctlLen ∧ (Sparse.get none s.d.images 7 : Option Image) = some { asid := 0, va := 0, len := 1, tok := tok 5 2 64, kern := {} } ∧
       s.tokenOk (tok 5 2 64) = some true ∧ rec3.frame.entry = 0 ∧ (s.launch rec3.linst).slots = []) ∧
    ((dispatching {} false).launch 9).st ≠ .running ∧ ({ rec3 with w0 := 0#64 } : Rec).image ≠ 7 ∧
    (let s := { grouped {} [] 0 with cores := [], queues := [(3, { one with depth := 4, items := [.here rec3 true 5 [], .here rec3 true 5 []] })] }
     s.halted = false ∧ s.d.launches = [(1, launch1)] ∧ launch1.linst = 1 ∧ launch1.st = .running ∧ launch1.pane = 0 ∧ launch1.kern.stages = [{ num := 0, chan := 0, entry := 0 }] ∧
       launch1.input 0 = some 3 ∧ launch1.kern.colevel ≠ 0xFF ∧ launch1.reserved = [] ∧ s.d.lists = [] ∧ (s.range launch1).Pairwise (· < ·) ∧ launch1.groupSize 0 = 2 ∧
       (s.queue 3).items.take 2 = [(rec3, 5, []), (rec3, 5, [])].map (fun p => QItem.here p.1 true p.2.1 p.2.2)) ∧
    (let s := { dispatching { taken := some (.fresh rec3 true none []), code := { image := some 7 } } false with pontil := [(5, { hbm with st := .draining })] }
     s.tokenOk (tok 5 2 64) ≠ some true ∧ (s.core 0).code.image = some (s.launch rec3.linst).image) :=
  ⟨by decide +kernel, by decide +kernel, by decide +kernel, by decide +kernel, by decide +kernel, by decide, by decide, by decide +kernel, by decide +kernel⟩

theorem test_meets_TasksEnd :
    (∀ k kst, k.joined = false → Drained (dispatching (endingTask k kst) false) 0 k) ∧
    ((0x10#64).getLsbD 4 = true ∧ kSticky 0x11#64 = true ∧ kSticky 0#64 = false ∧ task.r.jdec = 0) ∧
    (let s := dispatching (endingTask joins 0#64) false
     joins.r.jdec ≠ 0 ∧ PlainCore s 0 ∧ NoneDirty s ∧ joins.r.joff % 8 = 0 ∧ joins.r.frame.entry = 5 ∧ (s.ent 5).st = .live ∧ (s.ent 5).gen = joins.r.frame.gen ∧
       (∃ u, s.check joins.r.frame joins.r.joff 8 (rW ||| rA) = .pass u (eight 0x10000)) ∧ Sparse.wf [] s.pub = true ∧ s.acquireReady 0 3 (eight 0x10000) = true ∧
       Clean s (eight 0x10000) ∧ s.linked (eight 0x10000) = true) ∧
    (let s := { dispatching (endingTask joins 0#64) false with mem := [(0x10000, 1#8)] }
     BitVec.ofNat 64 (s.valueAt (eight 0x10000)) - BitVec.ofNat 64 joins.r.jdec = 0#64 ∧
       (∃ u, s.check joins.r.frame (joins.r.joff + 8) 64 rR = .pass u ((List.range 64).map (0x10008 + ·))) ∧
       (∀ pa ∈ (List.range 64).map (0x10008 + ·), pa ∉ eight 0x10000) ∧ Clean s ((List.range 64).map (0x10008 + ·)) ∧
       (s.launch joins.linst).st = .running ∧ (s.launch joins.linst).input (Rec.ofBytes (((List.range 64).map (0x10008 + ·)).map s.byte)).stage = some 3) ∧
    (let s := dispatching (endingTask { joins with joined := true } 0#64) false
     (s.core 0).q.st = .ending ∧ ((s.core 0).q.holdOf 0).k = .free ∧ s.quiet 0 = true ∧ (s.core 0).deliv = [] ∧ s.performed 0 = true) ∧
    (let s := dispatching { running with q := { running.q with st := .faulted }, task := some task } false
     (s.core 0).q.st = .faulted ∧ s.performed 0 = true ∧ (s.launch (s.linstOf 0)).st = .running) ∧
    (dispatching { endingTask task 0#64 with deliv := [{ id := 1, ctx := 0, q := 3, d := 8, k := 0, st := none, code := 1, r := {} }] } false).me.deliv ≠ [] :=
  ⟨endingTask_drained, by decide,
    ⟨by decide, ⟨rfl, rfl, rfl, rfl, rfl⟩, noneDirty (x := endingTask joins 0#64) rfl rfl, by decide, by decide, by decide, by decide,
      ⟨joins.r.frame, by decide +kernel⟩, by decide, by decide, cleanOf (by decide) rfl, by decide⟩,
    ⟨by decide +kernel, ⟨joins.r.frame, by decide +kernel⟩, by decide +kernel, show ∀ pa ∈ (List.range 64).map (0x10008 + ·), _ from by decide +kernel, by decide, by decide +kernel⟩,
    by decide +kernel, by decide +kernel, by decide⟩

/-- An entry of a saved-context list whose area is 3. -/
def saved : SaveE := { linst := 1, mcore := 0, area := 3, uid := 1, valid := true }
/-- Core 0 as given, in launch 1, with one entry in list 0, in memory that holds zeros. -/
def saving (x : Core) (e : SaveE) : State :=
  let s := dispatching x false
  { s with d := { s.d with lists := [(0, e)], areaUsed := [3] } }
/-- Core 64, in STOPPING with its token gone, with its entry in list 4 and its area in pane 1. -/
def savingFar : State :=
  let s := dispatching {} false
  { s with cores := [(64, { running with task := some task, q := { running.q with st := .stopping, token := 3 } })]
           d := { s.d with lists := [(4096, { saved with mcore := 64, valid := false })], areaUsed := [259] } }

/-- Pane 1's areas lie in its own stack, and the lists in pane 0's. -/
theorem saved_apart : ∀ pa ∈ (List.range 16).map (listPA 4096 + ·), pa ∉ (imageOffsets 0#8).map (savingFar.areaOf 4096 + ·) := by
  intro pa h k
  obtain ⟨i, hi, rfl⟩ := List.mem_map.1 h
  obtain ⟨o, -, ho⟩ := List.mem_map.1 k
  have e : savingFar.areaOf 4096 = areaPA 1 3 := rfl
  have hi := List.mem_range.1 hi
  rw [e] at ho
  simp only [areaPA, listPA, setAside, imageLen] at ho
  generalize Config.place (3 + 1) = a at ho
  generalize Config.place 2 = b at ho
  omega

/-- The area of a saved context of pane 0 lies in HBM, and holds no error. -/
theorem saved_clean (x : Core) : Clean (saving x saved) ((imageOffsets 0#8).map ((saving x saved).areaOf 0 + ·)) := by
  intro pa h
  obtain ⟨o, ho, rfl⟩ := List.mem_map.1 h
  have ho' : o < imageHead := by simpa [imageOffsets] using ho
  have e : (saving x saved).areaOf 0 = areaPA 0 3 := rfl
  have h2 : (saving x saved).cfg.tier ((saving x saved).areaOf 0 + o) = .hbm := by
    have hp : (saving x saved).cfg.panes = 16 := rfl
    rw [e]
    simp only [areaPA, setAside, imageLen]
    have hh : imageHead ≤ 2 ^ 21 := by decide
    have h0 : (0 * 2 ^ 36 + Config.place (3 + 0) % 2 ^ 23 * 4096 + 1327104 * 3 + o) / 2 ^ 36 < (saving x saved).cfg.panes := by rw [hp]; omega
    simp only [CfgSt.tier, h0, if_true]
    rw [if_pos (by omega)]
  exact ⟨by simp [State.unreachable, h2], rfl, rfl, rfl, rfl⟩

/-- Core 0 stands at a `ctxsave` or `ctxrest` through k1 of entry 5, as long as an image. -/
def atCtx (q : Seq) (acc : List Acc) : State :=
  { on { running with q := q, acc := acc, r := { k := [(1, tok 5 2 20736)] } } with
    pontil := [(5, { hbm with len := 1327104, ranges := [(324, 0x1000000)] })] }

theorem test_meets_TasksSaveAndResume :
    (let s := dispatching { running with task := some task, q := { running.q with stop := true, point := 2 } } false
     s.halted = false ∧ s.me.q.st = .running ∧ s.me.q.stop = true ∧ s.me.q.tact = false ∧ s.me.q.late = [] ∧ s.me.q.armed = none ∧ s.me.q.point ≠ 0 ∧
       s.me.task = some task ∧ s.freeArea (s.cfg.paneOf 0) = some 0 ∧ s.freeList (s.listOf 0) = some 0) ∧
    ((dispatching (member { k := .bar 0 2, since := 4 }) false).mayAbandon 0 = true ∧ run.mayAbandon 0 = false ∧ run.me.q.stop = false) ∧
    (let x : Core := { running with task := some task, q := { running.q with st := .stopping, token := 2 } }
     x.q.st = .stopping ∧ x.q.token = 2 ∧ x.v.queue 2 = []) ∧
    (let s := savingFar
     s.saveSlot 64 = some 4096 ∧ (s.core 64).e.mxq = [] ∧ (s.core 64).q.st = .stopping ∧ (s.core 64).q.token = 3 ∧ s.quiesced 64 = true ∧ (s.launch 1).st = .running ∧
       (s.core 64).q.reason < 4 ∧ ({ s with d := { s.d with launches := [] } } : State).quiesced 64 = true) ∧
    (∀ pa ∈ (List.range 16).map (listPA 4096 + ·), pa ∉ (imageOffsets (savingFar.core 64).e.twr).map (savingFar.areaOf 4096 + ·)) ∧
    (let s := saving { taken := some (.resume 0 0) } saved
     let rd := fun o => s.byte (s.areaOf 0 + o)
     (s.core 0).taken = some (.resume 0 0) ∧ (Sparse.get {} s.d.lists 0 : SaveE) = saved ∧ imgLease rd = false ∧ bit (imgNat rd 8 8) 0 = false ∧
       s.tokenOk (tok 5 2 64) = some true ∧ Clean s ((imageOffsets (imgTwr rd)).map (s.areaOf 0 + ·))) ∧
    (let urgent : Rec := { rec3 with w0 := 0x300000700000000#64 }
     let s := { dispatching { running with task := some { task with initial := false }, q := running.q } false with
                queues := [(3, { one with items := [.here urgent true 1 []] })], now := 4096
                d := { launches := [(1, { plainLaunch 1 3 with cnum := 1 })] } }
     urgent.pri = 3 ∧ 1 - 1 + s.gintOf 0 ≤ s.now ∧ (s.launch (s.queue 3).owner).st = .running ∧ (s.queue 3).urgent = 0 ∧
       (∀ c ∈ s.range (s.launch 1), (s.core c).q.st ≠ .idle ∧ (s.core c).busyAt + s.gintOf 0 ≤ s.now) ∧ 0 ∈ s.range (s.launch 1) ∧ (s.launch 1).input (s.stageOf (s.launch 1) 0) = some 3 ∧ (s.core 0).q.st = .running ∧ (s.core 0).c.prio < 3) ∧
    (∀ i ∈ [Instr.ctxsave (mem 1 0 0#32), .ctxrest (mem 1 0 0#32), .wcsld 63 (mem 1 0 0#32)], i.wf = true) ∧
    (∀ q a i l, q = running.q ∨ q = { running.q with priv := true } ∨ q = { running.q with priv := true, tact := true } → MayIssue i l (atCtx q a)) ∧
    ((atCtx { running.q with priv := true } []).holds .drain).saveReady = true ∧
    ((atCtx { running.q with priv := true } [acc .store 3 1 []]).holds .drain).saveReady = false ∧
    (atCtx running.q []).check {} 0 imageLen rW = .fail .bounds 0 :=
  ⟨by decide +kernel, by decide +kernel, by decide, by decide +kernel, saved_apart,
    ⟨rfl, rfl, by show imgLease (fun _ => 0#8) = false; decide +kernel, by show bit (imgNat (fun _ => 0#8) 8 8) 0 = false; decide +kernel, by decide +kernel,
      saved_clean _⟩, by decide +kernel, by decide,
    fun q a i l h => by rcases h with rfl | rfl | rfl <;> exact mayIssue rfl rfl rfl rfl, by decide, by decide, by decide⟩

/-- Whether a launch's loading gives a launch. -/
def loads : Load → Bool
  | .ok _ _ => true
  | _ => false

/-- Image 7 is known, and core 5's mailbox names it. -/
def booting (st : Byte) : State :=
  { dispatching {} false with
    d := { (dispatching {} false).d with launches := [], images := [(7, some { asid := 0, va := 0, len := 1, tok := tok 5 2 64, kern := { ctlLen := 4, stages := [⟨0, 0, 0⟩], chans := [⟨false, 4⟩], widths := [1] } })] }
    io := { bar := [(mailboxAt 5, 7#8), (mailboxAt 5 + 16, st)], doors := [5] } }
/-- The launch of image 7 that core 5's door asks for. -/
def booted : Launch :=
  { src := .mailbox 5, words := 1#64 :: List.replicate 11 0#64 ++ [1#64, 0#64, 0#64, 0#64], image := 7, pane := 0, cfirst := 5, cnum := 1 }

theorem test_meets_LaunchesRun :
    (∀ i ∈ [Instr.launchSeal 4095, .launchRunning 0, .initialRecordPush 1, .launchDone 1, .bootDoor 5, .gafferSample 1, .gafferMove 0, .iterboundBreach 0], i.wf = true) ∧
    (let ws := List.replicate 16 0#64
     let s : State := { io := { sealed := [9], sealing := [(9, false, ws)] } }
     s.io.sealing.find? (fun p => p.1 == 9) = some (9, false, ws) ∧ (∀ p ∈ s.io.sealing, p.1 ≠ 8) ∧ 8 ∉ s.io.sealed ∧ (Launch.ofWords ws (.window 9) false).bad1 = true) ∧
    ((booting 1#8).io.linkReset = false ∧ (5#8).getLsbD 0 = true ∧ (booting 1#8).barNat (mailboxAt 5 + 16) 1 = 1 ∧ (booting 0#8).barNat (mailboxAt 5 + 16) 1 ≠ 1) ∧
    (let s := booting 0#8
     5 ∈ s.io.doors ∧ fld (s.barNat (mailboxAt 5) 8) 24 40 = 0 ∧ s.tokenOk (tok 5 2 64) = some true ∧ s.barNat (mailboxAt 5 + 16) 1 = 0 ∧ s.cfg.paneOf 5 < 16 ∧ s.cfg.pcoreOf 5 < 64 ∧
       loads (s.load booted) = true) ∧
    ((booting 1#8).barNat (mailboxAt 5 + 16) 1 = 1) ∧
    (let l := { plainLaunch 1 3 with total := 2, pushed := 1 }
     l.input 0 = some 3 ∧ l.st = .running ∧ l.pushed < l.total ∧ l.pushAt ≠ 0 + 1 ∧ ({ l with pushAt := 1 } : Launch).pushAt = 0 + 1 ∧ l.kern.widths.sum ≤ 64 ∧ l.kern.widths = [1] ∧ l.extent 0 ≤ 2 ^ 1 ∧ 1 ≤ l.extent 0 ∧ l.image < 2 ^ 16 ∧ l.pri < 4 ∧
       (∀ g ∈ l.kern.stages, g.entry < 2 ^ 32)) ∧
    (let s : State := { d := { launches := [(1, { plainLaunch 1 3 with st := .failing })] } }
     s.finished 1 = true ∧ fld ((s.launch 1).w 2) 0 48 = 0) ∧
    (dispatching {} false).finished 9 = false ∧
    (let l := { plainLaunch 1 3 with kern := { launch1.kern with colevel := 0xFF, stages := [⟨0, 0, 0⟩, ⟨1, 1, 0⟩] }, chans := [3, 4], move := some (0, 1), cnum := 4 }
     let s : State := { cores := [(0, { popAt := 4 })], d := { launches := [(1, l)] }, now := 4095 }
     l.st = .running ∧ s.now + 1 = l.gbegin + l.glen ∧ ({ s with now := 4096 } : State).now + 1 ≠ l.gbegin + l.glen ∧ 2 ≤ l.nstage ∧ 2 ≤ (s.assigned l 0).length ∧ 0 ∈ s.range l ∧ s.stageOf l 0 = 0 ∧ s.atBoundary 0 = true ∧
       ∀ d ∈ s.assigned l 0, s.atBoundary d = true → 0 ≤ d) ∧
    (let s : State := { on { running with task := some task, code := { image := some 7 }, q := { running.q with breach := 0, pointAt := 3 } } with
                        d := { images := [(7, some { asid := 0, va := 0, len := 1, tok := {}, kern := { iterbound := 50 } })] }, now := 54 }
     (s.kernel 0).iterbound = 50 ∧ s.me.q.breach ≠ s.me.q.nid ∧ s.me.q.pointAt + 50 < s.now ∧
       (let a := { acc .vstore 3 1 [0x10000] with clk := 3 }
        (∃ b ∈ ({ s with cores := [(0, { s.me with acc := [a] })] } : State).me.acc, b.op = .vstore ∧ b.clk + 50 < s.now) ∧
        (∃ h ∈ ({ s with w := { held := [{ core := 0, seq := 0, op := .acc a, since := 0 }] } } : State).w.held, h.core = 0 ∧ h.op = .acc a ∧ a.clk + 50 < s.now)) ∧
       ∃ k ∈ (({ s with um := [(0, { order := [{ umk .nop with clk := 3 }] })] } : State).umOf (s.cfg.paneOf 0)).order, k.core = 0 ∧ k.done = false ∧
         k.clk + 50 < s.now) ∧ (run.kernel 0).iterbound = 0 ∧
    (match (booting 0#8).load booted with
     | .ok u v => decide (v.pushed = 0 ∧ v.pushAt = 0 ∧ 0 < v.total) && (match v.input 0 with
       | some q => ((u.queue q).arrive ++ (u.queue q).stalled).isEmpty
       | none => false)
     | _ => false) = true :=
  ⟨by decide, by decide +kernel, by decide +kernel, by decide +kernel, by decide +kernel, by decide, by decide +kernel, by decide +kernel, by decide +kernel,
    by decide, by decide, by decide +kernel⟩

/-- Ring 7's descriptor enables 16 packets at address 0x1000. -/
def descriptor : Sparse Byte := [(descAt 7, 9#8), (descAt 7 + 9, 0x10#8)]
/-- Ring 7 as given. -/
def ringed (v : Ring) (mem : Sparse Byte := []) : State :=
  { run with io := { bar := descriptor, rings := [(7, v)] }, pontil := [(5, { hbm with asid := 0, vbase := 0x1000 })], mem := mem }

/-- As `ringed`, with a page table that maps VA 0x1000 to the page at 0x10000, and entry 5 over it in a state. -/
def paged (v : Ring) (st : PState) : State :=
  { ringed v [(0x21000, 1#8), (0x21001, 0x20#8), (0x21002, 2#8), (0x22000, 1#8), (0x22001, 0x30#8), (0x22002, 2#8), (0x23000, 1#8), (0x23001, 0x40#8), (0x23002, 2#8),
      (0x24008, 0x7F#8), (0x2400A, 1#8)] with
    roots := [(0, 0x21001)], pontil := [(5, { hbm with asid := 0, vbase := 0x1000, st := st })] }

/-- Whether a packet's access breaks its capability is a free value: either case of it may hold. -/
theorem test_meets_RingsAndPackets :
    (∀ i ∈ [Instr.ringEnable 7, .ringDisable 7, .ringPoll 7, .ringUnpark 7, .packetFetch 7, .nopPacket 7, .launchPacket 7 (List.replicate 16 0#64), .graphPacket 7 0x1000#48,
      .waitPacket 7 0x1008#48 2#64, .signalPacket 7 true true 0x1008#48 2#64, .revokePacket 7 true 0x1000#48 0x1000 0x2000#48, .journalAppend], i.wf = true) ∧
    (let s := ringed {}
     (s.ring 7).st = 0 ∧ s.ringOn 7 = true ∧ s.halted = false ∧ fld (s.barNat (descAt 7) 8) 18 46 = 0 ∧ fld (s.barNat (descAt 7) 8) 1 5 = 4 ∧
       s.barNat (descAt 7 + 8) 8 % 4096 = 0) ∧
    (run.ringOn 7 = false ∧ ({ cur := some (.nopPacket 7) } : Ring).cur ≠ none ∧ (ringed { st := 3, off := true }).ringOn 7 = true ∧
      ((ringed { st := 3, off := true }).ring 7).off = true) ∧
    (let v : Ring := { st := 1, log2n := 4, tok := tok 5 2 64 }
     (ringed v).ringReady 7 = false ∧ (ringed v [(0x10000, 0x80#8)]).ringReady 7 = true ∧ (∃ pas, (ringed v [(0x10000, 0x80#8)]).nextPacket 7 = .here pas ∧
       (ringed v [(0x10000, 0x80#8)]).packet 7 pas = some (.nopPacket 7)) ∧
       (∃ pas, (ringed v [(0x10000, 0x86#8)]).nextPacket 7 = .here pas ∧ (ringed v [(0x10000, 0x86#8)]).packet 7 pas = none) ∧
       (ringed { v with tok := tok 5 2 1 }).nextPacket 7 = .bad 5 ∧ ({ (ringed v) with now := 1024 } : State).now = 1024 ∧
       (ringed v).packetThere 7 = false ∧ (ringed { v with look := false }).now < 0 + 1024 ∧ v.look = true ∧ v.loading = false ∧ v.polled = 0) ∧
    (let v : Ring := { st := 2, wait := some (0x10008, 2#64) }
     (ringed v).valueAt ((List.range 8).map (0x10008 + ·)) < (2#64).toNat ∧ (2#64).toNat ≤ (ringed v [(0x10008, 3#8)]).valueAt ((List.range 8).map (0x10008 + ·))) ∧
    (Launch.ofWords ((List.replicate 16 0#64).take 15) (.ring 7 0) false).bad1 = true ∧
    (∀ s : State, ∀ l ∈ [[8], [8, 24], [8, 16, 24, 32, 48, 56]], s.capFault l = none ∨ ∃ f ∈ l, s.capFault l = some f) ∧
    ((ringed { st := 1 }).vpas 0 0x5000 64 rR = none ∧ (match (ringed { st := 1 }).signalAt 0 0x5008 rR with | .fail => true | _ => false) = true) ∧
    ((match (paged {} .live).signalAt 0 0x1008 rR with | .ok _ pas _ => decide (pas = eight 0x10008) | _ => false) = true ∧
      (match (paged {} .draining).signalAt 0 0x1008 rR with | .wait => true | _ => false) = true ∧
      (match (paged {} .live).grant none 0 0x1000 2048 rR with | .ok _ _ => true | _ => false) = true ∧
      (paged {} .live).acquireReady 4096 5 (eight 0x10008) = true ∧ (paged {} .draining).parkedWaits 7 = false) ∧
    (let v : Ring := { st := 1, loading := true }
     let s := { ringed v with pontil := [(5, { hbm with asid := 0, vbase := 0x1000, st := .draining })] }
     (s.ring 7).loading = true ∧ ∃ p ∈ s.pontil, (p.2.st = .draining ∨ p.2.st = .sweeping) ∧ p.2.asid = 0 ∧ p.2.vbase < 0x1000 + 0x1000 ∧ 0x1000 < p.2.vbase + p.2.len) ∧
    (∀ p ∈ (ringed { st := 1, loading := true }).pontil, p.2.st = .live) ∧ Sparse.wf {} (ringed {}).pontil = true ∧
    (let l := (ringed {}).liveIn 0 0x1000 0x1000
     (∀ p ∈ l, 0x1000 ≤ p.2.vbase ∧ p.2.vbase + p.2.len ≤ 0x1000 + 0x1000) ∧ ∃ p ∈ (ringed {}).liveIn 0 0x1800 0x1000, p.2.vbase < 0x1800) ∧
    (let e : JEntry := { gts := 0, seq := 0, index := 0, pstat := 0, result := 0, source := 7, linst := 0, type := 0, detail := 0, packet := true }
     let s : State := { io := { jpend := [e], rings := [(7, {})] }, now := 64 * 20 * 64 }
     s.io.jpend ≠ [] ∧ e.gts + 64 ≤ s.gts0 ∧ ({ s with now := 0 } : State).gts0 < e.gts + 64 ∧ e.index = (s.ring e.source).shown) := by
  refine ⟨by decide, by decide +kernel, by decide, ⟨by decide +kernel, by decide +kernel, ⟨(List.range 128).map (0x10000 + ·), by decide +kernel, by decide +kernel⟩,
    ⟨(List.range 128).map (0x10000 + ·), by decide +kernel, by decide +kernel⟩, by decide +kernel, by decide⟩, by decide +kernel, by decide, fun s l _ => by
      cases h : s.capFault l with
      | none => exact .inl rfl
      | some f => exact .inr ⟨f, List.mem_of_find?_eq_some h, rfl⟩, by decide +kernel, by decide +kernel,
    by decide, by decide, by decide, by decide +kernel, by decide +kernel⟩

/-- The CRC of zeros is zero. -/
theorem crc_zeros (n : Nat) : crc64 (List.replicate n 0#8) = 0#64 := by
  have h : crcByte 0#64 0#8 = 0#64 := by decide
  induction n with
  | zero => rfl
  | succ n ih => unfold crc64 at *; rw [List.replicate_succ, List.foldl_cons, h, ih]

theorem flit_zeros : flitIntact (List.replicate 256 0#8) = true := by
  have : crc64 ((List.replicate 256 0#8).take 248) = 0#64 := by rw [List.take_replicate]; exact crc_zeros _
  unfold flitIntact
  rw [this]; decide +kernel

theorem test_meets_BaseDieAndLinks :
    (∀ i ∈ [Instr.rd 15 { tag := 7, port := 31, line := 2 ^ 30 - 1 }, .wr 0 { tag := 0, port := 0, line := 0 } (List.replicate 64 0#8),
      .wrm 0 { tag := 0, port := 0, line := 0 } 1#64 (List.replicate 64 0#8), .reservedOp 0 { tag := 0, port := 0, line := 0 }, .thermalTrip 0, .linkTrain 1 true,
      .baromFlit 17 (List.replicate 256 0#8), .hostLinkDown 1, .hostHdmWrite 0 [1#8], .hostHdmRead 0 8, .dataReply 0 0 0, .acknowledgement 0 0 0], i.wf = true) ∧
    run.cfg.panes = 16 ∧ (run.port 0 0).reqs = [] ∧ (run.port 0 0).freed = [] ∧ (run.port 0 0).last ≠ run.now + 1 ∧
    (let r : BdReq := { op := 0, tag := 3, line := 2, mask := 0#64, data := [] }
     let w : BdReq := { op := 2, tag := 4, line := 2, mask := 1#64, data := List.replicate 64 7#8 }
     [r, w].find? (fun q => q.tag == 3 && q.op == 0) = some r ∧ [r, w].find? (fun q => q.tag == 4 && q.op != 0) = some w ∧ waitsFor [r] r = false ∧
       waitsFor [w] w = false ∧ waitsFor [r, w] w = true ∧ w.touches 0 = true ∧ w.touches 1 = false ∧ fld w.mask.toNat 0 32 ≠ 2 ^ 32 - 1) ∧
    (∀ w ∈ [({ hard := [(0x80, 1)] } : Rel), { poison := [(0xA0, 1)] }], Sparse.get 0 w.hard 0x80 ≠ 0 ∨ Sparse.get 0 w.poison 0xA0 ≠ 0) ∧
    (let s : State := { io := { link := [(0, 2)] } }
     s.cxl = true ∧ s.io.linkReset = false ∧ s.acquireReady 4096 5 [] = true ∧ Sparse.get 0 s.io.link (1 - 1) = 2) ∧ run.cxl = false ∧
    flitIntact (List.replicate 256 0#8) = true ∧ flitIntact (1#8 :: List.replicate 255 0#8) = false :=
  ⟨by decide +kernel, by decide, by decide, by decide, by decide, by decide +kernel, by decide, by decide +kernel, by decide, flit_zeros, by decide +kernel⟩

/-- A held store of a pair's core. -/
def heldStore (c : Nat) (v : Byte) : Held := { core := c, seq := 0, op := .acc { acc .store 3 1 [0x10000] with data := [v] }, since := 5 }
/-- Cores 0 and 20 are a pair, with held writes. -/
def paired (l : List Held) : State :=
  { run with
    cores := [(0, { running with task := some { task with partner := some 20 }, code := { image := some 7 } }), (20, { running with task := some { task with partner := some 0 } })]
    d := { images := [(7, some { asid := 0, va := 0, len := 1, tok := {}, kern := { iterbound := 50 } })] }
    w := { held := l } }

theorem test_meets_ModuleServices :
    (∀ i ∈ [Instr.redundantCompare 0 0, .redmisTimeout 0 0, .scrubVisit 0x20, .lehrAdjust [(5, 50)], .wearRecordRequest (List.replicate 32 0#8), .managementMailboxRequest 1,
      .forcedPublish 0 1024 3, .moduleReset], i.wf = true) ∧
    (let s := paired [heldStore 0 1#8, heldStore 20 1#8]
     (s.core 0).partner = some 20 ∧ s.w.held.find? (fun h => h.core == 0 && h.seq == 0) = some (heldStore 0 1#8) ∧
       s.w.held.find? (fun k => k.core == 20 && k.seq == 0) = some (heldStore 20 1#8) ∧ (∀ o ∈ s.w.held, o.core = 0 → (heldStore 0 1#8).num ≤ o.num) ∧
       Acc.agrees { acc .store 3 1 [0x10000] with data := [1#8] } { acc .store 3 1 [0x10000] with data := [1#8] } = true ∧
       Acc.agrees { acc .store 3 1 [0x10000] with data := [1#8] } { acc .store 3 1 [0x10000] with data := [2#8] } = false) ∧
    (let s := { paired [heldStore 0 1#8] with now := 55 }
     (s.kernel 0).iterbound = 50 ∧ (heldStore 0 1#8).since + 50 ≤ s.now ∧ s.w.held.find? (fun k => k.core == 20 && k.seq == 0) = none ∧
       ({ s with now := 54 } : State).now < (heldStore 0 1#8).since + 50) ∧
    run.cfg.tier 0x20 = .hbm ∧ run.cfg.tier 0x40000000000 = .lpddr ∧ run.cfg.tier 0x3FFFFFFFFFF = .absent ∧ run.cfg.tier 0x8000000000 = .hbm ∧
    run.cfg.tier 0x80000000000 = .l2 ∧ Sparse.get 0 ({ hard := [(0x20, 1)] } : Rel).hard 0x20 ≠ 0 ∧
    (run.w.lehrAt ≤ run.gts0 ∧ run.gts0 < ({ lehrAt := 1 } : Rel).lehrAt ∧ siteOfUnit 0 = some 0 ∧ 0 ∈ run.cfg.sites) ∧
    (let p : Pub := { core := 0, id := 5, scope := 3, dirty := 1, remote := false }
     let s := { run with pub := [(1024, [p])] }
     (s.pubs 1024).find? (fun p => p.core == 0) = some p ∧ s.unackedAt 0 3 p.id = false ∧ (s.core 0).acc = []) ∧
    (∀ p ∈ run.pubs 1024, p.core ≠ 0) ∧ legalCfg [] = some {} := by decide +kernel

theorem test_meets_MemoryCanonicalKept : MemoryCanonical (fetching [0#64] 6) ∧
    (match Machine.step (fetching [0#64] 6) with | .next t => (t.core 0).q.pc == 6 | _ => false) = true :=
  ⟨show Memory.wf _ = true by decide, by decide +kernel⟩

theorem test_meets_WordsRoundTrip :
    (Instr.crc.wf = true ∧ encodeC .crc = [0x0024000000000000]) ∧ ((Instr.lim 63 0xFFFFFFFFFFFFFFFF#64).wf = true ∧ (encodeC (.lim 63 0xFFFFFFFFFFFFFFFF#64)).length = 2) ∧
    ((Instr.vnop { vz with md := 2 }).wf = true ∧ vParts (.vnop { vz with md := 2 }) = some (0x3FF, { vz with md := 2 })) := by decide +kernel

/-! ### Results the spec works out -/

/-- The configuration of 01_module.md's worked example. -/
def worn : CfgSt := { sitesOut := [9], quadsOut := [5 * 16 + 6], ncol := 480 }

/-- 01_module.md, worked example: ID and CFG of core 2 of physical quad 9 on site 5. -/
theorem test_csrr_worked_example : worn.idWord 354 = 0x15628962#64 ∧ worn.cfgWord 354 = 0x017BC7CA0F03D020#64 := by decide +kernel

/-- 09_page.md, worked example: the word of k5. -/
theorem test_token_worked_example : ({ entry := 0x321, gen := 3, rights := 0xC#4, kind := 1, base := 0, len := 0xC00 } : Token).word = 0x00321003C4000000#64 := by decide

/-- A block of the given bytes: (byte number, value). -/
def blockOf (l : List (Nat × Nat)) : Nat := l.foldl (fun b p => b + p.2 * 2 ^ (8 * p.1)) 0
/-- Blocks along K. -/
def blocks (l : List Nat) (cb : Nat → Nat) : List OpBlk := layOut (fun b k0 => mkBlk k0 (l.getD b 0) cb (fun _ => 0)) l.length 0 0

/-- 02_numbers.md, worked dot product: K = 150 from the accumulator element 1.0. -/
theorem test_mxMm_worked_dot :
    let cb : Nat → Nat := fun i => [0x0000, 0x3F00, 0xBF80, 0x3FC0].getD i 0
    blockDot 0x3F800000 0
      (blocks [blockOf [(0, 1), (1, 0xFD), (2, 0x23), (37, 1)], blockOf [(0, 2), (1, 0xFE), (2, 3), (27, 0x64), (28, 0x80)]] cb)
      (blocks [blockOf [(0, 2), (1, 0xFC), (2, 0x0A), (3, 7)], blockOf [(0, 2), (1, 0xFF), (10, 0xFA)], blockOf [(0, 3), (2, 0x80), (3, 0x3E), (52, 0xAB), (53, 0x3E)]] cb)
      150 = .ok 0x41169800 := by decide +kernel

/-- 02_numbers.md: additions in ascending order keep 2²⁴. -/
theorem test_mxMm_order : accAdd (accAdd 0x4B800000 0x3F800000) 0x3F800000 = 0x4B800000 := by decide +kernel

/-- 02_numbers.md: 0.3 with s = −8 encodes as 77, inexactly. -/
theorem test_vpack_q8 : (q8Code 0 ((fmtF32.dec 0x3E99999A).scale 8)).1 = 77 := by decide +kernel

/-- 02_numbers.md: the stored maximum of the read-and-reset example. -/
theorem test_amoFmax_windows : fmaxR42 (fmaxR42 0 0x3F400000) 0x40200000 = 0x40200000 ∧ fmaxR42 0x40200000 0x3FA00000 = 0x40200000 ∧
    fmaxR42 0x80000000 0 = 0 := by decide +kernel

/-- The scalar a step of one C-word leaves, and where its context stands. -/
def stepped (w : Word) (l : List Word) (d : Nat) : Word × Nat :=
  let s : State := { on { scalars running l with code := { ctl := [(5, w)], ctlLen := 200 } } with agenda := [⟨0, .core 0⟩] }
  match Machine.step s with
  | .next t => ((t.core 0).rdS 0 d, (t.core 0).q.pc)
  | _ => (0#64, 0)

/-- R115: a sum wraps. -/
theorem test_add_wraps : stepped 0x0400404200000000#64 [0xFFFFFFFFFFFFFFFF#64, 2#64] 4 = (1#64, 6) := by decide +kernel

/-- R115: the most negative number divided by −1, and its remainder; R6: writing s0 does nothing. -/
theorem test_div_corners :
    (match exec (.divS (alu 3 1 2 0)) (on (scalars running [0x8000000000000000#64, 0xFFFFFFFFFFFFFFFF#64])) with
      | .next t => (t.core 0).rdS 0 3 | _ => 0#64) = 0x8000000000000000#64 ∧
    (match exec (.divS (alu 3 1 0 0)) (on (scalars running [7#64])) with | .next t => (t.core 0).rdS 0 3 | _ => 0#64) = 0xFFFFFFFFFFFFFFFF#64 ∧
    (match exec (.add (alu 0 1 1 0)) (on (scalars running [7#64])) with | .next t => (t.core 0).rdS 0 0 | _ => 1#64) = 0#64 := by decide +kernel

end Sys2Proof.Tests
end

section
/-! SUPPORT. How the main context enters its trap handler by `trap` and leaves it by `ret` (R103, R104, R112). -/

namespace Sys2Proof.Machine

/-! ### Updates of the running core -/

/-- What a change of the running core comes to rests on that core alone. -/
theorem State.upd_congr (s : State) {f g : Core → Core} (h : f s.me = g s.me) : s.upd f = s.upd g :=
  congrArg (s.setCore s.cur) h

/-- A main context that may issue a word is RUNNING (R100). -/
theorem State.running_of_runs {s : State} (hr : s.runs = true) (hc : s.ctx = 0) : s.me.q.st = .running := by
  simp only [State.runs, hc, if_true, Bool.and_eq_true, beq_iff_eq] at hr
  obtain ⟨-, ⟨hst, -⟩, -⟩ := hr
  exact hst

/-! ### `trap` -/

/-- A `trap` that may issue is a precise trap that resumes at the C-word after it (R112). -/
theorem exec_trap_ready {code : BitVec 16} {s : State} (h : MayIssue (.trap code) [] s) :
    exec (.trap code) s =
      .next ((s.read []).upd (fun x => x.trapAt s.now s.ctx 14 false code.toNat (s.me.q.pc + 1))) := by
  have hpc : (s.read []).me.q.pcOf 0 = s.me.q.pc := by simp [Seq.pcOf]
  calc exec (.trap code) s = execTrap code s := rfl
    _ = .next ((s.read []).upd (fun x => x.trapAt s.now s.ctx 14 false code.toNat (x.q.pcOf 0 + 1))) := issue_ready h _
    _ = _ := congrArg Host.Outcome.next (State.upd_congr _ (by rw [hpc]))

theorem trap_trapsBy (s : State) (code : BitVec 16) : TrapsBy (.trap code) [] s 14 code.toNat (s.me.q.pc + 1) :=
  fun _ hm hc => ⟨_, exec_trap_ready hm, State.trapAt_trapped s [] 14 code.toNat (s.me.q.pc + 1) hc⟩

/-! ### `ret` from a trap -/

/-- A transfer to a C-word of the loaded control section goes on there (R120). -/
theorem transfer_inside (s : State) {n : Nat} (f : Core → Core) (h : n < s.me.code.ctlLen) :
    transfer s n f = .next (s.upd (fun x => (f x).goto s.ctx n)) :=
  if_pos ⟨Int.natCast_nonneg n, Int.ofNat_lt.mpr h⟩

@[simp] theorem Core.trapReturn_r (x : Core) (pc : Nat) : (x.trapReturn pc).r = x.r := rfl
@[simp] theorem Core.trapReturn_c (x : Core) (pc : Nat) : (x.trapReturn pc).c = x.c := rfl
@[simp] theorem Core.trapReturn_tact (x : Core) (pc : Nat) : (x.trapReturn pc).q.tact = false := rfl
@[simp] theorem Core.trapReturn_st (x : Core) (pc : Nat) : (x.trapReturn pc).q.st = x.q.st := rfl
@[simp] theorem Core.trapReturn_loops (x : Core) (pc : Nat) : (x.trapReturn pc).q.loops = x.q.loops := rfl

/-- Going to a C-word of the main context moves its program counter and leaves its state, TACT and loop levels. -/
@[simp] theorem Core.goto_main_pc (x : Core) (pc : Nat) : (x.goto 0 pc).q.pc = pc := rfl
@[simp] theorem Core.goto_main_st (x : Core) (pc : Nat) : (x.goto 0 pc).q.st = x.q.st := rfl
@[simp] theorem Core.goto_main_tact (x : Core) (pc : Nat) : (x.goto 0 pc).q.tact = x.q.tact := rfl
@[simp] theorem Core.goto_main_loops (x : Core) (pc : Nat) : (x.goto 0 pc).q.loops = x.q.loops := rfl

/-- A `ret` of the main context with TACT = 1 to a C-word of the control section is a trap return there (R104, R120). -/
theorem exec_ret_trapped {s : State} {a : Nat} {fea : Bool} (hm : MayIssue (.ret a fea) [.s a fea] s) (hc : s.ctx = 0)
    (ht : s.me.q.tact = true) (hin : (s.sc a).toNat % 2 ^ 15 < s.me.code.ctlLen) :
    exec (.ret a fea) s = .next ((s.read [.s a fea]).upd (fun x =>
      (x.trapReturn ((s.sc a).toNat % 2 ^ 15)).goto 0 ((s.sc a).toNat % 2 ^ 15))) := by
  have hin' : ((s.read [.s a fea]).sc a).toNat % 2 ^ 15 < (s.read [.s a fea]).me.code.ctlLen := by simpa using hin
  have ht' : (s.read [.s a fea]).ctx = 0 ∧ (s.read [.s a fea]).me.q.tact = true := ⟨hc, by simpa using ht⟩
  calc exec (.ret a fea) s = execRet a fea s := rfl
    _ = transfer (s.read [.s a fea]) (((s.read [.s a fea]).sc a).toNat % 2 ^ 15 : Nat) _ := issue_ready hm _
    _ = _ := transfer_inside _ _ hin'
    _ = _ := congrArg Host.Outcome.next (State.upd_congr _ (by simp only [ht', and_self, if_true, State.sc_upd_touch]))

end Sys2Proof.Machine

namespace Sys2Proof

open Machine

/-- Settles O7: `trap` is a precise trap of the main context that resumes at the next C-word (R103, R112), and `ret` with
TACT = 1 clears TACT on its way to the target (R104). -/
theorem trapsAndReturns : Obligations.TrapsAndReturns := by
  refine ⟨trap_trapsBy, ?_, by decide⟩
  intro s a fea hc ht hin _ hm
  refine ⟨_, exec_ret_trapped hm hc ht hin, State.read_upd_only s _ _, ?_⟩
  rw [State.read_upd_core]
  simp [State.running_of_runs hm.runs hc]

end Sys2Proof
end

section
/-! SUPPORT. Where `jmp`, `brx`, `call` and `ret` leave the machine (R104, R120, R121). -/

namespace Sys2Proof.Machine

/-! ### A word that transfers control -/

/-- A word that only transfers: nothing changes but where its context stands (R120). -/
theorem State.goto_quiet (s : State) (l : List Src) (pc : Nat) :
    Quiet s ((s.read l).upd (fun x => x.goto s.ctx pc)) ∧ Goes s ((s.read l).upd (fun x => x.goto s.ctx pc)) pc := by
  have hc := State.read_upd_core s l (fun x => x.goto s.ctx pc)
  refine ⟨⟨State.read_upd_only s l _, ?_, ?_⟩, ?_⟩
  · rw [hc]; exact CoreKept.goto (Core.touch_kept _ _ _) _ _
  · rw [hc]; rfl
  · unfold Goes; rw [hc]; exact Core.goto_pc _ _ _

/-- A word that transfers and writes scalar `d` on its way (R121). -/
theorem State.wrS_goto_writes (s : State) (l : List Src) {d : Nat} (v : Word) (pc : Nat) (hd : d < 64) :
    WritesScalar s ((s.read l).upd (fun x => (x.wrS s.ctx d v).goto s.ctx pc)) d v ∧
      Goes s ((s.read l).upd (fun x => (x.wrS s.ctx d v).goto s.ctx pc)) pc := by
  have hc := State.read_upd_core s l (fun x => (x.wrS s.ctx d v).goto s.ctx pc)
  have hk : ScalarsKept s.me ((s.me.touch s.ctx l).wrS s.ctx d v) s.ctx [d] := by
    obtain ⟨hs, hk, hv, hp, hm, hb⟩ := Core.wrS_kept (s.me.touch s.ctx l) s.ctx v hd
    exact ⟨hs, hk, hv, hp, hm, hb⟩
  refine ⟨⟨State.read_upd_only s l _, ?_, ?_, ?_, ?_⟩, ?_⟩
  · rw [hc]; exact CoreKept.goto (CoreKept.wrS (Core.touch_kept _ _ _) _ _ _) _ _
  · rw [hc]; exact ScalarsKept.of_r hk rfl
  · rw [hc]; exact Core.rdS_wrS_same (s.me.touch s.ctx l) s.ctx d v
  · rw [hc]; exact Core.sMarks_wrS_same (s.me.touch s.ctx l) s.ctx d v
  · unfold Goes; rw [hc]
    simpa using Core.goto_pc ((s.me.touch s.ctx l).wrS s.ctx d v) s.ctx pc

/-- A precise trap of the main context leaves TPC at the word that runs (R46, R103). -/
theorem State.trapAt_here_trapped (s : State) (l : List Src) (cause data : Nat) (h : s.ctx = 0) :
    Trapped s ((s.read l).upd (fun x => x.trapAt s.now s.ctx cause false data (x.q.pcOf 0))) cause data s.me.q.pc := by
  have hpc : (s.read l).me.q.pcOf 0 = s.me.q.pc := by simp [Seq.pcOf]
  rw [State.upd_congr (s.read l) (g := fun x => x.trapAt s.now s.ctx cause false data s.me.q.pc) (by rw [hpc])]
  exact State.trapAt_trapped s l cause data s.me.q.pc h

/-- A target outside the loaded control section traps CODEFETCH with its low 32 bits (R120). -/
theorem transfer_outside {s : State} {target : Int} (f : Core → Core)
    (h : ¬(0 ≤ target ∧ target < (s.me.code.ctlLen : Int))) : transfer s target f = trap s 7 (target % 2 ^ 32).toNat :=
  if_neg h

/-! ### `jmp`, `brx`, `ret` and `call` -/

theorem exec_jmp_ready {disp : BitVec 37} {s : State} (h : MayIssue (.jmp disp) [] s) :
    exec (.jmp disp) s = transfer (s.read []) (s.me.q.pcOf s.ctx + disp.toInt) id := by
  calc exec (.jmp disp) s = execJmp disp s := rfl
    _ = transfer (s.read []) ((s.read []).pc + disp.toInt) id := issue_ready h _
    _ = _ := by simp [State.pc]

theorem exec_brx_ready {a : Nat} {fea : Bool} {imm : BitVec 37} {s : State} (h : MayIssue (.brx a fea imm) [.s a fea] s) :
    exec (.brx a fea imm) s = transfer (s.read [.s a fea]) ((s.sc a).toInt + imm.toInt) id := by
  calc exec (.brx a fea imm) s = execBrx a fea imm s := rfl
    _ = transfer (s.read [.s a fea]) (((s.read [.s a fea]).sc a).toInt + imm.toInt) id := issue_ready h _
    _ = _ := by rw [State.sc_upd_touch]

/-- What a transfer does on its way is said by what it makes of the core that runs. -/
theorem transfer_congr (s : State) (target : Int) {f g : Core → Core} (h : f s.me = g s.me) :
    transfer s target f = transfer s target g := by
  unfold transfer
  rw [State.upd_congr s (g := fun x => (g x).goto s.ctx target.toNat) (by rw [h])]

/-- A `ret` of a handler context, or of the main context with TACT = 0, is a plain transfer (R121). -/
theorem exec_ret_plain {s : State} {a : Nat} {fea : Bool} (hm : MayIssue (.ret a fea) [.s a fea] s)
    (h : s.ctx ≠ 0 ∨ s.me.q.tact = false) :
    exec (.ret a fea) s = transfer (s.read [.s a fea]) ((s.sc a).toNat % 2 ^ 15 : Nat) id := by
  have hn : ¬(s.ctx = 0 ∧ (s.read [.s a fea]).me.q.tact = true) := by
    rintro ⟨h0, ht⟩
    rcases h with h | h
    · exact h h0
    · simp [h] at ht
  calc exec (.ret a fea) s = execRet a fea s := rfl
    _ = transfer (s.read [.s a fea]) (((s.read [.s a fea]).sc a).toNat % 2 ^ 15 : Nat) _ := issue_ready hm _
    _ = transfer (s.read [.s a fea]) (((s.read [.s a fea]).sc a).toNat % 2 ^ 15 : Nat) id :=
      transfer_congr _ _ (if_neg hn)
    _ = _ := by rw [State.sc_upd_touch]

/-- A `call` with TACT = 0 writes P + 1 to s62 on its way (R121). -/
theorem exec_call_plain {s : State} {disp : BitVec 37} (hm : MayIssue (.call disp) [] s) (ht : s.me.q.tact = false) :
    exec (.call disp) s = transfer (s.read []) (s.me.q.pcOf s.ctx + disp.toInt)
      (fun x => x.wrS s.ctx 62 (BitVec.ofNat 64 (s.me.q.pcOf s.ctx + 1))) := by
  have hpc : (s.read []).pc = s.me.q.pcOf s.ctx := by simp [State.pc]
  have ht' : ¬(s.read []).me.q.tact = true := by simp [ht]
  calc exec (.call disp) s = execCall disp s := rfl
    _ = if (s.read []).me.q.tact = true then illegal (.call disp) (s.read []) else
          transfer (s.read []) ((s.read []).pc + disp.toInt)
            (fun x => x.wrS s.ctx 62 (BitVec.ofNat 64 ((s.read []).pc + 1))) := issue_ready hm _
    _ = _ := by rw [if_neg ht', hpc]

/-- MIN of an instruction in CI layout is its MIN field (R50, R103). -/
theorem minOf_ciWord {i : Instr} {f : CI} (he : encodeC i = [ciWord f]) (hf : f.fits) (hmaj : f.maj ≠ 5) : minOf i = f.mn := by
  obtain ⟨-, -, hmn, hfld⟩ := ciOf_ciWord f hf
  calc minOf i = if fld (ciWord f) 58 6 = 5 then fld (ciWord f) 53 5 else fld (ciWord f) 50 8 := by rw [minOf, he]
    _ = fld (ciWord f) 50 8 := if_neg (by rwa [hfld])
    _ = f.mn := hmn

theorem minOf_call (disp : BitVec 37) : minOf (.call disp) = 1 := by
  have hf : CI.fits { maj := 6, mn := 1, d := 0, a := 0, fea := false, imm := disp.toNat } := by
    simp [CI.fits, disp.isLt]
  exact minOf_ciWord rfl hf (by simp)

/-- A `call` with TACT = 1 is illegal (R104, R121). -/
theorem exec_call_trapped {s : State} {disp : BitVec 37} (hm : MayIssue (.call disp) [] s) (ht : s.me.q.tact = true) :
    exec (.call disp) s = trap (s.read []) 1 1 := by
  have ht' : (s.read []).me.q.tact = true := by simp [ht]
  calc exec (.call disp) s = execCall disp s := rfl
    _ = if (s.read []).me.q.tact = true then illegal (.call disp) (s.read []) else _ := issue_ready hm _
    _ = illegal (.call disp) (s.read []) := if_pos ht'
    _ = _ := by rw [illegal, minOf_call]

theorem call_writesLink {s : State} {disp : BitVec 37} (ht : s.me.q.tact = false)
    (h : 0 ≤ s.me.q.pcOf s.ctx + disp.toInt ∧ s.me.q.pcOf s.ctx + disp.toInt < (s.me.code.ctlLen : Int)) :
    WordResult (.call disp) [] s (fun t => WritesScalar s t 62 (BitVec.ofNat 64 (s.me.q.pcOf s.ctx + 1)) ∧
      Goes s t (s.me.q.pcOf s.ctx + disp.toInt).toNat) :=
  fun _ hm => ⟨_, (exec_call_plain hm ht).trans (if_pos (by simpa using h)), State.wrS_goto_writes s [] _ _ (by decide)⟩

theorem call_outside {s : State} {disp : BitVec 37} (ht : s.me.q.tact = false)
    (h : ¬(0 ≤ s.me.q.pcOf s.ctx + disp.toInt ∧ s.me.q.pcOf s.ctx + disp.toInt < (s.me.code.ctlLen : Int))) :
    TrapsBy (.call disp) [] s 7 ((s.me.q.pcOf s.ctx + disp.toInt) % 2 ^ 32).toNat s.me.q.pc :=
  trap_trapped fun hm => (exec_call_plain hm ht).trans (transfer_outside _ (by simpa using h))

theorem ret_returns {s : State} {a : Nat} {fea : Bool} (hc : s.ctx = 0) (ht : s.me.q.tact = true)
    (hin : (s.sc a).toNat % 2 ^ 15 < s.me.code.ctlLen) :
    WordResult (.ret a fea) [.s a fea] s
      (fun t => (t.core s.cur).q.tact = false ∧ (t.core s.cur).q.pc = (s.sc a).toNat % 2 ^ 15) := by
  intro _ hm
  refine ⟨_, exec_ret_trapped hm hc ht hin, ?_⟩
  simp only [State.read_upd_core, Core.goto_main_tact, Core.trapReturn_tact, Core.goto_main_pc, and_self]

end Sys2Proof.Machine

namespace Sys2Proof

open Machine

/-- Settles O6: each word is one transfer (R120) to the target R121 gives it, `call` with its link register written on the way;
with TACT = 1 `call` is illegal and `ret` returns (R104). -/
theorem transfersOfControl : Obligations.TransfersOfControl :=
  ⟨fun _ _ => transfer_to exec_jmp_ready, fun _ _ _ _ => transfer_to exec_brx_ready,
    fun _ _ _ => ret_returns, fun _ _ _ h => transfer_to (exec_ret_plain · h),
    fun _ _ ht => ⟨call_writesLink ht, call_outside ht⟩,
    fun _ _ ht => trap_trapped (exec_call_trapped · ht),
    fun _ => rfl, fun _ => rfl, by decide⟩

end Sys2Proof
end

section
/-! SUPPORT. What a condition of `cset` and `br` reads and finds, and what finding an engine's condition leaves to see (R55, R118,
R119). -/

namespace Sys2Proof.Machine

/-! ### Conditions -/

/-- A condition holds just when what R55 and R119 say of it is true. -/
theorem condHolds_iff (s : State) (k : Cond) (a b : Word) : condHolds s k a b = true ↔ CondTrue s k a b := by
  cases k <;>
    simp [condHolds, CondTrue, Core.cpyBusy, Core.cpyFault, Core.mxFault, State.umBusy]

/-- A condition that compares registers reads nothing else (R55). -/
theorem condHolds_of_compares {k : Cond} (h : k.compares = true) (s t : State) (a b : Word) :
    condHolds t k a b = condHolds s k a b := by
  cases k <;> simp [Cond.compares, condHolds] at h ⊢

/-- Reading no source leaves the running core as it is. -/
theorem Core.touch_nil (x : Core) (ctx : Nat) : x.touch ctx [] = x := by
  simp [Core.touch]

/-- A condition reads the same after its word's sources are read: those of a comparison clear no status that it tests (R119, R180). -/
theorem condHolds_read (s : State) (f : CmpF) (a b : Word) :
    condHolds (s.read (CmpSrcs f)) f.cond a b = condHolds s f.cond a b := by
  cases hc : f.cond.compares with
  | true => exact condHolds_of_compares hc _ _ _ _
  | false =>
    have hl : CmpSrcs f = [] := by simp [CmpSrcs, hc]
    have hme : (s.read []).me = s.me := by rw [State.read_me, Core.touch_nil]
    have hcore : (s.read []).core s.cur = s.core s.cur := hme
    rw [hl]
    cases f.cond <;>
      simp only [condHolds, State.mxBusy, State.umBusy, State.umOf, State.marver, hme, hcore, State.read_cur, State.upd_cfg,
        State.upd_um, State.upd_mx]

/-- A `cset` or `br` finds, when its sources are read, whether its condition is true of the state it issues in (R55, R118). -/
theorem condHolds_operands_iff (s : State) (f : CmpF) :
    condHolds (s.read (CmpSrcs f)) f.cond ((s.read (CmpSrcs f)).sc f.a) ((s.read (CmpSrcs f)).sc f.b) = true ↔
      CondTrue s f.cond (s.sc f.a) (s.sc f.b) := by
  rw [State.sc_upd_touch, State.sc_upd_touch, condHolds_read, condHolds_iff]

/-- Finding a condition true changes nothing but what the context follows in happens-before (R119). -/
theorem State.sampled_eq (s : State) (k : Cond) : s.sampled k = { s with hb := (s.sampled k).hb } := by
  cases k <;> rfl

/-- Fields that give registers to a condition that compares none fail their check (R55). -/
theorem CmpF.checks_fail {f : CmpF} (hc : f.cond.compares = false) (h : f.a ≠ 0 ∨ f.b ≠ 0 ∨ f.fea = true ∨ f.feb = true) :
    firstFail f.checks ≠ none := by
  have hz : (isZ f.a && isZ f.b && !f.fea && !f.feb) = false := by
    rcases h with h | h | h | h <;> simp [isZ, h]
  simp [CmpF.checks, hc, hz, firstFail_cons]

theorem cset_wf_iff (d : Nat) (f : CmpF) : (Instr.cset d f).wf = true ↔ d < 64 ∧ firstFail f.checks = none := by
  simp [Instr.wf, Instr.check, firstFail_cons, isS]

theorem br_wf_iff (f : CmpF) (disp : BitVec 39) : (Instr.br f disp).wf = true ↔ firstFail f.checks = none := by
  simp [Instr.wf, Instr.check]

theorem conditional_not_wf {f : CmpF} (hc : f.cond.compares = false) (h : f.a ≠ 0 ∨ f.b ≠ 0 ∨ f.fea = true ∨ f.feb = true) (d : Nat)
    (disp : BitVec 39) : (Instr.cset d f).wf = false ∧ (Instr.br f disp).wf = false :=
  ⟨Bool.eq_false_iff.mpr fun hw => CmpF.checks_fail hc h ((cset_wf_iff d f).mp hw).2,
    Bool.eq_false_iff.mpr fun hw => CmpF.checks_fail hc h ((br_wf_iff f disp).mp hw)⟩

/-! ### `cset` -/

section Conditional
variable {s : State} {f : CmpF} {d : Nat} {disp : BitVec 39}

theorem exec_cset_true (hm : MayIssue (.cset d f) (CmpSrcs f) s) (hc : CondTrue s f.cond (s.sc f.a) (s.sc f.b)) :
    exec (.cset d f) s = .next (((s.read (CmpSrcs f)).sampled f.cond).ret d 1 1#64) := by
  calc exec (.cset d f) s = execCset d f s := rfl
    _ = _ := issue_ready hm _
    _ = _ := if_pos ((condHolds_operands_iff s f).mpr hc)

theorem exec_cset_false (hm : MayIssue (.cset d f) (CmpSrcs f) s) (hc : ¬CondTrue s f.cond (s.sc f.a) (s.sc f.b)) :
    exec (.cset d f) s = .next ((s.read (CmpSrcs f)).ret d 1 0#64) := by
  calc exec (.cset d f) s = execCset d f s := rfl
    _ = _ := issue_ready hm _
    _ = _ := if_neg (mt (condHolds_operands_iff s f).mp hc)

/-- Apart from what it sees, a `cset` that finds its condition true writes its scalar as any scalar word does. -/
theorem State.sampled_ret_unseen (s : State) (l : List Src) (k : Cond) (d n : Nat) (v : Word) :
    { ((s.read l).sampled k).ret d n v with hb := s.hb } = (s.read l).ret d n v := by
  rw [State.sampled_eq]; rfl

theorem cset_writes (s : State) (d : Nat) (f : CmpF) :
    SeeingResult (.cset d f) (CmpSrcs f) s (fun t => ∃ v, WritesScalar s t d v ∧ Passes s t 1 ∧
      ((CondTrue s f.cond (s.sc f.a) (s.sc f.b) ∧ v = 1#64) ∨ (¬CondTrue s f.cond (s.sc f.a) (s.sc f.b) ∧ v = 0#64))) := by
  intro hw hm
  have hd : d < 64 := ((cset_wf_iff d f).mp hw).1
  by_cases hc : CondTrue s f.cond (s.sc f.a) (s.sc f.b)
  · obtain ⟨hv, hp⟩ := State.ret_writes s (CmpSrcs f) 1#64 hd Nat.one_pos
    refine ⟨_, exec_cset_true hm hc, ?_⟩
    rw [State.sampled_ret_unseen]
    exact ⟨1#64, hv, hp, .inl ⟨hc, rfl⟩⟩
  · obtain ⟨hv, hp⟩ := State.ret_writes s (CmpSrcs f) 0#64 hd Nat.one_pos
    exact ⟨_, exec_cset_false hm hc, 0#64, hv, hp, .inr ⟨hc, rfl⟩⟩

/-! ### `br` -/

theorem exec_br_taken (hm : MayIssue (.br f disp) (CmpSrcs f) s) (hc : CondTrue s f.cond (s.sc f.a) (s.sc f.b)) :
    exec (.br f disp) s =
      transfer ((s.read (CmpSrcs f)).sampled f.cond) (s.me.q.pcOf s.ctx + disp.toInt) id := by
  have hpc : (s.read (CmpSrcs f)).pc = s.me.q.pcOf s.ctx := by simp [State.pc]
  calc exec (.br f disp) s = execBr f disp s := rfl
    _ = _ := issue_ready hm _
    _ = transfer ((s.read (CmpSrcs f)).sampled f.cond) ((s.read (CmpSrcs f)).pc + disp.toInt) id :=
      if_pos ((condHolds_operands_iff s f).mpr hc)
    _ = _ := by rw [hpc]

theorem exec_br_untaken (hm : MayIssue (.br f disp) (CmpSrcs f) s) (hc : ¬CondTrue s f.cond (s.sc f.a) (s.sc f.b)) :
    exec (.br f disp) s = .next ((s.read (CmpSrcs f)).done 1) := by
  calc exec (.br f disp) s = execBr f disp s := rfl
    _ = _ := issue_ready hm _
    _ = _ := if_neg (mt (condHolds_operands_iff s f).mp hc)

/-- A transfer on a condition that has been found true is, apart from what it sees, the plain transfer. -/
theorem transfer_sampled {s u : State} {target : Int} (k : Cond) (h : transfer s target id = .next u) :
    ∃ t, transfer (s.sampled k) target id = .next t ∧ { t with hb := s.hb } = u := by
  rw [State.sampled_eq]
  by_cases hin : 0 ≤ target ∧ target < (s.me.code.ctlLen : Int)
  · obtain rfl := Host.Outcome.next.inj (h.symm.trans (if_pos hin))
    exact ⟨_, if_pos hin, rfl⟩
  · obtain rfl := Host.Outcome.next.inj (h.symm.trans (transfer_outside id hin))
    exact ⟨_, transfer_outside id hin, rfl⟩

/-- A taken `br` does what its transfer does, and may see what an engine wrote beside it (R118, R119). -/
theorem br_taken {u : State} {P : State → Prop} (hc : CondTrue s f.cond (s.sc f.a) (s.sc f.b))
    (ht : transfer (s.read (CmpSrcs f)) (s.me.q.pcOf s.ctx + disp.toInt) id = .next u) (hP : P u) :
    SeeingResult (.br f disp) (CmpSrcs f) s P := by
  intro _ hm
  obtain ⟨t, hexec, rfl⟩ := transfer_sampled f.cond ht
  exact ⟨t, (exec_br_taken hm hc).trans hexec, hP⟩

theorem br_untaken (hc : ¬CondTrue s f.cond (s.sc f.a) (s.sc f.b)) :
    WordResult (.br f disp) (CmpSrcs f) s (fun t => Quiet s t ∧ Passes s t 1) :=
  fun _ hm => ⟨_, exec_br_untaken hm hc, State.done_quiet s _ Nat.one_pos⟩

end Conditional

end Sys2Proof.Machine

namespace Sys2Proof

open Machine

/-- Settles O5: the condition is what R55 and R119 say, `cset` writes it and `br` transfers on it (R118); what is seen of an
engine's writes touches happens-before alone. -/
theorem conditionsAndBranches : Obligations.ConditionsAndBranches := by
  refine ⟨cset_writes, fun s f disp hc => ⟨fun hin => ?_, fun hout hctx => ?_⟩, fun _ _ _ => br_untaken,
    fun d f disp hk h => conditional_not_wf hk h d disp, by decide⟩
  · exact br_taken hc (if_pos (by simpa using hin)) (State.goto_quiet s _ _)
  · exact br_taken hc (transfer_outside id (by simpa using hout)) (State.trapAt_here_trapped s _ _ _ hctx)

end Sys2Proof
end

section
/-! SUPPORT. What a word that drains leaves while it holds its context, and what `chk` comes to (R102, R103, R133). -/

namespace Sys2Proof

open Machine

/-! ### One change of a context's place after another -/

section Quiet
variable {s u t : State}

theorem OnlyCore.cur_eq {c : Nat} (h : OnlyCore c s u) : u.cur = s.cur := by rw [h.rest]
theorem OnlyCore.ctx_eq {c : Nat} (h : OnlyCore c s u) : u.ctx = s.ctx := by rw [h.rest]
theorem OnlyCore.me_eq (h : OnlyCore s.cur s u) : u.me = u.core s.cur := by rw [State.me, h.cur_eq]

/-- Of a core that is kept, TACT and the control and status registers are as before. -/
theorem CoreKept.tact {x y : Core} (h : CoreKept x y) : y.q.tact = x.q.tact := by rw [h.place]
theorem CoreKept.csrs {x y : Core} (h : CoreKept x y) : y.c = x.c := by rw [h.rest]

/-- A word that goes on from where its context has held changes nothing but where the context stands (R123). -/
theorem Quiet.done (hq : Quiet s u) (hg : Goes s u (s.me.q.pcOf s.ctx)) {n : Nat} (hn : 0 < n) :
    Quiet s (u.done n) ∧ Passes s (u.done n) n := by
  have hcur := hq.only.cur_eq
  have hctx := hq.only.ctx_eq
  obtain ⟨hpc, hloops⟩ := hg
  have hc : (u.done n).core s.cur = (u.core s.cur).next s.ctx n := by
    rw [← hcur, ← hctx]; exact State.core_upd u _
  have hloop : ∀ l, (u.core s.cur).q.loop l = s.me.q.loop l := fun l => by rw [Seq.loop, hloops, Seq.loop]
  refine ⟨⟨OnlyCore.trans hq.only (hcur ▸ State.upd_only u _), ?_, ?_⟩, fun h => ?_⟩
  · rw [hc]; exact CoreKept.next hq.core _ _
  · rw [hc]; exact hq.regs
  · rw [hc, ← hpc]
    exact Core.next_pc _ _ _ hn (by simpa only [hloop, hpc, hq.core.tact] using h)

/-- A trap of a word whose context has held is a trap of the state in which the word issued (R103). -/
theorem Quiet.trapped {cause data resume : Nat} (hq : Quiet s u) (hpc : (u.core s.cur).q.pc = s.me.q.pc)
    (hloops : (u.core s.cur).q.loops = s.me.q.loops) (ht : Trapped u t cause data resume) : Trapped s t cause data resume := by
  have hcur := hq.only.cur_eq
  have hme := hq.only.me_eq
  obtain ⟨honly, hregs, hcore, hsaved, hst, htact, hpc', hloops'⟩ := ht
  rw [hcur] at honly hregs hcore hsaved hst htact hpc' hloops'
  rw [hme] at hregs hcore hsaved hst htact hpc' hloops'
  rw [hq.core.csrs, hq.core.tact] at hsaved hst htact hpc'
  refine ⟨OnlyCore.trans hq.only honly, hregs.trans hq.regs, ?_, hsaved, hst, htact, by rw [hpc', hpc], hloops'.trans hloops⟩
  rw [hcore, hq.core.rest, hq.regs]

end Quiet

/-- What a trap has done is said by the core that takes it, and by nothing else changing. -/
theorem Trapped.of_core {s t u : State} {cause data resume : Nat} (h : Trapped s t cause data resume) (ho : OnlyCore s.cur s u)
    (hc : u.core s.cur = t.core s.cur) : Trapped s u cause data resume := by
  obtain ⟨-, hregs, hcore, hsaved, hst, htact, hpc, hloops⟩ := h
  rw [← hc] at hregs hcore hsaved hst htact hpc hloops
  exact ⟨ho, hregs, hcore, hsaved, hst, htact, hpc, hloops⟩

end Sys2Proof

namespace Sys2Proof.Machine

/-- A precise trap of the main context, where its word has read no source (R103). -/
theorem State.trap_trapped (s : State) (cause data : Nat) (h : s.ctx = 0) :
    Trapped s (s.upd (fun x => x.trapAt s.now s.ctx cause false data (x.q.pcOf 0))) cause data s.me.q.pc := by
  refine (State.trapAt_here_trapped s [] cause data h).of_core (State.upd_only s _) ?_
  rw [State.core_upd, State.read_upd_core, Core.touch_nil]

/-! ### A context that holds -/

/-- The core whose context `ctx` begins to wait as a word of kind `k` does (R97, R102). -/
def Core.heldBy (x : Core) (now ctx : Nat) (k : HoldK) : Core :=
  (x.seq (fun q => { ((q.leave ctx).setHold ctx { k := k, since := q.nid }) with
    pointAt := if k.waitsAtPoint then now else q.pointAt })).tickId

theorem State.holds_core (s : State) (l : List Src) (k : HoldK) :
    ((s.read l).holds k).core s.cur = (s.me.touch s.ctx l).heldBy s.now s.ctx k := State.read_upd_core s l _

theorem Core.heldBy_goes (x : Core) (now ctx : Nat) (k : HoldK) :
    (x.heldBy now ctx k).q.pcOf ctx = x.q.pcOf ctx ∧ (x.heldBy now ctx k).q.loops = x.q.loops := by
  unfold Core.heldBy Seq.leave
  by_cases h : ctx = 0 <;> simp [h, Core.seq, Core.tickId, Seq.setHold, Seq.pcOf, Seq.hctx]

theorem Core.heldBy_hold (x : Core) (now ctx : Nat) (k : HoldK) :
    (x.heldBy now ctx k).q.holdOf ctx = { k := k, since := x.q.nid } := Sparse.get_set_same ..

theorem CoreKept.heldBy {x y : Core} (h : CoreKept x y) (now ctx : Nat) (k : HoldK) : CoreKept x (y.heldBy now ctx k) where
  rest := by
    calc y.heldBy now ctx k = { y with q := (y.heldBy now ctx k).q } := rfl
      _ = _ := by rw [h.rest]; rfl
  engines := h.engines
  place := by
    have hq : (y.heldBy now ctx k).q =
        { y.q with nid := y.q.nid + 1, point := (y.heldBy now ctx k).q.point, pointAt := (y.heldBy now ctx k).q.pointAt
                   hold := (y.heldBy now ctx k).q.hold } := by
      unfold Core.heldBy Seq.leave
      by_cases hc : ctx = 0 <;> simp [hc, Core.seq, Core.tickId, Seq.setHold]
    rw [hq, h.place]

/-- A context that begins to wait changes in nothing but that (R102): it stands at its word, and holds for what was issued before. -/
theorem State.holds_quiet (s : State) (l : List Src) (k : HoldK) :
    Quiet s ((s.read l).holds k) ∧ Goes s ((s.read l).holds k) (s.me.q.pcOf s.ctx) ∧
      (((s.read l).holds k).core s.cur).q.holdOf s.ctx = { k := k, since := s.me.q.nid } := by
  have hc := State.holds_core s l k
  refine ⟨⟨State.read_upd_only s l _, ?_, ?_⟩, ?_, ?_⟩
  · rw [hc]; exact CoreKept.heldBy (Core.touch_kept _ _ _) _ _ _
  · rw [hc]; rfl
  · unfold Goes; rw [hc]; exact Core.heldBy_goes _ _ _ _
  · rw [hc]; exact Core.heldBy_hold _ _ _ _

/-- A word that may issue is not one that holds its context already (R102). -/
theorem State.free_of_runs {s : State} (h : s.runs = true) : s.hold.k = .free := by
  simp only [State.runs, Bool.and_eq_true, beq_iff_eq] at h
  obtain ⟨⟨-, hk⟩, -⟩ := h
  exact hk

/-- A word that drains and may issue holds its context for what was issued before it, and ends at once where that is done (R102). -/
theorem drainWord_ready {i : Instr} {l : List Src} {s : State} (hm : MayIssue i l s) {k : HoldK} (hk : k ≠ .free)
    (ready : State → Nat → Bool) (fin : State → Out) :
    drainWord i s l k ready fin =
      if ready ((s.read l).holds k) s.me.q.nid = true then fin ((s.read l).holds k) else .next ((s.read l).holds k) := by
  have hn : ¬(s.hold.k = k ∧ k ≠ .free) := fun h => hk (h.1.symm.trans (State.free_of_runs hm.runs))
  have hs : ((s.read l).holds k).hold.since = s.me.q.nid := by
    obtain ⟨-, -, hh⟩ := State.holds_quiet s l k
    exact congrArg Hold.since hh
  rw [drainWord, if_neg hn, issue_ready hm]
  simp only [hs]

/-! ### `chk` -/

/-- Every earlier access of the running core has made its token check (R133): those under way, and those of the V-words that are still in
the load and store queues. -/
def State.allChecked (s : State) : Prop :=
  (∀ a ∈ s.me.acc, a.chk ≠ 0 ∨ s.me.q.nid ≤ a.id) ∧ (∀ e ∈ s.me.v.ql, s.me.q.nid ≤ e.cap.id) ∧
    ∀ e ∈ s.me.v.qs, s.me.q.nid ≤ e.cap.id

theorem Core.accChecked_iff (x : Core) (n : Nat) : x.accChecked n = true ↔ ∀ a ∈ x.acc, a.chk ≠ 0 ∨ n ≤ a.id := by
  simp [Core.accChecked]

theorem Core.vChecked_iff (x : Core) (q n : Nat) : x.vChecked q n = true ↔ ∀ e ∈ x.v.queue q, n ≤ e.cap.id := by
  simp [Core.vChecked]

/-- What `chk` waits for has come just when every earlier access has made its token check; holding its context changes none of it. -/
theorem State.allChecked_iff {s u : State} (hq : Quiet s u) :
    (u.me.accChecked s.me.q.nid && u.me.vChecked 0 s.me.q.nid && u.me.vChecked 2 s.me.q.nid) = true ↔ s.allChecked := by
  have hme := hq.only.me_eq
  have hacc : u.me.acc = s.me.acc := by rw [hme, hq.core.rest]
  have hv : u.me.v = s.me.v := by rw [hme, hq.core.rest]
  simp only [Bool.and_eq_true, Core.accChecked_iff, Core.vChecked_iff, hacc, hv, and_assoc]
  rfl

theorem kSticky_iff (k : Word) : kSticky k = true ↔ k &&& 7#64 ≠ 0#64 := by simp [kSticky]

/-- The state in which a word without sources holds its context for what was issued before it. -/
abbrev State.draining (s : State) : State := (s.read []).holds .drain

theorem State.draining_quiet (s : State) : Quiet s s.draining := (State.holds_quiet s [] .drain).1

/-- The effect of a `chk` that waits for nothing more (R133). -/
theorem exec_chk_checked {s : State} (hm : MayIssue .chk [] s) (h : s.allChecked) :
    exec .chk s = if kSticky s.me.c.kstat = true then trap s.draining 9 (kEntry s.me.c.kstat) else .next (s.draining.done 1) := by
  have hc : s.draining.me.c = s.me.c := by
    rw [s.draining_quiet.only.me_eq, s.draining_quiet.core.csrs]
  calc exec .chk s = execChk s := rfl
    _ = _ := drainWord_ready hm (by decide) _ _
    _ = _ := if_pos ((State.allChecked_iff s.draining_quiet).mpr h)
    _ = _ := by rw [hc]

theorem exec_chk_unchecked {s : State} (hm : MayIssue .chk [] s) (h : ¬s.allChecked) : exec .chk s = .next s.draining :=
  calc exec .chk s = execChk s := rfl
    _ = _ := drainWord_ready hm (by decide) _ _
    _ = _ := if_neg (mt (State.allChecked_iff s.draining_quiet).mp h)

theorem chk_completes {s : State} (h : s.allChecked) (hk : s.me.c.kstat &&& 7#64 = 0#64) :
    WordResult .chk [] s (fun t => Quiet s t ∧ Passes s t 1) := by
  intro _ hm
  obtain ⟨hq, hg, -⟩ := State.holds_quiet s [] .drain
  exact ⟨_, (exec_chk_checked hm h).trans (if_neg fun hs => (kSticky_iff _).mp hs hk), hq.done hg Nat.one_pos⟩

theorem chk_traps {s : State} (h : s.allChecked) (hk : s.me.c.kstat &&& 7#64 ≠ 0#64) :
    TrapsBy .chk [] s 9 (s.me.c.kstat.toNat / 2 ^ 12 % 2 ^ 20) s.me.q.pc := by
  intro _ hm hctx
  obtain ⟨hq, ⟨hpc, hloops⟩, -⟩ := State.holds_quiet s [] .drain
  rw [hctx] at hpc
  have ht := State.trap_trapped s.draining 9 (kEntry s.me.c.kstat) (hq.only.ctx_eq.trans hctx)
  have hhere : s.draining.me.q.pc = s.me.q.pc := by rw [hq.only.me_eq]; exact hpc
  rw [hhere] at ht
  exact ⟨_, (exec_chk_checked hm h).trans (if_pos ((kSticky_iff _).mpr hk)), hq.trapped hpc hloops ht⟩

theorem chk_holds {s : State} (h : ¬s.allChecked) :
    WordResult .chk [] s (fun t => Quiet s t ∧ Goes s t (s.me.q.pcOf s.ctx) ∧
      (t.core s.cur).q.holdOf s.ctx = { k := .drain, since := s.me.q.nid }) :=
  fun _ hm => ⟨_, exec_chk_unchecked hm h, State.holds_quiet s [] .drain⟩

end Sys2Proof.Machine

namespace Sys2Proof

open Machine

/-- Settles O12: `chk` holds its context until the accesses issued before it are checked, then traps or goes on by KSTAT (R133). -/
theorem tokenCheckPoint : Obligations.TokenCheckPoint :=
  fun _ => ⟨chk_completes, chk_traps, chk_holds, by decide⟩

end Sys2Proof
end

section
/-! SUPPORT. What `tkrev` finds and does: an extent purged from every translation cache, an entry that begins to drain, the forward
token of a MOVE, and the wait for the end (R206, R209, R214). -/

namespace Sys2Proof.Machine

/-! ### One change made to every core -/

theorem Sparse.get_of_not_listed {α : Type} (d : α) (m : Sparse α) {k : Nat} (h : k ∉ m.map Prod.fst) : Sparse.get d m k = d := by
  induction m with
  | nil => rfl
  | cons p m ih =>
    obtain ⟨hp, hm⟩ := not_or.mp (mt List.mem_cons.mpr h)
    simpa [Sparse.get, Ne.symm hp] using ih hm

section EveryCore
variable {f : Nat → Core → Core}

/-- A change that made twice is made once reaches every core of a list, and no other. -/
theorem State.core_foldl_mod (hf : ∀ c x, f c (f c x) = f c x) (l : List Nat) (s : State) (c : Nat) :
    (l.foldl (fun t c => t.mod c (f c)) s).core c = if c ∈ l then f c (s.core c) else s.core c := by
  induction l generalizing s with
  | nil => rfl
  | cons a l ih =>
    rw [List.foldl_cons, ih]
    by_cases ha : c = a
    · subst ha
      simp [hf]
    · simp [State.core_mod_other s (f a) ha, ha]

/-- A change of every listed core is one of every core, where an untouched core stays as it is. -/
theorem State.core_modAll (hf : ∀ c x, f c (f c x) = f c x) (h0 : ∀ c, f c {} = {}) (s : State) (c : Nat) :
    (s.modAll f).core c = f c (s.core c) := by
  refine (State.core_foldl_mod hf s.coreList s c).trans ?_
  split
  · rfl
  · next hc => rw [State.core, Sparse.get_of_not_listed _ _ hc, h0]

@[simp] theorem State.modAll_cur (s : State) : (s.modAll f).cur = s.cur :=
  foldl_same State.cur _ (fun t c => State.mod_cur t c _) _ s

@[simp] theorem State.modAll_ctx (s : State) : (s.modAll f).ctx = s.ctx :=
  foldl_same State.ctx _ (fun t c => State.mod_ctx t c _) _ s

@[simp] theorem State.modAll_now (s : State) : (s.modAll f).now = s.now :=
  foldl_same State.now _ (fun t c => State.mod_now t c _) _ s

@[simp] theorem State.modAll_pontil (s : State) : (s.modAll f).pontil = s.pontil :=
  foldl_same State.pontil _ (fun t c => State.mod_pontil t c _) _ s

end EveryCore

/-! ### An extent purged from the translation caches (R200, R206) -/

/-- Whether a page of a translation cache is one of an extent. -/
def TlbE.within (e : TlbE) (asid va len : Nat) : Bool := e.asid == asid && overlap (e.vpn * 4096) (e.n * 4096) va len

theorem TlbE.within_iff (e : TlbE) (asid va len : Nat) :
    e.within asid va len = true ↔ e.asid = asid ∧ e.vpn * 4096 < va + len ∧ va < (e.vpn + e.n) * 4096 := by
  simp [TlbE.within, overlap, Nat.add_mul]

/-- A core whose translation cache holds no page of an extent. -/
def Core.purged (x : Core) (asid va len : Nat) : Core := { x with tlb := x.tlb.filter (fun e => !e.within asid va len) }

theorem Core.purged_purged (x : Core) (asid va len : Nat) : (x.purged asid va len).purged asid va len = x.purged asid va len := by
  simp [Core.purged]

theorem Core.not_within_of_mem_purged {x : Core} {asid va len : Nat} {e : TlbE} (h : e ∈ (x.purged asid va len).tlb) :
    ¬e.within asid va len = true := by
  obtain ⟨-, he⟩ := List.mem_filter.mp h
  simpa using he

theorem State.core_purge (s : State) (asid va len c : Nat) : (s.purge asid va len).core c = (s.core c).purged asid va len :=
  State.core_modAll (f := fun _ x => x.purged asid va len) (fun _ x => x.purged_purged asid va len) (fun _ => rfl) s c

/-! ### An entry that begins to drain (R206) -/

theorem State.holds_eq (s : State) (k : HoldK) : s.holds k = s.upd (fun x => x.heldBy s.now s.ctx k) := rfl

section Revoke
variable (s : State) (n : Nat) (move : Bool) (fwd : Nat)

@[simp] theorem State.revoke_cur : (s.revoke n move fwd).cur = s.cur := State.modAll_cur _
@[simp] theorem State.revoke_ctx : (s.revoke n move fwd).ctx = s.ctx := State.modAll_ctx _
@[simp] theorem State.revoke_now : (s.revoke n move fwd).now = s.now := State.modAll_now _
@[simp] theorem State.revoke_mem : (s.revoke n move fwd).mem = s.mem := State.modAll_mem _ _

theorem State.core_revoke (c : Nat) :
    (s.revoke n move fwd).core c = (s.core c).purged (s.ent n).asid (s.ent n).vbase (s.ent n).len := State.core_purge _ _ _ _ c

theorem State.pontil_revoke : (s.revoke n move fwd).pontil = Sparse.set {} s.pontil n
    { s.ent n with st := .draining, move := move, fwd := if move then fwd else 0, fgen := if move then (s.ent fwd).gen else 0 } :=
  State.modAll_pontil _

/-- The state in which the running context waits for the end of a revocation that it starts. -/
abbrev State.revoking : State := (s.revoke n move fwd).holds (.rev n)

theorem State.core_revoking_cur : (s.revoking n move fwd).core s.cur =
    (s.me.purged (s.ent n).asid (s.ent n).vbase (s.ent n).len).heldBy s.now s.ctx (.rev n) := by
  have h := State.core_upd (s.revoke n move fwd) (fun x => x.heldBy s.now s.ctx (.rev n))
  rw [State.me, State.core_revoke, State.revoke_cur] at h
  rw [State.revoking, State.holds_eq, State.revoke_ctx, State.revoke_now]
  exact h

theorem State.core_revoking_other {c : Nat} (h : c ≠ s.cur) :
    (s.revoking n move fwd).core c = (s.core c).purged (s.ent n).asid (s.ent n).vbase (s.ent n).len :=
  (State.core_upd_other _ _ (by rwa [State.revoke_cur])).trans (State.core_revoke s n move fwd c)

/-- Beginning a revocation changes no register, and leaves no page of the extent in any translation cache. -/
theorem State.core_revoking (c : Nat) : ((s.revoking n move fwd).core c).r = (s.core c).r ∧
    ((s.revoking n move fwd).core c).tlb = ((s.core c).purged (s.ent n).asid (s.ent n).vbase (s.ent n).len).tlb := by
  by_cases h : c = s.cur
  · subst h
    rw [State.core_revoking_cur]
    exact ⟨rfl, rfl⟩
  · rw [State.core_revoking_other s n move fwd h]
    exact ⟨rfl, rfl⟩

end Revoke

/-- What `tkrev` leaves that starts the revocation of entry `n` (R206, R214): the entry drains in its mode towards entry `fwd`, its
extent is in no translation cache, and its context holds. -/
def Drains (s : State) (n : Nat) (move : Bool) (fwd : Nat) (t : State) : Prop :=
  t.ent n = { s.ent n with st := .draining, move := move, fwd := fwd, fgen := if move then (s.ent fwd).gen else 0 } ∧
    EntryOnly s t n ∧ RegistersKept s t ∧ (∀ pa, t.byte pa = s.byte pa) ∧
    (t.core s.cur).q.pcOf s.ctx = s.me.q.pcOf s.ctx ∧
    (t.core s.cur).q.holdOf s.ctx = { k := .rev n, since := s.me.q.nid } ∧
    ∀ c ∈ s.coreList, ∀ e ∈ (t.core c).tlb,
      ¬(e.asid = (s.ent n).asid ∧ e.vpn * 4096 < (s.ent n).vbase + (s.ent n).len ∧ (s.ent n).vbase < (e.vpn + e.n) * 4096)

theorem State.read_core_r (s : State) (l : List Src) (c : Nat) : ((s.read l).core c).r = (s.core c).r := by
  by_cases h : c = s.cur
  · subst h
    rw [State.core_upd]; rfl
  · rw [State.core_upd_other s _ h]

/-- A word that has read its sources and starts a revocation starts it from the state in which it issued. -/
theorem State.revoking_drains (s : State) (l : List Src) (n : Nat) {move : Bool} {fwd : Nat} (h : move = false → fwd = 0) :
    Drains s n move fwd ((s.read l).revoking n move fwd) := by
  have hcur : ((s.read l).revoking n move fwd).core s.cur =
      ((s.me.touch s.ctx l).purged (s.ent n).asid (s.ent n).vbase (s.ent n).len).heldBy s.now s.ctx (.rev n) := by
    have hc := State.core_revoking_cur (s.read l) n move fwd
    rwa [State.read_me] at hc
  have hpontil := State.pontil_revoke (s.read l) n move fwd
  have hfwd : (if move then fwd else 0) = fwd := by
    cases move
    · exact (h rfl).symm
    · rfl
  refine ⟨?_, fun d hd => ?_, fun c => ?_, fun pa => ?_, ?_, ?_, fun c _ e he => ?_⟩
  · calc ((s.read l).revoking n move fwd).ent n = Sparse.get {} ((s.read l).revoke n move fwd).pontil n := rfl
      _ = _ := by rw [hpontil, Sparse.get_set_same, hfwd]; rfl
  · calc ((s.read l).revoking n move fwd).ent d = Sparse.get {} ((s.read l).revoke n move fwd).pontil d := rfl
      _ = _ := by rw [hpontil, Sparse.get_set_other _ _ _ hd]; rfl
  · obtain ⟨hr, -⟩ := State.core_revoking (s.read l) n move fwd c
    exact hr.trans (State.read_core_r s l c)
  · exact congrArg (Sparse.get 0#8 · pa) (State.revoke_mem (s.read l) n move fwd)
  · obtain ⟨hpc, -⟩ := Core.heldBy_goes ((s.me.touch s.ctx l).purged (s.ent n).asid (s.ent n).vbase (s.ent n).len) s.now s.ctx (.rev n)
    rw [hcur]; exact hpc
  · rw [hcur]; exact Core.heldBy_hold _ _ _ _
  · obtain ⟨-, ht⟩ := State.core_revoking (s.read l) n move fwd c
    rw [ht] at he
    exact mt (TlbE.within_iff e _ _ _).mpr (Core.not_within_of_mem_purged he)

/-! ### The check of a token through which nothing is accessed (R209) -/

section Check
variable {s : State} {t u : Token}

/-- The check of no byte for no right fails and waits only as the token's generation and its entry's state have it. -/
theorem State.check_nothing_of_fine (h : s.judge t = .fine u) : s.check t 0 0 0#4 = .pass u [] := by
  have hb : s.bytesOf u.entry (u.base * 64) 0 = some [] := rfl
  simp [State.check, h, hb]

theorem State.check_nothing_of_wait (h : s.judge t = .wait) : s.check t 0 0 0#4 = .wait := by simp [State.check, h]

theorem State.check_nothing_of_stale (h : s.judge t = .stale) : s.check t 0 0 0#4 = .fail .stale t.entry := by
  simp [State.check, h]

theorem State.judge_wait_of_check (h : s.check t 0 0 0#4 = .wait) : s.judge t = .wait := by
  cases hj : s.judge t with
  | wait => rfl
  | stale => simp [State.check_nothing_of_stale hj] at h
  | fine u => simp [State.check_nothing_of_fine hj] at h

theorem State.judge_fine_of_check (h : s.check t 0 0 0#4 = .pass u []) : s.judge t = .fine u := by
  cases hj : s.judge t with
  | wait => simp [State.check_nothing_of_wait hj] at h
  | stale => simp [State.check_nothing_of_stale hj] at h
  | fine v =>
    rw [State.check_nothing_of_fine hj] at h
    injection h with h
    rw [h]

theorem State.judge_stale_of_check {e : Nat} (h : s.check t 0 0 0#4 = .fail .stale e) : s.judge t = .stale := by
  cases hj : s.judge t with
  | wait => simp [State.check_nothing_of_wait hj] at h
  | stale => rfl
  | fine u => simp [State.check_nothing_of_fine hj] at h

theorem State.judge_null (h : t.entry = 0) : s.judge t = .fine t := if_pos h

/-- A token that passes the judgement of R209 passes as it is, or rewritten to the forward entry (R212). -/
theorem State.judge_fine_cases (h : s.judge t = .fine u) : u = t ∨ u = s.forwarded t (s.ent t.entry).fwd := by
  by_cases h0 : t.entry = 0
  · rw [State.judge_null h0] at h
    injection h with h
    exact .inl h.symm
  rw [State.judge, if_neg h0] at h
  cases hst : (s.ent t.entry).st with
  | free | dead | retired | draining => simp [hst] at h
  | live =>
    simp only [hst] at h
    split at h
    · injection h with h
      exact .inl h.symm
    · cases h
  | forwarded =>
    -- the rewritten token is judged again by the forward entry, and passes there unchanged
    simp only [hst] at h
    split at h
    · grind
    · cases h
  | sweeping =>
    simp only [hst] at h
    split at h
    · injection h with h
      exact .inl h.symm
    · grind

/-- A forward entry takes a token with its window and its rights (R209, R212). -/
theorem State.judge_fine_window (h : s.judge t = .fine u) : u.len = t.len ∧ u.rights = t.rights := by
  rcases State.judge_fine_cases h with rfl | rfl <;> exact ⟨rfl, rfl⟩

/-- The token that a MOVE forwards to: the judged token, or the token itself while its entry drains. -/
def State.Forward (s : State) (t u : Token) : Prop := s.judge t = .fine u ∨ (s.judge t = .wait ∧ u = t)

theorem State.Forward.window (h : s.Forward t u) : u.len = t.len ∧ u.rights = t.rights := by
  rcases h with h | ⟨-, rfl⟩
  · exact State.judge_fine_window h
  · exact ⟨rfl, rfl⟩

/-- A null token is forwarded nowhere. -/
theorem State.Forward.eq_of_null (h : s.Forward t u) (h0 : t.entry = 0) : u = t := by
  rcases h with h | ⟨-, rfl⟩
  · rw [State.judge_null h0] at h
    injection h with h
    exact h.symm
  · rfl

theorem State.stale_or_forward (s : State) (t : Token) : s.judge t = .stale ∨ ∃ u, s.Forward t u := by
  cases hj : s.judge t with
  | wait => exact .inr ⟨t, .inr ⟨hj, rfl⟩⟩
  | stale => exact .inl rfl
  | fine u => exact .inr ⟨u, .inl hj⟩

end Check

/-! ### The effect of `tkrev` (R214) -/

/-- A `tkrev` that no check stops: a LIVE entry begins to drain, and another is left alone. -/
def State.startRevoke (s : State) (n : Nat) (move : Bool) (fwd : Nat) : Out :=
  if (s.ent n).st = .live then .next (s.revoking n move fwd) else .next (s.done 1)

/-- The running context may revoke, and `n` is the number of an entry. -/
def State.MayRevoke (s : State) (n : Nat) : Prop := s.me.q.priv = true ∧ n ≠ 0 ∧ n < 2 ^ 20

theorem State.MayRevoke.read {s : State} {n : Nat} (h : s.MayRevoke n) (l : List Src) : (s.read l).MayRevoke n := by
  simpa [State.MayRevoke] using h

/-- The token covers the extent of entry `n` and has its rights. -/
def State.Covers (s : State) (t : Token) (n : Nat) : Prop :=
  (s.ent n).len ≤ t.len * 64 ∧ t.rights &&& (s.ent n).rights = (s.ent n).rights

theorem State.Forward.covers_iff {s : State} {t u : Token} (h : s.Forward t u) (n : Nat) : s.Covers u n ↔ s.Covers t n := by
  obtain ⟨hl, hr⟩ := h.window
  rw [State.Covers, hl, hr]; rfl

section Word
variable {i : Instr} {s : State} {n : Nat}

theorem revWord_unprivileged (fwd : Option Token) (hp : s.me.q.priv = false) : revWord i s n fwd = trap s 10 (minOf i) := if_pos hp

theorem revWord_badEntry (fwd : Option Token) (hp : s.me.q.priv = true) (hn : n = 0 ∨ 2 ^ 20 ≤ n) :
    revWord i s n fwd = trap s 1 (minOf i) :=
  (if_neg (by simp [hp])).trans (if_pos hn)

section Allowed
variable (hg : s.MayRevoke n)
include hg

theorem State.MayRevoke.privileged : ¬s.me.q.priv = false := by simp [hg.1]

theorem State.MayRevoke.listed : ¬(n = 0 ∨ 2 ^ 20 ≤ n) := by
  obtain ⟨-, h0, h1⟩ := hg
  exact not_or.mpr ⟨h0, Nat.not_le.mpr h1⟩

theorem revWord_kill : revWord i s n none = s.startRevoke n false 0 :=
  (if_neg hg.privileged).trans (if_neg hg.listed)

variable {t : Token}

theorem revWord_move_self (ht : t.entry = n) : revWord i s n (some t) = trap s 1 (minOf i) := by
  simp [-Nat.reducePow, revWord, hg.privileged, hg.listed, ht, illegal]

theorem revWord_move_stale (ht : t.entry ≠ n) (hj : s.judge t = .stale) : revWord i s n (some t) = trap s 9 t.entry := by
  simp [-Nat.reducePow, revWord, hg.privileged, hg.listed, ht, hj]

variable {u : Token} (ht : t.entry ≠ n) (hu : u.entry ≠ n) (hf : s.Forward t u)
include ht hu hf

/-- The forward token of a MOVE stops it where it is null, short, or short of a right. -/
theorem revWord_move_trap (h : t.entry = 0 ∨ ¬s.Covers t n) : revWord i s n (some t) = trap s 9 t.entry := by
  rw [← hf.covers_iff, State.Covers, not_and_or, Nat.not_le] at h
  rcases hf with hj | ⟨hj, rfl⟩ <;>
    simp [-Nat.reducePow, revWord, hg.privileged, hg.listed, ht, hu, hj, h]

theorem revWord_move_start (h0 : t.entry ≠ 0) (h : s.Covers t n) : revWord i s n (some t) = s.startRevoke n true u.entry := by
  rw [← hf.covers_iff] at h
  obtain ⟨hl, hr⟩ := h
  rcases hf with hj | ⟨hj, rfl⟩ <;>
    simp [-Nat.reducePow, revWord, State.startRevoke, hg.privileged, hg.listed, ht, hu, hj, h0, hl.not_gt, hr]

end Allowed
end Word

/-! ### `tkrev` issues, and waits -/

section Exec
variable {s : State} {o : AluR}

theorem exec_tkrevKill_ready (hm : MayIssue (.tkrevKill o) [.s o.a o.fea] s) :
    exec (.tkrevKill o) s = revWord (.tkrevKill o) (s.read [.s o.a o.fea]) (s.sc o.a).toNat none := by
  calc exec (.tkrevKill o) s = execTkrevKill o s := rfl
    _ = issue _ s _ _ := by rw [execTkrevKill, State.free_of_runs hm.runs]
    _ = revWord _ _ _ _ := issue_ready hm _
    _ = _ := by rw [State.sc_upd_touch]

theorem exec_tkrevMove_ready (hm : MayIssue (.tkrevMove o) [.s o.a o.fea, .k o.b o.feb] s) :
    exec (.tkrevMove o) s =
      revWord (.tkrevMove o) (s.read [.s o.a o.fea, .k o.b o.feb]) (s.sc o.a).toNat (some (s.tk o.b)) := by
  calc exec (.tkrevMove o) s = execTkrevMove o s := rfl
    _ = issue _ s _ _ := by rw [execTkrevMove, State.free_of_runs hm.runs]
    _ = revWord _ _ _ _ := issue_ready hm _
    _ = _ := by rw [State.sc_upd_touch, State.tk_upd_touch]

/-- A `tkrev` whose context holds looks only at its entry. -/
theorem exec_tkrev_holding {i : Instr} (hi : i ∈ [Instr.tkrevKill o, .tkrevMove o]) {e : Nat} (hk : s.hold.k = .rev e) :
    exec i s = revWait s e := by
  rcases List.mem_pair.mp hi with rfl | rfl
  · calc exec (.tkrevKill o) s = execTkrevKill o s := rfl
      _ = _ := by rw [execTkrevKill, hk]
  · calc exec (.tkrevMove o) s = execTkrevMove o s := rfl
      _ = _ := by rw [execTkrevMove, hk]

theorem revWait_stalls {e : Nat} (h : (s.ent e).st = .draining ∨ (s.ent e).st = .sweeping) :
    revWait s e = .next { s with waited := true } := if_pos h

theorem revWait_ends {e : Nat} (h : (s.ent e).st = .dead ∨ (s.ent e).st = .forwarded) : revWait s e = .next (s.done 1) :=
  if_neg (by rcases h with h | h <;> simp [h])

/-- A context whose wait is over goes on after its word. -/
theorem State.done_of_holding (s : State) : Quiet s (s.done 1) ∧ Passes s (s.done 1) 1 :=
  Quiet.done ⟨OnlyCore.refl _ _, CoreKept.refl _, rfl⟩ ⟨rfl, rfl⟩ Nat.one_pos

section Started
variable {i : Instr} {l : List Src} {n fwd : Nat} {move : Bool}
  (he : MayIssue i l s → exec i s = (s.read l).startRevoke n move fwd)
include he

theorem startRevoke_drains (hfwd : move = false → fwd = 0) (hl : (s.ent n).st = .live) :
    WordResult i l s (Drains s n move fwd) :=
  fun _ hm => ⟨_, (he hm).trans (if_pos hl), State.revoking_drains s l n hfwd⟩

theorem startRevoke_nothing (hl : (s.ent n).st ≠ .live) : WordResult i l s (fun t => Quiet s t ∧ Passes s t 1) :=
  fun _ hm => ⟨_, (he hm).trans (if_neg hl), State.done_quiet s l Nat.one_pos⟩

end Started

/-! ### The forms of `tkrev` -/

theorem tkrevKill_starts (hg : s.MayRevoke (s.sc o.a).toNat) (hm : MayIssue (.tkrevKill o) [.s o.a o.fea] s) :
    exec (.tkrevKill o) s = (s.read [.s o.a o.fea]).startRevoke (s.sc o.a).toNat false 0 :=
  (exec_tkrevKill_ready hm).trans (revWord_kill (hg.read _))

theorem tkrevMove_starts {u : Token} (hg : s.MayRevoke (s.sc o.a).toNat) (ht : (s.tk o.b).entry ≠ (s.sc o.a).toNat)
    (h0 : (s.tk o.b).entry ≠ 0) (hw : s.Covers (s.tk o.b) (s.sc o.a).toNat) (hu : u.entry ≠ (s.sc o.a).toNat)
    (hf : s.Forward (s.tk o.b) u) (hm : MayIssue (.tkrevMove o) [.s o.a o.fea, .k o.b o.feb] s) :
    exec (.tkrevMove o) s = (s.read [.s o.a o.fea, .k o.b o.feb]).startRevoke (s.sc o.a).toNat true u.entry :=
  (exec_tkrevMove_ready hm).trans (revWord_move_start (hg.read _) ht hu hf h0 hw)

/-- A MOVE traps TOKEN whose forward token is null or stale, or does not cover its entry. -/
theorem tkrevMove_traps (hg : s.MayRevoke (s.sc o.a).toNat) (ht : (s.tk o.b).entry ≠ (s.sc o.a).toNat)
    (h : s.judge (s.tk o.b) = .stale ∨
      ((s.tk o.b).entry = 0 ∨ ¬s.Covers (s.tk o.b) (s.sc o.a).toNat) ∧
        ∀ u, s.Forward (s.tk o.b) u → u.entry ≠ (s.sc o.a).toNat) :
    TrapsBy (.tkrevMove o) [.s o.a o.fea, .k o.b o.feb] s 9 (s.tk o.b).entry s.me.q.pc := by
  refine trap_trapped fun hm => (exec_tkrevMove_ready hm).trans ?_
  rcases State.stale_or_forward s (s.tk o.b) with hj | ⟨u, hf⟩
  · exact revWord_move_stale (hg.read _) ht hj
  · rcases h with hj | ⟨hw, hu⟩
    · exact revWord_move_stale (hg.read _) ht hj
    · exact revWord_move_trap (hg.read _) ht (hu u hf) hf hw

end Exec

end Sys2Proof.Machine

namespace Sys2Proof

open Machine

/-- Settles O26: past its checks `tkrev` starts the revocation of a LIVE entry, which changes that entry, the translation caches and
where its context stands alone (R206, R214); the generation kept of the forward entry is that of notes/assumptions/37.md. A check
that fails traps, and a `tkrev` that holds waits for its entry. -/
theorem revocationStarts : Obligations.RevocationStarts := by
  intro s o
  refine ⟨fun hg hl => ?_, fun hg hl => ?_, fun hg ht h0 hw => ⟨fun hl hc => ?_, fun u hc hu => ⟨fun hl => ?_, fun hl => ?_⟩⟩,
    fun hg ht h => ?_, fun hg ht hu hw => ?_, fun hg ht => ?_, fun hp hn => ⟨?_, ?_⟩, fun hp => ⟨?_, ?_⟩,
    fun i hi e hk => ⟨fun h => ?_, fun h => ?_⟩, by decide⟩
  · exact startRevoke_drains (tkrevKill_starts hg) (fun _ => rfl) hl
  · exact startRevoke_nothing (tkrevKill_starts hg) hl
  · exact startRevoke_drains (tkrevMove_starts hg ht h0 hw ht (.inr ⟨State.judge_wait_of_check hc, rfl⟩)) nofun hl
  · exact startRevoke_drains (tkrevMove_starts hg ht h0 hw hu (.inl (State.judge_fine_of_check hc))) nofun hl
  · exact startRevoke_nothing (tkrevMove_starts hg ht h0 hw hu (.inl (State.judge_fine_of_check hc))) hl
  · refine tkrevMove_traps hg ht (h.symm.imp State.judge_stale_of_check fun h0 => ⟨.inl h0, fun u hf => ?_⟩)
    rwa [hf.eq_of_null h0]
  · refine tkrevMove_traps hg ht (.inr ⟨.inr hw, ?_⟩)
    rintro u (hj | ⟨-, rfl⟩)
    · exact hu u (State.check_nothing_of_fine hj)
    · exact ht
  · exact trap_trapped fun hm => (exec_tkrevMove_ready hm).trans (revWord_move_self (State.MayRevoke.read hg _) ht)
  · exact trap_trapped fun hm => (exec_tkrevKill_ready hm).trans (revWord_badEntry _ (by simpa using hp) hn)
  · exact trap_trapped fun hm => (exec_tkrevMove_ready hm).trans (revWord_badEntry _ (by simpa using hp) hn)
  · exact trap_trapped fun hm => (exec_tkrevKill_ready hm).trans (revWord_unprivileged _ (by simpa using hp))
  · exact trap_trapped fun hm => (exec_tkrevMove_ready hm).trans (revWord_unprivileged _ (by simpa using hp))
  · exact (exec_tkrev_holding hi hk).trans (revWait_stalls h)
  · exact ⟨_, (exec_tkrev_holding hi hk).trans (revWait_ends h), State.done_of_holding s⟩

end Sys2Proof
end

section
set_option Elab.async false
/-! SUPPORT. Every word of code memory read back: the words of each layout of R50 and R62, and the instructions that have them. -/

namespace Sys2Proof

/-- What reading an instruction back from its own words comes to (R46, R51, R62, R67). -/
def ReadsBack (i : Instr) : Prop :=
  i.wf = true →
    (∀ w0, encodeC i = [w0] → w0 < 2 ^ 64 ∧ ∀ w1, decodeC (BitVec.ofNat 64 w0) w1 = .ok (i, 1)) ∧
    (∀ w0 w1, encodeC i = [w0, w1] → w0 < 2 ^ 64 ∧ w1 < 2 ^ 64 ∧ decodeC (BitVec.ofNat 64 w0) (BitVec.ofNat 64 w1) = .ok (i, 2)) ∧
    (∀ op f, vParts i = some (op, f) → vWord op f < 2 ^ 128 ∧ decodeV (encodeV i) = .ok i)

namespace ReadsBack

variable {i : Instr}

/-! ### By the words an instruction has -/

/-- An event, a packet or a message has no words in code memory. -/
theorem of_none (he : encodeC i = []) (hv : vParts i = none) : ReadsBack i := fun _ =>
  ⟨fun w0 h => by simp [he] at h, fun w0 w1 h => by simp [he] at h, fun op f h => by simp [hv] at h⟩

/-- An instruction of one C-word. -/
theorem of_one {w : Nat} (he : encodeC i = [w]) (hv : vParts i = none)
    (h : i.check = none → w < 2 ^ 64 ∧ ∀ p, parseC w p = .ok (i, 1)) : ReadsBack i := fun hw => by
  obtain ⟨hlt, hp⟩ := h (by simpa [Instr.wf] using hw)
  refine ⟨fun w0 e => ?_, fun w0 w1 e => by simp [he] at e, fun op f e => by simp [hv] at e⟩
  obtain rfl : w = w0 := by simpa [he] using e
  exact ⟨hlt, fun w1 => decodeC_of hlt w1 hw (hp _)⟩

/-- An instruction of two C-words. -/
theorem of_two {w p : Nat} (he : encodeC i = [w, p]) (hv : vParts i = none)
    (h : i.check = none → w < 2 ^ 64 ∧ p < 2 ^ 64 ∧ parseC w p = .ok (i, 2)) : ReadsBack i := fun hw => by
  obtain ⟨hlt, hlt', hp⟩ := h (by simpa [Instr.wf] using hw)
  refine ⟨fun w0 e => by simp [he] at e, fun w0 w1 e => ?_, fun op f e => by simp [hv] at e⟩
  obtain ⟨rfl, rfl⟩ : w = w0 ∧ p = w1 := by simpa [he] using e
  exact ⟨hlt, hlt', decodeC_of hlt _ hw (by rwa [BitVec.toNat_ofNat, Nat.mod_eq_of_lt hlt'])⟩

/-- A V-word. -/
theorem of_v {op : Nat} {f : VFields} (he : encodeC i = []) (hv : vParts i = some (op, f)) (ho : op < 1024)
    (hm : vMake f op = some i) (hb : i.check = none → f.bounds = true) : ReadsBack i := fun hw => by
  refine ⟨fun w0 e => by simp [he] at e, fun w0 w1 e => by simp [he] at e, fun op' f' e => ?_⟩
  obtain ⟨rfl, rfl⟩ : op = op' ∧ f = f' := by simpa [hv] using e
  obtain ⟨hf, hop, hlt⟩ := vfOf_vWord op f ho (hb (by simpa [Instr.wf] using hw))
  refine ⟨hlt, ?_⟩
  unfold encodeV
  rw [hv]
  exact decodeV_of i _ hlt (by rw [hf, hop, hm]) hw

theorem maj_of_crOf {w : Nat} {f : CR} (h : crOf w = f) : fld w 58 6 = f.maj := congrArg CR.maj h

/-- One CR word. -/
theorem of_cr {f : CR} (he : encodeC i = [crWord f]) (hv : vParts i = none) (hf : i.check = none → f.fits)
    (hp : ∀ w p, crOf w = f → fld w 58 6 = f.maj → parseC w p = .ok (i, 1)) : ReadsBack i :=
  of_one he hv fun hc =>
    have h := crOf_crWord f (hf hc)
    ⟨h.2, fun p => hp _ p h.1 (maj_of_crOf h.1)⟩

/-- A CR word and P64. -/
theorem of_cw {f : CR} {p : Nat} (he : encodeC i = [crWord f, p]) (hv : vParts i = none)
    (hf : i.check = none → f.fits ∧ p < 2 ^ 64)
    (hp : i.check = none → ∀ w, crOf w = f → fld w 58 6 = f.maj → parseC w p = .ok (i, 2)) : ReadsBack i :=
  of_two he hv fun hc =>
    have h := crOf_crWord f (hf hc).1
    ⟨h.2, (hf hc).2, hp hc _ h.1 (maj_of_crOf h.1)⟩

/-- A CI word. -/
theorem of_ci {f : CI} (he : encodeC i = [ciWord f]) (hv : vParts i = none) (hf : i.check = none → f.fits)
    (hp : i.check = none → ∀ w p, ciOf w = f → (crOf w).mn = f.mn → fld w 58 6 = f.maj → parseC w p = .ok (i, 1)) : ReadsBack i :=
  of_one he hv fun hc =>
    have h := ciOf_ciWord f (hf hc)
    ⟨h.2.1, fun p => hp hc _ p h.1 h.2.2.1 h.2.2.2⟩

/-- A CK word. -/
theorem of_ck {f : CK} (he : encodeC i = [ckWord f]) (hv : vParts i = none) (hf : i.check = none → f.fits)
    (hp : i.check = none → ∀ w p, ckOf w = f → (crOf w).mn = f.mn → fld w 58 6 = f.maj → parseC w p = .ok (i, 1)) : ReadsBack i :=
  of_one he hv fun hc =>
    have h := ckOf_ckWord f (hf hc)
    ⟨h.2.1, fun p => hp hc _ p h.1 h.2.2.1 h.2.2.2⟩

/-! ### Fields within their widths -/

theorem of_isS {n : Nat} (h : isS n = true) : n < 64 := by simpa [isS] using h
theorem of_isK {n : Nat} (h : isK n = true) : n < 32 := by simpa [isK] using h

/-- Registers that meet their roles fit a CR word's fields. -/
theorem roles_fit {o : AluR} {d a b c : Char} (h : firstFail (o.roles d a b c) = none) {maj mn : Nat} (hmaj : maj < 64) (hmn : mn < 256) :
    (o.cr maj mn).fits := by
  have ok : ∀ (r : Char) (n : Nat), (if r = 'k' ∨ r = 't' then isK n else if r = 'e' then isS n && n % 8 == 0
      else if r = 'z' then isZ n else isS n) = true → n < 64 := by
    intro r n hn
    split at hn
    · exact Nat.lt_trans (of_isK hn) (by decide)
    · split at hn
      · exact of_isS (Bool.and_elim_left hn)
      · split at hn
        · rw [isZ, beq_iff_eq] at hn; omega
        · exact of_isS hn
  simp only [AluR.roles, firstFail_cons, Bool.and_eq_true] at h
  obtain ⟨⟨⟨⟨hd, ha⟩, hb⟩, hc⟩, -⟩ := h
  exact ⟨hmaj, hmn, ok _ _ hd, ok _ _ ha, ok _ _ hb, ok _ _ hc, Nat.two_pow_pos 23⟩

end ReadsBack
end Sys2Proof
end

section
set_option Elab.async false
namespace Sys2Proof

/-! ### Checks read off -/

theorem firstFail_append (l m : List (Bool × Reject)) : firstFail (l ++ m) = none ↔ firstFail l = none ∧ firstFail m = none := by
  induction l with
  | nil => simp [firstFail]
  | cons p l ih =>
    obtain ⟨b, r⟩ := p
    rw [List.cons_append, firstFail_cons, firstFail_cons, ih, and_assoc]

theorem Ordr.code_lt (o : Ordr) : o.code < 4 := by
  have h1 := bit_toNat o.acq
  have h2 := bit_toNat o.rel
  unfold Ordr.code; omega

theorem ordOf_code (o : Ordr) : ordOf o.code o.scope = o := by
  obtain ⟨a, r, s⟩ := o
  cases a <;> cases r <;> simp [ordOf, Ordr.code]

theorem Ordr.scope_of_checks {o : Ordr} (h : firstFail o.checks = none) : o.scope < 6 := by
  simp only [Ordr.checks, firstFail_cons, Bool.and_eq_true, decide_eq_true_eq] at h
  exact Nat.lt_succ_of_le h.1.1

/-- The MIN of an ordered access, read back (R49, R58). -/
theorem Ordr.min_fields {o : Ordr} (h : o.scope < 6) {low : Nat} (hl : low < 8) :
    o.min low < 256 ∧ o.min low % 8 = low ∧ fld (o.min low) 3 2 = o.code ∧ fld (o.min low) 5 3 = o.scope := by
  have hc := o.code_lt
  unfold Ordr.min fld
  omega

/-- The ordering field of an engine word, read back (R61). -/
theorem eordOf_eord {o : Ordr} (h : o.scope < 6) {p : Nat} (hp : p < 2 ^ 59) : eordOf (o.eord + p) = o := by
  have hc := o.code_lt
  have h1 : fld (o.eord + p) 62 2 = o.code := by unfold Ordr.eord fld; omega
  have h2 : fld (o.eord + p) 59 3 = o.scope := by unfold Ordr.eord fld; omega
  rw [eordOf, h1, h2, ordOf_code]

theorem Ordr.eord_lt {o : Ordr} (h : o.scope < 6) : o.eord + 2 ^ 59 ≤ 2 ^ 64 := by
  have hc := o.code_lt
  unfold Ordr.eord; omega

theorem MemRef.fit {m : MemRef} (h : firstFail m.checks = none) {maj mn d : Nat} (hmaj : maj < 64) (hmn : mn < 256) (hd : d < 64) :
    (m.ck maj mn d).fits := by
  simp only [MemRef.checks, firstFail_cons, Bool.and_eq_true, isS, isK, decide_eq_true_eq] at h
  obtain ⟨⟨hk, hx⟩, -⟩ := h
  exact ⟨hmaj, hmn, hd, hk, hx, m.off.isLt⟩

@[simp] theorem MemRef.ck_mem (m : MemRef) (maj mn d : Nat) : (m.ck maj mn d).mem = m := by
  simp [CK.mem, MemRef.ck]

/-! ### Literal fields within their widths -/

theorem CR.fits_mk {maj mn d a b c : Nat} {fea feb fec : Bool} (hmaj : maj < 64 := by simp [crBare]) (hmn : mn < 256 := by simp [crBare])
    (hd : d < 64 := by simp [crBare]) (ha : a < 64 := by simp [crBare]) (hb : b < 64 := by simp [crBare]) (hc : c < 64 := by simp [crBare]) :
    (CR.mk maj mn d a b c fea feb fec 0).fits := ⟨hmaj, hmn, hd, ha, hb, hc, Nat.two_pow_pos 23⟩

theorem CI.fits_mk {maj mn d a imm : Nat} {fea : Bool} (himm : imm < 2 ^ 37) (hmaj : maj < 64 := by decide) (hmn : mn < 256 := by decide)
    (hd : d < 64 := by decide) (ha : a < 64 := by decide) : (CI.mk maj mn d a fea imm).fits := ⟨hmaj, hmn, hd, ha, himm⟩

theorem CL.fits_mk {maj mn lvl t body trip : Nat} {ti : Bool} (hlvl : lvl < 8) (ht : t < 64 := by decide) (hbody : body < 2 ^ 16 := by decide)
    (htrip : trip < 2 ^ 24 := by decide) (hmaj : maj < 64 := by decide) (hmn : mn < 256 := by decide) :
    (CL.mk maj mn lvl t ti body trip).fits := ⟨hmaj, hmn, hlvl, ht, hbody, htrip⟩

theorem condOf_code (c : Cond) : condOf c.code = some c ∧ c.code < 32 := by cases c <;> decide

namespace ReadsBack
variable {i : Instr}

/-! ### The families of one layout -/

/-- The register form of MAJ 0x01 (R54). -/
theorem of_aluR {o : AluR} {mn : Nat} {d a b c : Char} (he : encodeC i = [crWord (o.cr 1 mn)])
    (hc : i.check = firstFail (o.roles d a b c)) (hv : vParts i = none) (hmn : mn < 256)
    (hd : ∀ w, crOf w = o.cr 1 mn → decAluR w = .ok (i, 1)) : ReadsBack i :=
  of_cr he hv (fun h => roles_fit (hc.symm.trans h) (by decide) hmn) fun w p h m => by
    have m' : fld w 58 6 = 1 := m
    simp only [parseC, m']; exact hd w h

/-- The immediate form of MAJ 0x02 (R54). -/
theorem of_aluI {o : AluI} {mn : Nat} {l : List (Bool × Reject)}
    (he : encodeC i = [ciWord { maj := 2, mn := mn, d := o.d, a := o.a, fea := o.fea, imm := o.imm.toNat }])
    (hc : i.check = firstFail ((isS o.d && isS o.a, .register) :: l)) (hv : vParts i = none) (hmn : mn < 256)
    (hd : ∀ w, (ciOf w).alu = o → (ciOf w).mn = mn → decAluI w = .ok (i, 1)) : ReadsBack i :=
  of_ci he hv (fun h => by
    rw [hc, firstFail_cons, Bool.and_eq_true] at h
    obtain ⟨⟨hd, ha⟩, -⟩ := h
    exact ⟨Nat.lt_of_sub_eq_succ rfl, hmn, of_isS hd, of_isS ha, o.imm.isLt⟩) fun _ w p h _ m => by
    have m' : fld w 58 6 = 2 := m
    simp only [parseC, m']
    exact hd w (by rw [h]; simp [CI.alu]) (by rw [h])

/-- A word of MAJ 0x0F or 0x14, whose operands are registers by their roles (R59, R60). -/
theorem of_roles {o : AluR} {maj mn : Nat} {d a b c : Char} (he : encodeC i = [crWord (o.cr maj mn)])
    (hc : i.check = none → firstFail (o.roles d a b c) = none) (hv : vParts i = none) (hmaj : maj < 64) (hmn : mn < 256)
    (hd : ∀ w p, crOf w = o.cr maj mn → fld w 58 6 = maj → parseC w p = .ok (i, 1)) : ReadsBack i :=
  of_cr he hv (fun h => roles_fit (hc h) hmaj hmn) hd

end ReadsBack
end Sys2Proof
end

section
set_option Elab.async false
/-! SUPPORT. Every instruction read back from its own words, one line for each. -/
namespace Sys2Proof
namespace ReadsBack

/-! ### MAJ 0x01 and 0x02: scalar arithmetic -/

theorem add (o : AluR) : ReadsBack (.add o) := of_aluR rfl rfl rfl (by decide) fun w h => by simp only [decAluR, h]; rfl
theorem sub (o : AluR) : ReadsBack (.sub o) := of_aluR rfl rfl rfl (by decide) fun w h => by simp only [decAluR, h]; rfl
theorem mul (o : AluR) : ReadsBack (.mul o) := of_aluR rfl rfl rfl (by decide) fun w h => by simp only [decAluR, h]; rfl
theorem mulhS (o : AluR) : ReadsBack (.mulhS o) := of_aluR rfl rfl rfl (by decide) fun w h => by simp only [decAluR, h]; rfl
theorem mulhN (o : AluR) : ReadsBack (.mulhN o) := of_aluR rfl rfl rfl (by decide) fun w h => by simp only [decAluR, h]; rfl
theorem divS (o : AluR) : ReadsBack (.divS o) := of_aluR rfl rfl rfl (by decide) fun w h => by simp only [decAluR, h]; rfl
theorem divN (o : AluR) : ReadsBack (.divN o) := of_aluR rfl rfl rfl (by decide) fun w h => by simp only [decAluR, h]; rfl
theorem remS (o : AluR) : ReadsBack (.remS o) := of_aluR rfl rfl rfl (by decide) fun w h => by simp only [decAluR, h]; rfl
theorem remN (o : AluR) : ReadsBack (.remN o) := of_aluR rfl rfl rfl (by decide) fun w h => by simp only [decAluR, h]; rfl
theorem and (o : AluR) : ReadsBack (.and o) := of_aluR rfl rfl rfl (by decide) fun w h => by simp only [decAluR, h]; rfl
theorem or (o : AluR) : ReadsBack (.or o) := of_aluR rfl rfl rfl (by decide) fun w h => by simp only [decAluR, h]; rfl
theorem xor (o : AluR) : ReadsBack (.xor o) := of_aluR rfl rfl rfl (by decide) fun w h => by simp only [decAluR, h]; rfl
theorem andn (o : AluR) : ReadsBack (.andn o) := of_aluR rfl rfl rfl (by decide) fun w h => by simp only [decAluR, h]; rfl
theorem shl (o : AluR) : ReadsBack (.shl o) := of_aluR rfl rfl rfl (by decide) fun w h => by simp only [decAluR, h]; rfl
theorem shrS (o : AluR) : ReadsBack (.shrS o) := of_aluR rfl rfl rfl (by decide) fun w h => by simp only [decAluR, h]; rfl
theorem shrN (o : AluR) : ReadsBack (.shrN o) := of_aluR rfl rfl rfl (by decide) fun w h => by simp only [decAluR, h]; rfl
theorem rot (o : AluR) : ReadsBack (.rot o) := of_aluR rfl rfl rfl (by decide) fun w h => by simp only [decAluR, h]; rfl
theorem clz (o : AluR) : ReadsBack (.clz o) := of_aluR rfl rfl rfl (by decide) fun w h => by simp only [decAluR, h]; rfl
theorem popc (o : AluR) : ReadsBack (.popc o) := of_aluR rfl rfl rfl (by decide) fun w h => by simp only [decAluR, h]; rfl
theorem minS (o : AluR) : ReadsBack (.minS o) := of_aluR rfl rfl rfl (by decide) fun w h => by simp only [decAluR, h]; rfl
theorem minN (o : AluR) : ReadsBack (.minN o) := of_aluR rfl rfl rfl (by decide) fun w h => by simp only [decAluR, h]; rfl
theorem maxS (o : AluR) : ReadsBack (.maxS o) := of_aluR rfl rfl rfl (by decide) fun w h => by simp only [decAluR, h]; rfl
theorem maxN (o : AluR) : ReadsBack (.maxN o) := of_aluR rfl rfl rfl (by decide) fun w h => by simp only [decAluR, h]; rfl
theorem sel (o : AluR) : ReadsBack (.sel o) := of_aluR rfl rfl rfl (by decide) fun w h => by simp only [decAluR, h]; rfl
theorem mov (o : AluR) : ReadsBack (.mov o) := of_aluR rfl rfl rfl (by decide) fun w h => by simp only [decAluR, h]; rfl
theorem sext (o : AluR) : ReadsBack (.sext o) := of_aluR rfl rfl rfl (by decide) fun w h => by simp only [decAluR, h]; rfl
theorem zext (o : AluR) : ReadsBack (.zext o) := of_aluR rfl rfl rfl (by decide) fun w h => by simp only [decAluR, h]; rfl
theorem bfx (o : AluR) : ReadsBack (.bfx o) := of_aluR rfl rfl rfl (by decide) fun w h => by simp only [decAluR, h]; rfl
theorem bfi (o : AluR) : ReadsBack (.bfi o) := of_aluR rfl rfl rfl (by decide) fun w h => by simp only [decAluR, h]; rfl
theorem addImmediate (o : AluI) : ReadsBack (.addImmediate o) := of_aluI rfl rfl rfl (by decide) fun w h m => by simp only [decAluI, h, m]; rfl
theorem subImmediate (o : AluI) : ReadsBack (.subImmediate o) := of_aluI rfl rfl rfl (by decide) fun w h m => by simp only [decAluI, h, m]; rfl
theorem mulImmediate (o : AluI) : ReadsBack (.mulImmediate o) := of_aluI rfl rfl rfl (by decide) fun w h m => by simp only [decAluI, h, m]; rfl
theorem mulhSImmediate (o : AluI) : ReadsBack (.mulhSImmediate o) := of_aluI rfl rfl rfl (by decide) fun w h m => by simp only [decAluI, h, m]; rfl
theorem mulhNImmediate (o : AluI) : ReadsBack (.mulhNImmediate o) := of_aluI rfl rfl rfl (by decide) fun w h m => by simp only [decAluI, h, m]; rfl
theorem divSImmediate (o : AluI) : ReadsBack (.divSImmediate o) := of_aluI rfl rfl rfl (by decide) fun w h m => by simp only [decAluI, h, m]; rfl
theorem divNImmediate (o : AluI) : ReadsBack (.divNImmediate o) := of_aluI rfl rfl rfl (by decide) fun w h m => by simp only [decAluI, h, m]; rfl
theorem remSImmediate (o : AluI) : ReadsBack (.remSImmediate o) := of_aluI rfl rfl rfl (by decide) fun w h m => by simp only [decAluI, h, m]; rfl
theorem remNImmediate (o : AluI) : ReadsBack (.remNImmediate o) := of_aluI rfl rfl rfl (by decide) fun w h m => by simp only [decAluI, h, m]; rfl
theorem andImmediate (o : AluI) : ReadsBack (.andImmediate o) := of_aluI rfl rfl rfl (by decide) fun w h m => by simp only [decAluI, h, m]; rfl
theorem orImmediate (o : AluI) : ReadsBack (.orImmediate o) := of_aluI rfl rfl rfl (by decide) fun w h m => by simp only [decAluI, h, m]; rfl
theorem xorImmediate (o : AluI) : ReadsBack (.xorImmediate o) := of_aluI rfl rfl rfl (by decide) fun w h m => by simp only [decAluI, h, m]; rfl
theorem andnImmediate (o : AluI) : ReadsBack (.andnImmediate o) := of_aluI rfl rfl rfl (by decide) fun w h m => by simp only [decAluI, h, m]; rfl
theorem shlImmediate (o : AluI) : ReadsBack (.shlImmediate o) := of_aluI rfl rfl rfl (by decide) fun w h m => by simp only [decAluI, h, m]; rfl
theorem shrSImmediate (o : AluI) : ReadsBack (.shrSImmediate o) := of_aluI rfl rfl rfl (by decide) fun w h m => by simp only [decAluI, h, m]; rfl
theorem shrNImmediate (o : AluI) : ReadsBack (.shrNImmediate o) := of_aluI rfl rfl rfl (by decide) fun w h m => by simp only [decAluI, h, m]; rfl
theorem rotImmediate (o : AluI) : ReadsBack (.rotImmediate o) := of_aluI rfl rfl rfl (by decide) fun w h m => by simp only [decAluI, h, m]; rfl
theorem minSImmediate (o : AluI) : ReadsBack (.minSImmediate o) := of_aluI rfl rfl rfl (by decide) fun w h m => by simp only [decAluI, h, m]; rfl
theorem minNImmediate (o : AluI) : ReadsBack (.minNImmediate o) := of_aluI rfl rfl rfl (by decide) fun w h m => by simp only [decAluI, h, m]; rfl
theorem maxSImmediate (o : AluI) : ReadsBack (.maxSImmediate o) := of_aluI rfl rfl rfl (by decide) fun w h m => by simp only [decAluI, h, m]; rfl
theorem maxNImmediate (o : AluI) : ReadsBack (.maxNImmediate o) := of_aluI rfl rfl rfl (by decide) fun w h m => by simp only [decAluI, h, m]; rfl
theorem sextImmediate (o : AluI) : ReadsBack (.sextImmediate o) := of_aluI rfl rfl rfl (by decide) fun w h m => by simp only [decAluI, h, m]; rfl
theorem zextImmediate (o : AluI) : ReadsBack (.zextImmediate o) := of_aluI rfl rfl rfl (by decide) fun w h m => by simp only [decAluI, h, m]; rfl
theorem bfxImmediate (o : AluI) : ReadsBack (.bfxImmediate o) := of_aluI rfl rfl rfl (by decide) fun w h m => by simp only [decAluI, h, m]; rfl
theorem bfiImmediate (o : AluI) : ReadsBack (.bfiImmediate o) := of_aluI rfl rfl rfl (by decide) fun w h m => by simp only [decAluI, h, m]; rfl

end ReadsBack
end Sys2Proof
end

section
set_option Elab.async false
namespace Sys2Proof
namespace ReadsBack

/-! ### MAJ 0x00: system words -/

theorem nop : ReadsBack .nop := of_cr rfl rfl (fun _ => CR.fits_mk) fun w p h m => by
  simp only [parseC, decSys, h, m, crBare]; rfl
theorem endTask : ReadsBack .endTask := of_cr rfl rfl (fun _ => CR.fits_mk) fun w p h m => by
  simp only [parseC, decSys, h, m, crBare]; rfl
theorem yield : ReadsBack .yield := of_cr rfl rfl (fun _ => CR.fits_mk) fun w p h m => by
  simp only [parseC, decSys, h, m, crBare]; rfl
theorem chk : ReadsBack .chk := of_cr rfl rfl (fun _ => CR.fits_mk) fun w p h m => by
  simp only [parseC, decSys, h, m, crBare]; rfl
theorem crc : ReadsBack .crc := of_cr rfl rfl (fun _ => CR.fits_mk) fun w p h m => by
  simp only [parseC, decSys, h, m, crBare]; rfl

theorem trap (c : BitVec 16) : ReadsBack (.trap c) :=
  of_ci rfl rfl (fun _ => CI.fits_mk (Nat.lt_trans c.isLt (by decide))) fun _ w p h hm m => by
    have hz : c.toNat / 65536 = 0 := Nat.div_eq_of_lt c.isLt
    simp [parseC, decSys, h, hm, m, give, hz]

theorem csrKnown_lt {n : Nat} (h : csrKnown n = true) : n < 4096 := by
  simp only [csrKnown, Bool.or_eq_true, Bool.and_eq_true, decide_eq_true_eq] at h; omega

theorem csrr (d n : Nat) : ReadsBack (.csrr d n) := by
  have hf : (Instr.csrr d n).check = none → d < 64 ∧ n < 4096 := fun h => by
    simp only [Instr.check, firstFail_cons] at h
    exact ⟨of_isS h.1, csrKnown_lt h.2.1⟩
  refine of_ci rfl rfl (fun hc => CI.fits_mk (Nat.lt_trans (hf hc).2 (by decide)) (hd := (hf hc).1)) fun hc w p h hm m => ?_
  simp [parseC, decSys, h, hm, m, give, Nat.mod_eq_of_lt (hf hc).2, (hf hc).2]

theorem csrw (a : Nat) (fe : Bool) (n : Nat) : ReadsBack (.csrw a fe n) := by
  have hf : (Instr.csrw a fe n).check = none → a < 64 ∧ n < 4096 := fun h => by
    simp only [Instr.check, firstFail_cons, csrWritable, Bool.and_eq_true] at h
    exact ⟨of_isS h.1, csrKnown_lt h.2.1.1⟩
  refine of_ci rfl rfl (fun hc => CI.fits_mk (Nat.lt_trans (hf hc).2 (by decide)) (ha := (hf hc).1)) fun hc w p h hm m => ?_
  simp [parseC, decSys, h, hm, m, give, Nat.mod_eq_of_lt (hf hc).2, (hf hc).2]

theorem rdts (d : Nat) : ReadsBack (.rdts d) :=
  of_cr rfl rfl (fun h => CR.fits_mk (hd := of_isS ((firstFail_cons _ _ _).1 h).1)) fun w p h m => by
    simp only [parseC, decSys, h, m, crBare]; rfl

theorem cro (x : BitVec 37) : ReadsBack (.cro x) :=
  of_ci rfl rfl (fun _ => CI.fits_mk x.isLt) fun _ w p h hm m => by
    simp [parseC, decSys, h, hm, m, give]

theorem ctxsave (r : MemRef) : ReadsBack (.ctxsave r) :=
  of_ck rfl rfl (fun h => r.fit h (by decide) (by decide) (by decide)) fun _ w p h hm m => by
    simp [parseC, decSys, h, hm, m, give]; rfl
theorem ctxrest (r : MemRef) : ReadsBack (.ctxrest r) :=
  of_ck rfl rfl (fun h => r.fit h (by decide) (by decide) (by decide)) fun _ w p h hm m => by
    simp [parseC, decSys, h, hm, m, give]; rfl
theorem wcsld (n : Nat) (r : MemRef) : ReadsBack (.wcsld n r) :=
  of_ck rfl rfl (fun h => by
    obtain ⟨hn, hr⟩ := (firstFail_cons _ _ _).1 h
    exact r.fit hr (by decide) (by decide) (of_decide_eq_true hn)) fun _ w p h hm m => by
    simp [parseC, decSys, h, hm, m, give]; rfl

theorem stop (a : Nat) (fe : Bool) : ReadsBack (.stop a fe) :=
  of_cr rfl rfl (fun h => CR.fits_mk (ha := of_isS ((firstFail_cons _ _ _).1 h).1)) fun w p h m => by
    simp only [parseC, decSys, h, m, crBare]; rfl

/-! ### MAJ 0x02 to 0x0A -/

theorem pset (d a : Nat) (fe : Bool) (wc av : Nat) : ReadsBack (.pset d a fe wc av) := by
  have hf : (Instr.pset d a fe wc av).check = none → d < 16 ∧ a < 64 ∧ wc < 4 ∧ av < 1024 := fun h => by
    simpa [Instr.check, firstFail_cons, firstFail_nil, isS, and_assoc] using h
  refine of_ci rfl rfl (fun hc => ?_) fun hc w p h hm m => ?_
  · obtain ⟨hd, ha, hw, hv⟩ := hf hc
    exact CI.fits_mk (by omega) (hd := by omega) (ha := ha)
  · obtain ⟨-, -, hw, hv⟩ := hf hc
    have e1 : fld (wc * 1024 + av) 10 2 = wc := by unfold fld; omega
    have e2 : fld (wc * 1024 + av) 0 10 = av := by unfold fld; omega
    have e3 : wc * 1024 + av < 4096 := by omega
    simp [parseC, decAluI, h, m, give, e1, e2, e3]

theorem shape (n : Nat) : ReadsBack (.shape n) := by
  have hf : (Instr.shape n).check = none → n < 8 := fun h => by
    simp [Instr.check, firstFail_cons, firstFail_nil] at h; omega
  refine of_ci rfl rfl (fun hc => CI.fits_mk (Nat.lt_trans (hf hc) (by decide))) fun hc w p h hm m => ?_
  simp [parseC, decAluI, h, m, give, Nat.mod_eq_of_lt (hf hc), hf hc]

theorem lim (d : Nat) (v : Word) : ReadsBack (.lim d v) :=
  of_cw rfl rfl (fun h => ⟨CR.fits_mk (hd := of_isS ((firstFail_cons _ _ _).1 h).1), v.isLt⟩)
    fun _ w h m => by simp [parseC, h, m, crBare, give]

/-- Registers that a comparison reads, or 0 where it reads none (R55). -/
theorem CmpF.fits {f : CmpF} (h : firstFail f.checks = none) : f.a < 64 ∧ f.b < 64 := by
  simp only [CmpF.checks, firstFail_cons] at h
  obtain ⟨h, -⟩ := h
  split at h
  · simpa [isS] using h
  · simp [isZ] at h
    omega

theorem cset (d : Nat) (f : CmpF) : ReadsBack (.cset d f) := by
  obtain ⟨hc, hlt⟩ := condOf_code f.cond
  refine of_cr rfl rfl (fun h => ?_) fun w p h m => ?_
  · obtain ⟨hd, hf⟩ := (firstFail_cons _ _ _).1 h
    obtain ⟨ha, hb⟩ := CmpF.fits hf
    exact CR.fits_mk (hmn := Nat.lt_trans hlt (by decide)) (hd := of_isS hd) (ha := ha) (hb := hb)
  · simp [parseC, h, m, crBare, Nat.mod_eq_of_lt hlt, hc, give, hlt]

theorem br (f : CmpF) (x : BitVec 39) : ReadsBack (.br f x) := by
  obtain ⟨hc, hlt⟩ := condOf_code f.cond
  refine of_one rfl rfl fun h => ?_
  obtain ⟨ha, hb⟩ := CmpF.fits h
  obtain ⟨hw, hl, hm⟩ := cbOf_cbWord ⟨5, f.cond.code, f.a, f.b, f.fea, f.feb, x.toNat⟩ ⟨by show 5 < 64; decide, hlt, ha, hb, x.isLt⟩
  exact ⟨hl, fun p => by simp [parseC, hm, hw, hc, give]⟩

theorem jmp (x : BitVec 37) : ReadsBack (.jmp x) :=
  of_ci rfl rfl (fun _ => CI.fits_mk x.isLt) fun _ w p h _ m => by simp [parseC, decJump, h, m, give]
theorem call (x : BitVec 37) : ReadsBack (.call x) :=
  of_ci rfl rfl (fun _ => CI.fits_mk x.isLt) fun _ w p h _ m => by simp [parseC, decJump, h, m, give]
theorem ret (a : Nat) (fe : Bool) : ReadsBack (.ret a fe) :=
  of_ci rfl rfl (fun h => CI.fits_mk (Nat.two_pow_pos 37) (ha := of_isS ((firstFail_cons _ _ _).1 h).1)) fun _ w p h _ m => by simp [parseC, decJump, h, m, give]
theorem brx (a : Nat) (fe : Bool) (x : BitVec 37) : ReadsBack (.brx a fe x) :=
  of_ci rfl rfl (fun h => CI.fits_mk x.isLt (ha := of_isS ((firstFail_cons _ _ _).1 h).1)) fun _ w p h _ m => by simp [parseC, decJump, h, m, give]

theorem loop (f : LoopF) : ReadsBack (.loop f) := by
  refine of_one rfl rfl fun h => ?_
  simp only [Instr.check, firstFail_cons, Bool.and_eq_true, decide_eq_true_eq, firstFail_nil] at h
  obtain ⟨hl, ht, hti, ⟨-, hb⟩, -⟩ := h
  have htr : f.trip < 2 ^ 24 := by
    split at hti
    · simp at hti; exact hti.2
    · simp [isZ] at hti; omega
  obtain ⟨hw, hlt, hm⟩ := clOf_clWord ⟨7, 0, f.lvl, f.t, f.ti, f.body, f.trip⟩ (CL.fits_mk (by omega) (of_isS ht) hb htr)
  exact ⟨hlt, fun p => by simp [parseC, decLoop, hm, hw, give]⟩

theorem lbrk (l : Nat) : ReadsBack (.lbrk l) := by
  refine of_one rfl rfl fun h => ?_
  have hl : l ≤ 5 := by simpa [Instr.check, firstFail_cons, firstFail_nil] using h
  obtain ⟨hw, hlt, hm⟩ := clOf_clWord ⟨7, 1, l, 0, false, 0, 0⟩ (CL.fits_mk (Nat.lt_of_le_of_lt hl (by decide)))
  exact ⟨hlt, fun p => by simp [parseC, decLoop, hm, hw, give]⟩

theorem viss (a n : Nat) : ReadsBack (.viss a n) := by
  refine of_one rfl rfl fun h => ?_
  simp [Instr.check, firstFail_cons, firstFail_nil] at h
  obtain ⟨hw, hlt, hm⟩ := cvOf_cvWord ⟨8, 0, a, n, 0⟩ ⟨by show 8 < 64; decide, by show 0 < 256; decide, by show a < 2 ^ 16; omega, by show n < 2 ^ 16; omega, by show 0 < 2 ^ 18; decide⟩
  exact ⟨hlt, fun p => by simp [parseC, hm, hw, give]⟩

theorem swpl (f : SwplF) : ReadsBack (.swpl f) := by
  have hf : (Instr.swpl f).check = none → f.a < 64 ∧ f.pro < 65536 ∧ f.ker < 65536 ∧ f.epi < 65536 ∧ f.fin < 65536 := fun h => by
    simp [Instr.check, firstFail_cons, firstFail_nil, isS] at h; omega
  refine of_cw rfl rfl (fun hc => ?_) fun hc w h m => ?_
  · obtain ⟨ha, h1, h2, h3, h4⟩ := hf hc
    exact ⟨CR.fits_mk (ha := ha), by omega⟩
  · obtain ⟨-, h1, h2, h3, h4⟩ := hf hc
    simp only [parseC, decSwpl, h, m, crBare]
    simp [give, fld]
    cases f
    simp at *
    omega

theorem vsync (l a q : Bool) : ReadsBack (.vsync l a q) :=
  of_cr rfl rfl (fun _ => CR.fits_mk (hmn := by cases l <;> cases a <;> cases q <;> decide)) fun w p h m => by
    simp only [parseC, h, m, crBare]
    cases l <;> cases a <;> cases q <;> rfl

end ReadsBack
end Sys2Proof
end

section
set_option Elab.async false
namespace Sys2Proof
namespace ReadsBack

/-! ### MAJ 0x0B, 0x0C and 0x12: ordered accesses -/

/-- A CK word whose MIN holds an ordering (R49, R58, R288). -/
theorem of_ordered {i : Instr} {m : MemRef} {o : Ordr} {maj low d : Nat} (he : encodeC i = [ckWord (m.ck maj (o.min low) d)])
    (hv : vParts i = none) (hmaj : maj < 64) (hc : i.check = none → low < 8 ∧ d < 64 ∧ firstFail o.checks = none ∧ firstFail m.checks = none)
    (hp : low < 8 → ∀ w p, (ckOf w).d = d → (ckOf w).mem = m → (ckOf w).mn = o.min low → (ckOf w).mn % 8 = low →
      ordOf (fld (ckOf w).mn 3 2) (fld (ckOf w).mn 5 3) = o → fld w 58 6 = maj → parseC w p = .ok (i, 1)) : ReadsBack i :=
  of_ck he hv (fun h => by
    obtain ⟨hl, hd, ho, hm⟩ := hc h
    exact m.fit hm hmaj (Ordr.min_fields (Ordr.scope_of_checks ho) hl).1 hd) fun h w p e _ hj => by
    obtain ⟨hl, -, ho, -⟩ := hc h
    obtain ⟨-, h1, h2, h3⟩ := Ordr.min_fields (Ordr.scope_of_checks ho) hl
    have hmn : (ckOf w).mn = o.min low := by rw [e]; rfl
    exact hp hl w p (by rw [e]; rfl) (by rw [e, MemRef.ck_mem]) hmn (by rw [hmn, h1]) (by rw [hmn, h2, h3, ordOf_code]) hj

theorem ld (f : LdF) : ReadsBack (.ld f) :=
  of_ordered rfl rfl (by decide) (fun h => by
    simp only [Instr.check, List.append_assoc, firstFail_append, firstFail_cons, decide_eq_true_eq] at h
    obtain ⟨⟨ht, hd, -⟩, ho, hm⟩ := h
    exact ⟨ht, of_isS hd, ho, hm⟩) fun _ w p hd hm _ hl ho hj => by
    simp [parseC, hj, ldfOf, hd, hm, hl, ho, give]
theorem st (f : LdF) : ReadsBack (.st f) :=
  of_ordered rfl rfl (by decide) (fun h => by
    simp only [Instr.check, List.append_assoc, firstFail_append, firstFail_cons, decide_eq_true_eq] at h
    obtain ⟨⟨ht, hd, -⟩, ho, hm⟩ := h
    exact ⟨ht, of_isS hd, ho, hm⟩) fun _ w p hd hm _ hl ho hj => by
    simp [parseC, hj, ldfOf, hd, hm, hl, ho, give]

/-- A word of MAJ 0x12 (R288). -/
theorem of_sync {i : Instr} {f : SyncF} {low : Nat} {b : Bool} (he : encodeC i = [ckWord (f.m.ck 0x12 (f.ord.min low) f.d)])
    (hv : vParts i = none) (hl : low < 8) (hc : i.check = firstFail ([(isS f.d, .register), (b, .order)] ++ f.ord.checks ++ f.m.checks))
    (hp : ∀ w, (ckOf w).mn % 8 = low → { d := (ckOf w).d, m := (ckOf w).mem, ord := ordOf (fld (ckOf w).mn 3 2) (fld (ckOf w).mn 5 3) } = f →
      decSync w = .ok (i, 1)) : ReadsBack i :=
  of_ordered he hv (by decide) (fun h => by
    rw [hc, List.append_assoc, firstFail_append, firstFail_append, firstFail_cons] at h
    obtain ⟨⟨hd, -⟩, ho, hm⟩ := h
    exact ⟨hl, of_isS hd, ho, hm⟩) fun _ w p hd hm _ hl ho hj => by
    simp only [parseC, hj]
    exact hp w hl (by rw [hd, hm, ho])

theorem futWait (f : SyncF) : ReadsBack (.futWait f) := of_sync rfl rfl (by decide) rfl fun w hl hf => by simp only [decSync, hl, hf]; rfl
theorem futPut (f : SyncF) : ReadsBack (.futPut f) := of_sync rfl rfl (by decide) rfl fun w hl hf => by simp only [decSync, hl, hf]; rfl
theorem futClr (f : SyncF) : ReadsBack (.futClr f) := of_sync rfl rfl (by decide) rfl fun w hl hf => by simp only [decSync, hl, hf]; rfl
theorem sigAdd (f : SyncF) : ReadsBack (.sigAdd f) := of_sync rfl rfl (by decide) rfl fun w hl hf => by simp only [decSync, hl, hf]; rfl
theorem sigSet (f : SyncF) : ReadsBack (.sigSet f) := of_sync rfl rfl (by decide) rfl fun w hl hf => by simp only [decSync, hl, hf]; rfl
theorem sigWait (f : SyncF) : ReadsBack (.sigWait f) := of_sync rfl rfl (by decide) rfl fun w hl hf => by simp only [decSync, hl, hf]; rfl
theorem sigRead (f : SyncF) : ReadsBack (.sigRead f) := of_sync rfl rfl (by decide) rfl fun w hl hf => by simp only [decSync, hl, hf]; rfl

/-! ### MAJ 0x0D: `amo` -/

/-- A word of MAJ 0x0D and its P64 (R58). -/
theorem of_amo {i : Instr} {f : AmoF} {op : Nat} {b : Bool} (he : encodeC i = [crWord (f.cr op), f.p64]) (hv : vParts i = none)
    (hop : op < 128) (hc : i.check = firstFail ([(isS f.d && isS f.a && isS f.c && isK f.k, .register), (b, .unread)] ++ f.ord.checks))
    (hb : b = true → f.b < 64)
    (hp : ∀ w p, (crOf w).mn % 128 = op → (crOf w).z = 0 → fld p 32 22 = 0 →
      AmoF.mk (bit (crOf w).mn 7) (crOf w).d (crOf w).a (crOf w).b (crOf w).c (crOf w).fea (crOf w).feb (crOf w).fec (fld p 59 5)
        (ordOf (fld p 54 2) (fld p 56 3)) (BitVec.ofNat 32 (fld p 0 32)) = f → decAmo w p = .ok (i, 2)) : ReadsBack i := by
  have hw := bit_toNat f.w64
  have ho := f.off.isLt
  have hr := f.ord.code_lt
  have hf : i.check = none → f.d < 64 ∧ f.a < 64 ∧ f.c < 64 ∧ f.k < 32 ∧ f.b < 64 ∧ f.ord.scope < 6 := fun h => by
    rw [hc, firstFail_append, firstFail_cons, firstFail_cons] at h
    obtain ⟨⟨hr, hu, -⟩, ho⟩ := h
    simp only [isS, isK, Bool.and_eq_true, decide_eq_true_eq] at hr
    exact ⟨hr.1.1.1, hr.1.1.2, hr.1.2, hr.2, hb hu, Ordr.scope_of_checks ho⟩
  refine of_cw he hv (fun h => ?_) fun h w e m => ?_
  · obtain ⟨hd, ha, hcc, hk, hb, hs⟩ := hf h
    exact ⟨CR.fits_mk (hmn := by omega) (hd := hd) (ha := ha) (hb := hb) (hc := hcc), by unfold AmoF.p64; omega⟩
  · obtain ⟨-, -, -, hk, -, hs⟩ := hf h
    have m' : fld w 58 6 = 0x0D := m
    simp only [parseC, m']
    have e1 : bit (f.w64.toNat * 128 + op) 7 = f.w64 := bit_mk _ _ _ (by omega)
    have e2 : fld f.p64 59 5 = f.k := by unfold AmoF.p64 fld; omega
    have e3 : fld f.p64 54 2 = f.ord.code := by unfold AmoF.p64 fld; omega
    have e4 : fld f.p64 56 3 = f.ord.scope := by unfold AmoF.p64 fld; omega
    have e5 : fld f.p64 0 32 = f.off.toNat := by unfold AmoF.p64 fld; omega
    refine hp w _ (by rw [e]; show (f.w64.toNat * 128 + op) % 128 = op; omega) (by rw [e]; rfl) (by unfold AmoF.p64 fld; omega) ?_
    simp [e, AmoF.cr, e1, e2, e3, e4, e5, ordOf_code]

theorem of_unread {n : Nat} {b : Bool} (h : (isZ n && b) = true) : n < 64 := by simp [isZ] at h; omega

theorem amoAdd (f : AmoF) : ReadsBack (.amoAdd f) := of_amo rfl rfl (by decide) rfl (of_unread) fun w p hm hz hq hf => by simp only [decAmo, hm, hz, hq, hf]; rfl
theorem amoAnd (f : AmoF) : ReadsBack (.amoAnd f) := of_amo rfl rfl (by decide) rfl (of_unread) fun w p hm hz hq hf => by simp only [decAmo, hm, hz, hq, hf]; rfl
theorem amoOr (f : AmoF) : ReadsBack (.amoOr f) := of_amo rfl rfl (by decide) rfl (of_unread) fun w p hm hz hq hf => by simp only [decAmo, hm, hz, hq, hf]; rfl
theorem amoXor (f : AmoF) : ReadsBack (.amoXor f) := of_amo rfl rfl (by decide) rfl (of_unread) fun w p hm hz hq hf => by simp only [decAmo, hm, hz, hq, hf]; rfl
theorem amoMinS (f : AmoF) : ReadsBack (.amoMinS f) := of_amo rfl rfl (by decide) rfl (of_unread) fun w p hm hz hq hf => by simp only [decAmo, hm, hz, hq, hf]; rfl
theorem amoMaxS (f : AmoF) : ReadsBack (.amoMaxS f) := of_amo rfl rfl (by decide) rfl (of_unread) fun w p hm hz hq hf => by simp only [decAmo, hm, hz, hq, hf]; rfl
theorem amoMinN (f : AmoF) : ReadsBack (.amoMinN f) := of_amo rfl rfl (by decide) rfl (of_unread) fun w p hm hz hq hf => by simp only [decAmo, hm, hz, hq, hf]; rfl
theorem amoMaxN (f : AmoF) : ReadsBack (.amoMaxN f) := of_amo rfl rfl (by decide) rfl (of_unread) fun w p hm hz hq hf => by simp only [decAmo, hm, hz, hq, hf]; rfl
theorem amoSwap (f : AmoF) : ReadsBack (.amoSwap f) := of_amo rfl rfl (by decide) rfl (of_unread) fun w p hm hz hq hf => by simp only [decAmo, hm, hz, hq, hf]; rfl
theorem amoCas (f : AmoF) : ReadsBack (.amoCas f) := of_amo rfl rfl (by decide) rfl (of_isS) fun w p hm hz hq hf => by simp only [decAmo, hm, hz, hq, hf]; rfl
theorem amoFmaxF32 (f : AmoF) : ReadsBack (.amoFmaxF32 f) := of_amo rfl rfl (by decide) rfl (fun h => of_unread (Bool.and_elim_left h)) fun w p hm hz hq hf => by simp only [decAmo, hm, hz, hq, hf]; rfl
theorem amoAmaxRr (f : AmoF) : ReadsBack (.amoAmaxRr f) := of_amo rfl rfl (by decide) rfl (fun h => of_unread (Bool.and_elim_left (Bool.and_elim_left (Bool.and_elim_left h)))) fun w p hm hz hq hf => by simp only [decAmo, hm, hz, hq, hf]; rfl

/-! ### MAJ 0x0E: fences -/

/-- The MIN of a fence, read back (R58). -/
theorem fence_fields (u : Bool) {s k : Nat} (hs : s < 8) (hk : k < 4) :
    s * 32 + k * 8 + u.toNat * 4 < 256 ∧ (s * 32 + k * 8 + u.toNat * 4) % 4 = 0 ∧ bit (s * 32 + k * 8 + u.toNat * 4) 2 = u ∧
    fld (s * 32 + k * 8 + u.toNat * 4) 5 3 = s ∧ fld (s * 32 + k * 8 + u.toNat * 4) 3 2 = k := by
  have hu := bit_toNat u
  exact ⟨by omega, by omega, bit_mk _ _ _ (by omega), by unfold fld; omega, by unfold fld; omega⟩

theorem of_fence {i : Instr} {u : Bool} {s k : Nat} (he : encodeC i = [crWord (crBare 0x0E (s * 32 + k * 8 + u.toNat * 4) 0 0 0 0)])
    (hv : vParts i = none) (hc : i.check = none → s ≤ 5) (hk : k < 4)
    (hp : ∀ w, (crOf w).bare = true → (crOf w).mn % 4 = 0 → bit (crOf w).mn 2 = u → fld (crOf w).mn 5 3 = s → fld (crOf w).mn 3 2 = k →
      decFence w = .ok (i, 1)) : ReadsBack i :=
  of_one he hv fun h => by
    obtain ⟨h1, h2, h3, h4, h5⟩ := fence_fields u (Nat.lt_of_le_of_lt (hc h) (by decide)) hk
    obtain ⟨e, hlt⟩ := crOf_crWord (crBare 0x0E (s * 32 + k * 8 + u.toNat * 4) 0 0 0 0) (CR.fits_mk (hmn := h1))
    have m : fld (crWord (crBare 0x0E (s * 32 + k * 8 + u.toNat * 4) 0 0 0 0)) 58 6 = 0x0E := maj_of_crOf e
    refine ⟨hlt, fun p => ?_⟩
    simp only [parseC, m]
    exact hp _ (by rw [e]; rfl) (by rw [e]; exact h2) (by rw [e]; exact h3) (by rw [e]; exact h4) (by rw [e]; exact h5)

theorem fenceAcq (u : Bool) (s : Nat) : ReadsBack (.fenceAcq u s) :=
  of_fence rfl rfl (fun h => of_decide_eq_true ((firstFail_cons _ _ _).1 h).1) (by decide) fun w hb h4 hu hs hk => by
    simp only [decFence, hk, hb, h4, hu, hs]; rfl
theorem fenceRel (u : Bool) (s : Nat) : ReadsBack (.fenceRel u s) :=
  of_fence rfl rfl (fun h => of_decide_eq_true ((firstFail_cons _ _ _).1 h).1) (by decide) fun w hb h4 hu hs hk => by
    simp only [decFence, hk, hb, h4, hu, hs]; rfl
theorem fenceAr (u : Bool) (s : Nat) : ReadsBack (.fenceAr u s) :=
  of_fence rfl rfl (fun h => of_decide_eq_true ((firstFail_cons _ _ _).1 h).1) (by decide) fun w hb h4 hu hs hk => by
    simp only [decFence, hk, hb, h4, hu, hs]; rfl
theorem fenceSc (u : Bool) (s : Nat) : ReadsBack (.fenceSc u s) :=
  of_fence rfl rfl (fun h => of_decide_eq_true (Bool.and_elim_right ((firstFail_cons _ _ _).1 h).1)) (by decide) fun w hb h4 hu hs hk => by
    simp only [decFence, hk, hb, h4, hu, hs]; rfl

/-! ### MAJ 0x0F and 0x14: token and queue words -/

/-- The MIN of `xlat` and `xlat.try`: RIGHTS above the operation (R59). -/
theorem xlat_fields (r : BitVec 4) {k : Nat} (hk : k < 16) :
    r.toNat * 16 + k < 256 ∧ (r.toNat * 16 + k) % 16 = k ∧ BitVec.ofNat 4 ((r.toNat * 16 + k) / 16) = r := by
  have hr := r.isLt
  have e : (r.toNat * 16 + k) / 16 = r.toNat := by omega
  exact ⟨by omega, by omega, by rw [e, BitVec.ofNat_toNat, BitVec.setWidth_eq]⟩

theorem xlat (r : BitVec 4) (o : AluR) : ReadsBack (.xlat r o) := by
  obtain ⟨h1, h2, h3⟩ := xlat_fields r (k := 0) (by decide)
  refine of_roles rfl (fun h => ((firstFail_cons _ _ _).1 h).2) rfl (by decide) h1 fun w p h m => ?_
  simp only [parseC, decToken, m, h, AluR.cr, h2, h3, decToken.tokRights]; rfl
theorem xlatTry (r : BitVec 4) (o : AluR) : ReadsBack (.xlatTry r o) := by
  obtain ⟨h1, h2, h3⟩ := xlat_fields r (k := 1) (by decide)
  refine of_roles rfl (fun h => ((firstFail_cons _ _ _).1 h).2) rfl (by decide) h1 fun w p h m => ?_
  simp only [parseC, decToken, m, h, AluR.cr, h2, h3, decToken.tokRights]; rfl

theorem tkchk (o : AluR) : ReadsBack (.tkchk o) := of_roles rfl id rfl (by decide) (by decide) fun w p h m => by simp [parseC, decToken, m, h, AluR.cr, CR.alu, give]
theorem tkdrop (o : AluR) : ReadsBack (.tkdrop o) := of_roles rfl id rfl (by decide) (by decide) fun w p h m => by simp [parseC, decToken, m, h, AluR.cr, CR.alu, give]
theorem tkmov (o : AluR) : ReadsBack (.tkmov o) := of_roles rfl id rfl (by decide) (by decide) fun w p h m => by simp [parseC, decToken, m, h, AluR.cr, CR.alu, give]
theorem tksub (o : AluR) : ReadsBack (.tksub o) := of_roles rfl id rfl (by decide) (by decide) fun w p h m => by simp [parseC, decToken, m, h, AluR.cr, CR.alu, give]
theorem tkinfo (o : AluR) : ReadsBack (.tkinfo o) := of_roles rfl id rfl (by decide) (by decide) fun w p h m => by simp [parseC, decToken, m, h, AluR.cr, CR.alu, give]
theorem tkrevKill (o : AluR) : ReadsBack (.tkrevKill o) := of_roles rfl id rfl (by decide) (by decide) fun w p h m => by simp [parseC, decToken, m, h, AluR.cr, CR.alu, give]
theorem tkrevMove (o : AluR) : ReadsBack (.tkrevMove o) := of_roles rfl id rfl (by decide) (by decide) fun w p h m => by simp [parseC, decToken, m, h, AluR.cr, CR.alu, give]
theorem qpush (o : AluR) : ReadsBack (.qpush o) := of_roles rfl id rfl (by decide) (by decide) fun w p h m => by simp only [parseC, decQueue, m, h]; rfl
theorem qinfo (o : AluR) : ReadsBack (.qinfo o) := of_roles rfl id rfl (by decide) (by decide) fun w p h m => by simp only [parseC, decQueue, m, h]; rfl
theorem qbind (o : AluR) : ReadsBack (.qbind o) := of_roles rfl id rfl (by decide) (by decide) fun w p h m => by simp only [parseC, decQueue, m, h]; rfl
theorem qpop (o : AluR) : ReadsBack (.qpop o) :=
  of_roles rfl (fun h => ((firstFail_cons _ _ _).1 h).2) rfl (by decide) (by decide) fun w p h m => by simp only [parseC, decQueue, m, h]; rfl
theorem qtry (o : AluR) : ReadsBack (.qtry o) :=
  of_roles rfl (fun h => ((firstFail_cons _ _ _).1 h).2) rfl (by decide) (by decide) fun w p h m => by simp only [parseC, decQueue, m, h]; rfl

/-! ### MAJ 0x10, 0x11 and 0x13 -/

theorem stashMap (n : Nat) (r : MemRef) : ReadsBack (.stashMap n r) :=
  of_ck rfl rfl (fun h => by
    obtain ⟨hn, hr⟩ := (firstFail_cons _ _ _).1 h
    exact r.fit hr (by decide) (by decide) (of_decide_eq_true hn)) fun _ w p h _ m => by
    have m' : fld w 58 6 = 0x10 := m
    simp only [parseC, decStash, m', h, MemRef.ck_mem]; rfl

theorem stashUnmap (n : Nat) : ReadsBack (.stashUnmap n) :=
  of_ck rfl rfl (fun h => MemRef.zero.fit (by decide) (by decide) (by decide) (of_decide_eq_true ((firstFail_cons _ _ _).1 h).1)) fun _ w p h _ m => by
    have m' : fld w 58 6 = 0x10 := m
    simp only [parseC, decStash, m', h]; rfl
theorem stashWb (n : Nat) : ReadsBack (.stashWb n) :=
  of_ck rfl rfl (fun h => MemRef.zero.fit (by decide) (by decide) (by decide) (of_decide_eq_true ((firstFail_cons _ _ _).1 h).1)) fun _ w p h _ m => by
    have m' : fld w 58 6 = 0x10 := m
    simp only [parseC, decStash, m', h]; rfl
theorem stashInv (n : Nat) : ReadsBack (.stashInv n) :=
  of_ck rfl rfl (fun h => MemRef.zero.fit (by decide) (by decide) (by decide) (of_decide_eq_true ((firstFail_cons _ _ _).1 h).1)) fun _ w p h _ m => by
    have m' : fld w 58 6 = 0x10 := m
    simp only [parseC, decStash, m', h]; rfl

theorem bar (l s : Nat) : ReadsBack (.bar l s) := by
  refine of_one rfl rfl fun h => ?_
  have hls : l ≤ 5 ∧ s ≤ 5 := by simpa [Instr.check, firstFail_cons, firstFail_nil] using h
  obtain ⟨hl, hs⟩ := hls
  obtain ⟨e, hlt⟩ := crOf_crWord (crBare 0x11 (s * 32 + l) 0 0 0 0) (CR.fits_mk (hmn := by omega))
  have m : fld (crWord (crBare 0x11 (s * 32 + l) 0 0 0 0)) 58 6 = 0x11 := maj_of_crOf e
  refine ⟨hlt, fun p => ?_⟩
  generalize crWord (crBare 0x11 (s * 32 + l) 0 0 0 0) = w at e m
  have e1 : (s * 32 + l) % 8 = l := by omega
  have e2 : fld (s * 32 + l) 5 3 = s := by unfold fld; omega
  have e3 : fld (s * 32 + l) 3 2 = 0 := by unfold fld; omega
  simp [parseC, m, e, crBare, CR.bare, give, e1, e2, e3]

/-- A word of MAJ 0x13 (R60, R240), or one of MAJ 0x15 that names a handle (R242, R248). -/
theorem of_handle {i : Instr} {maj mn d a h : Nat} {fe : Bool} (he : encodeC i = [ciWord ⟨maj, mn, d, a, fe, h⟩]) (hv : vParts i = none)
    (hmaj : maj < 64) (hmn : mn < 256) (hc : i.check = none → h < 64 ∧ d < 64 ∧ a < 64)
    (hp : ∀ w p, (ciOf w).d = d → (ciOf w).a = a → (ciOf w).fea = fe → (ciOf w).imm % 64 = h → (ciOf w).imm / 64 = 0 → (ciOf w).mn = mn →
      (crOf w).mn = mn → fld w 58 6 = maj → parseC w p = .ok (i, 1)) : ReadsBack i :=
  of_ci he hv (fun hk => by
    obtain ⟨hh, hd, ha⟩ := hc hk
    exact CI.fits_mk (Nat.lt_trans hh (by decide)) hmaj hmn hd ha) fun hk w p e hm m => by
    have hh := (hc hk).1
    exact hp w p (by rw [e]) (by rw [e]) (by rw [e]) (by rw [e]; exact Nat.mod_eq_of_lt hh) (by rw [e]; exact Nat.div_eq_of_lt hh) (by rw [e]) hm m

theorem hset (h a : Nat) (fe : Bool) : ReadsBack (.hset h a fe) :=
  of_handle rfl rfl (by decide) (by decide) (fun k => by simpa [Instr.check, firstFail_cons, firstFail_nil, isS] using k)
    fun w p hd ha hf hh hz hm _ m => by simp only [parseC, decHandle, m, hm, hd, ha, hf, hh, hz]; rfl
theorem harr (h a : Nat) (fe : Bool) : ReadsBack (.harr h a fe) :=
  of_handle rfl rfl (by decide) (by decide) (fun k => by simpa [Instr.check, firstFail_cons, firstFail_nil, isS] using k)
    fun w p hd ha hf hh hz hm _ m => by simp only [parseC, decHandle, m, hm, hd, ha, hf, hh, hz]; rfl
theorem hwait (h : Nat) : ReadsBack (.hwait h) :=
  of_handle rfl rfl (by decide) (by decide) (fun k => by simpa [Instr.check, firstFail_cons, firstFail_nil] using k)
    fun w p hd ha hf hh hz hm _ m => by simp only [parseC, decHandle, m, hm, hd, ha, hf, hh, hz]; rfl
theorem hdrain (h : Nat) : ReadsBack (.hdrain h) :=
  of_handle rfl rfl (by decide) (by decide) (fun k => by simpa [Instr.check, firstFail_cons, firstFail_nil] using k)
    fun w p hd ha hf hh hz hm _ m => by simp only [parseC, decHandle, m, hm, hd, ha, hf, hh, hz]; rfl
theorem hfree (h : Nat) : ReadsBack (.hfree h) :=
  of_handle rfl rfl (by decide) (by decide) (fun k => by simpa [Instr.check, firstFail_cons, firstFail_nil] using k)
    fun w p hd ha hf hh hz hm _ m => by simp only [parseC, decHandle, m, hm, hd, ha, hf, hh, hz]; rfl
theorem hinfo (d h : Nat) : ReadsBack (.hinfo d h) :=
  of_handle rfl rfl (by decide) (by decide) (fun k => by simpa [Instr.check, firstFail_cons, firstFail_nil, isS] using k)
    fun w p hd ha hf hh hz hm _ m => by simp only [parseC, decHandle, m, hm, hd, ha, hf, hh, hz]; rfl
theorem cpyCancel (h : Nat) : ReadsBack (.cpyCancel h) :=
  of_handle rfl rfl (by decide) (by decide) (fun k => by simpa [Instr.check, firstFail_cons, firstFail_nil] using k)
    fun w p hd ha hf hh hz _ hm m => by simp only [parseC, decCpy, m, hm, hd, ha, hf, hh, hz]; rfl
theorem cpyStat (d h : Nat) : ReadsBack (.cpyStat d h) :=
  of_handle rfl rfl (by decide) (by decide) (fun k => by simpa [Instr.check, firstFail_cons, firstFail_nil, isS] using k)
    fun w p hd ha hf hh hz _ hm m => by simp only [parseC, decCpy, m, hm, hd, ha, hf, hh, hz]; rfl

end ReadsBack
end Sys2Proof
end

section
set_option Elab.async false
namespace Sys2Proof
namespace ReadsBack

/-! ### MAJ 0x15: copies -/

theorem cpyLvl (l : Nat) (o : AluR) : ReadsBack (.cpyLvl l o) := by
  refine of_one rfl rfl fun h => ?_
  obtain ⟨hl, ho⟩ := (firstFail_cons _ _ _).1 h
  obtain ⟨h1, h2, -, h4, h5, h6, h7⟩ := roles_fit (maj := 0x15) (mn := 0) ho (by decide) (by decide)
  obtain ⟨e, hlt⟩ := crOf_crWord { o.cr 0x15 0 with d := l } ⟨h1, h2, Nat.lt_of_le_of_lt (of_decide_eq_true hl) (by decide), h4, h5, h6, h7⟩
  have m : fld (crWord { o.cr 0x15 0 with d := l }) 58 6 = 0x15 := maj_of_crOf e
  have hd : o.d = 0 := by
    simp only [AluR.roles, firstFail_cons, Bool.and_eq_true] at ho
    exact eq_of_beq ho.1.1.1.1
  have ho' : { o with d := 0 } = o := by rw [← hd]
  refine ⟨hlt, fun p => ?_⟩
  generalize crWord { o.cr 0x15 0 with d := l } = w at e m
  simp only [parseC, m, decCpy, e, AluR.cr, CR.alu]
  exact congrArg (fun o => Except.ok (Instr.cpyLvl l o, 1)) ho'

theorem cpyGo (f : CpyF) : ReadsBack (.cpyGo f) := by
  have b1 := bit_toNat f.sf
  have b2 := bit_toNat f.ntf
  have b3 := bit_toNat f.mir
  have hr := f.ord.code_lt
  have hf : (Instr.cpyGo f).check = none → f.h < 64 ∧ f.a < 64 ∧ f.b < 64 ∧ f.c < 64 ∧ f.sk < 32 ∧ f.dk < 32 ∧ f.df < 4 ∧ f.nlvl < 8 ∧
      f.haddr < 32768 ∧ f.ord.scope < 6 := fun h => by
    simp only [Instr.check, firstFail_append, firstFail_cons, isS, isK, Bool.and_eq_true, decide_eq_true_eq] at h
    obtain ⟨⟨hh, hr, ⟨⟨hdf, hn⟩, hha⟩, -⟩, ho⟩ := h
    have hs := Ordr.scope_of_checks ho
    omega
  refine of_cw rfl rfl (fun hc => ?_) fun hc w e m => ?_
  · obtain ⟨hh, ha, hb, hcc, hsk, hdk, hdf, hn, hha, hs⟩ := hf hc
    exact ⟨CR.fits_mk (hd := hh) (ha := ha) (hb := hb) (hc := hcc), by unfold Ordr.eord; omega⟩
  · obtain ⟨-, -, -, -, hsk, hdk, hdf, hn, hha, hs⟩ := hf hc
    have m' : fld w 58 6 = 0x15 := m
    set q := f.ord.eord + f.sk * 2 ^ 54 + f.dk * 2 ^ 49 + f.sf.toNat * 2 ^ 48 + f.df * 2 ^ 46 + f.nlvl * 2 ^ 43 + f.ntf.toNat * 2 ^ 42 +
      f.mir.toNat * 2 ^ 41 + f.haddr * 2 ^ 26 with hq
    have e0 : eordOf q = f.ord := by
      rw [hq]; simp only [Nat.add_assoc]; exact eordOf_eord hs (by omega)
    unfold Ordr.eord at hq
    have e1 : fld q 54 5 = f.sk := by unfold fld; omega
    have e2 : fld q 49 5 = f.dk := by unfold fld; omega
    have e3 : bit q 48 = f.sf := bit_mk _ _ _ (by omega)
    have e4 : fld q 46 2 = f.df := by unfold fld; omega
    have e5 : fld q 43 3 = f.nlvl := by unfold fld; omega
    have e6 : bit q 42 = f.ntf := bit_mk _ _ _ (by omega)
    have e7 : bit q 41 = f.mir := bit_mk _ _ _ (by omega)
    have e8 : fld q 26 15 = f.haddr := by unfold fld; omega
    have e9 : fld q 0 26 = 0 := by unfold fld; omega
    simp [parseC, m', decCpy, e, e0, e1, e2, e3, e4, e5, e6, e7, e8, e9, give]

/-! ### MAJ 0x16: Marver commands -/

theorem mxLease : ReadsBack .mxLease := of_cr rfl rfl (fun _ => CR.fits_mk) fun w p h m => by
  simp only [parseC, decMx, h, m, crBare]; rfl
theorem mxFree : ReadsBack .mxFree := of_cr rfl rfl (fun _ => CR.fits_mk) fun w p h m => by
  simp only [parseC, decMx, h, m, crBare]; rfl

/-- A Marver command with a memory word (R184). -/
theorem of_mxMem {i : Instr} {f : MxMemF} {mn lim : Nat} {lit cr : Bool} (he : encodeC i = [crWord (f.cr mn), f.p64]) (hv : vParts i = none)
    (hmn : mn < 256) (hlim : lim ≤ 64) (hc : i.check = firstFail (f.checks lim lit cr))
    (hp : ∀ w p, (crOf w).mn = mn → (crOf w).z = 0 → fld p 32 22 = 0 → mxMemOf (crOf w) p = f → decMx w p = .ok (i, 2)) : ReadsBack i := by
  have ho := f.off.isLt
  have hr := f.ord.code_lt
  have hf : i.check = none → f.d < 64 ∧ f.a < 64 ∧ f.b < 64 ∧ f.c < 64 ∧ f.k < 32 ∧ f.ord.scope < 6 := fun h => by
    rw [hc, MxMemF.checks, firstFail_append] at h
    simp only [firstFail_cons, Bool.and_eq_true, isS, isK, decide_eq_true_eq] at h
    obtain ⟨⟨⟨⟨⟨hd, hb⟩, hk⟩, hcr⟩, ha, -⟩, hs⟩ := h
    refine ⟨hd, Nat.lt_of_lt_of_le ha hlim, hb, ?_, hk, Ordr.scope_of_checks hs⟩
    split at hcr
    · exact of_decide_eq_true hcr
    · simp [isZ] at hcr; omega
  refine of_cw he hv (fun h => ?_) fun h w e m => ?_
  · obtain ⟨hd, ha, hb, hcc, hk, hs⟩ := hf h
    exact ⟨CR.fits_mk (hmn := hmn) (hd := hd) (ha := ha) (hb := hb) (hc := hcc), by unfold MxMemF.p64 Ordr.eord; omega⟩
  · obtain ⟨-, -, -, -, hk, hs⟩ := hf h
    have m' : fld w 58 6 = 0x16 := m
    simp only [parseC, m']
    have e1 : eordOf f.p64 = f.ord := by unfold MxMemF.p64; rw [Nat.add_assoc]; exact eordOf_eord hs (by omega)
    have e2 : fld f.p64 54 5 = f.k := by unfold MxMemF.p64 Ordr.eord fld; omega
    have e3 : fld f.p64 0 32 = f.off.toNat := by unfold MxMemF.p64 Ordr.eord fld; omega
    exact hp w _ (by rw [e]; rfl) (by rw [e]; rfl) (by unfold MxMemF.p64 Ordr.eord fld; omega)
      (by simp [mxMemOf, e, MxMemF.cr, e1, e2, e3])

theorem mxCbtab (f : MxMemF) : ReadsBack (.mxCbtab f) := of_mxMem rfl rfl (by decide) (by decide) rfl fun w p hm hz hq hf => by
  simp only [decMx, hm, hz, hq, hf]; rfl
theorem mxBld (f : MxMemF) : ReadsBack (.mxBld f) := of_mxMem rfl rfl (by decide) (by decide) rfl fun w p hm hz hq hf => by
  simp only [decMx, hm, hz, hq, hf]; rfl
theorem mxBldMirror (f : MxMemF) : ReadsBack (.mxBldMirror f) := of_mxMem rfl rfl (by decide) (by decide) rfl fun w p hm hz hq hf => by
  simp only [decMx, hm, hz, hq, hf]; rfl
theorem mxTld (f : MxMemF) : ReadsBack (.mxTld f) := of_mxMem rfl rfl (by decide) (by decide) rfl fun w p hm hz hq hf => by
  simp only [decMx, hm, hz, hq, hf]; rfl
theorem mxZld (f : MxMemF) : ReadsBack (.mxZld f) := of_mxMem rfl rfl (by decide) (by decide) rfl fun w p hm hz hq hf => by
  simp only [decMx, hm, hz, hq, hf]; rfl
theorem mxZst (f : MxMemF) : ReadsBack (.mxZst f) := of_mxMem rfl rfl (by decide) (by decide) rfl fun w p hm hz hq hf => by
  simp only [decMx, hm, hz, hq, hf]; rfl

theorem mxMm (f : MmF) : ReadsBack (.mxMm f) := by
  have b1 := bit_toNat f.hw
  have b2 := bit_toNat f.tr
  have b3 := bit_toNat f.mir
  have hf : (Instr.mxMm f).check = none → f.d < 64 ∧ f.t < 8 ∧ f.z < 64 ∧ f.h < 64 ∧ f.slot < 1024 ∧ f.c0 < 512 ∧ f.nc < 1024 ∧
      f.klen < 2048 ∧ f.cb < 8 := fun h => by
    simp only [Instr.check, firstFail_cons, isS, Bool.and_eq_true, decide_eq_true_eq] at h
    omega
  refine of_cw rfl rfl (fun hc => ?_) fun hc w e m => ?_
  · obtain ⟨hd, ht, hz, hh, h1, h2, h3, h4, h5⟩ := hf hc
    exact ⟨CR.fits_mk (hd := hd) (ha := Nat.lt_trans ht (by decide)) (hb := hz) (hc := hh), by omega⟩
  · obtain ⟨-, -, -, -, h1, h2, h3, h4, h5⟩ := hf hc
    have m' : fld w 58 6 = 0x16 := m
    set q := f.slot * 2 ^ 49 + f.c0 * 2 ^ 40 + f.nc * 2 ^ 30 + f.klen * 2 ^ 19 + f.cb * 2 ^ 16 + f.hw.toNat * 2 ^ 15 + f.tr.toNat * 2 ^ 14 +
      f.mir.toNat * 2 ^ 13 with hq
    have e1 : fld q 49 10 = f.slot := by unfold fld; omega
    have e2 : fld q 40 9 = f.c0 := by unfold fld; omega
    have e3 : fld q 30 10 = f.nc := by unfold fld; omega
    have e4 : fld q 19 11 = f.klen := by unfold fld; omega
    have e5 : fld q 16 3 = f.cb := by unfold fld; omega
    have e6 : bit q 15 = f.hw := bit_mk _ _ _ (by omega)
    have e7 : bit q 14 = f.tr := bit_mk _ _ _ (by omega)
    have e8 : bit q 13 = f.mir := bit_mk _ _ _ (by omega)
    have e9 : fld q 59 5 = 0 := by unfold fld; omega
    have e10 : fld q 0 13 = 0 := by unfold fld; omega
    simp [parseC, m', decMx, e, crBare, e1, e2, e3, e4, e5, e6, e7, e8, e9, e10, give]

theorem mxKat (d n g : Nat) (v : Word) : ReadsBack (.mxKat d n g v) := by
  have hf : (Instr.mxKat d n g v).check = none → d < 64 ∧ n < 64 ∧ g < 64 := fun h => by
    simpa [Instr.check, firstFail_cons, firstFail_nil, isS] using h
  refine of_cw rfl rfl (fun hc => ?_) fun hc w e m => ?_
  · obtain ⟨hd, hn, hg⟩ := hf hc
    exact ⟨CR.fits_mk (hd := hd) (ha := hn) (hb := hg), v.isLt⟩
  · have m' : fld w 58 6 = 0x16 := m
    simp [parseC, m', decMx, e, crBare, give]

theorem mxZalloc (d z : Nat) : ReadsBack (.mxZalloc d z) :=
  of_cr rfl rfl (fun h => by
    have hf : d < 64 ∧ z < 64 := by simpa [Instr.check, firstFail_cons, firstFail_nil, isS] using h
    exact CR.fits_mk (hd := hf.1) (ha := hf.2)) fun w p e m => by simp only [parseC, decMx, e, m, crBare]; rfl
theorem mxZfree (z : Nat) : ReadsBack (.mxZfree z) :=
  of_cr rfl rfl (fun h => CR.fits_mk (ha := of_decide_eq_true ((firstFail_cons _ _ _).1 h).1)) fun w p e m => by
    simp only [parseC, decMx, e, m, crBare]; rfl
theorem mxZcpy (d a b : Nat) : ReadsBack (.mxZcpy d a b) :=
  of_cr rfl rfl (fun h => by
    have hf : d < 64 ∧ a < 64 ∧ b < 64 := by simpa [Instr.check, firstFail_cons, firstFail_nil, isS] using h
    exact CR.fits_mk (hd := hf.1) (ha := hf.2.1) (hb := hf.2.2)) fun w p e m => by simp only [parseC, decMx, e, m, crBare]; rfl

theorem mxOut (f : OutF) : ReadsBack (.mxOut f) := by
  have b1 := bit_toNat f.dst
  have b2 := bit_toNat f.sat
  have b3 := bit_toNat f.clr
  have hr := f.ord.code_lt
  have hf : (Instr.mxOut f).check = none → (f.d < 64 ∧ f.z < 64 ∧ f.b < 64 ∧ f.c < 64) ∧ f.k < 32 ∧ f.ty < 16 ∧ f.rm < 4 ∧ f.r0 < 128 ∧
      f.nr < 128 ∧ f.c0 < 512 ∧ f.nc < 1024 ∧ f.vn < 2048 ∧ f.ord.scope < 6 := fun h => by
    simp only [Instr.check, firstFail_append, firstFail_cons, isS, isK, Bool.and_eq_true, decide_eq_true_eq] at h
    obtain ⟨⟨hreg, hlit, -, -⟩, ho⟩ := h
    have hs := Ordr.scope_of_checks ho
    omega
  refine of_cw rfl rfl (fun hc => ?_) fun hc w e m => ?_
  · obtain ⟨⟨hd, hz, hb, hcc⟩, hk, h1, h2, h3, h4, h5, h6, h7, hs⟩ := hf hc
    exact ⟨CR.fits_mk (hd := hd) (ha := hz) (hb := hb) (hc := hcc), by unfold Ordr.eord; omega⟩
  · obtain ⟨-, hk, h1, h2, h3, h4, h5, h6, h7, hs⟩ := hf hc
    have m' : fld w 58 6 = 0x16 := m
    set q := f.ord.eord + f.dst.toNat * 2 ^ 58 + f.ty * 2 ^ 54 + f.rm * 2 ^ 52 + f.sat.toNat * 2 ^ 51 + f.clr.toNat * 2 ^ 50 +
      f.r0 * 2 ^ 43 + f.nr * 2 ^ 36 + f.c0 * 2 ^ 27 + f.nc * 2 ^ 17 + f.k * 2 ^ 11 + f.vn with hq
    have e0 : eordOf q = f.ord := by
      rw [hq]; simp only [Nat.add_assoc]; exact eordOf_eord hs (by omega)
    unfold Ordr.eord at hq
    have e1 : bit q 58 = f.dst := bit_mk _ _ _ (by omega)
    have e2 : fld q 54 4 = f.ty := by unfold fld; omega
    have e3 : fld q 52 2 = f.rm := by unfold fld; omega
    have e4 : bit q 51 = f.sat := bit_mk _ _ _ (by omega)
    have e5 : bit q 50 = f.clr := bit_mk _ _ _ (by omega)
    have e6 : fld q 43 7 = f.r0 := by unfold fld; omega
    have e7 : fld q 36 7 = f.nr := by unfold fld; omega
    have e8 : fld q 27 9 = f.c0 := by unfold fld; omega
    have e9 : fld q 17 10 = f.nc := by unfold fld; omega
    have e10 : fld q 11 5 = f.k := by unfold fld; omega
    have e11 : fld q 0 11 = f.vn := by unfold fld; omega
    have e12 : fld q 16 1 = 0 := by unfold fld; omega
    simp [parseC, m', decMx, e, crBare, e0, e1, e2, e3, e4, e5, e6, e7, e8, e9, e10, e11, e12, give]

/-! ### MAJ 0x17: unmasking commands -/

/-- A `um.cfg` of mode `k` reads back its P64 (R359). -/
theorem umCfg_fields (f : UmCfgF) {k : Nat} (hk : k < 4) (h1 : f.seqlen < 131072) (h2 : f.bsz < 4) (h3 : f.nlayer < 512) (h4 : f.rnd < 4) :
    f.p64 k < 2 ^ 59 ∧ fld (f.p64 k) 57 2 = k ∧ fld (f.p64 k) 40 17 = f.seqlen ∧ fld (f.p64 k) 38 2 = f.bsz ∧
    fld (f.p64 k) 29 9 = f.nlayer ∧ fld (f.p64 k) 27 2 = f.rnd ∧ fld (f.p64 k) 59 5 = 0 ∧ fld (f.p64 k) 0 27 = 0 := by
  unfold UmCfgF.p64 fld; omega

theorem umCfg (f : UmCfgF) : ReadsBack (.umCfg f) := by
  have hf : (Instr.umCfg f).check = none → (f.d < 64 ∧ f.a < 64 ∧ f.b < 64) ∧ f.seqlen < 131072 ∧ f.bsz < 4 ∧ f.nlayer < 512 ∧ f.rnd < 4 :=
    fun h => by
    simp only [Instr.check, firstFail_cons, isS, Bool.and_eq_true, decide_eq_true_eq] at h
    omega
  refine of_cw rfl rfl (fun hc => ?_) fun hc w e m => ?_
  · obtain ⟨⟨hd, ha, hb⟩, h1, h2, h3, h4⟩ := hf hc
    exact ⟨CR.fits_mk (hd := hd) (ha := ha) (hb := hb), Nat.lt_trans (umCfg_fields f (by decide) h1 h2 h3 h4).1 (by decide)⟩
  · obtain ⟨-, h1, h2, h3, h4⟩ := hf hc
    obtain ⟨-, e1, e2, e3, e4, e5, e6, e7⟩ := umCfg_fields f (k := 0) (by decide) h1 h2 h3 h4
    have m' : fld w 58 6 = 0x17 := m
    simp [parseC, m', decUm, e, UmCfgF.cr, e1, e2, e3, e4, e5, e6, e7, give]

theorem umCfgShare (f : UmCfgF) : ReadsBack (.umCfgShare f) := by
  have hf : (Instr.umCfgShare f).check = none → (f.d < 64 ∧ f.a < 64 ∧ f.b < 64) ∧ f.seqlen < 131072 ∧ f.bsz < 4 ∧ f.nlayer < 512 ∧
      f.rnd < 4 := fun h => by
    simp only [Instr.check, firstFail_cons, isS, isZ, Bool.and_eq_true, decide_eq_true_eq, beq_iff_eq] at h
    omega
  refine of_cw rfl rfl (fun hc => ?_) fun hc w e m => ?_
  · obtain ⟨⟨hd, ha, hb⟩, h1, h2, h3, h4⟩ := hf hc
    exact ⟨CR.fits_mk (hd := hd) (ha := ha) (hb := hb), Nat.lt_trans (umCfg_fields f (by decide) h1 h2 h3 h4).1 (by decide)⟩
  · obtain ⟨-, h1, h2, h3, h4⟩ := hf hc
    obtain ⟨-, e1, e2, e3, e4, e5, e6, e7⟩ := umCfg_fields f (k := 2) (by decide) h1 h2 h3 h4
    have m' : fld w 58 6 = 0x17 := m
    simp [parseC, m', decUm, e, UmCfgF.cr, e1, e2, e3, e4, e5, e6, e7, give]

theorem umCfgRad (d a n r : Nat) : ReadsBack (.umCfgRad d a n r) := by
  have hf : (Instr.umCfgRad d a n r).check = none → d < 64 ∧ a < 256 ∧ n < 512 ∧ r < 16384 := fun h => by
    simp only [Instr.check, firstFail_cons, isS, Bool.and_eq_true, decide_eq_true_eq] at h
    omega
  refine of_cw rfl rfl (fun hc => ?_) fun hc w e m => ?_
  · obtain ⟨hd, ha, hn, hr⟩ := hf hc
    exact ⟨CR.fits_mk (hd := hd), by omega⟩
  · obtain ⟨-, ha, hn, hr⟩ := hf hc
    have m' : fld w 58 6 = 0x17 := m
    set q := 1 * 2 ^ 57 + a * 2 ^ 49 + n * 2 ^ 40 + r * 2 ^ 26 with hq
    have e1 : fld q 57 2 = 1 := by unfold fld; omega
    have e2 : fld q 49 8 = a := by unfold fld; omega
    have e3 : fld q 40 9 = n := by unfold fld; omega
    have e4 : fld q 26 14 = r := by unfold fld; omega
    have e5 : fld q 59 5 = 0 := by unfold fld; omega
    have e6 : fld q 0 26 = 0 := by unfold fld; omega
    simp [parseC, m', decUm, e, crBare, e1, e2, e3, e4, e5, e6, give]

/-- `um.rank` and `um.commit` (R359). -/
theorem of_umMem {i : Instr} {f : UmMemF} {mn : Nat} (he : encodeC i = [crWord (f.cr mn), f.ord.eord + f.k * 2 ^ 54]) (hv : vParts i = none)
    (hmn : mn < 256) (hc : i.check = firstFail ((isS f.d && isS f.a && isS f.b && isK f.k, .register) :: f.ord.checks))
    (hp : ∀ w p, crOf w = f.cr mn → eordOf p = f.ord → fld p 54 5 = f.k → fld p 0 54 = 0 → decUm w p = .ok (i, 2)) : ReadsBack i := by
  have hr := f.ord.code_lt
  have hf : i.check = none → f.d < 64 ∧ f.a < 64 ∧ f.b < 64 ∧ f.k < 32 ∧ f.ord.scope < 6 := fun h => by
    rw [hc, firstFail_cons] at h
    simp only [isS, isK, Bool.and_eq_true, decide_eq_true_eq] at h
    have hs := Ordr.scope_of_checks h.2
    omega
  refine of_cw he hv (fun h => ?_) fun h w e m => ?_
  · obtain ⟨hd, ha, hb, hk, hs⟩ := hf h
    exact ⟨CR.fits_mk (hmn := hmn) (hd := hd) (ha := ha) (hb := hb), by unfold Ordr.eord; omega⟩
  · obtain ⟨-, -, -, hk, hs⟩ := hf h
    have m' : fld w 58 6 = 0x17 := m
    simp only [parseC, m']
    exact hp w _ e (eordOf_eord hs (by omega)) (by unfold Ordr.eord fld; omega) (by unfold Ordr.eord fld; omega)

theorem umRank (f : UmMemF) : ReadsBack (.umRank f) := of_umMem rfl rfl (by decide) rfl fun w p e ho hk hz => by
  simp only [decUm, e, ho, hk, hz]; rfl
theorem umCommit (f : UmMemF) : ReadsBack (.umCommit f) := of_umMem rfl rfl (by decide) rfl fun w p e ho hk hz => by
  simp only [decUm, e, ho, hk, hz]; rfl

theorem umDnext (d : Nat) : ReadsBack (.umDnext d) :=
  of_cr rfl rfl (fun h => CR.fits_mk (hd := of_isS ((firstFail_cons _ _ _).1 h).1)) fun w p e m => by
    simp only [parseC, decUm, e, m, crBare]; rfl
theorem umDclr (a : Nat) (fe : Bool) : ReadsBack (.umDclr a fe) :=
  of_cr rfl rfl (fun h => CR.fits_mk (ha := of_isS ((firstFail_cons _ _ _).1 h).1)) fun w p e m => by
    simp only [parseC, decUm, e, m, crBare]; rfl

end ReadsBack
end Sys2Proof
end

section
set_option Elab.async false
namespace Sys2Proof
namespace ReadsBack

/-! ### V-words -/

theorem vld (f : VFields) : ReadsBack (.vld f) := of_v rfl rfl (by decide) rfl VFields.bounds_of_memChecks
theorem vst (f : VFields) : ReadsBack (.vst f) := of_v rfl rfl (by decide) rfl VFields.bounds_of_memChecks
theorem vgat (f : VFields) : ReadsBack (.vgat f) := of_v rfl rfl (by decide) rfl VFields.bounds_of_memChecks
theorem vsca (f : VFields) : ReadsBack (.vsca f) := of_v rfl rfl (by decide) rfl VFields.bounds_of_memChecks
theorem vldb (f : VFields) : ReadsBack (.vldb f) := of_v rfl rfl (by decide) rfl VFields.bounds_of_memChecks
theorem vstb (f : VFields) : ReadsBack (.vstb f) := of_v rfl rfl (by decide) rfl VFields.bounds_of_memChecks
theorem vadd (f : VFields) : ReadsBack (.vadd f) := of_v rfl rfl (by decide) rfl VFields.bounds_of_checks
theorem vsub (f : VFields) : ReadsBack (.vsub f) := of_v rfl rfl (by decide) rfl VFields.bounds_of_checks
theorem vmul (f : VFields) : ReadsBack (.vmul f) := of_v rfl rfl (by decide) rfl VFields.bounds_of_checks
theorem vmulh (f : VFields) : ReadsBack (.vmulh f) := of_v rfl rfl (by decide) rfl VFields.bounds_of_checks
theorem vmin (f : VFields) : ReadsBack (.vmin f) := of_v rfl rfl (by decide) rfl VFields.bounds_of_checks
theorem vmax (f : VFields) : ReadsBack (.vmax f) := of_v rfl rfl (by decide) rfl VFields.bounds_of_checks
theorem vabs (f : VFields) : ReadsBack (.vabs f) := of_v rfl rfl (by decide) rfl VFields.bounds_of_checks
theorem vneg (f : VFields) : ReadsBack (.vneg f) := of_v rfl rfl (by decide) rfl VFields.bounds_of_checks
theorem vand (f : VFields) : ReadsBack (.vand f) := of_v rfl rfl (by decide) rfl VFields.bounds_of_checks
theorem vor (f : VFields) : ReadsBack (.vor f) := of_v rfl rfl (by decide) rfl VFields.bounds_of_checks
theorem vxor (f : VFields) : ReadsBack (.vxor f) := of_v rfl rfl (by decide) rfl VFields.bounds_of_checks
theorem vnot (f : VFields) : ReadsBack (.vnot f) := of_v rfl rfl (by decide) rfl VFields.bounds_of_checks
theorem vshl (f : VFields) : ReadsBack (.vshl f) := of_v rfl rfl (by decide) rfl VFields.bounds_of_checks
theorem vshr (f : VFields) : ReadsBack (.vshr f) := of_v rfl rfl (by decide) rfl VFields.bounds_of_checks
theorem vclz (f : VFields) : ReadsBack (.vclz f) := of_v rfl rfl (by decide) rfl VFields.bounds_of_checks
theorem vpopc (f : VFields) : ReadsBack (.vpopc f) := of_v rfl rfl (by decide) rfl VFields.bounds_of_checks
theorem vsel (f : VFields) : ReadsBack (.vsel f) := of_v rfl rfl (by decide) rfl VFields.bounds_of_checks
theorem vfadd (f : VFields) : ReadsBack (.vfadd f) := of_v rfl rfl (by decide) rfl VFields.bounds_of_checks
theorem vfsub (f : VFields) : ReadsBack (.vfsub f) := of_v rfl rfl (by decide) rfl VFields.bounds_of_checks
theorem vfmul (f : VFields) : ReadsBack (.vfmul f) := of_v rfl rfl (by decide) rfl VFields.bounds_of_checks
theorem vfma (f : VFields) : ReadsBack (.vfma f) := of_v rfl rfl (by decide) rfl VFields.bounds_of_checks
theorem vfms (f : VFields) : ReadsBack (.vfms f) := of_v rfl rfl (by decide) rfl VFields.bounds_of_checks
theorem vfdiv (f : VFields) : ReadsBack (.vfdiv f) := of_v rfl rfl (by decide) rfl VFields.bounds_of_checks
theorem vfsqrt (f : VFields) : ReadsBack (.vfsqrt f) := of_v rfl rfl (by decide) rfl VFields.bounds_of_checks
theorem vfrcp (f : VFields) : ReadsBack (.vfrcp f) := of_v rfl rfl (by decide) rfl VFields.bounds_of_checks
theorem vfrsq (f : VFields) : ReadsBack (.vfrsq f) := of_v rfl rfl (by decide) rfl VFields.bounds_of_checks
theorem vfexp2 (f : VFields) : ReadsBack (.vfexp2 f) := of_v rfl rfl (by decide) rfl VFields.bounds_of_checks
theorem vflog2 (f : VFields) : ReadsBack (.vflog2 f) := of_v rfl rfl (by decide) rfl VFields.bounds_of_checks
theorem vfmin (f : VFields) : ReadsBack (.vfmin f) := of_v rfl rfl (by decide) rfl VFields.bounds_of_checks
theorem vfmax (f : VFields) : ReadsBack (.vfmax f) := of_v rfl rfl (by decide) rfl VFields.bounds_of_checks
theorem vfabs (f : VFields) : ReadsBack (.vfabs f) := of_v rfl rfl (by decide) rfl VFields.bounds_of_checks
theorem vfneg (f : VFields) : ReadsBack (.vfneg f) := of_v rfl rfl (by decide) rfl VFields.bounds_of_checks
theorem vcvt (f : VFields) : ReadsBack (.vcvt f) := of_v rfl rfl (by decide) rfl VFields.bounds_of_checks
theorem vcb (f : VFields) : ReadsBack (.vcb f) := of_v rfl rfl (by decide) rfl VFields.bounds_of_checks
theorem vunpack (f : VFields) : ReadsBack (.vunpack f) := of_v rfl rfl (by decide) rfl VFields.bounds_of_checks
theorem vamax (f : VFields) : ReadsBack (.vamax f) := of_v rfl rfl (by decide) rfl VFields.bounds_of_checks
theorem vred (f : VFields) : ReadsBack (.vred f) := of_v rfl rfl (by decide) rfl VFields.bounds_of_checks
theorem vperm (f : VFields) : ReadsBack (.vperm f) := of_v rfl rfl (by decide) rfl VFields.bounds_of_checks
theorem vtrns (f : VFields) : ReadsBack (.vtrns f) := of_v rfl rfl (by decide) rfl VFields.bounds_of_checks
theorem vslide (f : VFields) : ReadsBack (.vslide f) := of_v rfl rfl (by decide) rfl VFields.bounds_of_checks
theorem vcompress (f : VFields) : ReadsBack (.vcompress f) := of_v rfl rfl (by decide) rfl VFields.bounds_of_checks
theorem mpush (f : VFields) : ReadsBack (.mpush f) := of_v rfl rfl (by decide) rfl VFields.bounds_of_checks
theorem minv (f : VFields) : ReadsBack (.minv f) := of_v rfl rfl (by decide) rfl VFields.bounds_of_checks
theorem mpop (f : VFields) : ReadsBack (.mpop f) := of_v rfl rfl (by decide) rfl VFields.bounds_of_checks
theorem veos (f : VFields) : ReadsBack (.veos f) := of_v rfl rfl (by decide) rfl VFields.bounds_of_checks
theorem mcall (f : VFields) : ReadsBack (.mcall f) := of_v rfl rfl (by decide) rfl (fun h => ((firstFail_cons _ _ _).1 h).1)
theorem vnop (f : VFields) : ReadsBack (.vnop f) := of_v rfl rfl (by decide) rfl VFields.bounds_of_checks

/-- The words whose use, or whose immediate's width, depends on a MOD bit. -/
theorem bounds_of_ite {p : Prop} [Decidable p] {x y : Option Reject} {w : VFields} (h : (if p then x else y) = none)
    (hx : x = none → w.bounds = true) (hy : y = none → w.bounds = true) : w.bounds = true := by
  split at h
  · exact hx h
  · exact hy h

theorem vpack (f : VFields) : ReadsBack (.vpack f) :=
  of_v rfl rfl (by decide) rfl fun h => bounds_of_ite h nofun VFields.bounds_of_checks
theorem vbcast (f : VFields) : ReadsBack (.vbcast f) :=
  of_v rfl rfl (by decide) rfl fun h => bounds_of_ite h VFields.bounds_of_checks VFields.bounds_of_checks
theorem vskip (f : VFields) : ReadsBack (.vskip f) :=
  of_v rfl rfl (by decide) rfl fun h => bounds_of_ite h nofun VFields.bounds_of_checks

/-! ### Every instruction -/

/-- Every instruction reads back from its words; the last lines are those that have none. -/
theorem all : ∀ i : Instr, ReadsBack i
  | .nop => nop
  | .endTask => endTask
  | .yield => yield
  | .trap code => trap code
  | .csrr d csr => csrr d csr
  | .csrw a fea csr => csrw a fea csr
  | .rdts d => rdts d
  | .chk => chk
  | .cro disp => cro disp
  | .crc => crc
  | .ctxsave m => ctxsave m
  | .ctxrest m => ctxrest m
  | .stop a fea => stop a fea
  | .wcsld slot m => wcsld slot m
  | .add o => add o
  | .addImmediate o => addImmediate o
  | .sub o => sub o
  | .subImmediate o => subImmediate o
  | .mul o => mul o
  | .mulImmediate o => mulImmediate o
  | .mulhS o => mulhS o
  | .mulhSImmediate o => mulhSImmediate o
  | .mulhN o => mulhN o
  | .mulhNImmediate o => mulhNImmediate o
  | .divS o => divS o
  | .divSImmediate o => divSImmediate o
  | .divN o => divN o
  | .divNImmediate o => divNImmediate o
  | .remS o => remS o
  | .remSImmediate o => remSImmediate o
  | .remN o => remN o
  | .remNImmediate o => remNImmediate o
  | .and o => and o
  | .andImmediate o => andImmediate o
  | .or o => or o
  | .orImmediate o => orImmediate o
  | .xor o => xor o
  | .xorImmediate o => xorImmediate o
  | .andn o => andn o
  | .andnImmediate o => andnImmediate o
  | .shl o => shl o
  | .shlImmediate o => shlImmediate o
  | .shrS o => shrS o
  | .shrSImmediate o => shrSImmediate o
  | .shrN o => shrN o
  | .shrNImmediate o => shrNImmediate o
  | .rot o => rot o
  | .rotImmediate o => rotImmediate o
  | .clz o => clz o
  | .popc o => popc o
  | .minS o => minS o
  | .minSImmediate o => minSImmediate o
  | .minN o => minN o
  | .minNImmediate o => minNImmediate o
  | .maxS o => maxS o
  | .maxSImmediate o => maxSImmediate o
  | .maxN o => maxN o
  | .maxNImmediate o => maxNImmediate o
  | .sel o => sel o
  | .mov o => mov o
  | .sext o => sext o
  | .sextImmediate o => sextImmediate o
  | .zext o => zext o
  | .zextImmediate o => zextImmediate o
  | .bfx o => bfx o
  | .bfxImmediate o => bfxImmediate o
  | .bfi o => bfi o
  | .bfiImmediate o => bfiImmediate o
  | .pset d a fea wc add => pset d a fea wc add
  | .shape rows => shape rows
  | .lim d v => lim d v
  | .cset d f => cset d f
  | .br f disp => br f disp
  | .jmp disp => jmp disp
  | .call disp => call disp
  | .ret a fea => ret a fea
  | .brx a fea imm => brx a fea imm
  | .loop f => loop f
  | .lbrk lvl => lbrk lvl
  | .viss start count => viss start count
  | .swpl f => swpl f
  | .vsync l a q => vsync l a q
  | .ld f => ld f
  | .st f => st f
  | .amoAdd f => amoAdd f
  | .amoAnd f => amoAnd f
  | .amoOr f => amoOr f
  | .amoXor f => amoXor f
  | .amoMinS f => amoMinS f
  | .amoMaxS f => amoMaxS f
  | .amoMinN f => amoMinN f
  | .amoMaxN f => amoMaxN f
  | .amoSwap f => amoSwap f
  | .amoCas f => amoCas f
  | .amoFmaxF32 f => amoFmaxF32 f
  | .amoAmaxRr f => amoAmaxRr f
  | .fenceAcq u scope => fenceAcq u scope
  | .fenceRel u scope => fenceRel u scope
  | .fenceAr u scope => fenceAr u scope
  | .fenceSc u scope => fenceSc u scope
  | .xlat rights o => xlat rights o
  | .xlatTry rights o => xlatTry rights o
  | .tkchk o => tkchk o
  | .tkdrop o => tkdrop o
  | .tkmov o => tkmov o
  | .tksub o => tksub o
  | .tkinfo o => tkinfo o
  | .tkrevKill o => tkrevKill o
  | .tkrevMove o => tkrevMove o
  | .stashMap w m => stashMap w m
  | .stashUnmap w => stashUnmap w
  | .stashWb w => stashWb w
  | .stashInv w => stashInv w
  | .bar lvl scope => bar lvl scope
  | .futWait f => futWait f
  | .futPut f => futPut f
  | .futClr f => futClr f
  | .sigAdd f => sigAdd f
  | .sigSet f => sigSet f
  | .sigWait f => sigWait f
  | .sigRead f => sigRead f
  | .hset h a fea => hset h a fea
  | .harr h a fea => harr h a fea
  | .hwait h => hwait h
  | .hdrain h => hdrain h
  | .hfree h => hfree h
  | .hinfo d h => hinfo d h
  | .qpush o => qpush o
  | .qpop o => qpop o
  | .qtry o => qtry o
  | .qinfo o => qinfo o
  | .qbind o => qbind o
  | .cpyLvl lvl o => cpyLvl lvl o
  | .cpyGo f => cpyGo f
  | .cpyCancel h => cpyCancel h
  | .cpyStat d h => cpyStat d h
  | .mxLease => mxLease
  | .mxFree => mxFree
  | .mxCbtab f => mxCbtab f
  | .mxBld f => mxBld f
  | .mxBldMirror f => mxBldMirror f
  | .mxTld f => mxTld f
  | .mxMm f => mxMm f
  | .mxKat d n g sum => mxKat d n g sum
  | .mxZalloc d z => mxZalloc d z
  | .mxZfree z => mxZfree z
  | .mxZld f => mxZld f
  | .mxZst f => mxZst f
  | .mxZcpy d za zb => mxZcpy d za zb
  | .mxOut f => mxOut f
  | .umCfg f => umCfg f
  | .umCfgRad d l0 nl radius => umCfgRad d l0 nl radius
  | .umCfgShare f => umCfgShare f
  | .umRank f => umRank f
  | .umCommit f => umCommit f
  | .umDnext d => umDnext d
  | .umDclr a fea => umDclr a fea
  | .vld w => vld w
  | .vst w => vst w
  | .vgat w => vgat w
  | .vsca w => vsca w
  | .vldb w => vldb w
  | .vstb w => vstb w
  | .vadd w => vadd w
  | .vsub w => vsub w
  | .vmul w => vmul w
  | .vmulh w => vmulh w
  | .vmin w => vmin w
  | .vmax w => vmax w
  | .vabs w => vabs w
  | .vneg w => vneg w
  | .vand w => vand w
  | .vor w => vor w
  | .vxor w => vxor w
  | .vnot w => vnot w
  | .vshl w => vshl w
  | .vshr w => vshr w
  | .vclz w => vclz w
  | .vpopc w => vpopc w
  | .vsel w => vsel w
  | .vfadd w => vfadd w
  | .vfsub w => vfsub w
  | .vfmul w => vfmul w
  | .vfma w => vfma w
  | .vfms w => vfms w
  | .vfdiv w => vfdiv w
  | .vfsqrt w => vfsqrt w
  | .vfrcp w => vfrcp w
  | .vfrsq w => vfrsq w
  | .vfexp2 w => vfexp2 w
  | .vflog2 w => vflog2 w
  | .vfmin w => vfmin w
  | .vfmax w => vfmax w
  | .vfabs w => vfabs w
  | .vfneg w => vfneg w
  | .vcvt w => vcvt w
  | .vcb w => vcb w
  | .vpack w => vpack w
  | .vunpack w => vunpack w
  | .vamax w => vamax w
  | .vred w => vred w
  | .vperm w => vperm w
  | .vtrns w => vtrns w
  | .vbcast w => vbcast w
  | .vslide w => vslide w
  | .vcompress w => vcompress w
  | .mpush w => mpush w
  | .minv w => minv w
  | .mpop w => mpop w
  | .vskip w => vskip w
  | .veos w => veos w
  | .mcall w => mcall w
  | .vnop w => vnop w
  | .nopPacket _ => of_none rfl rfl
  | .launchPacket _ _ => of_none rfl rfl
  | .graphPacket _ _ => of_none rfl rfl
  | .waitPacket _ _ _ => of_none rfl rfl
  | .signalPacket _ _ _ _ _ => of_none rfl rfl
  | .revokePacket _ _ _ _ _ => of_none rfl rfl
  | .rd _ _ => of_none rfl rfl
  | .wr _ _ _ => of_none rfl rfl
  | .wrm _ _ _ _ => of_none rfl rfl
  | .reservedOp _ _ => of_none rfl rfl
  | .baromFlit _ _ => of_none rfl rfl
  | .moduleReset => of_none rfl rfl
  | .thermalTrip _ => of_none rfl rfl
  | .linkTrain _ _ => of_none rfl rfl
  | .loadComplete _ _ => of_none rfl rfl
  | .amoReply _ _ => of_none rfl rfl
  | .xlatComplete _ _ => of_none rfl rfl
  | .barrierRelease _ _ _ => of_none rfl rfl
  | .futReleasePush _ => of_none rfl rfl
  | .futParkRetry _ => of_none rfl rfl
  | .sigWaitRelease _ => of_none rfl rfl
  | .handleDrainFree _ _ => of_none rfl rfl
  | .queueResolve _ _ => of_none rfl rfl
  | .refillLand _ _ => of_none rfl rfl
  | .recordDelivery _ => of_none rfl rfl
  | .queueFaultTrap _ _ => of_none rfl rfl
  | .copyCommandStart _ => of_none rfl rfl
  | .copyEmit _ => of_none rfl rfl
  | .copyComplete _ => of_none rfl rfl
  | .copyCommandComplete _ => of_none rfl rfl
  | .leaseGrant _ => of_none rfl rfl
  | .mxAccept _ => of_none rfl rfl
  | .mxStep _ => of_none rfl rfl
  | .mxStatusFill _ => of_none rfl rfl
  | .umStatusFill _ => of_none rfl rfl
  | .vwordFill _ _ => of_none rfl rfl
  | .vwordIllegalTrap _ => of_none rfl rfl
  | .deadlock _ => of_none rfl rfl
  | .iterboundBreach _ => of_none rfl rfl
  | .taskDispatch _ => of_none rfl rfl
  | .taskStart _ => of_none rfl rfl
  | .groupDeliver _ => of_none rfl rfl
  | .taskEndComplete _ => of_none rfl rfl
  | .taskRetire _ => of_none rfl rfl
  | .stopHonour _ => of_none rfl rfl
  | .stopTokenPass _ _ => of_none rfl rfl
  | .contextSaveComplete _ => of_none rfl rfl
  | .urgentStop _ _ => of_none rfl rfl
  | .launchSeal _ => of_none rfl rfl
  | .launchRunning _ => of_none rfl rfl
  | .initialRecordPush _ => of_none rfl rfl
  | .launchDone _ => of_none rfl rfl
  | .bootDoor _ => of_none rfl rfl
  | .gafferSample _ => of_none rfl rfl
  | .gafferMove _ => of_none rfl rfl
  | .forcedPublish _ _ _ => of_none rfl rfl
  | .sweep _ _ => of_none rfl rfl
  | .revokeDrainEnd _ => of_none rfl rfl
  | .sweepDone _ => of_none rfl rfl
  | .deadUnpin _ => of_none rfl rfl
  | .deadHoldExpire _ => of_none rfl rfl
  | .forwardRelease _ => of_none rfl rfl
  | .savedContextWalk _ _ => of_none rfl rfl
  | .hostHdmWrite _ _ => of_none rfl rfl
  | .hostHdmRead _ _ => of_none rfl rfl
  | .ringEnable _ => of_none rfl rfl
  | .ringDisable _ => of_none rfl rfl
  | .ringPoll _ => of_none rfl rfl
  | .packetFetch _ => of_none rfl rfl
  | .ringUnpark _ => of_none rfl rfl
  | .journalAppend => of_none rfl rfl
  | .dataReply _ _ _ => of_none rfl rfl
  | .acknowledgement _ _ _ => of_none rfl rfl
  | .redundantCompare _ _ => of_none rfl rfl
  | .redmisTimeout _ _ => of_none rfl rfl
  | .scrubVisit _ => of_none rfl rfl
  | .lehrAdjust _ => of_none rfl rfl
  | .wearRecordRequest _ => of_none rfl rfl
  | .writeReachesHome _ _ => of_none rfl rfl
  | .storeAcknowledged _ _ => of_none rfl rfl
  | .hostLinkDown _ => of_none rfl rfl
  | .managementMailboxRequest _ => of_none rfl rfl

end ReadsBack

/-- Settles O59: the encoder's words, layout by layout, hold every field of a well-formed instruction, and the decoder's tables
are read at the same codes. -/
theorem wordsRoundTrip : Obligations.WordsRoundTrip := ReadsBack.all

end Sys2Proof
end

section
set_option Elab.async false
/-! SUPPORT. The scalar operations of R115: what an instruction of either form comes to, and what each result is. -/

namespace Sys2Proof.Machine

/-! ### Issuing an operation -/

/-- An instruction that reads its sources and returns one scalar completes with that scalar. -/
theorem scalarResult_of_ret {i : Instr} {l : List Src} {d n : Nat} {s : State} {P : Word → Prop} (v : State → Word)
    (he : exec i s = issue i s l (fun s => .next (s.ret d n (v s)))) (hd : i.check = none → d < 64) (hn : 0 < n)
    (hv : P (v (s.upd (fun x => x.touch s.ctx l)))) : ScalarResult i l d n s P := fun hw hm =>
  have hr := State.ret_writes s l (v (s.upd (fun x => x.touch s.ctx l))) (hd (by simpa [Instr.wf] using hw)) hn
  ⟨_, _, by rw [he, issue_ready hm], hv, hr.1, hr.2⟩

/-- The destination of a register form is a scalar (R47, R54). -/
theorem dest_of_roles {o : AluR} {a b c : Char} (h : firstFail (o.roles 'w' a b c) = none) : o.d < 64 := by
  simp only [AluR.roles, firstFail_cons, Bool.and_eq_true] at h
  obtain ⟨⟨⟨⟨hd, -⟩, -⟩, -⟩, -⟩ := h
  simpa [isS] using hd

/-- The destination of an immediate form is a scalar (R47, R54). -/
theorem dest_of_imm {o : AluI} {l : List (Bool × Reject)} (h : firstFail ((isS o.d && isS o.a, .register) :: l) = none) : o.d < 64 := by
  rw [firstFail_cons, Bool.and_eq_true] at h
  exact ReadsBack.of_isS h.1.1

/-- Both forms of an operation whose result on every a and b is as `P` says. -/
theorem bothForms {reg : AluR → Instr} {imm : AluI → Instr} {P : Word → Word → Word → Prop} (f : Word → Word → Word)
    (hr : ∀ o s, exec (reg o) s = aluReg (reg o) o f s) (hi : ∀ o s, exec (imm o) s = aluImm (imm o) o f s)
    (cr : ∀ o, (reg o).check = firstFail (o.roles 'w' 's' 's' 'z')) (ci : ∀ o, (imm o).check = firstFail [(isS o.d && isS o.a, .register)])
    (hP : ∀ a b, P a b (f a b)) : BothForms reg imm P := fun s =>
  ⟨fun o => scalarResult_of_ret (fun s => f (s.sc o.a) (s.sc o.b)) (hr o s) (fun h => dest_of_roles ((cr o).symm.trans h)) Nat.one_pos
      (by simpa using hP (s.sc o.a) (s.sc o.b)),
   fun o => scalarResult_of_ret (fun s => f (s.sc o.a) (o.imm.signExtend 64)) (hi o s) (fun h => dest_of_imm ((ci o).symm.trans h)) Nat.one_pos
      (by simpa using hP (s.sc o.a) (o.imm.signExtend 64))⟩

/-- The form of an operation that reads a alone. -/
theorem oneForm {reg : AluR → Instr} {P : Word → Word → Prop} (f : Word → Word) (hr : ∀ o s, exec (reg o) s = aluOne (reg o) o f s)
    (cr : ∀ o, (reg o).check = firstFail (o.roles 'w' 's' 'z' 'z')) (hP : ∀ a, P a (f a)) : OneForm reg P := fun s o =>
  scalarResult_of_ret (fun s => f (s.sc o.a)) (hr o s) (fun h => dest_of_roles ((cr o).symm.trans h)) Nat.one_pos
    (by simpa using hP (s.sc o.a))

/-! ### Sums, products and quotients -/

theorem aluAdd_eq (a b : Word) : aluAdd a b = Word.wrap (a.toInt + b.toInt) := by
  rw [aluAdd, Word.wrap, BitVec.ofInt_add, BitVec.ofInt_toInt, BitVec.ofInt_toInt]

theorem aluSub_eq (a b : Word) : aluSub a b = Word.wrap (a.toInt - b.toInt) := by
  rw [aluSub, Word.wrap, Int.sub_eq_add_neg, BitVec.ofInt_add, BitVec.ofInt_neg, BitVec.ofInt_toInt, BitVec.ofInt_toInt, BitVec.sub_eq_add_neg]

theorem aluMul_eq (a b : Word) : aluMul a b = Word.wrap (a.toInt * b.toInt) := by
  rw [aluMul, Word.wrap, BitVec.ofInt_mul, BitVec.ofInt_toInt, BitVec.ofInt_toInt]

/-- A number in the range of a signed word is kept by wrapping. -/
theorem wrap_toInt {x : Int} (h : -2 ^ 63 ≤ x) (h' : x < 2 ^ 63) : (Word.wrap x).toInt = x := by
  rw [Word.wrap, BitVec.toInt_ofInt]
  exact Int.bmod_eq_of_le (by omega) (by omega)

theorem word_toInt_bounds (a : Word) : -2 ^ 63 ≤ a.toInt ∧ a.toInt < 2 ^ 63 := by
  have h1 := a.le_toInt
  have h2 := a.toInt_lt
  simp at h1 h2
  constructor <;> omega

theorem mul_bounds {x y : Int} (hx : -2 ^ 63 ≤ x ∧ x < 2 ^ 63) (hy : -2 ^ 63 ≤ y ∧ y < 2 ^ 63) : -2 ^ 126 ≤ x * y ∧ x * y ≤ 2 ^ 126 := by
  constructor <;> nlinarith [hx.1, hx.2, hy.1, hy.2]

theorem aluMulhS_toInt (a b : Word) : (aluMulhS a b).toInt = a.toInt * b.toInt / 2 ^ 64 := by
  obtain ⟨h1, h2⟩ := mul_bounds (word_toInt_bounds a) (word_toInt_bounds b)
  rw [aluMulhS, Int.fdiv_eq_ediv_of_nonneg _ (by decide)]
  exact wrap_toInt (by omega) (by omega)

theorem aluMulhN_toNat (a b : Word) : (aluMulhN a b).toNat = a.toNat * b.toNat / 2 ^ 64 := by
  have h : a.toNat * b.toNat < 2 ^ 64 * 2 ^ 64 := Nat.mul_lt_mul_of_lt_of_lt a.isLt b.isLt
  rw [aluMulhN, BitVec.toNat_ofNat]
  exact Nat.mod_eq_of_lt (by omega)

theorem toInt_ne_zero {b : Word} (h : b ≠ 0#64) : b.toInt ≠ 0 := fun e => h (BitVec.eq_of_toInt_eq (by simpa using e))

/-- A truncated quotient is no larger than its dividend, and 2⁶³ only for −2⁶³ by −1. -/
theorem tdiv_bounds {x y : Int} (hx : -2 ^ 63 ≤ x ∧ x < 2 ^ 63) (hy : y ≠ 0) (hxy : ¬(x = -2 ^ 63 ∧ y = -1)) :
    -2 ^ 63 ≤ Int.tdiv x y ∧ Int.tdiv x y < 2 ^ 63 := by
  have hle : (Int.tdiv x y).natAbs ≤ x.natAbs := by rw [Int.natAbs_tdiv]; exact Nat.div_le_self _ _
  refine ⟨by omega, ?_⟩
  by_contra hc
  have hx' : x = -2 ^ 63 := by omega
  have ha : x.natAbs / y.natAbs = (Int.tdiv x y).natAbs := (Int.natAbs_tdiv x y).symm
  have h1 : x.natAbs = 2 ^ 63 := by omega
  have hy1 : y.natAbs = 1 := by
    by_contra h
    have : 2 ≤ y.natAbs := by omega
    have := Nat.div_le_div_left this (by decide : 0 < 2) (a := x.natAbs)
    omega
  have hy' : y = 1 ∨ y = -1 := by omega
  rcases hy' with rfl | rfl
  · rw [Int.tdiv_one] at hc; omega
  · exact hxy ⟨hx', rfl⟩

theorem aluDivS_spec (a b : Word) : if b = 0#64 then aluDivS a b = BitVec.allOnes 64
    else if a.toInt = -2 ^ 63 ∧ b.toInt = -1 then (aluDivS a b).toInt = -2 ^ 63
    else (aluDivS a b).toInt = Int.tdiv a.toInt b.toInt := by
  unfold aluDivS
  split
  · rfl
  · next hb =>
    split
    · next h => rw [h.1, h.2]; decide
    · next h =>
      obtain ⟨h1, h2⟩ := tdiv_bounds (word_toInt_bounds a) (toInt_ne_zero hb) h
      exact wrap_toInt h1 h2

theorem aluRemS_spec (a b : Word) : if b = 0#64 then aluRemS a b = a
    else if a.toInt = -2 ^ 63 ∧ b.toInt = -1 then aluRemS a b = 0#64
    else (aluRemS a b).toInt = a.toInt - b.toInt * Int.tdiv a.toInt b.toInt := by
  unfold aluRemS
  split
  · rfl
  · next hb =>
    split
    · next h => rw [h.1, h.2]; decide
    · next h =>
      rw [← Int.tmod_def]
      have hle : (Int.tmod a.toInt b.toInt).natAbs ≤ a.toInt.natAbs := by rw [Int.natAbs_tmod]; exact Nat.mod_le _ _
      have hlt : (Int.tmod a.toInt b.toInt).natAbs < b.toInt.natAbs := by
        rw [Int.natAbs_tmod]; exact Nat.mod_lt _ (by have := toInt_ne_zero hb; omega)
      have ha := word_toInt_bounds a
      have hb' := word_toInt_bounds b
      exact wrap_toInt (by omega) (by omega)

theorem aluDivN_spec (a b : Word) :
    if b = 0#64 then aluDivN a b = BitVec.allOnes 64 else (aluDivN a b).toNat = a.toNat / b.toNat := by
  unfold aluDivN
  split
  · rfl
  · rw [BitVec.toNat_ofNat]; exact Nat.mod_eq_of_lt (Nat.lt_of_le_of_lt (Nat.div_le_self _ _) a.isLt)

theorem aluRemN_spec (a b : Word) : if b = 0#64 then aluRemN a b = a else (aluRemN a b).toNat = a.toNat % b.toNat := by
  unfold aluRemN
  split
  · rfl
  · rw [BitVec.toNat_ofNat]; exact Nat.mod_eq_of_lt (Nat.lt_of_le_of_lt (Nat.mod_le _ _) a.isLt)

end Sys2Proof.Machine

namespace Sys2Proof

open Machine

/-- Settles O1: both forms of an operation return its function of a and b, which is the exact result in each case of R115. -/
theorem scalarArithmetic : Obligations.ScalarArithmetic :=
  ⟨bothForms aluAdd (fun _ _ => rfl) (fun _ _ => rfl) (fun _ => rfl) (fun _ => rfl) aluAdd_eq,
   bothForms aluSub (fun _ _ => rfl) (fun _ _ => rfl) (fun _ => rfl) (fun _ => rfl) aluSub_eq,
   bothForms aluMul (fun _ _ => rfl) (fun _ _ => rfl) (fun _ => rfl) (fun _ => rfl) aluMul_eq,
   bothForms aluMulhS (fun _ _ => rfl) (fun _ _ => rfl) (fun _ => rfl) (fun _ => rfl) aluMulhS_toInt,
   bothForms aluMulhN (fun _ _ => rfl) (fun _ _ => rfl) (fun _ => rfl) (fun _ => rfl) aluMulhN_toNat,
   bothForms aluDivS (fun _ _ => rfl) (fun _ _ => rfl) (fun _ => rfl) (fun _ => rfl) aluDivS_spec,
   bothForms aluRemS (fun _ _ => rfl) (fun _ _ => rfl) (fun _ => rfl) (fun _ => rfl) aluRemS_spec,
   bothForms aluDivN (fun _ _ => rfl) (fun _ _ => rfl) (fun _ => rfl) (fun _ => rfl) aluDivN_spec,
   bothForms aluRemN (fun _ _ => rfl) (fun _ _ => rfl) (fun _ => rfl) (fun _ => rfl) aluRemN_spec⟩

end Sys2Proof
end

section
set_option Elab.async false
/-! SUPPORT. Logic, shifts, selection, counts and bit fields of R115, bit by bit. -/

namespace Sys2Proof.Machine

/-! ### Logic and shifts -/

theorem aluAnd_bit (a b : Word) : ∀ k, k < 64 → (aluAnd a b).getLsbD k = (a.getLsbD k && b.getLsbD k) := fun _ _ => BitVec.getLsbD_and
theorem aluOr_bit (a b : Word) : ∀ k, k < 64 → (aluOr a b).getLsbD k = (a.getLsbD k || b.getLsbD k) := fun _ _ => BitVec.getLsbD_or
theorem aluXor_bit (a b : Word) : ∀ k, k < 64 → (aluXor a b).getLsbD k = (a.getLsbD k != b.getLsbD k) := fun _ _ => BitVec.getLsbD_xor
theorem aluAndn_bit (a b : Word) : ∀ k, k < 64 → (aluAndn a b).getLsbD k = (a.getLsbD k && !b.getLsbD k) := fun k hk => by
  simp [aluAndn, hk]

theorem aluShl_bit (a b : Word) : ∀ k, k < 64 → (aluShl a b).getLsbD k = (decide (b.toNat ≤ k) && a.getLsbD (k - b.toNat)) := fun k hk => by
  unfold aluShl
  split
  · next h => simp [Nat.lt_of_lt_of_le hk h]
  · rw [BitVec.getLsbD_shiftLeft, decide_eq_true hk, Bool.true_and, ← decide_not]
    simp only [Nat.not_lt]

theorem aluShrS_bit (a b : Word) : ∀ k, k < 64 → (aluShrS a b).getLsbD k = a.getLsbD (min (k + b.toNat) 63) := fun k hk => by
  unfold aluShrS
  split
  · next h =>
    rw [Nat.min_eq_right (by omega), ← BitVec.msb_eq_getLsbD_last]
    cases a.msb
    · exact BitVec.getLsbD_zero
    · exact (BitVec.getLsbD_allOnes).trans (decide_eq_true hk)
  · rw [BitVec.getLsbD_sshiftRight]
    by_cases h : b.toNat + k < 64
    · simp [h, Nat.not_le.2 hk, Nat.add_comm k, Nat.min_eq_left (Nat.le_of_lt_succ h)]
    · rw [Nat.min_eq_right (by omega), ← BitVec.msb_eq_getLsbD_last]
      simp [h, Nat.not_le.2 hk]

theorem aluShrN_bit (a b : Word) : ∀ k, k < 64 →
    (aluShrN a b).getLsbD k = (decide (k + b.toNat < 64) && a.getLsbD (k + b.toNat)) := fun k hk => by
  unfold aluShrN
  split
  · next h => simp; intro h'; omega
  · rw [BitVec.getLsbD_ushiftRight, Nat.add_comm k]
    by_cases h : b.toNat + k < 64
    · simp [h]
    · simp [h, BitVec.getLsbD_of_ge a _ (Nat.not_lt.1 h)]

theorem aluRot_bit (a b : Word) : ∀ k, k < 64 → (aluRot a b).getLsbD ((k + b.toNat) % 64) = a.getLsbD k := fun k hk => by
  unfold aluRot
  rw [BitVec.getLsbD_rotateLeft, Nat.mod_mod, Bool.cond_decide]
  split
  · next h => congr 1; omega
  · next h =>
    have h64 : (k + b.toNat) % 64 < 64 := Nat.mod_lt _ (by decide)
    rw [decide_eq_true h64, Bool.true_and]
    congr 1; omega

/-! ### Selection and counts -/

theorem aluMinS_spec (a b : Word) : (aluMinS a b = a ∨ aluMinS a b = b) ∧ (aluMinS a b).toInt ≤ a.toInt ∧ (aluMinS a b).toInt ≤ b.toInt := by
  unfold aluMinS
  split
  · next h => exact ⟨.inl rfl, le_refl _, h⟩
  · next h => exact ⟨.inr rfl, Int.le_of_lt (Int.not_le.1 h), le_refl _⟩

theorem aluMinN_spec (a b : Word) : (aluMinN a b = a ∨ aluMinN a b = b) ∧ (aluMinN a b).toNat ≤ a.toNat ∧ (aluMinN a b).toNat ≤ b.toNat := by
  unfold aluMinN
  split
  · next h => exact ⟨.inl rfl, le_refl _, h⟩
  · next h => exact ⟨.inr rfl, Nat.le_of_lt (Nat.not_le.1 h), le_refl _⟩

theorem aluMaxS_spec (a b : Word) : (aluMaxS a b = a ∨ aluMaxS a b = b) ∧ a.toInt ≤ (aluMaxS a b).toInt ∧ b.toInt ≤ (aluMaxS a b).toInt := by
  unfold aluMaxS
  split
  · next h => exact ⟨.inr rfl, h, le_refl _⟩
  · next h => exact ⟨.inl rfl, le_refl _, Int.le_of_lt (Int.not_le.1 h)⟩

theorem aluMaxN_spec (a b : Word) : (aluMaxN a b = a ∨ aluMaxN a b = b) ∧ a.toNat ≤ (aluMaxN a b).toNat ∧ b.toNat ≤ (aluMaxN a b).toNat := by
  unfold aluMaxN
  split
  · next h => exact ⟨.inr rfl, h, le_refl _⟩
  · next h => exact ⟨.inl rfl, le_refl _, Nat.le_of_lt (Nat.not_le.1 h)⟩

theorem aluClz_spec (a : Word) : (aluClz a).toNat ≤ 64 ∧ a.toNat < 2 ^ (64 - (aluClz a).toNat) ∧
    ((aluClz a).toNat < 64 → 2 ^ (63 - (aluClz a).toNat) ≤ a.toNat) := by
  unfold aluClz
  split
  · next h => subst h; decide
  · next h =>
    have hne : a.toNat ≠ 0 := fun e => h (BitVec.eq_of_toNat_eq (by simpa using e))
    have hlog : a.toNat.log2 < 64 := (Nat.log2_lt hne).2 a.isLt
    have hv : (BitVec.ofNat 64 (63 - a.toNat.log2)).toNat = 63 - a.toNat.log2 := by
      rw [BitVec.toNat_ofNat]; exact Nat.mod_eq_of_lt (by omega)
    rw [hv]
    have e1 : 64 - (63 - a.toNat.log2) = a.toNat.log2 + 1 := by omega
    have e2 : 63 - (63 - a.toNat.log2) = a.toNat.log2 := by omega
    rw [e1, e2]
    exact ⟨by omega, Nat.lt_log2_self, fun _ => Nat.log2_self_le hne⟩

theorem aluPopc_toNat (a : Word) : (aluPopc a).toNat = (List.range 64).countP (fun k => a.getLsbD k) := by
  rw [aluPopc, BitVec.toNat_ofNat, ← List.countP_eq_length_filter]
  exact Nat.mod_eq_of_lt (Nat.lt_of_le_of_lt List.countP_le_length (by simp))

/-! ### Extensions and bit fields -/

theorem word_toNat_pos {b : Word} (h : b ≠ 0#64) : 0 < b.toNat := Nat.pos_of_ne_zero fun e => h (BitVec.eq_of_toNat_eq (by simpa using e))

theorem aluSext_bit (a b : Word) : ∀ k, k < 64 →
    (aluSext a b).getLsbD k = (b != 0#64 && a.getLsbD (min k (min b.toNat 64 - 1))) := fun k hk => by
  unfold aluSext
  split
  · next h => simp [h]
  · next h =>
    have hp := word_toNat_pos h
    have hb : (b != 0#64) = true := by simpa using h
    rw [hb, Bool.true_and]
    split
    · next h' => congr 1; omega
    · next h' =>
      rw [BitVec.getLsbD_signExtend, decide_eq_true hk, Bool.true_and]
      split
      · next hkb => rw [BitVec.getLsbD_setWidth, decide_eq_true hkb, Bool.true_and]; congr 1; omega
      · next hkb =>
        rw [BitVec.msb_eq_getLsbD_last, BitVec.getLsbD_setWidth, decide_eq_true (by omega), Bool.true_and]; congr 1; omega

theorem aluZext_bit (a b : Word) : ∀ k, k < 64 → (aluZext a b).getLsbD k = (decide (k < b.toNat) && a.getLsbD k) := fun k hk => by
  unfold aluZext
  split
  · next h => simp [h]
  · split
    · next h' => rw [decide_eq_true (Nat.lt_of_lt_of_le hk h'), Bool.true_and]
    · simp [BitVec.getLsbD_setWidth, hk]

theorem lowOnes_bit (n k : Nat) (hk : k < 64) : (lowOnes n).getLsbD k = decide (k < n) := by
  unfold lowOnes
  rw [BitVec.getLsbD_ofNat, decide_eq_true hk, Bool.true_and, Nat.testBit_two_pow_sub_one]
  simp [hk]

theorem aluBfx_bit (a : Word) (pos wid : Nat) : ∀ k, k < 64 → (aluBfx a pos wid).getLsbD k = bfxBit a pos wid k := fun k hk => by
  unfold aluBfx bfxBit
  split
  · next h => simp [Nat.not_lt.2 h]
  · next h =>
    rw [BitVec.getLsbD_and, BitVec.getLsbD_ushiftRight, lowOnes_bit _ _ hk, decide_eq_true (Nat.not_le.1 h), Bool.and_true, Bool.and_comm]

theorem aluBfi_bit (old a : Word) (pos wid : Nat) : ∀ k, k < 64 → (aluBfi old a pos wid).getLsbD k = bfiBit old a pos wid k := fun k hk => by
  unfold aluBfi bfiBit
  split
  · next h => rw [if_neg (by omega)]
  · next h =>
    simp only [BitVec.getLsbD_or, BitVec.getLsbD_and, BitVec.getLsbD_not, BitVec.getLsbD_shiftLeft, decide_eq_true hk, Bool.true_and]
    by_cases hp : pos ≤ k
    · rw [lowOnes_bit _ _ (by omega)]
      by_cases hw : k < pos + wid
      · rw [if_pos ⟨hp, hw, by omega⟩]; simp [Nat.not_lt.2 hp, show k - pos < wid by omega]
      · rw [if_neg (by omega)]; simp [show ¬ k - pos < wid by omega]
    · rw [if_neg (by omega)]; simp [Nat.not_le.1 hp]

end Sys2Proof.Machine

namespace Sys2Proof

open Machine

/-- Settles O2: the result of either form, read bit by bit. -/
theorem scalarLogicAndShifts : Obligations.ScalarLogicAndShifts :=
  ⟨bothForms aluAnd (fun _ _ => rfl) (fun _ _ => rfl) (fun _ => rfl) (fun _ => rfl) aluAnd_bit,
   bothForms aluOr (fun _ _ => rfl) (fun _ _ => rfl) (fun _ => rfl) (fun _ => rfl) aluOr_bit,
   bothForms aluXor (fun _ _ => rfl) (fun _ _ => rfl) (fun _ => rfl) (fun _ => rfl) aluXor_bit,
   bothForms aluAndn (fun _ _ => rfl) (fun _ _ => rfl) (fun _ => rfl) (fun _ => rfl) aluAndn_bit,
   bothForms aluShl (fun _ _ => rfl) (fun _ _ => rfl) (fun _ => rfl) (fun _ => rfl) aluShl_bit,
   bothForms aluShrS (fun _ _ => rfl) (fun _ _ => rfl) (fun _ => rfl) (fun _ => rfl) aluShrS_bit,
   bothForms aluShrN (fun _ _ => rfl) (fun _ _ => rfl) (fun _ => rfl) (fun _ => rfl) aluShrN_bit,
   bothForms aluRot (fun _ _ => rfl) (fun _ _ => rfl) (fun _ => rfl) (fun _ => rfl) aluRot_bit⟩

/-- Settles O3: the results of the remaining operations of R115; `sel`, `bfx` and `bfi` read sC, sD or the fields of IMM37 beside. -/
theorem scalarSelectionCountsAndFields : Obligations.ScalarSelectionCountsAndFields := by
  refine ⟨⟨bothForms aluMinS (fun _ _ => rfl) (fun _ _ => rfl) (fun _ => rfl) (fun _ => rfl) aluMinS_spec,
    bothForms aluMinN (fun _ _ => rfl) (fun _ _ => rfl) (fun _ => rfl) (fun _ => rfl) aluMinN_spec,
    bothForms aluMaxS (fun _ _ => rfl) (fun _ _ => rfl) (fun _ => rfl) (fun _ => rfl) aluMaxS_spec,
    bothForms aluMaxN (fun _ _ => rfl) (fun _ _ => rfl) (fun _ => rfl) (fun _ => rfl) aluMaxN_spec,
    oneForm id (fun _ _ => rfl) (fun _ => rfl) (fun _ => rfl),
    oneForm aluClz (fun _ _ => rfl) (fun _ => rfl) aluClz_spec,
    oneForm aluPopc (fun _ _ => rfl) (fun _ => rfl) aluPopc_toNat, fun s o => ?sel⟩,
    bothForms aluSext (fun _ _ => rfl) (fun _ _ => rfl) (fun _ => rfl) (fun _ => rfl) aluSext_bit,
    bothForms aluZext (fun _ _ => rfl) (fun _ _ => rfl) (fun _ => rfl) (fun _ => rfl) aluZext_bit,
    fun s o => ?bfx, fun s o => ?bfi, fun s o => ?bfxImm, fun s o => ?bfiImm⟩
  case sel =>
    refine scalarResult_of_ret (fun s => if s.sc o.c ≠ 0#64 then s.sc o.a else s.sc o.b) rfl dest_of_roles Nat.one_pos ?_
    simp only [State.sc_upd_touch, ne_eq, ite_not]
  case bfx =>
    refine scalarResult_of_ret (fun s => aluBfx (s.sc o.a) (s.sc o.b).toNat (s.sc o.c).toNat) rfl dest_of_roles Nat.one_pos ?_
    simpa only [State.sc_upd_touch] using aluBfx_bit _ _ _
  case bfi =>
    refine scalarResult_of_ret (fun s => aluBfi (s.sc o.d) (s.sc o.a) (s.sc o.b).toNat (s.sc o.c).toNat) rfl dest_of_roles Nat.one_pos ?_
    simpa only [State.sc_upd_touch] using aluBfi_bit _ _ _ _
  case bfxImm =>
    refine scalarResult_of_ret (fun s => aluBfx (s.sc o.a) (fld o.imm.toNat 0 6) (fld o.imm.toNat 6 7)) rfl dest_of_imm Nat.one_pos ?_
    simpa [fld] using aluBfx_bit (s.sc o.a) (fld o.imm.toNat 0 6) (fld o.imm.toNat 6 7)
  case bfiImm =>
    refine scalarResult_of_ret (fun s => aluBfi (s.sc o.d) (s.sc o.a) (fld o.imm.toNat 0 6) (fld o.imm.toNat 6 7)) rfl dest_of_imm Nat.one_pos ?_
    simpa [fld] using aluBfi_bit (s.sc o.d) (s.sc o.a) (fld o.imm.toNat 0 6) (fld o.imm.toNat 6 7)

end Sys2Proof
end

section
set_option Elab.async false
/-! SUPPORT. How a word goes on once it has done its work, and the words of constants, count predicates, the shape and the control and
status registers. -/

namespace Sys2Proof.Machine

/-! ### Going on after the word's work -/

section Done
variable {s u : State} {n : Nat}

theorem State.done_core (hcur : u.cur = s.cur) (hctx : u.ctx = s.ctx) : (u.done n).core s.cur = (u.core s.cur).next s.ctx n := by
  rw [← hcur, ← hctx]; exact State.core_upd u _

/-- The running core after its word has gone on. -/
theorem State.core_done (u : State) (n : Nat) {c : Nat} (h : c = u.cur) : (u.done n).core c = (u.core c).next u.ctx n := by
  subst h; exact State.core_upd u _

theorem State.done_core_other {c : Nat} (hcur : u.cur = s.cur) (h : c ≠ s.cur) : (u.done n).core c = u.core c :=
  State.core_upd_other u _ (hcur ▸ h)

/-- A word that has left its context where it stood moves past itself (R46, R123). -/
theorem State.done_passes (hcur : u.cur = s.cur) (hctx : u.ctx = s.ctx) (hn : 0 < n)
    (hpc : (u.core s.cur).q.pcOf s.ctx = s.me.q.pcOf s.ctx) (hl : (u.core s.cur).q.loops = s.me.q.loops)
    (ht : (u.core s.cur).q.tact = s.me.q.tact) : Passes s (u.done n) n := fun h => by
  rw [State.done_core hcur hctx, ← hpc]
  refine Core.next_pc _ _ _ hn ?_
  have hloop : ∀ l, (u.core s.cur).q.loop l = s.me.q.loop l := fun l => by rw [Seq.loop, hl, Seq.loop]
  rw [ht, hpc]
  simpa only [hloop] using h

theorem OnlyCore.done (h : OnlyCore s.cur s u) : OnlyCore s.cur s (u.done n) :=
  OnlyCore.trans h (h.cur_eq ▸ State.upd_only u _)

/-- A word that changes the running core and not where its context stands, and then goes on. -/
theorem State.upd_done (s : State) (l : List Src) (f : Core → Core) (hn : 0 < n) (hf : ∀ x, (f x).q = x.q) :
    OnlyCore s.cur s (((s.read l).upd f).done n) ∧ Passes s (((s.read l).upd f).done n) n ∧
      (((s.read l).upd f).done n).core s.cur = (f (s.me.touch s.ctx l)).next s.ctx n := by
  have hc := State.read_upd_core s l f
  have hq : (((s.read l).upd f).core s.cur).q = s.me.q := by rw [hc, hf]; rfl
  refine ⟨OnlyCore.done (State.read_upd_only s l f), State.done_passes rfl rfl hn ?_ ?_ ?_, ?_⟩
  · rw [hq]
  · rw [hq]
  · rw [hq]
  · exact (State.done_core (s := s) (u := (s.read l).upd f) rfl rfl).trans (by rw [hc])

end Done

/-! ### `lim`, `pset` and `shape` -/

theorem lim_result (s : State) (d : Nat) (v : Word) : ScalarResult (.lim d v) [] d 2 s (fun w => w = v) :=
  scalarResult_of_ret (fun _ => v) rfl (fun h => ReadsBack.of_isS ((firstFail_cons _ _ _).1 h).1) (by decide) rfl

/-- Count predicate `d` is written, with the mark it carried. -/
def Core.putP (x : Core) (d : Nat) (v : Pred) : Core :=
  { x with r := { x.r with p := Sparse.set {} x.r.p d v, bad := Sparse.set 0 x.r.bad (pGran d) 0 } }

theorem CoreKept.putP {x y : Core} (h : CoreKept x y) (d : Nat) (v : Pred) : CoreKept x (y.putP d v) :=
  ⟨by rw [Core.putP, h.rest], h.engines, h.place⟩

theorem exec_pset_ready {s : State} {d a : Nat} {fea : Bool} {wc add : Nat} (hm : MayIssue (.pset d a fea wc add) [.s a fea] s) :
    exec (.pset d a fea wc add) s = .next (if d = 0 then (s.read [.s a fea]).done 1
      else ((s.read [.s a fea]).upd (fun x => x.putP d { count := min ((s.sc a).toNat + add) 768, width := wc })).done 1) := by
  calc exec (.pset d a fea wc add) s = execPset d a fea wc add s := rfl
    _ = _ := issue_ready hm _
    _ = _ := by rw [State.sc_upd_touch]; split <;> rfl

theorem pset_result (s : State) (d a : Nat) (fea : Bool) (wc add : Nat) : WordResult (.pset d a fea wc add) [.s a fea] s (fun t =>
    OnlyCore s.cur s t ∧ Passes s t 1 ∧ CoreKept s.me (t.core s.cur) ∧
    (t.core s.cur).r = { s.me.r with p := (t.core s.cur).r.p, bad := (t.core s.cur).r.bad } ∧
    (∀ g, g ≠ pGran d → Sparse.get 0 (t.core s.cur).r.bad g = Sparse.get 0 s.me.r.bad g) ∧
    (d ≠ 0 → Sparse.get 0 (t.core s.cur).r.bad (pGran d) = 0) ∧
    (∀ p, (t.core s.cur).rdP p = if p = d ∧ d ≠ 0 then { count := min ((s.sc a).toNat + add) 768, width := wc }
      else s.me.rdP p)) := fun _ hm => by
  refine ⟨_, exec_pset_ready hm, ?_⟩
  by_cases hd : d = 0
  · obtain ⟨hq, hp⟩ := State.done_quiet s [.s a fea] Nat.one_pos
    simp only [hd, if_true]
    refine ⟨hq.only, hp, hq.core, by rw [hq.regs], fun g _ => by rw [hq.regs], nofun, fun p => ?_⟩
    simp [Core.rdP, hq.regs]
  · simp only [hd, if_false]
    obtain ⟨honly, hp, hc⟩ := State.upd_done s [.s a fea] (fun x => x.putP d { count := min ((s.sc a).toNat + add) 768, width := wc })
      Nat.one_pos fun _ => rfl
    rw [hc]
    refine ⟨honly, hp, CoreKept.next (CoreKept.putP (Core.touch_kept _ _ _) _ _) _ _, rfl, fun g hg => ?_, fun _ => ?_, fun p => ?_⟩
    · show Sparse.get 0 (Sparse.set 0 s.me.r.bad (pGran d) 0) g = _
      exact Sparse.get_set_other _ _ _ hg
    · show Sparse.get 0 (Sparse.set 0 s.me.r.bad (pGran d) 0) (pGran d) = 0
      exact Sparse.get_set_same _ _ _ _
    · show Sparse.get {} (Sparse.set {} s.me.r.p d _) p = _
      by_cases hpd : p = d
      · subst hpd; rw [Sparse.get_set_same, if_pos ⟨rfl, hd⟩]
      · rw [Sparse.get_set_other _ _ _ hpd, if_neg (fun h => hpd h.1)]; rfl

theorem shape_result (s : State) (rows : Nat) : WordResult (.shape rows) [] s (fun t =>
    OnlyCore s.cur s t ∧ Passes s t 1 ∧ (t.core s.cur).r = s.me.r ∧
    t.core s.cur = { s.me with c := { s.me.c with rows := rows }, q := (t.core s.cur).q } ∧
    t.csrRead 0x020 = BitVec.ofNat 64 rows) := fun _ hm => by
  obtain ⟨honly, hp, hc⟩ := State.upd_done s [] (fun x => { x with c := { x.c with rows := rows } }) Nat.one_pos fun _ => rfl
  have he : exec (.shape rows) s = .next (((s.read []).upd (fun x => { x with c := { x.c with rows := rows } })).done 1) :=
    (show exec (.shape rows) s = execShape rows s from rfl).trans (issue_ready hm _)
  refine ⟨_, he, honly, hp, by rw [hc]; rfl, by rw [hc, Core.touch_nil]; rfl, ?_⟩
  show BitVec.ofNat 64 (State.core _ s.cur).c.rows = _
  rw [hc]; rfl

/-! ### `csrr` and `rdts` -/

/-- A word whose value fits below 2⁶⁴ is that number. -/
theorem toNat_word {n : Nat} (h : n < 2 ^ 64) : (BitVec.ofNat 64 n).toNat = n := by
  rw [BitVec.toNat_ofNat]; exact Nat.mod_eq_of_lt h

theorem Seq.ldepth_le (q : Seq) : q.ldepth ≤ 6 := (List.length_filter_le _ _).trans (by simp)

/-- CTXID field by field (R98). -/
theorem ctxid_fields (x : Core) {ctx : Nat} (h : ctx < 4) :
    (x.ctxid ctx).getLsbD 34 = x.q.tact ∧ (x.ctxid ctx).getLsbD 33 = x.q.priv ∧ (x.ctxid ctx >>> 35).toNat = x.q.ldepth ∧
    (x.ctxid ctx >>> 30 &&& 7#64).toNat = ctx ∧ x.ctxid ctx &&& 0x3FFFFFFF#64 = 0#64 := by
  have hl := x.q.ldepth_le
  have ht := bit_toNat x.q.tact
  have hp := bit_toNat x.q.priv
  set w := x.q.ldepth * 2 ^ 35 + x.q.tact.toNat * 2 ^ 34 + x.q.priv.toNat * 2 ^ 33 + ctx * 2 ^ 30 with hw
  have hv : (x.ctxid ctx).toNat = w := toNat_word (by omega)
  refine ⟨?_, ?_, ?_, ?_, BitVec.eq_of_toNat_eq ?_⟩
  · rw [← BitVec.testBit_toNat, hv, Nat.testBit_eq_decide_div_mod_eq]
    cases hb : x.q.tact <;> simp [hb] at hw ht ⊢ <;> omega
  · rw [← BitVec.testBit_toNat, hv, Nat.testBit_eq_decide_div_mod_eq]
    cases hb : x.q.priv <;> simp [hb] at hw hp ⊢ <;> omega
  · rw [BitVec.toNat_ushiftRight, hv, Nat.shiftRight_eq_div_pow]; omega
  · rw [BitVec.toNat_and, BitVec.toNat_ushiftRight, hv, Nat.shiftRight_eq_div_pow]
    rw [show BitVec.toNat 7#64 = 2 ^ 3 - 1 from rfl, Nat.and_two_pow_sub_one_eq_mod]; omega
  · rw [BitVec.toNat_and, hv]
    rw [show BitVec.toNat 0x3FFFFFFF#64 = 2 ^ 30 - 1 from rfl, Nat.and_two_pow_sub_one_eq_mod]
    show w % 2 ^ 30 = 0
    omega

/-- What a word reads of a control and status register is the same after its sources are read (R131). -/
theorem csrRead_read (s : State) (n : Nat) : (s.read []).csrRead n = s.csrRead n := by
  have hme : (s.read []).me = s.me := by rw [State.read_me, Core.touch_nil]
  unfold State.csrRead
  simp only [hme]
  rfl

theorem csrr_result (s : State) (d n : Nat) : ScalarResult (.csrr d n) [] d 1 s (fun v => v = s.csrRead n) :=
  scalarResult_of_ret (fun s => s.csrRead n) rfl (fun h => ReadsBack.of_isS ((firstFail_cons _ _ _).1 h).1) Nat.one_pos (csrRead_read s n)

theorem ScalarResult.imp {i : Instr} {l : List Src} {d n : Nat} {s : State} {P Q : Word → Prop} (h : ScalarResult i l d n s P)
    (hPQ : ∀ v, P v → Q v) : ScalarResult i l d n s Q := fun hw hm =>
  have ⟨t, v, he, hv, hr⟩ := h hw hm
  ⟨t, v, he, hPQ v hv, hr⟩

/-- What `csrRead` returns, register by register (R17, R18, R98, R125, R131, R211, R266, R274, R341). -/
theorem csrRead_spec (s : State) (n : Nat) :
    (n = 0x000 → s.csrRead n = s.cfg.idWord s.cur) ∧ (n = 0x001 → s.csrRead n = s.cfg.cfgWord s.cur) ∧
    (n = 0x002 → (s.csrRead n).toNat = s.me.c.fpcr.toNat) ∧ (n = 0x003 → (s.csrRead n).toNat = s.me.c.fpsr.toNat) ∧
    (n = 0x004 → s.csrRead n = s.me.c.kstat) ∧ (n = 0x005 → s.csrRead n = s.me.c.tcause) ∧ (n = 0x006 → s.csrRead n = s.me.c.tpc) ∧
    (n = 0x007 → s.csrRead n = s.me.c.tinfo) ∧ (n = 0x008 → s.csrRead n = BitVec.ofNat 64 s.me.c.tvec) ∧
    (0x010 ≤ n → n ≤ 0x015 → (s.csrRead n).toNat = (Sparse.get 0#12 s.me.c.lsd (n - 0x010)).toNat) ∧
    (0x018 ≤ n → n ≤ 0x01D → (s.csrRead n).toNat = (Sparse.get 0#32 s.me.c.lso (n - 0x018)).toNat) ∧
    (n = 0x020 → s.csrRead n = BitVec.ofNat 64 s.me.c.rows) ∧ (n = 0x021 → s.csrRead n = s.me.c.stage) ∧
    (n = 0x022 → s.csrRead n = BitVec.ofNat 64 s.me.c.prio) ∧
    (n = 0x023 → s.ctx < 4 → (s.csrRead n).getLsbD 34 = s.me.q.tact ∧ (s.csrRead n).getLsbD 33 = s.me.q.priv ∧
      (s.csrRead n >>> 35).toNat = ((List.range 6).filter (fun l => (s.me.q.loop l).act)).length ∧
      (s.csrRead n >>> 30 &&& 7#64).toNat = s.ctx ∧ s.csrRead n &&& 0x3FFFFFFF#64 = 0#64) ∧
    (n = 0x024 → s.csrRead n = BitVec.ofNat 64 s.me.q.regions.length) ∧
    (0x038 ≤ n → n ≤ 0x03D → s.csrRead n = if (s.me.q.loop (n - 0x038)).act then BitVec.ofNat 64 (s.me.q.loop (n - 0x038)).idx else 0#64) := by
  refine ⟨?_, ?_, ?_, ?_, ?_, ?_, ?_, ?_, ?_, ?lsd, ?lso, ?_, ?_, ?_, ?ctxid, ?_, ?loops⟩
  case lsd =>
    intro h1 h2
    have e : s.csrRead n = (Sparse.get 0#12 s.me.c.lsd (n - 0x010)).zeroExtend 64 := by
      unfold State.csrRead
      rw [if_neg (by omega), if_neg (by omega), if_neg (by omega), if_neg (by omega), if_neg (by omega), if_neg (by omega),
        if_neg (by omega), if_neg (by omega), if_neg (by omega), if_pos ⟨h1, h2⟩]
    rw [e]; exact BitVec.toNat_setWidth_of_le (by decide)
  case lso =>
    intro h1 h2
    have e : s.csrRead n = (Sparse.get 0#32 s.me.c.lso (n - 0x018)).zeroExtend 64 := by
      unfold State.csrRead
      rw [if_neg (by omega), if_neg (by omega), if_neg (by omega), if_neg (by omega), if_neg (by omega), if_neg (by omega),
        if_neg (by omega), if_neg (by omega), if_neg (by omega), if_neg (by omega), if_pos ⟨h1, h2⟩]
    rw [e]; exact BitVec.toNat_setWidth_of_le (by decide)
  case ctxid =>
    rintro rfl h
    exact ctxid_fields s.me h
  case loops =>
    intro h1 h2
    have h0 : ∀ k, k < 0x038 → n ≠ k := fun k hk => by omega
    unfold State.csrRead
    simp only [h0 _ (by decide : 0 < 0x038), h0 _ (by decide : 1 < 0x038), h0 _ (by decide : 2 < 0x038), h0 _ (by decide : 3 < 0x038),
      h0 _ (by decide : 4 < 0x038), h0 _ (by decide : 5 < 0x038), h0 _ (by decide : 6 < 0x038), h0 _ (by decide : 7 < 0x038),
      h0 _ (by decide : 8 < 0x038), h0 _ (by decide : 0x020 < 0x038), h0 _ (by decide : 0x021 < 0x038), h0 _ (by decide : 0x022 < 0x038),
      h0 _ (by decide : 0x023 < 0x038), h0 _ (by decide : 0x024 < 0x038), h0 _ (by decide : 0x030 < 0x038), h0 _ (by decide : 0x031 < 0x038),
      h0 _ (by decide : 0x032 < 0x038), h0 _ (by decide : 0x033 < 0x038), if_false]
    rw [if_neg (by omega), if_neg (by omega), if_pos ⟨h1, h2⟩]
    split <;> rfl
  all_goals
    rintro rfl
  case refine_3 => exact BitVec.toNat_setWidth_of_le (show 4 ≤ 64 by decide)
  case refine_4 => exact BitVec.toNat_setWidth_of_le (show 6 ≤ 64 by decide)
  all_goals rfl

/-- The readings of any two cores at one moment are within 2 of each other (R1, R132). -/
theorem gts_near (s : State) (c d : Nat) : s.gts c ≤ s.gts d + 2 := by
  unfold State.gts; omega

theorem gts_mono {s t : State} (c : Nat) (h : s.now ≤ t.now) : s.gts c ≤ t.gts c := by
  unfold State.gts; omega

theorem rdts_result (s : State) (d : Nat) : ScalarResult (.rdts d) [] d 1 s (fun v => v = BitVec.ofNat 64 (s.gts s.cur)) :=
  scalarResult_of_ret (fun s => BitVec.ofNat 64 (s.gts s.cur)) rfl (fun h => ReadsBack.of_isS ((firstFail_cons _ _ _).1 h).1) Nat.one_pos rfl

end Sys2Proof.Machine

namespace Sys2Proof

open Machine

/-- Settles O4: each word writes its register and passes; p0 takes no write (R6). -/
theorem constantsCountsAndShape : Obligations.ConstantsCountsAndShape :=
  ⟨lim_result, by decide, pset_result, by decide, shape_result, by decide⟩

/-- Settles O10: `csrr` returns `csrRead`, which reads each register, CTXID field by field; two readings of the time stamp differ by
the cores' fixed distances. -/
theorem controlRegistersRead : Obligations.ControlRegistersRead := by
  refine ⟨fun s d n => ScalarResult.imp (csrr_result s d n) ?_, rdts_result, gts_near, fun _ _ => gts_mono, by decide⟩
  rintro _ rfl
  exact csrRead_spec s n

/-- Settles O57: the state of a reset lists no core, no byte and no entry, so each reads as an untouched one. -/
theorem resetState : Obligations.ResetState := by
  refine ⟨by decide, by decide, fun c => ?_, fun c => ⟨rfl, rfl, rfl, rfl⟩, fun e => ⟨rfl, rfl⟩, fun pa => rfl, rfl⟩
  refine ⟨rfl, rfl, rfl, fun _ => rfl, rfl, fun ctx r => ⟨?_, ?_, ?_, ?_⟩, fun r => ⟨rfl, rfl, rfl⟩, rfl, rfl, rfl, fun q => ?_, rfl, rfl, rfl,
    rfl, rfl⟩
  · unfold Core.rdS; split <;> rfl
  · unfold Core.sMarks; split <;> rfl
  · unfold Core.rdK; split <;> rfl
  · unfold Core.kMarks; split <;> rfl
  · unfold Vu.queue; split_ifs <;> rfl

/-- Settles O60: each word is decoded. -/
theorem decodeExamples : Obligations.DecodeExamples :=
  ⟨by decide, by decide, by decide, by decide, by decide, by decide, by decide, by decide, by decide, by decide, by decide, by decide,
    by decide⟩

end Sys2Proof
end

section
set_option Elab.async false
/-! SUPPORT. What `csrw` writes, and what every other control and status register reads afterwards (R131). -/

namespace Sys2Proof.Machine

/-- A field of the low bits of a word, read back (R131). -/
theorem word_mod_eq_and (v : Word) {k : Nat} (h : k ≤ 64) : BitVec.ofNat 64 (v.toNat % 2 ^ k) = v &&& BitVec.ofNat 64 (2 ^ k - 1) := by
  have h1 : 2 ^ k ≤ 2 ^ 64 := Nat.pow_le_pow_right (by decide) h
  have h2 : 0 < 2 ^ k := Nat.two_pow_pos k
  apply BitVec.eq_of_toNat_eq
  rw [BitVec.toNat_and, toNat_word (Nat.lt_of_lt_of_le (Nat.mod_lt _ h2) h1), toNat_word (n := 2 ^ k - 1) (by omega),
    Nat.and_two_pow_sub_one_eq_mod]

theorem truncate_extend (v : Word) {k : Nat} (h : k ≤ 64) : (v.truncate k).zeroExtend 64 = v &&& BitVec.ofNat 64 (2 ^ k - 1) := by
  rw [← word_mod_eq_and v h]
  apply BitVec.eq_of_toNat_eq
  rw [BitVec.toNat_setWidth_of_le h, BitVec.toNat_setWidth, toNat_word]
  exact Nat.lt_of_lt_of_le (Nat.mod_lt _ (Nat.two_pow_pos k)) (Nat.pow_le_pow_right (by decide) h)

/-! ### What a write is -/

/-- The control and status registers that `csrw` writes (R56, R131). -/
theorem csrWritable_cases {n : Nat} (h : csrWritable n = true) : (2 ≤ n ∧ n ≤ 8) ∨ (0x010 ≤ n ∧ n ≤ 0x015) ∨ (0x018 ≤ n ∧ n ≤ 0x01D) ∨
    n = 0x020 ∨ (0x030 ≤ n ∧ n ≤ 0x033) := by
  simp only [csrWritable, csrKnown, Bool.and_eq_true, Bool.or_eq_true, Bool.not_eq_true', Bool.or_eq_false_iff, decide_eq_true_eq,
    decide_eq_false_iff_not, Bool.and_eq_false_iff] at h
  omega

section Write
variable (s : State) {n : Nat} (v : Word)

theorem csrWrite_lsd (h : 0x010 ≤ n ∧ n ≤ 0x015) : s.csrWrite n v =
    s.upd (fun x => { x with c := { x.c with lsd := Sparse.set 0#12 x.c.lsd (n - 0x010) (v.truncate 12) } }) := by
  unfold State.csrWrite
  rw [if_neg (by omega), if_neg (by omega), if_neg (by omega), if_neg (by omega), if_neg (by omega), if_neg (by omega),
    if_neg (by omega), if_pos h]

theorem csrWrite_lso (h : 0x018 ≤ n ∧ n ≤ 0x01D) : s.csrWrite n v =
    s.upd (fun x => { x with c := { x.c with lso := Sparse.set 0#32 x.c.lso (n - 0x018) (v.truncate 32) } }) := by
  unfold State.csrWrite
  rw [if_neg (by omega), if_neg (by omega), if_neg (by omega), if_neg (by omega), if_neg (by omega), if_neg (by omega),
    if_neg (by omega), if_neg (by omega), if_pos h]

/-- Either a control and status register of the running core alone is written, or one of its pane or Marver, and no core. -/
theorem csrWrite_cases (hn : csrWritable n = true) :
    (∃ f : Csrs → Csrs, s.csrWrite n v = s.upd (fun x => { x with c := f x.c })) ∨
    (∃ gint gthr age mx, s.csrWrite n v = { s with d := { s.d with gint := gint, gthr := gthr, age := age }, mx := mx }) := by
  rcases csrWritable_cases hn with h | h | h | rfl | h
  · refine .inl ?_
    obtain rfl | rfl | rfl | rfl | rfl | rfl | rfl : n = 2 ∨ n = 3 ∨ n = 4 ∨ n = 5 ∨ n = 6 ∨ n = 7 ∨ n = 8 := by omega
    · exact ⟨fun r => { r with fpcr := v.truncate 4 }, rfl⟩
    · exact ⟨fun r => { r with fpsr := v.truncate 6 }, rfl⟩
    · exact ⟨fun r => { r with kstat := kstatFields v }, rfl⟩
    · exact ⟨fun r => { r with tcause := tcauseFields v }, rfl⟩
    · exact ⟨fun r => { r with tpc := v }, rfl⟩
    · exact ⟨fun r => { r with tinfo := tinfoFields v }, rfl⟩
    · exact ⟨fun r => { r with tvec := v.toNat % 2 ^ 15 }, rfl⟩
  · exact .inl ⟨fun r => { r with lsd := Sparse.set 0#12 r.lsd (n - 0x010) (v.truncate 12) }, csrWrite_lsd s v h⟩
  · exact .inl ⟨fun r => { r with lso := Sparse.set 0#32 r.lso (n - 0x018) (v.truncate 32) }, csrWrite_lso s v h⟩
  · exact .inl ⟨fun r => { r with rows := v.toNat % 8 }, rfl⟩
  · refine .inr ?_
    obtain rfl | rfl | rfl | rfl : n = 0x030 ∨ n = 0x031 ∨ n = 0x032 ∨ n = 0x033 := by omega
    · exact ⟨Sparse.set 4096 s.d.gint (s.cfg.paneOf s.cur) (v.toNat % 2 ^ 20), s.d.gthr, s.d.age, s.mx, rfl⟩
    · exact ⟨s.d.gint, Sparse.set 32 s.d.gthr (s.cfg.paneOf s.cur) (v.toNat % 128), s.d.age, s.mx, rfl⟩
    · exact ⟨s.d.gint, s.d.gthr, Sparse.set 8 s.d.age (s.cfg.paneOf s.cur) (v.toNat % 256), s.mx, rfl⟩
    · exact ⟨s.d.gint, s.d.gthr, s.d.age, _, rfl⟩

/-! ### What a write leaves alone -/

theorem csrWrite_rest (hn : csrWritable n = true) :
    s.csrWrite n v = { s with cores := (s.csrWrite n v).cores, d := (s.csrWrite n v).d, mx := (s.csrWrite n v).mx } := by
  rcases csrWrite_cases s v hn with ⟨f, h⟩ | ⟨gint, gthr, age, mx, h⟩
  · rw [h]; rfl
  · rw [h]

theorem csrWrite_me (hn : csrWritable n = true) : (s.csrWrite n v).core s.cur = { s.me with c := ((s.csrWrite n v).core s.cur).c } := by
  rcases csrWrite_cases s v hn with ⟨f, h⟩ | ⟨gint, gthr, age, mx, h⟩
  · rw [h, State.core_upd]
  · rw [h]; rfl

theorem csrWrite_other (hn : csrWritable n = true) {c : Nat} (hc : c ≠ s.cur) : (s.csrWrite n v).core c = s.core c := by
  rcases csrWrite_cases s v hn with ⟨f, h⟩ | ⟨gint, gthr, age, mx, h⟩
  · rw [h, State.core_upd_other s _ hc]
  · rw [h]; rfl

theorem csrWrite_d (hn : csrWritable n = true) : (s.csrWrite n v).d =
    { s.d with gint := (s.csrWrite n v).d.gint, gthr := (s.csrWrite n v).d.gthr, age := (s.csrWrite n v).d.age } := by
  rcases csrWrite_cases s v hn with ⟨f, h⟩ | ⟨gint, gthr, age, mx, h⟩
  · rw [h]; rfl
  · rw [h]

end Write

/-- What `csrRead` reads but for CTXID and the loop indices. -/
theorem csrRead_congr {s t : State} {m : Nat} (hm : m < 0x034) (hx : m ≠ 0x023) (hcfg : t.cfg = s.cfg) (hcur : t.cur = s.cur)
    (hc : t.me.c = s.me.c) (hr : t.me.q.regions = s.me.q.regions) (hd : t.d = s.d) (hmx : t.mx = s.mx) : t.csrRead m = s.csrRead m := by
  have h : ¬(0x038 ≤ m ∧ m ≤ 0x03D) := by omega
  unfold State.csrRead State.marver
  simp only [hcfg, hcur, hc, hr, hd, hmx, hx, h, if_false]

/-! ### What reads as written -/

/-- A written register reads back the bits its fields hold (R131). -/
theorem csrRead_csrWrite_same (s : State) {n : Nat} (v : Word) (hn : csrWritable n = true) :
    (s.csrWrite n v).csrRead n = v &&& csrFields n := by
  rcases csrWritable_cases hn with h | h | h | rfl | h
  · obtain rfl | rfl | rfl | rfl | rfl | rfl | rfl : n = 2 ∨ n = 3 ∨ n = 4 ∨ n = 5 ∨ n = 6 ∨ n = 7 ∨ n = 8 := by omega
    · simpa [State.csrWrite, State.csrRead, csrFields] using truncate_extend v (k := 4) (by decide)
    · simpa [State.csrWrite, State.csrRead, csrFields] using truncate_extend v (k := 6) (by decide)
    · simp [State.csrWrite, State.csrRead, csrFields, kstatFields]
    · simp [State.csrWrite, State.csrRead, csrFields, tcauseFields]
    · simpa [State.csrWrite, State.csrRead, csrFields] using (BitVec.and_allOnes (x := v)).symm
    · simp [State.csrWrite, State.csrRead, csrFields, tinfoFields]
    · simpa [State.csrWrite, State.csrRead, csrFields] using word_mod_eq_and v (k := 15) (by decide)
  · have hw := csrWrite_lsd s v h
    have hf : csrFields n = 0xFFF#64 := by
      unfold csrFields
      rw [if_neg (by omega), if_neg (by omega), if_neg (by omega), if_neg (by omega), if_neg (by omega), if_neg (by omega),
        if_neg (by omega), if_pos (by omega)]
    apply BitVec.eq_of_toNat_eq
    obtain ⟨-, -, -, -, -, -, -, -, -, hread, -⟩ := csrRead_spec (s.csrWrite n v) n
    rw [hread h.1 h.2, hf, hw, State.me_upd, Sparse.get_set_same]
    exact (BitVec.toNat_setWidth_of_le (show 12 ≤ 64 by decide)).symm.trans (congrArg BitVec.toNat (truncate_extend v (by decide)))
  · have hw := csrWrite_lso s v h
    have hf : csrFields n = 0xFFFFFFFF#64 := by
      unfold csrFields
      rw [if_neg (by omega), if_neg (by omega), if_neg (by omega), if_neg (by omega), if_neg (by omega), if_neg (by omega),
        if_neg (by omega), if_neg (by omega), if_pos (by omega)]
    apply BitVec.eq_of_toNat_eq
    obtain ⟨-, -, -, -, -, -, -, -, -, -, hread, -⟩ := csrRead_spec (s.csrWrite n v) n
    rw [hread h.1 h.2, hf, hw, State.me_upd, Sparse.get_set_same]
    exact (BitVec.toNat_setWidth_of_le (show 32 ≤ 64 by decide)).symm.trans (congrArg BitVec.toNat (truncate_extend v (by decide)))
  · simpa [State.csrWrite, State.csrRead, csrFields] using word_mod_eq_and v (k := 3) (by decide)
  · obtain rfl | rfl | rfl | rfl : n = 0x030 ∨ n = 0x031 ∨ n = 0x032 ∨ n = 0x033 := by omega
    · simpa [State.csrWrite, State.csrRead, csrFields] using word_mod_eq_and v (k := 20) (by decide)
    · simpa [State.csrWrite, State.csrRead, csrFields] using word_mod_eq_and v (k := 7) (by decide)
    · simpa [State.csrWrite, State.csrRead, csrFields] using word_mod_eq_and v (k := 8) (by decide)
    · simpa [State.csrWrite, State.csrRead, csrFields, State.marver, State.setMarver] using word_mod_eq_and v (k := 9) (by decide)

/-- A write leaves every other register as it reads. -/
theorem csrRead_csrWrite_other (s : State) {n m : Nat} (v : Word) (hn : csrWritable n = true) (h : m ≠ n) (hm : m < 0x034) :
    (s.csrWrite n v).csrRead m = s.csrRead m := by
  have hh : ¬(0x038 ≤ m ∧ m ≤ 0x03D) := by omega
  rcases csrWritable_cases hn with hn | hn | hn | rfl | hn
  · obtain rfl | rfl | rfl | rfl | rfl | rfl | rfl : n = 2 ∨ n = 3 ∨ n = 4 ∨ n = 5 ∨ n = 6 ∨ n = 7 ∨ n = 8 := by omega
    all_goals simp [State.csrWrite, State.csrRead, State.marver, h, hh, Core.ctxid]
  · by_cases hl : 0x010 ≤ m ∧ m ≤ 0x015
    · obtain ⟨-, -, -, -, -, -, -, -, -, h1, -⟩ := csrRead_spec (s.csrWrite n v) m
      obtain ⟨-, -, -, -, -, -, -, -, -, h2, -⟩ := csrRead_spec s m
      apply BitVec.eq_of_toNat_eq
      rw [h1 hl.1 hl.2, h2 hl.1 hl.2, csrWrite_lsd s v hn, State.me_upd, Sparse.get_set_other _ _ _ (by omega)]
    · simp [csrWrite_lsd s v hn, State.csrRead, State.marver, hl, hh, Core.ctxid]
  · by_cases hl : 0x018 ≤ m ∧ m ≤ 0x01D
    · obtain ⟨-, -, -, -, -, -, -, -, -, -, h1, -⟩ := csrRead_spec (s.csrWrite n v) m
      obtain ⟨-, -, -, -, -, -, -, -, -, -, h2, -⟩ := csrRead_spec s m
      apply BitVec.eq_of_toNat_eq
      rw [h1 hl.1 hl.2, h2 hl.1 hl.2, csrWrite_lso s v hn, State.me_upd, Sparse.get_set_other _ _ _ (by omega)]
    · simp [csrWrite_lso s v hn, State.csrRead, State.marver, hl, hh, Core.ctxid]
  · simp [State.csrWrite, State.csrRead, State.marver, h, hh, Core.ctxid]
  · obtain rfl | rfl | rfl | rfl : n = 0x030 ∨ n = 0x031 ∨ n = 0x032 ∨ n = 0x033 := by omega
    all_goals simp [State.csrWrite, State.csrRead, State.marver, State.setMarver, State.me, State.core, h, hh]

/-! ### `csrw` -/

section Csrw
variable {s : State} {a n : Nat} {fea : Bool}

theorem exec_csrw_ready (hm : MayIssue (.csrw a fea n) [.s a fea] s) : exec (.csrw a fea n) s =
    if csrPriv n ∧ s.me.q.priv = false then privTrap (s.read [.s a fea]) n
    else if csrBad n (s.sc a).toNat then trap (s.read [.s a fea]) 1 n
    else .next (((s.read [.s a fea]).csrWrite n (s.sc a)).done 1) := by
  calc exec (.csrw a fea n) s = execCsrw a fea n s := rfl
    _ = _ := issue_ready hm _
    _ = _ := by rw [State.sc_upd_touch, State.read_me, Core.touch_q]

theorem csrw_unprivileged (hp : csrPriv n = true) (hu : s.me.q.priv = false) :
    TrapsBy (.csrw a fea n) [.s a fea] s 10 n s.me.q.pc :=
  trap_trapped fun hm => (exec_csrw_ready hm).trans (if_pos ⟨hp, hu⟩)

theorem csrw_bad (hp : csrPriv n = true → s.me.q.priv = true) (hb : csrBad n (s.sc a).toNat = true) :
    TrapsBy (.csrw a fea n) [.s a fea] s 1 n s.me.q.pc :=
  trap_trapped fun hm => (exec_csrw_ready hm).trans ((if_neg (fun h => by simp [hp h.1] at h)).trans (if_pos hb))

theorem csrw_writes (hp : csrPriv n = true → s.me.q.priv = true) (hb : csrBad n (s.sc a).toNat = false) :
    WordResult (.csrw a fea n) [.s a fea] s (fun t =>
      t = { s with cores := t.cores, d := t.d, mx := t.mx } ∧ Passes s t 1 ∧
      t.csrRead n = s.sc a &&& csrFields n ∧
      (∀ m, m ≠ n → m < 0x034 → m ≠ 0x023 → t.csrRead m = s.csrRead m) ∧
      (t.core s.cur).r = s.me.r ∧ (t.core s.cur).v = s.me.v ∧ (t.core s.cur).acc = s.me.acc ∧
      (∀ c, c ≠ s.cur → t.core c = s.core c) ∧ (∀ pa, t.byte pa = s.byte pa) ∧
      t.d = { s.d with gint := t.d.gint, gthr := t.d.gthr, age := t.d.age }) := fun hw hm => by
  have hn : csrWritable n = true := by
    have h : (Instr.csrw a fea n).check = none := by simpa [Instr.wf] using hw
    exact ((firstFail_cons _ _ _).1 ((firstFail_cons _ _ _).1 h).2).1
  have hlt : n < 0x034 ∧ n ≠ 0x023 := by have := csrWritable_cases hn; omega
  set r := s.read [.s a fea] with hr
  set u := r.csrWrite n (s.sc a) with hu
  have hrest := csrWrite_rest r (s.sc a) hn
  have hme := csrWrite_me r (s.sc a) hn
  rw [← hu] at hrest hme
  have hcur : u.cur = s.cur := by rw [hrest]; rfl
  have hctx : u.ctx = s.ctx := by rw [hrest]; rfl
  have hrme : r.me = s.me.touch s.ctx [.s a fea] := State.read_me s _
  have hq : (u.core s.cur).q = s.me.q := by rw [show u.core s.cur = u.core r.cur from rfl, hme, hrme]; rfl
  have hdone : (u.done 1).core s.cur = (u.core s.cur).next s.ctx 1 := State.done_core hcur hctx
  have hread : ∀ m, m < 0x034 → m ≠ 0x023 → (u.done 1).csrRead m = u.csrRead m := fun m h1 h2 => by
    refine csrRead_congr h1 h2 rfl rfl ?_ ?_ rfl rfl
    · rw [State.me, State.me, State.done_cur, hcur, hdone]; rfl
    · rw [State.me, State.me, State.done_cur, hcur, hdone, Core.next_place]
  have hreads : ∀ m, m < 0x034 → m ≠ 0x023 → r.csrRead m = s.csrRead m := fun m h1 h2 =>
    csrRead_congr h1 h2 rfl rfl (by rw [hrme]; rfl) (by rw [hrme]; rfl) rfl rfl
  refine ⟨u.done 1, (exec_csrw_ready hm).trans ((if_neg (fun h => by simp [hp h.1] at h)).trans (if_neg (by simp [hb]))), ?_, ?_, ?_, ?_, ?_, ?_,
    ?_, ?_, ?_, ?_⟩
  · calc u.done 1 = { u with cores := (u.done 1).cores } := rfl
      _ = _ := by rw [hrest]; rfl
  · exact State.done_passes hcur hctx Nat.one_pos (by rw [hq]) (by rw [hq]) (by rw [hq])
  · rw [hread n hlt.1 hlt.2, hu, csrRead_csrWrite_same r (s.sc a) hn]
  · intro m h1 h2 h3
    rw [hread m h2 h3, hu, csrRead_csrWrite_other r (s.sc a) hn h1 h2, hreads m h2 h3]
  · rw [hdone, show u.core s.cur = u.core r.cur from rfl, hme, hrme]; rfl
  · rw [hdone, show u.core s.cur = u.core r.cur from rfl, hme, hrme]; rfl
  · rw [hdone, show u.core s.cur = u.core r.cur from rfl, hme, hrme]; rfl
  · intro c hc
    rw [State.done_core_other hcur hc, hu, csrWrite_other r (s.sc a) hn hc]
    exact State.core_upd_other s _ hc
  · intro pa
    rw [State.done, State.byte_upd, hrest]; rfl
  · exact csrWrite_d r (s.sc a) hn

end Csrw

/-! ### The ranges of R131, R177, R267 and R274 -/

theorem csrBad_rows (v : Nat) : csrBad 0x020 v = true ↔ v % 8 = 0 ∨ v % 8 = 7 := by simp [csrBad]
theorem csrBad_gint (v : Nat) : csrBad 0x030 v = true ↔ v % 2 ^ 20 < 64 := by simp [csrBad]
theorem csrBad_gthr (v : Nat) : csrBad 0x031 v = true ↔ v % 2 ^ 7 = 0 ∨ 64 < v % 2 ^ 7 := by simp [csrBad]
theorem csrBad_age (v : Nat) : csrBad 0x032 v = true ↔ v % 2 ^ 8 = 0 := by simp [csrBad]
theorem csrBad_len (v : Nat) : csrBad 0x033 v = true ↔ v % 2 ^ 9 = 0 ∨ 256 < v % 2 ^ 9 := by simp [csrBad]

theorem csrBad_numbers {n v : Nat} (h : csrBad n v = true) : n = 0x020 ∨ (0x030 ≤ n ∧ n ≤ 0x033) := by
  by_contra hn
  unfold csrBad at h
  rw [if_neg (by omega), if_neg (by omega), if_neg (by omega), if_neg (by omega), if_neg (by omega)] at h
  exact absurd h (by decide)

theorem csrPriv_numbers {n : Nat} (h : csrPriv n = true) : n = 0x008 ∨ (0x030 ≤ n ∧ n ≤ 0x033) := by
  simpa [csrPriv] using h

end Sys2Proof.Machine

namespace Sys2Proof

open Machine

/-- Settles O11: privilege first, then the range, then the write, which `csrRead` finds in the register's own fields alone. -/
theorem controlRegistersWritten : Obligations.ControlRegistersWritten := fun _ _ _ _ =>
  ⟨csrw_writes, csrw_unprivileged, csrw_bad, fun h => h ▸ csrBad_rows _, fun h => h ▸ csrBad_gint _, fun h => h ▸ csrBad_gthr _,
    fun h => h ▸ csrBad_age _, fun h => h ▸ csrBad_len _, csrBad_numbers, csrPriv_numbers⟩

end Sys2Proof
end

section
set_option Elab.async false
/-! SUPPORT. How control falls through from the last word of loop bodies, and how levels open and close (R122 to R124). -/

namespace Sys2Proof.Machine

/-! ### Levels written and closed -/

theorem Seq.loop_setLoop (q : Seq) (l : Nat) (v : Loop) (j : Nat) : (q.setLoop l v).loop j = if j = l then v else q.loop j := by
  unfold Seq.setLoop Seq.loop
  split
  · next h => subst h; exact Sparse.get_set_same _ _ _ _
  · next h => exact Sparse.get_set_other _ _ _ h

theorem Seq.closeTo_succ (q : Seq) (n : Nat) : q.closeTo (n + 1) = (q.closeTo n).setLoop (n + 1) {} := by
  simp [Seq.closeTo, List.range_succ]

/-- Closing level `n` closes it and every level below it, and no other (R123, R124). -/
theorem Seq.loop_closeTo (q : Seq) (n j : Nat) : (q.closeTo n).loop j = if j ≤ n then {} else q.loop j := by
  induction n with
  | zero =>
    show (q.setLoop 0 {}).loop j = _
    rw [Seq.loop_setLoop]; simp only [Nat.le_zero]
  | succ n ih =>
    rw [Seq.closeTo_succ, Seq.loop_setLoop, ih]
    split_ifs <;> first | rfl | omega

theorem Seq.closeTo_kept (q : Seq) (n : Nat) : q.closeTo n = { q with loops := (q.closeTo n).loops } := by
  induction n with
  | zero => rfl
  | succ n ih => rw [Seq.closeTo_succ, ih]; rfl

/-! ### Fall-through (R123) -/

/-- Level `l` is active and its body ends at C-word `top`. -/
def Seq.endsAt (q : Seq) (top l : Nat) : Prop := (q.loop l).act = true ∧ (q.loop l).last = top
/-- Level `l` has iterations left. -/
def Seq.hasMore (q : Seq) (l : Nat) : Prop := (q.loop l).idx + 1 < (q.loop l).trip

section Fall
variable {q : Seq} {top l fuel : Nat}

theorem Seq.fall_succ : Seq.fall (fuel + 1) l q top =
    if (q.loop l).act && (q.loop l).last == top then
      if (q.loop l).idx + 1 < (q.loop l).trip then
        { q.setLoop l { q.loop l with idx := (q.loop l).idx + 1 } with pc := (q.loop l).first, point := 1 }
      else Seq.fall fuel (l + 1) (q.closeTo l) top
    else Seq.fall fuel (l + 1) q top := rfl

theorem Seq.endsAt_iff : ((q.loop l).act && (q.loop l).last == top) = true ↔ q.endsAt top l := by
  rw [Bool.and_eq_true, beq_iff_eq]; exact Iff.rfl

theorem Seq.fall_over (h : ¬q.endsAt top l) : Seq.fall (fuel + 1) l q top = Seq.fall fuel (l + 1) q top :=
  Seq.fall_succ.trans (if_neg (mt Seq.endsAt_iff.1 h))

theorem Seq.fall_close (h : q.endsAt top l) (hm : ¬q.hasMore l) : Seq.fall (fuel + 1) l q top = Seq.fall fuel (l + 1) (q.closeTo l) top :=
  Seq.fall_succ.trans ((if_pos (Seq.endsAt_iff.2 h)).trans (if_neg hm))

theorem Seq.fall_again (h : q.endsAt top l) (hm : q.hasMore l) : Seq.fall (fuel + 1) l q top =
    { q.setLoop l { q.loop l with idx := (q.loop l).idx + 1 } with pc := (q.loop l).first, point := 1 } :=
  Seq.fall_succ.trans ((if_pos (Seq.endsAt_iff.2 h)).trans (if_pos hm))

/-- Levels above the closed ones end and iterate as before. -/
theorem Seq.loop_closeTo_above {k : Nat} (h : l < k) : (q.closeTo l).loop k = q.loop k := by
  rw [Seq.loop_closeTo, if_neg (by omega)]

theorem Seq.endsAt_closeTo {k : Nat} (h : l < k) : (q.closeTo l).endsAt top k ↔ q.endsAt top k := by
  unfold Seq.endsAt; rw [Seq.loop_closeTo_above h]

theorem Seq.hasMore_closeTo {k : Nat} (h : l < k) : (q.closeTo l).hasMore k ↔ q.hasMore k := by
  unfold Seq.hasMore; rw [Seq.loop_closeTo_above h]

/-- No level that ends here has iterations left: all of them close, with everything below them, and control goes on. -/
theorem Seq.fall_none : ∀ {fuel l : Nat} {q : Seq}, (∀ k, l ≤ k → k < l + fuel → q.endsAt top k → ¬q.hasMore k) →
    (Seq.fall fuel l q top).pc = top + 1 ∧ ∀ j,
      ((∃ k, l ≤ k ∧ k < l + fuel ∧ q.endsAt top k ∧ j ≤ k) → ((Seq.fall fuel l q top).loop j).act = false) ∧
      ((∀ k, l ≤ k → k < l + fuel → q.endsAt top k → ¬j ≤ k) → (Seq.fall fuel l q top).loop j = q.loop j)
  | 0, l, q, _ => ⟨rfl, fun j => ⟨fun ⟨k, h1, h2, _⟩ => by omega, fun _ => rfl⟩⟩
  | fuel + 1, l, q, h => by
    by_cases he : q.endsAt top l
    · rw [Seq.fall_close he (h l (le_refl l) (by omega) he)]
      have ih := Seq.fall_none (fuel := fuel) (l := l + 1) (q := q.closeTo l) fun k h1 h2 he' => by
        rw [Seq.hasMore_closeTo h1]
        exact h k (by omega) (by omega) ((Seq.endsAt_closeTo h1).1 he')
      obtain ⟨hpc, hl⟩ := ih
      refine ⟨hpc, fun j => ⟨?_, fun hk => ?_⟩⟩
      · rintro ⟨k, h1, h2, hek, hjk⟩
        by_cases hx : ∃ k, l + 1 ≤ k ∧ k < l + 1 + fuel ∧ (q.closeTo l).endsAt top k ∧ j ≤ k
        · exact (hl j).1 hx
        · have hkl : k = l := by
            by_contra hne
            exact hx ⟨k, by omega, by omega, (Seq.endsAt_closeTo (by omega)).2 hek, hjk⟩
          have hnone : ∀ k, l + 1 ≤ k → k < l + 1 + fuel → (q.closeTo l).endsAt top k → ¬j ≤ k :=
            fun k h1 h2 h3 h4 => hx ⟨k, h1, h2, h3, h4⟩
          rw [(hl j).2 hnone, Seq.loop_closeTo, if_pos (by omega)]
      · have hjl : ¬j ≤ l := hk l (le_refl l) (by omega) he
        rw [(hl j).2 fun k h1 h2 h3 => hk k (by omega) (by omega) ((Seq.endsAt_closeTo h1).1 h3),
          Seq.loop_closeTo_above (by omega)]
    · rw [Seq.fall_over he]
      have ih := Seq.fall_none (fuel := fuel) (l := l + 1) (q := q) fun k h1 h2 => h k (by omega) (by omega)
      obtain ⟨hpc, hl⟩ := ih
      refine ⟨hpc, fun j => ⟨?_, fun hk => (hl j).2 fun k h1 h2 => hk k (by omega) (by omega)⟩⟩
      rintro ⟨k, h1, h2, hek, hjk⟩
      have hne : k ≠ l := fun e => he (e ▸ hek)
      exact (hl j).1 ⟨k, by omega, by omega, hek, hjk⟩

/-- The innermost level that ends here with iterations left takes control back; the levels that ended inside it close. -/
theorem Seq.fall_first {n : Nat} : ∀ {fuel l : Nat} {q : Seq}, l ≤ n → n < l + fuel → q.endsAt top n → q.hasMore n →
    (∀ k, l ≤ k → k < n → q.endsAt top k → ¬q.hasMore k) →
    (Seq.fall fuel l q top).pc = (q.loop n).first ∧
    (Seq.fall fuel l q top).loop n = { q.loop n with idx := (q.loop n).idx + 1 } ∧ ∀ j, j ≠ n →
      ((∃ k, l ≤ k ∧ k < n ∧ q.endsAt top k ∧ j ≤ k) → ((Seq.fall fuel l q top).loop j).act = false) ∧
      ((∀ k, l ≤ k → k < n → q.endsAt top k → ¬j ≤ k) → (Seq.fall fuel l q top).loop j = q.loop j)
  | 0, l, q, h1, h2, _, _, _ => by omega
  | fuel + 1, l, q, hln, hnl, hen, hmn, h => by
    by_cases hl : l = n
    · subst hl
      rw [Seq.fall_again hen hmn]
      refine ⟨rfl, (Seq.loop_setLoop _ _ _ _).trans (if_pos rfl), fun j hj => ⟨fun ⟨k, h1, h2, _⟩ => by omega, fun _ => ?_⟩⟩
      exact (Seq.loop_setLoop _ _ _ _).trans (if_neg hj)
    · have hlt : l + 1 ≤ n := by omega
      by_cases he : q.endsAt top l
      · rw [Seq.fall_close he (h l (le_refl l) (by omega) he)]
        obtain ⟨hpc, hn, hj⟩ := Seq.fall_first (fuel := fuel) (l := l + 1) (q := q.closeTo l) hlt (by omega)
          ((Seq.endsAt_closeTo hlt).2 hen) ((Seq.hasMore_closeTo hlt).2 hmn) fun k h1 h2 he' => by
            rw [Seq.hasMore_closeTo h1]
            exact h k (by omega) h2 ((Seq.endsAt_closeTo h1).1 he')
        rw [Seq.loop_closeTo_above hlt] at hpc hn
        refine ⟨hpc, hn, fun j hjn => ⟨?_, fun hk => ?_⟩⟩
        · rintro ⟨k, h1, h2, hek, hjk⟩
          by_cases hx : ∃ k, l + 1 ≤ k ∧ k < n ∧ (q.closeTo l).endsAt top k ∧ j ≤ k
          · exact (hj j hjn).1 hx
          · have hkl : k = l := by
              by_contra hne
              exact hx ⟨k, by omega, h2, (Seq.endsAt_closeTo (by omega)).2 hek, hjk⟩
            have hnone : ∀ k, l + 1 ≤ k → k < n → (q.closeTo l).endsAt top k → ¬j ≤ k := fun k h1 h2 h3 h4 => hx ⟨k, h1, h2, h3, h4⟩
            rw [(hj j hjn).2 hnone, Seq.loop_closeTo, if_pos (by omega)]
        · have hjl : ¬j ≤ l := hk l (le_refl l) (by omega) he
          rw [(hj j hjn).2 fun k h1 h2 h3 => hk k (by omega) h2 ((Seq.endsAt_closeTo h1).1 h3), Seq.loop_closeTo_above (by omega)]
      · rw [Seq.fall_over he]
        obtain ⟨hpc, hn, hj⟩ := Seq.fall_first (fuel := fuel) (l := l + 1) (q := q) hlt (by omega) hen hmn
          fun k h1 h2 => h k (by omega) h2
        refine ⟨hpc, hn, fun j hjn => ⟨?_, fun hk => (hj j hjn).2 fun k h1 h2 => hk k (by omega) h2⟩⟩
        rintro ⟨k, h1, h2, hek, hjk⟩
        have hne : k ≠ l := fun e => he (e ▸ hek)
        exact (hj j hjn).1 ⟨k, by omega, h2, hek, hjk⟩

end Fall

/-! ### The main context past a word -/

/-- With TACT = 0 the main context goes where the fall-through says (R123). -/
theorem Core.next_main_fall (x : Core) (n : Nat) (ht : x.q.tact = false) :
    (x.next 0 n).q.pc = (Seq.fall 6 0 { x.q with point := 0 } (x.q.pc + n - 1)).pc ∧
    ∀ l, (x.next 0 n).q.loop l = (Seq.fall 6 0 { x.q with point := 0 } (x.q.pc + n - 1)).loop l := by
  have e : ({ x.q with point := 0 } : Seq).past 0 (x.q.pc + n - 1) = Seq.fall 6 0 { x.q with point := 0 } (x.q.pc + n - 1) :=
    (if_neg (by simp)).trans (if_neg (by simp [ht]))
  have hpc : (x.next 0 n).q.pc = (({ x.q with point := 0 } : Seq).past 0 (x.q.pc + n - 1)).pc := rfl
  have hl : ∀ l, (x.next 0 n).q.loop l = (({ x.q with point := 0 } : Seq).past 0 (x.q.pc + n - 1)).loop l := fun _ => rfl
  exact ⟨by rw [hpc, e], fun l => by rw [hl, e]⟩

/-- With TACT = 1 no loop ends (R104). -/
theorem Core.next_main_trapped (x : Core) (n : Nat) (ht : x.q.tact = true) :
    (x.next 0 n).q.pc = x.q.pc + n - 1 + 1 ∧ ∀ l, (x.next 0 n).q.loop l = x.q.loop l := by
  have e : ({ x.q with point := 0 } : Seq).past 0 (x.q.pc + n - 1) = { x.q with point := 0, pc := x.q.pc + n - 1 + 1 } :=
    (if_neg (by simp)).trans (if_pos ht)
  have hpc : (x.next 0 n).q.pc = (({ x.q with point := 0 } : Seq).past 0 (x.q.pc + n - 1)).pc := rfl
  have hl : ∀ l, (x.next 0 n).q.loop l = (({ x.q with point := 0 } : Seq).past 0 (x.q.pc + n - 1)).loop l := fun _ => rfl
  exact ⟨by rw [hpc, e], fun l => by rw [hl, e]; rfl⟩

theorem exec_nop_ready {s : State} (hm : MayIssue .nop [] s) : exec .nop s = .next ((s.read []).done 1) :=
  (show exec .nop s = execNop s from rfl).trans (issue_ready hm _)

theorem nop_core (s : State) (hc : s.ctx = 0) : ((s.read []).done 1).core s.cur = s.me.next 0 1 := by
  have h : ((s.read []).done 1).core s.cur = (s.me.touch s.ctx []).next s.ctx 1 := State.read_upd_core s [] _
  rw [h, Core.touch_nil, hc]

end Sys2Proof.Machine

namespace Sys2Proof

open Machine

/-- Settles O9: a `nop` takes the main context through `Seq.fall` from level 0 up, which stops at the first level that ends here
with iterations left. -/
theorem loopBodiesEnd : Obligations.LoopBodiesEnd := by
  intro s hc here more
  have hhere : ∀ l, here l ↔ l < 6 ∧ ({ s.me.q with point := 0 } : Seq).endsAt s.me.q.pc l := fun l => Iff.rfl
  have hquiet := (State.done_quiet s [] Nat.one_pos).1
  have hcore := nop_core s hc
  refine ⟨fun ht _ hm => ⟨_, exec_nop_ready hm, hquiet, ?_⟩, fun ht n hn hmn hlow _ hm => ⟨_, exec_nop_ready hm, hquiet, ?_⟩,
    fun ht hnone _ hm => ⟨_, exec_nop_ready hm, hquiet, ?_⟩⟩
  · rw [hcore]
    exact Core.next_main_trapped s.me 1 ht
  · rw [hcore]
    obtain ⟨hpc, hloop⟩ := Core.next_main_fall s.me 1 ht
    obtain ⟨h1, h2, h3⟩ := Seq.fall_first (top := s.me.q.pc) (n := n) (fuel := 6) (l := 0) (q := { s.me.q with point := 0 })
      (Nat.zero_le n) (by omega) hn.2 hmn fun k _ hk he => hlow k hk ⟨by omega, he⟩
    refine ⟨hpc.trans h1, (hloop n).trans h2, fun l hl => ⟨?_, fun hk => ?_⟩⟩
    · rintro ⟨k, hk, hlk, hkn⟩
      rw [hloop]
      exact (h3 l hl).1 ⟨k, Nat.zero_le k, hkn, hk.2, hlk⟩
    · rw [hloop]
      exact (h3 l hl).2 fun k _ hkn he hlk => Nat.not_le.2 hkn (hk k ⟨by omega, he⟩ hlk)
  · rw [hcore]
    obtain ⟨hpc, hloop⟩ := Core.next_main_fall s.me 1 ht
    obtain ⟨h1, h2⟩ := Seq.fall_none (top := s.me.q.pc) (fuel := 6) (l := 0) (q := { s.me.q with point := 0 })
      fun k _ hk he => hnone k ⟨by omega, he⟩
    refine ⟨hpc.trans h1, fun l => ⟨?_, fun hk => ?_⟩⟩
    · rintro ⟨k, hk, hlk⟩
      rw [hloop]
      exact (h2 l).1 ⟨k, Nat.zero_le k, by omega, hk.2, hlk⟩
    · rw [hloop]
      exact (h2 l).2 fun k _ hk6 he => hk k ⟨by omega, he⟩

end Sys2Proof
end

section
set_option Elab.async false
/-! SUPPORT. How loops open and close, what regions, `end`, `yield` and `stop` leave (R99 to R106, R122, R124, R341, R342). -/

namespace Sys2Proof.Machine

/-! ### `loop` -/

/-- A level that may open: it and those below it are closed, and no active level above it ends before `last` (R122). -/
theorem Seq.mayOpen_iff (q : Seq) (n last : Nat) : q.mayOpen n last = true ↔
    (∀ l, l ≤ n → (q.loop l).act = false) ∧ ∀ l, n < l → l < 6 → (q.loop l).act = true → last ≤ (q.loop l).last := by
  simp only [Seq.mayOpen, Bool.and_eq_true, List.all_eq_true, List.mem_range, List.mem_filter, Bool.not_eq_true', Bool.or_eq_true,
    decide_eq_true_eq, and_imp]
  constructor
  · rintro ⟨h1, h2⟩
    refine ⟨fun l hl => h1 l (by omega), fun l hn h6 ha => ?_⟩
    rcases h2 l h6 hn with h | h
    · rw [ha] at h; exact absurd h (by decide)
    · exact h
  · rintro ⟨h1, h2⟩
    refine ⟨fun l hl => h1 l (by omega), fun l h6 hn => ?_⟩
    cases ha : (q.loop l).act with
    | false => exact .inl rfl
    | true => exact .inr (h2 l hn h6 ha)

/-- MIN of an instruction in CL layout is its MIN field (R50, R103). -/
theorem minOf_clWord {i : Instr} {f : CL} (he : encodeC i = [clWord f]) (hf : f.fits) (hmaj : f.maj ≠ 5) : minOf i = f.mn := by
  obtain ⟨hcl, -, hfld⟩ := clOf_clWord f hf
  calc minOf i = if fld (clWord f) 58 6 = 5 then fld (clWord f) 53 5 else fld (clWord f) 50 8 := by rw [minOf, he]
    _ = fld (clWord f) 50 8 := if_neg (by rwa [hfld])
    _ = (clOf (clWord f)).mn := rfl
    _ = f.mn := by rw [hcl]

theorem minOf_loop {f : LoopF} (hw : (Instr.loop f).wf = true) : minOf (.loop f) = 0 := by
  have h : (Instr.loop f).check = none := by simpa [Instr.wf] using hw
  simp only [Instr.check, firstFail_cons, Bool.and_eq_true, decide_eq_true_eq, firstFail_nil] at h
  obtain ⟨hl, ht, hti, ⟨-, hb⟩, -⟩ := h
  have htr : f.trip < 2 ^ 24 := by
    split at hti
    · simp at hti; exact hti.2
    · simp [isZ] at hti; omega
  exact minOf_clWord (f := ⟨7, 0, f.lvl, f.t, f.ti, f.body, f.trip⟩) rfl
    (CL.fits_mk (Nat.lt_of_le_of_lt hl (by decide)) (ReadsBack.of_isS ht) hb htr) (show (7 : Nat) ≠ 5 by decide)

theorem minOf_lbrk {n : Nat} (hw : (Instr.lbrk n).wf = true) : minOf (.lbrk n) = 1 := by
  have h : n ≤ 5 := by simpa [Instr.wf, Instr.check, firstFail_cons, firstFail_nil] using hw
  exact minOf_clWord (f := ⟨7, 1, n, 0, false, 0, 0⟩) rfl (CL.fits_mk (Nat.lt_of_le_of_lt h (by decide))) (show (7 : Nat) ≠ 5 by decide)

section Loop
variable {s : State} {f : LoopF}

/-- What a `loop` reads: its trip count's register, where the word does not hold it (R122). -/
abbrev loopSrcs (f : LoopF) : List Src := if f.ti then [] else [.s f.t false]
/-- The trip count of a `loop`. -/
abbrev State.tripOf (s : State) (f : LoopF) : Nat := if f.ti then f.trip else (s.sc f.t).toNat

/-- The main context may open level `f.lvl` here (R122). -/
def State.opens (s : State) (f : LoopF) : Prop :=
  s.me.q.tact = false ∧ (∀ l, l ≤ f.lvl → (s.me.q.loop l).act = false) ∧
    ∀ l, f.lvl < l → l < 6 → (s.me.q.loop l).act = true → s.me.q.pc + f.body ≤ (s.me.q.loop l).last

/-- The core whose main context has opened a level. -/
def Core.opened (x : Core) (f : LoopF) (trip : Nat) : Core :=
  { x with q := { ({ x.q with nid := x.q.nid + 1 } : Seq).setLoop f.lvl
                    { act := true, idx := 0, trip := trip, first := x.q.pc + 1, last := x.q.pc + f.body } with
                  pc := x.q.pc + 1, point := 0 } }

theorem Core.opened_loop (x : Core) (f : LoopF) (trip l : Nat) : (x.opened f trip).q.loop l =
    if l = f.lvl then { act := true, idx := 0, trip := trip, first := x.q.pc + 1, last := x.q.pc + f.body } else x.q.loop l := by
  show (x.q.setLoop f.lvl { act := true, idx := 0, trip := trip, first := x.q.pc + 1, last := x.q.pc + f.body }).loop l = _
  rw [Seq.loop_setLoop]

theorem exec_loop_ready (hm : MayIssue (.loop f) (loopSrcs f) s) (hc : s.ctx = 0) : exec (.loop f) s =
    if s.me.q.tact = true ∨ s.me.q.mayOpen f.lvl (s.me.q.pc + f.body) = false then illegal (.loop f) (s.read (loopSrcs f))
    else if 2 ^ 32 ≤ s.tripOf f then trap (s.read (loopSrcs f)) 4 (s.tripOf f / 2 ^ 32)
    else if s.tripOf f = 0 then .next ((s.read (loopSrcs f)).upd (fun x =>
      { x with q := Seq.fall 6 0 { x.q with nid := x.q.nid + 1, point := 0 } (s.me.q.pc + f.body) }))
    else .next ((s.read (loopSrcs f)).upd (fun x => x.opened f (s.tripOf f))) := by
  have hpc : (s.read (loopSrcs f)).pc = s.me.q.pc := by simp [State.pc, hc, Seq.pcOf]
  have hq : (s.read (loopSrcs f)).me.q = s.me.q := by simp
  have htrip : (if f.ti then f.trip else ((s.read (loopSrcs f)).sc f.t).toNat) = s.tripOf f := by simp only [State.sc_upd_touch]
  have hopen : (s.read (loopSrcs f)).upd (fun x => x.tickId.seq (fun q =>
      { q.setLoop f.lvl { act := true, idx := 0, trip := s.tripOf f, first := s.me.q.pc + 1, last := s.me.q.pc + f.body } with
        pc := s.me.q.pc + 1, point := 0 })) = (s.read (loopSrcs f)).upd (fun x => x.opened f (s.tripOf f)) :=
    State.upd_congr _ (by rw [← hq]; rfl)
  calc exec (.loop f) s = execLoop f s := rfl
    _ = _ := issue_ready hm _
    _ = _ := by
      dsimp only
      rw [hpc, hq, htrip, hopen]
      rfl

theorem loop_opens (hc : s.ctx = 0) (ho : s.opens f) (h0 : 0 < s.tripOf f) (h32 : s.tripOf f < 2 ^ 32) :
    WordResult (.loop f) (loopSrcs f) s (fun t => Quiet s t ∧ (t.core s.cur).q.pc = s.me.q.pc + 1 ∧
      (t.core s.cur).q.loop f.lvl = { act := true, idx := 0, trip := s.tripOf f, first := s.me.q.pc + 1, last := s.me.q.pc + f.body } ∧
      ∀ l, l ≠ f.lvl → (t.core s.cur).q.loop l = s.me.q.loop l) := fun _ hm => by
  have hno : ¬(s.me.q.tact = true ∨ s.me.q.mayOpen f.lvl (s.me.q.pc + f.body) = false) := by
    rw [(Seq.mayOpen_iff _ _ _).2 ho.2, ho.1]; simp
  refine ⟨_, (exec_loop_ready hm hc).trans ((if_neg hno).trans ((if_neg (by omega)).trans (if_neg (by omega)))),
    ⟨State.read_upd_only s _ _, ?_, ?_⟩, ?_⟩
  · rw [State.read_upd_core]; exact ⟨rfl, rfl, rfl⟩
  · rw [State.read_upd_core]; rfl
  · rw [State.read_upd_core]
    refine ⟨rfl, ?_, fun l hl => ?_⟩
    · exact (Core.opened_loop _ _ _ _).trans (if_pos rfl)
    · exact (Core.opened_loop _ _ _ _).trans (if_neg hl)

theorem loop_skips (hc : s.ctx = 0) (ho : s.opens f) (h0 : s.tripOf f = 0)
    (hn : ∀ l, l < 6 → (s.me.q.loop l).act = true → (s.me.q.loop l).last ≠ s.me.q.pc + f.body) :
    WordResult (.loop f) (loopSrcs f) s (fun t => Quiet s t ∧ (t.core s.cur).q.pc = s.me.q.pc + f.body + 1 ∧
      ∀ l, (t.core s.cur).q.loop l = s.me.q.loop l) := fun _ hm => by
  have hno : ¬(s.me.q.tact = true ∨ s.me.q.mayOpen f.lvl (s.me.q.pc + f.body) = false) := by
    rw [(Seq.mayOpen_iff _ _ _).2 ho.2, ho.1]; simp
  have hx : ∀ k, k < 6 → ¬s.me.q.endsAt (s.me.q.pc + f.body) k := fun k hk he => hn k hk he.1 he.2
  obtain ⟨hpc, hl⟩ := Seq.fall_none (top := s.me.q.pc + f.body) (fuel := 6) (l := 0) (q := { s.me.q with nid := s.me.q.nid + 1, point := 0 })
    fun k _ hk he => absurd he (hx k (by omega))
  refine ⟨_, (exec_loop_ready hm hc).trans ((if_neg hno).trans ((if_neg (by omega)).trans (if_pos h0))),
    ⟨State.read_upd_only s _ _, ?_, ?_⟩, ?_⟩
  · rw [State.read_upd_core]; exact ⟨rfl, rfl, by dsimp only; rw [Seq.fall_kept]; rfl⟩
  · rw [State.read_upd_core]; rfl
  · rw [State.read_upd_core]
    exact ⟨hpc, fun l => (hl l).2 fun k _ hk he => absurd he (hx k (by omega))⟩

theorem loop_range (hc : s.ctx = 0) (ho : s.opens f) (h32 : 2 ^ 32 ≤ s.tripOf f) :
    TrapsBy (.loop f) (loopSrcs f) s 4 (s.tripOf f / 2 ^ 32) s.me.q.pc :=
  trap_trapped fun hm => (exec_loop_ready hm hc).trans ((if_neg (by rw [(Seq.mayOpen_iff _ _ _).2 ho.2, ho.1]; simp)).trans (if_pos h32))

theorem loop_illegal (hc : s.ctx = 0) (ho : ¬s.opens f) : TrapsBy (.loop f) (loopSrcs f) s 1 0 s.me.q.pc := fun hw =>
  have hx : s.me.q.tact = true ∨ s.me.q.mayOpen f.lvl (s.me.q.pc + f.body) = false := by
    by_contra h
    rw [not_or, Bool.not_eq_true, Bool.not_eq_false] at h
    exact ho ⟨h.1, (Seq.mayOpen_iff _ _ _).1 h.2⟩
  trap_trapped (fun hm => (exec_loop_ready hm hc).trans ((if_pos hx).trans (by rw [illegal, minOf_loop hw]))) hw

end Loop

/-! ### `lbrk` -/

section Lbrk
variable {s : State} {n : Nat}

theorem exec_lbrk_ready (hm : MayIssue (.lbrk n) [] s) : exec (.lbrk n) s =
    if (s.me.q.loop n).act = true then .next ((s.read []).upd (fun x =>
      { x with q := { ({ x.q with nid := x.q.nid + 1 } : Seq).closeTo n with pc := (x.q.loop n).last + 1, point := 0 } }))
    else illegal (.lbrk n) (s.read []) := by
  have hq : (s.read []).me.q = s.me.q := by simp
  calc exec (.lbrk n) s = execLbrk n s := rfl
    _ = _ := issue_ready hm _
    _ = _ := by rw [hq]; rfl

theorem lbrk_closes (h : (s.me.q.loop n).act = true) : WordResult (.lbrk n) [] s (fun t => Quiet s t ∧
    (t.core s.cur).q.pc = (s.me.q.loop n).last + 1 ∧
    (∀ l, l ≤ n → ((t.core s.cur).q.loop l).act = false) ∧ ∀ l, n < l → (t.core s.cur).q.loop l = s.me.q.loop l) := fun _ hm => by
  refine ⟨_, (exec_lbrk_ready hm).trans (if_pos h), ⟨State.read_upd_only s _ _, ?_, ?_⟩, ?_⟩
  · rw [State.read_upd_core]
    exact ⟨rfl, rfl, by rw [Seq.closeTo_kept]; rfl⟩
  · rw [State.read_upd_core]; rfl
  · rw [State.read_upd_core]
    refine ⟨rfl, fun l hl => ?_, fun l hl => ?_⟩
    · exact congrArg Loop.act ((Seq.loop_closeTo _ _ _).trans (if_pos hl))
    · exact Seq.loop_closeTo_above hl

theorem lbrk_illegal (h : (s.me.q.loop n).act = false) : TrapsBy (.lbrk n) [] s 1 1 s.me.q.pc := fun hw =>
  trap_trapped (fun hm => (exec_lbrk_ready hm).trans ((if_neg (by rw [h]; decide)).trans (by rw [illegal, minOf_lbrk hw]))) hw

end Lbrk

end Sys2Proof.Machine

namespace Sys2Proof

open Machine

/-- Settles O8: `loop` checks its level, then its trip count, then opens or falls through; `lbrk` closes an active level. -/
theorem loopsOpenAndClose : Obligations.LoopsOpenAndClose := fun _ hc _ =>
  ⟨loop_opens hc, loop_skips hc, loop_range hc, loop_illegal hc, fun _ => lbrk_closes, fun _ => lbrk_illegal⟩

end Sys2Proof
end

section
set_option Elab.async false
/-! SUPPORT. What containment regions, `end`, `yield` and `stop` leave (R99, R100, R101, R105, R106, R341, R342). -/

namespace Sys2Proof.Machine

/-! ### `cro` -/

theorem minOf_cro (disp : BitVec 37) : minOf (.cro disp) = 8 :=
  minOf_ciWord (f := ⟨0, 8, 0, 0, false, disp.toNat⟩) rfl (CI.fits_mk disp.isLt) (show (0 : Nat) ≠ 5 by decide)

section Cro
variable {s : State} {disp : BitVec 37}

/-- A region may open here over its handler (R341). -/
def State.regionOpens (s : State) (disp : BitVec 37) : Prop :=
  s.me.q.tact = false ∧ s.me.q.regions.length < 4 ∧ 0 ≤ (s.me.q.pc : Int) + disp.toInt ∧ (s.me.q.pc : Int) + disp.toInt < (s.me.code.ctlLen : Int)

/-- The region that a `cro` opens (R341). -/
def State.newRegion (s : State) (disp : BitVec 37) : Region :=
  { opc := s.me.q.pc, hpc := ((s.me.q.pc : Int) + disp.toInt).toNat, ldepth := s.me.q.ldepth, mdepth := s.me.r.masks.length, swpl := false,
    since := s.me.q.nid }

theorem exec_cro_ready (hm : MayIssue (.cro disp) [] s) (hc : s.ctx = 0) : exec (.cro disp) s =
    if s.me.q.tact = true ∨ 4 ≤ s.me.q.regions.length ∨ (s.me.q.pc : Int) + disp.toInt < 0 ∨ (s.me.code.ctlLen : Int) ≤ (s.me.q.pc : Int) + disp.toInt
    then illegal (.cro disp) (s.read [])
    else .next (((s.read []).upd (fun x => x.seq (fun q => { q with regions := s.newRegion disp :: q.regions }))).done 1) := by
  have hpc : (s.read []).pc = s.me.q.pc := by simp [State.pc, hc, Seq.pcOf]
  have hme : (s.read []).me = s.me := by rw [State.read_me, Core.touch_nil]
  calc exec (.cro disp) s = execCro disp s := rfl
    _ = _ := issue_ready hm _
    _ = _ := by rw [hpc, hme]; rfl

theorem cro_opens (hc : s.ctx = 0) (ho : s.regionOpens disp) : WordResult (.cro disp) [] s (fun t =>
    OnlyCore s.cur s t ∧ Passes s t 1 ∧ (t.core s.cur).r = s.me.r ∧
      (t.core s.cur).c = s.me.c ∧ (t.core s.cur).q.regions.tail = s.me.q.regions ∧
      ∃ r : Region, (t.core s.cur).q.regions.head? = some r ∧ r.hpc = ((s.me.q.pc : Int) + disp.toInt).toNat ∧ r.opc = s.me.q.pc ∧
        r.ldepth = s.me.q.ldepth ∧ r.mdepth = s.me.r.masks.length) := fun _ hm => by
  obtain ⟨h1, h2, h3, h4⟩ := ho
  have hno : ¬(s.me.q.tact = true ∨ 4 ≤ s.me.q.regions.length ∨ (s.me.q.pc : Int) + disp.toInt < 0 ∨
      (s.me.code.ctlLen : Int) ≤ (s.me.q.pc : Int) + disp.toInt) := by rw [h1]; simp; omega
  have hu := State.read_upd_core s [] (fun x => x.seq (fun q => { q with regions := s.newRegion disp :: q.regions }))
  refine ⟨_, (exec_cro_ready hm hc).trans (if_neg hno), OnlyCore.done (State.read_upd_only s [] _),
    State.done_passes rfl rfl Nat.one_pos (by rw [hu]; rfl) (by rw [hu]; rfl) (by rw [hu]; rfl), ?_⟩
  rw [State.core_done (c := s.cur) _ _ (by rfl), hu, Core.touch_nil]
  have hr : ∀ (x : Core) k, (x.next k 1).q.regions = x.q.regions := fun x k => by rw [Core.next_place]
  rw [hr]
  exact ⟨rfl, rfl, rfl, s.newRegion disp, rfl, rfl, rfl, rfl, rfl⟩

theorem cro_illegal (hc : s.ctx = 0) (ho : ¬s.regionOpens disp) : TrapsBy (.cro disp) [] s 1 8 s.me.q.pc :=
  have hx : s.me.q.tact = true ∨ 4 ≤ s.me.q.regions.length ∨ (s.me.q.pc : Int) + disp.toInt < 0 ∨
      (s.me.code.ctlLen : Int) ≤ (s.me.q.pc : Int) + disp.toInt := by
    by_contra h
    simp only [not_or, Bool.not_eq_true, Nat.not_le, Int.not_lt, Int.not_le] at h
    exact ho h
  trap_trapped fun hm => (exec_cro_ready hm hc).trans ((if_pos hx).trans (by rw [illegal, minOf_cro]))

end Cro

/-! ### `crc` -/

theorem minOf_crc : minOf .crc = 9 := by decide

/-- A word that holds its context and then traps at once is a trap of the state in which it issued (R103). -/
theorem State.draining_trapped {s : State} (hctx : s.ctx = 0) (cause data : Nat) :
    ∃ t, trap s.draining cause data = .next t ∧ Trapped s t cause data s.me.q.pc := by
  obtain ⟨hq, ⟨hpc, hloops⟩, -⟩ := State.holds_quiet s [] .drain
  rw [hctx] at hpc
  have ht := State.trap_trapped s.draining cause data (hq.only.ctx_eq.trans hctx)
  have hhere : s.draining.me.q.pc = s.me.q.pc := by rw [hq.only.me_eq]; exact hpc
  rw [hhere] at ht
  exact ⟨_, rfl, hq.trapped hpc hloops ht⟩

/-- What a context that begins to wait keeps of its regions, TACT and loop depth. -/
theorem State.draining_place (s : State) : s.draining.me.q.regions = s.me.q.regions ∧ s.draining.me.q.tact = s.me.q.tact ∧
    s.draining.me.q.ldepth = s.me.q.ldepth := by
  obtain ⟨hq, ⟨-, hloops⟩, -⟩ := State.holds_quiet s [] .drain
  have hp := hq.core.place
  have hme := hq.only.me_eq
  refine ⟨by rw [hme, hp], by rw [hme, hp], ?_⟩
  unfold Seq.ldepth Seq.loop
  rw [hme, hloops]

/-- A word whose context has held changes its core's sequencers, not where the context stands, and goes on. -/
theorem Quiet.seq_done {s u : State} (hq : Quiet s u) (hg : Goes s u (s.me.q.pcOf s.ctx)) (f : Seq → Seq) (hpc : ∀ q, (f q).pcOf s.ctx = q.pcOf s.ctx)
    (hl : ∀ q, (f q).loops = q.loops) (ht : ∀ q, (f q).tact = q.tact) :
    OnlyCore s.cur s ((u.upd (fun x => x.seq f)).done 1) ∧ Passes s ((u.upd (fun x => x.seq f)).done 1) 1 ∧
      ((u.upd (fun x => x.seq f)).done 1).core s.cur = ((u.core s.cur).seq f).next s.ctx 1 := by
  have hcur := hq.only.cur_eq
  have hctx := hq.only.ctx_eq
  obtain ⟨hgo, hloops⟩ := hg
  have hu : (u.upd (fun x => x.seq f)).core s.cur = (u.core s.cur).seq f := by rw [← hcur]; exact State.core_upd u _
  refine ⟨OnlyCore.done (OnlyCore.trans hq.only (hcur ▸ State.upd_only u _)), State.done_passes hcur hctx Nat.one_pos ?_ ?_ ?_, ?_⟩
  · rw [hu]; exact (hpc _).trans hgo
  · rw [hu]; exact (hl _).trans hloops
  · rw [hu]; exact (ht _).trans hq.core.tact
  · rw [State.done_core (s := s) (u := u.upd (fun x => x.seq f)) hcur hctx, hu]

/-- Nothing that a `crc` waits for is out (R342): accesses, V-words, commands, pops and the held writes of a redundant pair. -/
def State.regionDone (s : State) (r : Region) : Prop :=
  (∀ a ∈ s.me.acc, ¬(r.since ≤ a.id ∧ a.id < s.me.q.nid)) ∧
  (∀ e ∈ s.me.v.ql ++ s.me.v.qa ++ s.me.v.qs, ¬(r.since ≤ e.cap.id ∧ e.cap.id < s.me.q.nid)) ∧
  (∀ f ∈ s.me.v.fl, ¬(r.since ≤ f.id ∧ f.id < s.me.q.nid)) ∧
  s.engDone s.cur r.since s.me.q.nid = true ∧ s.popsOut s.cur r.since s.me.q.nid = false ∧ ∀ h ∈ s.w.held, h.core ≠ s.cur

section Crc
variable {s : State}

/-- What a `crc` finds ready while it holds its context. -/
def crcReady (s : State) (n : Nat) : Bool :=
  match s.me.q.regions with
  | [] => true
  | r :: _ =>
    s.me.q.tact || r.ldepth != s.me.q.ldepth ||
    (s.me.accDone r.since n && s.me.vDone 0 r.since n && s.me.vDone 1 r.since n && s.me.vDone 2 r.since n &&
      s.engDone s.cur r.since n && !s.w.held.any (fun h => h.core == s.cur) && !s.popsOut s.cur r.since n)

/-- What a `crc` does once it waits no longer. -/
def crcEnds (s : State) : Out :=
  match s.me.q.regions with
  | [] => illegal .crc s
  | r :: rest =>
    if s.me.q.tact ∨ r.ldepth ≠ s.me.q.ldepth then illegal .crc s
    else .next ((s.upd (fun x => x.seq (fun q => { q with regions := rest }))).done 1)

theorem exec_crc_ready (hm : MayIssue .crc [] s) :
    exec .crc s = if crcReady s.draining s.me.q.nid = true then crcEnds s.draining else .next s.draining :=
  (show exec .crc s = execCrc s from rfl).trans (drainWord_ready hm (by decide) _ _)

theorem Core.accDone_iff (x : Core) (lo hi : Nat) : x.accDone lo hi = true ↔ ∀ a ∈ x.acc, ¬(lo ≤ a.id ∧ a.id < hi) := by
  simp only [Core.accDone, List.all_eq_true, Bool.or_eq_true, decide_eq_true_eq]
  exact forall₂_congr fun a _ => by omega

/-- A queue none of whose words, in it or in flight, is of the range, has completed them; so has the store queue where no access of
its words is outstanding. -/
theorem Core.vDone_of {x : Core} {q lo hi : Nat} (hq : ∀ e ∈ x.v.queue q, ¬(lo ≤ e.cap.id ∧ e.cap.id < hi))
    (hf : ∀ f ∈ x.v.fl, ¬(lo ≤ f.id ∧ f.id < hi)) (ha : ∀ a ∈ x.acc, ¬(lo ≤ a.id ∧ a.id < hi)) : x.vDone q lo hi = true := by
  simp only [Core.vDone, Bool.and_eq_true, Bool.not_eq_true', Bool.or_eq_true, List.any_eq_false, decide_eq_true_eq]
  exact ⟨⟨fun e he => hq e he, fun f hfm h => hf f hfm h.2⟩, .inr fun a ham h => ha a ham h.2⟩

theorem crcReady_draining {r : Region} {rest : List Region} (hr : s.me.q.regions = r :: rest) (hd : s.regionDone r) :
    crcReady s.draining s.me.q.nid = true := by
  obtain ⟨ha, hv, hf, he, hp, hh⟩ := hd
  obtain ⟨hreg, -, -⟩ := s.draining_place
  have hq := s.draining_quiet
  have hme := hq.only.me_eq
  have hacc : s.draining.me.acc = s.me.acc := by rw [hme, hq.core.rest]
  have hvu : s.draining.me.v = s.me.v := by rw [hme, hq.core.rest]
  have hcore : s.draining.core s.cur = s.me.heldBy s.now s.ctx .drain := by rw [State.holds_core, Core.touch_nil]
  have heng : s.draining.engDone s.cur r.since s.me.q.nid = true := by
    rw [← he]
    unfold State.engDone State.marver State.umOf
    rw [hcore]; rfl
  have hpop : s.draining.popsOut s.cur r.since s.me.q.nid = false := by
    rw [← hp]
    unfold State.popsOut
    rw [hcore]; rfl
  have hheld : s.draining.w.held.any (fun h => h.core == s.cur) = false := by
    rw [List.any_eq_false]
    exact fun h hm => by simpa using hh h hm
  have hvd : ∀ q, s.draining.me.vDone q r.since s.me.q.nid = true := fun q => by
    refine Core.vDone_of ?_ (by rw [hvu]; exact hf) (by rw [hacc]; exact ha)
    rw [hvu]
    intro e he'
    refine hv e ?_
    unfold Vu.queue at he'
    simp only [List.mem_append]
    split_ifs at he'
    · exact .inl (.inl he')
    · exact .inl (.inr he')
    · exact .inr he'
  have hcur : s.draining.cur = s.cur := rfl
  unfold crcReady
  rw [hreg, hr]
  simp only [hvd, hheld, hcur, heng, hpop, (Core.accDone_iff _ _ _).2 (hacc.symm ▸ ha), Bool.and_true, Bool.not_false, Bool.or_true]

theorem crc_closes {r : Region} {rest : List Region} (hr : s.me.q.regions = r :: rest) (ht : s.me.q.tact = false)
    (hl : r.ldepth = s.me.q.ldepth) (hd : s.regionDone r) : WordResult .crc [] s (fun t => OnlyCore s.cur s t ∧ Passes s t 1 ∧
      (t.core s.cur).r = s.me.r ∧ (t.core s.cur).c = s.me.c ∧ (t.core s.cur).q.regions = rest) := fun _ hm => by
  obtain ⟨hreg, htact, hld⟩ := s.draining_place
  have hends : crcEnds s.draining = .next ((s.draining.upd (fun x => x.seq (fun q => { q with regions := rest }))).done 1) := by
    unfold crcEnds
    rw [hreg, hr]
    exact if_neg (by rw [htact, ht, hld, hl]; simp)
  obtain ⟨hq, hg, -⟩ := State.holds_quiet s [] .drain
  obtain ⟨honly, hpass, hcore⟩ := Quiet.seq_done hq hg (fun q => { q with regions := rest }) (fun _ => rfl) (fun _ => rfl) (fun _ => rfl)
  refine ⟨_, (exec_crc_ready hm).trans ((if_pos (crcReady_draining hr hd)).trans hends), honly, hpass, ?_⟩
  rw [hcore]
  refine ⟨hq.regs, hq.core.csrs, ?_⟩
  rw [Core.next_place]; rfl

/-- A `crc` that may not close its region, or has none, does not wait (R342). -/
theorem crc_illegal (h : s.me.q.regions = [] ∨ ∃ r rest, s.me.q.regions = r :: rest ∧ (s.me.q.tact = true ∨ r.ldepth ≠ s.me.q.ldepth)) :
    TrapsBy .crc [] s 1 9 s.me.q.pc := fun _ hm hctx => by
  obtain ⟨hreg, htact, hld⟩ := s.draining_place
  obtain ⟨t, ht, htr⟩ := State.draining_trapped hctx 1 9
  refine ⟨t, (exec_crc_ready hm).trans ((if_pos ?_).trans (Eq.trans ?_ ht)), htr⟩
  · unfold crcReady
    rw [hreg]
    rcases h with h | ⟨r, rest, h, hx⟩
    · rw [h]
    · rw [h, htact, hld]
      rcases hx with hx | hx <;> simp [hx]
  · unfold crcEnds
    rw [hreg]
    rcases h with h | ⟨r, rest, h, hx⟩
    · rw [h]; dsimp only; rw [illegal, minOf_crc]
    · rw [h]
      dsimp only
      rw [htact, hld, if_pos hx, illegal, minOf_crc]

end Crc

end Sys2Proof.Machine

namespace Sys2Proof

open Machine

/-- Settles O13: `cro` checks and pushes its region; `crc` holds its context, and finds its region closable at once, or illegal. -/
theorem containmentRegions : Obligations.ContainmentRegions := by
  refine ⟨fun s disp hc => ⟨cro_opens hc, cro_illegal hc⟩, fun s r rest _ hr => ⟨?_, fun h => crc_illegal (.inr ⟨r, rest, hr, h⟩)⟩,
    fun s h => crc_illegal (.inl h)⟩
  intro ht hl ha hv hf he hp hh
  exact crc_closes hr ht hl ⟨ha, hv, hf, he, hp, hh⟩

end Sys2Proof
end

section
set_option Elab.async false
/-! SUPPORT. What `end`, `yield` and `stop` leave (R99, R100, R101, R105, R106). -/

namespace Sys2Proof.Machine

section
variable {s : State}

theorem exec_endTask_ready (hm : MayIssue .endTask [] s) : exec .endTask s = .next ((s.read []).upd (fun x =>
    if s.ctx = 0 then x.tickId.seq (fun q => { q.setHold 0 {} with st := .ending, regions := [], point := 0 })
    else x.tickId.handlerEnds s.ctx)) :=
  (show exec .endTask s = execEndTask s from rfl).trans (issue_ready hm _)

theorem end_main (hc : s.ctx = 0) : WordResult .endTask [] s (fun t => OnlyCore s.cur s t ∧ (t.core s.cur).r = s.me.r ∧
    (t.core s.cur).c = s.me.c ∧ (t.core s.cur).q.st = .ending ∧ (t.core s.cur).q.regions = [] ∧
    (t.core s.cur).q.pc = s.me.q.pc) := fun _ hm => by
  refine ⟨_, exec_endTask_ready hm, State.read_upd_only s [] _, ?_⟩
  rw [State.read_upd_core, if_pos hc]
  exact ⟨rfl, rfl, rfl, rfl, rfl⟩

/-- A handler context's sequencer once it is written, and the others (R101). -/
theorem Seq.hctx_setH (q : Seq) (h : Nat) (v : HCtx) (k : Nat) : (q.setH h v).hctx k = if k = h then v else q.hctx k := by
  unfold Seq.setH Seq.hctx
  split
  · next e => subst e; exact Sparse.get_set_same _ _ _ _
  · next e => exact Sparse.get_set_other _ _ _ e

/-- A handler context that ends with no notification waiting is DORMANT (R101). -/
theorem Core.handlerEnds_quietly {x : Core} (h : Nat) (hn : x.q.notes = []) :
    x.handlerEnds h = x.seq (fun q => (q.setH h { q.hctx h with st := .dormant }).setHold h {}) := by
  have hn' : (x.seq (fun q => (q.setH h { q.hctx h with st := .dormant }).setHold h {})).q.notes = [] := hn
  unfold Core.handlerEnds
  dsimp only
  rw [hn']

theorem end_handler (hc : s.ctx ≠ 0) (hn : s.me.q.notes = []) : WordResult .endTask [] s (fun t =>
    OnlyCore s.cur s t ∧ (t.core s.cur).r = s.me.r ∧
    ((t.core s.cur).q.hctx s.ctx).st = .dormant ∧ (t.core s.cur).q.st = s.me.q.st ∧
    ∀ h, h ≠ s.ctx → (t.core s.cur).q.hctx h = s.me.q.hctx h) := fun _ hm => by
  refine ⟨_, exec_endTask_ready hm, State.read_upd_only s [] _, ?_⟩
  have hn' : (s.me.touch s.ctx []).tickId.q.notes = [] := hn
  rw [State.read_upd_core, if_neg hc, Core.handlerEnds_quietly s.ctx hn']
  have hh : ∀ k, ((s.me.touch s.ctx []).tickId.seq (fun q => (q.setH s.ctx { q.hctx s.ctx with st := .dormant }).setHold s.ctx {})).q.hctx k =
      if k = s.ctx then { s.me.q.hctx s.ctx with st := .dormant } else s.me.q.hctx k :=
    fun k => Seq.hctx_setH (s.me.touch s.ctx []).tickId.q s.ctx _ k
  refine ⟨rfl, ?_, rfl, fun h hne => ?_⟩
  · rw [hh, if_pos rfl]
  · rw [hh, if_neg hne]

/-! ### `yield` -/

theorem exec_yield_ready (hm : MayIssue .yield [] s) : exec .yield s = .next (((s.read []).done 1).upd (fun x =>
    if s.ctx = 0 then x.seq (fun q => { q with point := 2 }) else x)) :=
  (show exec .yield s = execYield s from rfl).trans (issue_ready hm _)

/-- A main context that has gone on stands at a point of R97 and nothing else changes (R106). -/
theorem CoreKept.point {x y : Core} (h : CoreKept x y) (n : Nat) : CoreKept x (y.seq (fun q => { q with point := n })) := by
  refine ⟨?_, h.engines, ?_⟩
  · rw [h.rest]; rfl
  · show ({ y.q with point := n } : Seq) = _
    rw [h.place]; rfl

theorem yield_result (s : State) : WordResult .yield [] s (fun t =>
    Quiet s t ∧ Passes s t 1 ∧ (s.ctx = 0 → (t.core s.cur).q.point = 2)) := fun _ hm => by
  obtain ⟨hq, hp⟩ := State.done_quiet s [] Nat.one_pos
  have hc : (((s.read []).done 1).upd (fun x => if s.ctx = 0 then x.seq (fun q => { q with point := 2 }) else x)).core s.cur =
      if s.ctx = 0 then (((s.read []).done 1).core s.cur).seq (fun q => { q with point := 2 }) else ((s.read []).done 1).core s.cur :=
    State.core_upd ((s.read []).done 1) _
  refine ⟨_, exec_yield_ready hm, ⟨OnlyCore.trans hq.only (State.upd_only ((s.read []).done 1) _), ?_, ?_⟩, fun h => ?_, fun h0 => ?_⟩
  · rw [hc]
    split
    · exact CoreKept.point hq.core 2
    · exact hq.core
  · rw [hc]
    split
    · exact hq.regs
    · exact hq.regs
  · rw [hc]
    split
    · exact hp h
    · exact hp h
  · rw [hc, if_pos h0]; rfl

/-! ### `stop` -/

variable {a : Nat} {fea : Bool}

theorem minOf_stop (hw : (Instr.stop a fea).wf = true) : minOf (.stop a fea) = 0x0C := by
  have h : (Instr.stop a fea).check = none := by simpa [Instr.wf] using hw
  have ha : a < 64 := ReadsBack.of_isS ((firstFail_cons _ _ _).1 h).1
  obtain ⟨e, -⟩ := crOf_crWord { crBare 0 0x0C 0 a 0 0 with fea := fea } (CR.fits_mk (ha := ha))
  have hmaj : fld (crWord { crBare 0 0x0C 0 a 0 0 with fea := fea }) 58 6 = 0 := congrArg CR.maj e
  have hmn : fld (crWord { crBare 0 0x0C 0 a 0 0 with fea := fea }) 50 8 = 0x0C := congrArg CR.mn e
  show (if fld (crWord { crBare 0 0x0C 0 a 0 0 with fea := fea }) 58 6 = 5 then _ else fld (crWord { crBare 0 0x0C 0 a 0 0 with fea := fea }) 50 8) = _
  rw [hmaj, hmn]; rfl

theorem exec_stop_ready (hm : MayIssue (.stop a fea) [.s a fea] s) : exec (.stop a fea) s =
    if s.me.q.priv = false then privTrap (s.read [.s a fea]) (minOf (.stop a fea))
    else if s.cfg.total ≤ (s.sc a).toNat then trap (s.read [.s a fea]) 1 ((s.sc a).toNat % 2 ^ 32)
    else .next (((s.read [.s a fea]).mod (s.sc a).toNat Core.requestStop).done 1) := by
  calc exec (.stop a fea) s = execStop a fea s := rfl
    _ = _ := issue_ready hm _
    _ = _ := by dsimp only; rw [State.sc_upd_touch, State.read_me, Core.touch_q]; rfl

theorem stop_unprivileged (hp : s.me.q.priv = false) : TrapsBy (.stop a fea) [.s a fea] s 10 0x0C s.me.q.pc := fun hw =>
  trap_trapped (fun hm => (exec_stop_ready hm).trans ((if_pos hp).trans (by rw [privTrap, minOf_stop hw]))) hw

theorem stop_absent (hp : s.me.q.priv = true) (h : s.cfg.total ≤ (s.sc a).toNat) :
    TrapsBy (.stop a fea) [.s a fea] s 1 ((s.sc a).toNat % 2 ^ 32) s.me.q.pc :=
  trap_trapped fun hm => (exec_stop_ready hm).trans ((if_neg (by rw [hp]; decide)).trans (if_pos h))

theorem Core.requestStop_stop (x : Core) : x.requestStop.q.stop = (x.q.stop || (x.q.st != .idle && x.q.st != .faulted)) := by
  unfold Core.requestStop
  split
  · next h => rcases h with h | h <;> simp [h]
  · next h =>
    rw [not_or] at h
    simp [Core.seq, h.1, h.2]

/-- A stop request changes a core in that it is pending and in nothing else (R105). -/
theorem Core.requestStop_kept (x : Core) : x.requestStop.r = x.r ∧ x.requestStop.q.pcOf = x.q.pcOf ∧ x.requestStop.q.loops = x.q.loops ∧
    x.requestStop.q.tact = x.q.tact := by
  unfold Core.requestStop; split <;> exact ⟨rfl, rfl, rfl, rfl⟩

/-- A core after a stop request to core `c` of the state in which the word has read its sources (R105). -/
theorem State.core_requested (s : State) (l : List Src) (c d : Nat) :
    (((s.read l).mod c Core.requestStop).core d).r = (s.core d).r ∧
    ((((s.read l).mod c Core.requestStop).core d).q.pcOf = (s.core d).q.pcOf ∧
      (((s.read l).mod c Core.requestStop).core d).q.loops = (s.core d).q.loops ∧
      (((s.read l).mod c Core.requestStop).core d).q.tact = (s.core d).q.tact) ∧
    (((s.read l).mod c Core.requestStop).core d).q.stop =
      ((s.core d).q.stop || (d == c && (s.core d).q.st != .idle && (s.core d).q.st != .faulted)) := by
  have hrc : ((s.read l).core d).r = (s.core d).r ∧ ((s.read l).core d).q = (s.core d).q := by
    by_cases h : d = s.cur
    · subst h
      have e : (s.read l).core s.cur = s.me.touch s.ctx l := State.read_me s _
      rw [e]; exact ⟨rfl, rfl⟩
    · rw [State.core_upd_other s _ h]; exact ⟨rfl, rfl⟩
  obtain ⟨hr, hq⟩ := hrc
  by_cases hd : d = c
  · subst hd
    obtain ⟨k1, k2, k3, k4⟩ := ((s.read l).core d).requestStop_kept
    rw [State.core_mod_same, k1, k2, k3, k4, Core.requestStop_stop, hr, hq, beq_self_eq_true, Bool.true_and]
    exact ⟨rfl, ⟨rfl, rfl, rfl⟩, rfl⟩
  · rw [State.core_mod_other _ _ hd, hr, hq, beq_false_of_ne hd, Bool.false_and, Bool.false_and, Bool.or_false]
    exact ⟨rfl, ⟨rfl, rfl, rfl⟩, rfl⟩

/-- What a word leaves that has changed cores alone, and then goes on: of each core, its registers and its pending stop. -/
theorem State.done_cores {s u : State} (hu : u = { s with cores := u.cores }) (c : Nat) :
    ((u.done 1).core c).r = (u.core c).r ∧ ((u.done 1).core c).q.stop = (u.core c).q.stop := by
  by_cases hc : c = s.cur
  · subst hc; rw [State.done_core (s := s) (by rw [hu]) (by rw [hu]), Core.next_place]; exact ⟨rfl, rfl⟩
  · rw [State.done_core_other (s := s) (by rw [hu]) hc]; exact ⟨rfl, rfl⟩

theorem State.done_cores_rest {s u : State} (hu : u = { s with cores := u.cores }) : u.done 1 = { s with cores := (u.done 1).cores } := by
  calc u.done 1 = { u with cores := (u.done 1).cores } := rfl
    _ = _ := by rw [hu]

theorem stop_requests (hp : s.me.q.priv = true) (h : (s.sc a).toNat < s.cfg.total) : WordResult (.stop a fea) [.s a fea] s (fun t =>
    t = { s with cores := t.cores } ∧ Passes s t 1 ∧ (∀ c, (t.core c).r = (s.core c).r) ∧
    (∀ c, (t.core c).q.stop = ((s.core c).q.stop ||
      (c == (s.sc a).toNat && (s.core c).q.st != .idle && (s.core c).q.st != .faulted))) ∧
    ∀ c, c ≠ s.cur → c ≠ (s.sc a).toNat → t.core c = s.core c) := fun _ hm => by
  have hreq := State.core_requested s [.s a fea] (s.sc a).toNat
  have hother : ∀ c, c ≠ s.cur → c ≠ (s.sc a).toNat → ((s.read [.s a fea]).mod (s.sc a).toNat Core.requestStop).core c = s.core c :=
    fun c h1 h2 => (State.core_mod_other _ _ h2).trans (State.core_upd_other s _ h1)
  have hex := (exec_stop_ready hm).trans ((if_neg (by rw [hp]; decide)).trans (if_neg (Nat.not_le.2 h)))
  have hu : (s.read [.s a fea]).mod (s.sc a).toNat Core.requestStop =
      { s with cores := ((s.read [.s a fea]).mod (s.sc a).toNat Core.requestStop).cores } := rfl
  generalize (s.read [.s a fea]).mod (s.sc a).toNat Core.requestStop = u at hreq hother hex hu
  have hcur : u.cur = s.cur := by rw [hu]
  have hctx : u.ctx = s.ctx := by rw [hu]
  obtain ⟨-, ⟨hpc, hl, ht⟩, -⟩ := hreq s.cur
  refine ⟨u.done 1, hex, State.done_cores_rest hu, State.done_passes hcur hctx Nat.one_pos (congrFun hpc _) hl ht, fun c => ?_, fun c => ?_,
    fun c h1 h2 => ?_⟩
  · exact (State.done_cores hu c).1.trans (hreq c).1
  · exact (State.done_cores hu c).2.trans (hreq c).2.2
  · rw [State.done_core_other hcur h1, hother c h1 h2]

end

end Sys2Proof.Machine

namespace Sys2Proof

open Machine

/-- Settles O14: `end` in either kind of context, `yield`, and `stop` after its two checks. -/
theorem endYieldAndStop : Obligations.EndYieldAndStop :=
  ⟨fun _ => end_main, fun _ => end_handler, yield_result, fun _ _ _ => stop_requests, fun _ _ _ => stop_unprivileged,
    fun _ _ _ => stop_absent, by decide⟩

end Sys2Proof
end

section
set_option Elab.async false
/-! SUPPORT. What a word's sources let it do, and the trap of a handler context (R48, R101 to R103). -/

namespace Sys2Proof.Machine

/-! ### Sources -/

section
variable {x : Core} {ctx : Nat} {l a b : List Src} {r : Src}

/-- A word waits while a source with FE 0 is empty (R48). -/
theorem Core.fetch_wait (h : ∃ r ∈ l, r.fe = false ∧ x.full ctx r = false) : x.fetch ctx l = .wait := by
  obtain ⟨r, hr, hfe, hfull⟩ := h
  exact if_pos (List.any_eq_true.2 ⟨r, hr, by rw [hfe, hfull]; rfl⟩)

/-- The first source found empty, all of them with FE 1, is the one that traps (R48). -/
theorem Core.fetch_empty (hfe : ∀ r ∈ l, r.fe = false → x.full ctx r = true) (hl : l = a ++ r :: b)
    (ha : ∀ k ∈ a, x.full ctx k = true) (hr : x.full ctx r = false) : x.fetch ctx l = .empty r.reg := by
  have hany : ¬l.any (fun r => !r.fe && !x.full ctx r) = true := by
    rw [List.any_eq_true]
    rintro ⟨k, hk, hb⟩
    cases hf : k.fe
    · rw [hfe k hk hf] at hb; simp at hb
    · rw [hf] at hb; simp at hb
  have hfind : l.find? (fun r => !x.full ctx r) = some r := by
    rw [List.find?_eq_some_iff_append]
    exact ⟨by rw [hr]; rfl, a, b, hl, fun k hk => by rw [ha k hk]; rfl⟩
  refine (if_neg hany).trans ?_
  rw [hfind]

end

/-! ### The trap of a handler context -/

/-- What the end of a handler context leaves alone: the main context, the control registers, and what is on its way (R101). -/
theorem Core.handlerEnds_kept (x : Core) (h : Nat) : (x.handlerEnds h).c = x.c ∧ (x.handlerEnds h).q.st = x.q.st ∧
    (x.handlerEnds h).q.pc = x.q.pc ∧ (x.handlerEnds h).q.tact = x.q.tact ∧ (x.handlerEnds h).q.late = x.q.late ∧
    (x.handlerEnds h).q.tookAt = x.q.tookAt := by
  unfold Core.handlerEnds
  dsimp only
  split <;> exact ⟨rfl, rfl, rfl, rfl, rfl, rfl⟩

/-- A trap joins what is on its way to the main context, or is lost (R103). -/
theorem Core.late_raises {x y : Core} {now : Nat} {P : Late → Prop} (l : Late) (hlate : y.q.late = x.q.late)
    (htook : y.q.tookAt = x.q.tookAt) (harr : l.arr = now) (hp : P l) : Raises now x (y.late l) P := by
  have hl : (y.late l).q = if y.q.tookAt = l.arr + 1 then y.q else { y.q with late := y.q.late ++ [l] } := rfl
  constructor
  · intro h
    rw [hl, htook, harr, if_neg h]
    exact ⟨l, by rw [hlate], hp, harr⟩
  · intro h
    rw [hl, htook, harr, if_pos h, hlate]

/-- A trap on its way changes nothing but what is on its way (R103). -/
theorem Core.late_kept (x : Core) (l : Late) : (x.late l).c = x.c ∧ (x.late l).r = x.r ∧ (x.late l).q.st = x.q.st ∧
    (x.late l).q.pc = x.q.pc ∧ (x.late l).q.tact = x.q.tact ∧ (x.late l).q.hctx = x.q.hctx := by
  have hq : (x.late l).q = if x.q.tookAt = l.arr + 1 then x.q else { x.q with late := x.q.late ++ [l] } := rfl
  refine ⟨rfl, rfl, ?_⟩
  rw [hq]
  split <;> exact ⟨rfl, rfl, rfl, rfl⟩

/-- A precise trap of a handler context (R101, R103). -/
theorem State.trap_handlerTrapped (s : State) (cause data : Nat) (h : s.ctx ≠ 0) :
    HandlerTrapped s (s.upd (fun x => x.trapAt s.now s.ctx cause false data (x.q.pcOf 0))) cause data := by
  have hc : (s.upd (fun x => x.trapAt s.now s.ctx cause false data (x.q.pcOf 0))).core s.cur =
      (s.me.tickId.handlerEnds s.ctx).late
        { clk := s.me.q.nid, cause := cause, info := infoWord s.ctx false false 3 (s.me.q.pcOf s.ctx) data, cont := false, vec := false, arr := s.now } :=
    (State.core_upd s _).trans (if_neg h)
  obtain ⟨ec, est, epc, etact, elate, etook⟩ := s.me.tickId.handlerEnds_kept s.ctx
  refine ⟨State.upd_only s _, ?_, ?_, fun hn => ?_, ?_⟩ <;> rw [hc]
  · rw [(Core.late_kept _ _).1, ec]; rfl
  · obtain ⟨-, -, k1, k2, k3, -⟩ := Core.late_kept (s.me.tickId.handlerEnds s.ctx) _
    rw [k1, k2, k3, est, epc, etact]
    exact ⟨rfl, rfl, rfl⟩
  · obtain ⟨-, kr, -, -, -, kh⟩ := Core.late_kept (s.me.tickId.handlerEnds s.ctx) _
    rw [kr, kh, Core.handlerEnds_quietly (x := s.me.tickId) s.ctx hn]
    refine ⟨?_, rfl⟩
    have e := Seq.hctx_setH s.me.tickId.q s.ctx { s.me.tickId.q.hctx s.ctx with st := .dormant } s.ctx
    rw [if_pos rfl] at e
    exact congrArg HCtx.st e
  · refine Core.late_raises _ (elate.trans rfl) (etook.trans rfl) rfl ⟨rfl, rfl, rfl, ?_⟩
    simp [infoWord]

/-! ### Issue -/

section
variable {i : Instr} {l : List Src} {s : State} {body : State → Out}

theorem issue_runs (hr : s.runs = true) (ha : s.ctx = 0 ∨ handlerOk i = true) : issue i s l body =
    match s.me.fetch s.ctx l with
    | .wait => stall s
    | .empty r => trap s 2 r
    | .ok =>
      if s.me.markAt (consumed i s.ctx l) ≠ 0 then s.sourceContained i (consumed i s.ctx l)
      else body (s.upd (fun x => x.touch s.ctx l)) := by
  have h1 : ¬(!s.runs) = true := by rw [hr]; decide
  have h2 : ¬(s.ctx ≠ 0 ∧ (!handlerOk i) = true) := by
    rintro ⟨h, hn⟩
    rcases ha with h0 | h0
    · exact h h0
    · rw [h0] at hn; exact absurd hn (by decide)
  exact (if_neg h1).trans (if_neg h2)

theorem issue_notAllowed (hr : s.runs = true) (hc : s.ctx ≠ 0) (hh : handlerOk i = false) : issue i s l body = illegal i s :=
  (if_neg (by rw [hr]; decide)).trans (if_pos ⟨hc, by rw [hh]; rfl⟩)

end

end Sys2Proof.Machine

namespace Sys2Proof

open Machine

/-- Settles O17: by what the word's sources let it do, in the main context and in a handler context. -/
theorem sourcesWaitOrTrap : Obligations.SourcesWaitOrTrap := by
  intro i l s body hr
  refine ⟨fun ha h => ?_, fun hc hfe a r b hl ha he => ?_, fun hc hh => ?_, fun hc hh hfe a r b hl ha he => ?_⟩
  · rw [issue_runs hr ha, Core.fetch_wait h]; rfl
  · rw [issue_runs hr (.inl hc), Core.fetch_empty hfe hl ha he]
    exact ⟨_, rfl, State.trap_trapped s 2 r.reg hc⟩
  · rw [issue_notAllowed hr hc hh]
    exact ⟨_, rfl, State.trap_handlerTrapped s 1 (minOf i) hc⟩
  · rw [issue_runs hr (.inr hh), Core.fetch_empty hfe hl ha he]
    exact ⟨_, rfl, State.trap_handlerTrapped s 2 r.reg hc⟩

end Sys2Proof
end

section
set_option Elab.async false
/-! SUPPORT. A turn of a core in which one context alone may issue, of a pipe and of an event (R51, R100 to R103, R126). -/

namespace Sys2Proof.Machine

/-! ### The choice of a context (R102) -/

theorem handlersAfter_nodup (last : Nat) : (handlersAfter last).Nodup ∧ ∀ h, h ∈ handlersAfter last ↔ 1 ≤ h ∧ h ≤ 3 := by
  have e : handlersAfter last = [last % 3 + 1, (last + 1) % 3 + 1, (last + 2) % 3 + 1] := rfl
  have h3 : last % 3 = 0 ∨ last % 3 = 1 ∨ last % 3 = 2 := by omega
  rw [e]
  rcases h3 with h | h | h
  · rw [h, show (last + 1) % 3 = 1 by omega, show (last + 2) % 3 = 2 by omega]
    exact ⟨by decide, fun h => by simp only [List.mem_cons, List.not_mem_nil, or_false]; omega⟩
  · rw [h, show (last + 1) % 3 = 2 by omega, show (last + 2) % 3 = 0 by omega]
    exact ⟨by decide, fun h => by simp only [List.mem_cons, List.not_mem_nil, or_false]; omega⟩
  · rw [h, show (last + 1) % 3 = 0 by omega, show (last + 2) % 3 = 1 by omega]
    exact ⟨by decide, fun h => by simp only [List.mem_cons, List.not_mem_nil, or_false]; omega⟩

/-- With no trap on its way each of the four contexts is chosen from, once. -/
theorem Core.choices_once {x : Core} (hlate : x.q.late = []) (run : Nat) :
    (x.choices run).Nodup ∧ ∀ h, h ∈ x.choices run ↔ h ≤ 3 := by
  obtain ⟨hn, hm⟩ := handlersAfter_nodup x.q.lastH
  have hd : ¬x.lateWaits = true := by simp [Core.lateWaits, hlate]
  have h0 : 0 ∉ handlersAfter x.q.lastH := fun h => absurd ((hm 0).1 h).1 (by decide)
  have e : x.choices run = if 3 ≤ run then [0] ++ handlersAfter x.q.lastH else handlersAfter x.q.lastH ++ [0] := by
    unfold Core.choices; rw [if_neg hd]
  rw [e]
  split
  · refine ⟨List.nodup_cons.2 ⟨h0, hn⟩, fun h => ?_⟩
    rw [List.singleton_append, List.mem_cons, hm]; omega
  · refine ⟨hn.append (List.nodup_singleton 0) ?_, fun h => ?_⟩
    · rw [List.disjoint_singleton]; exact h0
    · rw [List.mem_append, List.mem_singleton, hm]; omega

theorem Core.choices_split {x : Core} (hlate : x.q.late = []) (run : Nat) {ctx : Nat} (hc : ctx ≤ 3) :
    ∃ a b, x.choices run = a ++ ctx :: b ∧ (∀ h ∈ a, h ≠ ctx) ∧ ∀ h ∈ b, h ≠ ctx := by
  obtain ⟨hn, hm⟩ := Core.choices_once hlate run
  obtain ⟨a, b, e⟩ := List.append_of_mem ((hm ctx).2 hc)
  rw [e, List.nodup_append, List.nodup_cons] at hn
  obtain ⟨-, ⟨hb, -⟩, hab⟩ := hn
  exact ⟨a, b, e, fun h ha => hab h ha ctx (List.mem_cons_self ..), fun h hh he => hb (he ▸ hh)⟩

/-! ### Contexts in turn -/

section
variable {s t : State} {c ctx run : Nat} {a b : List Nat}

theorem State.contextStep_stalled (h : s.me.contextRuns s.ctx = false) : s.contextStep = stall s :=
  if_pos (by rw [h]; rfl)

/-- What issuing adds to the state that the word leaves (R102, R126): the record of a point of R97 passed. -/
def State.mainPassed (t : State) (c ctx now : Nat) : State := if ctx = 0 then t.mod c (fun x => x.passed now) else t

theorem State.tryContexts_cons : s.tryContexts c run (ctx :: b) =
    match ({ s with cur := c, ctx := ctx, waited := false, noClock := false } : State).contextStep with
    | .next t =>
      if t.waited then s.tryContexts c run b
      else if ((s.core c).q.holdOf ctx).k = .free ∧ ((t.core c).q.holdOf ctx).k.unready then t.tryContexts c run b
      else if t.noClock then .next (t.mainPassed c ctx s.now)
      else if ((s.core c).q.holdOf ctx).k ≠ .free ∧ !((s.core c).q.holdOf ctx).k.unready then
        .next { t.mainPassed c ctx s.now with rank := (2 * c + 1, (s.core c).q.nid + 1) }
      else .next ((t.mainPassed c ctx s.now).issuedBy c ctx run)
    | .fault f => .fault f
    | .refused r => .refused r := (State.tryContexts.eq_2 s c run ctx b).trans rfl

/-- Contexts that stand still are passed over (R102). -/
theorem State.tryContexts_skip (h : ∀ k ∈ a, (s.core c).contextRuns k = false) :
    s.tryContexts c run (a ++ b) = s.tryContexts c run b := by
  induction a with
  | nil => rfl
  | cons k a ih =>
    rw [List.cons_append, State.tryContexts_cons,
      State.contextStep_stalled (s := { s with cur := c, ctx := k, waited := false, noClock := false }) (h k (List.mem_cons_self ..))]
    exact (if_pos rfl).trans (ih fun j hj => h j (List.mem_cons_of_mem _ hj))

theorem State.tryContexts_none (h : ∀ k ∈ a, (s.core c).contextRuns k = false) :
    s.tryContexts c run a = .next { s with rank := (2 * c + 2, 0) } := by
  rw [← List.append_nil a, State.tryContexts_skip h]; rfl

/-- The turn of a context among others that stand still. -/
theorem State.tryContexts_one (hs : ∀ k ∈ a ++ b, (s.core c).contextRuns k = false) :
    s.tryContexts c run (a ++ ctx :: b) =
    match ({ s with cur := c, ctx := ctx, waited := false, noClock := false } : State).contextStep with
    | .next t =>
      if t.waited then .next { s with rank := (2 * c + 2, 0) }
      else if ((s.core c).q.holdOf ctx).k = .free ∧ ((t.core c).q.holdOf ctx).k.unready then t.tryContexts c run b
      else if t.noClock then .next (t.mainPassed c ctx s.now)
      else if ((s.core c).q.holdOf ctx).k ≠ .free ∧ !((s.core c).q.holdOf ctx).k.unready then
        .next { t.mainPassed c ctx s.now with rank := (2 * c + 1, (s.core c).q.nid + 1) }
      else .next ((t.mainPassed c ctx s.now).issuedBy c ctx run)
    | .fault f => .fault f
    | .refused r => .refused r := by
  rw [State.tryContexts_skip fun k hk => hs k (List.mem_append_left _ hk), State.tryContexts_cons,
    State.tryContexts_none fun k hk => hs k (List.mem_append_right _ hk)]

end

/-! ### The turn (R102) -/

/-- What a turn does with the state its act leaves (R205). -/
def tableAfter (o : Out) (old : State) : Out :=
  match o with
  | .next t => .next (t.tableWritten old)
  | o => o

section
variable {s : State} {c ctx : Nat} {rest : List Turn}

theorem State.begun_now {t : Turn} (hd : t.dt = 0) (he : s.tooLate t.act = false) : s.begun t rest = Begins s t.act rest := by
  have h0 : s.clocksFor t = 0 := (if_neg fun h => by rw [he] at h; exact absurd h.2 (by decide)).trans hd
  unfold State.begun
  rw [h0]; rfl

theorem step_now {a : Act} (hag : s.agenda = ⟨0, a⟩ :: rest) (he : s.tooLate a = false) :
    Machine.step s = tableAfter ((Begins s a rest).act a) (Begins s a rest) := by
  have hn : s.nextTurn = (⟨0, a⟩, rest) := by unfold State.nextTurn; rw [hag]
  show s.turn = _
  unfold State.turn
  rw [hn]
  dsimp only
  rw [State.begun_now (t := ⟨0, a⟩) rfl he]
  unfold tableAfter
  cases (Begins s a rest).act a <;> rfl

/-- An act that leaves the table's entries alone adds nothing to it (R205). -/
theorem State.tableWritten_same {s t : State} (h : t.pontil = s.pontil) (hu : ∀ e, t.useOf e = s.useOf e) : t.tableWritten s = t := by
  have he : ∀ e, t.ent e = s.ent e := fun e => by show Sparse.get _ t.pontil e = Sparse.get _ s.pontil e; rw [h]
  have hc : ((s.pontil ++ t.pontil).map Prod.fst).eraseDups.filter (fun e => s.ent e != t.ent e || s.useOf e != t.useOf e) = [] := by
    rw [List.filter_eq_nil_iff]
    intro e _
    rw [he, hu]; simp
  unfold State.tableWritten
  rw [hc]; rfl

end

end Sys2Proof.Machine

namespace Sys2Proof

open Machine

section
variable {s : State} {c ctx : Nat} {rest : List Turn}

theorem AloneMayIssue.others (h : AloneMayIssue s c ctx) {k : Nat} (hk : k ≠ ctx) : (s.core c).contextRuns k = false := by
  unfold Core.contextRuns
  by_cases h0 : k = 0
  · subst h0
    have hm := h.main
    rw [if_neg hk.symm] at hm
    rw [if_pos rfl, beq_false_of_ne hm.1, Bool.false_and]
  · rw [if_neg h0]; exact beq_false_of_ne (h.handlers k hk)

theorem AloneMayIssue.runs (h : AloneMayIssue s c ctx) : (s.core c).contextRuns ctx = true := by
  have hm := h.main
  unfold Core.contextRuns
  by_cases h0 : ctx = 0
  · rw [if_pos h0] at hm
    obtain ⟨hst, harm, -⟩ := hm
    rw [if_pos h0, hst, harm]; rfl
  · rw [if_neg h0] at hm
    obtain ⟨-, -, hst⟩ := hm
    rw [if_neg h0, hst]; rfl

theorem AloneMayIssue.le_three (h : AloneMayIssue s c ctx) : ctx ≤ 3 := by
  by_cases h0 : ctx = 0
  · omega
  · have hm := h.main; rw [if_neg h0] at hm; exact hm.2.1

theorem AloneMayIssue.nextPc (h : AloneMayIssue s c ctx) : (s.core c).nextPc ctx = (s.core c).q.pcOf ctx := by
  refine if_neg fun ⟨h0, ha⟩ => ?_
  have hm := h.main
  rw [if_pos h0] at hm
  rw [hm.2.2] at ha; exact absurd ha (by decide)

/-- The state in which the word of the context that alone may issue runs. -/
def Issuing (s : State) (c ctx : Nat) (rest : List Turn) : State := { Begins s (.core c) rest with cur := c, ctx := ctx }

/-- What the context that alone may issue does on its turn: it fetches and runs its next word. -/
theorem AloneMayIssue.contextStep (h : AloneMayIssue s c ctx) : (Issuing s c ctx rest).contextStep =
    match (s.core c).fetchC ((s.core c).q.pcOf ctx) with
    | .outside n second => .next ((Issuing s c ctx rest).upd (fun x => x.trapAt s.now ctx 7 second n (x.q.pcOf 0)))
    | .bad data => trap (Issuing s c ctx rest) 1 data
    | .ok i => exec i (Issuing s c ctx rest) := by
  have hme : (Issuing s c ctx rest).me = s.core c := rfl
  have hctx : (Issuing s c ctx rest).ctx = ctx := rfl
  unfold State.contextStep
  rw [hme, hctx, h.runs, h.nextPc, if_neg (by decide), if_neg (not_not.2 h.sound)]
  rfl

/-- With no trap on its way and no stop pending, a C-word boundary takes nothing (R103, R106). -/
theorem AloneMayIssue.boundary (h : AloneMayIssue s c ctx) : (Begins s (.core c) rest).boundary c = none := by
  have hl : ((Begins s (.core c) rest).core c).oldestLate = none := by
    show (match (s.core c).q.late with | [] => none | l :: rest => some _) = _
    rw [h.noLate]
  unfold State.boundary
  dsimp only
  rw [hl]
  refine if_pos (.inr (.inr (.inl ?_)))
  show (!(s.core c).q.stop) = true
  rw [h.noStop]; rfl

/-- The turn of the context that alone may issue, by what its word does (R102, R126). -/
theorem AloneMayIssue.step (h : AloneMayIssue s c ctx) (hag : s.agenda = ⟨0, .core c⟩ :: rest) :
    ∃ b : List Nat, (∀ k ∈ b, k ≠ ctx) ∧ Machine.step s = tableAfter (match (Issuing s c ctx rest).contextStep with
    | .next t =>
      if t.waited then .next { Begins s (.core c) rest with rank := (2 * c + 2, 0) }
      else if ((s.core c).q.holdOf ctx).k = .free ∧ ((t.core c).q.holdOf ctx).k.unready then
        t.tryContexts c ((s.core c).q.handlerRun s.now) b
      else if t.noClock then .next (t.mainPassed c ctx s.now)
      else if ((s.core c).q.holdOf ctx).k ≠ .free ∧ !((s.core c).q.holdOf ctx).k.unready then
        .next { t.mainPassed c ctx s.now with rank := (2 * c + 1, (s.core c).q.nid + 1) }
      else .next ((t.mainPassed c ctx s.now).issuedBy c ctx ((s.core c).q.handlerRun s.now))
    | .fault f => .fault f
    | .refused r => .refused r) (Begins s (.core c) rest) := by
  obtain ⟨a, b, e, ha, hb⟩ := Core.choices_split h.noLate ((s.core c).q.handlerRun s.now) h.le_three
  refine ⟨b, hb, ?_⟩
  have hin : ¬((Begins s (.core c) rest).halted = true ∨ (Begins s (.core c) rest).cfg.total ≤ c) := by
    show ¬(s.halted = true ∨ s.cfg.total ≤ c)
    rw [h.awake]
    exact fun h' => h'.elim (by decide) (Nat.not_le.2 h.inside)
  have hturn : (Begins s (.core c) rest).coreTurn c = (Begins s (.core c) rest).tryContexts c ((s.core c).q.handlerRun s.now)
      ((s.core c).choices ((s.core c).q.handlerRun s.now)) := by
    unfold State.coreTurn
    rw [if_neg hin, h.boundary]
    rfl
  have hact : (Begins s (.core c) rest).act (.core c) = (Begins s (.core c) rest).coreTurn c := rfl
  have hstill : ∀ k ∈ a ++ b, ((Begins s (.core c) rest).core c).contextRuns k = false := fun k hk =>
    h.others ((List.mem_append.1 hk).elim (ha k) (hb k))
  rw [step_now hag h.early, hact, hturn, e, State.tryContexts_one hstill]
  rfl

end

/-! ### Fetch (R46, R51) -/

/-- Every instruction that a decoding gives has at least `n` words. -/
def Longer (d : Dec) (n : Nat) : Prop := ∀ i k, d = .ok (i, k) → n ≤ k

section
variable {n : Nat}

theorem Longer.of_give (i : Instr) {k : Nat} (z : Bool) (h : n ≤ k) : Longer (give i k z) n := by
  intro j m e
  unfold give at e
  split at e
  · obtain ⟨-, rfl⟩ := Prod.mk.inj (Except.ok.inj e); exact h
  · exact absurd e (by nofun)

theorem Longer.of_error (r : Reject) : Longer (.error r) n := nofun

theorem Longer.swpl (w p : Nat) : Longer (decSwpl w p) 2 := by
  unfold decSwpl
  dsimp only
  split
  · exact .of_give _ _ (Nat.le_refl 2)
  · exact .of_error _

theorem Longer.amo (w p : Nat) : Longer (decAmo w p) 2 := by
  unfold decAmo
  dsimp only
  split
  all_goals first | exact .of_give _ _ (Nat.le_refl 2) | exact .of_error _

/-- A CW instruction's decoding has two words (R51). -/
theorem decodeC_two {w p : Word} {i : Instr} (ht : twoWords w = true) (h : decodeC w p = .ok (i, n)) : 2 ≤ n := by
  have hp : Longer (parseC w.toNat p.toNat) 2 := by
    have hmn : (crOf w.toNat).mn = fld w.toNat 50 8 := rfl
    unfold twoWords at ht
    unfold parseC
    dsimp only at ht ⊢
    split at ht
    · next e =>
      rw [e]
      show Longer (ite _ _ _) 2
      split
      · exact .of_give _ _ (Nat.le_refl 2)
      · exact .of_error _
    · next e => rw [e]; exact .swpl _ _
    · next e => rw [e]; exact .amo _ _
    · next e =>
      rw [e]
      unfold decCpy
      dsimp only
      rw [hmn, beq_iff_eq.1 ht]
      exact .of_give _ _ (Nat.le_refl 2)
    · next e =>
      rw [e]
      unfold decMx
      dsimp only
      rw [hmn]
      have hm := List.contains_iff_mem.1 ht
      simp only [List.mem_cons, List.not_mem_nil, or_false] at hm
      rcases hm with h | h | h | h | h | h | h | h | h <;> rw [h] <;> exact .of_give _ _ (Nat.le_refl 2)
    · next e =>
      rw [e]
      unfold decUm
      dsimp only
      rw [hmn]
      have hm : fld w.toNat 50 8 = 0 ∨ fld w.toNat 50 8 = 1 ∨ fld w.toNat 50 8 = 2 := by have := of_decide_eq_true ht; omega
      rcases hm with h | h | h <;> rw [h]
      · generalize fld p.toNat 57 2 = m
        exact match m with
          | 0 | 1 | 2 => .of_give _ _ (Nat.le_refl 2)
          | _ + 3 => .of_error _
      · exact .of_give _ _ (Nat.le_refl 2)
      · exact .of_give _ _ (Nat.le_refl 2)
    · exact absurd ht (by decide)
  unfold decodeC at h
  split at h
  · exact absurd h (by nofun)
  · next j k e =>
    split at h
    · obtain ⟨rfl, rfl⟩ := Prod.mk.inj (Except.ok.inj h); exact hp _ _ e
    · exact absurd h (by nofun)

end

section
variable {x : Core} {pc n : Nat} {i : Instr}

theorem Core.fetchC_ok (h : pc < x.code.ctlLen) (hn : pc + n ≤ x.code.ctlLen)
    (hd : decodeC (x.cword pc) (x.cword (pc + 1)) = .ok (i, n)) : x.fetchC pc = .ok i := by
  have h2 : ¬(twoWords (x.cword pc) = true ∧ x.code.ctlLen ≤ pc + 1) := fun ⟨ht, hl⟩ => by
    have := decodeC_two ht hd; omega
  refine (if_neg (Nat.not_le.2 h)).trans ((if_neg h2).trans ?_)
  rw [hd]

theorem Core.fetchC_bad {r : Reject} (h : pc < x.code.ctlLen) (hn : twoWords (x.cword pc) = true → pc + 1 < x.code.ctlLen)
    (hd : decodeC (x.cword pc) (x.cword (pc + 1)) = .error r) : x.fetchC pc = .bad (illegalData (x.cword pc)) := by
  refine (if_neg (Nat.not_le.2 h)).trans ((if_neg fun ⟨ht, hl⟩ => Nat.not_le.2 (hn ht) hl).trans ?_)
  rw [hd]

end

/-! ### The turns of the statements -/

section
variable {s t : State} {c ctx : Nat} {rest : List Turn} {i : Instr}

/-- The state a word has left goes on to the record of who issued (R102). -/
theorem AloneMayIssue.step_issued (h : AloneMayIssue s c ctx) (hag : s.agenda = ⟨0, .core c⟩ :: rest)
    (he : (Issuing s c ctx rest).contextStep = .next t) (hw : t.waited = false) (hn : t.noClock = false)
    (hi : ((s.core c).q.holdOf ctx).k ≠ .free ∨ ((t.core c).q.holdOf ctx).k.unready = false)
    (hf : ((s.core c).q.holdOf ctx).k = .free ∨ ((s.core c).q.holdOf ctx).k.unready = true) :
    Machine.step s = .next (((t.mainPassed c ctx s.now).issuedBy c ctx ((s.core c).q.handlerRun s.now)).tableWritten
      (Begins s (.core c) rest)) := by
  obtain ⟨b, -, e⟩ := h.step hag
  rw [e, he]
  dsimp only
  rw [hw, hn, if_neg (by decide), if_neg, if_neg (by decide), if_neg]
  · rfl
  · rintro ⟨h1, h2⟩
    rcases hf with h' | h'
    · exact h1 h'
    · rw [h'] at h2; exact absurd h2 (by decide)
  · rintro ⟨h1, h2⟩
    rcases hi with h' | h'
    · exact h' h1
    · rw [h'] at h2; exact absurd h2 (by decide)

/-- The word of the context that alone may issue (R46, R51). -/
theorem AloneMayIssue.runs_word {n : Nat} (h : AloneMayIssue s c ctx) (hp : (s.core c).q.pcOf ctx < (s.core c).code.ctlLen)
    (hn : (s.core c).q.pcOf ctx + n ≤ (s.core c).code.ctlLen)
    (hd : decodeC ((s.core c).cword ((s.core c).q.pcOf ctx)) ((s.core c).cword ((s.core c).q.pcOf ctx + 1)) = .ok (i, n)) :
    (Issuing s c ctx rest).contextStep = exec i (Issuing s c ctx rest) := by
  rw [h.contextStep, Core.fetchC_ok hp hn hd]

theorem turn_core {n : Nat} (hag : s.agenda = ⟨0, .core c⟩ :: rest) (h : AloneMayIssue s c ctx)
    (hp : (s.core c).q.pcOf ctx < (s.core c).code.ctlLen) (hn : (s.core c).q.pcOf ctx + n ≤ (s.core c).code.ctlLen)
    (hd : decodeC ((s.core c).cword ((s.core c).q.pcOf ctx)) ((s.core c).cword ((s.core c).q.pcOf ctx + 1)) = .ok (i, n)) :
    let b : State := { Begins s (.core c) rest with cur := c, ctx := ctx }
    let main (t : State) : State := if ctx = 0 then t.mod c (fun x => x.passed s.now) else t
    let was := ((s.core c).q.holdOf ctx).k
    let issues (t : State) : Prop := was ≠ .free ∨ ((t.core c).q.holdOf ctx).k.unready = false
    (∀ t, exec i b = .next t → t.waited = false → t.noClock = false → issues t → (was = .free ∨ was.unready = true) →
      Machine.step s = .next (((main t).issuedBy c ctx ((s.core c).q.handlerRun s.now)).tableWritten (Begins s (.core c) rest))) ∧
    (∀ t, exec i b = .next t → t.waited = false → t.noClock = true → issues t →
      Machine.step s = .next ((main t).tableWritten (Begins s (.core c) rest))) ∧
    (∀ t, exec i b = .next t → t.waited = false → t.noClock = false → was ≠ .free → was.unready = false →
      Machine.step s = .next (({ main t with rank := (2 * c + 1, (s.core c).q.nid + 1) } : State).tableWritten
        (Begins s (.core c) rest))) ∧
    (∀ t, exec i b = .next t → t.waited = false → was = .free → ((t.core c).q.holdOf ctx).k.unready = true →
      (∀ h, h ≠ ctx → (t.core c).contextRuns h = false) →
      Machine.step s = .next (({ t with rank := (2 * c + 2, 0) } : State).tableWritten (Begins s (.core c) rest))) ∧
    (∀ t, exec i b = .next t → t.waited = true → Machine.step s = .next { Begins s (.core c) rest with rank := (2 * c + 2, 0) }) ∧
    (∀ f, exec i b = .fault f → Machine.step s = .fault f) ∧
    ∀ r, exec i b = .refused r → Machine.step s = .refused r := by
  intro b main was issues
  have hx : (Issuing s c ctx rest).contextStep = exec i b := h.runs_word hp hn hd
  obtain ⟨l, hl, e⟩ := h.step hag
  have ready : ∀ {t : State}, issues t → ¬(was = .free ∧ ((t.core c).q.holdOf ctx).k.unready = true) := by
    rintro t (h' | h') ⟨h1, h2⟩
    · exact h' h1
    · rw [h'] at h2; exact absurd h2 (by decide)
  refine ⟨fun t ht hw hc hi hf => ?_, fun t ht hw hc hi => ?_, fun t ht hw hc hf hu => ?_, fun t ht hw hf hu ho => ?_, fun t ht hw => ?_,
    fun f hf => ?_, fun r hr => ?_⟩
  · exact h.step_issued hag (hx.trans ht) hw hc hi hf
  · rw [e, hx, ht]
    dsimp only
    rw [hw, hc, if_neg (by decide), if_neg (ready hi), if_pos rfl]; rfl
  · rw [e, hx, ht]
    dsimp only
    rw [hw, hc, if_neg (by decide), if_neg (ready (.inl hf)), if_neg (by decide), if_pos ⟨hf, by rw [hu]; rfl⟩]; rfl
  · rw [e, hx, ht]
    dsimp only
    rw [if_neg (show ¬t.waited = true by rw [hw]; decide), if_pos ⟨hf, hu⟩, State.tryContexts_none fun k hk => ho k (hl k hk)]; rfl
  · rw [e, hx, ht]
    dsimp only
    rw [hw, if_pos rfl]
    exact congrArg Host.Outcome.next (State.tableWritten_same (s := Begins s (.core c) rest) rfl fun _ => rfl)
  · rw [e, hx, hf]; rfl
  · rw [e, hx, hr]; rfl

/-- An act placed before the dispatchers' part of the clock begins with its place in the clock's order and nothing else (R207). -/
theorem begins_pipe {q : Nat} (hc : c < 1024) : Begins s (.pipe c q) rest = { s with
    agenda := rest, tick := s.tick + 1, waited := false, noClock := false, pipe := none, part := none, cur := 0, ctx := 0
    rank := (2 * c + 1, 0) } := by
  have h : ∀ v : State, v.upTo (2 * c + 1, 0) = v := fun v => if_pos (.inl (by show 2 * c + 1 < 4096; omega))
  show ({ State.upTo _ (2 * c + 1, 0) with rank := (2 * c + 1, 0) } : State) = _
  rw [h]

theorem turn_pipe {q : Nat} {e : VEntry} {l : List VEntry} (hc : c < 1024) (hag : s.agenda = ⟨0, .pipe c q⟩ :: rest)
    (he : s.tooLate (.pipe c q) = false) (hh : s.halted = false) (hq : (s.core c).v.queue q = e :: l)
    (hx : exec e.i { Begins s (.pipe c q) rest with cur := c, pipe := some e.cap } = .next t) :
    Machine.step s = .next (t.tableWritten (Begins s (.pipe c q) rest)) := by
  rw [step_now hag he]
  have hb := begins_pipe (s := s) (rest := rest) (q := q) hc
  have hact : (Begins s (.pipe c q) rest).act (.pipe c q) = .next t := by
    rw [← hx]
    show State.pipeTurn _ c q = _
    have hq' : (((Begins s (.pipe c q) rest).core c).v.queue q).head? = some e := by
      rw [hb]
      show ((s.core c).v.queue q).head? = _
      rw [hq]; rfl
    have hh' : ¬(Begins s (.pipe c q) rest).halted = true := by rw [hb, show ({ s with
      agenda := rest, tick := s.tick + 1, waited := false, noClock := false, pipe := none, part := none, cur := 0, ctx := 0
      rank := (2 * c + 1, 0) } : State).halted = s.halted from rfl, hh]; decide
    have hctx : (Begins s (.pipe c q) rest).ctx = 0 := by rw [hb]
    unfold State.pipeTurn
    rw [hq']
    dsimp only
    rw [if_neg hh', ← hctx]
  rw [hact]; rfl

theorem turn_event (hag : s.agenda = ⟨0, .event i⟩ :: rest) (he : s.tooLate (.event i) = false)
    (hh : (Begins s (.event i) rest).halted = false) (hv : vParts i = none) (hw : encodeC i = []) :
    Machine.step s = tableAfter (exec i (Begins s (.event i) rest)) (Begins s (.event i) rest) := by
  rw [step_now hag he]
  have ho : outerWord i = true := by unfold outerWord; rw [hv, hw]; rfl
  have hact : (Begins s (.event i) rest).act (.event i) = exec i (Begins s (.event i) rest) := by
    refine if_pos ?_
    rw [ho, hh]; rfl
  rw [hact]

/-- Settles O15: the turns of a core, a pipe and an event. -/
theorem stepRunsTheDecodedWord : Obligations.StepRunsTheDecodedWord := by
  refine ⟨fun s c ctx rest i n hag h hp hn hd => turn_core hag h hp hn hd, fun s c q rest e l hc hag he hh hq t hx =>
    turn_pipe hc hag he hh hq hx, fun s i rest hag he hh hv hw => ⟨fun t ht => ?_, fun f hf => ?_⟩⟩
  · rw [turn_event hag he hh hv hw, ht]; rfl
  · rw [turn_event hag he hh hv hw, hf]; rfl

end

end Sys2Proof
end

section
set_option Elab.async false
/-! SUPPORT. What the operations at home slices change and leave alone (R218, R299, R338): bytes reach memory, dirty copies go with
them, registered waits are met, and everything else stays. -/

namespace Sys2Proof.Machine

/-- A hold is as it was, or a registered wait that a write has met (R295). -/
def HoldMet (a b : Hold) : Prop :=
  b = a ∨ ∃ pa tg acq sc e, a.k = .sig pa tg acq sc false e ∧ b = { a with k := .sig pa tg acq sc true e }

/-- A core whose stash lines may have gone home, and whose registered wait may have been met. -/
structure HomeCore (x y : Core) : Prop where
  rest : y = { x with stash := y.stash, q := { x.q with hold := y.q.hold } }
  hold : ∀ k, HoldMet (x.q.holdOf k) (y.q.holdOf k)
  wrote : ∀ pa, y.wroteByte pa = true → x.wroteByte pa = true ∧ (y.line (pa / 64)).byte (pa % 64) = (x.line (pa / 64)).byte (pa % 64)

/-- What operations at home slices may change. -/
structure HomeFrame (s t : State) : Prop where
  rest : t = { s with
    cores := t.cores, mem := t.mem, hist := t.hist, msgs := t.msgs, mx := t.mx, mirror := t.mirror
    io := { s.io with rings := t.io.rings }
    w := { s.w with hard := t.w.hard, soft := t.w.soft, poison := t.w.poison, badCopy := t.w.badCopy, dirtyCopy := t.w.dirtyCopy,
                    corr := t.w.corr, uncorr := t.w.uncorr, log := t.w.log } }
  core : ∀ c, HomeCore (s.core c) (t.core c)
  marver : ∀ m, t.marver m = { s.marver m with stale := (t.marver m).stale }

/-- Operations at home slices that write the addresses `pas`. -/
structure Homes (s t : State) (pas : List Nat) : Prop where
  frame : HomeFrame s t
  bytes : BytesKept s t pas

/-! ### The relation -/

theorem HoldMet.refl (a : Hold) : HoldMet a a := .inl rfl

theorem HoldMet.trans {a b c : Hold} (h : HoldMet a b) (k : HoldMet b c) : HoldMet a c := by
  rcases h with rfl | ⟨pa, tg, acq, sc, e, ha, rfl⟩
  · exact k
  · rcases k with rfl | ⟨_, _, _, _, _, hk, -⟩
    · exact .inr ⟨pa, tg, acq, sc, e, ha, rfl⟩
    · cases hk

/-- A hold that is no registered wait stays. -/
theorem HoldMet.same {a b : Hold} (h : HoldMet a b) (hk : ∀ pa tg acq sc m e, a.k ≠ .sig pa tg acq sc m e) : b = a := by
  rcases h with rfl | ⟨_, _, _, _, _, ha, -⟩
  · rfl
  · exact absurd ha (hk _ _ _ _ _ _)

theorem HomeCore.refl (x : Core) : HomeCore x x := ⟨rfl, fun _ => HoldMet.refl _, fun _ h => ⟨h, rfl⟩⟩

theorem HomeCore.trans {x y z : Core} (h : HomeCore x y) (k : HomeCore y z) : HomeCore x z where
  rest := by
    calc z = { y with stash := z.stash, q := { y.q with hold := z.q.hold } } := k.rest
      _ = _ := by rw [h.rest]
  hold n := HoldMet.trans (h.hold n) (k.hold n)
  wrote pa hz := by
    obtain ⟨hy, ey⟩ := k.wrote pa hz
    obtain ⟨hx, ex⟩ := h.wrote pa hy
    exact ⟨hx, ey.trans ex⟩

theorem HomeFrame.refl (s : State) : HomeFrame s s := ⟨rfl, fun _ => HomeCore.refl _, fun _ => rfl⟩

theorem HomeFrame.trans {s t u : State} (h : HomeFrame s t) (k : HomeFrame t u) : HomeFrame s u where
  rest := by
    calc u = { t with
        cores := u.cores, mem := u.mem, hist := u.hist, msgs := u.msgs, mx := u.mx, mirror := u.mirror
        io := { t.io with rings := u.io.rings }
        w := { t.w with hard := u.w.hard, soft := u.w.soft, poison := u.w.poison, badCopy := u.w.badCopy, dirtyCopy := u.w.dirtyCopy,
                        corr := u.w.corr, uncorr := u.w.uncorr, log := u.w.log } } := k.rest
      _ = _ := by rw [h.rest]
  core c := HomeCore.trans (h.core c) (k.core c)
  marver m := by
    calc u.marver m = { t.marver m with stale := (u.marver m).stale } := k.marver m
      _ = _ := by rw [h.marver]

/-- A change beside memory and the cores. -/
theorem HomeFrame.of_side {s t : State} (h : t = { s with hist := t.hist, msgs := t.msgs, mirror := t.mirror, io := { s.io with rings := t.io.rings }, w := { s.w with
    hard := t.w.hard, soft := t.w.soft, poison := t.w.poison, badCopy := t.w.badCopy, dirtyCopy := t.w.dirtyCopy,
    corr := t.w.corr, uncorr := t.w.uncorr, log := t.w.log } }) : HomeFrame s t where
  rest := by
    calc t = _ := h
      _ = _ := by rw [h]
  core c := by rw [h]; exact HomeCore.refl _
  marver m := by rw [h]; rfl

theorem Homes.refl (s : State) (pas : List Nat) : Homes s s pas := ⟨HomeFrame.refl s, fun _ _ => .inl rfl⟩

theorem Homes.mono {s t : State} {p q : List Nat} (h : Homes s t p) (hpq : ∀ x ∈ p, x ∈ q) : Homes s t q :=
  ⟨h.frame, fun pa hpa => h.bytes pa fun hp => hpa (hpq pa hp)⟩

/-- What a core has written of a byte after such operations it had written before. -/
theorem HomeFrame.wroteAt {s t : State} (h : HomeFrame s t) {d pa : Nat} (hw : WroteAt t d pa) :
    WroteAt s d pa ∧ ((t.core d).line (pa / 64)).byte (pa % 64) = ((s.core d).line (pa / 64)).byte (pa % 64) := (h.core d).wrote pa hw

theorem Homes.trans {s t u : State} {p : List Nat} (h : Homes s t p) (k : Homes t u p) : Homes s u p where
  frame := HomeFrame.trans h.frame k.frame
  bytes pa hpa := by
    rcases k.bytes pa hpa with e | ⟨d, hw, e⟩
    · rw [e]; exact h.bytes pa hpa
    · obtain ⟨hw', e'⟩ := HomeFrame.wroteAt h.frame hw
      exact .inr ⟨d, hw', e.trans e'⟩

/-- An operation that changes no byte. -/
theorem Homes.of_frame {s t : State} (h : HomeFrame s t) (hm : t.mem = s.mem) (pas : List Nat) : Homes s t pas :=
  ⟨h, fun pa _ => .inl (by show Sparse.get _ t.mem pa = _; rw [hm]; rfl)⟩

theorem Homes.of_side {s t : State} (h : t = { s with hist := t.hist, msgs := t.msgs, mirror := t.mirror, io := { s.io with rings := t.io.rings }, w := { s.w with
    hard := t.w.hard, soft := t.w.soft, poison := t.w.poison, badCopy := t.w.badCopy, dirtyCopy := t.w.dirtyCopy,
    corr := t.w.corr, uncorr := t.w.uncorr, log := t.w.log } }) (pas : List Nat) : Homes s t pas :=
  Homes.of_frame (HomeFrame.of_side h) (by rw [h]) pas

/-- Such operations over a list are such an operation. -/
theorem Homes.foldl {α : Type} {f : State → α → State} {pas : List Nat} (l : List α) (s : State)
    (hf : ∀ t, ∀ a ∈ l, Homes t (f t a) pas) : Homes s (l.foldl f s) pas := by
  induction l generalizing s with
  | nil => exact Homes.refl s pas
  | cons a l ih =>
    exact Homes.trans (hf s a (List.mem_cons_self ..)) (ih _ fun t b hb => hf t b (List.mem_cons_of_mem _ hb))

section
variable {s t : State} {pas : List Nat}

theorem HomeFrame.core_rest (h : HomeFrame s t) (c : Nat) :
    t.core c = { s.core c with stash := (t.core c).stash, q := { (s.core c).q with hold := (t.core c).q.hold } } := (h.core c).rest
theorem HomeFrame.core_r (h : HomeFrame s t) (c : Nat) : (t.core c).r = (s.core c).r := by rw [h.core_rest]
theorem HomeFrame.core_c (h : HomeFrame s t) (c : Nat) : (t.core c).c = (s.core c).c := by rw [h.core_rest]
theorem HomeFrame.core_acc (h : HomeFrame s t) (c : Nat) : (t.core c).acc = (s.core c).acc := by rw [h.core_rest]
theorem HomeFrame.core_e (h : HomeFrame s t) (c : Nat) : (t.core c).e = (s.core c).e := by rw [h.core_rest]
theorem HomeFrame.core_v (h : HomeFrame s t) (c : Nat) : (t.core c).v = (s.core c).v := by rw [h.core_rest]
theorem HomeFrame.core_wins (h : HomeFrame s t) (c : Nat) : (t.core c).wins = (s.core c).wins := by rw [h.core_rest]
theorem HomeFrame.core_task (h : HomeFrame s t) (c : Nat) : (t.core c).task = (s.core c).task := by rw [h.core_rest]
theorem HomeFrame.core_unacked (h : HomeFrame s t) (c : Nat) : (t.core c).unacked = (s.core c).unacked := by rw [h.core_rest]
theorem HomeFrame.core_q (h : HomeFrame s t) (c : Nat) : (t.core c).q = { (s.core c).q with hold := (t.core c).q.hold } := by
  rw [h.core_rest]
theorem HomeFrame.registers (h : HomeFrame s t) : RegistersKept s t := h.core_r
theorem HomeFrame.cfg (h : HomeFrame s t) : t.cfg = s.cfg := by rw [h.rest]
theorem HomeFrame.now (h : HomeFrame s t) : t.now = s.now := by rw [h.rest]
theorem HomeFrame.tick (h : HomeFrame s t) : t.tick = s.tick := by rw [h.rest]
theorem HomeFrame.pontil (h : HomeFrame s t) : t.pontil = s.pontil := by rw [h.rest]
theorem HomeFrame.pub (h : HomeFrame s t) : t.pub = s.pub := by rw [h.rest]
theorem HomeFrame.cur (h : HomeFrame s t) : t.cur = s.cur := by rw [h.rest]
theorem HomeFrame.ctx (h : HomeFrame s t) : t.ctx = s.ctx := by rw [h.rest]
theorem HomeFrame.hb (h : HomeFrame s t) : t.hb = s.hb := by rw [h.rest]
theorem HomeFrame.d (h : HomeFrame s t) : t.d = s.d := by rw [h.rest]
theorem HomeFrame.queues (h : HomeFrame s t) : t.queues = s.queues := by rw [h.rest]
theorem HomeFrame.um (h : HomeFrame s t) : t.um = s.um := by rw [h.rest]
theorem HomeFrame.bd (h : HomeFrame s t) : t.bd = s.bd := by rw [h.rest]
theorem HomeFrame.held (h : HomeFrame s t) : t.w.held = s.w.held := by rw [h.rest]
theorem HomeFrame.reach (h : HomeFrame s t) : t.io.reach = s.io.reach := by rw [h.rest]

end

/-! ### Marks, waits and copies (R338, R295, R299) -/

theorem State.granuleWritten_homes (s : State) (ps : List Nat) (g : Nat) (pas : List Nat) : Homes s (s.granuleWritten ps g) pas := by
  refine Homes.of_side ?_ pas
  unfold State.granuleWritten
  dsimp only
  split
  · rfl
  · split <;> rfl

theorem State.copiesWritten_homes (s : State) (ps pas : List Nat) : Homes s (s.copiesWritten ps) pas := by
  unfold State.copiesWritten
  exact Homes.foldl _ _ fun t g _ => Homes.of_side rfl pas

theorem State.bdeckTouched_homes (s : State) (pa : Nat) (pas : List Nat) : Homes s (s.bdeckTouched pa) pas := by
  refine Homes.of_frame ?_ (State.bdeckTouched_mem s pa) pas
  unfold State.bdeckTouched
  split
  · dsimp only
    split
    · refine ⟨rfl, fun c => HomeCore.refl _, fun m => ?_⟩
      by_cases hm : m = bdeckMarver pa
      · subst hm
        have e : State.marver (s.setMarver (bdeckMarver pa) { s.marver (bdeckMarver pa) with stale := true }) (bdeckMarver pa) =
            { s.marver (bdeckMarver pa) with stale := true } := Sparse.get_set_same _ _ _ _
        exact e.trans (congrArg (fun b => { s.marver (bdeckMarver pa) with stale := b }) (congrArg Marver.stale e).symm)
      · have e : State.marver (s.setMarver (bdeckMarver pa) { s.marver (bdeckMarver pa) with stale := true }) m = s.marver m :=
          Sparse.get_set_other _ _ _ hm
        exact e.trans (congrArg (fun b => { s.marver m with stale := b }) (congrArg Marver.stale e).symm)
    · exact HomeFrame.of_side (t := { s with mirror := _ }) rfl
  · exact HomeFrame.refl s

/-- A change of one core that only meets waits, or drops stash lines. -/
theorem State.mod_homes {s : State} {c : Nat} {f : Core → Core} (hf : HomeCore (s.core c) (f (s.core c))) (pas : List Nat) :
    Homes s (s.mod c f) pas := by
  refine Homes.of_frame (t := s.mod c f) (HomeFrame.mk rfl (fun d => ?_) (fun m => rfl)) rfl pas
  by_cases hd : d = c
  · subst hd; rw [State.core_mod_same]; exact hf
  · rw [State.core_mod_other _ _ hd]; exact HomeCore.refl _

theorem Seq.holdOf_setHold (q : Seq) (k : Nat) (h : Hold) (j : Nat) : (q.setHold k h).holdOf j = if j = k then h else q.holdOf j := by
  unfold Seq.setHold Seq.holdOf
  split
  · next e => subst e; exact Sparse.get_set_same _ _ _ _
  · next e => exact Sparse.get_set_other _ _ _ e

theorem State.modAll_homes {s : State} {f : Nat → Core → Core} (hf : ∀ c x, HomeCore x (f c x)) (pas : List Nat) :
    Homes s (s.modAll f) pas := Homes.foldl _ _ fun t c _ => State.mod_homes (hf c (t.core c)) pas

theorem State.wake_homes (s : State) (ps pas : List Nat) : Homes s (s.wake ps) pas := by
  unfold State.wake
  dsimp only
  refine Homes.trans (State.modAll_homes (fun c x => ?_) pas) (Homes.of_side rfl pas)
  split
  · next pa tg acq sc e hk =>
    split
    · refine ⟨rfl, fun k => ?_, fun _ h => ⟨h, rfl⟩⟩
      show HoldMet (x.q.holdOf k) ((x.q.setHold 0 { x.q.holdOf 0 with k := .sig pa tg acq sc true e }).holdOf k)
      rw [Seq.holdOf_setHold]
      split
      · next h0 => subst h0; exact .inr ⟨pa, tg, acq, sc, e, hk, rfl⟩
      · exact HoldMet.refl _
    · exact HomeCore.refl x
  · exact HomeCore.refl x

/-! ### Bytes at their homes (R299) -/

/-- The value of a byte that held `v` once bytes are written, in order. -/
def overlay (bytes : List (Nat × Byte)) (pa : Nat) (v : Byte) : Byte := bytes.foldl (fun v p => if pa = p.1 then p.2 else v) v

theorem overlay_other {bytes : List (Nat × Byte)} {pa : Nat} (h : pa ∉ bytes.map Prod.fst) (v : Byte) : overlay bytes pa v = v := by
  induction bytes generalizing v with
  | nil => rfl
  | cons p l ih =>
    simp only [List.map_cons, List.mem_cons, not_or] at h
    exact (ih h.2 _).trans (if_neg h.1)

/-- An address that each write to it gives one value has that value. -/
theorem overlay_eq {bytes : List (Nat × Byte)} {pa : Nat} {b : Byte} (hin : pa ∈ bytes.map Prod.fst)
    (hb : ∀ p ∈ bytes, p.1 = pa → p.2 = b) (v : Byte) : overlay bytes pa v = b := by
  have keep : ∀ (l : List (Nat × Byte)), (∀ p ∈ l, p.1 = pa → p.2 = b) → overlay l pa b = b := by
    intro l hl
    induction l with
    | nil => rfl
    | cons p l ih =>
      have hp : (if pa = p.1 then p.2 else b) = b := by
        split
        · next e => exact hl p (List.mem_cons_self ..) e.symm
        · rfl
      show overlay l pa (if pa = p.1 then p.2 else b) = b
      rw [hp]
      exact ih fun q hq => hl q (List.mem_cons_of_mem _ hq)
  induction bytes generalizing v with
  | nil => exact absurd hin List.not_mem_nil
  | cons p l ih =>
    show overlay l pa (if pa = p.1 then p.2 else v) = b
    by_cases hp : pa = p.1
    · rw [if_pos hp, hb p (List.mem_cons_self ..) hp.symm]
      exact keep l fun q hq => hb q (List.mem_cons_of_mem _ hq)
    · rw [if_neg hp]
      refine ih ?_ (fun q hq => hb q (List.mem_cons_of_mem _ hq)) v
      exact (List.mem_cons.1 hin).resolve_left hp

theorem Homes.mem_eq {s t : State} (h : t.mem = s.mem) (pa : Nat) : t.byte pa = s.byte pa := by
  show Sparse.get _ t.mem pa = Sparse.get _ s.mem pa; rw [h]

/-- The bytes of a write alone, before its marks and the waits it meets. -/
theorem State.putAll_homes (bytes : List (Nat × Byte)) (who : Nat → Nat × Nat) (s : State) :
    Homes s (bytes.foldl (fun (t : State) (p : Nat × Byte) => (t.putByte p.1 p.2 (who p.1)).bdeckTouched p.1) s)
      (bytes.map Prod.fst) ∧
    ∀ pa, (bytes.foldl (fun (t : State) (p : Nat × Byte) => (t.putByte p.1 p.2 (who p.1)).bdeckTouched p.1) s).byte pa =
      overlay bytes pa (s.byte pa) := by
  constructor
  · refine Homes.foldl _ _ fun t p hp => Homes.trans (t := t.putByte p.1 p.2 (who p.1)) ⟨⟨rfl, fun _ => HomeCore.refl _, fun _ => rfl⟩,
      fun pa hpa => .inl ?_⟩ (State.bdeckTouched_homes _ _ _)
    rw [State.byte_putByte, if_neg]
    rintro rfl
    exact hpa (List.mem_map_of_mem hp)
  · intro pa
    induction bytes generalizing s with
    | nil => rfl
    | cons p l ih =>
      rw [List.foldl_cons, ih, Homes.mem_eq (State.bdeckTouched_mem _ _), State.byte_putByte]
      rfl

/-- Bytes that take their place at their homes (R299). -/
theorem State.homeApply_homes (s : State) (bytes : List (Nat × Byte)) (bad : List (Nat × Nat)) (au : Author) :
    Homes s (s.homeApply bytes bad au) (bytes.map Prod.fst) ∧ ∀ pa, (s.homeApply bytes bad au).byte pa = overlay bytes pa (s.byte pa) := by
  obtain ⟨h1, b1⟩ := State.putAll_homes bytes au.who s
  unfold State.homeApply
  dsimp only
  generalize bytes.foldl (fun (t : State) (p : Nat × Byte) => (t.putByte p.1 p.2 (au.who p.1)).bdeckTouched p.1) s = t at h1 b1 ⊢
  have h2 : Homes t (t.leaveMsg (bytes.map Prod.fst) au) (bytes.map Prod.fst) :=
    Homes.of_side rfl _
  have h3 := Homes.foldl (f := fun (t : State) g => t.granuleWritten (bytes.map Prod.fst) g) (pas := bytes.map Prod.fst)
    ((bytes.map Prod.fst).map s.cfg.granule).eraseDups (t.leaveMsg (bytes.map Prod.fst) au)
    fun u g _ => State.granuleWritten_homes u _ g _
  have m3 : (((bytes.map Prod.fst).map s.cfg.granule).eraseDups.foldl (fun (t : State) g => t.granuleWritten (bytes.map Prod.fst) g)
      (t.leaveMsg (bytes.map Prod.fst) au)).mem = t.mem :=
    foldl_same State.mem _ (fun u g => State.granuleWritten_mem u _ g) _ _
  generalize ((bytes.map Prod.fst).map s.cfg.granule).eraseDups.foldl (fun (t : State) g => t.granuleWritten (bytes.map Prod.fst) g)
    (t.leaveMsg (bytes.map Prod.fst) au) = u at h3 m3 ⊢
  have h4 : Homes u { u with w := { u.w with
      poison := bad.foldl (fun (m : Sparse Nat) (p : Nat × Nat) => Sparse.set 0 m (s.cfg.granule p.1) (p.2 + 1)) u.w.poison } }
      (bytes.map Prod.fst) := Homes.of_side rfl _
  have m4 : ({ u with w := { u.w with
      poison := bad.foldl (fun (m : Sparse Nat) (p : Nat × Nat) => Sparse.set 0 m (s.cfg.granule p.1) (p.2 + 1)) u.w.poison } } :
      State).mem = t.mem := m3
  generalize ({ u with w := { u.w with
      poison := bad.foldl (fun (m : Sparse Nat) (p : Nat × Nat) => Sparse.set 0 m (s.cfg.granule p.1) (p.2 + 1)) u.w.poison } } :
      State) = v at h4 m4 ⊢
  refine ⟨Homes.trans h1 (Homes.trans h2 (Homes.trans h3 (Homes.trans h4 (Homes.trans (State.copiesWritten_homes v _ _)
    (State.wake_homes _ _ _))))), fun pa => ?_⟩
  rw [← b1 pa]
  exact Homes.mem_eq ((State.wake_mem _ _).trans ((State.copiesWritten_mem _ _).trans m4)) pa

/-! ### Dirty copies go home (R218, R299) -/

theorem Line.mem_dirtyBytes {l : Line} {ln : Nat} {p : Nat × Byte} (h : p ∈ l.dirtyBytes ln) :
    p.1 / 64 = ln ∧ l.wrote.getLsbD (p.1 % 64) = true ∧ p.2 = l.byte (p.1 % 64) := by
  obtain ⟨i, hi, rfl⟩ := List.mem_map.1 h
  obtain ⟨hr, hw⟩ := List.mem_filter.1 hi
  have hi64 := List.mem_range.1 hr
  have e1 : (ln * 64 + i) / 64 = ln := by omega
  have e2 : (ln * 64 + i) % 64 = i := by omega
  dsimp only
  rw [e1, e2]
  exact ⟨rfl, hw, rfl⟩

theorem Line.mem_dirtyBytes_map {l : Line} {ln pa : Nat} :
    pa ∈ (l.dirtyBytes ln).map Prod.fst ↔ pa / 64 = ln ∧ l.wrote.getLsbD (pa % 64) = true := by
  constructor
  · intro h
    obtain ⟨p, hp, rfl⟩ := List.mem_map.1 h
    obtain ⟨h1, h2, -⟩ := Line.mem_dirtyBytes hp
    exact ⟨h1, h2⟩
  · rintro ⟨rfl, h⟩
    refine List.mem_map.2 ⟨(pa / 64 * 64 + pa % 64, l.byte (pa % 64)), List.mem_map.2 ⟨pa % 64, List.mem_filter.2 ⟨?_, h⟩, rfl⟩, ?_⟩
    · exact List.mem_range.2 (Nat.mod_lt _ (by decide))
    · show pa / 64 * 64 + pa % 64 = pa
      omega

/-- A line's dirty bytes reach their homes, and no other byte changes (R218). -/
theorem State.homeLine_homes (s : State) (ln : Nat) (l : Line) :
    Homes s (s.homeLine ln l) ((l.dirtyBytes ln).map Prod.fst) ∧
    ∀ pa, (s.homeLine ln l).byte pa = if pa / 64 = ln ∧ l.wrote.getLsbD (pa % 64) = true then l.byte (pa % 64) else s.byte pa := by
  have h1 : Homes s (l.foundUnits.foldl (fun t u => t.uncorrected u) s) ((l.dirtyBytes ln).map Prod.fst) :=
    Homes.foldl _ _ fun t u _ => Homes.of_side rfl _
  have m1 : (l.foundUnits.foldl (fun t u => t.uncorrected u) s).mem = s.mem := 
    foldl_same State.mem (fun (t : State) u => t.uncorrected u) (fun t u => rfl) _ _
  obtain ⟨h2, b2⟩ := State.homeApply_homes (l.foundUnits.foldl (fun t u => t.uncorrected u) s) (l.dirtyBytes ln) (l.dirtyMarks ln)
    { who := l.author }
  refine ⟨Homes.trans h1 (Homes.trans h2 (Homes.of_side rfl _)), fun pa => ?_⟩
  have e : (s.homeLine ln l).byte pa = overlay (l.dirtyBytes ln) pa (s.byte pa) := by
    rw [← Homes.mem_eq m1]; exact b2 pa
  rw [e]
  split
  · next h =>
    exact overlay_eq (Line.mem_dirtyBytes_map.2 h) (fun p hp hpa => by
      obtain ⟨-, -, hv⟩ := Line.mem_dirtyBytes hp
      rw [hv, hpa]) _
  · next h => exact overlay_other (fun hp => h (Line.mem_dirtyBytes_map.1 hp)) _

theorem Core.line_setLine (x : Core) (ln : Nat) (l : Line) (k : Nat) : (x.setLine ln l).line k = if k = ln then l else x.line k := by
  unfold Core.setLine Core.line
  split
  · next e => subst e; exact Sparse.get_set_same _ _ _ _
  · next e => exact Sparse.get_set_other _ _ _ e

/-- A line dropped, or replaced by one that its core has written nothing of. -/
theorem HomeCore.setLine (x : Core) (ln : Nat) {l : Line} (hl : l.wrote = 0#64) : HomeCore x (x.setLine ln l) where
  rest := rfl
  hold _ := HoldMet.refl _
  wrote pa h := by
    have e := Core.line_setLine x ln l (pa / 64)
    unfold Core.wroteByte at h ⊢
    rw [e] at h ⊢
    by_cases hp : pa / 64 = ln
    · rw [if_pos hp, hl] at h; simp at h
    · rw [if_neg hp] at h ⊢; exact ⟨h, rfl⟩

/-- A line of a core's stash that is taken out of it goes home. -/
theorem State.takeHome_homes {s u : State} {c ln : Nat} {l : Line} (hu : Homes (s.mod c (fun x => x.setLine ln {})) u [])
    (hl : l = (s.core c).line ln) : Homes s (u.homeLine ln l) [] := by
  have h0 : Homes s (s.mod c (fun x => x.setLine ln {})) [] := State.mod_homes (HomeCore.setLine _ _ rfl) []
  have h1 := Homes.trans h0 hu
  obtain ⟨h2, b2⟩ := State.homeLine_homes u ln l
  refine ⟨HomeFrame.trans h1.frame h2.frame, fun pa hpa => ?_⟩
  rw [b2]
  split
  · next h =>
    obtain ⟨hp, hw⟩ := h
    refine .inr ⟨c, ?_, ?_⟩
    · unfold WroteAt Core.wroteByte; rw [hp, ← hl]; exact hw
    · rw [hp, ← hl]
  · exact h1.bytes pa hpa

theorem State.pull_homes (s : State) (ln c : Nat) : Homes s (s.pull ln c) [] := by
  unfold State.pull
  dsimp only
  split
  · exact Homes.refl _ _
  · split
    · exact State.mod_homes (HomeCore.setLine _ _ rfl) []
    · exact State.takeHome_homes (Homes.refl _ _) rfl

theorem State.pullLine_homes (s : State) (ln : Nat) : Homes s (s.pullLine ln) [] := by
  unfold State.pullLine
  exact Homes.foldl _ _ fun t c _ => State.pull_homes t ln c

theorem State.pullFor_homes (s : State) (pas : List Nat) : Homes s (s.pullFor pas) [] := by
  unfold State.pullFor
  exact Homes.foldl _ _ fun t ln _ => State.pullLine_homes t ln

theorem State.bypass_homes (s : State) (c : Nat) (pas : List Nat) : Homes s (s.bypass c pas) [] := by
  unfold State.bypass
  refine Homes.foldl _ _ fun t ln _ => ?_
  split
  · exact Homes.refl _ _
  · exact State.takeHome_homes (State.pullLine_homes _ _) rfl

/-- A write at home slices (R299). -/
theorem State.homeWrite_homes (s : State) (bytes : List (Nat × Byte)) (bad : List (Nat × Nat)) (au : Author) :
    Homes s (s.homeWrite bytes bad au) (bytes.map Prod.fst) :=
  Homes.trans (Homes.mono (State.pullFor_homes s _) nofun) (State.homeApply_homes _ bytes bad au).1

/-- A byte that a write at home slices names. -/
theorem State.homeWrite_byte {s : State} {bytes : List (Nat × Byte)} {pa : Nat} {b : Byte} (bad : List (Nat × Nat)) (au : Author)
    (hin : pa ∈ bytes.map Prod.fst) (hb : ∀ p ∈ bytes, p.1 = pa → p.2 = b) : (s.homeWrite bytes bad au).byte pa = b :=
  ((State.homeApply_homes (s.pullFor (bytes.map Prod.fst)) bytes bad au).2 pa).trans (overlay_eq hin hb _)

theorem Line.cleaned_wrote (l : Line) : l.cleaned.wrote = 0#64 := rfl

theorem State.keepClean_wrote (s : State) (ln : Nat) (l : Line) : (s.keepClean ln l).wrote = l.wrote := by
  unfold State.keepClean
  refine foldl_same Line.wrote _ (fun k sec => ?_) _ _
  split <;> rfl

/-- A core's dirty lines go home and stay clean (R218, R306). -/
theorem State.writeBack_homes (s : State) (c : Nat) (which : Nat → Bool) : Homes s (s.writeBack c which) [] := by
  unfold State.writeBack
  refine Homes.foldl _ _ fun t p _ => ?_
  split
  · refine Homes.trans (State.takeHome_homes (State.pullLine_homes _ _) rfl) (State.mod_homes (HomeCore.setLine _ _ ?_) _)
    rw [State.keepClean_wrote]; rfl
  · exact Homes.refl _ _

theorem State.flush_homes (s : State) (c : Nat) : Homes s (s.flush c) [] := State.writeBack_homes s c _

/-! ### What a read finds (R338) -/

theorem State.find_homes (s : State) (pa : Nat) (pas : List Nat) : Homes s (s.find pa).1 pas := by
  refine Homes.of_side ?_ pas
  unfold State.find
  dsimp only
  repeat' split
  all_goals rfl

theorem State.findAll_homes (l : List Nat) (s : State) (pas : List Nat) : Homes s (s.findAll l).1 pas := by
  induction l generalizing s with
  | nil => exact Homes.refl _ _
  | cons a l ih =>
    have hf := State.find_homes s a pas
    unfold State.findAll
    split
    · next e => rw [e] at hf; exact hf
    · next e => rw [e] at hf; exact Homes.trans hf (ih _)

theorem State.marksOf_homes (s : State) (l pas : List Nat) : Homes s (s.marksOf l).1 pas := by
  unfold State.marksOf
  refine foldl_keeps (fun p : State × List (Nat × Nat) => Homes s p.1 pas) _ (fun acc p h => ?_) _ _ (Homes.refl _ _)
  have hf := Homes.trans h (State.find_homes acc.1 p.1 pas)
  split
  · next e => rw [e] at hf; split <;> exact hf
  · next e => rw [e] at hf; exact hf

end Sys2Proof.Machine
end

section
set_option Elab.async false
/-! SUPPORT. The traps of a fetch (R46, R51), and what the copy of the pontil table in memory leaves alone (R205). -/

namespace Sys2Proof.Machine

theorem State.memChange_homes (s : State) (pa : Nat) (l : List Byte) :
    Homes s (s.memChange pa l) (((List.range l.length).zip l).map (fun p => pa + p.1)) := by
  unfold State.memChange
  split
  · exact Homes.refl _ _
  · refine Homes.mono (State.homeWrite_homes _ _ _ _) fun x hx => ?_
    obtain ⟨p, hp, rfl⟩ := List.mem_map.1 hx
    obtain ⟨q, hq, rfl⟩ := List.mem_map.1 (List.mem_filter.1 hp).1
    exact List.mem_map_of_mem hq

/-- Writing the table's entries to memory is an operation at home slices (R205). -/
theorem State.tableWritten_frame (s old : State) : HomeFrame s (s.tableWritten old) := by
  unfold State.tableWritten
  refine foldl_keeps (HomeFrame s) _ (fun t e h => ?_) _ _ (HomeFrame.refl s)
  have h1 := HomeFrame.trans h (State.memChange_homes t (tablePA e) ((s.ent e).bytes (s.useOf e) (rangesPA e (s.ent e).gen))).frame
  dsimp only
  split
  · exact h1
  · exact HomeFrame.trans h1 (State.memChange_homes _ _ _).frame

theorem State.core_mod_ranked (s : State) (c : Nat) (f : Core → Core) (r : Nat × Nat) :
    ({ s.mod c f with rank := r } : State).core c = f (s.core c) := State.core_mod_same s c f

/-- The record of who issued, and of a point of R97 passed, is one of the core's sequencers alone (R102). -/
theorem State.issuedBy_core (t : State) (c ctx run now : Nat) :
    (((t.mod c (fun x => x.passed now)).issuedBy c ctx run).core c).c = (t.core c).c := by
  have e : ((t.mod c (fun x => x.passed now)).issuedBy c ctx run).core c = ((t.core c).passed now).seq (fun q =>
      if ctx = 0 then { q with hrun := 0, clockAt := t.now + 1 }
      else { q with lastH := ctx, hrun := run + 1, clockAt := t.now + 1 }) := by
    rw [← State.core_mod_same t c (fun x => x.passed now)]
    exact State.core_mod_ranked _ c _ _
  rw [e]; rfl

end Sys2Proof.Machine

namespace Sys2Proof

open Machine

section
variable {s : State} {c : Nat} {rest : List Turn} {cause data : Nat} {second : Bool}

/-- The word's place is empty after a trap of the main context, and its turn is recorded as an issue (R102, R103). -/
theorem AloneMayIssue.step_trap (h : AloneMayIssue s c 0) (hag : s.agenda = ⟨0, .core c⟩ :: rest)
    (hf : ((s.core c).q.holdOf 0).k = .free)
    (he : (Issuing s c 0 rest).contextStep =
      .next ((Issuing s c 0 rest).upd (fun x => x.trapAt s.now 0 cause second data (x.q.pcOf 0)))) :
    Machine.step s = .next (((((Issuing s c 0 rest).upd (fun x => x.trapAt s.now 0 cause second data (x.q.pcOf 0))).mod c
      (fun x => x.passed s.now)).issuedBy c 0 ((s.core c).q.handlerRun s.now)).tableWritten (Begins s (.core c) rest)) := by
  refine h.step_issued hag he rfl rfl (.inr ?_) (.inl hf)
  have hc : ((Issuing s c 0 rest).upd (fun x => x.trapAt s.now 0 cause second data (x.q.pcOf 0))).core c =
      (s.core c).trapAt s.now 0 cause second data ((s.core c).q.pcOf 0) := State.core_upd (Issuing s c 0 rest) _
  have hh : (((s.core c).trapAt s.now 0 cause second data ((s.core c).q.pcOf 0)).q.holdOf 0).k = .free := by
    have e : ((s.core c).tickId.seq (fun q => q.setHold 0 {})).q.holdOf 0 = {} :=
      (Seq.holdOf_setHold _ 0 {} 0).trans (if_pos rfl)
    unfold Core.trapAt
    rw [if_pos rfl]
    unfold Core.takeTrap
    dsimp only
    split
    · exact congrArg Hold.k e
    · split <;> exact congrArg Hold.k e
  rw [hc, hh]; rfl

end

/-- Settles O16: by what the fetch of the main context's next word finds. -/
theorem fetchTraps : Obligations.FetchTraps := by
  intro s c rest hag h b pc issued hf
  have hpc : (s.core c).q.pcOf 0 = pc := rfl
  have hx := h.contextStep (rest := rest)
  rw [hpc] at hx
  refine ⟨fun r hp h2 hd => ?_, fun hp => ?_, fun hp h1 ht => ?_⟩
  · rw [Core.fetchC_bad hp h2 hd] at hx
    exact ⟨_, h.step_trap hag hf hx, State.trap_trapped (Issuing s c 0 rest) 1 _ rfl⟩
  · have hfc : (s.core c).fetchC pc = .outside pc false := if_pos hp
    rw [hfc] at hx
    exact ⟨_, h.step_trap hag hf hx, State.trap_trapped (Issuing s c 0 rest) 7 pc rfl⟩
  · have hfc : (s.core c).fetchC pc = .outside (pc + 1) true := (if_neg (Nat.not_le.2 hp)).trans (if_pos ⟨ht, h1⟩)
    rw [hfc] at hx
    have hcore : ∀ t : State, ((((t.mod c (fun x => x.passed s.now)).issuedBy c 0 ((s.core c).q.handlerRun s.now)).tableWritten
        (Begins s (.core c) rest)).core c).c = (t.core c).c := fun t =>
      ((State.tableWritten_frame _ _).core_c c).trans (State.issuedBy_core t c 0 _ _)
    have hu : ((Issuing s c 0 rest).upd (fun x => x.trapAt s.now 0 7 true (pc + 1) (x.q.pcOf 0))).core c =
        ((s.core c).tickId.seq (fun q => q.setHold 0 {})).takeTrap 7 (infoWord 0 true false 3 0 (pc + 1)) pc :=
      State.core_upd (Issuing s c 0 rest) _
    have hi : infoWord 0 true false 3 0 (pc + 1) = BitVec.ofNat 64 (2 ^ 61 + 3 * 2 ^ 58 + (pc + 1) % 2 ^ 32) := by
      unfold infoWord; simp
    refine ⟨_, h.step_trap hag hf hx, ?_, ?_, fun hta => ?_⟩ <;> rw [hcore, hu] <;> unfold Core.takeTrap
    · split
      · rfl
      · dsimp only; split <;> rfl
    · split
      · exact hi
      · dsimp only; split <;> exact hi
    · rw [if_neg (by show ¬(s.core c).q.tact = true; rw [hta]; decide)]
      dsimp only
      split <;> rfl

end Sys2Proof
end

section
set_option Elab.async false
/-! SUPPORT. The check of a token, by the state of its entry, and the bits of KSTAT (R209, R211). -/

namespace Sys2Proof.Machine

/-! ### The judgement of a token (R209) -/

/-- What the forward entry says of a token that has been rewritten to it. -/
def State.judgeForward (s : State) (u : Token) : Judge :=
  match (s.ent u.entry).st with
  | .draining => if (s.ent u.entry).gen = u.gen then .wait else .stale
  | .live | .sweeping => if (s.ent u.entry).gen = u.gen then .fine u else .stale
  | _ => .stale

section
variable {s : State} {t u : Token} {off : Int} {w : Nat} {need : BitVec 4}

theorem State.judge_draining (h0 : t.entry ≠ 0) (h : (s.ent t.entry).st = .draining) : s.judge t = .wait := by
  unfold State.judge; rw [if_neg h0]; dsimp only; rw [h]

theorem State.judge_over (h0 : t.entry ≠ 0)
    (h : (s.ent t.entry).st = .free ∨ (s.ent t.entry).st = .dead ∨ (s.ent t.entry).st = .retired) : s.judge t = .stale := by
  unfold State.judge; rw [if_neg h0]; dsimp only
  rcases h with h | h | h <;> rw [h]

theorem State.judge_live (h0 : t.entry ≠ 0) (h : (s.ent t.entry).st = .live) :
    s.judge t = if (s.ent t.entry).gen = t.gen then .fine t else .stale := by
  unfold State.judge; rw [if_neg h0]; dsimp only; rw [h]

theorem State.judge_sweeping (h0 : t.entry ≠ 0) (h : (s.ent t.entry).st = .sweeping) :
    s.judge t = if (s.ent t.entry).gen = t.gen then .fine t
      else if (s.ent t.entry).move = true ∧ t.gen + 1 = (s.ent t.entry).gen then s.judgeForward (s.forwarded t (s.ent t.entry).fwd)
      else .stale := by
  unfold State.judge State.judgeForward; rw [if_neg h0]; dsimp only; rw [h] <;> rfl

theorem State.judge_forwarded (h0 : t.entry ≠ 0) (h : (s.ent t.entry).st = .forwarded) :
    s.judge t = if t.gen + 1 = (s.ent t.entry).gen then s.judgeForward (s.forwarded t (s.ent t.entry).fwd) else .stale := by
  unfold State.judge State.judgeForward; rw [if_neg h0]; dsimp only; rw [h] <;> rfl

theorem State.judgeForward_live (h : (s.ent u.entry).st = .live) (hg : (s.ent u.entry).gen = u.gen) : s.judgeForward u = .fine u := by
  unfold State.judgeForward; rw [h]; exact if_pos hg

/-- A forward entry that has gone on from the generation the MOVE named, or that is over, makes the token stale. -/
theorem State.judgeForward_stale (h : (s.ent u.entry).gen ≠ u.gen ∨ (s.ent u.entry).st = .free ∨ (s.ent u.entry).st = .dead ∨
    (s.ent u.entry).st = .retired) : s.judgeForward u = .stale := by
  unfold State.judgeForward
  rcases h with h | h | h | h
  · split
    · exact if_neg h
    · exact if_neg h
    · exact if_neg h
    · rfl
  · rw [h]
  · rw [h]
  · rw [h]

theorem State.check_wait (h : s.judge t = .wait) : s.check t off w need = .wait := by unfold State.check; rw [h]

theorem State.check_stale (h : s.judge t = .stale) : s.check t off w need = .fail .stale t.entry := by unfold State.check; rw [h]

/-- Tokens judged alike are checked alike. -/
theorem State.check_congr (h : s.judge t = .fine u) (h' : s.judge u = .fine u) : s.check t off w need = s.check u off w need := by
  unfold State.check; rw [h, h']

theorem State.check_bounds (h : s.judge t = .fine t)
    (hb : off < 0 ∨ (t.len * 64 : Nat) < off + (w : Int) ∨ t.rights &&& need ≠ need) : s.check t off w need = .fail .bounds t.entry := by
  unfold State.check; rw [h]
  refine if_pos ?_
  push_cast at hb ⊢
  exact hb

/-- The bytes of an extent of one range. -/
theorem State.bytesOf_one {e o n pa : Nat} (hr : (s.ent e).ranges = [(n, pa)]) (h : (s.ent e).vbase % 4096 + o + w ≤ n * 4096) :
    s.bytesOf e o w = some ((List.range w).map (fun i => pa + ((s.ent e).vbase % 4096 + (o + i)))) := by
  have key : ∀ l : List Nat, (∀ i ∈ l, i < w) → l.mapM (fun i => (s.ent e).at_ (o + i)) =
      some (l.map (fun i => pa + ((s.ent e).vbase % 4096 + (o + i)))) := fun l hl => by
    induction l with
    | nil => rfl
    | cons i l ih =>
      have hi := hl i (List.mem_cons_self ..)
      have hat : (s.ent e).at_ (o + i) = some (pa + ((s.ent e).vbase % 4096 + (o + i))) := by
        unfold PEntry.at_
        rw [hr]
        exact if_pos (by omega)
      rw [List.mapM_cons, hat, ih fun j hj => hl j (List.mem_cons_of_mem _ hj)]
      rfl
  exact key _ fun i hi => List.mem_range.1 hi

theorem State.check_pass {pas : List Nat} (h : s.judge t = .fine t) (h0 : 0 ≤ off) (hl : off + (w : Int) ≤ (t.len * 64 : Nat))
    (hr : t.rights &&& need = need) (hb : s.bytesOf t.entry (t.base * 64 + off.toNat) w = some pas) :
    s.check t off w need = .pass t pas := by
  unfold State.check; rw [h]
  refine (if_neg ?_).trans ?_
  · push_cast at hl
    rintro (h' | h' | h')
    · omega
    · omega
    · exact h' hr
  · rw [hb]

end

/-! ### KSTAT (R211) -/

theorem kmask_bit (b : KBit) (i : Nat) (h : b.mask.getLsbD i = true) : i < 3 := by
  by_contra hi
  have hlt : b.mask.toNat < 2 ^ i := 
    Nat.lt_of_lt_of_le (show b.mask.toNat < 2 ^ 3 by cases b <;> decide) (Nat.pow_le_pow_right (by decide) (by omega))
  rw [BitVec.getLsbD, Nat.testBit_lt_two_pow hlt] at h
  exact absurd h (by decide)

theorem kmask_and (b : KBit) : b.mask &&& 7#64 = b.mask := by cases b <;> decide

/-- Recording an entry changes bits 31:12 of KSTAT alone (R211). -/
theorem kEntry_record (k : Word) (e : Nat) :
    ((k &&& ~~~(0xFFFFF000#64)) ||| BitVec.ofNat 64 (e % 2 ^ 20 * 2 ^ 12)) &&& 7#64 = k &&& 7#64 ∧
    (((k &&& ~~~(0xFFFFF000#64)) ||| BitVec.ofNat 64 (e % 2 ^ 20 * 2 ^ 12)).toNat / 2 ^ 12 % 2 ^ 20) = e % 2 ^ 20 := by
  have hlt : e % 2 ^ 20 * 2 ^ 12 < 2 ^ 64 := by omega
  constructor
  · rw [BitVec.and_or_distrib_right, BitVec.and_assoc, show ~~~(0xFFFFF000#64) &&& 7#64 = 7#64 by decide]
    have h : BitVec.ofNat 64 (e % 2 ^ 20 * 2 ^ 12) &&& 7#64 = 0#64 := by
      apply BitVec.eq_of_toNat_eq
      rw [BitVec.toNat_and, BitVec.toNat_ofNat, Nat.mod_eq_of_lt hlt, show (7#64).toNat = 2 ^ 3 - 1 from rfl,
        Nat.and_two_pow_sub_one_eq_mod]
      show e % 2 ^ 20 * 2 ^ 12 % 2 ^ 3 = 0
      omega
    rw [h, BitVec.or_zero]
  · apply Nat.eq_of_testBit_eq
    intro i
    rw [Nat.testBit_mod_two_pow, Nat.testBit_div_two_pow, ← BitVec.getLsbD, BitVec.getLsbD_or, BitVec.getLsbD_and,
      Nat.testBit_mod_two_pow]
    by_cases hi : i < 20
    · have h1 : (~~~(0xFFFFF000#64)).getLsbD (i + 12) = false := by
        rw [← Bool.not_eq_true]; revert i; decide
      have h2 : (BitVec.ofNat 64 (e % 2 ^ 20 * 2 ^ 12)).getLsbD (i + 12) = e.testBit i := by
        rw [BitVec.getLsbD_ofNat, Nat.testBit_mul_two_pow, Nat.testBit_mod_two_pow]
        simp [hi]; omega
      rw [h1, h2]; simp
    · simp [hi]

theorem Core.kset_kstat (x : Core) (b : KBit) (e : Nat) : (x.kset b e).c.kstat &&& 7#64 = (x.c.kstat &&& 7#64) ||| b.mask ∧
    (x.kset b e).c.kstat.toNat / 2 ^ 12 % 2 ^ 20 =
      if x.c.kstat &&& 7#64 = 0#64 then e % 2 ^ 20 else x.c.kstat.toNat / 2 ^ 12 % 2 ^ 20 := by
  have hk : (x.kset b e).c.kstat = (if x.c.kstat &&& 7#64 = 0#64 then
      (x.c.kstat &&& ~~~(0xFFFFF000#64)) ||| BitVec.ofNat 64 (e % 2 ^ 20 * 2 ^ 12) else x.c.kstat) ||| b.mask := by
    unfold Core.kset
    dsimp only
    by_cases h : x.c.kstat &&& 7#64 = 0#64
    · rw [if_pos h, if_neg fun h' => (kSticky_iff _).1 h' h]
    · rw [if_neg h, if_pos ((kSticky_iff _).2 h)]
  have hm : ∀ y : Word, (y ||| b.mask).toNat / 2 ^ 12 % 2 ^ 20 = y.toNat / 2 ^ 12 % 2 ^ 20 := fun y => by
    apply Nat.eq_of_testBit_eq
    intro i
    rw [Nat.testBit_mod_two_pow, Nat.testBit_mod_two_pow, Nat.testBit_div_two_pow, Nat.testBit_div_two_pow, ← BitVec.getLsbD,
      ← BitVec.getLsbD, BitVec.getLsbD_or, show b.mask.getLsbD (i + 12) = false from
        Bool.eq_false_iff.2 fun h => absurd (kmask_bit b _ h) (by omega), Bool.or_false]
  obtain ⟨r1, r2⟩ := kEntry_record x.c.kstat e
  rw [hk, BitVec.and_or_distrib_right, kmask_and, hm]
  split
  · exact ⟨by rw [r1], r2⟩
  · exact ⟨rfl, rfl⟩

end Sys2Proof.Machine

namespace Sys2Proof

open Machine

/-- Settles O18: by the judgement of the token, then by its window and rights; KSTAT bit by bit. -/
theorem tokenChecks : Obligations.TokenChecks := by
  have fine : ∀ (s : State) (t : Token), (t.entry = 0 ∨ ((s.ent t.entry).st = .live ∧ (s.ent t.entry).gen = t.gen)) →
      s.judge t = .fine t := fun s t h => by
    by_cases h0 : t.entry = 0
    · exact State.judge_null h0
    · obtain ⟨hst, hg⟩ := h.resolve_left h0
      rw [State.judge_live h0 hst, if_pos hg]
  refine ⟨fun s t off w need h0 hst => State.check_wait (State.judge_draining h0 hst), fun s t off w need h0 h => State.check_stale ?_,
    fun s t off w need h hb => State.check_bounds (fine s t h) hb, fun s t off w need n pa hst hg hr ho hl hrt hn h0 => ?_,
    fun s t off w need h0 hst hg hl hfg hf => ?_, fun s t off w need h0 hst h => State.check_stale ?_,
    fun x b e => Core.kset_kstat x b e⟩
  · rcases h with h | h | h | ⟨h, hg⟩
    · exact State.judge_over h0 (.inl h)
    · exact State.judge_over h0 (.inr (.inl h))
    · exact State.judge_over h0 (.inr (.inr h))
    · rw [State.judge_live h0 h, if_neg hg]
  · exact State.check_pass (fine s t (.inr ⟨hst, hg⟩)) ho hl hrt (State.bytesOf_one hr (by omega))
  · refine State.check_congr ?_ (fine s _ (.inr ⟨hl, hfg⟩))
    rw [State.judge_forwarded h0 hst, if_pos hg]
    exact State.judgeForward_live hl hfg
  · rw [State.judge_forwarded h0 hst]
    split
    · next hg => exact State.judgeForward_stale (h.resolve_left fun h' => h' hg)
    · rfl

end Sys2Proof
end

section
set_option Elab.async false
/-! SUPPORT. A token register written, and the token words (R203, R216). -/

namespace Sys2Proof.Machine

/-! ### A token register written -/

section
variable (x : Core) (ctx : Nat) {d : Nat} (t : Token)

/-- The registers once token `d`, not k0, is written. -/
theorem Core.wrK_regs (h0 : d ≠ 0) : (x.wrK ctx d t).r = { x.r with
    k := Sparse.set {} x.r.k (kKey ctx d) t, km := Sparse.set [] x.r.km (kKey ctx d) [], bad := Sparse.set 0 x.r.bad (kGran ctx d) 0 } := by
  unfold Core.wrK; rw [if_neg h0]

theorem Core.rdK_wrK : (x.wrK ctx d t).rdK ctx d = if d = 0 then {} else t := by
  unfold Core.rdK
  split
  · rfl
  · next h0 => rw [Core.wrK_regs x ctx t h0]; exact Sparse.get_set_same ..

theorem Core.kMarks_wrK : (x.wrK ctx d t).kMarks ctx d = [] := by
  unfold Core.kMarks
  split
  · rfl
  · next h0 => rw [Core.wrK_regs x ctx t h0]; exact Sparse.get_set_same [] x.r.km (kKey ctx d) []

theorem Core.wrK_other (hd : d < 32) {k r : Nat} (hr : r < 32) (h : ¬(k = ctx ∧ r = d)) :
    (x.wrK ctx d t).rdK k r = x.rdK k r ∧ (x.wrK ctx d t).kMarks k r = x.kMarks k r := by
  by_cases h0 : d = 0
  · subst h0; exact ⟨rfl, rfl⟩
  · have hk := kKey_ne hr hd h
    unfold Core.rdK Core.kMarks
    rw [Core.wrK_regs x ctx t h0]
    dsimp only
    rw [Sparse.get_set_other _ _ _ hk, Sparse.get_set_other _ _ _ hk]
    exact ⟨rfl, rfl⟩

theorem Core.wrK_r : (x.wrK ctx d t).r = { x.r with k := (x.wrK ctx d t).r.k, km := (x.wrK ctx d t).r.km, bad := (x.wrK ctx d t).r.bad } ∧
    ∀ g, g ≠ kGran ctx d → Sparse.get 0 (x.wrK ctx d t).r.bad g = Sparse.get 0 x.r.bad g := by
  by_cases h0 : d = 0
  · subst h0; exact ⟨rfl, fun _ _ => rfl⟩
  · rw [Core.wrK_regs x ctx t h0]
    exact ⟨rfl, fun g hg => Sparse.get_set_other 0 x.r.bad 0 hg⟩

end

/-- A word that has changed its core alone, writes a token and goes on (R216). -/
theorem State.retK_writes {s u : State} {d : Nat} (t : Token) (hd : d < 32) (ho : OnlyCore s.cur s u) (hctx : u.ctx = s.ctx)
    (hr : (u.core s.cur).r = s.me.r) (hq : (u.core s.cur).q = s.me.q) (hacc : (u.core s.cur).acc = s.me.acc) :
    WritesToken s (u.retK d t) d t ∧ ((u.retK d t).core s.cur).c = (u.core s.cur).c := by
  have hcur : u.cur = s.cur := by rw [ho.rest]
  have hc : (u.retK d t).core s.cur = ((u.core s.cur).wrK s.ctx d t).next s.ctx 1 := by
    rw [← hcur, ← hctx]; exact State.core_upd u _
  have hrd : ∀ k r, (u.core s.cur).rdK k r = s.me.rdK k r ∧ (u.core s.cur).kMarks k r = s.me.kMarks k r := fun k r => by
    unfold Core.rdK Core.kMarks; rw [hr]; exact ⟨rfl, rfl⟩
  refine ⟨⟨OnlyCore.trans ho (hcur ▸ State.upd_only u _), fun h => ?_, ?_, ?_, ?_, fun k r hk h => ?_, ?_, fun g hg => ?_⟩, ?_⟩ <;> rw [hc]
  · have hq' : ((u.core s.cur).wrK s.ctx d t).q = s.me.q := by rw [Core.wrK_q, hq]
    rw [Core.next_pc _ _ _ Nat.one_pos (by rw [hq']; exact h), hq']
  · exact (Core.wrK_acc _ _ _ _).trans hacc
  · exact Core.rdK_wrK (u.core s.cur) s.ctx t
  · exact Core.kMarks_wrK (u.core s.cur) s.ctx t
  · obtain ⟨h1, h2⟩ := Core.wrK_other (u.core s.cur) s.ctx t hd hk h
    exact ⟨h1.trans (hrd k r).1, h2.trans (hrd k r).2⟩
  · rw [← hr]; exact (Core.wrK_r (u.core s.cur) s.ctx t).1
  · rw [← hr]; exact (Core.wrK_r (u.core s.cur) s.ctx t).2 g hg
  · exact Core.wrK_c _ _ _ _

/-- A word that reads its sources, writes a token and goes on. -/
theorem wordResult_of_retK {i : Instr} {l : List Src} {s : State} {d : Nat} (t : Token) (hd : i.wf = true → d < 32)
    (he : MayIssue i l s → exec i s = .next ((s.read l).retK d t)) :
    WordResult i l s (fun u => WritesToken s u d t ∧ (u.core s.cur).c = s.me.c) := fun hw hm => by
  obtain ⟨h1, h2⟩ := State.retK_writes (u := s.read l) t (hd hw) (State.upd_only s _) rfl (by rw [State.core_upd]; rfl)
    (by rw [State.core_upd]; rfl) (by rw [State.core_upd]; rfl)
  exact ⟨_, he hm, h1, h2.trans (by rw [State.core_upd]; rfl)⟩

/-! ### Token registers in the register form -/

section
variable {o : AluR} {a b c : Char}

theorem token_of_roles_t (h : firstFail (o.roles 't' a b c) = none) : o.d < 32 := by
  simp only [AluR.roles, firstFail_cons, Bool.and_eq_true] at h
  obtain ⟨⟨⟨⟨hd, -⟩, -⟩, -⟩, -⟩ := h
  exact ReadsBack.of_isK (by simpa using hd)

theorem token_of_roles_k {d : Char} (h : firstFail (o.roles d 'k' b c) = none) : o.a < 32 := by
  simp only [AluR.roles, firstFail_cons, Bool.and_eq_true] at h
  obtain ⟨⟨⟨⟨-, ha⟩, -⟩, -⟩, -⟩ := h
  exact ReadsBack.of_isK (by simpa using ha)

end

theorem Instr.check_of_wf {i : Instr} (h : i.wf = true) : i.check = none := by simpa [Instr.wf] using h

/-! ### The status of a token (R216) -/

theorem State.tkStatus_eq {s : State} {t : Token} (h0 : t.entry ≠ 0) : s.tkStatus t =
    match s.judge t with
    | .wait => 0
    | .stale => 2
    | .fine u => if u.entry = t.entry then 0 else 3 := if_neg h0

section
variable {s : State} {t : Token}

theorem State.tkStatus_null (h0 : t.entry = 0) : s.tkStatus t = 1 := if_pos h0
theorem State.tkStatus_wait (h0 : t.entry ≠ 0) (h : s.judge t = .wait) : s.tkStatus t = 0 := by rw [State.tkStatus_eq h0, h]
theorem State.tkStatus_stale (h0 : t.entry ≠ 0) (h : s.judge t = .stale) : s.tkStatus t = 2 := by rw [State.tkStatus_eq h0, h]
theorem State.tkStatus_fine {u : Token} (h0 : t.entry ≠ 0) (h : s.judge t = .fine u) :
    s.tkStatus t = if u.entry = t.entry then 0 else 3 := by rw [State.tkStatus_eq h0, h]

end

end Sys2Proof.Machine

namespace Sys2Proof

open Machine

/-- What `tkchk` says of a token, by the state of its entry (R216). -/
theorem tkStatus_spec (s : State) (t : Token) :
    let e := s.ent t.entry
    let v : Word := BitVec.ofNat 64 (s.tkStatus t)
    (t.entry = 0 → v = 1#64) ∧ (t.entry ≠ 0 → e.st = .draining → v = 0#64) ∧
    (t.entry ≠ 0 → e.st = .live → e.gen = t.gen → v = 0#64) ∧ (t.entry ≠ 0 → e.st = .live → e.gen ≠ t.gen → v = 2#64) ∧
    (t.entry ≠ 0 → (e.st = .free ∨ e.st = .dead ∨ e.st = .retired) → v = 2#64) ∧
    (t.entry ≠ 0 → e.st = .sweeping → e.gen = t.gen → v = 0#64) ∧
    (t.entry ≠ 0 → e.st = .sweeping → e.gen ≠ t.gen → e.move = false → v = 2#64) ∧
    (t.entry ≠ 0 → e.st = .forwarded → t.gen + 1 ≠ e.gen → v = 2#64) ∧
    (t.entry ≠ 0 → e.st = .forwarded → (s.ent e.fwd).gen ≠ e.fgen → v = 2#64) ∧
    (t.entry ≠ 0 → e.st = .forwarded → ((s.ent e.fwd).st = .free ∨ (s.ent e.fwd).st = .dead ∨ (s.ent e.fwd).st = .retired) → v = 2#64) ∧
    (t.entry ≠ 0 → e.st = .forwarded → t.gen + 1 = e.gen → e.fwd ≠ t.entry → (s.ent e.fwd).st = .live → (s.ent e.fwd).gen = e.fgen →
      v = 3#64) := by
  intro e v
  have val : ∀ {n : Nat}, s.tkStatus t = n → v = BitVec.ofNat 64 n := fun h => congrArg (BitVec.ofNat 64) h
  refine ⟨fun h => val (State.tkStatus_null h), fun h0 h => val (State.tkStatus_wait h0 (State.judge_draining h0 h)),
    fun h0 h hg => val ?_, fun h0 h hg => val (State.tkStatus_stale h0 ?_), fun h0 h => val (State.tkStatus_stale h0 (State.judge_over h0 h)),
    fun h0 h hg => val ?_, fun h0 h hg hm => val (State.tkStatus_stale h0 ?_), fun h0 h hg => val (State.tkStatus_stale h0 ?_),
    fun h0 h hg => val (State.tkStatus_stale h0 ?_), fun h0 h hf => val (State.tkStatus_stale h0 ?_),
    fun h0 h hg hne hf hfg => val ?_⟩
  · rw [State.tkStatus_fine h0 ((State.judge_live h0 h).trans (if_pos hg)), if_pos rfl]
  · rw [State.judge_live h0 h, if_neg hg]
  · rw [State.tkStatus_fine h0 ((State.judge_sweeping h0 h).trans (if_pos hg)), if_pos rfl]
  · rw [State.judge_sweeping h0 h, if_neg hg, if_neg fun h' => by rw [hm] at h'; exact absurd h'.1 (by decide)]
  · rw [State.judge_forwarded h0 h, if_neg hg]
  · rw [State.judge_forwarded h0 h]
    split
    · exact State.judgeForward_stale (.inl hg)
    · rfl
  · rw [State.judge_forwarded h0 h]
    split
    · exact State.judgeForward_stale (.inr hf)
    · rfl
  · rw [State.tkStatus_fine (u := s.forwarded t e.fwd) h0 (by
      rw [State.judge_forwarded h0 h, if_pos hg]; exact State.judgeForward_live hf hfg)]
    exact if_neg hne

/-- The status in bits 25:24 of the word that `tkinfo` writes (R216). -/
theorem statusWord (n : Nat) : BitVec.ofNat 64 (n * 2 ^ 24) = (BitVec.ofNat 64 n : Word) <<< 24 := by
  apply BitVec.eq_of_toNat_eq
  rw [BitVec.toNat_shiftLeft, BitVec.toNat_ofNat, BitVec.toNat_ofNat, Nat.shiftLeft_eq, Nat.mod_mul_mod]

theorem tksub_inside {s : State} {o : AluR} (hb : (s.sc o.b).toNat % 64 = 0) (hc : (s.sc o.c).toNat % 64 = 0) (h0 : (s.sc o.c).toNat ≠ 0)
    (hl : (s.sc o.b).toNat + (s.sc o.c).toNat ≤ (s.tk o.a).len * 64) :
    WordResult (.tksub o) [.k o.a o.fea, .s o.b o.feb, .s o.c o.fec] s (fun u =>
      WritesToken s u o.d { s.tk o.a with base := (s.tk o.a).base + (s.sc o.b).toNat / 64, len := (s.sc o.c).toNat / 64 } ∧
      (u.core s.cur).c = s.me.c) := by
  refine wordResult_of_retK _ (fun hw => token_of_roles_t (Instr.check_of_wf (i := .tksub o) hw)) fun hm => ?_
  refine ((show exec (.tksub o) s = execTksub o s from rfl).trans (issue_ready hm _)).trans ?_
  dsimp only
  rw [State.sc_upd_touch, State.sc_upd_touch, State.tk_upd_touch]
  exact if_neg (by omega)

theorem tksub_outside {s : State} {o : AluR} (h : (s.sc o.b).toNat % 64 ≠ 0 ∨ (s.sc o.c).toNat % 64 ≠ 0 ∨ (s.sc o.c).toNat = 0 ∨
      (s.tk o.a).len * 64 < (s.sc o.b).toNat + (s.sc o.c).toNat) :
    WordResult (.tksub o) [.k o.a o.fea, .s o.b o.feb, .s o.c o.fec] s (fun u => WritesToken s u o.d {} ∧
      (u.core s.cur).c = (s.me.kset .bounds (s.tk o.a).entry).c) := fun hw hm => by
  have hex : exec (.tksub o) s = .next (((s.read [.k o.a o.fea, .s o.b o.feb, .s o.c o.fec]).upd
      (fun x => x.kset .bounds (s.tk o.a).entry)).retK o.d {}) := by
    refine ((show exec (.tksub o) s = execTksub o s from rfl).trans (issue_ready hm _)).trans ?_
    dsimp only
    rw [State.sc_upd_touch, State.sc_upd_touch, State.tk_upd_touch]
    exact if_pos h
  have hc := State.read_upd_core s [.k o.a o.fea, .s o.b o.feb, .s o.c o.fec] (fun x => x.kset .bounds (s.tk o.a).entry)
  obtain ⟨h1, h2⟩ := State.retK_writes {} (token_of_roles_t (Instr.check_of_wf (i := .tksub o) hw)) (State.read_upd_only s _ _) rfl
    (by rw [hc]; rfl) (by rw [hc]; rfl) (by rw [hc]; rfl)
  exact ⟨_, hex, h1, h2.trans (by rw [hc]; rfl)⟩

/-- Settles O24: the status by the state of the token's entry; the writing words by the one rule of a token written. -/
theorem tokenWords : Obligations.TokenWords := by
  intro s o t e status
  have hst : ∀ l : List Src, (s.read l).tkStatus ((s.read l).tk o.a) = s.tkStatus t := fun l => by
    rw [State.tk_upd_touch]; rfl
  refine ⟨?_, ?_, ?_, ?_, tksub_inside, tksub_outside, by decide⟩
  · refine scalarResult_of_ret (fun s => BitVec.ofNat 64 (s.tkStatus (s.tk o.a))) rfl dest_of_roles Nat.one_pos ?_
    have e := tkStatus_spec s t
    rw [← hst [.k o.a o.fea]] at e
    exact e
  · refine scalarResult_of_ret (fun s => (s.tk o.a).word + BitVec.ofNat 64 (s.tkStatus (s.tk o.a) * 2 ^ 24)) rfl dest_of_roles
      Nat.one_pos ⟨_, tkStatus_spec s t, ?_⟩
    rw [hst, State.tk_upd_touch, statusWord]
  · exact wordResult_of_retK {} (fun hw => token_of_roles_k (Instr.check_of_wf (i := .tkdrop o) hw)) fun hm =>
      (show exec (.tkdrop o) s = execTkdrop o s from rfl).trans (issue_ready hm _)
  · refine wordResult_of_retK t (fun hw => token_of_roles_t (Instr.check_of_wf (i := .tkmov o) hw)) fun hm => ?_
    refine ((show exec (.tkmov o) s = execTkmov o s from rfl).trans (issue_ready hm _)).trans ?_
    rw [State.tk_upd_touch]

end Sys2Proof
end

section
set_option Elab.async false
/-! SUPPORT. How an access issues: what its core and its destination become (R129, R209, R315). -/

namespace Sys2Proof.Machine

/-! ### A destination marked empty -/

section
variable (x : Core) (ctx : Nat) {d : Nat} (n : Nat)

theorem Core.markS_regs : (x.markS ctx d n).r = { x.r with sm := (x.markS ctx d n).r.sm } := by
  unfold Core.markS; split <;> rfl

/-- The marks of a scalar, once a producer has marked one empty (R96). -/
theorem Core.sMarks_markS (hd : d < 64) {k r : Nat} (hr : r < 64) :
    (x.markS ctx d n).sMarks k r = if k = ctx ∧ r = d ∧ r ≠ 0 then x.sMarks k r ++ [n] else x.sMarks k r := by
  unfold Core.sMarks
  by_cases hr0 : r = 0
  · rw [if_pos hr0, if_pos hr0, if_neg fun h => h.2.2 hr0]
  · rw [if_neg hr0, if_neg hr0]
    unfold Core.markS
    by_cases hd0 : d = 0
    · rw [if_pos hd0, if_neg]; rintro ⟨-, rfl, h⟩; exact h hd0
    · rw [if_neg hd0]
      split
      · next h => obtain ⟨rfl, rfl, -⟩ := h; exact Sparse.get_set_same ..
      · next h =>
        have hk : sKey k r ≠ sKey ctx d := by
          unfold sKey; intro e
          exact h ⟨by omega, by omega, hr0⟩
        exact Sparse.get_set_other [] x.r.sm _ hk

end

/-! ### The core of an access that issues -/

/-- The access as it stands when its word issues. -/
def State.issuedAcc (s : State) (a : Acc) : Acc :=
  { a with id := s.id, ctx := s.ctx, pc := s.pc, depth := s.me.q.regions.length, seq := s.me.q.wseq
           floor := (s.hbOf s.cur s.ctx).seen, clk := s.now }

/-- A core with one more access outstanding, `b` as its check left it. -/
def Core.issues (x : Core) (ctx : Nat) (a b : Acc) : Core :=
  let y := if a.op.fills then x.markS ctx a.d b.id else x
  let z := match a.op with
    | .load _ | .sigRead => y
    | _ => y.numbered
  if b.chk = 2 ∧ a.op.fills = false then z else { z with acc := z.acc ++ [b] }

theorem State.begin_eq (s : State) (a : Acc) : s.begin a = (s.checkAcc s.cur (s.issuedAcc a)).1.upd
    (fun x => x.issues s.ctx a (s.checkAcc s.cur (s.issuedAcc a)).2) := rfl

theorem Core.numbered_kept (x : Core) : x.numbered = { x with q := { x.q with wseq := x.numbered.q.wseq } } := by
  unfold Core.numbered; split <;> rfl

/-- What an issuing access leaves of its core. -/
structure Core.Issued (x y : Core) (ctx : Nat) (a b : Acc) : Prop where
  rest : y = { x with r := y.r, q := y.q, acc := y.acc }
  regs : y.r = { x.r with sm := y.r.sm }
  place : y.q = { x.q with wseq := y.q.wseq }
  marks : (a.op.fills = true → a.d < 64) → ∀ k r, r < 64 →
    y.sMarks k r = if a.op.fills = true ∧ k = ctx ∧ r = a.d ∧ r ≠ 0 then x.sMarks k r ++ [b.id] else x.sMarks k r
  acc : y.acc = if b.chk = 2 ∧ a.op.fills = false then x.acc else x.acc ++ [b]

theorem Core.markS_kept (x : Core) (ctx d n : Nat) : x.markS ctx d n = { x with r := (x.markS ctx d n).r } := by
  unfold Core.markS; split <;> rfl

/-- The destination's mark, then the number of a redundant core's write. -/
theorem Core.Issued.of_marks {x y z : Core} {ctx : Nat} {a b : Acc}
    (hy : y = if a.op.fills then x.markS ctx a.d b.id else x) (hz : z = y ∨ z = y.numbered) :
    Core.Issued x (if b.chk = 2 ∧ a.op.fills = false then z else { z with acc := z.acc ++ [b] }) ctx a b := by
  have hy1 : y = { x with r := y.r } := by
    rw [hy]; split
    · exact Core.markS_kept _ _ _ _
    · rfl
  have hy2 : y.r = { x.r with sm := y.r.sm } := by
    rw [hy]; split
    · exact Core.markS_regs _ _ _
    · rfl
  have hz1 : z = { y with q := { y.q with wseq := z.q.wseq } } := by
    rcases hz with rfl | rfl
    · rfl
    · exact Core.numbered_kept y
  have hzr : z.r = y.r := by rw [hz1]
  have hzq : z.q = { x.q with wseq := z.q.wseq } := by
    calc z.q = { y.q with wseq := z.q.wseq } := by rw [hz1]
      _ = _ := by rw [hy1]
  have hza : z.acc = x.acc := by
    calc z.acc = y.acc := by rw [hz1]
      _ = _ := by rw [hy1]
  have hzx : z = { x with r := z.r, q := z.q } := by
    calc z = { y with q := z.q } := by rw [hz1]
      _ = { x with r := z.r, q := z.q } := by rw [hzr, hy1]
  have hm : (a.op.fills = true → a.d < 64) → ∀ k r, r < 64 →
      z.sMarks k r = if a.op.fills = true ∧ k = ctx ∧ r = a.d ∧ r ≠ 0 then x.sMarks k r ++ [b.id] else x.sMarks k r := by
    intro hd k r hr
    have e : z.sMarks k r = y.sMarks k r := by unfold Core.sMarks; rw [hzr]
    rw [e, hy]
    by_cases hf : a.op.fills = true
    · rw [if_pos hf, Core.sMarks_markS x ctx b.id (hd hf) hr]
      simp only [hf, true_and]
    · rw [if_neg hf, if_neg fun h => hf h.1]
  split
  · next h =>
    refine ⟨?_, ?_, hzq, hm, by rw [if_pos h, hza]⟩
    · calc z = { x with r := z.r, q := z.q } := hzx
        _ = { x with r := z.r, q := z.q, acc := z.acc } := by rw [hza]
    · rw [hzr]; exact hy2
  · next h =>
    refine ⟨?_, ?_, hzq, hm, ?_⟩
    · show ({ z with acc := z.acc ++ [b] } : Core) = { x with r := z.r, q := z.q, acc := z.acc ++ [b] }
      rw [hzx]
    · show z.r = _
      rw [hzr]; exact hy2
    · rw [if_neg h]; show z.acc ++ [b] = _; rw [hza]

theorem Core.issues_issued (x : Core) (ctx : Nat) (a b : Acc) : Core.Issued x (x.issues ctx a b) ctx a b := by
  unfold Core.issues
  dsimp only
  refine Core.Issued.of_marks rfl ?_
  split
  · exact .inl rfl
  · exact .inl rfl
  · exact .inr rfl

/-! ### The check at issue (R209) -/

theorem Core.cacheTok_kept (x : Core) (e : Nat) : x.cacheTok e = { x with tcache := (x.cacheTok e).tcache } := by
  unfold Core.cacheTok; split <;> rfl

section
variable {s : State} {a : Acc}

theorem State.checkAcc_wait {c : Nat} (h : s.check a.tok a.off a.w a.op.need = .wait) : s.checkAcc c a = (s, a) := by
  unfold State.checkAcc; rw [h]

theorem State.checkAcc_fail {c : Nat} {b : KBit} {e : Nat} (h : s.check a.tok a.off a.w a.op.need = .fail b e) :
    s.checkAcc c a = (s.mod c (fun x => x.kset b e), { a with chk := 2, pas := [] }) := by
  unfold State.checkAcc; rw [h]

theorem State.checkAcc_pass {c : Nat} {t : Token} {pas : List Nat} (h : s.check a.tok a.off a.w a.op.need = .pass t pas) :
    s.checkAcc c a = (s.mod c (fun x => x.cacheTok t.entry), { a with chk := 1, tok := t, pas := pas }) := by
  unfold State.checkAcc; rw [h]

/-- The core after the check, and the access as the check leaves it. -/
def State.checked (s : State) (a : Acc) : Core × Acc :=
  match s.check a.tok a.off a.w a.op.need with
  | .wait => (s.me, s.issuedAcc a)
  | .fail b e => (s.me.kset b e, { s.issuedAcc a with chk := 2, pas := [] })
  | .pass t pas => (s.me.cacheTok t.entry, { s.issuedAcc a with chk := 1, tok := t, pas := pas })

theorem State.begin_core (s : State) (a : Acc) :
    OnlyCore s.cur s (s.begin a) ∧ (s.begin a).ctx = s.ctx ∧
    (s.begin a).core s.cur = (s.checked a).1.issues s.ctx a (s.checked a).2 := by
  rw [State.begin_eq]
  unfold State.checked
  cases h : s.check a.tok a.off a.w a.op.need with
  | wait =>
    rw [State.checkAcc_wait (a := s.issuedAcc a) h]
    exact ⟨State.upd_only s _, rfl, State.core_upd s _⟩
  | fail b e =>
    rw [State.checkAcc_fail (a := s.issuedAcc a) h]
    refine ⟨OnlyCore.trans (State.upd_only s (fun x => x.kset b e)) (State.upd_only (s.upd (fun x => x.kset b e)) _), rfl, ?_⟩
    exact (State.core_upd (s.upd (fun x => x.kset b e)) _).trans (by rw [State.me_upd])
  | pass t pas =>
    rw [State.checkAcc_pass (a := s.issuedAcc a) h]
    refine ⟨OnlyCore.trans (State.upd_only s (fun x => x.cacheTok t.entry)) (State.upd_only (s.upd (fun x => x.cacheTok t.entry)) _),
      rfl, ?_⟩
    exact (State.core_upd (s.upd (fun x => x.cacheTok t.entry)) _).trans (by rw [State.me_upd])

/-- The check touches KSTAT and the token cache alone, and the access keeps its number and its context (R209). -/
theorem State.checked_kept (s : State) (a : Acc) :
    (s.checked a).1 = { s.me with c := (s.checked a).1.c, tcache := (s.checked a).1.tcache } ∧
    (s.checked a).2.id = s.me.q.nid := by
  unfold State.checked
  split
  · exact ⟨rfl, rfl⟩
  · exact ⟨rfl, rfl⟩
  · refine ⟨?_, rfl⟩
    dsimp only
    rw [Core.cacheTok_c]
    exact Core.cacheTok_kept _ _

end

end Sys2Proof.Machine

namespace Sys2Proof

open Machine

/-- Nothing that `P` says of an access depends on when and where it issued, nor on what its check found. -/
def Acc.Steady (P : Acc → Prop) (a : Acc) : Prop :=
  ∀ id ctx pc depth seq floor clk chk tok pas,
    P { a with id := id, ctx := ctx, pc := pc, depth := depth, seq := seq, floor := floor, clk := clk, chk := chk, tok := tok, pas := pas }

/-- A word that issues one access and goes on (R129, R209, R315). -/
theorem issuesAccess_of_begin {i : Instr} {l : List Src} {n : Nat} {s : State} {a : Acc} {P : Acc → Prop} {fills : Option Nat}
    (hn : 0 < n) (hf : fills = if a.op.fills = true then some a.d else none) (hd : i.wf = true → a.op.fills = true → a.d < 64)
    (hc : a.chk = 0) (hP : Acc.Steady P a)
    (he : MayIssue i l s → exec i s = .next (((s.read l).begin a).done n)) :
    IssuesAccess i l n fills a.op.need a.tok a.off a.w s P := by
  intro hw hm
  obtain ⟨ho, hctx, hcore⟩ := State.begin_core (s.read l) a
  obtain ⟨hk, hid⟩ := State.checked_kept (s.read l) a
  have hi := Core.issues_issued ((s.read l).checked a).1 s.ctx a ((s.read l).checked a).2
  have ho' : OnlyCore s.cur s ((s.read l).begin a) := OnlyCore.trans (State.upd_only s _) ho
  have hcur : ((s.read l).begin a).cur = s.cur := by rw [ho'.rest]
  have hcore' : ((s.read l).begin a).core s.cur = ((s.read l).checked a).1.issues s.ctx a ((s.read l).checked a).2 := hcore
  rw [← hcore'] at hi
  obtain ⟨hrest, hregs, hplace, hmarks, hacc⟩ := hi
  have hme : (s.read l).me = s.me.touch s.ctx l := State.read_me s l
  have hmr : ((s.read l).checked a).1.r = s.me.r := by rw [hk, hme]; rfl
  have hmq : ((s.read l).checked a).1.q = s.me.q := by rw [hk, hme]; rfl
  have hma : ((s.read l).checked a).1.acc = s.me.acc := by rw [hk, hme]; rfl
  have hfin : (((s.read l).begin a).done n).core s.cur = (((s.read l).begin a).core s.cur).next s.ctx n :=
    State.done_core hcur hctx
  have hq : (((s.read l).begin a).core s.cur).q = { s.me.q with wseq := (((s.read l).begin a).core s.cur).q.wseq } := by
    rw [← hmq]; exact hplace
  refine ⟨_, he hm, OnlyCore.done ho', State.done_passes hcur hctx hn ?_ ?_ ?_, ?_, ?_, fun k r hr => ?_, ?_⟩
  · rw [hq]; rfl
  · rw [hq]
  · rw [hq]
  · rw [hfin]
    show (((s.read l).begin a).core s.cur).r = { s.me.r with sm := (((s.read l).begin a).core s.cur).r.sm }
    rw [← hmr]; exact hregs
  · rw [hfin]
    generalize ((s.read l).begin a).core s.cur = y at hrest
    have hy : y = { s.me with r := y.r, c := y.c, q := y.q, e := y.e, acc := y.acc, tcache := y.tcache } := by
      calc y = { ((s.read l).checked a).1 with r := y.r, q := y.q, acc := y.acc } := hrest
        _ = { s.me with r := y.r, c := y.c, q := y.q, e := y.e, acc := y.acc, tcache := y.tcache } := by
            conv_rhs => rw [hrest]
            rw [hk, hme]; rfl
    calc y.next s.ctx n = { y with q := (y.next s.ctx n).q } := rfl
      _ = _ := by rw [hy]; rfl
  · rw [hfin]
    have hs : ((s.read l).checked a).1.sMarks k r = s.me.sMarks k r := by unfold Core.sMarks; rw [hmr]
    have hnid : ((s.read l).checked a).2.id = s.me.q.nid := by rw [hid, hme]; rfl
    have e := hmarks (hd hw) k r hr
    rw [hs, hnid] at e
    refine (show _ = (((s.read l).begin a).core s.cur).sMarks k r from rfl).trans (e.trans ?_)
    rw [hf]
    by_cases hfl : a.op.fills = true
    · rw [if_pos hfl]
      by_cases h : k = s.ctx ∧ r = a.d ∧ r ≠ 0
      · obtain ⟨h1, h2, h3⟩ := h
        rw [if_pos ⟨hfl, h1, h2, h3⟩, if_pos ⟨by rw [h2], h1, h3⟩]
      · rw [if_neg fun h' => h h'.2, if_neg]
        rintro ⟨h1, h2, h3⟩
        exact h ⟨h2, (Option.some.inj h1).symm, h3⟩
    · rw [if_neg hfl, if_neg fun h' => hfl h'.1, if_neg]
      rintro ⟨h1, -⟩
      cases h1
  · have hcheck : (s.read l).check a.tok a.off a.w a.op.need = s.check a.tok a.off a.w a.op.need := rfl
    have hct : ((((s.read l).begin a).done n).core s.cur).c = ((s.read l).checked a).1.c := by
      rw [hfin]
      show (((s.read l).begin a).core s.cur).c = _
      rw [hrest]
    have hat : ((((s.read l).begin a).done n).core s.cur).acc =
        if ((s.read l).checked a).2.chk = 2 ∧ a.op.fills = false then s.me.acc else s.me.acc ++ [((s.read l).checked a).2] := by
      rw [hfin]
      show (((s.read l).begin a).core s.cur).acc = _
      rw [hacc, hma]
    have hnid : (s.read l).issuedAcc a = { (s.read l).issuedAcc a with id := s.me.q.nid } := by
      show _ = _
      unfold State.issuedAcc State.id
      rw [hme]; rfl
    have hnone : fills = none → a.op.fills = false := fun h => by
      rw [hf] at h
      refine Bool.eq_false_iff.2 fun hfl => ?_
      rw [if_pos hfl] at h; cases h
    have hsome : fills ≠ none → a.op.fills ≠ false := fun h hfl => h (by rw [hf, hfl]; rfl)
    dsimp only
    rw [hct, hat]
    unfold State.checked
    rw [hcheck]
    cases s.check a.tok a.off a.w a.op.need with
    | wait =>
      dsimp only
      refine ⟨by rw [hme]; rfl, _, if_neg fun h => ?_, ⟨congrArg Acc.id hnid, rfl, rfl, hP _ _ _ _ _ _ _ a.chk a.tok a.pas⟩, hc, rfl, rfl⟩
      have h2 : a.chk = 2 := h.1
      rw [hc] at h2; exact absurd h2 (by decide)
    | pass u pas =>
      dsimp only
      refine ⟨?_, _, if_neg fun h => ?_, ⟨congrArg Acc.id hnid, rfl, rfl, hP _ _ _ _ _ _ _ 1 u pas⟩, rfl, rfl, rfl⟩
      · rw [hme, Core.cacheTok_kept]; rfl
      · exact absurd h.1 (by show ¬(1 = 2); decide)
    | fail b e =>
      dsimp only
      exact ⟨by rw [hme]; rfl, fun h => if_pos ⟨rfl, hnone h⟩, fun h => ⟨_, if_neg fun h' => hsome h h'.2,
        ⟨congrArg Acc.id hnid, rfl, rfl, hP _ _ _ _ _ _ _ 2 a.tok []⟩, rfl⟩⟩

/-! ### Scalar loads and stores (R129) -/

section
variable {s : State} {f : LdF}

theorem ld_issues (s : State) (f : LdF) :
    IssuesAccess (.ld f) (memSrcs f.m) 1 (some f.d) rR (s.tk f.m.k) ((s.sc f.m.x).toInt + f.m.off.toInt) (tyBytes f.ty) s
      (fun a => a.op = .load (decide (f.ty < 4)) ∧ a.d = f.d ∧ a.acq = f.ord.acq ∧ a.scope = f.ord.scope) := by
  have hd : (Instr.ld f).wf = true → f.d < 64 := fun hw => by
    have h := Instr.check_of_wf hw
    simp only [Instr.check, List.cons_append, firstFail_cons] at h
    exact ReadsBack.of_isS h.2.1
  refine issuesAccess_of_begin (a := mkAcc (.load (decide (f.ty < 4))) f.d (tyBytes f.ty) (s.tk f.m.k) (s.offOf f.m) 0#64 0#64 f.ord)
    Nat.one_pos rfl (fun hw _ => hd hw) rfl (fun _ _ _ _ _ _ _ _ _ _ => ⟨rfl, rfl, rfl, rfl⟩) fun hm => ?_
  refine ((show exec (.ld f) s = execLd f s from rfl).trans (issue_ready hm _)).trans ?_
  unfold State.offOf
  rw [State.tk_upd_touch, State.sc_upd_touch]

/-- The access of a scalar store whose data carry the mark `m`, 0 for none (R338). -/
def storeAcc (s : State) (f : LdF) (m : Nat) : Machine.Acc :=
  { mkAcc .store 0 (tyBytes f.ty) (s.tk f.m.k) ((s.sc f.m.x).toInt + f.m.off.toInt) 0#64 0#64 f.ord with
    data := leBytes (tyBytes f.ty) (s.sc f.d).toNat
    bad := if m = 0 then [] else (List.range (tyBytes f.ty)).map (fun i => (i, (m - 1) % 2 ^ 16)) }

theorem exec_st_ready (hm : MayIssue (.st f) (.s f.d false :: memSrcs f.m) s) : exec (.st f) s =
    .next ((((s.read (.s f.d false :: memSrcs f.m)).readGranules s.cur ((Src.s f.d false).granule s.ctx)).begin
      (storeAcc s f (s.me.markAt ((Src.s f.d false).granule s.ctx)))).done 1) := by
  refine ((show exec (.st f) s = execSt f s from rfl).trans (issue_ready hm _)).trans ?_
  unfold storeAcc State.offOf
  dsimp only
  rw [State.tk_upd_touch, State.sc_upd_touch, State.sc_upd_touch, State.read_me]
  rfl

theorem st_issues (hz : s.me.markAt ((Src.s f.d false).granule s.ctx) = 0) :
    IssuesAccess (.st f) (.s f.d false :: memSrcs f.m) 1 none rW (s.tk f.m.k) ((s.sc f.m.x).toInt + f.m.off.toInt)
      (tyBytes f.ty) s (fun a => a.op = .store ∧ a.data = leBytes (tyBytes f.ty) (s.sc f.d).toNat ∧ a.bad = [] ∧ a.rel = f.ord.rel ∧
        a.scope = f.ord.scope) := by
  refine issuesAccess_of_begin (a := storeAcc s f 0) Nat.one_pos rfl nofun rfl
    (fun _ _ _ _ _ _ _ _ _ _ => ⟨rfl, rfl, rfl, rfl, rfl⟩) fun hm => (exec_st_ready hm).trans ?_
  have hr : (s.read (.s f.d false :: memSrcs f.m)).readGranules s.cur ((Src.s f.d false).granule s.ctx) =
      s.read (.s f.d false :: memSrcs f.m) := if_pos (by
    show ((s.read (.s f.d false :: memSrcs f.m)).me).markAt _ = 0
    rw [State.read_me]; exact hz)
  rw [hr, hz]

/-- The check of a token reads the pontil table alone. -/
theorem State.check_of_pontil {s t : State} (h : t.pontil = s.pontil) (tok : Token) (off : Int) (w : Nat) (need : BitVec 4) :
    t.check tok off w need = s.check tok off w need := by
  unfold State.check State.judge State.forwarded State.bytesOf State.ent
  rw [h]

/-- What reading marked granules leaves alone (R338). -/
theorem State.readGranules_kept (s : State) (c : Nat) (gs : List Nat) : (s.readGranules c gs).pontil = s.pontil ∧
    (s.readGranules c gs).cur = s.cur ∧ (s.readGranules c gs).ctx = s.ctx ∧ (s.readGranules c gs).mem = s.mem ∧
    ((s.readGranules c gs).core c).acc = (s.core c).acc ∧ ((s.readGranules c gs).core c).q = (s.core c).q := by
  unfold State.readGranules
  dsimp only
  split
  · exact ⟨rfl, rfl, rfl, rfl, rfl, rfl⟩
  · split <;> exact ⟨rfl, rfl, rfl, rfl, by rw [State.core_mod_same]; rfl, by rw [State.core_mod_same]; rfl⟩

theorem st_marked {m : Nat} {u : Token} {pas : List Nat} (hmk : s.me.markAt ((Src.s f.d false).granule s.ctx) = m) (h0 : m ≠ 0)
    (hc : s.check (s.tk f.m.k) ((s.sc f.m.x).toInt + f.m.off.toInt) (tyBytes f.ty) rW = .pass u pas) :
    WordResult (.st f) (.s f.d false :: memSrcs f.m) s (fun t => Passes s t 1 ∧ (∀ pa, t.byte pa = s.byte pa) ∧
      ∃ a : Machine.Acc, (t.core s.cur).acc = s.me.acc ++ [a] ∧ a.op = .store ∧ a.pas = pas ∧
        a.data = leBytes (tyBytes f.ty) (s.sc f.d).toNat ∧ a.bad = (List.range (tyBytes f.ty)).map (fun i => (i, (m - 1) % 2 ^ 16))) := by
  intro _ hm
  have hex := exec_st_ready hm
  rw [hmk] at hex
  obtain ⟨hpont, hcur, hctx, hmem, hacc, hq⟩ :=
    State.readGranules_kept (s.read (.s f.d false :: memSrcs f.m)) s.cur ((Src.s f.d false).granule s.ctx)
  have hme : (s.read (.s f.d false :: memSrcs f.m)).core s.cur = s.me.touch s.ctx (.s f.d false :: memSrcs f.m) := State.read_me s _
  rw [hme] at hacc hq
  generalize (s.read (.s f.d false :: memSrcs f.m)).readGranules s.cur ((Src.s f.d false).granule s.ctx) = t
    at hpont hcur hctx hmem hacc hq hex
  have hcur' : t.cur = s.cur := hcur
  have htme : t.me = t.core s.cur := by rw [← hcur']; rfl
  have hck : t.check (storeAcc s f m).tok (storeAcc s f m).off (storeAcc s f m).w (storeAcc s f m).op.need = .pass u pas :=
    (State.check_of_pontil (t := t) (s := s) hpont _ _ _ _).trans hc
  obtain ⟨ho, hbctx, hcore⟩ := State.begin_core t (storeAcc s f m)
  have hi := Core.issues_issued (t.checked (storeAcc s f m)).1 t.ctx (storeAcc s f m) (t.checked (storeAcc s f m)).2
  rw [← hcore, hcur'] at hi
  have hchk : t.checked (storeAcc s f m) =
      (t.me.cacheTok u.entry, { t.issuedAcc (storeAcc s f m) with chk := 1, tok := u, pas := pas }) := by
    unfold State.checked; rw [hck]
  rw [hchk] at hi
  obtain ⟨-, -, hplace, -, ha⟩ := hi
  have hbq : ((t.begin (storeAcc s f m)).core s.cur).q = { s.me.q with wseq := ((t.begin (storeAcc s f m)).core s.cur).q.wseq } := by
    refine hplace.trans ?_
    have e : (t.me.cacheTok u.entry).q = s.me.q := by rw [Core.cacheTok_q, htme, hq]; rfl
    dsimp only
    rw [e]
  have hbcur : (t.begin (storeAcc s f m)).cur = s.cur := (congrArg State.cur ho.rest).trans hcur'
  refine ⟨_, hex, State.done_passes hbcur (hbctx.trans hctx) Nat.one_pos (by rw [hbq]; rfl) (by rw [hbq]) (by rw [hbq]),
    fun pa => ?_, { t.issuedAcc (storeAcc s f m) with chk := 1, tok := u, pas := pas }, ?_, rfl, rfl, rfl, if_neg h0⟩
  · exact (ho.bytes pa).trans (by show Sparse.get _ t.mem pa = _; rw [hmem]; rfl)
  · refine (show _ = ((t.begin (storeAcc s f m)).core s.cur).acc by rw [State.done_core hbcur (hbctx.trans hctx)]; rfl).trans ?_
    rw [ha, if_neg fun h => absurd h.1 (by show ¬(1 = 2); decide), Core.cacheTok_acc, htme, hacc]
    rfl

end

/-! ### Atomics (R315) -/

/-- The words of R315, by the operation each performs. -/
theorem amo_words (f : AmoF) (s : State) : ∀ p ∈ [(Instr.amoAdd f, 0), (.amoAnd f, 1), (.amoOr f, 2), (.amoXor f, 3), (.amoMinS f, 4),
    (.amoMaxS f, 5), (.amoMinN f, 6), (.amoMaxN f, 7), (.amoSwap f, 8), (.amoCas f, 9), (.amoFmaxF32 f, 16), (.amoAmaxRr f, 17)],
    exec p.1 s = amoIssue p.1 p.2 f s ∧ (p.1.wf = true → f.d < 64) := by
  have hd : ∀ {i : Instr} {l : List (Bool × Reject)},
      i.check = firstFail ((isS f.d && isS f.a && isS f.c && isK f.k, .register) :: l) → i.wf = true → f.d < 64 := fun hi hw => by
    have h := hi.symm.trans (Instr.check_of_wf hw)
    rw [firstFail_cons] at h
    simp only [Bool.and_eq_true] at h
    obtain ⟨⟨⟨⟨h, -⟩, -⟩, -⟩, -⟩ := h
    exact ReadsBack.of_isS h
  simp only [List.forall_mem_cons]
  exact ⟨⟨rfl, hd rfl⟩, ⟨rfl, hd rfl⟩, ⟨rfl, hd rfl⟩, ⟨rfl, hd rfl⟩, ⟨rfl, hd rfl⟩, ⟨rfl, hd rfl⟩, ⟨rfl, hd rfl⟩, ⟨rfl, hd rfl⟩,
    ⟨rfl, hd rfl⟩, ⟨rfl, hd rfl⟩, ⟨rfl, hd rfl⟩, ⟨rfl, hd rfl⟩, nofun⟩

section
variable {s : State} {f : AmoF} {i : Instr} {op : Nat}

theorem amoIssue_ready (hm : MayIssue i (amoSrcs f) s) : amoIssue i op f s =
    if ((s.sc f.c).toInt + f.off.toInt) % ((if f.w64 then 8 else 4 : Nat) : Int) ≠ 0 then illegal i (s.read (amoSrcs f))
    else .next (((s.read (amoSrcs f)).begin (mkAcc (.amo op) f.d (if f.w64 then 8 else 4) (s.tk f.k)
      ((s.sc f.c).toInt + f.off.toInt) (s.sc f.a) (s.sc f.b) f.ord)).done 2) := by
  refine (issue_ready hm _).trans ?_
  dsimp only
  rw [State.tk_upd_touch, State.sc_upd_touch, State.sc_upd_touch, State.sc_upd_touch]

theorem amo_issues (he : exec i s = amoIssue i op f s) (hd : i.wf = true → f.d < 64)
    (h : ((s.sc f.c).toInt + f.off.toInt) % ((if f.w64 then 8 else 4 : Nat) : Int) = 0) :
    IssuesAccess i (amoSrcs f) 2 (some f.d) (rW ||| rA) (s.tk f.k) ((s.sc f.c).toInt + f.off.toInt) (if f.w64 then 8 else 4) s
      (fun a => a.op = .amo op ∧ a.d = f.d ∧ a.a = s.sc f.a ∧ a.b = s.sc f.b ∧ a.acq = f.ord.acq ∧ a.rel = f.ord.rel ∧
        a.scope = f.ord.scope) :=
  issuesAccess_of_begin (a := mkAcc (.amo op) f.d (if f.w64 then 8 else 4) (s.tk f.k) ((s.sc f.c).toInt + f.off.toInt) (s.sc f.a)
    (s.sc f.b) f.ord) (by decide) rfl (fun hw _ => hd hw) rfl (fun _ _ _ _ _ _ _ _ _ _ => ⟨rfl, rfl, rfl, rfl, rfl, rfl, rfl⟩)
    fun hm => (he.trans (amoIssue_ready hm)).trans (if_neg (not_not.2 h))

theorem amo_misaligned (he : exec i s = amoIssue i op f s)
    (h : ((s.sc f.c).toInt + f.off.toInt) % ((if f.w64 then 8 else 4 : Nat) : Int) ≠ 0) :
    TrapsBy i (amoSrcs f) s 1 (minOf i) s.me.q.pc :=
  trap_trapped fun hm => (he.trans (amoIssue_ready hm)).trans (if_pos h)

end

/-- Settles O19: the three kinds of access issue by one rule; a store of marked data and a misaligned atomic on their own. -/
theorem scalarAccessesIssue : Obligations.ScalarAccessesIssue := by
  intro s
  refine ⟨ld_issues s, fun _ => st_issues, fun _ _ _ _ => st_marked, fun f p hp => ?_⟩
  obtain ⟨he, hd⟩ := amo_words f s p hp
  exact ⟨amo_issues he hd, amo_misaligned he⟩

end Sys2Proof
end

section
set_option Elab.async false

/-! SUPPORT. The memory of the shared parts: what puts the memory in a state, and the operations on cores, flags, accesses, tokens
and engines, each keep its canonical form. O58. -/

namespace Sys2Proof.Machine

section
variable {s : State}

/-! ### The operations of `Laws/Memory.lean` that write memory -/

@[simp] theorem State.homeWrite_wf (bytes : List (Nat × Byte)) (bad : List (Nat × Nat)) (au : Author) (h : Memory.wf s.mem = true) :
    Memory.wf (s.homeWrite bytes bad au).mem = true := State.homeWrite_canonical bytes bad au h
@[simp] theorem State.pullLine_wf (ln : Nat) (h : Memory.wf s.mem = true) : Memory.wf (s.pullLine ln).mem = true :=
  State.pullLine_canonical ln h
@[simp] theorem State.pullFor_wf (pas : List Nat) (h : Memory.wf s.mem = true) : Memory.wf (s.pullFor pas).mem = true :=
  State.pullFor_canonical pas h
@[simp] theorem State.bypass_wf (c : Nat) (pas : List Nat) (h : Memory.wf s.mem = true) : Memory.wf (s.bypass c pas).mem = true :=
  State.bypass_canonical c pas h
@[simp] theorem State.writeBack_wf (c : Nat) (which : Nat → Bool) (h : Memory.wf s.mem = true) :
    Memory.wf (s.writeBack c which).mem = true := State.writeBack_canonical c which h
@[simp] theorem State.flush_wf (c : Nat) (h : Memory.wf s.mem = true) : Memory.wf (s.flush c).mem = true := State.flush_canonical c h
@[simp] theorem State.release_wf (c id ln scope : Nat) (deferred : Bool) (h : Memory.wf s.mem = true) :
    Memory.wf (s.release c id ln scope deferred).mem = true := State.release_canonical c id ln scope deferred h
@[simp] theorem State.releaseAt_wf (c n ln scope : Nat) (deferred : Bool) (h : Memory.wf s.mem = true) :
    Memory.wf (s.releaseAt c n ln scope deferred).mem = true := State.releaseAt_canonical c n ln scope deferred h
@[simp] theorem State.homeStore_wf (c id : Nat) (bytes : List (Nat × Byte)) (bad : List (Nat × Nat)) (au : Author)
    (h : Memory.wf s.mem = true) : Memory.wf (s.homeStore c id bytes bad au).mem = true := State.homeStore_canonical c id bytes bad au h
@[simp] theorem State.storeBytes_wf (c : Nat) (a : Acc) (bytes : List (Nat × Byte)) (bad : List (Nat × Nat))
    (h : Memory.wf s.mem = true) : Memory.wf (s.storeBytes c a bytes bad).mem = true := State.storeBytes_canonical c a bytes bad h
@[simp] theorem State.rmw_wf (c : Nat) (a : Acc) (h : Memory.wf s.mem = true) : Memory.wf (s.rmw c a).1.mem = true :=
  State.rmw_canonical c a h
@[simp] theorem State.loadBytes_wf (c : Nat) (a : Acc) (h : Memory.wf s.mem = true) : Memory.wf (s.loadBytes c a).mem = true :=
  State.loadBytes_canonical c a h
@[simp] theorem State.engWrite_wf (g : Agent) (kind : Nat) (last : Bool) (bytes : List (Nat × Byte)) (bad : List (Nat × Nat))
    (clr : List Byte) (h : Memory.wf s.mem = true) : Memory.wf (s.engWrite g kind last bytes bad clr).1.mem = true :=
  State.engWrite_canonical g kind last bytes bad clr h
@[simp] theorem State.engRelease_wf (g : Agent) (last : Option Nat) (h : Memory.wf s.mem = true) :
    Memory.wf (s.engRelease g last).mem = true := State.engRelease_canonical g last h

/-- Operations over a list keep the canonical form if each does. -/
theorem foldl_wf {α : Type} {f : State → α → State} {l : List α}
    (hf : ∀ t a, Memory.wf t.mem = true → Memory.wf (f t a).mem = true) (h : Memory.wf s.mem = true) :
    Memory.wf (l.foldl f s).mem = true := foldl_keeps (fun t : State => Memory.wf t.mem = true) f hf l s h

/-- Operations over a list leave memory alone if each does. -/
theorem foldl_mem {α : Type} {f : State → α → State} {l : List α} (hf : ∀ t a, (f t a).mem = t.mem) : (l.foldl f s).mem = s.mem :=
  foldl_same State.mem f hf l s

/-- A pair taken apart. -/
theorem fst_wf {α : Type} {p : State × α} {t : State} {a : α} (h : Memory.wf p.1.mem = true) (e : p = (t, a)) : Memory.wf t.mem = true := by
  subst e; exact h

/-- A search for bad data leaves memory alone. -/
theorem State.findAll_wf {t : State} {pas : List Nat} {o : Option (Nat × Nat)} (h : Memory.wf s.mem = true)
    (e : s.findAll pas = (t, o)) : Memory.wf t.mem = true :=
  canonical_of_mem h ((congrArg (fun p => p.1.mem) e).symm.trans (State.findAll_mem pas s))

theorem getD_wf {o : Option State} (h : Memory.wf s.mem = true) (ho : ∀ t, o = some t → Memory.wf t.mem = true) :
    Memory.wf (o.getD s).mem = true := by
  cases o with
  | none => exact h
  | some t => exact ho t rfl

/-! ### The ways a word ends -/

@[simp] theorem keeps_next : KeepsMemory (.next s) ↔ Memory.wf s.mem = true := ⟨fun h => h s rfl, fun h => keepsMemory_next h⟩
@[simp] theorem keeps_fault (f : Fault) : KeepsMemory (.fault f) ↔ True := iff_true_intro fun _ e => by cases e
@[simp] theorem keeps_refused (r : Refusal) : KeepsMemory (.refused r) ↔ True := iff_true_intro fun _ e => by cases e
@[simp] theorem keeps_stall : KeepsMemory (stall s) ↔ Memory.wf s.mem = true := keeps_next (s := { s with waited := true })
@[simp] theorem keeps_trap (cause data : Nat) : KeepsMemory (trap s cause data) ↔ Memory.wf s.mem = true :=
  keeps_next (s := s.upd (fun x => x.trapAt s.now s.ctx cause false data (x.q.pcOf 0)))
@[simp] theorem keeps_illegal (i : Instr) : KeepsMemory (illegal i s) ↔ Memory.wf s.mem = true := keeps_trap 1 (minOf i)
@[simp] theorem keeps_privTrap (data : Nat) : KeepsMemory (privTrap s data) ↔ Memory.wf s.mem = true := keeps_trap 10 data

@[simp] theorem keeps_ite {p : Prop} [Decidable p] {a b : Out} : KeepsMemory (if p then a else b) ↔ (p → KeepsMemory a) ∧ (¬p → KeepsMemory b) := by
  split <;> simp [*]
@[simp] theorem ite_mem {p : Prop} [Decidable p] {t u : State} : (if p then t else u).mem = if p then t.mem else u.mem := apply_ite State.mem p t u
@[simp] theorem ite_fst {α β : Type} {p : Prop} [Decidable p] {a b : α × β} : (if p then a else b).1 = if p then a.1 else b.1 :=
  apply_ite Prod.fst p a b
@[simp] theorem wf_ite {p : Prop} [Decidable p] {a b : Sparse Byte} :
    Memory.wf (if p then a else b) = true ↔ (p → Memory.wf a = true) ∧ (¬p → Memory.wf b = true) := by
  split <;> simp [*]

/-- A word keeps the canonical form if its effect does. -/
theorem issue_keeps {i : Instr} {l : List Src} {body : State → Out} (h : Memory.wf s.mem = true)
    (hb : ∀ t, Memory.wf t.mem = true → KeepsMemory (body t)) : KeepsMemory (issue i s l body) := issue_keepsMemory h hb

/-- A word that drains keeps the canonical form if what it ends with does. -/
theorem drainWord_keeps {i : Instr} {l : List Src} {k : HoldK} {ready : State → Nat → Bool} {fin : State → Out}
    (h : Memory.wf s.mem = true) (hf : ∀ t, Memory.wf t.mem = true → KeepsMemory (fin t)) :
    KeepsMemory (drainWord i s l k ready fin) := drainWord_keepsMemory h hf

end

/-! ### Memory -/

@[simp] theorem State.leaveMsg_mem (s : State) (pas : List Nat) (au : Author) : (s.leaveMsg pas au).mem = s.mem := rfl

@[simp] theorem State.upToNow_mem (s : State) (c ctx : Nat) : (s.upToNow c ctx).mem = s.mem := rfl

@[simp] theorem State.saw_mem (s : State) (agent : Nat) (pas : List Nat) (at' : Option Nat) : (s.saw agent pas at').mem = s.mem := rfl

@[simp] theorem State.observe_mem (s : State) (c ctx eng n : Nat) : (s.observe c ctx eng n).mem = s.mem := rfl

@[simp] theorem State.leaveAt_mem (s : State) (key c ctx id : Nat) : (s.leaveAt key c ctx id).mem = s.mem := rfl

@[simp] theorem State.takeAt_mem (s : State) (key c ctx scope : Nat) : (s.takeAt key c ctx scope).mem = s.mem := by
  simp [State.takeAt]

@[simp] theorem State.takePushed_mem (s : State) (q c ctx : Nat) : (s.takePushed q c ctx).mem = s.mem := by
  simp [State.takePushed]

/-! ### Operands -/

@[simp] theorem State.sourceContained_keeps {s : State} (i : Instr) (gs : List Nat) (hm : Memory.wf s.mem = true) :
    KeepsMemory (s.sourceContained i gs) := by
  simp +contextual [State.sourceContained, hm]

@[simp] theorem State.codeContained_keeps {s : State} (n : Nat) (hm : Memory.wf s.mem = true) :
    KeepsMemory (s.codeContained n) := by
  simp +contextual [State.codeContained, hm]

/-! ### Flags -/

@[simp] theorem State.csrWrite_mem (s : State) (n : Nat) (v : Word) : (s.csrWrite n v).mem = s.mem := by
  unfold State.csrWrite
  dsimp only
  repeat' (refine (apply_ite State.mem _ _ _).trans (ite_eq_iff'.2 ⟨fun _ => rfl, fun _ => ?_⟩))
  rfl

/-! ### Control -/

@[simp] theorem execLim_keeps {s : State} (d : Nat) (v : Word) (hm : Memory.wf s.mem = true) :
    KeepsMemory (execLim d v s) := by
  simp +contextual [execLim, hm, issue_keeps]

@[simp] theorem State.sampled_mem (s : State) (k : Cond) : (s.sampled k).mem = s.mem := by
  unfold State.sampled; split <;> rfl

@[simp] theorem execCset_keeps {s : State} (d : Nat) (f : CmpF) (hm : Memory.wf s.mem = true) :
    KeepsMemory (execCset d f s) := by
  simp +contextual [execCset, hm, issue_keeps]

@[simp] theorem transfer_keeps {s : State} (target : Int) (extra : Core → Core) (hm : Memory.wf s.mem = true) :
    KeepsMemory (transfer s target extra) := by
  simp +contextual [transfer, hm]

@[simp] theorem execBr_keeps {s : State} (f : CmpF) (disp : BitVec 39) (hm : Memory.wf s.mem = true) :
    KeepsMemory (execBr f disp s) := by
  simp +contextual [execBr, hm, issue_keeps]

@[simp] theorem execJmp_keeps {s : State} (disp : BitVec 37) (hm : Memory.wf s.mem = true) :
    KeepsMemory (execJmp disp s) := by
  simp +contextual [execJmp, hm, issue_keeps]

@[simp] theorem execCall_keeps {s : State} (disp : BitVec 37) (hm : Memory.wf s.mem = true) :
    KeepsMemory (execCall disp s) := by
  simp +contextual [execCall, hm, issue_keeps]

@[simp] theorem execRet_keeps {s : State} (a : Nat) (fea : Bool) (hm : Memory.wf s.mem = true) :
    KeepsMemory (execRet a fea s) := by
  simp +contextual [execRet, hm, issue_keeps]

@[simp] theorem execBrx_keeps {s : State} (a : Nat) (fea : Bool) (imm : BitVec 37) (hm : Memory.wf s.mem = true) :
    KeepsMemory (execBrx a fea imm s) := by
  simp +contextual [execBrx, hm, issue_keeps]

@[simp] theorem execLoop_keeps {s : State} (f : LoopF) (hm : Memory.wf s.mem = true) :
    KeepsMemory (execLoop f s) := by
  simp +contextual [execLoop, hm, issue_keeps]

@[simp] theorem execLbrk_keeps {s : State} (lvl : Nat) (hm : Memory.wf s.mem = true) :
    KeepsMemory (execLbrk lvl s) := by
  simp +contextual [execLbrk, hm, issue_keeps]

@[simp] theorem execPset_keeps {s : State} (d a : Nat) (fea : Bool) (wc add : Nat) (hm : Memory.wf s.mem = true) :
    KeepsMemory (execPset d a fea wc add s) := by
  simp +contextual [execPset, hm, issue_keeps]

@[simp] theorem execShape_keeps {s : State} (rows : Nat) (hm : Memory.wf s.mem = true) :
    KeepsMemory (execShape rows s) := by
  simp +contextual [execShape, hm, issue_keeps]

/-! ### Access -/

@[simp] theorem State.checkAcc_mem (s : State) (c : Nat) (a : Acc) : (s.checkAcc c a).1.mem = s.mem := by
  unfold State.checkAcc; split <;> rfl

@[simp] theorem State.begin_mem (s : State) (a : Acc) : (s.begin a).mem = s.mem := by
  simp [State.begin]

@[simp] theorem State.keepUnits_mem (s : State) (c : Nat) (a : Acc) : (s.keepUnits c a).mem = s.mem := by
  unfold State.keepUnits
  split
  · exact foldl_mem fun t p => by simp
  · simp

/-! ### Token -/

@[simp] theorem State.holdBit_mem (s : State) (e c : Nat) : (s.holdBit e c).mem = s.mem := by
  simp [State.holdBit]

/-- A translation's answer leaves the memory of `s` alone. -/
def Got.Keeps (s : State) : Got → Prop
  | .ok t _ | .event t _ => t.mem = s.mem
  | _ => True

@[simp] theorem Got.keeps_ok (s t : State) (u : Token) : (Got.ok t u).Keeps s ↔ t.mem = s.mem := Iff.rfl
@[simp] theorem Got.keeps_event (s t : State) (e : Nat × Nat) : (Got.event t e).Keeps s ↔ t.mem = s.mem := Iff.rfl

theorem State.choose_keeps (s : State) (who : Option Nat) (asid va len : Nat) (rights : BitVec 4) (kind : Nat) (ranges : List (Nat × Nat)) :
    (s.choose who asid va len rights kind ranges).Keeps s := by
  unfold State.choose
  dsimp only
  repeat' split
  all_goals trivial

theorem State.grant_keeps (s : State) (who : Option Nat) (asid va len : Nat) (rights : BitVec 4) :
    (s.grant who asid va len rights).Keeps s := by
  unfold State.grant
  dsimp only
  split
  · trivial
  · rename_i pas _
    have hf := State.findAll_mem pas s
    split <;> rename_i hp <;> rw [hp] at hf
    · exact hf
    · trivial
  · have hc := s.choose_keeps who asid va len rights ‹Nat› ‹List (Nat × Nat)›
    split
    · rename_i h
      rw [h] at hc
      split <;> exact hc
    · exact hc

theorem State.grant_ok_wf {s t : State} {who : Option Nat} {asid va len : Nat} {rights : BitVec 4} {tok : Token} (h : Memory.wf s.mem = true)
    (e : s.grant who asid va len rights = .ok t tok) : Memory.wf t.mem = true :=
  canonical_of_mem h (Got.keeps_ok s t tok |>.1 (e ▸ s.grant_keeps who asid va len rights))

theorem State.grant_event_wf {s t : State} {who : Option Nat} {asid va len : Nat} {rights : BitVec 4} {b : Nat × Nat}
    (h : Memory.wf s.mem = true) (e : s.grant who asid va len rights = .event t b) : Memory.wf t.mem = true :=
  canonical_of_mem h (Got.keeps_event s t b |>.1 (e ▸ s.grant_keeps who asid va len rights))

@[simp] theorem execXlat_keeps {s : State} (rights : BitVec 4) (o : AluR) (hm : Memory.wf s.mem = true) :
    KeepsMemory (execXlat rights o s) := by
  simp +contextual [execXlat, hm, issue_keeps]

@[simp] theorem execXlatTry_keeps {s : State} (rights : BitVec 4) (o : AluR) (hm : Memory.wf s.mem = true) :
    KeepsMemory (execXlatTry rights o s) := by
  simp +contextual [execXlatTry, hm, issue_keeps]

@[simp] theorem xlatEnd_keeps {s : State} (rights : BitVec 4) (o : AluR) (st : Option Nat) (h : Memory.wf s.mem = true) :
    KeepsMemory (xlatEnd rights o st s) := by
  unfold xlatEnd
  dsimp only
  split
  · simp [h]
  · rename_i e
    simp [State.grant_event_wf h e]
  · rename_i e
    simp [State.grant_ok_wf h e]
  · split
    · simp [h]
    · repeat' split
      all_goals simp [h]

@[simp] theorem execXlatComplete_keeps {s : State} (c x : Nat) (hm : Memory.wf s.mem = true) :
    KeepsMemory (execXlatComplete c x s) := by
  unfold execXlatComplete
  dsimp only
  repeat' split
  all_goals simp [hm]

@[simp] theorem execTkchk_keeps {s : State} (o : AluR) (hm : Memory.wf s.mem = true) :
    KeepsMemory (execTkchk o s) := by
  simp +contextual [execTkchk, hm, issue_keeps]

@[simp] theorem execTkdrop_keeps {s : State} (o : AluR) (hm : Memory.wf s.mem = true) :
    KeepsMemory (execTkdrop o s) := by
  simp +contextual [execTkdrop, hm, issue_keeps]

@[simp] theorem execTkmov_keeps {s : State} (o : AluR) (hm : Memory.wf s.mem = true) :
    KeepsMemory (execTkmov o s) := by
  simp +contextual [execTkmov, hm, issue_keeps]

@[simp] theorem execTksub_keeps {s : State} (o : AluR) (hm : Memory.wf s.mem = true) :
    KeepsMemory (execTksub o s) := by
  simp +contextual [execTksub, hm, issue_keeps]

@[simp] theorem execTkinfo_keeps {s : State} (o : AluR) (hm : Memory.wf s.mem = true) :
    KeepsMemory (execTkinfo o s) := by
  simp +contextual [execTkinfo, hm, issue_keeps]

@[simp] theorem State.purge_mem (s : State) (asid va len : Nat) : (s.purge asid va len).mem = s.mem := by
  simp [State.purge]

@[simp] theorem revWord_keeps {s : State} (i : Instr) (n : Nat) (fwd : Option Token) (hm : Memory.wf s.mem = true) :
    KeepsMemory (revWord i s n fwd) := by
  unfold revWord
  dsimp only
  repeat' split
  all_goals simp [hm]

@[simp] theorem revWait_keeps {s : State} (n : Nat) (hm : Memory.wf s.mem = true) :
    KeepsMemory (revWait s n) := by
  simp [revWait, hm]

@[simp] theorem execTkrevKill_keeps {s : State} (o : AluR) (hm : Memory.wf s.mem = true) :
    KeepsMemory (execTkrevKill o s) := by
  unfold execTkrevKill
  repeat' split
  all_goals simp +contextual [hm, issue_keeps]

@[simp] theorem execTkrevMove_keeps {s : State} (o : AluR) (hm : Memory.wf s.mem = true) :
    KeepsMemory (execTkrevMove o s) := by
  unfold execTkrevMove
  repeat' split
  all_goals simp +contextual [hm, issue_keeps]

/-! ### Record -/

@[simp] theorem State.restore_mem (s : State) (c : Nat) (t : Token) : (s.restore c t).1.mem = s.mem := by
  unfold State.restore
  split
  · rfl
  · split <;> rfl

@[simp] theorem State.arrives_mem (s : State) (c : Nat) (t : Token) : (s.arrives c t).1.mem = s.mem := by
  simp [State.arrives]

@[simp] theorem State.requestFrom_mem (s : State) (pane q : Nat) (r : QReq) : (s.requestFrom pane q r).mem = s.mem := rfl

@[simp] theorem State.fail_mem (s : State) (n result : Nat) : (s.fail n result).mem = s.mem := by
  simp [State.fail]

@[simp] theorem State.journal_mem (s : State) (source index pstat result linst type detail : Nat) (packet : Bool) :
    (s.journal source index pstat result linst type detail packet).mem = s.mem := rfl

/-! ### Engine -/

@[simp] theorem State.failedBlock_mem (s : State) (c : Nat) (t : Token) (b : KBit) (e : Nat) : (s.failedBlock c t b e).mem = s.mem := rfl

/-- What writing a block gives keeps the canonical form. -/
def BlockOut.Keeps : BlockOut → Prop
  | .wait => True
  | .unreach t | .done t _ _ => Memory.wf t.mem = true

/-- The release that comes before a command's last write, if any, keeps the canonical form. -/
theorem State.engRel_wf {s t : State} {g : Agent} {last : Bool} {at' : Option Nat} (h : Memory.wf s.mem = true)
    (e : (if !last then some s else if s.engRelReady g at' then some (s.engRelease g at') else none) = some t) : Memory.wf t.mem = true := by
  split at e
  · cases e; exact h
  · split at e <;> cases e
    exact State.engRelease_wf g at' h

theorem State.blockOut_keeps {s : State} (g : Agent) (t : Token) (c : Chk) (data : List (Option Byte)) (bad : List (Nat × Nat)) (last : Bool)
    (h : Memory.wf s.mem = true) : (s.blockOut g t c data bad last).Keeps := by
  unfold State.blockOut
  dsimp only
  split
  · trivial
  · split
    · trivial
    · rename_i e
      simpa [BlockOut.Keeps] using State.engRel_wf h e
  · split
    · split
      · trivial
      · rename_i e
        exact State.engRel_wf h e
    · split
      · trivial
      · split
        · trivial
        · rename_i e
          exact State.engWrite_wf _ _ _ _ _ _ (by simpa using State.engRel_wf h e)

/-! ### MxCore -/

@[simp] theorem State.accFound_mem (s : State) (lo n : Nat) : (s.accFound lo n).mem = s.mem := by
  simp [State.accFound]

@[simp] theorem State.operandsFound_mem (s : State) (mv c : Nat) (e : Option (Nat × Nat)) : (s.operandsFound mv c e).mem = s.mem := by
  unfold State.operandsFound
  split
  · simp
  · rfl

@[simp] theorem State.setAcc_mem (s : State) (mv z row col v : Nat) : (s.setAcc mv z row col v).mem = s.mem := rfl

@[simp] theorem State.swap_mem (s : State) (mv slot : Nat) : (s.swap mv slot).mem = s.mem := by
  unfold State.swap
  exact foldl_mem fun t x => by simp

end Sys2Proof.Machine

end

section
set_option Elab.async false

/-! SUPPORT. The vector unit, the engines, handles, copies, the stash and the unmasking engine keep the memory in its canonical form. O58. -/

namespace Sys2Proof.Machine

/-! ### Vec -/

@[simp] theorem State.withholds_mem (s : State) (x : Core) : (s.withholds x).mem = s.mem := rfl

@[simp] theorem mcallStep_keeps {s : State} (w : VFields) (hm : Memory.wf s.mem = true) :
    KeepsMemory (mcallStep w s) := by
  unfold mcallStep
  dsimp only
  repeat' split
  all_goals simp [hm]

@[simp] theorem issueStep_keeps {s : State} (hm : Memory.wf s.mem = true) :
    KeepsMemory (issueStep s) := by
  unfold issueStep
  dsimp only
  repeat' split
  all_goals simp [hm]

@[simp] theorem execViss_keeps {s : State} (start count : Nat) (hm : Memory.wf s.mem = true) : KeepsMemory (execViss start count s) := by
  unfold execViss
  dsimp only
  split
  · simp [hm]
  · exact issue_keeps hm fun t ht => by simp [ht]

@[simp] theorem execSwpl_keeps {s : State} (f : SwplF) (hm : Memory.wf s.mem = true) : KeepsMemory (execSwpl f s) := by
  unfold execSwpl
  dsimp only
  split
  · simp [hm]
  · exact issue_keeps hm fun t ht => by simp [ht]

@[simp] theorem execVsync_keeps {s : State} (l a q : Bool) (hm : Memory.wf s.mem = true) :
    KeepsMemory (execVsync l a q s) := by
  simp +contextual [execVsync, hm, drainWord_keeps]

@[simp] theorem vSourceContained_keeps {s : State} (q m : Nat) (cap : VCap) (hm : Memory.wf s.mem = true) :
    KeepsMemory (vSourceContained q m cap s) := by
  simp +contextual [vSourceContained, hm]

/-- What a V-word does keeps the canonical form. -/
def VRes.Keeps : VRes → Prop
  | .wait | .trap _ => True
  | .done t _ _ | .next t => Memory.wf t.mem = true

@[simp] theorem VRes.keeps_wait : VRes.wait.Keeps ↔ True := Iff.rfl
@[simp] theorem VRes.keeps_trap (c : Nat) : (VRes.trap c).Keeps ↔ True := Iff.rfl
@[simp] theorem VRes.keeps_done (t : State) (wr : List (Nat × VReg × VReg)) (fl : BitVec 6) :
    (VRes.done t wr fl).Keeps ↔ Memory.wf t.mem = true := Iff.rfl
@[simp] theorem VRes.keeps_next (t : State) : (VRes.next t).Keeps ↔ Memory.wf t.mem = true := Iff.rfl
@[simp] theorem VRes.keeps_ite {p : Prop} [Decidable p] {a b : VRes} : (if p then a else b).Keeps ↔ (p → a.Keeps) ∧ (¬p → b.Keeps) := by
  split <;> simp [*]

theorem vHead_keeps {s : State} (op q : Nat) (w : VFields) (cap : VCap) (body : State → VRes) (hm : Memory.wf s.mem = true)
    (hb : (body s).Keeps) : KeepsMemory (vHead op q w cap s body) := by
  unfold vHead
  dsimp only
  refine keeps_ite.2 ⟨fun _ => by simp [hm], fun _ => keeps_ite.2 ⟨fun _ => by simp [hm], fun _ => keeps_ite.2 ⟨fun _ => by simp [hm], fun _ => ?_⟩⟩⟩
  split
  · simp [hm]
  · simp [hm]
  · refine keeps_ite.2 ⟨fun _ => by simp [hm], fun _ => keeps_ite.2 ⟨fun _ => by simp [hm], fun _ => ?_⟩⟩
    split <;> rename_i e <;> rw [e] at hb <;> simp_all

/-- A V-word keeps the canonical form if what it does at its queue's head does. -/
theorem vword_keeps {s : State} {i : Instr} {w : VFields} {body : VFields → VCap → State → VRes} (hm : Memory.wf s.mem = true)
    (hb : ∀ u cap t, Memory.wf t.mem = true → (body u cap t).Keeps) : KeepsMemory (vword i w s body) := by
  unfold vword
  split
  · simp [hm]
  · dsimp only
    split
    · exact keeps_ite.2 ⟨fun _ => vHead_keeps _ _ _ _ _ hm (hb _ _ _ hm), fun _ => by simp [hm]⟩
    · split
      · simp [hm]
      · simp [hm]
      · split
        · simp [hm]
        · have ht : ∀ f, Memory.wf (s.upd f).mem = true := fun f => by simp [hm]
          exact vHead_keeps _ _ _ _ _ (ht _) (hb _ _ _ (ht _))

@[simp] theorem execMcall_keeps {s : State} (w : VFields) (hm : Memory.wf s.mem = true) :
    KeepsMemory (execMcall w s) := by
  simp +contextual [execMcall, hm]

@[simp] theorem execVwordFill_keeps {s : State} (c q : Nat) (hm : Memory.wf s.mem = true) :
    KeepsMemory (execVwordFill c q s) := by
  unfold execVwordFill
  repeat' split
  all_goals simp [hm]

@[simp] theorem execVwordIllegalTrap_keeps {s : State} (c : Nat) (hm : Memory.wf s.mem = true) :
    KeepsMemory (execVwordIllegalTrap c s) := by
  unfold execVwordIllegalTrap
  dsimp only
  repeat' split
  all_goals simp [hm]

/-! ### Marver -/

@[simp] theorem mxIssue_keeps {s : State} (i : Instr) (l : List Src) (leased : Bool) (zs held : List Nat) (ok : State → Bool)
    (cap : State → MxCmd) (d : Nat) (vs : List Nat) (mem : Bool) (n : Nat) (hm : Memory.wf s.mem = true) :
    KeepsMemory (mxIssue i s l leased zs held ok cap d vs mem n) := by
  simp +contextual [mxIssue, hm, issue_keeps]

@[simp] theorem execMxLease_keeps {s : State} (hm : Memory.wf s.mem = true) : KeepsMemory (execMxLease s) := by
  unfold execMxLease
  dsimp only
  split
  · simp [hm]
  · exact issue_keeps hm fun t ht => by simp [ht]

@[simp] theorem execMxFree_keeps {s : State} (hm : Memory.wf s.mem = true) :
    KeepsMemory (execMxFree s) := by
  simp +contextual [execMxFree, hm, issue_keeps]

@[simp] theorem execMxCbtab_keeps {s : State} (f : MxMemF) (hm : Memory.wf s.mem = true) :
    KeepsMemory (execMxCbtab f s) := by
  simp [execMxCbtab, hm]

@[simp] theorem execMxBld_keeps {s : State} (f : MxMemF) (hm : Memory.wf s.mem = true) :
    KeepsMemory (execMxBld f s) := by
  simp [execMxBld, hm]

@[simp] theorem execMxBldMirror_keeps {s : State} (f : MxMemF) (hm : Memory.wf s.mem = true) :
    KeepsMemory (execMxBldMirror f s) := by
  simp [execMxBldMirror, hm]

@[simp] theorem execMxTld_keeps {s : State} (f : MxMemF) (hm : Memory.wf s.mem = true) :
    KeepsMemory (execMxTld f s) := by
  simp [execMxTld, hm]

@[simp] theorem execMxMm_keeps {s : State} (f : MmF) (hm : Memory.wf s.mem = true) :
    KeepsMemory (execMxMm f s) := by
  simp [execMxMm, hm]

@[simp] theorem execMxKat_keeps {s : State} (d n g : Nat) (sum : Word) (hm : Memory.wf s.mem = true) :
    KeepsMemory (execMxKat d n g sum s) := by
  simp [execMxKat, hm]

@[simp] theorem execMxZalloc_keeps {s : State} (d z : Nat) (hm : Memory.wf s.mem = true) :
    KeepsMemory (execMxZalloc d z s) := by
  simp [execMxZalloc, hm]

@[simp] theorem execMxZfree_keeps {s : State} (z : Nat) (hm : Memory.wf s.mem = true) :
    KeepsMemory (execMxZfree z s) := by
  simp +contextual [execMxZfree, hm, issue_keeps]

@[simp] theorem execMxZld_keeps {s : State} (f : MxMemF) (hm : Memory.wf s.mem = true) :
    KeepsMemory (execMxZld f s) := by
  simp [execMxZld, hm]

@[simp] theorem execMxZst_keeps {s : State} (f : MxMemF) (hm : Memory.wf s.mem = true) :
    KeepsMemory (execMxZst f s) := by
  simp [execMxZst, hm]

@[simp] theorem execMxZcpy_keeps {s : State} (d za zb : Nat) (hm : Memory.wf s.mem = true) :
    KeepsMemory (execMxZcpy d za zb s) := by
  simp [execMxZcpy, hm]

@[simp] theorem execMxOut_keeps {s : State} (f : OutF) (hm : Memory.wf s.mem = true) :
    KeepsMemory (execMxOut f s) := by
  simp [execMxOut, hm]

@[simp] theorem execLeaseGrant_keeps {s : State} (m : Nat) (hm : Memory.wf s.mem = true) :
    KeepsMemory (execLeaseGrant m s) := by
  unfold execLeaseGrant
  dsimp only
  repeat' split
  all_goals simp [hm]

@[simp] theorem execMxAccept_keeps {s : State} (c : Nat) (hm : Memory.wf s.mem = true) :
    KeepsMemory (execMxAccept c s) := by
  unfold execMxAccept
  dsimp only
  repeat' split
  all_goals simp [hm]

@[simp] theorem State.putMx_mem (s : State) (mv : Nat) (k : MxCmd) : (s.putMx mv k).mem = s.mem := rfl

@[simp] theorem State.mxEvent_mem (s : State) (k : MxCmd) (e : Option (Nat × Nat)) : (s.mxEvent k e).1.mem = s.mem := by
  unfold State.mxEvent
  split
  · rfl
  · split <;> simp

@[simp] theorem State.mxBegin_mem (s : State) (mv : Nat) (k : MxCmd) : (s.mxBegin mv k).mem = s.mem := by
  unfold State.mxBegin
  dsimp only
  repeat' split
  all_goals simp

@[simp] theorem State.putBand_mem (s : State) (mv z step : Nat) (vals : List (Option Nat)) (bad : List (Nat × Nat)) :
    (s.putBand mv z step vals bad).mem = s.mem := rfl

/-- A step's outcome keeps the canonical form. -/
def StepKeeps (m : MxStep) : Prop := ∀ t k, m = some (t, k) → Memory.wf t.mem = true

@[simp] theorem stepKeeps_none : StepKeeps none := fun _ _ e => by cases e
@[simp] theorem stepKeeps_some {t : State} {k : MxCmd} : StepKeeps (some (t, k)) ↔ Memory.wf t.mem = true :=
  ⟨fun h => h t k rfl, fun h _ _ e => by cases e; exact h⟩
@[simp] theorem stepKeeps_ite {p : Prop} [Decidable p] {a b : MxStep} : StepKeeps (if p then a else b) ↔ (p → StepKeeps a) ∧ (¬p → StepKeeps b) := by
  split <;> simp [*]

theorem mxBlock_keeps {n : Nat} {t : State} {k : MxCmd} {fin : State → MxCmd → State × MxCmd} (h : Memory.wf t.mem = true)
    (hf : ∀ k, Memory.wf (fin t k).1.mem = true) : StepKeeps (mxBlock n t k fin) := by
  exact stepKeeps_ite.2 ⟨fun _ => stepKeeps_some.2 h, fun _ => stepKeeps_some.2 (hf _)⟩

theorem mxRead_keeps {s : State} {l : List (Int × Nat)} {k : MxCmd} {fin : State → MxCmd → State × MxCmd} (h : Memory.wf s.mem = true)
    (hf : ∀ t k, Memory.wf t.mem = true → Memory.wf (fin t k).1.mem = true) : StepKeeps (mxRead l k s fin) := by
  unfold mxRead
  split
  · simp
  · split
    · simp
    · exact mxBlock_keeps (by simp [h]) fun k => hf _ k (by simp [h])
    · rename_i e
      have ht := State.blockIn_canonical h e
      exact mxBlock_keeps ht fun k => hf _ k ht

theorem mxWrite_keeps {s : State} {l : List (Int × Nat)} {data : Nat → Option Byte} {mark : Nat → Nat} {k : MxCmd}
    {fin : State → MxCmd → State × MxCmd} (h : Memory.wf s.mem = true)
    (hf : ∀ t k, Memory.wf t.mem = true → Memory.wf (fin t k).1.mem = true) : StepKeeps (mxWrite l data mark k s fin) := by
  unfold mxWrite
  split
  · simp
  · rename_i off n _
    dsimp only
    have hb : ∀ d b l, (s.blockOut k.agent k.tok (s.check k.tok off n rW) d b l).Keeps := fun d b l => State.blockOut_keeps _ _ _ d b l h
    split <;> rename_i e
    · simp
    · rename_i t
      have ht : Memory.wf t.mem = true := (e ▸ hb _ _ _ : (BlockOut.unreach t).Keeps)
      exact mxBlock_keeps (by simpa using ht) fun k => hf _ k (by simpa using ht)
    · rename_i t v f
      have ht : Memory.wf t.mem = true := (e ▸ hb _ _ _ : (BlockOut.done t v f).Keeps)
      exact mxBlock_keeps ht fun k => hf _ k ht

theorem stepCbtab_keeps {s : State} (mv slot : Nat) (start : Int) (k : MxCmd) (h : Memory.wf s.mem = true) :
    StepKeeps (stepCbtab mv slot start k s) := by
  unfold stepCbtab
  dsimp only
  split
  · simp
  · simp [h]
  · refine stepKeeps_ite.2 ⟨fun _ => by simp [h], fun _ => stepKeeps_ite.2 ⟨fun _ => by simp, fun _ => ?_⟩⟩
    rename_i t pas _ _ _
    have hw : Memory.wf (((s.mod k.core (fun x => x.cacheTok t.entry)).bypass k.core pas).engTakes k.agent pas).mem = true := by simp [h]
    split <;> rename_i e <;> have hu := State.findAll_wf hw e
    · simp [hu]
    · split <;> simp [hu]

theorem stepBld_keeps {s : State} (mv : Nat) (mirror : Bool) (start : Int) (k : MxCmd) (h : Memory.wf s.mem = true) :
    StepKeeps (stepBld mv mirror start k s) := by
  unfold stepBld
  dsimp only
  refine stepKeeps_ite.2 ⟨fun _ => by simp, fun _ => mxRead_keeps h fun t k ht => ?_⟩
  have hf : ∀ (f : State → Nat → State) (l : List Nat) (p : Prop) [Decidable p] (u : State), Memory.wf u.mem = true →
      (∀ t c, Memory.wf t.mem = true → Memory.wf (f t c).mem = true) → Memory.wf (l.foldl f (if p then u else t)).mem = true :=
    fun f l p _ u hu hf => foldl_wf hf (by simp [ht, hu])
  split <;> exact hf _ _ _ _ (by simp [ht]) fun t c ht => by simp [ht]

theorem stepTld_keeps {s : State} (tile : Nat) (start : Int) (k : MxCmd) (h : Memory.wf s.mem = true) :
    StepKeeps (stepTld tile start k s) := mxRead_keeps h fun t k ht => by simp [ht]

theorem stepMm_keeps {s : State} (mv : Nat) (f : MmF) (k : MxCmd) (h : Memory.wf s.mem = true) : StepKeeps (stepMm mv f k s) := by
  unfold stepMm
  dsimp only
  split
  · simp [h]
  · rw [stepKeeps_some, State.mxEvent_mem, State.operandsFound_mem, foldl_mem (s := s)]
    · exact h
    · intro t p
      split <;> rfl

theorem stepKat_keeps {s : State} (mv n g : Nat) (sum : Word) (k : MxCmd) (h : Memory.wf s.mem = true) : StepKeeps (stepKat mv n g sum k s) := by
  simp [stepKat, h]

theorem stepZalloc_keeps {s : State} (mv z : Nat) (k : MxCmd) (h : Memory.wf s.mem = true) : StepKeeps (stepZalloc mv z k s) := by
  simp [stepZalloc, h]

theorem stepZld_keeps {s : State} (mv z : Nat) (start : Int) (k : MxCmd) (h : Memory.wf s.mem = true) : StepKeeps (stepZld mv z start k s) :=
  mxRead_keeps h fun t k ht => by simp [ht]

theorem stepZst_keeps {s : State} (mv z : Nat) (start : Int) (k : MxCmd) (h : Memory.wf s.mem = true) : StepKeeps (stepZst mv z start k s) := by
  unfold stepZst
  exact mxWrite_keeps h fun t k ht => by simp [ht]

theorem stepZcpy_keeps {s : State} (mv za zb : Nat) (k : MxCmd) (h : Memory.wf s.mem = true) : StepKeeps (stepZcpy mv za zb k s) := by
  simp [stepZcpy, h]

theorem stepOut_keeps {s : State} (mv : Nat) (f : OutF) (k : MxCmd) (h : Memory.wf s.mem = true) : StepKeeps (stepOut mv f k s) := by
  have hc : ∀ (els : List (Nat × List (Nat × Option Nat))) (t : State), (if f.clr then
      els.foldl (fun (t : State) r => r.2.foldl (fun (t : State) p =>
        if p.2.isSome then t.setAcc mv f.z (f.r0 + r.1) (f.c0 + p.1) 0 else t) t) t else t).mem = t.mem := by
    intro els t
    split
    · exact foldl_mem fun t r => foldl_mem fun t p => by simp
    · rfl
  unfold stepOut
  dsimp only
  refine stepKeeps_ite.2 ⟨fun _ => mxWrite_keeps h fun t k ht => ?_, fun _ => ?_⟩
  · rw [State.mxEvent_mem, State.operandsFound_mem, hc]
    exact ht
  · rw [stepKeeps_some, State.mxEvent_mem, State.operandsFound_mem, hc]
    simpa using h

theorem mxStepOf_keeps {s : State} (mv : Nat) (k : MxCmd) (h : Memory.wf s.mem = true) : StepKeeps (mxStepOf mv k s) := by
  unfold mxStepOf
  split
  · exact stepCbtab_keeps _ _ _ _ h
  · exact stepBld_keeps _ _ _ _ h
  · exact stepBld_keeps _ _ _ _ h
  · exact stepTld_keeps _ _ _ h
  · exact stepMm_keeps _ _ _ h
  · exact stepKat_keeps _ _ _ _ _ h
  · exact stepZalloc_keeps _ _ _ h
  · exact stepZld_keeps _ _ _ _ h
  · exact stepZst_keeps _ _ _ _ h
  · exact stepZcpy_keeps _ _ _ _ h
  · exact stepOut_keeps _ _ _ h
  · simp [h]

@[simp] theorem State.mxReturn_mem (s : State) (c : Nat) : (s.mxReturn c).mem = s.mem := by
  simp [State.mxReturn]

@[simp] theorem execMxStep_keeps {s : State} (m : Nat) (h : Memory.wf s.mem = true) : KeepsMemory (execMxStep m s) := by
  unfold execMxStep
  split
  · simp [h]
  · rename_i k _ _
    refine keeps_ite.2 ⟨fun _ => by simp [h], fun _ => keeps_ite.2 ⟨fun _ => by simp [h], fun _ => keeps_ite.2 ⟨fun _ => by simp [h], fun _ => ?_⟩⟩⟩
    split
    · simp [h]
    · rename_i e
      simp [mxStepOf_keeps m k h _ _ e]

@[simp] theorem State.applyZfree_mem (s : State) (c : Nat) : (s.applyZfree c).mem = s.mem := rfl

@[simp] theorem State.dropCancelled_mem (s : State) (c : Nat) : (s.dropCancelled c).mem = s.mem := by
  unfold State.dropCancelled
  exact foldl_mem fun t x => rfl

@[simp] theorem execMxStatusFill_keeps {s : State} (m : Nat) (hm : Memory.wf s.mem = true) :
    KeepsMemory (execMxStatusFill m s) := by
  unfold execMxStatusFill
  dsimp only
  repeat' split
  all_goals simp [hm]

/-! ### Handle -/

@[simp] theorem State.hset_mem (s : State) (h : Nat) (v : Handle) : (s.hset h v).mem = s.mem := rfl

@[simp] theorem execHset_keeps {s : State} (h a : Nat) (fea : Bool) (hm : Memory.wf s.mem = true) :
    KeepsMemory (execHset h a fea s) := by
  simp +contextual [execHset, hm, issue_keeps]

@[simp] theorem execHarr_keeps {s : State} (h a : Nat) (fea : Bool) (hm : Memory.wf s.mem = true) :
    KeepsMemory (execHarr h a fea s) := by
  simp +contextual [execHarr, hm, issue_keeps]

@[simp] theorem execHwait_keeps {s : State} (h : Nat) (hm : Memory.wf s.mem = true) :
    KeepsMemory (execHwait h s) := by
  unfold execHwait
  dsimp only
  repeat' split
  all_goals simp +contextual [hm, issue_keeps]

@[simp] theorem execHdrain_keeps {s : State} (h : Nat) (hm : Memory.wf s.mem = true) :
    KeepsMemory (execHdrain h s) := by
  simp +contextual [execHdrain, hm, issue_keeps]

@[simp] theorem execHfree_keeps {s : State} (h : Nat) (hm : Memory.wf s.mem = true) :
    KeepsMemory (execHfree h s) := by
  simp +contextual [execHfree, hm, issue_keeps]

@[simp] theorem execHinfo_keeps {s : State} (d h : Nat) (hm : Memory.wf s.mem = true) :
    KeepsMemory (execHinfo d h s) := by
  simp +contextual [execHinfo, hm, issue_keeps]

@[simp] theorem execHandleDrainFree_keeps {s : State} (c h : Nat) (hm : Memory.wf s.mem = true) :
    KeepsMemory (execHandleDrainFree c h s) := by
  simp [execHandleDrainFree, hm]

/-! ### Copy -/

@[simp] theorem execCpyLvl_keeps {s : State} (lvl : Nat) (o : AluR) (hm : Memory.wf s.mem = true) :
    KeepsMemory (execCpyLvl lvl o s) := by
  simp +contextual [execCpyLvl, hm, issue_keeps]

@[simp] theorem execCpyGo_keeps {s : State} (f : CpyF) (hm : Memory.wf s.mem = true) :
    KeepsMemory (execCpyGo f s) := by
  simp +contextual [execCpyGo, hm, issue_keeps]

@[simp] theorem execCpyCancel_keeps {s : State} (h : Nat) (hm : Memory.wf s.mem = true) :
    KeepsMemory (execCpyCancel h s) := by
  simp +contextual [execCpyCancel, hm, issue_keeps]

@[simp] theorem execCpyStat_keeps {s : State} (d h : Nat) (hm : Memory.wf s.mem = true) :
    KeepsMemory (execCpyStat d h s) := by
  simp +contextual [execCpyStat, hm, issue_keeps]

@[simp] theorem execCopyCommandStart_keeps {s : State} (c : Nat) (hm : Memory.wf s.mem = true) :
    KeepsMemory (execCopyCommandStart c s) := by
  unfold execCopyCommandStart
  dsimp only
  repeat' split
  all_goals simp [hm]

@[simp] theorem State.copyUnreach_mem (s : State) (c : Nat) (k : CopyCmd) : (s.copyUnreach c k).mem = s.mem := rfl

theorem State.copyRead_wf {s t : State} {c : Nat} {k : CopyCmd} {i : Nat} {f : CopyFl} {j : Nat} (h : Memory.wf s.mem = true)
    (e : s.copyRead c k i f j = some t) : Memory.wf t.mem = true := by
  unfold State.copyRead at e
  split at e
  · cases e
  · obtain ⟨p, -, e⟩ := Option.bind_eq_some_iff.1 e
    split at e
    · cases e
    · cases e; simpa [State.copyUnreach] using h
    · rename_i hb
      cases e; exact canonical_of_mem (State.blockIn_canonical h hb) rfl

theorem State.copyWrite_wf {s t : State} {c : Nat} {k : CopyCmd} {i : Nat} {f : CopyFl} {j : Nat} (h : Memory.wf s.mem = true)
    (e : s.copyWrite c k i f j = some t) : Memory.wf t.mem = true := by
  unfold State.copyWrite at e
  dsimp only at e
  split at e
  · cases e
  · obtain ⟨p, -, e⟩ := Option.bind_eq_some_iff.1 e
    obtain ⟨d, -, e⟩ := Option.bind_eq_some_iff.1 e
    have hb : ∀ l, (s.blockOut (k.agent c) k.dt (s.checkBlock k.dt rW p) d.1 d.2 l).Keeps := fun l => State.blockOut_keeps _ _ _ _ _ l h
    split at e <;> rename_i hp
    · cases e
    · rename_i u
      cases e
      have hu : Memory.wf u.mem = true := (hp ▸ hb _ : (BlockOut.unreach u).Keeps)
      simpa [State.copyUnreach] using hu
    · rename_i u v w
      cases e
      exact (hp ▸ hb _ : (BlockOut.done u v w).Keeps)

/-- The state picked is one of the list, or the present one. -/
theorem State.pick_keeps {s : State} {l : List State} (h : Memory.wf s.mem = true) (hl : ∀ t ∈ l, Memory.wf t.mem = true) :
    KeepsMemory (s.pick l) := by
  rw [State.pick, keeps_next, List.getD_eq_getElem?_getD]
  cases e : l[Config.freePick s.tick 0 % max l.length 1]? with
  | none => exact h
  | some t => exact hl t (List.mem_of_getElem? e)

@[simp] theorem execCopyEmit_keeps {s : State} (c : Nat) (h : Memory.wf s.mem = true) : KeepsMemory (execCopyEmit c s) := by
  unfold execCopyEmit
  split
  · simp [h]
  · refine keeps_ite.2 ⟨fun _ => by simp [h], fun _ => State.pick_keeps h fun t ht => ?_⟩
    unfold State.copyMoves at ht
    obtain ht | ht := List.mem_append.1 ht
    · split at ht
      · simp at ht
      · rw [List.mem_singleton.1 ht]; exact h
    · obtain ⟨p, -, e⟩ := List.mem_filterMap.1 ht
      exact State.copyRead_wf h e

@[simp] theorem execCopyComplete_keeps {s : State} (c : Nat) (h : Memory.wf s.mem = true) : KeepsMemory (execCopyComplete c s) := by
  unfold execCopyComplete
  split
  · simp [h]
  · split
    · simp [h]
    · refine keeps_ite.2 ⟨fun _ => by simp [h], fun _ => State.pick_keeps h fun t ht => ?_⟩
      obtain ⟨p, -, e⟩ := List.mem_filterMap.1 ht
      exact State.copyWrite_wf h e

@[simp] theorem execCopyCommandComplete_keeps {s : State} (c : Nat) (h : Memory.wf s.mem = true) :
    KeepsMemory (execCopyCommandComplete c s) := by
  unfold execCopyCommandComplete
  dsimp only
  split
  · simp [h]
  · refine keeps_ite.2 ⟨fun _ => by simp [h], fun _ => keeps_ite.2 ⟨fun _ => by simp [h], fun _ => keeps_ite.2 ⟨fun _ => by simp [h], fun _ =>
      keeps_ite.2 ⟨fun _ => ?_, fun _ => ?_⟩⟩⟩⟩
    · split <;> simp [h]
    · simp [h]

/-! ### Stash -/

@[simp] theorem execStashMap_keeps {s : State} (w : Nat) (m : MemRef) (h : Memory.wf s.mem = true) : KeepsMemory (execStashMap w m s) := by
  unfold execStashMap
  refine issue_keeps h fun t ht => ?_
  dsimp only
  split
  · simp [ht]
  · exact keeps_ite.2 ⟨fun _ => by simp [ht], fun _ => keeps_ite.2 ⟨fun _ => by simp [ht], fun _ => by simp [ht]⟩⟩

@[simp] theorem State.dropLines_mem (s : State) (c : Nat) (w : Win) : (s.dropLines c w).mem = s.mem := rfl

@[simp] theorem State.writeWin_wf {s : State} (c : Nat) (w : Win) (hm : Memory.wf s.mem = true) :
    Memory.wf (s.writeWin c w).mem = true := by
  simp [State.writeWin, hm]

theorem winWord_keeps {s : State} {i : Instr} {w : Nat} {fin : State → State} (h : Memory.wf s.mem = true)
    (hf : ∀ t, Memory.wf t.mem = true → Memory.wf (fin t).mem = true) : KeepsMemory (winWord i w s fin) :=
  drainWord_keeps h fun t ht => by simp [ht, hf t ht]

@[simp] theorem execStashUnmap_keeps {s : State} (w : Nat) (h : Memory.wf s.mem = true) : KeepsMemory (execStashUnmap w s) :=
  winWord_keeps h fun t ht => by simp [ht]

@[simp] theorem execStashWb_keeps {s : State} (w : Nat) (h : Memory.wf s.mem = true) : KeepsMemory (execStashWb w s) :=
  winWord_keeps h fun t ht => by simp [ht]

@[simp] theorem execStashInv_keeps {s : State} (w : Nat) (h : Memory.wf s.mem = true) : KeepsMemory (execStashInv w s) :=
  winWord_keeps h fun t ht => by simp [ht]

/-! ### Wcs -/

@[simp] theorem State.readBytes_mem (s : State) (c ctx id kind : Nat) (pas : List Nat) : (s.readBytes c ctx id kind pas).1.mem = s.mem := by
  have h := State.consume_mem c ctx id (kind == 0) pas s
  unfold State.readBytes
  split <;> rename_i e <;> rw [e] at h <;> exact h

@[simp] theorem State.wordContained_keeps {s : State} (n : Nat) (e : Nat × Nat) (h : Memory.wf s.mem = true) :
    KeepsMemory (s.wordContained n e) := by
  simp [State.wordContained, h]

@[simp] theorem execWcsld_keeps {s : State} (n : Nat) (m : MemRef) (h : Memory.wf s.mem = true) : KeepsMemory (execWcsld n m s) := by
  unfold execWcsld
  refine drainWord_keeps h fun s h => ?_
  dsimp only
  split
  · simp [h]
  · simp [h]
  · refine keeps_ite.2 ⟨fun _ => by simp [h], fun _ => ?_⟩
    rename_i t pas _ _
    have hr : ∀ (v : State) (l : List Nat), Memory.wf v.mem = true → Memory.wf (v.readBytes s.cur s.ctx s.hold.since t.kind l).1.mem = true :=
      fun v l hv => by simp [hv]
    split <;> rename_i e <;> have hu := fst_wf (hr _ _ h) e
    · simp [hu]
    · split
      · simp [h]
      · simp [hu]
      · refine keeps_ite.2 ⟨fun _ => by simp [hu], fun _ => ?_⟩
        split <;> rename_i e <;> have hv := fst_wf (hr _ _ hu) e
        · simp [hv]
        · simp [hv]

/-! ### Unmask -/

@[simp] theorem umIssue_keeps {s : State} (i : Instr) (l : List Src) (ok : State → Bool) (a b : Nat) (k d n : Nat) (mem : Bool)
    (hm : Memory.wf s.mem = true) :
    KeepsMemory (umIssue i s l ok a b k d n mem) := by
  simp +contextual [umIssue, hm, issue_keeps]

@[simp] theorem execUmCfg_keeps {s : State} (f : UmCfgF) (hm : Memory.wf s.mem = true) :
    KeepsMemory (execUmCfg f s) := by
  simp [execUmCfg, hm]

@[simp] theorem execUmCfgRad_keeps {s : State} (d l0 nl radius : Nat) (hm : Memory.wf s.mem = true) :
    KeepsMemory (execUmCfgRad d l0 nl radius s) := by
  simp [execUmCfgRad, hm]

@[simp] theorem execUmCfgShare_keeps {s : State} (f : UmCfgF) (hm : Memory.wf s.mem = true) :
    KeepsMemory (execUmCfgShare f s) := by
  simp [execUmCfgShare, hm]

@[simp] theorem umMemIssue_keeps {s : State} (i : Instr) (f : UmMemF) (mem : Bool) (hm : Memory.wf s.mem = true) :
    KeepsMemory (umMemIssue i f s mem) := by
  simp [umMemIssue, hm]

@[simp] theorem execUmRank_keeps {s : State} (f : UmMemF) (hm : Memory.wf s.mem = true) :
    KeepsMemory (execUmRank f s) := by
  simp [execUmRank, hm]

@[simp] theorem execUmCommit_keeps {s : State} (f : UmMemF) (hm : Memory.wf s.mem = true) :
    KeepsMemory (execUmCommit f s) := by
  simp [execUmCommit, hm]

@[simp] theorem execUmDnext_keeps {s : State} (d : Nat) (hm : Memory.wf s.mem = true) :
    KeepsMemory (execUmDnext d s) := by
  simp [execUmDnext, hm]

@[simp] theorem execUmDclr_keeps {s : State} (a : Nat) (fea : Bool) (hm : Memory.wf s.mem = true) :
    KeepsMemory (execUmDclr a fea s) := by
  simp [execUmDclr, hm]

@[simp] theorem State.umRead_wf {s : State} (k : UmCmd) (t : Token) (off : Int) (pas : List Nat) (use : Nat → Bool) (h : Memory.wf s.mem = true) :
    Memory.wf (s.umRead k t off pas use).1.mem = true := by
  unfold State.umRead
  dsimp only
  split <;> rename_i e
  · exact fst_wf (by simp [h]) e
  · have hu := fst_wf (by simp [h]) e
    simp [hu]

@[simp] theorem State.umWrite_wf {s : State} (k : UmCmd) (t : Token) (off : Int) (last : Bool) (bytes : List (Nat × Byte))
    (h : Memory.wf s.mem = true) : Memory.wf (s.umWrite k t off last bytes).1.mem = true := by
  unfold State.umWrite
  split <;> simp [h]

@[simp] theorem State.umEvent_mem (s : State) (pane : Nat) (k : UmCmd) (e : Nat × Nat) (m : Nat) : (s.umEvent pane k e m).mem = s.mem := by
  simp [State.umEvent]

@[simp] theorem State.umRanked_mem (s : State) (pane : Nat) (k : UmCmd) (masked : List Nat) : (s.umRanked pane k masked).mem = s.mem := rfl

@[simp] theorem State.umRank_wf {s : State} (pane : Nat) (k : UmCmd) (h : Memory.wf s.mem = true) : Memory.wf (s.umRank pane k).mem = true := by
  unfold State.umRank
  dsimp only
  split
  · simp [h]
  · split
    · exact h
    · simp [h]
    · split
      · simp [h]
      · split
        · exact h
        · split <;> rename_i e
          · simp [fst_wf (State.umRead_wf k _ _ _ _ h) e]
          · simp [fst_wf (State.umRead_wf k _ _ _ _ h) e]

@[simp] theorem State.umList_wf {s : State} (pane : Nat) (k : UmCmd) (ps : List Nat) (off : Int) (n : Nat) (hm : Memory.wf s.mem = true) :
    Memory.wf (s.umList pane k ps off n).mem = true := by
  unfold State.umList
  dsimp only
  repeat' split
  all_goals simp [hm]

@[simp] theorem State.umBlock_wf {s : State} (pane : Nat) (k : UmCmd) (ps : List Nat) (j : Nat) (last : Bool) (h : Memory.wf s.mem = true) :
    Memory.wf (s.umBlock pane k ps j last).mem = true := by
  unfold State.umBlock
  dsimp only
  split
  · exact h
  · simp [h]
  · split
    · simp [h]
    · split
      · exact h
      · rename_i pas _ _ _
        have hw : Memory.wf ((s.bypass k.core pas).pullFor pas).mem = true := by simp [h]
        split <;> rename_i e <;> have hu := State.findAll_wf hw e
        · simp [hu]
        · simp [hu]

@[simp] theorem State.umCommit_wf {s : State} (pane : Nat) (k : UmCmd) (hm : Memory.wf s.mem = true) :
    Memory.wf (s.umCommit pane k).mem = true := by
  unfold State.umCommit
  dsimp only
  repeat' split
  all_goals simp [hm]

@[simp] theorem State.umAct_wf {s : State} (pane : Nat) (k : UmCmd) (hm : Memory.wf s.mem = true) :
    Memory.wf (s.umAct pane k).mem = true := by
  unfold State.umAct
  dsimp only
  repeat' split
  all_goals simp [hm]

@[simp] theorem State.unmaskTurn_wf {s : State} (pane : Nat) (hm : Memory.wf s.mem = true) :
    Memory.wf (s.unmaskTurn pane).mem = true := by
  unfold State.unmaskTurn
  dsimp only
  repeat' split
  all_goals simp [hm]

@[simp] theorem execUmStatusFill_keeps {s : State} (pane : Nat) (hm : Memory.wf s.mem = true) :
    KeepsMemory (execUmStatusFill pane s) := by
  unfold execUmStatusFill
  dsimp only
  repeat' split
  all_goals simp [hm]

end Sys2Proof.Machine

end

section
set_option Elab.async false

/-! SUPPORT. Revocation, queues, futures, scalar accesses, tasks, barriers and saves keep the memory in its canonical form. O58. -/

namespace Sys2Proof.Machine

/-! ### Revoke -/

@[simp] theorem State.moveExtent_wf {s : State} (e : Nat) (h : Memory.wf s.mem = true) : Memory.wf (s.moveExtent e).mem = true := by
  unfold State.moveExtent
  refine State.homeWrite_wf _ _ _ ?_
  rw [State.marksOf_mem]
  exact foldl_wf (fun t ln ht => by simp [ht]) h

@[simp] theorem State.writeEntry_wf {s : State} (e : Nat) (h : Memory.wf s.mem = true) : Memory.wf (s.writeEntry e).mem = true :=
  foldl_wf (fun _ _ ht => foldl_wf (fun t p ht => by simp [ht]) ht) h

@[simp] theorem execRevokeDrainEnd_keeps {s : State} (e : Nat) (hm : Memory.wf s.mem = true) :
    KeepsMemory (execRevokeDrainEnd e s) := by
  simp [execRevokeDrainEnd, hm]

@[simp] theorem State.modCmds_mem (s : State) (c : Nat) (p : Token → Bool) (f : MxCmd → MxCmd) (g : UmCmd → UmCmd) :
    (s.modCmds c p f g).mem = s.mem := rfl

/-- Dropping the lines of a core's windows leaves memory alone. -/
theorem State.dropWins_mem (s : State) (c : Nat) (l : Sparse Win) (p : Nat × Win → Bool) :
    (l.foldl (fun (t : State) w => if p w then t.dropLines c w.2 else t) s).mem = s.mem :=
  foldl_mem fun t w => by split <;> rfl

@[simp] theorem State.sweepMove_mem (s : State) (c e : Nat) : (s.sweepMove c e).mem = s.mem := by
  simp [State.sweepMove, State.dropWins_mem s c _ (fun p => (s.ent e).hits e p.2.tok)]

@[simp] theorem State.sweepKill_mem (s : State) (c e : Nat) : (s.sweepKill c e).mem = s.mem := by
  simp [State.sweepKill, State.dropWins_mem s c _ (fun p => (s.ent e).hits e p.2.tok)]

@[simp] theorem execSweep_keeps {s : State} (c e : Nat) (hm : Memory.wf s.mem = true) :
    KeepsMemory (execSweep c e s) := by
  simp [execSweep, hm]

@[simp] theorem execSweepDone_keeps {s : State} (e : Nat) (hm : Memory.wf s.mem = true) :
    KeepsMemory (execSweepDone e s) := by
  simp [execSweepDone, hm]

@[simp] theorem execDeadUnpin_keeps {s : State} (e : Nat) (hm : Memory.wf s.mem = true) :
    KeepsMemory (execDeadUnpin e s) := by
  simp [execDeadUnpin, hm]

@[simp] theorem execDeadHoldExpire_keeps {s : State} (e : Nat) (hm : Memory.wf s.mem = true) :
    KeepsMemory (execDeadHoldExpire e s) := by
  simp [execDeadHoldExpire, hm]

@[simp] theorem execForwardRelease_keeps {s : State} (e : Nat) (hm : Memory.wf s.mem = true) :
    KeepsMemory (execForwardRelease e s) := by
  simp [execForwardRelease, hm]

@[simp] theorem State.memPut_wf {s : State} (pa : Nat) (l : List Byte) (bad : List (Nat × Nat)) (hm : Memory.wf s.mem = true) :
    Memory.wf (s.memPut pa l bad).mem = true := by
  simp [State.memPut, hm]

@[simp] theorem State.memChange_wf {s : State} (pa : Nat) (l : List Byte) (h : Memory.wf s.mem = true) :
    Memory.wf (s.memChange pa l).mem = true := by
  unfold State.memChange
  split
  · exact h
  · exact State.homeWrite_wf _ _ _ h

@[simp] theorem State.setList_wf {s : State} (key : Nat) (v : SaveE) (hm : Memory.wf s.mem = true) :
    Memory.wf (s.setList key v).mem = true := by
  simp [State.setList, hm]

@[simp] theorem execSavedContextWalk_keeps {s : State} (e list : Nat) (h : Memory.wf s.mem = true) :
    KeepsMemory (execSavedContextWalk e list s) := by
  refine keeps_ite.2 ⟨fun _ => by simp [h], fun _ => keeps_next.2 ?_⟩
  rw [State.setEnt_mem]
  refine foldl_wf (fun t pa ht => foldl_wf (fun t i ht => ?_) ht) h
  dsimp only
  split
  · exact State.memPut_wf _ _ _ ht
  · exact ht

/-! ### Queue -/

@[simp] theorem State.placed_mem (s : State) (r : QReq) : (s.placed r).mem = s.mem := by
  unfold State.placed
  exact foldl_mem fun t x => rfl

@[simp] theorem State.pushFault_mem (s : State) (qn : Nat) (r : QReq) : (s.pushFault qn r).mem = s.mem := by
  unfold State.pushFault
  exact foldl_mem fun t x => rfl

@[simp] theorem State.pushLeaves_mem (s : State) (qn : Nat) (r : QReq) : (s.pushLeaves qn r).mem = s.mem := by
  simp [State.pushLeaves]

@[simp] theorem State.queueFault_mem (s : State) (qn : Nat) : (s.queueFault qn).mem = s.mem := rfl

@[simp] theorem State.deliver_mem (s : State) (qn : Nat) (r : QReq) (rc : Rec) (initial : Bool) (bad : List (Nat × Nat)) :
    (s.deliver qn r rc initial bad).mem = s.mem := by
  unfold State.deliver; split <;> rfl

@[simp] theorem servePop_mem (s : State) (qn : Nat) (r : QReq) : (servePop qn s r).mem = s.mem := by
  unfold servePop
  dsimp only
  repeat' split
  all_goals simp

@[simp] theorem State.landRefill_mem (s : State) (qn pos : Nat) (pas : List Nat) : (s.landRefill qn pos pas).mem = s.mem := by
  simp [State.landRefill]

@[simp] theorem State.readRefill_mem (s : State) (qn pos : Nat) : (s.readRefill qn pos).mem = s.mem := by
  unfold State.readRefill
  dsimp only
  repeat' split
  all_goals simp

@[simp] theorem servePush_wf {s : State} (qn : Nat) (r : QReq) (hm : Memory.wf s.mem = true) :
    Memory.wf (servePush qn s r).mem = true := by
  unfold servePush
  dsimp only
  repeat' split
  all_goals simp [hm]

@[simp] theorem State.retireHead_mem (s : State) (qn : Nat) : (s.retireHead qn).mem = s.mem := by
  unfold State.retireHead
  dsimp only
  repeat' split
  all_goals simp

@[simp] theorem State.pushFlush_wf {s : State} (l : List QReq) (hm : Memory.wf s.mem = true) :
    Memory.wf (s.pushFlush l).mem = true := by
  unfold State.pushFlush
  exact foldl_wf (fun t x ht => by simp [ht]) hm

@[simp] theorem State.resolve_wf {s : State} (qn : Nat) (h : Memory.wf s.mem = true) : Memory.wf (s.resolve qn).mem = true := by
  unfold State.resolve
  simp only [State.retireHead_mem, State.setQ_mem]
  refine foldl_wf (fun t r ht => servePush_wf qn r ht) (foldl_wf (fun t r ht => servePush_wf qn r ht) ?_)
  rw [State.setQ_mem, State.setQ_mem, foldl_mem fun t r => servePop_mem t qn r, State.setQ_mem]
  exact State.pushFlush_wf _ h

@[simp] theorem execQueueResolve_keeps {s : State} (pane slot : Nat) (hm : Memory.wf s.mem = true) :
    KeepsMemory (execQueueResolve pane slot s) := by
  simp [execQueueResolve, hm]

@[simp] theorem execRefillLand_keeps {s : State} (pane slot : Nat) (hm : Memory.wf s.mem = true) :
    KeepsMemory (execRefillLand pane slot s) := by
  unfold execRefillLand
  dsimp only
  repeat' split
  all_goals simp [hm]

@[simp] theorem execRecordDelivery_keeps {s : State} (c : Nat) (hm : Memory.wf s.mem = true) :
    KeepsMemory (execRecordDelivery c s) := by
  unfold execRecordDelivery
  dsimp only
  repeat' split
  all_goals simp [hm]

@[simp] theorem execQueueFaultTrap_keeps {s : State} (c x : Nat) (hm : Memory.wf s.mem = true) :
    KeepsMemory (execQueueFaultTrap c x s) := by
  unfold execQueueFaultTrap
  dsimp only
  repeat' split
  all_goals simp [hm]

@[simp] theorem queueTrap_keeps {s : State} (w : Word) (hm : Memory.wf s.mem = true) :
    KeepsMemory (queueTrap s w) := by
  simp [queueTrap, hm]

@[simp] theorem State.pushOf_mem (s : State) (q : Nat) (r : QReq) : (s.pushOf q r).mem = s.mem := by
  simp [State.pushOf]

@[simp] theorem execQpush_keeps {s : State} (o : AluR) (hm : Memory.wf s.mem = true) :
    KeepsMemory (execQpush o s) := by
  unfold execQpush
  refine issue_keeps hm fun t ht => ?_
  dsimp only
  repeat' split
  all_goals simp [ht]

@[simp] theorem popWord_keeps {s : State} (o : AluR) (st : Option Nat) (op : QOp) (hm : Memory.wf s.mem = true) :
    KeepsMemory (popWord s o st op) := by
  unfold popWord
  dsimp only
  repeat' split
  all_goals simp [hm]

@[simp] theorem execQpop_keeps {s : State} (o : AluR) (hm : Memory.wf s.mem = true) :
    KeepsMemory (execQpop o s) := by
  simp +contextual [execQpop, hm, issue_keeps]

@[simp] theorem execQtry_keeps {s : State} (o : AluR) (hm : Memory.wf s.mem = true) :
    KeepsMemory (execQtry o s) := by
  simp +contextual [execQtry, hm, issue_keeps]

@[simp] theorem execQinfo_keeps {s : State} (o : AluR) (hm : Memory.wf s.mem = true) :
    KeepsMemory (execQinfo o s) := by
  unfold execQinfo
  refine issue_keeps hm fun t ht => ?_
  repeat' split
  all_goals simp [ht]

@[simp] theorem execQbind_keeps {s : State} (o : AluR) (hm : Memory.wf s.mem = true) :
    KeepsMemory (execQbind o s) := by
  unfold execQbind
  refine issue_keeps hm fun t ht => ?_
  dsimp only
  repeat' split
  all_goals simp [ht]

/-! ### Future -/

@[simp] theorem State.putAt_wf {s : State} (c : Nat) (a : Acc) (hm : Memory.wf s.mem = true) :
    Memory.wf (s.putAt c a).mem = true := by
  simp [State.putAt, hm]

theorem State.clrAt_wf {s t : State} (c : Nat) (a : Acc) (hm : Memory.wf s.mem = true) (e : (s.clrAt c a) = some t) :
    Memory.wf t.mem = true := by
  unfold State.clrAt at e
  dsimp only at e
  repeat' split at e
  all_goals cases e
  all_goals simp [hm]

theorem State.futPerform_wf {s t : State} {c : Nat} {a : Acc} {r : Except (Nat × Nat) Unit} (h : Memory.wf s.mem = true)
    (e : s.futPerform c a = some (t, r)) : Memory.wf t.mem = true := by
  unfold State.futPerform at e
  dsimp only at e
  have hw : Memory.wf ((((s.relWork c a).bypass c a.pas).pullFor a.pas).hear c a.ctx a.tok.kind a.acq a.scope a.pas none).mem = true := by
    simp [show Memory.wf (s.relWork c a).mem = true from State.relWork_canonical c a h]
  split at e <;> rename_i hf <;> have hu := State.findAll_wf hw hf
  · cases e; exact hu
  · split at e
    · cases e; exact State.putAt_wf c a hu
    · obtain ⟨u, hc, e⟩ := Option.map_eq_some_iff.1 e
      cases e; exact State.clrAt_wf c a hu hc

@[simp] theorem State.pushReleased_mem (s : State) (pane pa : Nat) (r : Rec) (value : Word) (bad : List (Nat × Nat)) :
    (s.pushReleased pane pa r value bad).mem = s.mem := by
  unfold State.pushReleased
  dsimp only
  repeat' split
  all_goals rfl

@[simp] theorem State.unpark_mem (s : State) (linst : Nat) : (s.unpark linst).mem = s.mem := rfl

theorem State.pushDue_wf {s t : State} (pane : Nat) (d : DueRel) (hm : Memory.wf s.mem = true) (e : (s.pushDue pane d) = some t) :
    Memory.wf t.mem = true := by
  unfold State.pushDue at e
  dsimp only at e
  repeat' split at e
  all_goals cases e
  all_goals simp [hm]

@[simp] theorem execFutReleasePush_keeps {s : State} (pane : Nat) (h : Memory.wf s.mem = true) : KeepsMemory (execFutReleasePush pane s) :=
  keeps_next.2 (getD_wf h fun t e => by
    obtain ⟨d, -, hd⟩ := List.exists_of_findSome?_eq_some e
    exact State.pushDue_wf pane d h hd)

/-! ### ScalarMem -/

@[simp] theorem execLd_keeps {s : State} (f : LdF) (hm : Memory.wf s.mem = true) :
    KeepsMemory (execLd f s) := by
  simp +contextual [execLd, hm, issue_keeps]

@[simp] theorem execSt_keeps {s : State} (f : LdF) (hm : Memory.wf s.mem = true) :
    KeepsMemory (execSt f s) := by
  simp +contextual [execSt, hm, issue_keeps]

/-- The state a judged access leaves keeps the canonical form. -/
def Ready.Keeps : Ready → Prop
  | .no t | .failed t _ | .yes t _ => Memory.wf t.mem = true

theorem State.ready_keeps {s : State} (c id : Nat) (p : AOp → Bool) (h : Memory.wf s.mem = true) : (s.ready c id p).Keeps := by
  unfold State.ready
  split
  · exact h
  · rename_i a _
    split
    · exact h
    · have ht : ∀ r : State × Acc, r = (if a.chk = 0 then s.checkAcc c a else (s, a)) →
          Memory.wf (r.1.mod c (fun x => x.putAcc r.2)).mem = true := by
        rintro _ rfl
        split <;> simp [h]
      dsimp only
      repeat' split
      all_goals exact ht _ (by simp [*])

@[simp] theorem execLoadComplete_keeps {s : State} (c id : Nat) (h : Memory.wf s.mem = true) : KeepsMemory (execLoadComplete c id s) := by
  unfold execLoadComplete
  have hr := fun p => State.ready_keeps c id p h
  split
  · rename_i t e
    exact keeps_next.2 (e ▸ hr _ : (Ready.no t).Keeps)
  · rename_i t a e
    exact keeps_next.2 (e ▸ hr _ : (Ready.failed t a).Keeps)
  · rename_i t a e
    exact keeps_next.2 (State.loadBytes_wf _ _ (e ▸ hr _ : (Ready.yes t a).Keeps))

@[simp] theorem execWriteReachesHome_keeps {s : State} (c id : Nat) (h : Memory.wf s.mem = true) :
    KeepsMemory (execWriteReachesHome c id s) := by
  unfold execWriteReachesHome
  have hr := fun p => State.ready_keeps c id p h
  split
  · rename_i t e
    exact keeps_next.2 (e ▸ hr _ : (Ready.no t).Keeps)
  · rename_i t a e
    exact keeps_next.2 (e ▸ hr _ : (Ready.failed t a).Keeps)
  · rename_i t a e
    have ht : Memory.wf t.mem = true := (e ▸ hr _ : (Ready.yes t a).Keeps)
    refine keeps_ite.2 ⟨fun _ => by simp [ht], fun _ => keeps_ite.2 ⟨fun _ => by simp [ht], fun _ => keeps_ite.2 ⟨fun _ => ?_, fun _ =>
      keeps_ite.2 ⟨fun _ => ?_, fun _ => by simp [ht]⟩⟩⟩⟩
    · split <;> rename_i e
      · simp [ht]
      · simp [State.futPerform_wf ht e]
      · simp [State.futPerform_wf ht e]
    · split <;> rename_i e
      · simp [fst_wf (State.rmw_wf c a ht) e]
      · simp [fst_wf (State.rmw_wf c a ht) e]

@[simp] theorem State.storeElements_wf {s : State} (c id : Nat) (sel : List Nat) (h : Memory.wf s.mem = true) :
    Memory.wf (s.storeElements c id sel).mem = true := by
  unfold State.storeElements
  have hr := fun p => State.ready_keeps c id p h
  split
  · rename_i t e
    exact (e ▸ hr _ : (Ready.no t).Keeps)
  · rename_i t a e
    exact (e ▸ hr _ : (Ready.failed t a).Keeps)
  · rename_i t a e
    have ht : Memory.wf t.mem = true := (e ▸ hr _ : (Ready.yes t a).Keeps)
    simp [ht]

@[simp] theorem execStoreAcknowledged_keeps {s : State} (c id : Nat) (hm : Memory.wf s.mem = true) :
    KeepsMemory (execStoreAcknowledged c id s) := by
  simp [execStoreAcknowledged, hm]

/-! ### Task -/

@[simp] theorem State.systemWork_wf {s : State} (c : Nat) (hm : Memory.wf s.mem = true) :
    Memory.wf (s.systemWork c).mem = true := by
  simp [State.systemWork, hm]

@[simp] theorem State.departs_mem (s : State) (c : Nat) : (s.departs c).mem = s.mem := by
  unfold State.departs
  split
  · rfl
  · dsimp only
    split
    · exact foldl_mem fun t lvl => by simp
    · rfl

@[simp] theorem State.withdraw_mem (s : State) (c : Nat) : (s.withdraw c).mem = s.mem := rfl

@[simp] theorem State.dropPops_mem (s : State) (c : Nat) : (s.dropPops c).mem = s.mem := rfl

@[simp] theorem State.freeZ_mem (s : State) (uid : Nat) : (s.freeZ uid).mem = s.mem := rfl

@[simp] theorem State.leavesLaunch_mem (s : State) (c : Nat) : (s.leavesLaunch c).mem = s.mem := by
  unfold State.leavesLaunch
  dsimp only
  repeat' split
  all_goals simp

@[simp] theorem State.finish_mem (s : State) (c : Nat) : (s.finish c).mem = s.mem := by
  simp [State.finish]

/-- How a join ends keeps the canonical form. -/
def Joined.Keeps : Joined → Prop
  | .wait => True
  | .over t | .push t _ _ | .event t _ => Memory.wf t.mem = true

theorem State.joinFails_keeps {s : State} (c linst : Nat) (k : Option (KBit × Nat)) (h : Memory.wf s.mem = true) :
    (s.joinFails c linst k).Keeps := by
  unfold State.joinFails
  split <;> simpa [Joined.Keeps] using h

theorem State.join_keeps {s : State} (c : Nat) (t : Task) (h : Memory.wf s.mem = true) : (s.join c t).Keeps := by
  unfold State.join
  have hp : Memory.wf (s.restore c t.r.frame).1.mem = true := by simp [h]
  dsimp only
  split
  · exact State.joinFails_keeps _ _ _ hp
  · split
    · trivial
    · exact State.joinFails_keeps _ _ _ hp
    · split
      · trivial
      · split <;> rename_i e <;> have hu := State.findAll_wf (by simp [h]) e
        · exact hu
        · split
          · exact State.homeStore_wf _ _ _ _ _ hu
          · split
            · trivial
            · exact State.joinFails_keeps _ _ _ (State.homeStore_wf _ _ _ _ _ hu)
            · split <;> rename_i e <;> have hy := State.findAll_wf (State.bypass_wf _ _ (State.homeStore_wf _ _ _ _ _ hu)) e
              · exact hy
              · split
                · exact State.joinFails_keeps _ _ _ hy
                · split
                  · exact hy
                  · exact hy

@[simp] theorem State.endEvent_mem (s : State) (c : Nat) (e : Nat × Nat) : (s.endEvent c e).mem = s.mem := by
  simp [State.endEvent]

theorem State.makeJoin_wf {s u : State} {cs : List Nat} (h : Memory.wf s.mem = true) (e : s.makeJoin cs = some u) : Memory.wf u.mem = true := by
  unfold State.makeJoin at e
  dsimp only at e
  split at e
  · cases e
  · rename_i t _
    have hj := State.join_keeps (cs.headD 0) t h
    split at e <;> rename_i ej <;> rw [ej] at hj <;> cases e
    · exact foldl_wf (fun t d ht => by simp [ht]) hj
    · exact foldl_wf (fun t d ht => by simp [ht]) hj
    · rename_i v q r
      have hv : Memory.wf v.mem = true := hj
      refine foldl_wf (fun t d ht => by simp [ht]) ?_
      simpa using hv

@[simp] theorem execTaskEndComplete_keeps {s : State} (c : Nat) (h : Memory.wf s.mem = true) : KeepsMemory (execTaskEndComplete c s) := by
  unfold execTaskEndComplete
  dsimp only
  split
  · simp [h]
  · have hw : Memory.wf (s.systemWork c).mem = true := by simp [h]
    refine keeps_ite.2 ⟨fun _ => by simp [h], fun _ => keeps_ite.2 ⟨fun _ => by simp [h], fun _ => keeps_ite.2 ⟨fun _ => by simp [h], fun _ =>
      keeps_ite.2 ⟨fun _ => by simp [h], fun _ => keeps_ite.2 ⟨fun _ => by simp [hw], fun _ => keeps_ite.2 ⟨fun _ => by simp [hw], fun _ => ?_⟩⟩⟩⟩⟩⟩
    split
    · simp [h]
    · rename_i e
      simp [State.makeJoin_wf hw e]

@[simp] theorem State.abandon_mem (s : State) (c : Nat) : (s.abandon c).mem = s.mem := rfl

@[simp] theorem execTaskRetire_keeps {s : State} (c : Nat) (hm : Memory.wf s.mem = true) :
    KeepsMemory (execTaskRetire c s) := by
  simp [execTaskRetire, hm]

/-! ### Sync -/

@[simp] theorem execBar_keeps {s : State} (lvl scope : Nat) (h : Memory.wf s.mem = true) : KeepsMemory (execBar lvl scope s) := by
  unfold execBar
  split
  · simp [h]
  · refine issue_keeps h fun t ht => ?_
    split <;> simp [ht]

@[simp] theorem execBarrierRelease_keeps {s : State} (linst grp lvl : Nat) (h : Memory.wf s.mem = true) :
    KeepsMemory (execBarrierRelease linst grp lvl s) := by
  refine keeps_ite.2 ⟨fun _ => by simp [h], fun _ => keeps_next.2 ?_⟩
  rw [State.setBar_mem]
  refine foldl_wf (fun t c ht => ?_) h
  split <;> simp [ht]

@[simp] theorem futIssue_keeps {s : State} (i : Instr) (op : AOp) (f : SyncF) (bad : Word → Bool) (hm : Memory.wf s.mem = true) :
    KeepsMemory (futIssue i op f s bad) := by
  simp +contextual [futIssue, hm, issue_keeps]

@[simp] theorem execFutPut_keeps {s : State} (f : SyncF) (hm : Memory.wf s.mem = true) :
    KeepsMemory (execFutPut f s) := by
  simp [execFutPut, hm]

@[simp] theorem execFutClr_keeps {s : State} (f : SyncF) (hm : Memory.wf s.mem = true) :
    KeepsMemory (execFutClr f s) := by
  simp [execFutClr, hm]

theorem State.futSlice_wf {s v : State} {cs : List Nat} {tok : Token} {off : Int} {o : Ordr} {resume : Nat} (h : Memory.wf s.mem = true)
    (e : s.futSlice cs tok off o resume = some v) : Memory.wf v.mem = true := by
  have hall : ∀ (t : State) (f : Core → Core), Memory.wf t.mem = true → Memory.wf (cs.foldl (fun u d => u.mod d f) t).mem = true :=
    fun t f ht => foldl_wf (fun t d ht => by simp [ht]) ht
  have hleave : ∀ t : State, Memory.wf t.mem = true → Memory.wf (cs.foldl (fun t d => (t.systemWork d).finish d) t).mem = true :=
    fun t ht => foldl_wf (fun t d ht => by simp [ht]) ht
  unfold State.futSlice at e
  dsimp only at e
  split at e
  · cases e
  · cases e; exact hall _ _ (State.flush_wf _ h)
  · split at e
    · cases e
    · split at e <;> rename_i ef <;>
        have ht := State.findAll_wf (State.pullFor_wf _ (State.bypass_wf _ _ (State.releaseAt_wf _ _ _ _ _ h))) ef
      · cases e; exact foldl_wf (fun t d ht => by simp [ht]) ht
      · split at e
        · split at e
          · cases e
          · cases e; exact hall _ _ (by simp [ht])
        · split at e
          · cases e
          · split at e
            · cases e
            · split at e
              · cases e
                refine hleave _ ?_
                exact ht
              · split at e
                · split at e
                  · cases e
                  · cases e; exact hall _ _ ht
                  · cases e
                    refine hleave _ ?_
                    rw [State.setLaunch_mem]
                    exact State.homeWrite_wf _ _ _ (State.homeWrite_wf _ _ _ ht)
                · split at e
                  · cases e
                  · cases e; exact hall _ _ h

theorem futTry_wf {s t : State} {f : SyncF} {seq : Nat} (h : Memory.wf s.mem = true) (e : futTry f seq s = some t) : Memory.wf t.mem = true := by
  unfold futTry at e
  dsimp only at e
  split at e
  · cases e
  · split at e
    · cases e; exact h
    · split at e
      · cases e; exact h
      · exact State.futSlice_wf h e

@[simp] theorem execFutWait_keeps {s : State} (f : SyncF) (h : Memory.wf s.mem = true) : KeepsMemory (execFutWait f s) := by
  unfold execFutWait
  split
  · split
    · rename_i e
      exact keeps_next.2 (futTry_wf h e)
    · simp [h]
  · exact issue_keeps h fun t ht => by simp [ht]

@[simp] theorem execFutParkRetry_keeps {s : State} (c : Nat) (h : Memory.wf s.mem = true) : KeepsMemory (execFutParkRetry c s) := by
  unfold execFutParkRetry
  dsimp only
  split
  · exact keeps_next.2 (getD_wf h fun t e => futTry_wf (s := { s with cur := c, ctx := 0 }) h e)
  · simp [h]

@[simp] theorem sigIssue_keeps {s : State} (i : Instr) (op : AOp) (f : SyncF) (hm : Memory.wf s.mem = true) :
    KeepsMemory (sigIssue i op f s) := by
  simp +contextual [sigIssue, hm, issue_keeps]

@[simp] theorem execSigAdd_keeps {s : State} (f : SyncF) (hm : Memory.wf s.mem = true) :
    KeepsMemory (execSigAdd f s) := by
  simp [execSigAdd, hm]

@[simp] theorem execSigSet_keeps {s : State} (f : SyncF) (hm : Memory.wf s.mem = true) :
    KeepsMemory (execSigSet f s) := by
  simp [execSigSet, hm]

@[simp] theorem execSigRead_keeps {s : State} (f : SyncF) (hm : Memory.wf s.mem = true) :
    KeepsMemory (execSigRead f s) := by
  simp [execSigRead, hm]

@[simp] theorem execSigWait_keeps {s : State} (f : SyncF) (h : Memory.wf s.mem = true) : KeepsMemory (execSigWait f s) := by
  unfold execSigWait
  split
  · simp [h]
  · refine issue_keeps h fun t ht => keeps_ite.2 ⟨fun _ => by simp [ht], fun _ => ?_⟩
    split <;> simp [ht]

@[simp] theorem execSigWaitRelease_keeps {s : State} (c : Nat) (h : Memory.wf s.mem = true) : KeepsMemory (execSigWaitRelease c s) := by
  unfold execSigWaitRelease
  dsimp only
  split
  · refine keeps_ite.2 ⟨fun _ => by simp [h], fun _ => ?_⟩
    split <;> rename_i e <;> simp [State.findAll_wf (by simp [h]) e]
  · simp [h]

/-! ### Save -/

@[simp] theorem State.arriveAll_mem (s : State) (c : Nat) (l : List Token) : (s.arriveAll c l).1.mem = s.mem :=
  List.foldlRecOn (motive := fun a : State × List Token => a.1.mem = s.mem) l _ rfl fun a h t _ => by simp [h]

@[simp] theorem State.restoreTokens_mem (s : State) (c : Nat) : (s.restoreTokens c).mem = s.mem := by
  unfold State.restoreTokens
  simp only [State.mod_mem, State.arriveAll_mem]

@[simp] theorem State.restoreImage_mem (s : State) (c : Nat) (rd : Nat → Byte) (bad : Sparse Nat) : (s.restoreImage c rd bad).mem = s.mem := by
  simp [State.restoreImage]

@[simp] theorem State.leaseFor_mem (s : State) (c : Nat) : (s.leaseFor c).1.mem = s.mem := by
  simp [State.leaseFor]

theorem ctxWord_keeps {s : State} {i : Instr} {m : MemRef} {fin : State → Out} (h : Memory.wf s.mem = true)
    (hf : ∀ t, Memory.wf t.mem = true → KeepsMemory (fin t)) : KeepsMemory (ctxWord i m s fin) :=
  keeps_ite.2 ⟨fun _ => keeps_ite.2 ⟨fun _ => hf _ h, fun _ => by simp [h]⟩, fun _ => issue_keeps h fun t ht =>
    keeps_ite.2 ⟨fun _ => by simp [ht], fun _ => keeps_ite.2 ⟨fun _ => by simp [ht], fun _ =>
      keeps_ite.2 ⟨fun _ => hf _ (by simp [ht]), fun _ => by simp [ht]⟩⟩⟩⟩

@[simp] theorem execCtxsave_keeps {s : State} (m : MemRef) (h : Memory.wf s.mem = true) : KeepsMemory (execCtxsave m s) :=
  ctxWord_keeps h fun t ht => by
    split
    · simp [ht]
    · simp [ht]
    · refine keeps_ite.2 ⟨fun _ => by simp [ht], fun _ => keeps_next.2 ?_⟩
      rw [State.done_mem]
      exact State.homeStore_wf _ _ _ _ _ (State.bypass_wf _ _ (canonical_of_mem ht (State.mod_mem _ _ _)))

@[simp] theorem execCtxrest_keeps {s : State} (m : MemRef) (h : Memory.wf s.mem = true) : KeepsMemory (execCtxrest m s) :=
  ctxWord_keeps h fun t ht => by
    dsimp only
    split
    · simp [ht]
    · simp [ht]
    · refine keeps_ite.2 ⟨fun _ => by simp [ht], fun _ => ?_⟩
      split <;> rename_i e <;> have hu := State.findAll_wf (by simp [ht]) e
      · simp [hu]
      · split <;> simp [hu, ht]

@[simp] theorem State.abandonWait_mem (s : State) (c : Nat) : (s.abandonWait c).mem = s.mem := by
  unfold State.abandonWait; split <;> rfl

@[simp] theorem State.enterStop_mem (s : State) (c reason : Nat) : (s.enterStop c reason).mem = s.mem := by
  simp [State.enterStop]

theorem State.honourStop_wf {s t : State} (c : Nat) (hm : Memory.wf s.mem = true) (e : (s.honourStop c) = some t) :
    Memory.wf t.mem = true := by
  unfold State.honourStop at e
  dsimp only at e
  repeat' split at e
  all_goals cases e
  all_goals simp [hm]

@[simp] theorem execStopHonour_keeps {s : State} (c : Nat) (h : Memory.wf s.mem = true) : KeepsMemory (execStopHonour c s) :=
  keeps_next.2 (getD_wf h fun _ e => State.honourStop_wf c h e)

@[simp] theorem execStopTokenPass_keeps {s : State} (c q : Nat) (hm : Memory.wf s.mem = true) :
    KeepsMemory (execStopTokenPass c q s) := by
  simp [execStopTokenPass, hm]

@[simp] theorem State.freeSave_wf {s : State} (key : Nat) (hm : Memory.wf s.mem = true) :
    Memory.wf (s.freeSave key).mem = true := by
  simp [State.freeSave, hm]

@[simp] theorem State.unstop_wf {s : State} (c : Nat) (hm : Memory.wf s.mem = true) :
    Memory.wf (s.unstop c).mem = true := by
  unfold State.unstop
  dsimp only
  repeat' split
  all_goals simp [hm]

@[simp] theorem State.listBits_mem (s : State) (list c : Nat) (l : List Token) : (s.listBits list c l).mem = s.mem := by
  unfold State.listBits
  exact foldl_mem fun t x => by simp

@[simp] theorem State.leaveSaved_wf {s : State} (c : Nat) (hm : Memory.wf s.mem = true) :
    Memory.wf (s.leaveSaved c).mem = true := by
  simp [State.leaveSaved, hm]

@[simp] theorem execContextSaveComplete_keeps {s : State} (c : Nat) (h : Memory.wf s.mem = true) :
    KeepsMemory (execContextSaveComplete c s) := by
  unfold execContextSaveComplete
  dsimp only
  split
  · simp [h]
  · refine keeps_ite.2 ⟨fun _ => by simp [h], fun _ => keeps_ite.2 ⟨fun _ => by simp [h], fun _ => keeps_next.2 ?_⟩⟩
    have hf : Memory.wf ((s.dropCancelled c).flush c).mem = true := by simp [h]
    exact State.leaveSaved_wf c (canonical_of_mem (State.setList_wf _ _ (State.homeWrite_wf _ _ _ hf)) (State.listBits_mem _ _ _ _))

theorem State.resumeSaved_wf {s t : State} {c key : Nat} (h : Memory.wf s.mem = true) (e : s.resumeSaved c key = some t) :
    Memory.wf t.mem = true := by
  unfold State.resumeSaved at e
  extract_lets v area rd p found offs marks bad w u at e
  clear_value v area
  have hp : Memory.wf p.1.mem = true := by
    dsimp only [p]
    split <;> simp [h]
  clear_value p
  have hf : Memory.wf found.1.mem = true := by
    rw [State.findAll_mem]
    exact hp
  clear_value found
  have hm : Memory.wf marks.1.mem = true := by simp [marks, hf]
  clear_value marks
  have hw : Memory.wf w.mem = true := canonical_of_mem hm (State.mod_mem _ _ _)
  clear_value w
  have hu : Memory.wf u.mem = true := State.freeSave_wf key (by simp [hw])
  clear_value u
  split at e
  · exact Option.some.inj e ▸ hp
  · obtain rfl := Option.some.inj e
    split
    · exact hu
    · simp [hu]

end Sys2Proof.Machine

end

section
set_option Elab.async false

/-! SUPPORT. Launches, scheduling, links, the clock and the scalar words keep the memory in its canonical form. O58. -/

namespace Sys2Proof.Machine

/-! ### Launch -/

/-- A signal's address, found, leaves memory alone. -/
theorem State.signalAt_mem {s t : State} {asid va entry : Nat} {rights : BitVec 4} {pas : List Nat}
    (e : s.signalAt asid va rights = .ok t pas entry) : t.mem = s.mem := by
  unfold State.signalAt at e
  have hg := s.grant_keeps none asid (va / 64 * 64) 64 rights
  split at e
  · cases e
  · cases e
  · cases e
  · rename_i eg
    rw [eg, Got.keeps_ok] at hg
    split at e
    · split at e
      · cases e; exact hg
      · cases e
    · cases e

@[simp] theorem State.signal_wf {s : State} (pas : List Nat) (set : Bool) (v : Word) (msg : List Msg) (h : Memory.wf s.mem = true) :
    Memory.wf (s.signal pas set v msg).mem = true := by
  have h0 : Memory.wf ((pas.map (· / 64)).eraseDups.foldl (fun t ln => t.pullLine ln) s).mem = true := foldl_wf (fun t ln ht => by simp [ht]) h
  have hp : ∀ p : State × Option (Nat × Nat), p = (if set then ((pas.map (· / 64)).eraseDups.foldl (fun t ln => t.pullLine ln) s, none)
      else ((pas.map (· / 64)).eraseDups.foldl (fun t ln => t.pullLine ln) s).findAll pas) → Memory.wf p.1.mem = true := by
    rintro _ rfl
    split <;> simp [h0]
  unfold State.signal
  dsimp only
  split <;> rename_i e
  · exact hp _ e.symm
  · exact State.homeWrite_wf _ _ _ (hp _ e.symm)

/-- Finding or building an image leaves the memory of `s` alone. -/
def Img.Keeps (s : State) : Img → Prop
  | .wait => True
  | .fail t _ | .ok t _ _ => t.mem = s.mem

theorem State.imageFor_keeps (s : State) (asid va len : Nat) : (s.imageFor asid va len).Keeps s := by
  have hg := s.grant_keeps none asid va (4096 * len) (rR ||| rX)
  unfold State.imageFor
  cases e : s.grant none asid va (4096 * len) (rR ||| rX) with
  | wait =>
    dsimp only
    repeat' split
    all_goals simp [Img.Keeps]
  | fail =>
    dsimp only
    repeat' split
    all_goals simp [Img.Keeps]
  | event t b =>
    rw [e, Got.keeps_event] at hg
    dsimp only
    repeat' split
    all_goals simp [Img.Keeps, hg]
  | ok t tok =>
    rw [e, Got.keeps_ok] at hg
    dsimp only
    repeat' split
    all_goals simp [Img.Keeps, hg]

theorem State.placeStatic_wf {s t : State} {l : Launch} {img : Token} (h : Memory.wf s.mem = true) (e : s.placeStatic l img = .ok t) :
    Memory.wf t.mem = true := by
  unfold State.placeStatic at e
  dsimp only at e
  split at e
  · cases e
  · rename_i v vas ef
    have hv : Memory.wf v.mem = true := by
      refine List.foldlRecOn (motive := fun o : Option (State × List (Nat × Nat)) => ∀ r, o = some r → Memory.wf r.1.mem = true) _ _
        (fun r er => by cases er; exact h) (fun o ho p _ r er => ?_) _ ef
      obtain ⟨a, ea, er⟩ := Option.bind_eq_some_iff.1 er
      have ha := ho a ea
      obtain ⟨-, er⟩ := Option.ite_none_left_eq_some.1 er
      split at er
      · cases er
      · obtain ⟨-, er⟩ := Option.ite_none_right_eq_some.1 er
        exact Option.some.inj er ▸ State.homeWrite_wf _ _ _ ha
    split at e
    · cases e
    · cases e; exact State.homeWrite_wf _ _ _ hv

/-- The state a list of translations leaves has the memory of `s`. -/
def Grants.Keeps (s : State) : Grants → Prop
  | .wait => True
  | .fail t | .ok t _ => t.mem = s.mem

theorem State.grants_keeps {s0 : State} (asid : Nat) (l : List (Nat × Nat × BitVec 4)) :
    ∀ (s : State) (acc : List Token), s.mem = s0.mem → (s.grants asid l acc).Keeps s0 := by
  induction l with
  | nil => exact fun s acc h => h
  | cons j l ih =>
    intro s acc h
    have hg := s.grant_keeps none asid j.1 j.2.1 j.2.2
    unfold State.grants
    split <;> rename_i e
    · trivial
    · exact h
    · rw [e, Got.keeps_event] at hg; exact hg.trans h
    · rw [e, Got.keeps_ok] at hg; exact ih _ _ (hg.trans h)

@[simp] theorem State.unbuild_mem (old : State) (new : State) : (old.unbuild new).mem = old.mem := by
  unfold State.unbuild
  exact foldl_mem fun t x => by simp

/-- What loading gives keeps the canonical form. -/
def Load.Keeps : Load → Prop
  | .wait => True
  | .reject t _ | .ok t _ => Memory.wf t.mem = true

theorem load_keeps_ite {p : Prop} [Decidable p] {a b : Load} (ha : a.Keeps) (hb : b.Keeps) : (if p then a else b).Keeps := by
  split
  · exact ha
  · exact hb

theorem State.load_keeps {s : State} (l0 : Launch) (h : Memory.wf s.mem = true) : (s.load l0).Keeps := by
  have hr : ∀ (t : State) (c : Nat), (Load.reject (s.unbuild t) c).Keeps := fun t c => by
    simpa [Load.Keeps] using h
  unfold State.load
  extract_lets img
  have hk : img.Keeps s := by
    dsimp only [img]
    split
    · split <;> rfl
    · exact State.imageFor_keeps _ _ _ _
  clear_value img
  split
  · exact h
  · split
    · trivial
    · exact hr _ _
    · rename_i s1 _ _
      have h1 : Memory.wf s1.mem = true := canonical_of_mem h hk
      dsimp only
      refine load_keeps_ite (hr _ _) (load_keeps_ite (hr _ _) (load_keeps_ite (hr _ _) (load_keeps_ite (hr _ _) ?_)))
      split <;> rename_i s2 e2
      · exact hr _ _
      · have h2 : Memory.wf s2.mem = true := by
          split at e2
          · exact State.placeStatic_wf h1 e2
          · cases e2; exact h1
        split
        · exact hr _ _
        · split <;> rename_i e3
          · exact hr _ _
          · trivial
          · rename_i s3 toks
            have h3 : ∀ a l, (s2.grants a l []).Keeps s2 := fun a l => State.grants_keeps a l s2 [] rfl
            exact foldl_wf (fun t p ht => by simp [ht]) (canonical_of_mem h2 (e3 ▸ h3 _ _ : (Grants.ok s3 toks).Keeps s2))

@[simp] theorem State.barWrite_mem (s : State) (off : Nat) (l : List Byte) : (s.barWrite off l).mem = s.mem := rfl

@[simp] theorem State.mailbox_mem (s : State) (c st result linst : Nat) : (s.mailbox c st result linst).mem = s.mem := by
  unfold State.mailbox
  exact State.barWrite_mem s _ _

@[simp] theorem State.setGraph_mem (s : State) (g : Nat) (v : Option Graph) : (s.setGraph g v).mem = s.mem := rfl

@[simp] theorem State.nodePut_wf {s : State} (g : Graph) (k off : Nat) (l : List Byte) (hm : Memory.wf s.mem = true) :
    Memory.wf (s.nodePut g k off l).mem = true := by
  simp [State.nodePut, hm]

@[simp] theorem State.sealNode_mem (s : State) (gn : Nat) (g : Graph) (k : Nat) : (s.sealNode gn g k).mem = s.mem := by
  unfold State.sealNode
  dsimp only
  repeat' split
  all_goals rfl

@[simp] theorem State.packetEnds_mem (s : State) (r pstat result linst type : Nat) : (s.packetEnds r pstat result linst type).mem = s.mem := rfl

@[simp] theorem State.packetCap_mem (s : State) (r f type : Nat) : (s.packetCap r f type).mem = s.mem := rfl

@[simp] theorem State.nodeDone_wf {s : State} (gn k result pane : Nat) (h : Memory.wf s.mem = true) :
    Memory.wf (s.nodeDone gn k result pane).mem = true := by
  unfold State.nodeDone
  split
  · exact h
  · rename_i g _
    have h0 : Memory.wf (s.nodePut g k 133 [BitVec.ofNat 8 result]).mem = true := by simp [h]
    extract_lets s0 nsucc s1
    have h1 : Memory.wf s1.mem = true := by
      dsimp only [s1]
      split
      · exact h0
      · refine foldl_wf (fun t i ht => ?_) h0
        split
        · split <;> simp [ht]
        · simp [ht]
    clear_value s1
    split
    · exact h1
    · split <;> simp [h1]

@[simp] theorem State.nodeEnds_mem (s : State) (source gn k result pane : Nat) : (s.nodeEnds source gn k result pane).mem = s.mem := rfl

@[simp] theorem State.handleNodes_wf {s : State} (hm : Memory.wf s.mem = true) :
    Memory.wf (s.handleNodes).mem = true := by
  unfold State.handleNodes
  exact foldl_wf (fun t x ht => by simp [ht]) hm

@[simp] theorem State.answer_wf {s : State} (l : Launch) (result linst : Nat) (hm : Memory.wf s.mem = true) :
    Memory.wf (s.answer l result linst).mem = true := by
  unfold State.answer
  dsimp only
  repeat' split
  all_goals simp [hm]

@[simp] theorem State.beginLoad_wf {s : State} (l : Launch) (h : Memory.wf s.mem = true) : Memory.wf (s.beginLoad l).mem = true := by
  have hl := State.load_keeps l h
  unfold State.beginLoad
  split
  · rename_i t _ e
    rw [e] at hl
    exact State.answer_wf _ _ _ hl
  · exact h

@[simp] theorem State.sealSlot_mem (s : State) (slot : Nat) (wilgor : Bool) : (s.sealSlot slot wilgor).mem = s.mem := by
  simp [State.sealSlot]

@[simp] theorem execLaunchSeal_keeps {s : State} (slot : Nat) (hm : Memory.wf s.mem = true) :
    KeepsMemory (execLaunchSeal slot s) := by
  unfold execLaunchSeal
  dsimp only
  repeat' split
  all_goals simp [hm]

@[simp] theorem State.initialPush_mem (s : State) (linst : Nat) : (s.initialPush linst).mem = s.mem := by
  unfold State.initialPush
  dsimp only
  repeat' split
  all_goals rfl

@[simp] theorem execInitialRecordPush_keeps {s : State} (linst : Nat) (hm : Memory.wf s.mem = true) :
    KeepsMemory (execInitialRecordPush linst s) := by
  simp [execInitialRecordPush, hm]

@[simp] theorem execLaunchRunning_keeps {s : State} (lid : Nat) (h : Memory.wf s.mem = true) : KeepsMemory (execLaunchRunning lid s) := by
  unfold execLaunchRunning
  split
  · simp [h]
  · rename_i l _
    have hl := State.load_keeps l h
    dsimp only
    split <;> rename_i e <;> rw [e] at hl
    · simp [h]
    · exact keeps_next.2 (State.answer_wf _ _ _ hl)
    · refine keeps_next.2 ?_
      have hw : ∀ n u, Memory.wf u.mem = true → Memory.wf ((State.answer u l 0 n).initialPush n).mem = true := fun n u hu => by
        simp [State.answer_wf l 0 n hu]
      split
      · exact State.resolve_wf _ (hw _ _ hl)
      · exact hw _ _ hl

@[simp] theorem State.retire_wf {s : State} (n : Nat) (h : Memory.wf s.mem = true) : Memory.wf (s.retire n).mem = true := by
  unfold State.retire
  simp only [State.setLaunch_mem, ite_mem, State.setUm_mem, ite_self, State.modAll_mem]
  rw [foldl_mem fun t q => State.setQ_mem t q {}]
  exact foldl_wf (fun t k ht => State.freeSave_wf k (by simp [ht])) h

@[simp] theorem State.launchDone_wf {s : State} (linst : Nat) (h : Memory.wf s.mem = true) : Memory.wf (s.launchDone linst).mem = true := by
  unfold State.launchDone
  extract_lets l result go va
  split
  · exact h
  · have hgo : ∀ t : State, Memory.wf t.mem = true → Memory.wf (go t).mem = true := fun t ht => by
      dsimp only [go]
      split <;> simp [ht]
    clear_value go
    split
    · exact hgo _ h
    · split <;> rename_i e
      · exact h
      · exact hgo _ h
      · exact hgo _ (State.signal_wf _ _ _ _ (canonical_of_mem h (State.signalAt_mem e)))

@[simp] theorem execLaunchDone_keeps {s : State} (linst : Nat) (hm : Memory.wf s.mem = true) :
    KeepsMemory (execLaunchDone linst s) := by
  simp [execLaunchDone, hm]

@[simp] theorem State.completions_wf {s : State} (n : Nat) (h : Memory.wf s.mem = true) : Memory.wf (s.completions n).mem = true :=
  foldl_wf (fun _ _ ht => foldl_wf (fun _ _ hu => State.launchDone_wf _ hu) ht) h

@[simp] theorem execBootDoor_keeps {s : State} (c : Nat) (hm : Memory.wf s.mem = true) :
    KeepsMemory (execBootDoor c s) := by
  unfold execBootDoor
  dsimp only
  repeat' split
  all_goals simp [hm]

/-! ### Sched -/

@[simp] theorem State.dropPop_mem (s : State) (c : Nat) : (s.dropPop c).mem = s.mem := rfl

@[simp] theorem State.choosePop_mem (s : State) (c : Nat) : (s.choosePop c).mem = s.mem := by
  unfold State.choosePop
  dsimp only
  repeat' split
  all_goals rfl

@[simp] theorem State.dispatch_mem (s : State) (c : Nat) : (s.dispatch c).mem = s.mem := by
  unfold State.dispatch
  dsimp only
  repeat' split
  all_goals simp

@[simp] theorem execTaskDispatch_keeps {s : State} (c : Nat) (hm : Memory.wf s.mem = true) :
    KeepsMemory (execTaskDispatch c s) := by
  simp [execTaskDispatch, hm]

@[simp] theorem State.deliverGroup_mem (s : State) (linst q : Nat) : (s.deliverGroup linst q).mem = s.mem := by
  unfold State.deliverGroup
  extract_lets l pair
  split
  · rfl
  · extract_lets rs t cs used old u
    have ht : t.mem = s.mem := by
      dsimp only [t]
      rw [foldl_mem fun t c => State.dropPop_mem t c]
      rfl
    have hu : u.mem = s.mem := ht
    clear_value t u
    split
    · exact ht
    · split
      · exact ht
      · rw [State.setLaunch_mem, foldl_mem fun t p => State.mod_mem t _ _, hu]

@[simp] theorem State.takeBack_mem (s : State) (key : Nat) : (s.takeBack key).mem = s.mem := rfl

@[simp] theorem State.groupDeliver_mem (s : State) (pane : Nat) : (s.groupDeliver pane).mem = s.mem := by
  unfold State.groupDeliver
  dsimp only
  split
  · rfl
  · rw [foldl_mem fun t n => foldl_mem fun u g => by split <;> simp, foldl_mem fun t n => foldl_mem fun u k => by simp]

@[simp] theorem execGroupDeliver_keeps {s : State} (pane : Nat) (hm : Memory.wf s.mem = true) :
    KeepsMemory (execGroupDeliver pane s) := by
  simp [execGroupDeliver, hm]

@[simp] theorem State.startTask_mem (s : State) (c : Nat) (r : Rec) (initial : Bool) (partner : Option Nat) :
    (s.startTask c r initial partner).mem = s.mem := by
  unfold State.startTask
  extract_lets l t keepV d s1 s2 p u v
  have hv : v.mem = s.mem := by
    have h2 : s2.mem = s.mem := by
      dsimp only [s2]
      rw [foldl_mem fun u p => State.holdBit_mem u _ c]
      exact State.mod_mem _ _ _
    have hu : u.mem = s.mem := (State.mod_mem _ _ _).trans ((State.arrives_mem _ _ _).trans h2)
    dsimp only [v]
    split
    · exact (State.upToNow_mem _ _ _).trans hu
    · exact hu
  clear_value v
  split
  · simp [hv]
  · exact hv

@[simp] theorem State.startBad_mem (s : State) (c : Nat) (bad : List (Nat × Nat)) : (s.startBad c bad).mem = s.mem := by
  simp [State.startBad]

theorem State.loadCode_mem {s t : State} {c n : Nat} (e : s.loadCode c n = some (some t)) : t.mem = s.mem := by
  unfold State.loadCode at e
  repeat' split at e
  all_goals cases e
  all_goals simp

@[simp] theorem State.urgentOver_mem (s : State) (c : Nat) : (s.urgentOver c).mem = s.mem := rfl

@[simp] theorem execTaskStart_keeps {s : State} (c : Nat) (h : Memory.wf s.mem = true) : KeepsMemory (execTaskStart c s) := by
  unfold execTaskStart
  dsimp only
  refine keeps_ite.2 ⟨fun _ => by simp [h], fun _ => ?_⟩
  split
  · simp [h]
  · refine keeps_ite.2 ⟨fun _ => by simp [h], fun _ => keeps_ite.2 ⟨fun _ => by simp [h], fun _ => ?_⟩⟩
    split <;> rename_i e
    · simp [h]
    · simp [h]
    · simp [State.loadCode_mem e, h]
  · refine keeps_ite.2 ⟨fun _ => by simp [h], fun _ => ?_⟩
    split <;> rename_i e
    · simp [h]
    · simp [h]
    · rename_i t
      have ht : Memory.wf (t.urgentOver c).mem = true := by simp [State.loadCode_mem e, h]
      split
      · rename_i er
        exact keeps_next.2 (State.resumeSaved_wf ht er)
      · simp [h]

@[simp] theorem State.urgentStop_mem (s : State) (qn : Nat) : (s.urgentStop qn).mem = s.mem := by
  unfold State.urgentStop
  dsimp only
  repeat' split
  all_goals rfl

@[simp] theorem execUrgentStop_keeps {s : State} (pane slot : Nat) (hm : Memory.wf s.mem = true) :
    KeepsMemory (execUrgentStop pane slot s) := by
  simp [execUrgentStop, hm]

@[simp] theorem State.gafferSample_mem (s : State) (linst : Nat) : (s.gafferSample linst).mem = s.mem := by
  simp [State.gafferSample]

@[simp] theorem execGafferSample_keeps {s : State} (linst : Nat) (hm : Memory.wf s.mem = true) :
    KeepsMemory (execGafferSample linst s) := by
  simp [execGafferSample, hm]

@[simp] theorem State.gafferMove_mem (s : State) (c : Nat) : (s.gafferMove c).mem = s.mem := by
  unfold State.gafferMove
  split
  · split <;> simp
  · rfl

@[simp] theorem execGafferMove_keeps {s : State} (c : Nat) (hm : Memory.wf s.mem = true) :
    KeepsMemory (execGafferMove c s) := by
  simp [execGafferMove, hm]

@[simp] theorem execIterboundBreach_keeps {s : State} (c : Nat) (hm : Memory.wf s.mem = true) :
    KeepsMemory (execIterboundBreach c s) := by
  simp [execIterboundBreach, hm]

@[simp] theorem execForcedPublish_keeps {s : State} (c line scope : Nat) (hm : Memory.wf s.mem = true) :
    KeepsMemory (execForcedPublish c line scope s) := by
  unfold execForcedPublish
  dsimp only
  repeat' split
  all_goals simp [hm]

/-! ### Links -/

@[simp] theorem State.rerouted_mem (s : State)  : (s.rerouted).mem = s.mem := by
  simp [State.rerouted]

@[simp] theorem execLinkTrain_keeps {s : State} (link : Nat) (cxl : Bool) (hm : Memory.wf s.mem = true) :
    KeepsMemory (execLinkTrain link cxl s) := by
  simp [execLinkTrain, hm]

@[simp] theorem execHostLinkDown_keeps {s : State} (link : Nat) (hm : Memory.wf s.mem = true) :
    KeepsMemory (execHostLinkDown link s) := by
  simp [execHostLinkDown, hm]

@[simp] theorem execThermalTrip_keeps {s : State} (pane : Nat) (hm : Memory.wf s.mem = true) :
    KeepsMemory (execThermalTrip pane s) := by
  simp [execThermalTrip, hm]

@[simp] theorem execHostHdmWrite_keeps {s : State} (off : Nat) (bytes : List Byte) (h : Memory.wf s.mem = true) :
    KeepsMemory (execHostHdmWrite off bytes s) := by
  unfold execHostHdmWrite
  dsimp only
  refine keeps_ite.2 ⟨fun _ => by simp [h], fun _ => keeps_next.2 ?_⟩
  have hf : ∀ (l : List Nat) (w : Sparse Byte), Memory.wf (l.foldl (fun (u : State) n => u.sealSlot n false)
      { s with io := { s.io with window := w } }).mem = true := fun l w => foldl_wf (fun t n ht => by simp [ht]) h
  simp [hf]

@[simp] theorem execHostHdmRead_keeps {s : State} (off n : Nat) (hm : Memory.wf s.mem = true) :
    KeepsMemory (execHostHdmRead off n s) := by
  simp [execHostHdmRead, hm]

@[simp] theorem State.ringFault_mem (s : State) (r code : Nat) : (s.ringFault r code).mem = s.mem := rfl

@[simp] theorem execRingEnable_keeps {s : State} (r : Nat) (h : Memory.wf s.mem = true) : KeepsMemory (execRingEnable r s) := by
  unfold execRingEnable
  dsimp only
  refine keeps_ite.2 ⟨fun _ => by simp [h], fun _ => keeps_ite.2 ⟨fun _ => by simp [h], fun _ => keeps_ite.2 ⟨fun _ => by simp [h], fun _ => ?_⟩⟩⟩
  split <;> rename_i e
  · simp [h]
  · simp [h]
  · simp [State.grant_event_wf h e]
  · simp [State.grant_ok_wf h e]

@[simp] theorem execRingDisable_keeps {s : State} (r : Nat) (hm : Memory.wf s.mem = true) :
    KeepsMemory (execRingDisable r s) := by
  simp [execRingDisable, hm]

@[simp] theorem State.pollRing_mem (s : State) (r : Nat) : (s.pollRing r).mem = s.mem := by
  simp [State.pollRing]

@[simp] theorem execPacketFetch_keeps {s : State} (r : Nat) (h : Memory.wf s.mem = true) : KeepsMemory (execPacketFetch r s) := by
  unfold execPacketFetch
  dsimp only
  refine keeps_ite.2 ⟨fun _ => by simp [h], fun _ => ?_⟩
  split
  · simp [h]
  · simp [h]
  · refine keeps_ite.2 ⟨fun _ => by simp [h], fun _ => ?_⟩
    split <;> rename_i e <;> have hu := State.findAll_wf (by simpa using h) e
    · simp [hu]
    · split <;> simp [hu]

@[simp] theorem execRingPoll_keeps {s : State} (r : Nat) (hm : Memory.wf s.mem = true) :
    KeepsMemory (execRingPoll r s) := by
  simp [execRingPoll, hm]

@[simp] theorem execRingUnpark_keeps {s : State} (r : Nat) (hm : Memory.wf s.mem = true) :
    KeepsMemory (execRingUnpark r s) := by
  unfold execRingUnpark
  dsimp only
  repeat' split
  all_goals simp [hm]

@[simp] theorem State.parkRing_mem (s : State) (r : Nat) (w : Option (Nat × Word)) (met : Bool) (entry : Nat) :
    (s.parkRing r w met entry).mem = s.mem := rfl

@[simp] theorem State.parkOrWait_mem (s : State) (r : Nat) : (s.parkOrWait r).mem = s.mem := by
  simp [State.parkOrWait]

@[simp] theorem execGraphPacket_keeps {s : State} (r : Nat) (va : BitVec 48) (h : Memory.wf s.mem = true) :
    KeepsMemory (execGraphPacket r va s) := by
  unfold execGraphPacket
  refine keeps_ite.2 ⟨fun _ => by simp [h], fun _ => keeps_ite.2 ⟨fun _ => by simp [h], fun _ => ?_⟩⟩
  split
  · simp [h]
  · extract_lets nn
    split <;> rename_i e
    · simp [h]
    · simp [h]
    · simp [State.grant_event_wf h e]
    · have ht := State.grant_ok_wf h e
      extract_lets g gn t1 d t2 t3 q
      have h1 : Memory.wf t1.mem = true := foldl_wf (fun u k hu => by simp [hu]) ht
      have h2 : Memory.wf t2.mem = true := h1
      have h3 : Memory.wf t3.mem = true := foldl_wf (fun u k hu => by simp [hu]) h2
      clear_value t3
      exact keeps_ite.2 ⟨fun _ => by simp [ht], fun _ => by simp [h3]⟩

@[simp] theorem execNopPacket_keeps {s : State} (r : Nat) (hm : Memory.wf s.mem = true) :
    KeepsMemory (execNopPacket r s) := by
  simp [execNopPacket, hm]

@[simp] theorem execLaunchPacket_keeps {s : State} (r : Nat) (rec : List Word) (hm : Memory.wf s.mem = true) :
    KeepsMemory (execLaunchPacket r rec s) := by
  unfold execLaunchPacket
  dsimp only
  repeat' split
  all_goals simp [hm]

@[simp] theorem execWaitPacket_keeps {s : State} (r : Nat) (va : BitVec 48) (target : Word) (h : Memory.wf s.mem = true) :
    KeepsMemory (execWaitPacket r va target s) := by
  unfold execWaitPacket
  dsimp only
  refine keeps_ite.2 ⟨fun _ => by simp [h], fun _ => keeps_ite.2 ⟨fun _ => by simp [h], fun _ => ?_⟩⟩
  split
  · simp [h]
  · simp [h]
  · rename_i e
    split <;> rename_i ef <;> have hu := State.findAll_wf (canonical_of_mem h (State.signalAt_mem e)) ef
    · simp [hu]
    · simp [hu]

@[simp] theorem execSignalPacket_keeps {s : State} (r : Nat) (set fence : Bool) (va : BitVec 48) (value : Word) (h : Memory.wf s.mem = true) :
    KeepsMemory (execSignalPacket r set fence va value s) := by
  unfold execSignalPacket
  dsimp only
  refine keeps_ite.2 ⟨fun _ => by simp [h], fun _ => keeps_ite.2 ⟨fun _ => by simp [h], fun _ => ?_⟩⟩
  split
  · simp [h]
  · simp [h]
  · rename_i e
    simp [h, State.signalAt_mem e]

/-- The state the forward extents leave has the memory of `s`. -/
theorem State.forwards_mem {s0 t : State} {va nv : Nat} {r : List (Nat × Nat)} (l : List (Nat × PEntry)) :
    ∀ (s : State) (acc : List (Nat × Nat)), s.mem = s0.mem → s.forwards va nv l acc = .ok t r → t.mem = s0.mem := by
  induction l with
  | nil => exact fun s acc h e => by cases e; exact h
  | cons j l ih =>
    intro s acc h e
    have hg := s.grant_keeps none j.2.asid (j.2.vbase - va + nv) j.2.len j.2.rights
    unfold State.forwards at e
    split at e <;> rename_i eg
    · cases e
    · cases e
    · cases e
    · rw [eg, Got.keeps_ok] at hg
      exact ih _ _ (hg.trans h) e

@[simp] theorem execRevokePacket_keeps {s : State} (r : Nat) (mv : Bool) (va : BitVec 48) (len : Nat) (newva : BitVec 48)
    (h : Memory.wf s.mem = true) : KeepsMemory (execRevokePacket r mv va len newva s) := by
  unfold execRevokePacket
  extract_lets v es start
  have hs : ∀ (t : State) (l : List (Nat × Nat)), Memory.wf t.mem = true → Memory.wf (start t l).mem = true := fun t l ht => by
    dsimp only [start]
    rw [State.setRing_mem]
    exact foldl_wf (fun u p hu => by simp [hu]) (by simp [ht])
  clear_value start
  refine keeps_ite.2 ⟨fun _ => by simp [h], fun _ => keeps_ite.2 ⟨fun _ => by simp [h], fun _ => ?_⟩⟩
  split
  · simp [h]
  · refine keeps_ite.2 ⟨fun _ => by simp [hs, h], fun _ => keeps_ite.2 ⟨fun _ => by simp [h], fun _ => ?_⟩⟩
    split <;> rename_i e
    · simp [h]
    · simp [h]
    · rename_i t _
      have ht : Memory.wf t.mem = true := canonical_of_mem h (State.forwards_mem _ s _ rfl e)
      simp [hs, ht, h]

@[simp] theorem State.showHead_mem (s : State) (e : JEntry) : (s.showHead e).mem = s.mem := by
  simp [State.showHead]

@[simp] theorem execJournalAppend_keeps {s : State} (hm : Memory.wf s.mem = true) :
    KeepsMemory (execJournalAppend s) := by
  unfold execJournalAppend
  dsimp only
  repeat' split
  all_goals simp [hm]

@[simp] theorem execBaromFlit_keeps {s : State} (link : Nat) (flit : List Byte) (hm : Memory.wf s.mem = true) :
    KeepsMemory (execBaromFlit link flit s) := by
  simp [execBaromFlit, hm]

@[simp] theorem State.sendFlit_mem (s : State) (link : Nat) (slots : List Byte) : (s.sendFlit link slots).mem = s.mem := by
  simp [State.sendFlit]

@[simp] theorem State.replayFlits_mem (s : State) (link : Nat) : (s.replayFlits link).mem = s.mem := by
  simp [State.replayFlits]

/-! ### Clock -/

@[simp] theorem State.queueClock_wf {s : State} (qn : Nat) (hm : Memory.wf s.mem = true) :
    Memory.wf (s.queueClock qn).mem = true := by
  simp [State.queueClock, hm]

@[simp] theorem State.opening_wf {s : State} (h : Memory.wf s.mem = true) : Memory.wf s.opening.mem = true := by
  unfold State.opening
  refine foldl_wf (fun t r ht => by simp [ht]) (foldl_wf (fun t n ht => by simp [ht]) (foldl_wf (fun t q ht => by simp [ht])
    (foldl_wf (fun t p ht => foldl_wf (fun u d hu => getD_wf hu fun v e => State.pushDue_wf p d hu e) ht)
      (foldl_wf (fun t n ht => by simp [ht]) (by simp [h])))))

@[simp] theorem State.closing_wf {s : State} (h : Memory.wf s.mem = true) : Memory.wf s.closing.mem = true := by
  unfold State.closing
  exact foldl_wf (fun t q ht => by simp [ht]) (foldl_wf (fun t c ht => by simp [ht]) (foldl_wf (fun t c ht => by simp [ht])
    (foldl_wf (fun t p ht => by simp [ht]) (by simp [h]))))

@[simp] theorem State.clockEnds_mem (s : State)  : (s.clockEnds).mem = s.mem := rfl

@[simp] theorem State.passClock_wf {s : State} (hm : Memory.wf s.mem = true) :
    Memory.wf (s.passClock).mem = true := by
  simp [State.passClock, hm]

theorem State.passClocks_wf (n : Nat) : ∀ s : State, Memory.wf s.mem = true → Memory.wf (State.passClocks n s).mem = true := by
  induction n with
  | zero => exact fun s h => h
  | succ n ih => exact fun s h => ih _ (State.passClock_wf h)

/-! ### Alu -/

@[simp] theorem aluReg_keeps {s : State} (i : Instr) (o : AluR) (f : Word → Word → Word) (hm : Memory.wf s.mem = true) :
    KeepsMemory (aluReg i o f s) := by
  simp +contextual [aluReg, hm, issue_keeps]

@[simp] theorem aluOne_keeps {s : State} (i : Instr) (o : AluR) (f : Word → Word) (hm : Memory.wf s.mem = true) :
    KeepsMemory (aluOne i o f s) := by
  simp +contextual [aluOne, hm, issue_keeps]

@[simp] theorem aluImm_keeps {s : State} (i : Instr) (o : AluI) (f : Word → Word → Word) (hm : Memory.wf s.mem = true) :
    KeepsMemory (aluImm i o f s) := by
  simp +contextual [aluImm, hm, issue_keeps]

@[simp] theorem execAdd_keeps {s : State} (o : AluR) (hm : Memory.wf s.mem = true) :
    KeepsMemory (execAdd o s) := by
  simp [execAdd, hm]

@[simp] theorem execAddImmediate_keeps {s : State} (o : AluI) (hm : Memory.wf s.mem = true) :
    KeepsMemory (execAddImmediate o s) := by
  simp [execAddImmediate, hm]

@[simp] theorem execSub_keeps {s : State} (o : AluR) (hm : Memory.wf s.mem = true) :
    KeepsMemory (execSub o s) := by
  simp [execSub, hm]

@[simp] theorem execSubImmediate_keeps {s : State} (o : AluI) (hm : Memory.wf s.mem = true) :
    KeepsMemory (execSubImmediate o s) := by
  simp [execSubImmediate, hm]

@[simp] theorem execMul_keeps {s : State} (o : AluR) (hm : Memory.wf s.mem = true) :
    KeepsMemory (execMul o s) := by
  simp [execMul, hm]

@[simp] theorem execMulImmediate_keeps {s : State} (o : AluI) (hm : Memory.wf s.mem = true) :
    KeepsMemory (execMulImmediate o s) := by
  simp [execMulImmediate, hm]

@[simp] theorem execMulhS_keeps {s : State} (o : AluR) (hm : Memory.wf s.mem = true) :
    KeepsMemory (execMulhS o s) := by
  simp [execMulhS, hm]

@[simp] theorem execMulhSImmediate_keeps {s : State} (o : AluI) (hm : Memory.wf s.mem = true) :
    KeepsMemory (execMulhSImmediate o s) := by
  simp [execMulhSImmediate, hm]

@[simp] theorem execMulhN_keeps {s : State} (o : AluR) (hm : Memory.wf s.mem = true) :
    KeepsMemory (execMulhN o s) := by
  simp [execMulhN, hm]

@[simp] theorem execMulhNImmediate_keeps {s : State} (o : AluI) (hm : Memory.wf s.mem = true) :
    KeepsMemory (execMulhNImmediate o s) := by
  simp [execMulhNImmediate, hm]

@[simp] theorem execDivS_keeps {s : State} (o : AluR) (hm : Memory.wf s.mem = true) :
    KeepsMemory (execDivS o s) := by
  simp [execDivS, hm]

@[simp] theorem execDivSImmediate_keeps {s : State} (o : AluI) (hm : Memory.wf s.mem = true) :
    KeepsMemory (execDivSImmediate o s) := by
  simp [execDivSImmediate, hm]

@[simp] theorem execDivN_keeps {s : State} (o : AluR) (hm : Memory.wf s.mem = true) :
    KeepsMemory (execDivN o s) := by
  simp [execDivN, hm]

@[simp] theorem execDivNImmediate_keeps {s : State} (o : AluI) (hm : Memory.wf s.mem = true) :
    KeepsMemory (execDivNImmediate o s) := by
  simp [execDivNImmediate, hm]

@[simp] theorem execRemS_keeps {s : State} (o : AluR) (hm : Memory.wf s.mem = true) :
    KeepsMemory (execRemS o s) := by
  simp [execRemS, hm]

@[simp] theorem execRemSImmediate_keeps {s : State} (o : AluI) (hm : Memory.wf s.mem = true) :
    KeepsMemory (execRemSImmediate o s) := by
  simp [execRemSImmediate, hm]

@[simp] theorem execRemN_keeps {s : State} (o : AluR) (hm : Memory.wf s.mem = true) :
    KeepsMemory (execRemN o s) := by
  simp [execRemN, hm]

@[simp] theorem execRemNImmediate_keeps {s : State} (o : AluI) (hm : Memory.wf s.mem = true) :
    KeepsMemory (execRemNImmediate o s) := by
  simp [execRemNImmediate, hm]

@[simp] theorem execAnd_keeps {s : State} (o : AluR) (hm : Memory.wf s.mem = true) :
    KeepsMemory (execAnd o s) := by
  simp [execAnd, hm]

@[simp] theorem execAndImmediate_keeps {s : State} (o : AluI) (hm : Memory.wf s.mem = true) :
    KeepsMemory (execAndImmediate o s) := by
  simp [execAndImmediate, hm]

@[simp] theorem execOr_keeps {s : State} (o : AluR) (hm : Memory.wf s.mem = true) :
    KeepsMemory (execOr o s) := by
  simp [execOr, hm]

@[simp] theorem execOrImmediate_keeps {s : State} (o : AluI) (hm : Memory.wf s.mem = true) :
    KeepsMemory (execOrImmediate o s) := by
  simp [execOrImmediate, hm]

@[simp] theorem execXor_keeps {s : State} (o : AluR) (hm : Memory.wf s.mem = true) :
    KeepsMemory (execXor o s) := by
  simp [execXor, hm]

@[simp] theorem execXorImmediate_keeps {s : State} (o : AluI) (hm : Memory.wf s.mem = true) :
    KeepsMemory (execXorImmediate o s) := by
  simp [execXorImmediate, hm]

@[simp] theorem execAndn_keeps {s : State} (o : AluR) (hm : Memory.wf s.mem = true) :
    KeepsMemory (execAndn o s) := by
  simp [execAndn, hm]

@[simp] theorem execAndnImmediate_keeps {s : State} (o : AluI) (hm : Memory.wf s.mem = true) :
    KeepsMemory (execAndnImmediate o s) := by
  simp [execAndnImmediate, hm]

@[simp] theorem execShl_keeps {s : State} (o : AluR) (hm : Memory.wf s.mem = true) :
    KeepsMemory (execShl o s) := by
  simp [execShl, hm]

@[simp] theorem execShlImmediate_keeps {s : State} (o : AluI) (hm : Memory.wf s.mem = true) :
    KeepsMemory (execShlImmediate o s) := by
  simp [execShlImmediate, hm]

@[simp] theorem execShrS_keeps {s : State} (o : AluR) (hm : Memory.wf s.mem = true) :
    KeepsMemory (execShrS o s) := by
  simp [execShrS, hm]

@[simp] theorem execShrSImmediate_keeps {s : State} (o : AluI) (hm : Memory.wf s.mem = true) :
    KeepsMemory (execShrSImmediate o s) := by
  simp [execShrSImmediate, hm]

@[simp] theorem execShrN_keeps {s : State} (o : AluR) (hm : Memory.wf s.mem = true) :
    KeepsMemory (execShrN o s) := by
  simp [execShrN, hm]

@[simp] theorem execShrNImmediate_keeps {s : State} (o : AluI) (hm : Memory.wf s.mem = true) :
    KeepsMemory (execShrNImmediate o s) := by
  simp [execShrNImmediate, hm]

@[simp] theorem execRot_keeps {s : State} (o : AluR) (hm : Memory.wf s.mem = true) :
    KeepsMemory (execRot o s) := by
  simp [execRot, hm]

@[simp] theorem execRotImmediate_keeps {s : State} (o : AluI) (hm : Memory.wf s.mem = true) :
    KeepsMemory (execRotImmediate o s) := by
  simp [execRotImmediate, hm]

@[simp] theorem execMinS_keeps {s : State} (o : AluR) (hm : Memory.wf s.mem = true) :
    KeepsMemory (execMinS o s) := by
  simp [execMinS, hm]

@[simp] theorem execMinSImmediate_keeps {s : State} (o : AluI) (hm : Memory.wf s.mem = true) :
    KeepsMemory (execMinSImmediate o s) := by
  simp [execMinSImmediate, hm]

@[simp] theorem execMinN_keeps {s : State} (o : AluR) (hm : Memory.wf s.mem = true) :
    KeepsMemory (execMinN o s) := by
  simp [execMinN, hm]

@[simp] theorem execMinNImmediate_keeps {s : State} (o : AluI) (hm : Memory.wf s.mem = true) :
    KeepsMemory (execMinNImmediate o s) := by
  simp [execMinNImmediate, hm]

@[simp] theorem execMaxS_keeps {s : State} (o : AluR) (hm : Memory.wf s.mem = true) :
    KeepsMemory (execMaxS o s) := by
  simp [execMaxS, hm]

@[simp] theorem execMaxSImmediate_keeps {s : State} (o : AluI) (hm : Memory.wf s.mem = true) :
    KeepsMemory (execMaxSImmediate o s) := by
  simp [execMaxSImmediate, hm]

@[simp] theorem execMaxN_keeps {s : State} (o : AluR) (hm : Memory.wf s.mem = true) :
    KeepsMemory (execMaxN o s) := by
  simp [execMaxN, hm]

@[simp] theorem execMaxNImmediate_keeps {s : State} (o : AluI) (hm : Memory.wf s.mem = true) :
    KeepsMemory (execMaxNImmediate o s) := by
  simp [execMaxNImmediate, hm]

@[simp] theorem execSext_keeps {s : State} (o : AluR) (hm : Memory.wf s.mem = true) :
    KeepsMemory (execSext o s) := by
  simp [execSext, hm]

@[simp] theorem execSextImmediate_keeps {s : State} (o : AluI) (hm : Memory.wf s.mem = true) :
    KeepsMemory (execSextImmediate o s) := by
  simp [execSextImmediate, hm]

@[simp] theorem execZext_keeps {s : State} (o : AluR) (hm : Memory.wf s.mem = true) :
    KeepsMemory (execZext o s) := by
  simp [execZext, hm]

@[simp] theorem execZextImmediate_keeps {s : State} (o : AluI) (hm : Memory.wf s.mem = true) :
    KeepsMemory (execZextImmediate o s) := by
  simp [execZextImmediate, hm]

@[simp] theorem execClz_keeps {s : State} (o : AluR) (hm : Memory.wf s.mem = true) :
    KeepsMemory (execClz o s) := by
  simp [execClz, hm]

@[simp] theorem execPopc_keeps {s : State} (o : AluR) (hm : Memory.wf s.mem = true) :
    KeepsMemory (execPopc o s) := by
  simp [execPopc, hm]

@[simp] theorem execMov_keeps {s : State} (o : AluR) (hm : Memory.wf s.mem = true) :
    KeepsMemory (execMov o s) := by
  simp [execMov, hm]

@[simp] theorem execSel_keeps {s : State} (o : AluR) (hm : Memory.wf s.mem = true) :
    KeepsMemory (execSel o s) := by
  simp +contextual [execSel, hm, issue_keeps]

@[simp] theorem execBfx_keeps {s : State} (o : AluR) (hm : Memory.wf s.mem = true) :
    KeepsMemory (execBfx o s) := by
  simp +contextual [execBfx, hm, issue_keeps]

@[simp] theorem execBfxImmediate_keeps {s : State} (o : AluI) (hm : Memory.wf s.mem = true) :
    KeepsMemory (execBfxImmediate o s) := by
  simp +contextual [execBfxImmediate, hm, issue_keeps]

@[simp] theorem execBfi_keeps {s : State} (o : AluR) (hm : Memory.wf s.mem = true) :
    KeepsMemory (execBfi o s) := by
  simp +contextual [execBfi, hm, issue_keeps]

@[simp] theorem execBfiImmediate_keeps {s : State} (o : AluI) (hm : Memory.wf s.mem = true) :
    KeepsMemory (execBfiImmediate o s) := by
  simp +contextual [execBfiImmediate, hm, issue_keeps]

/-! ### Atomic -/

@[simp] theorem amoIssue_keeps {s : State} (i : Instr) (op : Nat) (f : AmoF) (hm : Memory.wf s.mem = true) :
    KeepsMemory (amoIssue i op f s) := by
  simp +contextual [amoIssue, hm, issue_keeps]

@[simp] theorem execAmoAdd_keeps {s : State} (f : AmoF) (hm : Memory.wf s.mem = true) :
    KeepsMemory (execAmoAdd f s) := by
  simp [execAmoAdd, hm]

@[simp] theorem execAmoAnd_keeps {s : State} (f : AmoF) (hm : Memory.wf s.mem = true) :
    KeepsMemory (execAmoAnd f s) := by
  simp [execAmoAnd, hm]

@[simp] theorem execAmoOr_keeps {s : State} (f : AmoF) (hm : Memory.wf s.mem = true) :
    KeepsMemory (execAmoOr f s) := by
  simp [execAmoOr, hm]

@[simp] theorem execAmoXor_keeps {s : State} (f : AmoF) (hm : Memory.wf s.mem = true) :
    KeepsMemory (execAmoXor f s) := by
  simp [execAmoXor, hm]

@[simp] theorem execAmoMinS_keeps {s : State} (f : AmoF) (hm : Memory.wf s.mem = true) :
    KeepsMemory (execAmoMinS f s) := by
  simp [execAmoMinS, hm]

@[simp] theorem execAmoMaxS_keeps {s : State} (f : AmoF) (hm : Memory.wf s.mem = true) :
    KeepsMemory (execAmoMaxS f s) := by
  simp [execAmoMaxS, hm]

@[simp] theorem execAmoMinN_keeps {s : State} (f : AmoF) (hm : Memory.wf s.mem = true) :
    KeepsMemory (execAmoMinN f s) := by
  simp [execAmoMinN, hm]

@[simp] theorem execAmoMaxN_keeps {s : State} (f : AmoF) (hm : Memory.wf s.mem = true) :
    KeepsMemory (execAmoMaxN f s) := by
  simp [execAmoMaxN, hm]

@[simp] theorem execAmoSwap_keeps {s : State} (f : AmoF) (hm : Memory.wf s.mem = true) :
    KeepsMemory (execAmoSwap f s) := by
  simp [execAmoSwap, hm]

@[simp] theorem execAmoCas_keeps {s : State} (f : AmoF) (hm : Memory.wf s.mem = true) :
    KeepsMemory (execAmoCas f s) := by
  simp [execAmoCas, hm]

@[simp] theorem execAmoFmaxF32_keeps {s : State} (f : AmoF) (hm : Memory.wf s.mem = true) :
    KeepsMemory (execAmoFmaxF32 f s) := by
  simp [execAmoFmaxF32, hm]

@[simp] theorem execAmoAmaxRr_keeps {s : State} (f : AmoF) (hm : Memory.wf s.mem = true) :
    KeepsMemory (execAmoAmaxRr f s) := by
  simp [execAmoAmaxRr, hm]

@[simp] theorem execAmoReply_keeps {s : State} (c id : Nat) (h : Memory.wf s.mem = true) : KeepsMemory (execAmoReply c id s) := by
  unfold execAmoReply
  have hr := fun p => State.ready_keeps c id p h
  split
  · rename_i t e
    exact keeps_next.2 (e ▸ hr _ : (Ready.no t).Keeps)
  · rename_i t a e
    exact keeps_next.2 (e ▸ hr _ : (Ready.failed t a).Keeps)
  · rename_i t a e
    have ht : Memory.wf t.mem = true := (e ▸ hr _ : (Ready.yes t a).Keeps)
    refine keeps_ite.2 ⟨fun _ => by simp [ht], fun _ => keeps_ite.2 ⟨fun _ => by simp [ht], fun _ => ?_⟩⟩
    split <;> rename_i e
    · simp [fst_wf (State.rmw_wf c a ht) e]
    · simp [fst_wf (State.rmw_wf c a ht) e]

/-! ### BaseDie -/

@[simp] theorem baseDie_keeps {s : State} (pane : Nat) (h : BdHead) (op : Nat) (mask : Word) (data : List Byte) (hm : Memory.wf s.mem = true) :
    KeepsMemory (baseDie pane h op mask data s) := by
  simp [baseDie, hm]

@[simp] theorem execRd_keeps {s : State} (pane : Nat) (h : BdHead) (hm : Memory.wf s.mem = true) :
    KeepsMemory (execRd pane h s) := by
  simp [execRd, hm]

@[simp] theorem execWr_keeps {s : State} (pane : Nat) (h : BdHead) (data : List Byte) (hm : Memory.wf s.mem = true) :
    KeepsMemory (execWr pane h data s) := by
  simp [execWr, hm]

@[simp] theorem execWrm_keeps {s : State} (pane : Nat) (h : BdHead) (mask : Word) (data : List Byte) (hm : Memory.wf s.mem = true) :
    KeepsMemory (execWrm pane h mask data s) := by
  simp [execWrm, hm]

@[simp] theorem execReservedOp_keeps {s : State} (pane : Nat) (h : BdHead) (hm : Memory.wf s.mem = true) :
    KeepsMemory (execReservedOp pane h s) := by
  simp [execReservedOp, hm]

@[simp] theorem State.dieRead_mem (s : State) (g : Nat) : (s.dieRead g).1.mem = s.mem := by
  simp [State.dieRead]

@[simp] theorem State.dieReads_mem (s : State) (gs : List Nat) : (s.dieReads gs).1.mem = s.mem :=
  List.foldlRecOn (motive := fun a : State × Nat => a.1.mem = s.mem) gs _ rfl fun a h g _ => by simp [h]

@[simp] theorem State.replied_mem (s : State) (pane p : Nat) (r : BdReq) (st : Nat) (data : List Byte) :
    (s.replied pane p r st data).mem = s.mem := rfl

@[simp] theorem execDataReply_keeps {s : State} (pane port tag : Nat) (hm : Memory.wf s.mem = true) :
    KeepsMemory (execDataReply pane port tag s) := by
  unfold execDataReply
  dsimp only
  repeat' split
  all_goals simp [hm]

@[simp] theorem execAcknowledgement_keeps {s : State} (pane port tag : Nat) (hm : Memory.wf s.mem = true) :
    KeepsMemory (execAcknowledgement pane port tag s) := by
  unfold execAcknowledgement
  dsimp only
  repeat' split
  all_goals simp [hm]

/-! ### Fence -/

@[simp] theorem fenceWork_wf {s : State} (scope : Nat) (hm : Memory.wf s.mem = true) :
    Memory.wf (fenceWork scope s).mem = true := by
  simp [fenceWork, hm]

@[simp] theorem fenceAcquires_mem (s : State) (u : Bool) (scope : Nat) : (fenceAcquires u scope s).mem = s.mem := rfl

@[simp] theorem fenceReleases_mem (s : State) (u : Bool) (scope n : Nat) : (fenceReleases u scope n s).mem = s.mem := rfl

@[simp] theorem fenceOrders_mem (s : State) (u : Bool) (scope n : Nat) : (fenceOrders u scope n s).mem = s.mem := by
  simp [fenceOrders]

@[simp] theorem execFenceAcq_keeps {s : State} (u : Bool) (scope : Nat) (hm : Memory.wf s.mem = true) :
    KeepsMemory (execFenceAcq u scope s) := by
  simp +contextual [execFenceAcq, hm, drainWord_keeps]

@[simp] theorem execFenceRel_keeps {s : State} (u : Bool) (scope : Nat) (hm : Memory.wf s.mem = true) :
    KeepsMemory (execFenceRel u scope s) := by
  simp +contextual [execFenceRel, hm, drainWord_keeps]

@[simp] theorem execFenceAr_keeps {s : State} (u : Bool) (scope : Nat) (hm : Memory.wf s.mem = true) :
    KeepsMemory (execFenceAr u scope s) := by
  simp +contextual [execFenceAr, hm, drainWord_keeps]

@[simp] theorem execFenceSc_keeps {s : State} (u : Bool) (scope : Nat) (hm : Memory.wf s.mem = true) :
    KeepsMemory (execFenceSc u scope s) := by
  simp +contextual [execFenceSc, hm, drainWord_keeps]

/-! ### Sys -/

@[simp] theorem execNop_keeps {s : State} (hm : Memory.wf s.mem = true) :
    KeepsMemory (execNop s) := by
  simp +contextual [execNop, hm, issue_keeps]

@[simp] theorem execEndTask_keeps {s : State} (hm : Memory.wf s.mem = true) :
    KeepsMemory (execEndTask s) := by
  simp +contextual [execEndTask, hm, issue_keeps]

@[simp] theorem execYield_keeps {s : State} (hm : Memory.wf s.mem = true) :
    KeepsMemory (execYield s) := by
  simp +contextual [execYield, hm, issue_keeps]

@[simp] theorem execTrap_keeps {s : State} (code : BitVec 16) (hm : Memory.wf s.mem = true) :
    KeepsMemory (execTrap code s) := by
  simp +contextual [execTrap, hm, issue_keeps]

@[simp] theorem execCsrr_keeps {s : State} (d csr : Nat) (hm : Memory.wf s.mem = true) :
    KeepsMemory (execCsrr d csr s) := by
  simp +contextual [execCsrr, hm, issue_keeps]

@[simp] theorem execCsrw_keeps {s : State} (a : Nat) (fea : Bool) (csr : Nat) (hm : Memory.wf s.mem = true) :
    KeepsMemory (execCsrw a fea csr s) := by
  simp +contextual [execCsrw, hm, issue_keeps]

@[simp] theorem execRdts_keeps {s : State} (d : Nat) (hm : Memory.wf s.mem = true) :
    KeepsMemory (execRdts d s) := by
  simp +contextual [execRdts, hm, issue_keeps]

@[simp] theorem execChk_keeps {s : State} (hm : Memory.wf s.mem = true) :
    KeepsMemory (execChk s) := by
  simp +contextual [execChk, hm, drainWord_keeps]

@[simp] theorem execCro_keeps {s : State} (disp : BitVec 37) (hm : Memory.wf s.mem = true) :
    KeepsMemory (execCro disp s) := by
  simp +contextual [execCro, hm, issue_keeps]

@[simp] theorem execCrc_keeps {s : State} (hm : Memory.wf s.mem = true) :
    KeepsMemory (execCrc s) := by
  unfold execCrc
  refine drainWord_keeps hm fun t ht => ?_
  repeat' split
  all_goals simp [ht]

@[simp] theorem execStop_keeps {s : State} (a : Nat) (fea : Bool) (hm : Memory.wf s.mem = true) :
    KeepsMemory (execStop a fea s) := by
  simp +contextual [execStop, hm, issue_keeps]

end Sys2Proof.Machine

end

section
set_option Elab.async false

/-! SUPPORT. The vector words, the module services, dispatch and the turn keep the memory in its canonical form. O58. -/

namespace Sys2Proof.Machine

/-! ### VInt -/

/-! What the elementwise words do. -/
@[simp] theorem vEach_keeps {w : VFields} {cap : VCap} {s : State} {n wd : Nat} {f : Nat → Nat × BitVec 6} :
    (vEach w cap s n wd f).Keeps ↔ Memory.wf s.mem = true := Iff.rfl
@[simp] theorem vInt_keeps {w : VFields} {cap : VCap} {s : State} {f : Nat → Nat → Nat → Int} :
    (vInt w cap s f).Keeps ↔ Memory.wf s.mem = true := Iff.rfl

@[simp] theorem execVadd_keeps {s : State} (w : VFields) (hm : Memory.wf s.mem = true) :
    KeepsMemory (execVadd w s) := 
  vword_keeps hm fun _ _ _ ht => ht

@[simp] theorem execVsub_keeps {s : State} (w : VFields) (hm : Memory.wf s.mem = true) :
    KeepsMemory (execVsub w s) := 
  vword_keeps hm fun _ _ _ ht => ht

@[simp] theorem execVmul_keeps {s : State} (w : VFields) (hm : Memory.wf s.mem = true) :
    KeepsMemory (execVmul w s) := 
  vword_keeps hm fun _ _ _ ht => ht

@[simp] theorem execVmulh_keeps {s : State} (w : VFields) (hm : Memory.wf s.mem = true) :
    KeepsMemory (execVmulh w s) := 
  vword_keeps hm fun _ _ _ ht => ht

@[simp] theorem execVmin_keeps {s : State} (w : VFields) (hm : Memory.wf s.mem = true) :
    KeepsMemory (execVmin w s) := 
  vword_keeps hm fun _ _ _ ht => ht

@[simp] theorem execVmax_keeps {s : State} (w : VFields) (hm : Memory.wf s.mem = true) :
    KeepsMemory (execVmax w s) := 
  vword_keeps hm fun _ _ _ ht => ht

@[simp] theorem execVabs_keeps {s : State} (w : VFields) (hm : Memory.wf s.mem = true) :
    KeepsMemory (execVabs w s) := 
  vword_keeps hm fun _ _ _ ht => ht

@[simp] theorem execVneg_keeps {s : State} (w : VFields) (hm : Memory.wf s.mem = true) :
    KeepsMemory (execVneg w s) := 
  vword_keeps hm fun _ _ _ ht => ht

@[simp] theorem execVand_keeps {s : State} (w : VFields) (hm : Memory.wf s.mem = true) :
    KeepsMemory (execVand w s) := 
  vword_keeps hm fun _ _ _ ht => ht

@[simp] theorem execVor_keeps {s : State} (w : VFields) (hm : Memory.wf s.mem = true) :
    KeepsMemory (execVor w s) := 
  vword_keeps hm fun _ _ _ ht => ht

@[simp] theorem execVxor_keeps {s : State} (w : VFields) (hm : Memory.wf s.mem = true) :
    KeepsMemory (execVxor w s) := 
  vword_keeps hm fun _ _ _ ht => ht

@[simp] theorem execVnot_keeps {s : State} (w : VFields) (hm : Memory.wf s.mem = true) :
    KeepsMemory (execVnot w s) := 
  vword_keeps hm fun _ _ _ ht => ht

@[simp] theorem execVshl_keeps {s : State} (w : VFields) (hm : Memory.wf s.mem = true) :
    KeepsMemory (execVshl w s) := 
  vword_keeps hm fun _ _ _ ht => ht

@[simp] theorem execVshr_keeps {s : State} (w : VFields) (hm : Memory.wf s.mem = true) :
    KeepsMemory (execVshr w s) := 
  vword_keeps hm fun _ _ _ ht => ht

@[simp] theorem execVclz_keeps {s : State} (w : VFields) (hm : Memory.wf s.mem = true) :
    KeepsMemory (execVclz w s) := 
  vword_keeps hm fun _ _ _ ht => ht

@[simp] theorem execVpopc_keeps {s : State} (w : VFields) (hm : Memory.wf s.mem = true) :
    KeepsMemory (execVpopc w s) := 
  vword_keeps hm fun _ _ _ ht => ht

@[simp] theorem execVsel_keeps {s : State} (w : VFields) (hm : Memory.wf s.mem = true) :
    KeepsMemory (execVsel w s) := 
  vword_keeps hm fun _ _ _ ht => ht

/-! ### VFloat -/

@[simp] theorem vF1_keeps {w : VFields} {cap : VCap} {s : State} {g : Fmt → Nat → Bool → FV → Nat × BitVec 6} :
    (vF1 w cap s g).Keeps ↔ Memory.wf s.mem = true := Iff.rfl
@[simp] theorem vF2_keeps {w : VFields} {cap : VCap} {s : State} {g : Fmt → Nat → Bool → FV → FV → Nat × BitVec 6} :
    (vF2 w cap s g).Keeps ↔ Memory.wf s.mem = true := Iff.rfl
@[simp] theorem vF3_keeps {w : VFields} {cap : VCap} {s : State} {neg : Bool} : (vF3 w cap s neg).Keeps ↔ Memory.wf s.mem = true := Iff.rfl
@[simp] theorem vFMM_keeps {w : VFields} {cap : VCap} {s : State} {gt : Bool} : (vFMM w cap s gt).Keeps ↔ Memory.wf s.mem = true := Iff.rfl
@[simp] theorem vFSign_keeps {w : VFields} {cap : VCap} {s : State} {g : Nat → Nat → Nat} :
    (vFSign w cap s g).Keeps ↔ Memory.wf s.mem = true := Iff.rfl

@[simp] theorem execVfadd_keeps {s : State} (w : VFields) (hm : Memory.wf s.mem = true) :
    KeepsMemory (execVfadd w s) := 
  vword_keeps hm fun _ _ _ ht => ht

@[simp] theorem execVfsub_keeps {s : State} (w : VFields) (hm : Memory.wf s.mem = true) :
    KeepsMemory (execVfsub w s) := 
  vword_keeps hm fun _ _ _ ht => ht

@[simp] theorem execVfmul_keeps {s : State} (w : VFields) (hm : Memory.wf s.mem = true) :
    KeepsMemory (execVfmul w s) := 
  vword_keeps hm fun _ _ _ ht => ht

@[simp] theorem execVfma_keeps {s : State} (w : VFields) (hm : Memory.wf s.mem = true) :
    KeepsMemory (execVfma w s) := 
  vword_keeps hm fun _ _ _ ht => ht

@[simp] theorem execVfms_keeps {s : State} (w : VFields) (hm : Memory.wf s.mem = true) :
    KeepsMemory (execVfms w s) := 
  vword_keeps hm fun _ _ _ ht => ht

@[simp] theorem execVfdiv_keeps {s : State} (w : VFields) (hm : Memory.wf s.mem = true) :
    KeepsMemory (execVfdiv w s) := 
  vword_keeps hm fun _ _ _ ht => ht

@[simp] theorem execVfsqrt_keeps {s : State} (w : VFields) (hm : Memory.wf s.mem = true) :
    KeepsMemory (execVfsqrt w s) := 
  vword_keeps hm fun _ _ _ ht => ht

@[simp] theorem execVfrcp_keeps {s : State} (w : VFields) (hm : Memory.wf s.mem = true) :
    KeepsMemory (execVfrcp w s) := 
  vword_keeps hm fun _ _ _ ht => ht

@[simp] theorem execVfrsq_keeps {s : State} (w : VFields) (hm : Memory.wf s.mem = true) :
    KeepsMemory (execVfrsq w s) := 
  vword_keeps hm fun _ _ _ ht => ht

@[simp] theorem execVfexp2_keeps {s : State} (w : VFields) (hm : Memory.wf s.mem = true) :
    KeepsMemory (execVfexp2 w s) := 
  vword_keeps hm fun _ _ _ ht => ht

@[simp] theorem execVflog2_keeps {s : State} (w : VFields) (hm : Memory.wf s.mem = true) :
    KeepsMemory (execVflog2 w s) := 
  vword_keeps hm fun _ _ _ ht => ht

@[simp] theorem execVfmin_keeps {s : State} (w : VFields) (hm : Memory.wf s.mem = true) :
    KeepsMemory (execVfmin w s) := 
  vword_keeps hm fun _ _ _ ht => ht

@[simp] theorem execVfmax_keeps {s : State} (w : VFields) (hm : Memory.wf s.mem = true) :
    KeepsMemory (execVfmax w s) := 
  vword_keeps hm fun _ _ _ ht => ht

@[simp] theorem execVfabs_keeps {s : State} (w : VFields) (hm : Memory.wf s.mem = true) :
    KeepsMemory (execVfabs w s) := 
  vword_keeps hm fun _ _ _ ht => ht

@[simp] theorem execVfneg_keeps {s : State} (w : VFields) (hm : Memory.wf s.mem = true) :
    KeepsMemory (execVfneg w s) := 
  vword_keeps hm fun _ _ _ ht => ht

@[simp] theorem execVcvt_keeps {s : State} (w : VFields) (hm : Memory.wf s.mem = true) :
    KeepsMemory (execVcvt w s) := 
  vword_keeps hm fun _ _ _ ht => ht

/-! ### VBlock -/

@[simp] theorem vConsumed_keeps {kind : Nat} {cap : VCap} {s : State} : (vConsumed kind cap s).Keeps ↔ Memory.wf s.mem = true := by
  simp [vConsumed]

@[simp] theorem execVcb_keeps {s : State} (w : VFields) (hm : Memory.wf s.mem = true) :
    KeepsMemory (execVcb w s) := 
  vword_keeps hm fun _ _ _ ht => ht

@[simp] theorem execVpack_keeps {s : State} (w : VFields) (hm : Memory.wf s.mem = true) :
    KeepsMemory (execVpack w s) := 
  vword_keeps hm fun _ _ _ ht => ht

@[simp] theorem execVunpack_keeps {s : State} (w : VFields) (hm : Memory.wf s.mem = true) : KeepsMemory (execVunpack w s) :=
  vword_keeps hm fun u c t ht => by
    dsimp only
    split <;> simp [ht]

@[simp] theorem execVamax_keeps {s : State} (w : VFields) (hm : Memory.wf s.mem = true) : KeepsMemory (execVamax w s) :=
  vword_keeps hm fun u c t ht => VRes.keeps_ite.2 ⟨fun _ => ht, fun _ => by
    dsimp only
    split
    · simp [ht]
    · simp [ht]
    · exact ht⟩

/-! ### VMask -/

@[simp] theorem execMpush_keeps {s : State} (w : VFields) (hm : Memory.wf s.mem = true) :
    KeepsMemory (execMpush w s) := 
  vword_keeps hm fun _ _ _ ht => by simp [ht]

@[simp] theorem execMinv_keeps {s : State} (w : VFields) (hm : Memory.wf s.mem = true) : KeepsMemory (execMinv w s) :=
  vword_keeps hm fun _ _ _ ht => by
    split
    · exact ht
    · trivial

@[simp] theorem execMpop_keeps {s : State} (w : VFields) (hm : Memory.wf s.mem = true) : KeepsMemory (execMpop w s) :=
  vword_keeps hm fun _ _ _ ht => by
    split
    · exact ht
    · trivial

@[simp] theorem execVskip_keeps {s : State} (w : VFields) (hm : Memory.wf s.mem = true) : KeepsMemory (execVskip w s) :=
  vword_keeps hm fun _ _ _ ht => by
    split
    · simp [ht]
    · simp [ht]

@[simp] theorem execVeos_keeps {s : State} (w : VFields) (hm : Memory.wf s.mem = true) :
    KeepsMemory (execVeos w s) := 
  vword_keeps hm fun _ _ _ ht => by simp [ht]

@[simp] theorem execVnop_keeps {s : State} (w : VFields) (hm : Memory.wf s.mem = true) :
    KeepsMemory (execVnop w s) := 
  vword_keeps hm fun _ _ _ ht => ht

/-! ### VMem -/

theorem vLoadElem_wf {c op : Nat} {w : VFields} {cap : VCap} {acc : State × List (Nat × Nat) × Bool} (p : Nat × Int × Chk)
    (h : Memory.wf acc.1.mem = true) : Memory.wf (vLoadElem c op w cap acc p).1.mem = true := by
  unfold vLoadElem
  dsimp only
  split
  · split <;> rename_i e <;> have hu := fst_wf (by simp [h]) e
    · split <;> simp [hu]
    · simp [hu]
  · exact h

theorem vLoad_keeps {op : Nat} {w : VFields} {cap : VCap} {s : State} (h : Memory.wf s.mem = true) : (vLoad op w cap s).Keeps := by
  unfold vLoad
  extract_lets x todo l cs pas home t r
  refine VRes.keeps_ite.2 ⟨fun _ => trivial, fun _ => VRes.keeps_ite.2 ⟨fun _ => trivial, fun _ => ?_⟩⟩
  have ht : Memory.wf t.mem = true := by
    dsimp only [t]
    simp [h]
  have hr : Memory.wf r.1.mem = true :=
    List.foldlRecOn (motive := fun a : State × List (Nat × Nat) × Bool => Memory.wf a.1.mem = true) cs _ ht fun a ha p _ => vLoadElem_wf p ha
  clear_value r
  exact VRes.keeps_ite.2 ⟨fun _ => by simp [hr], fun _ => hr⟩

theorem vStore_keeps {op : Nat} {w : VFields} {cap : VCap} {s : State} (h : Memory.wf s.mem = true) : (vStore op w cap s).Keeps := by
  unfold vStore
  extract_lets x l cs pas b data tok gran gs bad src a t
  refine VRes.keeps_ite.2 ⟨fun _ => trivial, fun _ => ?_⟩
  have ht : Memory.wf t.mem = true := by
    dsimp only [t]
    simp [h]
  simp [ht]

@[simp] theorem execVld_keeps {s : State} (w : VFields) (hm : Memory.wf s.mem = true) : KeepsMemory (execVld w s) :=
  vword_keeps hm fun _ _ _ ht => vLoad_keeps ht

@[simp] theorem execVst_keeps {s : State} (w : VFields) (hm : Memory.wf s.mem = true) : KeepsMemory (execVst w s) :=
  vword_keeps hm fun _ _ _ ht => vStore_keeps ht

@[simp] theorem execVgat_keeps {s : State} (w : VFields) (hm : Memory.wf s.mem = true) : KeepsMemory (execVgat w s) :=
  vword_keeps hm fun _ _ _ ht => vLoad_keeps ht

@[simp] theorem execVsca_keeps {s : State} (w : VFields) (hm : Memory.wf s.mem = true) : KeepsMemory (execVsca w s) :=
  vword_keeps hm fun _ _ _ ht => vStore_keeps ht

@[simp] theorem execVldb_keeps {s : State} (w : VFields) (hm : Memory.wf s.mem = true) : KeepsMemory (execVldb w s) :=
  vword_keeps hm fun _ _ _ ht => vLoad_keeps ht

@[simp] theorem execVstb_keeps {s : State} (w : VFields) (hm : Memory.wf s.mem = true) : KeepsMemory (execVstb w s) :=
  vword_keeps hm fun _ _ _ ht => vStore_keeps ht

@[simp] theorem execDeadlock_keeps {s : State} (c : Nat) (hm : Memory.wf s.mem = true) :
    KeepsMemory (execDeadlock c s) := by
  unfold execDeadlock
  dsimp only
  repeat' split
  all_goals simp [hm]

/-! ### VPerm -/

@[simp] theorem execVred_keeps {s : State} (w : VFields) (hm : Memory.wf s.mem = true) :
    KeepsMemory (execVred w s) := 
  vword_keeps hm fun _ _ _ ht => by simp [ht]

@[simp] theorem vMove_keeps {w : VFields} {cap : VCap} {s : State} {f : Nat → Nat → Nat → Nat} :
    (vMove w cap s f).Keeps ↔ Memory.wf s.mem = true := Iff.rfl

@[simp] theorem execVperm_keeps {s : State} (w : VFields) (hm : Memory.wf s.mem = true) :
    KeepsMemory (execVperm w s) := 
  vword_keeps hm fun _ _ _ ht => ht

@[simp] theorem execVtrns_keeps {s : State} (w : VFields) (hm : Memory.wf s.mem = true) :
    KeepsMemory (execVtrns w s) := 
  vword_keeps hm fun _ _ _ ht => ht

@[simp] theorem execVbcast_keeps {s : State} (w : VFields) (hm : Memory.wf s.mem = true) :
    KeepsMemory (execVbcast w s) := 
  vword_keeps hm fun _ _ _ ht => ht

@[simp] theorem execVslide_keeps {s : State} (w : VFields) (hm : Memory.wf s.mem = true) :
    KeepsMemory (execVslide w s) := 
  vword_keeps hm fun _ _ _ ht => ht

@[simp] theorem execVcompress_keeps {s : State} (w : VFields) (hm : Memory.wf s.mem = true) :
    KeepsMemory (execVcompress w s) := 
  vword_keeps hm fun _ _ _ ht => ht

/-! ### Wear -/

@[simp] theorem State.dropHeld_mem (s : State) (h : Held) : (s.dropHeld h).mem = s.mem := rfl

@[simp] theorem State.heldOver_mem (s : State) (h : Held) : (s.heldOver h).mem = s.mem := by
  unfold State.heldOver
  repeat' split
  all_goals rfl

@[simp] theorem State.redmis_mem (s : State) (h : Held) : (s.redmis h).mem = s.mem := by
  unfold State.redmis
  dsimp only
  repeat' split
  all_goals simp

@[simp] theorem State.pairContained_mem (s : State) (l : List (Nat × Acc)) (e : Nat × Nat) : (s.pairContained l e).mem = s.mem := by
  unfold State.pairContained
  exact foldl_mem fun t x => by simp

/-- Two writes that agree keep the canonical form as they are performed. -/
theorem State.performPair_wf {s t : State} {c d : Nat} {h k : Held} (hm : Memory.wf s.mem = true) (e : s.performPair c d h k = some t) :
    Memory.wf t.mem = true := by
  have hrel : ∀ (b : Acc), Memory.wf (s.relWork d b).mem = true := fun b => State.relWork_canonical d b hm
  unfold State.performPair at e
  split at e
  · rename_i a b _ _
    split at e
    · exact State.makeJoin_wf hm e
    · exact State.futSlice_wf hm e
    · obtain ⟨p, hp, rfl⟩ := Option.map_eq_some_iff.1 e
      have := State.futPerform_wf hm hp
      split <;> simp [this]
    · obtain ⟨p, hp, rfl⟩ := Option.map_eq_some_iff.1 e
      have := State.futPerform_wf hm hp
      split <;> simp [this]
    · obtain rfl := Option.some.inj e
      split <;> rename_i er <;> have hu := fst_wf (State.rmw_wf c a (hrel b)) er
      · simp [hu]
      · exact foldl_wf (fun t p ht => by simp [ht]) hu
    · obtain rfl := Option.some.inj e
      split <;> rename_i er <;> have hu := fst_wf (State.rmw_wf c a (hrel b)) er
      · simp [hu]
      · exact hu
    · obtain rfl := Option.some.inj e
      split <;> rename_i er <;> have hu := fst_wf (State.rmw_wf c a (hrel b)) er
      · simp [hu]
      · exact hu
    · obtain rfl := Option.some.inj e
      exact State.homeStore_wf _ _ _ _ _ (State.relWork_canonical c a (hrel b))
    · obtain rfl := Option.some.inj e
      exact State.homeStore_wf _ _ _ _ _ (State.relWork_canonical c a (hrel b))
    · obtain rfl := Option.some.inj e; exact hm
    · obtain rfl := Option.some.inj e; exact hm
  · obtain rfl := Option.some.inj e; simp [hm]
  · obtain rfl := Option.some.inj e
    refine State.homeStore_wf _ _ _ _ _ ?_
    split <;> simp [hm]
  · obtain rfl := Option.some.inj e; exact hm

@[simp] theorem execRedundantCompare_keeps {s : State} (c id : Nat) (hm : Memory.wf s.mem = true) :
    KeepsMemory (execRedundantCompare c id s) := by
  unfold execRedundantCompare
  split
  · split
    · simp [hm]
    · refine keeps_ite.2 ⟨fun _ => by simp [hm], fun _ => keeps_ite.2 ⟨fun _ => keeps_next.2 (getD_wf hm fun t e => ?_), fun _ => by simp [hm]⟩⟩
      obtain ⟨u, hu, rfl⟩ := Option.map_eq_some_iff.1 e
      simpa using State.performPair_wf (by simp [hm]) hu
  · simp [hm]

@[simp] theorem execRedmisTimeout_keeps {s : State} (c id : Nat) (hm : Memory.wf s.mem = true) :
    KeepsMemory (execRedmisTimeout c id s) := by
  unfold execRedmisTimeout
  dsimp only
  repeat' split
  all_goals simp [hm]

@[simp] theorem execScrubVisit_keeps {s : State} (granule : Nat) (hm : Memory.wf s.mem = true) :
    KeepsMemory (execScrubVisit granule s) := by
  unfold execScrubVisit
  repeat' split
  all_goals simp [hm]

@[simp] theorem State.adjust_mem (s : State) (readings : List (Nat × Nat)) (site : Nat) : (s.adjust readings site).mem = s.mem := by
  unfold State.adjust
  dsimp only
  repeat' split
  all_goals rfl

@[simp] theorem execLehrAdjust_keeps {s : State} (readings : List (Nat × Nat)) (hm : Memory.wf s.mem = true) :
    KeepsMemory (execLehrAdjust readings s) :=
  keeps_ite.2 ⟨fun _ => by simp [hm], fun _ => keeps_next.2 (foldl_wf (fun t n ht => by simp [ht]) hm)⟩

@[simp] theorem State.reply_mem (s : State) (kind : Nat) (l : List Nat) : (s.reply kind l).mem = s.mem := rfl

@[simp] theorem execWearRecordRequest_keeps {s : State} (nonce : List Byte) (hm : Memory.wf s.mem = true) :
    KeepsMemory (execWearRecordRequest nonce s) := by
  simp [execWearRecordRequest, hm]

@[simp] theorem execManagementMailboxRequest_keeps {s : State} (kind : Nat) (hm : Memory.wf s.mem = true) :
    KeepsMemory (execManagementMailboxRequest kind s) := by
  simp [execManagementMailboxRequest, hm]

@[simp] theorem State.afterReset_wf {s : State} (cfg : CfgSt) (hm : Memory.wf s.mem = true) : Memory.wf (s.afterReset cfg).mem = true := by
  unfold State.afterReset Memory.wf
  dsimp only
  exact Sparse.wf_keep _ hm

@[simp] theorem execModuleReset_keeps {s : State} (hm : Memory.wf s.mem = true) : KeepsMemory (execModuleReset s) := by
  unfold execModuleReset
  extract_lets bad held after
  have ha : ∀ g, Memory.wf (after g).mem = true := fun g => State.afterReset_wf g hm
  have hh : ∀ t, Memory.wf t.mem = true → Memory.wf (held t).mem = true := fun t ht => ht
  clear_value after held
  split
  · exact keeps_next.2 (hh _ (ha _))
  · have hv : ∀ (l : List Nat) (u : State), Memory.wf u.mem = true → Memory.wf (l.foldl (fun (v : State) x => v.logEvent 11 x) u).mem = true :=
      fun l u hu => foldl_wf (fun t n ht => by simp [ht]) hu
    exact keeps_ite.2 ⟨fun _ => keeps_next.2 (hv _ _ (ha _)), fun _ => keeps_next.2 (hh _ (hv _ _ (ha _)))⟩

/-! ### Dispatch -/

/-- Every instruction keeps the canonical form. -/
@[simp] theorem exec_keeps {s : State} (i : Instr) (h : Memory.wf s.mem = true) : KeepsMemory (exec i s) := by
  cases i <;> simp [exec, h]

/-! ### Turn -/

@[simp] theorem State.contextStep_keeps {s : State} (h : Memory.wf s.mem = true) : KeepsMemory s.contextStep := by
  unfold State.contextStep
  refine keeps_ite.2 ⟨fun _ => by simp [h], fun _ => keeps_ite.2 ⟨fun _ => by simp [h], fun _ => ?_⟩⟩
  split <;> simp [h]

@[simp] theorem State.unwind_wf {s : State} (c : Nat) (l : Late) (e : Region) (rest : List Region) (hm : Memory.wf s.mem = true) :
    Memory.wf (s.unwind c l e rest).mem = true := by
  simp [State.unwind, hm]

@[simp] theorem State.leaveLease_mem (s : State) (c : Nat) : (s.leaveLease c).mem = s.mem := by
  simp [State.leaveLease]

theorem State.boundary_wf {s t : State} {c : Nat} (h : Memory.wf s.mem = true) (e : s.boundary c = some t) : Memory.wf t.mem = true := by
  unfold State.boundary at e
  extract_lets x u at e
  split at e
  · split at e
    · cases e
    · split at e
      · exact State.honourStop_wf c h e
      · extract_lets trapped fault at e
        have hu : Memory.wf u.mem = true := by
          dsimp only [u]
          split
          · simp [h]
          · split <;> simp [h]
        have ht : Memory.wf trapped.mem = true := by simp [trapped, hu]
        have hf : Memory.wf fault.mem = true := by simp [fault, h]
        clear_value trapped fault
        split at e
        · split at e
          · split at e
            · exact Option.some.inj e ▸ hf
            · exact Option.some.inj e ▸ (by simp [h])
          · exact Option.some.inj e ▸ hf
        · exact Option.some.inj e ▸ ht
  · exact State.honourStop_wf c h e

@[simp] theorem State.issuedBy_mem (s : State) (c ctx run : Nat) : (s.issuedBy c ctx run).mem = s.mem := rfl

/-- The contexts tried one after another: what each leaves keeps the canonical form. -/
@[simp] theorem State.tryContexts_keeps (c run : Nat) (l : List Nat) :
    ∀ {s : State}, Memory.wf s.mem = true → KeepsMemory (s.tryContexts c run l) := by
  induction l with
  | nil => exact fun h => keeps_next.2 h
  | cons ctx l ih =>
    intro s h
    unfold State.tryContexts
    have hs : KeepsMemory ({ s with cur := c, ctx := ctx, waited := false, noClock := false } : State).contextStep :=
      State.contextStep_keeps h
    split <;> rename_i t e
    · have ht : Memory.wf t.mem = true := hs t e
      dsimp only
      refine keeps_ite.2 ⟨fun _ => ih h, fun _ => keeps_ite.2 ⟨fun _ => ih ht, fun _ => ?_⟩⟩
      refine keeps_ite.2 ⟨fun _ => by simp [ht], fun _ => keeps_ite.2 ⟨fun _ => by simp [ht], fun _ => by simp [ht]⟩⟩
    · simp
    · simp

@[simp] theorem State.coreTurn_keeps {s : State} (c : Nat) (h : Memory.wf s.mem = true) : KeepsMemory (s.coreTurn c) := by
  refine keeps_ite.2 ⟨fun _ => by simp [h], fun _ => ?_⟩
  split
  · rename_i t e
    have ht := State.boundary_wf h e
    exact keeps_next.2 ht
  · simp [h]

@[simp] theorem State.pipeTurn_keeps {s : State} (c q : Nat) (hm : Memory.wf s.mem = true) :
    KeepsMemory (s.pipeTurn c q) := by
  unfold State.pipeTurn
  repeat' split
  all_goals simp [hm]

@[simp] theorem State.partTurn_keeps {s : State} (c id : Nat) (sel : List Nat) (hm : Memory.wf s.mem = true) :
    KeepsMemory (s.partTurn c id sel) := by
  unfold State.partTurn
  repeat' split
  all_goals simp [hm]

@[simp] theorem State.eventTurn_keeps {s : State} (i : Instr) (hm : Memory.wf s.mem = true) :
    KeepsMemory (s.eventTurn i) := by
  simp [State.eventTurn, hm]

@[simp] theorem State.barTurn_mem (s : State) (off : Nat) (b : Byte) : (s.barTurn off b).mem = s.mem := by
  simp [State.barTurn]

@[simp] theorem State.upsetTurn_mem (s : State) (pa : Nat) (hard : Bool) : (s.upsetTurn pa hard).mem = s.mem := by
  unfold State.upsetTurn
  dsimp only
  repeat' split
  all_goals rfl

@[simp] theorem State.copyTurn_mem (s : State) (pa : Nat) (dirty : Bool) : (s.copyTurn pa dirty).mem = s.mem := by
  unfold State.copyTurn
  dsimp only
  repeat' split
  all_goals rfl

@[simp] theorem State.evictTurn_mem (s : State) (ln : Nat) : (s.evictTurn ln).mem = s.mem := by
  unfold State.evictTurn
  exact foldl_mem fun t x => by simp

@[simp] theorem State.strikeHard_mem (s : State) (p : Store) : (s.strikeHard p).mem = s.mem := by
  unfold State.strikeHard
  dsimp only
  repeat' split
  all_goals rfl

@[simp] theorem State.strikeTurn_mem (s : State) (p : Store) (hard : Bool) : (s.strikeTurn p hard).mem = s.mem := by
  simp [State.strikeTurn]

@[simp] theorem State.outsideTurn_wf {s : State} (pa : Nat) (b : Byte) (hm : Memory.wf s.mem = true) :
    Memory.wf (s.outsideTurn pa b).mem = true := by
  unfold State.outsideTurn
  split <;> simp [hm]

@[simp] theorem State.wilgorTurn_mem (s : State) (slot : Nat) (words : List Word) : (s.wilgorTurn slot words).mem = s.mem := by
  simp [State.wilgorTurn]

@[simp] theorem State.act_keeps {s : State} (a : Act) (h : Memory.wf s.mem = true) : KeepsMemory (s.act a) := by
  cases a <;> simp [State.act, h]

@[simp] theorem State.upTo_wf {s : State} (r : Nat × Nat) (hm : Memory.wf s.mem = true) :
    Memory.wf (s.upTo r).mem = true := by
  simp [State.upTo, hm]

@[simp] theorem State.begun_wf {s : State} (t : Turn) (rest : List Turn) (h : Memory.wf s.mem = true) : Memory.wf (s.begun t rest).mem = true := by
  unfold State.begun
  extract_lets u v
  have hv : Memory.wf v.mem = true := State.passClocks_wf _ _ h
  clear_value v
  split
  · exact hv
  · exact hv
  · exact State.upTo_wf _ hv

@[simp] theorem State.tableWritten_wf {s : State} (old : State) (h : Memory.wf s.mem = true) : Memory.wf (s.tableWritten old).mem = true := by
  unfold State.tableWritten
  refine foldl_wf (fun t e ht => ?_) h
  dsimp only
  split <;> simp [ht]

/-- A turn keeps the canonical form. -/
theorem State.turn_keeps {s : State} (h : Memory.wf s.mem = true) : KeepsMemory s.turn := by
  unfold State.turn
  dsimp only
  have ha : KeepsMemory ((s.begun s.nextTurn.1 s.nextTurn.2).act s.nextTurn.1.act) := State.act_keeps _ (State.begun_wf _ _ h)
  split
  · rename_i t e
    exact keeps_next.2 (State.tableWritten_wf _ (ha t e))
  · exact ha

@[simp] theorem State.place_mem (s : State) (nbits w : Nat) : (s.place nbits w).mem = s.mem := by
  unfold State.place
  dsimp only
  repeat' split
  all_goals rfl

end Sys2Proof.Machine

namespace Sys2Proof

open Machine

/-- Settles O58: every act, and the writing of the pontil table after it, keeps the canonical form, so a turn does. -/
theorem memoryCanonicalKept : Obligations.MemoryCanonicalKept := by
  unfold Obligations.MemoryCanonicalKept
  exact fun s t h e => State.turn_keeps h t e

end Sys2Proof

end

section
set_option Elab.async false

/-! SUPPORT. An access that has passed its check: what stands in its way (R130, R297 to R309), and the events that find it. O20, O21,
O22. -/

namespace Sys2Proof.Machine

/-! ### The list of outstanding accesses -/

theorem Core.id_of_findAcc {x : Core} {n : Nat} {a : Acc} (h : x.findAcc n = some a) : a.id = n := by
  simpa using List.find?_some h

theorem Core.mem_of_findAcc {x : Core} {n : Nat} {a : Acc} (h : x.findAcc n = some a) : a ∈ x.acc := List.mem_of_find?_eq_some h

theorem Core.findAcc_putAcc {x : Core} {a : Acc} (h : x.findAcc a.id = some a) : (x.putAcc a).findAcc a.id = some a := by
  have hp : ((fun b : Acc => b.id == a.id) ∘ fun b => if b.id = a.id then a else b) = fun b => b.id == a.id := by
    funext b
    by_cases hb : b.id = a.id <;> simp [hb]
  unfold Core.findAcc Core.putAcc at *
  dsimp only
  rw [List.find?_map, hp, h]
  simp

theorem Core.mem_putAcc {x : Core} {a b : Acc} (hb : b ∈ x.acc) (hn : b.id ≠ a.id) : b ∈ (x.putAcc a).acc :=
  List.mem_map.2 ⟨b, hb, if_neg hn⟩

/-- What is outstanding once an access is put back is the access or what was outstanding. -/
theorem Core.of_mem_putAcc {x : Core} {a b : Acc} (hb : b ∈ (x.putAcc a).acc) : b = a ∨ b ∈ x.acc ∧ b.id ≠ a.id := by
  obtain ⟨b', hb', rfl⟩ := List.mem_map.1 hb
  by_cases h : b'.id = a.id
  · simp [h]
  · exact .inr ⟨by simpa [h] using hb', by simp [h]⟩

@[simp] theorem Core.atHome_putAcc (x : Core) (a b : Acc) : (x.putAcc a).atHome b = x.atHome b := rfl

/-- The state in which a checked access is tried: it is put back as it is. -/
def State.tried (s : State) (c : Nat) (a : Acc) : State := s.mod c (fun x => x.putAcc a)

@[simp] theorem State.core_tried (s : State) (c : Nat) (a : Acc) : (s.tried c a).core c = (s.core c).putAcc a := State.core_mod_same _ _ _

theorem State.core_tried_other (s : State) {c d : Nat} (a : Acc) (h : d ≠ c) : (s.tried c a).core d = s.core d :=
  State.core_mod_other _ _ h

@[simp] theorem State.byte_tried (s : State) (c : Nat) (a : Acc) (pa : Nat) : (s.tried c a).byte pa = s.byte pa := rfl

@[simp] theorem State.works_tried (s : State) (c : Nat) (a b : Acc) : (s.tried c a).works c b = s.works c b := rfl

@[simp] theorem State.tried_r (s : State) (c : Nat) (a : Acc) (d : Nat) : ((s.tried c a).core d).r = (s.core d).r := by
  by_cases h : d = c
  · subst h; simp
  · rw [State.core_tried_other s a h]

/-- A checked access is there for an event of its operation if nothing stands in its way. -/
theorem State.ready_checked {s : State} {c : Nat} {a : Acc} {p : AOp → Bool} (hf : (s.core c).findAcc a.id = some a) (hk : a.chk = 1)
    (hp : p a.op = true) :
    s.ready c a.id p =
      if ((s.tried c a).core c).mayPerform a ((s.tried c a).works c a) = true ∧ (s.tried c a).relReady c a = true ∧
          (s.tried c a).acqReady c a = true ∧ (a.tok.kind = 2 ∨ (s.tried c a).popPending c a.ctx a.id = false) ∧
          (s.tried c a).linked a.pas = true then .yes (s.tried c a) a
      else .no (s.tried c a) := by
  unfold State.ready
  simp only [hf, hk, hp, if_neg (by decide : ¬((!true) = true ∨ 1 = 3)), if_neg (by decide : ¬1 = 0), if_neg (by decide : ¬1 = 2)]
  rfl

/-- A checked access that may not perform is left as it is, whatever event asks for it. -/
theorem State.ready_no {s : State} {c : Nat} {a : Acc} (p : AOp → Bool) (hf : (s.core c).findAcc a.id = some a) (hk : a.chk = 1)
    (hn : ((s.tried c a).core c).mayPerform a (s.works c a) = false) :
    s.ready c a.id p = .no s ∨ s.ready c a.id p = .no (s.tried c a) := by
  by_cases hp : p a.op = true
  · right
    rw [State.ready_checked hf hk hp, if_neg]
    rintro ⟨hm, -⟩
    exact Bool.false_ne_true (hn.symm.trans hm)
  · left
    unfold State.ready
    simp [hf, hp]

/-- An access may not perform while one stands before it. -/
theorem Core.mayPerform_blocked {x : Core} {a b : Acc} {work : Bool} (ha : a ∈ x.acc) (hlt : a.id < b.id)
    (h : (work && a.plainStore) = true ∨ (a.ctx == b.ctx && a.before b (x.atHome b)) = true) : x.mayPerform b work = false := by
  refine Bool.eq_false_iff.2 fun hm => ?_
  have := List.all_eq_true.1 hm a ha
  simp only [Bool.or_eq_true, Bool.and_eq_true, Bool.not_eq_true', decide_eq_true_eq] at this
  rcases this with h' | ⟨h1, h2⟩
  · omega
  · rcases h with h | h
    · simp [h1] at h
    · simp [h2] at h

/-- An event of an access that is not there for it leaves the state that `ready` does. -/
theorem execAccess_no {s t : State} {c id : Nat} (h : ∀ p, s.ready c id p = .no s ∨ s.ready c id p = .no t) {e : Instr}
    (he : e ∈ [Instr.loadComplete c id, .amoReply c id, .writeReachesHome c id]) : exec e s = .next s ∨ exec e s = .next t := by
  simp only [List.mem_cons, List.not_mem_nil, or_false] at he
  rcases he with rfl | rfl | rfl
  · change execLoadComplete c id s = _ ∨ execLoadComplete c id s = _
    unfold execLoadComplete
    split <;> rename_i e <;> rcases h _ with h | h <;> cases e.symm.trans h <;> simp
  · change execAmoReply c id s = _ ∨ execAmoReply c id s = _
    unfold execAmoReply
    split <;> rename_i e <;> rcases h _ with h | h <;> cases e.symm.trans h <;> simp
  · change execWriteReachesHome c id s = _ ∨ execWriteReachesHome c id s = _
    unfold execWriteReachesHome
    split <;> rename_i e <;> rcases h _ with h | h <;> cases e.symm.trans h <;> simp

/-- Which earlier access must come first (R130, R297, R300, R302 to R304). -/
theorem Acc.before_of {a b : Acc} (home : Bool) (ha : a.tok.kind ≠ 2) (hb : b.tok.kind ≠ 2) (hca : a.chk = 1) (hcb : b.chk = 1)
    (h : (b.rel = true ∧ a.op.fills = true) ∨ (a.acq = true ∧ a.op ≠ .vstore) ∨
      (a.tok.kind = 0 ∧ b.tok.kind = 0 ∧ a.op ≠ .vstore) ∨ (b.op = .store ∧ a.op ≠ .vstore ∧ ∃ pa ∈ a.pas, pa ∈ b.pas)) :
    a.before b home = true := by
  have hv : a.op ≠ .vstore := by
    rcases h with ⟨-, hf⟩ | ⟨-, hn⟩ | ⟨-, -, hn⟩ | ⟨-, hn, -⟩
    · intro hv
      simp [hv, AOp.fills] at hf
    all_goals exact hn
  have hk : (a.tok.kind != 2) = true ∧ (b.tok.kind != 2) = true ∧ (a.op == .vstore) = false := by simp [ha, hb, hv]
  unfold Acc.before
  rw [hk.1, hk.2.1, hk.2.2]
  rcases h with ⟨hr, hf⟩ | ⟨hq, -⟩ | ⟨h0, h0', -⟩ | ⟨hs, -, pa, hpa, hpb⟩
  · have hp : a.plainStore = false := by
      cases ho : a.op <;> simp [ho, AOp.fills] at hf <;> simp [Acc.plainStore, ho]
    simp [hr, hp]
  · simp [hq]
  · simp [h0, h0']
  · have hsh : a.shares b = true := by
      simp only [Acc.shares, hca, hcb, List.any_eq_true, Bool.or_eq_true]
      exact .inr ⟨pa, hpa, by simpa using hpb⟩
    simp [hsh, hs, AOp.isLoad]

end Sys2Proof.Machine

namespace Sys2Proof

open Machine

/-- Settles O22: the earlier access keeps `mayPerform` false, so each of the three events only puts the access back. -/
theorem accessesPerformInOrder : Obligations.AccessesPerformInOrder := by
  unfold Obligations.AccessesPerformInOrder
  intro s c a b hf ha hlt hkb hka h e he
  have hm : a ∈ ((s.tried c b).core c).acc := by
    rw [State.core_tried]
    exact Core.mem_putAcc ha (by omega)
  have hn : ((s.tried c b).core c).mayPerform b (s.works c b) = false := by
    refine Core.mayPerform_blocked hm hlt ?_
    rcases h with ⟨hc, hka2, hkb2, h⟩ | ⟨hw, hp⟩
    · exact .inr (by simp [hc, Acc.before_of _ hka2 hkb2 hka hkb h])
    · exact .inl (by simp [hw, hp])
  rcases execAccess_no (fun p => State.ready_no p hf hkb hn) he with h | h
  · exact ⟨s, h, fun _ => rfl, fun _ => rfl, hf⟩
  · exact ⟨_, h, fun _ => rfl, State.tried_r s c b, by rw [State.core_tried]; exact Core.findAcc_putAcc hf⟩

end Sys2Proof

end

section
set_option Elab.async false

/-! SUPPORT. Where a core's stash lines are after operations at home slices (R218, R299, R306): a line that is pulled is gone from every
stash, other lines stay, and a write-back takes home what its core has written. O20, O21, O23. -/

namespace Sys2Proof.Machine

/-! ### Stashes that stay -/

section
variable (d : Nat)

theorem State.bdeckTouched_cores (s : State) (pa : Nat) : (s.bdeckTouched pa).cores = s.cores := by
  unfold State.bdeckTouched
  dsimp only
  split
  · split <;> rfl
  · rfl

theorem State.granuleWritten_cores (s : State) (pas : List Nat) (g : Nat) : (s.granuleWritten pas g).cores = s.cores := by
  unfold State.granuleWritten
  dsimp only
  split
  · rfl
  · split <;> rfl

theorem State.copiesWritten_cores (s : State) (pas : List Nat) : (s.copiesWritten pas).cores = s.cores := by
  unfold State.copiesWritten
  refine foldl_same State.cores _ (fun t g => ?_) _ _
  rfl

theorem State.mod_stash {s : State} {c : Nat} {f : Core → Core} (hf : ∀ x, (f x).stash = x.stash) :
    ((s.mod c f).core d).stash = (s.core d).stash := by
  by_cases hd : d = c
  · subst hd; rw [State.core_mod_same, hf]
  · rw [State.core_mod_other _ _ hd]

theorem State.wake_stash (s : State) (pas : List Nat) : ((s.wake pas).core d).stash = (s.core d).stash := by
  unfold State.wake
  refine foldl_same (fun t : State => (t.core d).stash) _ (fun t c => State.mod_stash d fun x => ?_) _ _
  split
  · split <;> rfl
  · rfl

/-- Bytes that take their place at their homes leave every stash alone (R299). -/
theorem State.homeApply_stash (s : State) (bytes : List (Nat × Byte)) (bad : List (Nat × Nat)) (au : Author) :
    ((s.homeApply bytes bad au).core d).stash = (s.core d).stash := by
  unfold State.homeApply
  refine (State.wake_stash d _ _).trans ?_
  unfold State.core
  rw [State.copiesWritten_cores]
  dsimp only
  rw [foldl_same State.cores (fun (t : State) g => t.granuleWritten (bytes.map Prod.fst) g) fun t g => State.granuleWritten_cores t _ g]
  show (Sparse.get {} (bytes.foldl (fun (t : State) (p : Nat × Byte) => (t.putByte p.1 p.2 (au.who p.1)).bdeckTouched p.1) s).cores d : Core).stash = _
  rw [foldl_same State.cores (fun (t : State) (p : Nat × Byte) => (t.putByte p.1 p.2 (au.who p.1)).bdeckTouched p.1)
    fun t p => State.bdeckTouched_cores _ _]

theorem State.homeLine_stash (s : State) (ln : Nat) (l : Line) : ((s.homeLine ln l).core d).stash = (s.core d).stash := by
  unfold State.homeLine
  refine (State.homeApply_stash d _ _ _ _).trans ?_
  exact foldl_same (fun t : State => (t.core d).stash) (fun (t : State) u => t.uncorrected u) (fun _ _ => rfl) _ _

theorem State.homeLine_line (s : State) (ln : Nat) (l : Line) (k : Nat) : ((s.homeLine ln l).core d).line k = (s.core d).line k :=
  congrArg (fun m => Sparse.get ({} : Line) m k) (State.homeLine_stash d s ln l)

/-! ### A line is pulled (R299) -/

theorem State.setLine_line (s : State) (c ln : Nat) (l : Line) (k : Nat) :
    ((s.mod c (fun x => x.setLine ln l)).core d).line k = if d = c ∧ k = ln then l else (s.core d).line k := by
  by_cases hd : d = c
  · subst hd; rw [State.core_mod_same, Core.line_setLine]; simp
  · rw [State.core_mod_other _ _ hd, if_neg fun h => hd h.1]

theorem State.pull_line (s : State) (ln c k : Nat) :
    ((s.pull ln c).core d).line k = if d = c ∧ k = ln then {} else (s.core d).line k := by
  unfold State.pull
  dsimp only
  split
  · next h =>
    split
    · next hd => obtain ⟨rfl, rfl⟩ := hd; exact h
    · rfl
  · split
    · exact State.setLine_line d s c ln {} k
    · exact (State.homeLine_line d _ _ _ _).trans (State.setLine_line d s c ln {} k)

theorem State.pullAll_line (ln k : Nat) (l : List Nat) : ∀ s : State, ((l.foldl (fun t c => t.pull ln c) s).core d).line k =
    if d ∈ l ∧ k = ln then {} else (s.core d).line k := by
  induction l with
  | nil => exact fun s => (if_neg fun h => List.not_mem_nil h.1).symm
  | cons c l ih =>
    intro s
    rw [List.foldl_cons, ih, State.pull_line]
    by_cases hk : k = ln <;> by_cases hd : d = c <;> simp [hk, hd]

/-- A core that the state does not list has an empty stash. -/
theorem State.core_unlisted {s : State} {d : Nat} (h : d ∉ s.coreList) : s.core d = {} := by
  unfold State.core
  unfold State.coreList at h
  generalize s.cores = m at h ⊢
  induction m with
  | nil => rfl
  | cons p m ih =>
    rw [List.map_cons, List.mem_cons, not_or] at h
    exact (if_neg (Ne.symm h.1)).trans (ih h.2)

/-- A pulled line is gone from every stash, and the other lines stay (R299). -/
theorem State.pullLine_line (s : State) (ln k : Nat) :
    ((s.pullLine ln).core d).line k = if k = ln then {} else (s.core d).line k := by
  refine (State.pullAll_line d ln k s.coreList s).trans ?_
  by_cases hd : d ∈ s.coreList
  · simp [hd]
  · rw [if_neg fun h => hd h.1, State.core_unlisted hd]
    split <;> rfl

end

/-- After a line is pulled no stash holds a written byte of it. -/
theorem State.pullLine_unwritten (s : State) {ln pa : Nat} (h : pa / 64 = ln) (d : Nat) : ¬WroteAt (s.pullLine ln) d pa := by
  unfold WroteAt Core.wroteByte
  rw [h, State.pullLine_line, if_pos rfl]
  simp

/-! ### A write-back (R218, R306) -/

/-- A property that each element keeps and some element brings about holds at the end of a fold. -/
theorem foldl_brings {α β : Type} {P Q : β → Prop} {f : β → α → β} {l : List α} {a : α} (ha : a ∈ l) (hP : ∀ b x, P b → P (f b x))
    (hQ : ∀ b x, Q b → Q (f b x)) (hPQ : ∀ b, P b → Q (f b a)) {b : β} (hb : P b) : Q (l.foldl f b) := by
  induction l generalizing b with
  | nil => exact absurd ha List.not_mem_nil
  | cons x l ih =>
    rcases List.mem_cons.1 ha with rfl | h
    · exact foldl_keeps Q f hQ l _ (hPQ b hb)
    · exact ih h (hP b x hb)

/-- Where a byte of core `c`'s stash line `l` is once the line has gone home: no stash holds it written, and it is at its home. -/
def TakenHome (l : Line) (pa : Nat) (t : State) : Prop :=
  (∀ d, ¬WroteAt t d pa) ∧ (l.wrote.getLsbD (pa % 64) = true → t.byte pa = l.byte (pa % 64))

theorem TakenHome.homes {l : Line} {pa : Nat} {t u : State} (h : TakenHome l pa t) (k : Homes t u []) : TakenHome l pa u := by
  refine ⟨fun d hw => h.1 d (HomeFrame.wroteAt k.frame hw).1, fun hl => ?_⟩
  rcases k.bytes pa List.not_mem_nil with e | ⟨d, hw, -⟩
  · exact e.trans (h.2 hl)
  · exact absurd hw (h.1 d)

/-- One line of a write-back. -/
def State.lineBack (t : State) (c ln : Nat) : State :=
  let l := (t.core c).line ln
  let v := ((t.mod c (fun x => x.setLine ln {})).pullLine ln).homeLine ln l
  v.mod c (fun x => x.setLine ln (v.keepClean ln l.cleaned))

theorem State.lineBack_homes (t : State) (c ln : Nat) : Homes t (t.lineBack c ln) [] := by
  unfold State.lineBack
  extract_lets l v
  have hv : Homes t v [] := State.takeHome_homes (State.pullLine_homes _ _) rfl
  have hw : (v.keepClean ln l.cleaned).wrote = 0#64 := State.keepClean_wrote _ _ _
  clear_value v
  exact Homes.trans hv (State.mod_homes (HomeCore.setLine _ _ hw) _)

theorem State.lineBack_other (t : State) (c : Nat) {ln k : Nat} (h : k ≠ ln) : ((t.lineBack c ln).core c).line k = (t.core c).line k := by
  refine (State.setLine_line _ _ _ _ _ _).trans ?_
  rw [if_neg fun e => h e.2, State.homeLine_line, State.pullLine_line, if_neg h, State.setLine_line, if_neg fun e => h e.2]

theorem State.homeLine_takes {s : State} {pa : Nat} (h : ∀ d, ¬WroteAt s d pa) (l : Line) : TakenHome l pa (s.homeLine (pa / 64) l) := by
  obtain ⟨h2, b2⟩ := State.homeLine_homes s (pa / 64) l
  exact ⟨fun d hw => h d (HomeFrame.wroteAt h2.frame hw).1, fun hl => (b2 pa).trans (if_pos ⟨rfl, hl⟩)⟩

theorem State.lineBack_takes (t : State) (c pa : Nat) : TakenHome ((t.core c).line (pa / 64)) pa (t.lineBack c (pa / 64)) := by
  unfold State.lineBack
  extract_lets l v
  have hv : TakenHome l pa v := State.homeLine_takes (State.pullLine_unwritten _ rfl) l
  have hw : (v.keepClean (pa / 64) l.cleaned).wrote = 0#64 := State.keepClean_wrote _ _ _
  clear_value v
  exact hv.homes (State.mod_homes (HomeCore.setLine _ _ hw) _)

theorem State.writeBack_eq (s : State) (c : Nat) (which : Nat → Bool) : s.writeBack c which =
    (s.core c).stash.foldl (fun t p => if which p.1 ∧ p.2.dirty ≠ 0#4 then t.lineBack c p.1 else t) s := rfl

/-- A line of a write-back's core stays as it is, or has gone home. -/
theorem State.lineBack_step {t : State} {c pa : Nat} {l : Line} (which : Nat → Bool) (p : Nat × Line)
    (h : (t.core c).line (pa / 64) = l ∨ TakenHome l pa t) :
    ((if which p.1 ∧ p.2.dirty ≠ 0#4 then t.lineBack c p.1 else t).core c).line (pa / 64) = l ∨
      TakenHome l pa (if which p.1 ∧ p.2.dirty ≠ 0#4 then t.lineBack c p.1 else t) := by
  split
  · rcases h with h | h
    · by_cases hp : pa / 64 = p.1
      · rw [← hp, ← h]
        exact .inr (State.lineBack_takes t c pa)
      · exact .inl ((State.lineBack_other t c hp).trans h)
    · exact .inr (h.homes (State.lineBack_homes t c p.1))
  · exact h

theorem State.writeBack_line (s : State) (c : Nat) (which : Nat → Bool) (pa : Nat) :
    ((s.writeBack c which).core c).line (pa / 64) = (s.core c).line (pa / 64) ∨
      TakenHome ((s.core c).line (pa / 64)) pa (s.writeBack c which) := by
  rw [State.writeBack_eq]
  exact foldl_keeps (fun t : State => (t.core c).line (pa / 64) = (s.core c).line (pa / 64) ∨ TakenHome ((s.core c).line (pa / 64)) pa t) _
    (fun t p h => State.lineBack_step which p h) _ _ (.inl rfl)

/-- A listed value that is not the default stands in the list. -/
theorem Sparse.mem_of_get {α : Type} {d : α} {m : Sparse α} {k : Nat} (h : Sparse.get d m k ≠ d) : (k, Sparse.get d m k) ∈ m := by
  induction m with
  | nil => exact absurd rfl h
  | cons p m ih =>
    by_cases hp : p.1 = k
    · have e : Sparse.get d (p :: m) k = p.2 := if_pos hp
      rw [e, ← hp]
      exact List.mem_cons_self
    · have e : Sparse.get d (p :: m) k = Sparse.get d m k := if_neg hp
      rw [e] at h ⊢
      exact List.mem_cons_of_mem _ (ih h)

/-- A dirty line that a write-back takes is home at its end. -/
theorem State.writeBack_takes {s : State} {c pa : Nat} {which : Nat → Bool} (hw : which (pa / 64) = true)
    (hd : ((s.core c).line (pa / 64)).dirty ≠ 0#4) : TakenHome ((s.core c).line (pa / 64)) pa (s.writeBack c which) := by
  have hm : (pa / 64, (s.core c).line (pa / 64)) ∈ (s.core c).stash :=
    Sparse.mem_of_get fun h => hd ((congrArg Line.dirty h).trans rfl)
  rw [State.writeBack_eq]
  refine foldl_brings (P := fun t : State => (t.core c).line (pa / 64) = (s.core c).line (pa / 64) ∨
    TakenHome ((s.core c).line (pa / 64)) pa t) hm (fun t p h => State.lineBack_step which p h) (fun t p h => ?_) (fun t h => ?_) (.inl rfl)
  · split
    · exact h.homes (State.lineBack_homes t c p.1)
    · exact h
  · rw [if_pos ⟨hw, hd⟩]
    rcases h with h | h
    · have hk := State.lineBack_takes t c pa
      rw [h] at hk
      exact hk
    · exact h.homes (State.lineBack_homes t c _)

/-- A flush leaves what the core had dirty at its home, and nothing dirty (R218, R306). -/
theorem State.flush_takes {s : State} {c pa : Nat} (hd : DirtyAt s c pa) :
    (s.flush c).byte pa = ((s.core c).line (pa / 64)).byte (pa % 64) :=
  (State.writeBack_takes rfl hd.1).2 hd.2

theorem State.flush_clean (s : State) (c pa : Nat) : ¬DirtyAt (s.flush c) c pa := by
  rintro ⟨hd, hw⟩
  rcases State.writeBack_line s c (fun _ => true) pa with h | h
  · have hk : ((s.core c).line (pa / 64)).dirty ≠ 0#4 := h ▸ hd
    exact (State.writeBack_takes (which := fun _ => true) rfl hk).1 c hw
  · exact h.1 c hw

end Sys2Proof.Machine
end

section
set_option Elab.async false

/-! SUPPORT. Fences (R306, R312): what they wait for, what a release kind's work leaves, and what the happens-before of one leaves alone.
O23. -/

namespace Sys2Proof.Machine

/-! ### What a fence waits for -/

section
variable {s : State} {k : HoldK}

/-- What a word that drains waits for is read of the state in which it holds its context. -/
theorem State.holds_me (s : State) (k : HoldK) : ((s.read []).holds k).me = s.me.heldBy s.now s.ctx k := by
  show ((s.read []).holds k).core s.cur = _
  rw [State.holds_core, Core.touch_nil]

theorem State.holds_core_other (s : State) (k : HoldK) {d : Nat} (h : d ≠ s.cur) : ((s.read []).holds k).core d = s.core d :=
  (State.holds_quiet s [] k).1.only.others d h

theorem State.holds_hbOf (s : State) (k : HoldK) : ((s.read []).holds k).hbOf s.cur s.ctx = s.hbOf s.cur s.ctx := by
  unfold State.hbOf
  rw [State.holds_core, Core.touch_nil]
  have hh : (s.me.heldBy s.now s.ctx k).q.hctx s.ctx = (s.core s.cur).q.hctx s.ctx := by
    unfold Core.heldBy Seq.leave
    by_cases h : s.ctx = 0 <;> simp [h, Core.seq, Core.tickId, Seq.setHold, Seq.hctx, State.me]
  rw [hh]
  rfl

theorem fenceReads_holds (scope n : Nat) : fenceReads scope ((s.read []).holds k) n = fenceReads scope s n := by
  unfold fenceReads
  rw [State.holds_me]
  have hb : ((s.read []).holds k).hbOf ((s.read []).holds k).cur ((s.read []).holds k).ctx = s.hbOf s.cur s.ctx := State.holds_hbOf s k
  rw [hb]
  rfl

theorem fenceAll_holds (scope n : Nat) : fenceAll scope ((s.read []).holds k) n = fenceAll scope s n := by
  unfold fenceAll State.unackedAt
  rw [State.holds_me]
  have hc : ((s.read []).holds k).core ((s.read []).holds k).cur = s.me.heldBy s.now s.ctx k := State.holds_me s k
  rw [hc]
  rfl

/-- An earlier load or atomic, or a publish that one must force, keeps an acquire fence waiting (R308, R312). -/
theorem fenceReads_waits {scope n : Nat} (h : (∃ a ∈ s.me.acc, a.ctx = s.ctx ∧ a.id < n ∧ a.op.fills = true) ∨
    ∃ ln ∈ (s.hbOf s.cur s.ctx).lines, s.mustForce s.cur ln scope ≠ []) : fenceReads scope s n = false := by
  refine Bool.eq_false_iff.2 fun hr => ?_
  simp only [fenceReads, Bool.and_eq_true, List.all_eq_true, List.isEmpty_iff, Bool.or_eq_true, bne_iff_ne, decide_eq_true_eq,
    Bool.not_eq_true'] at hr
  obtain ⟨⟨⟨hacc, -⟩, -⟩, hl⟩ := hr
  rcases h with ⟨a, ha, hc, hlt, hf⟩ | ⟨ln, hm, hne⟩
  · rcases hacc a ha with (h1 | h1) | h1
    · exact h1 hc
    · omega
    · rw [hf] at h1; cases h1
  · exact hne (hl ln hm)

/-- An earlier access keeps a release fence waiting (R312). -/
theorem fenceAll_waits {scope n : Nat} {a : Acc} (ha : a ∈ s.me.acc) (hc : a.ctx = s.ctx) (hlt : a.id < n) : fenceAll scope s n = false := by
  refine Bool.eq_false_iff.2 fun hr => ?_
  simp only [fenceAll, Bool.and_eq_true, List.all_eq_true, Bool.or_eq_true, bne_iff_ne, decide_eq_true_eq] at hr
  obtain ⟨⟨hacc, -⟩, -⟩ := hr
  rcases hacc a ha with ⟨h1, -⟩ | h1
  · exact h1 hc
  · omega

end

/-! ### What a fence leaves -/

/-- What a fence changes in memory and accesses, and leaves alone (R306). -/
def FenceKeeps (s : State) (scope : Nat) (rel : Bool) (t : State) : Prop :=
  RegistersKept s t ∧ (t.core s.cur).c = s.me.c ∧ (rel = false ∨ 1 ≤ scope → (t.core s.cur).acc = s.me.acc) ∧
  (t.core s.cur).acc.map (fun a => { a with overtaken := false }) = s.me.acc.map (fun a => { a with overtaken := false }) ∧
  (rel = false ∨ scope = 0 → ∀ pa, t.byte pa = s.byte pa) ∧
  (rel = true → 1 ≤ scope → (∀ pa, DirtyAt s s.cur pa → t.byte pa = (s.me.line (pa / 64)).byte (pa % 64)) ∧
    (∀ pa, ¬DirtyAt t s.cur pa) ∧ BytesKept s t [])

/-- The running context stands where it did. -/
structure StandsAt (s u : State) : Prop where
  cur : u.cur = s.cur
  ctx : u.ctx = s.ctx
  pc : (u.core s.cur).q.pcOf s.ctx = s.me.q.pcOf s.ctx
  loops : (u.core s.cur).q.loops = s.me.q.loops
  tact : (u.core s.cur).q.tact = s.me.q.tact

theorem StandsAt.trans {s t u : State} (h : StandsAt s t) (k : StandsAt t u) : StandsAt s u := by
  have hm : t.me = t.core s.cur := by rw [State.me, h.cur]
  refine ⟨k.cur.trans h.cur, k.ctx.trans h.ctx, ?_, ?_, ?_⟩
  · have := k.pc
    rw [hm, h.cur, h.ctx] at this
    exact this.trans h.pc
  · have := k.loops
    rw [hm, h.cur] at this
    exact this.trans h.loops
  · have := k.tact
    rw [hm, h.cur] at this
    exact this.trans h.tact

theorem StandsAt.passes {s u : State} (h : StandsAt s u) : Passes s (u.done 1) 1 :=
  State.done_passes h.cur h.ctx Nat.one_pos h.pc h.loops h.tact

/-- What a fence leaves is told of registers, accesses, stashes and memory alone. -/
theorem FenceKeeps.congr {s u t : State} {scope : Nat} {rel : Bool} (h : FenceKeeps s scope rel u) (hr : ∀ d, (t.core d).r = (u.core d).r)
    (hc : (t.core s.cur).c = (u.core s.cur).c) (ha : (t.core s.cur).acc = (u.core s.cur).acc)
    (hs : (t.core s.cur).stash = (u.core s.cur).stash) (hm : t.mem = u.mem) : FenceKeeps s scope rel t := by
  obtain ⟨h1, h2, h3, h4, h5, h6⟩ := h
  have hb : ∀ pa, t.byte pa = u.byte pa := fun pa => Homes.mem_eq hm pa
  have hd : ∀ pa, DirtyAt t s.cur pa ↔ DirtyAt u s.cur pa := fun pa => by
    unfold DirtyAt WroteAt Core.wroteByte Core.line
    rw [hs]
  refine ⟨fun d => (hr d).trans (h1 d), hc.trans h2, fun h => ha.trans (h3 h), by rw [ha]; exact h4, fun h pa => (hb pa).trans (h5 h pa),
    fun e1 e2 => ?_⟩
  obtain ⟨k1, k2, k3⟩ := h6 e1 e2
  exact ⟨fun pa hp => (hb pa).trans (k1 pa hp), fun pa hp => k2 pa ((hd pa).1 hp), fun pa hp => by rw [hb]; exact k3 pa hp⟩

/-- A change of happens-before alone. -/
structure HbOnly (u v : State) : Prop where
  cores : v.cores = u.cores
  mem : v.mem = u.mem
  cur : v.cur = u.cur
  ctx : v.ctx = u.ctx

theorem HbOnly.trans {u v w : State} (h : HbOnly u v) (k : HbOnly v w) : HbOnly u w :=
  ⟨k.cores.trans h.cores, k.mem.trans h.mem, k.cur.trans h.cur, k.ctx.trans h.ctx⟩

theorem HbOnly.core {u v : State} (h : HbOnly u v) (d : Nat) : v.core d = u.core d := by unfold State.core; rw [h.cores]

theorem HbOnly.hbMod (u : State) (c ctx : Nat) (f : Hb → Hb) : HbOnly u (u.hbMod c ctx f) := ⟨rfl, rfl, rfl, rfl⟩

theorem HbOnly.takeAt (u : State) (key c ctx scope : Nat) : HbOnly u (u.takeAt key c ctx scope) := by
  unfold State.takeAt
  dsimp only
  split
  · exact ⟨rfl, rfl, rfl, rfl⟩
  · exact HbOnly.hbMod u c ctx _

theorem HbOnly.leaveAt (u : State) (key c ctx id : Nat) : HbOnly u (u.leaveAt key c ctx id) := ⟨rfl, rfl, rfl, rfl⟩

theorem HbOnly.fenceAcquires (u : Bool) (scope : Nat) (s : State) : HbOnly s (fenceAcquires u scope s) := by
  unfold Machine.fenceAcquires
  exact HbOnly.hbMod s _ _ _

theorem HbOnly.fenceReleases (u : Bool) (scope n : Nat) (s : State) : HbOnly s (fenceReleases u scope n s) := by
  unfold Machine.fenceReleases
  exact HbOnly.hbMod s _ _ _

theorem HbOnly.fenceOrders (u : Bool) (scope n : Nat) (s : State) : HbOnly s (fenceOrders u scope n s) := by
  unfold Machine.fenceOrders
  have h := (HbOnly.takeAt s (orderKey s.cfg scope s.cur) s.cur s.ctx scope).trans
    (HbOnly.leaveAt _ (orderKey s.cfg scope s.cur) s.cur s.ctx n)
  dsimp only
  split
  · exact h.trans (HbOnly.hbMod _ _ _ _)
  · exact h

/-- A fence has done its work on memory and accesses, and its context stands where it did. -/
structure FenceDone (s : State) (scope : Nat) (rel : Bool) (u : State) : Prop where
  stands : StandsAt s u
  keeps : FenceKeeps s scope rel u

theorem FenceDone.hb {s u v : State} {scope : Nat} {rel : Bool} (h : FenceDone s scope rel u) (k : HbOnly u v) : FenceDone s scope rel v where
  stands := by
    obtain ⟨h1, h2, h3, h4, h5⟩ := h.stands
    refine ⟨k.cur.trans h1, k.ctx.trans h2, ?_, ?_, ?_⟩ <;> rw [k.core] <;> assumption
  keeps := h.keeps.congr (fun d => by rw [k.core]) (by rw [k.core]) (by rw [k.core]) (by rw [k.core]) k.mem

theorem FenceDone.passes {s u : State} {scope : Nat} {rel : Bool} (h : FenceDone s scope rel u) :
    Passes s (u.done 1) 1 ∧ FenceKeeps s scope rel (u.done 1) := by
  have hd := State.done_core (n := 1) h.stands.cur h.stands.ctx
  refine ⟨h.stands.passes, h.keeps.congr (fun d => ?_) (by rw [hd]; rfl) (by rw [hd]; rfl) (by rw [hd]; rfl) rfl⟩
  by_cases hc : d = s.cur
  · subst hc; rw [hd]; rfl
  · rw [State.done_core_other h.stands.cur hc]

/-- A fence of a kind that releases nothing has nothing to do (R312). -/
theorem State.holds_fenceDone (s : State) (k : HoldK) (scope : Nat) : FenceDone s scope false ((s.read []).holds k) := by
  have hm : ((s.read []).holds k).core s.cur = s.me.heldBy s.now s.ctx k := State.holds_me s k
  obtain ⟨hpc, hl⟩ := Core.heldBy_goes s.me s.now s.ctx k
  have ho := (State.holds_quiet s [] k).1
  refine ⟨⟨rfl, rfl, by rw [hm]; exact hpc, by rw [hm]; exact hl, ho.core.tact⟩, fun d => ?_, by rw [hm]; rfl, fun _ => by rw [hm]; rfl,
    by rw [hm]; rfl, fun _ => ho.only.bytes, nofun⟩
  by_cases hc : d = s.cur
  · subst hc; exact ho.regs
  · rw [State.holds_core_other s k hc]

/-- A flush leaves the context where it stood (R306). -/
theorem HomeFrame.standsAt {s u : State} (h : HomeFrame s u) : StandsAt s u := by
  have hq := h.core_q s.cur
  refine ⟨h.cur, h.ctx, ?_, ?_, ?_⟩ <;> rw [hq] <;> rfl

theorem State.holds_line (s : State) (k : HoldK) (d ln : Nat) : (((s.read []).holds k).core d).line ln = (s.core d).line ln := by
  by_cases hc : d = s.cur
  · subst hc; rw [State.holds_core, Core.touch_nil]; rfl
  · rw [State.holds_core_other s k hc]

/-- The work of a release fence at a scope wider than core (R306). -/
theorem fenceWork_wide (s : State) (k : HoldK) {scope : Nat} (hs : 1 ≤ scope) : FenceDone s scope true (fenceWork scope ((s.read []).holds k)) := by
  have h0 := State.holds_fenceDone s k scope
  have hl := State.holds_line s k
  have hbyte : ∀ pa, ((s.read []).holds k).byte pa = s.byte pa := (State.holds_quiet s [] k).1.only.bytes
  unfold fenceWork
  rw [if_pos hs]
  generalize (s.read []).holds k = u at h0 hl hbyte ⊢
  have hw : ∀ d pa, WroteAt u d pa ↔ WroteAt s d pa := fun d pa => by
    unfold WroteAt Core.wroteByte
    rw [hl]
  have hf := State.flush_homes u u.cur
  have hcl := State.flush_clean u u.cur
  have htk := fun pa => State.flush_takes (s := u) (c := u.cur) (pa := pa)
  rw [h0.stands.cur] at hf hcl htk ⊢
  have hd : FenceDone s scope true (u.flush s.cur) := by
    obtain ⟨k1, k2, k3, k4, -, -⟩ := h0.keeps
    refine ⟨h0.stands.trans hf.frame.standsAt, fun d => (hf.frame.core_r d).trans (k1 d), (hf.frame.core_c _).trans k2,
      fun _ => (hf.frame.core_acc _).trans (k3 (.inl rfl)), by rw [hf.frame.core_acc]; exact k4, fun h => ?_, fun _ _ => ⟨fun pa hp => ?_, hcl, fun pa hp => ?_⟩⟩
    · rcases h with h | h
      · cases h
      · omega
    · rw [htk pa ⟨by rw [hl]; exact hp.1, (hw _ _).2 hp.2⟩, hl]
      rfl
    · rcases hf.bytes pa hp with e | ⟨d, hd, e⟩
      · exact .inl (e.trans (hbyte pa))
      · exact .inr ⟨d, (hw d pa).1 hd, by rw [e, hl]⟩
  split
  · exact hd.hb ⟨rfl, rfl, rfl, rfl⟩
  · exact hd

/-- The work of a release fence at core scope (R306). -/
theorem fenceWork_core (s : State) (k : HoldK) : FenceDone s 0 true (fenceWork 0 ((s.read []).holds k)) := by
  have h0 := State.holds_fenceDone s k 0
  unfold fenceWork
  rw [if_neg (by decide), if_neg (by decide)]
  generalize (s.read []).holds k = u at h0 ⊢
  obtain ⟨⟨h1, h2, h3, h4, h5⟩, k1, k2, -, k4, k5, -⟩ := h0
  have hc : (u.upd (fun x => x.overtake u.hold.since)).core s.cur = (u.core s.cur).overtake u.hold.since := by
    rw [← h1]; exact State.core_upd u _
  refine ⟨⟨h1, h2, by rw [hc]; exact h3, by rw [hc]; exact h4, by rw [hc]; exact h5⟩, fun d => ?_, by rw [hc]; exact k2, fun h => ?_, ?_,
    fun _ => k5 (.inl rfl), fun _ h => absurd h (by decide)⟩
  · by_cases hd : d = s.cur
    · subst hd; rw [hc]; exact k1 s.cur
    · rw [State.core_upd_other u _ (h1.symm ▸ hd)]; exact k1 d
  · rcases h with h | h
    · cases h
    · exact absurd h (by decide)
  · rw [hc, ← k4]
    show ((u.core s.cur).acc.map _).map _ = _
    rw [List.map_map]
    refine List.map_congr_left fun a _ => ?_
    dsimp only [Function.comp]
    split <;> rfl

theorem fenceWork_done (s : State) (k : HoldK) (scope : Nat) : FenceDone s scope true (fenceWork scope ((s.read []).holds k)) := by
  rcases Nat.eq_zero_or_pos scope with rfl | h
  · exact fenceWork_core s k
  · exact fenceWork_wide s k h

/-! ### The words -/

section
variable {s : State} {u : Bool} {scope : Nat}

theorem exec_fenceAcq_ready (hm : MayIssue (.fenceAcq u scope) [] s) : exec (.fenceAcq u scope) s =
    if fenceReads scope s s.me.q.nid = true then .next ((fenceAcquires u scope ((s.read []).holds (.fence scope))).done 1)
    else .next ((s.read []).holds (.fence scope)) := by
  rw [← fenceReads_holds (k := .fence scope)]
  exact (show exec (.fenceAcq u scope) s = execFenceAcq u scope s from rfl).trans (drainWord_ready hm (by simp) _ _)

theorem exec_fenceRel_ready (hm : MayIssue (.fenceRel u scope) [] s) : exec (.fenceRel u scope) s =
    if fenceAll scope s s.me.q.nid = true then
      .next ((fenceReleases u scope ((s.read []).holds .drain).hold.since (fenceWork scope ((s.read []).holds .drain))).done 1)
    else .next ((s.read []).holds .drain) := by
  rw [← fenceAll_holds (k := .drain)]
  exact (show exec (.fenceRel u scope) s = execFenceRel u scope s from rfl).trans (drainWord_ready hm (by simp) _ _)

theorem exec_fenceAr_ready (hm : MayIssue (.fenceAr u scope) [] s) : exec (.fenceAr u scope) s =
    if (fenceReads scope s s.me.q.nid && fenceAll scope s s.me.q.nid) = true then
      .next ((fenceReleases u scope ((s.read []).holds (.fence scope)).hold.since
        (fenceAcquires u scope (fenceWork scope ((s.read []).holds (.fence scope))))).done 1)
    else .next ((s.read []).holds (.fence scope)) := by
  rw [← fenceReads_holds (k := .fence scope), ← fenceAll_holds (k := .fence scope)]
  exact (show exec (.fenceAr u scope) s = execFenceAr u scope s from rfl).trans (drainWord_ready hm (by simp) _ _)

theorem exec_fenceSc_ready (hm : MayIssue (.fenceSc u scope) [] s) : exec (.fenceSc u scope) s =
    if (fenceReads scope s s.me.q.nid && fenceAll scope s s.me.q.nid) = true then
      .next ((fenceOrders u scope ((s.read []).holds (.fence scope)).hold.since
        (fenceReleases u scope ((s.read []).holds (.fence scope)).hold.since
          (fenceAcquires u scope (fenceWork scope ((s.read []).holds (.fence scope)))))).done 1)
    else .next ((s.read []).holds (.fence scope)) := by
  rw [← fenceReads_holds (k := .fence scope), ← fenceAll_holds (k := .fence scope)]
  exact (show exec (.fenceSc u scope) s = execFenceSc u scope s from rfl).trans (drainWord_ready hm (by simp) _ _)

/-- An acquiring fence that must wait holds its context. -/
theorem fenceAcquiring_waits {i : Instr} (hi : i ∈ [Instr.fenceAcq u scope, .fenceAr u scope, .fenceSc u scope]) (hm : MayIssue i [] s)
    (h : fenceReads scope s s.me.q.nid = false) : exec i s = .next ((s.read []).holds (.fence scope)) := by
  simp only [List.mem_cons, List.not_mem_nil, or_false] at hi
  rcases hi with rfl | rfl | rfl
  · rw [exec_fenceAcq_ready hm, if_neg (by rw [h]; decide)]
  · rw [exec_fenceAr_ready hm, h, Bool.false_and, if_neg (by decide)]
  · rw [exec_fenceSc_ready hm, h, Bool.false_and, if_neg (by decide)]

end

end Sys2Proof.Machine

namespace Sys2Proof

open Machine

/-- Settles O23: a fence that waits for nothing more does its kind's work, which `FenceDone` describes; one that waits holds its context. -/
theorem fences : Obligations.Fences := by
  unfold Obligations.Fences
  intro s u scope
  refine ⟨fun hr _ hm => ?_, fun ha _ hm => ?_, fun hr ha _ hm => ?_, fun hr ha _ hm => ?_, fun h i hi _ hm => ?_, fun a ha hc hlt _ hm => ?_⟩
  · rw [exec_fenceAcq_ready hm, if_pos hr]
    exact ⟨_, rfl, ((State.holds_fenceDone s _ scope).hb (HbOnly.fenceAcquires u scope _)).passes⟩
  · rw [exec_fenceRel_ready hm, if_pos ha]
    exact ⟨_, rfl, ((fenceWork_done s _ scope).hb (HbOnly.fenceReleases u scope _ _)).passes⟩
  · rw [exec_fenceAr_ready hm, if_pos (by rw [hr, ha]; rfl)]
    exact ⟨_, rfl, ((fenceWork_done s _ scope).hb ((HbOnly.fenceAcquires u scope _).trans (HbOnly.fenceReleases u scope _ _))).passes⟩
  · rw [exec_fenceSc_ready hm, if_pos (by rw [hr, ha]; rfl)]
    exact ⟨_, rfl, ((fenceWork_done s _ scope).hb (((HbOnly.fenceAcquires u scope _).trans (HbOnly.fenceReleases u scope _ _)).trans
      (HbOnly.fenceOrders u scope _ _))).passes⟩
  · exact ⟨_, fenceAcquiring_waits hi hm (fenceReads_waits h), State.holds_quiet s [] _⟩
  · rw [exec_fenceRel_ready hm, if_neg (by rw [fenceAll_waits ha hc hlt]; decide)]
    exact ⟨_, rfl, State.holds_quiet s [] _⟩

end Sys2Proof

end

section
set_option Elab.async false

/-! SUPPORT. Accesses that perform (R299, R306, R309, R338): an access that may land is there for its event, registers fill, and the bytes
of a clean place stay clean while stashes go home. O20, O21. -/

namespace Sys2Proof.Machine

/-! ### Little-endian bytes -/

@[simp] theorem leBytes_length (n : Nat) : ∀ v, (leBytes n v).length = n := by
  induction n with
  | zero => exact fun _ => rfl
  | succ n ih => exact fun v => congrArg (· + 1) (ih _)

theorem leNat_lt (l : List Byte) : leNat l < 2 ^ (8 * l.length) := by
  induction l with
  | nil => decide
  | cons b l ih =>
    have hb := b.isLt
    have e : 2 ^ (8 * (l.length + 1)) = 256 * 2 ^ (8 * l.length) := by rw [Nat.mul_succ, Nat.pow_add, Nat.mul_comm]
    show b.toNat + 256 * leNat l < 2 ^ (8 * (l.length + 1))
    omega

/-- The bytes of a number that fits in them give the number back. -/
theorem leNat_leBytes (n : Nat) : ∀ v, v < 2 ^ (8 * n) → leNat (leBytes n v) = v := by
  induction n with
  | zero => intro v hv; simp at hv; subst hv; rfl
  | succ n ih =>
    intro v hv
    have e : 2 ^ (8 * (n + 1)) = 256 * 2 ^ (8 * n) := by rw [Nat.mul_succ, Nat.pow_add, Nat.mul_comm]
    show (BitVec.ofNat 8 v).toNat + 256 * leNat (leBytes n (v / 256)) = v
    rw [ih _ (by omega), BitVec.toNat_ofNat]
    omega

/-- A loaded value extended by its type (R129). -/
theorem extend_eq (sg : Bool) (w v : Nat) (hv : v < 2 ^ (8 * w)) : extend sg w v =
    if sg then (BitVec.ofNat (8 * w) v).signExtend 64 else (BitVec.ofNat (8 * w) v).setWidth 64 := by
  have hn : (BitVec.ofNat (8 * w) v).toNat = v := by rw [BitVec.toNat_ofNat, Nat.mod_eq_of_lt hv]
  have hz : BitVec.ofNat 64 v = (BitVec.ofNat (8 * w) v).setWidth 64 := by
    apply BitVec.eq_of_toNat_eq
    rw [BitVec.toNat_setWidth, hn, BitVec.toNat_ofNat]
  unfold extend
  cases sg with
  | false => rw [if_neg (by simp), hz]; rfl
  | true =>
    rw [if_pos rfl]
    show _ = BitVec.ofInt 64 (BitVec.ofNat (8 * w) v).toInt
    rw [BitVec.toInt_eq_toNat_cond, hn]
    by_cases h : 2 ^ (8 * w) ≤ 2 * v
    · rw [if_pos ⟨rfl, h⟩, if_neg (by omega)]
    · rw [if_neg fun e => h e.2, if_pos (by omega), ← BitVec.ofInt_natCast]

/-! ### Registers that fill (R96, R141) -/

section
variable (x : Core) {ctx d id : Nat} (v : Word)

theorem Core.rdS_fillS_same : (x.fillS ctx d id v).rdS ctx d = if d = 0 then 0#64 else v := by
  by_cases h : d = 0
  · simp [Core.rdS, h]
  · simp [Core.fillS, Core.dropS, Core.rdS, h]

theorem Core.rdS_fillS_other {k r : Nat} (hr : r < 64) (hd : d < 64) (h : ¬(k = ctx ∧ r = d)) :
    (x.fillS ctx d id v).rdS k r = x.rdS k r := by
  by_cases h0 : d = 0
  · simp [Core.fillS, h0]
  · by_cases h1 : r = 0
    · simp [Core.rdS, h1]
    · simp only [Core.fillS, Core.dropS, Core.rdS, h0, h1, if_false]
      exact Sparse.get_set_other _ _ _ (sKey_ne hr hd h)

theorem Core.not_mem_fillS : id ∉ (x.fillS ctx d id v).sMarks ctx d := by
  by_cases h : d = 0
  · simp [Core.sMarks, h]
  · simp [Core.fillS, Core.dropS, Core.sMarks, h]

theorem Core.of_mem_dropAcc {b : Acc} (h : b ∈ (x.dropAcc id).acc) : b.id ≠ id := by
  simpa using (List.mem_filter.1 h).2

end

/-! ### An access that may land -/

section
variable {s : State} {c : Nat} {a : Acc}

theorem Core.mayPerform_of {x : Core} {b : Acc} {work : Bool} (h : ∀ e ∈ x.acc, e.id < b.id →
    (e.ctx = b.ctx → e.before b (x.atHome b) = false) ∧ (work = true → e.plainStore = false)) : x.mayPerform b work = true := by
  refine List.all_eq_true.2 fun e he => ?_
  by_cases hlt : e.id < b.id
  · obtain ⟨h1, h2⟩ := h e he hlt
    have hw : (work && e.plainStore) = false := by
      cases work with
      | false => rfl
      | true => exact h2 rfl
    have hb : (e.ctx == b.ctx && e.before b (x.atHome b)) = false := by
      by_cases hc : e.ctx = b.ctx
      · simp [h1 hc]
      · simp [hc]
    simp [hw, hb]
  · simp [Nat.le_of_not_lt hlt]

/-- An access that may land is there for its event. -/
theorem MayLand.ready (h : MayLand s c a) {p : AOp → Bool} (hp : p a.op = true) : s.ready c a.id p = .yes (s.tried c a) a := by
  have hma : ∀ e ∈ ((s.tried c a).core c).acc, e = a ∨ e ∈ (s.core c).acc := fun e he => by
    rw [State.core_tried] at he
    exact (Core.of_mem_putAcc he).imp id And.left
  have hmay : ((s.tried c a).core c).mayPerform a (s.works c a) = true := Core.mayPerform_of fun e he hlt => by
    rcases hma e he with rfl | hm
    · exact absurd hlt (Nat.lt_irrefl _)
    · have := h.order e hm hlt
      rw [State.core_tried]
      exact this
  have hcore : ∀ f : Core → Bool, (∀ x : Core, f (x.putAcc a) = f x) → f ((s.tried c a).core c) = f (s.core c) := fun f hf => by
    rw [State.core_tried, hf]
  have hun : ∀ scope n, (s.tried c a).unackedAt c scope n = s.unackedAt c scope n := fun scope n => by
    unfold State.unackedAt
    exact hcore (fun x => x.unacked.any (fun p => decide (p.1 < n) && decide (4 ≤ scope) && (scope == 5 || s.cfg.tier p.2.1 = .fabric)))
      fun _ => rfl
  have hrel : (s.tried c a).relReady c a = true := by
    unfold State.relReady
    cases hr : a.rel with
    | false => rfl
    | true =>
      have := h.released hr
      unfold State.releaseReady at this ⊢
      rw [hun]
      exact this
  have hacq : (s.tried c a).acqReady c a = true := by
    unfold State.acqReady
    cases hq : a.acq with
    | false => rfl
    | true =>
      obtain ⟨h1, h2⟩ := h.acquired hq
      have h3 : ((s.tried c a).core c).noneOvertaken a.ctx = true := List.all_eq_true.2 fun e he => by
        rcases hma e he with rfl | hm
        · simp
        · exact List.all_eq_true.1 h2 e hm
      have h1' : (s.tried c a).acquireReady c a.scope a.pas = true := h1
      rw [h1', h3]
      rfl
  have hpop : a.tok.kind = 2 ∨ (s.tried c a).popPending c a.ctx a.id = false := h.pops.imp_right fun hq => by
    rw [← hq]
    unfold State.popPending
    have hd : ((s.tried c a).core c).deliv = (s.core c).deliv := by rw [State.core_tried]; rfl
    rw [hd]
    rfl
  rw [State.ready_checked h.found h.checked hp, if_pos ⟨hmay, hrel, hacq, hpop, h.linked⟩]

/-- An access whose check failed is there for its event too. -/
theorem State.ready_failed {p : AOp → Bool} (hf : (s.core c).findAcc a.id = some a) (hk : a.chk = 2) (hp : p a.op = true) :
    s.ready c a.id p = .failed (s.tried c a) a := by
  unfold State.ready
  simp only [hf, hk, hp, if_neg (by decide : ¬((!true) = true ∨ 2 = 3)), if_neg (by decide : ¬2 = 0), if_pos]
  rfl

theorem MayLand.reachable (h : MayLand s c a) : a.pas.any (s.tried c a).unreachable = false := by
  rw [List.any_eq_false]
  intro pa hpa
  obtain ⟨hu, -⟩ := h.clean pa hpa
  have e : (s.tried c a).unreachable pa = s.unreachable pa := rfl
  rw [e, hu]
  decide

theorem MayLand.alone_tried (h : MayLand s c a) : ((s.tried c a).core c).partner = none := by
  rw [State.core_tried]
  exact h.alone

/-- A stash holds no mark and no error where its lines hold none (R338). -/
theorem Core.line_clean {x : Core} (h : ∀ p ∈ x.stash, p.2.bad = [] ∧ p.2.hard = []) (ln : Nat) : (x.line ln).bad = [] ∧ (x.line ln).hard = [] := by
  by_cases e : x.line ln = {}
  · rw [e]; exact ⟨rfl, rfl⟩
  · exact h _ (Sparse.mem_of_get (d := ({} : Line)) e)

end

/-! ### A clean place stays clean while stashes go home (R338) -/

/-- The bytes `pas` are reachable and carry no error, no stash holds one, and none holds them dirty. -/
structure Calm (s : State) (pas : List Nat) : Prop where
  clean : Clean s pas
  lines : ∀ d ln, ((s.core d).line ln).bad = [] ∧ ((s.core d).line ln).hard = []
  undirty : ∀ pa ∈ pas, ∀ d, ¬DirtyAt s d pa

/-- A step that keeps a place calm and its bytes. -/
structure CalmStep (s t : State) (pas : List Nat) : Prop where
  calm : Calm t pas
  bytes : ∀ pa ∈ pas, t.byte pa = s.byte pa

theorem CalmStep.refl {s : State} {pas : List Nat} (h : Calm s pas) : CalmStep s s pas := ⟨h, fun _ _ => rfl⟩

theorem CalmStep.trans {s t u : State} {pas : List Nat} (h : CalmStep s t pas) (k : CalmStep t u pas) : CalmStep s u pas :=
  ⟨k.calm, fun pa hp => (k.bytes pa hp).trans (h.bytes pa hp)⟩

theorem CalmStep.foldl {α : Type} {f : State → α → State} {pas : List Nat} (hf : ∀ t x, Calm t pas → CalmStep t (f t x) pas) (l : List α) :
    ∀ {s : State}, Calm s pas → CalmStep s (l.foldl f s) pas := by
  induction l with
  | nil => exact fun h => CalmStep.refl h
  | cons x l ih => exact fun h => (hf _ x h).trans (ih (hf _ x h).calm)

/-- A place is as calm where its marks, its errors and the stashes are as they were. -/
theorem clean_congr {s t : State} {pas : List Nat} (h : Clean s pas) (hc : t.cfg = s.cfg) (hr : t.io.reach = s.io.reach) (hd : t.w.dirtyCopy = s.w.dirtyCopy)
    (hb : t.w.badCopy = s.w.badCopy) (hh : t.w.hard = s.w.hard) (hp : t.w.poison = s.w.poison) : Clean t pas := by
  intro pa hpa
  unfold State.unreachable
  rw [hc, hr, hd, hb, hh, hp]
  exact h pa hpa

theorem Sparse.get_set_zero {m : Sparse Nat} {j k : Nat} (h : Sparse.get 0 m j = 0) : Sparse.get 0 (Sparse.set 0 m k 0) j = 0 := by
  by_cases e : j = k
  · subst e; exact Sparse.get_set_same 0 m j 0
  · rw [Sparse.get_set_other 0 m 0 e]; exact h

theorem granuleWritten_clean {s : State} {pas : List Nat} (h : Clean s pas) (ps : List Nat) (g : Nat) : Clean (s.granuleWritten ps g) pas := by
  intro pa hpa
  obtain ⟨h1, h2, h3, h4, h5⟩ := h pa hpa
  unfold State.granuleWritten
  dsimp only
  split
  · exact ⟨h1, h2, h3, Sparse.get_set_zero h4, Sparse.get_set_zero h5⟩
  · split
    · next hne =>
      have hg : s.cfg.granule pa ≠ g := fun e => hne (e ▸ h4)
      exact ⟨h1, h2, h3, (Sparse.get_set_other 0 s.w.hard 0 hg).trans h4,
        (Sparse.get_set_other 0 s.w.poison (Sparse.get 0 s.w.hard g) hg).trans h5⟩
    · exact ⟨h1, h2, h3, h4, h5⟩

theorem get_dropCopy {m : Sparse Nat} {j : Nat} (ln : Nat) (h : Sparse.get 0 m j = 0) : Sparse.get 0 (dropCopy m ln) j = 0 :=
  foldl_keeps (fun m => Sparse.get 0 m j = 0) _ (fun _ _ hm => Sparse.get_set_zero hm) _ _ h

theorem copiesWritten_clean {s : State} {pas : List Nat} (h : Clean s pas) (ps : List Nat) : Clean (s.copiesWritten ps) pas := by
  unfold State.copiesWritten
  refine foldl_keeps (fun t => Clean t pas) _ (fun t g ht pa hpa => ?_) _ _ h
  obtain ⟨h1, h2, h3, h4, h5⟩ := ht pa hpa
  refine ⟨h1, ?_, ?_, h4, h5⟩
  · by_cases e : pa / 8 = g
    · subst e
      refine (Sparse.get_set_same 0 t.w.dirtyCopy _ _).trans ?_
      rw [h2]
      split <;> rfl
    · exact (Sparse.get_set_other 0 t.w.dirtyCopy _ e).trans h2
  · show Sparse.get 0 (if Sparse.get 0 t.w.badCopy g = 0 then t.w.badCopy else if decide (8 ≤ (ps.filter (fun p => p / 8 == g)).length) = true
      then Sparse.set 0 t.w.badCopy g 0 else dropCopy t.w.badCopy (g / 8)) (pa / 8) = 0
    split
    · exact h3
    · split
      · exact Sparse.get_set_zero h3
      · exact get_dropCopy _ h3

theorem State.modAll_w (s : State) (f : Nat → Core → Core) : (s.modAll f).w = s.w := by
  unfold State.modAll
  exact foldl_same State.w _ (fun _ _ => by rfl) _ _

theorem putAll_clean {s : State} {pas : List Nat} (h : Clean s pas) (bytes : List (Nat × Byte)) (who : Nat → Nat × Nat) :
    Clean (bytes.foldl (fun (t : State) (p : Nat × Byte) => (t.putByte p.1 p.2 (who p.1)).bdeckTouched p.1) s) pas := by
  refine foldl_keeps (fun t => Clean t pas) _ (fun t p ht => ?_) _ _ h
  have hw : ((t.putByte p.1 p.2 (who p.1)).bdeckTouched p.1).w = t.w ∧ ((t.putByte p.1 p.2 (who p.1)).bdeckTouched p.1).io = t.io ∧
      ((t.putByte p.1 p.2 (who p.1)).bdeckTouched p.1).cfg = t.cfg := by
    unfold State.bdeckTouched
    dsimp only
    split
    · split <;> exact ⟨rfl, rfl, rfl⟩
    · exact ⟨rfl, rfl, rfl⟩
  obtain ⟨hw, hio, hcfg⟩ := hw
  exact clean_congr ht hcfg (by rw [hio]) (by rw [hw]) (by rw [hw]) (by rw [hw]) (by rw [hw])

/-- Bytes without marks that take their place leave a clean place clean. -/
theorem homeApply_clean {s : State} {pas : List Nat} (h : Clean s pas) (bytes : List (Nat × Byte)) (au : Author) :
    Clean (s.homeApply bytes [] au) pas := by
  have hg := foldl_keeps (fun t => Clean t pas) (fun (t : State) g => t.granuleWritten (bytes.map Prod.fst) g)
    (fun t g ht => granuleWritten_clean ht _ g) ((bytes.map Prod.fst).map s.cfg.granule).eraseDups
    ((bytes.foldl (fun (t : State) (p : Nat × Byte) => (t.putByte p.1 p.2 (au.who p.1)).bdeckTouched p.1) s).leaveMsg (bytes.map Prod.fst) au)
    (clean_congr (putAll_clean h bytes au.who) rfl rfl rfl rfl rfl rfl)
  have hm : ∀ t : State, Clean t pas → Clean (t.wake (bytes.map Prod.fst)) pas := fun t ht => by
    have hf : HomeFrame t (t.wake (bytes.map Prod.fst)) := (State.wake_homes t _ []).frame
    have hw : (t.wake (bytes.map Prod.fst)).w = t.w := by
      unfold State.wake
      exact State.modAll_w t _
    exact clean_congr ht hf.cfg hf.reach (by rw [hw]) (by rw [hw]) (by rw [hw]) (by rw [hw])
  exact hm _ (copiesWritten_clean (clean_congr hg rfl rfl rfl rfl rfl rfl) _)

/-- A line without marks and errors goes home. -/
theorem State.homeLine_eq (s : State) (ln : Nat) {l : Line} (hm : l.dirtyMarks ln = []) (hf : l.foundUnits = []) :
    s.homeLine ln l = { s.homeApply (l.dirtyBytes ln) [] { who := l.author } with
      msgs := l.msg.foldl (fun (m : Sparse (List Msg)) p => Sparse.set [] m (ln * 64 + p.1) p.2)
        (s.homeApply (l.dirtyBytes ln) [] { who := l.author }).msgs } := by
  unfold State.homeLine
  rw [hm, hf]
  rfl

/-- A clean line of a stash goes home beside a calm place. -/
theorem State.homeLine_calm {s : State} {pas : List Nat} (h : Calm s pas) (ln : Nat) {l : Line} (hb : l.bad = []) (hh : l.hard = [])
    (hu : ∀ pa ∈ pas, pa / 64 = ln → l.wrote.getLsbD (pa % 64) = false) : CalmStep s (s.homeLine ln l) pas := by
  have hbad : ∀ g, l.badAt g = 0 := fun g => by unfold Line.badAt; rw [hb, hh]; rfl
  have hm : l.dirtyMarks ln = [] := by
    unfold Line.dirtyMarks
    simp [hbad]
  have hf : l.foundUnits = [] := by
    unfold Line.foundUnits
    simp [hh]
  have hline := fun d k => State.homeLine_line d s ln l k
  refine ⟨⟨?_, fun d k => ?_, fun pa hpa d hd => ?_⟩, fun pa hpa => ?_⟩
  · have hc := homeApply_clean h.clean (l.dirtyBytes ln) { who := l.author }
    rw [State.homeLine_eq s ln hm hf]
    generalize s.homeApply (l.dirtyBytes ln) [] { who := l.author } = u at hc
    exact clean_congr hc rfl rfl rfl rfl rfl rfl
  · rw [hline]; exact h.lines d k
  · refine h.undirty pa hpa d ?_
    unfold DirtyAt WroteAt Core.wroteByte at hd ⊢
    rwa [hline] at hd
  · obtain ⟨-, b⟩ := State.homeLine_homes s ln l
    rw [b, if_neg]
    rintro ⟨h1, h2⟩
    rw [hu pa hpa h1] at h2
    cases h2

/-- A line dropped from a stash. -/
theorem State.dropLine_calm {s : State} {pas : List Nat} (h : Calm s pas) (c ln : Nat) :
    CalmStep s (s.mod c (fun x => x.setLine ln {})) pas := by
  have hline := fun d k => State.setLine_line d s c ln {} k
  refine ⟨⟨clean_congr h.clean rfl rfl rfl rfl rfl rfl, fun d k => ?_, fun pa hpa d hd => ?_⟩, fun _ _ => rfl⟩
  · rw [hline]
    split
    · exact ⟨rfl, rfl⟩
    · exact h.lines d k
  · refine h.undirty pa hpa d ?_
    unfold DirtyAt WroteAt Core.wroteByte at hd ⊢
    rw [hline] at hd
    split at hd
    · exact absurd rfl hd.1
    · exact hd

/-- A line that is dirty where a place is not dirty has written none of its bytes. -/
theorem Calm.unwritten {s : State} {pas : List Nat} (h : Calm s pas) {c ln : Nat} (hd : ((s.core c).line ln).dirty ≠ 0#4) :
    ∀ pa ∈ pas, pa / 64 = ln → ((s.core c).line ln).wrote.getLsbD (pa % 64) = false := by
  rintro pa hpa rfl
  exact Bool.eq_false_iff.2 fun hw => h.undirty pa hpa c ⟨hd, hw⟩

theorem State.pull_calm {s : State} {pas : List Nat} (h : Calm s pas) (ln c : Nat) : CalmStep s (s.pull ln c) pas := by
  unfold State.pull
  dsimp only
  split
  · exact CalmStep.refl h
  · have hd := State.dropLine_calm h c ln
    split
    · exact hd
    · next hne =>
      obtain ⟨hb, hh⟩ := h.lines c ln
      exact hd.trans (State.homeLine_calm hd.calm ln hb hh (h.unwritten hne))

theorem State.pullLine_calm {s : State} {pas : List Nat} (h : Calm s pas) (ln : Nat) : CalmStep s (s.pullLine ln) pas :=
  CalmStep.foldl (fun _ c ht => State.pull_calm ht ln c) _ h

theorem State.pullFor_calm {s : State} {pas : List Nat} (h : Calm s pas) (ps : List Nat) : CalmStep s (s.pullFor ps) pas :=
  CalmStep.foldl (fun _ ln ht => State.pullLine_calm ht ln) _ h

theorem State.bypass_calm {s : State} {pas : List Nat} (h : Calm s pas) (c : Nat) (ps : List Nat) : CalmStep s (s.bypass c ps) pas := by
  refine CalmStep.foldl (fun t ln ht => ?_) _ h
  dsimp only
  split
  · exact CalmStep.refl ht
  · next hne =>
    have h1 := State.dropLine_calm ht c ln
    have h2 := State.pullLine_calm h1.calm ln
    obtain ⟨hb, hh⟩ := ht.lines c ln
    exact (h1.trans h2).trans (State.homeLine_calm h2.calm ln hb hh (ht.unwritten hne))

/-! ### A read finds nothing bad at a clean place (R338) -/

/-- What a read that finds nothing bad may change: a correctable error is corrected and counted. -/
structure Reads (c : Nat) (s t : State) : Prop where
  rest : t = { s with cores := t.cores, w := { s.w with soft := t.w.soft, corr := t.w.corr, log := t.w.log } }
  others : ∀ d, d ≠ c → t.core d = s.core d
  mine : t.core c = { s.core c with stash := (t.core c).stash }
  lines : ∀ ln, (t.core c).line ln = { (s.core c).line ln with soft := ((t.core c).line ln).soft }

theorem Reads.refl (c : Nat) (s : State) : Reads c s s := ⟨rfl, fun _ _ => rfl, rfl, fun _ => rfl⟩

theorem Reads.trans {c : Nat} {s t u : State} (h : Reads c s t) (k : Reads c t u) : Reads c s u where
  rest := by
    calc u = _ := k.rest
      _ = _ := by rw [h.rest]
  others d hd := (k.others d hd).trans (h.others d hd)
  mine := by
    calc u.core c = _ := k.mine
      _ = _ := by rw [h.mine]
  lines ln := by
    calc (u.core c).line ln = _ := k.lines ln
      _ = _ := by rw [h.lines]

theorem Reads.clean {c : Nat} {s t : State} {pas : List Nat} (h : Reads c s t) (hc : Clean s pas) : Clean t pas :=
  clean_congr hc (by rw [h.rest]) (by rw [h.rest]) (by rw [h.rest]) (by rw [h.rest]) (by rw [h.rest]) (by rw [h.rest])

theorem Reads.corrected (c : Nat) (s : State) (u : Nat) : Reads c s (s.corrected u) := ⟨rfl, fun _ _ => rfl, rfl, fun _ => rfl⟩

/-- A line of the core's stash whose correctable errors change. -/
theorem Reads.setSoft (s : State) (c ln : Nat) (m : Sparse Nat) :
    Reads c s (s.mod c (fun x => x.setLine ln { (s.core c).line ln with soft := m })) := by
  have hl := State.setLine_line c s c ln { (s.core c).line ln with soft := m }
  refine ⟨rfl, fun d hd => State.core_mod_other s _ hd, ?_, fun k => ?_⟩
  · rw [State.core_mod_same]; rfl
  · rw [hl]
    split
    · next e => rw [e.2]
    · rfl

theorem State.find_clean {s : State} (c : Nat) {pa : Nat} {pas : List Nat} (h : Clean s pas) (hpa : pa ∈ pas) :
    ∃ t, s.find pa = (t, none) ∧ Reads c s t := by
  obtain ⟨h1, h2, h3, h4, h5⟩ := h pa hpa
  unfold State.find
  simp only [h1, h2, h3, h4, h5, if_false, Bool.false_eq_true, ne_eq, not_true_eq_false, if_neg (by decide : ¬2 ^ 16 < 0)]
  split
  · exact ⟨_, rfl, rfl, fun _ _ => rfl, rfl, fun _ => rfl⟩
  · exact ⟨_, rfl, Reads.refl c s⟩

theorem State.findAll_clean (c : Nat) {pas : List Nat} : ∀ (l : List Nat) {s : State}, Clean s pas → (∀ pa ∈ l, pa ∈ pas) →
    ∃ t, s.findAll l = (t, none) ∧ Reads c s t := by
  intro l
  induction l with
  | nil => exact fun {s} _ _ => ⟨s, rfl, Reads.refl c s⟩
  | cons pa l ih =>
    intro s h hl
    obtain ⟨t, ht, hr⟩ := State.find_clean c h (hl pa List.mem_cons_self)
    obtain ⟨u, hu, hk⟩ := ih (hr.clean h) fun q hq => hl q (List.mem_cons_of_mem _ hq)
    refine ⟨u, ?_, hr.trans hk⟩
    unfold State.findAll
    rw [ht]
    exact hu

/-- A stash whose line holds no mark and no error gives up its byte (R338). -/
theorem State.findStash_clean {s : State} {c : Nat} (pa : Nat)
    (h : ((s.core c).line (pa / 64)).bad = [] ∧ ((s.core c).line (pa / 64)).hard = []) : ∃ t, s.findStash c pa = (t, none) ∧ Reads c s t := by
  obtain ⟨hb, hh⟩ := h
  have h1 : Sparse.get 0 ((s.core c).line (pa / 64)).hard (pa % 64 / 8) = 0 := by rw [hh]; rfl
  have h2 : Sparse.get 0 ((s.core c).line (pa / 64)).bad (pa % 64 / 8) = 0 := by rw [hb]; rfl
  unfold State.findStash
  dsimp only
  rw [if_neg (by rw [h1]; simp), if_neg (by rw [h2]; simp)]
  split
  · exact ⟨_, rfl, (Reads.setSoft s c _ _).trans (Reads.corrected c _ _)⟩
  · exact ⟨_, rfl, Reads.refl c s⟩

/-- What a consumption finds of one byte. -/
def State.consumeOne (s : State) (c ctx id : Nat) (home : Bool) (pa : Nat) : State × Option (Nat × Nat) :=
  if home then s.find pa
  else match (s.core c).ownStore ctx id pa with
    | some (_, 0) => (s, none)
    | some (_, u + 1) => (s, some (kPoison, u))
    | none => if ((s.core c).stashByte pa).isSome then s.findStash c pa else s.find pa

theorem State.consume_cons {s t : State} {c ctx id : Nat} {home : Bool} {pa : Nat} (l : List Nat)
    (h : s.consumeOne c ctx id home pa = (t, none)) : s.consume c ctx id home (pa :: l) = t.consume c ctx id home l := by
  have e : s.consume c ctx id home (pa :: l) = (match s.consumeOne c ctx id home pa with
    | (t, some e) => (t, some e)
    | (t, none) => t.consume c ctx id home l) := rfl
  rw [e, h]

theorem State.consumeOne_clean {s : State} {c ctx id : Nat} {home : Bool} {pas : List Nat} {pa : Nat} (h : Clean s pas) (hpa : pa ∈ pas)
    (hst : ∀ ln, ((s.core c).line ln).bad = [] ∧ ((s.core c).line ln).hard = [])
    (hown : ∀ p, (s.core c).ownStore ctx id pa = some p → p.2 = 0) : ∃ t, s.consumeOne c ctx id home pa = (t, none) ∧ Reads c s t := by
  have hfind := State.find_clean c h hpa
  unfold State.consumeOne
  split
  · exact hfind
  · split
    · exact ⟨s, rfl, Reads.refl c s⟩
    · next u e => exact absurd (hown _ e) (Nat.succ_ne_zero u)
    · split
      · exact State.findStash_clean pa (hst _)
      · exact hfind

/-- A load finds nothing bad where its bytes are clean, its core's stash is, and its context's stores are (R338, R339). -/
theorem State.consume_clean (c ctx id : Nat) (home : Bool) {pas : List Nat} : ∀ (l : List Nat) {s : State}, Clean s pas →
    (∀ ln, ((s.core c).line ln).bad = [] ∧ ((s.core c).line ln).hard = []) →
    (∀ pa ∈ l, ∀ p, (s.core c).ownStore ctx id pa = some p → p.2 = 0) → (∀ pa ∈ l, pa ∈ pas) →
    ∃ t, s.consume c ctx id home l = (t, none) ∧ Reads c s t := by
  intro l
  induction l with
  | nil => exact fun {s} _ _ _ _ => ⟨s, rfl, Reads.refl c s⟩
  | cons pa l ih =>
    intro s h hst hown hl
    obtain ⟨t, ht, hr⟩ := State.consumeOne_clean (home := home) h (hl pa List.mem_cons_self) hst (hown pa List.mem_cons_self)
    have hcore : (t.core c).ownStore ctx id = (s.core c).ownStore ctx id := by rw [hr.mine]; rfl
    obtain ⟨u, hu, hk⟩ := ih (hr.clean h) (fun ln => by rw [hr.lines]; exact hst ln) (fun q hq => by
      rw [hcore]; exact hown q (List.mem_cons_of_mem _ hq)) fun q hq => hl q (List.mem_cons_of_mem _ hq)
    exact ⟨u, (State.consume_cons l ht).trans hu, hr.trans hk⟩

end Sys2Proof.Machine
end

section
set_option Elab.async false

/-! SUPPORT. Atomics perform (R315, R316): the operation, and what the bytes and the register hold afterwards. O21. -/

namespace Sys2Proof.Machine

/-! ### What flows between stashes and homes -/

/-- Registers stay; outside `pas` a byte stays or takes what a core had written of it, and no core has written more. -/
structure Flow (s t : State) (pas : List Nat) : Prop where
  regs : RegistersKept s t
  bytes : BytesKept s t pas
  wrote : ∀ d pa, WroteAt t d pa → WroteAt s d pa ∧ ((t.core d).line (pa / 64)).byte (pa % 64) = ((s.core d).line (pa / 64)).byte (pa % 64)

theorem Homes.flow {s t : State} {pas : List Nat} (h : Homes s t pas) : Flow s t pas :=
  ⟨h.frame.registers, h.bytes, fun _ _ hw => HomeFrame.wroteAt h.frame hw⟩

theorem Flow.trans {s t u : State} {pas : List Nat} (h : Flow s t pas) (k : Flow t u pas) : Flow s u pas where
  regs c := (k.regs c).trans (h.regs c)
  bytes pa hpa := by
    rcases k.bytes pa hpa with e | ⟨d, hw, e⟩
    · rw [e]; exact h.bytes pa hpa
    · obtain ⟨hw', e'⟩ := h.wrote d pa hw
      exact .inr ⟨d, hw', e.trans e'⟩
  wrote d pa hw := by
    obtain ⟨h1, e1⟩ := k.wrote d pa hw
    obtain ⟨h2, e2⟩ := h.wrote d pa h1
    exact ⟨h2, e1.trans e2⟩

theorem Flow.mono {s t : State} {p q : List Nat} (h : Flow s t p) (hpq : ∀ x ∈ p, x ∈ q) : Flow s t q :=
  ⟨h.regs, fun pa hpa => h.bytes pa fun hp => hpa (hpq pa hp), h.wrote⟩

/-- A step that leaves memory, registers and stashes alone. -/
theorem Flow.of_same {s t : State} (pas : List Nat) (hm : t.mem = s.mem) (hr : ∀ d, (t.core d).r = (s.core d).r)
    (hs : ∀ d, (t.core d).stash = (s.core d).stash) : Flow s t pas := by
  have hl : ∀ d ln, (t.core d).line ln = (s.core d).line ln := fun d ln => congrArg (fun m => Sparse.get ({} : Line) m ln) (hs d)
  refine ⟨hr, fun pa _ => .inl (Homes.mem_eq hm pa), fun d pa hw => ?_⟩
  unfold WroteAt Core.wroteByte at hw ⊢
  rw [hl] at hw ⊢
  exact ⟨hw, rfl⟩

theorem Reads.flow {c : Nat} {s t : State} (h : Reads c s t) (pas : List Nat) : Flow s t pas := by
  refine ⟨fun d => ?_, fun pa _ => .inl (Homes.mem_eq (by rw [h.rest]) pa), fun d pa hw => ?_⟩
  · by_cases hd : d = c
    · subst hd; rw [h.mine]
    · rw [h.others d hd]
  · unfold WroteAt Core.wroteByte at hw ⊢
    by_cases hd : d = c
    · subst hd
      rw [h.lines] at hw ⊢
      exact ⟨hw, rfl⟩
    · rw [h.others d hd] at hw ⊢
      exact ⟨hw, rfl⟩

theorem State.hear_eq (s : State) (c ctx kind : Nat) (acq : Bool) (scope : Nat) (pas : List Nat) (at' : Option Nat) :
    s.hear c ctx kind acq scope pas at' =
      { s with hb := (s.hear c ctx kind acq scope pas at').hb, seen := (s.hear c ctx kind acq scope pas at').seen } := by
  unfold State.hear
  dsimp only
  repeat' split
  all_goals rfl

/-! ### A write at the home slices -/

/-- Addresses without repetition pair with one value each. -/
theorem zip_unique {α : Type} {pas : List Nat} {l : List α} (hn : pas.Nodup) {p q : Nat × α} (hp : p ∈ pas.zip l) (hq : q ∈ pas.zip l)
    (h : p.1 = q.1) : p.2 = q.2 := by
  obtain ⟨i, hi, rfl⟩ := List.mem_iff_getElem.1 hp
  obtain ⟨j, hj, rfl⟩ := List.mem_iff_getElem.1 hq
  simp only [List.getElem_zip] at h ⊢
  obtain rfl := (List.Nodup.getElem_inj_iff hn).1 h
  rfl

/-- Only the core's unacknowledged stores change where bytes go far (R306). -/
theorem State.farStores_eq (s : State) (c id : Nat) (pas : List Nat) :
    s.farStores c id pas = s ∨ ∃ l, s.farStores c id pas = s.mod c (fun x => { x with unacked := x.unacked ++ l }) := by
  unfold State.farStores
  dsimp only
  split
  · exact .inl rfl
  · exact .inr ⟨_, rfl⟩

theorem State.farStores_flow (s : State) (c id : Nat) (ps pas : List Nat) : Flow s (s.farStores c id ps) pas ∧
    (s.farStores c id ps).mem = s.mem ∧ ((s.farStores c id ps).core c).acc = (s.core c).acc := by
  rcases State.farStores_eq s c id ps with e | ⟨l, e⟩
  · rw [e]; exact ⟨Homes.flow (Homes.refl s pas), rfl, rfl⟩
  · rw [e]
    refine ⟨Flow.of_same pas rfl (fun d => ?_) (fun d => ?_), rfl, by rw [State.core_mod_same]⟩ <;>
    · by_cases hd : d = c
      · subst hd; rw [State.core_mod_same]
      · rw [State.core_mod_other _ _ hd]

/-- A store at its home slices: its bytes take their place, and the others flow (R299, R306). -/
theorem State.homeStore_flow (s : State) (c id : Nat) (bytes : List (Nat × Byte)) (bad : List (Nat × Nat)) (au : Author) :
    Flow s (s.homeStore c id bytes bad au) (bytes.map Prod.fst) ∧ ((s.homeStore c id bytes bad au).core c).acc = (s.core c).acc ∧
    ∀ pa b, pa ∈ bytes.map Prod.fst → (∀ p ∈ bytes, p.1 = pa → p.2 = b) → (s.homeStore c id bytes bad au).byte pa = b := by
  have h1 : Homes s (s.bypass c (bytes.map Prod.fst)) (bytes.map Prod.fst) := Homes.mono (State.bypass_homes s c _) nofun
  have h2 := State.homeWrite_homes (s.bypass c (bytes.map Prod.fst)) bytes bad au
  obtain ⟨h3, m3, a3⟩ := State.farStores_flow ((s.bypass c (bytes.map Prod.fst)).homeWrite bytes bad au) c id (bytes.map Prod.fst)
    (bytes.map Prod.fst)
  refine ⟨(Homes.trans h1 h2).flow.trans h3, a3.trans ((h2.frame.core_acc c).trans (h1.frame.core_acc c)), fun pa b hin hb => ?_⟩
  exact (Homes.mem_eq m3 pa).trans (State.homeWrite_byte bad au hin hb)

theorem State.homeStore_bytes (s : State) (c id : Nat) {pas : List Nat} {l : List Byte} (bad : List (Nat × Nat)) (au : Author)
    (hn : pas.Nodup) : ∀ p ∈ pas.zip l, (s.homeStore c id (pas.zip l) bad au).byte p.1 = p.2 := by
  intro p hp
  obtain ⟨-, -, hb⟩ := State.homeStore_flow s c id (pas.zip l) bad au
  exact hb p.1 p.2 (List.mem_map_of_mem hp) fun q hq he => zip_unique hn hq hp he

/-- Bytes that read as a list does make the number that the list makes. -/
theorem State.map_byte_of_zip {t : State} : ∀ {pas : List Nat} {l : List Byte}, l.length = pas.length → (∀ p ∈ pas.zip l, t.byte p.1 = p.2) →
    pas.map t.byte = l := by
  intro pas
  induction pas with
  | nil => exact fun h _ => (List.length_eq_zero_iff.1 h).symm
  | cons pa pas ih =>
    intro l hl h
    cases l with
    | nil => cases hl
    | cons b l =>
      have h1 : t.byte pa = b := h (pa, b) (by simp)
      have h2 := ih (l := l) (Nat.succ.inj hl) fun p hp => h p (by simp [hp])
      rw [List.map_cons, h1, h2]

/-! ### The operations (R315) -/

theorem toInt_ofNat {n v : Nat} (hv : v < 2 ^ n) : (BitVec.ofNat n v).toInt = if 2 ^ n ≤ 2 * v then (v : Int) - (2 ^ n : Nat) else v := by
  rw [BitVec.toInt_eq_toNat_cond, BitVec.toNat_ofNat, Nat.mod_eq_of_lt hv]
  by_cases h : 2 * v < 2 ^ n
  · rw [if_pos h, if_neg (by omega)]
  · rw [if_neg h, if_pos (by omega)]

theorem amoNew_minS {w old a : Nat} (b : Nat) (ho : old < 2 ^ (8 * w)) (ha : a < 2 ^ (8 * w)) : amoNew 4 w old a b =
    if (BitVec.ofNat (8 * w) old).toInt ≤ (BitVec.ofNat (8 * w) a).toInt then old else a := by
  rw [toInt_ofNat ho, toInt_ofNat ha]
  rfl

theorem amoNew_maxS {w old a : Nat} (b : Nat) (ho : old < 2 ^ (8 * w)) (ha : a < 2 ^ (8 * w)) : amoNew 5 w old a b =
    if (BitVec.ofNat (8 * w) old).toInt ≤ (BitVec.ofNat (8 * w) a).toInt then a else old := by
  rw [toInt_ofNat ho, toInt_ofNat ha]
  rfl

theorem amoMeans_amoNew {op w old a : Nat} (b : Nat) (ho : old < 2 ^ (8 * w)) (ha : a < 2 ^ (8 * w)) :
    amoMeans op w old a b (amoNew op w old a b) := by
  unfold amoMeans
  dsimp only
  refine ⟨?_, ?_, ?_, ?_, ?minS, ?maxS, ?minN, ?maxN, ?_, ?_, ?_, ?_⟩ <;> rintro rfl
  case minS =>
    rw [amoNew_minS b ho ha]
    split
    · next h => exact ⟨.inl rfl, Int.le_refl _, h⟩
    · next h => exact ⟨.inr rfl, by omega, Int.le_refl _⟩
  case maxS =>
    rw [amoNew_maxS b ho ha]
    split
    · next h => exact ⟨.inr rfl, h, Int.le_refl _⟩
    · next h => exact ⟨.inl rfl, Int.le_refl _, by omega⟩
  case minN =>
    show (min old a = old ∨ min old a = a) ∧ min old a ≤ old ∧ min old a ≤ a
    omega
  case maxN =>
    show (max old a = old ∨ max old a = a) ∧ old ≤ max old a ∧ a ≤ max old a
    omega
  all_goals rfl

theorem choice_lt {p : Prop} [Decidable p] {x y m : Nat} (hx : x < m) (hy : y < m) : (if p then x else y) < m := by
  split
  · exact hx
  · exact hy

theorem fmaxR42_lt {n a b : Nat} (hn : 2 ^ 32 ≤ n) (ha : a < n) (hb : b < n) : fmaxR42 a b < n := by
  unfold fmaxR42
  dsimp only
  split
  · exact Nat.lt_of_lt_of_le (by decide) hn
  · split
    · exact hb
    · exact ha

/-- What an atomic leaves fits in its bytes. -/
theorem amoNew_lt {op w old a b : Nat} (hw : w = 4 ∨ w = 8) (hop : op ≤ 9 ∨ op = 16 ∨ op = 17) (ho : old < 2 ^ (8 * w))
    (ha : a < 2 ^ (8 * w)) (hb : b < 2 ^ (8 * w)) : amoNew op w old a b < 2 ^ (8 * w) := by
  have hm : 2 ^ 32 ≤ 2 ^ (8 * w) := by rcases hw with rfl | rfl <;> decide
  have hadd : (old + a) % 2 ^ (8 * w) < 2 ^ (8 * w) := Nat.mod_lt _ (Nat.two_pow_pos _)
  have hmin : min old a < 2 ^ (8 * w) := Nat.lt_of_le_of_lt (Nat.min_le_left _ _) ho
  have hmax : max old a < 2 ^ (8 * w) := Nat.max_lt.2 ⟨ho, ha⟩
  have hand : Nat.land old a < 2 ^ (8 * w) := Nat.and_lt_two_pow old ha
  have hor : Nat.lor old a < 2 ^ (8 * w) := Nat.or_lt_two_pow ho ha
  have hxor : Nat.xor old a < 2 ^ (8 * w) := Nat.xor_lt_two_pow ho ha
  have hfm := fmaxR42_lt hm ho ha
  rcases hop with hop | rfl | rfl
  · interval_cases op
    · exact hadd
    · exact hand
    · exact hor
    · exact hxor
    · exact choice_lt ho ha
    · exact choice_lt ha ho
    · exact hmin
    · exact hmax
    · exact ha
    · exact choice_lt hb ho
  · exact hfm
  · exact Nat.two_pow_pos (8 * w)

/-! ### An atomic performs (R315, R316) -/

theorem State.tried_flow (s : State) (c : Nat) (a : Acc) (pas : List Nat) : Flow s (s.tried c a) pas := by
  refine Flow.of_same pas rfl (State.tried_r s c a) fun d => ?_
  by_cases hd : d = c
  · subst hd; rw [State.core_tried]; rfl
  · rw [State.core_tried_other s a hd]

section
variable {s : State} {c : Nat} {a : Acc}

/-- An access tried at a calm place is at a calm place. -/
theorem State.tried_calm (hm : MayLand s c a) (hst : StashesClean s) (hd : ∀ pa ∈ a.pas, ∀ d, ¬DirtyAt s d pa) : Calm (s.tried c a) a.pas := by
  have hl : ∀ d ln, ((s.tried c a).core d).line ln = (s.core d).line ln := fun d ln => by
    by_cases h : d = c
    · subst h; rw [State.core_tried]; rfl
    · rw [State.core_tried_other s a h]
  refine ⟨clean_congr hm.clean rfl rfl rfl rfl rfl rfl, fun d ln => ?_, fun pa hpa d hdd => hd pa hpa d ?_⟩
  · rw [hl]; exact Core.line_clean (hst d) ln
  · unfold DirtyAt WroteAt Core.wroteByte at hdd ⊢
    rwa [hl] at hdd

/-- The read of an atomic at a calm place (R315): the stashes of its lines have gone home, the bytes are as they were, and nothing bad is
found. -/
theorem State.rmw_reads {t : State} {c : Nat} {a : Acc} (hc : Calm t a.pas) :
    ∃ u, (((t.bypass c a.pas).pullFor a.pas).hear c a.ctx a.tok.kind a.acq a.scope a.pas none).findAll a.pas = (u, none) ∧
      Flow t u [] ∧ (∀ pa ∈ a.pas, u.byte pa = t.byte pa) ∧ (u.core c).acc = (t.core c).acc := by
  have c1 := State.bypass_calm hc c a.pas
  have c2 := State.pullFor_calm c1.calm a.pas
  have f1 := State.bypass_homes t c a.pas
  have f2 := State.pullFor_homes (t.bypass c a.pas) a.pas
  have ha : (((t.bypass c a.pas).pullFor a.pas).core c).acc = (t.core c).acc := (f2.frame.core_acc c).trans (f1.frame.core_acc c)
  have hb := (c1.trans c2).bytes
  have hf := (Homes.trans f1 f2).flow
  have hcl := c2.calm.clean
  generalize (t.bypass c a.pas).pullFor a.pas = v at ha hb hf hcl ⊢
  have hh := State.hear_eq v c a.ctx a.tok.kind a.acq a.scope a.pas none
  generalize v.hear c a.ctx a.tok.kind a.acq a.scope a.pas none = w at hh ⊢
  have hcores : ∀ d, w.core d = v.core d := fun d => by rw [hh]; rfl
  have hmem : w.mem = v.mem := by rw [hh]
  have hw : Clean w a.pas := clean_congr hcl (by rw [hh]) (by rw [hh]) (by rw [hh]) (by rw [hh]) (by rw [hh]) (by rw [hh])
  obtain ⟨u, hu, hr⟩ := State.findAll_clean c a.pas hw fun _ h => h
  refine ⟨u, hu, (hf.trans (Flow.of_same [] hmem (fun d => by rw [hcores]) fun d => by rw [hcores])).trans (hr.flow []), fun pa hpa => ?_, ?_⟩
  · exact ((Homes.mem_eq (by rw [hr.rest]) pa).trans (Homes.mem_eq hmem pa)).trans (hb pa hpa)
  · rw [hr.mine]
    show (w.core c).acc = _
    rw [hcores]
    exact ha

/-- What an atomic at a calm place leaves (R315): its operation's result at its bytes, and the old value for its register. -/
theorem State.rmw_amo {t : State} {op : Nat} (hc : Calm t a.pas) (ho : a.op = .amo op) (hrel : a.rel = false)
    (hop : op ≤ 9 ∨ op = 16 ∨ op = 17) (hw : a.w = 4 ∨ a.w = 8) (hl : a.pas.length = a.w) (hn : a.pas.Nodup) :
    ∃ v, t.rmw c a = (v, .ok (t.valueAt a.pas)) ∧ Flow t v a.pas ∧ (v.core c).acc = (t.core c).acc ∧
      v.valueAt a.pas = amoNew op a.w (t.valueAt a.pas) (a.a.toNat % 2 ^ (8 * a.w)) (a.b.toNat % 2 ^ (8 * a.w)) := by
  obtain ⟨u, hu, hf, hb, hacc⟩ := State.rmw_reads (c := c) hc
  have hval : u.valueAt a.pas = t.valueAt a.pas := congrArg leNat (List.map_congr_left hb)
  have hold : t.valueAt a.pas < 2 ^ (8 * a.w) := by
    have := leNat_lt (a.pas.map t.byte)
    rwa [List.length_map, hl] at this
  have hlt := amoNew_lt (a := a.a.toNat % 2 ^ (8 * a.w)) (b := a.b.toNat % 2 ^ (8 * a.w)) hw hop hold (Nat.mod_lt _ (Nat.two_pow_pos _))
    (Nat.mod_lt _ (Nat.two_pow_pos _))
  have hrw : t.relWork c a = t := by
    unfold State.relWork
    rw [hrel]; rfl
  unfold State.rmw
  rw [hrw]
  dsimp only
  simp only [ho, reduceCtorEq, if_false, hu]
  rw [hval]
  split
  · next h =>
    refine ⟨u, rfl, hf.mono nofun, hacc, hval.trans ?_⟩
    obtain ⟨rfl, hne⟩ := h
    exact (if_neg hne).symm
  · obtain ⟨k1, k2, -⟩ := State.homeStore_flow u c a.id
      (a.pas.zip (leBytes a.w (amoNew op a.w (t.valueAt a.pas) (a.a.toNat % 2 ^ (8 * a.w)) (a.b.toNat % 2 ^ (8 * a.w))))) [] (u.author c a true)
    have hlen : (leBytes a.w (amoNew op a.w (t.valueAt a.pas) (a.a.toNat % 2 ^ (8 * a.w)) (a.b.toNat % 2 ^ (8 * a.w)))).length = a.pas.length := by
      rw [leBytes_length, hl]
    refine ⟨_, rfl, (hf.mono nofun).trans (k1.mono fun x hx => ?_), k2.trans hacc, ?_⟩
    · rw [List.map_fst_zip hlen.ge] at hx
      exact hx
    · exact (congrArg leNat (State.map_byte_of_zip hlen (State.homeStore_bytes u c a.id [] _ hn))).trans (leNat_leBytes _ _ hlt)

end

theorem exec_amoReply_lands {s : State} {c op : Nat} {a : Acc} (hm : MayLand s c a) (ho : a.op = .amo op) {v : State} {old : Nat}
    (h : (s.tried c a).rmw c a = (v, .ok old)) : exec (.amoReply c a.id) s =
      .next (v.mod c (fun x => (x.dropAcc a.id).fillS a.ctx a.d a.id (BitVec.ofNat 64 old))) := by
  show execAmoReply c a.id s = _
  have hr := MayLand.ready hm (p := fun op => match op with | .amo _ => true | _ => false) (by rw [ho])
  have hne : ¬((s.tried c a).core c).partner.isSome = true := by rw [MayLand.alone_tried hm]; simp
  unfold execAmoReply
  split
  · next e => cases hr.symm.trans e
  · next e => cases hr.symm.trans e
  · next e =>
    cases hr.symm.trans e
    rw [if_neg (by rw [MayLand.reachable hm]; decide), if_neg hne, h]

end Sys2Proof.Machine

namespace Sys2Proof

open Machine

/-- Settles O21: at a calm place the old value is what the bytes were, `amoNew` is left there, and the register fills. -/
theorem atomicsPerform : Obligations.AtomicsPerform := by
  unfold Obligations.AtomicsPerform
  refine ⟨fun s c a op hm ho hop hrel hd hw hl hn hdirty hst => ?_, fun s c a op hf hk ho _ => ?_⟩
  · have hcalm := State.tried_calm hm hst hdirty
    obtain ⟨v, hv, hflow, hacc, hnew⟩ := State.rmw_amo (c := c) hcalm ho hrel hop hw hl hn
    have hval : (s.tried c a).valueAt a.pas = s.valueAt a.pas := rfl
    have hold : s.valueAt a.pas < 2 ^ (8 * a.w) := by
      have := leNat_lt (a.pas.map s.byte)
      rwa [List.length_map, hl] at this
    have hf := (State.tried_flow s c a a.pas).trans hflow
    rw [hval] at hv hnew
    have hreg : (v.core c).r = (s.core c).r := hf.regs c
    have hrd : ∀ k r, ((v.core c).dropAcc a.id).rdS k r = (s.core c).rdS k r := fun k r => by
      show (v.core c).rdS k r = _
      unfold Core.rdS; rw [hreg]
    refine ⟨_, _, exec_amoReply_lands hm ho hv, amoMeans_amoNew _ hold (Nat.mod_lt _ (Nat.two_pow_pos _)), hnew, hf.bytes, ?_, ?_, fun b hb => ?_,
      fun k r hr hne => ?_, fun d hdc => ?_⟩
    · rw [State.core_mod_same, Core.rdS_fillS_same]
    · rw [State.core_mod_same]; exact Core.not_mem_fillS _ _
    · rw [State.core_mod_same, Core.fillS_acc] at hb
      exact Core.of_mem_dropAcc _ hb
    · rw [State.core_mod_same, Core.rdS_fillS_other _ _ hr hd hne, hrd]
    · rw [State.core_mod_other _ _ hdc]; exact hf.regs d
  · have hr := State.ready_failed (p := fun op => match op with | .amo _ => true | _ => false) hf hk (by rw [ho])
    refine ⟨(s.tried c a).mod c (fun x => (x.dropAcc a.id).fillS a.ctx a.d a.id 0#64), ?_, ?_, ?_, ?_⟩
    · show execAmoReply c a.id s = _
      unfold execAmoReply
      split <;> next e => cases hr.symm.trans e <;> rfl
    · exact OnlyCore.trans (State.mod_only s c _) (State.mod_only _ c _)
    · rw [State.core_mod_same, Core.rdS_fillS_same, ite_self]
    · rw [State.core_mod_same]; exact Core.not_mem_fillS _ _

end Sys2Proof

end

section
set_option Elab.async false

/-! SUPPORT. Loads and stores perform (R299, R300, R306, R319): what a load sees, and where a store's bytes go. O20. -/

namespace Sys2Proof.Machine

/-! ### What a load sees -/

section
variable {s : State} {c : Nat} {a : Acc}

/-- A pending store is looked for among the accesses issued before. -/
def ownPick (ctx id pa : Nat) (r : Option (Nat × Byte × Nat)) (a : Acc) : Option (Nat × Byte × Nat) :=
  if a.id < id ∧ a.ctx = ctx ∧ (a.chk = 1 ∨ a.chk = 3) ∧ a.op = .store ∧ (r.map Prod.fst).all (fun n => decide (n ≤ a.id)) then
    match (a.pas.zip a.data).findIdx? (fun p => p.1 == pa) with
    | some i => some (a.id, a.data.getD i 0#8, (((a.bad.find? (fun p => p.1 == i)).map (fun p => p.2 + 1)).getD 0))
    | none => r
  else r

theorem Core.ownStore_eq (x : Core) (ctx id pa : Nat) : x.ownStore ctx id pa = (x.acc.foldl (ownPick ctx id pa) none).map Prod.snd := rfl

theorem ownPick_late {ctx id pa : Nat} {b : Acc} (h : ¬b.id < id) (r : Option (Nat × Byte × Nat)) : ownPick ctx id pa r b = r :=
  if_neg fun e => h e.1

/-- An access does not take a byte from itself: putting it back changes nothing of what it sees. -/
theorem Core.ownStore_putAcc (x : Core) (a : Acc) (ctx pa : Nat) : (x.putAcc a).ownStore ctx a.id pa = x.ownStore ctx a.id pa := by
  rw [Core.ownStore_eq, Core.ownStore_eq]
  unfold Core.putAcc
  rw [List.foldl_map]
  congr 1
  refine congrArg (fun f => x.acc.foldl f none) (funext fun r => funext fun b => ?_)
  split
  · next h => rw [ownPick_late (Nat.lt_irrefl _), ownPick_late (by omega)]
  · rfl

/-- Stores without marks give bytes without marks. -/
theorem Core.ownStore_clean {x : Core} (h : ∀ b ∈ x.acc, b.bad = []) (ctx id pa : Nat) :
    ∀ p, x.ownStore ctx id pa = some p → p.2 = 0 := by
  have key : ∀ (l : List Acc), (∀ b ∈ l, b.bad = []) → ∀ r : Option (Nat × Byte × Nat), (∀ q, r = some q → q.2.2 = 0) →
      ∀ q, l.foldl (ownPick ctx id pa) r = some q → q.2.2 = 0 := by
    intro l
    induction l with
    | nil => exact fun _ r hr q hq => hr q hq
    | cons b l ih =>
      intro hl r hr
      refine ih (fun b hb => hl b (List.mem_cons_of_mem _ hb)) _ fun q hq => ?_
      unfold ownPick at hq
      split at hq
      · split at hq
        · rw [hl b List.mem_cons_self] at hq
          cases hq
          rfl
        · exact hr q hq
      · exact hr q hq
  rw [Core.ownStore_eq]
  intro p hp
  obtain ⟨q, hq, rfl⟩ := Option.map_eq_some_iff.1 hp
  exact key x.acc h none nofun q hq

/-- The bytes a load sees now: its context's own earlier store, its core's stash, or the home's value. -/
def State.seesNow (s : State) (c ctx id : Nat) (home : Bool) (pa : Nat) : Byte :=
  if home then s.byte pa
  else match (s.core c).ownStore ctx id pa with
    | some p => p.1
    | none => ((s.core c).stashByte pa).getD (s.byte pa)

/-- What a load of no unordered page may see: the present, or a past it does not stand after. -/
theorem State.viewAt_cases (s : State) (c ctx id : Nat) {kind : Nat} (home : Bool) (h : Hb) (floor : Option Nat) (pas : List Nat)
    (hk : kind ≠ 2) : (s.viewAt c ctx id kind home h floor pas).1 = pas.map (s.seesNow c ctx id home) ∨
    (kind = 1 ∧ (∀ pa ∈ pas, (!home && (s.core c).takesOwn ctx id pa) = false) ∧ ∃ n, floor = some n ∧
      ∃ tk ∈ s.pastTicks (h.stand (ctxAgent c ctx) id n) pas, (s.viewAt c ctx id kind home h floor pas).1 = pas.map (s.byteAt tk)) := by
  have hg : ∀ ticks : List Nat, (s.glimpse ticks pas (pas.map (s.seesNow c ctx id home))).1 = pas.map (s.seesNow c ctx id home) ∨
      ∃ tk ∈ ticks, (s.glimpse ticks pas (pas.map (s.seesNow c ctx id home))).1 = pas.map (s.byteAt tk) := fun ticks => by
    unfold State.glimpse
    split
    · exact .inl rfl
    · split
      · next e => exact .inr ⟨_, List.mem_of_getElem? e, rfl⟩
      · exact .inl rfl
  have hv : s.viewAt c ctx id kind home h floor pas = (match floor with
      | some n => if kind = 1 ∧ !pas.any (fun pa => !home && (s.core c).takesOwn ctx id pa) then
          s.glimpse (s.pastTicks (h.stand (ctxAgent c ctx) id n) pas) pas (pas.map (s.seesNow c ctx id home))
        else (pas.map (s.seesNow c ctx id home), none)
      | none => (pas.map (s.seesNow c ctx id home), none)) := (if_neg hk).trans rfl
  rw [hv]
  cases floor with
  | none => exact .inl rfl
  | some n =>
    dsimp only
    split
    · next hc =>
      obtain ⟨h1, h2⟩ := hc
      rcases hg (s.pastTicks (h.stand (ctxAgent c ctx) id n) pas) with e | ⟨tk, ht, e⟩
      · exact .inl e
      · refine .inr ⟨h1, fun pa hpa => ?_, n, rfl, tk, ht, e⟩
        exact Bool.eq_false_iff.2 (List.any_eq_false.1 (by rwa [Bool.not_eq_true'] at h2) pa hpa)
    · exact .inl rfl

theorem State.viewAt_length (s : State) (c ctx id kind : Nat) (home : Bool) (h : Hb) (floor : Option Nat) (pas : List Nat) :
    (s.viewAt c ctx id kind home h floor pas).1.length = pas.length := by
  have hg : ∀ (ticks : List Nat) (now : List Byte), now.length = pas.length → (s.glimpse ticks pas now).1.length = pas.length := by
    intro ticks now hn
    unfold State.glimpse
    split
    · exact hn
    · split
      · exact List.length_map _
      · exact hn
  unfold State.viewAt
  dsimp only
  repeat' split
  all_goals simp [hg]

/-! ### A line is filled (R218) -/

/-- What filling stash lines may change: the core's stash, and the counts of errors found. -/
structure Fills (c : Nat) (s t : State) : Prop where
  rest : t = { s with cores := t.cores, w := t.w }
  others : ∀ d, d ≠ c → t.core d = s.core d
  mine : t.core c = { s.core c with stash := (t.core c).stash }

theorem Fills.refl (c : Nat) (s : State) : Fills c s s := ⟨rfl, fun _ _ => rfl, rfl⟩

theorem Fills.trans {c : Nat} {s t u : State} (h : Fills c s t) (k : Fills c t u) : Fills c s u where
  rest := by
    calc u = _ := k.rest
      _ = _ := by rw [h.rest]
  others d hd := (k.others d hd).trans (h.others d hd)
  mine := by
    calc u.core c = _ := k.mine
      _ = _ := by rw [h.mine]

theorem Fills.foldl {α : Type} {c : Nat} {f : State → α → State} (hf : ∀ t x, Fills c t (f t x)) (l : List α) (s : State) :
    Fills c s (l.foldl f s) := by
  induction l generalizing s with
  | nil => exact Fills.refl c s
  | cons x l ih => exact (hf s x).trans (ih _)

theorem Reads.fills {c : Nat} {s t : State} (h : Reads c s t) : Fills c s t :=
  ⟨by rw [h.rest], h.others, h.mine⟩

theorem State.find_w (s : State) (pa : Nat) : (s.find pa).1 = { s with w := (s.find pa).1.w } := by
  unfold State.find
  dsimp only
  repeat' split
  all_goals rfl

theorem State.marksOf_w (s : State) (pas : List Nat) : (s.marksOf pas).1 = { s with w := (s.marksOf pas).1.w } := by
  unfold State.marksOf
  refine foldl_keeps (fun p : State × List (Nat × Nat) => p.1 = { s with w := p.1.w }) _ (fun acc p h => ?_) _ _ rfl
  have hf : (acc.1.find p.1).1 = { s with w := (acc.1.find p.1).1.w } := (State.find_w acc.1 p.1).trans (by rw [h])
  split
  · next e => rw [e] at hf; split <;> exact hf
  · next e => rw [e] at hf; exact hf

theorem State.fillSector_fills (s : State) (c ln sec : Nat) : Fills c s (s.fillSector c ln sec) := by
  unfold State.fillSector
  extract_lets l pas m l'
  split
  · exact Fills.refl c s
  · have hm : m.1 = { s with w := m.1.w } := State.marksOf_w s pas
    have h1 : Fills c s m.1 := ⟨by rw [hm], fun d _ => by rw [hm]; rfl, by rw [hm]; rfl⟩
    exact h1.trans ⟨rfl, fun d hd => State.core_mod_other _ _ hd, by rw [State.core_mod_same]; rfl⟩

theorem State.fillFor_fills (s : State) (c : Nat) (pas : List Nat) : Fills c s (s.fillFor c pas) := by
  refine Fills.foldl (fun t ln => ?_) _ s
  split
  · exact Fills.refl c t
  · exact Fills.foldl (fun u sec => State.fillSector_fills u c ln sec) _ t

/-! ### A load performs -/

/-- A core that holds nothing of some lines dirty has nothing to take home before an operation there. -/
theorem State.bypass_same {pas : List Nat} (h : ∀ pa ∈ pas, ((s.core c).line (pa / 64)).dirty = 0#4) : s.bypass c pas = s := by
  have key : ∀ l : List Nat, (∀ ln ∈ l, ((s.core c).line ln).dirty = 0#4) → l.foldl (fun t ln => if ((t.core c).line ln).dirty = 0#4 then t
      else
        let l := (t.core c).line ln
        ((t.mod c (fun x => x.setLine ln {})).pullLine ln).homeLine ln l) s = s := by
    intro l
    induction l with
    | nil => exact fun _ => rfl
    | cons ln l ih =>
      intro hl
      rw [List.foldl_cons, if_pos (hl ln List.mem_cons_self)]
      exact ih fun k hk => hl k (List.mem_cons_of_mem _ hk)
  refine key _ fun ln hln => ?_
  obtain ⟨pa, hpa, rfl⟩ := List.mem_map.1 (List.mem_eraseDups.1 hln)
  exact h pa hpa

theorem Acc.chunk_aligned (h1 : a.pas.length = a.w) (h2 : a.pas.headD 0 % a.w = 0) : a.chunk = a.w := if_pos ⟨h1, h2⟩

theorem Core.atHome_load {sg : Bool} (x : Core) (ho : a.op = .load sg) : x.atHome a = true ↔
    (a.acq = true ∨ a.tok.kind = 0 ∨ x.bypasses a.tok.entry ((a.tok.base * 64 : Nat) + a.off).toNat a.w a.id = true) := by
  have hs : (a.op == .sigRead) = false := by rw [ho]; rfl
  unfold Core.atHome
  simp only [hs, Bool.or_eq_true, beq_iff_eq, Bool.false_eq_true, or_false]
  exact or_assoc

/-- The floor of a load: none where it is an acquire. -/
def Acc.floorOf (a : Acc) : Option Nat := if a.acq ∨ a.op = .sigRead then none else some a.floor

/-- An aligned load that may land reads its bytes at once, and its register fills with what it sees (R129, R299). -/
theorem State.loadBytes_lands {sg : Bool} (hm : MayLand s c a) (ho : a.op = .load sg) (hl : a.pas.length = a.w) (hd : a.data = [])
    (hal : a.pas.headD 0 % a.w = 0) (hb : (s.core c).atHome a = true → ∀ pa ∈ a.pas, ((s.core c).line (pa / 64)).dirty = 0#4) :
    ∃ u f : State, Reads c (s.tried c a) u ∧ f = { u with cores := f.cores, w := f.w, hb := f.hb, seen := f.seen } ∧
      f.core c = { u.core c with stash := (f.core c).stash } ∧ (∀ d, d ≠ c → f.core d = u.core d) ∧
      (s.tried c a).loadBytes c a = f.mod c (fun x => (x.dropAcc a.id).fillS a.ctx a.d a.id (extend sg a.w
        (leNat (u.viewAt c a.ctx a.id a.tok.kind ((s.core c).atHome a) (u.hbOf c a.ctx) a.floorOf a.pas).1))) := by
  have hch := Acc.chunk_aligned hl hal
  have htake : a.pas.take a.w = a.pas := by rw [← hl, List.take_length]
  have hcore : (s.tried c a).core c = (s.core c).putAcc a := State.core_tried s c a
  have hhome : ((s.tried c a).core c).atHome a = (s.core c).atHome a := by rw [hcore]; rfl
  have hby : (if (s.core c).atHome a = true then (s.tried c a).bypass c a.pas else s.tried c a) = s.tried c a := by
    split
    · next h => exact State.bypass_same fun pa hpa => by rw [hcore]; exact hb h pa hpa
    · rfl
  obtain ⟨u, hu, hr⟩ := State.consume_clean c a.ctx a.id ((s.core c).atHome a) a.pas (s := s.tried c a)
    (clean_congr hm.clean rfl rfl rfl rfl rfl rfl) (fun ln => by rw [hcore]; exact Core.line_clean hm.stashClean ln)
    (fun pa _ => by rw [hcore, Core.ownStore_putAcc]; exact Core.ownStore_clean hm.storesClean _ _ _) fun _ h => h
  unfold State.loadBytes
  dsimp only
  rw [hch, htake, hhome, hby, hu]
  dsimp only
  have hfl : (if a.acq = true ∨ a.op = .sigRead then none else some a.floor) = a.floorOf := rfl
  rw [hfl]
  have hlen : ((u.viewAt c a.ctx a.id a.tok.kind ((s.core c).atHome a) (u.hbOf c a.ctx) a.floorOf a.pas).1).length = a.w := by
    rw [← hl]
    exact State.viewAt_length _ _ _ _ _ _ _ _ _
  have hbytes : (a.data ++ (u.loaded c a.ctx a.id a.tok.kind ((s.core c).atHome a) a.acq a.scope a.floorOf a.pas).2) =
      (u.viewAt c a.ctx a.id a.tok.kind ((s.core c).atHome a) (u.hbOf c a.ctx) a.floorOf a.pas).1 := by rw [hd]; rfl
  rw [hbytes, if_neg (by rw [hlen]; exact Nat.lt_irrefl _), ho]
  have hh : (u.loaded c a.ctx a.id a.tok.kind ((s.core c).atHome a) a.acq a.scope a.floorOf a.pas).1 =
      { u with hb := (u.loaded c a.ctx a.id a.tok.kind ((s.core c).atHome a) a.acq a.scope a.floorOf a.pas).1.hb
               seen := (u.loaded c a.ctx a.id a.tok.kind ((s.core c).atHome a) a.acq a.scope a.floorOf a.pas).1.seen } := State.hear_eq _ _ _ _ _ _ _ _
  generalize (u.loaded c a.ctx a.id a.tok.kind ((s.core c).atHome a) a.acq a.scope a.floorOf a.pas).1 = h at hh ⊢
  have hf : Fills c h (if (h.stashed c a && !(s.core c).atHome a) = true then h.fillFor c a.pas else h) := by
    split
    · exact State.fillFor_fills _ _ _
    · exact Fills.refl c h
  generalize (if (h.stashed c a && !(s.core c).atHome a) = true then h.fillFor c a.pas else h) = f at hf ⊢
  refine ⟨u, f, hr, ?_, ?_, fun d hdc => ?_, rfl⟩
  · have h0 := hf.rest
    generalize f.cores = x, f.w = y at h0
    subst h0
    generalize h.hb = p, h.seen = q at hh
    subst hh
    rfl
  · calc f.core c = _ := hf.mine
      _ = _ := by rw [hh]; rfl
  · rw [hf.others d hdc, hh]; rfl

/-- What a context follows is read of the sequencer of its core and of what lies outside the cores. -/
theorem State.hbOf_congr {s u : State} {c ctx : Nat} (h : u = { s with cores := u.cores, w := u.w }) (hq : (u.core c).q = (s.core c).q) :
    u.hbOf c ctx = s.hbOf c ctx := by
  unfold State.hbOf
  rw [hq]
  generalize u.cores = x, u.w = y at h
  subst h
  rfl

/-- What a read finds clean leaves what a load sees as it was. -/
theorem Reads.sees {u : State} (hr : Reads c (s.tried c a) u) (home : Bool) (pa : Nat) :
    u.seesNow c a.ctx a.id home pa = s.seesNow c a.ctx a.id home pa ∧ (u.core c).takesOwn a.ctx a.id pa = (s.core c).takesOwn a.ctx a.id pa := by
  have hcore := State.core_tried s c a
  have hbyte : u.byte pa = s.byte pa := Homes.mem_eq (by rw [hr.rest]; rfl) pa
  have hown : (u.core c).ownStore a.ctx a.id pa = (s.core c).ownStore a.ctx a.id pa := by
    rw [hr.mine, ← Core.ownStore_putAcc (s.core c) a, ← hcore]
    rfl
  have hline : ∀ ln, (u.core c).line ln = { (s.core c).line ln with soft := ((u.core c).line ln).soft } := fun ln => by
    have := hr.lines ln
    rw [hcore] at this
    exact this
  have hst : (u.core c).stashByte pa = (s.core c).stashByte pa := by
    unfold Core.stashByte
    rw [hline]
    rfl
  have hw : (u.core c).wroteByte pa = (s.core c).wroteByte pa := by
    unfold Core.wroteByte
    rw [hline]
  unfold State.seesNow Core.takesOwn
  rw [hbyte, hown, hst, hw]
  exact ⟨rfl, rfl⟩

/-- What a load sees, told of the state in which it performs (R299; notes/assumptions/69.md). -/
theorem State.loadSees {sg : Bool} {u : State} (hr : Reads c (s.tried c a) u) (ho : a.op = .load sg) (hk : a.tok.kind ≠ 2) :
    ∃ sees : Nat → Byte, (u.viewAt c a.ctx a.id a.tok.kind ((s.core c).atHome a) (u.hbOf c a.ctx) a.floorOf a.pas).1 = a.pas.map sees ∧
      ((sees = s.seesNow c a.ctx a.id ((s.core c).atHome a)) ∨
       (a.acq = false ∧ a.tok.kind = 1 ∧ ((s.core c).atHome a = true ∨ ∀ pa ∈ a.pas, (s.core c).takesOwn a.ctx a.id pa = false) ∧
        ∃ tk ∈ s.pastTicks ((s.hbOf c a.ctx).stand (ctxAgent c a.ctx) a.id a.floor) a.pas, ∀ pa, sees pa = s.byteAt tk pa)) := by
  rcases State.viewAt_cases u c a.ctx a.id ((s.core c).atHome a) (u.hbOf c a.ctx) a.floorOf a.pas hk with e | ⟨h1, hown, n, hn, tk, ht, e⟩
  · refine ⟨_, e.trans (List.map_congr_left fun pa _ => (hr.sees _ pa).1), .inl rfl⟩
  · have hq : (u.core c).q = (s.core c).q := by rw [hr.mine, State.core_tried]; rfl
    have hu : u = { s with cores := u.cores, w := u.w } := hr.fills.rest.trans rfl
    obtain ⟨hacq, rfl⟩ : a.acq = false ∧ a.floor = n := by
      unfold Acc.floorOf at hn
      split at hn
      · cases hn
      · next h => exact ⟨by simpa [ho] using h, Option.some.inj hn⟩
    rw [State.hbOf_congr hu hq] at ht
    have htk : u.pastTicks ((s.hbOf c a.ctx).stand (ctxAgent c a.ctx) a.id a.floor) a.pas =
        s.pastTicks ((s.hbOf c a.ctx).stand (ctxAgent c a.ctx) a.id a.floor) a.pas := by rw [hu]; rfl
    have hby : ∀ pa, u.byteAt tk pa = s.byteAt tk pa := fun pa => by rw [hu]; rfl
    refine ⟨u.byteAt tk, e, .inr ⟨hacq, h1, ?_, tk, htk ▸ ht, hby⟩⟩
    cases hh : (s.core c).atHome a with
    | true => exact .inl rfl
    | false =>
      refine .inr fun pa hpa => ?_
      have := hown pa hpa
      rw [hh, (hr.sees false pa).2] at this
      exact this

/-- A load changes the cores, the counts of errors, and what its context has seen and follows. -/
theorem State.heard_of_reads {u f : State} (hr : Reads c (s.tried c a) u)
    (hf : f = { u with cores := f.cores, w := f.w, hb := f.hb, seen := f.seen }) :
    f = { s with cores := f.cores, w := f.w, hb := f.hb, seen := f.seen } := by
  have h := hr.fills.rest.trans (b := _) (c := { s with cores := u.cores, w := u.w }) rfl
  generalize u.cores = x, u.w = y at h
  subst h
  exact hf

theorem State.mod_heard {f : State} {g : Core → Core} (hf : f = { s with cores := f.cores, w := f.w, hb := f.hb, seen := f.seen }) :
    f.mod c g = { s with cores := (f.mod c g).cores, w := (f.mod c g).w, hb := (f.mod c g).hb, seen := (f.mod c g).seen } :=
  (congrArg (fun z => { z with cores := (f.mod c g).cores }) hf).trans rfl

theorem exec_loadComplete_lands {sg : Bool} (hm : MayLand s c a) (ho : a.op = .load sg) :
    exec (.loadComplete c a.id) s = .next ((s.tried c a).loadBytes c a) := by
  show execLoadComplete c a.id s = _
  have hr := MayLand.ready hm (p := fun op => op.fills && (match op with | .amo _ => false | _ => true)) (by rw [ho]; rfl)
  unfold execLoadComplete
  split <;> next e => cases hr.symm.trans e <;> rfl

/-! ### A store performs -/

/-- The work of a release changes memory only as a core's dirty bytes go home, and records what stays pending (R306, R307). -/
theorem State.release_homes (t : State) (c id ln scope : Nat) (deferred : Bool) :
    ∃ v : State, Homes t v [] ∧ t.release c id ln scope deferred = { v with pub := (t.release c id ln scope deferred).pub } := by
  unfold State.release
  extract_lets ws s1 x r
  have hv : Homes t s1 [] := by
    show Homes t (if 1 ≤ ws then t.flush c else t) []
    split
    · exact State.flush_homes t c
    · exact Homes.refl t []
  refine ⟨s1, hv, ?_⟩
  clear_value s1
  split
  · rfl
  · split <;> rfl

theorem Core.overtake_ids (x : Core) (n : Nat) : (x.overtake n).acc.map Acc.id = x.acc.map Acc.id := by
  unfold Core.overtake
  rw [List.map_map]
  refine List.map_congr_left fun b _ => ?_
  dsimp only [Function.comp]
  split <;> rfl

theorem State.releaseAt_flow (t : State) (c n ln scope : Nat) (deferred : Bool) : Flow t (t.releaseAt c n ln scope deferred) [] ∧
    ((t.releaseAt c n ln scope deferred).core c).acc.map Acc.id = (t.core c).acc.map Acc.id := by
  obtain ⟨v, hv, he⟩ := State.release_homes t c n ln scope deferred
  unfold State.releaseAt
  generalize t.release c n ln scope deferred = r at he ⊢
  have h1 : Flow t r [] := hv.flow.trans (Flow.of_same [] (by rw [he]) (fun d => by rw [he]; rfl) fun d => by rw [he]; rfl)
  have h2 : (r.core c).acc = (t.core c).acc := by rw [he]; exact hv.frame.core_acc c
  dsimp only
  split
  · refine ⟨h1.trans (Flow.of_same [] rfl (fun d => ?_) fun d => ?_), ?_⟩
    · by_cases hd : d = c
      · subst hd; rw [State.core_mod_same]; rfl
      · rw [State.core_mod_other _ _ hd]
    · by_cases hd : d = c
      · subst hd; rw [State.core_mod_same]; rfl
      · rw [State.core_mod_other _ _ hd]
    · rw [State.core_mod_same, Core.overtake_ids, h2]
  · exact ⟨h1, congrArg _ h2⟩

/-- What a release does before its access (R306). -/
theorem State.relWork_flow (t : State) (c : Nat) (a : Acc) : Flow t (t.relWork c a) [] ∧
    ((t.relWork c a).core c).acc.map Acc.id = (t.core c).acc.map Acc.id ∧ (a.rel = false → t.relWork c a = t) := by
  unfold State.relWork
  split
  · next hrel =>
    obtain ⟨h1, h2⟩ := State.releaseAt_flow t c a.id (a.pas.headD 0 / 64) a.scope a.deferred
    exact ⟨h1, h2, fun h => by rw [h] at hrel; cases hrel⟩
  · exact ⟨Homes.flow (Homes.refl t []), rfl, fun _ => rfl⟩

/-- A release never goes through the stash, and another store as it would have before its release's work (R309). -/
theorem State.stashed_relWork (ho : s.stashed c a = false) : ((s.tried c a).relWork c a).stashed c a = false := by
  cases hr : a.rel with
  | true => unfold State.stashed; rw [hr]; simp
  | false =>
    obtain ⟨-, -, h⟩ := State.relWork_flow (s.tried c a) c a
    rw [h hr]
    unfold State.stashed at ho ⊢
    rw [State.core_tried]
    exact ho

/-- A store at its home slices (R299). -/
theorem State.storeBytes_home (ho : a.op = .store) (hs : s.stashed c a = false) (bytes : List (Nat × Byte)) (bad : List (Nat × Nat)) :
    Flow s ((s.tried c a).storeBytes c a bytes bad) (bytes.map Prod.fst) ∧
    (((s.tried c a).storeBytes c a bytes bad).core c).acc.map Acc.id = (s.core c).acc.map Acc.id ∧
    ∀ pa b, pa ∈ bytes.map Prod.fst → (∀ p ∈ bytes, p.1 = pa → p.2 = b) → ((s.tried c a).storeBytes c a bytes bad).byte pa = b := by
  have hst := State.stashed_relWork hs
  have hn : ¬a.op = .vstore := by rw [ho]; nofun
  have hacc : ((s.tried c a).core c).acc.map Acc.id = (s.core c).acc.map Acc.id := by
    rw [State.core_tried]
    show ((s.core c).acc.map _).map _ = _
    rw [List.map_map]
    refine List.map_congr_left fun b _ => ?_
    dsimp only [Function.comp]
    split
    · next h => exact h.symm
    · rfl
  obtain ⟨f1, a1, -⟩ := State.relWork_flow (s.tried c a) c a
  unfold State.storeBytes
  dsimp only
  rw [if_neg hn, if_neg (by rw [hst]; decide)]
  generalize (s.tried c a).relWork c a = t at f1 a1
  obtain ⟨f2, a2, b2⟩ := State.homeStore_flow t c a.id bytes bad (t.author c a false)
  exact ⟨((State.tried_flow s c a _).trans (f1.mono nofun)).trans f2, by rw [a2, a1, hacc], b2⟩

/-- What of a store is left once its first bytes have performed. -/
def Acc.rest (a : Acc) (n : Nat) : Acc :=
  { a with pas := a.pas.drop n, data := a.data.drop n, bad := (a.bad.filter (fun p => decide (n ≤ p.1))).map (fun p => (p.1 - n, p.2)) }

/-- The marks of the bytes that a store performs next, at their addresses. -/
def Acc.nextMarks (a : Acc) : List (Nat × Nat) := (a.bad.filter (fun p => decide (p.1 < a.chunk))).map (fun p => (a.pas.getD p.1 0, p.2))

/-- A store that may land at its home slice performs its next bytes there (R129, R299). -/
theorem exec_writeReachesHome_lands (hm : MayLand s c a) (ho : a.op = .store) : exec (.writeReachesHome c a.id) s =
    .next (((s.tried c a).storeBytes c a ((a.pas.take a.chunk).zip (a.data.take a.chunk)) a.nextMarks).mod c (fun x =>
      if a.chunk < a.pas.length then x.putAcc (a.rest a.chunk) else x.dropAcc a.id)) := by
  have hr := MayLand.ready hm (p := fun op => !op.fills) (by rw [ho]; rfl)
  have hne : ¬((s.tried c a).core c).partner.isSome = true := by rw [MayLand.alone_tried hm]; simp
  have hdef : ¬a.deferred = true := by unfold Acc.deferred; rw [ho]; decide
  have hv : ¬a.op = .vstore := by rw [ho]; nofun
  show execWriteReachesHome c a.id s = _
  unfold execWriteReachesHome
  split
  · next e => cases hr.symm.trans e
  · next e => cases hr.symm.trans e
  · next e =>
    cases hr.symm.trans e
    rw [if_neg (by rw [MayLand.reachable hm]; decide), if_neg hne, if_neg (by rw [ho]; simp), if_neg hdef]
    dsimp only
    rw [if_neg hv]
    rfl

/-- The registers stay as a store performs, and its place in the list of accesses is taken by what is left of it. -/
theorem State.landed_flow {t : State} {pas : List Nat} {f : Core → Core} (h : Flow s t pas) (hf : (f (t.core c)).r = (t.core c).r) :
    RegistersKept s (t.mod c f) ∧ BytesKept s (t.mod c f) pas := by
  refine ⟨fun d => ?_, h.bytes⟩
  by_cases hd : d = c
  · subst hd; rw [State.core_mod_same, hf]; exact h.regs d
  · rw [State.core_mod_other _ _ hd]; exact h.regs d

theorem Core.mem_putAcc_of_id {x : Core} {b : Acc} (h : b.id ∈ x.acc.map Acc.id) : b ∈ (x.putAcc b).acc := by
  obtain ⟨q, hq, e⟩ := List.mem_map.1 h
  exact List.mem_map.2 ⟨q, hq, if_pos e⟩

/-- What an acknowledgement of a remote store ends: the store, and under PCIe the earlier ones of its link (R319). -/
theorem execStoreAcknowledged_eq (s : State) (c id : Nat) :
    let mode (l : Nat) : Nat := Sparse.get 0 s.io.link l
    let there := ∀ p ∈ (s.core c).unacked, p.1 = id → (p.2.2 < 2 → mode p.2.2 ≠ 0) ∧ s.unreachable p.2.1 = false
    let behind (p : Nat × Nat × Nat) : Prop :=
      p.1 < id ∧ ∃ m ∈ (s.core c).unacked, m.1 = id ∧ m.2.2 < 2 ∧ mode m.2.2 = 1 ∧ m.2.2 = p.2.2
    (there → ∃ t, execStoreAcknowledged c id s = .next t ∧ OnlyCore c s t ∧ t.core c = { s.core c with unacked := (t.core c).unacked } ∧
      ∀ p, p ∈ (t.core c).unacked ↔ p ∈ (s.core c).unacked ∧ p.1 ≠ id ∧ ¬behind p) ∧
    (¬there → execStoreAcknowledged c id s = .next s) := by
  intro mode there behind
  have hthere : there ↔ ¬(((s.core c).unacked.filter (fun p => p.1 == id)).any
      (fun p => (decide (p.2.2 < 2) && mode p.2.2 == 0) || s.unreachable p.2.1)) = true := by
    simp only [there, List.any_eq_true, List.mem_filter, not_exists, not_and, and_imp, beq_iff_eq, Bool.or_eq_true, Bool.and_eq_true,
      decide_eq_true_eq, not_or, Bool.not_eq_true, ne_eq]
  unfold execStoreAcknowledged
  dsimp only
  refine ⟨fun h => ⟨_, if_neg (hthere.1 h), State.mod_only s c _, by rw [State.core_mod_same], fun p => ?_⟩,
    fun h => if_pos (Classical.not_not.1 fun e => h (hthere.2 e))⟩
  rw [State.core_mod_same, List.mem_filter]
  have hbehind : (((s.core c).unacked.filter (fun p => p.1 == id)).any
      (fun m => decide (m.2.2 < 2) && mode m.2.2 == 1 && m.2.2 == p.2.2) && decide (p.1 < id)) = true ↔ behind p := by
    simp only [behind, List.any_eq_true, List.mem_filter, beq_iff_eq, Bool.and_eq_true, decide_eq_true_eq, and_assoc]
    exact and_comm
  rw [Bool.and_eq_true, bne_iff_ne, Bool.not_eq_true', ← Bool.not_eq_true, hbehind]

end

end Sys2Proof.Machine

namespace Sys2Proof

open Machine

/-- Settles O20: what a load sees fills its register; a store's next bytes reach their homes; an acknowledgement ends what it names. -/
theorem loadsAndStoresPerform : Obligations.LoadsAndStoresPerform := by
  unfold Obligations.LoadsAndStoresPerform
  refine ⟨fun s c a sg hm ho hk hd _ hl hdata hal => ?_, fun s c a hf hk ho hd => ?_, fun s c a hm ho hs _ hal hn hl hlen => ?_,
    fun s c a pa b pas data hm ho hs hrel _ hpas hdat hun hne => ?_, execStoreAcknowledged_eq⟩
  · intro home hdirty
    have hhome : (s.core c).atHome a = true ↔ home := Core.atHome_load (s.core c) ho
    obtain ⟨u, f, hr, hf, hmine, hother, he⟩ := State.loadBytes_lands hm ho hl hdata hal fun h => hdirty (hhome.1 h)
    obtain ⟨sees, hsee, hcases⟩ := State.loadSees hr ho hk
    have hreg : (f.core c).r = (s.core c).r := by rw [hmine, hr.mine, State.core_tried]; rfl
    have hmem : f.mem = s.mem := by rw [hf, hr.rest]; rfl
    have hrd : ∀ k r, ((f.core c).dropAcc a.id).rdS k r = (s.core c).rdS k r := fun k r => by
      show (f.core c).rdS k r = _
      unfold Core.rdS; rw [hreg]
    have hlt : leNat (a.pas.map sees) < 2 ^ (8 * a.w) := by
      have := leNat_lt (a.pas.map sees)
      rwa [List.length_map, hl] at this
    rw [hsee] at he
    refine ⟨_, sees, (exec_loadComplete_lands hm ho).trans (congrArg _ he), ?_, Homes.mem_eq hmem, fun d hdc => ?_, ?_,
      fun k r hr' hne => ?_, ?_, ?_, fun b hb => ?_⟩
    · exact State.mod_heard (State.heard_of_reads hr hf)
    · rw [State.core_mod_other _ _ hdc, hother d hdc, hr.others d hdc, State.core_tried_other s a hdc]
    · refine hcases.imp (fun h => ?_) fun ⟨h1, h2, h3, h4⟩ => ⟨h1, h2, h3.imp_left hhome.1, h4⟩
      subst h
      unfold State.seesNow
      refine ⟨fun h pa => if_pos (hhome.2 h), fun h pa => ?_⟩
      rw [if_neg fun e => h (hhome.1 e)]
      refine ⟨fun p e => by rw [e], fun e => ?_⟩
      rw [e]
      exact ⟨fun b e => by rw [e]; rfl, fun e => by rw [e]; rfl⟩
    · rw [State.core_mod_same, Core.rdS_fillS_other _ _ hr' hd hne, hrd]
    · rw [State.core_mod_same, Core.rdS_fillS_same, extend_eq sg a.w _ hlt]
    · rw [State.core_mod_same]; exact Core.not_mem_fillS _ _
    · rw [State.core_mod_same, Core.fillS_acc] at hb
      exact Core.of_mem_dropAcc _ hb
  · have hr := State.ready_failed (p := fun op => op.fills && (match op with | .amo _ => false | _ => true)) hf hk
      (by rcases ho with ⟨sg, ho⟩ | ho <;> rw [ho] <;> rfl)
    refine ⟨(s.tried c a).mod c (fun x => (x.dropAcc a.id).fillS a.ctx a.d a.id 0#64), ?_, ?_, ?_, ?_⟩
    · show execLoadComplete c a.id s = _
      unfold execLoadComplete
      split <;> next e => cases hr.symm.trans e <;> rfl
    · exact OnlyCore.trans (State.mod_only s c _) (State.mod_only _ c _)
    · rw [State.core_mod_same, Core.rdS_fillS_same, ite_self]
    · rw [State.core_mod_same]; exact Core.not_mem_fillS _ _
  · have hch := Acc.chunk_aligned hl hal
    have hx := exec_writeReachesHome_lands hm ho
    rw [hch, ← hl, List.take_length, List.take_of_length_le hlen.le] at hx
    simp only [Nat.lt_irrefl, if_false] at hx
    obtain ⟨h1, h2, h3⟩ := State.storeBytes_home ho hs (a.pas.zip a.data) a.nextMarks
    have hfst : (a.pas.zip a.data).map Prod.fst = a.pas := List.map_fst_zip hlen.ge
    rw [hfst] at h1 h3
    obtain ⟨k1, k2⟩ := State.landed_flow (f := fun x => x.dropAcc a.id) h1 rfl
    refine ⟨_, hx, fun p hp => h3 _ _ (List.of_mem_zip hp).1 fun q hq e => zip_unique hn hq hp e, k2, k1, fun b hb => ?_⟩
    rw [State.core_mod_same] at hb
    exact Core.of_mem_dropAcc _ hb
  · have hch : a.chunk = 1 := if_neg fun h => by
      rw [hpas] at h hun
      exact hun.elim (fun e => e h.2) fun e => e h.1
    have hx := exec_writeReachesHome_lands hm ho
    have hlt : 1 < a.pas.length := by
      rw [hpas]
      exact Nat.succ_lt_succ (List.length_pos_of_ne_nil hne)
    have hone : (a.pas.take a.chunk).zip (a.data.take a.chunk) = [(pa, b)] := by rw [hch, hpas, hdat]; rfl
    rw [hone, hch] at hx
    simp only [hlt, if_true] at hx
    obtain ⟨h1, h2, h3⟩ := State.storeBytes_home ho hs [(pa, b)] a.nextMarks
    obtain ⟨k1, k2⟩ := State.landed_flow (f := fun x => x.putAcc (a.rest 1)) h1 rfl
    refine ⟨_, hx, h3 pa b List.mem_cons_self fun p hp _ => by rw [List.mem_singleton.1 hp], k2, k1, ?_⟩
    have hbad : a.bad = [] := hm.storesClean a (Core.mem_of_findAcc hm.found)
    have hrest : a.rest 1 = { a with pas := pas, data := data } := by
      unfold Acc.rest
      rw [hpas, hdat, hbad]
      cases a
      cases hbad
      rfl
    rw [State.core_mod_same, ← hrest]
    refine Core.mem_putAcc_of_id ?_
    rw [h2]
    exact List.mem_map.2 ⟨a, Core.mem_of_findAcc hm.found, rfl⟩

end Sys2Proof

end

section
set_option Elab.async false

/-! SUPPORT. Buffer handles (R237 to R240): what each word makes of a handle, its readers, and the end of a clock. O31. -/

namespace Sys2Proof.Machine

/-! ### A handle in its core -/

@[simp] theorem Eng.handle_setHandle_same (e : Eng) (h : Nat) (v : Handle) : (e.setHandle h v).handle h = v := Sparse.get_set_same _ _ _ _

theorem Eng.handle_setHandle_other (e : Eng) {h k : Nat} (v : Handle) (hk : k ≠ h) : (e.setHandle h v).handle k = e.handle k :=
  Sparse.get_set_other _ _ _ hk

@[simp] theorem State.read_handle (s : State) (l : List Src) (h : Nat) : (s.read l).me.e.handle h = s.me.e.handle h := by
  rw [State.read_me]; rfl

/-- Reading no source leaves the readers of a handle as they are. -/
theorem State.read_readers (s : State) (h : Nat) : (s.read []).readers s.cur h = s.readers s.cur h := by
  have hcore : (s.read []).core s.cur = s.core s.cur := (State.read_me s []).trans (Core.touch_nil _ _)
  have hmx : (s.read []).mxOwn s.cur = s.mxOwn s.cur := by
    unfold State.mxOwn
    rw [hcore]
    rfl
  unfold State.readers
  rw [hcore, hmx]

/-- What a word that writes a handle does (R238). -/
structure SetsHandle (s t : State) (h : Nat) (u : Handle) : Prop where
  only : OnlyCore s.cur s t
  passes : Passes s t 1
  regs : (t.core s.cur).r = s.me.r
  csrs : (t.core s.cur).c = s.me.c
  handle : (t.core s.cur).e.handle h = u
  others : ∀ k, k ≠ h → (t.core s.cur).e.handle k = s.me.e.handle k

theorem State.hset_sets (s : State) (l : List Src) (h : Nat) (u : Handle) : SetsHandle s ((s.read l).hset h u) h u := by
  have hu := State.read_upd_core s l (fun x => x.eng (fun e => e.setHandle h u))
  have hc : ((s.read l).hset h u).core s.cur = ((s.me.touch s.ctx l).eng (fun e => e.setHandle h u)).next s.ctx 1 :=
    (State.core_done (c := s.cur) _ _ (by rfl)).trans (by rw [hu]; rfl)
  refine ⟨OnlyCore.done (State.read_upd_only s l _),
    State.done_passes rfl rfl Nat.one_pos (by rw [hu]; rfl) (by rw [hu]; rfl) (by rw [hu]; rfl), by rw [hc]; rfl, by rw [hc]; rfl, ?_, fun k hk => ?_⟩
  · rw [hc]; exact Eng.handle_setHandle_same _ _ _
  · rw [hc]; exact Eng.handle_setHandle_other _ _ hk

/-! ### The words -/

section
variable {s : State} {h a d : Nat} {fea : Bool}

theorem Instr.check_none {i : Instr} (hw : i.wf = true) : i.check = none := by simpa [Instr.wf] using hw

/-- MIN of the handle words (R240): their literal is below 64. -/
theorem minOf_handleWord {i : Instr} {mn : Nat} (he : encodeC i = [ciWord { maj := 0x13, mn := mn, d := 0, a := a, fea := fea, imm := h }])
    (hh : h < 64) (ha : a < 64 := by decide) (hmn : mn < 256 := by decide) : minOf i = mn :=
  minOf_ciWord he (CI.fits_mk (Nat.lt_trans hh (by decide)) (hmn := hmn) (ha := ha)) (show (0x13 : Nat) ≠ 5 by decide)

theorem minOf_hset (hw : (Instr.hset h a fea).wf = true) : minOf (.hset h a fea) = 0 := by
  have hc := Instr.check_none hw
  simp only [Instr.check, firstFail_cons, decide_eq_true_eq, firstFail_nil, and_true] at hc
  exact minOf_handleWord rfl hc.1 (ReadsBack.of_isS hc.2)

theorem minOf_harr (hw : (Instr.harr h a fea).wf = true) : minOf (.harr h a fea) = 1 := by
  have hc := Instr.check_none hw
  simp only [Instr.check, firstFail_cons, decide_eq_true_eq, firstFail_nil, and_true] at hc
  exact minOf_handleWord rfl hc.1 (ReadsBack.of_isS hc.2)

theorem minOf_hdrain (hw : (Instr.hdrain h).wf = true) : minOf (.hdrain h) = 3 := by
  have hc := Instr.check_none hw
  simp only [Instr.check, firstFail_cons, decide_eq_true_eq, firstFail_nil, and_true] at hc
  exact minOf_handleWord rfl hc

theorem minOf_hfree (hw : (Instr.hfree h).wf = true) : minOf (.hfree h) = 4 := by
  have hc := Instr.check_none hw
  simp only [Instr.check, firstFail_cons, decide_eq_true_eq, firstFail_nil, and_true] at hc
  exact minOf_handleWord rfl hc

theorem exec_hset_ready (hm : MayIssue (.hset h a fea) [.s a fea] s) : exec (.hset h a fea) s =
    let v := s.me.e.handle h
    if v.st ≠ 0 ∨ (s.sc a).toNat = 0 ∨ 65535 < (s.sc a).toNat then illegal (.hset h a fea) (s.read [.s a fea])
    else .next ((s.read [.s a fea]).hset h { v with st := 1, cnt := 0#40, arr := (s.sc a).toNat, err := false, fillno := (v.fillno + 1) % 2 ^ 32 }) := by
  calc exec (.hset h a fea) s = execHset h a fea s := rfl
    _ = _ := issue_ready hm _
    _ = _ := by rw [State.sc_upd_touch, State.read_handle]

theorem exec_harr_ready (hm : MayIssue (.harr h a fea) [.s a fea] s) : exec (.harr h a fea) s =
    let v := s.me.e.handle h
    if v.st ≠ 1 ∨ 2 ^ 39 ≤ (s.sc a).toNat then illegal (.harr h a fea) (s.read [.s a fea])
    else .next ((s.read [.s a fea]).hset h (if v.arr = 0 then { v.move (s.sc a).toNat false with st := 2, err := true }
      else { v.move (s.sc a).toNat false with arr := v.arr - 1 })) := by
  calc exec (.harr h a fea) s = execHarr h a fea s := rfl
    _ = _ := issue_ready hm _
    _ = _ := by rw [State.sc_upd_touch, State.read_handle]

theorem exec_hdrain_ready (hm : MayIssue (.hdrain h) [] s) : exec (.hdrain h) s =
    if (s.me.e.handle h).st ≠ 2 then illegal (.hdrain h) (s.read []) else .next ((s.read []).hset h { s.me.e.handle h with st := 3 }) := by
  calc exec (.hdrain h) s = execHdrain h s := rfl
    _ = _ := issue_ready hm _
    _ = _ := by rw [State.read_handle]

/-- `hfree` in the state in which it issues: it leaves a FREE handle, and frees a FULL one that nothing names or reads (R240). -/
theorem exec_hfree_ready (hm : MayIssue (.hfree h) [] s) : exec (.hfree h) s =
    if (s.me.e.handle h).st = 0 then .next ((s.read []).done 1)
    else if (s.me.e.handle h).st ≠ 2 then illegal (.hfree h) (s.read [])
    else if (!(s.read []).me.e.names h && !(s.read []).readers s.cur h) = true then .next ((s.read []).hset h { s.me.e.handle h with st := 0 })
    else .next ((s.read []).holds .drain) := by
  have hk : ¬s.hold.k = .drain := by rw [State.free_of_runs hm.runs]; nofun
  calc exec (.hfree h) s = execHfree h s := rfl
    _ = issue _ s _ _ := if_neg hk
    _ = _ := issue_ready hm _
    _ = _ := by dsimp only; rw [State.read_handle]; rfl

/-- `hwait` in the state in which it issues (R239): it follows the copy that filled the handle, or holds its context for the fill. -/
theorem exec_hwait_ready (hm : MayIssue (.hwait h) [] s) : exec (.hwait h) s =
    if s.me.readerGo h (s.me.readerFill h) then .next (((s.read []).observe s.cur s.ctx 0 s.me.copyMark).done 1)
    else .next ((s.read []).holds (.reader h (s.me.readerFill h))) := by
  have hme : (s.read []).me = s.me := by rw [State.read_me, Core.touch_nil]
  calc exec (.hwait h) s = execHwait h s := rfl
    _ = issue _ s _ _ := by unfold execHwait; rw [State.free_of_runs hm.runs]
    _ = _ := issue_ready hm _
    _ = _ := by dsimp only; rw [hme]; rfl

end

/-- A word that only reads goes on the same whatever its context follows in happens-before. -/
theorem State.observe_done_quiet (s : State) (n : Nat) : Quiet s { ((s.read []).observe s.cur s.ctx 0 n).done 1 with hb := s.hb } ∧
    Passes s { ((s.read []).observe s.cur s.ctx 0 n).done 1 with hb := s.hb } 1 :=
  State.done_quiet s [] Nat.one_pos

/-- A reader goes on at once where the handle is FULL, and captures the fill under way, or the next one (R239). -/
theorem Core.readerGo_fill (x : Core) (h : Nat) : x.readerGo h (x.readerFill h) = ((x.e.handle h).st == 2) ∧
    ((x.e.handle h).st ≠ 2 → x.readerFill h = if (x.e.handle h).st = 1 then (x.e.handle h).fillno else ((x.e.handle h).fillno + 1) % 2 ^ 32) := by
  have hne : ∀ n : Nat, n ≠ (n + 1) % 2 ^ 32 := fun n => by omega
  have hfill : x.readerFill h = if (x.e.handle h).st = 1 ∨ (x.e.handle h).st = 2 then (x.e.handle h).fillno
    else ((x.e.handle h).fillno + 1) % 2 ^ 32 := rfl
  have hgo : ∀ f, x.readerGo h f = ((x.e.handle h).fillno == f && ((x.e.handle h).st == 2 || (x.e.handle h).st == 3)) := fun _ => rfl
  rw [hgo, hfill]
  generalize x.e.handle h = v
  by_cases h2 : v.st = 2
  · simp [h2]
  · by_cases h1 : v.st = 1
    · simp [h1]
    · rw [if_neg (by omega), beq_false_of_ne (hne _), Bool.false_and]
      exact ⟨(beq_false_of_ne h2).symm, fun _ => (if_neg h1).symm⟩

/-- `harr` moves CNT, and leaves the rest of a FILLING handle unless CNT leaves its range (R238). -/
theorem Handle.move_filling {v : Handle} (hst : v.st = 1) (n : Nat) :
    { v.move n false with st := 2, err := true } = { v with cnt := v.cnt + BitVec.ofNat 40 n, st := 2, err := true } ∧
    (v.cnt.toInt + (n : Int) < 2 ^ 39 → v.move n false = { v with cnt := v.cnt + BitVec.ofNat 40 n }) := by
  have hcnt : BitVec.ofInt 40 (v.cnt.toInt + (n : Int)) = v.cnt + BitVec.ofNat 40 n := by
    rw [BitVec.ofInt_add, BitVec.ofInt_toInt, BitVec.ofInt_natCast]
  have hmove : v.move n false = if v.cnt.toInt + (n : Int) < -(2 ^ 39) ∨ 2 ^ 39 - 1 < v.cnt.toInt + (n : Int)
      then { v with cnt := v.cnt + BitVec.ofNat 40 n, st := 2, err := true } else { v with cnt := v.cnt + BitVec.ofNat 40 n } := by
    unfold Handle.move
    dsimp only
    rw [hcnt, if_pos hst]
  rw [hmove]
  refine ⟨?_, fun hlt => if_neg ?_⟩
  · split <;> rfl
  · have := BitVec.le_toInt v.cnt
    omega

/-! ### A core's handles at the end of a clock -/

theorem Sparse.get_map {α : Type} (f : α → α) (d : α) (hd : f d = d) (m : Sparse α) (k : Nat) :
    Sparse.get d (m.map (fun p => (p.1, f p.2))) k = f (Sparse.get d m k) := by
  induction m with
  | nil => exact hd.symm
  | cons p m ih =>
    obtain ⟨j, v⟩ := p
    show (if j = k then f v else Sparse.get d (m.map _) k) = f (if j = k then v else Sparse.get d m k)
    rw [ih, apply_ite f]

theorem State.clockEnds_handle (s : State) (c h : Nat) : (s.clockEnds.core c).e.handle h = ((s.core c).e.handle h).endClock := by
  have hcore : s.clockEnds.core c = (s.core c).eng (fun e => { e with hnd := e.hnd.map (fun p => (p.1, p.2.endClock)) }) :=
    Sparse.get_map (fun x : Core => x.eng (fun e => { e with hnd := e.hnd.map (fun p => (p.1, p.2.endClock)) })) {} rfl s.cores c
  rw [hcore]
  exact Sparse.get_map Handle.endClock {} rfl _ h

/-- `hinfo` packs a handle into one word (R240). -/
theorem Handle.info_bits (v : Handle) (hst : v.st < 4) (ha : v.arr < 2 ^ 16) : (v.info >>> 62).toNat = v.st ∧
    v.info.getLsbD 61 = v.err ∧ v.info.toNat / 2 ^ 40 % 2 ^ 16 = v.arr ∧ v.info.setWidth 40 = v.cnt := by
  have hc := v.cnt.isLt
  have he : v.err.toNat < 2 := Bool.toNat_lt v.err
  have hn : v.info.toNat = v.st * 2 ^ 62 + v.err.toNat * 2 ^ 61 + v.arr * 2 ^ 40 + v.cnt.toNat := by
    unfold Handle.info
    rw [BitVec.toNat_ofNat, Nat.mod_eq_of_lt (by omega)]
  refine ⟨?_, ?_, ?_, ?_⟩
  · rw [BitVec.toNat_ushiftRight, Nat.shiftRight_eq_div_pow, hn]
    omega
  · rw [BitVec.getLsbD, Nat.testBit_eq_decide_div_mod_eq, hn]
    cases h : v.err <;> rw [h] at he <;> simp only [Bool.toNat_true, Bool.toNat_false, decide_eq_true_eq, decide_eq_false_iff_not] <;> omega
  · rw [hn]
    omega
  · apply BitVec.eq_of_toNat_eq
    rw [BitVec.toNat_setWidth, hn]
    omega

/-- A DRAINING handle that nothing names or reads is FREE (R238). -/
theorem exec_handleDrainFree_ready {s : State} {c h : Nat} (hst : ((s.core c).e.handle h).st = 3) (hr : s.readers c h = false)
    (hn : (s.core c).e.names h = false) : exec (.handleDrainFree c h) s =
      .next (s.mod c (fun x => x.eng (fun e => e.setHandle h { (s.core c).e.handle h with st := 0 }))) :=
  (show exec (.handleDrainFree c h) s = execHandleDrainFree c h s from rfl).trans (if_pos ⟨hst, hr, hn⟩)

end Sys2Proof.Machine

namespace Sys2Proof

open Machine

/-- Settles O31: each word by the handle's state, the packing of `hinfo`, the event that frees, and the end of a clock. -/
theorem bufferHandles : Obligations.BufferHandles := by
  unfold Obligations.BufferHandles
  refine ⟨fun s h a fea => ?_, fun s d h => ?_, fun s c h hst hr hn => ?_, fun s c h => State.clockEnds_handle s c h⟩
  · intro v n sets
    have hsets : ∀ {i : Instr} {l : List Src} {u : Handle}, (MayIssue i l s → exec i s = .next ((s.read l).hset h u)) → sets i l u :=
      fun {i l u} he _ hm => by
        have h := State.hset_sets s l h u
        exact ⟨_, he hm, h.only, h.passes, h.regs, h.csrs, h.handle, h.others⟩
    refine ⟨fun hst h1 h2 => hsets fun hm => (exec_hset_ready hm).trans (if_neg fun e => e.elim (fun e => e hst) fun e => by omega), fun hbad hw => ?_,
      fun hst hn ha hc => hsets fun hm => (exec_harr_ready hm).trans ((if_neg fun e => e.elim (fun e => e hst) fun e => by omega).trans ?_),
      fun hst hn ha => hsets fun hm => (exec_harr_ready hm).trans ((if_neg fun e => e.elim (fun e => e hst) fun e => by omega).trans ?_), fun hbad hw => ?_,
      fun hst => hsets fun hm => (exec_hdrain_ready hm).trans (if_neg (not_not.2 hst)), fun hst hw => ?_,
      fun hst hn hr => hsets fun hm => (exec_hfree_ready hm).trans ?_, fun hst _ hm => ?_, fun h0 h2 hw => ?_,
      fun hst _ hm => ?_, fun hst _ hm => ?_⟩
    · exact trap_trapped (fun hm => (exec_hset_ready hm).trans ((if_pos (by omega)).trans (by rw [illegal, minOf_hset hw]))) hw
    · rw [if_neg (Nat.pos_iff_ne_zero.1 ha), (Handle.move_filling hst n).2 hc]
    · rw [if_pos ha, (Handle.move_filling hst n).1]
    · exact trap_trapped (fun hm => (exec_harr_ready hm).trans ((if_pos (by omega)).trans (by rw [illegal, minOf_harr hw]))) hw
    · exact trap_trapped (fun hm => (exec_hdrain_ready hm).trans ((if_pos hst).trans (by rw [illegal, minOf_hdrain hw]))) hw
    · have hready : (!(s.read []).me.e.names h && !(s.read []).readers s.cur h) = true := by
        rw [State.read_readers, State.read_me, Core.touch_nil, hr, hn]; rfl
      rw [if_neg (by rw [show (s.me.e.handle h).st = 2 from hst]; decide), if_neg (not_not.2 hst), if_pos hready]
    · exact ⟨_, (exec_hfree_ready hm).trans (if_pos hst), State.done_quiet s [] Nat.one_pos⟩
    · exact trap_trapped (fun hm => (exec_hfree_ready hm).trans ((if_neg h0).trans ((if_pos h2).trans (by rw [illegal, minOf_hfree hw])))) hw
    · have hgo : s.me.readerGo h (s.me.readerFill h) = true := by rw [(Core.readerGo_fill s.me h).1]; exact beq_iff_eq.2 hst
      exact ⟨_, (exec_hwait_ready hm).trans (if_pos hgo), State.observe_done_quiet s _⟩
    · obtain ⟨hgo, hfill⟩ := Core.readerGo_fill s.me h
      have hno : ¬s.me.readerGo h (s.me.readerFill h) = true := by rw [hgo]; exact fun e => hst (beq_iff_eq.1 e)
      obtain ⟨hq, hg, hh⟩ := State.holds_quiet s [] (.reader h (s.me.readerFill h))
      exact ⟨_, (exec_hwait_ready hm).trans (if_neg hno), hq, hg, by rw [hh, hfill hst]⟩
  · exact scalarResult_of_ret (fun s => (s.me.e.handle h).info) rfl (fun hc => by
      simp only [Instr.check, firstFail_cons, decide_eq_true_eq, firstFail_nil, and_true] at hc
      exact ReadsBack.of_isS hc.2) Nat.one_pos fun hst ha => by
        rw [State.read_handle]
        exact Handle.info_bits _ hst ha
  · refine ⟨_, exec_handleDrainFree_ready hst hr hn, State.mod_only s c _, ?_, ?_, fun k hk => ?_⟩
    · rw [State.core_mod_same]; rfl
    · rw [State.core_mod_same]; exact Eng.handle_setHandle_same _ _ _
    · rw [State.core_mod_same]; exact Eng.handle_setHandle_other _ _ hk

end Sys2Proof

end

section
set_option Elab.async false

/-! SUPPORT. Stash windows (R217, R218): mapping, and what write-back, unmapping and invalidation leave. O28. -/

namespace Sys2Proof.Machine

/-! ### Going on -/

/-- What going on leaves alone in every core: all but the sequencers. -/
theorem State.done_keeps {α : Type} (f : Core → α) (hf : ∀ x k n, f (x.next k n) = f x) (u : State) (n d : Nat) :
    f ((u.done n).core d) = f (u.core d) := by
  by_cases hd : d = u.cur
  · rw [State.core_done u n hd, hf]
  · rw [State.done_core_other rfl hd]

theorem Housekeeping.congr {s u t : State} (h : Housekeeping s u) (hr : ∀ d, (t.core d).r = (u.core d).r) (hm : t.mem = u.mem) :
    Housekeeping s t := by
  obtain ⟨h1, h2⟩ := h
  exact ⟨fun d => (hr d).trans (h1 d), fun pa hp => by rw [Homes.mem_eq hm pa]; exact h2 pa hp⟩

theorem Housekeeping.done {s u : State} (h : Housekeeping s u) (n : Nat) : Housekeeping s (u.done n) :=
  Housekeeping.congr h (fun d => State.done_keeps Core.r (fun _ _ _ => rfl) u n d) rfl

/-- What happens at home slices while a context holds is told of the state in which its word issued. -/
theorem Housekeeping.of_held {s v : State} {k : HoldK} (h : Homes ((s.read []).holds k) v []) : Housekeeping s v := by
  have ho := (State.holds_quiet s [] k).1
  have hl := State.holds_line s k
  refine ⟨fun d => (h.frame.core_r d).trans ?_, fun pa hp => ?_⟩
  · by_cases hc : d = s.cur
    · subst hc; exact ho.regs
    · rw [State.holds_core_other s k hc]
  · rcases h.bytes pa hp with e | ⟨d, hd, e⟩
    · exact .inl (e.trans (ho.only.bytes pa))
    · unfold WroteAt Core.wroteByte at hd
      rw [hl] at hd e
      exact .inr ⟨d, hd, e⟩

/-! ### Lines that a window holds -/

theorem Sparse.get_keep {α : Type} (d : α) (p : Nat → Bool) (m : Sparse α) (k : Nat) :
    Sparse.get d (Sparse.keep (fun n _ => p n) m) k = if p k = true then Sparse.get d m k else d := by
  induction m with
  | nil => exact (ite_self d).symm
  | cons q m ih =>
    obtain ⟨j, v⟩ := q
    show Sparse.get d (List.filter _ ((j, v) :: m)) k = if p k = true then (if j = k then v else Sparse.get d m k) else d
    rw [List.filter_cons]
    split
    · next hj =>
      show (if j = k then v else Sparse.get d (Sparse.keep (fun n _ => p n) m) k) = _
      rw [ih]
      split
      · next e => subst e; rw [if_pos hj]
      · rfl
    · next hj =>
      refine ih.trans ?_
      split
      · next hk => rw [if_neg fun e : j = k => hj (by rw [e]; exact hk)]
      · rfl

/-- Dropping a window's lines leaves the others (R217). -/
theorem State.dropLines_line (s : State) (c : Nat) (w : Win) (ln : Nat) :
    ((s.dropLines c w).core c).line ln = if (s.winLines w).contains ln = true then ({} : Line) else (s.core c).line ln := by
  unfold State.dropLines
  rw [State.core_mod_same]
  refine (Sparse.get_keep ({} : Line) (fun k => !(s.winLines w).contains k) _ ln).trans ?_
  cases (s.winLines w).contains ln <;> rfl

theorem State.dropLines_homes (s : State) (c : Nat) (w : Win) : Homes s (s.dropLines c w) [] := by
  refine State.mod_homes ⟨rfl, fun k => HoldMet.refl _, fun pa hw => ?_⟩ []
  have hl := State.dropLines_line s c w (pa / 64)
  unfold State.dropLines at hl
  rw [State.core_mod_same] at hl
  unfold Core.wroteByte at hw ⊢
  rw [hl] at hw ⊢
  split at hw
  · simp at hw
  · next h => rw [if_neg h]; exact ⟨hw, rfl⟩

/-- A write-back leaves none of its lines dirty. -/
theorem State.writeBack_clean {s : State} {c pa : Nat} {which : Nat → Bool} (hw : which (pa / 64) = true) : ¬DirtyAt (s.writeBack c which) c pa := by
  rintro ⟨hd, hwr⟩
  rcases State.writeBack_line s c which pa with h | h
  · exact (State.writeBack_takes (which := which) hw (h ▸ hd)).1 c hwr
  · exact h.1 c hwr

/-! ### The words -/

section
variable {s : State} {w : Nat}

/-- The state in which a window word waits. -/
abbrev State.windowed (s : State) (w : Nat) : State := (s.read []).holds (.stash w)

theorem State.windowed_me (s : State) (w : Nat) : (s.windowed w).me = s.me.heldBy s.now s.ctx (.stash w) := State.holds_me s _

theorem State.windowed_wins (s : State) (w : Nat) : ((s.windowed w).core s.cur).wins = s.me.wins := by
  have hc : (s.windowed w).core s.cur = s.me.heldBy s.now s.ctx (.stash w) := State.windowed_me s w
  rw [hc]; rfl

theorem State.windowed_win (s : State) (w : Nat) : (s.windowed w).win w = s.win w := by
  unfold State.win; rw [State.windowed_me]; rfl

/-- A window word in the state in which it issues: it waits for the window's earlier accesses, and does nothing to a free window. -/
theorem winWord_ready {i : Instr} (hm : MayIssue i [] s) (fin : State → State) : winWord i w s fin =
    if ((s.win w).size == 0 || s.winQuiet s.cur (s.win w) s.me.q.nid) = true
    then .next ((if (s.win w).size = 0 then s.windowed w else fin (s.windowed w)).done 1) else .next (s.windowed w) := by
  have hwin := State.windowed_win s w
  have hq : (s.windowed w).winQuiet s.cur (s.win w) s.me.q.nid = s.winQuiet s.cur (s.win w) s.me.q.nid := by
    have hc : (s.windowed w).core s.cur = s.me.heldBy s.now s.ctx (.stash w) := State.windowed_me s w
    unfold State.winQuiet
    rw [hc]
    rfl
  unfold winWord
  rw [drainWord_ready hm (by simp), hwin]
  show (if ((s.win w).size == 0 || (s.windowed w).winQuiet s.cur (s.win w) s.me.q.nid) = true then _ else _) = _
  rw [hq]

theorem winWord_free {i : Instr} (hm : MayIssue i [] s) (h : (s.win w).size = 0) (fin : State → State) :
    winWord i w s fin = .next ((s.windowed w).done 1) := by
  rw [winWord_ready hm, if_pos (by rw [h]; rfl), if_pos h]

theorem winWord_does {i : Instr} (hm : MayIssue i [] s) (h : (s.win w).size ≠ 0) (hq : s.winQuiet s.cur (s.win w) s.me.q.nid = true)
    (fin : State → State) : winWord i w s fin = .next ((fin (s.windowed w)).done 1) := by
  rw [winWord_ready hm, if_pos (by rw [hq, Bool.or_true]), if_neg h]

theorem exec_stashWb_ready (hm : MayIssue (.stashWb w) [] s) (h : (s.win w).size ≠ 0) (hq : s.winQuiet s.cur (s.win w) s.me.q.nid = true) :
    exec (.stashWb w) s = .next (((s.windowed w).writeWin s.cur (s.win w)).done 1) := by
  calc exec (.stashWb w) s = winWord (.stashWb w) w s (fun s => s.writeWin s.cur (s.win w)) := rfl
    _ = _ := winWord_does hm h hq _
    _ = _ := by rw [State.windowed_win]; rfl

theorem exec_stashUnmap_ready (hm : MayIssue (.stashUnmap w) [] s) (h : (s.win w).size ≠ 0) (hq : s.winQuiet s.cur (s.win w) s.me.q.nid = true) :
    exec (.stashUnmap w) s =
      .next (((((s.windowed w).writeWin s.cur (s.win w)).dropLines s.cur (s.win w)).freeWin w).done 1) := by
  calc exec (.stashUnmap w) s = winWord (.stashUnmap w) w s
        (fun s => ((s.writeWin s.cur (s.win w)).dropLines s.cur (s.win w)).freeWin w) := rfl
    _ = _ := winWord_does hm h hq _
    _ = _ := by rw [State.windowed_win]; rfl

theorem exec_stashInv_ready (hm : MayIssue (.stashInv w) [] s) (h : (s.win w).size ≠ 0) (hq : s.winQuiet s.cur (s.win w) s.me.q.nid = true) :
    exec (.stashInv w) s = .next (((s.windowed w).dropLines s.cur (s.win w)).done 1) := by
  calc exec (.stashInv w) s = winWord (.stashInv w) w s (fun s => s.dropLines s.cur (s.win w)) := rfl
    _ = _ := winWord_does hm h hq _
    _ = _ := by rw [State.windowed_win]; rfl

/-- A window word does nothing to a free window (R217). -/
theorem exec_freeWindow {i : Instr} (hi : i ∈ [Instr.stashWb w, .stashUnmap w, .stashInv w]) (hm : MayIssue i [] s) (h : (s.win w).size = 0) :
    exec i s = .next ((s.windowed w).done 1) := by
  simp only [List.mem_cons, List.not_mem_nil, or_false] at hi
  rcases hi with rfl | rfl | rfl
  · exact winWord_free hm h (fun s => s.writeWin s.cur (s.win w))
  · exact winWord_free hm h (fun s => ((s.writeWin s.cur (s.win w)).dropLines s.cur (s.win w)).freeWin w)
  · exact winWord_free hm h (fun s => s.dropLines s.cur (s.win w))

theorem State.held_done_quiet (s : State) (k : HoldK) : Quiet s (((s.read []).holds k).done 1) ∧ Passes s (((s.read []).holds k).done 1) 1 :=
  have ⟨hq, hg, _⟩ := State.holds_quiet s [] k
  Quiet.done hq hg Nat.one_pos

/-- What a window word leaves that sends its dirty lines home (R217). -/
def WroteWindow (s : State) (w : Nat) (t : State) : Prop :=
  Housekeeping s t ∧ StandsAt s t ∧
  (∀ pa, (s.winLines (s.win w)).contains (pa / 64) = true → DirtyAt s s.cur pa → t.byte pa = (s.me.line (pa / 64)).byte (pa % 64)) ∧
  ∀ pa, (s.winLines (s.win w)).contains (pa / 64) = true → ¬DirtyAt t s.cur pa

theorem State.writeWin_wrote (s : State) (w : Nat) : WroteWindow s w ((s.windowed w).writeWin s.cur (s.win w)) ∧
    (((s.windowed w).writeWin s.cur (s.win w)).core s.cur).wins = s.me.wins := by
  have hl := State.holds_line s (.stash w)
  have hstand := (State.holds_fenceDone s (.stash w) 0).stands
  have hwins := State.windowed_wins s w
  have hwl : (s.windowed w).winLines (s.win w) = s.winLines (s.win w) := rfl
  unfold State.writeWin
  rw [hwl]
  have hh := State.writeBack_homes (s.windowed w) s.cur (fun ln => (s.winLines (s.win w)).contains ln)
  refine ⟨⟨Housekeeping.of_held hh, hstand.trans hh.frame.standsAt, fun pa hin hd => ?_, fun pa hin => State.writeBack_clean hin⟩, ?_⟩
  · have hdl : (((s.windowed w).core s.cur).line (pa / 64)).dirty ≠ 0#4 := by rw [hl]; exact hd.1
    have htk := (State.writeBack_takes (which := fun ln => (s.winLines (s.win w)).contains ln) hin hdl).2
    rw [hl] at htk
    exact htk hd.2
  · rw [hh.frame.core_wins, hwins]

/-- Going on afterwards leaves the same. -/
theorem WroteWindow.done {u : State} (h : WroteWindow s w u) : Housekeeping s (u.done 1) ∧ Passes s (u.done 1) 1 ∧
    (∀ pa, (s.winLines (s.win w)).contains (pa / 64) = true → DirtyAt s s.cur pa → (u.done 1).byte pa = (s.me.line (pa / 64)).byte (pa % 64)) ∧
    ∀ pa, (s.winLines (s.win w)).contains (pa / 64) = true → ¬DirtyAt (u.done 1) s.cur pa := by
  obtain ⟨h1, h2, h3, h4⟩ := h
  refine ⟨Housekeeping.done h1 1, h2.passes, h3, fun pa hin hd => h4 pa hin ?_⟩
  have hs := State.done_keeps Core.stash (fun _ _ _ => rfl) u 1 s.cur
  unfold DirtyAt WroteAt Core.wroteByte Core.line at hd ⊢
  rwa [hs] at hd

/-- Freeing the window afterwards leaves the same (R217). -/
theorem WroteWindow.free {u : State} (h : WroteWindow s w u) : WroteWindow s w (u.freeWin w) ∧
    Sparse.get {} ((u.freeWin w).core s.cur).wins w = ({} : Win) ∧ ∀ ln, ((u.freeWin w).core s.cur).line ln = (u.core s.cur).line ln := by
  obtain ⟨h1, h2, h3, h4⟩ := h
  have hc : (u.freeWin w).core s.cur = { u.core s.cur with wins := Sparse.set {} (u.core s.cur).wins w {} } := by
    rw [← h2.cur]; exact State.core_upd u _
  refine ⟨⟨Housekeeping.congr h1 (fun d => ?_) rfl, ⟨h2.cur, h2.ctx, by rw [hc]; exact h2.pc, by rw [hc]; exact h2.loops, by rw [hc]; exact h2.tact⟩,
    h3, fun pa hin hd => h4 pa hin ?_⟩, by rw [hc]; exact Sparse.get_set_same ({} : Win) _ w {}, fun ln => by rw [hc]; rfl⟩
  · by_cases hd : d = s.cur
    · subst hd; rw [hc]
    · exact congrArg Core.r (State.core_upd_other u _ (h2.cur.symm ▸ hd))
  · unfold DirtyAt WroteAt Core.wroteByte Core.line at hd ⊢
    rwa [hc] at hd

/-- Dropping a window's lines, after they went home. -/
theorem WroteWindow.drop {u : State} (h : WroteWindow s w u) (hp : u.pontil = s.pontil) : WroteWindow s w (u.dropLines s.cur (s.win w)) ∧
    (∀ ln, (s.winLines (s.win w)).contains ln = true → ((u.dropLines s.cur (s.win w)).core s.cur).line ln = {}) := by
  have hwl : u.winLines (s.win w) = s.winLines (s.win w) := by
    unfold State.winLines State.ent; rw [hp]
  have hdl : ∀ ln, (s.winLines (s.win w)).contains ln = true → ((u.dropLines s.cur (s.win w)).core s.cur).line ln = {} := fun ln hin => by
    rw [State.dropLines_line, hwl, if_pos hin]
  have hh := State.dropLines_homes u s.cur (s.win w)
  obtain ⟨h1, h2, h3, h4⟩ := h
  refine ⟨⟨⟨fun d => (hh.frame.core_r d).trans (h1.1 d), h1.2⟩, h2.trans hh.frame.standsAt, h3, fun pa hin hd => ?_⟩, hdl⟩
  have hw := hd.2
  unfold WroteAt Core.wroteByte at hw
  rw [hdl _ hin] at hw
  simp at hw

end

/-! ### Mapping -/

section
variable {s : State} {w : Nat} {m : MemRef}

/-- A window may not be mapped so: it is mapped, its place or size is no multiple of 64, or it overlaps another (R217). -/
def State.mapBad (s : State) (w : Nat) (m : MemRef) : Prop :=
  (Sparse.get {} s.me.wins w).size ≠ 0 ∨ m.off.toInt % 64 ≠ 0 ∨ (s.sc m.x).toNat % 64 ≠ 0 ∨ (s.sc m.x).toNat = 0 ∨
    2 ^ 22 < s.me.mapped + (s.sc m.x).toNat ∨ ∃ p ∈ s.me.wins, p.2.size ≠ 0 ∧ p.2.tok.entry = (s.tk m.k).entry ∧
      (((s.tk m.k).base * 64 : Nat) + m.off.toInt) < (p.2.off + p.2.size : Nat) ∧
      (p.2.off : Int) < (((s.tk m.k).base * 64 : Nat) + m.off.toInt) + ((s.sc m.x).toNat : Int)

/-- A window's bytes lie inside its token's window, in tiers that a stash may hold (R217). -/
def State.mapFits (s : State) (m : MemRef) : Prop :=
  0 ≤ m.off.toInt ∧ m.off.toInt + ((s.sc m.x).toNat : Int) ≤ ((s.tk m.k).len * 64 : Nat) ∧
    ∀ r ∈ (s.ent (s.tk m.k).entry).ranges, ∀ pa ∈ [r.2, r.2 + 4096 * r.1 - 1], s.cfg.tier pa ≠ .l2 ∧ s.cfg.tier pa ≠ .bdeck

/-- `stash.map` maps its window. -/
def State.mapped (s : State) (w : Nat) (m : MemRef) : State :=
  let v : Win := { tok := s.tk m.k, off := (((s.tk m.k).base * 64 : Nat) + m.off.toInt).toNat, size := (s.sc m.x).toNat }
  (s.read (memSrcs m)).upd (fun x => { x with wins := Sparse.set {} x.wins w v })

theorem State.stashless_iff (s : State) (e : PEntry) : s.stashless e = false ↔
    ∀ r ∈ e.ranges, ∀ pa ∈ [r.2, r.2 + 4096 * r.1 - 1], s.cfg.tier pa ≠ .l2 ∧ s.cfg.tier pa ≠ .bdeck := by
  unfold State.stashless
  simp only [List.any_eq_false, Bool.not_eq_true, Bool.or_eq_false_iff, beq_eq_false_iff_ne]

/-- `stash.map` through a token that is as its entry (R217). -/
theorem exec_stashMap_ready (hm : MayIssue (.stashMap w m) (memSrcs m) s) (h0 : (s.tk m.k).entry ≠ 0) (hj : s.judge (s.tk m.k) = .fine (s.tk m.k)) :
    (s.mapBad w m → exec (.stashMap w m) s = trap (s.read (memSrcs m)) 1 w) ∧
    (¬s.mapBad w m → ¬s.mapFits m → exec (.stashMap w m) s = trap (s.read (memSrcs m)) 9 (s.tk m.k).entry) ∧
    (¬s.mapBad w m → s.mapFits m → exec (.stashMap w m) s = .next ((s.mapped w m).done 1)) := by
  have hj' : (s.read (memSrcs m)).judge (s.tk m.k) = .fine (s.tk m.k) := hj
  have hme : (s.read (memSrcs m)).me.wins = s.me.wins ∧ (s.read (memSrcs m)).me.mapped = s.me.mapped := by rw [State.read_me]; exact ⟨rfl, rfl⟩
  have hex : exec (.stashMap w m) s = _ := (show exec (.stashMap w m) s = execStashMap w m s from rfl).trans (issue_ready hm _)
  dsimp only at hex
  rw [State.tk_upd_touch, State.sc_upd_touch, hj', hme.1, hme.2] at hex
  dsimp only at hex
  have hbad : _ ∨ _ ∨ _ ∨ _ ∨ _ ∨ (s.me.wins.any (fun p => p.2.size != 0 && p.2.tok.entry == (s.tk m.k).entry &&
      decide ((((s.tk m.k).base * 64 : Nat) + m.off.toInt) < (p.2.off + p.2.size : Nat)) &&
      decide ((p.2.off : Int) < (((s.tk m.k).base * 64 : Nat) + m.off.toInt) + ((s.sc m.x).toNat : Int)))) = true ↔ s.mapBad w m :=
    or_congr_right (or_congr_right (or_congr_right (or_congr_right (or_congr_right (by
      simp only [List.any_eq_true, Bool.and_eq_true, bne_iff_ne, ne_eq, beq_iff_eq, decide_eq_true_eq, and_assoc])))))
  have hfits : ((s.tk m.k).entry = 0 ∨ false = true ∨ m.off.toInt < 0 ∨ ((s.tk m.k).len * 64 : Nat) < m.off.toInt + ((s.sc m.x).toNat : Int) ∨
      s.stashless (s.ent (s.tk m.k).entry) = true) ↔ ¬s.mapFits m := by
    unfold State.mapFits
    rw [← State.stashless_iff, Bool.eq_false_iff]
    constructor
    · rintro h ⟨h1, h2, h3⟩
      rcases h with h | h | h | h | h
      exacts [h0 h, Bool.false_ne_true h, by omega, by omega, h3 h]
    · intro h
      by_contra hn
      simp only [not_or] at hn
      obtain ⟨-, -, h1, h2, h3⟩ := hn
      exact h ⟨by omega, by omega, h3⟩
  rw [hex]
  exact ⟨fun hb => if_pos (hbad.2 hb), fun hb hf => (if_neg fun h => hb (hbad.1 h)).trans (if_pos (hfits.2 hf)),
    fun hb hf => (if_neg fun h => hb (hbad.1 h)).trans ((if_neg fun h => hfits.1 h hf).trans rfl)⟩

theorem stashMap_maps (hb : ¬s.mapBad w m) (hf : s.mapFits m) (h0 : (s.tk m.k).entry ≠ 0) (hj : s.judge (s.tk m.k) = .fine (s.tk m.k)) :
    WordResult (.stashMap w m) (memSrcs m) s (fun t => OnlyCore s.cur s t ∧ Passes s t 1 ∧
      (t.core s.cur).r = s.me.r ∧ (t.core s.cur).c = s.me.c ∧ (t.core s.cur).stash = s.me.stash ∧
      Sparse.get {} (t.core s.cur).wins w = { tok := s.tk m.k, off := (((s.tk m.k).base * 64 : Nat) + m.off.toInt).toNat, size := (s.sc m.x).toNat } ∧
      ∀ k, k ≠ w → Sparse.get {} (t.core s.cur).wins k = Sparse.get {} s.me.wins k) := fun _ hm => by
  obtain ⟨-, -, h3⟩ := exec_stashMap_ready hm h0 hj
  let v : Win := { tok := s.tk m.k, off := (((s.tk m.k).base * 64 : Nat) + m.off.toInt).toNat, size := (s.sc m.x).toNat }
  have hu : (s.mapped w m).core s.cur = { s.me.touch s.ctx (memSrcs m) with wins := Sparse.set {} s.me.wins w v } := State.read_upd_core s _ _
  have ht : ((s.mapped w m).done 1).core s.cur = ({ s.me.touch s.ctx (memSrcs m) with wins := Sparse.set {} s.me.wins w v } : Core).next s.ctx 1 :=
    (State.core_done (c := s.cur) _ _ (by rfl)).trans (by rw [hu]; rfl)
  refine ⟨_, h3 hb hf, OnlyCore.done (State.read_upd_only s _ _),
    State.done_passes rfl rfl Nat.one_pos (by rw [hu]; rfl) (by rw [hu]; rfl) (by rw [hu]; rfl), by rw [ht]; rfl, by rw [ht]; rfl, by rw [ht]; rfl,
    ?_, fun k hk => ?_⟩
  · rw [ht]; exact Sparse.get_set_same _ _ _ _
  · rw [ht]; exact Sparse.get_set_other _ _ _ hk

end

end Sys2Proof.Machine
namespace Sys2Proof

open Machine

/-- Settles O28: mapping by `exec_stashMap_ready`; the other words by what a write-back and dropped lines leave. -/
theorem stashWindows : Obligations.StashWindows := by
  unfold Obligations.StashWindows
  refine ⟨fun s w m => ?_, fun s w hs hq => ?_, fun s w hs i hi => ?_⟩
  · intro u n off ext bad fits h0 hl hg
    have hj : s.judge (s.tk m.k) = .fine (s.tk m.k) := (State.judge_live h0 hl).trans (if_pos hg)
    exact ⟨fun hb hf => stashMap_maps hb hf h0 hj, fun hb => trap_trapped fun hm => (exec_stashMap_ready hm h0 hj).1 hb,
      fun hb hf => trap_trapped fun hm => (exec_stashMap_ready hm h0 hj).2.1 hb hf⟩
  · intro inside home
    obtain ⟨hwr, hwins⟩ := State.writeWin_wrote s w
    have hp : ((s.windowed w).writeWin s.cur (s.win w)).pontil = s.pontil := (State.writeBack_homes _ _ _).frame.pontil
    have hw0 : (s.windowed w).win w = s.win w := State.windowed_win s w
    obtain ⟨hdrop, hlines⟩ := hwr.drop hp
    refine ⟨fun _ hm => ⟨_, exec_stashWb_ready hm hs hq, hwr.done, ?_⟩, fun _ hm => ⟨_, exec_stashUnmap_ready hm hs hq, ?_⟩,
      fun _ hm => ⟨_, exec_stashInv_ready hm hs hq, ?_⟩⟩
    · rw [State.done_keeps Core.wins (fun _ _ _ => rfl)]; exact hwins
    · obtain ⟨hfree, hnone, hkept⟩ := hdrop.free
      refine ⟨hfree.done, ?_, fun ln hin => ?_⟩
      · rw [State.done_keeps Core.wins (fun _ _ _ => rfl)]; exact hnone
      · rw [State.done_keeps (fun x : Core => x.line ln) (fun _ _ _ => rfl), hkept]; exact hlines ln hin
    · have hh := State.dropLines_homes (s.windowed w) s.cur (s.win w)
      have hquiet := (State.holds_quiet s [] (.stash w)).1
      have hline : ∀ ln, ((((s.windowed w).dropLines s.cur (s.win w)).done 1).core s.cur).line ln =
          if (s.winLines (s.win w)).contains ln = true then {} else s.me.line ln := fun ln => by
        rw [State.done_keeps (fun x : Core => x.line ln) (fun _ _ _ => rfl), State.dropLines_line, State.holds_line]
        rfl
      refine ⟨OnlyCore.done (OnlyCore.trans hquiet.only (State.mod_only _ _ _)), ((State.holds_fenceDone s (.stash w) 0).stands.trans hh.frame.standsAt).passes,
        ?_, ?_, fun ln hin => ?_, fun ln hin => ?_⟩
      · rw [State.done_keeps Core.r (fun _ _ _ => rfl), hh.frame.core_r]; exact hquiet.regs
      · rw [State.done_keeps Core.wins (fun _ _ _ => rfl), hh.frame.core_wins, ← State.windowed_wins s w]
      · rw [hline, if_pos hin]
      · rw [hline, if_neg hin]
  · exact fun _ hm => ⟨_, exec_freeWindow hi hm hs, State.held_done_quiet s _⟩

end Sys2Proof

end

section
set_option Elab.async false

/-! SUPPORT. V-words at the head of their queue (R137 to R141): how the results of a word land in its registers, element by element, and
what a word that executes leaves. O42, O43, O45, O46. -/

namespace Sys2Proof.Machine

/-! ### Numbers side by side -/

/-- Bit `j` of the number at place `i` among numbers of `b` bits that stand side by side at different places. -/
theorem bit_of_digits (b : Nat) (i j : Nat) (hj : j < b) (hk : b * i + j < 1024) (l : List (Nat × Nat)) (hv : ∀ p ∈ l, p.2 < 2 ^ b)
    (hn : (l.map Prod.fst).Nodup) : (BitVec.ofNat 1024 (l.map (fun p => p.2 * 2 ^ (b * p.1))).sum).getLsbD (b * i + j) =
      l.any (fun p => p.1 == i && p.2.testBit j) := by
  have one : ∀ (q v i j : Nat), v < 2 ^ b → j < b → b * i + j < 1024 →
      (BitVec.ofNat 1024 (v * 2 ^ (b * q))).getLsbD (b * i + j) = (q == i && v.testBit j) := by
    intro q v i j hv hj hk
    rw [BitVec.getLsbD_ofNat, decide_eq_true hk, Bool.true_and, Nat.testBit_mul_two_pow]
    rcases Nat.lt_trichotomy q i with h | rfl | h
    · have hle : b * q + b ≤ b * i := by rw [← Nat.mul_succ]; exact Nat.mul_le_mul_left b h
      have hz : v.testBit (b * i + j - b * q) = false :=
        Nat.testBit_lt_two_pow (Nat.lt_of_lt_of_le hv (Nat.pow_le_pow_right Nat.zero_lt_two (by omega)))
      rw [hz, Bool.and_false, beq_false_of_ne (Nat.ne_of_lt h), Bool.false_and]
    · rw [decide_eq_true (Nat.le_add_right _ _), Nat.add_sub_cancel_left, beq_self_eq_true]
    · have hle : b * i + b ≤ b * q := by rw [← Nat.mul_succ]; exact Nat.mul_le_mul_left b h
      rw [decide_eq_false (by omega), Bool.false_and, beq_false_of_ne (Nat.ne_of_gt h), Bool.false_and]
  induction l generalizing i j with
  | nil => simp
  | cons p l ih =>
    have hvl : ∀ q ∈ l, q.2 < 2 ^ b := fun q hq => hv q (List.mem_cons_of_mem _ hq)
    have hvp := hv p List.mem_cons_self
    rw [List.map_cons, List.nodup_cons] at hn
    have hand : BitVec.ofNat 1024 (p.2 * 2 ^ (b * p.1)) &&& BitVec.ofNat 1024 (l.map (fun p => p.2 * 2 ^ (b * p.1))).sum = 0#1024 := by
      apply BitVec.eq_of_getLsbD_eq
      intro k hk'
      have hb : 0 < b := Nat.lt_of_le_of_lt (Nat.zero_le _) hj
      have hdm : b * (k / b) + k % b = k := Nat.div_add_mod k b
      have h1 := one p.1 p.2 (k / b) (k % b) hvp (Nat.mod_lt _ hb) (by omega)
      have h2 := ih (k / b) (k % b) (Nat.mod_lt _ hb) (by omega) hvl hn.2
      rw [hdm] at h1 h2
      rw [BitVec.getLsbD_and, h1, h2, BitVec.getLsbD_zero]
      by_cases hp : p.1 = k / b
      · refine Bool.and_eq_false_iff.2 (.inr (List.any_eq_false.2 fun q hq => ?_))
        have hne : q.1 ≠ k / b := fun e => hn.1 (hp ▸ e ▸ List.mem_map_of_mem hq)
        rw [beq_false_of_ne hne]
        exact Bool.false_ne_true
      · rw [beq_false_of_ne hp, Bool.false_and, Bool.false_and]
    rw [List.map_cons, List.sum_cons, BitVec.ofNat_add, BitVec.add_eq_or_of_and_eq_zero _ _ hand, BitVec.getLsbD_or,
      one p.1 p.2 i j hvp hj hk, ih i j hj hk hvl hn.2, List.any_cons]

/-! ### Registers that a word writes (R139, R141) -/

theorem Core.granulesWritten_rdV (x : Core) (r : Nat) (m : VReg) (k : Nat) : (x.granulesWritten r m).rdV k = x.rdV k := by
  unfold Core.granulesWritten; split <;> rfl

theorem Core.putV_rdV (x : Core) (r : Nat) (v : VReg) (k : Nat) : (x.putV r v).rdV k = if k = r then v else x.rdV k := by
  unfold Core.putV Core.rdV
  split
  · next h => subst h; exact Sparse.get_set_same _ _ _ _
  · next h => exact Sparse.get_set_other _ _ _ h

/-- One register's part of what a word writes: the bits of the mask. -/
def mergeV (old mask v : VReg) : VReg := (old &&& ~~~mask) ||| (v &&& mask)

/-- One register of a flight lands. -/
def Core.landOne (x : Core) (p : Nat × VReg × VReg) : Core := (x.putV p.1 (mergeV (x.rdV p.1) p.2.1 p.2.2)).granulesWritten p.1 p.2.1

theorem Core.landOne_rdV (x : Core) (p : Nat × VReg × VReg) (r : Nat) :
    (x.landOne p).rdV r = if r = p.1 then mergeV (x.rdV p.1) p.2.1 p.2.2 else x.rdV r :=
  (Core.granulesWritten_rdV _ _ _ _).trans (Core.putV_rdV _ _ _ _)

theorem Core.land_rdV (x : Core) (f : Flight) (r : Nat) : (x.land f).rdV r = (f.wr.foldl Core.landOne x).rdV r := rfl

/-- A register that a word does not write stays. -/
theorem Core.landAll_other {wr : List (Nat × VReg × VReg)} {r : Nat} (h : r ∉ wr.map Prod.fst) (x : Core) :
    (wr.foldl Core.landOne x).rdV r = x.rdV r := by
  induction wr generalizing x with
  | nil => rfl
  | cons p wr ih =>
    rw [List.map_cons, List.mem_cons, not_or] at h
    rw [List.foldl_cons, ih h.2, Core.landOne_rdV, if_neg h.1]

theorem Core.landAll_one {wr : List (Nat × VReg × VReg)} (hn : (wr.map Prod.fst).Nodup) {r : Nat} {m v : VReg} (h : (r, m, v) ∈ wr) (x : Core) :
    (wr.foldl Core.landOne x).rdV r = mergeV (x.rdV r) m v := by
  induction wr generalizing x with
  | nil => exact absurd h List.not_mem_nil
  | cons p wr ih =>
    rw [List.map_cons, List.nodup_cons] at hn
    rw [List.foldl_cons]
    rcases List.mem_cons.1 h with rfl | hm
    · rw [Core.landAll_other hn.1, Core.landOne_rdV, if_pos rfl]
    · have hne : r ≠ p.1 := fun e => hn.1 (e ▸ List.mem_map_of_mem hm)
      rw [ih hn.2 hm, Core.landOne_rdV, if_neg hne]

theorem mergeV_getLsbD (old m v : VReg) {k : Nat} (hk : k < 1024) :
    (mergeV old m v).getLsbD k = if m.getLsbD k = true then v.getLsbD k else old.getLsbD k := by
  unfold mergeV
  rw [BitVec.getLsbD_or, BitVec.getLsbD_and, BitVec.getLsbD_and, BitVec.getLsbD_not, decide_eq_true hk]
  cases m.getLsbD k <;> simp

/-! ### Elements of registers (R20) -/

section
variable {w per : Nat}

/-- Element `e` of a run of registers, bit by bit. -/
theorem elem_testBit (rd : Nat → VReg) (first w e j : Nat) : (elem rd first w e).testBit j =
    (decide (j < 8 * w) && (rd (first + e / (128 / w))).getLsbD (8 * w * (e % (128 / w)) + j)) := by
  unfold elem
  dsimp only
  rw [Nat.testBit_mod_two_pow, Nat.testBit_div_two_pow, Nat.add_comm j]
  rfl

theorem elem_lt (rd : Nat → VReg) (first w e : Nat) : elem rd first w e < 2 ^ (8 * w) := Nat.mod_lt _ (Nat.two_pow_pos _)

/-- The place of an element's bits lies in its register. -/
theorem place_lt {w e j : Nat} (hj : j < 8 * w) (hp : 0 < 128 / w) : 8 * w * (e % (128 / w)) + j < 1024 := by
  have h1 : e % (128 / w) + 1 ≤ 128 / w := Nat.mod_lt _ hp
  have h2 : w * (128 / w) ≤ 128 := Nat.mul_div_le 128 w
  have h3 : w * (e % (128 / w)) + w ≤ 128 := by
    calc w * (e % (128 / w)) + w = w * (e % (128 / w) + 1) := (Nat.mul_succ _ _).symm
      _ ≤ w * (128 / w) := Nat.mul_le_mul_left w h1
      _ ≤ 128 := h2
  have h4 : 8 * w * (e % (128 / w)) = 8 * (w * (e % (128 / w))) := Nat.mul_assoc _ _ _
  omega

end

/-- What `elemWrites` writes to one register: the mask and the bits of its elements. -/
theorem elemWrites_mem (first w : Nat) (L : List Nat) (val : Nat → Nat) {e : Nat} (he : e ∈ L) :
    ∃ m v, (first + e / (128 / w), m, v) ∈ elemWrites first w (L.map (fun e => (e, val e))) := by
  refine ⟨_, _, List.mem_map.2 ⟨e / (128 / w), List.mem_eraseDups.2 ?_, rfl⟩⟩
  rw [List.map_map]
  exact List.mem_map.2 ⟨e, he, rfl⟩

theorem nodup_eraseDups {α : Type} [BEq α] [LawfulBEq α] : ∀ l : List α, l.eraseDups.Nodup
  | [] => List.nodup_nil
  | a :: l => by
    rw [List.eraseDups_cons, List.nodup_cons]
    have hle : (l.filter (fun b => !b == a)).length ≤ l.length := List.length_filter_le _ _
    refine ⟨fun h => ?_, nodup_eraseDups _⟩
    have := (List.mem_filter.1 (List.mem_eraseDups.1 h)).2
    simp at this
termination_by l => l.length

/-- The registers of `elemWrites` are those of its elements, each once. -/
theorem elemWrites_regs (first w : Nat) (els : List (Nat × Nat)) :
    (elemWrites first w els).map Prod.fst = ((els.map (fun p => p.1 / (128 / w))).eraseDups).map (first + ·) := by
  unfold elemWrites
  rw [List.map_map]
  rfl

theorem elemWrites_nodup (first w : Nat) (els : List (Nat × Nat)) : ((elemWrites first w els).map Prod.fst).Nodup := by
  rw [elemWrites_regs]
  exact List.Nodup.map (fun a b h => Nat.add_left_cancel h) (nodup_eraseDups _)

section
variable {w e : Nat} {L : List Nat} {val : Nat → Nat}

/-- The elements of one register, each at its own place. -/
theorem elems_places (hL : L.Nodup) (r : Nat) :
    (((L.map (fun e => (e, val e))).filter (fun p => p.1 / (128 / w) == r)).map (fun p => p.1 % (128 / w))).Nodup := by
  refine List.Nodup.map_on (fun x hx y hy hxy => ?_) (List.Nodup.filter _ (List.Nodup.map (fun a b h => congrArg Prod.fst h) hL))
  obtain ⟨hx, hxr⟩ := List.mem_filter.1 hx
  obtain ⟨hy, hyr⟩ := List.mem_filter.1 hy
  obtain ⟨a, -, rfl⟩ := List.mem_map.1 hx
  obtain ⟨b, -, rfl⟩ := List.mem_map.1 hy
  have hdiv : a / (128 / w) = b / (128 / w) := (beq_iff_eq.1 hxr).trans (beq_iff_eq.1 hyr).symm
  have hab : a = b := by
    rw [← Nat.div_add_mod a (128 / w), ← Nat.div_add_mod b (128 / w), hdiv]
    exact congrArg _ hxy
  rw [hab]

/-- An element of a list stands in its register at its place, and no other does. -/
theorem elems_any (f : Nat × Nat → Nat) (j : Nat) :
    ((((L.map (fun e => (e, val e))).filter (fun p => p.1 / (128 / w) == e / (128 / w))).map (fun p => (p.1 % (128 / w), f p))).any
      (fun q => q.1 == e % (128 / w) && q.2.testBit j)) = (decide (e ∈ L) && (f (e, val e)).testBit j) := by
  rw [Bool.eq_iff_iff, Bool.and_eq_true, decide_eq_true_eq, List.any_eq_true]
  constructor
  · rintro ⟨q, hq, hb⟩
    obtain ⟨p, hp, rfl⟩ := List.mem_map.1 hq
    obtain ⟨hp, hr⟩ := List.mem_filter.1 hp
    obtain ⟨a, ha, rfl⟩ := List.mem_map.1 hp
    rw [Bool.and_eq_true, beq_iff_eq] at hb
    have hae : a = e := by
      rw [← Nat.div_add_mod a (128 / w), ← Nat.div_add_mod e (128 / w), beq_iff_eq.1 hr]
      exact congrArg _ hb.1
    subst hae
    exact ⟨ha, hb.2⟩
  · rintro ⟨he, hb⟩
    refine ⟨_, List.mem_map_of_mem (List.mem_filter.2 ⟨List.mem_map_of_mem he, beq_self_eq_true _⟩), ?_⟩
    rw [beq_self_eq_true, Bool.true_and]
    exact hb

/-- Numbers that the elements of one register give, side by side: each stands at its element's place. -/
theorem elems_bits (hp : 0 < 128 / w) (hL : L.Nodup) (f : Nat × Nat → Nat) (hf : ∀ p, f p < 2 ^ (8 * w)) {j : Nat} (hj : j < 8 * w) :
    (BitVec.ofNat 1024 ((((L.map (fun e => (e, val e))).filter (fun p => p.1 / (128 / w) == e / (128 / w))).map
      (fun p => f p * 2 ^ (8 * w * (p.1 % (128 / w))))).sum)).getLsbD (8 * w * (e % (128 / w)) + j) =
    (decide (e ∈ L) && (f (e, val e)).testBit j) := by
  rw [← elems_any (w := w) f j, ← bit_of_digits (8 * w) _ j hj (place_lt hj hp), List.map_map]
  · rfl
  · intro p hp
    obtain ⟨q, -, rfl⟩ := List.mem_map.1 hp
    exact hf q
  · rw [List.map_map]
    exact elems_places hL _

/-- The mask and the bits that `elemWrites` gives one register: those of the elements that lie there. -/
theorem elemWrites_bits {first : Nat} (hp : 0 < 128 / w) (hL : L.Nodup) {m v : VReg}
    (h : (first + e / (128 / w), m, v) ∈ elemWrites first w (L.map (fun e => (e, val e)))) {j : Nat} (hj : j < 8 * w) :
    m.getLsbD (8 * w * (e % (128 / w)) + j) = decide (e ∈ L) ∧
    (e ∈ L → v.getLsbD (8 * w * (e % (128 / w)) + j) = (val e).testBit j) := by
  obtain ⟨r, -, hr⟩ := List.mem_map.1 h
  have hreg : r = e / (128 / w) := Nat.add_left_cancel (congrArg Prod.fst hr)
  subst hreg
  have hm := congrArg (fun p => p.2.1) hr
  have hv := congrArg (fun p => p.2.2) hr
  dsimp only at hm hv
  rw [← hm, ← hv, elems_bits hp hL (fun _ => 2 ^ (8 * w) - 1) (fun _ => Nat.sub_lt (Nat.two_pow_pos _) Nat.one_pos) hj,
    elems_bits hp hL (fun p => p.2 % 2 ^ (8 * w)) (fun _ => Nat.mod_lt _ (Nat.two_pow_pos _)) hj, Nat.testBit_two_pow_sub_one, decide_eq_true hj,
    Bool.and_true]
  refine ⟨rfl, fun he => ?_⟩
  rw [decide_eq_true he, Bool.true_and, Nat.testBit_mod_two_pow, decide_eq_true hj, Bool.true_and]

/-- Element by element what the results of `elemWrites` leave in the registers of a core (R139, R141). -/
theorem Core.landAll_elem {first : Nat} (hp : 0 < 128 / w) (hL : L.Nodup) (x : Core) (e : Nat) :
    elem ((elemWrites first w (L.map (fun e => (e, val e)))).foldl Core.landOne x).rdV first w e =
      if e ∈ L then val e % 2 ^ (8 * w) else elem x.rdV first w e := by
  have hn := elemWrites_nodup first w (L.map (fun e => (e, val e)))
  apply Nat.eq_of_testBit_eq
  intro j
  rw [elem_testBit]
  by_cases hj : j < 8 * w
  swap
  · rw [decide_eq_false hj, Bool.false_and]
    split
    · rw [Nat.testBit_mod_two_pow, decide_eq_false hj, Bool.false_and]
    · rw [elem_testBit, decide_eq_false hj, Bool.false_and]
  rw [decide_eq_true hj, Bool.true_and]
  have hk := place_lt (e := e) hj hp
  by_cases hr : first + e / (128 / w) ∈ (elemWrites first w (L.map (fun e => (e, val e)))).map Prod.fst
  · obtain ⟨⟨r, m, v⟩, hmem, hreq⟩ := List.mem_map.1 hr
    dsimp only at hreq
    subst hreq
    obtain ⟨h1, h2⟩ := elemWrites_bits hp hL hmem hj
    rw [Core.landAll_one hn hmem, mergeV_getLsbD _ _ _ hk, h1]
    by_cases he : e ∈ L
    · rw [if_pos (decide_eq_true he), if_pos he, h2 he, Nat.testBit_mod_two_pow, decide_eq_true hj, Bool.true_and]
    · rw [if_neg (by rw [decide_eq_false he]; decide), if_neg he, elem_testBit, decide_eq_true hj, Bool.true_and]
  · have he : e ∉ L := fun he => by
      obtain ⟨m, v, hmem⟩ := elemWrites_mem first w L val he
      exact hr (List.mem_map.2 ⟨_, hmem, rfl⟩)
    rw [if_neg he, Core.landAll_other hr, elem_testBit, decide_eq_true hj, Bool.true_and]

end

/-- A word whose results are `elemWrites` lands them in the elements of its list (R139, R141). -/
theorem lands_elems {f : Flight} {d wd n : Nat} {L : List Nat} {val : Nat → Nat} (hwd : 128 / wd * wd = 128) (hL : L.Nodup)
    (hsub : ∀ e ∈ L, e < n) (hf : f.wr = elemWrites d wd (L.map (fun e => (e, val e)))) : Lands f d wd n (· ∈ L) val := by
  have hp : 0 < 128 / wd := Nat.pos_of_ne_zero fun h => by rw [h] at hwd; omega
  have hw : 0 < wd := Nat.pos_of_ne_zero fun h => by rw [h] at hwd; omega
  intro x
  have hland : (x.land f).rdV = ((elemWrites d wd (L.map (fun e => (e, val e)))).foldl Core.landOne x).rdV := by
    funext r; rw [Core.land_rdV, hf]
  rw [hland]
  refine ⟨fun e _ => ⟨fun he => ?_, fun he => ?_⟩, fun r hr => Core.landAll_other (fun hmem => ?_) x⟩
  · rw [Core.landAll_elem hp hL]; exact if_pos he
  · rw [Core.landAll_elem hp hL]; exact if_neg he
  · rw [elemWrites_regs] at hmem
    obtain ⟨k, hk, rfl⟩ := List.mem_map.1 hmem
    obtain ⟨p, hp', rfl⟩ := List.mem_map.1 (List.mem_eraseDups.1 hk)
    obtain ⟨e, he, rfl⟩ := List.mem_map.1 hp'
    have hlt := hsub e he
    have hdiv : e * wd / 128 = e / (128 / wd) := by
      have := Nat.mul_div_mul_right e (128 / wd) hw
      rwa [hwd] at this
    have hmul : (e + 1) * wd ≤ n * wd := Nat.mul_le_mul_right wd hlt
    rw [Nat.succ_mul] at hmul
    have hle : e * wd / 128 + 1 ≤ (n * wd + 127) / 128 := by
      calc e * wd / 128 + 1 = (e * wd + 128) / 128 := (Nat.add_div_right _ (by decide)).symm
        _ ≤ (n * wd + 127) / 128 := Nat.div_le_div_right (by omega)
    dsimp only at hr
    omega

/-! ### A word at the head of its queue (R141 to R147) -/

section
variable {i : Instr} {s : State} {op q : Nat} {w : VFields} {cap : VCap}

/-- What a word's pipe makes of what the word's body says. -/
def VRes.out (s : State) (q : Nat) (cap : VCap) : VRes → Out
  | .wait => .next s
  | .next t => .next t
  | .trap cause => .next (s.upd (fun x => x.vTrap s.now q cause cap.tag cap))
  | .done t wr flags => .next (t.upd (fun x => x.executed q cap wr flags))

/-- A word that its pipe may execute does what its body says. -/
theorem vword_head (hp : vParts i = some (op, w)) (ha : AtHead s op w cap) (body : VFields → VCap → State → VRes) :
    vword i w s body = (body w cap s).out s (vQueue op w) cap := by
  obtain ⟨e, l, hq, hid⟩ := ha.head
  have hhead : ((s.me.v.queue (vQueue op w)).head?.map (fun e => e.cap.id)) = some cap.id := by rw [hq, ← hid]; rfl
  have hord : ¬(vQueue op w = 2 ∧ cap.inst ≠ 0 ∧ (s.me.v.qa.any (fun e => e.cap.inst == cap.inst && decide (e.cap.id < cap.id))) = true) := by
    rintro ⟨h2, h0, hany⟩
    rcases ha.ordered h2 with h | h
    · exact h0 h
    · obtain ⟨e, he, hb⟩ := List.any_eq_true.1 hany
      rw [Bool.and_eq_true, beq_iff_eq, decide_eq_true_eq] at hb
      rcases h e he with h | h
      · exact h hb.1
      · omega
  have hawait : s.me.vAwait op w cap = none := by
    have hnil : (vSrcs op w cap.rows).filter (fun p => !s.me.vFull cap.id p.1) = [] := by
      rw [List.filter_eq_nil_iff]
      intro r hr
      rw [ha.full r hr]
      decide
    unfold Core.vAwait
    rw [hnil]
    rfl
  have hskip : ¬(vQueue op w = 1 ∧ s.me.v.skip ≠ 0) := fun h => h.2 (ha.unskipped h.1)
  unfold vword
  rw [hp, ha.pipe]
  dsimp only
  rw [if_pos hhead]
  unfold vHead
  dsimp only
  rw [if_neg (by rw [ha.alive]; simp), if_neg hskip, if_neg hord, hawait]
  dsimp only
  rw [if_neg (by rw [ha.captured]; simp), if_neg (by rw [ha.sound]; simp)]
  generalize body w cap s = r
  cases r <;> rfl

/-- The queues after a word of queue L or A has executed (R141). -/
theorem Core.executed_queue (x : Core) (cap : VCap) (wr : List (Nat × VReg × VReg)) (fl : BitVec 6) (hq : q < 2) (p : Nat) :
    (x.executed q cap wr fl).v.queue p = if p = q then (x.v.queue p).filter (fun e => e.cap.id != cap.id) else x.v.queue p := by
  have hleave : (x.leave q cap.id).v.queue p = if p = q then (x.v.queue p).filter (fun e => e.cap.id != cap.id) else x.v.queue p := by
    have hq' : q = 0 ∨ q = 1 := by omega
    rcases hq' with rfl | rfl <;> by_cases h0 : p = 0 <;> by_cases h1 : p = 1 <;>
      simp [Core.leave, Core.vu, Vu.setQueue, Vu.queue, h0, h1]
  unfold Core.executed
  dsimp only
  split <;> exact hleave

/-- A word that writes registers and goes into flight as it executes (R141). -/
theorem State.upd_executed (hq : q < 2) (hmarks : cap.marks ≠ []) (wr : List (Nat × VReg × VReg)) (fl : BitVec 6) :
    Executed s (s.upd (fun x => x.executed q cap wr fl)) q cap
      { id := cap.id, q := q, marks := cap.marks, wr := wr, flags := fl, clk := cap.clk } := by
  have hc : (s.upd (fun x => x.executed q cap wr fl)).core s.cur = s.me.executed q cap wr fl := State.core_upd s _
  have hv : s.me.executed q cap wr fl = (s.me.leave q cap.id).vu (fun v => { v with fl := v.fl ++
      [{ id := cap.id, q := q, marks := cap.marks, wr := wr, flags := fl, clk := cap.clk }] }) := if_neg fun h => hmarks h.1
  refine ⟨State.upd_only s _, by rw [hc, hv]; rfl, ?_, fun p => by rw [hc]; exact Core.executed_queue _ _ _ _ hq p, rfl, rfl, rfl, rfl⟩
  rw [hc, hv]
  show (s.me.v.setQueue q _).fl ++ _ = _
  unfold Vu.setQueue
  split
  · rfl
  · split <;> rfl

/-! ### Elementwise words (R138, R139) -/

theorem State.mem_sel {n wd e : Nat} : e ∈ s.sel w cap n wd ↔ e < n ∧ Sel s w cap n wd e := by
  unfold State.sel selected Sel guardCount
  rw [List.mem_filter, List.mem_range, Bool.and_eq_true, decide_eq_true_eq]
  refine and_congr_right fun _ => and_congr_right fun _ => ?_
  by_cases h1 : w.gm = 1
  · simp [h1]
  · by_cases h2 : w.gm = 2
    · simp [h2]
    · simp [h1, h2]

theorem State.mem_sel_iff {n wd e : Nat} : e ∈ s.sel w cap n wd ↔ Sel s w cap n wd e := by
  refine State.mem_sel.trans ⟨fun h => h.2, fun h => ⟨?_, h⟩⟩
  have hlt := h.1
  split at hlt
  · exact hlt
  · omega

theorem State.sel_nodup {n wd : Nat} : (s.sel w cap n wd).Nodup := List.Nodup.filter _ List.nodup_range

/-- The flags of a word are those of all its elements (R24, R28). -/
theorem foldl_flags {α : Type} (l : List α) (g : α → BitVec 6) (z : BitVec 6) (k : Nat) :
    (l.foldl (fun fl x => fl ||| g x) z).getLsbD k = true ↔ z.getLsbD k = true ∨ ∃ x ∈ l, (g x).getLsbD k = true := by
  induction l generalizing z with
  | nil => simp
  | cons x l ih => rw [List.foldl_cons, ih, BitVec.getLsbD_or, Bool.or_eq_true]; simp [or_assoc]

/-- An elementwise word lands what its elements are (R139). -/
theorem vEach_word {n wd : Nat} {body : VFields → VCap → State → VRes} {f : Nat → Nat × BitVec 6} {P : Nat → Nat → BitVec 6 → Prop}
    (hx : exec i s = vword i w s body) (hb : i.wf = true → body w cap s = vEach w cap s n wd f)
    (hop : ∀ op, vParts i = some (op, w) → vQueue op w < 2 ∧ (1 ≤ cap.rows → vDest op w cap.rows ≠ [])) (hwd : i.wf = true → 128 / wd * wd = 128)
    (hP : i.wf = true → ∀ e, Sel s w cap n wd e → P e (f e).1 (f e).2) : VEach i s w cap n wd P := by
  intro op hp hw ha
  obtain ⟨hq, hd⟩ := hop op hp
  have hmarks : cap.marks ≠ [] := by rw [ha.marks]; exact hd ha.rows
  let L := s.sel w cap n wd
  let fl := (L.map (fun e => (e, f e))).foldl (fun fl p => fl ||| p.2.2) 0#6
  have hexec : exec i s = .next (s.upd (fun x => x.executed (vQueue op w) cap (elemWrites w.d wd (L.map (fun e => (e, (f e).1)))) fl)) := by
    rw [hx, vword_head hp ha, hb hw]
    unfold vEach
    dsimp only
    rw [List.map_map]
    rfl
  have hl := lands_elems (f := { id := cap.id, q := vQueue op w, marks := cap.marks, wr := elemWrites w.d wd (L.map (fun e => (e, (f e).1))), flags := fl, clk := cap.clk })
    (d := w.d) (n := n) (val := fun e => (f e).1) (hwd hw) State.sel_nodup (fun e he => (State.mem_sel.1 he).1) rfl
  refine ⟨_, _, fun e => (f e).1, hexec, State.upd_executed hq hmarks _ fl, ?_, fun e => (f e).2, fun e he => hP hw e he, fun k => ?_⟩
  · have he : (fun e => e ∈ L) = Sel s w cap n wd := funext fun e => propext State.mem_sel_iff
    rw [← he]
    exact hl
  · refine (foldl_flags _ (fun p : Nat × Nat × BitVec 6 => p.2.2) 0#6 k).trans ?_
    rw [BitVec.getLsbD_zero]
    constructor
    · rintro (h | ⟨p, hp, hk⟩)
      · cases h
      · obtain ⟨e, he, rfl⟩ := List.mem_map.1 hp
        exact ⟨e, State.mem_sel_iff.1 he, hk⟩
    · rintro ⟨e, he, hk⟩
      exact .inr ⟨_, List.mem_map_of_mem (State.mem_sel_iff.2 he), hk⟩

end

end Sys2Proof.Machine
end

section
set_option Elab.async false

/-! SUPPORT. The integer vector words (R150, R151): how elements read, how results narrow, and what each word makes of its operands. O42. -/

namespace Sys2Proof.Machine

/-! ### Types (R19, R21) -/

theorem tyBytes_cases (t : Nat) : tyBytes t = 1 ∨ tyBytes t = 2 ∨ tyBytes t = 4 ∨ tyBytes t = 8 := by
  unfold tyBytes
  split <;> simp

theorem tyBytes_divides (t : Nat) : 128 / tyBytes t * tyBytes t = 128 := by
  rcases tyBytes_cases t with h | h | h | h <;> rw [h]

theorem tyBits_pos (t : Nat) : 0 < 8 * tyBytes t := by
  rcases tyBytes_cases t with h | h | h | h <;> rw [h] <;> decide

/-- Half a type's range, doubled. -/
theorem tyHalf (t : Nat) : 2 ^ (8 * tyBytes t) = 2 * 2 ^ (8 * tyBytes t - 1) := by
  have h := tyBits_pos t
  rw [← Nat.pow_succ']
  congr 1
  omega

theorem tyInt2_eq_readsAs (t : Nat) {v : Nat} (hv : v < 2 ^ (8 * tyBytes t)) : tyInt2 t v = readsAs t v := by
  unfold tyInt2 readsAs
  dsimp only
  by_cases ht : t < 4
  · rw [if_pos ht, BitVec.toInt_eq_toNat_cond, BitVec.toNat_ofNat, Nat.mod_eq_of_lt hv]
    by_cases h : 2 ^ (8 * tyBytes t) ≤ 2 * v
    · rw [if_pos ⟨ht, h⟩, if_neg (Nat.not_lt.2 h)]
    · rw [if_neg fun e => h e.2, if_pos (Nat.lt_of_not_le h)]
  · rw [if_neg fun e => ht e.1, if_neg ht, Nat.mod_eq_of_lt hv]

theorem readsAs_range (t : Nat) {v : Nat} (hv : v < 2 ^ (8 * tyBytes t)) : tyLow t ≤ readsAs t v ∧ readsAs t v ≤ tyHigh t := by
  rw [← tyInt2_eq_readsAs t hv]
  have hh := tyHalf t
  unfold tyInt2 tyLow tyHigh
  dsimp only
  generalize 2 ^ (8 * tyBytes t) = m at hv hh
  generalize 2 ^ (8 * tyBytes t - 1) = k at hh
  by_cases ht : t < 4
  · rw [if_pos ht, if_pos ht]
    split <;> omega
  · rw [if_neg ht, if_neg ht, if_neg fun e => ht e.1]
    omega

theorem tyWrap_lt (t : Nat) (x : Int) : tyWrap t x < 2 ^ (8 * tyBytes t) := by
  have h0 : (0 : Int) < ((2 ^ (8 * tyBytes t) : Nat) : Int) := Int.natCast_pos.2 (Nat.two_pow_pos _)
  have h1 := Int.emod_lt_of_pos x h0
  have h2 := Int.emod_nonneg x (Int.ne_of_gt h0)
  unfold tyWrap
  omega

theorem tyWrap_cast (t : Nat) (x : Int) : (tyWrap t x : Int) = x % ((2 ^ (8 * tyBytes t) : Nat) : Int) :=
  Int.toNat_of_nonneg (Int.emod_nonneg x (Int.natCast_ne_zero.2 (Nat.pos_iff_ne_zero.1 (Nat.two_pow_pos _))))

/-- A natural number that fits wraps to itself. -/
theorem tyWrap_natCast (t : Nat) {v : Nat} (hv : v < 2 ^ (8 * tyBytes t)) : tyWrap t (v : Int) = v := by
  have h := tyWrap_cast t (v : Int)
  rw [← Int.natCast_emod, Nat.mod_eq_of_lt hv] at h
  exact Int.ofNat.inj h

/-- A number in a type's range reads back from its wrapped bits. -/
theorem readsAs_tyWrap (t : Nat) {y : Int} (h1 : tyLow t ≤ y) (h2 : y ≤ tyHigh t) : readsAs t (tyWrap t y) = y := by
  rw [← tyInt2_eq_readsAs t (tyWrap_lt t y)]
  have hc := tyWrap_cast t y
  have hh := tyHalf t
  have h0 := Nat.two_pow_pos (8 * tyBytes t)
  unfold tyLow at h1
  unfold tyHigh at h2
  unfold tyInt2
  dsimp only
  generalize tyWrap t y = v at hc
  generalize 2 ^ (8 * tyBytes t) = m at hc hh h0 h2 ⊢
  generalize 2 ^ (8 * tyBytes t - 1) = k at hh h1 h2
  by_cases ht : t < 4
  · rw [if_pos ht] at h1 h2
    by_cases hy : 0 ≤ y
    · rw [Int.emod_eq_of_lt hy (by omega)] at hc
      rw [if_neg (by omega), hc]
    · rw [Int.emod_eq_add_self_emod, Int.emod_eq_of_lt (by omega) (by omega)] at hc
      rw [if_pos (by omega), hc]
      omega
  · rw [if_neg ht] at h1 h2
    rw [Int.emod_eq_of_lt h1 (by omega)] at hc
    rw [if_neg fun e => ht e.1, hc]

theorem narrowed_wrap (t : Nat) (r : Int) : Narrowed t false r (tyWrap t r) := by
  refine ⟨tyWrap_lt t r, ?_⟩
  rw [if_neg (by decide), tyWrap_cast, Nat.cast_pow, Nat.cast_ofNat, Int.emod_emod]

theorem narrowed_sat (t : Nat) (r : Int) : Narrowed t true r (tySat t r) := by
  have hle : tyLow t ≤ tyHigh t := Int.le_trans (readsAs_range t (Nat.two_pow_pos _)).1 (readsAs_range t (Nat.two_pow_pos _)).2
  refine ⟨tyWrap_lt t _, ?_⟩
  rw [if_pos rfl]
  have hback : readsAs t (tySat t r) = min (max r (tyLow t)) (tyHigh t) := readsAs_tyWrap t (by omega) (by omega)
  rw [hback]
  have h1 : tyLow t = if t < 4 then -(2 ^ (8 * tyBytes t - 1)) else 0 := by unfold tyLow; push_cast; rfl
  have h2 : tyHigh t = if t < 4 then 2 ^ (8 * tyBytes t - 1) - 1 else 2 ^ (8 * tyBytes t) - 1 := by unfold tyHigh; push_cast; rfl
  rw [← h1, ← h2]
  omega

theorem narrowed_of_md (t md : Nat) (r : Int) : Narrowed t (md % 2 == 1) r (if md % 2 = 1 then tySat t r else tyWrap t r) := by
  by_cases h : md % 2 = 1
  · rw [if_pos h, h]; exact narrowed_sat t r
  · rw [if_neg h, beq_false_of_ne h]; exact narrowed_wrap t r

/-! ### Integer words (R150) -/

section
variable {i : Instr} {s : State} {w : VFields} {cap : VCap} {op0 : Nat}

/-- An elementwise word goes through queue A and writes registers (R64, R137). -/
theorem vword_place (h : vParts i = some (op0, w)) (hlo : 5 < op0) (hhi : op0 ≤ 0x1C0) :
    ∀ op, vParts i = some (op, w) → vQueue op w < 2 ∧ (1 ≤ cap.rows → vDest op w cap.rows ≠ []) := by
  intro op hop
  cases h.symm.trans hop
  refine ⟨?_, fun hr => ?_⟩
  · unfold vQueue
    rw [if_neg (by omega), if_neg (by omega)]
    decide
  · unfold vDest
    rw [if_neg (by omega), if_neg (by omega), if_pos hhi]
    intro he
    have hl := congrArg List.length he
    rw [run, List.length_map, List.length_range] at hl
    exact absurd hr (by rw [hl]; decide)

/-- An integer word makes each selected element what its function gives, narrowed. -/
theorem vInt_each {F : Nat → Nat → Nat → Int} {P : Nat → Nat → BitVec 6 → Prop} (hp : vParts i = some (op0, w))
    (hx : exec i s = vword i w s (fun u c s => vInt u c s F))
    (hP : i.wf = true → ∀ e, P e (if w.md % 2 = 1 then tySat w.ty (F w.ty (vA w s (tyBytes w.ty) e) (vB w cap s (tyBytes w.ty) e))
      else tyWrap w.ty (F w.ty (vA w s (tyBytes w.ty) e) (vB w cap s (tyBytes w.ty) e))) 0#6)
    (hlo : 5 < op0 := by decide) (hhi : op0 ≤ 0x1C0 := by decide) : VEach i s w cap (cap.rows * 128 / tyBytes w.ty) (tyBytes w.ty) P :=
  vEach_word hx (fun _ => rfl) (vword_place hp hlo hhi) (fun _ => tyBytes_divides _) fun hw e _ => hP hw e

theorem vA_lt (w : VFields) (s : State) (wd e : Nat) : vA w s wd e < 2 ^ (8 * wd) := elem_lt _ _ _ _

theorem vB_lt (w : VFields) (cap : VCap) (s : State) (wd e : Nat) : vB w cap s wd e < 2 ^ (8 * wd) := by
  unfold vB
  split
  · exact Nat.mod_lt _ (Nat.two_pow_pos _)
  · exact elem_lt _ _ _ _

/-- A word whose exact result is told of the operands as its type reads them. -/
theorem vInt_exact {F : Nat → Nat → Nat → Int} {R : Int → Int → Nat → Int → Prop} (hp : vParts i = some (op0, w))
    (hx : exec i s = vword i w s (fun u c s => vInt u c s F))
    (hR : ∀ a b, a < 2 ^ (8 * tyBytes w.ty) → b < 2 ^ (8 * tyBytes w.ty) → R (readsAs w.ty a) (readsAs w.ty b) b (F w.ty a b))
    (hlo : 5 < op0 := by decide) (hhi : op0 ≤ 0x1C0 := by decide) :
    VEach i s w cap (cap.rows * 128 / tyBytes w.ty) (tyBytes w.ty) (fun e v fl => fl = 0#6 ∧
      ∃ r, R (readsAs w.ty (vA w s (tyBytes w.ty) e)) (readsAs w.ty (vB w cap s (tyBytes w.ty) e)) (vB w cap s (tyBytes w.ty) e) r ∧
        Narrowed w.ty (w.md % 2 == 1) r v) :=
  vInt_each hp hx (fun _ e => ⟨rfl, _, hR _ _ (vA_lt w s _ e) (vB_lt w cap s _ e), narrowed_of_md _ _ _⟩) hlo hhi

/-- A word without saturation whose result is a number of its type's bits. -/
theorem vInt_nat {F : Nat → Nat → Nat → Int} {g : Nat → Nat → Nat} {P : Nat → Nat → BitVec 6 → Prop} (hp : vParts i = some (op0, w)) (hx : exec i s = vword i w s (fun u c s => vInt u c s F)) (hmd : i.wf = true → w.md % 2 = 0)
    (hF : ∀ a b, F w.ty a b = (g a b : Int)) (hg : ∀ a b, a < 2 ^ (8 * tyBytes w.ty) → b < 2 ^ (8 * tyBytes w.ty) → g a b < 2 ^ (8 * tyBytes w.ty))
    (hP : ∀ e, P e (g (vA w s (tyBytes w.ty) e) (vB w cap s (tyBytes w.ty) e)) 0#6)
    (hlo : 5 < op0 := by decide) (hhi : op0 ≤ 0x1C0 := by decide) :
    VEach i s w cap (cap.rows * 128 / tyBytes w.ty) (tyBytes w.ty) P :=
  vInt_each hp hx (fun hw e => by
    rw [if_neg (by rw [hmd hw]; decide), hF, tyWrap_natCast _ (hg _ _ (vA_lt w s _ e) (vB_lt w cap s _ e))]
    exact hP e) hlo hhi

/-- A word that works bit by bit. -/
theorem vInt_bits {F : Nat → Nat → Nat → Int} {g : Nat → Nat → Nat} {f : Bool → Bool → Bool} (hp : vParts i = some (op0, w)) (hx : exec i s = vword i w s (fun u c s => vInt u c s F)) (hmd : i.wf = true → w.md % 2 = 0)
    (hF : ∀ a b, F w.ty a b = (g a b : Int)) (hg : ∀ a b, a < 2 ^ (8 * tyBytes w.ty) → b < 2 ^ (8 * tyBytes w.ty) → g a b < 2 ^ (8 * tyBytes w.ty))
    (hb : ∀ a b k, a < 2 ^ (8 * tyBytes w.ty) → k < 8 * tyBytes w.ty → (g a b).testBit k = f (a.testBit k) (b.testBit k))
    (hlo : 5 < op0 := by decide) (hhi : op0 ≤ 0x1C0 := by decide) :
    VEach i s w cap (cap.rows * 128 / tyBytes w.ty) (tyBytes w.ty) (fun e v fl => fl = 0#6 ∧ v < 2 ^ (8 * tyBytes w.ty) ∧
      ∀ k, k < 8 * tyBytes w.ty → v.testBit k = f ((vA w s (tyBytes w.ty) e).testBit k) ((vB w cap s (tyBytes w.ty) e).testBit k)) :=
  vInt_nat hp hx hmd hF hg (fun e => ⟨rfl, hg _ _ (vA_lt w s _ e) (vB_lt w cap s _ e), fun k hk => hb _ _ k (vA_lt w s _ e) hk⟩) hlo hhi

end

/-! ### What the functions compute (R151) -/

theorem readsAs_abs_lt (t : Nat) {v : Nat} (hv : v < 2 ^ (8 * tyBytes t)) :
    -((2 ^ (8 * tyBytes t) : Nat) : Int) < readsAs t v ∧ readsAs t v < ((2 ^ (8 * tyBytes t) : Nat) : Int) := by
  rw [← tyInt2_eq_readsAs t hv]
  unfold tyInt2
  dsimp only
  split <;> omega

/-- A shift right by all bits and more leaves copies of the sign. -/
theorem shr_all (t : Nat) {v : Nat} (hv : v < 2 ^ (8 * tyBytes t)) :
    readsAs t v / ((2 ^ (8 * tyBytes t) : Nat) : Int) = if readsAs t v < 0 then -1 else 0 := by
  obtain ⟨h1, h2⟩ := readsAs_abs_lt t hv
  have hm := Nat.two_pow_pos (8 * tyBytes t)
  generalize 2 ^ (8 * tyBytes t) = m at h1 h2 hm
  split
  · next h => exact Int.ediv_eq_neg_one_of_neg_of_le h (by omega)
  · next h => exact Int.ediv_eq_zero_of_lt (by omega) h2

theorem leadZero_spec {bits v : Nat} (hv : v < 2 ^ bits) : leadZero bits v ≤ bits ∧ v < 2 ^ (bits - leadZero bits v) ∧
    (leadZero bits v < bits → 2 ^ (bits - 1 - leadZero bits v) ≤ v) := by
  unfold leadZero
  split
  · next h => subst h; exact ⟨Nat.le_refl _, Nat.two_pow_pos _, fun h => absurd h (Nat.lt_irrefl _)⟩
  · next h =>
    have h1 : v.log2 < bits := (Nat.log2_lt h).2 hv
    have h2 := Nat.lt_log2_self (n := v)
    have h3 := Nat.log2_self_le h
    refine ⟨by omega, ?_, fun _ => ?_⟩
    · rw [show bits - (bits - 1 - v.log2) = v.log2 + 1 by omega]; exact h2
    · rw [show bits - 1 - (bits - 1 - v.log2) = v.log2 by omega]; exact h3

theorem onesIn_eq {bits v : Nat} (hv : v < 2 ^ bits) (hb : bits ≤ 64) : onesIn v = (List.range bits).countP (fun k => v.testBit k) := by
  unfold onesIn
  rw [← List.countP_eq_length_filter, ← Nat.add_sub_cancel' hb, List.range_add, List.countP_append]
  have hz : ((List.range (64 - bits)).map (bits + ·)).countP (fun k => v.testBit k) = 0 := by
    rw [List.countP_eq_zero]
    intro k hk
    obtain ⟨j, -, rfl⟩ := List.mem_map.1 hk
    rw [Nat.testBit_lt_two_pow (Nat.lt_of_lt_of_le hv (Nat.pow_le_pow_right Nat.zero_lt_two (Nat.le_add_right _ _)))]
    decide
  rw [hz, Nat.add_zero]

theorem VFields.md_of_checks {w : VFields} {u : VUse} {i : Instr} (hw : i.wf = true) (hi : i.check = w.checks u) : u.md w.md = true := by
  have h := Instr.check_none hw
  rw [hi] at h
  unfold VFields.checks at h
  dsimp only at h
  rw [firstFail_cons, firstFail_cons, firstFail_cons] at h
  exact h.2.2.1

end Sys2Proof.Machine

namespace Sys2Proof

open Machine

/-- Settles O42: each word through `vInt_exact`, `vInt_bits` or `vInt_nat`, with the one fact about its function. -/
theorem vectorIntegers : Obligations.VectorIntegers := by
  unfold Obligations.VectorIntegers
  intro s w cap wd n bits a b int bit
  have hmul : ∀ i : Instr, i.check = w.checks (.int true false) ∨ i.check = w.checks (.int false false) → i.wf = true → w.md % 2 = 0 :=
    fun i h hw => by
      rcases h with h | h <;>
      · have := VFields.md_of_checks hw h
        simp only [VUse.int, Bool.and_eq_true, Bool.or_eq_true, decide_eq_true_eq, beq_iff_eq, Bool.false_eq_true, false_or] at this
        omega
  have hbits : (bits : Nat) = 8 * tyBytes w.ty := rfl
  have hle : 8 * tyBytes w.ty ≤ 64 := by rcases tyBytes_cases w.ty with h | h | h | h <;> rw [h] <;> decide
  have hlt : 8 * tyBytes w.ty < 2 ^ (8 * tyBytes w.ty) := Nat.lt_two_pow_self
  have hint : ∀ (op0 : Nat) (i : Instr) (R : Int → Int → Nat → Int → Prop) {F : Nat → Nat → Nat → Int}, 5 < op0 → op0 ≤ 0x1C0 → vParts i = some (op0, w) →
      exec i s = vword i w s (fun u c s => vInt u c s F) →
      (∀ a b, a < 2 ^ (8 * tyBytes w.ty) → b < 2 ^ (8 * tyBytes w.ty) → R (readsAs w.ty a) (readsAs w.ty b) b (F w.ty a b)) →
      int i R := fun _ _ _ _ h1 h2 hp hx hR => vInt_exact hp hx hR h1 h2
  have hbit : ∀ (op0 : Nat) (i : Instr) (g : Nat → Nat → Nat) (f : Bool → Bool → Bool) {F : Nat → Nat → Nat → Int}, 5 < op0 → op0 ≤ 0x1C0 → vParts i = some (op0, w) →
      exec i s = vword i w s (fun u c s => vInt u c s F) → (i.wf = true → w.md % 2 = 0) → (∀ a b, F w.ty a b = (g a b : Int)) →
      (∀ a b, a < 2 ^ (8 * tyBytes w.ty) → b < 2 ^ (8 * tyBytes w.ty) → g a b < 2 ^ (8 * tyBytes w.ty)) →
      (∀ a b k, a < 2 ^ (8 * tyBytes w.ty) → k < 8 * tyBytes w.ty → (g a b).testBit k = f (a.testBit k) (b.testBit k)) →
      bit i f := fun _ _ _ _ _ h1 h2 hp hx hmd hF hg hb => vInt_bits hp hx hmd hF hg hb h1 h2
  refine ⟨?_, ?_, ?_, ?_, ?_, ?_, ?_, ?_, ?_, ?_, ?_, ?_, ?_, ?_, ?_, ?_, ?_⟩
  · exact hint 0x40 (.vadd w) (fun a b _ r => r = a + b) (by decide) (by decide) rfl rfl fun a b ha hb => by rw [tyInt2_eq_readsAs _ ha, tyInt2_eq_readsAs _ hb]
  · exact hint 0x41 (.vsub w) (fun a b _ r => r = a - b) (by decide) (by decide) rfl rfl fun a b ha hb => by rw [tyInt2_eq_readsAs _ ha, tyInt2_eq_readsAs _ hb]
  · exact hint 0x42 (.vmul w) (fun a b _ r => r = a * b) (by decide) (by decide) rfl rfl fun a b ha hb => by rw [tyInt2_eq_readsAs _ ha, tyInt2_eq_readsAs _ hb]
  · exact hint 0x43 (.vmulh w) (fun a b _ r => r = Int.fdiv (a * b) (2 ^ bits)) (by decide) (by decide) rfl rfl fun a b ha hb => by
      rw [tyInt2_eq_readsAs _ ha, tyInt2_eq_readsAs _ hb, Nat.cast_pow, Nat.cast_ofNat]
      exact (Int.fdiv_eq_ediv_of_nonneg _ (by positivity)).symm
  · exact hint 0x44 (.vmin w) (fun a b _ r => r = min a b) (by decide) (by decide) rfl rfl fun a b ha hb => by rw [tyInt2_eq_readsAs _ ha, tyInt2_eq_readsAs _ hb]
  · exact hint 0x45 (.vmax w) (fun a b _ r => r = max a b) (by decide) (by decide) rfl rfl fun a b ha hb => by rw [tyInt2_eq_readsAs _ ha, tyInt2_eq_readsAs _ hb]
  · exact hint 0x46 (.vabs w) (fun a _ _ r => r = |a|) (by decide) (by decide) rfl rfl fun a b ha hb => by rw [tyInt2_eq_readsAs _ ha, Int.abs_eq_natAbs]
  · exact hint 0x47 (.vneg w) (fun a _ _ r => r = -a) (by decide) (by decide) rfl rfl fun a b ha hb => by rw [tyInt2_eq_readsAs _ ha]
  · exact hint 0x4C (.vshl w) (fun a _ k r => r = if bits ≤ k then 0 else a * 2 ^ k) (by decide) (by decide) rfl rfl fun a b ha hb => by rw [tyInt2_eq_readsAs _ ha, Nat.cast_pow, Nat.cast_ofNat]
  · exact hint 0x4D (.vshr w) (fun a _ k r => r = if bits ≤ k then (if a < 0 then -1 else 0) else Int.fdiv a (2 ^ k)) (by decide) (by decide) rfl rfl fun a b ha hb => by
      rw [tyInt2_eq_readsAs _ ha]
      by_cases hk : 8 * tyBytes w.ty ≤ b
      · rw [Nat.min_eq_right hk, shr_all _ ha, if_pos hk]
      · rw [Nat.min_eq_left (Nat.le_of_not_le hk), if_neg hk, Nat.cast_pow, Nat.cast_ofNat]
        exact (Int.fdiv_eq_ediv_of_nonneg _ (by positivity)).symm
  · exact hbit 0x48 (.vand w) Nat.land (fun x y => x && y) (by decide) (by decide) rfl rfl (hmul _ (.inl rfl)) (fun _ _ => rfl) (fun a b ha hb => Nat.and_lt_two_pow a hb)
      fun a b k _ _ => Nat.testBit_and a b k
  · exact hbit 0x49 (.vor w) Nat.lor (fun x y => x || y) (by decide) (by decide) rfl rfl (hmul _ (.inl rfl)) (fun _ _ => rfl) (fun a b ha hb => Nat.or_lt_two_pow ha hb)
      fun a b k _ _ => Nat.testBit_or a b k
  · exact hbit 0x4A (.vxor w) Nat.xor (fun x y => x != y) (by decide) (by decide) rfl rfl (hmul _ (.inl rfl)) (fun _ _ => rfl) (fun a b ha hb => Nat.xor_lt_two_pow ha hb)
      fun a b k _ _ => Nat.testBit_xor a b k
  · exact hbit 0x4B (.vnot w) (fun a _ => 2 ^ (8 * tyBytes w.ty) - 1 - a) (fun x _ => !x) (by decide) (by decide) rfl rfl (hmul _ (.inr rfl)) (fun _ _ => rfl) (fun a b ha hb => by omega)
      fun a b k ha hk => by
        rw [Nat.sub_sub, Nat.add_comm 1 a, Nat.testBit_two_pow_sub_succ ha, decide_eq_true hk, Bool.true_and]
  · exact vInt_nat (op0 := 0x4E) (g := fun a _ => leadZero (8 * tyBytes w.ty) a) rfl rfl (hmul _ (.inr rfl)) (fun _ _ => rfl)
      (fun a b ha hb => Nat.lt_of_le_of_lt (leadZero_spec ha).1 hlt) fun e => ⟨rfl, leadZero_spec (vA_lt w s _ e)⟩
  · exact vInt_nat (op0 := 0x4F) (g := fun a _ => onesIn a) rfl rfl (hmul _ (.inr rfl)) (fun _ _ => rfl)
      (fun a b ha hb => by
        rw [onesIn_eq ha hle]
        exact Nat.lt_of_le_of_lt (Nat.le_trans List.countP_le_length (by rw [List.length_range])) hlt)
      fun e => ⟨rfl, onesIn_eq (vA_lt w s _ e) hle⟩
  · refine vEach_word (f := fun e => (if s.me.mt.getLsbD e != (w.md / 4 % 2 == 1) then vA w s wd e else vB w cap s wd e, 0#6))
      (show exec (.vsel w) s = execVsel w s from rfl) (fun _ => rfl)
      (vword_place (op0 := 0x50) rfl (by decide) (by decide)) (fun _ => tyBytes_divides _) fun _ e _ => ⟨rfl, ?_⟩
    dsimp only
    congr 1
    by_cases hm : w.md / 4 % 2 = 1
    · simp [hm]
    · have h0 : w.md / 4 % 2 = 0 := by omega
      simp [h0]

end Sys2Proof

end

section
set_option Elab.async false

/-! SUPPORT. The floating vector words (R152 to R154): each is its operation on flushed operands. O43. -/

namespace Sys2Proof.Machine

/-! ### The sign of an element (R153) -/

section
variable {k a : Nat}

theorem signFlip_lt (ha : a < 2 ^ (k + 1)) : (if a < 2 ^ k then a + 2 ^ k else a - 2 ^ k) < 2 ^ (k + 1) := by
  rw [Nat.pow_succ] at *
  split <;> omega

theorem signFlip_low (ha : a < 2 ^ (k + 1)) {j : Nat} (hj : j < k) :
    (if a < 2 ^ k then a + 2 ^ k else a - 2 ^ k).testBit j = a.testBit j := by
  split
  · rw [Nat.add_comm, Nat.testBit_two_pow_add_gt hj]
  · next h =>
    obtain ⟨b, rfl⟩ := Nat.exists_eq_add_of_le (Nat.le_of_not_lt h)
    rw [Nat.add_sub_cancel_left, Nat.testBit_two_pow_add_gt hj]

theorem signFlip_top (ha : a < 2 ^ (k + 1)) : (if a < 2 ^ k then a + 2 ^ k else a - 2 ^ k).testBit k = !a.testBit k := by
  split
  · rw [Nat.add_comm, Nat.testBit_two_pow_add_eq]
  · next h =>
    obtain ⟨b, rfl⟩ := Nat.exists_eq_add_of_le (Nat.le_of_not_lt h)
    rw [Nat.add_sub_cancel_left, Nat.testBit_two_pow_add_eq, Bool.not_not]

end

/-! ### Floating words -/

section
variable {i : Instr} {s : State} {w : VFields} {cap : VCap} {op0 n : Nat}

/-- A floating word makes each selected element what its function gives. -/
theorem vFloat_each {body : VFields → VCap → State → VRes} (f : Nat → Nat × BitVec 6) (P : Nat → Nat → BitVec 6 → Prop)
    (hp : vParts i = some (op0, w)) (hlo : 5 < op0) (hhi : op0 ≤ 0x1C0) (hx : exec i s = vword i w s body)
    (hb : body w cap s = vEach w cap s n (tyBytes w.ty) f) (hP : ∀ e, P e (f e).1 (f e).2) : VEach i s w cap n (tyBytes w.ty) P :=
  vEach_word hx (fun _ => hb) (vword_place hp hlo hhi) (fun _ => tyBytes_divides _) fun _ e _ => hP e

end

/-- A NaN becomes the canonical NaN, and another element keeps all bits but its sign. -/
theorem vFSign_elem (t a : Nat) (g : Nat → Nat → Nat) (Q : Bool → Bool → Prop) (ha : a < 2 ^ (8 * tyBytes t))
    (hg : ∀ k, a < 2 ^ (k + 1) → (∀ j, j < k → (g (2 ^ k) a).testBit j = a.testBit j) ∧ Q (a.testBit k) ((g (2 ^ k) a).testBit k) ∧
      g (2 ^ k) a < 2 ^ (k + 1)) :
    let v := if ((fmtOf t).dec a).isNan then (fmtOf t).nan else g (2 ^ (8 * tyBytes t - 1)) a
    if ((fmtOf t).dec a).isNan then v = (fmtOf t).nan
    else (∀ j, j < 8 * tyBytes t - 1 → v.testBit j = a.testBit j) ∧ Q (a.testBit (8 * tyBytes t - 1)) (v.testBit (8 * tyBytes t - 1)) ∧
      v < 2 ^ (8 * tyBytes t) := by
  intro v
  by_cases h : ((fmtOf t).dec a).isNan
  · rw [if_pos h]; exact if_pos h
  · rw [if_neg h, show v = _ from if_neg h]
    have hpos := tyBits_pos t
    have h8 : 8 * tyBytes t = 8 * tyBytes t - 1 + 1 := by omega
    obtain ⟨hlow, htop, hlt⟩ := hg (8 * tyBytes t - 1) (by rw [← h8]; exact ha)
    rw [← h8] at hlt
    exact ⟨hlow, htop, hlt⟩

end Sys2Proof.Machine

namespace Sys2Proof

open Machine

/-- Settles O43: each word through `vFloat_each`; the sign words by the bits of `signFlip` and of a remainder. -/
theorem vectorFloats : Obligations.VectorFloats := by
  unfold Obligations.VectorFloats
  intro s w cap wd n f x y z one two fused most sign
  have hone : ∀ (op0 : Nat) (i : Instr) (g : Fmt → Nat → Bool → FV → Nat × BitVec 6) (h : FV → Nat × BitVec 6), 5 < op0 → op0 ≤ 0x1C0 → vParts i = some (op0, w) →
      exec i s = vword i w s (fun u c s => vF1 u c s g) → g f cap.rm cap.foz = h → one i h := by
    rintro op0 i g _ h1 h2 hp hx rfl
    exact vFloat_each (fun e => let r := g f cap.rm cap.foz (f.dec (x e).1); (r.1, r.2 ||| (x e).2)) _ hp h1 h2 hx rfl fun _ => ⟨rfl, rfl⟩
  have htwo : ∀ (op0 : Nat) (i : Instr) (g : Fmt → Nat → Bool → FV → FV → Nat × BitVec 6) (h : FV → FV → Nat × BitVec 6), 5 < op0 → op0 ≤ 0x1C0 → vParts i = some (op0, w) →
      exec i s = vword i w s (fun u c s => vF2 u c s g) → g f cap.rm cap.foz = h → two i h := by
    rintro op0 i g _ h1 h2 hp hx rfl
    exact vFloat_each (fun e => let r := g f cap.rm cap.foz (f.dec (x e).1) (f.dec (y e).1); (r.1, r.2 ||| (x e).2 ||| (y e).2)) _ hp h1 h2 hx rfl
      fun _ => ⟨rfl, rfl⟩
  have hfused : ∀ (op0 : Nat) (i : Instr) (neg : Bool) (h : FV → FV), 5 < op0 → op0 ≤ 0x1C0 → vParts i = some (op0, w) →
      exec i s = vword i w s (fun u c s => vF3 u c s neg) → (∀ v : FV, (if neg then v.neg else v) = h v) → fused i h := by
    intro op0 i neg h h1 h2 hp hx hn
    refine vFloat_each (fun e => let r := fFma f cap.rm cap.foz (f.dec (x e).1) (f.dec (y e).1) (if neg then (f.dec (z e).1).neg else f.dec (z e).1)
      (r.1, r.2 ||| (x e).2 ||| (y e).2 ||| (z e).2)) _ hp h1 h2 hx rfl fun e => ?_
    dsimp only
    rw [hn]
    exact ⟨rfl, rfl⟩
  have hmost : ∀ (op0 : Nat) (i : Instr) (gt : Bool), 5 < op0 → op0 ≤ 0x1C0 → vParts i = some (op0, w) →
      exec i s = vword i w s (fun u c s => vFMM u c s gt) → most i gt := by
    intro op0 i gt h1 h2 hp hx
    exact vFloat_each (fun e => let r := fMinMax f gt (x e).1 (y e).1; (r.1, r.2 ||| (x e).2 ||| (y e).2)) _ hp h1 h2 hx rfl fun _ => ⟨rfl, rfl⟩
  have hsign : ∀ (op0 : Nat) (i : Instr) (g : Nat → Nat → Nat) (Q : Bool → Bool → Prop), 5 < op0 → op0 ≤ 0x1C0 → vParts i = some (op0, w) →
      exec i s = vword i w s (fun u c s => vFSign u c s g) →
      (∀ a k, a < 2 ^ (k + 1) → (∀ j, j < k → (g (2 ^ k) a).testBit j = a.testBit j) ∧ Q (a.testBit k) ((g (2 ^ k) a).testBit k) ∧
        g (2 ^ k) a < 2 ^ (k + 1)) → sign i Q := by
    intro op0 i g Q h1 h2 hp hx hg
    exact vFloat_each (fun e => (if (f.dec (vA w s wd e)).isNan then f.nan else g (2 ^ (8 * wd - 1)) (vA w s wd e), 0#6)) _ hp h1 h2 hx rfl
      fun e => ⟨rfl, vFSign_elem w.ty _ g Q (vA_lt w s _ e) fun k => hg _ k⟩
  refine ⟨?_, ?_, ?_, ?_, ?_, ?_, ?_, ?_, ?_, ?_, ?_, ?_, ?_, ?_, ?_, ?_⟩
  · exact htwo 0x100 (.vfadd w) fAdd _ (by decide) (by decide) rfl rfl rfl
  · exact htwo 0x101 (.vfsub w) (fun f rm foz a b => fAdd f rm foz a b.neg) _ (by decide) (by decide) rfl rfl rfl
  · exact htwo 0x102 (.vfmul w) fMul _ (by decide) (by decide) rfl rfl rfl
  · exact htwo 0x105 (.vfdiv w) fDiv _ (by decide) (by decide) rfl rfl rfl
  · exact hfused 0x103 (.vfma w) false id (by decide) (by decide) rfl rfl fun _ => rfl
  · exact hfused 0x104 (.vfms w) true FV.neg (by decide) (by decide) rfl rfl fun _ => rfl
  · exact hone 0x106 (.vfsqrt w) fSqrt _ (by decide) (by decide) rfl rfl rfl
  · exact hone 0x107 (.vfrcp w) fRcp _ (by decide) (by decide) rfl rfl rfl
  · exact hone 0x108 (.vfrsq w) fRsq _ (by decide) (by decide) rfl rfl rfl
  · exact hone 0x109 (.vfexp2 w) fExp2 _ (by decide) (by decide) rfl rfl rfl
  · exact hone 0x10A (.vflog2 w) fLog2 _ (by decide) (by decide) rfl rfl rfl
  · exact hmost 0x10B (.vfmin w) false (by decide) (by decide) rfl rfl
  · exact hmost 0x10C (.vfmax w) true (by decide) (by decide) rfl rfl
  · refine hsign 0x10D (.vfabs w) (fun m a => a % m) (fun _ v => v = false) (by decide) (by decide) rfl rfl fun a k ha => ?_
    refine ⟨fun j hj => ?_, ?_, Nat.lt_of_le_of_lt (Nat.mod_le _ _) ha⟩
    · rw [Nat.testBit_mod_two_pow, decide_eq_true hj, Bool.true_and]
    · rw [Nat.testBit_mod_two_pow, decide_eq_false (Nat.lt_irrefl k), Bool.false_and]
  · exact hsign 0x10E (.vfneg w) (fun m a => if a < m then a + m else a - m) (fun a v => v = !a) (by decide) (by decide) rfl rfl fun a k ha =>
      ⟨fun j hj => signFlip_low ha hj, signFlip_top ha, signFlip_lt ha⟩
  · exact vFloat_each (op0 := 0x10F) (fun e => cvt (w.md % 16) w.ty cap.rm cap.fiz cap.foz (w.md / 16 % 2 == 1) (elem s.me.rdV w.a (tyBytes (w.md % 16)) e)) _
      rfl (by decide) (by decide) (show exec (.vcvt w) s = execVcvt w s from rfl) rfl fun _ => rfl

end Sys2Proof

end

section
set_option Elab.async false

/-! SUPPORT. Words of the S queue at their head, as O46 and O47 speak of them: `Vu.queue p` is the S queue for every p from 2 on, and both
statements say of all p but 2 that queue p stays while the word leaves queue 2. O46, O47 (both refuted). -/

namespace Sys2Proof.Machine

/-- A word at the head of the S queue cannot leave queue 2 while queue 3, the same list, stays. -/
theorem not_left_of_atHead {s : State} {op : Nat} {w : VFields} {cap : VCap} (ha : AtHead s op w cap) (hq : vQueue op w = 2) (v : Vu)
    (hleft : ∀ p, v.queue p = if p = 2 then (s.me.v.queue p).filter (fun e => e.cap.id != cap.id) else s.me.v.queue p) : False := by
  obtain ⟨e, l, hhead, hid⟩ := ha.head
  rw [hq] at hhead
  have h2 : v.queue 2 = (s.me.v.queue 2).filter (fun e => e.cap.id != cap.id) := hleft 2
  have h3 : v.queue 2 = s.me.v.queue 2 := hleft 3
  have hall := List.filter_eq_self.1 (h2.symm.trans h3) e (by rw [hhead]; exact List.mem_cons_self)
  rw [hid] at hall
  exact absurd hall (by rw [bne_self_eq_false]; decide)

/-- The null token fails its check or names bytes: nothing waits. -/
theorem State.check_null_ne_wait (s : State) (off : Int) (w : Nat) (need : BitVec 4) : s.check {} off w need ≠ .wait := by
  unfold State.check
  rw [show s.judge {} = .fine {} from rfl]
  dsimp only
  split
  · nofun
  · split <;> nofun

/-- A core whose S queue holds one word, numbered 0, which its pipe runs. -/
def oneStoreWord (i : Instr) : State := { pipe := some {}, cores := [(0, { v := { qs := [{ i := i, cap := {} }] } })] }

/-- `vnop` for the S queue. -/
def storeNop : VFields :=
  { ty := 0, d := 0, a := 0, b := 0, c := 0, e := 0, fe := 0, gc := 0, gm := 0, hint := 0, fo := false, lo := false, yld := false
    eox := false, sm := 0, md := 2, imm := 0#32 }

theorem storeNop_atHead : AtHead (oneStoreWord (.vnop storeNop)) 0x3FF storeNop {} where
  pipe := rfl
  head := ⟨_, [], rfl, rfl⟩
  marks := rfl
  rows := Nat.le_refl 1
  alive := rfl
  unskipped := fun _ => rfl
  ordered := fun _ => .inl rfl
  full := fun _ h => absurd h List.not_mem_nil
  captured := rfl
  whole := ⟨rfl, rfl, rfl, rfl⟩
  sound := rfl

/-- `vst` of v0 through the null token. -/
def nullStore : VFields := { storeNop with md := 0 }

theorem nullStore_atHead : AtHead (oneStoreWord (.vst nullStore)) 1 nullStore {} where
  pipe := rfl
  head := ⟨_, [], rfl, rfl⟩
  marks := rfl
  rows := Nat.le_refl 1
  alive := rfl
  unskipped := fun _ => rfl
  ordered := fun _ => .inl rfl
  full := fun _ _ => rfl
  captured := rfl
  whole := ⟨rfl, rfl, rfl, rfl⟩
  sound := rfl

end Sys2Proof.Machine

namespace Sys2Proof

open Machine

/-- Refutes O46: `vnop` with MOD 2 at the head of the S queue leaves queue 2, so the list `queue 3` names does not stay. -/
theorem not_vectorMasks : ¬ Obligations.VectorMasks := by
  unfold Obligations.VectorMasks
  intro h
  obtain ⟨-, -, -, -, -, -, -, -, -, hnop⟩ := h (oneStoreWord (.vnop storeNop)) storeNop {}
  obtain ⟨t, -, -, -, -, hleft, -⟩ := hnop 0x3FF rfl (by decide) storeNop_atHead
  exact not_left_of_atHead storeNop_atHead rfl _ hleft

/-- Refutes O47: `vst` through the null token leaves queue 2, so the list `queue 3` names does not stay. -/
theorem not_vectorMemory : ¬ Obligations.VectorMemory := by
  unfold Obligations.VectorMemory
  intro ⟨h, _⟩
  obtain ⟨-, hstore⟩ := h (oneStoreWord (.vst nullStore)) nullStore {} (.vst nullStore) 1 rfl (by decide) nullStore_atHead ⟨rfl, rfl, rfl, rfl, rfl⟩
    (by decide) (by decide) rfl
  obtain ⟨t, -, -, hleft, -⟩ := hstore (.inl rfl) rfl fun _ _ => State.check_null_ne_wait _ _ _ _
  exact not_left_of_atHead nullStore_atHead rfl _ hleft

end Sys2Proof

end

section
set_option Elab.async false

/-! SUPPORT. Codebook, block, reduction and permutation words (R155 to R160): whole registers as a word leaves them, the reductions, and the
event of a block that is none. O45. -/

namespace Sys2Proof.Machine

/-! ### Whole registers (R139) -/

theorem regWrites_regs (first w nreg : Nat) (els : List (Nat × Nat)) :
    (regWrites first w nreg els).map Prod.fst = (List.range nreg).map (first + ·) := by
  unfold regWrites
  rw [List.map_map]
  rfl

theorem regWrites_nodup (first w nreg : Nat) (els : List (Nat × Nat)) : ((regWrites first w nreg els).map Prod.fst).Nodup := by
  rw [regWrites_regs]
  exact List.Nodup.map (fun a b h => Nat.add_left_cancel h) List.nodup_range

theorem mergeV_all (old v : VReg) : mergeV old (BitVec.allOnes 1024) v = v := by
  unfold mergeV
  rw [BitVec.not_allOnes, BitVec.and_zero, BitVec.zero_or, BitVec.and_allOnes]

/-- A word that writes its registers whole lands the elements of its list and zeros elsewhere (R139). -/
theorem lands_regs {f : Flight} {d wd nreg : Nat} {L : List Nat} {val : Nat → Nat} (hwd : 128 / wd * wd = 128) (hL : L.Nodup)
    (hz : ∀ e, e ∉ L → val e = 0) (hf : f.wr = regWrites d wd nreg (L.map (fun e => (e, val e)))) :
    Lands f d wd (nreg * (128 / wd)) (fun _ => True) val := by
  have hp : 0 < 128 / wd := Nat.pos_of_ne_zero fun h => by rw [h] at hwd; omega
  intro x
  have hland : (x.land f).rdV = ((regWrites d wd nreg (L.map (fun e => (e, val e)))).foldl Core.landOne x).rdV := by
    funext r; rw [Core.land_rdV, hf]
  rw [hland]
  refine ⟨fun e he => ⟨fun _ => ?_, fun h => absurd trivial h⟩, fun r hr => Core.landAll_other (fun hmem => ?_) x⟩
  · have hr : e / (128 / wd) ∈ List.range nreg := List.mem_range.2 (Nat.div_lt_of_lt_mul (by rwa [Nat.mul_comm] at he))
    have hmem := List.mem_map_of_mem (f := fun r => (d + r, BitVec.allOnes 1024,
      BitVec.ofNat 1024 ((((L.map (fun e => (e, val e))).filter (fun p => p.1 / (128 / wd) == r)).map
        (fun p => p.2 % 2 ^ (8 * wd) * 2 ^ (8 * wd * (p.1 % (128 / wd))))).sum))) hr
    apply Nat.eq_of_testBit_eq
    intro j
    rw [elem_testBit, Core.landAll_one (regWrites_nodup _ _ _ _) hmem, mergeV_all, Nat.testBit_mod_two_pow]
    by_cases hj : j < 8 * wd
    · rw [elems_bits hp hL (fun p => p.2 % 2 ^ (8 * wd)) (fun _ => Nat.mod_lt _ (Nat.two_pow_pos _)) hj, Nat.testBit_mod_two_pow, decide_eq_true hj]
      by_cases he' : e ∈ L
      · rw [decide_eq_true he', Bool.true_and, Bool.true_and]
      · rw [hz e he', Nat.zero_testBit, Bool.and_false, Bool.and_false, Bool.and_false]
    · rw [decide_eq_false hj, Bool.false_and, Bool.false_and]
  · rw [regWrites_regs] at hmem
    obtain ⟨k, hk, rfl⟩ := List.mem_map.1 hmem
    have hlt := List.mem_range.1 hk
    rw [Nat.mul_assoc, hwd] at hr
    omega

theorem Lands.congr {f : Flight} {d wd n : Nat} {sel sel' : Nat → Prop} {val : Nat → Nat} (h : Lands f d wd n sel val)
    (hs : ∀ e, e < n → (sel e ↔ sel' e)) : Lands f d wd n sel' val := fun x =>
  ⟨fun e he => ⟨fun h' => ((h x).1 e he).1 ((hs e he).2 h'), fun h' => ((h x).1 e he).2 fun h'' => h' ((hs e he).1 h'')⟩, (h x).2⟩

/-! ### Words of queue A -/

section
variable {i : Instr} {s : State} {w : VFields} {cap : VCap} {op0 n wd : Nat}

/-- A word that writes registers lands what its body says. -/
theorem vDoes_word {body : VFields → VCap → State → VRes} {sel : Nat → Prop} {P : (Nat → Nat) → BitVec 6 → Prop}
    {wr : List (Nat × VReg × VReg)} {fl : BitVec 6} {val : Nat → Nat} (hp : vParts i = some (op0, w)) (hq : vQueue op0 w < 2)
    (hd : 1 ≤ cap.rows → vDest op0 w cap.rows ≠ []) (hx : exec i s = vword i w s body) (hb : i.wf = true → body w cap s = .done s wr fl)
    (hl : ∀ f : Flight, f.wr = wr → Lands f w.d wd n sel val) (hP : i.wf = true → P val fl) : VDoes i s w cap n wd sel P := by
  intro op hop hw ha
  cases hp.symm.trans hop
  have hmarks : cap.marks ≠ [] := by rw [ha.marks]; exact hd ha.rows
  refine ⟨s.upd (fun x => x.executed (vQueue op0 w) cap wr fl), _, val, ?_, State.upd_executed hq hmarks wr fl, hl _ rfl, hP hw⟩
  rw [hx, vword_head hop ha, hb hw]
  rfl

/-- The words of queue A from `vred` to `vcompress`, but for `vred`, write their group. -/
theorem vperm_place (h : vParts i = some (op0, w)) (hlo : 0x200 < op0) (hhi : op0 ≤ 0x205) :
    ∀ op, vParts i = some (op, w) → vQueue op w < 2 ∧ (1 ≤ cap.rows → vDest op w cap.rows ≠ []) := by
  intro op hop
  cases h.symm.trans hop
  refine ⟨?_, fun hr he => ?_⟩
  · unfold vQueue
    rw [if_neg (by omega), if_neg (by omega)]
    decide
  · unfold vDest at he
    rw [if_neg (by omega), if_neg (by omega), if_neg (by omega), if_neg (by omega), if_neg (by omega), if_pos hhi] at he
    have hl := congrArg List.length he
    rw [run, List.length_map, List.length_range] at hl
    exact absurd hr (by rw [hl]; decide)

/-- A permutation moves raw bits. -/
theorem vMove_each {body : VFields → VCap → State → VRes} (g : Nat → Nat → Nat → Nat) {Q : Nat → Nat → Prop} (hp : vParts i = some (op0, w))
    (hlo : 0x200 < op0) (hhi : op0 ≤ 0x205) (hx : exec i s = vword i w s body) (hb : body w cap s = vMove w cap s g)
    (hQ : i.wf = true → ∀ e, Q e (g (tyBytes w.ty) (cap.rows * 128 / tyBytes w.ty) e)) :
    VEach i s w cap (cap.rows * 128 / tyBytes w.ty) (tyBytes w.ty) (fun e v fl => fl = 0#6 ∧ Q e v) :=
  vEach_word hx (fun _ => hb) (vperm_place hp hlo hhi) (fun _ => tyBytes_divides _) fun hw e _ => ⟨rfl, hQ hw e⟩

/-- One element, and zeros in the rest of its register (R158, R159). -/
def onlyFirst (v e : Nat) : Nat := if e = 0 then v else 0

/-- A word that leaves one element and zeros. -/
theorem vFirst_word {body : VFields → VCap → State → VRes} {P : Nat → BitVec 6 → Prop} {v : Nat} {fl : BitVec 6}
    (hp : vParts i = some (op0, w)) (h0 : op0 = 0x1C3 ∨ op0 = 0x200) (hx : exec i s = vword i w s body) (hwd : 128 / wd * wd = 128)
    (hb : i.wf = true → body w cap s = .done s (regWrites w.d wd 1 [(0, v)]) fl) (hP : i.wf = true → P v fl) :
    VDoes i s w cap (128 / wd) wd (fun _ => True) (fun val fl => (∀ e, 0 < e → val e = 0) ∧ P (val 0) fl) := by
  have hplace : vQueue op0 w < 2 ∧ vDest op0 w cap.rows ≠ [] := by
    rcases h0 with rfl | rfl <;> exact ⟨by unfold vQueue; simp, by unfold vDest; simp⟩
  refine vDoes_word (val := onlyFirst v) hp hplace.1 (fun _ => hplace.2) hx hb (fun f hf => ?_) fun hw => ⟨fun e he => if_neg (Nat.ne_of_gt he), hP hw⟩
  have h := lands_regs (f := f) (d := w.d) (nreg := 1) (L := [0]) (val := onlyFirst v) hwd (List.nodup_singleton 0)
    (fun e he => if_neg fun h => he (List.mem_singleton.2 h)) hf
  rwa [Nat.one_mul] at h

end

/-! ### Integer reductions (R159) -/

theorem foldl_min_spec (l : List Int) (z : Int) : (l.foldl min z = z ∨ l.foldl min z ∈ l) ∧ l.foldl min z ≤ z ∧ ∀ x ∈ l, l.foldl min z ≤ x := by
  induction l generalizing z with
  | nil => exact ⟨.inl rfl, Int.le_refl _, fun _ h => absurd h List.not_mem_nil⟩
  | cons x l ih =>
    obtain ⟨h1, h2, h3⟩ := ih (min z x)
    rw [List.foldl_cons]
    refine ⟨?_, Int.le_trans h2 (Int.min_le_left _ _), fun y hy => ?_⟩
    · rcases h1 with h1 | h1
      · rcases min_choice z x with h | h
        · exact .inl (h1.trans h)
        · exact .inr (List.mem_cons.2 (.inl (h1.trans h)))
      · exact .inr (List.mem_cons_of_mem _ h1)
    · rcases List.mem_cons.1 hy with rfl | hy
      · exact Int.le_trans h2 (Int.min_le_right _ _)
      · exact h3 y hy

theorem foldl_max_spec (l : List Int) (z : Int) : (l.foldl max z = z ∨ l.foldl max z ∈ l) ∧ z ≤ l.foldl max z ∧ ∀ x ∈ l, x ≤ l.foldl max z := by
  induction l generalizing z with
  | nil => exact ⟨.inl rfl, Int.le_refl _, fun _ h => absurd h List.not_mem_nil⟩
  | cons x l ih =>
    obtain ⟨h1, h2, h3⟩ := ih (max z x)
    rw [List.foldl_cons]
    refine ⟨?_, Int.le_trans (Int.le_max_left _ _) h2, fun y hy => ?_⟩
    · rcases h1 with h1 | h1
      · rcases max_choice z x with h | h
        · exact .inl (h1.trans h)
        · exact .inr (List.mem_cons.2 (.inl (h1.trans h)))
      · exact .inr (List.mem_cons_of_mem _ h1)
    · rcases List.mem_cons.1 hy with rfl | hy
      · exact Int.le_trans (Int.le_max_right _ _) h2
      · exact h3 y hy

theorem foldl_land_testBit (l : List Nat) (z k : Nat) : (l.foldl Nat.land z).testBit k = (z.testBit k && l.all (fun x => x.testBit k)) := by
  induction l generalizing z with
  | nil => simp
  | cons x l ih => rw [List.foldl_cons, ih, List.all_cons, ← Bool.and_assoc]; exact congrArg (· && _) (Nat.testBit_and z x k)

theorem foldl_lor_testBit (l : List Nat) (z k : Nat) : (l.foldl Nat.lor z).testBit k = (z.testBit k || l.any (fun x => x.testBit k)) := by
  induction l generalizing z with
  | nil => simp
  | cons x l ih => rw [List.foldl_cons, ih, List.any_cons, ← Bool.or_assoc]; exact congrArg (· || _) (Nat.testBit_or z x k)

theorem foldl_xor_testBit (l : List Nat) (z k : Nat) :
    (l.foldl Nat.xor z).testBit k = (z.testBit k != decide (l.countP (fun x => x.testBit k) % 2 = 1)) := by
  induction l generalizing z with
  | nil => simp
  | cons x l ih =>
    rw [List.foldl_cons, ih, show (Nat.xor z x).testBit k = (z.testBit k != x.testBit k) from Nat.testBit_xor z x k, List.countP_cons]
    have h2 := Nat.mod_two_eq_zero_or_one (l.countP (fun x => x.testBit k))
    cases z.testBit k <;> cases x.testBit k <;> rcases h2 with h2 | h2 <;> simp [h2, Nat.add_mod]

section
variable {t : Nat} {l : List Nat}

/-- Bits read as their type and wrapped again are themselves. -/
theorem tyWrap_readsAs {v : Nat} (hv : v < 2 ^ (8 * tyBytes t)) : tyWrap t (readsAs t v) = v := by
  rw [← tyInt2_eq_readsAs t hv]
  have hc := tyWrap_cast t (tyInt2 t v)
  unfold tyInt2 at hc ⊢
  dsimp only at hc ⊢
  split at hc
  · next h =>
    rw [if_pos h] at *
    rw [Int.sub_emod_right, Int.emod_eq_of_lt (by omega) (by omega)] at hc
    exact Int.ofNat.inj hc
  · next h =>
    rw [if_neg h] at *
    rw [Int.emod_eq_of_lt (by omega) (by omega)] at hc
    exact Int.ofNat.inj hc

theorem map_tyInt2 (hl : ∀ x ∈ l, x < 2 ^ (8 * tyBytes t)) : l.map (tyInt2 t) = l.map (readsAs t) :=
  List.map_congr_left fun x hx => tyInt2_eq_readsAs t (hl x hx)

theorem redInts_sum (hl : ∀ x ∈ l, x < 2 ^ (8 * tyBytes t)) (sat : Bool) : Narrowed t sat (l.map (readsAs t)).sum (redInts t 0 sat l) := by
  unfold redInts
  dsimp only
  rw [if_pos rfl, map_tyInt2 hl]
  cases sat
  · exact narrowed_wrap _ _
  · exact narrowed_sat _ _

theorem tyRange (t : Nat) : tyLow t ≤ tyHigh t ∧ 0 ≤ tyHigh t ∧ tyHigh t < ((2 ^ (8 * tyBytes t) : Nat) : Int) := by
  have hh := tyHalf t
  have h0 := Nat.two_pow_pos (8 * tyBytes t - 1)
  unfold tyLow tyHigh
  generalize 2 ^ (8 * tyBytes t) = m at hh ⊢
  generalize 2 ^ (8 * tyBytes t - 1) = k at hh h0 ⊢
  split <;> omega

theorem redInts_min (hl : ∀ x ∈ l, x < 2 ^ (8 * tyBytes t)) (sat : Bool) : (l.map (readsAs t) = [] → redInts t 1 sat l = (tyHigh t).toNat) ∧
    (l.map (readsAs t) ≠ [] → redInts t 1 sat l ∈ l ∧ ∀ x ∈ l.map (readsAs t), readsAs t (redInts t 1 sat l) ≤ x) := by
  have hr : redInts t 1 sat l = tyWrap t ((l.map (readsAs t)).foldl min (tyHigh t)) := by rw [← map_tyInt2 hl]; rfl
  rw [hr]
  obtain ⟨-, h0, h1⟩ := tyRange t
  refine ⟨fun he => ?_, fun hne => ?_⟩
  · rw [he]
    have := tyWrap_natCast t (v := (tyHigh t).toNat) (by omega)
    rwa [Int.toNat_of_nonneg h0] at this
  · obtain ⟨hin, -, hle⟩ := foldl_min_spec (l.map (readsAs t)) (tyHigh t)
    have hmem : (l.map (readsAs t)).foldl min (tyHigh t) ∈ l.map (readsAs t) := by
      rcases hin with h | h
      · obtain ⟨y, hy⟩ := List.exists_mem_of_ne_nil _ hne
        obtain ⟨x, hx, rfl⟩ := List.mem_map.1 hy
        have := hle _ hy
        rw [h] at this ⊢
        rw [Int.le_antisymm this (readsAs_range t (hl x hx)).2]
        exact hy
      · exact h
    obtain ⟨x, hx, hxe⟩ := List.mem_map.1 hmem
    rw [← hxe, tyWrap_readsAs (hl x hx)]
    exact ⟨hx, fun y hy => hxe ▸ hle y hy⟩

theorem redInts_max (hl : ∀ x ∈ l, x < 2 ^ (8 * tyBytes t)) (sat : Bool) :
    (l.map (readsAs t) = [] → readsAs t (redInts t 2 sat l) = tyLow t) ∧
    (l.map (readsAs t) ≠ [] → redInts t 2 sat l ∈ l ∧ ∀ x ∈ l.map (readsAs t), x ≤ readsAs t (redInts t 2 sat l)) := by
  have hr : redInts t 2 sat l = tyWrap t ((l.map (readsAs t)).foldl max (tyLow t)) := by rw [← map_tyInt2 hl]; rfl
  rw [hr]
  refine ⟨fun he => ?_, fun hne => ?_⟩
  · rw [he]
    exact readsAs_tyWrap t (Int.le_refl _) (tyRange t).1
  · obtain ⟨hin, -, hle⟩ := foldl_max_spec (l.map (readsAs t)) (tyLow t)
    have hmem : (l.map (readsAs t)).foldl max (tyLow t) ∈ l.map (readsAs t) := by
      rcases hin with h | h
      · obtain ⟨y, hy⟩ := List.exists_mem_of_ne_nil _ hne
        obtain ⟨x, hx, rfl⟩ := List.mem_map.1 hy
        have := hle _ hy
        rw [h] at this ⊢
        rw [Int.le_antisymm (readsAs_range t (hl x hx)).1 this]
        exact hy
      · exact h
    obtain ⟨x, hx, hxe⟩ := List.mem_map.1 hmem
    rw [← hxe, tyWrap_readsAs (hl x hx)]
    exact ⟨hx, fun y hy => hxe ▸ hle y hy⟩

end

/-! ### Selected elements -/

section
variable {s : State} {w : VFields} {cap : VCap} {n wd : Nat}

theorem State.sel_sorted : (s.sel w cap n wd).Pairwise (· < ·) := List.Pairwise.filter _ List.pairwise_lt_range

end

/-- The first element that satisfies a test, in a rising list. -/
theorem find_first {l : List Nat} (hl : l.Pairwise (· < ·)) (p : Nat → Bool) {v : Nat} (h : l.find? p = some v) :
    v ∈ l ∧ p v = true ∧ ∀ e ∈ l, e < v → p e = false := by
  obtain ⟨hv, as, bs, rfl, has⟩ := List.find?_eq_some_iff_append.1 h
  refine ⟨List.mem_append_right _ List.mem_cons_self, hv, fun e he hlt => ?_⟩
  rcases List.mem_append.1 he with he | he
  · exact (Bool.not_eq_true' _).mp (has e he)
  · rw [List.pairwise_append] at hl
    rcases List.mem_cons.1 he with rfl | he
    · exact absurd hlt (Nat.lt_irrefl _)
    · exact absurd hlt (Nat.lt_asymm ((List.pairwise_cons.1 hl.2.1).1 e he))

theorem zip_range_getD (l : List Nat) : (List.range l.length).zip l = (List.range l.length).map (fun e => (e, l.getD e 0)) := by
  apply List.ext_getElem
  · simp
  · intro k h1 h2
    have hk : k < l.length := by simpa using h1
    simp [List.getD_eq_getElem?_getD, hk]

/-! ### Floating reductions (R159) -/

theorem flush_flag (f : Fmt) (fiz : Bool) (x : Nat) (k : Nat) :
    (f.flush fiz x).2.getLsbD k = (decide (k = 5) && (fiz && f.sub x)) := by
  unfold Fmt.flush
  by_cases h : (fiz && f.sub x) = true
  · rw [if_pos h, h, Bool.and_true]
    show (32#6).getLsbD k = _
    by_cases hk : k < 6
    · interval_cases k <;> rfl
    · rw [BitVec.getLsbD_of_ge _ _ (Nat.le_of_not_lt hk), decide_eq_false (by omega)]
  · rw [if_neg h, Bool.not_eq_true] at *
    rw [h, Bool.and_false, BitVec.getLsbD_zero]

theorem sigFlag_one (v : FV) (k : Nat) : (sigFlag [v]).getLsbD k = (decide (k = 0) && v == .nan true) := by
  unfold sigFlag
  rw [List.any_cons, List.any_nil, Bool.or_false]
  by_cases h : (v == .nan true) = true
  · rw [if_pos h, h, Bool.and_true]
    show (1#6).getLsbD k = _
    by_cases hk : k < 6
    · interval_cases k <;> rfl
    · rw [BitVec.getLsbD_of_ge _ _ (Nat.le_of_not_lt hk), decide_eq_false (by omega)]
  · rw [if_neg h, Bool.not_eq_true] at *
    rw [h, Bool.and_false, BitVec.getLsbD_zero]

/-! ### Blocks unpacked (R157) -/

section
variable {s : State} {w : VFields} {cap : VCap}

theorem blockLen_cases (t : Nat) : blockLen t = 124 ∨ blockLen t = 62 ∨ blockLen t = 31 := by
  unfold blockLen
  split
  · exact .inl rfl
  · split
    · exact .inr (.inl rfl)
    · exact .inr (.inr rfl)

/-- Element `j` of the block that `vunpack` decodes, and its flags. -/
def unpackElem (w : VFields) (s : State) (cap : VCap) (f : Nat) (sc : Int) (j : Nat) : Nat × BitVec 6 :=
  match (blkElem (vBlockOf w s) f (vTable w s) j).scale sc with
  | .nan sg => (fmtF32.nan, if sg then fNV else 0#6)
  | v => fmtF32.ofFV cap.rm cap.foz v

/-- What `vunpack` makes of a block whose elements `g` gives (R157). -/
def unpacked (w : VFields) (s : State) (cap : VCap) (m : Nat) (g : Nat → Nat × BitVec 6) : VRes :=
  .done s (elemWrites w.d 4 (((s.sel w cap m 4).map (fun e => (e, g e))).map (fun p => (p.1, p.2.1)) ++
    (List.range (32 * regsFor m 4 - m)).map (fun i => (m + i, 0)))) (((s.sel w cap m 4).map (fun e => (e, g e))).foldl (fun fl p => fl ||| p.2.2) 0#6)

theorem noFlags_foldl (L : List Nat) : (L.map (fun e => (e, (0, 0#6)))).foldl (fun (fl : BitVec 6) (p : Nat × Nat × BitVec 6) => fl ||| p.2.2) 0#6 = 0#6 := by
  rw [List.foldl_map]
  exact List.foldl_fixed' (fun _ => BitVec.or_zero) L

/-- The selected elements of a block of `m`, and zeros past the last. -/
theorem lands_unpacked {f : Flight} {m : Nat} (g : Nat → Nat × BitVec 6) (hm : m ≤ 32 * regsFor m 4)
    (hf : f.wr = elemWrites w.d 4 (((s.sel w cap m 4).map (fun e => (e, g e))).map (fun p => (p.1, p.2.1)) ++
      (List.range (32 * regsFor m 4 - m)).map (fun i => (m + i, 0)))) :
    Lands f w.d 4 (32 * regsFor m 4) (fun e => m ≤ e ∨ Sel s w cap m 4 e) (fun e => if e < m then (g e).1 else 0) := by
  let L := s.sel w cap m 4 ++ (List.range (32 * regsFor m 4 - m)).map (m + ·)
  have hsel : ∀ e ∈ s.sel w cap m 4, e < m := fun e he => (State.mem_sel.1 he).1
  have hlist : ((s.sel w cap m 4).map (fun e => (e, g e))).map (fun p => (p.1, p.2.1)) ++ (List.range (32 * regsFor m 4 - m)).map (fun i => (m + i, 0)) =
      L.map (fun e => (e, if e < m then (g e).1 else 0)) := by
    rw [List.map_append, List.map_map, List.map_map]
    refine congrArg₂ (· ++ ·) (List.map_congr_left fun e he => ?_) (List.map_congr_left fun e _ => ?_)
    · exact congrArg (fun v => (e, v)) (if_pos (hsel e he)).symm
    · exact congrArg (fun v => (m + e, v)) (if_neg (Nat.not_lt.2 (Nat.le_add_right m e))).symm
  have htail : ∀ e, e ∈ (List.range (32 * regsFor m 4 - m)).map (m + ·) ↔ m ≤ e ∧ e < 32 * regsFor m 4 := fun e => by
    rw [List.mem_map]
    constructor
    · rintro ⟨i, hi, rfl⟩
      have := List.mem_range.1 hi
      omega
    · rintro ⟨h1, h2⟩
      exact ⟨e - m, List.mem_range.2 (by omega), by omega⟩
  have hnodup : L.Nodup := by
    refine List.Nodup.append State.sel_nodup (List.Nodup.map (fun a b h => Nat.add_left_cancel h) List.nodup_range) fun e he he' => ?_
    exact absurd (hsel e he) (Nat.not_lt.2 ((htail e).1 he').1)
  refine Lands.congr (lands_elems (L := L) rfl hnodup (fun e he => ?_) (hf.trans (congrArg _ hlist))) fun e he => ?_
  · rcases List.mem_append.1 he with he | he
    · exact Nat.lt_of_lt_of_le (hsel e he) hm
    · exact ((htail e).1 he).2
  · rw [List.mem_append, htail e, State.mem_sel_iff]
    exact ⟨fun h => h.symm.imp And.left id, fun h => h.symm.imp id fun h => ⟨h, he⟩⟩

end

/-! ### A block that is none (R34, R339) -/

theorem Core.executed_q (x : Core) (q : Nat) (cap : VCap) (wr : List (Nat × VReg × VReg)) (fl : BitVec 6) :
    (x.executed q cap wr fl).q = x.q ∧ (x.executed q cap wr fl).r = x.r := by
  unfold Core.executed
  dsimp only
  split <;> exact ⟨rfl, rfl⟩

theorem Core.discards_q (q : Nat) (l : List VEntry) (x : Core) :
    (l.foldl (fun x e => x.discard q e.cap) x).q = x.q ∧ (l.foldl (fun x e => x.discard q e.cap) x).r.v = x.r.v := by
  induction l generalizing x with
  | nil => exact ⟨rfl, rfl⟩
  | cons e l ih => rw [List.foldl_cons]; exact ih _

theorem Core.discardIf_q (x : Core) (p : VCap → Bool) : (x.discardIf p).q = x.q ∧ (x.discardIf p).r.v = x.r.v := by
  unfold Core.discardIf
  simp only [List.foldl_cons, List.foldl_nil]
  rw [(Core.discards_q _ _ _).1, (Core.discards_q _ _ _).1, (Core.discards_q _ _ _).1, (Core.discards_q _ _ _).2, (Core.discards_q _ _ _).2,
    (Core.discards_q _ _ _).2]
  exact ⟨rfl, rfl⟩

/-- A V-word of queue A that consumes a block that is none leaves every vector register and raises the event. -/
theorem vConsumed_raises (s : State) (cap : VCap) (kind : Nat) : ∃ t, (vConsumed kind cap s).out s 1 cap = .next t ∧
    (∀ r, (t.core s.cur).rdV r = s.me.rdV r) ∧ Raises s.now s.me (t.core s.cur) (fun l => l.cont = true ∧ l.cause = 12 ∧
      l.info = infoWord 0 false true 1 cap.idx (0xFFFF * 2 ^ 16 + 2 * 2 ^ 8 + kind)) := by
  let y := s.me.discardIf (fun e => decide (cap.id < e.id))
  let l : Late := { clk := cap.id, cause := causeContain, info := infoWord 0 false true 1 cap.idx (0xFFFF * 2 ^ 16 + 2 * 2 ^ 8 + kind), cont := true,
                    vec := true, arr := s.now }
  refine ⟨_, rfl, ?_⟩
  have hcore : ((s.contain s.cur 0 kind 2 0xFFFF cap.idx cap.id true 1).upd (fun x => x.executed 1 cap [] 0#6)).core s.cur =
      (y.late l).executed 1 cap [] 0#6 := by
    refine (State.core_upd (s.contain s.cur 0 kind 2 0xFFFF cap.idx cap.id true 1) _).trans (congrArg (fun x : Core => x.executed 1 cap [] 0#6) ?_)
    exact (State.core_mod_same ((s.logEvent 2 (0xFFFF * 2 ^ 16 + 2 * 2 ^ 8 + kind)).noteUnit 0xFFFF) s.cur _).trans rfl
  have hq := Core.executed_q (y.late l) 1 cap [] 0#6
  have hd := Core.discardIf_q s.me (fun e => decide (cap.id < e.id))
  rw [hcore]
  refine ⟨fun r => ?_, ?_⟩
  · show Sparse.get _ ((y.late l).executed 1 cap [] 0#6).r.v r = _
    rw [hq.2, show (y.late l).r.v = s.me.r.v from hd.2]
    rfl
  · have h := Core.late_raises (x := s.me) (y := y) (now := s.now) (P := fun l => l.cont = true ∧ l.cause = 12 ∧
      l.info = infoWord 0 false true 1 cap.idx (0xFFFF * 2 ^ 16 + 2 * 2 ^ 8 + kind)) l (congrArg Seq.late hd.1) (congrArg Seq.tookAt hd.1) rfl ⟨rfl, rfl, rfl⟩
    unfold Raises at h ⊢
    rw [hq.1]
    exact h

end Sys2Proof.Machine

namespace Sys2Proof

open Machine

/-- Settles O45: permutations through `vMove_each`, whole registers through `vDoes_word` and `lands_regs`, and the reductions by what each
fold leaves. -/
theorem vectorBlocksAndMoves : Obligations.VectorBlocksAndMoves := by
  unfold Obligations.VectorBlocksAndMoves
  intro s w cap wd n a table move first on l blk
  have hdiv : 128 / wd * wd = 128 := tyBytes_divides w.ty
  have hn : n = cap.rows * (128 / wd) := Nat.mul_div_assoc cap.rows (Dvd.intro_left _ hdiv)
  have hl : ∀ x ∈ l, x < 2 ^ (8 * tyBytes w.ty) := fun x hx => by
    obtain ⟨e, -, rfl⟩ := List.mem_map.1 hx
    exact vA_lt w s _ e
  have hchk : (Instr.vred w).wf = true → (if tyInt w.ty then decide (w.md < 8) || w.md == 8 else decide (w.md < 3)) = true := fun hw =>
    VFields.md_of_checks (i := .vred w) (u := { VUse.perm false false with md := fun m => if tyInt w.ty then decide (m < 8) || m == 8 else decide (m < 3) })
      hw rfl
  have hfirst : ∀ (op0 : Nat) {i : Instr} {wo : Nat} {P : Nat → BitVec 6 → Prop} {body : VFields → VCap → State → VRes} {v : Nat} {fl : BitVec 6},
      vParts i = some (op0, w) → op0 = 0x1C3 ∨ op0 = 0x200 → exec i s = vword i w s body → 128 / wo * wo = 128 →
      (i.wf = true → body w cap s = .done s (regWrites w.d wo 1 [(0, v)]) fl) → (i.wf = true → P v fl) → first i wo P :=
    fun _ _ _ _ _ _ _ hp h0 hx hwd hb hP => vFirst_word hp h0 hx hwd hb hP
  clear_value first
  have hred : (Instr.vred w).wf = true → w.md % 8 < 6 → w.ty < 8 → w.md < 8 ∨ w.md = 8 := fun hw _ hty => by
    have := hchk hw
    rw [if_pos (show tyInt w.ty = true from decide_eq_true (Nat.le_of_lt_succ hty)), Bool.or_eq_true, decide_eq_true_eq, beq_iff_eq] at this
    exact this
  refine ⟨?_, ?_, ?_, ?_, ?_, fun e => State.mem_sel_iff, State.sel_sorted, ?_, ?_, ?_, ?_, ?_, ?_, ?_, ?_, ?_⟩
  · exact vMove_each (op0 := 0x201) (fun wd n e => vA w s wd (elem s.me.rdV w.b 2 e % n)) rfl (by decide) (by decide)
      (show exec (.vperm w) s = execVperm w s from rfl) rfl fun _ _ => rfl
  · exact vMove_each (op0 := 0x202) (fun wd _ e =>
      let m := 128 / wd
      let row := e / m
      let col := e % m
      let t := col / cap.rows
      let k := col % cap.rows
      if (t + 1) * cap.rows ≤ m then vA w s wd (k * m + t * cap.rows + row) else vA w s wd e) rfl (by decide) (by decide)
      (show exec (.vtrns w) s = execVtrns w s from rfl) rfl fun _ _ => rfl
  · refine vMove_each (op0 := 0x203) (fun wd n _ => if w.md / 2 % 2 = 1 then cap.sb.toNat % 2 ^ (8 * wd)
      else if w.imm.toNat < n then vA w s wd w.imm.toNat else 0) rfl (by decide) (by decide)
      (show exec (.vbcast w) s = execVbcast w s from rfl) rfl fun hw e => ?_
    by_cases h2 : w.md = 2
    · rw [if_pos h2, if_pos (by rw [h2])]
    · have h0 := VFields.md_of_checks (u := .perm false true) hw (if_neg (by rw [beq_iff_eq]; exact h2))
      have h0 : w.md = 0 := beq_iff_eq.1 h0
      rw [if_neg h2, if_neg (by rw [h0]; decide)]
  · exact vMove_each (op0 := 0x204) (fun wd n e =>
      let k := w.imm.toNat
      if e + k < n then vA w s wd (e + k) else if e + k < 2 * n then elem s.me.rdV w.b wd (e + k - n) else 0) rfl (by decide) (by decide)
      (show exec (.vslide w) s = execVslide w s from rfl) rfl fun _ _ => rfl
  · have hplace := vperm_place (i := .vcompress w) (cap := cap) (op0 := 0x205) rfl (by decide) (by decide) 0x205 rfl
    refine vDoes_word (op0 := 0x205) (val := fun e => if e < l.length then l.getD e 0 else 0) rfl hplace.1 hplace.2
      (show exec (.vcompress w) s = execVcompress w s from rfl) (fun _ => rfl) (fun f hf => ?_) fun _ => ⟨rfl, fun _ _ => rfl⟩
    rw [hn]
    refine lands_regs (L := List.range l.length) hdiv List.nodup_range (fun e he => if_neg fun h => he (List.mem_range.2 h)) (hf.trans ?_)
    have hzip : (List.range on.length).zip l = (List.range l.length).map (fun e => (e, if e < l.length then l.getD e 0 else 0)) := by
      rw [show on.length = l.length from (List.length_map _).symm, zip_range_getD]
      exact List.map_congr_left fun e he => by rw [if_pos (List.mem_range.1 he)]
    exact congrArg (regWrites w.d wd cap.rows) hzip
  · have hmd : (Instr.vcb w).wf = true → w.md = 0 ∨ w.md = 1 := fun hw => by
      have := VFields.md_of_checks (u := { VUse.perm false false with ty := fun t => t == 11, c := true, md := fun m => decide (m < 2) }) hw rfl
      have : w.md < 2 := of_decide_eq_true this
      omega
    refine vEach_word (f := fun j => (cbOut (w.md % 2 == 1) (vTable w s (elem s.me.rdV w.a 1 (j / 2) / 16 ^ (j % 2) % 16)), 0#6))
      (show exec (.vcb w) s = execVcb w s from rfl) (fun hw => ?_) (vword_place (op0 := 0x1C0) rfl (by decide) (by decide)) (fun hw => ?_)
      fun hw e _ => ⟨rfl, ?_⟩
    · have hb : ∀ {n m k : Nat}, n = m → k = (if w.md = 1 then 2 else 4) →
          vEach w cap s n k (fun j => (cbOut (w.md % 2 == 1) (vTable w s (elem s.me.rdV w.a 1 (j / 2) / 16 ^ (j % 2) % 16)), 0#6)) =
          vEach w cap s m (if w.md = 1 then 2 else 4) (fun j => (cbOut (w.md % 2 == 1) (vTable w s (elem s.me.rdV w.a 1 (j / 2) / 16 ^ (j % 2) % 16)), 0#6)) :=
        fun h1 h2 => by rw [h1, h2]
      refine hb ?_ ?_
      · unfold vcbLen
        rcases hmd hw with h | h <;> rw [h]
      · rcases hmd hw with h | h <;> rw [h] <;> rfl
    · split <;> rfl
    · unfold cbOut
      rcases hmd hw with h | h <;> rw [h] <;> rfl
  · intro h6
    refine hfirst 0x200 rfl (.inr rfl) (show exec (.vred w) s = execVred w s from rfl) rfl (fun _ => if_pos h6) fun _ => ⟨rfl, ?_⟩
    exact List.countP_eq_length_filter.symm
  · intro h7
    refine hfirst 0x200 (v := if l = [] then 0 else (on.find? (fun e => a e != 0)).getD (guardCount w.gc cap.pred n wd)) rfl (.inr rfl)
      (show exec (.vred w) s = execVred w s from rfl) rfl (fun _ => (if_neg (by rw [h7]; decide)).trans (if_pos h7)) fun _ =>
      ⟨rfl, fun he => if_pos he, fun hne hz => ?_, ?_⟩
    · have hnone : on.find? (fun e => a e != 0) = none := List.find?_eq_none.2 fun e he => by
        rw [hz _ (List.mem_map_of_mem he)]; decide
      rw [if_neg hne, hnone]
      rfl
    · rintro ⟨x, hx, hx0⟩
      obtain ⟨e, he, rfl⟩ := List.mem_map.1 hx
      rw [if_neg (List.ne_nil_of_mem hx)]
      cases hf : on.find? (fun e => a e != 0) with
      | none => exact absurd (List.find?_eq_none.1 hf e he) (by rw [not_not]; exact bne_iff_ne.2 hx0)
      | some v =>
        obtain ⟨hv, hv0, hbefore⟩ := find_first State.sel_sorted _ hf
        exact ⟨hv, bne_iff_ne.1 hv0, fun e he hlt => of_not_not fun h => absurd (hbefore e he hlt) (by rw [bne_iff_ne.2 h]; decide)⟩
  · intro h6 hty
    refine hfirst 0x200 (v := redInts w.ty (w.md % 8) (w.md / 8 % 2 == 1) l) rfl (.inr rfl)
      (show exec (.vred w) s = execVred w s from rfl) hdiv (fun _ => (if_neg (by omega)).trans ((if_neg (by omega)).trans (if_pos hty))) fun hw => ⟨rfl, ?_⟩
    refine ⟨fun h => ?_, fun h => ?_, fun h => ?_, fun h k hk => ?_, fun h k hk => ?_, fun h k hk => ?_⟩ <;> rw [h]
    · rw [show (w.md == 8) = (w.md / 8 % 2 == 1) by rcases hred hw h6 hty with h8 | h8 <;> rw [Bool.eq_iff_iff, beq_iff_eq, beq_iff_eq] <;> omega]
      exact redInts_sum hl _
    · exact redInts_min hl _
    · exact redInts_max hl _
    · refine (foldl_land_testBit l (2 ^ (8 * tyBytes w.ty) - 1) k).trans ?_
      rw [Nat.testBit_two_pow_sub_one, decide_eq_true hk, Bool.true_and]
    · refine (foldl_lor_testBit l 0 k).trans ?_
      rw [Nat.zero_testBit, Bool.false_or]
    · refine (foldl_xor_testBit l 0 k).trans ?_
      rw [Nat.zero_testBit, Bool.false_bne]
  · intro h8
    have hmd : (Instr.vred w).wf = true → w.md < 3 := fun hw => by
      have := hchk hw
      rw [if_neg (by unfold tyInt; rw [decide_eq_true_eq]; omega)] at this
      exact of_decide_eq_true this
    exact hfirst 0x200 rfl (.inr rfl) (show exec (.vred w) s = execVred w s from rfl) hdiv
      (fun hw => (if_neg (by have := hmd hw; omega)).trans ((if_neg (by have := hmd hw; omega)).trans (if_neg (Nat.not_lt.2 h8)))) fun _ => rfl
  · intro f _ op rm fiz foz x y xs r a one
    refine ⟨fun h => if_pos h, fun h => if_neg (by rw [h]; decide), ?_, ?_, rfl, ?_⟩
    · show (a.2 ||| sigFlag [f.dec a.1]).getLsbD 0 = true ↔ _
      rw [BitVec.getLsbD_or, flush_flag, sigFlag_one, decide_eq_true rfl, decide_eq_false (by decide), Bool.false_and, Bool.false_or, Bool.true_and,
        beq_iff_eq]
    · show (a.2 ||| sigFlag [f.dec a.1]).getLsbD 5 = true ↔ _
      rw [BitVec.getLsbD_or, flush_flag, sigFlag_one, decide_eq_true rfl, decide_eq_false (by decide), Bool.false_and, Bool.or_false, Bool.true_and,
        Bool.and_eq_true]
    · exact List.foldl_append.trans rfl
  · intro hty
    refine hfirst 0x1C3 rfl (.inl rfl) (show exec (.vamax w) s = execVamax w s from rfl) rfl (fun _ => if_pos hty) fun _ => ⟨rfl, ?_⟩
    rw [List.foldl_map]
    rfl
  · intro hty hpo hil
    refine hfirst 0x1C3 (v := (fmtF32.ofFV 2 false (blkAmax blk table)).1) rfl (.inl rfl)
      (show exec (.vamax w) s = execVamax w s from rfl) rfl (fun _ => (if_neg (Nat.not_lt.2 hty)).trans ?_) fun _ => ⟨rfl, rfl⟩
    show (match blkHead blk with
      | .poison => vConsumed kPoison cap s
      | .illegal => vConsumed kIllegalBlock cap s
      | _ => VRes.done s (regWrites w.d 4 1 [(0, (fmtF32.ofFV 2 false (blkAmax blk table)).1)]) 0#6) = _
    cases hh : blkHead blk with
    | poison => exact absurd hh hpo
    | illegal => exact absurd hh hil
    | zero z => rfl
    | ok g sc => rfl
  · intro f m
    have hm : m ≤ 32 * regsFor m 4 := by unfold regsFor; omega
    have hdest : vDest 0x1C2 w cap.rows ≠ [] := by
      show run w.d (regsFor (blockLen w.ty) 4) ≠ []
      have hb : blockLen w.ty = 124 ∨ blockLen w.ty = 62 ∨ blockLen w.ty = 31 := blockLen_cases w.ty
      rcases hb with h | h | h <;> rw [h] <;> exact List.cons_ne_nil _ _
    refine ⟨?_, fun sc hsc => ?_, fun z hz => ?_, ?_⟩
    · let x := fun j => if selected w.gm (guardCount w.gc cap.pred m 4) s.me.mt j then flushV fmtF32 cap.fiz (elem s.me.rdV w.a 4 j) else (.fin false 0 0, 0#6)
      let zopen := ((List.range 8).map (fun i => (s.free (i + 1)).toNat * 2 ^ (64 * i))).sum
      let r := packBlock f cap.rm cap.foz table (w.md / 2 % 2 == 1) (s8Of w.imm.toNat) (((List.range m).map x).map Prod.fst) (s.free 0).toNat zopen
      refine vDoes_word (op0 := 0x1C1) (val := fun _ => r.1) (wr := elemWrites w.d 64 [(w.md % 2, r.1)]) (fl := ((List.range m).map x).foldl (fun fl p => fl ||| p.2) r.2)
        rfl (by unfold vQueue; simp) (fun _ => by unfold vDest; simp) (show exec (.vpack w) s = execVpack w s from rfl) (fun _ => rfl) (fun g hg => ?_)
        fun _ => ⟨(s.free 0).toNat, zopen, ?_, ?_⟩
      · exact Lands.congr (lands_elems (L := [w.md % 2]) (val := fun _ => r.1) rfl (List.nodup_singleton _)
          (fun e he => by rw [List.mem_singleton.1 he]; exact Nat.mod_lt _ Nat.zero_lt_two) hg) fun e _ => List.mem_singleton
      · show (packBlock _ _ _ _ _ _ (((List.range m).map x).map Prod.fst) _ _).1 = _
        rw [List.map_map]
        rfl
      · show ((List.range m).map x).foldl _ (packBlock _ _ _ _ _ _ (((List.range m).map x).map Prod.fst) _ _).2 = _
        rw [List.foldl_map, List.map_map]
        rfl
    · have hsc' : blkHead (vBlockOf w s) = .ok f sc := hsc
      refine vDoes_word (op0 := 0x1C2) (val := fun e => if e < m then (unpackElem w s cap f sc e).1 else 0)
        (fl := ((s.sel w cap m 4).map (fun e => (e, unpackElem w s cap f sc e))).foldl (fun fl p => fl ||| p.2.2) 0#6) rfl (by unfold vQueue; simp)
        (fun _ => hdest) (show exec (.vunpack w) s = execVunpack w s from rfl) (fun _ => ?_) (fun g hg => lands_unpacked (unpackElem w s cap f sc) hm hg)
        fun _ => ⟨fun e he => if_neg (Nat.not_lt.2 he), fun e he _ => ?_⟩
      · dsimp only
        rw [hsc']
        exact if_neg fun h => h rfl
      · refine (if_pos he).trans ?_
        unfold unpackElem
        show (match (blkElem blk f table e).scale sc with
          | .nan sg => (fmtF32.nan, if sg then fNV else 0#6)
          | v => fmtF32.ofFV cap.rm cap.foz v).1 = _
        cases (blkElem blk f table e).scale sc <;> rfl
    · have hz' : blkHead (vBlockOf w s) = .zero z := hz
      refine vDoes_word (op0 := 0x1C2) (val := fun e => if e < m then 0 else 0)
        (fl := ((s.sel w cap m 4).map (fun e => (e, (0, 0#6)))).foldl (fun (fl : BitVec 6) (p : Nat × Nat × BitVec 6) => fl ||| p.2.2) 0#6) rfl (by unfold vQueue; simp)
        (fun _ => hdest) (show exec (.vunpack w) s = execVunpack w s from rfl) (fun _ => ?_) (fun g hg => lands_unpacked (fun _ => (0, 0#6)) hm hg)
        fun _ => ⟨noFlags_foldl _, fun e => ite_self _⟩
      dsimp only
      rw [hz']
    · intro i op hop hw ha hcase
      have hevent : ∀ kind, exec i s = (vConsumed kind cap s).out s 1 cap → kind = (if blkHead blk = .poison then kPoison else kIllegalBlock) →
          ∃ (t : State), exec i s = .next t ∧ (∀ r, (t.core s.cur).rdV r = s.me.rdV r) ∧ Raises s.now s.me (t.core s.cur) (fun l =>
            l.cont = true ∧ l.cause = 12 ∧ l.info = infoWord 0 false true 1 cap.idx
              (0xFFFF * 2 ^ 16 + 2 * 2 ^ 8 + if blkHead blk = .poison then kPoison else kIllegalBlock)) := by
        rintro kind hx rfl
        rw [hx]
        exact vConsumed_raises s cap _
      rcases hcase with ⟨rfl, h⟩ | ⟨rfl, hty, h⟩
      · cases hop
        have hx (kind : Nat) (hb : (match blkHead (vBlockOf w s) with
            | .poison => vConsumed kPoison cap s
            | .illegal => vConsumed kIllegalBlock cap s
            | .zero _ => unpacked w s cap m (fun _ => (0, 0#6))
            | .ok g sc => if g ≠ f then vConsumed kIllegalBlock cap s else unpacked w s cap m (unpackElem w s cap f sc)) = vConsumed kind cap s) :
            exec (.vunpack w) s = (vConsumed kind cap s).out s 1 cap :=
          (show exec (.vunpack w) s = execVunpack w s from rfl).trans ((vword_head rfl ha _).trans (congrArg (VRes.out s 1 cap) hb))
        rcases h with h | h | ⟨g, sc, h, hg⟩
        · exact hevent kPoison (hx _ (by rw [show blkHead (vBlockOf w s) = .poison from h])) (if_pos h).symm
        · exact hevent kIllegalBlock (hx _ (by rw [show blkHead (vBlockOf w s) = .illegal from h])) (if_neg (by rw [h]; nofun)).symm
        · exact hevent kIllegalBlock (hx _ (by rw [show blkHead (vBlockOf w s) = .ok g sc from h]; exact if_pos hg)) (if_neg (by rw [h]; nofun)).symm
      · cases hop
        have hx (kind : Nat) (hb : (match blkHead (vBlockOf w s) with
            | .poison => vConsumed kPoison cap s
            | .illegal => vConsumed kIllegalBlock cap s
            | _ => VRes.done s (regWrites w.d 4 1 [(0, (fmtF32.ofFV 2 false (blkAmax blk table)).1)]) 0#6) = vConsumed kind cap s) :
            exec (.vamax w) s = (vConsumed kind cap s).out s 1 cap :=
          (show exec (.vamax w) s = execVamax w s from rfl).trans ((vword_head rfl ha _).trans (congrArg (VRes.out s 1 cap)
            ((if_neg (Nat.not_lt.2 hty)).trans hb)))
        rcases h with h | h
        · exact hevent kPoison (hx _ (by rw [show blkHead (vBlockOf w s) = .poison from h])) (if_pos h).symm
        · exact hevent kIllegalBlock (hx _ (by rw [show blkHead (vBlockOf w s) = .illegal from h])) (if_neg (by rw [h]; nofun)).symm

end Sys2Proof
end

section
set_option Elab.async false

/-! SUPPORT. Marver commands as they issue (R175, R179, R180): the order of room, lease, holding and rules, and what an issued command leaves
of its core. O37. -/

namespace Sys2Proof.Machine

/-! ### A command's registers marked empty -/

theorem Core.vMarks_markV (x : Core) {rs : List Nat} (h : rs.Nodup) (id r : Nat) :
    (x.markV rs id).vMarks r = if r ∈ rs then x.vMarks r ++ [id] else x.vMarks r := by
  have key : ∀ (rs : List Nat) (m : Sparse (List Nat)), rs.Nodup →
      Sparse.get [] (rs.foldl (fun m r => Sparse.set [] m r (Sparse.get [] m r ++ [id])) m) r =
        if r ∈ rs then Sparse.get [] m r ++ [id] else Sparse.get [] m r := by
    intro rs
    induction rs with
    | nil => intro m _; rfl
    | cons a rs ih =>
      intro m hn
      obtain ⟨ha, hn⟩ := List.nodup_cons.1 hn
      rw [List.foldl_cons, ih _ hn]
      by_cases hra : r = a
      · subst hra
        rw [if_neg ha, if_pos List.mem_cons_self, Sparse.get_set_same]
      · rw [Sparse.get_set_other _ _ _ hra]
        simp [List.mem_cons, hra]
  exact key rs x.r.vm h

/-- A core whose Marver command `k` issues. -/
def Core.mxIssued (x : Core) (ctx d id n : Nat) (vs : List Nat) (mem : Bool) (k : MxCmd) : Core :=
  let y := ((x.markS ctx d id).markV vs id).eng (fun e => { e with mxq := e.mxq ++ [k] })
  (if mem then y.numbered else y).next ctx n

/-- What an engine word leaves of its core: the sequencers move on, and nothing else follows from its number. -/
theorem Core.next_numbered (y : Core) (mem : Bool) (ctx n : Nat) (hn : 0 < n) :
    ((if mem then y.numbered else y).next ctx n).r = y.r ∧ ((if mem then y.numbered else y).next ctx n).e = y.e ∧
    ((ctx ≠ 0 ∨ y.q.tact = true ∨ ∀ l, l < 6 → (y.q.loop l).act = false ∨ (y.q.loop l).last ≠ y.q.pcOf ctx + n - 1) →
      ((if mem then y.numbered else y).next ctx n).q.pcOf ctx = y.q.pcOf ctx + n) := by
  cases mem with
  | false => exact ⟨rfl, rfl, Core.next_pc y ctx n hn⟩
  | true =>
    rw [if_pos rfl, Core.numbered_kept y]
    exact ⟨rfl, rfl, Core.next_pc { y with q := { y.q with wseq := y.numbered.q.wseq } } ctx n hn⟩

/-! ### What reading sources leaves of the Marver -/

theorem State.read_mxOwn (s : State) (l : List Src) : (s.read l).mxOwn s.cur = s.mxOwn s.cur := by
  have he : ((s.read l).core s.cur).e.mxq = (s.core s.cur).e.mxq := (congrArg (fun x : Core => x.e.mxq) (State.read_me s l)).trans rfl
  unfold State.mxOwn
  rw [he]
  rfl

theorem State.read_zallocs (s : State) (l : List Src) : (s.read l).zallocs s.cur = s.zallocs s.cur := by
  funext z
  unfold State.zallocs
  rw [State.read_mxOwn]

theorem State.read_holdsZ (s : State) (l : List Src) : (s.read l).holdsZ s.cur = s.holdsZ s.cur := by
  have he : ((s.read l).core s.cur).e.zfree = (s.core s.cur).e.zfree := (congrArg (fun x : Core => x.e.zfree) (State.read_me s l)).trans rfl
  have ht : ((s.read l).core s.cur).uid = (s.core s.cur).uid := (congrArg Core.uid (State.read_me s l)).trans rfl
  funext z
  unfold State.holdsZ
  rw [he, ht]
  rfl

/-! ### Issue -/

/-- The command `k` holds what its word captured (R179). -/
structure MxCaptured (s : State) (i : Instr) (a b c : Word) (tok : Token) (k : MxCmd) : Prop where
  word : k.i = i ∧ k.id = s.me.q.nid ∧ k.core = s.cur ∧ k.ctx = s.ctx
  operands : k.a = a ∧ k.b = b ∧ k.c = c ∧ k.tok = tok
  fresh : k.step = 0 ∧ k.begun = false ∧ k.done = false ∧ k.code = 0

section
variable {s : State} {i : Instr} {l : List Src} {n d : Nat} {vs zs held : List Nat} {leased mem : Bool} {ok : State → Bool} {cap : State → MxCmd}

theorem mxCmd_captured (s : State) (l : List Src) (i : Instr) (a b c k : Nat) :
    MxCaptured s i (s.sc a) (s.sc b) (s.sc c) (s.tk k) (mxCmd (s.read l) i a b c k) := by
  refine ⟨⟨rfl, ?_, rfl, rfl⟩, ⟨State.sc_upd_touch s l a, State.sc_upd_touch s l b, State.sc_upd_touch s l c, State.tk_upd_touch s l k⟩, rfl, rfl, rfl, rfl⟩
  exact (congrArg (fun x : Core => x.q.nid) (State.read_me s l)).trans rfl

/-- What becomes of a Marver command that may issue, in the order of R179, R175, R173 and its own rules. -/
theorem mxIssue_ready (hm : MayIssue i l s) : mxIssue i s l leased zs held ok cap d vs mem n =
    if 4 ≤ (s.mxOwn s.cur).length ∨ zs.any (s.zallocs s.cur) = true then stall (s.read l)
    else if leased = true ∧ (s.marver (s.cfg.marver s.cur)).holder ≠ some s.cur then trap (s.read l) 11 (minOf i)
    else if (!held.all (s.holdsZ s.cur)) = true then illegal i (s.read l)
    else if (!ok (s.read l)) = true then illegal i (s.read l)
    else .next ((s.read l).upd (fun x => x.mxIssued s.ctx d s.me.q.nid n vs mem (cap (s.read l)))) := by
  have hid : (s.read l).id = s.me.q.nid := (congrArg (fun x : Core => x.q.nid) (State.read_me s l)).trans rfl
  calc mxIssue i s l leased zs held ok cap d vs mem n = _ := issue_ready hm _
    _ = _ := by
      dsimp only
      rw [← State.read_mxOwn s l, ← State.read_zallocs s l, ← State.read_holdsZ s l, ← hid]
      rfl

/-- An issued Marver command has left its core as R179 and R180 say. -/
theorem mxIssues_of (he : i.wf = true → MayIssue i l s → exec i s = .next ((s.read l).upd (fun x => x.mxIssued s.ctx d s.me.q.nid n vs mem (cap (s.read l)))))
    (hd : i.wf = true → d < 64) (hn : 0 < n) (hvs : vs.Nodup) {a b c : Word} {tok : Token} (hcap : MxCaptured s i a b c tok (cap (s.read l))) :
    MxIssues i l n d vs a b c tok s := fun hw hm => by
  let x := s.me.touch s.ctx l
  let y := ((x.markS s.ctx d s.me.q.nid).markV vs s.me.q.nid).eng (fun e => { e with mxq := e.mxq ++ [cap (s.read l)] })
  have hq : y.q = s.me.q := Core.markS_q _ _ _ _
  obtain ⟨hr, hE, hpc⟩ := Core.next_numbered y mem s.ctx n hn
  have hcore : ((s.read l).upd (fun x => x.mxIssued s.ctx d s.me.q.nid n vs mem (cap (s.read l)))).core s.cur =
      (if mem then y.numbered else y).next s.ctx n := State.read_upd_core s l _
  obtain ⟨⟨h1, h2, h3, h4⟩, ⟨h5, h6, h7, h8⟩, h9, h10, h11, h12⟩ := hcap
  have hregs : y.r = { s.me.r with sm := (s.me.markS s.ctx d s.me.q.nid).r.sm, vm := y.r.vm } := by
    calc y.r = { (x.markS s.ctx d s.me.q.nid).r with vm := y.r.vm } := rfl
      _ = _ := by rw [Core.markS_regs]; unfold Core.markS; split <;> rfl
  refine ⟨_, he hw hm, State.read_upd_only s l _, fun h => ?_, ?_, fun k r hr' => ?_, fun r => ?_, cap (s.read l), ?_, h1, h2, h3, h4, h5, h6, h7, h8, h9,
    h10, h11, h12⟩ <;> rw [hcore]
  · rw [hpc (by rw [hq]; exact h), hq]
  · rw [hr, hregs]
  · have := Core.sMarks_markS x s.ctx s.me.q.nid (hd hw) (k := k) hr'
    exact (congrArg (fun z : Regs => if r = 0 then [] else Sparse.get [] z.sm (sKey k r)) hr).trans this
  · have := Core.vMarks_markV (x.markS s.ctx d s.me.q.nid) hvs s.me.q.nid r
    have hm : (x.markS s.ctx d s.me.q.nid).vMarks r = s.me.vMarks r := by
      unfold Core.vMarks
      rw [Core.markS_regs]
      rfl
    rw [hm] at this
    exact (congrArg (fun z : Regs => Sparse.get [] z.vm r) hr).trans this
  · rw [hE]
    show (x.markS s.ctx d s.me.q.nid).e.mxq ++ _ = _
    rw [Core.markS_e]
    rfl

/-- All that can become of a Marver command (R173, R175, R179). -/
def MxCommand (s : State) (i : Instr) (l : List Src) (n d : Nat) (vs : List Nat) (a b c : Word) (tok : Token) (zs held : List Nat) (leased : Bool)
    (rule : Prop) : Prop :=
  let room := (s.mxOwn s.cur).length < 4 ∧ ∀ z ∈ zs, s.zallocs s.cur z = false
  let lease := leased = false ∨ (s.marver (s.cfg.marver s.cur)).holder = some s.cur
  let legal := (∀ z ∈ held, s.holdsZ s.cur z = true) ∧ rule
  (room → lease → legal → MxIssues i l n d vs a b c tok s) ∧ (room → ¬lease → TrapsBy i l s 11 (minOf i) s.me.q.pc) ∧
    (room → lease → ¬legal → TrapsBy i l s 1 (minOf i) s.me.q.pc) ∧
    (¬room → WordResult i l s (fun t => t.waited = true ∧ (t.core s.cur).r = s.me.r ∧ (t.core s.cur).q = s.me.q))

theorem mxCommand (hx : exec i s = mxIssue i s l leased zs held ok cap d vs mem n) {rule : Prop} (hok : ok (s.read l) = true ↔ rule)
    (hd : i.wf = true → d < 64) (hn : 0 < n) (hvs : vs.Nodup) {a b c : Word} {tok : Token} (hcap : MxCaptured s i a b c tok (cap (s.read l))) :
    MxCommand s i l n d vs a b c tok zs held leased rule := by
  have hroom : ((s.mxOwn s.cur).length < 4 ∧ ∀ z ∈ zs, s.zallocs s.cur z = false) ↔ ¬(4 ≤ (s.mxOwn s.cur).length ∨ zs.any (s.zallocs s.cur) = true) := by
    rw [not_or, Nat.not_le, Bool.not_eq_true, List.any_eq_false]
    exact and_congr_right fun _ => forall₂_congr fun _ _ => (Bool.not_eq_true _).to_iff.symm
  have hlease : (leased = false ∨ (s.marver (s.cfg.marver s.cur)).holder = some s.cur) ↔
      ¬(leased = true ∧ (s.marver (s.cfg.marver s.cur)).holder ≠ some s.cur) := by
    rw [not_and_or, Bool.not_eq_true, not_not]
  have hheld : (!held.all (s.holdsZ s.cur)) = true ↔ ¬∀ z ∈ held, s.holdsZ s.cur z = true := by
    rw [Bool.not_eq_true', ← Bool.not_eq_true, List.all_eq_true]
  have hno : (!ok (s.read l)) = true ↔ ¬rule := by rw [Bool.not_eq_true', ← Bool.not_eq_true, hok]
  refine ⟨fun h1 h2 h3 => mxIssues_of (mem := mem) (cap := cap) (fun _ hm => ?_) hd hn hvs hcap, fun h1 h2 => trap_trapped fun hm => ?_,
    fun h1 h2 h3 => trap_trapped fun hm => ?_, fun h1 _ hm => ⟨_, (hx.trans (mxIssue_ready hm)).trans (if_pos ?_), rfl, ?_, ?_⟩⟩
  · rw [hx, mxIssue_ready hm, if_neg (hroom.1 h1), if_neg (hlease.1 h2), if_neg fun e => hheld.1 e h3.1, if_neg fun e => hno.1 e h3.2]
  · rw [hx, mxIssue_ready hm, if_neg (hroom.1 h1), if_pos (not_not.1 fun e => h2 (hlease.2 e))]
  · rw [hx, mxIssue_ready hm, if_neg (hroom.1 h1), if_neg (hlease.1 h2)]
    by_cases hh : ∀ z ∈ held, s.holdsZ s.cur z = true
    · rw [if_neg fun e => hheld.1 e hh, if_pos (hno.2 fun e => h3 ⟨hh, e⟩)]
      rfl
    · rw [if_pos (hheld.2 hh)]
      rfl
  · exact not_not.1 fun e => h1 (hroom.2 e)
  · exact (congrArg (fun x : Core => x.r) (State.read_me s l)).trans rfl
  · exact (congrArg (fun x : Core => x.q) (State.read_me s l)).trans rfl

end

/-! ### Operand rules (R184, R186, R188, R192) -/

section
variable {s : State} {l : List Src}

theorem mxStart_read (f : MxMemF) : mxStart f (s.read l) = (s.sc f.b).toInt + f.off.toInt := by
  unfold mxStart
  rw [State.sc_upd_touch]

theorem bldOk_iff (g : CfgSt) {w : Nat} (hw : w < 2 ^ 64) (mirror : Bool) : bldOk g w mirror = true ↔
    w / 2 ^ 52 = 0 ∧ w / 2 ^ 10 % 2 ^ 7 = 0 ∧ w % 2 ^ 10 = 0 ∧ w / 2 ^ 36 % 2 ^ 10 < 768 ∧
      1 ≤ w / 2 ^ 26 % 2 ^ 10 ∧ w / 2 ^ 26 % 2 ^ 10 ≤ g.ncol ∧ w / 2 ^ 17 % 2 ^ 9 + w / 2 ^ 26 % 2 ^ 10 ≤ if mirror then g.ncol / 2 else g.ncol := by
  unfold bldOk colWord fld
  simp only [Bool.and_eq_true, beq_iff_eq, decide_eq_true_eq]
  rw [Nat.mod_eq_of_lt (show w / 2 ^ 52 < 2 ^ 12 by omega), Nat.pow_zero, Nat.div_one]
  constructor
  · rintro ⟨⟨⟨⟨⟨⟨h1, h2⟩, h3⟩, h4⟩, h5⟩, h6⟩, h7⟩
    exact ⟨h1, h2, h3, h4, h5, h6, h7⟩
  · rintro ⟨h1, h2, h3, h4, h5, h6, h7⟩
    exact ⟨⟨⟨⟨⟨⟨h1, h2⟩, h3⟩, h4⟩, h5⟩, h6⟩, h7⟩

theorem MxMemF.dest_of_checks {i : Instr} {f : MxMemF} {lim : Nat} {lit cr : Bool} (hc : i.check = firstFail (f.checks lim lit cr)) (hw : i.wf = true) : f.d < 64 := by
  have h := Instr.check_none hw
  rw [hc] at h
  unfold MxMemF.checks at h
  simp only [List.cons_append, firstFail_cons, Bool.and_eq_true] at h
  obtain ⟨⟨⟨⟨hd, -⟩, -⟩, -⟩, -⟩ := h
  exact ReadsBack.of_isS hd

end

theorem run_nodup (a n : Nat) : (run a n).Nodup := List.Nodup.map (fun _ _ h => Nat.add_left_cancel h) List.nodup_range

end Sys2Proof.Machine

namespace Sys2Proof

open Machine

/-- Settles O37: each command through `mxCommand`, with its operand rules and its capture. -/
theorem marverCommandsIssue : Obligations.MarverCommandsIssue := by
  unfold Obligations.MarverCommandsIssue
  intro s cmd aligned columns
  have hstart : ∀ (f : MxMemF) (l : List Src), decide (mxStart f (s.read l) % 64 = 0) = true ↔ aligned f := fun f l => by
    rw [mxStart_read, decide_eq_true_eq]
  have hbld : ∀ (f : MxMemF) (l : List Src) (mirror : Bool) (top : Nat), (if mirror then s.cfg.ncol / 2 else s.cfg.ncol) = top →
      ((decide (mxStart f (s.read l) % 64 = 0) && bldOk s.cfg ((s.read l).sc f.a).toNat mirror) = true ↔ aligned f ∧ columns (s.sc f.a).toNat top) := by
    rintro f l mirror _ rfl
    rw [Bool.and_eq_true, hstart, State.sc_upd_touch]
    exact and_congr_right fun _ => bldOk_iff s.cfg (s.sc f.a).isLt mirror
  have hone : ∀ {i : Instr} {d : Nat} {l : List (Bool × Reject)}, i.check = firstFail ((isS d, .register) :: l) → i.wf = true → d < 64 := fun hc hw => by
    have h := Instr.check_none hw
    rw [hc, firstFail_cons] at h
    exact ReadsBack.of_isS h.1
  refine ⟨fun f => ⟨?_, ?_, ?_, ?_, ?_, ?_⟩, fun f => ?_, fun d n g sum => ?_, fun d z => ?_, fun d za zb => ?_, fun f => ?_⟩
  · exact mxCommand (show exec (.mxCbtab f) s = execMxCbtab f s from rfl) (hstart f _) (MxMemF.dest_of_checks rfl) Nat.two_pos List.nodup_nil
      (mxCmd_captured s _ _ 0 f.b 0 f.k)
  · exact mxCommand (show exec (.mxBld f) s = execMxBld f s from rfl) (hbld f _ false _ rfl) (MxMemF.dest_of_checks rfl) Nat.two_pos List.nodup_nil
      (mxCmd_captured s _ _ f.a f.b 0 f.k)
  · exact mxCommand (show exec (.mxBldMirror f) s = execMxBldMirror f s from rfl) (hbld f _ true _ rfl) (MxMemF.dest_of_checks rfl) Nat.two_pos
      List.nodup_nil (mxCmd_captured s _ _ f.a f.b 0 f.k)
  · refine mxCommand (show exec (.mxTld f) s = execMxTld f s from rfl) ?_ (MxMemF.dest_of_checks rfl) Nat.two_pos List.nodup_nil
      (mxCmd_captured s _ _ 0 f.b f.c f.k)
    rw [Bool.and_eq_true, hstart, State.sc_upd_touch, beq_iff_eq]
  · exact mxCommand (show exec (.mxZld f) s = execMxZld f s from rfl) (hstart f _) (MxMemF.dest_of_checks rfl) Nat.two_pos List.nodup_nil
      (mxCmd_captured s _ _ 0 f.b 0 f.k)
  · exact mxCommand (show exec (.mxZst f) s = execMxZst f s from rfl) (hstart f _) (MxMemF.dest_of_checks rfl) Nat.two_pos List.nodup_nil
      (mxCmd_captured s _ _ 0 f.b 0 f.k)
  · refine mxCommand (show exec (.mxMm f) s = execMxMm f s from rfl) ?_ (hone rfl) Nat.two_pos List.nodup_nil ?_
    · unfold mmOk
      simp only [Bool.and_eq_true, Bool.or_eq_true, Bool.not_eq_true', beq_iff_eq, decide_eq_true_eq, and_assoc]
      cases f.mir <;> simp
    · obtain ⟨h1, h2, h3⟩ := mxCmd_captured s [] (.mxMm f) 0 0 0 0
      exact ⟨h1, h2, h3⟩
  · exact mxCommand (show exec (.mxKat d n g sum) s = execMxKat d n g sum s from rfl) decide_eq_true_iff (hone rfl) Nat.two_pos List.nodup_nil
      (mxCmd_captured s _ _ 0 0 0 0)
  · exact mxCommand (show exec (.mxZalloc d z) s = execMxZalloc d z s from rfl) (iff_of_true rfl trivial) (hone rfl) Nat.one_pos List.nodup_nil
      (mxCmd_captured s _ _ 0 0 0 0)
  · exact mxCommand (show exec (.mxZcpy d za zb) s = execMxZcpy d za zb s from rfl) (iff_of_true rfl trivial) (hone rfl) Nat.one_pos List.nodup_nil
      (mxCmd_captured s _ _ 0 0 0 0)
  · intro w q fits
    have hok : outOk f = true ↔ fits ∧ (f.dst = false → f.vn + (f.nr + 1) * q ≤ 2048) := by
      unfold outOk
      rw [Bool.and_eq_true, Bool.or_eq_true, decide_eq_true_eq]
      refine and_congr ?_ ?_
      · simp only [Bool.and_eq_true, decide_eq_true_eq, and_assoc]
        rfl
      · cases f.dst <;> simp [outQ, regsFor, q, w]
    have hd : (Instr.mxOut f).wf = true → f.d < 64 := fun hw => by
      have h := Instr.check_none hw
      simp only [Instr.check, List.cons_append, firstFail_cons, Bool.and_eq_true] at h
      obtain ⟨⟨⟨⟨hd, -⟩, -⟩, -⟩, -⟩ := h
      exact ReadsBack.of_isS hd
    refine ⟨fun hdst => ?_, fun hdst hb hc hk => ?_⟩
    · refine mxCommand (ok := fun _ => outOk f) (mem := f.dst) (cap := fun s => mxCmd s (.mxOut f) 0 f.b f.c f.k) ?_ ?_ hd Nat.two_pos List.nodup_nil
        (mxCmd_captured s _ _ 0 f.b f.c f.k)
      · refine (show exec (.mxOut f) s = execMxOut f s from rfl).trans ?_
        unfold execMxOut outRegs
        rw [if_pos hdst, if_pos hdst]
      · rw [hok]
        exact and_iff_left fun h => absurd (hdst.symm.trans h) (by decide)
    · refine mxCommand (ok := fun _ => outOk f) (mem := f.dst) (cap := fun s => mxCmd s (.mxOut f) 0 f.b f.c f.k) ?_ ?_ hd Nat.two_pos
        (run_nodup _ _) ?_
      · refine (show exec (.mxOut f) s = execMxOut f s from rfl).trans ?_
        unfold execMxOut outRegs
        rw [if_neg (by rw [hdst]; decide), if_neg (by rw [hdst]; decide)]
        rfl
      · rw [hok]
        exact and_congr_right fun _ => ⟨fun h => h hdst, fun h _ => h⟩
      · rw [hb, hc, hk]
        exact mxCmd_captured s [] _ 0 0 0 0

end Sys2Proof

end

section
set_option Elab.async false

/-! SUPPORT. Unmasking commands as they issue and as their status fills (R356 to R359). O40. -/

namespace Sys2Proof.Machine

/-! ### Issue -/

/-- The command `k` holds what its word captured (R356, R357). -/
structure UmCaptured (s : State) (i : Instr) (a b : Word) (tok : Token) (k : UmCmd) : Prop where
  word : k.i = i ∧ k.id = s.me.q.nid ∧ k.core = s.cur ∧ k.ctx = s.ctx
  operands : k.a = a ∧ k.b = b ∧ k.tok = tok
  fresh : k.linst = s.linstOf s.cur ∧ k.begun = false ∧ k.done = false ∧ k.code = 0 ∧ k.blk = 0

/-- A command as its word captures it. -/
def State.umCaptures (s : State) (i : Instr) (a b k : Nat) : UmCmd :=
  { id := s.id, clk := s.now, core := s.cur, ctx := s.ctx, i := i, a := s.sc a, b := s.sc b, tok := s.tk k, pc := s.pc
    depth := s.me.q.regions.length, linst := s.linstOf s.cur, wseq := s.me.q.wseq, hb := s.hbOf s.cur s.ctx }

/-- The state in which a command issues. -/
def State.umIssued (s : State) (d n : Nat) (mem : Bool) (k : UmCmd) : State :=
  (s.setUm (s.cfg.paneOf s.cur) { s.umOf (s.cfg.paneOf s.cur) with order := (s.umOf (s.cfg.paneOf s.cur)).order ++ [k] }).upd (fun x =>
    let y := x.markS s.ctx d s.id
    (if mem then y.numbered else y).next s.ctx n)

section
variable {s : State} {i : Instr} {l : List Src} {n d a b k : Nat} {mem : Bool} {ok : State → Bool}

theorem umCaptures_captured (s : State) (l : List Src) (i : Instr) (a b k : Nat) :
    UmCaptured s i (s.sc a) (s.sc b) (s.tk k) ((s.read l).umCaptures i a b k) := by
  have hl : (s.read l).linstOf s.cur = s.linstOf s.cur := (congrArg (fun x : Core => match x.task with
    | some t => t.linst
    | none => 0) (State.read_me s l)).trans rfl
  exact ⟨⟨rfl, (congrArg (fun x : Core => x.q.nid) (State.read_me s l)).trans rfl, rfl, rfl⟩,
    ⟨State.sc_upd_touch s l a, State.sc_upd_touch s l b, State.tk_upd_touch s l k⟩, hl, rfl, rfl, rfl, rfl⟩

/-- What becomes of an unmasking command that may issue. -/
theorem umIssue_ready (hm : MayIssue i l s) : umIssue i s l ok a b k d n mem =
    if 4 ≤ ((s.umOf (s.cfg.paneOf s.cur)).order.filter (fun j => j.core == s.cur)).length then stall (s.read l)
    else if (!ok (s.read l)) = true then illegal i (s.read l)
    else .next ((s.read l).umIssued d n mem ((s.read l).umCaptures i a b k)) := issue_ready hm _

/-- An issued unmasking command has left its core and its engine as R356 and R357 say. -/
theorem umIssues_of (he : i.wf = true → MayIssue i l s → exec i s = .next ((s.read l).umIssued d n mem ((s.read l).umCaptures i a b k)))
    (hd : i.wf = true → d < 64) (hn : 0 < n) : UmIssues i l n d (s.sc a) (s.sc b) (s.tk k) s := fun hw hm => by
  let x := s.me.touch s.ctx l
  let y := x.markS s.ctx d s.me.q.nid
  let c := (s.read l).umCaptures i a b k
  let pane := s.cfg.paneOf s.cur
  have hq : y.q = s.me.q := Core.markS_q _ _ _ _
  have hid : (s.read l).id = s.me.q.nid := (congrArg (fun x : Core => x.q.nid) (State.read_me s l)).trans rfl
  obtain ⟨hr, -, hpc⟩ := Core.next_numbered y mem s.ctx n hn
  let u := (s.read l).setUm pane { s.umOf pane with order := (s.umOf pane).order ++ [c] }
  have hcore : ((s.read l).umIssued d n mem c).core s.cur = (if mem then y.numbered else y).next s.ctx n := by
    refine (State.core_upd u _).trans ?_
    rw [show u.me = x from State.read_me s l, hid]
    rfl
  obtain ⟨⟨h1, h2, h3, h4⟩, ⟨h5, h6, h7⟩, h8, h9, h10, h11, h12⟩ := umCaptures_captured s l i a b k
  refine ⟨_, he hw hm, rfl, fun h => ?_, fun c hc => ?_, ?_, fun k r hr' => ?_, c, ?_, h1, h2, h3, h4, h5, h6, h7, h8, h9, h10, h11, h12⟩
  · rw [hcore, hpc (by rw [hq]; exact h), hq]
  · exact (State.core_upd_other u _ hc).trans (State.core_upd_other s (fun x => x.touch s.ctx l) hc)
  · rw [hcore, hr]
    show (x.markS s.ctx d s.me.q.nid).r = _
    rw [Core.markS_regs]
    rfl
  · rw [hcore]
    exact (congrArg (fun z : Regs => if r = 0 then [] else Sparse.get [] z.sm (sKey k r)) hr).trans
      (Core.sMarks_markS x s.ctx s.me.q.nid (hd hw) (k := k) hr')
  · exact Sparse.get_set_same _ _ _ _

/-- All that can become of an unmasking command (R356, R357). -/
def UmCommand (s : State) (i : Instr) (l : List Src) (n d : Nat) (a b : Word) (tok : Token) (rule : Prop) : Prop :=
  let room := (((s.umOf (s.cfg.paneOf s.cur)).order.filter (fun j => j.core == s.cur)).length < 4)
  (room → rule → UmIssues i l n d a b tok s) ∧ (room → ¬rule → TrapsBy i l s 1 (minOf i) s.me.q.pc) ∧
    (¬room → WordResult i l s (fun t => t.waited = true ∧ (t.core s.cur).r = s.me.r ∧ (t.core s.cur).q = s.me.q))

theorem umCommand (hx : exec i s = umIssue i s l ok a b k d n mem) {rule : Prop} (hok : ok (s.read l) = true ↔ rule)
    (hd : i.wf = true → d < 64) (hn : 0 < n) : UmCommand s i l n d (s.sc a) (s.sc b) (s.tk k) rule := by
  have hno : (!ok (s.read l)) = true ↔ ¬rule := by rw [Bool.not_eq_true', ← Bool.not_eq_true, hok]
  refine ⟨fun h1 h2 => umIssues_of (mem := mem) (fun _ hm => ?_) hd hn, fun h1 h2 => trap_trapped fun hm => ?_,
    fun h1 _ hm => ⟨_, (hx.trans (umIssue_ready hm)).trans (if_pos (Nat.le_of_not_lt h1)), rfl, ?_, ?_⟩⟩
  · rw [hx, umIssue_ready hm, if_neg (Nat.not_le.2 h1), if_neg fun e => hno.1 e h2]
  · rw [hx, umIssue_ready hm, if_neg (Nat.not_le.2 h1), if_pos (hno.2 h2)]
    rfl
  · exact (congrArg (fun x : Core => x.r) (State.read_me s l)).trans rfl
  · exact (congrArg (fun x : Core => x.q) (State.read_me s l)).trans rfl

/-! ### Operand rules (R359) -/

theorem umShareOk_iff (num den : Word) : umShareOk num den = true ↔ 1 ≤ den.toNat ∧ den.toNat < 2 ^ 32 ∧ num.toNat ≤ den.toNat := by
  unfold umShareOk
  rw [Bool.and_eq_true, Bool.and_eq_true, decide_eq_true_eq, decide_eq_true_eq, decide_eq_true_eq, and_assoc]

theorem umBlocks_bsz (seqlen code : Nat) : umBlocks seqlen (umBsz code) = (seqlen + 4 * 2 ^ code - 1) / (4 * 2 ^ code) := by
  have h : 1 ≤ 4 * 2 ^ code := Nat.mul_pos (by decide) (Nat.two_pow_pos _)
  unfold umBlocks umBsz
  rw [Nat.max_eq_left h]

end

/-! ### The status fills (R357) -/

section
variable {x : Core} {ctx d id : Nat}

theorem Core.rdS_dropS (k r : Nat) : (x.dropS ctx d id).rdS k r = x.rdS k r := by
  unfold Core.dropS
  split <;> rfl

theorem Core.not_mem_dropS : id ∉ (x.dropS ctx d id).sMarks ctx d := by
  by_cases h : d = 0
  · simp [Core.sMarks, h]
  · simp [Core.dropS, Core.sMarks, h]

end

/-- The status word or pair of a command (R357, R362). -/
def umStatus (k : UmCmd) : Word :=
  match k.i with
  | .umDnext _ => BitVec.ofNat 64 k.info
  | _ => BitVec.ofNat 64 (k.info % 2 ^ 32 * 2 ^ 8 + k.code)

theorem umStatus_eq (k : UmCmd) :
    umStatus k = if k.i = .umDnext (umDest k.i) then BitVec.ofNat 64 k.info else BitVec.ofNat 64 (k.info % 2 ^ 32 * 2 ^ 8 + k.code) := by
  unfold umStatus
  split
  · next d h => rw [if_pos (by rw [h]; rfl)]
  · next h => rw [if_neg fun e => h _ e]

/-- A done command with no release left to do fills its status and leaves its engine. -/
theorem exec_umStatusFill_done {s : State} {pane : Nat} {k : UmCmd} {rest : List UmCmd} (ho : (s.umOf pane).order = k :: rest) (hd : k.done = true)
    (hrel : (umOrd k.i).rel = false ∨ k.silent = true ∨ k.code = 6 ∨ ((∃ f, k.i = .umCommit f) ∧ 0 < k.blk)) (hh : s.cmdHeld k.core k.wseq = false) :
    exec (.umStatusFill pane) s = .next (((s.observe k.core k.ctx 2 (k.id + 1)).setUm pane { s.umOf pane with order := rest }).mod k.core (fun x =>
      if k.silent then x.dropS k.ctx (umDest k.i) k.id else x.fillS k.ctx (umDest k.i) k.id (umStatus k))) := by
  let wrote : Bool := match k.i with
    | .umCommit _ => (decide (0 < k.blk) : Bool)
    | _ => false
  let g : Agent := { k.agent with ord := if k.silent || k.code == 6 || wrote then { umOrd k.i with rel := false } else umOrd k.i }
  have hg : g.ord.rel = false := by
    show (if (k.silent || k.code == 6 || wrote) = true then { umOrd k.i with rel := false } else umOrd k.i).rel = false
    by_cases h : (k.silent || k.code == 6 || wrote) = true
    · rw [if_pos h]
    · rw [if_neg h]
      simp only [Bool.or_eq_true, beq_iff_eq, not_or] at h
      obtain ⟨⟨h1, h2⟩, h3⟩ := h
      rcases hrel with hr | hs | hc | ⟨⟨f, hf⟩, hb⟩
      · exact hr
      · exact absurd hs h1
      · exact absurd hc h2
      · exact absurd (show wrote = true by show (match k.i with | .umCommit _ => (decide (0 < k.blk) : Bool) | _ => false) = true
                                           rw [hf]; exact decide_eq_true hb) h3
  have hready : s.engRelReady g none = true := by unfold State.engRelReady; rw [hg]; rfl
  have hwork : s.engRelease g none = s := by unfold State.engRelease; rw [hg]; rfl
  have hgo : ¬((!s.engRelReady g none) = true ∨ s.cmdHeld k.core k.wseq = true) := by rw [hready, hh]; decide
  calc exec (.umStatusFill pane) s = execUmStatusFill pane s := rfl
    _ = if (!k.done) = true then .next s
        else if (!s.engRelReady g none) = true ∨ s.cmdHeld k.core k.wseq = true then .next s
        else .next ((((s.engRelease g none).observe k.core k.ctx 2 (k.id + 1)).setUm pane
          { ((s.engRelease g none).observe k.core k.ctx 2 (k.id + 1)).umOf pane with order := rest }).mod k.core (fun x =>
            if k.silent then x.dropS k.ctx (umDest k.i) k.id else x.fillS k.ctx (umDest k.i) k.id (umStatus k))) := by
      unfold execUmStatusFill
      dsimp only
      rw [ho]
      rfl
    _ = _ := by rw [if_neg (by rw [hd]; decide), if_neg hgo, hwork]; rfl

end Sys2Proof.Machine

namespace Sys2Proof

open Machine

/-- Settles O40: each command through `umCommand`, and the fill of a done command through what `fillS` and `dropS` leave. -/
theorem unmaskingCommandsIssue : Obligations.UnmaskingCommandsIssue := by
  unfold Obligations.UnmaskingCommandsIssue
  refine ⟨fun s => ?_, fun s pane k rest ho hdone hd hrel hh => ?_⟩
  · intro cmd share aligned memory
    have hmem : ∀ (f : UmMemF) {i : Instr}, i.check = firstFail ((isS f.d && isS f.a && isS f.b && isK f.k, .register) :: f.ord.checks) → i.wf = true → f.d < 64 :=
      fun f _ hc hw => by
        have h := Instr.check_none hw
        simp only [hc, firstFail_cons, Bool.and_eq_true] at h
        obtain ⟨⟨⟨⟨h, -⟩, -⟩, -⟩, -⟩ := h
        exact ReadsBack.of_isS h
    have halign : ∀ (f : UmMemF) (l : List Src), (((s.read l).sc f.a).toNat % 64 == 0 && ((s.read l).sc f.b).toNat % 64 == 0) = true ↔ aligned f := fun f l => by
      rw [State.sc_upd_touch, State.sc_upd_touch, Bool.and_eq_true, beq_iff_eq, beq_iff_eq]
    have hshare : ∀ (a b : Nat) (l : List Src), umShareOk ((s.read l).sc a) ((s.read l).sc b) = true ↔ share a b := fun a b l => by
      rw [State.sc_upd_touch, State.sc_upd_touch]
      exact umShareOk_iff _ _
    refine ⟨fun f => ⟨?_, ?_⟩, fun d l0 nl radius => ?_, fun f => ⟨?_, ?_⟩, fun d => ?_, fun a fea => ?_⟩
    · refine umCommand (k := 0) (show exec (.umCfg f) s = execUmCfg f s from rfl) ?_ (fun hw => ?_) Nat.two_pos
      · simp only [Bool.and_eq_true, hshare, decide_eq_true_eq, umBlocks_bsz, and_assoc]
      · have h := Instr.check_none hw
        simp only [Instr.check, firstFail_cons, Bool.and_eq_true] at h
        obtain ⟨⟨⟨h, -⟩, -⟩, -⟩ := h
        exact ReadsBack.of_isS h
    · refine umCommand (k := 0) (show exec (.umCfgShare f) s = execUmCfgShare f s from rfl) ?_ (fun hw => ?_) Nat.two_pos
      · rw [Bool.and_eq_true, hshare, decide_eq_true_eq]
      · have h := Instr.check_none hw
        simp only [Instr.check, firstFail_cons, Bool.and_eq_true] at h
        obtain ⟨⟨⟨h, -⟩, -⟩, -⟩ := h
        exact ReadsBack.of_isS h
    · refine umCommand (a := 0) (b := 0) (k := 0) (show exec (.umCfgRad d l0 nl radius) s = execUmCfgRad d l0 nl radius s from rfl) ?_ (fun hw => ?_) Nat.two_pos
      · rw [Bool.and_eq_true, Bool.and_eq_true, decide_eq_true_eq, decide_eq_true_eq, decide_eq_true_eq, and_assoc]
      · have h := Instr.check_none hw
        simp only [Instr.check, firstFail_cons] at h
        exact ReadsBack.of_isS h.1
    · exact umCommand (ok := fun s => (s.sc f.a).toNat % 64 == 0 && (s.sc f.b).toNat % 64 == 0)
        (show exec (.umRank f) s = execUmRank f s from rfl) (halign f _) (hmem f rfl) Nat.two_pos
    · exact umCommand (ok := fun s => (s.sc f.a).toNat % 64 == 0 && (s.sc f.b).toNat % 64 == 0)
        (show exec (.umCommit f) s = execUmCommit f s from rfl) (halign f _) (hmem f rfl) Nat.two_pos
    · refine umCommand (a := 0) (b := 0) (k := 0) (show exec (.umDnext d) s = execUmDnext d s from rfl) (iff_of_true rfl trivial) (fun hw => ?_) Nat.one_pos
      have h := Instr.check_none hw
      simp only [Instr.check, firstFail_cons] at h
      exact ReadsBack.of_isS h.1
    · exact umCommand (b := 0) (k := 0) (show exec (.umDclr a fea) s = execUmDclr a fea s from rfl) (iff_of_true rfl trivial) (fun _ => by decide) Nat.one_pos
  · intro d
    let u := (s.observe k.core k.ctx 2 (k.id + 1)).setUm pane { s.umOf pane with order := rest }
    let f : Core → Core := fun x => if k.silent then x.dropS k.ctx d k.id else x.fillS k.ctx d k.id (umStatus k)
    have hcore : (u.mod k.core f).core k.core = f (s.core k.core) := State.core_mod_same u k.core f
    refine ⟨u.mod k.core f, exec_umStatusFill_done ho hdone hrel hh, rfl, Sparse.get_set_same _ _ _ _, fun c hc => State.core_mod_other u f hc, ?_,
      fun c r hr hne => ?_, fun hs => ?_, fun hs h0 => ?_⟩ <;> rw [hcore]
    · show k.id ∉ (if k.silent then _ else _ : Core).sMarks k.ctx d
      split
      · exact Core.not_mem_dropS
      · exact Core.not_mem_fillS _ _
    · show (if k.silent then _ else _ : Core).rdS c r = _
      split
      · exact Core.rdS_dropS _ _
      · exact Core.rdS_fillS_other _ _ hr hd hne
    · rw [show f (s.core k.core) = _ from if_pos hs, Core.rdS_dropS]
    · rw [show f (s.core k.core) = _ from if_neg (by rw [hs]; decide), Core.rdS_fillS_same, if_neg h0, umStatus_eq]

end Sys2Proof

end

section
set_option Elab.async false

/-! SUPPORT. The copy words (R241 to R243, R247, R248): levels, the command that joins the queue, what a cancellation leaves of commands and
handles, and the fault record. O35. -/

namespace Sys2Proof.Machine

/-! ### Cancellation (R247) -/

/-- A handle once a command that names it has been cancelled. -/
def Handle.cancelled (v : Handle) : Handle :=
  { v with st := if v.st = 1 then 2 else v.st, err := v.err || v.st == 1, code := if v.code = 0 then 3 else v.code
           entry := if v.code = 0 then 0 else v.entry }

theorem Handle.cancel_fault (v : Handle) : v.cancel.fault 3 0 = v.cancelled := by
  obtain ⟨st, cnt, arr, err, fillno, code, entry⟩ := v
  unfold Handle.cancel Handle.fault Handle.cancelled
  by_cases h1 : st = 1
  · subst h1
    by_cases h0 : code = 0 <;> simp [h0]
  · by_cases h0 : code = 0 <;> simp [h0, h1]

theorem Handle.cancelled_twice (v : Handle) : v.cancelled.cancelled = v.cancelled := by
  obtain ⟨st, cnt, arr, err, fillno, code, entry⟩ := v
  unfold Handle.cancelled
  by_cases h1 : st = 1 <;> by_cases h0 : code = 0 <;> simp [h0, h1]

/-- The handles once the commands of a list have been cancelled. -/
theorem foldl_cancel (l : List CopyCmd) (h : Nat) (hl : ∀ k ∈ l, k.f.h = h) (m : Sparse Handle) (g : Nat) :
    Sparse.get {} (l.foldl (fun (m : Sparse Handle) k => Sparse.set {} m k.f.h (((Sparse.get {} m k.f.h).cancel).fault 3 0)) m) g =
      if g = h ∧ l ≠ [] then (Sparse.get ({} : Handle) m h).cancelled else Sparse.get {} m g := by
  induction l generalizing m with
  | nil => rw [if_neg fun e => e.2 rfl]; rfl
  | cons k l ih =>
    have hk := hl k List.mem_cons_self
    rw [List.foldl_cons, ih fun j hj => hl j (List.mem_cons_of_mem _ hj), hk, Handle.cancel_fault, Sparse.get_set_same, Handle.cancelled_twice]
    by_cases hg : g = h
    · subst hg
      rw [if_pos (⟨rfl, List.cons_ne_nil _ _⟩ : g = g ∧ k :: l ≠ [])]
      split
      · rfl
      · rw [hk] at *
        exact Sparse.get_set_same _ _ _ _
    · rw [if_neg fun e => hg e.1, if_neg fun e => hg e.1]
      exact Sparse.get_set_other _ _ _ hg

/-- A command as a cancellation of those of handle `h` leaves it. -/
def CopyCmd.cancelledBy (k : CopyCmd) (h : Nat) : CopyCmd :=
  if (k.f.h == h) = true ∧ (!k.cancelled) = true then { k with cancelled := true, emitted := true, code := 3, ent := 0 } else k

theorem CopyCmd.cancelledBy_kept (k : CopyCmd) (h : Nat) : (k.cancelledBy h).f = k.f ∧ (k.cancelledBy h).fl = k.fl ∧
    (k.f.h = h → (k.cancelledBy h).cancelled = true) ∧ (k.f.h ≠ h → k.cancelledBy h = k) := by
  unfold CopyCmd.cancelledBy
  by_cases hh : k.f.h = h
  · cases hc : k.cancelled
    · rw [if_pos ⟨beq_iff_eq.2 hh, rfl⟩]
      exact ⟨rfl, rfl, fun _ => rfl, fun hn => absurd hh hn⟩
    · rw [if_neg fun e => absurd e.2 (by decide)]
      exact ⟨rfl, rfl, fun _ => hc, fun _ => rfl⟩
  · rw [if_neg fun e => hh (beq_iff_eq.1 e.1)]
    exact ⟨rfl, rfl, fun e => absurd e hh, fun _ => rfl⟩

theorem Core.cancel_copies (x : Core) (h : Nat) : (x.cancel (fun k => k.f.h == h) 3 0).e.copies =
    (x.e.copies.map (fun k => k.cancelledBy h)).filter (fun k => !k.cancelled || !k.fl.isEmpty) := rfl

/-- The commands that a cancellation leaves: the others, and those with copies in flight. -/
theorem Core.mem_cancel {x : Core} {h : Nat} {k : CopyCmd} : k ∈ (x.cancel (fun k => k.f.h == h) 3 0).e.copies ↔
    ∃ j ∈ x.e.copies, j.cancelledBy h = k ∧ (k.cancelled = false ∨ k.fl ≠ []) := by
  rw [Core.cancel_copies, List.mem_filter, List.mem_map, Bool.or_eq_true, Bool.not_eq_true', Bool.not_eq_true', List.isEmpty_eq_false_iff]
  exact ⟨fun ⟨⟨j, hj, he⟩, hk⟩ => ⟨j, hj, he, hk⟩, fun ⟨j, hj, he, hk⟩ => ⟨⟨j, hj, he⟩, hk⟩⟩

theorem Core.cancel_handle (x : Core) (h g : Nat) : (x.cancel (fun k => k.f.h == h) 3 0).e.handle g =
    if g = h ∧ ∃ k ∈ x.e.copies, k.f.h = h ∧ k.cancelled = false then (x.e.handle h).cancelled else x.e.handle g := by
  let hit := x.e.copies.filter (fun k => k.f.h == h && !k.cancelled)
  have hhit : ∀ k, k ∈ hit ↔ k ∈ x.e.copies ∧ k.f.h = h ∧ k.cancelled = false := fun k => by
    rw [List.mem_filter, Bool.and_eq_true, beq_iff_eq, Bool.not_eq_true']
  have hne : hit ≠ [] ↔ ∃ k ∈ x.e.copies, k.f.h = h ∧ k.cancelled = false := by
    rw [← List.length_pos_iff, List.length_pos_iff_exists_mem]
    exact exists_congr fun k => (hhit k)
  refine (foldl_cancel hit h (fun k hk => ((hhit k).1 hk).2.1) x.e.hnd g).trans ?_
  simp only [hne]
  rfl

/-! ### The words -/

section
variable {s : State}

theorem exec_cpyLvl_ready {lvl : Nat} {o : AluR} (hm : MayIssue (.cpyLvl lvl o) [.s o.a o.fea, .s o.b o.feb, .s o.c o.fec] s)
    (hfree : ∀ k ∈ s.me.e.copies, k.f.nlvl ≤ lvl) (hl : lvl < 6) : exec (.cpyLvl lvl o) s =
    let l : List Src := [.s o.a o.fea, .s o.b o.feb, .s o.c o.fec]
    if 2 ^ 32 ≤ (s.sc o.a).toNat then trap (s.read l) 4 ((s.sc o.a).toNat / 2 ^ 32)
    else .next (((s.read l).upd (fun x => x.eng (fun e => { e with
      lvl := Sparse.set {} e.lvl lvl { count := (s.sc o.a).toNat, ss := s.sc o.b, ds := s.sc o.c } }))).done 1) := by
  let l : List Src := [.s o.a o.fea, .s o.b o.feb, .s o.c o.fec]
  have hany : ¬(s.read l).me.e.copies.any (fun k => decide (lvl < k.f.nlvl)) = true := by
    rw [State.read_me, List.any_eq_true]
    rintro ⟨k, hk, h⟩
    exact absurd (hfree k hk) (Nat.not_le.2 (of_decide_eq_true h))
  calc exec (.cpyLvl lvl o) s = execCpyLvl lvl o s := rfl
    _ = _ := issue_ready hm _
    _ = _ := by
      dsimp only
      rw [if_neg hany, if_neg (Nat.not_le.2 hl), State.sc_upd_touch, State.sc_upd_touch, State.sc_upd_touch]

/-- The registers `cpy.go` reads. -/
def cpySrcs (f : CpyF) : List Src := [.s f.a f.fea, .s f.b f.feb, .s f.c f.fec, .k f.sk false, .k f.dk false]

/-- The command of `cpy.go` as it captures its operands (R242). -/
def State.cpyCaptures (s : State) (f : CpyF) : CopyCmd :=
  { id := s.id, ctx := s.ctx, f := f, a := s.sc f.a, b := s.sc f.b, c := s.sc f.c, st := s.tk f.sk, dt := s.tk f.dk, pc := s.pc
    depth := s.me.q.regions.length, wseq := s.me.q.wseq, hb := s.hbOf s.cur s.ctx }

theorem exec_cpyGo_ready {f : CpyF} (hw : (Instr.cpyGo f).wf = true) (hm : MayIssue (.cpyGo f) (cpySrcs f) s) (hroom : s.me.e.copies.length < 16) :
    exec (.cpyGo f) s =
    if (s.sc f.c).toNat ≠ 0 ∧ (s.sc f.c).toNat < 2 ^ 32 ∧ (s.me.e.handle f.h).st = 1 then
      .next ((s.read (cpySrcs f)).upd (fun x =>
        ((x.eng (fun e => { e with copies := e.copies ++ [(s.read (cpySrcs f)).cpyCaptures f] })).numbered).next s.ctx 2))
    else illegal (.cpyGo f) (s.read (cpySrcs f)) := by
  have hr : ¬16 ≤ (s.read (cpySrcs f)).me.e.copies.length := by rw [State.read_me]; exact Nat.not_le.2 hroom
  have hc := Instr.check_none hw
  simp only [Instr.check, List.cons_append, firstFail_cons, Bool.and_eq_true, Bool.or_eq_true, decide_eq_true_eq, Bool.not_eq_true', beq_iff_eq] at hc
  obtain ⟨-, -, ⟨⟨hdf, hn⟩, -⟩, hntf, hmir, -⟩ := hc
  have hillegal : (3 ≤ f.df ∨ 7 ≤ f.nlvl ∨ (f.haddr ≠ 0 ∧ (!f.ntf) = true) ∨ (f.mir = true ∧ f.df ≠ 2) ∨ ((s.read (cpySrcs f)).sc f.c).toNat = 0 ∨
      2 ^ 32 ≤ ((s.read (cpySrcs f)).sc f.c).toNat ∨ ((s.read (cpySrcs f)).me.e.handle f.h).st ≠ 1) ↔
      ¬((s.sc f.c).toNat ≠ 0 ∧ (s.sc f.c).toNat < 2 ^ 32 ∧ (s.me.e.handle f.h).st = 1) := by
    rw [State.sc_upd_touch, State.read_handle]
    have h3 : ¬(f.haddr ≠ 0 ∧ (!f.ntf) = true) := fun e => by
      rcases hntf with h | h
      · rw [h] at e; exact absurd e.2 (by decide)
      · exact e.1 (by simpa [isZ] using h)
    have h4 : ¬(f.mir = true ∧ f.df ≠ 2) := fun e => by
      rcases hmir with h | h
      · exact absurd (h.symm.trans e.1) (by decide)
      · exact e.2 h
    constructor
    · rintro (h | h | h | h | h | h | h) ⟨g1, g2, g3⟩
      · omega
      · omega
      · exact h3 h
      · exact h4 h
      · exact g1 h
      · omega
      · exact h g3
    · intro h
      by_contra hn
      simp only [not_or] at hn
      obtain ⟨-, -, -, -, h5, h6, h7⟩ := hn
      exact h ⟨h5, Nat.lt_of_not_le h6, not_not.1 h7⟩
  calc exec (.cpyGo f) s = execCpyGo f s := rfl
    _ = _ := issue_ready hm _
    _ = _ := if_neg hr
    _ = _ := by
      by_cases h : (s.sc f.c).toNat ≠ 0 ∧ (s.sc f.c).toNat < 2 ^ 32 ∧ (s.me.e.handle f.h).st = 1
      · rw [if_pos h]
        exact if_neg fun e => hillegal.1 e h
      · rw [if_neg h]
        exact if_pos (hillegal.2 h)

/-- A cancellation in the state in which its word issues. -/
def State.cpyCancels (s : State) (h : Nat) : State := (s.read []).upd (fun x => x.cancel (fun k => k.f.h == h) 3 0)

theorem State.cpyCancels_core (s : State) (h : Nat) : (s.cpyCancels h).core s.cur = s.me.cancel (fun k => k.f.h == h) 3 0 := by
  refine (State.read_upd_core s [] _).trans ?_
  rw [Core.touch_nil]

theorem exec_cpyCancel_ready {h : Nat} (hm : MayIssue (.cpyCancel h) [] s) : exec (.cpyCancel h) s =
    if ∃ k ∈ (s.me.cancel (fun k => k.f.h == h) 3 0).e.copies, k.f.h = h ∧ k.cancelled = true then .next ((s.cpyCancels h).holds .drain)
    else .next ((s.cpyCancels h).done 1) := by
  have hk : ¬s.hold.k = .drain := by rw [State.free_of_runs hm.runs]; nofun
  have hany : (!((s.cpyCancels h).core s.cur).e.copies.any (fun k => k.f.h == h && k.cancelled)) = true ↔
      ¬∃ k ∈ (s.me.cancel (fun k => k.f.h == h) 3 0).e.copies, k.f.h = h ∧ k.cancelled = true := by
    rw [State.cpyCancels_core, Bool.not_eq_true', ← Bool.not_eq_true, List.any_eq_true]
    simp only [Bool.and_eq_true, beq_iff_eq]
  calc exec (.cpyCancel h) s = execCpyCancel h s := rfl
    _ = issue _ s _ _ := if_neg hk
    _ = _ := issue_ready hm _
    _ = if (!((s.cpyCancels h).core s.cur).e.copies.any (fun k => k.f.h == h && k.cancelled)) = true then .next ((s.cpyCancels h).done 1)
        else .next ((s.cpyCancels h).holds .drain) := rfl
    _ = _ := by
      by_cases h' : ∃ k ∈ (s.me.cancel (fun k => k.f.h == h) 3 0).e.copies, k.f.h = h ∧ k.cancelled = true
      · rw [if_pos h', if_neg fun e => hany.1 e h']
      · rw [if_neg h', if_pos (hany.2 h')]

end

end Sys2Proof.Machine

namespace Sys2Proof

open Machine

/-- Settles O35: each word in the state in which it issues, and a cancellation by what it leaves of commands and handles. -/
theorem copyWords : Obligations.CopyWords := by
  unfold Obligations.CopyWords
  refine ⟨fun s lvl o => ?_, fun s f => ?_, fun s h hquiet => ?_, fun s h hfl => ?_, fun s d h => ?_⟩
  · intro n srcs hfree
    have hlvl : (Instr.cpyLvl lvl o).wf = true → lvl < 6 := fun hw => by
      have h := Instr.check_none hw
      simp only [Instr.check, firstFail_cons, decide_eq_true_eq] at h
      exact Nat.lt_succ_of_le h.1
    refine ⟨fun hn hw hm => ?_, fun hn hw => trap_trapped (fun hm => (exec_cpyLvl_ready hm hfree (hlvl hw)).trans (if_pos hn)) hw⟩
    obtain ⟨ho, hp, hc⟩ := State.upd_done s srcs (fun x => x.eng (fun e => { e with lvl := Sparse.set {} e.lvl lvl { count := n, ss := s.sc o.b, ds := s.sc o.c } }))
      (n := 1) Nat.one_pos fun _ => rfl
    refine ⟨_, (exec_cpyLvl_ready hm hfree (hlvl hw)).trans (if_neg (Nat.not_le.2 hn)), ho, hp, ?_, ?_, ?_, ?_, fun k hk => ?_⟩ <;> rw [hc]
    · rfl
    · rfl
    · rfl
    · exact Sparse.get_set_same _ _ _ _
    · exact Sparse.get_set_other _ _ _ hk
  · intro n srcs legal hroom
    refine ⟨fun hl hw hm => ?_, fun hl hw => trap_trapped (fun hm => (exec_cpyGo_ready hw hm hroom).trans (if_neg hl)) hw⟩
    let u := s.read srcs
    let k := u.cpyCaptures f
    let y := (s.me.touch s.ctx srcs).eng (fun e => { e with copies := e.copies ++ [k] })
    obtain ⟨hr, he, hpc⟩ := Core.next_numbered y true s.ctx 2 Nat.two_pos
    have hcore := State.read_upd_core s srcs (fun x => ((x.eng (fun e => { e with copies := e.copies ++ [k] })).numbered).next s.ctx 2)
    refine ⟨_, (exec_cpyGo_ready hw hm hroom).trans (if_pos hl), State.read_upd_only s _ _, fun h => ?_, ?_, ?_, ?_, ?_, k, ?_, rfl,
      State.sc_upd_touch s srcs _, State.sc_upd_touch s srcs _, State.sc_upd_touch s srcs _, State.tk_upd_touch s srcs _, State.tk_upd_touch s srcs _,
      (congrArg (fun x : Core => x.q.nid) (State.read_me s srcs)).trans rfl, rfl, rfl, rfl, rfl, rfl, rfl⟩
    · exact (congrArg (fun x : Core => x.q.pcOf s.ctx) hcore).trans (hpc h)
    · exact (congrArg (fun x : Core => x.r) hcore).trans hr
    · refine (congrArg (fun x : Core => x.c) hcore).trans ?_
      show (y.numbered.next s.ctx 2).c = _
      rw [Core.numbered_kept]
      rfl
    · exact (congrArg (fun x : Core => x.e.hnd) hcore).trans ((congrArg Eng.hnd he).trans rfl)
    · exact (congrArg (fun x : Core => x.e.lvl) hcore).trans ((congrArg Eng.lvl he).trans rfl)
    · exact (congrArg (fun x : Core => x.e.copies) hcore).trans (congrArg Eng.copies he)
  · intro v
    have hnone : ¬∃ k ∈ (s.me.cancel (fun k => k.f.h == h) 3 0).e.copies, k.f.h = h ∧ k.cancelled = true := by
      rintro ⟨k, hk, hkh, hc⟩
      obtain ⟨j, hj, rfl, hkeep⟩ := Core.mem_cancel.1 hk
      obtain ⟨hf, hl, -, -⟩ := j.cancelledBy_kept h
      rw [hl, (hquiet j hj (by rw [← hf]; exact hkh)).1, hc] at hkeep
      exact hkeep.elim (fun e => absurd e (by decide)) fun e => e rfl
    refine fun _ hm => ?_
    obtain ⟨ho, hp, hc⟩ := State.upd_done s [] (fun x => x.cancel (fun k => k.f.h == h) 3 0) (n := 1) Nat.one_pos fun _ => rfl
    rw [Core.touch_nil] at hc
    refine ⟨(s.cpyCancels h).done 1, (exec_cpyCancel_ready hm).trans (if_neg hnone), ho, hp, (congrArg (fun x : Core => x.r) hc).trans rfl, fun k => ?_, fun g hg => ?_, ?_⟩
    · refine (iff_of_eq (congrArg (fun x : Core => k ∈ x.e.copies) hc)).trans (Core.mem_cancel.trans ⟨?_, ?_⟩)
      · rintro ⟨j, hj, rfl, hkeep⟩
        obtain ⟨hf, hl, hcan, hsame⟩ := j.cancelledBy_kept h
        by_cases hjh : j.f.h = h
        · rw [hl, (hquiet j hj hjh).1, hcan hjh] at hkeep
          exact hkeep.elim (fun e => absurd e (by decide)) fun e => absurd rfl e
        · rw [hsame hjh] at hkeep ⊢
          exact ⟨hj, hjh, hkeep⟩
      · rintro ⟨hk, hkh, hkeep⟩
        exact ⟨k, hk, (k.cancelledBy_kept h).2.2.2 hkh, hkeep⟩
    · exact (congrArg (fun x : Core => x.e.handle g) hc).trans ((Core.cancel_handle s.me h g).trans (if_neg fun e => hg e.1))
    · refine (congrArg (fun x : Core => x.e.handle h) hc).trans ((Core.cancel_handle s.me h h).trans ?_)
      by_cases hex : ∃ k ∈ s.me.e.copies, k.f.h = h
      · obtain ⟨k, hk, hkh⟩ := hex
        rw [if_pos ⟨rfl, k, hk, hkh, (hquiet k hk hkh).2⟩, if_pos ⟨k, hk, hkh⟩]
        rfl
      · rw [if_neg hex, if_neg fun ⟨_, k, hk, hkh, _⟩ => hex ⟨k, hk, hkh⟩]
  · intro _ hm
    obtain ⟨k, hk, hkh, hkf⟩ := hfl
    obtain ⟨hf, hl, hcan, -⟩ := k.cancelledBy_kept h
    have hsome : ∃ k ∈ (s.me.cancel (fun k => k.f.h == h) 3 0).e.copies, k.f.h = h ∧ k.cancelled = true :=
      ⟨k.cancelledBy h, Core.mem_cancel.2 ⟨k, hk, rfl, .inr (by rw [hl]; exact hkf)⟩, by rw [hf]; exact hkh, hcan hkh⟩
    have hc : ((s.cpyCancels h).holds .drain).core s.cur = (s.me.cancel (fun k => k.f.h == h) 3 0).heldBy s.now s.ctx .drain := by
      rw [← State.cpyCancels_core]
      exact State.core_upd (s.cpyCancels h) _
    refine ⟨(s.cpyCancels h).holds .drain, (exec_cpyCancel_ready hm).trans (if_pos hsome),
      OnlyCore.trans (State.read_upd_only s [] _) (State.upd_only (s.cpyCancels h) _), ?_, ?_, fun j hj hjh => ?_⟩
    · exact (congrArg (fun x : Core => x.q.pcOf s.ctx) hc).trans (Core.heldBy_goes _ _ _ _).1
    · exact (congrArg (fun x : Core => x.q.holdOf s.ctx) hc).trans (Core.heldBy_hold _ _ _ _)
    · rw [hc] at hj
      obtain ⟨i, hi, rfl, hkeep⟩ := Core.mem_cancel.1 hj
      obtain ⟨hif, -, hican, -⟩ := i.cancelledBy_kept h
      have hcan := hican (by rw [← hif]; exact hjh)
      refine ⟨hcan, hkeep.resolve_left ?_⟩
      rw [hcan]
      decide
  · intro v hw hm
    have hd : d < 64 := by
      have h := Instr.check_none hw
      simp only [Instr.check, firstFail_cons] at h
      exact ReadsBack.of_isS h.2.1
    let w := BitVec.ofNat 64 (s.me.e.copies.countP (fun k => k.f.h == h) * 2 ^ 32 + v.entry * 2 ^ 12 + v.code)
    let f : Core → Core := fun x => x.eng (fun e => e.setHandle h { v with code := 0, entry := 0 })
    let y := f (s.me.touch s.ctx [])
    have hx : exec (.cpyStat d h) s = .next (((s.read []).upd f).ret d 1 w) := by
      calc exec (.cpyStat d h) s = execCpyStat d h s := rfl
        _ = _ := issue_ready hm _
        _ = _ := by dsimp only; rw [State.read_handle, State.read_me, Core.touch_nil, ← List.countP_eq_length_filter]
    have hc : (((s.read []).upd f).ret d 1 w).core s.cur = (y.wrS s.ctx d w).next s.ctx 1 := by
      exact (State.core_upd ((s.read []).upd f) _).trans (congrArg (fun x : Core => (x.wrS s.ctx d w).next s.ctx 1) (State.read_upd_core s [] f))
    have hk : ScalarsKept s.me (y.wrS s.ctx d w) s.ctx [d] := by
      obtain ⟨a, b, c, e, f, g⟩ := Core.wrS_kept y s.ctx w hd
      exact ⟨a, b, c, e, f, g⟩
    have he : (y.wrS s.ctx d w).e = { y.e with mxfault := (y.wrS s.ctx d w).e.mxfault } := by unfold Core.wrS; split <;> rfl
    refine ⟨_, hx, OnlyCore.trans (State.read_upd_only s [] f) (State.upd_only ((s.read []).upd f) _), fun h => ?_, ?_, ?_, ?_, ?_, fun g hg => ?_, ?_⟩ <;> rw [hc]
    · have hq : (y.wrS s.ctx d w).q = s.me.q := Core.wrS_q _ _ _ _
      rw [Core.next_pc _ _ _ Nat.one_pos (by rw [hq]; exact h), hq]
    · exact ScalarsKept.of_r hk rfl
    · exact Core.sMarks_wrS_same y s.ctx d w
    · exact Core.rdS_wrS_same y s.ctx d w
    · refine (congrArg (fun e : Eng => e.handle h) he).trans (Sparse.get_set_same _ _ _ _)
    · exact (congrArg (fun e : Eng => e.handle g) he).trans (Sparse.get_set_other _ _ _ hg)
    · exact (congrArg Eng.copies he).trans rfl

end Sys2Proof

end

section
set_option Elab.async false

/-! SUPPORT. The lease of a Marver (R175, R176), the acceptance of commands (R179) and the release of an accumulator (R190). O38. -/

namespace Sys2Proof.Machine

/-! ### Registers that stay -/

theorem RegistersKept.upd {s u : State} (h : RegistersKept s u) (f : Core → Core) (hf : ∀ x, (f x).r = x.r) : RegistersKept s (u.upd f) := fun c => by
  by_cases hc : c = u.cur
  · subst hc
    rw [State.core_upd, hf]
    exact h _
  · rw [State.core_upd_other u f hc]
    exact h c

theorem RegistersKept.read (s : State) (l : List Src) : RegistersKept s (s.read l) := fun c => State.read_core_r s l c

theorem State.marver_setMarver_same (s : State) (mv : Nat) (m : Marver) : (s.setMarver mv m).marver mv = m := Sparse.get_set_same _ s.mx mv m

theorem State.marver_setMarver_other (s : State) {k mv : Nat} (m : Marver) (h : k ≠ mv) : (s.setMarver mv m).marver k = s.marver k :=
  Sparse.get_set_other _ s.mx m h

/-! ### A word of the lease -/

/-- What a word leaves whose Marver `mv` becomes `u`. -/
def LeaseBecomes (s : State) (mv : Nat) (u : Marver) (t : State) : Prop :=
  t = { s with cores := t.cores, mx := t.mx } ∧ t.marver mv = u ∧ (∀ k, k ≠ mv → t.marver k = s.marver k) ∧ RegistersKept s t

section
variable {s : State} {mv : Nat} {u : Marver}

theorem State.read_nil_core (s : State) : (s.read []).core s.cur = s.me := (State.read_me s []).trans (Core.touch_nil _ _)

/-- It goes on. -/
theorem leaseBecomes_done (s : State) (mv : Nat) (u : Marver) :
    LeaseBecomes s mv u (((s.read []).setMarver mv u).done 1) ∧ Passes s (((s.read []).setMarver mv u).done 1) 1 := by
  have hc : ((s.read []).setMarver mv u).core s.cur = s.me := State.read_nil_core s
  refine ⟨⟨rfl, State.marver_setMarver_same (s.read []) mv u, fun k hk => State.marver_setMarver_other (s.read []) u hk, ?_⟩, ?_⟩
  · exact RegistersKept.upd (u := (s.read []).setMarver mv u) (RegistersKept.read s []) _ fun _ => rfl
  · exact State.done_passes (u := (s.read []).setMarver mv u) rfl rfl Nat.one_pos (by rw [hc]) (by rw [hc]) (by rw [hc])

/-- Or its context waits for the lease. -/
theorem leaseBecomes_holds (s : State) (mv : Nat) (u : Marver) :
    LeaseBecomes s mv u (((s.read []).setMarver mv u).holds .lease) ∧
    ((((s.read []).setMarver mv u).holds .lease).core s.cur).q.pcOf s.ctx = s.me.q.pcOf s.ctx ∧
    ((((s.read []).setMarver mv u).holds .lease).core s.cur).q.holdOf s.ctx = { k := .lease, since := s.me.q.nid } := by
  have hc : (((s.read []).setMarver mv u).holds .lease).core s.cur = s.me.heldBy s.now s.ctx .lease := by
    refine (State.core_upd ((s.read []).setMarver mv u) _).trans ?_
    exact congrArg (fun x : Core => x.heldBy s.now s.ctx .lease) (State.read_nil_core s)
  refine ⟨⟨rfl, State.marver_setMarver_same (s.read []) mv u, fun k hk => State.marver_setMarver_other (s.read []) u hk, ?_⟩, ?_, ?_⟩
  · exact RegistersKept.upd (u := (s.read []).setMarver mv u) (RegistersKept.read s []) _ fun _ => rfl
  · rw [hc]; exact (Core.heldBy_goes _ _ _ _).1
  · rw [hc]; exact Core.heldBy_hold _ _ _ _

end

section
variable {s : State}

/-- `mx.lease` in the state in which it issues (R175, R176). -/
theorem exec_mxLease_ready (hm : MayIssue .mxLease [] s) : exec .mxLease s =
    let mv := s.cfg.marver s.cur
    let m := s.marver mv
    let ws := if m.waiters.contains s.cur then m.waiters else m.waiters ++ [s.cur]
    if m.holder = some s.cur then
      (if m.waiters.all (· == s.cur) then .next (((s.read []).setMarver mv { m with left := m.len }).done 1)
      else .next (((s.read []).setMarver mv { m with holder := none, last := s.cur, waiters := ws }).holds .lease))
    else .next (((s.read []).setMarver mv { m with waiters := ws }).holds .lease) := by
  have hk : ¬s.hold.k = .lease := by rw [State.free_of_runs hm.runs]; nofun
  calc exec .mxLease s = execMxLease s := rfl
    _ = issue _ s _ _ := if_neg hk
    _ = _ := issue_ready hm _
    _ = _ := rfl

/-- `mx.lease` of a context that waits for the lease. -/
theorem exec_mxLease_waiting (hk : s.hold.k = .lease) : exec .mxLease s =
    if (s.marver (s.cfg.marver s.cur)).holder = some s.cur ∨ (!(s.marver (s.cfg.marver s.cur)).waiters.contains s.cur) = true then .next (s.done 1)
    else stall s :=
  (show exec .mxLease s = execMxLease s from rfl).trans (if_pos hk)

theorem State.done_alone (s : State) : Quiet s (s.done 1) ∧ Passes s (s.done 1) 1 :=
  Quiet.done (u := s) ⟨OnlyCore.refl _ _, ⟨rfl, rfl, rfl⟩, rfl⟩ ⟨rfl, rfl⟩ Nat.one_pos

theorem exec_mxFree_ready (hm : MayIssue .mxFree [] s) : exec .mxFree s =
    .next (((s.read []).setMarver (s.cfg.marver s.cur) ((s.marver (s.cfg.marver s.cur)).lapse s.cur)).done 1) := by
  calc exec .mxFree s = execMxFree s := rfl
    _ = _ := issue_ready hm _

end

/-! ### The next holder (R175) -/

/-- A core's turn among those that wait: by PRIO, then by the cyclic order after the last holder. -/
def State.leaseKey (s : State) (m : Marver) (c : Nat) : Nat := (3 - (s.core c).c.prio) * 1024 + (c + 1023 - m.last) % 1024

/-- The first of the least keys of a list. -/
theorem foldl_least (key : Nat → Nat) (l : List Nat) (c : Nat) :
    let r := l.foldl (fun b d => if key d < key b then d else b) c
    r ∈ c :: l ∧ ∀ v ∈ c :: l, key r ≤ key v := by
  induction l generalizing c with
  | nil => exact ⟨List.mem_cons_self, fun v hv => by rw [List.mem_singleton.1 hv]; exact Nat.le_refl _⟩
  | cons d l ih =>
    intro r
    obtain ⟨hmem, hle⟩ := ih (if key d < key c then d else c)
    have hr : r = l.foldl (fun b d => if key d < key b then d else b) (if key d < key c then d else c) := rfl
    rw [← hr] at hmem hle
    have hhead := hle _ List.mem_cons_self
    refine ⟨?_, fun v hv => ?_⟩
    · rcases List.mem_cons.1 hmem with h | h
      · rw [h]
        split
        · exact List.mem_cons_of_mem _ List.mem_cons_self
        · exact List.mem_cons_self
      · exact List.mem_cons_of_mem _ (List.mem_cons_of_mem _ h)
    · rcases List.mem_cons.1 hv with rfl | hv
      · split at hhead
        · next h => exact Nat.le_trans hhead (Nat.le_of_lt h)
        · exact hhead
      · rcases List.mem_cons.1 hv with rfl | hv
        · split at hhead
          · exact hhead
          · next h => exact Nat.le_trans hhead (Nat.le_of_not_lt h)
        · exact hle v (List.mem_cons_of_mem _ hv)

theorem State.leaseNext_least (s : State) (m : Marver) (h : m.waiters ≠ []) :
    ∃ w, s.leaseNext m = some w ∧ w ∈ m.waiters ∧ ∀ v ∈ m.waiters, s.leaseKey m w ≤ s.leaseKey m v := by
  unfold State.leaseNext
  cases hw : m.waiters with
  | nil => exact absurd hw h
  | cons c rest =>
    obtain ⟨h1, h2⟩ := foldl_least (s.leaseKey m) rest c
    exact ⟨_, rfl, h1, h2⟩

/-- The order of the keys: the higher PRIO, then the first after the last holder. -/
theorem lease_order {p q a b : Nat} (hp : p ≤ 3) (hq : q ≤ 3) (ha : a < 1024) (hb : b < 1024) (h : (3 - p) * 1024 + a ≤ (3 - q) * 1024 + b) :
    q ≤ p ∧ (q = p → a ≤ b) := by omega

/-! ### Acceptance (R175, R179) -/

theorem leasedCmd_iff (i : Instr) : leasedCmd i = true ↔ (∀ d z, i ≠ .mxZalloc d z) ∧ ∀ z, i ≠ .mxZfree z := by
  constructor
  · intro h
    exact ⟨fun d z e => Bool.false_ne_true (by rw [e] at h; exact h), fun z e => Bool.false_ne_true (by rw [e] at h; exact h)⟩
  · rintro ⟨h1, h2⟩
    unfold leasedCmd
    split
    · next d z => exact absurd rfl (h1 d z)
    · next z => exact absurd rfl (h2 z)
    · rfl

/-- What a Marver becomes as it accepts a command. -/
def Marver.accepts (m : Marver) (c : Nat) (k : MxCmd) : Marver :=
  if leasedCmd k.i ∧ m.holder = some c then
    (if m.left ≤ 1 then { m with order := m.order ++ [k] }.lapse c else { m with order := m.order ++ [k], left := m.left - 1 })
  else { m with order := m.order ++ [k] }

theorem exec_mxAccept_takes {s : State} {c : Nat} {k : MxCmd} {rest : List MxCmd} (hq : (s.core c).e.mxq = k :: rest) (hst : (s.core c).q.st ≠ .stopping) :
    exec (.mxAccept c) s = .next ((s.setMarver (s.cfg.marver c) ((s.marver (s.cfg.marver c)).accepts c k)).mod c (fun x => x.eng (fun e => { e with mxq := rest }))) := by
  calc exec (.mxAccept c) s = execMxAccept c s := rfl
    _ = _ := by
      unfold execMxAccept
      dsimp only
      rw [hq]
      exact if_neg hst

/-! ### Accumulators (R173, R190) -/

section
variable {s : State} {z : Nat}

theorem exec_mxZfree_ready (hm : MayIssue (.mxZfree z) [] s) (ha : s.zallocs s.cur z = false) : exec (.mxZfree z) s =
    if (!s.holdsZ s.cur z) = true then illegal (.mxZfree z) (s.read [])
    else if s.mxOwn s.cur = [] then .next (({ s.read [] with accOwner := Sparse.set 0 s.accOwner (s.cfg.marver s.cur * 64 + z) 0 } : State).done 1)
    else .next (((s.read []).upd (fun x => x.eng (fun e => { e with zfree := e.zfree ++ [(s.me.q.nid, z)] }))).done 1) := by
  have hid : (s.read []).id = s.me.q.nid := congrArg (fun x : Core => x.q.nid) (State.read_nil_core s)
  calc exec (.mxZfree z) s = execMxZfree z s := rfl
    _ = _ := issue_ready hm _
    _ = if (!(s.read []).holdsZ s.cur z) = true then illegal (.mxZfree z) (s.read [])
        else if (s.read []).mxOwn s.cur = [] then .next (({ s.read [] with accOwner := Sparse.set 0 s.accOwner (s.cfg.marver s.cur * 64 + z) 0 } : State).done 1)
        else .next (((s.read []).upd (fun x => x.eng (fun e => { e with zfree := e.zfree ++ [((s.read []).id, z)] }))).done 1) :=
      if_neg (by rw [show (s.read []).zallocs (s.read []).cur z = s.zallocs s.cur z from congrFun (State.read_zallocs s []) z, ha]; decide)
    _ = _ := by rw [State.read_holdsZ, State.read_mxOwn, hid]

end

end Sys2Proof.Machine

namespace Sys2Proof

open Machine

/-- Settles O38: the words by `leaseBecomes_done` and `leaseBecomes_holds`, the grant by the least key, acceptance by `Marver.accepts`. -/
theorem marverLease : Obligations.MarverLease := by
  unfold Obligations.MarverLease
  refine ⟨fun s => ?_, fun s mv => ?_, fun s mv hnone => ?_, fun s c k rest hq hst => ?_, fun s z => ?_⟩
  · intro mv m becomes waits
    have hdone : ∀ {i : Instr} {u : Marver}, (MayIssue i [] s → exec i s = .next (((s.read []).setMarver mv u).done 1)) → becomes i u (fun t => Passes s t 1) :=
      fun {i u} he _ hm => by
        obtain ⟨⟨h1, h2, h3, h4⟩, h5⟩ := leaseBecomes_done s mv u
        exact ⟨_, he hm, h1, h2, h3, h4, h5⟩
    have hwait : ∀ {i : Instr} {u : Marver}, (MayIssue i [] s → exec i s = .next (((s.read []).setMarver mv u).holds .lease)) → becomes i u waits :=
      fun {i u} he _ hm => by
        obtain ⟨⟨h1, h2, h3, h4⟩, h5⟩ := leaseBecomes_holds s mv u
        exact ⟨_, he hm, h1, h2, h3, h4, h5⟩
    have hws : s.cur ∉ m.waiters → (if m.waiters.contains s.cur then m.waiters else m.waiters ++ [s.cur]) = m.waiters ++ [s.cur] := fun h =>
      if_neg (by rw [List.contains_iff_mem]; exact h)
    refine ⟨fun hh hall => hdone fun hm => ?_, fun hh hno hne => hwait fun hm => ?_, fun hh hno => hwait fun hm => ?_, fun hh => hdone fun hm => ?_,
      fun hh => hdone fun hm => ?_, fun hk hh => ?_, fun hk hno => ?_, fun hk hh hin => ?_⟩
    · refine (exec_mxLease_ready hm).trans ((if_pos hh).trans (if_pos ?_))
      rw [List.all_eq_true]
      exact fun w hw => beq_iff_eq.2 (hall w hw)
    · obtain ⟨w, hw⟩ := List.exists_mem_of_ne_nil _ hne
      refine (exec_mxLease_ready hm).trans ((if_pos hh).trans ((if_neg ?_).trans (by rw [hws hno])))
      rw [List.all_eq_true]
      exact fun h => hno (beq_iff_eq.1 (h w hw) ▸ hw)
    · exact (exec_mxLease_ready hm).trans ((if_neg hh).trans (by rw [hws hno]))
    · exact (exec_mxFree_ready hm).trans (by rw [Marver.lapse, if_pos hh])
    · exact (exec_mxFree_ready hm).trans (by rw [Marver.lapse, if_neg hh])
    · exact ⟨_, (exec_mxLease_waiting hk).trans (if_pos (.inl hh)), State.done_alone s⟩
    · exact ⟨_, (exec_mxLease_waiting hk).trans (if_pos (.inr (by rw [Bool.not_eq_true', ← Bool.not_eq_true, List.contains_iff_mem]; exact hno))), State.done_alone s⟩
    · refine (exec_mxLease_waiting hk).trans (if_neg fun e => e.elim hh fun e => ?_)
      rw [Bool.not_eq_true', ← Bool.not_eq_true, List.contains_iff_mem] at e
      exact e hin
  · intro m hh hne hbound hlast
    obtain ⟨w, hnext, hw, hleast⟩ := State.leaseNext_least s m hne
    refine ⟨s.setMarver mv { m with holder := some w, left := m.len, waiters := m.waiters.filter (· != w) }, w, ?_, hw, rfl, State.marver_setMarver_same s mv _,
      fun k hk => State.marver_setMarver_other s _ hk, fun v hv => ?_⟩
    · refine (show exec (.leaseGrant mv) s = execLeaseGrant mv s from rfl).trans ?_
      unfold execLeaseGrant
      dsimp only
      rw [show (s.marver mv).holder = none from hh, show s.leaseNext (s.marver mv) = some w from hnext]
    · exact lease_order (hbound w hw).1 (hbound v hv).1 (Nat.mod_lt _ (by decide)) (Nat.mod_lt _ (by decide)) (hleast v hv)
  · refine (show exec (.leaseGrant mv) s = execLeaseGrant mv s from rfl).trans ?_
    unfold execLeaseGrant
    dsimp only
    rcases hnone with h | h
    · cases hh : (s.marver mv).holder with
      | none => exact absurd hh h
      | some c => rfl
    · have hn : s.leaseNext (s.marver mv) = none := by unfold State.leaseNext; rw [h]
      rw [hn]
      cases (s.marver mv).holder <;> rfl
  · intro mv m counts
    let u := s.setMarver mv (m.accepts c k)
    have hcounts : counts ↔ leasedCmd k.i = true ∧ m.holder = some c := by
      rw [leasedCmd_iff, and_assoc]
    have hmv : (u.mod c (fun x => x.eng (fun e => { e with mxq := rest }))).marver mv = m.accepts c k := State.marver_setMarver_same s mv _
    have hyes : counts → m.accepts c k = if m.left ≤ 1 then { m with order := m.order ++ [k] }.lapse c else { m with order := m.order ++ [k], left := m.left - 1 } :=
      fun h => if_pos (hcounts.1 h)
    have hlapse : counts → { m with order := m.order ++ [k] }.lapse c = { m with order := m.order ++ [k], holder := none, last := c } :=
      fun h => if_pos h.2.2
    refine ⟨_, exec_mxAccept_takes hq hst, rfl, fun d => ?_, ?_, ?_, fun h hl => ?_, fun h hl => ?_, fun h => ?_⟩
    · by_cases hd : d = c
      · subst hd
        rw [State.core_mod_same]
        rfl
      · rw [State.core_mod_other _ _ hd]
        rfl
    · rw [State.core_mod_same]
      rfl
    · rw [hmv]
      by_cases h : counts
      · rw [hyes h]
        split
        · rw [hlapse h]
        · rfl
      · rw [show m.accepts c k = { m with order := m.order ++ [k] } from if_neg fun e => h (hcounts.2 e)]
    · rw [hmv, hyes h, if_neg (Nat.not_le.2 hl)]
    · rw [hmv, hyes h, if_pos hl, hlapse h]
    · rw [hmv]
      exact if_neg fun e => h (hcounts.2 e)
  · intro key ha
    refine ⟨fun hh he _ hm => ?_, fun hh he _ hm => ?_, fun hh => trap_trapped fun hm => ?_⟩
    · let u : State := { s.read [] with accOwner := Sparse.set 0 s.accOwner key 0 }
      have hc : u.core s.cur = s.me := State.read_nil_core s
      refine ⟨u.done 1, (exec_mxZfree_ready hm ha).trans ((if_neg (by rw [hh]; decide)).trans (if_pos he)), rfl,
        State.done_passes (u := u) rfl rfl Nat.one_pos (by rw [hc]) (by rw [hc]) (by rw [hc]), ?_, Sparse.get_set_same 0 s.accOwner key 0, fun k hk => Sparse.get_set_other 0 s.accOwner 0 hk⟩
      exact RegistersKept.upd (u := u) (RegistersKept.read s []) _ fun _ => rfl
    · obtain ⟨ho, hp, hc⟩ := State.upd_done s [] (fun x => x.eng (fun e => { e with zfree := e.zfree ++ [(s.me.q.nid, z)] })) (n := 1) Nat.one_pos fun _ => rfl
      refine ⟨_, (exec_mxZfree_ready hm ha).trans ((if_neg (by rw [hh]; decide)).trans (if_neg he)), ho, hp, ?_, ?_⟩ <;> rw [hc] <;> rfl
    · exact (exec_mxZfree_ready hm ha).trans (if_pos (by rw [hh]; rfl))

end Sys2Proof

end

section
set_option Elab.async false

/-! SUPPORT. The words of queues: names, stamps, requests and bindings (R220, R221, R227, R231 to R236). O32. -/

namespace Sys2Proof.Machine

/-! ### A field of a word set anew -/

theorem bit_eq_testBit (x i : Nat) : bit x i = x.testBit i := by
  rw [bit, Nat.testBit_eq_decide_div_mod_eq]
  exact beq_eq_decide _ _

theorem setFld_bit (w : Word) {lo n v i : Nat} (hi : i < 64) :
    (setFld w lo n v).toNat.testBit i = if lo ≤ i ∧ i < lo + n then v.testBit (i - lo) else w.toNat.testBit i := by
  have hmask : ((2 ^ n - 1) * 2 ^ lo).testBit i = decide (lo ≤ i ∧ i < lo + n) := by
    rw [Nat.mul_comm, Nat.testBit_two_pow_mul, Nat.testBit_two_pow_sub_one]
    by_cases h : lo ≤ i
    · simp only [h, decide_true, Bool.true_and, true_and, decide_eq_decide]; omega
    · simp [h]
  have hval : (v % 2 ^ n * 2 ^ lo).testBit i = (decide (lo ≤ i ∧ i < lo + n) && v.testBit (i - lo)) := by
    rw [Nat.mul_comm, Nat.testBit_two_pow_mul, Nat.testBit_mod_two_pow]
    by_cases h : lo ≤ i
    · have e : decide (i - lo < n) = decide (i < lo + n) := by rw [decide_eq_decide]; omega
      simp [h, e]
    · simp [h]
  rw [BitVec.testBit_toNat, BitVec.testBit_toNat]
  unfold setFld
  rw [BitVec.getLsbD_or, BitVec.getLsbD_and, BitVec.getLsbD_not, BitVec.getLsbD_ofNat, BitVec.getLsbD_ofNat, hmask, hval]
  by_cases h : lo ≤ i ∧ i < lo + n
  · simp [hi, h]
  · simp [hi, h]

/-- A field that has been set reads what was put there. -/
theorem fld_setFld_same (w : Word) {lo n v : Nat} (hn : lo + n ≤ 64) : fld (setFld w lo n v).toNat lo n = v % 2 ^ n := by
  refine Nat.eq_of_testBit_eq fun i => ?_
  unfold fld
  rw [Nat.testBit_mod_two_pow, Nat.testBit_mod_two_pow, Nat.testBit_div_two_pow]
  by_cases h : i < n
  · rw [setFld_bit w (by omega), if_pos (by omega), Nat.add_sub_cancel]
  · simp [h]

/-- A field apart from it stays. -/
theorem fld_setFld_apart (w : Word) {lo n v a m : Nat} (ha : a + m ≤ 64) (h : a + m ≤ lo ∨ lo + n ≤ a) :
    fld (setFld w lo n v).toNat a m = fld w.toNat a m := by
  refine Nat.eq_of_testBit_eq fun i => ?_
  unfold fld
  rw [Nat.testBit_mod_two_pow, Nat.testBit_mod_two_pow, Nat.testBit_div_two_pow, Nat.testBit_div_two_pow]
  by_cases hi : i < m
  · rw [setFld_bit w (by omega), if_neg (by omega)]
  · simp [hi]

theorem bit_setFld_apart (w : Word) {lo n v i : Nat} (hi : i < 64) (h : i < lo ∨ lo + n ≤ i) :
    bit (setFld w lo n v).toNat i = bit w.toNat i := by
  rw [bit_eq_testBit, bit_eq_testBit, setFld_bit w hi, if_neg (by omega)]

/-! ### The stamp of a push (R220) -/

section
variable (r : Rec) (q : Queue) (n : Nat)

theorem Rec.stamp_linst : (r.stamp q n).linst = n % 2 ^ 32 := fld_setFld_same _ (by decide)

theorem Rec.stamp_w7 : (r.stamp q n).w7.setWidth 32 = r.w7.setWidth 32 := by
  refine BitVec.eq_of_getLsbD_eq fun i hi => ?_
  rw [BitVec.getLsbD_setWidth, BitVec.getLsbD_setWidth, ← BitVec.testBit_toNat, ← BitVec.testBit_toNat]
  rw [show (r.stamp q n).w7 = setFld r.w7 32 32 n from rfl, setFld_bit _ (by omega), if_neg (by omega)]

theorem Rec.stamp_pri : (r.stamp q n).pri = q.pri % 4 := by
  unfold Rec.pri Rec.stamp
  dsimp only
  split
  · exact fld_setFld_same _ (by decide)
  · exact (fld_setFld_apart _ (by decide) (by decide)).trans (fld_setFld_same _ (by decide))

theorem Rec.stamp_stage : (r.stamp q n).stage = if q.stage = 0 then r.stage else (q.stage - 1) % 2 ^ 8 := by
  unfold Rec.stage Rec.stamp
  dsimp only
  split
  · exact fld_setFld_apart _ (by decide) (by decide)
  · exact fld_setFld_same _ (by decide)

theorem Rec.stamp_low {a m : Nat} (h : a + m ≤ 48) : fld (r.stamp q n).w0.toNat a m = fld r.w0.toNat a m := by
  unfold Rec.stamp
  dsimp only
  split
  · exact fld_setFld_apart _ (by omega) (by omega)
  · exact (fld_setFld_apart _ (by omega) (by omega)).trans (fld_setFld_apart _ (by omega) (by omega))

theorem Rec.stamp_redundant : (r.stamp q n).redundant = r.w0.getLsbD 58 := by
  rw [← BitVec.testBit_toNat, ← bit_eq_testBit]
  unfold Rec.redundant Rec.stamp
  dsimp only
  split
  · exact bit_setFld_apart _ (by decide) (by decide)
  · exact (bit_setFld_apart _ (by decide) (by decide)).trans (bit_setFld_apart _ (by decide) (by decide))

end

/-! ### Queues and names -/

theorem State.queue_setQ_same (s : State) (q : Nat) (v : Queue) : (s.setQ q v).queue q = v := Sparse.get_set_same _ s.queues q v

theorem State.queue_setQ_other (s : State) {k q : Nat} (v : Queue) (h : k ≠ q) : (s.setQ q v).queue k = s.queue k :=
  Sparse.get_set_other _ s.queues v h

section
variable {s : State} {l : List Src} {w : Word} {n : Nat}

theorem State.read_linstOf (s : State) (l : List Src) : (s.read l).linstOf s.cur = s.linstOf s.cur :=
  (congrArg (fun x : Core => match x.task with
    | some t => t.linst
    | none => 0) (State.read_me s l)).trans rfl

theorem State.read_qname (s : State) (l : List Src) (w : Word) : (s.read l).qname s.cur w = s.qname s.cur w := by
  unfold State.qname
  rw [State.read_linstOf]
  rfl

theorem State.read_id (s : State) (l : List Src) : (s.read l).id = s.me.q.nid := by
  show (s.read l).me.q.nid = _
  rw [State.read_me]
  rfl

theorem State.read_pc (s : State) (l : List Src) : (s.read l).pc = s.me.q.pcOf s.ctx := by
  show (s.read l).me.q.pcOf s.ctx = _
  rw [State.read_me]
  rfl

theorem State.read_owns (s : State) (l : List Src) (q : Nat) : (s.read l).owns q = s.owns q := by
  show (((s.read l).queue q).st != 0 && ((s.read l).queue q).owner == (s.read l).linstOf s.cur) = _
  rw [State.read_linstOf]
  rfl

/-- What a word that names no queue of its own does (R221, R223). -/
theorem queueTrap_read (s : State) (l : List Src) (a : Nat) : queueTrap (s.read l) ((s.read l).sc a) =
    trap (s.read l) 13 (match s.qname s.cur (s.sc a) with
      | some q => q
      | none => (s.sc a).toNat % 2 ^ 32) := by
  unfold queueTrap
  rw [State.read_cur, State.read_qname, State.sc_upd_touch] <;> rfl

end

/-! ### The marks of a pop's destinations -/

/-- Nothing differs but the marks of scalars and tokens. -/
def MarksOnly (x y : Core) : Prop := y = { x with r := { x.r with sm := y.r.sm, km := y.r.km } }

theorem MarksOnly.trans {x y z : Core} (h : MarksOnly x y) (h' : MarksOnly y z) : MarksOnly x z :=
  Eq.trans h' ((congrArg (fun c : Core => { c with r := { c.r with sm := z.r.sm, km := z.r.km } }) h).trans rfl)

theorem Core.markS_marksOnly (x : Core) (ctx d n : Nat) : MarksOnly x (x.markS ctx d n) ∧ (x.markS ctx d n).r.km = x.r.km := by
  unfold Core.markS
  split
  · exact ⟨rfl, rfl⟩
  · exact ⟨rfl, rfl⟩

theorem Core.markK_marksOnly (x : Core) (ctx k n : Nat) : MarksOnly x (x.markK ctx k n) ∧ (x.markK ctx k n).r.sm = x.r.sm := by
  unfold Core.markK
  split
  · exact ⟨rfl, rfl⟩
  · exact ⟨rfl, rfl⟩

theorem Core.kMarks_markK (x : Core) (ctx n : Nat) {k : Nat} (h : k ≠ 0) : (x.markK ctx k n).kMarks ctx k = x.kMarks ctx k ++ [n] := by
  simp [Core.kMarks, Core.markK, h]

theorem Core.kMarks_congr {x y : Core} (h : y.r.km = x.r.km) (ctx k : Nat) : y.kMarks ctx k = x.kMarks ctx k := by
  rw [Core.kMarks, h, Core.kMarks]

theorem Core.sMarks_congr {x y : Core} (h : y.r.sm = x.r.sm) (ctx r : Nat) : y.sMarks ctx r = x.sMarks ctx r := by
  rw [Core.sMarks, h, Core.sMarks]

/-- A producer that marks several scalars empty. -/
theorem Core.foldl_markS (ctx n : Nat) : ∀ (l : List Nat), l.Nodup → (∀ d ∈ l, d < 64) → ∀ (x : Core),
    (∀ r, r < 64 → r ≠ 0 → (l.foldl (fun y d => y.markS ctx d n) x).sMarks ctx r = x.sMarks ctx r ++ (if r ∈ l then [n] else [])) ∧
      MarksOnly x (l.foldl (fun y d => y.markS ctx d n) x) ∧ (l.foldl (fun y d => y.markS ctx d n) x).r.km = x.r.km
  | [], _, _, x => ⟨fun r _ _ => by simp, rfl, rfl⟩
  | d :: l, hnd, hl, x => by
    obtain ⟨hd, hnd⟩ := List.nodup_cons.1 hnd
    obtain ⟨hm, he, hk⟩ := Core.foldl_markS ctx n l hnd (fun e he => hl e (List.mem_cons_of_mem _ he)) (x.markS ctx d n)
    obtain ⟨hx, hxk⟩ := x.markS_marksOnly ctx d n
    refine ⟨fun r hr h0 => ?_, hx.trans he, hk.trans hxk⟩
    rw [List.foldl_cons, hm r hr h0, Core.sMarks_markS x ctx n (hl d (List.mem_cons_self ..)) hr]
    by_cases h : r = d
    · rw [if_pos ⟨rfl, h, h0⟩, if_neg (h ▸ hd), if_pos (h ▸ List.mem_cons_self ..), List.append_nil]
    · rw [if_neg fun e => h e.2.1]
      congr 1
      by_cases hr' : r ∈ l
      · rw [if_pos hr', if_pos (List.mem_cons_of_mem _ hr')]
      · rw [if_neg hr', if_neg fun e => (List.mem_cons.1 e).elim h hr']

theorem mem_run {r d n : Nat} : r ∈ run d n ↔ d ≤ r ∧ r < d + n := by
  unfold run
  rw [List.mem_map]
  constructor
  · rintro ⟨i, hi, rfl⟩
    exact ⟨Nat.le_add_right _ _, Nat.add_lt_add_left (List.mem_range.1 hi) d⟩
  · rintro ⟨h1, h2⟩
    exact ⟨r - d, List.mem_range.2 (by omega), by omega⟩

/-- The destinations of a pop, marked empty: eight scalars, a token, and a `qtry`'s status. -/
def Core.popMarks (x : Core) (ctx d k n : Nat) (st : Option Nat) : Core :=
  let y := ((run d 8).foldl (fun x r => x.markS ctx r n) x).markK ctx k n
  match st with
  | some r => y.markS ctx r n
  | none => y

/-- The marks it leaves. -/
theorem Core.popMarks_marks (x : Core) (ctx k n : Nat) {d : Nat} {st : Option Nat} (hd : d + 8 ≤ 64) (hst : ∀ r, st = some r → r < 64) :
    MarksOnly x (x.popMarks ctx d k n st) ∧
    (∀ r, r < 64 → r ≠ 0 → (x.popMarks ctx d k n st).sMarks ctx r = x.sMarks ctx r ++
      (if d ≤ r ∧ r < d + 8 then [n] else []) ++ (if st = some r then [n] else [])) ∧
    (k ≠ 0 → (x.popMarks ctx d k n st).kMarks ctx k = x.kMarks ctx k ++ [n]) := by
  obtain ⟨hm, hz, hzk⟩ := Core.foldl_markS ctx n (run d 8) (run_nodup d 8) (fun r hr => by have := (mem_run.1 hr).2; omega) x
  unfold Core.popMarks
  dsimp only
  generalize List.foldl (fun x r => x.markS ctx r n) x (run d 8) = z at hm hz hzk ⊢
  obtain ⟨hy, hys⟩ := z.markK_marksOnly ctx k n
  have hyk : k ≠ 0 → (z.markK ctx k n).kMarks ctx k = x.kMarks ctx k ++ [n] := fun h =>
    (Core.kMarks_markK z ctx n h).trans (by rw [Core.kMarks_congr hzk])
  have hrun : ∀ r, r < 64 → r ≠ 0 → (z.markK ctx k n).sMarks ctx r = x.sMarks ctx r ++ if d ≤ r ∧ r < d + 8 then [n] else [] := fun r hr h0 => by
    rw [Core.sMarks_congr hys, hm r hr h0]
    simp only [mem_run]
  generalize z.markK ctx k n = y at hy hys hyk hrun ⊢
  cases st with
  | none => exact ⟨hz.trans hy, fun r hr h0 => (hrun r hr h0).trans (List.append_nil _).symm, hyk⟩
  | some a =>
    obtain ⟨hw, hwk⟩ := y.markS_marksOnly ctx a n
    refine ⟨(hz.trans hy).trans hw, fun r hr h0 => ?_, fun h => (Core.kMarks_congr hwk ctx k).trans (hyk h)⟩
    refine (Core.sMarks_markS y ctx n (hst a rfl) hr).trans ?_
    rw [hrun r hr h0]
    by_cases h : r = a
    · rw [if_pos ⟨rfl, h, h0⟩, if_pos (congrArg some h.symm)]
    · rw [if_neg fun e => h e.2.1, if_neg fun e => h (Option.some.inj e).symm, List.append_nil]

/-! ### The words -/

section
variable {s : State} {i : Instr} {l : List Src} {o : AluR} {st : Option Nat} {op : QOp} {q : Nat}

/-- What becomes of a pop that names a queue of its pane. -/
theorem popWord_asks (hq : s.qname s.cur (s.sc o.a) = some q) (ho : s.owns q = true) (hl : q / 256 = s.cfg.paneOf s.cur) :
    popWord (s.read l) o st op = .next (((((s.read l).upd (fun x => x.popMarks s.ctx o.d o.c s.me.q.nid st)).request q
      { core := s.cur, ctx := s.ctx, id := s.me.q.nid, op := op, pc := s.me.q.pcOf s.ctx })).done 1) := by
  have hid := State.read_id s l
  have hpc := State.read_pc s l
  have hloc : (s.read l).local_ q = true := beq_iff_eq.2 hl
  unfold popWord
  rw [State.read_cur, State.sc_upd_touch, State.read_qname, hq]
  dsimp only
  rw [State.read_owns, ho, hloc, if_neg (by decide), hid, hpc]
  rfl

/-- And of one that does not. -/
theorem popWord_traps (h : s.qname s.cur (s.sc o.a) = none ∨
      (s.qname s.cur (s.sc o.a) = some q ∧ (s.owns q = false ∨ q / 256 ≠ s.cfg.paneOf s.cur))) :
    popWord (s.read l) o st op = queueTrap (s.read l) ((s.read l).sc o.a) := by
  have hname : (s.read l).qname (s.read l).cur ((s.read l).sc o.a) = s.qname s.cur (s.sc o.a) := by
    rw [State.read_cur, State.sc_upd_touch, State.read_qname]
  unfold popWord
  rw [hname]
  rcases h with h | ⟨h, h'⟩
  · rw [h]
  · rw [h]
    refine if_pos ?_
    rw [State.read_owns]
    exact h'.imp id fun e => beq_eq_false_iff_ne.2 e

end

/-! ### What `qinfo` shows (R235) -/

theorem Queue.onchip_count (q : Queue) : q.onchip = (recordsOf q).countP Option.isSome ∧
    q.items.length - q.onchip = (recordsOf q).countP Option.isNone := by
  have hon : q.onchip = (recordsOf q).countP Option.isSome := by
    unfold Queue.onchip recordsOf
    rw [← List.countP_eq_length_filter, List.countP_map]
    congr 1
    funext i
    cases i <;> rfl
  refine ⟨hon, ?_⟩
  have h := List.length_eq_countP_add_countP Option.isSome (l := recordsOf q)
  have hlen : (recordsOf q).length = q.items.length := List.length_map _
  have hnone : (recordsOf q).countP Option.isNone = (recordsOf q).countP (fun a => decide ¬a.isSome = true) := by
    congr 1
    funext a
    cases a <;> rfl
  rw [hon, hnone]
  omega

/-- A word of eight fields, each below its width, shows every one of them. -/
theorem info_fields {st occ pri spill depth on_ off_ n : Nat} (h1 : st < 4) (h2 : occ < 128) (h3 : pri < 4) (h4 : spill < 2) (h5 : depth < 64)
    (h6 : on_ < 64) (h7 : off_ < 16) (h8 : n < 2 ^ 30) :
    let v := (BitVec.ofNat 64 (st * 2 ^ 56 + occ * 2 ^ 49 + pri * 2 ^ 47 + spill * 2 ^ 46 + depth * 2 ^ 40 + on_ * 2 ^ 34 + off_ * 2 ^ 30 + n)).toNat
    v / 2 ^ 56 = st ∧ v / 2 ^ 47 % 4 = pri ∧ v / 2 ^ 46 % 2 = spill ∧ v / 2 ^ 40 % 64 = depth ∧ v / 2 ^ 34 % 64 = on_ ∧
      v / 2 ^ 30 % 16 = off_ ∧ v % 2 ^ 30 = n ∧ v / 2 ^ 49 % 128 = occ := by
  intro v
  have hv : v = st * 2 ^ 56 + occ * 2 ^ 49 + pri * 2 ^ 47 + spill * 2 ^ 46 + depth * 2 ^ 40 + on_ * 2 ^ 34 + off_ * 2 ^ 30 + n := by
    rw [show v = _ from BitVec.toNat_ofNat ..]
    exact Nat.mod_eq_of_lt (by omega)
  rw [hv]
  refine ⟨?_, ?_, ?_, ?_, ?_, ?_, ?_, ?_⟩ <;> omega

/-- The word `qinfo` returns for a bound queue. -/
theorem Queue.info_shows (q : Queue) (h0 : q.st ≠ 0) (h1 : q.st < 4) (h2 : q.pri < 4) (h3 : q.depth < 64) (h4 : q.items.length ≤ q.depth)
    (h5 : q.rmeta.length < 2 ^ 30) (h6 : (recordsOf q).countP Option.isNone < 16) : let v := q.info
    v.toNat / 2 ^ 56 = q.st ∧ v.toNat / 2 ^ 47 % 4 = q.pri ∧ v.getLsbD 46 = q.spill ∧ v.toNat / 2 ^ 40 % 64 = q.depth ∧
      v.toNat / 2 ^ 34 % 64 = (recordsOf q).countP Option.isSome ∧
      v.toNat / 2 ^ 30 % 16 = (recordsOf q).countP Option.isNone ∧ v.toNat % 2 ^ 30 = q.rmeta.length ∧
      v.toNat / 2 ^ 49 % 128 = if q.rmeta = [] then 64 * q.items.length / max q.depth 1 else 64 := by
  obtain ⟨hon, hoff⟩ := q.onchip_count
  have hocc : q.occ = if q.rmeta = [] then 64 * q.items.length / max q.depth 1 else 64 := ite_not ..
  have hle : 64 * q.items.length / max q.depth 1 ≤ 64 := Nat.div_le_of_le_mul (by rw [Nat.mul_comm]; exact Nat.mul_le_mul_right _ (le_max_of_le_left h4))
  have hocc' : q.occ < 128 := by rw [hocc]; split <;> omega
  have hmax : (recordsOf q).countP Option.isSome < 64 := by
    have h := List.countP_le_length (p := Option.isSome) (l := recordsOf q)
    rw [show (recordsOf q).length = q.items.length from List.length_map _] at h
    omega
  obtain ⟨a, b, c, d, e, f, g, i⟩ := info_fields h1 hocc' h2 (Bool.toNat_lt q.spill) h3 hmax h6 h5
  have hv : q.info = BitVec.ofNat 64 (q.st * 2 ^ 56 + q.occ * 2 ^ 49 + q.pri * 2 ^ 47 + q.spill.toNat * 2 ^ 46 + q.depth * 2 ^ 40 +
      (recordsOf q).countP Option.isSome * 2 ^ 34 + (recordsOf q).countP Option.isNone * 2 ^ 30 + q.rmeta.length) := by
    rw [← hoff, ← hon]
    exact if_neg h0
  intro v
  rw [show v = _ from hv]
  refine ⟨a, b, ?_, d, e, f, g, i.trans hocc⟩
  rw [← BitVec.testBit_toNat, Nat.testBit_eq_decide_div_mod_eq, c]
  cases q.spill <;> rfl

/-! ### Execution -/

section
variable {s : State} {o : AluR} {qn : Nat}

/-- The sources of a `qpush`. -/
def qpushSrcs (o : AluR) : List Src := [.s o.a o.fea] ++ ([0, 1, 4, 5, 6, 7].map (fun i => Src.s (o.b + i) o.feb)) ++ [.k o.c false]

/-- The sources of a `qbind`. -/
def qbindSrcs (o : AluR) : List Src := [.s o.a o.fea, .s o.b o.feb, .k o.c false]

/-- The record a `qpush` builds from its registers, before it is stamped. -/
def State.builds (s : State) (o : AluR) : Rec :=
  { w0 := s.sc o.b, w1 := s.sc (o.b + 1), w2 := (s.tk o.c).word, w3 := BitVec.ofNat 64 ((s.tk o.c).base + (s.tk o.c).len * 2 ^ 32)
    w4 := s.sc (o.b + 4), w5 := s.sc (o.b + 5), w6 := s.sc (o.b + 6), w7 := s.sc (o.b + 7) }

theorem State.read_builds (s : State) (l : List Src) (o : AluR) : (s.read l).builds o = s.builds o := by
  unfold State.builds
  simp only [State.sc_upd_touch, State.tk_upd_touch]

theorem exec_qpush_pushes (hm : MayIssue (.qpush o) (qpushSrcs o) s) (hq : s.qname s.cur (s.sc o.a) = some qn) (h0 : (s.sc o.b).toNat < 2 ^ 60)
    (ho : s.owns qn = true) (hp : s.me.partner = none) : exec (.qpush o) s = .next (((s.read (qpushSrcs o)).holds (.queue s.me.q.nid)).request qn
      { core := s.cur, ctx := s.ctx, id := s.me.q.nid, op := .push ((s.builds o).stamp (s.queue qn) (s.linstOf s.cur)) false
        pc := s.me.q.pcOf s.ctx }) := by
  let u := s.read (qpushSrcs o)
  have hid : u.id = s.me.q.nid := State.read_id s _
  have hpc : u.pc = s.me.q.pcOf s.ctx := State.read_pc s _
  have hpart : ((u.holds (.queue s.me.q.nid)).core s.cur).partner = none := by
    rw [State.holds_core]; exact hp
  calc exec (.qpush o) s = execQpush o s := rfl
    _ = (match u.qname s.cur (u.sc o.a) with
      | none => queueTrap u (u.sc o.a)
      | some q => if (u.sc (o.b + 0)).toNat / 2 ^ 60 ≠ 0 ∨ u.owns q = false then queueTrap u (u.sc o.a)
        else .next ((u.holds (.queue u.id)).pushOf q
          { core := s.cur, ctx := s.ctx, id := u.id, op := .push ((u.builds o).stamp (u.queue q) (u.linstOf s.cur)) false, pc := u.pc })) :=
      issue_ready hm _
    _ = _ := by
      rw [State.sc_upd_touch, State.read_qname, hq]
      dsimp only
      rw [State.sc_upd_touch, State.read_owns, if_neg (by rw [ho, Nat.add_zero, Nat.div_eq_of_lt h0]; decide), State.read_builds, State.read_linstOf, hid, hpc]
      unfold State.pushOf
      rw [hpart]
      rfl

theorem exec_qpush_traps (hm : MayIssue (.qpush o) (qpushSrcs o) s)
    (h : s.qname s.cur (s.sc o.a) = none ∨ 2 ^ 60 ≤ (s.sc o.b).toNat ∨ (s.qname s.cur (s.sc o.a) = some qn ∧ s.owns qn = false)) :
    exec (.qpush o) s = queueTrap (s.read (qpushSrcs o)) ((s.read (qpushSrcs o)).sc o.a) := by
  let u := s.read (qpushSrcs o)
  have hname : u.qname s.cur (u.sc o.a) = s.qname s.cur (s.sc o.a) := by rw [State.sc_upd_touch, State.read_qname]
  calc exec (.qpush o) s = execQpush o s := rfl
    _ = (match u.qname s.cur (u.sc o.a) with
      | none => queueTrap u (u.sc o.a)
      | some q => if (u.sc (o.b + 0)).toNat / 2 ^ 60 ≠ 0 ∨ u.owns q = false then queueTrap u (u.sc o.a)
        else .next ((u.holds (.queue u.id)).pushOf q
          { core := s.cur, ctx := s.ctx, id := u.id, op := .push ((u.builds o).stamp (u.queue q) (u.linstOf s.cur)) false, pc := u.pc })) :=
      issue_ready hm _
    _ = _ := by
      rw [hname]
      cases hq : s.qname s.cur (s.sc o.a) with
      | none => rfl
      | some q =>
        refine if_pos ?_
        rw [State.sc_upd_touch, State.read_owns, Nat.add_zero]
        rcases h with h | h | ⟨h, ho⟩
        · exact absurd (hq.symm.trans h) (Option.some_ne_none q)
        · exact .inl (Nat.pos_iff_ne_zero.1 (Nat.div_pos h (Nat.two_pow_pos _)))
        · rw [hq] at h
          exact .inr ((Option.some.inj h) ▸ ho)

/-- What a `qbind` leaves. -/
def State.bound (s : State) (o : AluR) (qn : Nat) (ring : Token) : State :=
  ((s.read (qbindSrcs o)).setQ qn { s.queue qn with
    spill := bit (s.sc o.b).toNat 6, depth := fld (s.sc o.b).toNat 0 6, pri := fld (s.sc o.b).toNat 7 2, ring := ring, rhead := 0 }).done 1

/-- What a `qbind` asks of its queue and of its configuration (R236). -/
def State.bindable (s : State) (o : AluR) (qn : Nat) : Prop :=
  qn / 256 = s.cfg.paneOf s.cur ∧ s.owns qn = true ∧ (s.queue qn).st = 1 ∧ (s.queue qn).items = [] ∧ (s.queue qn).rmeta = [] ∧
    (s.queue qn).stalled = [] ∧ (s.sc o.b).toNat < 2 ^ 9 ∧ 1 ≤ (s.sc o.b).toNat % 64 ∧ (s.sc o.b).toNat % 64 ≤ 32

theorem exec_qbind_ready (hm : MayIssue (.qbind o) (qbindSrcs o) s) (hq : s.qname s.cur (s.sc o.a) = some qn) :
    let u := s.read (qbindSrcs o)
    let no := queueTrap u (s.sc o.a)
    (¬s.bindable o qn → exec (.qbind o) s = no) ∧
    (s.bindable o qn → exec (.qbind o) s =
      if bit (s.sc o.b).toNat 6 = true then (match u.ringTok (s.tk o.c) with
        | .wait => stall u
        | .bad => no
        | .ok t => .next (s.bound o qn t))
      else if o.c ≠ 0 then no else .next (s.bound o qn {})) := by
  intro u no
  let q := s.queue qn
  let cfg := (s.sc o.b).toNat
  have he : exec (.qbind o) s = if u.owns qn = false ∨ u.local_ qn = false ∨ q.st ≠ 1 ∨ q.items ≠ [] ∨ q.rmeta ≠ [] ∨ q.stalled ≠ [] ∨
        2 ^ 9 ≤ cfg ∨ fld cfg 0 6 = 0 ∨ 32 < fld cfg 0 6 then no
      else if bit cfg 6 = true then (match u.ringTok (s.tk o.c) with
        | .wait => stall u
        | .bad => no
        | .ok t => .next (s.bound o qn t))
      else if o.c ≠ 0 then no else .next (s.bound o qn {}) := by
    refine (show exec (.qbind o) s = execQbind o s from rfl).trans ((issue_ready hm _).trans ?_)
    dsimp only
    rw [State.read_cur, State.sc_upd_touch, State.read_qname, hq, State.sc_upd_touch, State.tk_upd_touch]
    dsimp only
    rfl
  have hf : fld cfg 0 6 = cfg % 64 := congrArg (· % 64) (Nat.div_one cfg)
  have hloc : u.local_ qn = false ↔ qn / 256 ≠ s.cfg.paneOf s.cur := beq_eq_false_iff_ne
  have hcond : (u.owns qn = false ∨ u.local_ qn = false ∨ q.st ≠ 1 ∨ q.items ≠ [] ∨ q.rmeta ≠ [] ∨ q.stalled ≠ [] ∨
      2 ^ 9 ≤ cfg ∨ fld cfg 0 6 = 0 ∨ 32 < fld cfg 0 6) ↔ ¬s.bindable o qn := by
    have hown : u.owns qn = false ↔ ¬s.owns qn = true := by rw [State.read_owns, Bool.not_eq_true]
    rw [hown, hloc, hf]
    unfold State.bindable
    rw [← Nat.not_lt, ← Nat.not_le (b := 32), ← Nat.lt_one_iff, ← Nat.not_le (a := 1)]
    tauto
  exact ⟨fun h => he.trans (if_pos (hcond.2 h)), fun h => he.trans (if_neg fun e => hcond.1 e h)⟩

theorem State.ringTok_of_live {s : State} {t : Token} (h0 : t.entry ≠ 0) (hst : (s.ent t.entry).st = .live) : s.ringTok t =
    if (s.ent t.entry).gen = t.gen ∧ 1 ≤ t.len ∧ t.len < 2 ^ 30 ∧ t.rights &&& 0xC#4 = 0xC#4 then .ok t else .bad := by
  unfold State.ringTok
  rw [State.judge_live h0 hst]
  by_cases hg : (s.ent t.entry).gen = t.gen
  · rw [if_pos hg]
    dsimp only
    by_cases h : 1 ≤ t.len ∧ t.len < 2 ^ 30 ∧ t.rights &&& 0xC#4 = 0xC#4
    · refine (if_neg ?_).trans (if_pos ⟨hg, h⟩).symm
      rintro (e | e | e | e)
      · exact h0 e
      · omega
      · omega
      · exact e h.2.2
    · refine (if_pos ?_).trans (if_neg fun e => h e.2).symm
      by_contra hc
      rw [not_or, not_or, not_or] at hc
      exact h ⟨Nat.pos_of_ne_zero hc.2.1, Nat.lt_of_not_le hc.2.2.1, not_not.1 hc.2.2.2⟩
  · rw [if_neg hg, if_neg fun e => hg e.1]

theorem State.ringTok_of_null {s : State} {t : Token} (h0 : t.entry = 0) : s.ringTok t = .bad := by
  unfold State.ringTok State.judge
  rw [if_pos h0]
  exact if_pos (.inl h0)

end

end Sys2Proof.Machine

namespace Sys2Proof

open Machine

theorem State.bound_binds (s : State) (o : AluR) (qn : Nat) (ring : Token) : let u := s.bound o qn ring
    u = { s with cores := u.cores, queues := u.queues } ∧ RegistersKept s u ∧ Passes s u 1 ∧
      u.queue qn = { s.queue qn with spill := (s.sc o.b).getLsbD 6, depth := (s.sc o.b).toNat % 64, pri := (s.sc o.b).toNat / 2 ^ 7 % 4, ring := ring, rhead := 0 } ∧
      ∀ k, k ≠ qn → u.queue k = s.queue k := by
  intro u
  let b : Queue := { s.queue qn with
    spill := bit (s.sc o.b).toNat 6, depth := fld (s.sc o.b).toNat 0 6, pri := fld (s.sc o.b).toNat 7 2, ring := ring, rhead := 0 }
  let v := (s.read (qbindSrcs o)).setQ qn b
  have hv : v.core s.cur = s.me.touch s.ctx (qbindSrcs o) := State.read_me s _
  refine ⟨rfl, RegistersKept.upd (u := v) (RegistersKept.read s _) _ fun _ => rfl,
    State.done_passes (u := v) rfl rfl Nat.one_pos (by rw [hv]; rfl) (by rw [hv]; rfl) (by rw [hv]; rfl), ?_,
    fun k hk => State.queue_setQ_other (s.read (qbindSrcs o)) b hk⟩
  refine (State.queue_setQ_same (s.read (qbindSrcs o)) qn b).trans ?_
  rw [← BitVec.testBit_toNat, ← bit_eq_testBit]
  have hf : fld (s.sc o.b).toNat 0 6 = (s.sc o.b).toNat % 64 := congrArg (· % 64) (Nat.div_one _)
  show ({ s.queue qn with
    spill := bit (s.sc o.b).toNat 6, depth := fld (s.sc o.b).toNat 0 6, pri := fld (s.sc o.b).toNat 7 2, ring := ring, rhead := 0 } : Queue) = _
  rw [hf]
  rfl

/-- A word whose execution is a QUEUE trap traps QUEUE (R221, R223). -/
theorem queueTraps_of {i : Instr} {l : List Src} {s : State} {a : Nat}
    (h : MayIssue i l s → exec i s = queueTrap (s.read l) ((s.read l).sc a)) : QueueTraps i l s (s.sc a) :=
  trap_trapped fun hm => (h hm).trans (queueTrap_read s l a)

/-- What a pop leaves as its request goes to its queue (R227, R233, R234). -/
def PopAsks (s : State) (o : AluR) (st : Option Nat) (op : QOp) (qn : Nat) (u : State) : Prop :=
  let clk := s.now + s.cfg.queueTrip (s.cfg.paneOf s.cur) (qn / 256)
  let rq : QReq := { core := s.cur, ctx := s.ctx, id := s.me.q.nid, op := op, clk := clk, pc := s.me.q.pcOf s.ctx }
  Passes s u 1 ∧ u.queue qn = { s.queue qn with arrive := (s.queue qn).arrive ++ [rq] } ∧
    (∀ k, k ≠ qn → u.queue k = s.queue k) ∧ u = { s with cores := u.cores, queues := u.queues } ∧
    (∀ c, c ≠ s.cur → u.core c = s.core c) ∧
    (u.core s.cur).r = { s.me.r with sm := (u.core s.cur).r.sm, km := (u.core s.cur).r.km } ∧
    (∀ r, r < 64 → r ≠ 0 → (u.core s.cur).sMarks s.ctx r = s.me.sMarks s.ctx r ++
      (if o.d ≤ r ∧ r < o.d + 8 then [s.me.q.nid] else []) ++ (if st = some r then [s.me.q.nid] else [])) ∧
    (o.c ≠ 0 → (u.core s.cur).kMarks s.ctx o.c = s.me.kMarks s.ctx o.c ++ [s.me.q.nid])

theorem State.read_upd_rest (s : State) (l : List Src) (f : Core → Core) : (s.read l).upd f = { s with cores := ((s.read l).upd f).cores } := rfl

theorem State.request_rest (v : State) (q : Nat) (r : QReq) : v.request q r = { v with queues := (v.request q r).queues } := rfl

/-- A word that has requested of a queue goes on, and cores and queues alone differ. -/
theorem State.done_rest {s v : State} (w : State) (hw : w = { v with queues := w.queues }) (hv : v = { s with cores := v.cores }) :
    w.done 1 = { s with cores := (w.done 1).cores, queues := (w.done 1).queues } := by
  have hd : w.done 1 = { w with cores := (w.done 1).cores } := rfl
  have hq : (w.done 1).queues = w.queues := rfl
  calc w.done 1 = { w with cores := (w.done 1).cores } := hd
    _ = { v with cores := (w.done 1).cores, queues := w.queues } := congrArg (fun a : State => { a with cores := (w.done 1).cores }) hw
    _ = { s with cores := (w.done 1).cores, queues := w.queues } :=
      congrArg (fun a : State => { a with cores := (w.done 1).cores, queues := w.queues }) hv
    _ = _ := by rw [hq]

/-- A request of the running core, which has marked destinations as `f` does. -/
theorem popAsks_of (s : State) (o : AluR) (st : Option Nat) (op : QOp) (qn : Nat) (l : List Src) (f : Core → Core) {y : Core}
    (hf : f (s.me.touch s.ctx l) = y) (hy : MarksOnly (s.me.touch s.ctx l) y)
    (hs : ∀ r, r < 64 → r ≠ 0 → y.sMarks s.ctx r = s.me.sMarks s.ctx r ++
      (if o.d ≤ r ∧ r < o.d + 8 then [s.me.q.nid] else []) ++ (if st = some r then [s.me.q.nid] else []))
    (hk : o.c ≠ 0 → y.kMarks s.ctx o.c = s.me.kMarks s.ctx o.c ++ [s.me.q.nid]) : PopAsks s o st op qn ((((s.read l).upd f).request qn
      { core := s.cur, ctx := s.ctx, id := s.me.q.nid, op := op, pc := s.me.q.pcOf s.ctx }).done 1) := by
  let v := (s.read l).upd f
  let rq : QReq := { core := s.cur, ctx := s.ctx, id := s.me.q.nid, op := op, pc := s.me.q.pcOf s.ctx }
  let w := v.request qn rq
  have hw : w.core s.cur = y := (State.read_upd_core s l f).trans hf
  have hyq : y.q = s.me.q := (congrArg Core.q hy).trans rfl
  have hcore : (w.done 1).core s.cur = y.next s.ctx 1 := (State.done_core (s := s) (u := w) rfl rfl).trans (congrArg (fun x : Core => x.next s.ctx 1) hw)
  refine ⟨State.done_passes (u := w) rfl rfl Nat.one_pos (by rw [hw, hyq]) (by rw [hw, hyq]) (by rw [hw, hyq]),
    ?_, fun k hk => ?_, ?_, fun c hc => ?_, ?_, fun r hr h0 => ?_, fun h => ?_⟩
  · exact State.queue_setQ_same v qn _
  · exact State.queue_setQ_other v _ hk
  · exact State.done_rest w
      (State.request_rest v qn rq) (State.read_upd_rest s l f)
  · exact (State.done_core_other (s := s) (u := w) rfl hc).trans ((State.core_upd_other (s.read l) _ hc).trans
      (State.core_upd_other s (fun x => x.touch s.ctx l) hc))
  · rw [hcore]
    exact (congrArg Core.r hy).trans rfl
  · rw [hcore]
    exact hs r hr h0
  · rw [hcore]
    exact hk h

theorem popAsks_request (s : State) (o : AluR) (st : Option Nat) (op : QOp) (qn : Nat) (l : List Src) (hd : o.d + 8 ≤ 64)
    (hst : ∀ r, st = some r → r < 64) : PopAsks s o st op qn ((((s.read l).upd (fun x => x.popMarks s.ctx o.d o.c s.me.q.nid st)).request qn
      { core := s.cur, ctx := s.ctx, id := s.me.q.nid, op := op, pc := s.me.q.pcOf s.ctx }).done 1) := by
  obtain ⟨hy, hs, hk⟩ := (s.me.touch s.ctx l).popMarks_marks s.ctx o.c s.me.q.nid hd hst
  exact popAsks_of s o st op qn l _ rfl hy hs hk

/-- Settles O32: each queue word by its guards; a stamp field by field; the word of `qinfo` by the widths of its fields. -/
theorem queueWords : Obligations.QueueWords := by
  unfold Obligations.QueueWords
  intro s o qn w g t n pc q reaches pushSrcs asks
  have hasks : ∀ {i : Instr} {st : Option Nat} {op : QOp}, (i.wf = true → o.d + 8 ≤ 64 ∧ ∀ r, st = some r → r < 64) →
      (exec i s = issue i s [.s o.a o.fea] (fun s => popWord s o st op)) → s.qname s.cur w = some qn → s.owns qn = true →
      qn / 256 = s.cfg.paneOf s.cur → asks i st op := fun {i st op} hd hx hq ho hl hw hm => by
    refine ⟨_, hx.trans ((issue_ready hm _).trans (popWord_asks hq ho hl)), ?_⟩
    have h := popAsks_request s o st op qn [.s o.a o.fea] (hd hw).1 (hd hw).2
    have hr : reaches = s.now + s.cfg.queueTrip (s.cfg.paneOf s.cur) (qn / 256) := by
      show s.now + _ = s.now + (if _ then _ else _)
      simp only [eq_comm]
    rw [hr]
    exact h
  have hpop : (Instr.qpop o).wf = true → o.d + 8 ≤ 64 ∧ ∀ r, (none : Option Nat) = some r → r < 64 := fun hw => by
    have hc := Instr.check_of_wf hw
    rw [Instr.check, firstFail_cons, Bool.and_eq_true, beq_iff_eq] at hc
    have := dest_of_roles hc.2
    exact ⟨by omega, fun r e => nomatch e⟩
  have htry : (Instr.qtry o).wf = true → o.d + 8 ≤ 64 ∧ ∀ r, some o.b = some r → r < 64 := fun hw => by
    have hc := Instr.check_of_wf hw
    rw [Instr.check, firstFail_cons, Bool.and_eq_true, beq_iff_eq] at hc
    have hd := dest_of_roles hc.2
    have hb : o.b < 64 := by
      have h := hc.2
      simp only [AluR.roles, firstFail_cons, Bool.and_eq_true] at h
      obtain ⟨⟨⟨-, hb⟩, -⟩, -⟩ := h
      simpa [isS] using hb
    exact ⟨by omega, fun r e => Option.some.inj e ▸ hb⟩
  refine ⟨fun hq hp h0 ho _ hm => ?_, fun h => queueTraps_of fun hm => exec_qpush_traps hm h,
    fun hq ho hl => ⟨hasks hpop rfl hq ho hl, hasks htry rfl hq ho hl⟩, fun h => ⟨?_, ?_⟩, fun hq hw hm => ?_, fun hq => queueTraps_of fun hm => ?_, ?_⟩
  · let u := (s.read (qpushSrcs o)).holds (.queue n)
    let r := (s.builds o).stamp (s.queue qn) (s.linstOf s.cur)
    let rq : QReq := { core := s.cur, ctx := s.ctx, id := n, op := .push r false, pc := pc }
    have hr : reaches = s.now + s.cfg.queueTrip (s.cfg.paneOf s.cur) (qn / 256) := by
      show s.now + _ = s.now + (if _ then _ else _)
      simp only [eq_comm]
    refine ⟨_, exec_qpush_pushes hm hq h0 ho hp, r, ?_, fun k hk => State.queue_setQ_other u _ hk, rfl, ?_, ?_, ?_, rfl, rfl, rfl, rfl, rfl, rfl,
      Rec.stamp_w7 .., Rec.stamp_linst .., Rec.stamp_pri .., ?_, ?_, Rec.stamp_redundant .., Rec.stamp_stage ..⟩
    · rw [hr]
      exact State.queue_setQ_same u qn _
    · exact RegistersKept.upd (RegistersKept.read s (qpushSrcs o)) (fun x => x.heldBy s.now s.ctx (.queue n)) fun _ => rfl
    · have hc : u.core s.cur = _ := State.holds_core s (qpushSrcs o) (.queue n)
      show (u.core s.cur).q.pcOf s.ctx = _
      rw [hc]
      exact (Core.heldBy_goes _ _ _ _).1
    · have hc : u.core s.cur = _ := State.holds_core s (qpushSrcs o) (.queue n)
      show (u.core s.cur).q.holdOf s.ctx = _
      rw [hc]
      exact Core.heldBy_hold _ _ _ _
    · exact (Rec.stamp_low (s.builds o) _ _ (by decide)).trans (congrArg (· % 2 ^ 32) (Nat.div_one _))
    · exact Rec.stamp_low (s.builds o) _ _ (by decide)
  · exact queueTraps_of fun hm => (show exec (.qpop o) s = execQpop o s from rfl).trans ((issue_ready hm _).trans (popWord_traps h))
  · exact queueTraps_of fun hm => (show exec (.qtry o) s = execQtry o s from rfl).trans ((issue_ready hm _).trans (popWord_traps h))
  · have hd : o.d < 64 := by
      have hc := Instr.check_of_wf hw
      rw [Instr.check] at hc
      exact dest_of_roles hc
    have he : exec (.qinfo o) s = .next ((s.read [.s o.a o.fea]).ret o.d 1 (s.queue qn).info) := by
      refine (show exec (.qinfo o) s = execQinfo o s from rfl).trans ((issue_ready hm _).trans ?_)
      rw [State.read_cur, State.sc_upd_touch, State.read_qname, hq]
      rfl
    have hr := State.ret_writes s [.s o.a o.fea] (s.queue qn).info hd Nat.one_pos
    exact ⟨_, _, he, ⟨fun h0 => if_pos h0, fun h0 h1 h2 h3 h4 h5 h6 => Queue.info_shows _ h0 h1 h2 h3 h4 h5 h6⟩, hr.1, hr.2⟩
  · refine (show exec (.qinfo o) s = execQinfo o s from rfl).trans ((issue_ready hm _).trans ?_)
    rw [State.read_cur, State.sc_upd_touch, State.read_qname, hq]
  · intro cfg fits binds hq
    have hfits : fits ↔ s.bindable o qn := Iff.rfl
    have hspill : bit (s.sc o.b).toNat 6 = (s.sc o.b).getLsbD 6 := (bit_eq_testBit _ _).trans (BitVec.testBit_toNat _)
    have hbinds : ∀ {ring : Token}, (MayIssue (.qbind o) (qbindSrcs o) s → exec (.qbind o) s = .next (s.bound o qn ring)) → binds ring :=
      fun {ring} he _ hm => ⟨_, he hm, State.bound_binds s o qn ring⟩
    have htraps : (MayIssue (.qbind o) (qbindSrcs o) s → exec (.qbind o) s = queueTrap (s.read (qbindSrcs o)) (s.sc o.a)) →
        QueueTraps (.qbind o) (qbindSrcs o) s w := fun he =>
      queueTraps_of fun hm => (he hm).trans (congrArg (queueTrap _) (State.sc_upd_touch s (qbindSrcs o) o.a).symm)
    refine ⟨fun hf hs hc => hbinds fun hm => ?_, fun hf hs hc => htraps fun hm => ?_, fun hf hs h0 hl hg h1 h2 hr => hbinds fun hm => ?_,
      fun hf hs hbad => htraps fun hm => ?_, fun hf => htraps fun hm => (exec_qbind_ready hm hq).1 fun h => hf (hfits.2 h)⟩
    · refine ((exec_qbind_ready hm hq).2 (hfits.1 hf)).trans ?_
      rw [hspill, hs, if_neg Bool.false_ne_true, if_neg (not_not.2 hc)]
    · refine ((exec_qbind_ready hm hq).2 (hfits.1 hf)).trans ?_
      rw [hspill, hs, if_neg Bool.false_ne_true, if_pos hc]
    · refine ((exec_qbind_ready hm hq).2 (hfits.1 hf)).trans ?_
      rw [hspill, hs, if_pos rfl]
      have hring : (s.read (qbindSrcs o)).ringTok t = .ok t := (State.ringTok_of_live (s := s.read (qbindSrcs o)) h0 hl).trans (if_pos ⟨hg, h1, h2, hr⟩)
      rw [hring]
    · refine ((exec_qbind_ready hm hq).2 (hfits.1 hf)).trans ?_
      rw [hspill, hs, if_pos rfl]
      have hring : (s.read (qbindSrcs o)).ringTok t = .bad := by
        by_cases h0 : t.entry = 0
        · exact State.ringTok_of_null h0
        · obtain ⟨hl, hb⟩ := hbad.resolve_left h0
          refine (State.ringTok_of_live (s := s.read (qbindSrcs o)) h0 hl).trans (if_neg ?_)
          rintro ⟨hg, h1, h2, hr⟩
          rcases hb with h | h | h | h
          · exact h hg
          · omega
          · omega
          · exact h hr
      rw [hring]

end Sys2Proof

end

section
set_option Elab.async false

/-! SUPPORT. The translation of an extent: its issue, the end of its walk, and the entry it takes (R199, R207). O25. -/

namespace Sys2Proof.Machine

/-! ### What finding bad data and reporting it leave alone -/

/-- Nothing differs but the wear, the errors and the log. -/
def WearOnly (s t : State) : Prop := t = { s with w := t.w }

theorem WearOnly.refl (s : State) : WearOnly s s := rfl

theorem WearOnly.trans {s t u : State} (h : WearOnly s t) (h' : WearOnly t u) : WearOnly s u :=
  Eq.trans h' ((congrArg (fun a : State => { a with w := u.w }) h).trans rfl)

theorem State.find_wear (s : State) (pa : Nat) : WearOnly s (s.find pa).1 := by
  unfold State.find
  dsimp only
  repeat' split
  all_goals rfl

theorem State.findAll_wear : ∀ (l : List Nat) (s : State), WearOnly s (s.findAll l).1
  | [], s => WearOnly.refl s
  | pa :: rest, s => by
    have h := s.find_wear pa
    unfold State.findAll
    split
    · next t e hf => rw [hf] at h; exact h
    · next t hf => rw [hf] at h; exact h.trans (State.findAll_wear rest t)

theorem State.noteUnit_wear (s : State) (u : Nat) : WearOnly s (s.noteUnit u) := by
  unfold State.noteUnit
  dsimp only
  repeat' split
  all_goals rfl

/-- Words that are discarded withdraw their marks of vector registers; no other register differs. -/
theorem Core.discards_regs (q : Nat) (l : List VEntry) (x : Core) :
    (l.foldl (fun x e => x.discard q e.cap) x).r = { x.r with vm := (l.foldl (fun x e => x.discard q e.cap) x).r.vm } := by
  induction l generalizing x with
  | nil => rfl
  | cons e l ih =>
    rw [List.foldl_cons]
    exact (ih (x.discard q e.cap)).trans rfl

theorem Core.discardIf_regs (x : Core) (p : VCap → Bool) : (x.discardIf p).r = { x.r with vm := (x.discardIf p).r.vm } := by
  unfold Core.discardIf
  simp only [List.foldl_cons, List.foldl_nil]
  generalize hy : List.foldl (fun (x : Core) (e : VEntry) => x.discard 0 e.cap) x _ = y
  generalize hz : List.foldl (fun (x : Core) (e : VEntry) => x.discard 1 e.cap) y _ = z
  have h1 : y.r = { x.r with vm := y.r.vm } := hy ▸ Core.discards_regs 0 _ x
  have h2 : z.r = { y.r with vm := z.r.vm } := hz ▸ Core.discards_regs 1 _ y
  have h3 := Core.discards_regs 2 ((z.v.queue 2).filter (fun e => p e.cap)) z
  rw [h3, h2, h1]

/-- The core after a containment event of a C-word (R339). -/
theorem State.contain_core (s : State) (c ctx kind source unit idx clk q : Nat) :
    ∃ l : Late, (l.cause = causeContain ∧ l.cont = true ∧ l.clk = clk) ∧ l.arr = s.now ∧
      ∃ y : Core, (y = s.core c ∨ y = (s.core c).discardIf (fun e => decide (clk < e.id))) ∧
        (s.contain c ctx kind source unit idx clk false q).core c = y.late l := by
  have hw : WearOnly s ((s.logEvent 2 (unit * 2 ^ 16 + source * 2 ^ 8 + kind)).noteUnit unit) :=
    WearOnly.trans (t := s.logEvent 2 (unit * 2 ^ 16 + source * 2 ^ 8 + kind)) rfl (State.noteUnit_wear _ _)
  have hc : ∀ d, ((s.logEvent 2 (unit * 2 ^ 16 + source * 2 ^ 8 + kind)).noteUnit unit).core d = s.core d := fun d => by
    rw [show ((s.logEvent 2 (unit * 2 ^ 16 + source * 2 ^ 8 + kind)).noteUnit unit) = _ from hw]; rfl
  unfold State.contain
  dsimp only
  rw [State.core_mod_same, hc]
  refine ⟨_, ⟨rfl, rfl, rfl⟩, rfl, _, ?_, rfl⟩
  split
  · exact .inr rfl
  · exact .inl rfl

theorem State.contain_rest (s : State) (c ctx kind source unit idx clk : Nat) (vec : Bool) (q : Nat) :
    (s.contain c ctx kind source unit idx clk vec q).pontil = s.pontil := by
  have hw := State.noteUnit_wear (s.logEvent 2 (unit * 2 ^ 16 + source * 2 ^ 8 + kind)) unit
  exact (congrArg State.pontil hw).trans rfl

/-! ### Tokens filled and dropped -/

section
variable (x : Core) (ctx d id : Nat) (t : Token)

theorem Core.rdK_fillK_same : (x.fillK ctx d id t).rdK ctx d = if d = 0 then {} else t := by
  by_cases h : d = 0
  · simp [Core.rdK, h]
  · simp [Core.fillK, Core.dropK, Core.rdK, h]

theorem Core.not_mem_fillK : id ∉ (x.fillK ctx d id t).kMarks ctx d := by
  by_cases h : d = 0
  · simp [Core.kMarks, h]
  · simp [Core.fillK, Core.dropK, Core.kMarks, h]

theorem Core.not_mem_dropK : id ∉ (x.dropK ctx d id).kMarks ctx d := by
  by_cases h : d = 0
  · simp [Core.kMarks, h]
  · simp [Core.dropK, Core.kMarks, h]

theorem Core.dropK_regs : (x.dropK ctx d id).r = { x.r with km := (x.dropK ctx d id).r.km } := by
  unfold Core.dropK; split <;> rfl

theorem Core.dropS_regs : (x.dropS ctx d id).r = { x.r with sm := (x.dropS ctx d id).r.sm } := by
  unfold Core.dropS; split <;> rfl

theorem Core.fillS_k (v : Word) : (x.fillS ctx d id v).r.k = x.r.k ∧ (x.fillS ctx d id v).r.km = x.r.km := by
  unfold Core.fillS Core.dropS
  split
  · exact ⟨rfl, rfl⟩
  · exact ⟨rfl, rfl⟩

end

theorem Core.rdK_congr {x y : Core} (h : y.r.k = x.r.k) (ctx r : Nat) : y.rdK ctx r = x.rdK ctx r := by
  rw [Core.rdK, h, Core.rdK]

theorem Core.rdS_congr {x y : Core} (h : y.r.s = x.r.s) (ctx r : Nat) : y.rdS ctx r = x.rdS ctx r := by
  rw [Core.rdS, h, Core.rdS]

theorem Core.passedBy_regs (x : Core) (now ctx : Nat) : (x.passedBy now ctx).r = x.r ∧ (x.passedBy now ctx).q.late = x.q.late ∧
    (x.passedBy now ctx).q.tookAt = x.q.tookAt := by
  unfold Core.passedBy
  split
  · unfold Core.passed Core.seq
    dsimp only
    split <;> exact ⟨rfl, rfl, rfl⟩
  · exact ⟨rfl, rfl, rfl⟩

/-- Of a context's sequencers nothing differs but where it stands and the loops. -/
def SeqMoves (q r : Seq) : Prop := r = { q with pc := r.pc, point := r.point, loops := r.loops, h := r.h }

theorem SeqMoves.trans {q r u : Seq} (h : SeqMoves q r) (h' : SeqMoves r u) : SeqMoves q u :=
  Eq.trans h' ((congrArg (fun a : Seq => { a with pc := u.pc, point := u.point, loops := u.loops, h := u.h }) h).trans rfl)

theorem Seq.closeTo_moves (q : Seq) (n : Nat) : SeqMoves q (q.closeTo n) := by
  unfold Seq.closeTo
  generalize List.range (n + 1) = l
  induction l generalizing q with
  | nil => rfl
  | cons a l ih => exact SeqMoves.trans (r := q.setLoop a {}) rfl (ih _)

theorem Seq.fall_moves : ∀ (fuel l : Nat) (q : Seq) (top : Nat), SeqMoves q (Seq.fall fuel l q top)
  | 0, _, _, _ => rfl
  | fuel + 1, l, q, top => by
    unfold Seq.fall
    dsimp only
    split
    · split
      · rfl
      · exact (q.closeTo_moves l).trans (Seq.fall_moves fuel (l + 1) (q.closeTo l) top)
    · exact Seq.fall_moves fuel (l + 1) q top

theorem Seq.past_moves (q : Seq) (ctx top : Nat) : SeqMoves q (q.past ctx top) := by
  unfold Seq.past
  split
  · unfold Seq.setPc
    split <;> rfl
  · split
    · rfl
    · exact q.fall_moves 6 0 top

theorem Core.next_late (x : Core) (ctx n : Nat) : (x.next ctx n).q.late = x.q.late ∧ (x.next ctx n).q.tookAt = x.q.tookAt := by
  have hl : SeqMoves x.q (x.q.leave ctx) := by
    unfold Seq.leave
    split <;> rfl
  have h := hl.trans ((x.q.leave ctx).past_moves ctx (x.q.pcOf ctx + n - 1))
  exact ⟨(congrArg Seq.late h).trans rfl, (congrArg Seq.tookAt h).trans rfl⟩

/-! ### How a walk ends -/

/-- The core as its walk fills its destinations. -/
def Core.walkFills (x : Core) (now ctx id d : Nat) (st : Option Nat) (tok : Token) (v : Word) : Core :=
  let y := x.fillK ctx d id tok
  (match st with
   | some r => y.fillS ctx r id v
   | none => y).next ctx 1 |>.passedBy now ctx

theorem Core.walkFills_marks (x : Core) (now ctx id d : Nat) (st : Option Nat) (tok : Token) (v : Word) :
    (x.walkFills now ctx id d st tok v).rdK ctx d = (if d = 0 then {} else tok) ∧ id ∉ (x.walkFills now ctx id d st tok v).kMarks ctx d ∧
      (∀ r, st = some r → r ≠ 0 → (x.walkFills now ctx id d st tok v).rdS ctx r = v) := by
  unfold Core.walkFills
  dsimp only
  cases st with
  | none =>
    have hr := (Core.passedBy_regs ((x.fillK ctx d id tok).next ctx 1) now ctx).1
    refine ⟨?_, ?_, fun r h => nomatch h⟩
    · rw [Core.rdK_congr (congrArg Regs.k hr)]
      exact x.rdK_fillK_same ctx d id tok
    · rw [Core.kMarks_congr (congrArg Regs.km hr)]
      exact x.not_mem_fillK ctx d id tok
  | some a =>
    have hr := (Core.passedBy_regs (((x.fillK ctx d id tok).fillS ctx a id v).next ctx 1) now ctx).1
    obtain ⟨hk, hkm⟩ := (x.fillK ctx d id tok).fillS_k ctx a id v
    refine ⟨?_, ?_, fun r h h0 => ?_⟩
    · rw [Core.rdK_congr ((congrArg Regs.k hr).trans hk)]
      exact x.rdK_fillK_same ctx d id tok
    · rw [Core.kMarks_congr ((congrArg Regs.km hr).trans hkm)]
      exact x.not_mem_fillK ctx d id tok
    · obtain rfl := Option.some.inj h
      rw [Core.rdS_congr (congrArg Regs.s hr)]
      exact (Core.rdS_fillS_same (x.fillK ctx d id tok) v).trans (if_neg h0)

/-- The core as the walk of a word that consumes bad data ends. -/
def Core.walkDrops (x : Core) (now ctx id d : Nat) (st : Option Nat) : Core :=
  let y := x.dropK ctx d id
  (match st with
   | some r => y.dropS ctx r id
   | none => y).next ctx 1 |>.passedBy now ctx

theorem Core.walkDrops_rest (x : Core) (now ctx id d : Nat) (st : Option Nat) :
    (x.walkDrops now ctx id d st).r = { x.r with km := (x.walkDrops now ctx id d st).r.km, sm := (x.walkDrops now ctx id d st).r.sm } ∧
      id ∉ (x.walkDrops now ctx id d st).kMarks ctx d ∧ (x.walkDrops now ctx id d st).q.late = x.q.late ∧
      (x.walkDrops now ctx id d st).q.tookAt = x.q.tookAt := by
  have hd : (x.dropK ctx d id).q = x.q := Core.dropK_q x ctx d id
  have hk := x.dropK_regs ctx d id
  have hm := x.not_mem_dropK ctx d id
  unfold Core.walkDrops
  dsimp only
  generalize x.dropK ctx d id = y at hd hk hm ⊢
  have hy : ∀ z : Core, z.q = x.q → z.r = { y.r with sm := z.r.sm } → ((z.next ctx 1).passedBy now ctx).r =
        { x.r with km := ((z.next ctx 1).passedBy now ctx).r.km, sm := ((z.next ctx 1).passedBy now ctx).r.sm } ∧
      id ∉ ((z.next ctx 1).passedBy now ctx).kMarks ctx d ∧ ((z.next ctx 1).passedBy now ctx).q.late = x.q.late ∧
      ((z.next ctx 1).passedBy now ctx).q.tookAt = x.q.tookAt := fun z hq hz => by
    obtain ⟨hr, hl, ht⟩ := (z.next ctx 1).passedBy_regs now ctx
    obtain ⟨hl', ht'⟩ := z.next_late ctx 1
    have hzr : ((z.next ctx 1).passedBy now ctx).r = z.r := hr
    refine ⟨?_, ?_, hl.trans (hl'.trans (congrArg Seq.late hq)), ht.trans (ht'.trans (congrArg Seq.tookAt hq))⟩
    · rw [hzr, hz, hk]
    · rw [Core.kMarks_congr ((congrArg Regs.km hzr).trans ((congrArg Regs.km hz).trans rfl))]
      exact hm
  cases st with
  | none => exact hy y hd rfl
  | some a => exact hy (y.dropS ctx a id) ((Core.dropS_q y ctx a id).trans hd) (y.dropS_regs ctx a id)

/-! ### The entry an extent takes (R207) -/

section
variable {s u : State} {who : Option Nat} {asid va len kind : Nat} {rights : BitVec 4} {ranges : List (Nat × Nat)} {tok : Token}

/-- The entry a translation takes: a LIVE one of the same extent, or the lowest FREE one. -/
def TakesEntry (s : State) (asid va len : Nat) (rights : BitVec 4) (tok : Token) : Prop :=
  (∃ p ∈ s.pontil, p.2.st = .live ∧ p.2.asid = asid ∧ p.2.vbase = va ∧ p.2.len = len ∧ p.2.rights = rights ∧
    tok.entry = p.1 ∧ tok.gen = p.2.gen ∧ tok.kind = p.2.kind) ∨
  ((s.ent tok.entry).st = .free ∧ tok.entry ≠ 0 ∧ tok.entry < 2 ^ 20 ∧ tok.gen = (s.ent tok.entry).gen + 1 ∧
    ∀ e, e ≠ 0 → e < tok.entry → (s.ent e).st ≠ .free)

/-- The state in which a token's entry has been taken. -/
def TokenTaken (s u : State) (who : Option Nat) (len : Nat) (rights : BitVec 4) (tok : Token) : Prop :=
  u = { s with pontil := u.pontil, cores := u.cores } ∧ (∀ c, (u.core c) = { s.core c with tlb := (u.core c).tlb }) ∧
    tok.base = 0 ∧ tok.len = len / 64 ∧ tok.rights = rights ∧ (u.ent tok.entry).st = .live ∧ (u.ent tok.entry).gen = tok.gen ∧
    ∀ c, who = some c → c < 1024 → (u.ent tok.entry).holders.getLsbD c = true

theorem State.ent_setEnt_same (s : State) (e : Nat) (v : PEntry) : (s.setEnt e v).ent e = v := Sparse.get_set_same _ s.pontil e v

theorem State.ent_setEnt_other (s : State) {k e : Nat} (v : PEntry) (h : k ≠ e) : (s.setEnt e v).ent k = s.ent k :=
  Sparse.get_set_other _ s.pontil v h

theorem PEntry.hold_bit (e : PEntry) {c : Nat} (h : c < 1024) : (e.hold c).holders.getLsbD c = true := by
  show (e.holders ||| (1#1024 <<< c)).getLsbD c = true
  simp [h]

/-- The lowest FREE entry. -/
theorem State.freeEntry_lowest {n : Nat} (h : s.freeEntry = some n) :
    (s.ent n).st = .free ∧ n ≠ 0 ∧ n < 2 ^ 20 ∧ ∀ e, e ≠ 0 → e < n → (s.ent e).st ≠ .free := by
  unfold State.freeEntry at h
  obtain ⟨hn, as, bs, hl, hbefore⟩ := List.find?_eq_some_iff_append.1 h
  rw [Bool.and_eq_true, decide_eq_true_eq, beq_iff_eq] at hn
  have hpos : n ∈ (List.range (s.pontil.length + 1)).map (· + 1) := hl ▸ List.mem_append_right _ (List.mem_cons_self ..)
  obtain ⟨i, hi, rfl⟩ := List.mem_map.1 hpos
  refine ⟨hn.2, Nat.succ_ne_zero i, hn.1, fun e h0 hlt hfree => ?_⟩
  have hmem : e ∈ (List.range (s.pontil.length + 1)).map (· + 1) :=
    List.mem_map.2 ⟨e - 1, List.mem_range.2 (by have := List.mem_range.1 hi; omega), by omega⟩
  have hsorted : ((List.range (s.pontil.length + 1)).map (· + 1)).Pairwise (· < ·) :=
    List.pairwise_map.2 (List.pairwise_lt_range.imp fun h => Nat.succ_lt_succ h)
  rw [hl] at hmem hsorted
  rcases List.mem_append.1 hmem with hm | hm
  · have := hbefore e hm
    rw [hfree] at this
    simp only [Bool.not_eq_true', Bool.and_eq_false_iff, decide_eq_false_iff_not, beq_eq_false_iff_ne, ne_eq, not_true_eq_false, or_false] at this
    omega
  · rcases List.mem_cons.1 hm with rfl | hm
    · exact absurd hlt (Nat.lt_irrefl _)
    · have := (List.pairwise_cons.1 (List.pairwise_append.1 hsorted).2.1).1 e hm
      omega

theorem State.choose_takes (h : s.choose who asid va len rights kind ranges = .ok u tok) :
    TakesEntry s asid va len rights tok ∧ TokenTaken s u who len rights tok := by
  unfold State.choose at h
  dsimp only at h
  have hholder : ∀ (e : PEntry) (c : Nat), who = some c → c < 1024 → (match (generalizing := false) who with
      | some c => e.hold c
      | none => e).holders.getLsbD c = true := fun e c hw hc => by rw [hw]; exact e.hold_bit hc
  have hst : ∀ e : PEntry, (match (generalizing := false) who with
      | some c => e.hold c
      | none => e).st = e.st ∧ (match (generalizing := false) who with
      | some c => e.hold c
      | none => e).gen = e.gen := fun e => by cases who <;> exact ⟨rfl, rfl⟩
  split at h
  · next p hp =>
    have hmem := List.mem_of_find?_eq_some hp
    have hprop := List.find?_some hp
    simp only [Bool.and_eq_true, beq_iff_eq] at hprop
    obtain ⟨⟨⟨⟨⟨h1, h2⟩, h3⟩, h4⟩, h5⟩, h6⟩ := hprop
    injection h with hu ht
    subst hu ht
    refine ⟨.inl ⟨p, hmem, h1, h2, h3, h4, h5, rfl, rfl, h6.symm⟩, rfl, fun c => rfl, rfl, rfl, rfl, ?_, ?_, fun c hw hc => ?_⟩
    · rw [State.ent_setEnt_same]; exact (hst p.2).1.trans h1
    · rw [State.ent_setEnt_same]; exact (hst p.2).2
    · rw [State.ent_setEnt_same]; exact hholder p.2 c hw hc
  · split at h
    · cases h
    · split at h
      · cases h
      · next n hn =>
        split at h
        · cases h
        · obtain ⟨hf, h0, hlt, hlow⟩ := State.freeEntry_lowest hn
          injection h with hu ht
          subst hu ht
          refine ⟨.inr ⟨hf, h0, hlt, rfl, hlow⟩, rfl, fun c => rfl, rfl, rfl, rfl, ?_, ?_, fun c hw hc => ?_⟩
          · rw [State.ent_setEnt_same]; exact (hst _).1
          · rw [State.ent_setEnt_same]; exact (hst _).2
          · rw [State.ent_setEnt_same]; exact hholder _ c hw hc

/-- A change of a core keeps the rest. -/
theorem State.mod_rest {s t : State} (h : t = { s with pontil := t.pontil, cores := t.cores }) (c : Nat) (f : Core → Core) :
    t.mod c f = { s with pontil := (t.mod c f).pontil, cores := (t.mod c f).cores } := by
  have hm : t.mod c f = { t with cores := (t.mod c f).cores } := rfl
  exact hm.trans ((congrArg (fun a : State => { a with cores := (t.mod c f).cores }) h).trans rfl)

theorem State.grant_takes (h : s.grant who asid va len rights = .ok u tok) :
    TakesEntry s asid va len rights tok ∧ TokenTaken s u who len rights tok := by
  unfold State.grant at h
  dsimp only at h
  split at h
  · cases h
  · split at h <;> cases h
  · split at h
    · next t k hc =>
      obtain ⟨h1, h2, h3, h4⟩ := State.choose_takes hc
      cases who with
      | none =>
        injection h with hu ht
        subst hu ht
        exact ⟨h1, h2, h3, h4⟩
      | some c =>
        injection h with hu ht
        subst hu ht
        refine ⟨h1, State.mod_rest h2 c _, fun d => ?_, h4⟩
        by_cases hd : d = c
        · subst hd
          rw [State.core_mod_same, h3]
        · rw [State.core_mod_other _ _ hd, h3]
    · next g hg => exact absurd h (hg u tok)

theorem State.choose_no_event {e : Nat × Nat} : s.choose who asid va len rights kind ranges ≠ .event u e := by
  unfold State.choose
  dsimp only
  repeat' split
  all_goals exact Got.noConfusion

/-- A walk that finds bad data. -/
theorem State.grant_event {e : Nat × Nat} (h : s.grant who asid va len rights = .event u e) : WearOnly s u := by
  unfold State.grant at h
  dsimp only at h
  split at h
  · cases h
  · next pas _ =>
    have hw := State.findAll_wear pas s
    split at h
    · next t b hf =>
      rw [hf] at hw
      injection h with hu
      exact hu ▸ hw
    · cases h
  · split at h
    · split at h <;> cases h
    · exact absurd h State.choose_no_event

/-- A bad operand is ARG at page 0. -/
theorem State.grant_arg (h : va % 64 ≠ 0 ∨ len = 0 ∨ len % 64 ≠ 0 ∨ 2 ^ 38 - 64 < len ∨ 2 ^ 48 < va + len) :
    s.grant who asid va len rights = .fail 4 0 := by
  have hbad : extentBad va len = true := by
    unfold extentBad
    simp only [Bool.or_eq_true, bne_iff_ne, beq_iff_eq, decide_eq_true_eq]
    tauto
  unfold State.grant State.extent
  dsimp only
  rw [if_pos hbad]

/-- An address space without a root is ABSENT at page 0. -/
theorem State.grant_rootless (h : ¬(va % 64 ≠ 0 ∨ len = 0 ∨ len % 64 ≠ 0 ∨ 2 ^ 38 - 64 < len ∨ 2 ^ 48 < va + len))
    (hr : Sparse.get 0 s.roots asid = 0) : s.grant none asid va len rights = .fail 1 0 := by
  have hgood : ¬extentBad va len = true := by
    unfold extentBad
    simp only [Bool.or_eq_true, bne_iff_ne, beq_iff_eq, decide_eq_true_eq]
    tauto
  have hwalk : ∀ a, s.walk asid a = .absent := fun a => by unfold State.walk; exact if_pos hr
  obtain ⟨n, hn⟩ : ∃ n, (va % 4096 + len + 4095) / 4096 = n + 1 := ⟨(va % 4096 + len + 4095) / 4096 - 1, by omega⟩
  unfold State.grant State.extent
  dsimp only
  rw [if_neg hgood, hn]
  unfold State.pages
  simp only [List.find?_nil, hwalk]

end

/-! ### The event that ends a walk -/

section
variable {s : State} {rights : BitVec 4} {o : AluR} {st : Option Nat} {c x : Nat}

/-- The running context, as the end of its walk sees it. -/
def State.as (s : State) (c x : Nat) : State := { s with cur := c, ctx := x }

theorem xlatEnd_ok {u : State} {tok : Token} (h : s.grant (some s.cur) (s.asidOf s.cur) (s.sc o.a).toNat (s.sc o.b).toNat rights = .ok u tok) :
    xlatEnd rights o st s = .next (u.upd (fun y => y.walkFills s.now s.ctx s.hold.since o.d st tok 0#64)) := by
  unfold xlatEnd
  dsimp only
  rw [h]
  rfl

theorem xlatEnd_event {u : State} {e : Nat × Nat} (h : s.grant (some s.cur) (s.asidOf s.cur) (s.sc o.a).toNat (s.sc o.b).toNat rights = .event u e) :
    xlatEnd rights o st s = .next ((u.upd (fun y => y.walkDrops s.now s.ctx s.hold.since o.d st)).contain s.cur s.ctx e.1 0 e.2
      (if s.ctx = 0 then 0 else s.me.q.pcOf s.ctx) s.hold.since false 3) := by
  unfold xlatEnd
  dsimp only
  rw [h]
  rfl

theorem xlatEnd_fail_tried {r p a : Nat} (h : s.grant (some s.cur) (s.asidOf s.cur) (s.sc o.a).toNat (s.sc o.b).toNat rights = .fail r p) :
    xlatEnd rights o (some a) s = .next (s.upd (fun y => y.walkFills s.now s.ctx s.hold.since o.d (some a) {} (BitVec.ofNat 64 (r * 2 ^ 32 + p)))) := by
  unfold xlatEnd
  dsimp only
  rw [h]
  rfl

/-- The core as an `xlat` that has failed traps. -/
def Core.walkTraps (y : Core) (now ctx id d data : Nat) : Core :=
  let z := if ctx = 0 then (y.dropK ctx d id).takesNow now else y.dropK ctx d id
  z.trapAt now ctx 8 false data (z.q.pcOf 0)

theorem State.core_upd_upd (s : State) (f g : Core → Core) : ((s.upd f).upd g).core s.cur = g (f s.me) :=
  (State.core_upd (s.upd f) g).trans (congrArg g (State.core_upd s f))

theorem xlatEnd_fail_traps {r p : Nat} (h : s.grant (some s.cur) (s.asidOf s.cur) (s.sc o.a).toNat (s.sc o.b).toNat rights = .fail r p) :
    ∃ t, xlatEnd rights o none s = .next t ∧ t.pontil = s.pontil ∧
      t.core s.cur = if s.ctx = 0 ∧ s.me.beaten s.now s.hold.since then (s.me.dropK s.ctx o.d s.hold.since).next s.ctx 1
        else s.me.walkTraps s.now s.ctx s.hold.since o.d (r * 2 ^ 28 + p) := by
  unfold xlatEnd
  dsimp only
  rw [h]
  dsimp only
  by_cases hb : s.ctx = 0 ∧ s.me.beaten s.now s.hold.since
  · rw [if_pos hb, if_pos hb]
    exact ⟨_, rfl, rfl, State.core_upd_upd s _ _⟩
  · rw [if_neg hb, if_neg hb]
    unfold Core.walkTraps
    by_cases h0 : s.ctx = 0
    · rw [if_pos h0, if_pos h0]
      exact ⟨_, rfl, rfl, (State.core_upd_upd (s.upd fun x => x.dropK s.ctx o.d s.hold.since) _ _).trans
        (congrArg (fun y : Core => (y.takesNow s.now).trapAt s.now s.ctx 8 false (r * 2 ^ 28 + p) ((y.takesNow s.now).q.pcOf 0)) (State.core_upd s _))⟩
    · rw [if_neg h0, if_neg h0]
      exact ⟨_, rfl, rfl, State.core_upd_upd s _ _⟩

/-- A word that marks registers empty and holds its context. -/
theorem State.marks_holds (s : State) (l : List Src) (f : Nat → Core → Core) (k : HoldK) (hf : ∀ n x, (f n x).q = x.q) :
    let t := ((s.read l).upd (f (s.read l).id)).holds k
    OnlyCore s.cur s t ∧ (t.core s.cur).q.pcOf s.ctx = s.me.q.pcOf s.ctx ∧ (t.core s.cur).q.holdOf s.ctx = { k := k, since := s.me.q.nid } ∧
      (t.core s.cur).r = (f s.me.q.nid (s.me.touch s.ctx l)).r := by
  intro t
  have hcore : t.core s.cur = (f s.me.q.nid (s.me.touch s.ctx l)).heldBy s.now s.ctx k := by
    refine (State.core_upd_upd (s.read l) _ _).trans ?_
    rw [State.read_id, State.read_me]
    rfl
  have hq := hf s.me.q.nid (s.me.touch s.ctx l)
  refine ⟨⟨rfl, fun c hc => ?_, fun _ => rfl⟩, ?_, ?_, ?_⟩
  · exact (State.core_upd_other ((s.read l).upd (f (s.read l).id)) _ hc).trans ((State.core_upd_other (s.read l) _ hc).trans (State.core_upd_other s (fun x => x.touch s.ctx l) hc))
  · rw [hcore, (Core.heldBy_goes _ _ _ _).1, hq]
    rfl
  · rw [hcore, Core.heldBy_hold, hq]
    rfl
  · rw [hcore]
    rfl

theorem Core.markK_regs (x : Core) (ctx d n : Nat) : (x.markK ctx d n).r = { x.r with km := (x.markK ctx d n).r.km } := by
  unfold Core.markK; split <;> rfl

theorem Core.sMarks_markS_self (x : Core) (ctx n : Nat) {d : Nat} (h : d ≠ 0) : (x.markS ctx d n).sMarks ctx d = x.sMarks ctx d ++ [n] := by
  simp [Core.sMarks, Core.markS, h]

/-- A trap leaves the marks of tokens alone. -/
theorem Core.trapAt_km (y : Core) (now ctx cause data resume : Nat) : (y.trapAt now ctx cause false data resume).r.km = y.r.km := by
  unfold Core.trapAt
  dsimp only
  split
  · unfold Core.takeTrap
    dsimp only
    split
    · rfl
    · split <;> rfl
  · show (y.tickId.handlerEnds ctx).r.km = _
    unfold Core.handlerEnds
    dsimp only
    split
    · rfl
    · rfl

theorem Core.walkTraps_marks (y : Core) (now ctx id d data : Nat) : id ∉ (y.walkTraps now ctx id d data).kMarks ctx d := by
  have h : (y.walkTraps now ctx id d data).r.km = (y.dropK ctx d id).r.km := by
    unfold Core.walkTraps
    dsimp only
    rw [Core.trapAt_km]
    split <;> rfl
  rw [Core.kMarks_congr h]
  exact y.not_mem_dropK ctx d id

/-- The main context's trap is taken as R103 says. -/
theorem Core.walkTraps_csrs (y : Core) (now id d data : Nat) (ht : y.q.tact = false) :
    (y.walkTraps now 0 id d data).c.tcause = 8#64 ∧ (y.walkTraps now 0 id d data).c.tinfo = BitVec.ofNat 64 (3 * 2 ^ 58 + data % 2 ^ 32) ∧
      (y.walkTraps now 0 id d data).c.tpc = BitVec.ofNat 64 y.q.pc := by
  have hd := Core.dropK_q y 0 d id
  have hc := Core.dropK_c y 0 d id
  have he : y.walkTraps now 0 id d data = (((y.dropK 0 d id).takesNow now).tickId.seq (fun q => q.setHold 0 {})).takeTrap 8
      (infoWord 0 false false 3 0 data) (y.dropK 0 d id).q.pc := rfl
  rw [he]
  generalize y.dropK 0 d id = z at hd hc
  have htz : ((z.takesNow now).tickId.seq (fun q => q.setHold 0 {})).q.tact = false := by
    show z.q.tact = false
    rw [hd, ht]
  have hinfo : infoWord 0 false false 3 0 data = BitVec.ofNat 64 (3 * 2 ^ 58 + data % 2 ^ 32) := by
    unfold infoWord
    simp
  unfold Core.takeTrap
  rw [if_neg (by rw [htz]; exact Bool.false_ne_true), hinfo, hd]
  dsimp only
  split <;> exact ⟨rfl, rfl, rfl⟩

end

end Sys2Proof.Machine

namespace Sys2Proof

open Machine

/-- Settles O25: the issue by what its marks leave; the end of a walk by what `grant` decides, and what it decides by its cases. -/
theorem extentsTranslate : Obligations.ExtentsTranslate := by
  unfold Obligations.ExtentsTranslate
  refine ⟨fun s rights o _ hm => ?_, fun s rights o _ hm => ?_, ?_, fun s who asid va len rights h => State.grant_arg h,
    fun s asid va len rights h hr => State.grant_rootless h hr, fun s who asid va len rights u tok h => (State.grant_takes h).1⟩
  · refine ⟨_, (show exec (.xlat rights o) s = execXlat rights o s from rfl).trans (issue_ready hm _), ?_⟩
    obtain ⟨ho, hpc, hh, hr⟩ := State.marks_holds s [.s o.a o.fea, .s o.b o.feb] (fun id x => x.markK s.ctx o.d id) (.walk (.xlat rights o))
      fun id x => Core.markK_q x s.ctx o.d id
    refine ⟨ho, hpc, hh, fun h => ?_, fun k r => ?_, ?_⟩
    · exact (Core.kMarks_congr (congrArg Regs.km hr) _ _).trans (Core.kMarks_markK _ s.ctx _ h)
    · exact Core.rdK_congr ((congrArg Regs.k hr).trans ((congrArg (fun x : Core => x.r.k) (Core.markK_marksOnly _ s.ctx o.d _).1).trans rfl)) k r
    · exact hr.trans ((Core.markK_regs _ _ _ _).trans (congrArg (fun m => { s.me.r with km := m }) (congrArg Regs.km hr).symm))
  · refine ⟨_, (show exec (.xlatTry rights o) s = execXlatTry rights o s from rfl).trans (issue_ready hm _), ?_⟩
    obtain ⟨ho, hpc, hh, hr⟩ := State.marks_holds s [.s o.a o.fea, .s o.b o.feb] (fun id x => (x.markK s.ctx o.d id).markS s.ctx o.c id)
      (.walk (.xlatTry rights o)) fun id x => (Core.markS_q _ s.ctx o.c id).trans (Core.markK_q x s.ctx o.d id)
    let y := s.me.touch s.ctx [.s o.a o.fea, .s o.b o.feb]
    obtain ⟨hk, hks⟩ := y.markK_marksOnly s.ctx o.d s.me.q.nid
    obtain ⟨hs, hsk⟩ := (y.markK s.ctx o.d s.me.q.nid).markS_marksOnly s.ctx o.c s.me.q.nid
    have hall := (congrArg Core.r (hk.trans hs)).trans rfl
    refine ⟨ho, hpc, hh, fun h => ?_, fun h => ?_, fun k r => ⟨?_, ?_⟩⟩
    · exact (Core.kMarks_congr ((congrArg Regs.km hr).trans hsk) _ _).trans (Core.kMarks_markK y s.ctx _ h)
    · refine (Core.sMarks_congr (congrArg Regs.sm hr) _ _).trans ((Core.sMarks_markS_self _ s.ctx _ h).trans ?_)
      rw [Core.sMarks_congr hks]
      rfl
    · exact Core.rdK_congr ((congrArg Regs.k hr).trans ((congrArg Regs.k hall).trans rfl)) k r
    · exact Core.rdS_congr ((congrArg Regs.s hr).trans ((congrArg Regs.s hall).trans rfl)) k r
  intro s c x rights o since h hh hd hc va len
  let X := s.as c x
  have hsince : X.hold.since = since := by
    rcases hh with e | e <;> exact congrArg Hold.since e
  obtain ⟨st, hx, hst⟩ : ∃ st, exec (.xlatComplete c x) s = xlatEnd rights o st X ∧
      (h.k = .walk (.xlat rights o) ∧ st = none ∨ h.k = .walk (.xlatTry rights o) ∧ st = some o.c) := by
    rcases hh with e | e
    · refine ⟨none, ?_, .inl ⟨congrArg Hold.k e, rfl⟩⟩
      refine (show exec (.xlatComplete c x) s = execXlatComplete c x s from rfl).trans ?_
      unfold execXlatComplete
      dsimp only
      rw [show (State.hold { s with cur := c, ctx := x }).k = .walk (.xlat rights o) from congrArg Hold.k e]
      rfl
    · refine ⟨some o.c, ?_, .inr ⟨congrArg Hold.k e, rfl⟩⟩
      refine (show exec (.xlatComplete c x) s = execXlatComplete c x s from rfl).trans ?_
      unfold execXlatComplete
      dsimp only
      rw [show (State.hold { s with cur := c, ctx := x }).k = .walk (.xlatTry rights o) from congrArg Hold.k e]
      rfl
  have htry : h.k = .walk (.xlatTry rights o) → st = some o.c := fun hk =>
    hst.elim (fun e => absurd (e.1.symm.trans hk) (by simp)) And.right
  have hplain : h.k = .walk (.xlat rights o) → st = none := fun hk =>
    hst.elim And.right fun e => absurd (e.1.symm.trans hk) (by simp)
  refine ⟨fun u tok hg => ?_, fun r p hg => ?_, fun u e hg => ?_⟩
  · obtain ⟨-, hrest, hcore, hbase, hlen, hri, hlive, hgen, hhold⟩ := State.grant_takes hg
    have hcur : u.cur = c := (congrArg State.cur hrest).trans rfl
    let t := u.upd (fun y => y.walkFills s.now x X.hold.since o.d st tok 0#64)
    have htc : t.core c = (u.core c).walkFills s.now x since o.d st tok 0#64 := by
      rw [← hsince, ← hcur]
      exact State.core_upd u _
    obtain ⟨hk, hkm, hs⟩ := (u.core c).walkFills_marks s.now x since o.d st tok 0#64
    refine ⟨t, hx.trans (xlatEnd_ok hg), ?_, ?_, hbase, hlen, hri, hlive, hgen, hhold c rfl, fun h1 h0 => ?_, fun pa => ?_⟩
    · rw [htc, hk]
    · rw [htc]; exact hkm
    · rw [htc]; exact hs _ (htry h1) h0
    · show Sparse.get 0#8 u.mem pa = _
      rw [show u.mem = s.mem from (congrArg State.mem hrest).trans rfl]
      rfl
  · rcases hst with ⟨hk, rfl⟩ | ⟨hk, rfl⟩
    · obtain ⟨t, ht, hp, hcore⟩ := xlatEnd_fail_traps (s := X) (o := o) hg
      rw [hsince] at hcore
      refine ⟨t, hx.trans ht, hp, ?_, fun h => absurd (hk.symm.trans h) (by simp), fun _ h0 hb => ?_, fun _ h0 htact hb => ?_⟩
      · rw [show t.core c = _ from hcore]
        split
        · exact Core.not_mem_dropK (s.core c) x o.d since
        · exact Core.walkTraps_marks (s.core c) s.now x since o.d _
      · rw [show t.core c = _ from hcore, if_pos ⟨h0, hb⟩]
        exact Core.dropK_c (s.core c) x o.d since
      · subst h0
        rw [show t.core c = _ from hcore, if_neg fun e => Bool.false_ne_true (hb.symm.trans e.2)]
        exact Core.walkTraps_csrs (s.core c) s.now since o.d _ htact
    · let t := X.upd (fun y => y.walkFills s.now x X.hold.since o.d (some o.c) {} (BitVec.ofNat 64 (r * 2 ^ 32 + p)))
      have htc : t.core c = (s.core c).walkFills s.now x since o.d (some o.c) {} (BitVec.ofNat 64 (r * 2 ^ 32 + p)) := by
        rw [← hsince]
        exact State.core_upd X _
      obtain ⟨hr, hkm, hs⟩ := (s.core c).walkFills_marks s.now x since o.d (some o.c) {} (BitVec.ofNat 64 (r * 2 ^ 32 + p))
      refine ⟨t, hx.trans (xlatEnd_fail_tried hg), rfl, ?_, fun _ h0 => ⟨?_, ?_⟩, fun h => absurd (hk.symm.trans h) (by simp),
        fun h => absurd (hk.symm.trans h) (by simp)⟩
      · rw [htc]; exact hkm
      · rw [htc, hr, ite_self]
      · rw [htc]; exact hs _ rfl h0
  · have hw : u = { X with w := u.w } := State.grant_event hg
    have hcur : u.cur = c := (congrArg State.cur hw).trans rfl
    have hnow : u.now = s.now := (congrArg State.now hw).trans rfl
    have hu : u.core c = s.core c := (congrArg (fun a : State => a.core c) hw).trans rfl
    let v := u.upd (fun y => y.walkDrops s.now x X.hold.since o.d st)
    have hv : v.core c = (s.core c).walkDrops s.now x since o.d st := by
      rw [← hsince, ← hu, ← hcur]
      exact State.core_upd u _
    obtain ⟨hr, hkm, hlate, htook⟩ := (s.core c).walkDrops_rest s.now x since o.d st
    obtain ⟨l, ⟨h1, h2, h3⟩, harr, y, hy, hcore⟩ := State.contain_core v c x e.1 0 e.2 (if x = 0 then 0 else X.me.q.pcOf x) X.hold.since 3
    rw [hv] at hy
    have hyr : y.r = { ((s.core c).walkDrops s.now x since o.d st).r with vm := y.r.vm } ∧ y.q = ((s.core c).walkDrops s.now x since o.d st).q := by
      rcases hy with rfl | rfl
      · exact ⟨rfl, rfl⟩
      · exact ⟨Core.discardIf_regs _ _, (Core.discardIf_q _ _).1⟩
    refine ⟨v.contain c x e.1 0 e.2 (if x = 0 then 0 else X.me.q.pcOf x) X.hold.since false 3, hx.trans (xlatEnd_event hg), ?_, ?_,
      fun k r => ?_, ?_, fun pa => ?_⟩
    · exact (State.contain_rest v c x e.1 0 e.2 _ _ false 3).trans ((congrArg State.pontil hw).trans rfl)
    · rw [hcore]
      refine fun hin => hkm ?_
      exact (Core.kMarks_congr ((congrArg Regs.km hyr.1).trans rfl) x o.d) ▸ hin
    · rw [hcore]
      exact ⟨Core.rdK_congr ((congrArg Regs.k hyr.1).trans ((congrArg Regs.k hr).trans rfl)) k r,
        Core.rdS_congr ((congrArg Regs.s hyr.1).trans ((congrArg Regs.s hr).trans rfl)) k r⟩
    · rw [hcore]
      exact Core.late_raises l ((congrArg Seq.late hyr.2).trans hlate) ((congrArg Seq.tookAt hyr.2).trans htook) (harr.trans hnow)
        ⟨h1, h2, h3.trans hsince⟩
    · show Sparse.get 0#8 (v.contain c x e.1 0 e.2 _ _ false 3).mem pa = _
      rw [State.contain_mem]
      show Sparse.get 0#8 u.mem pa = _
      rw [show u.mem = s.mem from (congrArg State.mem hw).trans rfl]
      rfl


end Sys2Proof

end

section
set_option Elab.async false

/-! SUPPORT. Rounding to a floating format: the count of quanta, what a bit pattern is worth, and the comparison with every other
value of the format (R22, R26). O44. -/

namespace Sys2Proof.Machine

/-! ### The count of quanta -/

/-- `n` is what `t` rounds to, as a magnitude, under a mode and a sign (R26). -/
structure Rounds (rm : Nat) (neg : Bool) (t : Rat) (n : Nat) : Prop where
  near : rm = 0 → |(n : Rat) - t| ≤ 1 / 2
  down : (rm = 1 ∨ (rm = 2 ∧ neg = true) ∨ (rm = 3 ∧ neg = false)) → (n : Rat) ≤ t ∧ t < n + 1
  up : ((rm = 2 ∧ neg = false) ∨ (rm = 3 ∧ neg = true)) → t ≤ n ∧ (n : Rat) < t + 1

section
variable {rm n : Nat} {neg : Bool} {t : Rat}

theorem Rounds.exact (rm : Nat) (neg : Bool) (n : Nat) : Rounds rm neg (n : Rat) n where
  near _ := by simp
  down _ := ⟨le_refl _, lt_add_one _⟩
  up _ := ⟨le_refl _, lt_add_one _⟩

/-- It is less than one quantum away. -/
theorem Rounds.close (h : Rounds rm neg t n) (hrm : rm < 4) : t < n + 1 ∧ (n : Rat) < t + 1 := by
  have hcases : rm = 0 ∨ (rm = 1 ∨ (rm = 2 ∧ neg = true) ∨ (rm = 3 ∧ neg = false)) ∨ ((rm = 2 ∧ neg = false) ∨ (rm = 3 ∧ neg = true)) := by
    cases neg <;> simp <;> omega
  rcases hcases with h0 | h1 | h2
  · have := abs_le.1 (h.near h0)
    constructor <;> linarith [this.1, this.2]
  · have := h.down h1
    exact ⟨this.2, by linarith [this.1]⟩
  · have := h.up h2
    exact ⟨by linarith [this.1], this.2⟩

/-- No count of quanta is nearer. -/
theorem Rounds.nearest (h : Rounds rm neg t n) (h0 : rm = 0) (k : Nat) : |(n : Rat) - t| ≤ |(k : Rat) - t| := by
  have hn := h.near h0
  by_cases hk : k = n
  · rw [hk]
  · have hone : (1 : Rat) ≤ |(k : Rat) - n| := by
      have : (1 : Int) ≤ |(k : Int) - n| := Int.one_le_abs (by omega)
      exact_mod_cast this
    have htri : |(k : Rat) - n| ≤ |(k : Rat) - t| + |(n : Rat) - t| := by
      calc |(k : Rat) - n| = |((k : Rat) - t) - ((n : Rat) - t)| := by ring_nf
        _ ≤ _ := abs_sub _ _
    linarith

theorem Rounds.below (h : Rounds rm neg t n) (hd : rm = 1 ∨ (rm = 2 ∧ neg = true) ∨ (rm = 3 ∧ neg = false)) {k : Nat} (hk : (k : Rat) ≤ t) : k ≤ n := by
  have : (k : Rat) < ((n + 1 : Nat) : Rat) := by push_cast; exact lt_of_le_of_lt hk (h.down hd).2
  exact Nat.lt_succ_iff.1 (by exact_mod_cast this)

theorem Rounds.above (h : Rounds rm neg t n) (hu : (rm = 2 ∧ neg = false) ∨ (rm = 3 ∧ neg = true)) {k : Nat} (hk : t ≤ (k : Rat)) : n ≤ k := by
  have : (n : Rat) < ((k + 1 : Nat) : Rat) := by push_cast; linarith [(h.up hu).2]
  exact Nat.lt_succ_iff.1 (by exact_mod_cast this)

/-- A count kept between bounds that the exact value keeps. -/
theorem Rounds.le_of_lt (h : Rounds rm neg t n) (hrm : rm < 4) {b : Nat} (hb : t < b) : n ≤ b := by
  have : (n : Rat) < ((b + 1 : Nat) : Rat) := by push_cast; linarith [(h.close hrm).2]
  exact Nat.lt_succ_iff.1 (by exact_mod_cast this)

theorem Rounds.ge_of_le (h : Rounds rm neg t n) (hrm : rm < 4) {b : Nat} (hb : (b : Rat) ≤ t) : b ≤ n := by
  have : (b : Rat) < ((n + 1 : Nat) : Rat) := by push_cast; linarith [(h.close hrm).1]
  exact Nat.lt_succ_iff.1 (by exact_mod_cast this)

end

/-- Whether a quotient `n` with remainder `r` of a divisor whose half is `half` is rounded away from zero (R26). -/
def roundsUp (rm : Nat) (neg : Bool) (n r half : Nat) : Bool :=
  match rm with
  | 0 => decide (half < r) || (r == half && (false || n % 2 == 1))
  | 1 => false
  | 2 => decide (r ≠ 0 ∨ false = true) && !neg
  | _ => decide (r ≠ 0 ∨ false = true) && neg

section
variable {rm n r half : Nat} {neg : Bool}

theorem roundsUp_yes (hrm : rm < 4) (hhalf : 0 < half) (h : roundsUp rm neg n r half = true) :
    (rm = 0 → half ≤ r) ∧ ¬(rm = 1 ∨ (rm = 2 ∧ neg = true) ∨ (rm = 3 ∧ neg = false)) ∧ r ≠ 0 := by
  match rm, hrm with
  | 0, _ =>
    simp only [roundsUp, Bool.or_eq_true, Bool.and_eq_true, decide_eq_true_eq, beq_iff_eq] at h
    omega
  | 1, _ => exact absurd h Bool.false_ne_true
  | 2, _ => simpa [roundsUp, and_comm] using h
  | 3, _ => simpa [roundsUp, and_comm] using h

theorem roundsUp_no (hrm : rm < 4) (h : ¬roundsUp rm neg n r half = true) :
    (rm = 0 → r ≤ half) ∧ (((rm = 2 ∧ neg = false) ∨ (rm = 3 ∧ neg = true)) → r = 0) := by
  match rm, hrm with
  | 0, _ =>
    simp only [roundsUp, Bool.or_eq_true, decide_eq_true_eq, not_or] at h
    exact ⟨fun _ => Nat.not_lt.1 h.1, fun e => by omega⟩
  | 1, _ => exact ⟨fun e => by omega, fun e => by omega⟩
  | 2, _ => exact ⟨fun e => by omega, fun e => by simpa [roundsUp, show neg = false by simpa using e] using h⟩
  | 3, _ => exact ⟨fun e => by omega, fun e => by simpa [roundsUp, show neg = true by simpa using e] using h⟩

end

/-- A quotient and what rounding it makes of it. -/
theorem rounds_div {rm : Nat} (hrm : rm < 4) (neg : Bool) (m sh : Nat) (hsh : 0 < sh) :
    let n := m / 2 ^ sh
    let r := m % 2 ^ sh
    let up := roundsUp rm neg n r (2 ^ (sh - 1))
    Rounds rm neg ((m : Rat) / 2 ^ sh) (if up then n + 1 else n) ∧ (r = 0 ↔ (((if up then n + 1 else n : Nat) : Rat) = (m : Rat) / 2 ^ sh)) := by
  intro n r up
  have hP : (0 : Rat) < 2 ^ sh := by positivity
  have hm : (m : Rat) / 2 ^ sh = n + (r : Rat) / 2 ^ sh := by
    have : (m : Rat) = 2 ^ sh * n + r := by exact_mod_cast (Nat.div_add_mod m (2 ^ sh)).symm
    rw [this]; field_simp
  have hr0 : (0 : Rat) ≤ (r : Rat) / 2 ^ sh := by positivity
  have hr1 : (r : Rat) / 2 ^ sh < 1 := by
    rw [div_lt_one hP]
    exact_mod_cast Nat.mod_lt m (Nat.two_pow_pos sh)
  have hhalf : (2 : Rat) ^ sh = 2 * 2 ^ (sh - 1) := by
    rw [← pow_succ']
    congr 1
    omega
  have hzero : (r : Rat) / 2 ^ sh = 0 ↔ r = 0 := by
    rw [div_eq_zero_iff]
    constructor
    · rintro (h | h)
      · exact_mod_cast h
      · exact absurd h hP.ne'
    · intro h
      left
      exact_mod_cast h
  have hbig : 2 ^ (sh - 1) ≤ r → (1 / 2 : Rat) ≤ (r : Rat) / 2 ^ sh := fun h => by
    rw [le_div_iff₀ hP, hhalf]
    have : ((2 ^ (sh - 1) : Nat) : Rat) ≤ r := by exact_mod_cast h
    push_cast at this
    linarith
  have hsmall : r ≤ 2 ^ (sh - 1) → (r : Rat) / 2 ^ sh ≤ 1 / 2 := fun h => by
    rw [div_le_iff₀ hP, hhalf]
    have : (r : Rat) ≤ ((2 ^ (sh - 1) : Nat) : Rat) := by exact_mod_cast h
    push_cast at this
    linarith
  rw [hm]
  generalize (r : Rat) / 2 ^ sh = x at hr0 hr1 hzero hbig hsmall
  -- with `up` the count is one more, without it the quotient
  have hyes : (rm = 0 → 2 ^ (sh - 1) ≤ r) → ¬(rm = 1 ∨ (rm = 2 ∧ neg = true) ∨ (rm = 3 ∧ neg = false)) → r ≠ 0 →
      Rounds rm neg ((n : Rat) + x) (n + 1) ∧ (r = 0 ↔ ((n + 1 : Nat) : Rat) = n + x) := fun h0 hd hr => by
    refine ⟨⟨fun h => ?_, fun h => absurd h hd, fun _ => ?_⟩, iff_of_false hr fun h => ?_⟩
    · rw [abs_le]; push_cast
      have := hbig (h0 h)
      constructor <;> linarith
    · push_cast
      have hx : x ≠ 0 := fun e => hr (hzero.1 e)
      have : 0 < x := lt_of_le_of_ne hr0 (Ne.symm hx)
      constructor <;> linarith
    · push_cast at h
      linarith
  have hno : (rm = 0 → r ≤ 2 ^ (sh - 1)) → (((rm = 2 ∧ neg = false) ∨ (rm = 3 ∧ neg = true)) → r = 0) →
      Rounds rm neg ((n : Rat) + x) n ∧ (r = 0 ↔ (n : Rat) = n + x) := fun h0 hu => by
    refine ⟨⟨fun h => ?_, fun _ => ⟨by linarith, by linarith⟩, fun h => ?_⟩, ?_⟩
    · rw [abs_le]
      have := hsmall (h0 h)
      constructor <;> linarith
    · rw [hzero.2 (hu h)]
      constructor <;> linarith
    · rw [← hzero]
      constructor <;> intro h <;> linarith
  by_cases hup : up = true
  · rw [if_pos hup]
    obtain ⟨h1, h2, h3⟩ := roundsUp_yes hrm (Nat.two_pow_pos _) hup
    exact hyes h1 h2 h3
  · rw [if_neg hup]
    obtain ⟨h1, h2⟩ := roundsUp_no hrm hup
    exact hno h1 h2

/-- The count of quanta 2^q that m × 2^e rounds to, and whether it is inexact. -/
theorem roundTo_rounds {rm : Nat} (hrm : rm < 4) (neg : Bool) (m : Nat) (e q : Int) :
    Rounds rm neg ((m : Rat) * 2 ^ e / 2 ^ q) (roundTo rm neg m e q false).1 ∧
      ((roundTo rm neg m e q false).2 = false ↔ ((roundTo rm neg m e q false).1 : Rat) = (m : Rat) * 2 ^ e / 2 ^ q) := by
  have ht : (m : Rat) * 2 ^ e / 2 ^ q = (m : Rat) * 2 ^ (e - q) := by
    rw [zpow_sub₀ (by norm_num), mul_div_assoc]
  rw [ht]
  by_cases hq : q ≤ e
  · have hr : roundTo rm neg m e q false = (m * 2 ^ (e - q).toNat, false) := by
      unfold roundTo
      rw [if_pos hq]
      simp
    have hpow : (m : Rat) * 2 ^ (e - q) = ((m * 2 ^ (e - q).toNat : Nat) : Rat) := by
      push_cast
      rw [← zpow_natCast, Int.toNat_of_nonneg (by omega)]
    rw [hr, hpow]
    exact ⟨Rounds.exact _ _ _, by simp⟩
  · have hsh : 0 < (q - e).toNat := by omega
    have hpow : (m : Rat) * 2 ^ (e - q) = (m : Rat) / 2 ^ (q - e).toNat := by
      rw [← zpow_natCast, Int.toNat_of_nonneg (by omega), div_eq_mul_inv, ← zpow_neg]
      congr 2
      omega
    obtain ⟨h1, h2⟩ := rounds_div hrm neg m (q - e).toNat hsh
    rw [hpow]
    unfold roundTo
    rw [if_neg hq]
    refine ⟨h1, Iff.trans ?_ h2⟩
    simp

/-! ### What a bit pattern is worth (R22) -/

/-- The exponent of a format's smallest quantum. -/
def Fmt.quantum (f : Fmt) : Int := f.emin - f.fb

/-- The magnitude of the low bits of a finite number's pattern. -/
def Fmt.mag (f : Fmt) (w : Nat) : Rat :=
  if w / 2 ^ f.fb = 0 then (w : Rat) * 2 ^ f.quantum
  else ((2 ^ f.fb + w % 2 ^ f.fb : Nat) : Rat) * 2 ^ (f.quantum + (w / 2 ^ f.fb - 1 : Nat))

/-- A sign, as a factor. -/
def sgn (neg : Bool) : Rat := if neg then -1 else 1

/-- The patterns below those of the infinities. -/
def Fmt.finite (f : Fmt) (w : Nat) : Prop := w < (2 ^ f.eb - 1) * 2 ^ f.fb

section
variable {f : Fmt} {w : Nat}

theorem Fmt.exponent_lt (hw : f.finite w) : w / 2 ^ f.fb < 2 ^ f.eb - 1 := (Nat.div_lt_iff_lt_mul (Nat.two_pow_pos _)).2 hw

theorem Fmt.finite_lt (hw : f.finite w) : w < 2 ^ (f.eb + f.fb) := by
  rw [Nat.pow_add]
  exact Nat.lt_of_lt_of_le hw (Nat.mul_le_mul_right _ (Nat.sub_le _ _))

/-- The sign, the exponent and the fraction of a pattern, apart. -/
theorem Fmt.fields_zero (neg : Bool) (hw : f.finite w) : (f.zero neg + w) / 2 ^ (f.eb + f.fb) % 2 = neg.toNat ∧
    (f.zero neg + w) / 2 ^ f.fb % 2 ^ f.eb = w / 2 ^ f.fb ∧ (f.zero neg + w) % 2 ^ f.fb = w % 2 ^ f.fb := by
  unfold Fmt.zero
  refine ⟨?_, ?_, ?_⟩
  · rw [Nat.mul_comm, Nat.mul_add_div (Nat.two_pow_pos _), Nat.div_eq_of_lt (f.finite_lt hw), Nat.add_zero]
    exact Nat.mod_eq_of_lt (Bool.toNat_lt neg)
  · rw [Nat.pow_add, ← Nat.mul_assoc, Nat.mul_comm _ (2 ^ f.fb), Nat.mul_add_div (Nat.two_pow_pos _), Nat.mul_comm, Nat.mul_add_mod]
    exact Nat.mod_eq_of_lt (Nat.lt_of_lt_of_le (f.exponent_lt hw) (Nat.sub_le _ _))
  · rw [Nat.pow_add, ← Nat.mul_assoc, Nat.mul_comm _ (2 ^ f.fb), Nat.mul_add_mod]

/-- The value of a finite number's pattern. -/
theorem Fmt.valOf_dec (neg : Bool) (hw : f.finite w) : valOf (f.dec (f.zero neg + w)) = some (sgn neg * f.mag w) := by
  obtain ⟨h1, h2, h3⟩ := Fmt.fields_zero neg hw
  have hneg : (neg.toNat == 1) = neg := by cases neg <;> rfl
  unfold Fmt.dec
  dsimp only
  rw [h1, h2, h3, hneg, if_neg (Nat.ne_of_lt (f.exponent_lt hw))]
  unfold Fmt.mag sgn
  by_cases h0 : w / 2 ^ f.fb = 0
  · rw [if_pos h0, if_pos h0]
    rw [Nat.mod_eq_of_lt (by rwa [Nat.div_eq_zero_iff_lt (Nat.two_pow_pos _)] at h0)]
    show some _ = some _
    rw [mul_assoc]
    rfl
  · rw [if_neg h0, if_neg h0]
    show some _ = some _
    rw [mul_assoc]
    generalize w / 2 ^ f.fb = k at h0 ⊢
    have he : (k : Int) - f.bias - f.fb = f.quantum + (k - 1 : Nat) := by
      unfold Fmt.quantum Fmt.emin
      omega
    rw [he]

/-- Every pattern of a finite number is a sign and such low bits. -/
theorem Fmt.finite_of_valOf {c : Nat} {z : Rat} (hc : c < 2 ^ (f.eb + f.fb + 1)) (h : valOf (f.dec c) = some z) :
    ∃ neg w, f.finite w ∧ z = sgn neg * f.mag w := by
  let w := c % 2 ^ (f.eb + f.fb)
  let neg : Bool := c / 2 ^ (f.eb + f.fb) == 1
  have hsign : c / 2 ^ (f.eb + f.fb) < 2 := (Nat.div_lt_iff_lt_mul (Nat.two_pow_pos _)).2 (by rw [Nat.pow_succ, Nat.mul_comm] at hc; exact hc)
  have hcw : f.zero neg + w = c := by
    have hn : neg.toNat = c / 2 ^ (f.eb + f.fb) := by
      rcases Nat.lt_succ_iff_lt_or_eq.1 hsign with h | h
      · rw [Nat.lt_one_iff] at h; simp [neg, h]
      · simp [neg, h]
    unfold Fmt.zero
    rw [hn, Nat.mul_comm]
    exact Nat.div_add_mod c _
  have hex : c / 2 ^ f.fb % 2 ^ f.eb = w / 2 ^ f.fb := by
    rw [show w = c % (2 ^ f.fb * 2 ^ f.eb) from congrArg (c % ·) (by rw [Nat.pow_add, Nat.mul_comm])]
    rw [Nat.mod_mul, Nat.add_mul_div_left _ _ (Nat.two_pow_pos _), Nat.div_eq_of_lt (Nat.mod_lt _ (Nat.two_pow_pos _)), Nat.zero_add]
  have hw : f.finite w := by
    by_contra hno
    have hle : 2 ^ f.eb - 1 ≤ w / 2 ^ f.fb := (Nat.le_div_iff_mul_le (Nat.two_pow_pos _)).2 (Nat.le_of_not_lt hno)
    have hlt : w / 2 ^ f.fb < 2 ^ f.eb := hex ▸ Nat.mod_lt _ (Nat.two_pow_pos _)
    have htop : c / 2 ^ f.fb % 2 ^ f.eb = 2 ^ f.eb - 1 := by rw [hex]; omega
    unfold Fmt.dec at h
    dsimp only at h
    rw [if_pos htop] at h
    split at h <;> exact absurd h (by simp [valOf])
  refine ⟨neg, w, hw, ?_⟩
  rw [← hcw, Fmt.valOf_dec neg hw] at h
  exact (Option.some.inj h).symm

theorem Fmt.mag_zero (f : Fmt) : f.mag 0 = 0 := by
  unfold Fmt.mag
  simp

theorem Fmt.mag_nonneg (f : Fmt) (w : Nat) : 0 ≤ f.mag w := by
  unfold Fmt.mag
  split <;> positivity

/-- A value of the format is a multiple of a quantum, or below the least number that has it as its own. -/
theorem Fmt.mag_grid (f : Fmt) (w j : Nat) : (∃ k : Nat, f.mag w = k * 2 ^ (f.quantum + j)) ∨
    (0 < j ∧ f.mag w < 2 ^ f.fb * 2 ^ (f.quantum + j)) := by
  have hmono : ∀ {a b : Int}, a ≤ b → (2 : Rat) ^ a ≤ 2 ^ b := fun h => zpow_le_zpow_right₀ (by norm_num) h
  unfold Fmt.mag
  by_cases h0 : w / 2 ^ f.fb = 0
  · rw [if_pos h0]
    rcases Nat.eq_zero_or_pos j with rfl | hj
    · exact .inl ⟨w, by simp⟩
    · refine .inr ⟨hj, ?_⟩
      have hw : (w : Rat) < 2 ^ f.fb := by
        have := (Nat.div_eq_zero_iff_lt (Nat.two_pow_pos f.fb)).1 h0
        exact_mod_cast this
      calc (w : Rat) * 2 ^ f.quantum < 2 ^ f.fb * 2 ^ f.quantum := mul_lt_mul_of_pos_right hw (by positivity)
        _ ≤ _ := mul_le_mul_of_nonneg_left (hmono (by omega)) (by positivity)
  · rw [if_neg h0]
    by_cases hi : j ≤ w / 2 ^ f.fb - 1
    · refine .inl ⟨(2 ^ f.fb + w % 2 ^ f.fb) * 2 ^ (w / 2 ^ f.fb - 1 - j), ?_⟩
      rw [Nat.cast_mul, mul_assoc]
      congr 1
      push_cast
      rw [← zpow_natCast, ← zpow_add₀ (by norm_num)]
      congr 1
      omega
    · refine .inr ⟨by omega, ?_⟩
      have hfr : ((2 ^ f.fb + w % 2 ^ f.fb : Nat) : Rat) < 2 ^ f.fb * 2 := by
        have := Nat.mod_lt w (Nat.two_pow_pos f.fb)
        have h2 : 2 ^ f.fb + w % 2 ^ f.fb < 2 ^ f.fb * 2 := by omega
        exact_mod_cast h2
      calc ((2 ^ f.fb + w % 2 ^ f.fb : Nat) : Rat) * 2 ^ (f.quantum + (w / 2 ^ f.fb - 1 : Nat))
          < 2 ^ f.fb * 2 * 2 ^ (f.quantum + (w / 2 ^ f.fb - 1 : Nat)) := mul_lt_mul_of_pos_right hfr (by positivity)
        _ = 2 ^ f.fb * 2 ^ (f.quantum + (w / 2 ^ f.fb - 1 : Nat) + 1) := by rw [zpow_add₀ (by norm_num) _ 1]; ring
        _ ≤ _ := mul_le_mul_of_nonneg_left (hmono (by omega)) (by positivity)

/-- The pattern of a count of quanta; a carry into the next binade is still exact. -/
theorem Fmt.mag_encode (f : Fmt) {n j : Nat} (hn : n ≤ 2 ^ (f.fb + 1)) (hj : 0 < j → 2 ^ f.fb ≤ n) :
    f.mag (j * 2 ^ f.fb + n) = n * 2 ^ (f.quantum + j) := by
  have hP := Nat.two_pow_pos f.fb
  rw [Nat.pow_succ] at hn
  have hdiv : (j * 2 ^ f.fb + n) / 2 ^ f.fb = j + n / 2 ^ f.fb := by rw [Nat.mul_comm, Nat.mul_add_div hP]
  have hmod : (j * 2 ^ f.fb + n) % 2 ^ f.fb = n % 2 ^ f.fb := by rw [Nat.mul_comm, Nat.mul_add_mod]
  unfold Fmt.mag
  rw [hdiv, hmod]
  by_cases hlow : n < 2 ^ f.fb
  · obtain rfl : j = 0 := by
      by_contra h
      have := hj (Nat.pos_of_ne_zero h)
      omega
    rw [if_pos (by rw [Nat.div_eq_of_lt hlow])]
    simp
  · by_cases hfull : n = 2 ^ f.fb * 2
    · subst hfull
      rw [Nat.mul_div_cancel_left _ hP, Nat.mul_mod_right, if_neg (by omega)]
      push_cast
      rw [← add_assoc, zpow_add₀ (by norm_num) _ 1]
      ring
    · have h1 : n / 2 ^ f.fb = 1 := by
        refine Nat.div_eq_of_lt_le ?_ ?_ <;> omega
      have h2 : n % 2 ^ f.fb = n - 2 ^ f.fb := by rw [Nat.mod_eq_sub_mod (by omega), Nat.mod_eq_of_lt (by omega)]
      rw [h1, h2, if_neg (by omega), Nat.add_sub_cancel, Nat.add_sub_cancel' (Nat.le_of_not_lt hlow)]

end

/-! ### Comparison with every value of the format (R26) -/

/-- A magnitude `y` of the format is what a magnitude `x` rounds to, of all there are. -/
structure Best (f : Fmt) (rm : Nat) (neg : Bool) (x y : Rat) : Prop where
  near : rm = 0 → ∀ w, f.finite w → |y - x| ≤ |f.mag w - x|
  down : (rm = 1 ∨ (rm = 2 ∧ neg = true) ∨ (rm = 3 ∧ neg = false)) → y ≤ x ∧ ∀ w, f.finite w → f.mag w ≤ x → f.mag w ≤ y
  up : ((rm = 2 ∧ neg = false) ∨ (rm = 3 ∧ neg = true)) → x ≤ y ∧ ∀ w, f.finite w → x ≤ f.mag w → y ≤ f.mag w

section
variable {f : Fmt} {rm n j : Nat} {neg : Bool} {x t p : Rat}

/-- A count of quanta that is rounded to is the best of the format. -/
theorem best_of_rounds (h : Rounds rm neg t n) (hp : p = 2 ^ (f.quantum + j)) (hx : x = t * p) (hlow : 0 < j → (2 ^ f.fb : Nat) ≤ t ∧ 2 ^ f.fb ≤ n) :
    Best f rm neg x (n * p) := by
  have hp0 : 0 < p := by rw [hp]; positivity
  have hgrid : ∀ w, (∃ k : Nat, f.mag w = k * p) ∨ (0 < j ∧ f.mag w < 2 ^ f.fb * p) := fun w => by rw [hp]; exact f.mag_grid w j
  have hcast : 0 < j → (2 : Rat) ^ f.fb ≤ t ∧ (2 : Rat) ^ f.fb ≤ n := fun hj => by
    have h2 : ((2 ^ f.fb : Nat) : Rat) ≤ n := by exact_mod_cast (hlow hj).2
    have h1 := (hlow hj).1
    push_cast at h1 h2
    exact ⟨h1, h2⟩
  have habs : ∀ k : Rat, |k * p - t * p| = |k - t| * p := fun k => by rw [← sub_mul, abs_mul, abs_of_pos hp0]
  refine ⟨fun h0 w _ => ?_, fun hd => ⟨?_, fun w _ hw => ?_⟩, fun hu => ⟨?_, fun w _ hw => ?_⟩⟩
  · rw [hx, habs]
    rcases hgrid w with ⟨k, hk⟩ | ⟨hj, hk⟩
    · rw [hk, habs]
      exact mul_le_mul_of_nonneg_right (h.nearest h0 k) hp0.le
    · have h1 := h.nearest h0 (2 ^ f.fb)
      have h2 : |((2 ^ f.fb : Nat) : Rat) - t| = t - 2 ^ f.fb := by
        rw [abs_sub_comm, abs_of_nonneg (by push_cast; linarith [(hcast hj).1])]
        push_cast
        rfl
      rw [h2] at h1
      calc |(n : Rat) - t| * p ≤ (t - 2 ^ f.fb) * p := mul_le_mul_of_nonneg_right h1 hp0.le
        _ = t * p - 2 ^ f.fb * p := by ring
        _ ≤ t * p - f.mag w := by linarith
        _ ≤ |f.mag w - t * p| := by rw [abs_sub_comm]; exact le_abs_self _
  · rw [hx]
    exact mul_le_mul_of_nonneg_right (h.down hd).1 hp0.le
  · rcases hgrid w with ⟨k, hk⟩ | ⟨hj, hk⟩
    · rw [hk, hx] at hw
      rw [hk]
      have := h.below hd (le_of_mul_le_mul_right hw hp0)
      exact mul_le_mul_of_nonneg_right (by exact_mod_cast this) hp0.le
    · exact hk.le.trans (mul_le_mul_of_nonneg_right (hcast hj).2 hp0.le)
  · rw [hx]
    exact mul_le_mul_of_nonneg_right (h.up hu).1 hp0.le
  · rcases hgrid w with ⟨k, hk⟩ | ⟨hj, hk⟩
    · rw [hk, hx] at hw
      rw [hk]
      have := h.above hu (le_of_mul_le_mul_right hw hp0)
      exact mul_le_mul_of_nonneg_right (by exact_mod_cast this) hp0.le
    · have h1 := mul_le_mul_of_nonneg_right (hcast hj).1 hp0.le
      rw [hx] at hw
      linarith

/-- The comparison of signed values. -/
theorem best_signed {y : Rat} (h : Best f rm neg x y) (hx : 0 < x) (hy : 0 ≤ y) (hf : f.finite 0) {sign : Bool} {w : Nat} (hw : f.finite w) :
    (rm = 0 → |sgn neg * y - sgn neg * x| ≤ |sgn sign * f.mag w - sgn neg * x|) ∧
    (rm = 1 → |sgn neg * y| ≤ |sgn neg * x| ∧ (|sgn sign * f.mag w| ≤ |sgn neg * x| → |sgn sign * f.mag w| ≤ |sgn neg * y|)) ∧
    (rm = 2 → sgn neg * x ≤ sgn neg * y ∧ (sgn neg * x ≤ sgn sign * f.mag w → sgn neg * y ≤ sgn sign * f.mag w)) ∧
    (rm = 3 → sgn neg * y ≤ sgn neg * x ∧ (sgn sign * f.mag w ≤ sgn neg * x → sgn sign * f.mag w ≤ sgn neg * y)) := by
  have hz := f.mag_nonneg w
  have habs : ∀ (b : Bool) (a : Rat), |sgn b * a| = |a| := fun b a => by cases b <;> simp [sgn]
  refine ⟨fun h0 => ?_, fun h1 => ?_, fun h2 => ?_, fun h3 => ?_⟩
  · have hzero : |y - x| ≤ x := by
      have := h.near h0 0 hf
      rwa [f.mag_zero, zero_sub, abs_neg, abs_of_pos hx] at this
    rw [← mul_sub, habs]
    by_cases hs : sign = neg
    · rw [hs, ← mul_sub, habs]
      exact h.near h0 w hw
    · have hopp : |sgn sign * f.mag w - sgn neg * x| = f.mag w + x := by
        have hneg : sgn neg = -sgn sign := by cases sign <;> cases neg <;> simp_all [sgn]
        rw [hneg, neg_mul, sub_neg_eq_add, ← mul_add, habs, abs_of_nonneg (by linarith)]
      rw [hopp]
      linarith
  · obtain ⟨ha, hb⟩ := h.down (.inl h1)
    rw [habs, habs, habs, abs_of_nonneg hy, abs_of_pos hx, abs_of_nonneg hz]
    exact ⟨ha, hb w hw⟩
  · cases neg with
    | false =>
      obtain ⟨ha, hb⟩ := h.up (.inl ⟨h2, rfl⟩)
      cases sign with
      | false => simpa [sgn] using And.intro ha (hb w hw)
      | true => exact ⟨by simpa [sgn] using ha, fun e => by simp only [sgn] at e; norm_num at e; linarith⟩
    | true =>
      obtain ⟨ha, hb⟩ := h.down (.inr (.inl ⟨h2, rfl⟩))
      cases sign with
      | false => exact ⟨by simpa [sgn] using ha, fun _ => by simp only [sgn]; norm_num; linarith⟩
      | true => simpa [sgn] using And.intro ha (hb w hw)
  · cases neg with
    | false =>
      obtain ⟨ha, hb⟩ := h.down (.inr (.inr ⟨h3, rfl⟩))
      cases sign with
      | false => simpa [sgn] using And.intro ha (hb w hw)
      | true => exact ⟨by simpa [sgn] using ha, fun _ => by simp only [sgn]; norm_num; linarith⟩
    | true =>
      obtain ⟨ha, hb⟩ := h.up (.inr ⟨h3, rfl⟩)
      cases sign with
      | false => exact ⟨by simpa [sgn] using ha, fun e => by simp only [sgn] at e; norm_num at e; linarith⟩
      | true => simpa [sgn] using And.intro ha (hb w hw)

end

/-! ### The rounding of a format -/

/-- The quanta that a value of leading exponent `lead` is rounded to, above a format's smallest. -/
def Fmt.above (f : Fmt) (m : Nat) (e : Int) : Nat := (max (e + bitLen m - 1 - f.fb) f.quantum - f.quantum).toNat

/-- The count of those quanta. -/
def Fmt.count (f : Fmt) (rm : Nat) (neg : Bool) (m : Nat) (e : Int) : Nat × Bool := roundTo rm neg m e (f.quantum + f.above m e) false

theorem Fmt.round_cases (f : Fmt) (rm : Nat) (neg : Bool) {m : Nat} (hm : m ≠ 0) (e : Int) :
    let bits := f.above m e * 2 ^ f.fb + (f.count rm neg m e).1
    (¬f.finite bits → f.round rm false neg m e false =
      (if rm = 0 ∨ (rm = 2 ∧ neg = false) ∨ (rm = 3 ∧ neg = true) then f.inf neg else f.top neg, fOF ||| fNX)) ∧
    (f.finite bits → ∃ uf : Bool, f.round rm false neg m e false =
      (f.zero neg + bits, (if (f.count rm neg m e).2 then fNX else 0#6) ||| if uf then fUF else 0#6)) := by
  intro bits
  have hq : max (e + bitLen m - 1 - f.fb) (f.emin - f.fb) = f.quantum + f.above m e := by
    unfold Fmt.above
    rw [Int.toNat_of_nonneg (by have := le_max_right (e + bitLen m - 1 - (f.fb : Int)) f.quantum; omega)]
    show max _ f.quantum = _
    omega
  have hex : (f.quantum + f.above m e + f.fb - f.emin).toNat = f.above m e := by
    unfold Fmt.quantum
    omega
  unfold Fmt.round
  rw [if_neg hm]
  dsimp only
  rw [hq, hex, Bool.false_and, if_neg Bool.false_ne_true]
  refine ⟨fun h => if_pos (Nat.le_of_not_lt h), fun h => ⟨_, if_neg (Nat.not_le.2 h)⟩⟩

/-- The exact magnitude lies where its quanta are those of its binade, or the smallest. -/
theorem Fmt.count_bounds (f : Fmt) {m : Nat} (hm : m ≠ 0) (e : Int) : let t := (m : Rat) * 2 ^ e / 2 ^ (f.quantum + f.above m e)
    t < (2 ^ (f.fb + 1) : Nat) ∧ (0 < f.above m e → ((2 ^ f.fb : Nat) : Rat) ≤ t) := by
  intro t
  have hlog : bitLen m = Nat.log2 m + 1 := if_neg hm
  have hlo : (2 : Rat) ^ (Nat.log2 m : Int) ≤ m := by
    rw [zpow_natCast]
    exact_mod_cast Nat.log2_self_le hm
  have hhi : (m : Rat) < 2 ^ ((Nat.log2 m : Int) + 1) := by
    have : m < 2 ^ (Nat.log2 m + 1) := Nat.lt_log2_self
    rw [show (Nat.log2 m : Int) + 1 = ((Nat.log2 m + 1 : Nat) : Int) from rfl, zpow_natCast]
    exact_mod_cast this
  have hlead : e + bitLen m - 1 = e + Nat.log2 m := by rw [hlog]; push_cast; ring
  have habove : f.quantum + f.above m e = max (e + Nat.log2 m - f.fb) f.quantum := by
    unfold Fmt.above
    rw [hlead, Int.toNat_of_nonneg (by have := le_max_right (e + (Nat.log2 m : Int) - (f.fb : Int)) f.quantum; omega)]
    omega
  have he0 : (0 : Rat) < 2 ^ e := by positivity
  constructor
  · show (m : Rat) * 2 ^ e / 2 ^ (f.quantum + f.above m e) < _
    rw [div_lt_iff₀ (by positivity)]
    calc (m : Rat) * 2 ^ e < 2 ^ ((Nat.log2 m : Int) + 1) * 2 ^ e := mul_lt_mul_of_pos_right hhi he0
      _ = 2 ^ ((Nat.log2 m : Int) + 1 + e) := (zpow_add₀ (by norm_num) _ _).symm
      _ ≤ 2 ^ (((f.fb + 1 : Nat) : Int) + (f.quantum + f.above m e)) := zpow_le_zpow_right₀ (by norm_num) (by
          rw [habove]
          have := le_max_left (e + (Nat.log2 m : Int) - (f.fb : Int)) f.quantum
          push_cast
          omega)
      _ = _ := by rw [zpow_add₀ (by norm_num), zpow_natCast]; push_cast; rfl
  · intro hpos
    have hmax : f.quantum + f.above m e = e + Nat.log2 m - f.fb := by omega
    show _ ≤ (m : Rat) * 2 ^ e / 2 ^ (f.quantum + f.above m e)
    rw [le_div_iff₀ (by positivity), hmax]
    calc ((2 ^ f.fb : Nat) : Rat) * 2 ^ (e + Nat.log2 m - f.fb) = 2 ^ ((f.fb : Int) + (e + Nat.log2 m - f.fb)) := by
          rw [zpow_add₀ (by norm_num), zpow_natCast]; push_cast; rfl
      _ = 2 ^ (Nat.log2 m : Int) * 2 ^ e := by rw [← zpow_add₀ (by norm_num)]; congr 1; omega
      _ ≤ _ := mul_le_mul_of_nonneg_right hlo he0.le

/-- The count's magnitude, whether it is exact, and that it is the best of the format. -/
theorem Fmt.count_best (f : Fmt) {rm : Nat} (hrm : rm < 4) (neg : Bool) {m : Nat} (hm : m ≠ 0) (e : Int) :
    let y := f.mag (f.above m e * 2 ^ f.fb + (f.count rm neg m e).1)
    Best f rm neg ((m : Rat) * 2 ^ e) y ∧ ((f.count rm neg m e).2 = false ↔ y = (m : Rat) * 2 ^ e) := by
  intro y
  obtain ⟨hr, hx⟩ := roundTo_rounds hrm neg m e (f.quantum + f.above m e)
  obtain ⟨hlt, hge⟩ := f.count_bounds hm e
  have hp : (0 : Rat) < 2 ^ (f.quantum + (f.above m e : Int)) := by positivity
  have hj : 0 < f.above m e → 2 ^ f.fb ≤ (f.count rm neg m e).1 := fun h => hr.ge_of_le hrm (hge h)
  have hy : y = (f.count rm neg m e).1 * 2 ^ (f.quantum + (f.above m e : Int)) := f.mag_encode (hr.le_of_lt hrm hlt) hj
  have hxe : (m : Rat) * 2 ^ e = (m : Rat) * 2 ^ e / 2 ^ (f.quantum + (f.above m e : Int)) * 2 ^ (f.quantum + (f.above m e : Int)) := by
    field_simp
  rw [hy]
  refine ⟨best_of_rounds hr rfl hxe fun h => ⟨hge h, hj h⟩, hx.trans ?_⟩
  rw [eq_div_iff hp.ne']
  rfl

/-! ### Exact sums and products -/

theorem valOf_fin {x : FV} {u : Rat} (h : valOf x = some u) : ∃ n m e, x = .fin n m e ∧ u = sgn n * (m : Rat) * 2 ^ e := by
  cases x with
  | fin n m e => exact ⟨n, m, e, rfl, (Option.some.inj h).symm⟩
  | nan s => cases h
  | inf n => cases h

theorem valOf_mul (n1 n2 : Bool) (m1 m2 : Nat) (e1 e2 : Int) :
    valOf (.fin (n1 != n2) (m1 * m2) (e1 + e2)) = some (sgn n1 * (m1 : Rat) * 2 ^ e1 * (sgn n2 * (m2 : Rat) * 2 ^ e2)) := by
  have hs : sgn (n1 != n2) = sgn n1 * sgn n2 := by cases n1 <;> cases n2 <;> simp [sgn]
  show some (sgn (n1 != n2) * ((m1 * m2 : Nat) : Rat) * 2 ^ (e1 + e2)) = _
  rw [hs, zpow_add₀ (by norm_num)]
  push_cast
  congr 1
  ring

theorem valOf_add (rm : Nat) (n1 n2 : Bool) (m1 m2 : Nat) (e1 e2 : Int) : let r := addFin rm n1 m1 e1 n2 m2 e2
    valOf (.fin r.1 r.2.1 r.2.2) = some (sgn n1 * (m1 : Rat) * 2 ^ e1 + sgn n2 * (m2 : Rat) * 2 ^ e2) := by
  intro r
  let e := min e1 e2
  let a : Int := (if n1 then -1 else 1) * ((m1 * 2 ^ (e1 - e).toNat : Nat) : Int)
  let b : Int := (if n2 then -1 else 1) * ((m2 * 2 ^ (e2 - e).toNat : Nat) : Int)
  have hterm : ∀ (n : Bool) (m : Nat) (k : Int), e ≤ k →
      ((((if n then -1 else 1) * ((m * 2 ^ (k - e).toNat : Nat) : Int) : Int)) : Rat) * 2 ^ e = sgn n * (m : Rat) * 2 ^ k := fun n m k hk => by
    have hpow : (2 : Rat) ^ k = 2 ^ (k - e).toNat * 2 ^ e := by
      rw [← zpow_natCast, Int.toNat_of_nonneg (by omega), ← zpow_add₀ (by norm_num)]
      congr 1
      omega
    rw [hpow]
    cases n <;> simp only [sgn] <;> push_cast <;> norm_num <;> ring
  have hsum : sgn n1 * (m1 : Rat) * 2 ^ e1 + sgn n2 * (m2 : Rat) * 2 ^ e2 = ((a + b : Int) : Rat) * 2 ^ e := by
    rw [← hterm n1 m1 e1 (min_le_left _ _), ← hterm n2 m2 e2 (min_le_right _ _), ← add_mul]
    exact congrArg (· * (2 : Rat) ^ e) (Int.cast_add a b).symm
  rw [hsum]
  have hr : r = if a + b = 0 then (if m1 = 0 ∧ m2 = 0 ∧ n1 = n2 then n1 else rm == 3, 0, e) else (decide (a + b < 0), (a + b).natAbs, e) := rfl
  rw [hr]
  generalize a + b = s
  by_cases h0 : s = 0
  · rw [if_pos h0, h0]
    show some (sgn _ * ((0 : Nat) : Rat) * 2 ^ e) = _
    simp
  · rw [if_neg h0]
    have habs : sgn (decide (s < 0)) * (s.natAbs : Rat) = s := by
      by_cases hs : s < 0
      · rw [Nat.cast_natAbs, abs_of_neg hs, show decide (s < 0) = true from decide_eq_true hs]
        simp [sgn]
      · rw [Nat.cast_natAbs, abs_of_nonneg (by omega), show decide (s < 0) = false from decide_eq_false hs]
        simp [sgn]
    show some (sgn _ * (s.natAbs : Rat) * 2 ^ e) = _
    rw [habs]

/-! ### The three formats -/

theorem flags_bits : ∀ nx uf : Bool, ((if nx then fNX else 0#6) ||| if uf then fUF else 0#6).getLsbD 2 = false ∧
    ((if nx then fNX else 0#6) ||| if uf then fUF else 0#6).getLsbD 4 = nx := by decide

theorem overflow_bits : (fOF ||| fNX).getLsbD 2 = true ∧ (fOF ||| fNX).getLsbD 4 = true := by decide

theorem formats_ends : ∀ f ∈ [fmtH16, fmtB16, fmtF32], (0 < (2 ^ f.eb - 1) * 2 ^ f.fb) ∧
    (∀ neg, f.dec (f.inf neg) = .inf neg ∧ f.dec (f.top neg) ≠ .inf neg) ∧
    f.dec f.one = .fin false (2 ^ f.fb) (-(f.fb : Int)) ∧ (f.dec f.nan).isNan = true := by decide

end Sys2Proof.Machine

namespace Sys2Proof

open Machine

/-- Settles O44: the count of quanta by the mode, its pattern's magnitude, and the comparison with every magnitude of the format; sums and
products by their exact values. -/
theorem floatRounding : Obligations.FloatRounding := by
  unfold Obligations.FloatRounding
  intro f hfm
  obtain ⟨hf0, hends, hone, hnan⟩ := formats_ends f hfm
  refine ⟨fun rm neg m e hrm hm => ?_, fun rm foz x y u v hx hy => ⟨?_, ?_, fun z w hz => ?_⟩, hone, hnan, (hends true).1⟩
  · intro x r big
    obtain ⟨hover, hin⟩ := f.round_cases rm neg hm e
    have hX : (0 : Rat) < (m : Rat) * 2 ^ e := by
      have : (0 : Rat) < m := by exact_mod_cast Nat.pos_of_ne_zero hm
      positivity
    have hx : x = sgn neg * ((m : Rat) * 2 ^ e) := mul_assoc _ _ _
    by_cases hfin : f.finite (f.above m e * 2 ^ f.fb + (f.count rm neg m e).1)
    · obtain ⟨uf, hr⟩ := hin hfin
      obtain ⟨hbest, hexact⟩ := f.count_best hrm neg hm e
      have hnb : ¬big := by
        show ¬r.2.getLsbD 2 = true
        rw [show r = _ from hr, (flags_bits _ _).1]
        exact Bool.false_ne_true
      have hnx : r.2.getLsbD 4 = (f.count rm neg m e).2 := by
        rw [show r = _ from hr]
        exact (flags_bits _ _).2
      refine ⟨fun h => absurd h hnb, fun _ => ⟨sgn neg * f.mag (f.above m e * 2 ^ f.fb + (f.count rm neg m e).1), ?_, ?_, fun c z hc hz => ?_⟩⟩
      · rw [show r = _ from hr]
        exact Fmt.valOf_dec neg hfin
      · have hs : sgn neg ≠ 0 := by cases neg <;> simp [sgn]
        rw [hnx, hx, ne_eq, mul_right_inj' hs, ← hexact, Bool.not_eq_false]
      · obtain ⟨sign, w, hw, rfl⟩ := Fmt.finite_of_valOf hc hz
        rw [hx]
        exact best_signed hbest hX (f.mag_nonneg _) hf0 hw
    · have hr := hover hfin
      have hb : big := by
        show r.2.getLsbD 2 = true
        rw [show r = _ from hr]
        exact overflow_bits.1
      refine ⟨fun _ => ⟨?_, ?_, ?_⟩, fun h => absurd hb h⟩
      · rw [show r = _ from hr]
        exact overflow_bits.2
      · rw [show r = _ from hr]
        dsimp only
        split
        · exact .inl (hends neg).1
        · exact .inr rfl
      · rw [show r = _ from hr]
        dsimp only
        split
        · next h => exact iff_of_true (hends neg).1 h
        · next h => exact iff_of_false (hends neg).2 h
  · obtain ⟨n1, m1, e1, rfl, rfl⟩ := valOf_fin hx
    obtain ⟨n2, m2, e2, rfl, rfl⟩ := valOf_fin hy
    exact ⟨_, _, _, valOf_add rm n1 n2 m1 m2 e1 e2, rfl⟩
  · obtain ⟨n1, m1, e1, rfl, rfl⟩ := valOf_fin hx
    obtain ⟨n2, m2, e2, rfl, rfl⟩ := valOf_fin hy
    exact ⟨_, _, _, valOf_mul n1 n2 m1 m2 e1 e2, rfl⟩
  · obtain ⟨n1, m1, e1, rfl, rfl⟩ := valOf_fin hx
    obtain ⟨n2, m2, e2, rfl, rfl⟩ := valOf_fin hy
    obtain ⟨n3, m3, e3, rfl, rfl⟩ := valOf_fin hz
    refine ⟨_, _, _, (valOf_add rm (n1 != n2) n3 (m1 * m2) m3 (e1 + e2) e3).trans ?_, rfl⟩
    have h := Option.some.inj (valOf_mul n1 n2 m1 m2 e1 e2)
    rw [← h]
    rfl

end Sys2Proof

end

section
set_option Elab.async false

/-! SUPPORT. The events of a revocation: draining and a MOVE's copy, the sweep, the states that follow, and the walk of saved contexts
(R206, R210 to R213). O27. -/

namespace Sys2Proof.Machine

/-! ### Entries -/

theorem State.ent_congr {s t : State} (h : t.pontil = s.pontil) (e : Nat) : t.ent e = s.ent e := by
  rw [State.ent, h, State.ent]

theorem entryOnly_setEnt {s t : State} (h : t.pontil = s.pontil) (e : Nat) (v : PEntry) : EntryOnly s (t.setEnt e v) e := fun _ hd =>
  (State.ent_setEnt_other t v hd).trans (State.ent_congr h _)

/-! ### Where no stash holds a byte that it wrote -/

theorem noneDirty_of_homes {s t : State} {pas : List Nat} (h : Homes s t pas) (hn : NoneDirty s) : NoneDirty t := fun d pa hw =>
  hn d pa (h.frame.wroteAt hw).1

theorem byte_of_homes {s t : State} {pas : List Nat} (h : Homes s t pas) (hn : NoneDirty s) {pa : Nat} (hpa : pa ∉ pas) : t.byte pa = s.byte pa :=
  (h.bytes pa hpa).elim id fun ⟨d, hw, _⟩ => absurd hw (hn d pa)

theorem State.writeEntry_homes (s : State) (e : Nat) : Homes s (s.writeEntry e) [] := by
  unfold State.writeEntry
  refine Homes.foldl _ s fun t c _ => ?_
  exact Homes.foldl _ t fun u p _ => State.writeBack_homes u c _

/-! ### A MOVE's copy (R206) -/

/-- The bytes of an extent with those of its forward entry, in order. -/
def State.movePairs (s : State) (e : Nat) : List (Nat × Nat) :=
  (List.range (s.ent e).len).filterMap (fun i =>
    match (s.ent e).at_ i, (s.ent (s.ent e).fwd).at_ i with
    | some a, some b => some (a, b)
    | _, _ => none)

theorem State.mem_movePairs {s : State} {e a b : Nat} : (a, b) ∈ s.movePairs e ↔
    ∃ i, i < (s.ent e).len ∧ (s.ent e).at_ i = some a ∧ (s.ent (s.ent e).fwd).at_ i = some b := by
  unfold State.movePairs
  rw [List.mem_filterMap]
  constructor
  · rintro ⟨i, hi, h⟩
    refine ⟨i, List.mem_range.1 hi, ?_⟩
    split at h
    · next x y hx hy =>
      obtain ⟨rfl, rfl⟩ := Prod.mk.inj (Option.some.inj h)
      exact ⟨hx, hy⟩
    · cases h
  · rintro ⟨i, hi, ha, hb⟩
    exact ⟨i, List.mem_range.2 hi, by rw [ha, hb]⟩

theorem one_shift_bit {k n : Nat} (hk : k < 64) : (1#64 <<< n).getLsbD k = (k == n) := by
  rw [BitVec.getLsbD_shiftLeft, BitVec.getLsbD_one]
  rcases Nat.lt_trichotomy k n with h | h | h
  · simp [hk, h, Nat.ne_of_lt h]
  · subst h; simp [hk]
  · simp [hk, Nat.not_lt.2 h.le, Nat.ne_of_gt h, Nat.sub_ne_zero_of_lt h]

/-- What a MOVE's copy leaves. -/
theorem State.moveExtent_copies (s : State) (e : Nat) : (s.moveExtent e).pontil = s.pontil ∧ RegistersKept s (s.moveExtent e) ∧
    (NoneDirty s → (∀ a b a' b', (a, b) ∈ s.movePairs e → (a', b') ∈ s.movePairs e → b = b' → a = a') →
      ∀ a b, (a, b) ∈ s.movePairs e → (s.moveExtent e).byte b = s.byte a) := by
  unfold State.moveExtent
  extract_lets v src s0 m t
  have hsrc : s.movePairs e = src := rfl
  rw [hsrc]
  clear_value src
  have h1 : Homes s s0 [] := Homes.foldl _ s fun t ln _ => State.pullLine_homes t ln
  have h2 : Homes s m.1 [] := h1.trans (State.marksOf_homes s0 _ [])
  have h3 : HomeFrame s t := h2.frame.trans (State.homeWrite_homes m.1 _ _ {}).frame
  have hb : NoneDirty s → (∀ a b a' b', (a, b) ∈ src → (a', b') ∈ src → b = b' → a = a') →
      ∀ a b, (a, b) ∈ src → t.byte b = s.byte a := fun hn hinj a b hab => by
    have hin : (b, m.1.byte a) ∈ src.map (fun p => (p.2, m.1.byte p.1)) := List.mem_map.2 ⟨(a, b), hab, rfl⟩
    refine (State.homeWrite_byte (b := m.1.byte a) _ {} (List.mem_map.2 ⟨_, hin, rfl⟩) fun p hp hpb => ?_).trans (byte_of_homes h2 hn nofun)
    obtain ⟨⟨a', b'⟩, hq, rfl⟩ := List.mem_map.1 hp
    exact congrArg m.1.byte (hinj a' b' a b hq hab hpb)
  have hp := h3.pontil
  have hr := h3.registers
  clear_value t
  exact ⟨hp, hr, hb⟩

/-! ### What a core's own changes leave alone -/

/-- Nothing outside core `c` that a revocation speaks of differs. -/
structure AtCore (c : Nat) (s t : State) : Prop where
  mem : t.mem = s.mem
  pontil : t.pontil = s.pontil
  others : ∀ d, d ≠ c → t.core d = s.core d

section
variable {c : Nat} {s t u : State}

theorem AtCore.refl (c : Nat) (s : State) : AtCore c s s := ⟨rfl, rfl, fun _ _ => rfl⟩

theorem AtCore.trans (h : AtCore c s t) (k : AtCore c t u) : AtCore c s u :=
  ⟨k.mem.trans h.mem, k.pontil.trans h.pontil, fun d hd => (k.others d hd).trans (h.others d hd)⟩

theorem AtCore.mod (s : State) (c : Nat) (f : Core → Core) : AtCore c s (s.mod c f) := ⟨rfl, rfl, fun _ hd => State.core_mod_other s f hd⟩

theorem AtCore.foldl {α : Type} {f : State → α → State} (l : List α) (s : State) (hf : ∀ t a, AtCore c t (f t a)) : AtCore c s (l.foldl f s) := by
  induction l generalizing s with
  | nil => exact AtCore.refl c s
  | cons a l ih => exact (hf s a).trans (ih _)

/-- Something of core `c` that no step of a fold changes. -/
theorem foldl_core {α β : Type} (g : Core → β) {f : State → α → State} (l : List α) (s : State) (hf : ∀ t a, g ((f t a).core c) = g (t.core c)) :
    g ((l.foldl f s).core c) = g (s.core c) := by
  induction l generalizing s with
  | nil => rfl
  | cons a l ih => exact (ih _).trans (hf s a)

theorem AtCore.modCmds (s : State) (c : Nat) (p : Token → Bool) (f : MxCmd → MxCmd) (g : UmCmd → UmCmd) : AtCore c s (s.modCmds c p f g) :=
  ⟨rfl, rfl, fun _ hd => State.core_mod_other ((s.setMarver _ _).setUm _ _) _ hd⟩

theorem State.modCmds_core (s : State) (c : Nat) (p : Token → Bool) (f : MxCmd → MxCmd) (g : UmCmd → UmCmd) :
    ((s.modCmds c p f g).core c).r = (s.core c).r ∧ ((s.modCmds c p f g).core c).c = (s.core c).c := by
  unfold State.modCmds
  dsimp only
  rw [State.core_mod_same]
  exact ⟨rfl, rfl⟩

end

/-! ### Token registers mapped (R212) -/

theorem Sparse.get_map_tokens (f : Token → Token) (hf : f {} = {}) (m : Sparse Token) (k : Nat) :
    Sparse.get {} (m.foldr (fun p (a : Sparse Token) => Sparse.set {} a p.1 (f p.2)) []) k = f (Sparse.get {} m k) := by
  induction m with
  | nil => exact hf.symm
  | cons p m ih =>
    rw [List.foldr_cons]
    by_cases h : k = p.1
    · subst h
      rw [Sparse.get_set_same]
      congr 1
      simp [Sparse.get]
    · rw [Sparse.get_set_other _ _ _ h, ih]
      congr 1
      simp [Sparse.get, Ne.symm h]

/-- What the sweep of an entry makes of a copy of its token. -/
def PEntry.sweeps (v : PEntry) (e : Nat) (g : Token → Token) (t : Token) : Token := if v.hits e t then g t else t

section
variable {v : PEntry} {e : Nat} {g : Token → Token}

theorem PEntry.sweeps_null (h : e ≠ 0) : v.sweeps e g {} = {} := by
  have hno : v.hits e {} = false := by
    unfold PEntry.hits
    rw [beq_eq_false_iff_ne.2 (Ne.symm h), Bool.false_and]
  unfold PEntry.sweeps
  rw [hno]
  rfl

theorem PEntry.sweeps_eq (v : PEntry) (e : Nat) (g : Token → Token) (t : Token) :
    v.sweeps e g t = if t.entry = e ∧ t.gen + 1 = v.gen then g t else t := by
  have h : v.hits e t = true ↔ t.entry = e ∧ t.gen + 1 = v.gen := by
    unfold PEntry.hits
    rw [Bool.and_eq_true, beq_iff_eq, beq_iff_eq]
  unfold PEntry.sweeps
  by_cases hh : v.hits e t = true
  · rw [if_pos hh, if_pos (h.1 hh)]
  · rw [if_neg hh, if_neg fun k => hh (h.2 k)]

theorem Core.rdK_mapTokens (x : Core) (h : e ≠ 0) (k r : Nat) : (x.mapTokens (v.sweeps e g)).rdK k r = v.sweeps e g (x.rdK k r) := by
  unfold Core.rdK
  by_cases hr : r = 0
  · rw [if_pos hr, if_pos hr, PEntry.sweeps_null h]
  · rw [if_neg hr, if_neg hr]
    exact Sparse.get_map_tokens _ (PEntry.sweeps_null h) x.r.k (kKey k r)

end

/-- The lines of a core's windows through an entry are dropped. -/
theorem State.dropWindows (s : State) (c : Nat) (p : Nat × Win → Bool) (l : List (Nat × Win)) :
    let t := l.foldl (fun (t : State) w => if p w then t.dropLines c w.2 else t) s
    AtCore c s t ∧ (t.core c).r = (s.core c).r ∧ (t.core c).c = (s.core c).c := by
  have hcore : ∀ (t : State) (w : Nat × Win), ((if p w then t.dropLines c w.2 else t).core c).r = (t.core c).r ∧
      ((if p w then t.dropLines c w.2 else t).core c).c = (t.core c).c := fun t w => by
    split
    · unfold State.dropLines
      rw [State.core_mod_same]
      exact ⟨rfl, rfl⟩
    · exact ⟨rfl, rfl⟩
  refine ⟨AtCore.foldl l s fun t w => ?_, foldl_core Core.r l s fun t w => (hcore t w).1, foldl_core Core.c l s fun t w => (hcore t w).2⟩
  split
  · exact AtCore.mod t c _
  · exact AtCore.refl c t

theorem Core.kset_revoked (x : Core) (e : Nat) : (x.kset .revoked e).c.kstat.getLsbD 2 = true := by
  show (_ ||| 4#64).getLsbD 2 = true
  rw [BitVec.getLsbD_or]
  exact Bool.or_true _

/-- The sweep of one core, as its registers and its CSRs show it. -/
theorem State.sweepMove_core (s : State) (c e : Nat) : AtCore c s (s.sweepMove c e) ∧
    ((s.sweepMove c e).core c).r = ((s.core c).mapTokens ((s.ent e).sweeps e fun t => s.forwarded t (s.ent e).fwd)).r ∧
    ((s.sweepMove c e).core c).c = (s.core c).c := by
  unfold State.sweepMove
  extract_lets v f t
  obtain ⟨ha, hr, hc⟩ := s.dropWindows c (fun p => v.hits e p.2.tok) (s.core c).wins
  refine ⟨(AtCore.trans ha (AtCore.mod t c _)).trans (AtCore.modCmds _ c _ _ _), ?_, ?_⟩
  · rw [(State.modCmds_core _ c _ _ _).1, State.core_mod_same]
    exact congrArg (fun r : Regs => { r with k := r.k.foldr (fun (p : Nat × Token) (m : Sparse Token) => Sparse.set {} m p.1 (f p.2)) [] }) hr
  · rw [(State.modCmds_core _ c _ _ _).2, State.core_mod_same]
    exact hc

theorem State.sweepKill_core (s : State) (c e : Nat) : AtCore c s (s.sweepKill c e) ∧
    ((s.sweepKill c e).core c).r = ((s.core c).mapTokens ((s.ent e).sweeps e fun _ => {})).r ∧
    (s.holdsCopy c e = true → ((s.sweepKill c e).core c).c.kstat.getLsbD 2 = true) := by
  unfold State.sweepKill
  extract_lets v found f t
  obtain ⟨ha, hr, hc⟩ := s.dropWindows c (fun p => v.hits e p.2.tok) (s.core c).wins
  refine ⟨(AtCore.trans ha (AtCore.mod t c _)).trans (AtCore.modCmds _ c _ _ _), ?_, fun hf => ?_⟩
  · rw [(State.modCmds_core _ c _ _ _).1, State.core_mod_same]
    have hmap := congrArg (fun r : Regs => { r with k := r.k.foldr (fun (p : Nat × Token) (m : Sparse Token) => Sparse.set {} m p.1 (f p.2)) [] }) hr
    dsimp only
    split
    · exact hmap
    · exact hmap
  · rw [(State.modCmds_core _ c _ _ _).2, State.core_mod_same]
    dsimp only
    rw [if_pos (show found = true from hf)]
    exact Core.kset_revoked _ e

theorem Core.dropS_k (x : Core) (ctx d id : Nat) : (x.dropS ctx d id).r.k = x.r.k := by
  unfold Core.dropS; split <;> rfl

theorem Core.mxFill_kept (x : Core) (k : MxCmd) : (x.mxFill k).r.k = x.r.k ∧ (x.mxFill k).c = x.c := by
  unfold Core.mxFill
  dsimp only
  have hs := Core.fillS_k (x.dropV (mxRegs k.i) k.id) k.ctx (mxDest k.i) k.id (BitVec.ofNat 64 (k.info % 2 ^ 32 * 2 ^ 8 + k.code))
  have hc := Core.fillS_c (x.dropV (mxRegs k.i) k.id) k.ctx (mxDest k.i) k.id (BitVec.ofNat 64 (k.info % 2 ^ 32 * 2 ^ 8 + k.code))
  split
  · exact ⟨Core.dropS_k _ _ _ _, Core.dropS_c _ _ _ _⟩
  · split
    · exact ⟨hs.1, hc⟩
    · exact ⟨hs.1, hc⟩

/-- The cancelled commands of a core that is saving fill their statuses: its tokens and CSRs stay. -/
theorem State.dropCancelled_core (s : State) (c : Nat) : AtCore c s (s.dropCancelled c) ∧ ((s.dropCancelled c).core c).r.k = (s.core c).r.k ∧
    ((s.dropCancelled c).core c).c = (s.core c).c := by
  unfold State.dropCancelled
  have hzf : ∀ t : State, AtCore c t (t.applyZfree c) ∧ ((t.applyZfree c).core c).r = (t.core c).r ∧ ((t.applyZfree c).core c).c = (t.core c).c := fun t => by
    unfold State.applyZfree
    dsimp only
    refine ⟨⟨rfl, rfl, fun d hd => State.core_mod_other { t with accOwner := _ } _ hd⟩, ?_, ?_⟩ <;> rw [State.core_mod_same] <;> rfl
  have hstep : ∀ (t : State) (k : MxCmd),
      let u := (t.mod c (fun x => (x.mxFill k).eng (fun e => { e with mxq := e.mxq.filter (fun j => j.id != k.id) }))).applyZfree c
      AtCore c t u ∧ (u.core c).r.k = (t.core c).r.k ∧ (u.core c).c = (t.core c).c := fun t k => by
    intro u
    obtain ⟨h1, h2, h3⟩ := hzf (t.mod c (fun x => (x.mxFill k).eng (fun e => { e with mxq := e.mxq.filter (fun j => j.id != k.id) })))
    rw [State.core_mod_same] at h2 h3
    obtain ⟨k1, k2⟩ := (t.core c).mxFill_kept k
    exact ⟨(AtCore.mod t c _).trans h1, (congrArg Regs.k h2).trans k1, h3.trans k2⟩
  exact ⟨AtCore.foldl _ s fun t k => (hstep t k).1, foldl_core (fun x => x.r.k) _ s fun t k => (hstep t k).2.1,
    foldl_core (fun x => x.c) _ s fun t k => (hstep t k).2.2⟩

/-! ### The token column of a saved context (R108, R110) -/

/-- The token at address `pc` of a token column. -/
def State.tokAt (s : State) (pc : Nat) : Token :=
  Token.ofWord (BitVec.ofNat 64 (s.memNat pc 8)) (s.memNat (pc + 8) 4) (s.memNat (pc + 12) 4)

theorem State.areaTok_eq (s : State) (pa i : Nat) : s.areaTok pa i = s.tokAt (pa + 0x1000 + 16 * i) := by
  have h8 : pa + 0x1008 + 16 * i = pa + 0x1000 + 16 * i + 8 := by omega
  have h12 : pa + 0x100C + 16 * i = pa + 0x1000 + 16 * i + 12 := by omega
  unfold State.areaTok State.tokAt
  rw [h8, h12]

theorem State.memNat_congr {s t : State} {pa n : Nat} (h : ∀ j, j < n → t.byte (pa + j) = s.byte (pa + j)) : t.memNat pa n = s.memNat pa n := by
  unfold State.memNat State.valueAt
  congr 1
  rw [List.map_map, List.map_map]
  exact List.map_congr_left fun j hj => h j (List.mem_range.1 hj)

theorem State.tokAt_congr {s t : State} {pc : Nat} (h : ∀ j, j < 16 → t.byte (pc + j) = s.byte (pc + j)) : t.tokAt pc = s.tokAt pc := by
  have h0 : t.memNat pc 8 = s.memNat pc 8 := State.memNat_congr fun j hj => h j (by omega)
  have h8 : t.memNat (pc + 8) 4 = s.memNat (pc + 8) 4 := State.memNat_congr fun j hj => by rw [Nat.add_assoc]; exact h (8 + j) (by omega)
  have h12 : t.memNat (pc + 12) 4 = s.memNat (pc + 12) 4 := State.memNat_congr fun j hj => by rw [Nat.add_assoc]; exact h (12 + j) (by omega)
  unfold State.tokAt
  rw [h0, h8, h12]

theorem State.memNat_lt (s : State) (pa n : Nat) : s.memNat pa n < 2 ^ (8 * n) := by
  have h := leNat_lt (((List.range n).map (pa + ·)).map s.byte)
  rw [List.length_map, List.length_map, List.length_range] at h
  exact h

/-- What the bytes of a little-endian number read. -/
theorem State.memNat_of_bytes {s : State} {pa n v : Nat} (hv : v < 2 ^ (8 * n)) (h : ∀ j, (hj : j < n) → s.byte (pa + j) = (leBytes n v)[j]'(by simpa using hj)) :
    s.memNat pa n = v := by
  have hl : ((List.range n).map (pa + ·)).map s.byte = leBytes n v := by
    refine List.ext_getElem (by simp) fun j h1 h2 => ?_
    rw [List.getElem_map, List.getElem_map, List.getElem_range]
    exact h j (by simpa using h2)
  unfold State.memNat State.valueAt
  rw [hl, leNat_leBytes n v hv]

theorem State.memPut_homes (s : State) (pa : Nat) (l : List Byte) (bad : List (Nat × Nat)) :
    Homes s (s.memPut pa l bad) ((List.range l.length).map (pa + ·)) := by
  refine Homes.mono (State.homeWrite_homes s _ _ _) fun x hx => ?_
  rw [List.map_map] at hx
  obtain ⟨p, hp, rfl⟩ := List.mem_map.1 hx
  exact List.mem_map.2 ⟨p.1, (List.of_mem_zip hp).1, rfl⟩

theorem State.memPut_byte (s : State) (pa : Nat) (l : List Byte) (bad : List (Nat × Nat)) {j : Nat} (hj : j < l.length) :
    (s.memPut pa l bad).byte (pa + j) = l[j] := by
  have hz : ∀ p ∈ (List.range l.length).zip l, l[p.1]? = some p.2 := fun p hp => by
    obtain ⟨i, hi, rfl⟩ := List.getElem_of_mem hp
    rw [List.getElem_zip, List.getElem_range]
    rw [List.length_zip, List.length_range, Nat.min_self] at hi
    exact List.getElem?_eq_getElem hi
  have hmem : (j, l[j]) ∈ (List.range l.length).zip l := by
    refine List.mem_of_getElem (i := j) (h := by simpa using hj) ?_
    rw [List.getElem_zip, List.getElem_range]
  refine State.homeWrite_byte _ _ (List.mem_map.2 ⟨(pa + j, l[j]), List.mem_map.2 ⟨_, hmem, rfl⟩, rfl⟩) fun p hp hpa => ?_
  obtain ⟨q, hq, rfl⟩ := List.mem_map.1 hp
  have hqj : q.1 = j := Nat.add_left_cancel hpa
  have := hz q hq
  rw [hqj, List.getElem?_eq_getElem hj] at this
  exact (Option.some.inj this).symm

/-- A token that fits its image. -/
def Token.fits (t : Token) : Prop := t.entry < 2 ^ 20 ∧ t.gen < 2 ^ 12 ∧ t.kind < 4 ∧ t.base < 2 ^ 32 ∧ t.len < 2 ^ 32

theorem Token.ofWord_word {t : Token} (h : t.fits) : Token.ofWord (BitVec.ofNat 64 t.word.toNat) t.base t.len = t := by
  obtain ⟨h1, h2, h3, -, -⟩ := h
  have hr := t.rights.isLt
  have hw : t.word.toNat = t.entry * 2 ^ 44 + t.gen * 2 ^ 32 + t.rights.toNat * 2 ^ 28 + t.kind * 2 ^ 26 := by
    rw [show t.word.toNat = _ from BitVec.toNat_ofNat ..]
    exact Nat.mod_eq_of_lt (by omega)
  unfold Token.ofWord
  rw [BitVec.ofNat_toNat, BitVec.setWidth_eq, hw]
  have e1 : fld (t.entry * 2 ^ 44 + t.gen * 2 ^ 32 + t.rights.toNat * 2 ^ 28 + t.kind * 2 ^ 26) 44 20 = t.entry := by unfold fld; omega
  have e2 : fld (t.entry * 2 ^ 44 + t.gen * 2 ^ 32 + t.rights.toNat * 2 ^ 28 + t.kind * 2 ^ 26) 32 12 = t.gen := by unfold fld; omega
  have e3 : fld (t.entry * 2 ^ 44 + t.gen * 2 ^ 32 + t.rights.toNat * 2 ^ 28 + t.kind * 2 ^ 26) 28 4 = t.rights.toNat := by unfold fld; omega
  have e4 : fld (t.entry * 2 ^ 44 + t.gen * 2 ^ 32 + t.rights.toNat * 2 ^ 28 + t.kind * 2 ^ 26) 26 2 = t.kind := by unfold fld; omega
  rw [e1, e2, e3, e4, BitVec.ofNat_toNat, BitVec.setWidth_eq]

/-- A token written to a column is what is read there. -/
theorem State.tokAt_put (s : State) (pc : Nat) {t : Token} (h : t.fits) : (s.memPut pc t.image).tokAt pc = t := by
  have hlen : t.image.length = 16 := by simp [Token.image]
  have hb : ∀ j, (hj : j < 16) → (s.memPut pc t.image).byte (pc + j) = t.image[j]'(by omega) := fun j hj => s.memPut_byte pc t.image [] (by omega)
  have h1 : (s.memPut pc t.image).memNat pc 8 = t.word.toNat := by
    refine State.memNat_of_bytes (by omega) fun j hj => (hb j (by omega)).trans ?_
    unfold Token.image
    rw [List.getElem_append_left (by simp; omega), List.getElem_append_left (by simpa using hj)]
  have h2 : (s.memPut pc t.image).memNat (pc + 8) 4 = t.base := by
    refine State.memNat_of_bytes h.2.2.2.1 fun j hj => ?_
    rw [Nat.add_assoc]
    refine (hb (8 + j) (by omega)).trans ?_
    unfold Token.image
    rw [List.getElem_append_left (by simp; omega), List.getElem_append_right (by simp)]
    simp
  have h3 : (s.memPut pc t.image).memNat (pc + 12) 4 = t.len := by
    refine State.memNat_of_bytes h.2.2.2.2 fun j hj => ?_
    rw [Nat.add_assoc]
    refine (hb (12 + j) (by omega)).trans ?_
    unfold Token.image
    rw [List.getElem_append_right (by simp)]
    simp
  unfold State.tokAt
  rw [h1, h2, h3]
  exact Token.ofWord_word h

/-! ### The walk of a list (R213) -/

theorem HomeFrame.foldl {α : Type} {f : State → α → State} (l : List α) (s : State) (hf : ∀ t a, HomeFrame t (f t a)) : HomeFrame s (l.foldl f s) := by
  induction l generalizing s with
  | nil => exact HomeFrame.refl s
  | cons a l ih => exact (hf s a).trans (ih _)

/-- The walk of one token of a saved context. -/
def State.walksTok (s : State) (e : Nat) (t : State) (pc : Nat) : State :=
  if (s.ent e).hits e (t.tokAt pc) then t.memPut pc (s.forwarded (t.tokAt pc) (s.ent e).fwd).image else t

/-- What the walk makes of a token. -/
def State.walked (s : State) (e : Nat) (k : Token) : Token := (s.ent e).sweeps e (fun k => s.forwarded k (s.ent e).fwd) k

section
variable {s t : State} {e : Nat}

theorem State.walked_twice (s : State) (e : Nat) (k : Token) : s.walked e (s.walked e k) = s.walked e k := by
  unfold State.walked
  by_cases h : (s.ent e).hits e k = true
  · have hk : (s.ent e).sweeps e (fun k => s.forwarded k (s.ent e).fwd) k = s.forwarded k (s.ent e).fwd := if_pos h
    rw [hk]
    unfold PEntry.sweeps
    split
    · next h' =>
      have h1 : k.entry = e := by unfold PEntry.hits at h; exact beq_iff_eq.1 (Bool.and_eq_true_iff.1 h).1
      have h2 : (s.ent e).fwd = e := by unfold PEntry.hits at h'; exact beq_iff_eq.1 (Bool.and_eq_true_iff.1 h').1
      unfold State.forwarded
      rw [h1]
      dsimp only
      rw [h2]
    · rfl
  · have hk : (s.ent e).sweeps e (fun k => s.forwarded k (s.ent e).fwd) k = k := if_neg h
    rw [hk, hk]

theorem State.walksTok_homes (s : State) (e : Nat) (t : State) (pc : Nat) : Homes t (s.walksTok e t pc) ((List.range 16).map (pc + ·)) := by
  unfold State.walksTok
  split
  · refine Homes.mono (State.memPut_homes t pc _ []) fun x hx => ?_
    have hlen : ∀ k : Token, k.image.length = 16 := fun k => by simp [Token.image]
    rwa [hlen] at hx
  · exact Homes.refl t _

/-- The token itself, and one apart from it. -/
theorem State.walksTok_tok (hn : NoneDirty t) (hf : (s.ent e).fwd < 2 ^ 20) (hg : (s.ent e).fgen < 2 ^ 12) (hk : (s.ent (s.ent e).fwd).kind < 4)
    {pc c : Nat} (hc : pc = c ∨ pc + 16 ≤ c ∨ c + 16 ≤ pc) :
    (s.walksTok e t pc).tokAt c = if pc = c then s.walked e (t.tokAt c) else t.tokAt c := by
  by_cases h : pc = c
  · subst h
    rw [if_pos rfl]
    unfold State.walksTok State.walked PEntry.sweeps
    by_cases hh : (s.ent e).hits e (t.tokAt pc) = true
    · rw [if_pos hh, if_pos hh]
      refine State.tokAt_put t pc ⟨hf, ?_, hk, State.memNat_lt t (pc + 8) 4, State.memNat_lt t (pc + 12) 4⟩
      have h1 : (t.tokAt pc).entry = e := by unfold PEntry.hits at hh; exact beq_iff_eq.1 (Bool.and_eq_true_iff.1 hh).1
      show (s.ent (t.tokAt pc).entry).fgen < _
      rw [h1]
      exact hg
    · rw [if_neg hh, if_neg hh]
  · rw [if_neg h]
    refine State.tokAt_congr fun j hj => byte_of_homes (s.walksTok_homes e t pc) hn fun hin => ?_
    obtain ⟨i, hi, he⟩ := List.mem_map.1 hin
    have := List.mem_range.1 hi
    have he' : pc + i = c + j := he
    omega

/-- The tokens of some columns, all of them walked. -/
theorem State.walksAll_tok (hf : (s.ent e).fwd < 2 ^ 20) (hg : (s.ent e).fgen < 2 ^ 12) (hk : (s.ent (s.ent e).fwd).kind < 4) {U : Nat → Prop}
    (hU : ∀ a b, U a → U b → a = b ∨ a + 16 ≤ b ∨ b + 16 ≤ a) (l : List Nat) (hl : ∀ a ∈ l, U a) (t : State) (hn : NoneDirty t) {c : Nat} (hc : U c) :
    (l.foldl (s.walksTok e) t).tokAt c = if c ∈ l then s.walked e (t.tokAt c) else t.tokAt c := by
  induction l generalizing t with
  | nil => rw [if_neg (List.not_mem_nil)]; rfl
  | cons a l ih =>
    rw [List.foldl_cons, ih (fun b hb => hl b (List.mem_cons_of_mem _ hb)) _ (noneDirty_of_homes (s.walksTok_homes e t a) hn),
      State.walksTok_tok hn hf hg hk (hU a c (hl a (List.mem_cons_self ..)) hc)]
    by_cases hac : a = c
    · subst hac
      rw [if_pos rfl, State.walked_twice, ite_self, if_pos (List.mem_cons_self ..)]
    · rw [if_neg hac]
      by_cases hcl : c ∈ l
      · rw [if_pos hcl, if_pos (List.mem_cons_of_mem _ hcl)]
      · rw [if_neg hcl, if_neg fun h => (List.mem_cons.1 h).elim (fun e => hac e.symm) hcl]

end

/-- The areas that a list's valid entries name. -/
def State.savedAreas (s : State) (list : Nat) : List Nat :=
  (s.d.lists.filter (fun p => p.1 / 1024 == list && p.2.valid)).map (fun p => areaPA (list / 4) p.2.area)

/-- The tokens of an area's column. -/
def column (pa : Nat) : List Nat := (List.range 256).map (fun i => pa + 0x1000 + 16 * i)

/-- What the walk of a list leaves, but for its bit. -/
def State.walksList (s : State) (e list : Nat) : State := ((s.savedAreas list).flatMap column).foldl (s.walksTok e) s

theorem State.column_walks (s : State) (e pa : Nat) (t : State) : (column pa).foldl (s.walksTok e) t =
    (List.range 256).foldl (fun (t : State) i => if (s.ent e).hits e (t.areaTok pa i) then
      t.memPut (pa + 0x1000 + 16 * i) (s.forwarded (t.areaTok pa i) (s.ent e).fwd).image else t) t := by
  unfold column
  rw [List.foldl_map]
  refine congrFun (congrArg (fun f : State → Nat → State => fun t => List.foldl f t (List.range 256)) (funext fun t => funext fun i => ?_)) t
  rw [State.areaTok_eq]
  rfl

theorem State.walksList_eq (s : State) (e list : Nat) : s.walksList e list =
    (s.savedAreas list).foldl (fun (t : State) pa => (List.range 256).foldl (fun (t : State) i => if (s.ent e).hits e (t.areaTok pa i) then
      t.memPut (pa + 0x1000 + 16 * i) (s.forwarded (t.areaTok pa i) (s.ent e).fwd).image else t) t) s := by
  unfold State.walksList
  rw [List.foldl_flatMap]
  exact congrFun (congrArg (fun f : State → Nat → State => fun t => List.foldl f t (s.savedAreas list))
    (funext fun t => funext fun pa => s.column_walks e pa t)) s

theorem exec_savedContextWalk_walks {s : State} {e list : Nat} (hst : (s.ent e).st = .forwarded) (hl : (s.ent e).lists.getLsbD list = true) :
    exec (.savedContextWalk e list) s =
      .next ((s.walksList e list).setEnt e { s.ent e with lists := (s.ent e).lists &&& ~~~(1#64 <<< list) }) := by
  refine (show exec (.savedContextWalk e list) s = execSavedContextWalk e list s from rfl).trans ?_
  unfold execSavedContextWalk
  dsimp only
  rw [if_neg (by rw [hst, hl]; exact fun h => h.elim (fun k => k rfl) Bool.noConfusion)]
  exact congrArg (fun t : State => Host.Outcome.next (t.setEnt e { s.ent e with lists := (s.ent e).lists &&& ~~~(1#64 <<< list) }))
    (s.walksList_eq e list).symm

/-- The columns of the areas of a pane lie apart. -/
def InColumn (pane pc : Nat) : Prop := ∃ a i, i < 256 ∧ pc = areaPA pane a + 0x1000 + 16 * i

theorem inColumn_apart {pane a b : Nat} (ha : InColumn pane a) (hb : InColumn pane b) : a = b ∨ a + 16 ≤ b ∨ b + 16 ≤ a := by
  obtain ⟨x, i, hi, rfl⟩ := ha
  obtain ⟨y, j, hj, rfl⟩ := hb
  have harea : ∀ n, areaPA pane n = areaPA pane 0 + 1327104 * n := fun n => by
    unfold areaPA imageLen
    rw [Nat.mul_zero, Nat.add_zero]
  rw [harea x, harea y]
  generalize areaPA pane 0 = base
  omega

end Sys2Proof.Machine

namespace Sys2Proof

open Machine

/-- Settles O27: each event by its guard; the sweep register by register, the walk token by token. -/
theorem revocationRuns : Obligations.RevocationRuns := by
  unfold Obligations.RevocationRuns
  refine ⟨fun s e hst huse => ?_, fun s c e he hst hh hsw => ?_, fun s e hst hall => ?_, fun s e hst hnot => ?_, fun s e hst huse => ?_,
    fun s e hst hpin hdue => ?_, fun s e hst hdue => ?_, fun s e hst hl huse => ?_, fun s e list hst hl hlt => ?_⟩
  · let t := s.writeEntry e
    have ht : Homes s t [] := s.writeEntry_homes e
    have hent : ∀ k, t.ent k = s.ent k := State.ent_congr ht.frame.pontil
    let u := if (t.ent e).move = true then t.moveExtent e else t
    obtain ⟨hmp, hmr, hmb⟩ := t.moveExtent_copies e
    have hup : u.pontil = s.pontil := by
      show (if (t.ent e).move = true then t.moveExtent e else t).pontil = _
      split
      · exact hmp.trans ht.frame.pontil
      · exact ht.frame.pontil
    have hur : RegistersKept s u := fun c => by
      show ((if (t.ent e).move = true then t.moveExtent e else t).core c).r = _
      split
      · exact (hmr c).trans (ht.frame.core_r c)
      · exact ht.frame.core_r c
    have hue : u.ent e = s.ent e := State.ent_congr hup e
    let lists := if (u.ent e).move then (u.ent e).lists else 0#64
    refine ⟨u.setEnt e { u.ent e with st := .sweeping, gen := (u.ent e).gen + 1, swept := 0#1024, lists := lists }, ?_, entryOnly_setEnt hup e _, fun c => hur c, ?_, fun hm => ?_, ?_⟩
    · refine (show exec (.revokeDrainEnd e) s = execRevokeDrainEnd e s from rfl).trans ?_
      unfold execRevokeDrainEnd
      rw [if_neg (by rw [hst, huse]; exact fun h => h.elim (fun k => k rfl) Bool.noConfusion)]
    · rw [State.ent_setEnt_same, ← hue]
    · have hu : u = t := if_neg (by rw [hent, hm]; exact Bool.false_ne_true)
      intro pa hpa
      show u.byte pa = _ ∨ ∃ d, _ ∧ u.byte pa = _
      rw [hu]
      exact ht.bytes pa hpa
    · intro i a b hm hi ha hb hn hinj
      have hu : u = t.moveExtent e := if_pos (by rw [hent, hm])
      show u.byte b = _
      rw [hu]
      have hpair : ∀ {a b i}, i < (s.ent e).len → (s.ent e).at_ i = some a → (s.ent (s.ent e).fwd).at_ i = some b → (a, b) ∈ t.movePairs e :=
        fun h1 h2 h3 => State.mem_movePairs.2 ⟨_, by rw [hent]; exact h1, by rw [hent]; exact h2, by rw [hent, hent]; exact h3⟩
      refine (hmb (noneDirty_of_homes ht hn) (fun a b a' b' h h' hbb => ?_) a b (hpair hi ha hb)).trans (byte_of_homes ht hn nofun)
      obtain ⟨j, -, hj1, hj2⟩ := State.mem_movePairs.1 h
      obtain ⟨k, -, hk1, hk2⟩ := State.mem_movePairs.1 h'
      rw [hent] at hj1 hk1
      rw [hent, hent] at hj2 hk2
      have hjk := (hinj j k a b b' hj1 hj2 hk2).2 hbb
      rw [hjk, hk1] at hj1
      exact (Option.some.inj hj1).symm
  · let t := if (s.ent e).move = true then s.sweepMove c e
      else if (s.core c).q.st = .stopping then (s.sweepKill c e).dropCancelled c else s.sweepKill c e
    have hx : exec (.sweep c e) s = .next (t.setEnt e { t.ent e with swept := (t.ent e).swept ||| (1#1024 <<< c) }) := by
      refine (show exec (.sweep c e) s = execSweep c e s from rfl).trans ?_
      unfold execSweep
      dsimp only
      rw [if_neg (by rw [hst, hh, hsw]; simp)]
    have hcore : ∀ v, (t.setEnt e v).core c = t.core c := fun v => rfl
    have hsweep : AtCore c s t ∧ ((s.ent e).move = true ∨ (s.core c).q.st ≠ .stopping → (t.core c).r.s = (s.core c).r.s) ∧
        (t.core c).r.k = ((s.core c).mapTokens ((s.ent e).sweeps e fun k => if (s.ent e).move = true then s.forwarded k (s.ent e).fwd else {})).r.k ∧
        ((s.ent e).move = false → s.holdsCopy c e = true → (t.core c).c.kstat.getLsbD 2 = true) ∧
        ((s.ent e).move = true → (t.core c).c = (s.core c).c) := by
      obtain ⟨m1, m2, m3⟩ := s.sweepMove_core c e
      obtain ⟨k1, k2, k3⟩ := s.sweepKill_core c e
      obtain ⟨d1, d2, d3⟩ := (s.sweepKill c e).dropCancelled_core c
      by_cases hm : (s.ent e).move = true
      · have ht : t = s.sweepMove c e := if_pos hm
        rw [ht]
        simp only [hm, if_true]
        exact ⟨m1, fun _ => (congrArg Regs.s m2).trans rfl, congrArg Regs.k m2, fun h => absurd h (by simp), fun _ => m3⟩
      · simp only [hm]
        by_cases hs : (s.core c).q.st = .stopping
        · have ht : t = (s.sweepKill c e).dropCancelled c := (if_neg hm).trans (if_pos hs)
          rw [ht]
          exact ⟨k1.trans d1, fun h => h.elim (fun h => absurd h (by simp)) (fun h => absurd hs h), d2.trans (congrArg Regs.k k2),
            fun _ h => by rw [d3]; exact k3 h, fun h => absurd h (by simp)⟩
        · have ht : t = s.sweepKill c e := (if_neg hm).trans (if_neg hs)
          rw [ht]
          exact ⟨k1, fun _ => (congrArg Regs.s k2).trans rfl, congrArg Regs.k k2, fun _ h => k3 h, fun h => absurd h (by simp)⟩
    obtain ⟨hat, hs, hk, hkill, hmove⟩ := hsweep
    refine ⟨_, hx, fun pa => ?_, fun d hd => hat.others d hd, entryOnly_setEnt hat.pontil e _, ?_, fun h k r => Core.rdS_congr (hs h) k r,
      fun k r => ?_, hkill, hmove⟩
    · show Sparse.get 0#8 t.mem pa = _
      rw [hat.mem]
      rfl
    · rw [State.ent_setEnt_same, State.ent_congr hat.pontil]
    · refine (Core.rdK_congr hk k r).trans ?_
      rw [Core.rdK_mapTokens _ he, PEntry.sweeps_eq]
  · refine ⟨_, (show exec (.sweepDone e) s = execSweepDone e s from rfl).trans (if_pos ⟨hst, hall⟩), rfl, entryOnly_setEnt rfl e _, ?_⟩
    rw [State.ent_setEnt_same]
    refine ⟨rfl, rfl, rfl, rfl, fun hm => ?_⟩
    show (if (s.ent e).move = true then (s.ent e).lists else 0#64) = _
    rw [hm]
    rfl
  · exact (show exec (.sweepDone e) s = execSweepDone e s from rfl).trans (if_neg fun h => hnot h.2)
  · exact ⟨_, (show exec (.deadUnpin e) s = execDeadUnpin e s from rfl).trans (if_pos ⟨hst, huse⟩), rfl, entryOnly_setEnt rfl e _, State.ent_setEnt_same s e _⟩
  · refine ⟨_, (show exec (.deadHoldExpire e) s = execDeadHoldExpire e s from rfl).trans (if_pos ⟨hst, hpin, hdue⟩), rfl, entryOnly_setEnt rfl e _, ?_⟩
    rw [State.ent_setEnt_same]
    exact ⟨rfl, rfl⟩
  · exact (show exec (.deadHoldExpire e) s = execDeadHoldExpire e s from rfl).trans (if_neg fun h => Nat.not_le.2 hdue h.2.2)
  · refine ⟨_, (show exec (.forwardRelease e) s = execForwardRelease e s from rfl).trans (if_pos ⟨hst, hl, huse⟩), rfl, entryOnly_setEnt rfl e _, ?_⟩
    rw [State.ent_setEnt_same]
    exact ⟨rfl, rfl⟩
  · intro f
    let t := s.walksList e list
    have hframe : HomeFrame s t := HomeFrame.foldl _ s fun u pc => (s.walksTok_homes e u pc).frame
    refine ⟨_, exec_savedContextWalk_walks hst hl, hframe.registers, entryOnly_setEnt hframe.pontil e _, ?_, hframe.d, fun k hk => ?_,
      fun hn hf hg hkind p hp hplist hvalid i hi => ?_⟩
    · rw [State.ent_setEnt_same]; exact hst
    · rw [State.ent_setEnt_same]
      show ((s.ent e).lists &&& ~~~(1#64 <<< list)).getLsbD k = _
      rw [BitVec.getLsbD_and, BitVec.getLsbD_not]
      rw [one_shift_bit hk, decide_eq_true hk, Bool.true_and]
      rfl
    · intro k
      have hpa : areaPA (list / 4) p.2.area ∈ s.savedAreas list :=
        List.mem_map.2 ⟨p, List.mem_filter.2 ⟨hp, by rw [beq_iff_eq.2 hplist, hvalid]; rfl⟩, rfl⟩
      have hcell : areaPA (list / 4) p.2.area + 0x1000 + 16 * i ∈ (s.savedAreas list).flatMap column :=
        List.mem_flatMap.2 ⟨_, hpa, List.mem_map.2 ⟨i, List.mem_range.2 hi, rfl⟩⟩
      have hall : ∀ a ∈ (s.savedAreas list).flatMap column, InColumn (list / 4) a := fun a ha => by
        obtain ⟨pa, hpa, ha⟩ := List.mem_flatMap.1 ha
        obtain ⟨q, -, rfl⟩ := List.mem_map.1 hpa
        obtain ⟨j, hj, rfl⟩ := List.mem_map.1 ha
        exact ⟨_, j, List.mem_range.1 hj, rfl⟩
      have h := State.walksAll_tok hf hg hkind (fun a b => inColumn_apart) _ hall s hn (hall _ hcell)
      rw [if_pos hcell] at h
      show t.areaTok _ i = _
      rw [State.areaTok_eq]
      refine h.trans ?_
      show (s.ent e).sweeps e _ (s.tokAt _) = _
      rw [← State.areaTok_eq]
      rfl

end Sys2Proof

end

section
set_option Elab.async false

/-! SUPPORT. Barriers and signals (R283 to R285, R288, R295): a barrier's object, the release of those that wait, and the operations on a
counter at its home slice. O29. -/

namespace Sys2Proof.Machine

/-! ### A barrier's object (R284) -/

/-- What is found for a launch, a group and a level is theirs. -/
theorem State.bar_names (s : State) (linst grp lvl : Nat) :
    (s.bar linst grp lvl).linst = linst ∧ (s.bar linst grp lvl).grp = grp ∧ (s.bar linst grp lvl).lvl = lvl := by
  unfold State.bar
  cases h : s.d.bars.find? (fun b => b.linst == linst && b.grp == grp && b.lvl == lvl) with
  | none => exact ⟨rfl, rfl, rfl⟩
  | some b =>
    have := List.find?_some h
    simp only [Bool.and_eq_true, beq_iff_eq] at this
    exact ⟨this.1.1, this.1.2, this.2⟩

/-- A written object that is not gone is found. -/
theorem State.bar_setBar {s : State} {b : Bar} (hd : b.dep < (s.launch b.linst).groupSize b.lvl) (ha : b.arr ≠ []) :
    (s.setBar b).bar b.linst b.grp b.lvl = b := by
  have hg : (decide ((s.launch b.linst).groupSize b.lvl ≤ b.dep) || (b.arr.isEmpty && b.dep == 0)) = false := by
    rw [decide_eq_false (Nat.not_le.2 hd), List.isEmpty_eq_false_iff.2 ha]
    rfl
  have hf : (s.setBar b).d.bars = b :: s.d.bars.filter (fun o => o.linst != b.linst || o.grp != b.grp || o.lvl != b.lvl) := by
    show (if _ then _ else _) = _
    rw [hg]
    rfl
  unfold State.bar
  rw [hf, List.find?_cons_of_pos (by simp)]
  rfl

/-- An object whose members have all gone on has no arrivals and is not RELEASING. -/
theorem State.bar_cleared (s : State) {b : Bar} {linst grp lvl : Nat} (hn : b.linst = linst ∧ b.grp = grp ∧ b.lvl = lvl) :
    ((s.setBar { b with arr := [], rel := false }).bar linst grp lvl).arr = [] ∧
    ((s.setBar { b with arr := [], rel := false }).bar linst grp lvl).rel = false := by
  obtain ⟨rfl, rfl, rfl⟩ := hn
  unfold State.bar
  cases h : (s.setBar { b with arr := [], rel := false }).d.bars.find? (fun o => o.linst == b.linst && o.grp == b.grp && o.lvl == b.lvl) with
  | none => exact ⟨rfl, rfl⟩
  | some o =>
    have hp := List.find?_some h
    have hm := List.mem_of_find?_eq_some h
    have hne : ∀ l : List Bar, o ∈ l.filter (fun o => o.linst != b.linst || o.grp != b.grp || o.lvl != b.lvl) → False := fun l hl => by
      have := (List.mem_filter.1 hl).2
      simp only [Bool.and_eq_true, beq_iff_eq] at hp
      simp [hp.1.1, hp.1.2, hp.2] at this
    have hcases : o = { b with arr := [], rel := false } := by
      unfold State.setBar at hm
      dsimp only at hm
      split at hm
      · exact (hne _ hm).elim
      · rcases List.mem_cons.1 hm with e | e
        · exact e
        · exact (hne _ e).elim
    rw [hcases]
    exact ⟨rfl, rfl⟩

/-! ### The release of those that wait (R285) -/

/-- One waiting member goes on. -/
def State.releaseMember (linst grp lvl : Nat) (t : State) (c : Nat) (now : Nat) : State :=
  match ((t.core c).q.holdOf 0).k with
  | .bar _ scope =>
    let u := if 1 ≤ scope then t.flush c else t
    ((if scope = 5 then u.dropPubs c else u).takeAt (barKey linst grp lvl) c 0 scope).mod c (fun x => (x.next 0 1).passed now)
  | _ => t

/-- What the release of one member leaves. -/
structure MemberReleased (t v : State) (c scope now : Nat) : Prop where
  bytes : BytesKept t v []
  others : ∀ d, d ≠ c → HomeCore (t.core d) (v.core d)
  mine : ∃ y, HomeCore (t.core c) y ∧ v.core c = (y.next 0 1).passed now
  clean : ∀ d pa, ¬DirtyAt t d pa → ¬DirtyAt v d pa
  flushed : 1 ≤ scope → ∀ pa, ¬DirtyAt v c pa

theorem Core.passed_kept (x : Core) (now : Nat) : x.passed now = { x with q := { x.q with pointAt := (x.passed now).q.pointAt } } := by
  unfold Core.passed Core.seq
  dsimp only
  split <;> rfl

/-- What a core has still to take home is told of its stash. -/
theorem DirtyAt.congr {s t : State} {d pa : Nat} (h : (t.core d).stash = (s.core d).stash) : DirtyAt t d pa ↔ DirtyAt s d pa := by
  unfold DirtyAt WroteAt Core.wroteByte Core.line
  rw [h]

/-- A write-back makes no byte dirty in any stash. -/
theorem State.lineBack_undirty {t : State} {d pa : Nat} (c ln : Nat) (h : ¬DirtyAt t d pa) : ¬DirtyAt (t.lineBack c ln) d pa := by
  unfold State.lineBack
  extract_lets l v
  have hl : (v.core d).line (pa / 64) = if pa / 64 = ln then {} else (t.core d).line (pa / 64) := by
    refine (State.homeLine_line _ _ _ _ _).trans ((State.pullLine_line _ _ _ _).trans ?_)
    split
    · rfl
    · next e => rw [State.setLine_line, if_neg fun k => e k.2]
  have hw : (v.keepClean ln l.cleaned).wrote = 0#64 := State.keepClean_wrote _ _ _
  clear_value v
  unfold DirtyAt WroteAt Core.wroteByte
  rw [State.setLine_line]
  split
  · rw [hw]; simp
  · rw [hl]
    split
    · simp
    · exact h

theorem State.flush_undirty {t : State} {d pa : Nat} (c : Nat) (h : ¬DirtyAt t d pa) : ¬DirtyAt (t.flush c) d pa := by
  unfold State.flush
  rw [State.writeBack_eq]
  refine foldl_keeps (fun t => ¬DirtyAt t d pa) _ (fun u p hu => ?_) _ _ h
  split
  · exact State.lineBack_undirty c p.1 hu
  · exact hu

theorem State.releaseMember_released {t : State} {c l scope since : Nat} (linst grp lvl now : Nat)
    (h : (t.core c).q.holdOf 0 = { k := .bar l scope, since := since }) :
    MemberReleased t (t.releaseMember linst grp lvl c now) c scope now := by
  have hx : t.releaseMember linst grp lvl c now = ((if scope = 5 then (if 1 ≤ scope then t.flush c else t).dropPubs c
      else if 1 ≤ scope then t.flush c else t).takeAt (barKey linst grp lvl) c 0 scope).mod c (fun x => (x.next 0 1).passed now) := by
    unfold State.releaseMember
    rw [h]
  have hu : Homes t (if 1 ≤ scope then t.flush c else t) [] ∧ (∀ d pa, ¬DirtyAt t d pa → ¬DirtyAt (if 1 ≤ scope then t.flush c else t) d pa) ∧
      (1 ≤ scope → ∀ pa, ¬DirtyAt (if 1 ≤ scope then t.flush c else t) c pa) := by
    split
    · exact ⟨State.flush_homes t c, fun d pa => State.flush_undirty c, fun _ => State.flush_clean t c⟩
    · next hs => exact ⟨Homes.refl t [], fun _ _ h => h, fun h => absurd h hs⟩
  generalize (if 1 ≤ scope then t.flush c else t) = u at hx hu
  have hp : HbOnly u ((if scope = 5 then u.dropPubs c else u).takeAt (barKey linst grp lvl) c 0 scope) := by
    refine HbOnly.trans ?_ (HbOnly.takeAt _ _ _ _ _)
    split <;> exact ⟨rfl, rfl, rfl, rfl⟩
  generalize (if scope = 5 then u.dropPubs c else u).takeAt (barKey linst grp lvl) c 0 scope = w at hx hp
  obtain ⟨hhome, hclean, hflushed⟩ := hu
  have hmine : (w.mod c (fun x => (x.next 0 1).passed now)).core c = ((u.core c).next 0 1).passed now := by
    rw [State.core_mod_same, hp.core]
  have hst : ∀ d, ((w.mod c (fun x => (x.next 0 1).passed now)).core d).stash = (u.core d).stash := fun d => by
    by_cases hd : d = c
    · subst hd; rw [hmine, Core.passed_kept]; rfl
    · rw [State.core_mod_other _ _ hd, hp.core]
  rw [hx]
  refine ⟨fun pa hpa => ?_, fun d hd => ?_, ⟨_, hhome.frame.core c, hmine⟩, fun d pa hd => ?_, fun hs pa => ?_⟩
  · have e : (w.mod c (fun x => (x.next 0 1).passed now)).byte pa = u.byte pa := Homes.mem_eq hp.mem pa
    rw [e]
    exact hhome.bytes pa hpa
  · rw [State.core_mod_other _ _ hd, hp.core]
    exact hhome.frame.core d
  · rw [DirtyAt.congr (hst d)]
    exact hclean d pa hd
  · rw [DirtyAt.congr (hst c)]
    exact hflushed hs pa

/-- The release of every member leaves memory but for dirty bytes, and each of them past its `bar`. -/
structure AllReleased (t v : State) (l : List Nat) : Prop where
  flow : Flow t v []
  others : ∀ d, d ∉ l → HomeCore (t.core d) (v.core d)
  clean : ∀ d pa, ¬DirtyAt t d pa → ¬DirtyAt v d pa
  gone : ∀ c ∈ l, (v.core c).q.holdOf 0 = {} ∧
    ((∀ n, n < 6 → ((t.core c).q.loop n).act = false ∨ ((t.core c).q.loop n).last ≠ (t.core c).q.pc) → (v.core c).q.pc = (t.core c).q.pc + 1)
  flushed : ∀ c ∈ l, ∀ n scope since pa, (t.core c).q.holdOf 0 = { k := .bar n scope, since := since } → 1 ≤ scope → ¬DirtyAt v c pa

/-- A core's next word, past a wait at its point. -/
theorem Core.next_passed (y : Core) (now : Nat) : ((y.next 0 1).passed now).r = y.r ∧ ((y.next 0 1).passed now).stash = y.stash ∧
    ((y.next 0 1).passed now).q.holdOf 0 = {} ∧
    ((∀ n, n < 6 → (y.q.loop n).act = false ∨ (y.q.loop n).last ≠ y.q.pc) → ((y.next 0 1).passed now).q.pc = y.q.pc + 1) := by
  have hk := Core.passed_kept (y.next 0 1) now
  have hh : (y.next 0 1).q.holdOf 0 = {} := Sparse.get_set_same ({} : Hold) _ 0 {}
  refine ⟨by rw [hk]; rfl, by rw [hk]; rfl, ?_, fun hl => ?_⟩
  · rw [hk]; exact hh
  · rw [hk]
    exact Core.next_pc y 0 1 Nat.one_pos (.inr (.inr hl))

theorem MemberReleased.flow {t v : State} {c scope now : Nat} (h : MemberReleased t v c scope now) : Flow t v [] := by
  obtain ⟨y, hy, hc⟩ := h.mine
  obtain ⟨hr, hs, -, -⟩ := Core.next_passed y now
  refine ⟨fun d => ?_, h.bytes, fun d pa hw => ?_⟩
  · by_cases hd : d = c
    · subst hd
      rw [hc, hr, hy.rest]
    · rw [(h.others d hd).rest]
  · by_cases hd : d = c
    · subst hd
      have hl : ∀ ln, (v.core d).line ln = y.line ln := fun ln => by
        unfold Core.line
        rw [hc, hs]
      unfold WroteAt Core.wroteByte at hw
      rw [hl] at hw ⊢
      exact hy.wrote pa hw
    · exact (h.others d hd).wrote pa hw

theorem State.releaseAll_released (linst grp lvl now : Nat) : ∀ (l : List Nat) (t : State), l.Nodup →
    (∀ c ∈ l, ∃ n scope since, (t.core c).q.holdOf 0 = { k := .bar n scope, since := since }) →
    AllReleased t (l.foldl (fun t c => t.releaseMember linst grp lvl c now) t) l := by
  intro l
  induction l with
  | nil => exact fun t _ _ => ⟨Homes.flow (Homes.refl t []), fun _ _ => HomeCore.refl _, fun _ _ h => h, nofun, nofun⟩
  | cons c l ih =>
    intro t hn hh
    obtain ⟨hc, hn⟩ := List.nodup_cons.1 hn
    obtain ⟨n, scope, since, hb⟩ := hh c List.mem_cons_self
    have h1 := State.releaseMember_released linst grp lvl now hb
    have hsame : ∀ d, d ≠ c → ∀ m sc si, (t.core d).q.holdOf 0 = { k := .bar m sc, since := si } →
        ((t.releaseMember linst grp lvl c now).core d).q.holdOf 0 = { k := .bar m sc, since := si } := fun d hd m sc si e =>
      (((h1.others d hd).hold 0).same (by rw [e]; nofun)).trans e
    have hne : ∀ d ∈ l, d ≠ c := fun d hd e => hc (e ▸ hd)
    have h2 := ih (t.releaseMember linst grp lvl c now) hn fun d hd => by
      obtain ⟨m, sc, si, e⟩ := hh d (List.mem_cons_of_mem _ hd)
      exact ⟨m, sc, si, hsame d (hne d hd) m sc si e⟩
    rw [List.foldl_cons]
    generalize hv : t.releaseMember linst grp lvl c now = v at h1 h2 hsame
    obtain ⟨y, hy, hmine⟩ := h1.mine
    have hafter := h2.others c hc
    obtain ⟨-, -, hfree, hpc⟩ := Core.next_passed y now
    refine ⟨h1.flow.trans h2.flow, fun d hd => ?_, fun d pa h => h2.clean d pa (h1.clean d pa h), fun d hd => ?_, fun d hd m sc si pa e hs => ?_⟩
    · rw [List.mem_cons, not_or] at hd
      exact (h1.others d hd.1).trans (h2.others d hd.2)
    · rcases List.mem_cons.1 hd with rfl | hd
      · refine ⟨?_, fun hl => ?_⟩
        · have e : (v.core d).q.holdOf 0 = {} := by rw [hmine, hfree]
          exact ((hafter.hold 0).same (by rw [e]; nofun)).trans e
        · have hq : y.q = { (t.core d).q with hold := y.q.hold } := (congrArg Core.q hy.rest).trans rfl
          rw [hafter.rest]
          show (v.core d).q.pc = _
          rw [hmine, hpc (by rw [hq]; exact hl), hq]
      · obtain ⟨k1, k2⟩ := h2.gone d hd
        have hq : (v.core d).q = { (t.core d).q with hold := (v.core d).q.hold } := (congrArg Core.q (h1.others d (hne d hd)).rest).trans rfl
        refine ⟨k1, fun hl => ?_⟩
        rw [k2 (by rw [hq]; exact hl), hq]
    · rcases List.mem_cons.1 hd with rfl | hd
      · have : sc = scope := by rw [hb] at e; cases e; rfl
        subst this
        exact h2.clean d pa (h1.flushed hs pa)
      · exact h2.flushed d hd m sc si pa (hsame d (hne d hd) m sc si e) hs

/-! ### The words -/

section
variable {s : State} {l : List Src}

/-- A word that only the main context may run is the main context's (R95). -/
theorem MayIssue.main {i : Instr} (hm : MayIssue i l s) (h : handlerOk i = false) : s.ctx = 0 :=
  hm.allowed.resolve_right fun e => Bool.false_ne_true (h.symm.trans e)

theorem exec_bar_ready {lvl scope : Nat} {k : Task} (hm : MayIssue (.bar lvl scope) [] s) (hk : s.me.task = some k) :
    exec (.bar lvl scope) s =
      let l := s.launch k.linst
      if 5 < lvl ∨ 5 < scope ∨ l.kern.colevel = 0xFF ∨ l.kern.colevel < lvl ∨ !k.initial ∨ s.me.q.tact then
        illegal (.bar lvl scope) (s.read [])
      else
        let b := s.bar k.linst (l.groupOf lvl k.r.w1) lvl
        .next ((((s.read []).leaveAt (barKey k.linst (l.groupOf lvl k.r.w1) lvl) s.cur 0 (s.read []).id).setBar
          { b with arr := b.arr ++ [s.cur] }).holds (.bar lvl scope)) := by
  calc exec (.bar lvl scope) s = execBar lvl scope s := rfl
    _ = issue _ s _ _ := by unfold execBar; rw [State.free_of_runs hm.runs]
    _ = _ := issue_ready hm _
    _ = _ := by
      have hme : (s.upd (fun x => x.touch s.ctx [])).me = s.me := (State.read_me s []).trans (Core.touch_nil _ _)
      dsimp only
      rw [hme, hk]
      rfl

/-- A legal `bar` (R283). -/
theorem exec_bar_arrives {lvl scope : Nat} {k : Task} {b : Bar} (hm : MayIssue (.bar lvl scope) [] s) (hk : s.me.task = some k)
    (hb : s.bar k.linst ((s.launch k.linst).groupOf lvl k.r.w1) lvl = b)
    (hl : lvl ≤ 5 ∧ scope ≤ 5 ∧ (s.launch k.linst).kern.colevel ≠ 0xFF ∧ lvl ≤ (s.launch k.linst).kern.colevel ∧ k.initial = true ∧
      s.me.q.tact = false) : ∃ v : State, v.cores = (s.read []).cores ∧ v.mem = s.mem ∧ v.cur = s.cur ∧ v.ctx = s.ctx ∧ v.now = s.now ∧ v.d = s.d ∧
        exec (.bar lvl scope) s = .next ((v.setBar { b with arr := b.arr ++ [s.cur] }).holds (.bar lvl scope)) := by
  subst hb
  obtain ⟨h1, h2, h3, h4, h5, h6⟩ := hl
  refine ⟨_, ?_, ?_, ?_, ?_, ?_, ?_, (exec_bar_ready hm hk).trans (if_neg ?_)⟩
  case refine_7 =>
    rw [h5, h6]
    rintro (h | h | h | h | h | h)
    · omega
    · omega
    · exact h3 h
    · omega
    · cases h
    · cases h
  all_goals rfl

/-- The core that begins to wait, in any state. -/
theorem State.holds_at (u : State) (k : HoldK) : (u.holds k).core u.cur = (u.core u.cur).heldBy u.now u.ctx k := State.core_upd u _

theorem State.holds_regs {u : State} (h : RegistersKept s u) (k : HoldK) : RegistersKept s (u.holds k) :=
  RegistersKept.upd h _ fun _ => rfl

/-! ### Operations on a counter (R288, R295) -/

variable {f : SyncF} {i : Instr} {op : AOp}

/-- The access of an operation on a counter. -/
def sigAcc (s : State) (op : AOp) (f : SyncF) : Acc :=
  mkAcc op (if op = .sigRead then f.d else 0) 8 (s.tk f.m.k) ((s.sc f.m.x).toInt + f.m.off.toInt) (if op = .sigRead then 0#64 else s.sc f.d) 0#64 f.ord

theorem sigIssue_ready (hm : MayIssue i (syncSrcs f (op != .sigRead)) s) : sigIssue i op f s =
    if ((s.sc f.m.x).toInt + f.m.off.toInt) % 8 ≠ 0 then illegal i (s.read (syncSrcs f (op != .sigRead)))
    else .next (((s.read (syncSrcs f (op != .sigRead))).begin (sigAcc s op f)).done 1) := by
  refine (issue_ready hm _).trans ?_
  unfold State.offOf sigAcc
  dsimp only
  rw [State.tk_upd_touch, State.sc_upd_touch, State.sc_upd_touch]

theorem exec_sigWait_ready (hm : MayIssue (.sigWait f) (syncSrcs f true) s) : exec (.sigWait f) s =
    let r := s.read (syncSrcs f true)
    let off := (s.sc f.m.x).toInt + f.m.off.toInt
    if off % 8 ≠ 0 then illegal (.sigWait f) r
    else match s.check (s.tk f.m.k) off 8 rR with
      | .wait => stall r
      | .fail b e => .next ((r.upd (fun x => x.kset b e)).done 1)
      | .pass t pas =>
        let a : Acc := { mkAcc .sigRead 0 8 t off 0#64 0#64 f.ord with id := s.me.q.nid, ctx := 0, chk := 1, pas := pas }
        if !s.me.mayPerform a false ∨ s.popPending s.cur 0 s.me.q.nid then stall r
        else .next (((r.upd (fun x => x.cacheTok t.entry)).bypass s.cur pas).holds
          (.sig (pas.headD 0) (s.sc f.d) f.ord.acq f.ord.scope false t.entry)) := by
  have hme : (s.upd (fun x => x.touch s.ctx (syncSrcs f true))).me = s.me.touch s.ctx (syncSrcs f true) := State.read_me s _
  have hpop : ∀ n, (s.upd (fun x => x.touch s.ctx (syncSrcs f true))).popPending s.cur 0 n = s.popPending s.cur 0 n := fun n => by
    unfold State.popPending
    rw [State.core_upd]
    rfl
  calc exec (.sigWait f) s = execSigWait f s := rfl
    _ = issue _ s _ _ := by unfold execSigWait; rw [State.free_of_runs hm.runs]
    _ = _ := issue_ready hm _
    _ = _ := by
      unfold State.offOf
      dsimp only
      rw [State.tk_upd_touch, State.sc_upd_touch, State.sc_upd_touch]
      have hid : (s.upd (fun x => x.touch s.ctx (syncSrcs f true))).id = s.me.q.nid := by unfold State.id; rw [hme]; rfl
      rw [hid, hme]
      split
      · rfl
      · have hc : (s.upd (fun x => x.touch s.ctx (syncSrcs f true))).check (s.tk f.m.k) ((s.sc f.m.x).toInt + f.m.off.toInt) 8 rR =
          s.check (s.tk f.m.k) ((s.sc f.m.x).toInt + f.m.off.toInt) 8 rR := rfl
        rw [hc]
        cases s.check (s.tk f.m.k) ((s.sc f.m.x).toInt + f.m.off.toInt) 8 rR with
        | wait => rfl
        | fail b e => rfl
        | pass t pas =>
          dsimp only
          rw [show (s.upd (fun x => x.touch s.ctx (syncSrcs f true))).cur = s.cur from rfl, hpop]
          rfl

/-- What happens at home slices after a word has read its sources is told of the state in which it issued. -/
theorem Housekeeping.of_read {f : Core → Core} {w : State} (hr : ∀ x, (f x).r = x.r) (hs : ∀ x, (f x).stash = x.stash)
    (h : Homes ((s.read l).upd f) w []) : Housekeeping s w := by
  have hc : ((s.read l).upd f).core s.cur = f (s.me.touch s.ctx l) := State.read_upd_core s l f
  have ho : ∀ d, d ≠ s.cur → ((s.read l).upd f).core d = s.core d := (State.read_upd_only s l f).others
  have hl : ∀ d ln, (((s.read l).upd f).core d).line ln = (s.core d).line ln := fun d ln => by
    unfold Core.line
    by_cases hd : d = s.cur
    · subst hd; rw [hc, hs]; rfl
    · rw [ho d hd]
  refine ⟨fun d => (h.frame.core_r d).trans ?_, fun pa hp => ?_⟩
  · by_cases hd : d = s.cur
    · subst hd; rw [hc, hr]; rfl
    · rw [ho d hd]
  · rcases h.bytes pa hp with e | ⟨d, hw, e⟩
    · exact .inl e
    · unfold WroteAt Core.wroteByte at hw
      rw [hl] at hw e
      exact .inr ⟨d, hw, e⟩

end

/-! ### A counter at its home slice (R288, R295) -/

section
variable {s : State} {c : Nat} {a : Acc}

theorem exec_writeReachesHome_sig (hm : MayLand s c a) (ho : a.op = .sigAdd ∨ a.op = .sigSet) {v : State} {old : Nat}
    (h : (s.tried c a).rmw c a = (v, .ok old)) : exec (.writeReachesHome c a.id) s = .next (v.mod c (fun x => x.dropAcc a.id)) := by
  show execWriteReachesHome c a.id s = _
  have hr := MayLand.ready hm (p := fun op => !op.fills) (by rcases ho with ho | ho <;> rw [ho] <;> rfl)
  have hne : ¬((s.tried c a).core c).partner.isSome = true := by rw [MayLand.alone_tried hm]; simp
  have hf : ¬(a.op = .futPut ∨ a.op = .futClr) := by rcases ho with ho | ho <;> rw [ho] <;> decide
  have hd : a.deferred = true := by unfold Acc.deferred; rcases ho with ho | ho <;> rw [ho] <;> rfl
  unfold execWriteReachesHome
  split
  · next e => cases hr.symm.trans e
  · next e => cases hr.symm.trans e
  · next e =>
    cases hr.symm.trans e
    rw [if_neg (by rw [MayLand.reachable hm]; decide), if_neg hne, if_neg hf, if_pos hd, h]

/-- The reads of an operation on a counter at a calm place: a `sig.set` reads nothing (R295). -/
theorem State.rmw_sigReads {t : State} (hc : Calm t a.pas) : ∃ u, (if a.op = .sigSet
      then ((((t.bypass c a.pas).pullFor a.pas).hear c a.ctx a.tok.kind a.acq a.scope a.pas none), none)
      else (((t.bypass c a.pas).pullFor a.pas).hear c a.ctx a.tok.kind a.acq a.scope a.pas none).findAll a.pas) = (u, none) ∧
      Flow t u [] ∧ (∀ pa ∈ a.pas, u.byte pa = t.byte pa) ∧ (u.core c).acc = (t.core c).acc := by
  split
  · have c1 := State.bypass_calm hc c a.pas
    have c2 := State.pullFor_calm c1.calm a.pas
    have f1 := State.bypass_homes t c a.pas
    have f2 := State.pullFor_homes (t.bypass c a.pas) a.pas
    have ha : (((t.bypass c a.pas).pullFor a.pas).core c).acc = (t.core c).acc := (f2.frame.core_acc c).trans (f1.frame.core_acc c)
    have hb := (c1.trans c2).bytes
    have hf := (Homes.trans f1 f2).flow
    generalize (t.bypass c a.pas).pullFor a.pas = v at ha hb hf ⊢
    have hh := State.hear_eq v c a.ctx a.tok.kind a.acq a.scope a.pas none
    generalize v.hear c a.ctx a.tok.kind a.acq a.scope a.pas none = w at hh ⊢
    have hcores : ∀ d, w.core d = v.core d := fun d => by rw [hh]; rfl
    have hmem : w.mem = v.mem := by rw [hh]
    exact ⟨w, rfl, hf.trans (Flow.of_same [] hmem (fun d => by rw [hcores]) fun d => by rw [hcores]),
      fun pa hpa => (Homes.mem_eq hmem pa).trans (hb pa hpa), by rw [hcores]; exact ha⟩
  · exact State.rmw_reads hc

/-- What an operation on a counter leaves at a calm place (R295). -/
theorem State.rmw_sig {t : State} (hc : Calm t a.pas) (ho : a.op = .sigAdd ∨ a.op = .sigSet) (hrel : a.rel = false) (hl : a.pas.length = 8)
    (hn : a.pas.Nodup) : ∃ v, t.rmw c a = (v, .ok (t.valueAt a.pas)) ∧ Flow t v a.pas ∧ (v.core c).acc = (t.core c).acc ∧
      v.valueAt a.pas = if a.op = .sigAdd then (t.valueAt a.pas + a.a.toNat) % 2 ^ 64 else a.a.toNat := by
  obtain ⟨u, hu, hf, hb, hacc⟩ := State.rmw_sigReads (c := c) hc
  have hval : u.valueAt a.pas = t.valueAt a.pas := congrArg leNat (List.map_congr_left hb)
  have hrw : t.relWork c a = t := by
    unfold State.relWork
    rw [hrel]; rfl
  have hne : ∀ n, a.op ≠ .amo n := fun n => by rcases ho with ho | ho <;> rw [ho] <;> nofun
  have hx : t.rmw c a = (u.homeStore c a.id (a.pas.zip (leBytes 8 (sigNew a.op (BitVec.ofNat 64 (t.valueAt a.pas)) a.a).toNat)) []
      (u.author c a true), .ok (t.valueAt a.pas)) := by
    unfold State.rmw
    rw [hrw]
    dsimp only
    rw [hu]
    dsimp only
    rw [hval]
    split
    · next op e => exact absurd e (hne op)
    · rfl
  obtain ⟨k1, k2, -⟩ := State.homeStore_flow u c a.id (a.pas.zip (leBytes 8 (sigNew a.op (BitVec.ofNat 64 (t.valueAt a.pas)) a.a).toNat)) []
    (u.author c a true)
  have hlen : (leBytes 8 (sigNew a.op (BitVec.ofNat 64 (t.valueAt a.pas)) a.a).toNat).length = a.pas.length := by rw [leBytes_length, hl]
  refine ⟨_, hx, (hf.mono nofun).trans (k1.mono fun x hx => ?_), k2.trans hacc, ?_⟩
  · rw [List.map_fst_zip hlen.ge] at hx
    exact hx
  · have hv := (congrArg leNat (State.map_byte_of_zip hlen (State.homeStore_bytes u c a.id [] (u.author c a true) hn))).trans
      (leNat_leBytes 8 _ (sigNew a.op (BitVec.ofNat 64 (t.valueAt a.pas)) a.a).isLt)
    refine (show State.valueAt _ a.pas = leNat _ from rfl).trans (hv.trans ?_)
    unfold sigNew
    split
    · rw [BitVec.toNat_add, BitVec.toNat_ofNat, Nat.mod_add_mod]
    · rfl

/-- A `sig.read` that may land (R295): its register fills with the counter. -/
theorem exec_sigRead_lands (hm : MayLand s c a) (ho : a.op = .sigRead) (hk : a.tok.kind ≠ 2) (hw : a.w = 8) (hl : a.pas.length = 8)
    (hd : a.data = []) (hal : a.pas.headD 0 % 8 = 0) (hdirty : ∀ pa ∈ a.pas, ((s.core c).line (pa / 64)).dirty = 0#4) :
    ∃ h : State, h.mem = s.mem ∧ exec (.loadComplete c a.id) s = .next (h.mod c (fun x => (x.dropAcc a.id).fillS a.ctx a.d a.id
      (BitVec.ofNat 64 (s.valueAt a.pas)))) := by
  have hx : exec (.loadComplete c a.id) s = .next ((s.tried c a).loadBytes c a) := by
    show execLoadComplete c a.id s = _
    have hr := MayLand.ready hm (p := fun op => op.fills && (match op with | .amo _ => false | _ => true)) (by rw [ho]; rfl)
    unfold execLoadComplete
    split <;> next e => cases hr.symm.trans e <;> rfl
  have hch : a.chunk = 8 := (Acc.chunk_aligned (hl.trans hw.symm) (by rw [hw]; exact hal)).trans hw
  have htake : a.pas.take 8 = a.pas := by rw [← hl, List.take_length]
  have hcore : (s.tried c a).core c = (s.core c).putAcc a := State.core_tried s c a
  have hhome : ∀ x : Core, x.atHome a = true := fun x => by
    unfold Core.atHome
    rw [ho]
    simp
  have hby : (s.tried c a).bypass c a.pas = s.tried c a := State.bypass_same fun pa hpa => by rw [hcore]; exact hdirty pa hpa
  obtain ⟨u, hu, hr⟩ := State.consume_clean c a.ctx a.id true a.pas (s := s.tried c a)
    (clean_congr hm.clean rfl rfl rfl rfl rfl rfl) (fun ln => by rw [hcore]; exact Core.line_clean hm.stashClean ln)
    (fun pa _ => by rw [hcore, Core.ownStore_putAcc]; exact Core.ownStore_clean hm.storesClean _ _ _) fun _ h => h
  have hfl : (if a.acq = true ∨ a.op = .sigRead then none else some a.floor) = none := if_pos (.inr ho)
  have hsee : (u.viewAt c a.ctx a.id a.tok.kind true (u.hbOf c a.ctx) none a.pas).1 = a.pas.map s.byte := by
    rcases State.viewAt_cases u c a.ctx a.id true (u.hbOf c a.ctx) none a.pas hk with e | ⟨-, -, n, hn, -⟩
    · rw [e]
      exact List.map_congr_left fun pa _ => Homes.mem_eq (by rw [hr.rest]; rfl) pa
    · cases hn
  refine ⟨(u.loaded c a.ctx a.id a.tok.kind true a.acq a.scope none a.pas).1, ?_, hx.trans (congrArg Host.Outcome.next ?_)⟩
  · exact (congrArg State.mem (State.hear_eq _ _ _ _ _ _ _ _)).trans (by rw [hr.rest]; rfl)
  · unfold State.loadBytes
    dsimp only
    rw [hch, htake, hhome, if_pos rfl, hby, hu]
    dsimp only
    rw [hfl]
    have hbytes : a.data ++ (u.loaded c a.ctx a.id a.tok.kind true a.acq a.scope none a.pas).2 = a.pas.map s.byte := by
      rw [hd]
      exact hsee
    rw [hbytes, if_neg (by rw [List.length_map, hl, hw]; decide), if_neg (by simp), hw, ho]
    have hv : extend false 8 (leNat (a.pas.map s.byte)) = BitVec.ofNat 64 (s.valueAt a.pas) := by
      unfold extend
      rw [if_neg (by simp)]
      rfl
    rw [hv]

end

end Sys2Proof.Machine

namespace Sys2Proof

open Machine

/-- A legal `bar` arrives at its group's object (R283). -/
theorem bar_arrives {s : State} {lvl scope : Nat} {k : Task} (hk : s.me.task = some k)
    (hl : lvl ≤ 5 ∧ scope ≤ 5 ∧ (s.launch k.linst).kern.colevel ≠ 0xFF ∧ lvl ≤ (s.launch k.linst).kern.colevel ∧ k.initial = true ∧
      s.me.q.tact = false)
    (hdep : (s.bar k.linst ((s.launch k.linst).groupOf lvl k.r.w1) lvl).dep < (s.launch k.linst).groupSize lvl) :
    WordResult (.bar lvl scope) [] s (fun t =>
      let b := s.bar k.linst ((s.launch k.linst).groupOf lvl k.r.w1) lvl
      let b' := t.bar k.linst ((s.launch k.linst).groupOf lvl k.r.w1) lvl
      b'.arr = b.arr ++ [s.cur] ∧ b'.dep = b.dep ∧
      (t.core s.cur).q.holdOf 0 = { k := .bar lvl scope, since := s.me.q.nid } ∧ (t.core s.cur).q.pc = s.me.q.pc ∧
      b'.rel = b.rel ∧ RegistersKept s t ∧ ∀ pa, t.byte pa = s.byte pa) := by
  intro _ hm
  have hctx : s.ctx = 0 := MayIssue.main hm rfl
  obtain ⟨n1, n2, n3⟩ := State.bar_names s k.linst ((s.launch k.linst).groupOf lvl k.r.w1) lvl
  generalize hb : s.bar k.linst ((s.launch k.linst).groupOf lvl k.r.w1) lvl = b at hdep n1 n2 n3 ⊢
  obtain ⟨v, hcores, hmem, hcur, hvctx, -, hd, hx⟩ := exec_bar_arrives hm hk hb hl
  have harr : ({ b with arr := b.arr ++ [s.cur] } : Bar).arr = b.arr ++ [s.cur] := rfl
  have hdp : ({ b with arr := b.arr ++ [s.cur] } : Bar).dep = b.dep := rfl
  have hrl : ({ b with arr := b.arr ++ [s.cur] } : Bar).rel = b.rel := rfl
  have m1 : ({ b with arr := b.arr ++ [s.cur] } : Bar).linst = k.linst := n1
  have m2 : ({ b with arr := b.arr ++ [s.cur] } : Bar).grp = (s.launch k.linst).groupOf lvl k.r.w1 := n2
  have m3 : ({ b with arr := b.arr ++ [s.cur] } : Bar).lvl = lvl := n3
  generalize ({ b with arr := b.arr ++ [s.cur] } : Bar) = b' at hx harr hdp hrl m1 m2 m3
  have hcore : ∀ c, v.core c = (s.read []).core c := fun c => by unfold State.core; rw [hcores]
  have hme : (v.setBar b').core s.cur = s.me := (hcore s.cur).trans ((State.read_me s []).trans (Core.touch_nil _ _))
  have hheld := State.holds_at (v.setBar b') (.bar lvl scope)
  have hg : b'.dep < (v.launch b'.linst).groupSize b'.lvl := by
    have hla : v.launch k.linst = s.launch k.linst := by unfold State.launch; rw [hd]
    rw [m1, m3, hla, hdp]
    exact hdep
  have hfound := State.bar_setBar hg (by rw [harr]; simp)
  rw [m1, m2, m3] at hfound
  have hbar : ∀ t : State, t.d = (v.setBar b').d → t.bar k.linst ((s.launch k.linst).groupOf lvl k.r.w1) lvl = b' := fun t ht => by
    rw [← hfound]
    unfold State.bar
    rw [ht]
  refine ⟨_, hx, ?_⟩
  dsimp only
  rw [hbar ((v.setBar b').holds (.bar lvl scope)) rfl]
  have hheld' : ((v.setBar b').holds (.bar lvl scope)).core s.cur = s.me.heldBy v.now 0 (.bar lvl scope) := by
    rw [← hme, ← hctx, ← hvctx]
    exact (congrArg (fun c => ((v.setBar b').holds (.bar lvl scope)).core c) hcur.symm).trans
      (hheld.trans (congrArg (fun c => Core.heldBy ((v.setBar b').core c) v.now v.ctx _) hcur))
  have hregs : RegistersKept s (v.setBar b') := fun c =>
    (congrArg Core.r (hcore c)).trans (State.read_core_r s [] c)
  refine ⟨harr, hdp, ?_, ?_, hrl, State.holds_regs hregs _, fun pa => Homes.mem_eq hmem pa⟩
  · rw [hheld']; exact Core.heldBy_hold _ _ _ _
  · rw [hheld']
    obtain ⟨hp, -⟩ := Core.heldBy_goes s.me v.now 0 (.bar lvl scope)
    exact hp

/-- The release of a barrier's members (R284, R285). -/
theorem barrier_releases (s : State) (linst grp lvl : Nat) (hrel : (s.bar linst grp lvl).rel = true) (hne : (s.bar linst grp lvl).arr ≠ [])
    (hn : (s.bar linst grp lvl).arr.Nodup) (hsize : (s.bar linst grp lvl).arr.length + (s.bar linst grp lvl).dep = (s.launch linst).groupSize lvl)
    (hready : ∀ c ∈ (s.bar linst grp lvl).arr, s.barReady c = true)
    (hh : ∀ c ∈ (s.bar linst grp lvl).arr, ∃ l scope since, (s.core c).q.holdOf 0 = { k := .bar l scope, since := since }) :
    ∃ v : State, AllReleased s v (s.bar linst grp lvl).arr ∧ exec (.barrierRelease linst grp lvl) s =
      .next (v.setBar { s.bar linst grp lvl with arr := [], rel := false }) := by
  refine ⟨_, State.releaseAll_released linst grp lvl s.now _ s hn hh, ?_⟩
  show execBarrierRelease linst grp lvl s = _
  unfold execBarrierRelease
  dsimp only
  rw [if_neg]
  · rfl
  · rw [hrel, List.all_eq_true.2 hready]
    rintro (h | h | h | h)
    · cases h
    · exact hne h
    · exact h hsize
    · cases h

theorem barrier_waits (s : State) (linst grp lvl : Nat) (h : (s.bar linst grp lvl).rel = false ∨ (s.bar linst grp lvl).arr = [] ∨
    (s.bar linst grp lvl).arr.length + (s.bar linst grp lvl).dep ≠ (s.launch linst).groupSize lvl ∨
    ∃ c ∈ (s.bar linst grp lvl).arr, s.barReady c = false) : exec (.barrierRelease linst grp lvl) s = .next s := by
  show execBarrierRelease linst grp lvl s = _
  unfold execBarrierRelease
  dsimp only
  refine if_pos ?_
  rcases h with h | h | h | ⟨c, hc, h⟩
  · exact .inl (by rw [h]; rfl)
  · exact .inr (.inl h)
  · exact .inr (.inr (.inl h))
  · refine .inr (.inr (.inr ?_))
    rw [Bool.not_eq_true', List.all_eq_false]
    exact ⟨c, hc, by rw [h]; decide⟩

/-- An object whose members have all arrived or ended is RELEASING once the clock ends (R284). -/
theorem clockEnds_releasing (s : State) {b : Bar} (hb : b ∈ s.clockEnds.d.bars) (hne : b.arr ≠ [])
    (hl : b.arr.length + b.dep = (s.launch b.linst).groupSize b.lvl) : b.rel = true := by
  obtain ⟨o, -, rfl⟩ := List.mem_map.1 (show b ∈ s.d.bars.map _ from hb)
  dsimp only at hne hl ⊢
  rw [List.isEmpty_eq_false_iff.2 hne, hl]
  simp

section
variable {s : State} {f : SyncF}

/-- The words that operate on a counter issue their access (R288). -/
theorem sig_issues (ho : ((s.sc f.m.x).toInt + f.m.off.toInt) % 8 = 0) :
    IssuesAccess (.sigAdd f) (syncSrcs f true) 1 none (rW ||| rA) (s.tk f.m.k) ((s.sc f.m.x).toInt + f.m.off.toInt) 8 s
      (fun a => a.op = .sigAdd ∧ a.a = s.sc f.d ∧ a.rel = f.ord.rel ∧ a.acq = f.ord.acq) ∧
    IssuesAccess (.sigSet f) (syncSrcs f true) 1 none (rW ||| rA) (s.tk f.m.k) ((s.sc f.m.x).toInt + f.m.off.toInt) 8 s
      (fun a => a.op = .sigSet ∧ a.a = s.sc f.d ∧ a.rel = f.ord.rel ∧ a.acq = f.ord.acq) ∧
    IssuesAccess (.sigRead f) (syncSrcs f false) 1 (some f.d) rR (s.tk f.m.k) ((s.sc f.m.x).toInt + f.m.off.toInt) 8 s
      (fun a => a.op = .sigRead ∧ a.d = f.d ∧ a.acq = f.ord.acq) := by
  have hn : ¬((s.sc f.m.x).toInt + f.m.off.toInt) % 8 ≠ 0 := not_not.2 ho
  refine ⟨issuesAccess_of_begin (a := sigAcc s .sigAdd f) Nat.one_pos rfl nofun rfl (fun _ _ _ _ _ _ _ _ _ _ => ⟨rfl, rfl, rfl, rfl⟩)
      fun hm => (show exec (.sigAdd f) s = sigIssue (.sigAdd f) .sigAdd f s from rfl).trans ((sigIssue_ready hm).trans (if_neg hn)),
    issuesAccess_of_begin (a := sigAcc s .sigSet f) Nat.one_pos rfl nofun rfl (fun _ _ _ _ _ _ _ _ _ _ => ⟨rfl, rfl, rfl, rfl⟩)
      fun hm => (show exec (.sigSet f) s = sigIssue (.sigSet f) .sigSet f s from rfl).trans ((sigIssue_ready hm).trans (if_neg hn)),
    issuesAccess_of_begin (a := sigAcc s .sigRead f) Nat.one_pos rfl (fun hw _ => ?_) rfl (fun _ _ _ _ _ _ _ _ _ _ => ⟨rfl, rfl, rfl⟩)
      fun hm => (show exec (.sigRead f) s = sigIssue (.sigRead f) .sigRead f s from rfl).trans ((sigIssue_ready hm).trans (if_neg hn))⟩
  have h := Instr.check_of_wf hw
  simp only [Instr.check, List.cons_append, firstFail_cons] at h
  exact ReadsBack.of_isS h.1

/-- A misaligned counter traps (R288). -/
theorem sig_traps (ho : ((s.sc f.m.x).toInt + f.m.off.toInt) % 8 ≠ 0) :
    TrapsBy (.sigAdd f) (syncSrcs f true) s 1 (minOf (.sigAdd f)) s.me.q.pc ∧
    TrapsBy (.sigSet f) (syncSrcs f true) s 1 (minOf (.sigSet f)) s.me.q.pc ∧
    TrapsBy (.sigRead f) (syncSrcs f false) s 1 (minOf (.sigRead f)) s.me.q.pc ∧
    TrapsBy (.sigWait f) (syncSrcs f true) s 1 (minOf (.sigWait f)) s.me.q.pc :=
  ⟨trap_trapped fun hm => (show exec (.sigAdd f) s = sigIssue (.sigAdd f) .sigAdd f s from rfl).trans ((sigIssue_ready hm).trans (if_pos ho)),
    trap_trapped fun hm => (show exec (.sigSet f) s = sigIssue (.sigSet f) .sigSet f s from rfl).trans ((sigIssue_ready hm).trans (if_pos ho)),
    trap_trapped fun hm => (show exec (.sigRead f) s = sigIssue (.sigRead f) .sigRead f s from rfl).trans ((sigIssue_ready hm).trans (if_pos ho)),
    trap_trapped fun hm => (exec_sigWait_ready hm).trans (if_pos ho)⟩

/-- A `sig.wait` whose check passes registers its target (R295). -/
theorem sigWait_registers {u : Token} {pas : List Nat} (ho : ((s.sc f.m.x).toInt + f.m.off.toInt) % 8 = 0)
    (hc : s.check (s.tk f.m.k) ((s.sc f.m.x).toInt + f.m.off.toInt) 8 rR = .pass u pas) (hacc : s.me.acc = [])
    (hpop : s.popPending s.cur 0 s.me.q.nid = false) :
    WordResult (.sigWait f) (syncSrcs f true) s (fun t => Housekeeping s t ∧ (t.core s.cur).q.pc = s.me.q.pc ∧
      (t.core s.cur).q.holdOf 0 = { k := .sig (pas.headD 0) (s.sc f.d) f.ord.acq f.ord.scope false u.entry, since := s.me.q.nid }) := by
  intro _ hm
  have hctx : s.ctx = 0 := MayIssue.main hm rfl
  have hmay : ∀ a, s.me.mayPerform a false = true := fun a => by unfold Core.mayPerform; rw [hacc]; rfl
  have hx := (exec_sigWait_ready hm).trans (if_neg (not_not.2 ho))
  rw [hc] at hx
  dsimp only at hx
  rw [hmay, hpop, if_neg (by simp)] at hx
  have hhome := State.bypass_homes ((s.read (syncSrcs f true)).upd (fun x => x.cacheTok u.entry)) s.cur pas
  have hcore : ((s.read (syncSrcs f true)).upd (fun x => x.cacheTok u.entry)).core s.cur = (s.me.touch s.ctx (syncSrcs f true)).cacheTok u.entry :=
    State.read_upd_core s _ _
  have hkeep := Housekeeping.of_read (fun x => Core.cacheTok_r x u.entry) (fun x => by rw [Core.cacheTok_kept]) hhome
  generalize ((s.read (syncSrcs f true)).upd (fun x => x.cacheTok u.entry)).bypass s.cur pas = v at hx hhome hkeep
  have hcur : v.cur = s.cur := hhome.frame.cur
  have hvctx : v.ctx = 0 := hhome.frame.ctx.trans hctx
  have hq : (v.core s.cur).q = { s.me.q with hold := (v.core s.cur).q.hold } := by
    refine (hhome.frame.core_q s.cur).trans ?_
    rw [hcore, Core.cacheTok_q]
    rfl
  have hheld := State.holds_at v (.sig (pas.headD 0) (s.sc f.d) f.ord.acq f.ord.scope false u.entry)
  rw [hcur, hvctx] at hheld
  refine ⟨_, hx, Housekeeping.congr hkeep (fun d => ?_) rfl, ?_, ?_⟩
  · exact State.holds_regs (s := v) (fun _ => rfl) _ d
  · rw [hheld]
    obtain ⟨hp, -⟩ := Core.heldBy_goes (v.core s.cur) v.now 0 (.sig (pas.headD 0) (s.sc f.d) f.ord.acq f.ord.scope false u.entry)
    refine hp.trans ?_
    rw [hq]
    rfl
  · rw [hheld, Core.heldBy_hold, hq]

/-- A `sig.wait` whose check fails sets KSTAT and goes on (R295). -/
theorem sigWait_fails {b : KBit} {e : Nat} (ho : ((s.sc f.m.x).toInt + f.m.off.toInt) % 8 = 0)
    (hc : s.check (s.tk f.m.k) ((s.sc f.m.x).toInt + f.m.off.toInt) 8 rR = .fail b e) :
    WordResult (.sigWait f) (syncSrcs f true) s (fun t =>
      OnlyCore s.cur s t ∧ Passes s t 1 ∧ (t.core s.cur).r = s.me.r ∧ (t.core s.cur).c = (s.me.kset b e).c) := by
  intro _ hm
  have hx := (exec_sigWait_ready hm).trans (if_neg (not_not.2 ho))
  rw [hc] at hx
  obtain ⟨h1, h2, h3⟩ := State.upd_done s (syncSrcs f true) (fun x => x.kset b e) (n := 1) Nat.one_pos fun x => rfl
  exact ⟨_, hx, h1, h2, by rw [h3]; rfl, by rw [h3]; rfl⟩

/-- A registered wait whose condition has held, and whose acquire may return, goes on (R295). -/
theorem sigWait_released {c pa scope e since : Nat} {target : Word} {acq met : Bool}
    (hh : (s.core c).q.holdOf 0 = { k := .sig pa target acq scope met e, since := since })
    (hmet : met = true ∨ target.toNat ≤ s.valueAt ((List.range 8).map (pa + ·)))
    (hacq : acq = true → s.acquireReady c scope ((List.range 8).map (pa + ·)) = true ∧ (s.core c).noneOvertaken 0 = true)
    (hcl : Clean s ((List.range 8).map (pa + ·))) (hln : s.linked ((List.range 8).map (pa + ·)) = true) :
    ∃ u : State, u = { s with cores := u.cores, w := u.w, hb := u.hb, seen := u.seen } ∧ RegistersKept s u ∧ (u.core c).q = (s.core c).q ∧
      exec (.sigWaitRelease c) s = .next (u.mod c (fun x => (x.next 0 1).passed s.now)) := by
  have hx : exec (.sigWaitRelease c) s = execSigWaitRelease c s := rfl
  unfold execSigWaitRelease at hx
  rw [hh] at hx
  dsimp only at hx
  generalize (List.range 8).map (pa + ·) = pas at hx hmet hacq hcl hln
  rw [if_neg] at hx
  · have hhear := State.hear_eq s c 0 (s.ent e).kind acq scope pas none
    generalize s.hear c 0 (s.ent e).kind acq scope pas none = v at hx hhear
    have hcore : ∀ d, v.core d = s.core d := fun d => by rw [hhear]; rfl
    obtain ⟨u, hu, hr⟩ := State.findAll_clean c pas (s := v) (clean_congr hcl (by rw [hhear]) (by rw [hhear]) (by rw [hhear]) (by rw [hhear])
      (by rw [hhear]) (by rw [hhear])) fun _ h => h
    rw [hu] at hx
    refine ⟨u, ?_, fun d => ?_, ?_, hx⟩
    · have h := hr.fills.rest
      generalize u.cores = x, u.w = y at h
      generalize v.hb = p, v.seen = q at hhear
      subst hhear
      subst h
      rfl
    · by_cases hd : d = c
      · subst hd; rw [hr.mine, ← hcore]
      · rw [hr.others d hd, hcore]
    · rw [hr.mine, ← hcore]
  · rw [hln]
    rintro (h | h | ⟨h1, h2⟩)
    · rcases hmet with e | e
      · rw [e] at h; simp at h
      · rw [decide_eq_true e] at h; simp at h
    · cases h
    · obtain ⟨k1, k2⟩ := hacq h1
      rw [k1, k2] at h2
      cases h2

end

/-- Settles O29: arrivals and their release, the end of the clock, operations on a counter, and the waits for one. -/
theorem barriersAndSignals : Obligations.BarriersAndSignals := by
  unfold Obligations.BarriersAndSignals
  refine ⟨⟨fun s lvl scope k hk => ⟨fun hl hd => bar_arrives hk hl hd, fun hbad => trap_trapped fun hm => ?_⟩, fun s linst grp lvl => barrier_waits s linst grp lvl,
    fun s b hb => clockEnds_releasing s hb, fun s linst grp lvl => ?_⟩, fun s f => ⟨sig_issues, sig_traps⟩, fun s c a hm ho hrel hl hn hd hst => ?_,
    fun s c a hm ho hk _ hw hl hdat hal hdirty => ?_,
    fun s f ho => ⟨fun u pas hc hacc hpop => sigWait_registers ho hc hacc hpop, fun b e hc => sigWait_fails ho hc⟩,
    fun s c pa target acq scope met e since hh => ⟨fun hmet hlt => ?_, fun hmet hacq hcl hln => ?_⟩⟩
  · refine (exec_bar_ready hm hk).trans (if_pos ?_)
    by_contra hno
    simp only [not_or, not_lt, Bool.not_eq_true', Bool.not_eq_false, Bool.not_eq_true] at hno
    obtain ⟨h1, h2, h3, h4, h5, h6⟩ := hno
    exact hbad ⟨h1, h2, h3, h4, h5, h6⟩
  · intro b hrel hne hn hsize hready hh
    obtain ⟨v, hv, hx⟩ := barrier_releases s linst grp lvl hrel hne hn hsize hready hh
    obtain ⟨h1, h2⟩ := State.bar_cleared v (State.bar_names s linst grp lvl)
    exact ⟨_, hx, h1, h2, ⟨hv.flow.regs, hv.flow.bytes⟩, hv.gone, hv.flushed⟩
  · have hfl := State.tried_flow s c a a.pas
    have hval : (s.tried c a).valueAt a.pas = s.valueAt a.pas := rfl
    obtain ⟨v, hv, hf, hacc, hnew⟩ := State.rmw_sig (State.tried_calm hm hst hd) ho hrel hl hn
    rw [hval] at hnew
    have hflow := hfl.trans hf
    obtain ⟨k1, k2⟩ := State.landed_flow (f := fun x => x.dropAcc a.id) hflow rfl
    refine ⟨_, exec_writeReachesHome_sig hm ho hv, k2, k1, fun b hb => ?_, hnew⟩
    rw [State.core_mod_same] at hb
    exact Core.of_mem_dropAcc _ hb
  · obtain ⟨h, hmem, hx⟩ := exec_sigRead_lands hm ho hk hw hl hdat hal hdirty
    refine ⟨_, hx, Homes.mem_eq hmem, ?_, ?_⟩
    · rw [State.core_mod_same, Core.rdS_fillS_same]
    · rw [State.core_mod_same]; exact Core.not_mem_fillS _ _
  · show execSigWaitRelease c s = _
    unfold execSigWaitRelease
    rw [hh, hmet]
    dsimp only
    exact if_pos (.inl (by rw [decide_eq_false (Nat.not_le.2 hlt)]; rfl))
  · obtain ⟨u, hu, hr, hq, hx⟩ := sigWait_released hh hmet hacq hcl hln
    obtain ⟨h1, -, h3, h4⟩ := Core.next_passed (u.core c) s.now
    refine ⟨_, hx, State.mod_heard hu, fun d => ?_, ?_, fun hl => ?_⟩
    · by_cases hd : d = c
      · subst hd; rw [State.core_mod_same, h1]; exact hr d
      · rw [State.core_mod_other _ _ hd]; exact hr d
    · rw [State.core_mod_same]; exact h3
    · rw [State.core_mod_same, h4 (by rw [hq]; exact hl), hq]

end Sys2Proof

end

section
set_option Elab.async false

/-! SUPPORT. A `fut.wait` that finds its future empty and the pane's wait table full (R291): its record goes to the future's ring, which is
memory. O30. -/

namespace Sys2Proof.Machine

/-- The future of token 1 at offset 0. -/
def ringFuture : SyncF := { d := 0, m := { k := 1, x := 0, off := 0#32, fex := false }, ord := { acq := false, rel := false, scope := 0 } }

/-- Core 0 waits on an empty future whose ring has room for one record, and all 512 entries of its pane's wait table are in use. -/
def tableFull : State where
  cores := [(0, { q := { hold := [(0, { k := .fut ringFuture 0 false, since := 0 })] }, r := { k := [(1, { entry := 1, rights := 0xF#4, kind := 1, len := 2 })] }, task := some { uid := 1, r := {}, linst := 0, initial := false } })]
  pontil := [(1, { st := .live, kind := 1, rights := 0xF#4, len := 128, ranges := [(1, 0)] })]
  mem := [(16, 1#8), (20, 1#8)]
  d := { parked := [(0, List.replicate 512 { r := {}, pa := 0 })] }

theorem tableFull_check : tableFull.check (tableFull.tk ringFuture.m.k) ((tableFull.sc ringFuture.m.x).toInt + ringFuture.m.off.toInt) 64 (rR ||| rA) =
    .pass { entry := 1, rights := 0xF#4, kind := 1, len := 2 } (List.range 64) := by rfl

theorem tableFull_noneDirty : NoneDirty tableFull := fun d pa => by
  have hs : (tableFull.core d).stash = [] := by
    unfold State.core tableFull Sparse.get
    split <;> rfl
  unfold WroteAt Core.wroteByte Core.line
  rw [hs]
  exact fun h => Bool.false_ne_true ((BitVec.getLsbD_zero).symm.trans h)

theorem tableFull_clean : Clean tableFull (List.range 64) := by
  unfold Clean
  decide +kernel

/-- The record goes to the ring, and RCNT counts it. -/
theorem tableFull_counts : ∀ t, exec (.futParkRetry 0) tableFull = .next t → t.byte 8 ≠ tableFull.byte 8 := by
  have h : (match exec (.futParkRetry 0) tableFull with
    | .next t => decide (t.byte 8 = 1#8)
    | _ => false) = true := by decide +kernel
  intro t ht
  rw [ht] at h
  rw [of_decide_eq_true h]
  decide

end Sys2Proof.Machine

namespace Sys2Proof

open Machine

/-- Refutes O30: where the future is empty and its pane's wait table is full, a drained `fut.wait` parks its task in the future's ring, so
memory changes, and the statement says without that case that it does not. -/
theorem not_futures : ¬ Obligations.Futures := by
  unfold Obligations.Futures
  rintro ⟨-, -, -, hwait, -⟩
  obtain ⟨t, ht, hbytes, -⟩ := hwait tableFull ringFuture 0 false 0 _ _ _ rfl rfl rfl rfl rfl rfl rfl (.inl rfl) tableFull_check rfl rfl rfl
    tableFull_noneDirty tableFull_clean rfl (.futParkRetry 0) (List.mem_cons_of_mem _ List.mem_cons_self)
  exact tableFull_counts t ht (hbytes 8)

end Sys2Proof

end

section
set_option Elab.async false

/-! SUPPORT. What a queue hands on: refills that land in their reserved slots or fault their queue (R225, R223), and the records and traps that
reach their cores (R229, R233, R234). O34. -/

namespace Sys2Proof.Machine

/-! ### Moves that read no marks (R338) -/

/-- A move of clean bytes finds no mark. -/
theorem State.marksOf_clean {s : State} {pas : List Nat} (h : Clean s pas) : ∃ w, s.marksOf pas = ({ s with w := w }, []) := by
  refine ⟨(s.marksOf pas).1.w, Prod.ext (State.marksOf_w s pas) ?_⟩
  unfold State.marksOf
  refine (List.foldlRecOn (motive := fun acc : State × List (Nat × Nat) => Clean acc.1 pas ∧ acc.2 = []) _ _ ⟨h, rfl⟩ ?_).2
  rintro acc ⟨hc, hn⟩ p hp
  obtain ⟨t, ht, hr⟩ := State.find_clean 0 hc (List.of_mem_zip hp).1
  rw [ht]
  exact ⟨hr.clean hc, hn⟩

/-! ### Slots of a queue (R225) -/

/-- The first slot reserved for a ring position. -/
theorem slot_split {pos : Nat} {l : List QItem} (h : ∃ j, QItem.refill pos j ∈ l) :
    ∃ a j b, l = a ++ .refill pos j :: b ∧ ∀ i, QItem.refill pos i ∉ a := by
  induction l with
  | nil => obtain ⟨j, hj⟩ := h; cases hj
  | cons x l ih =>
    by_cases hx : ∃ j, x = .refill pos j
    · obtain ⟨j, rfl⟩ := hx
      exact ⟨[], j, l, rfl, fun _ => List.not_mem_nil⟩
    · have hl : ∃ j, QItem.refill pos j ∈ l := h.imp fun j hj => (List.mem_cons.1 hj).resolve_left fun e => hx ⟨j, e.symm⟩
      obtain ⟨a, j, b, rfl, ha⟩ := ih hl
      refine ⟨x :: a, j, b, rfl, fun i hi => ?_⟩
      rcases List.mem_cons.1 hi with e | e
      · exact hx ⟨i, e.symm⟩
      · exact ha i e

theorem fillSlot_first {pos : Nat} (r : Rec) (bad : List (Nat × Nat)) {a b : List QItem} {j : Bool} (ha : ∀ i, QItem.refill pos i ∉ a) :
    fillSlot pos r bad (a ++ .refill pos j :: b) = a ++ .here r j 0 bad :: b := by
  induction a with
  | nil => exact if_pos rfl
  | cons x a ih =>
    have ht := ih fun i hi => ha i (List.mem_cons_of_mem _ hi)
    cases x with
    | here => exact congrArg (List.cons _) ht
    | refill p i =>
      have hp : p ≠ pos := fun e => ha i (e ▸ List.mem_cons_self)
      exact (if_neg hp).trans (congrArg (List.cons _) ht)

theorem dropSlot_first {pos : Nat} {a b : List QItem} {j : Bool} (ha : ∀ i, QItem.refill pos i ∉ a) :
    dropSlot pos (a ++ .refill pos j :: b) = a ++ b := by
  induction a with
  | nil => exact if_pos rfl
  | cons x a ih =>
    have ht := ih fun i hi => ha i (List.mem_cons_of_mem _ hi)
    cases x with
    | here => exact congrArg (List.cons _) ht
    | refill p i =>
      have hp : p ≠ pos := fun e => ha i (e ▸ List.mem_cons_self)
      exact (if_neg hp).trans (congrArg (List.cons _) ht)

/-- A refill in flight is a reserved slot. -/
theorem Queue.mem_inFlight {q : Queue} {pos : Nat} : pos ∈ q.inFlight ↔ ∃ j, QItem.refill pos j ∈ q.items := by
  unfold Queue.inFlight
  rw [List.mem_filterMap]
  constructor
  · rintro ⟨x, hx, hp⟩
    cases x with
    | here => cases hp
    | refill p i => cases hp; exact ⟨i, hx⟩
  · rintro ⟨j, hj⟩
    exact ⟨_, hj, rfl⟩

/-- One of several refills lands. -/
theorem Queue.lands_one {q : Queue} (k : Nat) (h : ∃ pos j, QItem.refill pos j ∈ q.items) :
    ∃ pos j, q.inFlight[k % max q.inFlight.length 1]? = some pos ∧ QItem.refill pos j ∈ q.items := by
  obtain ⟨p, j, hp⟩ := h
  have hl : 0 < q.inFlight.length := List.length_pos_of_mem (Queue.mem_inFlight.2 ⟨j, hp⟩)
  have hk : k % max q.inFlight.length 1 < q.inFlight.length := by
    rw [Nat.max_eq_left hl]
    exact Nat.mod_lt _ hl
  obtain ⟨j', hj'⟩ := Queue.mem_inFlight.1 (List.getElem_mem hk)
  exact ⟨_, j', List.getElem?_eq_getElem hk, hj'⟩

theorem Queue.noteHead_records (q : Queue) (now : Nat) : recordsOf (q.noteHead now) = recordsOf q := by
  unfold Queue.noteHead
  split
  · next h => unfold recordsOf; rw [h]; rfl
  · rfl

/-- A queue that goes FAULTED loses the records of its ring alone (R223). -/
theorem State.queueFault_queue (s : State) (qn : Nat) : (s.queueFault qn).queue qn = { s.queue qn with st := 2, rmeta := [] } := by
  exact State.queue_setQ_same s qn { s.queue qn with st := 2, rmeta := [] }

/-! ### Refills (R225, R223) -/

theorem exec_refillLand_lands {s : State} {pane slot pos : Nat} {u : Token} {pas : List Nat} {a b : List QItem} {j : Bool}
    (hpick : (s.queue (pane * 256 + slot)).inFlight[Config.freePick s.tick (pane * 256 + slot) %
      max (s.queue (pane * 256 + slot)).inFlight.length 1]? = some pos)
    (hq : (s.queue (pane * 256 + slot)).items = a ++ .refill pos j :: b) (ha : ∀ i, QItem.refill pos i ∉ a)
    (hck : s.check (s.queue (pane * 256 + slot)).ring (64 * pos : Nat) 64 rR = .pass u pas) (hc : Clean s pas) (hl : s.linked pas = true) :
    ∃ t, exec (.refillLand pane slot) s = .next t ∧ RegistersKept s t ∧ (∀ pa, t.byte pa = s.byte pa) ∧
      recordsOf (t.queue (pane * 256 + slot)) = recordsOf { s.queue (pane * 256 + slot) with items := a } ++
        some (Rec.ofBytes (pas.map s.byte)) :: recordsOf { s.queue (pane * 256 + slot) with items := b } := by
  obtain ⟨w, hw⟩ := State.marksOf_clean hc
  have hland : s.landRefill (pane * 256 + slot) pos pas = State.setQ { s with w := w } (pane * 256 + slot)
      { s.queue (pane * 256 + slot) with items := a ++ .here (Rec.ofBytes (pas.map s.byte)) j 0 [] :: b } := by
    unfold State.landRefill
    rw [hw]
    show State.setQ { s with w := w } _ { s.queue (pane * 256 + slot) with items := fillSlot pos _ _ (s.queue (pane * 256 + slot)).items } = _
    rw [hq, fillSlot_first _ _ ha]
    rfl
  have he : exec (.refillLand pane slot) s = execRefillLand pane slot s := rfl
  rw [he]
  unfold execRefillLand
  dsimp only
  rw [hpick]
  dsimp only
  rw [hck]
  dsimp only
  rw [if_pos hl, hland]
  refine ⟨_, rfl, fun c => rfl, fun pa => rfl, ?_⟩
  rw [State.queue_setQ_same, Queue.noteHead_records, State.queue_setQ_same]
  simp [recordsOf]

theorem exec_refillLand_faults {s : State} {pane slot pos : Nat} {k : KBit} {e : Nat} {a b : List QItem} {j : Bool}
    (hpick : (s.queue (pane * 256 + slot)).inFlight[Config.freePick s.tick (pane * 256 + slot) %
      max (s.queue (pane * 256 + slot)).inFlight.length 1]? = some pos)
    (hq : (s.queue (pane * 256 + slot)).items = a ++ .refill pos j :: b) (ha : ∀ i, QItem.refill pos i ∉ a)
    (hst : (s.queue (pane * 256 + slot)).st ≠ 2)
    (hck : s.check (s.queue (pane * 256 + slot)).ring (64 * pos : Nat) 64 rR = .fail k e) :
    ∃ t, exec (.refillLand pane slot) s = .next t ∧ RegistersKept s t ∧ (∀ pa, t.byte pa = s.byte pa) ∧
      (t.queue (pane * 256 + slot)).st = 2 ∧ (t.queue (pane * 256 + slot)).rmeta = [] ∧
      recordsOf (t.queue (pane * 256 + slot)) = recordsOf { s.queue (pane * 256 + slot) with items := a } ++
        recordsOf { s.queue (pane * 256 + slot) with items := b } ∧
      ∃ j : JEntry, t.io.jpend = s.io.jpend ++ [j] ∧ j.type = 0x31 ∧ j.linst = (s.queue (pane * 256 + slot)).owner ∧
        j.detail = pane * 256 + slot := by
  have he : exec (.refillLand pane slot) s = execRefillLand pane slot s := rfl
  rw [he]
  unfold execRefillLand
  dsimp only
  rw [hpick]
  dsimp only
  rw [hck]
  dsimp only
  rw [if_neg hst, hq, dropSlot_first ha]
  refine ⟨_, rfl, fun c => rfl, fun pa => rfl, ?_⟩
  rw [State.queueFault_queue, State.queue_setQ_same]
  refine ⟨rfl, rfl, by simp [recordsOf], _, rfl, rfl, (congrArg Queue.owner (State.queue_setQ_same s _ { s.queue (pane * 256 + slot) with items := a ++ b })).trans rfl, rfl⟩

/-! ### Records that reach their registers (R229, R233, R234) -/

/-- Scalars that take their values, of one producer. -/
def Core.fillAll (x : Core) (ctx id : Nat) (l : List (Nat × Word)) : Core := l.foldl (fun (x : Core) q => x.fillS ctx q.1 id q.2) x

section
variable (x : Core) (ctx id : Nat)

theorem Core.not_mem_fillS_of {r d : Nat} (v : Word) (h : id ∉ x.sMarks ctx r) : id ∉ (x.fillS ctx d id v).sMarks ctx r := by
  by_cases hd : d = 0
  · simpa [Core.fillS, hd] using h
  · by_cases hr : r = 0
    · simp [Core.sMarks, hr]
    · simp only [Core.fillS, Core.dropS, Core.sMarks, hd, hr, if_false] at h ⊢
      by_cases hk : sKey ctx r = sKey ctx d
      · rw [hk, Sparse.get_set_same]
        simp
      · rw [Sparse.get_set_other _ _ _ hk]
        exact h

theorem Core.not_mem_fillAll_of {r : Nat} (l : List (Nat × Word)) (h : id ∉ x.sMarks ctx r) : id ∉ (x.fillAll ctx id l).sMarks ctx r := by
  unfold Core.fillAll
  exact foldl_keeps (fun y : Core => id ∉ y.sMarks ctx r) _ (fun y q hy => Core.not_mem_fillS_of y ctx id q.2 hy) l x h

theorem Core.not_mem_fillAll {r : Nat} : ∀ (l : List (Nat × Word)) (x : Core), r ∈ l.map Prod.fst →
    id ∉ (x.fillAll ctx id l).sMarks ctx r := by
  intro l
  induction l with
  | nil => exact fun _ h => absurd h List.not_mem_nil
  | cons p l ih =>
    intro x h
    rcases List.mem_cons.1 h with rfl | h
    · exact Core.not_mem_fillAll_of _ ctx id l (Core.not_mem_fillS x p.2)
    · exact ih _ h

theorem Core.rdS_fillAll_other {k r : Nat} (hr : r < 64) : ∀ (l : List (Nat × Word)) (x : Core), (∀ p ∈ l, p.1 < 64) →
    ¬(k = ctx ∧ r ∈ l.map Prod.fst) → (x.fillAll ctx id l).rdS k r = x.rdS k r := by
  intro l
  induction l with
  | nil => exact fun _ _ _ => rfl
  | cons p l ih =>
    intro x hl h
    calc ((x.fillS ctx p.1 id p.2).fillAll ctx id l).rdS k r = (x.fillS ctx p.1 id p.2).rdS k r :=
          ih _ (fun q hq => hl q (List.mem_cons_of_mem _ hq)) fun e => h ⟨e.1, List.mem_cons_of_mem _ e.2⟩
      _ = x.rdS k r := Core.rdS_fillS_other x p.2 hr (hl p List.mem_cons_self) fun e => h ⟨e.1, e.2 ▸ List.mem_cons_self⟩

theorem Core.rdS_fillAll_same {r : Nat} {v : Word} (h0 : r ≠ 0) : ∀ (l : List (Nat × Word)) (x : Core), (l.map Prod.fst).Nodup →
    (∀ p ∈ l, p.1 < 64) → (r, v) ∈ l → (x.fillAll ctx id l).rdS ctx r = v := by
  intro l
  induction l with
  | nil => exact fun _ _ _ h => absurd h List.not_mem_nil
  | cons p l ih =>
    intro x hn hl h
    obtain ⟨hp, hn⟩ := List.nodup_cons.1 hn
    rcases List.mem_cons.1 h with rfl | h
    · have ho : ((x.fillS ctx r id v).fillAll ctx id l).rdS ctx r = (x.fillS ctx r id v).rdS ctx r :=
        Core.rdS_fillAll_other ctx id (hl _ List.mem_cons_self) l _ (fun q hq => hl q (List.mem_cons_of_mem _ hq)) fun e => hp e.2
      exact ho.trans ((Core.rdS_fillS_same x v).trans (if_neg h0))
    · exact ih _ hn (fun q hq => hl q (List.mem_cons_of_mem _ hq)) h

theorem Core.fillAll_k (l : List (Nat × Word)) : (x.fillAll ctx id l).r.k = x.r.k ∧ (x.fillAll ctx id l).r.km = x.r.km := by
  unfold Core.fillAll
  exact foldl_keeps (fun y : Core => y.r.k = x.r.k ∧ y.r.km = x.r.km) _
    (fun y q hy => ⟨(Core.fillS_k y ctx q.1 id q.2).1.trans hy.1, (Core.fillS_k y ctx q.1 id q.2).2.trans hy.2⟩) l x ⟨rfl, rfl⟩

theorem Core.fillK_s (d : Nat) (t : Token) : (x.fillK ctx d id t).r.s = x.r.s ∧ (x.fillK ctx d id t).r.sm = x.r.sm := by
  unfold Core.fillK Core.dropK
  split
  · exact ⟨rfl, rfl⟩
  · exact ⟨rfl, rfl⟩

end

/-- The words of a delivered record. -/
def Deliv.words (d : Deliv) : List Word :=
  if d.code = 1 then [d.r.w0, d.r.w1, 0#64, 0#64, d.r.w4, d.r.w5, d.r.w6, d.r.w7] else List.replicate 8 0#64

/-- A core whose registers take a delivery. -/
def Core.delivered (x : Core) (d : Deliv) (t : Token) : Core :=
  let z := (x.fillAll d.ctx d.id (d.regs.zip d.words)).fillK d.ctx d.k d.id t
  match d.st with
  | some r => z.fillS d.ctx r d.id (BitVec.ofNat 64 d.code)
  | none => z

theorem Deliv.words_length (d : Deliv) : d.words.length = 8 := by
  unfold Deliv.words
  split <;> rfl

theorem Deliv.regs_zip (d : Deliv) : (d.regs.zip d.words).map Prod.fst = d.regs :=
  List.map_fst_zip (by rw [d.words_length]; exact Nat.le_of_eq (by simp [Deliv.regs, run]))

theorem Deliv.mem_regs_zip (d : Deliv) {i : Nat} (h : i < 8) : (d.d + i, d.words.getD i 0#64) ∈ d.regs.zip d.words := by
  have hw : i < d.words.length := by rw [d.words_length]; exact h
  have hr : i < d.regs.length := by simpa [Deliv.regs, run] using h
  have hz : i < (d.regs.zip d.words).length := by rw [List.length_zip]; exact Nat.lt_min.2 ⟨hr, hw⟩
  have he : (d.regs.zip d.words)[i] = (d.d + i, d.words.getD i 0#64) := by
    rw [List.getElem_zip, List.getD_eq_getElem _ _ hw]
    simp [Deliv.regs, run]
  rw [← he]
  exact List.getElem_mem hz

/-- What registers hold once a delivery has reached them. -/
structure Arrived (x y : Core) (d : Deliv) (f : Token) : Prop where
  scalars : ∀ i, i < 8 → y.rdS d.ctx (d.d + i) = d.words.getD i 0#64 ∧ d.id ∉ y.sMarks d.ctx (d.d + i)
  frame : d.k ≠ 0 → y.rdK d.ctx d.k = f ∧ d.id ∉ y.kMarks d.ctx d.k
  status : ∀ r, d.st = some r → r ≠ 0 → y.rdS d.ctx r = BitVec.ofNat 64 d.code ∧ d.id ∉ y.sMarks d.ctx r
  others : ∀ k r, r < 64 → ¬(k = d.ctx ∧ (d.d ≤ r ∧ r < d.d + 8 ∨ d.st = some r)) → y.rdS k r = x.rdS k r

theorem Core.delivered_arrives (x : Core) (d : Deliv) (t : Token) (h0 : d.d ≠ 0) (hd : d.d + 8 ≤ 64)
    (hst : ∀ r, d.st = some r → r < 64 ∧ (r < d.d ∨ d.d + 8 ≤ r)) : Arrived x (x.delivered d t) d t := by
  have hregs : ∀ p ∈ d.regs.zip d.words, p.1 < 64 := fun p hp => by
    have hm : p.1 ∈ d.regs := d.regs_zip ▸ List.mem_map_of_mem hp
    have := (mem_run.1 hm).2
    omega
  have hnd : ((d.regs.zip d.words).map Prod.fst).Nodup := by rw [d.regs_zip]; exact run_nodup _ _
  generalize hy : x.fillAll d.ctx d.id (d.regs.zip d.words) = y
  have hsame : ∀ i, i < 8 → y.rdS d.ctx (d.d + i) = d.words.getD i 0#64 ∧ d.id ∉ y.sMarks d.ctx (d.d + i) := fun i hi => by
    rw [← hy]
    exact ⟨Core.rdS_fillAll_same _ _ (by omega) _ _ hnd hregs (d.mem_regs_zip hi), Core.not_mem_fillAll _ _ _ _ (by
      rw [d.regs_zip]; exact mem_run.2 ⟨by omega, by omega⟩)⟩
  have hother : ∀ k r, r < 64 → ¬(k = d.ctx ∧ (d.d ≤ r ∧ r < d.d + 8)) → y.rdS k r = x.rdS k r := fun k r hr hn => by
    rw [← hy]
    refine Core.rdS_fillAll_other _ _ hr _ _ hregs fun e => hn ⟨e.1, ?_⟩
    rw [d.regs_zip] at e
    exact mem_run.1 e.2
  generalize hz : y.fillK d.ctx d.k d.id t = z
  obtain ⟨hzs, hzm⟩ := Core.fillK_s y d.ctx d.id d.k t
  rw [hz] at hzs hzm
  have hzS : ∀ k r, z.rdS k r = y.rdS k r := fun k r => by unfold Core.rdS; rw [hzs]
  have hzM : ∀ k r, z.sMarks k r = y.sMarks k r := fun k r => by unfold Core.sMarks; rw [hzm]
  have hk : d.k ≠ 0 → z.rdK d.ctx d.k = t ∧ d.id ∉ z.kMarks d.ctx d.k := fun hk => by
    rw [← hz]
    exact ⟨(Core.rdK_fillK_same y d.ctx d.k d.id t).trans (if_neg hk), Core.not_mem_fillK y d.ctx d.k d.id t⟩
  have he : x.delivered d t = match d.st with
    | some r => z.fillS d.ctx r d.id (BitVec.ofNat 64 d.code)
    | none => z := by
    unfold Core.delivered
    rw [hy, hz]
  rw [he]
  cases hs : d.st with
  | none =>
    refine ⟨fun i hi => ?_, hk, fun r hr => (nomatch hs.symm.trans hr), fun k r hr hn => ?_⟩
    · rw [hzS, hzM]; exact hsame i hi
    · rw [hzS]; exact hother k r hr fun e => hn ⟨e.1, .inl e.2⟩
  | some q =>
    obtain ⟨hq, hqd⟩ := hst q hs
    refine ⟨fun i hi => ?_, fun h => ?_, fun r hr h => ?_, fun k r hr hn => ?_⟩
    · obtain ⟨h1, h2⟩ := hsame i hi
      refine ⟨?_, Core.not_mem_fillS_of _ _ _ _ (by rw [hzM]; exact h2)⟩
      exact (Core.rdS_fillS_other z _ (by omega) hq (by omega)).trans ((hzS _ _).trans h1)
    · obtain ⟨h1, h2⟩ := hk h
      obtain ⟨e1, e2⟩ := Core.fillS_k z d.ctx q d.id (BitVec.ofNat 64 d.code)
      refine ⟨?_, ?_⟩
      · unfold Core.rdK at h1 ⊢; rw [e1]; exact h1
      · unfold Core.kMarks at h2 ⊢; rw [e2]; exact h2
    · cases hs.symm.trans hr
      exact ⟨(Core.rdS_fillS_same z _).trans (if_neg h), Core.not_mem_fillS z _⟩
    · refine (Core.rdS_fillS_other z _ hr hq fun e => hn ⟨e.1, .inr (by rw [hs, e.2])⟩).trans ((hzS k r).trans ?_)
      exact hother k r hr fun e => hn ⟨e.1, .inl e.2⟩

/-- A token of a live entry reaches a core as it is, and its entry knows the core (R110, R206). -/
theorem State.arrives_live {s : State} {c : Nat} {f : Token} (h : f.entry = 0 ∨ ((s.ent f.entry).st = .live ∧ (s.ent f.entry).gen = f.gen)) :
    s.arrives c f = (s.holdBit f.entry c, f) := by
  have hr : s.restore c f = (s, f) := by
    unfold State.restore
    by_cases h0 : f.entry = 0
    · rw [if_pos h0]
    · obtain ⟨hl, hg⟩ := h.resolve_left h0
      have hf : s.follow 9 f = some f := by
        unfold State.follow
        simp [hl, hg]
      rw [if_neg h0, hf]
  unfold State.arrives
  rw [hr]

theorem State.takePushed_hb (s : State) (q c ctx : Nat) : ∃ h, s.takePushed q c ctx = { s with hb := h } := by
  unfold State.takePushed
  dsimp only
  split
  · exact ⟨s.hb, rfl⟩
  · exact ⟨_, rfl⟩

theorem State.holdBit_rest (s : State) (e c : Nat) : s.holdBit e c = { s with pontil := (s.holdBit e c).pontil } := by
  unfold State.holdBit
  split <;> rfl

/-- A record on its way is no trap. -/
theorem Deliv.trap_eq_false {d : Deliv} (hp : d.push = false) (h : d.st ≠ none ∨ d.code ≠ 2) : d.trap = false := by
  unfold Deliv.trap
  rw [hp, Bool.false_or, Bool.and_eq_false_iff]
  refine h.imp (fun h => ?_) fun h => beq_eq_false_iff_ne.2 h
  rw [Option.isNone_eq_false_iff, Option.isSome_iff_ne_none]
  exact h

theorem Deliv.trap_eq_true {d : Deliv} (h : d.push = true ∨ (d.st = none ∧ d.code = 2)) : d.trap = true := by
  unfold Deliv.trap
  rcases h with h | ⟨h1, h2⟩
  · rw [h, Bool.true_or]
  · rw [h1, h2, Bool.or_eq_true]; exact .inr rfl

/-- The state as a record reaches core `c`. -/
def State.recordLands (s : State) (c : Nat) (d : Deliv) : State :=
  let s1 := s.mod c (fun x => x.takeDeliv d)
  let s2 := if d.code = 1 then s1.takePushed d.q c d.ctx else s1
  let p := if d.code = 1 ∧ d.k ≠ 0 then s2.arrives c d.r.frame else (s2, ({} : Token))
  p.1.mod c (fun x => x.delivered d p.2)

theorem exec_recordDelivery {s : State} {c : Nat} {d : Deliv} {rest : List Deliv} (hd : (s.core c).deliv = d :: rest) (ht : d.trap = false)
    (hb : d.bad = []) : exec (.recordDelivery c) s = .next (s.recordLands c d) := by
  have hf : (s.core c).deliv.find? (fun d => !d.trap) = some d := by rw [hd, List.find?_cons_of_pos (by simp [ht])]
  have he : exec (.recordDelivery c) s = execRecordDelivery c s := rfl
  rw [he]
  unfold execRecordDelivery
  rw [hf]
  dsimp only
  rw [if_neg (by simp [hb])]
  rfl

theorem State.recordLands_arrived {s : State} {c : Nat} {d : Deliv} (h0 : d.d ≠ 0) (hd : d.d + 8 ≤ 64)
    (hst : ∀ r, d.st = some r → r < 64 ∧ (r < d.d ∨ d.d + 8 ≤ r))
    (hl : d.r.frame.entry = 0 ∨ ((s.ent d.r.frame.entry).st = .live ∧ (s.ent d.r.frame.entry).gen = d.r.frame.gen)) :
    (∀ pa, (s.recordLands c d).byte pa = s.byte pa) ∧ (∀ e, e ≠ c → (s.recordLands c d).core e = s.core e) ∧
    Arrived (s.core c) ((s.recordLands c d).core c) d (if d.code = 1 then d.r.frame else {}) ∧
    (d.code = 1 → d.k ≠ 0 → d.r.frame.entry ≠ 0 → c < 1024 → ((s.recordLands c d).ent d.r.frame.entry).holders.getLsbD c = true) ∧
    (d.k = 0 → (s.recordLands c d).pontil = s.pontil) := by
  generalize hs1 : s.mod c (fun x => x.takeDeliv d) = s1
  have hc1 : s1.core c = (s.core c).takeDeliv d := by rw [← hs1]; exact State.core_mod_same ..
  have ho1 : ∀ e, e ≠ c → s1.core e = s.core e := fun e he => by rw [← hs1]; exact State.core_mod_other _ _ he
  have hm1 : s1.mem = s.mem := by rw [← hs1]; rfl
  have hp1 : s1.pontil = s.pontil := by rw [← hs1]; rfl
  obtain ⟨s2, hs2, hb2⟩ : ∃ s2, (if d.code = 1 then s1.takePushed d.q c d.ctx else s1) = s2 ∧ ∃ h, s2 = { s1 with hb := h } := by
    split
    · exact ⟨_, rfl, State.takePushed_hb ..⟩
    · exact ⟨s1, rfl, s1.hb, rfl⟩
  obtain ⟨h, rfl⟩ := hb2
  generalize hp : (if d.code = 1 ∧ d.k ≠ 0 then State.arrives { s1 with hb := h } c d.r.frame else ({ s1 with hb := h }, ({} : Token))) = p
  have hpv : p = if d.code = 1 ∧ d.k ≠ 0 then (State.holdBit { s1 with hb := h } d.r.frame.entry c, d.r.frame) else
      ({ s1 with hb := h }, ({} : Token)) := by
    rw [← hp, State.arrives_live]
    unfold State.ent at hl ⊢
    rw [hp1]
    exact hl
  have hp1' : ∃ k, p.1 = { s1 with hb := h, pontil := k } := by
    rw [hpv]
    split
    · exact ⟨_, State.holdBit_rest _ _ _⟩
    · exact ⟨_, rfl⟩
  have ht : s.recordLands c d = p.1.mod c (fun x => x.delivered d p.2) := by
    unfold State.recordLands
    dsimp only
    rw [hs1, hs2, hp]
  rw [ht]
  obtain ⟨k, hk⟩ := hp1'
  have hcore : ∀ e, p.1.core e = s1.core e := fun e => by rw [hk]; rfl
  refine ⟨fun pa => ?_, fun e he => ?_, ?_, fun hcode hk0 he hc => ?_, fun hk0 => ?_⟩
  · exact Homes.mem_eq ((congrArg State.mem hk).trans hm1) pa
  · rw [State.core_mod_other _ _ he, hcore, ho1 e he]
  · rw [State.core_mod_same, hcore, hc1]
    have ha := Core.delivered_arrives ((s.core c).takeDeliv d) d p.2 h0 hd hst
    refine ⟨ha.scalars, fun hk0 => ?_, ha.status, ha.others⟩
    have hf : p.2 = if d.code = 1 then d.r.frame else {} := by
      rw [hpv]
      by_cases hcode : d.code = 1
      · rw [if_pos ⟨hcode, hk0⟩, if_pos hcode]
      · rw [if_neg fun e => hcode e.1, if_neg hcode]
    rw [← hf]
    exact ha.frame hk0
  · have he' : (p.1.mod c (fun x => x.delivered d p.2)).ent d.r.frame.entry = p.1.ent d.r.frame.entry := rfl
    rw [he', hpv, if_pos ⟨hcode, hk0⟩]
    unfold State.holdBit
    rw [if_neg he, State.ent_setEnt_same]
    exact PEntry.hold_bit _ hc
  · show p.1.pontil = _
    rw [hpv, if_neg fun e => e.2 hk0]
    exact hp1

/-! ### QUEUE traps on their way (R223) -/

theorem Core.undeliver_kept (x : Core) (d : Deliv) : (x.undeliver d).q = x.q ∧ (x.undeliver d).r.s = x.r.s ∧ (x.undeliver d).r.k = x.r.k := by
  unfold Core.undeliver
  split
  · exact ⟨rfl, rfl, rfl⟩
  · generalize hy : d.regs.foldl (fun x r => x.dropS d.ctx r d.id) x = y
    have h : y.q = x.q ∧ y.r.s = x.r.s ∧ y.r.k = x.r.k := by
      rw [← hy]
      refine foldl_keeps (fun y : Core => y.q = x.q ∧ y.r.s = x.r.s ∧ y.r.k = x.r.k) _ (fun y r hy => ?_) _ _ ⟨rfl, rfl, rfl⟩
      refine ⟨(Core.dropS_q ..).trans hy.1, ?_, ?_⟩ <;> rw [Core.dropS_regs] <;> simp [hy]
    dsimp only
    generalize hz : y.dropK d.ctx d.k d.id = z
    have hk : z.q = x.q ∧ z.r.s = x.r.s ∧ z.r.k = x.r.k := by
      rw [← hz]
      refine ⟨(Core.dropK_q ..).trans h.1, ?_, ?_⟩ <;> rw [Core.dropK_regs] <;> simp [h]
    split
    · refine ⟨(Core.dropS_q ..).trans hk.1, ?_, ?_⟩ <;> rw [Core.dropS_regs] <;> simp [hk]
    · exact hk

theorem Core.not_mem_dropS_of (x : Core) {ctx r d id : Nat} (h : id ∉ x.sMarks ctx r) : id ∉ (x.dropS ctx d id).sMarks ctx r := by
  by_cases hd : d = 0
  · simpa [Core.dropS, hd] using h
  · by_cases hr : r = 0
    · simp [Core.sMarks, hr]
    · simp only [Core.dropS, Core.sMarks, hd, hr, if_false] at h ⊢
      by_cases hk : sKey ctx r = sKey ctx d
      · rw [hk, Sparse.get_set_same]
        simp
      · rw [Sparse.get_set_other _ _ _ hk]
        exact h

/-- A delivery that ends holds its registers no more. -/
theorem Core.undeliver_marks (x : Core) (d : Deliv) (hp : d.push = false) {i : Nat} (hi : i < 8) : d.id ∉ (x.undeliver d).sMarks d.ctx (d.d + i) := by
  have hy : ∀ (l : List Nat) (x : Core), d.d + i ∈ l → d.id ∉ (l.foldl (fun x r => x.dropS d.ctx r d.id) x).sMarks d.ctx (d.d + i) := by
    intro l
    induction l with
    | nil => exact fun _ h => absurd h List.not_mem_nil
    | cons r l ih =>
      intro x h
      rcases List.mem_cons.1 h with rfl | h
      · exact foldl_keeps (fun y : Core => d.id ∉ y.sMarks d.ctx (d.d + i)) _ (fun y r hy => Core.not_mem_dropS_of y hy) l _
          Core.not_mem_dropS
      · exact ih _ h
  have h1 := hy d.regs x (mem_run.2 ⟨by omega, by omega⟩)
  unfold Core.undeliver
  rw [hp, if_neg Bool.false_ne_true]
  generalize d.regs.foldl (fun x r => x.dropS d.ctx r d.id) x = y at h1
  have h2 : d.id ∉ (y.dropK d.ctx d.k d.id).sMarks d.ctx (d.d + i) := by
    unfold Core.sMarks at h1 ⊢
    rw [Core.dropK_regs]
    exact h1
  dsimp only
  split
  · exact Core.not_mem_dropS_of _ h2
  · exact h2

theorem Core.passed_q (x : Core) (now : Nat) : x.passed now = { x with q := { x.q with pointAt := (x.passed now).q.pointAt } } :=
  Core.passed_kept x now

theorem Core.pushEnds_kept (x : Core) (now id : Nat) : (x.pushEnds now 0 id).r = x.r ∧ (x.pushEnds now 0 id).q.late = x.q.late ∧
    (x.pushEnds now 0 id).q.tookAt = x.q.tookAt := by
  unfold Core.pushEnds
  split
  · split
    · exact ⟨rfl, rfl, rfl⟩
    · show ((x.next 0 1).passed now).r = _ ∧ ((x.next 0 1).passed now).q.late = _ ∧ ((x.next 0 1).passed now).q.tookAt = _
      rw [Core.passed_kept]
      exact ⟨rfl, Core.next_late x 0 1⟩
  · exact ⟨rfl, rfl, rfl⟩

/-- A pusher goes on after its `qpush`. -/
theorem Core.pushEnds_goes (x : Core) (now ctx id : Nat) (hh : (x.q.holdOf ctx).k = .queue id) (hs : ¬(ctx = 0 ∧ x.q.st = .ending)) :
    (x.pushEnds now ctx id).q.holdOf ctx = {} ∧
    ((ctx ≠ 0 ∨ x.q.tact = true ∨ ∀ l, l < 6 → (x.q.loop l).act = false ∨ (x.q.loop l).last ≠ x.q.pcOf ctx) →
      (x.pushEnds now ctx id).q.pcOf ctx = x.q.pcOf ctx + 1) := by
  unfold Core.pushEnds
  rw [if_pos hh, if_neg hs]
  have hhold : (x.next ctx 1).q.holdOf ctx = {} := Sparse.get_set_same ({} : Hold) _ ctx {}
  have hpc := (Core.next_numbered x false ctx 1 Nat.one_pos).2.2
  have hq : ((x.next ctx 1).passedBy now ctx).q.holdOf ctx = (x.next ctx 1).q.holdOf ctx ∧
      ((x.next ctx 1).passedBy now ctx).q.pcOf ctx = (x.next ctx 1).q.pcOf ctx := by
    unfold Core.passedBy
    split
    · rw [Core.passed_kept]; exact ⟨rfl, rfl⟩
    · exact ⟨rfl, rfl⟩
  exact ⟨hq.1.trans hhold, fun h => hq.2.trans (hpc h)⟩

/-- The core as a QUEUE trap reaches its main context. -/
def Core.queueTrapped (k : Core) (now : Nat) (d : Deliv) : Core :=
  let w := (k.takeDeliv d).undeliver d
  let y := if d.push then w.pushEnds now 0 d.id else w
  y.late { clk := d.id, cause := 13, info := infoWord 0 false false 3 0 d.q, cont := false, vec := false, arr := now }

/-- What a core keeps as a QUEUE trap reaches it, and how its pusher goes on. -/
structure QueueTrapped (x y : Core) (now : Nat) (d : Deliv) : Prop where
  scalars : ∀ k r, y.rdS k r = x.rdS k r
  tokens : ∀ k r, y.rdK k r = x.rdK k r
  late : ∃ w : Core, y = w.late { clk := d.id, cause := 13, info := infoWord 0 false false 3 0 d.q, cont := false, vec := false, arr := now } ∧
    w.q.late = x.q.late ∧ w.q.tookAt = x.q.tookAt
  marks : d.push = false → ∀ i, i < 8 → d.id ∉ y.sMarks d.ctx (d.d + i)
  goes : d.push = true → (x.q.holdOf 0).k = .queue d.id → x.q.st ≠ .ending → y.q.holdOf 0 = {} ∧
    ((x.q.tact = true ∨ ∀ l, l < 6 → (x.q.loop l).act = false ∨ (x.q.loop l).last ≠ x.q.pc) → y.q.pcOf 0 = x.q.pcOf 0 + 1)

theorem Core.queueTrapped_core (x : Core) (now : Nat) (d : Deliv) : QueueTrapped x (x.queueTrapped now d) now d := by
  obtain ⟨hwq, hws, hwk⟩ := Core.undeliver_kept (x.takeDeliv d) d
  have hwm := Core.undeliver_marks (x.takeDeliv d) d
  generalize hw : (x.takeDeliv d).undeliver d = w at hwq hws hwk hwm
  obtain ⟨hpr, hpl, hpt⟩ := Core.pushEnds_kept w now d.id
  generalize hy : (if d.push then w.pushEnds now 0 d.id else w) = y
  have hyr : y.r = w.r ∧ y.q.late = w.q.late ∧ y.q.tookAt = w.q.tookAt := by
    rw [← hy]
    split
    · exact ⟨hpr, hpl, hpt⟩
    · exact ⟨rfl, rfl, rfl⟩
  have he : x.queueTrapped now d = y.late { clk := d.id, cause := 13, info := infoWord 0 false false 3 0 d.q, cont := false, vec := false, arr := now } := by
    unfold Core.queueTrapped
    dsimp only
    rw [hw, hy]
  obtain ⟨-, hlr, -, hlpc, -⟩ := Core.late_kept y { clk := d.id, cause := 13, info := infoWord 0 false false 3 0 d.q, cont := false, vec := false, arr := now }
  rw [← he] at hlr hlpc
  refine ⟨fun k r => ?_, fun k r => ?_, ⟨y, he, ?_, ?_⟩, fun hp i hi => ?_, fun hp hh hs => ?_⟩
  · unfold Core.rdS
    rw [hlr, hyr.1, hws]; rfl
  · unfold Core.rdK
    rw [hlr, hyr.1, hwk]; rfl
  · rw [hyr.2.1, hwq]; rfl
  · rw [hyr.2.2, hwq]; rfl
  · unfold Core.sMarks
    rw [hlr, hyr.1]
    exact hwm hp hi
  · have hg := Core.pushEnds_goes w now 0 d.id (by rw [hwq]; exact hh) (by rw [hwq]; exact fun e => hs e.2)
    rw [if_pos hp] at hy
    rw [hy, hwq] at hg
    refine ⟨?_, fun h => ?_⟩
    · rw [he]
      refine Eq.trans ?_ hg.1
      unfold Core.late Core.seq
      dsimp only
      split <;> rfl
    · rw [he]
      refine Eq.trans ?_ (hg.2 (.inr h))
      unfold Core.late Core.seq
      dsimp only
      split <;> rfl

theorem exec_queueFaultTrap_main {s : State} {c : Nat} {d : Deliv} {rest : List Deliv} (hd : (s.core c).deliv = d :: rest) (ht : d.trap = true)
    (hx : d.ctx = 0) : exec (.queueFaultTrap c 0) s = .next (s.mod c (fun k => k.queueTrapped s.now d)) := by
  have hf : (s.core c).deliv.find? (fun d => d.trap && d.ctx == 0) = some d := by rw [hd, List.find?_cons_of_pos (by simp [ht, hx])]
  have he : exec (.queueFaultTrap c 0) s = execQueueFaultTrap c 0 s := rfl
  rw [he]
  unfold execQueueFaultTrap
  rw [hf]
  rfl

end Sys2Proof.Machine

namespace Sys2Proof

open Machine

/-- Settles O34: a refill that lands takes the first slot reserved for its ring position, a delivery fills its registers in turn, and a QUEUE trap
drops them and joins what is on its way to the main context. -/
theorem recordsArrive : Obligations.RecordsArrive := by
  unfold Obligations.RecordsArrive
  refine ⟨fun s pane slot => ?_, ?_, ?_⟩
  · dsimp only
    intro hany
    obtain ⟨pos, j, hpick, hmem⟩ := Queue.lands_one (Config.freePick s.tick (pane * 256 + slot)) hany
    obtain ⟨a, j', b, hq, ha⟩ := slot_split ⟨j, hmem⟩
    constructor
    · intro h
      obtain ⟨u, pas, hck, -, hc, hl⟩ := h pos j hmem
      obtain ⟨t, ht, hr, hb, hrec⟩ := exec_refillLand_lands hpick hq ha hck hc hl
      exact ⟨t, pos, a, b, u, pas, ⟨j', hq, ha⟩, hck, ht, hr, hb, hrec⟩
    · intro hst h
      obtain ⟨k, e, hck⟩ := h pos j hmem
      obtain ⟨t, ht, hrest⟩ := exec_refillLand_faults hpick hq ha hst hck
      exact ⟨t, pos, a, b, ⟨j', hq, ha⟩, ht, hrest⟩
  · intro s c d rest hd hp hno hb h0 hd8 _ _ hst f words hl
    obtain ⟨hbyte, hother, harr, hhold, hpon⟩ := State.recordLands_arrived (c := c) h0 hd8 hst hl
    exact ⟨_, exec_recordDelivery hd (Deliv.trap_eq_false hp hno) hb, hbyte, hother, harr.scalars, harr.frame, hhold, hpon, harr.status,
      harr.others⟩
  · intro s c d rest hd ht hx
    have hcore : (s.mod c (fun k => k.queueTrapped s.now d)).core c = (s.core c).queueTrapped s.now d := State.core_mod_same ..
    have hq := Core.queueTrapped_core (s.core c) s.now d
    refine ⟨_, exec_queueFaultTrap_main hd (Deliv.trap_eq_true ht) hx, State.mod_only .., ?_⟩
    unfold GoneOn
    rw [hcore]
    refine ⟨hq.scalars, hq.tokens, ?_, fun i hi hp _ => hx ▸ hq.marks hp i hi, fun hp hh hs => ?_⟩
    · obtain ⟨y, hy, hl, ht⟩ := hq.late
      rw [hy]
      exact Core.late_raises _ hl ht rfl ⟨rfl, rfl, rfl, by simp [infoWord]⟩
    · obtain ⟨h1, h2⟩ := hq.goes hp (by rw [hh]) hs
      exact ⟨h1, fun h => h2 (h.resolve_left fun e => e rfl)⟩

end Sys2Proof

end

section
set_option Elab.async false

/-! SUPPORT. A word of the S queue that issues, and one that is dropped, as O48 and O49 speak of them: `Vu.queue p` is the S queue for every p
from 2 on, and both statements say of all p but 2 that queue p stays as queue 2 changes. O48, O49 (both refuted). -/

namespace Sys2Proof.Machine

/-- Core 0 issues a range of one word, `vnop` for the S queue, which is empty. -/
def storeNopRange : State where
  cores := [(0, { q := { st := .running, issue := { act := true, cur := 0, fin := 1 } }, code := { vecLen := 1, vec := [(0, encodeV (.vnop storeNop))] } })]

theorem storeNopRange_canEnqueue : CanEnqueue storeNopRange 0x3FF storeNop where
  token := fun h => absurd h (by decide)
  scalar := fun h => by
    rcases h with h | h
    · exact absurd h (by decide)
    · exact absurd h.1 (by decide)
  fields := by decide +kernel
  registers := fun u _ _ _ _ _ r hr => by
    exact absurd hr (by simp [vDest, vSrcs])
  room := by decide +kernel

/-- Core 0's S queue holds one word, of a stream that has ended before it; its pipe runs it. -/
def endedStoreWord : State where
  pipe := some { inst := 1, tag := 1 }
  cores := [(0, { v := { qs := [{ i := .vnop storeNop, cap := { inst := 1, tag := 1 } }], ends := [(1, 0)] } })]

end Sys2Proof.Machine

namespace Sys2Proof

open Machine

/-- Refutes O48: `vnop` with MOD 2 enters queue 2, so the list `queue 3` names does not stay. -/
theorem not_vectorIssue : ¬ Obligations.VectorIssue := by
  unfold Obligations.VectorIssue
  rintro ⟨-, -, hrange, -⟩
  have hsound := hrange storeNopRange 0 1 { a := 0, fea := false, pro := 0, ker := 0, epi := 0, fin := 0 } (by decide +kernel) (.viss 0 1) List.mem_cons_self
  have hop : fld (Sparse.get 0#128 storeNopRange.me.code.vec storeNopRange.me.q.issue.cur).toNat 118 10 = 0x3FF := by decide +kernel
  have hw : vfOf (Sparse.get 0#128 storeNopRange.me.code.vec storeNopRange.me.q.issue.cur).toNat = storeNop := by decide +kernel
  have hi : decodeV (Sparse.get 0#128 storeNopRange.me.code.vec storeNopRange.me.q.issue.cur) = .ok (.vnop storeNop) := by decide +kernel
  dsimp only at hsound
  rw [hop, hw] at hsound
  obtain ⟨-, hgo⟩ := hsound.2 (by decide +kernel) (by decide +kernel)
  obtain ⟨-, henq, -⟩ := hgo (by decide +kernel)
  obtain ⟨t, -, hen, -⟩ := henq (.vnop storeNop) hi (by decide) storeNopRange_canEnqueue
  obtain ⟨-, -, -, -, -, e, u, -, -, -, -, -, -, hq, -⟩ := hen
  have h2 : (t.core 0).v.qs = [e] := hq 2
  have h3 : (t.core 0).v.qs = [] := hq 3
  exact List.cons_ne_nil _ _ (h2.symm.trans h3)

/-- Refutes O49: `vnop` with MOD 2 is dropped from queue 2, so the list `queue 3` names does not stay. -/
theorem not_vectorHeads : ¬ Obligations.VectorHeads := by
  unfold Obligations.VectorHeads
  rintro ⟨hhead, -⟩
  obtain ⟨hended, -⟩ := hhead endedStoreWord (.vnop storeNop) 0x3FF storeNop { inst := 1, tag := 1 } rfl (by decide) rfl rfl
  obtain ⟨t, -, hd, -⟩ := hended rfl rfl
  obtain ⟨-, -, -, hleft, -⟩ := hd
  have h2 : (t.core 0).v.qs = [] := hleft 2
  have h3 : (t.core 0).v.qs = [{ i := .vnop storeNop, cap := { inst := 1, tag := 1 } }] := hleft 3
  exact List.cons_ne_nil _ _ (h3.symm.trans h2)

end Sys2Proof

end
